-- ==== Sys2Proof/Word.lean ====
section
/-! DEFINITION. The word types of the machine (R1: bit 0 is the least significant bit; a byte is 8 bits). -/

namespace Sys2Proof

/-- A byte of any memory space. -/
abbrev Byte := BitVec 8
/-- A scalar register, an engine operand register, a device register (R123, R448). -/
abbrev Word := BitVec 64
/-- A bundle number (R21, R22). -/
abbrev Addr := BitVec 32
/-- A 128-byte scratchpad row, which is also a 1024-bit vector register (R3, R55). -/
abbrev Row := BitVec 1024

end Sys2Proof
end

