-- ==== Sys2Proof/Machine/Types.lean ====
section
/-! DEFINITION. The element type codes of Table 02-15. -/

namespace Sys2Proof.Ty

/-- Width of an element in bits (Table 02-15); 1 for the reserved code, so that no division by it fails. -/
def bits : Nat → Nat
  | 0 => 8 | 1 => 8 | 2 => 16 | 3 => 16 | 4 => 32 | 5 => 32 | 6 => 64 | 7 => 64
  | 8 => 16 | 9 => 16 | 10 => 32 | 11 => 8 | 12 => 8 | 13 => 2 | 14 => 4 | _ => 1

/-- i8 to n64: the integer types of the vector slots (Table 02-16). -/
def isInt (t : Nat) : Bool := t < 8

/-- f16, bf16 and f32: the floating-point arithmetic types of the vector slots (Table 02-16). -/
def isFloat (t : Nat) : Bool := t == 8 || t == 9 || t == 10

/-- Any floating-point code, the two FP8 formats included (Table 02-17). -/
def anyFloat (t : Nat) : Bool := isFloat t || t == 11 || t == 12

/-- Two's complement types, t2 and i4 included (R58, R62). -/
def signed (t : Nat) : Bool := t == 0 || t == 2 || t == 4 || t == 6 || t == 13 || t == 14

/-- The types SC `cvt` draws from (R46). -/
def isScCvt (t : Nat) : Bool := (4 ≤ t && t ≤ 7) || isFloat t

/-- Lane count of a typed vector operation (R142). -/
def lanes (w t : Nat) : Nat := w / bits t

/-- The ratio of the two widths of a conversion (R154). -/
def ratio (a b : Nat) : Nat := max (bits a) (bits b) / min (bits a) (bits b)

/-- The operand pair of a `cvt` or `xf.cvt` that R155 excludes, the part apart. -/
def cvtExcluded (src to' : Nat) : Bool := src == to' || (bits src < 8 && bits to' < 8)

end Sys2Proof.Ty
end

