-- ==== Sys2Proof/Syntax.lean ====
section
/-! DEFINITION. The instructions and indivisible steps of spec/opcode_table.json, one constructor of Instr per row,
with their operands at the widths the encodings give them.  A slot operation's guard is not part of it: the bundle
holds it (R29). -/

namespace Sys2Proof

/-- The eleven slots of a bundle, in bundle-bit order (Table 02-1). -/
inductive Slot where
  | ct | sc | va | vb | mx | ld | st | cp | sy | xf | rd
  deriving DecidableEq, Repr

/-- SLOT of a trap record (Table 18-2); 0 is the header or the fetch. -/
def Slot.code : Slot → Nat
  | .ct => 1 | .sc => 2 | .va => 3 | .vb => 4 | .mx => 5 | .ld => 6
  | .st => 7 | .cp => 8 | .sy => 9 | .xf => 10 | .rd => 11

/-- The two vector files (R141). -/
inductive VFile where
  | va | vb
  deriving DecidableEq, Repr

/-- The width field of a vector operation (Table 02-6). -/
inductive VW where
  | w256 | w512 | w1024
  deriving DecidableEq, Repr

/-- Width in bits. -/
def VW.bits : VW → Nat
  | .w256 => 256 | .w512 => 512 | .w1024 => 1024

/-- What every vector operation carries: its file (which is its slot), its width and its lane-mask field (R36). -/
structure VH where
  f : VFile
  w : VW
  m : BitVec 4
  deriving DecidableEq, Repr

/-- The type suffix of an integer SC opcode (R45). -/
inductive ITy where
  | i64 | n64 | i32 | n32
  deriving DecidableEq, Repr

/-- Source b of an SC operation: a register (I = 0) or imm22 (I = 1) (R35). -/
inductive SrcB where
  | reg (n : BitVec 6)
  | imm (v : BitVec 22)
  deriving DecidableEq, Repr

/-- Destination of a scalar compare (R46). -/
inductive CmpDst where
  | pred (n : BitVec 4)
  | cq
  deriving DecidableEq, Repr

/-- Destination of SC `mov` (Table 05-3). -/
inductive MovDst where
  | vec (f : VFile) (n : BitVec 9) (e : BitVec 4) (bc : Bool)
  | pred (n : BitVec 4)
  | lc (k : BitVec 3) (p : Bool)
  | lx (k : BitVec 3)
  | kp (p : Bool)
  | la (n : BitVec 5)
  | sa (n : BitVec 5)
  | c (n : BitVec 5)
  | x (n : BitVec 4)
  deriving DecidableEq, Repr

/-- Count of a `loop` (Table 04-5): immediate (R = 0) or `lc`k (R = 1). -/
inductive LoopCnt where
  | imm (n : BitVec 16)
  | lc (k : BitVec 3)
  deriving DecidableEq, Repr

/-- A vector register of either file. -/
structure VReg where
  f : VFile
  n : BitVec 9
  deriving DecidableEq, Repr

/-- A data register of a load, a store or `rd.mv`: a vector register or a scalar (Table 02-9, Table 09-1). -/
inductive DReg where
  | v (r : VReg)
  | s (n : BitVec 6)
  deriving DecidableEq, Repr

/-- A memory operand: base register or handle number, and the signed row offset (R41). -/
structure Mem where
  base : BitVec 5
  off : BitVec 20
  deriving DecidableEq, Repr

/-- An A source, a drain destination or a reduction source: `la`r, or handle `h`r when h is set (R39, R222). -/
structure ASrc where
  r : BitVec 5
  h : Bool
  deriving DecidableEq, Repr

/-- What a trap reports: its cause (Table 18-1), the slot, the information word, the faulting virtual address, the
faulting slot field and the rewrite word (Table 18-2). -/
structure TrapReq where
  cause : Nat
  slot : Nat
  info : Nat
  va : Nat := 0
  insn : Nat := 0
  rw : Nat := 0
  deriving DecidableEq, Repr

/-- One row of the opcode table each: slot operations first, then the steps of the hardware and of its surroundings.
Numbers of cores, clusters and contexts are those of R10. -/
inductive Instr where
  -- Issue and results (R26, R89, R101, R102, R425, R96, R382).
  -- CT (Table 04-5).
  | br (t : Addr)
  | brc (t : Addr) (f : Bool)
  | jmp (t : Addr) (k : BitVec 3)
  | call (t : Addr)
  | loop (len1 : BitVec 10) (lvl set : BitVec 3) (n : LoopCnt)
  | lpCnt (v : BitVec 16) (k : BitVec 3) (p : Bool)
  | lpIdx (v : BitVec 32) (k : BitVec 3)
  | lpStr (step start : BitVec 16) (set : BitVec 3)
  | kpSet (m : BitVec 16) (p : Bool)
  | kpClr (m : BitVec 16) (p : Bool)
  | yield (run : BitVec 20)
  | fmtLo (v : BitVec 32)
  | fmtHi (v : BitVec 32)
  | rwp (r x : Bool)
  | pri (n : BitVec 6)
  | cqPush (p : BitVec 4) (neg : Bool)
  | cqDepth (d : BitVec 6)
  -- SC (Tables 02-12, 05-1 to 05-3).
  | scAdd (t : ITy) (d a : BitVec 6) (b : SrcB)
  | scSub (t : ITy) (d a : BitVec 6) (b : SrcB)
  | scMul (t : ITy) (d a : BitVec 6) (b : SrcB)
  | scMulh (t : ITy) (d a : BitVec 6) (b : SrcB)
  | scDiv (t : ITy) (d a : BitVec 6) (b : SrcB)
  | scRem (t : ITy) (d a : BitVec 6) (b : SrcB)
  | scAnd (t : ITy) (d a : BitVec 6) (b : SrcB)
  | scOr (t : ITy) (d a : BitVec 6) (b : SrcB)
  | scXor (t : ITy) (d a : BitVec 6) (b : SrcB)
  | scLop3 (t : ITy) (d a b c : BitVec 6) (tab : BitVec 8)
  | scShl (t : ITy) (d a : BitVec 6) (b : SrcB)
  | scShr (t : ITy) (d a : BitVec 6) (b : SrcB)
  | scSar (t : ITy) (d a : BitVec 6) (b : SrcB)
  | scRot (t : ITy) (d a : BitVec 6) (b : SrcB)
  | scMin (t : ITy) (d a : BitVec 6) (b : SrcB)
  | scMax (t : ITy) (d a : BitVec 6) (b : SrcB)
  | scClz (t : ITy) (d a : BitVec 6)
  | scPopc (t : ITy) (d a : BitVec 6)
  | scSel (t : ITy) (d a b : BitVec 6) (p : BitVec 4) (neg : Bool)
  | scCmpEq (t : ITy) (d : CmpDst) (a : BitVec 6) (b : SrcB)
  | scCmpNe (t : ITy) (d : CmpDst) (a : BitVec 6) (b : SrcB)
  | scCmpLt (t : ITy) (d : CmpDst) (a : BitVec 6) (b : SrcB)
  | scCmpLe (t : ITy) (d : CmpDst) (a : BitVec 6) (b : SrcB)
  | scCmpGt (t : ITy) (d : CmpDst) (a : BitVec 6) (b : SrcB)
  | scCmpGe (t : ITy) (d : CmpDst) (a : BitVec 6) (b : SrcB)
  | li (d : BitVec 6) (imm : BitVec 22)
  | liHi (d a : BitVec 6) (imm : BitVec 22)
  | liWide (d : BitVec 6) (k : BitVec 3)
  | adds (d a b : BitVec 6) (k : BitVec 3)
  | fadd (rm : BitVec 3) (d a b : BitVec 6)
  | fmul (rm : BitVec 3) (d a b : BitVec 6)
  | scFma (rm : BitVec 3) (d a b c : BitVec 6)
  | fcmp (cond rm : BitVec 3) (d : CmpDst) (a b : BitVec 6)
  | scCvt (tt src : BitVec 4) (rm : BitVec 3) (d a : BitVec 6)
  | scMov (d : MovDst) (a : BitVec 6)
  | scSpl (a : BitVec 6) (k : BitVec 10)
  | scFil (d : BitVec 6) (k : BitVec 10)
  | rdc (d : BitVec 6) (n : BitVec 8)
  | wrc (n : BitVec 8) (a : BitVec 6)
  | errRdTrap (d a : BitVec 6)
  | errRdLog (d a : BitVec 6)
  | ctxStat (d a : BitVec 6)
  -- VA and VB (Table 06-1).
  | vAdd (h : VH) (t : BitVec 4) (d a b : BitVec 9) (rm : BitVec 3) (sat : Bool)
  | vSub (h : VH) (t : BitVec 4) (d a b : BitVec 9) (rm : BitVec 3) (sat : Bool)
  | vMul (h : VH) (t : BitVec 4) (d a b : BitVec 9) (rm : BitVec 3) (sat : Bool)
  | vMulh (h : VH) (t : BitVec 4) (d a b : BitVec 9)
  | vFma (h : VH) (t : BitVec 4) (d a b c : BitVec 9) (rm : BitVec 3)
  | vFms (h : VH) (t : BitVec 4) (d a b c : BitVec 9) (rm : BitVec 3)
  | vFnma (h : VH) (t : BitVec 4) (d a b c : BitVec 9) (rm : BitVec 3)
  | vMin (h : VH) (t : BitVec 4) (d a b : BitVec 9) (rm : BitVec 3)
  | vMax (h : VH) (t : BitVec 4) (d a b : BitVec 9) (rm : BitVec 3)
  | vAbs (h : VH) (t : BitVec 4) (d a : BitVec 9) (rm : BitVec 3)
  | vNeg (h : VH) (t : BitVec 4) (d a : BitVec 9) (rm : BitVec 3)
  | vRcp (h : VH) (t : BitVec 4) (d a : BitVec 9) (rm : BitVec 3)
  | vRsq (h : VH) (t : BitVec 4) (d a : BitVec 9) (rm : BitVec 3)
  | vExp2 (h : VH) (t : BitVec 4) (d a : BitVec 9) (rm : BitVec 3)
  | vLog2 (h : VH) (t : BitVec 4) (d a : BitVec 9) (rm : BitVec 3)
  | vTanh (h : VH) (t : BitVec 4) (d a : BitVec 9) (rm : BitVec 3)
  | vSilu (h : VH) (t : BitVec 4) (d a : BitVec 9) (rm : BitVec 3)
  | vSoftplus (h : VH) (t : BitVec 4) (d a : BitVec 9) (rm : BitVec 3)
  | vAnd (h : VH) (t : BitVec 4) (d a b : BitVec 9)
  | vOr (h : VH) (t : BitVec 4) (d a b : BitVec 9)
  | vXor (h : VH) (t : BitVec 4) (d a b : BitVec 9)
  | vLop3 (h : VH) (d a b c : BitVec 9) (tab : BitVec 8)
  | vShl (h : VH) (t : BitVec 4) (d a b : BitVec 9)
  | vShr (h : VH) (t : BitVec 4) (d a b : BitVec 9)
  | vSar (h : VH) (t : BitVec 4) (d a b : BitVec 9)
  | vCvt (h : VH) (src tt : BitVec 4) (d a : BitVec 9) (q : BitVec 5) (rm : BitVec 3)
  | vCmpEq (h : VH) (t : BitVec 4) (d : BitVec 4) (a b : BitVec 9) (rm : BitVec 3)
  | vCmpNe (h : VH) (t : BitVec 4) (d : BitVec 4) (a b : BitVec 9) (rm : BitVec 3)
  | vCmpLt (h : VH) (t : BitVec 4) (d : BitVec 4) (a b : BitVec 9) (rm : BitVec 3)
  | vCmpLe (h : VH) (t : BitVec 4) (d : BitVec 4) (a b : BitVec 9) (rm : BitVec 3)
  | vCmpGt (h : VH) (t : BitVec 4) (d : BitVec 4) (a b : BitVec 9) (rm : BitVec 3)
  | vCmpGe (h : VH) (t : BitVec 4) (d : BitVec 4) (a b : BitVec 9) (rm : BitVec 3)
  | vCmpUn (h : VH) (t : BitVec 4) (d : BitVec 4) (a b : BitVec 9) (rm : BitVec 3)
  | vCmpEqU (h : VH) (t : BitVec 4) (a b : BitVec 9) (rm : BitVec 3)
  | vCmpNeU (h : VH) (t : BitVec 4) (a b : BitVec 9) (rm : BitVec 3)
  | vCmpLtU (h : VH) (t : BitVec 4) (a b : BitVec 9) (rm : BitVec 3)
  | vCmpLeU (h : VH) (t : BitVec 4) (a b : BitVec 9) (rm : BitVec 3)
  | vCmpGtU (h : VH) (t : BitVec 4) (a b : BitVec 9) (rm : BitVec 3)
  | vCmpGeU (h : VH) (t : BitVec 4) (a b : BitVec 9) (rm : BitVec 3)
  | vCmpUnU (h : VH) (t : BitVec 4) (a b : BitVec 9) (rm : BitVec 3)
  | vSel (h : VH) (t : BitVec 4) (d a b : BitVec 9) (ms : BitVec 4)
  | vPerm (h : VH) (t : BitVec 4) (d a b c : BitVec 9)
  | vShuf (h : VH) (t : BitVec 4) (pat : BitVec 3) (d a b k : BitVec 9)
  | vBcast (h : VH) (t : BitVec 4) (d a k : BitVec 9)
  | vIota (h : VH) (t : BitVec 4) (d : BitVec 9)
  | vAny (h : VH) (t : BitVec 4) (ms : BitVec 4)
  | vAll (h : VH) (t : BitVec 4) (ms : BitVec 4)
  | vMov (h : VH) (d a : BitVec 9)
  | vMovCross (h : VH) (d a : BitVec 9)
  | vMovToScalar (f : VFile) (w : VW) (d : BitVec 6) (a e : BitVec 9)
  | vMovMask (f : VFile) (d a : BitVec 4)
  | vMovMaskCross (f : VFile) (d a : BitVec 4)
  | movIxGet (h : VH) (d : BitVec 9) (s : BitVec 6)
  | movIxPut (h : VH) (a : BitVec 9) (s : BitVec 6)
  | vSpl (f : VFile) (w : VW) (a : BitVec 9) (k : BitVec 6)
  | vFil (h : VH) (d : BitVec 9) (k : BitVec 6)
  -- LD (Table 07-4).
  | ldRow (d : VReg) (a : Mem)
  | ldRowChk (d : VReg) (a : Mem)
  | ldS (d : BitVec 6) (a : Mem)
  | ldH (d : VReg) (a : Mem)
  | ldHChk (d : VReg) (a : Mem)
  | ldg (h : BitVec 5) (cnt1 : BitVec 4) (a : Mem)
  | ldPr (d : VReg) (a : Mem)
  | ldSb (d : VReg) (a : Mem)
  | ldIdx (d : VReg) (b k : BitVec 5) (m : BitVec 15)
  | ldBc (d : VReg) (a : Mem)
  | ldZ (d : VReg) (a : Mem)
  | ldAcq (sc : BitVec 3) (d : DReg) (a : Mem)
  -- ST and atomics (Table 07-5, R191), and what their accesses do later (R177, R191, R194).
  | stRow (v : VReg) (a : Mem)
  | stS (n : BitVec 6) (a : Mem)
  | stH (v : VReg) (a : Mem)
  | stg (v : DReg) (a : Mem)
  | stNt (v : DReg) (a : Mem)
  | stPr (v : VReg) (a : Mem)
  | stSb (v : VReg) (a : Mem)
  | stRel (sc : BitVec 3) (v : DReg) (a : Mem)
  | aadd (gl w64 : Bool) (r : BitVec 6) (a : Mem)
  | amin (gl w64 : Bool) (r : BitVec 6) (a : Mem)
  | amax (gl w64 : Bool) (r : BitVec 6) (a : Mem)
  | axch (gl w64 : Bool) (r : BitVec 6) (a : Mem)
  | acas (gl w64 : Bool) (r : BitVec 6) (a : Mem)
  | aand (gl w64 : Bool) (r : BitVec 6) (a : Mem)
  | aor (gl w64 : Bool) (r : BitVec 6) (a : Mem)
  | axor (gl w64 : Bool) (r : BitVec 6) (a : Mem)
  -- SY (Table 08-2).
  | nbInit (b : BitVec 6) (n : BitVec 10)
  | nbExp (b s : BitVec 6)
  | nbArr (b : BitVec 6) (peer : Option (BitVec 2))
  | nbWait (b : BitVec 6) (q : Bool)
  | nbStat (d b : BitVec 6) (sel : Bool)
  | tlWait (e : BitVec 3) (k : Bool) (r : BitVec 6)
  | tlRead (d : BitVec 6) (e : BitVec 3) (sel : BitVec 2)
  | invL1 (rg : Option (BitVec 6 × BitVec 14))
  | wbL1 (rg : Option (BitVec 6 × BitVec 14))
  | hBind (h : BitVec 5) (s : BitVec 6)
  | hAdvc (h : BitVec 5) (k : BitVec 14)
  | hAdvp (h : BitVec 5) (k : BitVec 14)
  | hStat (d : BitVec 6) (h : BitVec 5) (sel : Bool)
  | drain (sc : BitVec 3)
  | fence (sc : BitVec 3)
  -- XF (Table 09-2).
  | xfCvt (tt src : BitVec 4) (d a q : BitVec 4) (tile : Bool)
  | xfTr (e : BitVec 2) (d a : BitVec 4)
  | xfExpZr (d a : BitVec 4)
  | xfExpSp24 (e : BitVec 2) (d a : BitVec 4)
  | xfPack (e : BitVec 2) (d a : BitVec 4)
  | xfRot (d a b : BitVec 4) (k : BitVec 7)
  | xfScl (t : BitVec 2) (v : Bool) (rm : BitVec 3) (d a b : BitVec 4)
  | xfColW (d b : BitVec 4)
  | xfColChk (t : BitVec 4) (a : BitVec 4)
  | xfColRd (d a : BitVec 4)
  | xfSwz (d a : BitVec 4) (sh : BitVec 3) (k : Bool)
  | xfMvRow (d a : BitVec 4)
  | xfMvScalar (n : BitVec 6) (a : BitVec 4)
  | xfMvReg (d a : BitVec 4)
  -- RD (Table 09-1).
  | rdAdd (l : BitVec 2) (a : ASrc) (t : BitVec 2) (fold : BitVec 3)
  | rdKadd (l : BitVec 2) (a : ASrc) (t : BitVec 2) (fold : BitVec 3)
  | rdMax (l : BitVec 2) (a : ASrc) (t : BitVec 2) (fold : BitVec 3)
  | rdMin (l : BitVec 2) (a : ASrc) (t : BitVec 2) (fold : BitVec 3)
  | rdAmax (l : BitVec 2) (a : ASrc) (t : BitVec 2) (fold : BitVec 3)
  | rdMv (l mode t : BitVec 2) (d : DReg) (k : BitVec 5) (clr : Bool)
  | rdClr (m : BitVec 4) (init t : BitVec 2)
  -- MX (Tables 10-5, 11-2, R295) and the rewrite operations of CT.
  | mma (acc : BitVec 3) (ws : BitVec 6) (a : ASrc) (rows : BitVec 5) (t ovw chk : Bool)
  | mop (acc : BitVec 3) (ws : BitVec 6) (a : ASrc) (rows : BitVec 5) (ovw : Bool)
  | mldW (ws : BitVec 6) (a : ASrc) (sp chk : Bool)
  | mdrain (acc : BitVec 3) (a : ASrc) (rows : BitVec 5)
  | mrow (acc : BitVec 3) (f : VFile) (q : BitVec 7) (mode : BitVec 2) (i : BitVec 5)
  | mclr (acc : BitVec 3)
  | mqStat (d : BitVec 6)
  | mdist (acc : BitVec 3) (ws : BitVec 6) (a : ASrc) (rows : BitVec 5) (t : Bool) (met : BitVec 2) (tie : Bool) (pass : BitVec 8) (chk : Bool)
  | mbestClr (rows : BitVec 5)
  | mbestRd (f : VFile) (q : BitVec 8)
  | cupd (p : BitVec 8) (a : ASrc) (rows : BitVec 5)
  | cfin (ws : BitVec 6) (la : BitVec 5) (z : Bool)
  | rwStat (d : BitVec 6)
  | rwLd (img : BitVec 6)
  | rwInv (k : BitVec 6)
  -- CP: the copy engine and the handle table (Table 14-4), and the steps of both and of the static network.
  | cpy1d (ca cb : BitVec 5) (rep : Option (BitVec 5))
  | cpyNd (ca cb : BitVec 5) (rep : Option (BitVec 5))
  | cpyMc (ca cb : BitVec 5) (rep : Option (BitVec 5))
  | cpySnd (ca cb : BitVec 5) (rep : Option (BitVec 5))
  | cpyZrb (ca cb : BitVec 5) (rep : Option (BitVec 5))
  | cpySp24 (ca cb : BitVec 5) (rep : Option (BitVec 5))
  | cpyStrm (ca cb : BitVec 5) (rep : Option (BitVec 5))
  | cpyStop (ca : BitVec 5) (rep : Option (BitVec 5))
  | cpyFill (ca cb : BitVec 5) (rep : Option (BitVec 5))
  | hndNew (ca cd : BitVec 5)
  | hndFree (ca : BitVec 5) (rep : Option (BitVec 5))
  | hndGen (ca cd : BitVec 5)
  -- CP: the bindery (Table 15-2) and its steps.
  | frIn (ca cb : BitVec 5) (rep : Option (BitVec 5))
  | frOut (ca cb : BitVec 5) (rep : Option (BitVec 5))
  | frSwap (ca cb : BitVec 5) (rep : Option (BitVec 5))
  | frSnap (ca cb : BitVec 5) (rep : Option (BitVec 5))
  | frFork (ca cb : BitVec 5) (rep : Option (BitVec 5))
  | frRoll (ca cb : BitVec 5) (rep : Option (BitVec 5))
  | frRel (ca cb : BitVec 5) (rep : Option (BitVec 5))
  | frPin (ca cb : BitVec 5) (rep : Option (BitVec 5))
  | frChk (ca cb : BitVec 5) (rep : Option (BitVec 5))
  | frRes (ca cb : BitVec 5) (rep : Option (BitVec 5))
  -- CP: the scan engine (Table 13-3) and its steps.
  | scnDiag (ca cb : BitVec 5) (rep : Option (BitVec 5))
  | scnLin (ca : BitVec 5) (rep : Option (BitVec 5))
  | scnCin (ca : BitVec 5) (rep : Option (BitVec 5))
  | scnCout (ca : BitVec 5) (rep : Option (BitVec 5))
  | scnFade (ca : BitVec 5) (rep : Option (BitVec 5))
  | scnCfg (ca : BitVec 5) (rep : Option (BitVec 5))
  -- CP: sampler, node walker and commit engine (Table 17-1) and their steps.
  | smpRun (ca cb : BitVec 5) (rep : Option (BitVec 5))
  | smpShard (ca cb : BitVec 5) (rep : Option (BitVec 5))
  | smpMerge (ca cb : BitVec 5) (rep : Option (BitVec 5))
  | nwStart (ca cb : BitVec 5) (rep : Option (BitVec 5))
  | cmAcc (ca cb : BitVec 5) (rep : Option (BitVec 5))
  | cmEmit (ca cb : BitVec 5) (rep : Option (BitVec 5))
  | cmTrim (ca cb : BitVec 5) (rep : Option (BitVec 5))
  -- Tasks (Table 16-3).
  | fork (t : Addr) (pol : BitVec 2)
  | sync (s : BitVec 6)
  | wake (t : Addr) (k : BitVec 3) (c : BitVec 2)
  -- System (Table 18-9), pre-emption and soft errors.
  | trap (n : BitVec 16)
  | rfe (s : Option (BitVec 6))
  | sys (n : BitVec 16)
  | kill (s : BitVec 6)
  | tlbInvAll (dev : Bool)
  | tlbInvFn (f : BitVec 4) (dev : Bool)
  | tlbInvPg (s : BitVec 6) (f : BitVec 4) (dev : Bool)
  | pgret (s d : BitVec 6)
  | wayq (s d : BitVec 6)
  | wayqRel (s d : BitVec 6)
  | hold (s : BitVec 6)
  | holdRel (s : BitVec 6)
  -- Launch queues, the host, peers, images, security, debug, power and attestation (19).
  -- Operations without an operand.
  | skippedBundle
  | ctNop
  | ret
  | halt
  | cqFlush
  | wdog
  | scNop
  | vNop
  | ldNop
  | stNop
  | syNop
  | xfNop
  | xfColClr
  | rdNop
  | mxNop
  | mwait
  | rwSup
  | rwEn
  | rwDis
  | rwInvAll
  | cpNop
  | cpyClr
  | binderyInitDone
  | sleep
  | hintNext
  | waitPred
  | imgGo
  | imageInstallDone
  | secRaiseMeasured
  | secRaiseSealed
  | dbgReqNone
  | pwrReqRun
  | pwrReqSlow
  | pwrReqIdle
  | pwrReqPark
  | idleEntry
  | idleWakeAccess
  | powerOn
  | powerLoss
  | bndCtlEnWrite
  | spdmGetVersion
  | spdmGetCapabilities
  | spdmNegotiateAlgorithms
  | spdmGetDigests
  | spdmGetCertificate
  | spdmChallenge
  | spdmGetMeasurements
  | spdmKeyExchange
  | spdmFinish
  | spdmEndSession
  -- Status queries: the numbers of the registers they name (ca, cd; d for spawnStat) stand in the argument list of State.
  | cpyQ
  | frStatOp
  | frStatSession
  | frStatBanks
  | frStatClear
  | smpStatQuery
  | smpStatClear
  | nwStatQuery
  | nwStatClear
  | cmStatQuery
  | cmStatClear
  | spawnStat
  -- Steps of the hardware and of its surroundings; what one of them names stands in the argument list of State.
  | resultLanding  -- (core ctx i : Nat)
  | runWatchdogExpiry  -- (core ctx : Nat)
  | systemWatchdogExpiry  -- (core : Nat)
  | trapEntry  -- (r : TrapReq)
  | contextBecomesReady  -- (core ctx : Nat)
  | bankPreparation  -- (core ctx : Nat)
  | ldgRowArrival  -- (core ctx i : Nat)
  | postedWritePerform  -- (core ctx i : Nat)
  | atomicReturn  -- (core ctx i : Nat)
  | translationWalkComplete  -- (cl i : Nat)
  | l1Eviction  -- (core line : Nat)
  | sectorFetch  -- (key sector : Nat)
  | dnEscapeTimeout  -- (core ctx i : Nat)
  | barrierUpdate  -- (core b : Nat)
  | cellPlaneLoad  -- (core slot : Nat) (pair : Bool) (plane : Nat)
  | matrixQueueComplete  -- (core : Nat)
  | copyCommandStart  -- (core : Nat)
  | copyBeat  -- (core i : Nat)
  | copyCommandComplete  -- (core i : Nat)
  | streamRow  -- (core i : Nat)
  | circuitRowSend  -- (core circ : Nat)
  | circuitRowLanding  -- (core : Nat)
  | arrivalHandlerStart  -- (core : Nat)
  | binderyCommandStart  -- (cl : Nat)
  | binderyCommandComplete  -- (cl i : Nat)
  | rotationCommand  -- (core fn : Nat) (ca cb : Word) (bank circ : Nat)
  | scanCommandStart  -- (core : Nat)
  | scanCommandComplete  -- (core : Nat)
  | generationCommandStart  -- (die eng : Nat)
  | generationCommandComplete  -- (die i : Nat)
  | trimMessageLanding  -- (i : Nat)
  | spawnStart  -- (cl : Nat)
  | childCompletion  -- (cl i : Nat)
  | overflowEntryMove  -- (cl : Nat)
  | preemption  -- (core ctx pa : Nat)
  | preemptionRestore  -- (pa core ctx : Nat)
  | softErrorCorrected  -- (unit index pa set way : Nat)
  | ueCleanStackLine  -- (line : Nat)
  | ueLpddr6  -- (pa : Nat)
  | ueCoreSram  -- (core what x reader : Nat)
  | ueDirtyStackLine  -- (key : Nat)
  | ueOwnerMessage  -- (i : Nat)
  | launchRecord  -- (q : Nat)
  | taskPlacement  -- (i : Nat)
  | kernelCompletion  -- (i : Nat)
  | hostBar2Write  -- (fn addr : Nat) (bs : List Byte)
  | peerAccess  -- (write : Bool) (addr : Nat) (bs : List Byte)
  | dbgReqObserve  -- (tok : Bool)
  | dbgReqInvasive  -- (tok : Bool)
  | unitReady  -- (reg bit : Nat)
  | circEnWrite  -- (core circ : Nat)
  | errstsClear  -- (off : Nat)
  | registerWrite  -- (fn off : Nat) (v : Word)
  | debugHaltRequest  -- (core : Nat)
  | ideKmRequest  -- (stream : Nat) (key : BitVec 256)
  deriving DecidableEq, Repr

/-- A slot operation with its guard field (Table 02-3) as it stands in a bundle. -/
structure SOp where
  slot : Slot
  g : BitVec 5
  i : Instr
  /-- The register numbers of a status query: ca and cd, or d alone for spawnStat. -/
  arg : List Nat := []
  deriving DecidableEq, Repr

/-- The bundle header (Table 02-2); kind 0 normal, 1 yield. -/
structure Hdr where
  kind : BitVec 2
  ske : Bool
  skp : BitVec 4
  sks : Bool
  m : Bool
  fio : Bool
  lio : Bool
  lvl : BitVec 3
  deriving DecidableEq, Repr

/-- A decoded bundle: its header and its occupied slots in bundle-bit order; an absent slot is that slot's nop (R32). -/
structure Bundle where
  hdr : Hdr
  ops : List SOp
  deriving DecidableEq, Repr

end Sys2Proof
end

