-- ==== Sys2Proof/WellFormed.lean ====
section
/-! DEFINITION. Which instructions an encoding exists for: the field values that the encoding rules neither exclude nor
reserve (R31 steps 2 and 3).  A step of the hardware that no bundle encodes has no condition. -/

namespace Sys2Proof

/-- A level, an `lc` or an `lx` index (R111): 1 to 6. -/
def wfLevel (k : BitVec 3) : Bool := k != 0 && k != 7

/-- An instruction rounding code (Table 02-18): 000 to 100. -/
def wfRm (rm : BitVec 3) : Bool := rm.toNat ≤ 4

/-- A named barrier (R214). -/
def wfNb (b : BitVec 6) : Bool := b.toNat < 48

/-- A pointer move's k (R214): 1 to 8192. -/
def wfAdv (k : BitVec 14) : Bool := 1 ≤ k.toNat && k.toNat ≤ 8192

/-- Integer or float type of a vector arithmetic operation; an integer one has no rounding code (R38, R57). -/
def wfNum (t : BitVec 4) (rm : BitVec 3) : Bool :=
  (Ty.isInt t.toNat && rm == 0) || (Ty.isFloat t.toNat && wfRm rm)

/-- A type of width 8 or more (Table 06-1). -/
def wfWide (t : BitVec 4) : Bool := t.toNat ≤ 12

/-- Destination of SC `mov` (R135). -/
def wfMov : MovDst → Bool
  | .vec _ _ e bc => !bc || e == 0
  | .lc k _ => wfLevel k
  | .lx k => wfLevel k
  | _ => true

/-- Context registers `rdc` names (Table 05-4). -/
def wfRdc (n : BitVec 8) : Bool :=
  n.toNat ≤ 6 || (8 ≤ n.toNat && n.toNat ≤ 0xD) || (0x10 ≤ n.toNat && n.toNat ≤ 0x15) ||
  n == 0x18 || n == 0x19 || n == 0x20 || n == 0x21

/-- The encodable instructions. -/
def Instr.wf : Instr → Bool
  | .jmp _ k => k != 7
  | .loop _ lvl _ n => wfLevel lvl && (match n with | .imm c => c != 0 | .lc k => wfLevel k)
  | .lpCnt _ k _ => wfLevel k
  | .lpIdx _ k => wfLevel k
  | .lpStr _ _ set => set != 0
  | .fmtLo v => v.toNat / 2 ^ 22 == 0
  | .fmtHi v => v.toNat / 2 ^ 13 % 8 == 0 && v.toNat / 2 ^ 29 == 0
  | .fork _ pol => pol != 3
  | .tlbInvFn f _ => f.toNat ≤ 8
  | .tlbInvPg _ f _ => f.toNat ≤ 8
  | .fadd rm _ _ _ => wfRm rm
  | .fmul rm _ _ _ => wfRm rm
  | .scFma rm _ _ _ _ => wfRm rm
  | .fcmp cond rm _ _ _ => cond != 7 && wfRm rm
  | .scCvt tt src rm _ _ => wfRm rm && Ty.isScCvt tt.toNat && Ty.isScCvt src.toNat && tt != src
  | .scMov d _ => wfMov d
  | .rdc _ n => wfRdc n
  | .wrc n _ => n.toNat ≤ 2
  | .vAdd _ t _ _ _ rm sat => wfNum t rm && (Ty.isInt t.toNat || !sat)
  | .vSub _ t _ _ _ rm sat => wfNum t rm && (Ty.isInt t.toNat || !sat)
  | .vMul _ t _ _ _ rm sat => wfNum t rm && (Ty.isInt t.toNat || !sat)
  | .vMulh _ t _ _ _ => Ty.isInt t.toNat
  | .vFma _ t _ _ _ _ rm => Ty.isFloat t.toNat && wfRm rm
  | .vFms _ t _ _ _ _ rm => Ty.isFloat t.toNat && wfRm rm
  | .vFnma _ t _ _ _ _ rm => Ty.isFloat t.toNat && wfRm rm
  | .vMin _ t _ _ _ rm => wfNum t rm
  | .vMax _ t _ _ _ rm => wfNum t rm
  | .vAbs _ t _ _ rm => wfNum t rm
  | .vNeg _ t _ _ rm => wfNum t rm
  | .vRcp _ t _ _ rm => Ty.isFloat t.toNat && wfRm rm
  | .vRsq _ t _ _ rm => Ty.isFloat t.toNat && wfRm rm
  | .vExp2 _ t _ _ rm => Ty.isFloat t.toNat && wfRm rm
  | .vLog2 _ t _ _ rm => Ty.isFloat t.toNat && wfRm rm
  | .vTanh _ t _ _ rm => Ty.isFloat t.toNat && wfRm rm
  | .vSilu _ t _ _ rm => Ty.isFloat t.toNat && wfRm rm
  | .vSoftplus _ t _ _ rm => Ty.isFloat t.toNat && wfRm rm
  | .vAnd _ t _ _ _ => Ty.isInt t.toNat
  | .vOr _ t _ _ _ => Ty.isInt t.toNat
  | .vXor _ t _ _ _ => Ty.isInt t.toNat
  | .vShl _ t _ _ _ => Ty.isInt t.toNat
  | .vShr _ t _ _ _ => Ty.isInt t.toNat
  | .vSar _ t _ _ _ => Ty.isInt t.toNat
  | .vCvt _ src tt _ _ q rm => wfRm rm && src != 15 && tt != 15 && !Ty.cvtExcluded src.toNat tt.toNat &&
      q.toNat < Ty.ratio src.toNat tt.toNat
  | .vCmpEq _ t _ _ _ rm => wfNum t rm
  | .vCmpNe _ t _ _ _ rm => wfNum t rm
  | .vCmpLt _ t _ _ _ rm => wfNum t rm
  | .vCmpLe _ t _ _ _ rm => wfNum t rm
  | .vCmpGt _ t _ _ _ rm => wfNum t rm
  | .vCmpGe _ t _ _ _ rm => wfNum t rm
  | .vCmpUn _ t _ _ _ rm => Ty.isFloat t.toNat && wfRm rm
  | .vCmpEqU _ t _ _ rm => wfNum t rm
  | .vCmpNeU _ t _ _ rm => wfNum t rm
  | .vCmpLtU _ t _ _ rm => wfNum t rm
  | .vCmpLeU _ t _ _ rm => wfNum t rm
  | .vCmpGtU _ t _ _ rm => wfNum t rm
  | .vCmpGeU _ t _ _ rm => wfNum t rm
  | .vCmpUnU _ t _ _ rm => Ty.isFloat t.toNat && wfRm rm
  | .vSel _ t _ _ _ _ => wfWide t
  | .vPerm _ t _ _ _ _ => wfWide t
  | .vShuf h t pat _ _ b k => wfWide t && pat != 7 && ((1 ≤ pat.toNat && pat.toNat ≤ 4) || b == 0) &&
      (if pat == 5 then k.toNat < Ty.lanes h.w.bits t.toNat else k == 0)
  | .vBcast h t _ _ k => wfWide t && k.toNat < Ty.lanes h.w.bits t.toNat
  | .vIota _ t _ => Ty.isInt t.toNat || Ty.isFloat t.toNat
  | .vAny _ t _ => wfWide t
  | .vAll _ t _ => wfWide t
  | .vMovToScalar _ w _ _ e => e.toNat < w.bits / 64
  | .acas _ _ r _ => r != 63
  | .ldAcq sc _ _ => sc.toNat < 6
  | .stRel sc _ _ => sc.toNat < 6
  | .nbInit b n => wfNb b && n != 0
  | .nbExp b _ => wfNb b
  | .nbArr b _ => wfNb b
  | .nbWait b _ => wfNb b
  | .nbStat _ b _ => wfNb b
  | .tlWait e k r => e.toNat < 6 && (k || r.toNat < 32)
  | .tlRead _ e _ => e.toNat < 6
  | .hAdvc _ k => wfAdv k
  | .hAdvp _ k => wfAdv k
  | .drain sc => sc.toNat < 6
  | .fence sc => sc.toNat < 6
  | .xfCvt tt src _ _ q _ => tt != 15 && src != 15 && !Ty.cvtExcluded src.toNat tt.toNat &&
      q.toNat < Ty.ratio src.toNat tt.toNat && Ty.ratio src.toNat tt.toNat ≤ 16
  | .xfTr e _ _ => e != 3
  | .xfExpSp24 e _ _ => e.toNat < 2
  | .xfPack e _ _ => e != 3
  | .xfScl t v rm _ _ _ => t != 3 && wfRm rm && (!v || t == 0)
  | .xfColChk t _ => t != 15
  | .rdAdd _ _ t fold => t != 3 && fold.toNat ≤ 5
  | .rdKadd _ _ t fold => t != 3 && fold.toNat ≤ 5
  | .rdMax _ _ t fold => t != 3 && fold.toNat ≤ 5
  | .rdMin _ _ t fold => t != 3 && fold.toNat ≤ 5
  | .rdAmax _ _ t fold => t == 0 && fold.toNat ≤ 5
  | .rdMv _ mode t d k _ => t != 3 && (mode == 0 || t == 0) && (match d with | .v _ => k == 0 | .s _ => true)
  | .rdClr m init t => m != 0 && init != 3 && t != 3 && (init != 0 || t == 0)
  | .mma _ _ _ rows t _ _ => !t || (rows.toNat + 1) % 8 == 0
  | .mrow _ _ _ mode _ => mode != 3
  | .mdist _ _ _ rows t met _ _ _ => (!t || (rows.toNat + 1) % 8 == 0) && met != 3
  | .cupd _ a _ => a.h || a.r != 31
  | _ => true

end Sys2Proof
end

