-- ==== Sys2Proof/Decode.lean ====
section
/-! DEFINITION. Bundles to instructions and back (R21 to R54 and the encoding tables of the class chapters): per slot a
total decoder that names every unassigned, excluded or reserved encoding, the encoder written from the same tables, and
the bundle around them. -/

namespace Sys2Proof

/-- Bits ⟨lo+w−1:lo⟩ of x. -/
def fld (x lo w : Nat) : Nat := x / 2 ^ lo % 2 ^ w

/-- The same field as a bit vector. -/
def bv (x lo w : Nat) : BitVec w := BitVec.ofNat w (x / 2 ^ lo)

/-- Bit lo of x. -/
def bt (x lo : Nat) : Bool := x / 2 ^ lo % 2 == 1

/-- A field at fault: its low bit, its width and the reason code of Table 18-10. -/
structure BadField where
  lo : Nat
  w : Nat
  why : Nat
  deriving DecidableEq, Repr

/-- What decoding one slot field finds: the instruction its opcode names, the excluded values (R31 step 2), the reserved
fields and codes (step 3) and whether the opcode is privileged (step 4). -/
structure Dec where
  ins : Option Instr
  arg : List Nat := []
  ill : List BadField := []
  rsv : List BadField := []
  priv : Bool := false
  deriving DecidableEq, Repr

/-- The reserved fields of a list that are not zero. -/
def resv (x : Nat) (l : List (Nat × Nat)) : List BadField :=
  (l.filter fun f => fld x f.1 f.2 != 0).map fun f => { lo := f.1, w := f.2, why := 1 }

/-- A reserved code in a defined field, when the condition holds (R31 step 3). -/
def rcode (c : Bool) (lo w : Nat) : List BadField := if c then [{ lo := lo, w := w, why := 2 }] else []

/-- An excluded value, when the condition holds (R31 step 2). -/
def excl (c : Bool) (lo w : Nat) : List BadField := if c then [{ lo := lo, w := w, why := 2 }] else []

/-- A data file, register file or type that the opcode does not accept, when the condition holds (Table 18-10 reason 7). -/
def wrongTy (c : Bool) (lo w : Nat) : List BadField := if c then [{ lo := lo, w := w, why := 7 }] else []

/-- An unassigned opcode (R44). -/
def unassigned (lo w : Nat) : Dec := { ins := none, ill := [{ lo := lo, w := w, why := 1 }] }

/-- A slot's nop (R32): every other bit is reserved. -/
def decNop (i : Instr) (x w : Nat) : Dec := { ins := some i, rsv := resv x [(0, w)] }

/-- A level, `lc` or `lx` code at lo: 0 and 7 are reserved (R111). -/
def badLevel (x lo : Nat) : List BadField := rcode (fld x lo 3 == 0 || fld x lo 3 == 7) lo 3

/-- A bit of the reply field (R43). -/
def repOf (x : Nat) : Option (BitVec 5) := if bt x 5 then some (bv x 6 5) else none


/-- CT (Tables 02-11, 04-5, 16-3, 18-9, R295): operands ⟨36:0⟩, guard ⟨41:37⟩, opcode ⟨47:42⟩. -/
def decCt (x : Nat) : Dec :=
  match fld x 42 6 with
  | 0x00 => decNop .ctNop x 42
  | 0x01 => { ins := some (.br (bv x 0 32)), rsv := resv x [(32, 5)] }
  | 0x02 => { ins := some (.brc (bv x 0 32) (bt x 32)), rsv := resv x [(33, 4)] }
  | 0x03 => { ins := some (.jmp (bv x 0 32) (bv x 32 3)), rsv := resv x [(35, 2)] ++ rcode (fld x 32 3 == 7) 32 3 }
  | 0x04 => { ins := some (.call (bv x 0 32)), rsv := resv x [(32, 5)] }
  | 0x05 => { ins := some (.ret), rsv := resv x [(0, 37)] }
  | 0x06 => if bt x 16 then
      { ins := some (.loop (bv x 0 10) (bv x 10 3) (bv x 13 3) (.lc (bv x 17 3)))
        rsv := resv x [(20, 13), (33, 4)] ++ badLevel x 10 ++ badLevel x 17 }
    else
      { ins := some (.loop (bv x 0 10) (bv x 10 3) (bv x 13 3) (.imm (bv x 17 16)))
        ill := excl (fld x 17 16 == 0) 17 16
        rsv := resv x [(33, 4)] ++ badLevel x 10 }
  | 0x07 => { ins := some (.lpCnt (bv x 0 16) (bv x 16 3) (bt x 19)), rsv := resv x [(20, 17)] ++ badLevel x 16 }
  | 0x08 => { ins := some (.lpIdx (bv x 0 32) (bv x 32 3)), rsv := resv x [(35, 2)] ++ badLevel x 32 }
  | 0x09 => { ins := some (.lpStr (bv x 0 16) (bv x 16 16) (bv x 32 3)), ill := excl (fld x 32 3 == 0) 32 3, rsv := resv x [(35, 2)] }
  | 0x0A => { ins := some (.kpSet (bv x 0 16) (bt x 16)), rsv := resv x [(17, 20)] }
  | 0x0B => { ins := some (.kpClr (bv x 0 16) (bt x 16)), rsv := resv x [(17, 20)] }
  | 0x0C => { ins := some (.yield (bv x 0 20)), rsv := resv x [(20, 17)] }
  | 0x0D => { ins := some (.halt), rsv := resv x [(0, 37)] }
  | 0x0E => if bt x 32 then
      { ins := some (.fmtHi (bv x 0 32)), rsv := resv x [(13, 3), (29, 3), (33, 4)] }
    else { ins := some (.fmtLo (bv x 0 32)), rsv := resv x [(22, 10), (33, 4)] }
  | 0x0F => { ins := some (.rwp (bt x 0) (bt x 1)), rsv := resv x [(2, 35)] }
  | 0x10 => { ins := some (.pri (bv x 0 6)), rsv := resv x [(6, 31)] }
  | 0x11 => { ins := some (.cqPush (bv x 0 4) (bt x 4)), rsv := resv x [(5, 32)] }
  | 0x12 => { ins := some (.cqFlush), rsv := resv x [(0, 37)] }
  | 0x13 => { ins := some (.cqDepth (bv x 0 6)), rsv := resv x [(6, 31)] }
  | 0x14 => { ins := some (.wdog), rsv := resv x [(0, 37)] }
  | 0x18 => { ins := some (.fork (bv x 0 32) (bv x 32 2)), rsv := resv x [(34, 3)] ++ rcode (fld x 32 2 == 3) 32 2 }
  | 0x19 => { ins := some (.sync (bv x 0 6)), rsv := resv x [(6, 31)] }
  | 0x1A => { ins := some (.sleep), rsv := resv x [(0, 37)] }
  | 0x1B => { ins := some (.wake (bv x 0 32) (bv x 32 3) (bv x 35 2)) }
  | 0x1C => { ins := some (.hintNext), rsv := resv x [(0, 37)] }
  | 0x1D => { ins := some (.waitPred), rsv := resv x [(0, 37)] }
  | 0x1E => { ins := some .spawnStat, arg := [fld x 0 6], rsv := resv x [(6, 31)] }
  | 0x20 => { ins := some (.rwLd (bv x 0 6)), rsv := resv x [(6, 31)] }
  | 0x21 => { ins := some (.rwEn), rsv := resv x [(0, 37)] }
  | 0x22 => { ins := some (.rwDis), rsv := resv x [(0, 37)] }
  | 0x23 => if bt x 6 then { ins := some .rwInvAll, rsv := resv x [(0, 6), (7, 30)] }
    else { ins := some (.rwInv (bv x 0 6)), rsv := resv x [(7, 30)] }
  | 0x30 => { ins := some (.trap (bv x 0 16)), rsv := resv x [(16, 21)] }
  | 0x31 => if bt x 0 then { ins := some (.rfe (some (bv x 1 6))), rsv := resv x [(7, 30)], priv := true }
    else { ins := some (.rfe none), rsv := resv x [(1, 6), (7, 30)], priv := true }
  | 0x32 => { ins := some (.sys (bv x 0 16)), rsv := resv x [(16, 21)] }
  | 0x33 => { ins := some (.kill (bv x 0 6)), rsv := resv x [(6, 31)], priv := true }
  | 0x34 => match fld x 0 2 with
    | 0 => { ins := some (.tlbInvAll (bt x 12)), rsv := resv x [(2, 4), (6, 6), (13, 24)], priv := true }
    | 1 => { ins := some (.tlbInvFn (bv x 2 4) (bt x 12)), ill := excl (9 ≤ fld x 2 4) 2 4
             rsv := resv x [(6, 6), (13, 24)], priv := true }
    | 2 => { ins := some (.tlbInvPg (bv x 6 6) (bv x 2 4) (bt x 12)), ill := excl (9 ≤ fld x 2 4) 2 4
             rsv := resv x [(13, 24)], priv := true }
    | _ => { ins := none, ill := excl true 0 2, rsv := resv x [(13, 24)], priv := true }
  | 0x35 => { ins := some (.pgret (bv x 0 6) (bv x 6 6)), rsv := resv x [(12, 25)], priv := true }
  | 0x36 => if bt x 12 then { ins := some (.wayq (bv x 0 6) (bv x 6 6)), rsv := resv x [(13, 24)], priv := true }
    else { ins := some (.wayqRel (bv x 0 6) (bv x 6 6)), rsv := resv x [(13, 24)], priv := true }
  | 0x37 => if bt x 6 then { ins := some (.hold (bv x 0 6)), rsv := resv x [(7, 30)], priv := true }
    else { ins := some (.holdRel (bv x 0 6)), rsv := resv x [(7, 30)], priv := true }
  | _ => unassigned 42 6

/-- Type suffix of an integer SC opcode (R45). -/
def ityOf (x : Nat) : ITy :=
  match fld x 40 2 with | 0 => .i64 | 1 => .n64 | 2 => .i32 | _ => .n32

/-- Source b or imm22 (R35). -/
def srcBOf (x : Nat) : SrcB := if bt x 22 then .imm (bv x 0 22) else .reg (bv x 16 6)

/-- The unused fields of a three-operand SC operation whose I = 0 form uses neither c nor the modifier. -/
def scRest (x : Nat) : List BadField := if bt x 22 then [] else resv x [(0, 10), (10, 6)]

/-- Compare destination (R46). -/
def cmpDstOf (x : Nat) : CmpDst := if fld x 29 6 == 32 then .cq else .pred (bv x 29 4)

/-- Reserved compare destinations (R46). -/
def cmpDstRsv (x : Nat) : List BadField :=
  (if bt x 34 then [] else resv x [(33, 1)]) ++ rcode (bt x 34 && fld x 29 6 != 32) 29 6

/-- I = 1 where Table 02-12 says "no". -/
def noImm (x : Nat) : List BadField := excl (bt x 22) 22 1

/-- I = 0 where Table 02-12 says "only". -/
def onlyImm (x : Nat) : List BadField := excl (!bt x 22) 22 1

/-- An instruction rounding field at lo: codes 101 to 111 are reserved (R63). -/
def badRm (x lo : Nat) : List BadField := rcode (5 ≤ fld x lo 3) lo 3

/-- The destination number of SC `mov`: c⟨2:0⟩ above d (R135). -/
def movNum (x : Nat) : Nat := fld x 29 6 + 64 * fld x 10 3

/-- SC `mov` (R135, Table 05-3). -/
def decScMov (x : Nat) : Dec :=
  let a : BitVec 6 := bv x 23 6
  let always := resv x [(6, 4), (13, 3), (20, 2)]
  let n := movNum x
  let numBad (c : Bool) := rcode c 29 6
  match fld x 0 4 with
  | 0 => { ins := none, ill := noImm x ++ wrongTy true 0 4, rsv := always }
  | 1 => { ins := some (.scMov (.vec .va (BitVec.ofNat 9 n) (bv x 16 4) (bt x 4)) a), ill := noImm x
           rsv := resv x [(5, 1)] ++ (if bt x 4 then resv x [(16, 4)] else []) ++ always }
  | 2 => { ins := some (.scMov (.vec .vb (BitVec.ofNat 9 n) (bv x 16 4) (bt x 4)) a), ill := noImm x
           rsv := resv x [(5, 1)] ++ (if bt x 4 then resv x [(16, 4)] else []) ++ always }
  | 3 => { ins := some (.scMov (.pred (bv x 29 4)) a), ill := noImm x
           rsv := resv x [(4, 1), (5, 1)] ++ always ++ resv x [(16, 4)] ++ numBad (16 ≤ n) }
  | 4 => { ins := some (.scMov (.lc (bv x 29 3) (bt x 5)) a), ill := noImm x
           rsv := resv x [(4, 1)] ++ always ++ resv x [(16, 4)] ++ numBad (n == 0 || 7 ≤ n) }
  | 5 => { ins := some (.scMov (.lx (bv x 29 3)) a), ill := noImm x
           rsv := resv x [(4, 1), (5, 1)] ++ always ++ resv x [(16, 4)] ++ numBad (n == 0 || 7 ≤ n) }
  | 6 => { ins := some (.scMov (.kp (bt x 5)) a), ill := noImm x
           rsv := resv x [(4, 1)] ++ always ++ resv x [(16, 4)] ++ numBad (n != 0) }
  | 7 => { ins := some (.scMov (.la (bv x 29 5)) a), ill := noImm x
           rsv := resv x [(4, 1), (5, 1)] ++ always ++ resv x [(16, 4)] ++ numBad (32 ≤ n) }
  | 8 => { ins := some (.scMov (.sa (bv x 29 5)) a), ill := noImm x
           rsv := resv x [(4, 1), (5, 1)] ++ always ++ resv x [(16, 4)] ++ numBad (32 ≤ n) }
  | 9 => { ins := some (.scMov (.c (bv x 29 5)) a), ill := noImm x
           rsv := resv x [(4, 1), (5, 1)] ++ always ++ resv x [(16, 4)] ++ numBad (32 ≤ n) }
  | 10 => { ins := some (.scMov (.x (bv x 29 4)) a), ill := noImm x
            rsv := resv x [(4, 1), (5, 1)] ++ always ++ resv x [(16, 4)] ++ numBad (16 ≤ n) }
  | _ => { ins := none, ill := noImm x, rsv := rcode true 0 4 ++ always }

/-- The integer SC opcodes 0x04 to 0x67 (Table 02-12), by opcode bits ⟨7:2⟩. -/
def decScInt (x : Nat) : Dec :=
  let t := ityOf x
  let d : BitVec 6 := bv x 29 6
  let a : BitVec 6 := bv x 23 6
  let b := srcBOf x
  match fld x 42 6 with
  | 0x01 => { ins := some (.scAdd t d a b), rsv := scRest x }
  | 0x02 => { ins := some (.scSub t d a b), rsv := scRest x }
  | 0x03 => { ins := some (.scMul t d a b), rsv := scRest x }
  | 0x04 => { ins := some (.scMulh t d a b), rsv := scRest x }
  | 0x05 => { ins := some (.scDiv t d a b), rsv := scRest x }
  | 0x06 => { ins := some (.scRem t d a b), rsv := scRest x }
  | 0x07 => { ins := some (.scAnd t d a b), rsv := scRest x }
  | 0x08 => { ins := some (.scOr t d a b), rsv := scRest x }
  | 0x09 => { ins := some (.scXor t d a b), rsv := scRest x }
  | 0x0A => { ins := some (.scLop3 t d a (bv x 16 6) (bv x 10 6) (bv x 0 8)), ill := noImm x, rsv := resv x [(8, 2)] }
  | 0x0B => { ins := some (.scShl t d a b), rsv := scRest x }
  | 0x0C => { ins := some (.scShr t d a b), rsv := scRest x }
  | 0x0D => { ins := some (.scSar t d a b), rsv := scRest x }
  | 0x0E => { ins := some (.scRot t d a b), rsv := scRest x }
  | 0x0F => { ins := some (.scMin t d a b), rsv := scRest x }
  | 0x10 => { ins := some (.scMax t d a b), rsv := scRest x }
  | 0x11 => { ins := some (.scClz t d a), ill := noImm x, rsv := resv x [(0, 10), (10, 6), (16, 6)] }
  | 0x12 => { ins := some (.scPopc t d a), ill := noImm x, rsv := resv x [(0, 10), (10, 6), (16, 6)] }
  | 0x13 => { ins := some (.scSel t d a (bv x 16 6) (bv x 0 4) (bt x 4)), ill := noImm x, rsv := resv x [(5, 5), (10, 6)] }
  | 0x14 => { ins := some (.scCmpEq t (cmpDstOf x) a b), rsv := scRest x ++ cmpDstRsv x }
  | 0x15 => { ins := some (.scCmpNe t (cmpDstOf x) a b), rsv := scRest x ++ cmpDstRsv x }
  | 0x16 => { ins := some (.scCmpLt t (cmpDstOf x) a b), rsv := scRest x ++ cmpDstRsv x }
  | 0x17 => { ins := some (.scCmpLe t (cmpDstOf x) a b), rsv := scRest x ++ cmpDstRsv x }
  | 0x18 => { ins := some (.scCmpGt t (cmpDstOf x) a b), rsv := scRest x ++ cmpDstRsv x }
  | 0x19 => { ins := some (.scCmpGe t (cmpDstOf x) a b), rsv := scRest x ++ cmpDstRsv x }
  | _ => unassigned 40 8

/-- SC (Tables 02-5, 02-12): operands, guard ⟨39:35⟩, opcode ⟨47:40⟩. -/
def decSc (x : Nat) : Dec :=
  let op := fld x 40 8
  let d : BitVec 6 := bv x 29 6
  let a : BitVec 6 := bv x 23 6
  let b : BitVec 6 := bv x 16 6
  if op < 0x68 then (if op < 4 then (if op == 0 then decNop .scNop x 40 else unassigned 40 8) else decScInt x) else
  match op with
  | 0x68 => { ins := some (.li d (bv x 0 22)), ill := onlyImm x, rsv := resv x [(23, 6)] }
  | 0x69 => { ins := some (.liHi d a (bv x 0 22)), ill := onlyImm x }
  | 0x6A => { ins := some (.liWide d (bv x 0 3)), ill := onlyImm x, rsv := resv x [(3, 19), (23, 6)] }
  | 0x6B => { ins := some (.adds d a b (bv x 0 3)), ill := noImm x, rsv := resv x [(3, 7), (10, 6)] }
  | 0x70 => { ins := some (.fadd (bv x 7 3) d a b), ill := noImm x, rsv := resv x [(0, 7), (10, 6)] ++ badRm x 7 }
  | 0x71 => { ins := some (.fmul (bv x 7 3) d a b), ill := noImm x, rsv := resv x [(0, 7), (10, 6)] ++ badRm x 7 }
  | 0x72 => { ins := some (.scFma (bv x 7 3) d a b (bv x 10 6)), ill := noImm x, rsv := resv x [(0, 7)] ++ badRm x 7 }
  | 0x73 => { ins := some (.fcmp (bv x 0 3) (bv x 7 3) (cmpDstOf x) a b), ill := noImm x
              rsv := rcode (fld x 0 3 == 7) 0 3 ++ resv x [(3, 4), (10, 6)] ++ badRm x 7 ++ cmpDstRsv x }
  | 0x74 => { ins := some (.scCvt (bv x 16 4) (bv x 10 4) (bv x 7 3) d a)
              ill := noImm x ++ wrongTy (fld x 10 4 != 15 && !Ty.isScCvt (fld x 10 4)) 10 4 ++
                wrongTy (fld x 16 4 != 15 && !Ty.isScCvt (fld x 16 4)) 16 4 ++
                excl (fld x 10 4 == fld x 16 4 && fld x 10 4 != 15) 16 4
              rsv := resv x [(0, 7), (14, 2), (20, 2)] ++ badRm x 7 ++ rcode (fld x 10 4 == 15) 10 4 ++
                rcode (fld x 16 4 == 15) 16 4 }
  | 0x78 => decScMov x
  | 0x79 => { ins := some (.scSpl a (bv x 0 10)), ill := onlyImm x, rsv := resv x [(10, 12), (29, 6)] }
  | 0x7A => { ins := some (.scFil d (bv x 0 10)), ill := onlyImm x, rsv := resv x [(10, 12), (23, 6)] }
  | 0x7B => { ins := some (.rdc d (bv x 0 8)), ill := noImm x
              rsv := rcode (!wfRdc (bv x 0 8)) 0 8 ++ resv x [(8, 2), (10, 6), (16, 6), (23, 6)] }
  | 0x7C => { ins := some (.wrc (bv x 0 8) a), ill := noImm x ++ excl (wfRdc (bv x 0 8) && 3 ≤ fld x 0 8) 0 8
              rsv := rcode (!wfRdc (bv x 0 8)) 0 8 ++ resv x [(8, 2), (10, 6), (16, 6), (29, 6)] }
  | 0x7D => match fld x 0 2 with
    | 0 => { ins := some (.errRdTrap d a), ill := noImm x, rsv := resv x [(2, 8), (10, 6), (16, 6)], priv := true }
    | 1 => { ins := some (.errRdLog d a), ill := noImm x, rsv := resv x [(2, 8), (10, 6), (16, 6)], priv := true }
    | _ => { ins := none, ill := excl true 0 2 ++ noImm x, rsv := resv x [(2, 8), (10, 6), (16, 6)], priv := true }
  | 0x7E => { ins := some (.ctxStat d a), ill := noImm x, rsv := resv x [(0, 10), (10, 6), (16, 6)], priv := true }
  | _ => unassigned 40 8

/-- The width, file and mask of a vector operation (R36); width code 11 reads as 1024 and is reported reserved. -/
def vhOf (f : VFile) (x : Nat) : VH :=
  { f := f, w := (match fld x 54 2 with | 0 => .w256 | 1 => .w512 | _ => .w1024), m := bv x 41 4 }

/-- A type field outside the set the opcode accepts (R37). -/
def badTy (x : Nat) (ok : Nat → Bool) : List BadField := wrongTy (fld x 50 4 != 15 && !ok (fld x 50 4)) 50 4

/-- Reserved width and type codes of a typed vector operation (R37). -/
def vCodes (x : Nat) : List BadField := rcode (fld x 54 2 == 3) 54 2 ++ rcode (fld x 50 4 == 15) 50 4

/-- Width code 11, and a t field the opcode does not use (R37). -/
def vNoT (x : Nat) : List BadField := rcode (fld x 54 2 == 3) 54 2 ++ resv x [(50, 4)]

/-- The modifier of arithmetic on the type: rounding for a float type, saturation for `add`, `sub`, `mul` (R38). -/
def vMod (x : Nat) (sat : Bool) : List BadField :=
  if Ty.isInt (fld x 50 4) then (if sat then resv x [(0, 3), (4, 1)] else resv x [(0, 5)]) else resv x [(3, 2)] ++ badRm x 0

/-- Integer or float. -/
def numTy (t : Nat) : Bool := Ty.isInt t || Ty.isFloat t

/-- The saturation bit as the integer forms read it. -/
def satOf (x : Nat) : Bool := Ty.isInt (fld x 50 4) && bt x 3

/-- The rounding code as the float forms read it. -/
def rmOf (x : Nat) : BitVec 3 := if Ty.isInt (fld x 50 4) then 0 else bv x 0 3

/-- Vector `mov` (R166). -/
def decVMov (f : VFile) (x : Nat) : Dec :=
  let h := vhOf f x
  let base := vNoT x ++ resv x [(3, 2), (14, 9)]
  match fld x 0 3 with
  | 0 => { ins := some (.vMov h (bv x 32 9) (bv x 23 9)), rsv := base ++ resv x [(5, 9)] }
  | 1 => { ins := some (.vMovCross h (bv x 32 9) (bv x 23 9)), rsv := base ++ resv x [(5, 9)] }
  | 2 => { ins := some (.vMovToScalar f h.w (bv x 32 6) (bv x 23 9) (bv x 5 9)), ill := excl (fld x 54 2 != 3 && h.w.bits / 64 ≤ fld x 5 9) 5 9
           rsv := base ++ resv x [(38, 3), (41, 4)] }
  | 3 => { ins := some (.vMovMask f (bv x 32 4) (bv x 23 4)), ill := excl (fld x 54 2 < 2) 54 2
           rsv := base ++ resv x [(5, 9), (27, 5), (36, 5), (41, 4)] }
  | 4 => { ins := some (.vMovMaskCross f (bv x 32 4) (bv x 23 4)), ill := excl (fld x 54 2 < 2) 54 2
           rsv := base ++ resv x [(5, 9), (27, 5), (36, 5), (41, 4)] }
  | _ => { ins := none, rsv := rcode true 0 3 ++ base }

/-- Whether width and type are no reserved codes, so that a vector has a number of lanes (R37, R142). -/
def elsOk (x : Nat) : Bool := fld x 54 2 != 3 && fld x 50 4 != 15

/-- VA and VB (Tables 02-6, 06-1, R48): guard ⟨49:45⟩, opcode ⟨63:56⟩. -/
def decV (f : VFile) (x : Nat) : Dec :=
  let h := vhOf f x
  let t : BitVec 4 := bv x 50 4
  let d : BitVec 9 := bv x 32 9
  let a : BitVec 9 := bv x 23 9
  let b : BitVec 9 := bv x 14 9
  let c : BitVec 9 := bv x 5 9
  match fld x 56 8 with
  | 0x00 => decNop .vNop x 56
  | 0x01 => { ins := some (.vAdd h t d a b (rmOf x) (satOf x)), ill := badTy x numTy, rsv := vCodes x ++ resv x [(5, 9)] ++ vMod x true }
  | 0x02 => { ins := some (.vSub h t d a b (rmOf x) (satOf x)), ill := badTy x numTy, rsv := vCodes x ++ resv x [(5, 9)] ++ vMod x true }
  | 0x03 => { ins := some (.vMul h t d a b (rmOf x) (satOf x)), ill := badTy x numTy, rsv := vCodes x ++ resv x [(5, 9)] ++ vMod x true }
  | 0x04 => { ins := some (.vMulh h t d a b), ill := badTy x Ty.isInt, rsv := vCodes x ++ resv x [(0, 5), (5, 9)] }
  | 0x05 => { ins := some (.vFma h t d a b c (bv x 0 3)), ill := badTy x Ty.isFloat, rsv := vCodes x ++ resv x [(3, 2)] ++ badRm x 0 }
  | 0x06 => { ins := some (.vFms h t d a b c (bv x 0 3)), ill := badTy x Ty.isFloat, rsv := vCodes x ++ resv x [(3, 2)] ++ badRm x 0 }
  | 0x07 => { ins := some (.vFnma h t d a b c (bv x 0 3)), ill := badTy x Ty.isFloat, rsv := vCodes x ++ resv x [(3, 2)] ++ badRm x 0 }
  | 0x08 => { ins := some (.vMin h t d a b (rmOf x)), ill := badTy x numTy, rsv := vCodes x ++ resv x [(5, 9)] ++ vMod x false }
  | 0x09 => { ins := some (.vMax h t d a b (rmOf x)), ill := badTy x numTy, rsv := vCodes x ++ resv x [(5, 9)] ++ vMod x false }
  | 0x0A => { ins := some (.vAbs h t d a (rmOf x)), ill := badTy x numTy, rsv := vCodes x ++ resv x [(5, 9), (14, 9)] ++ vMod x false }
  | 0x0B => { ins := some (.vNeg h t d a (rmOf x)), ill := badTy x numTy, rsv := vCodes x ++ resv x [(5, 9), (14, 9)] ++ vMod x false }
  | 0x10 => { ins := some (.vRcp h t d a (bv x 0 3)), ill := badTy x Ty.isFloat, rsv := vCodes x ++ resv x [(3, 2), (5, 9), (14, 9)] ++ badRm x 0 }
  | 0x11 => { ins := some (.vRsq h t d a (bv x 0 3)), ill := badTy x Ty.isFloat, rsv := vCodes x ++ resv x [(3, 2), (5, 9), (14, 9)] ++ badRm x 0 }
  | 0x12 => { ins := some (.vExp2 h t d a (bv x 0 3)), ill := badTy x Ty.isFloat, rsv := vCodes x ++ resv x [(3, 2), (5, 9), (14, 9)] ++ badRm x 0 }
  | 0x13 => { ins := some (.vLog2 h t d a (bv x 0 3)), ill := badTy x Ty.isFloat, rsv := vCodes x ++ resv x [(3, 2), (5, 9), (14, 9)] ++ badRm x 0 }
  | 0x14 => { ins := some (.vTanh h t d a (bv x 0 3)), ill := badTy x Ty.isFloat, rsv := vCodes x ++ resv x [(3, 2), (5, 9), (14, 9)] ++ badRm x 0 }
  | 0x15 => { ins := some (.vSilu h t d a (bv x 0 3)), ill := badTy x Ty.isFloat, rsv := vCodes x ++ resv x [(3, 2), (5, 9), (14, 9)] ++ badRm x 0 }
  | 0x16 => { ins := some (.vSoftplus h t d a (bv x 0 3)), ill := badTy x Ty.isFloat, rsv := vCodes x ++ resv x [(3, 2), (5, 9), (14, 9)] ++ badRm x 0 }
  | 0x20 => { ins := some (.vAnd h t d a b), ill := badTy x Ty.isInt, rsv := vCodes x ++ resv x [(0, 5), (5, 9)] }
  | 0x21 => { ins := some (.vOr h t d a b), ill := badTy x Ty.isInt, rsv := vCodes x ++ resv x [(0, 5), (5, 9)] }
  | 0x22 => { ins := some (.vXor h t d a b), ill := badTy x Ty.isInt, rsv := vCodes x ++ resv x [(0, 5), (5, 9)] }
  | 0x23 => { ins := some (.vLop3 h d a b c (BitVec.ofNat 8 (16 * fld x 50 4 + fld x 1 4))), rsv := rcode (fld x 54 2 == 3) 54 2 ++ resv x [(0, 1)] }
  | 0x24 => { ins := some (.vShl h t d a b), ill := badTy x Ty.isInt, rsv := vCodes x ++ resv x [(0, 5), (5, 9)] }
  | 0x25 => { ins := some (.vShr h t d a b), ill := badTy x Ty.isInt, rsv := vCodes x ++ resv x [(0, 5), (5, 9)] }
  | 0x26 => { ins := some (.vSar h t d a b), ill := badTy x Ty.isInt, rsv := vCodes x ++ resv x [(0, 5), (5, 9)] }
  | 0x27 => { ins := some (.vCvt h t (bv x 5 4) d a (bv x 9 5) (bv x 0 3))
              ill := if fld x 50 4 == 15 || fld x 5 4 == 15 then [] else
                excl (Ty.cvtExcluded (fld x 50 4) (fld x 5 4)) 5 4 ++
                excl (Ty.ratio (fld x 50 4) (fld x 5 4) ≤ fld x 9 5) 9 5
              rsv := vCodes x ++ rcode (fld x 5 4 == 15) 5 4 ++ resv x [(3, 2), (14, 9)] ++ badRm x 0 }
  | 0x30 => { ins := some (.vCmpEq h t (bv x 32 4) a b (rmOf x)), ill := badTy x numTy, rsv := vCodes x ++ resv x [(5, 9), (36, 5)] ++ vMod x false }
  | 0x31 => { ins := some (.vCmpNe h t (bv x 32 4) a b (rmOf x)), ill := badTy x numTy, rsv := vCodes x ++ resv x [(5, 9), (36, 5)] ++ vMod x false }
  | 0x32 => { ins := some (.vCmpLt h t (bv x 32 4) a b (rmOf x)), ill := badTy x numTy, rsv := vCodes x ++ resv x [(5, 9), (36, 5)] ++ vMod x false }
  | 0x33 => { ins := some (.vCmpLe h t (bv x 32 4) a b (rmOf x)), ill := badTy x numTy, rsv := vCodes x ++ resv x [(5, 9), (36, 5)] ++ vMod x false }
  | 0x34 => { ins := some (.vCmpGt h t (bv x 32 4) a b (rmOf x)), ill := badTy x numTy, rsv := vCodes x ++ resv x [(5, 9), (36, 5)] ++ vMod x false }
  | 0x35 => { ins := some (.vCmpGe h t (bv x 32 4) a b (rmOf x)), ill := badTy x numTy, rsv := vCodes x ++ resv x [(5, 9), (36, 5)] ++ vMod x false }
  | 0x36 => { ins := some (.vCmpUn h t (bv x 32 4) a b (bv x 0 3)), ill := badTy x Ty.isFloat, rsv := vCodes x ++ resv x [(3, 2), (5, 9), (36, 5)] ++ badRm x 0 }
  | 0x38 => { ins := some (.vCmpEqU h t a b (rmOf x)), ill := badTy x numTy, rsv := vCodes x ++ resv x [(5, 9), (32, 9)] ++ vMod x false }
  | 0x39 => { ins := some (.vCmpNeU h t a b (rmOf x)), ill := badTy x numTy, rsv := vCodes x ++ resv x [(5, 9), (32, 9)] ++ vMod x false }
  | 0x3A => { ins := some (.vCmpLtU h t a b (rmOf x)), ill := badTy x numTy, rsv := vCodes x ++ resv x [(5, 9), (32, 9)] ++ vMod x false }
  | 0x3B => { ins := some (.vCmpLeU h t a b (rmOf x)), ill := badTy x numTy, rsv := vCodes x ++ resv x [(5, 9), (32, 9)] ++ vMod x false }
  | 0x3C => { ins := some (.vCmpGtU h t a b (rmOf x)), ill := badTy x numTy, rsv := vCodes x ++ resv x [(5, 9), (32, 9)] ++ vMod x false }
  | 0x3D => { ins := some (.vCmpGeU h t a b (rmOf x)), ill := badTy x numTy, rsv := vCodes x ++ resv x [(5, 9), (32, 9)] ++ vMod x false }
  | 0x3E => { ins := some (.vCmpUnU h t a b (bv x 0 3)), ill := badTy x Ty.isFloat, rsv := vCodes x ++ resv x [(3, 2), (5, 9), (32, 9)] ++ badRm x 0 }
  | 0x40 => { ins := some (.vSel h t d a b (bv x 5 4)), ill := badTy x (· ≤ 12), rsv := vCodes x ++ resv x [(0, 5), (9, 5)] }
  | 0x41 => { ins := some (.vPerm h t d a b c), ill := badTy x (· ≤ 12), rsv := vCodes x ++ resv x [(0, 5)] }
  | 0x42 => { ins := some (.vShuf h t (bv x 0 3) d a b c)
              ill := badTy x (· ≤ 12) ++ excl (fld x 0 3 == 7) 0 3 ++
                excl (fld x 0 3 == 5 && elsOk x && Ty.lanes h.w.bits (fld x 50 4) ≤ fld x 5 9) 5 9
              rsv := vCodes x ++ resv x [(3, 2)] ++ (if 1 ≤ fld x 0 3 && fld x 0 3 ≤ 4 then [] else resv x [(14, 9)]) ++
                (if fld x 0 3 == 5 then [] else resv x [(5, 9)]) }
  | 0x43 => { ins := some (.vBcast h t d a c), ill := badTy x (· ≤ 12) ++ excl (elsOk x && Ty.lanes h.w.bits (fld x 50 4) ≤ fld x 5 9) 5 9
              rsv := vCodes x ++ resv x [(0, 5), (14, 9)] }
  | 0x44 => { ins := some (.vIota h t d), ill := badTy x numTy, rsv := vCodes x ++ resv x [(0, 5), (5, 9), (14, 9), (23, 9)] }
  | 0x45 => { ins := some (.vAny h t (bv x 23 4)), ill := badTy x (· ≤ 12), rsv := vCodes x ++ resv x [(0, 5), (5, 9), (14, 9), (27, 5), (32, 9)] }
  | 0x46 => { ins := some (.vAll h t (bv x 23 4)), ill := badTy x (· ≤ 12), rsv := vCodes x ++ resv x [(0, 5), (5, 9), (14, 9), (27, 5), (32, 9)] }
  | 0x48 => decVMov f x
  | 0x49 => if bt x 0 then
      { ins := some (.movIxPut h a (bv x 14 6)), rsv := vNoT x ++ resv x [(1, 4), (5, 9), (20, 3), (32, 9)] }
    else { ins := some (.movIxGet h d (bv x 14 6)), rsv := vNoT x ++ resv x [(1, 4), (5, 9), (20, 3), (23, 9)] }
  | 0x4A => { ins := some (.vSpl f h.w a (bv x 5 6)), rsv := vNoT x ++ resv x [(0, 5), (11, 3), (14, 9), (32, 9), (41, 4)] }
  | 0x4B => { ins := some (.vFil h d (bv x 5 6)), rsv := vNoT x ++ resv x [(0, 5), (11, 3), (14, 9), (23, 9)] }
  | _ => unassigned 56 8

/-- The vector data register of an LD or ST field (R41). -/
def vregOf (x : Nat) : VReg := { f := if fld x 35 2 == 1 then .vb else .va, n := bv x 26 9 }

/-- The data register of an LD or ST field that accepts every file (R41). -/
def dregOf (x : Nat) : DReg := if fld x 35 2 == 2 then .s (bv x 26 6) else .v (vregOf x)

/-- Base and offset (R41). -/
def memOf (x : Nat) : Mem := { base := bv x 21 5, off := bv x 0 20 }

/-- An opcode that takes a vector file: the checks of R42. -/
def onlyVec (x : Nat) : List BadField := wrongTy (fld x 35 2 == 2) 35 2

/-- An opcode that takes the scalar file. -/
def onlySc (x : Nat) : List BadField := wrongTy (fld x 35 2 < 2) 35 2

/-- Reserved parts of the data-register fields (R41, R42). -/
def dataRsv (x : Nat) : List BadField :=
  rcode (fld x 35 2 == 3) 35 2 ++ (if fld x 35 2 == 2 then resv x [(32, 3)] else [])

/-- H = 1 where the opcode is no handle form, or H = 0 where it is one (R175). -/
def needH (x : Nat) (h : Bool) : List BadField := excl (bt x 20 != h) 20 1

/-- LD (Tables 02-9, 07-4): guard ⟨41:37⟩, opcode ⟨47:42⟩. -/
def decLd (x : Nat) : Dec :=
  let v := vregOf x
  let a := memOf x
  match fld x 42 6 with
  | 0x00 => decNop .ldNop x 42
  | 0x01 => { ins := some (.ldRow v a), ill := onlyVec x ++ needH x false, rsv := dataRsv x }
  | 0x02 => { ins := some (.ldRowChk v a), ill := onlyVec x ++ needH x false, rsv := dataRsv x }
  | 0x03 => { ins := some (.ldS (bv x 26 6) a), ill := onlySc x ++ needH x false, rsv := dataRsv x }
  | 0x04 => { ins := some (.ldH v a), ill := onlyVec x ++ needH x true, rsv := dataRsv x }
  | 0x05 => { ins := some (.ldHChk v a), ill := onlyVec x ++ needH x true, rsv := dataRsv x }
  | 0x06 => { ins := some (.ldg (bv x 26 5) (bv x 31 4) a), ill := needH x false, rsv := resv x [(35, 2)] }
  | 0x07 => { ins := some (.ldPr v a), ill := onlyVec x ++ needH x false, rsv := dataRsv x }
  | 0x08 => { ins := some (.ldSb v a), ill := onlyVec x ++ needH x false, rsv := dataRsv x }
  | 0x09 => { ins := some (.ldIdx v (bv x 21 5) (bv x 15 5) (bv x 0 15)), ill := onlyVec x ++ needH x false, rsv := dataRsv x }
  | 0x0A => { ins := some (.ldBc v a), ill := onlyVec x ++ needH x false, rsv := dataRsv x }
  | 0x0B => { ins := some (.ldZ v a), ill := onlyVec x ++ needH x false, rsv := dataRsv x }
  | 0x10 => { ins := some (.ldAcq 0 (dregOf x) a), ill := needH x false, rsv := dataRsv x }
  | 0x11 => { ins := some (.ldAcq 1 (dregOf x) a), ill := needH x false, rsv := dataRsv x }
  | 0x12 => { ins := some (.ldAcq 2 (dregOf x) a), ill := needH x false, rsv := dataRsv x }
  | 0x13 => { ins := some (.ldAcq 3 (dregOf x) a), ill := needH x false, rsv := dataRsv x }
  | 0x14 => { ins := some (.ldAcq 4 (dregOf x) a), ill := needH x false, rsv := dataRsv x }
  | 0x15 => { ins := some (.ldAcq 5 (dregOf x) a), ill := needH x false, rsv := dataRsv x }
  | _ => unassigned 42 6

/-- ST (Tables 02-9, 07-5, R51): guard ⟨41:37⟩, opcode ⟨47:42⟩. -/
def decSt (x : Nat) : Dec :=
  let v := vregOf x
  let a := memOf x
  let r : BitVec 6 := bv x 26 6
  match fld x 42 6 with
  | 0x00 => decNop .stNop x 42
  | 0x01 => { ins := some (.stRow v a), ill := onlyVec x ++ needH x false, rsv := dataRsv x }
  | 0x02 => { ins := some (.stS r a), ill := onlySc x ++ needH x false, rsv := dataRsv x }
  | 0x03 => { ins := some (.stH v a), ill := onlyVec x ++ needH x true, rsv := dataRsv x }
  | 0x04 => { ins := some (.stg (dregOf x) a), ill := needH x false, rsv := dataRsv x }
  | 0x05 => { ins := some (.stNt (dregOf x) a), ill := needH x false, rsv := dataRsv x }
  | 0x06 => { ins := some (.stPr v a), ill := onlyVec x ++ needH x false, rsv := dataRsv x }
  | 0x07 => { ins := some (.stSb v a), ill := onlyVec x ++ needH x false, rsv := dataRsv x }
  | 0x10 => { ins := some (.stRel 0 (dregOf x) a), ill := needH x false, rsv := dataRsv x }
  | 0x11 => { ins := some (.stRel 1 (dregOf x) a), ill := needH x false, rsv := dataRsv x }
  | 0x12 => { ins := some (.stRel 2 (dregOf x) a), ill := needH x false, rsv := dataRsv x }
  | 0x13 => { ins := some (.stRel 3 (dregOf x) a), ill := needH x false, rsv := dataRsv x }
  | 0x14 => { ins := some (.stRel 4 (dregOf x) a), ill := needH x false, rsv := dataRsv x }
  | 0x15 => { ins := some (.stRel 5 (dregOf x) a), ill := needH x false, rsv := dataRsv x }
  | 0x20 => { ins := some (.aadd false false r a), ill := onlySc x ++ needH x false, rsv := dataRsv x }
  | 0x21 => { ins := some (.aadd false true r a), ill := onlySc x ++ needH x false, rsv := dataRsv x }
  | 0x22 => { ins := some (.amin false false r a), ill := onlySc x ++ needH x false, rsv := dataRsv x }
  | 0x23 => { ins := some (.amin false true r a), ill := onlySc x ++ needH x false, rsv := dataRsv x }
  | 0x24 => { ins := some (.amax false false r a), ill := onlySc x ++ needH x false, rsv := dataRsv x }
  | 0x25 => { ins := some (.amax false true r a), ill := onlySc x ++ needH x false, rsv := dataRsv x }
  | 0x26 => { ins := some (.axch false false r a), ill := onlySc x ++ needH x false, rsv := dataRsv x }
  | 0x27 => { ins := some (.axch false true r a), ill := onlySc x ++ needH x false, rsv := dataRsv x }
  | 0x28 => { ins := some (.acas false false r a), ill := onlySc x ++ excl (fld x 26 6 == 63) 26 6 ++ needH x false, rsv := dataRsv x }
  | 0x29 => { ins := some (.acas false true r a), ill := onlySc x ++ excl (fld x 26 6 == 63) 26 6 ++ needH x false, rsv := dataRsv x }
  | 0x2A => { ins := some (.aand false false r a), ill := onlySc x ++ needH x false, rsv := dataRsv x }
  | 0x2B => { ins := some (.aand false true r a), ill := onlySc x ++ needH x false, rsv := dataRsv x }
  | 0x2C => { ins := some (.aor false false r a), ill := onlySc x ++ needH x false, rsv := dataRsv x }
  | 0x2D => { ins := some (.aor false true r a), ill := onlySc x ++ needH x false, rsv := dataRsv x }
  | 0x2E => { ins := some (.axor false false r a), ill := onlySc x ++ needH x false, rsv := dataRsv x }
  | 0x2F => { ins := some (.axor false true r a), ill := onlySc x ++ needH x false, rsv := dataRsv x }
  | 0x30 => { ins := some (.aadd true false r a), ill := onlySc x ++ needH x false, rsv := dataRsv x }
  | 0x31 => { ins := some (.aadd true true r a), ill := onlySc x ++ needH x false, rsv := dataRsv x }
  | 0x32 => { ins := some (.amin true false r a), ill := onlySc x ++ needH x false, rsv := dataRsv x }
  | 0x33 => { ins := some (.amin true true r a), ill := onlySc x ++ needH x false, rsv := dataRsv x }
  | 0x34 => { ins := some (.amax true false r a), ill := onlySc x ++ needH x false, rsv := dataRsv x }
  | 0x35 => { ins := some (.amax true true r a), ill := onlySc x ++ needH x false, rsv := dataRsv x }
  | 0x36 => { ins := some (.axch true false r a), ill := onlySc x ++ needH x false, rsv := dataRsv x }
  | 0x37 => { ins := some (.axch true true r a), ill := onlySc x ++ needH x false, rsv := dataRsv x }
  | 0x38 => { ins := some (.acas true false r a), ill := onlySc x ++ excl (fld x 26 6 == 63) 26 6 ++ needH x false, rsv := dataRsv x }
  | 0x39 => { ins := some (.acas true true r a), ill := onlySc x ++ excl (fld x 26 6 == 63) 26 6 ++ needH x false, rsv := dataRsv x }
  | 0x3A => { ins := some (.aand true false r a), ill := onlySc x ++ needH x false, rsv := dataRsv x }
  | 0x3B => { ins := some (.aand true true r a), ill := onlySc x ++ needH x false, rsv := dataRsv x }
  | 0x3C => { ins := some (.aor true false r a), ill := onlySc x ++ needH x false, rsv := dataRsv x }
  | 0x3D => { ins := some (.aor true true r a), ill := onlySc x ++ needH x false, rsv := dataRsv x }
  | 0x3E => { ins := some (.axor true false r a), ill := onlySc x ++ needH x false, rsv := dataRsv x }
  | 0x3F => { ins := some (.axor true true r a), ill := onlySc x ++ needH x false, rsv := dataRsv x }
  | _ => unassigned 42 6

/-- A barrier number above 47 (R214). -/
def badNb (x : Nat) : List BadField := excl (48 ≤ fld x 0 6) 0 6

/-- A pointer move's k of 0 or above 8192 (R214). -/
def badAdv (x : Nat) : List BadField := excl (fld x 5 14 == 0 || 8192 < fld x 5 14) 5 14

/-- The range operand of `inv.l1` and `wb.l1` (Table 08-2). -/
def rangeOf (x : Nat) : Option (BitVec 6 × BitVec 14) := if bt x 0 then some (bv x 1 6, bv x 7 14) else none

/-- SY (Table 08-2): guard ⟨25:21⟩, opcode ⟨31:26⟩. -/
def decSy (x : Nat) : Dec :=
  let b : BitVec 6 := bv x 0 6
  let h : BitVec 5 := bv x 0 5
  match fld x 26 6 with
  | 0x00 => decNop .syNop x 26
  | 0x01 => { ins := some (.nbInit b (bv x 6 10)), ill := badNb x ++ excl (fld x 6 10 == 0) 6 10, rsv := resv x [(16, 5)] }
  | 0x02 => { ins := some (.nbExp b (bv x 6 6)), ill := badNb x, rsv := resv x [(12, 9)] }
  | 0x03 => if bt x 8 then { ins := some (.nbArr b (some (bv x 6 2))), ill := badNb x, rsv := resv x [(9, 12)] }
    else { ins := some (.nbArr b none), ill := badNb x, rsv := resv x [(6, 2), (9, 12)] }
  | 0x04 => { ins := some (.nbWait b (bt x 6)), ill := badNb x, rsv := resv x [(7, 14)] }
  | 0x05 => { ins := some (.nbStat (bv x 6 6) b (bt x 12)), ill := badNb x, rsv := resv x [(13, 8)] }
  | 0x06 => { ins := some (.tlWait (bv x 0 3) (bt x 3) (bv x 4 6)), ill := excl (6 ≤ fld x 0 3) 0 3
              rsv := (if bt x 3 then [] else resv x [(9, 1)]) ++ resv x [(10, 11)] }
  | 0x07 => { ins := some (.tlRead (bv x 3 6) (bv x 0 3) (bv x 9 2)), ill := excl (6 ≤ fld x 0 3) 0 3, rsv := resv x [(11, 10)] }
  | 0x08 => { ins := some (.invL1 (rangeOf x)), rsv := if bt x 0 then [] else resv x [(1, 20)] }
  | 0x09 => { ins := some (.wbL1 (rangeOf x)), rsv := if bt x 0 then [] else resv x [(1, 20)] }
  | 0x0A => { ins := some (.hBind h (bv x 5 6)), rsv := resv x [(11, 10)] }
  | 0x0B => { ins := some (.hAdvc h (bv x 5 14)), ill := badAdv x, rsv := resv x [(19, 2)] }
  | 0x0C => { ins := some (.hAdvp h (bv x 5 14)), ill := badAdv x, rsv := resv x [(19, 2)] }
  | 0x0D => { ins := some (.hStat (bv x 5 6) h (bt x 11)), rsv := resv x [(12, 9)] }
  | 0x10 => { ins := some (.drain 0), rsv := resv x [(0, 21)] }
  | 0x11 => { ins := some (.drain 1), rsv := resv x [(0, 21)] }
  | 0x12 => { ins := some (.drain 2), rsv := resv x [(0, 21)] }
  | 0x13 => { ins := some (.drain 3), rsv := resv x [(0, 21)] }
  | 0x14 => { ins := some (.drain 4), rsv := resv x [(0, 21)] }
  | 0x15 => { ins := some (.drain 5), rsv := resv x [(0, 21)] }
  | 0x18 => { ins := some (.fence 0), rsv := resv x [(0, 21)] }
  | 0x19 => { ins := some (.fence 1), rsv := resv x [(0, 21)] }
  | 0x1A => { ins := some (.fence 2), rsv := resv x [(0, 21)] }
  | 0x1B => { ins := some (.fence 3), rsv := resv x [(0, 21)] }
  | 0x1C => { ins := some (.fence 4), rsv := resv x [(0, 21)] }
  | 0x1D => { ins := some (.fence 5), rsv := resv x [(0, 21)] }
  | _ => unassigned 26 6

/-- XF (Table 09-2): guard ⟨25:21⟩, opcode ⟨31:26⟩. -/
def decXf (x : Nat) : Dec :=
  let d : BitVec 4 := bv x 0 4
  let a : BitVec 4 := bv x 4 4
  let b : BitVec 4 := bv x 8 4
  let e : BitVec 2 := bv x 12 2
  match fld x 26 6 with
  | 0x00 => decNop .xfNop x 26
  | 0x01 => { ins := some (.xfCvt (bv x 12 4) b d a (bv x 16 4) (bt x 20))
              ill := if fld x 8 4 == 15 || fld x 12 4 == 15 then [] else
                excl (Ty.cvtExcluded (fld x 8 4) (fld x 12 4) || 16 < Ty.ratio (fld x 8 4) (fld x 12 4)) 12 4 ++
                excl (Ty.ratio (fld x 8 4) (fld x 12 4) ≤ fld x 16 4) 16 4
              rsv := rcode (fld x 8 4 == 15) 8 4 ++ rcode (fld x 12 4 == 15) 12 4 }
  | 0x02 => { ins := some (.xfTr e d a), rsv := resv x [(8, 4), (14, 7)] ++ rcode (fld x 12 2 == 3) 12 2 }
  | 0x03 => match fld x 12 2 with
    | 0 => { ins := some (.xfExpZr d a), rsv := resv x [(8, 4), (14, 2), (16, 5)] }
    | 1 => { ins := some (.xfExpSp24 (bv x 14 2) d a), ill := excl (2 ≤ fld x 14 2) 14 2, rsv := resv x [(8, 4), (16, 5)] }
    | _ => { ins := none, rsv := rcode true 12 2 ++ resv x [(8, 4), (16, 5)] }
  | 0x04 => { ins := some (.xfPack e d a), rsv := resv x [(8, 4), (14, 7)] ++ rcode (fld x 12 2 == 3) 12 2 }
  | 0x05 => { ins := some (.xfRot d a b (bv x 12 7)), rsv := resv x [(19, 2)] }
  | 0x06 => { ins := some (.xfScl e (bt x 14) (bv x 15 3) d a b), ill := excl (bt x 14 && fld x 12 2 != 0) 14 1
              rsv := resv x [(18, 3)] ++ rcode (fld x 12 2 == 3) 12 2 ++ badRm x 15 }
  | 0x07 => match fld x 12 2 with
    | 0 => { ins := some (.xfColW d b), rsv := resv x [(4, 4), (14, 4), (18, 3)] }
    | 1 => { ins := some (.xfColChk (bv x 14 4) a), rsv := resv x [(0, 4), (8, 4), (18, 3)] ++ rcode (fld x 14 4 == 15) 14 4 }
    | 2 => { ins := some (.xfColRd d a), rsv := resv x [(8, 4), (14, 4), (18, 3)] }
    | _ => { ins := some .xfColClr, rsv := resv x [(0, 4), (4, 4), (8, 4), (14, 4), (18, 3)] }
  | 0x08 => { ins := some (.xfSwz d a (bv x 12 3) (bt x 15)), rsv := resv x [(8, 4), (16, 5)] }
  | 0x09 => match fld x 12 2 with
    | 0 => { ins := some (.xfMvRow d a), rsv := resv x [(8, 4), (14, 6), (20, 1)] }
    | 1 => { ins := some (.xfMvScalar (bv x 14 6) a), rsv := resv x [(0, 4), (8, 4), (20, 1)] }
    | 2 => { ins := some (.xfMvReg d a), rsv := resv x [(8, 4), (14, 6), (20, 1)] }
    | _ => { ins := none, rsv := rcode true 12 2 ++ resv x [(8, 4), (20, 1)] }
  | _ => unassigned 26 6

/-- The codes of a reduction (Table 09-1). -/
def rdRsv (x : Nat) : List BadField := rcode (fld x 8 2 == 3) 8 2 ++ rcode (6 ≤ fld x 10 3) 10 3 ++ resv x [(13, 10)]

/-- Destination of `rd.mv` (Table 09-1). -/
def rdDst (x : Nat) : DReg :=
  if fld x 2 2 == 2 then .s (bv x 4 6) else .v { f := if fld x 2 2 == 1 then .vb else .va, n := bv x 4 9 }

/-- RD (Table 09-1): guard ⟨27:23⟩, opcode ⟨31:28⟩. -/
def decRd (x : Nat) : Dec :=
  let l : BitVec 2 := bv x 0 2
  let s : ASrc := { r := bv x 2 5, h := bt x 7 }
  let t : BitVec 2 := bv x 8 2
  let f : BitVec 3 := bv x 10 3
  match fld x 28 4 with
  | 0 => decNop .rdNop x 28
  | 1 => { ins := some (.rdAdd l s t f), rsv := rdRsv x }
  | 2 => { ins := some (.rdKadd l s t f), rsv := rdRsv x }
  | 3 => { ins := some (.rdMax l s t f), rsv := rdRsv x }
  | 4 => { ins := some (.rdMin l s t f), rsv := rdRsv x }
  | 5 => { ins := some (.rdAmax l s t f), ill := wrongTy (fld x 8 2 == 1 || fld x 8 2 == 2) 8 2, rsv := rdRsv x }
  | 6 => { ins := some (.rdMv l (bv x 13 2) (bv x 15 2) (rdDst x) (if fld x 2 2 == 2 then bv x 17 5 else 0) (bt x 22))
           rsv := rcode (fld x 2 2 == 3) 2 2 ++ (if fld x 2 2 == 2 then resv x [(10, 3)] else resv x [(17, 5)]) ++
             (if fld x 13 2 == 0 then rcode (fld x 15 2 == 3) 15 2 else resv x [(15, 2)]) }
  | 7 => { ins := some (.rdClr (bv x 0 4) (bv x 4 2) (bv x 6 2)), ill := excl (fld x 0 4 == 0) 0 4
           rsv := rcode (fld x 4 2 == 3) 4 2 ++
             (if fld x 4 2 == 0 then resv x [(6, 2)] else rcode (fld x 6 2 == 3) 6 2) ++ resv x [(8, 15)] }
  | _ => unassigned 28 4

/-- A transposed A source whose row count is not a multiple of 8 (R257, R272). -/
def badT (x : Nat) : List BadField := excl (bt x 0 && (fld x 16 5 + 1) % 8 != 0) 16 5

/-- The distance flags and the two top flags, reserved outside `mdist` (R40). -/
def noDist (x : Nat) : List BadField := resv x [(2, 2), (4, 1), (5, 8), (14, 2), (21, 1)]

/-- All flags reserved. -/
def noFlags (x : Nat) : List BadField := resv x [(0, 1), (1, 1), (13, 1)] ++ noDist x

/-- MX (Tables 02-7, 02-8, 10-5, 11-2, R295): guard ⟨41:37⟩, opcode ⟨47:42⟩. -/
def decMx (x : Nat) : Dec :=
  let acc : BitVec 3 := bv x 34 3
  let ws : BitVec 6 := bv x 28 6
  let s : ASrc := { r := bv x 23 5, h := bt x 22 }
  let rows : BitVec 5 := bv x 16 5
  match fld x 42 6 with
  | 0x00 => decNop .mxNop x 42
  | 0x01 => { ins := some (.mma acc ws s rows (bt x 0) (bt x 1) (bt x 13)), ill := badT x, rsv := noDist x }
  | 0x03 => { ins := some (.mop acc ws s rows (bt x 1)), rsv := resv x [(0, 1), (13, 1)] ++ noDist x }
  | 0x04 => { ins := some (.mldW ws s (bt x 16) (bt x 13)), rsv := resv x [(0, 1), (1, 1), (17, 4), (34, 3)] ++ noDist x }
  | 0x05 => { ins := some (.mdrain acc s rows), rsv := noFlags x ++ resv x [(28, 6)] }
  | 0x06 => { ins := some (.mrow acc (if bt x 24 then .vb else .va) (BitVec.ofNat 7 (fld x 28 6 + 64 * fld x 23 1)) (bv x 25 2) rows)
              rsv := noFlags x ++ rcode (fld x 25 2 == 3) 25 2 ++ resv x [(22, 1), (27, 1)] }
  | 0x07 => { ins := some (.mclr acc), rsv := noFlags x ++ resv x [(16, 5), (22, 1), (23, 5), (28, 6)] }
  | 0x08 => { ins := some .mwait, rsv := noFlags x ++ resv x [(16, 5), (22, 1), (23, 5), (28, 6), (34, 3)] }
  | 0x09 => { ins := some (.mqStat ws), rsv := noFlags x ++ resv x [(16, 5), (22, 1), (23, 5), (34, 3)] }
  | 0x10 => { ins := some (.mdist acc ws s rows (bt x 0) (bv x 2 2) (bt x 4) (bv x 5 8) (bt x 13)), ill := badT x
              rsv := resv x [(1, 1), (14, 2), (21, 1)] ++ rcode (fld x 2 2 == 3) 2 2 }
  | 0x11 => { ins := some (.mbestClr rows), rsv := noFlags x ++ resv x [(22, 1), (23, 5), (28, 6), (34, 3)] }
  | 0x12 => { ins := some (.mbestRd (if bt x 25 then .vb else .va) (BitVec.ofNat 8 (fld x 28 6 + 64 * fld x 23 2)))
              rsv := noFlags x ++ resv x [(16, 5), (22, 1), (26, 2), (34, 3)] }
  | 0x13 => { ins := some (.cupd (BitVec.ofNat 8 (fld x 28 6 + 64 * fld x 34 2)) s rows)
              ill := excl (!bt x 22 && fld x 23 5 == 31) 23 5, rsv := noFlags x ++ resv x [(36, 1)] }
  | 0x14 => { ins := some (.cfin ws (bv x 23 5) (bt x 16)), ill := excl (bt x 22) 22 1
              rsv := noFlags x ++ resv x [(17, 4), (34, 3)] }
  | 0x20 => { ins := some (.rwStat ws), rsv := noFlags x ++ resv x [(16, 5), (22, 1), (23, 5), (34, 3)] }
  | 0x21 => { ins := some .rwSup, rsv := noFlags x ++ resv x [(16, 5), (22, 1), (23, 5), (28, 6), (34, 3)] }
  | _ => unassigned 42 6

/-- The reserved cd of RE = 0 (R43). -/
def cdRsv (x : Nat) : List BadField := if bt x 5 then [] else resv x [(6, 5)]

/-- A function that requires a reply (R321). -/
def needRe (x : Nat) : List BadField := excl (!bt x 5) 5 1

/-- CP (Tables 02-10, 02-14): guard ⟨4:0⟩, engine ⟨31:28⟩, function ⟨27:21⟩. -/
def decCp (x : Nat) : Dec :=
  let ca : BitVec 5 := bv x 16 5
  let cb : BitVec 5 := bv x 11 5
  let cd : BitVec 5 := bv x 6 5
  let rep := repOf x
  match fld x 28 4, fld x 21 7 with
  | 0, 0x00 => decNop .cpNop x 21
  | 0, 0x01 => { ins := some (.cpy1d ca cb rep), rsv := cdRsv x }
  | 0, 0x02 => { ins := some (.cpyNd ca cb rep), rsv := cdRsv x }
  | 0, 0x03 => { ins := some (.cpyMc ca cb rep), rsv := cdRsv x }
  | 0, 0x04 => { ins := some (.cpySnd ca cb rep), rsv := cdRsv x }
  | 0, 0x05 => { ins := some (.cpyZrb ca cb rep), rsv := cdRsv x }
  | 0, 0x06 => { ins := some (.cpySp24 ca cb rep), rsv := cdRsv x }
  | 0, 0x07 => { ins := some (.cpyStrm ca cb rep), rsv := cdRsv x }
  | 0, 0x08 => { ins := some (.cpyStop ca rep), rsv := cdRsv x ++ resv x [(11, 5)] }
  | 0, 0x09 => { ins := some (.cpyFill ca cb rep), rsv := cdRsv x }
  | 0, 0x0A => { ins := some .cpyClr, ill := excl (bt x 5) 5 1, rsv := cdRsv x ++ resv x [(11, 5), (16, 5)] }
  | 0, 0x0B => { ins := some .cpyQ, arg := [fld x 16 5, fld x 6 5], ill := needRe x, rsv := cdRsv x ++ resv x [(11, 5)] }
  | 1, 0x01 => { ins := some (.frIn ca cb rep), rsv := cdRsv x }
  | 1, 0x02 => { ins := some (.frOut ca cb rep), rsv := cdRsv x }
  | 1, 0x03 => { ins := some (.frSwap ca cb rep), rsv := cdRsv x }
  | 1, 0x04 => { ins := some (.frSnap ca cb rep), rsv := cdRsv x }
  | 1, 0x05 => { ins := some (.frFork ca cb rep), rsv := cdRsv x }
  | 1, 0x06 => { ins := some (.frRoll ca cb rep), rsv := cdRsv x }
  | 1, 0x07 => { ins := some (.frRel ca cb rep), rsv := cdRsv x }
  | 1, 0x08 => { ins := some (.frPin ca cb rep), rsv := cdRsv x }
  | 1, 0x09 => { ins := some (.frChk ca cb rep), rsv := cdRsv x }
  | 1, 0x0A => { ins := some (.frRes ca cb rep), rsv := cdRsv x }
  | 1, 0x0B => { ins := some .frStatOp, arg := [fld x 16 5, fld x 6 5], ill := needRe x, rsv := cdRsv x ++ resv x [(11, 5)] }
  | 2, 0x01 => { ins := some (.scnDiag ca cb rep), rsv := cdRsv x }
  | 2, 0x02 => { ins := some (.scnLin ca rep), rsv := cdRsv x ++ resv x [(11, 5)] }
  | 2, 0x03 => { ins := some (.scnCin ca rep), rsv := cdRsv x ++ resv x [(11, 5)] }
  | 2, 0x04 => { ins := some (.scnCout ca rep), rsv := cdRsv x ++ resv x [(11, 5)] }
  | 2, 0x05 => { ins := some (.scnFade ca rep), rsv := cdRsv x ++ resv x [(11, 5)] }
  | 2, 0x06 => { ins := some (.scnCfg ca rep), rsv := cdRsv x ++ resv x [(11, 5)] }
  | 3, 0x01 => { ins := some (.smpRun ca cb rep), rsv := cdRsv x }
  | 3, 0x02 => { ins := some (.smpShard ca cb rep), rsv := cdRsv x }
  | 3, 0x03 => { ins := some (.smpMerge ca cb rep), rsv := cdRsv x }
  | 3, 0x04 => { ins := some .smpStatQuery, arg := [fld x 16 5, fld x 6 5], ill := needRe x, rsv := cdRsv x ++ resv x [(11, 5)] }
  | 4, 0x01 => { ins := some (.nwStart ca cb rep), rsv := cdRsv x }
  | 4, 0x02 => { ins := some .nwStatQuery, arg := [fld x 16 5, fld x 6 5], ill := needRe x, rsv := cdRsv x ++ resv x [(11, 5)] }
  | 5, 0x01 => { ins := some (.cmAcc ca cb rep), rsv := cdRsv x }
  | 5, 0x02 => { ins := some (.cmEmit ca cb rep), rsv := cdRsv x }
  | 5, 0x03 => { ins := some (.cmTrim ca cb rep), rsv := cdRsv x }
  | 5, 0x04 => { ins := some .cmStatQuery, arg := [fld x 16 5, fld x 6 5], ill := needRe x, rsv := cdRsv x ++ resv x [(11, 5)] }
  | 15, 0x01 => { ins := some (.hndNew ca cd), ill := needRe x, rsv := cdRsv x ++ resv x [(11, 5)] }
  | 15, 0x02 => { ins := some (.hndFree ca rep), rsv := cdRsv x ++ resv x [(11, 5)] }
  | 15, 0x03 => { ins := some (.hndGen ca cd), ill := needRe x, rsv := cdRsv x ++ resv x [(11, 5)] }
  | e, _ => if e ≤ 5 || e == 15 then unassigned 21 7 else unassigned 28 4
/-! ### The encoder -/

/-- The word whose fields, given as (low bit, value), are these. -/
def enc : List (Nat × Nat) → Nat
  | [] => 0
  | f :: r => f.2 * 2 ^ f.1 + enc r

/-- The low bit of the guard in each slot field (Tables 02-3 to 02-10). -/
def Slot.gLo : Slot → Nat
  | .ct => 37 | .sc => 35 | .va => 45 | .vb => 45 | .mx => 37 | .ld => 37
  | .st => 37 | .cp => 0 | .sy => 21 | .xf => 21 | .rd => 23

/-- The width of each slot field (Table 02-1). -/
def Slot.width : Slot → Nat
  | .va => 64 | .vb => 64 | .cp => 32 | .sy => 32 | .xf => 32 | .rd => 32 | _ => 48

/-- The low bit of each slot field in a bundle (Table 02-1). -/
def Slot.lo : Slot → Nat
  | .ct => 16 | .sc => 64 | .va => 112 | .vb => 176 | .mx => 240 | .ld => 288
  | .st => 336 | .cp => 384 | .sy => 416 | .xf => 448 | .rd => 480

def ityCode : ITy → Nat
  | .i64 => 0 | .n64 => 1 | .i32 => 2 | .n32 => 3

def srcBFields : SrcB → List (Nat × Nat)
  | .reg n => [(16, n.toNat)]
  | .imm v => [(22, 1), (0, v.toNat)]

def cmpDstCode : CmpDst → Nat
  | .pred n => n.toNat
  | .cq => 32

def movFields : MovDst → List (Nat × Nat)
  | .vec f n e bc => [(0, if f == .va then 1 else 2), (29, n.toNat % 64), (10, n.toNat / 64), (16, e.toNat), (4, bc.toNat)]
  | .pred n => [(0, 3), (29, n.toNat)]
  | .lc k p => [(0, 4), (29, k.toNat), (5, p.toNat)]
  | .lx k => [(0, 5), (29, k.toNat)]
  | .kp p => [(0, 6), (5, p.toNat)]
  | .la n => [(0, 7), (29, n.toNat)]
  | .sa n => [(0, 8), (29, n.toNat)]
  | .c n => [(0, 9), (29, n.toNat)]
  | .x n => [(0, 10), (29, n.toNat)]

def vwCode : VW → Nat
  | .w256 => 0 | .w512 => 1 | .w1024 => 2

def vSlot : VFile → Slot
  | .va => .va
  | .vb => .vb

/-- Opcode, width, type and mask of a vector operation. -/
def vf (op : Nat) (h : VH) (t : Nat) (fs : List (Nat × Nat)) : Slot × List (Nat × Nat) :=
  (vSlot h.f, (56, op) :: (54, vwCode h.w) :: (50, t) :: (41, h.m.toNat) :: fs)

/-- The modifier of a vector operation on a number: the rounding code, or the saturation bit of an integer form. -/
def nmod (rm : BitVec 3) (sat : Bool) : Nat × Nat := (0, rm.toNat + 8 * sat.toNat)

def vfile : VFile → Nat
  | .va => 0
  | .vb => 1

def vregFields (r : VReg) : List (Nat × Nat) := [(35, vfile r.f), (26, r.n.toNat)]

def dregFields : DReg → List (Nat × Nat)
  | .v r => vregFields r
  | .s n => [(35, 2), (26, n.toNat)]

def memFields (a : Mem) : List (Nat × Nat) := [(21, a.base.toNat), (0, a.off.toNat)]

def lsf (s : Slot) (op : Nat) (d : List (Nat × Nat)) (h : Bool) (a : Mem) : Slot × List (Nat × Nat) :=
  (s, (42, op) :: (20, h.toNat) :: (d ++ memFields a))

def atf (k : Nat) (gl w64 : Bool) (r : BitVec 6) (a : Mem) : Slot × List (Nat × Nat) :=
  lsf .st (0x20 + 0x10 * gl.toNat + 2 * k + w64.toNat) [(35, 2), (26, r.toNat)] false a

def rangeFields : Option (BitVec 6 × BitVec 14) → List (Nat × Nat)
  | none => []
  | some p => [(0, 1), (1, p.1.toNat), (7, p.2.toNat)]

def repFields : Option (BitVec 5) → List (Nat × Nat)
  | none => []
  | some d => [(5, 1), (6, d.toNat)]

def cpf (eng fn : Nat) (ca cb : Nat) (rep : Option (BitVec 5)) : Slot × List (Nat × Nat) :=
  (.cp, (28, eng) :: (21, fn) :: (16, ca) :: (11, cb) :: repFields rep)

/-- A status query, whose ca and cd stand in the argument list; its reply is enabled. -/
def cpq (eng fn : Nat) (arg : List Nat) : Slot × List (Nat × Nat) :=
  (.cp, [(28, eng), (21, fn), (16, arg.getD 0 0), (5, 1), (6, arg.getD 1 0)])

def asrcFields (a : ASrc) : List (Nat × Nat) := [(23, a.r.toNat), (22, a.h.toNat)]

def mxf (op : Nat) (fs : List (Nat × Nat)) : Slot × List (Nat × Nat) := (.mx, (42, op) :: fs)

def ctf (op : Nat) (fs : List (Nat × Nat)) : Slot × List (Nat × Nat) := (.ct, (42, op) :: fs)

def scf (op : Nat) (fs : List (Nat × Nat)) : Slot × List (Nat × Nat) := (.sc, (40, op) :: fs)

def scTy (base : Nat) (t : ITy) (fs : List (Nat × Nat)) : Slot × List (Nat × Nat) := scf (base + ityCode t) fs

def syf (op : Nat) (fs : List (Nat × Nat)) : Slot × List (Nat × Nat) := (.sy, (26, op) :: fs)

def xff (op : Nat) (fs : List (Nat × Nat)) : Slot × List (Nat × Nat) := (.xf, (26, op) :: fs)

def rdf (op : Nat) (fs : List (Nat × Nat)) : Slot × List (Nat × Nat) := (.rd, (28, op) :: fs)

def redf (op : Nat) (l : BitVec 2) (a : ASrc) (t : BitVec 2) (fold : BitVec 3) : Slot × List (Nat × Nat) :=
  rdf op [(0, l.toNat), (2, a.r.toNat), (7, a.h.toNat), (8, t.toNat), (10, fold.toNat)]

/-- The slot of an operation and its fields without the guard; nothing for a step that no bundle encodes and for the
nops, whose field is all zero (R32).  The second argument is the argument list of a status query. -/
def encFields (i : Instr) (arg : List Nat) : Option (Slot × List (Nat × Nat)) :=
  match i with
  | .br t => some (ctf 1 [(0, t.toNat)])
  | .brc t f => some (ctf 2 [(0, t.toNat), (32, f.toNat)])
  | .jmp t k => some (ctf 3 [(0, t.toNat), (32, k.toNat)])
  | .call t => some (ctf 4 [(0, t.toNat)])
  | .ret => some (ctf 5 [])
  | .loop len1 lvl set (.imm n) => some (ctf 6 [(0, len1.toNat), (10, lvl.toNat), (13, set.toNat), (17, n.toNat)])
  | .loop len1 lvl set (.lc k) => some (ctf 6 [(0, len1.toNat), (10, lvl.toNat), (13, set.toNat), (16, 1), (17, k.toNat)])
  | .lpCnt v k p => some (ctf 7 [(0, v.toNat), (16, k.toNat), (19, p.toNat)])
  | .lpIdx v k => some (ctf 8 [(0, v.toNat), (32, k.toNat)])
  | .lpStr step start set => some (ctf 9 [(0, step.toNat), (16, start.toNat), (32, set.toNat)])
  | .kpSet m p => some (ctf 10 [(0, m.toNat), (16, p.toNat)])
  | .kpClr m p => some (ctf 11 [(0, m.toNat), (16, p.toNat)])
  | .yield run => some (ctf 12 [(0, run.toNat)])
  | .halt => some (ctf 13 [])
  | .fmtLo v => some (ctf 14 [(0, v.toNat)])
  | .fmtHi v => some (ctf 14 [(0, v.toNat), (32, 1)])
  | .rwp r x => some (ctf 15 [(0, r.toNat), (1, x.toNat)])
  | .pri n => some (ctf 16 [(0, n.toNat)])
  | .cqPush p neg => some (ctf 17 [(0, p.toNat), (4, neg.toNat)])
  | .cqFlush => some (ctf 18 [])
  | .cqDepth d => some (ctf 19 [(0, d.toNat)])
  | .wdog => some (ctf 20 [])
  | .fork t pol => some (ctf 0x18 [(0, t.toNat), (32, pol.toNat)])
  | .sync s => some (ctf 0x19 [(0, s.toNat)])
  | .sleep => some (ctf 0x1A [])
  | .wake t k c => some (ctf 0x1B [(0, t.toNat), (32, k.toNat), (35, c.toNat)])
  | .hintNext => some (ctf 0x1C [])
  | .waitPred => some (ctf 0x1D [])
  | .spawnStat => some (ctf 0x1E [(0, arg.getD 0 0)])
  | .rwLd img => some (ctf 0x20 [(0, img.toNat)])
  | .rwEn => some (ctf 0x21 [])
  | .rwDis => some (ctf 0x22 [])
  | .rwInv k => some (ctf 0x23 [(0, k.toNat)])
  | .rwInvAll => some (ctf 0x23 [(6, 1)])
  | .trap n => some (ctf 0x30 [(0, n.toNat)])
  | .rfe none => some (ctf 0x31 [])
  | .rfe (some s) => some (ctf 0x31 [(0, 1), (1, s.toNat)])
  | .sys n => some (ctf 0x32 [(0, n.toNat)])
  | .kill s => some (ctf 0x33 [(0, s.toNat)])
  | .tlbInvAll dev => some (ctf 0x34 [(12, dev.toNat)])
  | .tlbInvFn f dev => some (ctf 0x34 [(0, 1), (2, f.toNat), (12, dev.toNat)])
  | .tlbInvPg s f dev => some (ctf 0x34 [(0, 2), (2, f.toNat), (6, s.toNat), (12, dev.toNat)])
  | .pgret s d => some (ctf 0x35 [(0, s.toNat), (6, d.toNat)])
  | .wayq s d => some (ctf 0x36 [(0, s.toNat), (6, d.toNat), (12, 1)])
  | .wayqRel s d => some (ctf 0x36 [(0, s.toNat), (6, d.toNat)])
  | .hold s => some (ctf 0x37 [(0, s.toNat), (6, 1)])
  | .holdRel s => some (ctf 0x37 [(0, s.toNat)])
  | .scAdd t d a b => some (scTy 0x04 t ((29, d.toNat) :: (23, a.toNat) :: srcBFields b))
  | .scSub t d a b => some (scTy 0x08 t ((29, d.toNat) :: (23, a.toNat) :: srcBFields b))
  | .scMul t d a b => some (scTy 0x0C t ((29, d.toNat) :: (23, a.toNat) :: srcBFields b))
  | .scMulh t d a b => some (scTy 0x10 t ((29, d.toNat) :: (23, a.toNat) :: srcBFields b))
  | .scDiv t d a b => some (scTy 0x14 t ((29, d.toNat) :: (23, a.toNat) :: srcBFields b))
  | .scRem t d a b => some (scTy 0x18 t ((29, d.toNat) :: (23, a.toNat) :: srcBFields b))
  | .scAnd t d a b => some (scTy 0x1C t ((29, d.toNat) :: (23, a.toNat) :: srcBFields b))
  | .scOr t d a b => some (scTy 0x20 t ((29, d.toNat) :: (23, a.toNat) :: srcBFields b))
  | .scXor t d a b => some (scTy 0x24 t ((29, d.toNat) :: (23, a.toNat) :: srcBFields b))
  | .scShl t d a b => some (scTy 0x2C t ((29, d.toNat) :: (23, a.toNat) :: srcBFields b))
  | .scShr t d a b => some (scTy 0x30 t ((29, d.toNat) :: (23, a.toNat) :: srcBFields b))
  | .scSar t d a b => some (scTy 0x34 t ((29, d.toNat) :: (23, a.toNat) :: srcBFields b))
  | .scRot t d a b => some (scTy 0x38 t ((29, d.toNat) :: (23, a.toNat) :: srcBFields b))
  | .scMin t d a b => some (scTy 0x3C t ((29, d.toNat) :: (23, a.toNat) :: srcBFields b))
  | .scMax t d a b => some (scTy 0x40 t ((29, d.toNat) :: (23, a.toNat) :: srcBFields b))
  | .scLop3 t d a b c tab => some (scTy 0x28 t [(29, d.toNat), (23, a.toNat), (16, b.toNat), (10, c.toNat), (0, tab.toNat)])
  | .scClz t d a => some (scTy 0x44 t [(29, d.toNat), (23, a.toNat)])
  | .scPopc t d a => some (scTy 0x48 t [(29, d.toNat), (23, a.toNat)])
  | .scSel t d a b p neg => some (scTy 0x4C t [(29, d.toNat), (23, a.toNat), (16, b.toNat), (0, p.toNat), (4, neg.toNat)])
  | .scCmpEq t d a b => some (scTy 0x50 t ((29, cmpDstCode d) :: (23, a.toNat) :: srcBFields b))
  | .scCmpNe t d a b => some (scTy 0x54 t ((29, cmpDstCode d) :: (23, a.toNat) :: srcBFields b))
  | .scCmpLt t d a b => some (scTy 0x58 t ((29, cmpDstCode d) :: (23, a.toNat) :: srcBFields b))
  | .scCmpLe t d a b => some (scTy 0x5C t ((29, cmpDstCode d) :: (23, a.toNat) :: srcBFields b))
  | .scCmpGt t d a b => some (scTy 0x60 t ((29, cmpDstCode d) :: (23, a.toNat) :: srcBFields b))
  | .scCmpGe t d a b => some (scTy 0x64 t ((29, cmpDstCode d) :: (23, a.toNat) :: srcBFields b))
  | .li d imm => some (scf 0x68 [(29, d.toNat), (22, 1), (0, imm.toNat)])
  | .liHi d a imm => some (scf 0x69 [(29, d.toNat), (23, a.toNat), (22, 1), (0, imm.toNat)])
  | .liWide d k => some (scf 0x6A [(29, d.toNat), (22, 1), (0, k.toNat)])
  | .adds d a b k => some (scf 0x6B [(29, d.toNat), (23, a.toNat), (16, b.toNat), (0, k.toNat)])
  | .fadd rm d a b => some (scf 0x70 [(29, d.toNat), (23, a.toNat), (16, b.toNat), (7, rm.toNat)])
  | .fmul rm d a b => some (scf 0x71 [(29, d.toNat), (23, a.toNat), (16, b.toNat), (7, rm.toNat)])
  | .scFma rm d a b c => some (scf 0x72 [(29, d.toNat), (23, a.toNat), (16, b.toNat), (10, c.toNat), (7, rm.toNat)])
  | .fcmp cond rm d a b => some (scf 0x73 [(29, cmpDstCode d), (23, a.toNat), (16, b.toNat), (7, rm.toNat), (0, cond.toNat)])
  | .scCvt tt src rm d a => some (scf 0x74 [(29, d.toNat), (23, a.toNat), (16, tt.toNat), (10, src.toNat), (7, rm.toNat)])
  | .scMov d a => some (scf 0x78 ((23, a.toNat) :: movFields d))
  | .scSpl a k => some (scf 0x79 [(23, a.toNat), (22, 1), (0, k.toNat)])
  | .scFil d k => some (scf 0x7A [(29, d.toNat), (22, 1), (0, k.toNat)])
  | .rdc d n => some (scf 0x7B [(29, d.toNat), (0, n.toNat)])
  | .wrc n a => some (scf 0x7C [(23, a.toNat), (0, n.toNat)])
  | .errRdTrap d a => some (scf 0x7D [(29, d.toNat), (23, a.toNat)])
  | .errRdLog d a => some (scf 0x7D [(29, d.toNat), (23, a.toNat), (0, 1)])
  | .ctxStat d a => some (scf 0x7E [(29, d.toNat), (23, a.toNat)])
  | .vAdd h t d a b rm sat => some (vf 1 h t.toNat [(32, d.toNat), (23, a.toNat), (14, b.toNat), nmod rm sat])
  | .vSub h t d a b rm sat => some (vf 2 h t.toNat [(32, d.toNat), (23, a.toNat), (14, b.toNat), nmod rm sat])
  | .vMul h t d a b rm sat => some (vf 3 h t.toNat [(32, d.toNat), (23, a.toNat), (14, b.toNat), nmod rm sat])
  | .vMulh h t d a b => some (vf 4 h t.toNat [(32, d.toNat), (23, a.toNat), (14, b.toNat)])
  | .vFma h t d a b c rm => some (vf 5 h t.toNat [(32, d.toNat), (23, a.toNat), (14, b.toNat), (5, c.toNat), (0, rm.toNat)])
  | .vFms h t d a b c rm => some (vf 6 h t.toNat [(32, d.toNat), (23, a.toNat), (14, b.toNat), (5, c.toNat), (0, rm.toNat)])
  | .vFnma h t d a b c rm => some (vf 7 h t.toNat [(32, d.toNat), (23, a.toNat), (14, b.toNat), (5, c.toNat), (0, rm.toNat)])
  | .vMin h t d a b rm => some (vf 8 h t.toNat [(32, d.toNat), (23, a.toNat), (14, b.toNat), (0, rm.toNat)])
  | .vMax h t d a b rm => some (vf 9 h t.toNat [(32, d.toNat), (23, a.toNat), (14, b.toNat), (0, rm.toNat)])
  | .vAbs h t d a rm => some (vf 10 h t.toNat [(32, d.toNat), (23, a.toNat), (0, rm.toNat)])
  | .vNeg h t d a rm => some (vf 11 h t.toNat [(32, d.toNat), (23, a.toNat), (0, rm.toNat)])
  | .vRcp h t d a rm => some (vf 16 h t.toNat [(32, d.toNat), (23, a.toNat), (0, rm.toNat)])
  | .vRsq h t d a rm => some (vf 17 h t.toNat [(32, d.toNat), (23, a.toNat), (0, rm.toNat)])
  | .vExp2 h t d a rm => some (vf 18 h t.toNat [(32, d.toNat), (23, a.toNat), (0, rm.toNat)])
  | .vLog2 h t d a rm => some (vf 19 h t.toNat [(32, d.toNat), (23, a.toNat), (0, rm.toNat)])
  | .vTanh h t d a rm => some (vf 20 h t.toNat [(32, d.toNat), (23, a.toNat), (0, rm.toNat)])
  | .vSilu h t d a rm => some (vf 21 h t.toNat [(32, d.toNat), (23, a.toNat), (0, rm.toNat)])
  | .vSoftplus h t d a rm => some (vf 22 h t.toNat [(32, d.toNat), (23, a.toNat), (0, rm.toNat)])
  | .vAnd h t d a b => some (vf 0x20 h t.toNat [(32, d.toNat), (23, a.toNat), (14, b.toNat)])
  | .vOr h t d a b => some (vf 0x21 h t.toNat [(32, d.toNat), (23, a.toNat), (14, b.toNat)])
  | .vXor h t d a b => some (vf 0x22 h t.toNat [(32, d.toNat), (23, a.toNat), (14, b.toNat)])
  | .vShl h t d a b => some (vf 0x24 h t.toNat [(32, d.toNat), (23, a.toNat), (14, b.toNat)])
  | .vShr h t d a b => some (vf 0x25 h t.toNat [(32, d.toNat), (23, a.toNat), (14, b.toNat)])
  | .vSar h t d a b => some (vf 0x26 h t.toNat [(32, d.toNat), (23, a.toNat), (14, b.toNat)])
  | .vLop3 h d a b c tab => some (vf 0x23 h (tab.toNat / 16) [(32, d.toNat), (23, a.toNat), (14, b.toNat), (5, c.toNat), (1, tab.toNat % 16)])
  | .vCvt h src tt d a q rm => some (vf 0x27 h src.toNat [(32, d.toNat), (23, a.toNat), (9, q.toNat), (5, tt.toNat), (0, rm.toNat)])
  | .vCmpEq h t d a b rm => some (vf 0x30 h t.toNat [(32, d.toNat), (23, a.toNat), (14, b.toNat), (0, rm.toNat)])
  | .vCmpNe h t d a b rm => some (vf 0x31 h t.toNat [(32, d.toNat), (23, a.toNat), (14, b.toNat), (0, rm.toNat)])
  | .vCmpLt h t d a b rm => some (vf 0x32 h t.toNat [(32, d.toNat), (23, a.toNat), (14, b.toNat), (0, rm.toNat)])
  | .vCmpLe h t d a b rm => some (vf 0x33 h t.toNat [(32, d.toNat), (23, a.toNat), (14, b.toNat), (0, rm.toNat)])
  | .vCmpGt h t d a b rm => some (vf 0x34 h t.toNat [(32, d.toNat), (23, a.toNat), (14, b.toNat), (0, rm.toNat)])
  | .vCmpGe h t d a b rm => some (vf 0x35 h t.toNat [(32, d.toNat), (23, a.toNat), (14, b.toNat), (0, rm.toNat)])
  | .vCmpUn h t d a b rm => some (vf 0x36 h t.toNat [(32, d.toNat), (23, a.toNat), (14, b.toNat), (0, rm.toNat)])
  | .vCmpEqU h t a b rm => some (vf 0x38 h t.toNat [(23, a.toNat), (14, b.toNat), (0, rm.toNat)])
  | .vCmpNeU h t a b rm => some (vf 0x39 h t.toNat [(23, a.toNat), (14, b.toNat), (0, rm.toNat)])
  | .vCmpLtU h t a b rm => some (vf 0x3A h t.toNat [(23, a.toNat), (14, b.toNat), (0, rm.toNat)])
  | .vCmpLeU h t a b rm => some (vf 0x3B h t.toNat [(23, a.toNat), (14, b.toNat), (0, rm.toNat)])
  | .vCmpGtU h t a b rm => some (vf 0x3C h t.toNat [(23, a.toNat), (14, b.toNat), (0, rm.toNat)])
  | .vCmpGeU h t a b rm => some (vf 0x3D h t.toNat [(23, a.toNat), (14, b.toNat), (0, rm.toNat)])
  | .vCmpUnU h t a b rm => some (vf 0x3E h t.toNat [(23, a.toNat), (14, b.toNat), (0, rm.toNat)])
  | .vSel h t d a b ms => some (vf 0x40 h t.toNat [(32, d.toNat), (23, a.toNat), (14, b.toNat), (5, ms.toNat)])
  | .vPerm h t d a b c => some (vf 0x41 h t.toNat [(32, d.toNat), (23, a.toNat), (14, b.toNat), (5, c.toNat)])
  | .vShuf h t pat d a b k => some (vf 0x42 h t.toNat [(32, d.toNat), (23, a.toNat), (14, b.toNat), (5, k.toNat), (0, pat.toNat)])
  | .vBcast h t d a k => some (vf 0x43 h t.toNat [(32, d.toNat), (23, a.toNat), (5, k.toNat)])
  | .vIota h t d => some (vf 0x44 h t.toNat [(32, d.toNat)])
  | .vAny h t ms => some (vf 0x45 h t.toNat [(23, ms.toNat)])
  | .vAll h t ms => some (vf 0x46 h t.toNat [(23, ms.toNat)])
  | .vMov h d a => some (vf 0x48 h 0 [(32, d.toNat), (23, a.toNat)])
  | .vMovCross h d a => some (vf 0x48 h 0 [(32, d.toNat), (23, a.toNat), (0, 1)])
  | .vMovToScalar f ww d a e => some (vf 0x48 { f := f, w := ww, m := 0 } 0 [(32, d.toNat), (23, a.toNat), (5, e.toNat), (0, 2)])
  | .vMovMask f d a => some (vf 0x48 { f := f, w := .w1024, m := 0 } 0 [(32, d.toNat), (23, a.toNat), (0, 3)])
  | .vMovMaskCross f d a => some (vf 0x48 { f := f, w := .w1024, m := 0 } 0 [(32, d.toNat), (23, a.toNat), (0, 4)])
  | .movIxGet h d s => some (vf 0x49 h 0 [(32, d.toNat), (14, s.toNat)])
  | .movIxPut h a s => some (vf 0x49 h 0 [(23, a.toNat), (14, s.toNat), (0, 1)])
  | .vSpl f ww a k => some (vf 0x4A { f := f, w := ww, m := 0 } 0 [(23, a.toNat), (5, k.toNat)])
  | .vFil h d k => some (vf 0x4B h 0 [(32, d.toNat), (5, k.toNat)])
  | .ldRow d a => some (lsf .ld 1 (vregFields d) false a)
  | .ldRowChk d a => some (lsf .ld 2 (vregFields d) false a)
  | .ldS d a => some (lsf .ld 3 [(35, 2), (26, d.toNat)] false a)
  | .ldH d a => some (lsf .ld 4 (vregFields d) true a)
  | .ldHChk d a => some (lsf .ld 5 (vregFields d) true a)
  | .ldg h cnt1 a => some (lsf .ld 6 [(26, h.toNat), (31, cnt1.toNat)] false a)
  | .ldPr d a => some (lsf .ld 7 (vregFields d) false a)
  | .ldSb d a => some (lsf .ld 8 (vregFields d) false a)
  | .ldIdx d b k m => some ((Slot.ld, (42, 9) :: (21, b.toNat) :: (15, k.toNat) :: (0, m.toNat) :: vregFields d))
  | .ldBc d a => some (lsf .ld 10 (vregFields d) false a)
  | .ldZ d a => some (lsf .ld 11 (vregFields d) false a)
  | .ldAcq sc d a => some (lsf .ld (16 + sc.toNat) (dregFields d) false a)
  | .stRow v a => some (lsf .st 1 (vregFields v) false a)
  | .stS n a => some (lsf .st 2 [(35, 2), (26, n.toNat)] false a)
  | .stH v a => some (lsf .st 3 (vregFields v) true a)
  | .stg v a => some (lsf .st 4 (dregFields v) false a)
  | .stNt v a => some (lsf .st 5 (dregFields v) false a)
  | .stPr v a => some (lsf .st 6 (vregFields v) false a)
  | .stSb v a => some (lsf .st 7 (vregFields v) false a)
  | .stRel sc v a => some (lsf .st (16 + sc.toNat) (dregFields v) false a)
  | .aadd gl w64 r a => some (atf 0 gl w64 r a)
  | .amin gl w64 r a => some (atf 1 gl w64 r a)
  | .amax gl w64 r a => some (atf 2 gl w64 r a)
  | .axch gl w64 r a => some (atf 3 gl w64 r a)
  | .acas gl w64 r a => some (atf 4 gl w64 r a)
  | .aand gl w64 r a => some (atf 5 gl w64 r a)
  | .aor gl w64 r a => some (atf 6 gl w64 r a)
  | .axor gl w64 r a => some (atf 7 gl w64 r a)
  | .nbInit b n => some (syf 1 [(0, b.toNat), (6, n.toNat)])
  | .nbExp b s => some (syf 2 [(0, b.toNat), (6, s.toNat)])
  | .nbArr b none => some (syf 3 [(0, b.toNat)])
  | .nbArr b (some k) => some (syf 3 [(0, b.toNat), (6, k.toNat), (8, 1)])
  | .nbWait b q => some (syf 4 [(0, b.toNat), (6, q.toNat)])
  | .nbStat d b sel => some (syf 5 [(0, b.toNat), (6, d.toNat), (12, sel.toNat)])
  | .tlWait e k r => some (syf 6 [(0, e.toNat), (3, k.toNat), (4, r.toNat)])
  | .tlRead d e sel => some (syf 7 [(0, e.toNat), (3, d.toNat), (9, sel.toNat)])
  | .invL1 rg => some (syf 8 (rangeFields rg))
  | .wbL1 rg => some (syf 9 (rangeFields rg))
  | .hBind h s => some (syf 10 [(0, h.toNat), (5, s.toNat)])
  | .hAdvc h k => some (syf 11 [(0, h.toNat), (5, k.toNat)])
  | .hAdvp h k => some (syf 12 [(0, h.toNat), (5, k.toNat)])
  | .hStat d h sel => some (syf 13 [(0, h.toNat), (5, d.toNat), (11, sel.toNat)])
  | .drain sc => some (syf (16 + sc.toNat) [])
  | .fence sc => some (syf (24 + sc.toNat) [])
  | .xfCvt tt src d a q tile => some (xff 1 [(0, d.toNat), (4, a.toNat), (8, src.toNat), (12, tt.toNat), (16, q.toNat), (20, tile.toNat)])
  | .xfTr e d a => some (xff 2 [(0, d.toNat), (4, a.toNat), (12, e.toNat)])
  | .xfExpZr d a => some (xff 3 [(0, d.toNat), (4, a.toNat)])
  | .xfExpSp24 e d a => some (xff 3 [(0, d.toNat), (4, a.toNat), (12, 1), (14, e.toNat)])
  | .xfPack e d a => some (xff 4 [(0, d.toNat), (4, a.toNat), (12, e.toNat)])
  | .xfRot d a b k => some (xff 5 [(0, d.toNat), (4, a.toNat), (8, b.toNat), (12, k.toNat)])
  | .xfScl t v rm d a b => some (xff 6 [(0, d.toNat), (4, a.toNat), (8, b.toNat), (12, t.toNat), (14, v.toNat), (15, rm.toNat)])
  | .xfColW d b => some (xff 7 [(0, d.toNat), (8, b.toNat)])
  | .xfColChk t a => some (xff 7 [(4, a.toNat), (12, 1), (14, t.toNat)])
  | .xfColRd d a => some (xff 7 [(0, d.toNat), (4, a.toNat), (12, 2)])
  | .xfColClr => some (xff 7 [(12, 3)])
  | .xfSwz d a sh k => some (xff 8 [(0, d.toNat), (4, a.toNat), (12, sh.toNat), (15, k.toNat)])
  | .xfMvRow d a => some (xff 9 [(0, d.toNat), (4, a.toNat)])
  | .xfMvScalar n a => some (xff 9 [(4, a.toNat), (12, 1), (14, n.toNat)])
  | .xfMvReg d a => some (xff 9 [(0, d.toNat), (4, a.toNat), (12, 2)])
  | .rdAdd l a t fold => some (redf 1 l a t fold)
  | .rdKadd l a t fold => some (redf 2 l a t fold)
  | .rdMax l a t fold => some (redf 3 l a t fold)
  | .rdMin l a t fold => some (redf 4 l a t fold)
  | .rdAmax l a t fold => some (redf 5 l a t fold)
  | .rdMv l mode t (.v r) k clr => some (rdf 6 [(0, l.toNat), (2, vfile r.f), (4, r.n.toNat), (13, mode.toNat), (15, t.toNat), (17, k.toNat), (22, clr.toNat)])
  | .rdMv l mode t (.s n) k clr => some (rdf 6 [(0, l.toNat), (2, 2), (4, n.toNat), (13, mode.toNat), (15, t.toNat), (17, k.toNat), (22, clr.toNat)])
  | .rdClr m init t => some (rdf 7 [(0, m.toNat), (4, init.toNat), (6, t.toNat)])
  | .mma acc ws a rows t ovw chk => some (mxf 1 ((34, acc.toNat) :: (28, ws.toNat) :: (16, rows.toNat) :: (0, t.toNat) :: (1, ovw.toNat) :: (13, chk.toNat) :: asrcFields a))
  | .mop acc ws a rows ovw => some (mxf 3 ((34, acc.toNat) :: (28, ws.toNat) :: (16, rows.toNat) :: (1, ovw.toNat) :: asrcFields a))
  | .mldW ws a sp chk => some (mxf 4 ((28, ws.toNat) :: (16, sp.toNat) :: (13, chk.toNat) :: asrcFields a))
  | .mdrain acc a rows => some (mxf 5 ((34, acc.toNat) :: (16, rows.toNat) :: asrcFields a))
  | .mrow acc f q mode i => some (mxf 6 [(34, acc.toNat), (28, q.toNat % 64), (23, q.toNat / 64), (24, vfile f), (25, mode.toNat), (16, i.toNat)])
  | .mclr acc => some (mxf 7 [(34, acc.toNat)])
  | .mwait => some (mxf 8 [])
  | .mqStat d => some (mxf 9 [(28, d.toNat)])
  | .mdist acc ws a rows t met tie pass chk => some (mxf 0x10 ((34, acc.toNat) :: (28, ws.toNat) :: (16, rows.toNat) :: (0, t.toNat) :: (2, met.toNat) :: (4, tie.toNat) :: (5, pass.toNat) :: (13, chk.toNat) :: asrcFields a))
  | .mbestClr rows => some (mxf 0x11 [(16, rows.toNat)])
  | .mbestRd f q => some (mxf 0x12 [(28, q.toNat % 64), (23, q.toNat / 64), (25, vfile f)])
  | .cupd p a rows => some (mxf 0x13 ((28, p.toNat % 64) :: (34, p.toNat / 64) :: (16, rows.toNat) :: asrcFields a))
  | .cfin ws la z => some (mxf 0x14 [(28, ws.toNat), (23, la.toNat), (16, z.toNat)])
  | .rwStat d => some (mxf 0x20 [(28, d.toNat)])
  | .rwSup => some (mxf 0x21 [])
  | .cpy1d ca cb rep => some (cpf 0 1 ca.toNat cb.toNat rep)
  | .cpyNd ca cb rep => some (cpf 0 2 ca.toNat cb.toNat rep)
  | .cpyMc ca cb rep => some (cpf 0 3 ca.toNat cb.toNat rep)
  | .cpySnd ca cb rep => some (cpf 0 4 ca.toNat cb.toNat rep)
  | .cpyZrb ca cb rep => some (cpf 0 5 ca.toNat cb.toNat rep)
  | .cpySp24 ca cb rep => some (cpf 0 6 ca.toNat cb.toNat rep)
  | .cpyStrm ca cb rep => some (cpf 0 7 ca.toNat cb.toNat rep)
  | .cpyStop ca rep => some (cpf 0 8 ca.toNat 0 rep)
  | .cpyFill ca cb rep => some (cpf 0 9 ca.toNat cb.toNat rep)
  | .cpyClr => some (cpf 0 10 0 0 none)
  | .cpyQ => some (cpq 0 11 arg)
  | .frIn ca cb rep => some (cpf 1 1 ca.toNat cb.toNat rep)
  | .frOut ca cb rep => some (cpf 1 2 ca.toNat cb.toNat rep)
  | .frSwap ca cb rep => some (cpf 1 3 ca.toNat cb.toNat rep)
  | .frSnap ca cb rep => some (cpf 1 4 ca.toNat cb.toNat rep)
  | .frFork ca cb rep => some (cpf 1 5 ca.toNat cb.toNat rep)
  | .frRoll ca cb rep => some (cpf 1 6 ca.toNat cb.toNat rep)
  | .frRel ca cb rep => some (cpf 1 7 ca.toNat cb.toNat rep)
  | .frPin ca cb rep => some (cpf 1 8 ca.toNat cb.toNat rep)
  | .frChk ca cb rep => some (cpf 1 9 ca.toNat cb.toNat rep)
  | .frRes ca cb rep => some (cpf 1 10 ca.toNat cb.toNat rep)
  | .frStatOp => some (cpq 1 11 arg)
  | .scnDiag ca cb rep => some (cpf 2 1 ca.toNat cb.toNat rep)
  | .scnLin ca rep => some (cpf 2 2 ca.toNat 0 rep)
  | .scnCin ca rep => some (cpf 2 3 ca.toNat 0 rep)
  | .scnCout ca rep => some (cpf 2 4 ca.toNat 0 rep)
  | .scnFade ca rep => some (cpf 2 5 ca.toNat 0 rep)
  | .scnCfg ca rep => some (cpf 2 6 ca.toNat 0 rep)
  | .smpRun ca cb rep => some (cpf 3 1 ca.toNat cb.toNat rep)
  | .smpShard ca cb rep => some (cpf 3 2 ca.toNat cb.toNat rep)
  | .smpMerge ca cb rep => some (cpf 3 3 ca.toNat cb.toNat rep)
  | .nwStart ca cb rep => some (cpf 4 1 ca.toNat cb.toNat rep)
  | .cmAcc ca cb rep => some (cpf 5 1 ca.toNat cb.toNat rep)
  | .cmEmit ca cb rep => some (cpf 5 2 ca.toNat cb.toNat rep)
  | .cmTrim ca cb rep => some (cpf 5 3 ca.toNat cb.toNat rep)
  | .smpStatQuery => some (cpq 3 4 arg)
  | .nwStatQuery => some (cpq 4 2 arg)
  | .cmStatQuery => some (cpq 5 4 arg)
  | .hndNew ca cd => some (cpf 15 1 ca.toNat 0 (some cd))
  | .hndFree ca rep => some (cpf 15 2 ca.toNat 0 rep)
  | .hndGen ca cd => some (cpf 15 3 ca.toNat 0 (some cd))
  | _ => none

/-- The slot field of an operation under its guard; nothing where no bundle encodes it. -/
def encodeOp (o : SOp) : Option Nat :=
  (encFields o.i o.arg).map fun p => enc ((p.1.gLo, o.g.toNat) :: p.2)

/-! ### The bundle -/

/-- The decoder of a slot field. -/
def decSlot : Slot → Nat → Dec
  | .ct => decCt | .sc => decSc | .va => decV .va | .vb => decV .vb | .mx => decMx | .ld => decLd
  | .st => decSt | .cp => decCp | .sy => decSy | .xf => decXf | .rd => decRd

/-- The slots in bundle-bit order. -/
def Slot.all : List Slot := [.ct, .sc, .va, .vb, .mx, .ld, .st, .cp, .sy, .xf, .rd]

/-- A slot's field of a bundle word. -/
def Slot.field (s : Slot) (b : Nat) : Nat := fld b s.lo s.width

/-- The header of a bundle word (Table 02-2). -/
def hdrOf (b : Nat) : Hdr :=
  { kind := bv b 0 2, ske := bt b 2, skp := bv b 3 4, sks := bt b 7, m := bt b 8, fio := bt b 9, lio := bt b 10, lvl := bv b 11 3 }

/-- The header word of a header. -/
def encHdr (h : Hdr) : Nat :=
  enc [(0, h.kind.toNat), (2, h.ske.toNat), (3, h.skp.toNat), (7, h.sks.toNat), (8, h.m.toNat), (9, h.fio.toNat),
    (10, h.lio.toNat), (11, h.lvl.toNat)]

/-- The word of a bundle; nothing if an operation has no encoding. -/
def encodeBundle (b : Bundle) : Option Nat :=
  b.ops.foldr (fun o acc => match encodeOp o, acc with
    | some v, some r => some (v * 2 ^ o.slot.lo + r)
    | _, _ => none) (some (encHdr b.hdr))

/-- The occupied slots of a bundle word (R94), decoded; an undecodable one is left out. -/
def opsOf (b : Nat) : List SOp :=
  Slot.all.filterMap fun s =>
    if s.field b == 0 then none else
    (decSlot s (s.field b)).ins.map fun i => { slot := s, g := bv (s.field b) s.gLo 5, i := i, arg := (decSlot s (s.field b)).arg }

/-- INFO of an ILLOP or RSVFLD (Table 18-10). -/
def BadField.illInfo (f : BadField) : Nat := f.lo + 2 ^ 8 * f.w + 2 ^ 16 * f.why

/-- The lowest set bit of a field at or above lo, or lo itself when the field is zero. -/
def lowBit (x lo : Nat) : Nat → Nat
  | 0 => lo
  | n + 1 => if bt x lo then lo else if fld x lo (n + 1) == 0 then lo else lowBit x (lo + 1) n

/-- The reserved field of lowest bit that is reported (Table 18-10). -/
def firstRsv (x : Nat) (l : List BadField) : Option (Nat × BadField) :=
  l.foldr (fun f acc =>
    let b := lowBit x f.lo f.w
    match acc with
    | none => some (b, f)
    | some (b', f') => if b ≤ b' then some (b, f) else some (b', f')) none

/-- INFO of an RSVFLD: the lowest non-zero reserved bit, and the width and kind of its field. -/
def rsvInfo (x : Nat) (l : List BadField) : Option Nat :=
  (firstRsv x l).map fun p => p.1 + 2 ^ 8 * p.2.w + 2 ^ 16 * p.2.why

/-- Trap causes (Table 18-1). -/
def Cause.illop : Nat := 1
def Cause.rsvfld : Nat := 2
def Cause.priv : Nat := 3

/-- Header faults (R24, R27, R28). -/
def hdrFault (b : Nat) : Option TrapReq :=
  let h := hdrOf b
  let insn := fld b 0 16
  let ill (lo w why : Nat) : Option TrapReq :=
    some { cause := Cause.illop, slot := 0, info := BadField.illInfo { lo := lo, w := w, why := why }, insn := insn }
  if h.kind == 3 then ill 0 2 5
  else if h.kind == 2 then ill 0 2 4
  else
    let r := resv b [(14, 2)] ++ rcode (h.lvl == 7) 11 3 ++
      (if h.lvl == 0 then resv b [(9, 1), (10, 1)] else rcode (!h.fio && !h.lio && h.lvl != 7) 11 3) ++
      (if h.ske then [] else resv b [(3, 4), (7, 1)]) ++
      (if h.kind == 1 then resv b [(2, 1), (9, 1), (10, 1)] else [])
    (rsvInfo b r).map fun i => { cause := Cause.rsvfld, slot := 0, info := i, insn := insn }

/-- The register file whose copy port an operation sends through (R125): 0 VA, 1 VB, 3 SC, 4 LD, 5 ST, 6 CP as in
Table 16-1, 7 the control state, 8 the transform registers. -/
def copyPort : Instr → Option Nat
  | .scMov (.vec .va _ _ _) _ => some 0
  | .scMov (.vec .vb _ _ _) _ => some 1
  | .scMov (.la _) _ => some 4
  | .scMov (.sa _) _ => some 5
  | .scMov (.c _) _ => some 6
  | .scMov (.x _) _ => some 8
  | .scMov _ _ => some 7
  | .cqDepth _ => some 3
  | .spawnStat => some 3
  | .pgret _ _ => some 3
  | .wayq _ _ => some 3
  | .wayqRel _ _ => some 3
  | .vMovToScalar _ _ _ _ _ => some 3
  | .nbStat _ _ _ => some 3
  | .tlRead _ _ _ => some 3
  | .hStat _ _ _ => some 3
  | .xfMvScalar _ _ => some 3
  | .mqStat _ => some 3
  | .rwStat _ => some 3
  | .vMovCross h _ _ => some (if h.f == .va then 1 else 0)
  | .vMovMaskCross f _ _ => some (if f == .va then 1 else 0)
  | .mrow _ f _ _ _ => some (vfile f)
  | .mbestRd f _ => some (vfile f)
  | .rdMv _ _ _ (.v r) _ _ => some (vfile r.f)
  | .rdMv _ _ _ (.s _) _ _ => some 3
  | .aadd _ _ r _ => if r == 0 then none else some 3
  | .amin _ _ r _ => if r == 0 then none else some 3
  | .amax _ _ r _ => if r == 0 then none else some 3
  | .axch _ _ r _ => if r == 0 then none else some 3
  | .acas _ _ r _ => if r == 0 then none else some 3
  | .aand _ _ r _ => if r == 0 then none else some 3
  | .aor _ _ r _ => if r == 0 then none else some 3
  | .axor _ _ r _ => if r == 0 then none else some 3
  | _ => none

/-- The copy ports of the slots before s. -/
def portsBefore (b : Nat) (s : Slot) : List Nat :=
  (opsOf b).filterMap fun o => if o.slot.code < s.code then copyPort o.i else none

/-- The low bit and width of a slot's opcode field, named as the field at fault where no other is. -/
def Slot.opField : Slot → Nat × Nat
  | .sc => (40, 8) | .va => (56, 8) | .vb => (56, 8) | .cp => (21, 7) | .sy => (26, 6) | .xf => (26, 6)
  | .rd => (28, 4) | _ => (42, 6)

/-- The yield opcode's place (R27): only in a bundle of kind 01, and there always. -/
def yieldFault (b : Nat) (s : Slot) : List BadField :=
  if s == .ct && (fld (s.field b) 42 6 == 0x0C) != (hdrOf b).kind.toNat.beq 1 then [{ lo := 42, w := 6, why := 6 }] else []

/-- A VB `mov` kind 1 beside an SC `mov` to the VB file (R166; log entry 97, DEDUCED: the mirrored table alone would let the two
use different ports). -/
def vbCross (s : Slot) (i : Option Instr) (b : Nat) : Bool :=
  (match s, i with | .vb, some (.vMovCross _ _ _) => true | _, _ => false) && (portsBefore b .va).contains 1
/-- The first fault of one slot, in the order of R31; privilege is checked against `sys`. -/
def slotFault (sys : Bool) (b : Nat) (s : Slot) : Option TrapReq :=
  let x := s.field b
  let d := decSlot s x
  let conflict := match d.ins.bind copyPort with
    | some p => if (portsBefore b s).contains p || vbCross s d.ins b then
        [{ lo := s.opField.1, w := s.opField.2, why := 3 : BadField }] else []
    | none => []
  let guardRsv := if s == .ct && (hdrOf b).kind == 1 then resv x [(37, 5)] else []
  match (if d.ins.isNone && d.rsv.isEmpty then d.ill else yieldFault b s ++ d.ill ++ conflict) with
  | f :: _ => some { cause := Cause.illop, slot := s.code, info := f.illInfo, insn := x }
  | [] =>
    match rsvInfo x (d.rsv ++ guardRsv) with
    | some i => some { cause := Cause.rsvfld, slot := s.code, info := i, insn := x }
    | none =>
      if d.priv && !sys then
        some { cause := Cause.priv, slot := s.code, info := fld x s.opField.1 s.opField.2 + 2 ^ 8 * s.code, insn := x }
      else none

/-- The first encoding fault of a bundle word, in the order of R31. -/
def bundleFault (sys : Bool) (b : Nat) : Option TrapReq :=
  match hdrFault b with
  | some r => some r
  | none => Slot.all.findSome? fun s =>
      if s.field b == 0 && !(s == .ct && (hdrOf b).kind == 1) then none else slotFault sys b s

/-- The bundle a word encodes, where no check of R31 fails for a context with system privilege. -/
def decodeBundle (b : Nat) : Option Bundle :=
  if (bundleFault true b).isSome then none else some { hdr := hdrOf b, ops := opsOf b }

/-- The instruction the decoder reads from a bundle that holds one operation; a bundle of no operation is CT's nop. -/
def decodeTableWord (_nbits w : Nat) : Option Instr :=
  match decodeBundle w with
  | none => none
  | some b => match b.ops with
    | [] => some .ctNop
    | [o] => some o.i
    | _ => none

end Sys2Proof
end

