-- ==== Sys2Proof/Machine/Tab.lean ====
section
/-! DEFINITION. Sparse tables and memory: lists of (key, value) pairs in one canonical form, keys strictly rising and no
entry equal to the default, so that equal contents are equal data. -/

namespace Sys2Proof.Machine

/-- A sparse table by number; what an unlisted key reads as is the default the accessors are given. -/
abbrev Tab (α : Type) := List (Nat × α)

/-- The entry of a key, or the default. -/
def tget {α : Type} (d : α) : Tab α → Nat → α
  | [], _ => d
  | e :: r, k => if e.1 = k then e.2 else tget d r k

/-- The entry of a key, if it is listed. -/
def tfind {α : Type} : Tab α → Nat → Option α
  | [], _ => none
  | e :: r, k => if e.1 = k then some e.2 else tfind r k

/-- The table without the key. -/
def tdel {α : Type} : Tab α → Nat → Tab α
  | [], _ => []
  | e :: r, k => if e.1 = k then tdel r k else e :: tdel r k

/-- The table with the key set to a value, in order of keys, whatever the value. -/
def tput {α : Type} : Tab α → Nat → α → Tab α
  | [], k, v => [(k, v)]
  | e :: r, k, v => if e.1 = k then (k, v) :: r else if k < e.1 then (k, v) :: e :: r else e :: tput r k v

/-- The table with the key set to a value; the default is not listed. -/
def tset {α : Type} [DecidableEq α] (d : α) (t : Tab α) (k : Nat) (v : α) : Tab α :=
  if v = d then tdel t k else tput t k v

/-- Keys strictly rising. -/
def tsorted {α : Type} : Tab α → Bool
  | [] => true
  | [_] => true
  | a :: b :: r => decide (a.1 < b.1) && tsorted (b :: r)

/-- The canonical form. -/
def tcanon {α : Type} [DecidableEq α] (d : α) (t : Tab α) : Bool := tsorted t && t.all fun e => e.2 != d

/-- A byte memory (LPDDR 6, host memory, peer memories); an unlisted byte reads as 0 (log entry 5, DESIGN CHOICE). -/
abbrev Memory := List Host.Cell

/-- What a byte that nothing has written reads as (log entry 5, DESIGN CHOICE). -/
def Memory.unlisted : Byte := 0

/-- Reading one byte. -/
def Memory.read (m : Memory) (a : Nat) : Byte := tget Memory.unlisted m a

/-- Writing one byte. -/
def Memory.write (m : Memory) (a : Nat) (b : Byte) : Memory := tset Memory.unlisted m a b

/-- The canonical form of a memory. -/
def Memory.wf (m : Memory) : Bool := tcanon Memory.unlisted m

/-- The n bytes from a, as a number, little-endian (R1). -/
def Memory.readN (m : Memory) (a : Nat) : Nat → Nat
  | 0 => 0
  | n + 1 => (m.read a).toNat + 256 * Memory.readN m (a + 1) n

/-- Writing the bytes of a number, little-endian (R1). -/
def Memory.writeN (m : Memory) (a v : Nat) : Nat → Memory
  | 0 => m
  | n + 1 => Memory.writeN (m.write a (BitVec.ofNat 8 v)) (a + 1) (v / 256) n

/-- Writing a list of bytes. -/
def Memory.writeBytes (m : Memory) (a : Nat) : List Byte → Memory
  | [] => m
  | b :: r => Memory.writeBytes (m.write a b) (a + 1) r

end Sys2Proof.Machine
end

