-- ==== Sys2Proof/Machine/Bits.lean ====
section
/-! DEFINITION. Bit fields, sign extension and lanes of rows and registers (R1, R55). -/

namespace Sys2Proof.Machine

/-- The w bits of x from bit lo. -/
def bitsAt (x lo w : Nat) : Nat := (x >>> lo) % 2 ^ w

/-- Bit i of x. -/
def bitAt (x i : Nat) : Bool := (x >>> i) % 2 == 1

/-- 0 or 1. -/
def b2n (b : Bool) : Nat := if b then 1 else 0

/-- The signed value of the low w bits (R58). -/
def sval (w x : Nat) : Int := if x % 2 ^ w < 2 ^ (w - 1) then (x % 2 ^ w : Nat) else (x % 2 ^ w : Nat) - (2 ^ w : Nat)

/-- The value of the low w bits under a type's signedness. -/
def tval (sg : Bool) (w x : Nat) : Int := if sg then sval w x else (x % 2 ^ w : Nat)

/-- An integer modulo 2^w. -/
def wrap (w : Nat) (i : Int) : Nat := (i % (2 ^ w : Nat)).toNat

/-- A word from its low w bits, sign-extended (R7). -/
def sextW (w x : Nat) : Word := BitVec.ofInt 64 (sval w x)

/-- A 52-bit address (R170). -/
def va52 (x : Nat) : Nat := x % 2 ^ 52

/-- Smallest and largest value of a w-bit integer type (R58). -/
def imin (sg : Bool) (w : Nat) : Int := if sg then -((2 ^ (w - 1) : Nat) : Int) else 0
def imax (sg : Bool) (w : Nat) : Int := if sg then ((2 ^ (w - 1) : Nat) : Int) - 1 else ((2 ^ w : Nat) : Int) - 1

/-- Clamping to a range, and whether it clamped. -/
def clampI (lo hi x : Int) : Int × Bool := if x < lo then (lo, true) else if hi < x then (hi, true) else (x, false)

/-- Element i of width w (R55). -/
def lane (w : Nat) (r : Nat) (i : Nat) : Nat := bitsAt r (w * i) w

/-- The first n elements of width w. -/
def lanesOf (w n r : Nat) : List Nat := (List.range n).map (lane w r)

/-- The number whose elements of width w are the list. -/
def ofLanes (w : Nat) : List Nat → Nat
  | [] => 0
  | x :: r => x % 2 ^ w + (ofLanes w r) * 2 ^ w

/-- All ones in the elements for which the list holds. -/
def laneMask (w : Nat) (l : List Bool) : Nat := ofLanes w (l.map fun b => if b then 2 ^ w - 1 else 0)

/-- A number whose bit i is the i-th of the list. -/
def ofBools (l : List Bool) : Nat := ofLanes 1 (l.map b2n)

/-- A row from a number. -/
def row (x : Nat) : Row := BitVec.ofNat 1024 x

/-- Ones in the n bits from lo. -/
def onesAt (lo n : Nat) : Nat := (2 ^ n - 1) <<< lo

/-- The bits of `new` where the mask is set, and those of `old` elsewhere. -/
def blend (mask new old : Row) : Row := (new &&& mask) ||| (old &&& ~~~mask)

/-- The bytes of a number, least significant first (R1). -/
def bytesOf : Nat → Nat → List Byte
  | 0, _ => []
  | n + 1, x => BitVec.ofNat 8 x :: bytesOf n (x / 256)

/-- The number the bytes hold, least significant first (R1). -/
def ofBytes : List Byte → Nat
  | [] => 0
  | b :: r => b.toNat + 256 * ofBytes r

/-- The exclusive OR of the bits of x below n (R7). -/
def parity : Nat → Nat → Bool
  | 0, _ => false
  | n + 1, x => (x % 2 == 1) != parity n (x / 2)

/-- Count of set bits below n. -/
def popcount : Nat → Nat → Nat
  | 0, _ => 0
  | n + 1, x => x % 2 + popcount n (x / 2)

/-- The lowest index below n at which the test holds. -/
def firstIdx (n : Nat) (f : Nat → Bool) : Option Nat := (List.range n).find? f

/-- The same list with entry i replaced. -/
def setAt {α : Type} : List α → Nat → α → List α
  | [], _, _ => []
  | _ :: r, 0, v => v :: r
  | x :: r, n + 1, v => x :: setAt r n v

/-- The list without entry i. -/
def dropAt {α : Type} : List α → Nat → List α
  | [], _ => []
  | _ :: r, 0 => r
  | x :: r, n + 1 => x :: dropAt r n

/-- CRC-32C, bit by bit in reflected form (R69). -/
def crcBit (c : Nat) : Nat := if c % 2 == 1 then (c / 2) ^^^ 0x82F63B78 else c / 2
def crcByte (c b : Nat) : Nat :=
  crcBit (crcBit (crcBit (crcBit (crcBit (crcBit (crcBit (crcBit (c ^^^ b))))))))
/-- The running state over bytes; `crc32c` starts it at all ones and inverts the end (R69). -/
def crcRun (c : Nat) : List Byte → Nat
  | [] => c
  | b :: r => crcRun (crcByte c b.toNat) r
def crc32c (l : List Byte) : Nat := crcRun 0xFFFFFFFF l ^^^ 0xFFFFFFFF

end Sys2Proof.Machine
end

