-- ==== Sys2Proof/Machine/Float.lean ====
section
/-! DEFINITION. Floating-point values, formats, rounding and the arithmetic of R59 to R67.  A value is exact until one
rounding (R6); log entry 15 (DEDUCED) names the readings taken for signs of zero. -/

namespace Sys2Proof.Machine

/-- An exact value: NaN, an infinity, or (-1)^neg x m x 2^e. -/
inductive FV where
  | nan
  | inf (neg : Bool)
  | fin (neg : Bool) (m : Nat) (e : Int)
  deriving DecidableEq, Repr

/-- A format (Table 02-17): field widths, bias, the largest finite magnitude as bits, the canonical NaN (R60), and the
exponent field that holds infinities and NaNs (16 for E4M3, which has no such field). -/
structure FFmt where
  eb : Nat
  fb : Nat
  bias : Nat
  top : Nat
  qnan : Nat
  spec : Nat
  deriving DecidableEq, Repr

def fmtF16 : FFmt := ⟨5, 10, 15, 0x7BFF, 0x7E00, 31⟩
def fmtBF16 : FFmt := ⟨8, 7, 127, 0x7F7F, 0x7FC0, 255⟩
def fmtF32 : FFmt := ⟨8, 23, 127, 0x7F7FFFFF, 0x7FC00000, 255⟩
def fmtE4M3 : FFmt := ⟨4, 3, 7, 0x7E, 0x7F, 16⟩
def fmtE5M2 : FFmt := ⟨5, 2, 15, 0x7B, 0x7E, 31⟩
/-- The 24-bit lo format (R61). -/
def fmtLo : FFmt := ⟨8, 15, 127, 0x7F7FFF, 0x7FC000, 255⟩

/-- The format of a type code (Table 02-15). -/
def fmtOf (t : Nat) : FFmt :=
  if t = 8 then fmtF16 else if t = 9 then fmtBF16 else if t = 11 then fmtE4M3 else if t = 12 then fmtE5M2 else fmtF32

/-- The sign bit's weight. -/
def FFmt.signBit (f : FFmt) : Nat := 2 ^ (f.eb + f.fb)

/-- The value of an encoding (R59). -/
def FFmt.dec (f : FFmt) (x : Nat) : FV :=
  let neg := bitAt x (f.eb + f.fb)
  let e := bitsAt x f.fb f.eb
  let m := x % 2 ^ f.fb
  if f.spec = 16 ∧ bitsAt x 0 7 = 0x7F then .nan
  else if e = f.spec then (if m = 0 then .inf neg else .nan)
  else if e = 0 then .fin neg m (1 - (f.bias : Int) - f.fb)
  else .fin neg (2 ^ f.fb + m) ((e : Int) - f.bias - f.fb)

/-- The value with a subnormal input taken as a zero of its sign (R67). -/
def FFmt.decZ (f : FFmt) (x : Nat) : FV :=
  match f.dec x with
  | .fin neg m e => if m < 2 ^ f.fb then .fin neg 0 0 else .fin neg m e
  | v => v

/-- Dropping k low bits of m in a rounding mode (0 RNE, 1 RTZ, 2 RUP, 3 RDN: the `fmt` codes of Table 02-18). -/
def roundShift (rm : Nat) (neg : Bool) (m k : Nat) : Nat :=
  let q := m >>> k
  let r := m % 2 ^ k
  let up := if rm = 0 then decide (2 ^ k < 2 * r) || (decide (2 ^ k = 2 * r) && q % 2 == 1)
    else if rm = 1 then false else if rm = 2 then !neg && r != 0 else neg && r != 0
  if up then q + 1 else q

/-- The magnitude of m x 2^e (m not 0) rounded to the format with no bound above, as magnitude bits (R64).  Whether a
result is below the smallest normal is judged after this rounding, which has the quantum of the subnormals there; R61 leaves
the order open for lo (log entry 85, DESIGN CHOICE). -/
def FFmt.mag (f : FFmt) (rm : Nat) (neg : Bool) (m : Nat) (e : Int) : Nat :=
  let ev : Int := (Nat.log2 m : Int) + e
  let emin : Int := 1 - (f.bias : Int)
  let qe : Int := (if ev < emin then emin else ev) - f.fb
  let q := if qe ≤ e then m <<< (e - qe).toNat else roundShift rm neg m (qe - e).toNat
  let q' := if q = 2 ^ (f.fb + 1) then 2 ^ f.fb else q
  let qe' := if q = 2 ^ (f.fb + 1) then qe + 1 else qe
  if q' < 2 ^ f.fb then q' else (qe' + f.fb + f.bias).toNat * 2 ^ f.fb + (q' - 2 ^ f.fb)

/-- A result: the bits, and invalid, overflow, division by zero, saturated. -/
structure FRes where
  bits : Nat
  inv : Bool := false
  ovf : Bool := false
  dbz : Bool := false
  sat : Bool := false
  deriving DecidableEq, Repr

/-- How a result that is too large comes out: by R64's first rule, to the largest finite value (`fmt`.SAT), or
as a saturating conversion (R64's second rule, R65). -/
inductive Ovf where
  | arith
  | largest
  | conv
  deriving DecidableEq, Repr

/-- The infinity's bits; only used for formats that have one. -/
def FFmt.infBits (f : FFmt) : Nat := f.spec * 2 ^ f.fb

/-- A value rounded to a format (R7 Round): overflow by R64, subnormal results flushed when `fl` (R67). -/
def FFmt.round (f : FFmt) (o : Ovf) (fl : Bool) (rm : Nat) (v : FV) : FRes :=
  match v with
  | .nan => ⟨f.qnan, false, false, false, false⟩
  | .inf neg =>
    let sg := if neg then f.signBit else 0
    if f.spec = 16 then ⟨f.top + sg, false, false, false, true⟩
    else ⟨f.infBits + sg, false, false, false, false⟩
  | .fin neg m e =>
    let sg := if neg then f.signBit else 0
    if m = 0 then ⟨sg, false, false, false, false⟩
    else
      let b := f.mag rm neg m e
      if b < 2 ^ f.fb ∧ fl then ⟨sg, false, false, false, false⟩
      else if b ≤ f.top then ⟨b + sg, false, false, false, false⟩
      else match o with
        | .arith =>
          let away := rm = 0 || (rm = 2 && !neg) || (rm = 3 && neg)
          ⟨(if away then f.infBits else f.top) + sg, false, true, false, false⟩
        | .largest => ⟨f.top + sg, false, true, false, true⟩
        | .conv => ⟨f.top + sg, false, false, false, true⟩

/-- The negated value. -/
def FV.neg : FV → FV
  | .nan => .nan
  | .inf n => .inf !n
  | .fin n m e => .fin (!n) m e

/-- The magnitude. -/
def FV.abs : FV → FV
  | .nan => .nan
  | .inf _ => .inf false
  | .fin _ m e => .fin false m e

def FV.isNan : FV → Bool
  | .nan => true
  | _ => false

def FV.isInf : FV → Bool
  | .inf _ => true
  | _ => false

def FV.isZero : FV → Bool
  | .fin _ m _ => m == 0
  | _ => false

def FV.isNeg : FV → Bool
  | .nan => false
  | .inf n => n
  | .fin n _ _ => n

/-- Whether the value is infinite or NaN. -/
def FV.odd (v : FV) : Bool := v.isNan || v.isInf

/-- The signed integer s with the value s x 2^e, for e no greater than the exponent. -/
def FV.at (v : FV) (e0 : Int) : Int :=
  match v with
  | .fin n m e => if n then -((m <<< (e - e0).toNat : Nat) : Int) else ((m <<< (e - e0).toNat : Nat) : Int)
  | _ => 0

/-- The exponent of the representation; 0 for the others. -/
def FV.exp : FV → Int
  | .fin _ _ e => e
  | _ => 0

/-- An integer times 2^e; a zero takes the sign given. -/
def ofInt (x : Int) (e : Int) (zneg : Bool) : FV := if x = 0 then .fin zneg 0 0 else .fin (decide (x < 0)) x.natAbs e

/-- An exact product, and whether it is invalid (0 x infinity). -/
def FV.mul (a b : FV) : FV × Bool :=
  match a, b with
  | .nan, _ => (.nan, false)
  | _, .nan => (.nan, false)
  | .inf n, .inf m => (.inf (n != m), false)
  | .inf n, .fin m x _ => if x = 0 then (.nan, true) else (.inf (n != m), false)
  | .fin m x _, .inf n => if x = 0 then (.nan, true) else (.inf (n != m), false)
  | .fin n x e, .fin m y f => (.fin (n != m) (x * y) (e + f), false)

/-- An exact sum, and whether it is invalid (infinity - infinity).  A zero sum of opposite signs is +0, or -0 when
rounding down (log 15). -/
def FV.add (rm : Nat) (a b : FV) : FV × Bool :=
  match a, b with
  | .nan, _ => (.nan, false)
  | _, .nan => (.nan, false)
  | .inf n, .inf m => if n = m then (.inf n, false) else (.nan, true)
  | .inf n, .fin _ _ _ => (.inf n, false)
  | .fin _ _ _, .inf n => (.inf n, false)
  | .fin n x e, .fin m y f =>
    if x = 0 ∧ y = 0 then (.fin (if n = m then n else rm == 3) 0 0, false)
    else if x = 0 then (.fin m y f, false)
    else if y = 0 then (.fin n x e, false)
    else
      let e0 := min e f
      (ofInt ((FV.fin n x e).at e0 + (FV.fin m y f).at e0) e0 (rm == 3), false)

/-- a x b + c exactly, and whether it contains an invalid operation, 0 x infinity before a NaN too (R133). -/
def FV.fma (rm : Nat) (a b c : FV) : FV × Bool :=
  let p := a.mul b
  let q := FV.add rm p.1 c
  (q.1, p.2 || q.2)

/-- The same in a vector lane, where a NaN operand signals nothing (R147). -/
def FV.fmaV (rm : Nat) (a b c : FV) : FV × Bool :=
  let r := FV.fma rm a b c
  (r.1, r.2 && !c.isNan)

/-- a < b, false for a NaN. -/
def FV.lt (a b : FV) : Bool :=
  match a, b with
  | .nan, _ => false
  | _, .nan => false
  | .inf n, .inf m => n && !m
  | .inf n, .fin _ _ _ => n
  | .fin _ _ _, .inf n => !n
  | .fin _ _ e, .fin _ _ f => decide (a.at (min e f) < b.at (min e f))

/-- a = b, with -0 equal to +0; false for a NaN. -/
def FV.eq (a b : FV) : Bool :=
  match a, b with
  | .nan, _ => false
  | _, .nan => false
  | .inf n, .inf m => n == m
  | .fin _ _ e, .fin _ _ f => decide (a.at (min e f) = b.at (min e f))
  | _, _ => false

/-- A condition of Table 02-13 on two values (R132, R157). -/
def fcond (c : Nat) (a b : FV) : Bool :=
  let u := a.isNan || b.isNan
  if c = 0 then a.eq b else if c = 1 then !a.eq b else if c = 2 then a.lt b else if c = 3 then !u && !b.lt a
  else if c = 4 then b.lt a else if c = 5 then !u && !a.lt b else u

/-- A condition of Table 02-13 on two integers. -/
def icond (c : Nat) (a b : Int) : Bool :=
  if c = 0 then a == b else if c = 1 then a != b else if c = 2 then decide (a < b) else if c = 3 then decide (a ≤ b)
  else if c = 4 then decide (b < a) else if c = 5 then decide (b ≤ a) else false

/-- A finite value rounded to an integer (R65). -/
def roundInt (rm : Nat) (n : Bool) (m : Nat) (e : Int) : Int :=
  let q : Nat := if 0 ≤ e then m <<< e.toNat else roundShift rm n m (-e).toNat
  if n then -(q : Int) else q

/-- A value converted to an integer type, and whether it saturated (R64, R65). -/
def toInt (sg : Bool) (w rm : Nat) (v : FV) : Int × Bool :=
  match v with
  | .nan => (0, true)
  | .inf n => (if n then imin sg w else imax sg w, true)
  | .fin n m e => clampI (imin sg w) (imax sg w) (roundInt rm n m e)

/-- The rounding mode of an instruction field: 0 takes the mode in `fmt` (R63). -/
def rmode (field fmtRm : Nat) : Nat := if field = 0 then fmtRm else field - 1

/-- The value of an element of any type code (R58, R59, R62: the reserved t2 code reads as 0). -/
def elemVal (t x : Nat) : FV :=
  if Ty.anyFloat t then (fmtOf t).dec x
  else if t = 13 then (if x = 1 then .fin false 1 0 else if x = 3 then .fin true 1 0 else .fin false 0 0)
  else ofInt (tval (Ty.signed t) (Ty.bits t) x) 0 false

/-- A value converted to a type code: the bits and whether it saturated (R64, R65, R154).  Ternary takes the sign of the
rounded value through its range -1 to 1, and code 10 is never written (R62). -/
def convTo (t rm : Nat) (v : FV) : Nat × Bool :=
  if t = 10 then (((fmtF32.round .arith false rm v).bits), false)
  else if Ty.anyFloat t then
    let r := (fmtOf t).round .conv false rm v
    (r.bits, r.sat)
  else if t = 13 then
    let r := match v with
      | .nan => ((0 : Int), true)
      | .inf n => ((if n then -1 else 1), true)
      | .fin n m e => clampI (-1) 1 (roundInt rm n m e)
    (wrap 2 r.1, r.2)
  else
    let r := toInt (Ty.signed t) (Ty.bits t) rm v
    (wrap (Ty.bits t) r.1, r.2)

/-- fl32 of a value in a unit that produces subnormals, kept as a value (R7). -/
def fl32 (v : FV) : FV := fmtF32.dec (fmtF32.round .arith false 0 v).bits

end Sys2Proof.Machine
end

