-- ==== Sys2Proof/Config.lean ====
section
/-! DEFINITION. What the spec leaves open and one machine fixes: the free values (no body, so nothing can be proved of
a value of one) and the functions whose results the spec only bounds or takes from an outside standard. -/

namespace Sys2Proof

/-- A free value: an unpredictable (confined) value of R5, or any other value the spec leaves open.  The first argument is
the step counter of `State`, the second names the place read, so that two places and two steps are independent. Log entry 1, DESIGN CHOICE. -/
opaque Config.freeNat : Nat → Nat → Nat

/-- The choice a special function makes within its bound (R152; the sampler's exp and ln, R406): one fixed function of the
function's number, the type code and the input bits.  Log entry 2, DESIGN CHOICE. -/
opaque Config.specialPick : Nat → Nat → Nat → Int

/-- The signature the device identity key gives over a byte string (R456); uninterpreted.  Log entry 107, DESIGN CHOICE. -/
opaque Config.deviceSign : List Byte → BitVec 768

/-- The bytes of an SPDM 1.3 response other than GET_MEASUREMENTS (R456 names the requests and gives no response bytes).
Log entry 107, DESIGN CHOICE. -/
opaque Config.spdmBytes : Nat → Nat → List Byte

/-- The device identity's public key, over which a debug token is made (R457).  Log entry 107, DESIGN CHOICE. -/
opaque Config.deviceKey : List Byte

/-- Where the protected code region begins and how long it is, in 64 KiB pages (R454 gives neither).  Log entry 18, DESIGN CHOICE. -/
opaque Config.codeBase : Nat
opaque Config.codeSize : Nat

/-- The LPDDR 6 channel that holds a 64-byte unit (R20 and R435 speak of channels and no rule gives the map).  Log entry 88,
DESIGN CHOICE. -/
opaque Config.channelOf : Nat → Nat

end Sys2Proof
end

