-- ==== Sys2Proof/Machine/State.lean ====
section
/-! DEFINITION. The state of the machine: every piece of state the spec names, as plain data, and its value after reset.
Per-core and per-context state stands in tables by number, where an unlisted core or context is as reset left it. -/

namespace Sys2Proof.Machine

/-- Why the machine stops: the spec gives every instruction and every step of the hardware an effect, so there is no
reason, and no step ends in a fault. -/
inductive Fault
  deriving DecidableEq, Repr

/-- Why an instruction has no meaning here.  `notModelled`: raised by the arm of an instruction that has no meaning yet;
safe. -/
inductive Refusal where
  | notModelled (mnemonic : String)
  deriving DecidableEq, Repr

/-! ### Results on their way (R89, R90) -/

/-- Where a result lands.  Numbers are the register's; `hs`, `hla`, `hsa` are the handler registers (R422); `pad` is a
row of the local scratchpad (R229); `strd` a stride set (start above step, 32 bits each); `satcAdd` and `rsvcAdd` an
increment of a counter, applied when it lands (R138); `cstSet` sticky status bits that are set when it lands (R133). -/
inductive Dest where
  | s (n : Nat)
  | v (f : VFile) (n : Nat)
  | mask (f : VFile) (n : Nat)
  | p (n : Nat)
  | lc (k : Nat)
  | lcP (k : Nat)
  | lx (k : Nat)
  | kp
  | kpP
  | strd (k : Nat)
  | la (n : Nat)
  | sa (n : Nat)
  | c (n : Nat)
  | x (n : Nat)
  | hs (n : Nat)
  | hla (n : Nat)
  | hsa (n : Nat)
  | fmt
  | rwp
  | en
  | cst
  | satc
  | rsvc
  | satcAdd
  | rsvcAdd
  | cstSet
  | pad (row : Nat)
  deriving DecidableEq, Repr

/-- What an `xf.cvt` with W = 1 does to the tile state at its result position (R232): target type, destination row,
whether the row joins the payload, the largest source magnitude, saturations and reserved codes. -/
structure TileUpd where
  tt : Nat := 0
  row : Nat := 0
  joins : Bool := false
  tmax : BitVec 32 := 0
  sat : Nat := 0
  rsv : Nat := 0
  deriving DecidableEq, Repr

/-- A result that has issued and not yet reached its position: the destination, the bits written, the value, the bits
of it that are unpredictable, the position (a counted-bundle number), whether it has already been delivered (its
position then still bounds what a reader may rely on), the key of the memory access it comes from while that has
not performed, the tile step it ends, whether it only marks a row or counter that `cupd` changes (R278), and whether it is a
result of MX (R263). -/
structure Pend where
  dest : Dest
  mask : Row
  val : Row
  open_ : Row := 0
  due : Nat
  landed : Bool := false
  acc : Option Nat := none
  tile : Option TileUpd := none
  upd : Bool := false
  mx : Bool := false
  deriving DecidableEq, Repr

/-- An entry of the condition queue (R104): its bit, and the cycle from which it is present, its latency taken in cycles (log entry 111,
DEDUCED). -/
structure CqEnt where
  v : Bool
  at_ : Nat
  deriving DecidableEq, Repr

/-- An active loop (R105), with the step of its stride set at activation. -/
structure Loop where
  first : Addr
  last : Addr
  left : Nat
  total : Nat
  lvl : Nat
  step : BitVec 32
  deriving DecidableEq, Repr

/-! ### Memory accesses of a context that have issued and not performed (R193 to R200) -/

/-- What an access does.  `load`: `ld.pr`; `acq`: `ld.acq`; `atom`: an atomic with its operation number and operands;
`fence`: a fence marker; `arrive`, `wake`: the releases of `nb.arr` and `wake`; `ldg`: one row of an `ldg`; `wb`: the
write-backs of `wb.l1`, over a range or everywhere (R218). -/
inductive AccKind where
  | store
  | nt
  | rel
  | load
  | acq
  | atom (op : Nat) (w64 : Bool) (v v2 : Word)
  | fence
  | arrive (core b : Nat)
  | wake (core ctx : Nat) (t : Addr)
  | ldg (h slot : Nat)
  | wb (rg : Option (Nat × Nat))
  deriving DecidableEq, Repr

/-- Where an access goes: a row of a core's scratchpad (R170), or a physical place behind a translation (R432), whose
TGT is 0 LPDDR 6, 1 host, 2 peer and whose stack partition is PART; `virt` has still to be translated (`ldg`); `nowhere` for a marker. -/
inductive Loc where
  | win (core row : Nat)
  | phys (tgt part pa : Nat)
  | virt (va : Nat)
  | nowhere
  deriving DecidableEq, Repr

/-- One access: its key, what and where, the bytes it moves (first byte within the row or line, length), its data, its
scope (R4, 0 `.ctx` to 5 `.sys`), whether a pending result waits for it, the virtual address it came from, a number that the
accesses of one bundle share (R194), whether the value it loads is unpredictable, and the bits it leaves so (R229). -/
structure Acc where
  key : Nat := 0
  kind : AccKind
  loc : Loc
  lo : Nat := 0
  len : Nat := 128
  data : Row := 0
  scope : Nat := 0
  ret : Bool := false
  va : Nat := 0
  fn : Nat := 0
  priv : Bool := false
  bun : Nat := 0
  open_ : Bool := false
  spoil : Row := 0
  deriving DecidableEq, Repr

/-! ### Engines -/

/-- A command of an engine from issue to completion.  Register operands and block are latched at issue (R321); `key`
orders commands by acceptance (R360) and after the fences it waits behind (R197); `bank` and `cfg` are the active bank and the chunk length in force at issue (R308, R313); `prog` is how far a
started command has come, `dlv` the bytes, rows, folios or requests delivered; `eng` is the engine (Table 02-14), `vf` the function it acts for, `at_` the cycle of its issue (R360); `se` and `de` are the shelf entries of its
source and destination handles as issue read them, and `rng` the 4 KiB ranges rechecked since (R357). -/
structure Cmd where
  core : Nat
  ctx : Nat
  opn : Nat
  fn : Nat
  ca : Word
  cb : Word
  blk : Row := 0
  key : Nat := 0
  bank : Bool := false
  cfg : Nat := 0
  rot : Bool := false
  started : Bool := false
  status : Nat := 0
  sub : Nat := 0
  prog : Nat := 0
  dlv : Nat := 0
  decl : Nat := 0
  idx : Nat := 0
  addr : Nat := 0
  drop : Nat := 0
  list : List Nat := []
  vf : Nat := 0
  priv : Bool := false
  rng : List Nat := []
  se : Nat := 0
  de : Nat := 0
  eng : Nat := 0
  at_ : Nat := 0
  deriving DecidableEq, Repr

/-- One of the last 64 operations of a timeline (R351, R372, R419). -/
structure OpRec where
  n : Nat
  status : Nat := 0
  done : Bool := false
  sub : Nat := 0
  dlv : Nat := 0
  drop : Nat := 0
  deriving DecidableEq, Repr

/-- An engine timeline of a context (R204): I, C, ERR, HALT, F, the last operations, and the queued commands; `haltN` is
the operation whose fault halted the queue, and later ones are held while HALT stands (R204). -/
structure Timeline where
  i : Nat := 0
  c : Nat := 0
  err : Bool := false
  halt : Bool := false
  haltN : Nat := 0
  f : Nat := 0
  hist : List OpRec := []
  queue : List Cmd := []
  deriving DecidableEq, Repr

/-- A handle ring (R174): base row, N, the three counts, the fault kind of each slot (0 none), the slots that have
landed but not filled, bound, and held by a stream or a walk (0 none, 1 filled by it, 2 drained by it); `put` counts the slots from
res on that program stores have reached, and `mixed` stands while producers of two kinds have met on the ring (R176). -/
structure Ring where
  base : Nat := 0
  n : Nat := 0
  con : BitVec 32 := 0
  fil : BitVec 32 := 0
  res : BitVec 32 := 0
  bad : Tab Nat := []
  arr : Tab Bool := []
  bound : Bool := false
  held : Nat := 0
  swz : Option Nat := none
  put : Nat := 0
  mixed : Bool := false
  deriving DecidableEq, Repr

/-- A bound stream of a copy channel (R346): its context, handle, direction, command and next pattern row. -/
structure Stream where
  cmd : Cmd
  h : Nat
  drains : Bool
  row : Nat := 0
  deriving DecidableEq, Repr

/-- A partial-sum latch (R221): 32 lanes of 56 bits and CNT. -/
structure Latch where
  lanes : BitVec 1792 := 0
  cnt : Nat := 0
  deriving DecidableEq, Repr

/-- The tile state (Table 09-3). -/
structure TileSt where
  tfmt : Nat := 0
  tv : Bool := false
  tfirst : Nat := 0
  trows : Nat := 0
  tmax : BitVec 32 := 0
  tsat : Nat := 0
  trsv : Nat := 0
  tcrc : BitVec 32 := 0
  deriving DecidableEq, Repr

/-- A carry slot (R301): 32 lanes of h and c, and the FADE bits. -/
structure Carry where
  h : Row := 0
  c : Row := 0
  fade : BitVec 32 := 0
  deriving DecidableEq, Repr

/-- An accumulator tile (R245): 32 rows of 128 elements of 56 bits, with VAL, ASAT and ARSV (Table 10-2). -/
structure Tile where
  rows : Tab (BitVec 7168) := []
  val : Bool := false
  asat : Nat := 0
  arsv : Nat := 0
  deriving DecidableEq, Repr

/-- A weight slot (R246): 128 rows of 128 bytes and its descriptor. -/
structure WSlot where
  rows : Tab Row := []
  loaded : Bool := false
  ty : Nat := 0
  sp : Bool := false
  malf : Bool := false
  srsv : Nat := 0
  deriving DecidableEq, Repr

/-- A cell plane (R249): the slot it holds (with its partner for 16-bit B), the copy, and the cycle its load ends. -/
structure Plane where
  slot : Option Nat := none
  pair : Bool := false
  rows : Tab Row := []
  sp : Bool := false
  srsv : Nat := 0
  ready : Nat := 0
  deriving DecidableEq, Repr

/-- What a matrix-queue entry does (R248). -/
inductive MxOp where
  | array
  | ldw
  | drain
  | clear
  | dist
  | upd
  | fin
  | bestClear
  deriving DecidableEq, Repr

/-- An entry of the matrix queue: its effect, worked out at acceptance, is applied when it completes (R250).  `due` is
its result position; until `rdEnd` (a cycle) the rows listed in `reads` are in use (R251; for `cupd` and `cfin` the
sum-tile rows, R278, R279), and `spoilt` lists those that `cupd` may no longer rely on; `rows` counts the tile rows it
writes, and `ovw` says that it overwrites them; `entry` cycles on plane `pl`; `tile` is the tile it leaves, `slots` the
weight slots, `offers` the distances of each row for `mbest` with PASS, TIE and KIND, `data` the rows `cupd` adds from
the entries `best` into the sum tile at `sum`; `zero` is Z of `cfin`; `key` orders entries with engine commands. -/
structure MxEnt where
  op : MxOp
  ctx : Nat
  acc : Nat := 8
  due : Nat := 0
  rows : Nat := 0
  t0 : Nat := 0
  rdEnd : Nat := 0
  reads : List Nat := []
  spoilt : List Nat := []
  ovw : Bool := false
  entry : Nat := 0
  pl : Nat := 0
  tile : Option Tile := none
  slots : List (Nat × WSlot) := []
  offers : List (List (BitVec 32)) := []
  pass : Nat := 0
  tie : Bool := false
  kind : Bool := false
  data : List Row := []
  best : List Word := []
  sum : Nat := 0
  zero : Bool := false
  key : Nat := 0
  deriving DecidableEq, Repr

/-! ### Contexts -/

/-- The control state (Table 04-1), the loops (R105) and the watchdog (R101).  `lcP0` and `kpP0` are the pending loop counts
and `kp` before those results landed that `fresh` names, which land at the position of the bundle about to issue (R98). -/
structure Ctl where
  pc : Addr := 0
  p : BitVec 16 := 0
  cq : List CqEnt := []
  lc : Tab (BitVec 16) := []
  lcP : Tab (Option (BitVec 16)) := []
  lx : Tab (BitVec 32) := []
  strd : Tab Word := []
  kp : BitVec 16 := 0
  kpP : Option (BitVec 16) := none
  ret : List (Addr × Bool) := []
  fmt : Word := 0
  rwp : BitVec 2 := 0
  prio : BitVec 6 := 0
  prioNext : Option (BitVec 6) := none
  loops : List Loop := []
  run : BitVec 20 := 0
  runCnt : Nat := 0
  lcP0 : Tab (Option (BitVec 16)) := []
  kpP0 : Option (BitVec 16) := none
  fresh : List Dest := []
  deriving DecidableEq, Repr

/-- What the launch record and the parent fixed for a task (R379, R380, R421, R450): the image, the kernel, the
function, the privilege, the bank demand, the coordinate, the launch priority, the exclusive attribute, the frame. -/
structure Task where
  img : Nat := 0
  kern : Nat := 0
  fn : Nat := 0
  priv : Bool := false
  demand : BitVec 56 := 0
  ptm : BitVec 8 := 0
  tcoord : BitVec 48 := 0
  lprio : BitVec 6 := 0
  excl : Bool := false
  gdie : Nat := 0
  frame : Option Nat := none
  regions : List Word := []
  deriving DecidableEq, Repr

/-- Where a context stands: no task; running or ready; dormant (R392); ended and reporting (R117); halted by
pre-emption never stays here. -/
inductive Life where
  | free
  | live
  | dormant
  | ending
  deriving DecidableEq, Repr

/-- What a context waits for before its next bundle (R5, R92); `nbDone` is an `nb.wait` whose phase has come (R208). -/
inductive Wait where
  | drain (scope : Nat)
  | nb (b : Nat) (q : Bool)
  | tl (e n : Nat)
  | pred
  | mwait
  | cycle (t : Nat)
  | tlbInv (mode fn page : Nat) (dev : Bool)
  | clear (e lc : Nat)
  | quiet (page : Nat)
  | nbDone
  deriving DecidableEq, Repr

/-- What a trap saves beside the trap record (R425): the loops and the results still promised to the task, with the
number of its counted bundles; `fmt0` and `fmt1` are `fmt` before and after the writes to it that entry made land (R103);
the due positions of latches, `mbest` and tiles that still bind the task (R223, R264, R270). -/
structure Handler where
  on : Bool := false
  loops : List Loop := []
  pend : List Pend := []
  bcount : Nat := 0
  cause : Nat := 0
  bpc : Addr := 0
  waits : List Wait := []
  fmt0 : Word := 0
  fmt1 : Word := 0
  latchDue : Tab Nat := []
  mbestDue : Nat := 0
  tileDue : Tab Nat := []
  valDue : Tab Nat := []
  deriving DecidableEq, Repr

/-- A replacement instruction (R291): its operation, the slot field it was built as, and the registers that stand in for a
substituted operand. -/
structure RwOp where
  op : SOp
  fieldv : Nat
  sub : List (Dest × Word) := []
  deriving DecidableEq, Repr

/-- A decided group of tile instructions (R283, R287): its bundles still to issue, each with what takes the place of its
tile instructions; `orig` when it is decided unrewritten and its bundles issue as they are; `first` until b0 has issued;
the replacements in order with the rule and the rewrite word of a failed check (Table 12-1); the discardable
destinations; and what b0 saw of rows, base registers, transform registers, rings, the format word, the weight slots and the
tile state (R292). -/
structure Plan where
  orig : Bool := false
  first : Bool := true
  todo : List (Addr × List RwOp) := []
  reps : List RwOp := []
  rule : Nat := 0
  word : Nat := 0
  disc : List (Nat × Nat) := []
  pad : Tab Row := []
  la : Tab Word := []
  xr : Tab Word := []
  rings : Tab Ring := []
  fmt : BitVec 64 := 0
  slots : Tab WSlot := []
  tile : TileSt := {}
  deriving DecidableEq, Repr

/-- A command that writes an accumulator tile and that no completed `tl.wait` covers yet (R250): the tile, its rows, the
engine and operation, and whether another operation has touched the tile since. -/
structure TileCmd where
  acc : Nat
  rows : Nat
  e : Nat
  opn : Nat
  bad : Bool := false
  deriving DecidableEq, Repr

/-- A bindery command on the active bank that no completed `tl.wait` covers yet (R364, R365, R371): its function and
operation, the bank, the rows (of a copy, each range before its counterpart), whether it has completed, the rows stored to before
it reached them, and the rows it has filled or copied (for a write-out 8192 more than each frame it has written). -/
structure BankCmd where
  fn : Nat
  opn : Nat
  bank : Bool
  rows : List (Nat × Nat)
  done : Bool := false
  bad : List Nat := []
  hit : List Nat := []
  deriving DecidableEq, Repr

/-- A trap that waits for earlier operations to land (R425 step 2): what it reports, BPC, RPC and SEC. -/
structure TrapWait where
  req : TrapReq
  bpc : Addr
  rpc : Addr
  sec : Bool := false
  deriving DecidableEq, Repr

/-- One hardware context: everything that is held per context in dedicated storage; `endK` says how an ending context
ends (1 `halt`, 2 `halt` reported, 3 suspended by `sync`).  `held` stands from its hold on, `holdP` until the yield at
which a hold takes effect (R444); `saved` marks the banks whose values lie in the save area (R382), `unfilled` those of a
resumed task that its frame still holds (R391); `inS` are scalar registers a start wrote while their bank was elsewhere
(R345, R379); `atYield` says that the last bundle issued was a yield bundle (R430). -/
structure Ctx where
  life : Life := .free
  task : Task := {}
  ctl : Ctl := {}
  bcount : Nat := 0
  pend : List Pend := []
  posted : List Acc := []
  waits : List Wait := []
  cst : BitVec 5 := 0
  satc : BitVec 32 := 0
  rsvc : BitVec 32 := 0
  ma : Tab (BitVec 128) := []
  mb : Tab (BitVec 128) := []
  latches : Tab Latch := []
  latchDue : Tab Nat := []
  xr : Tab Word := []
  tile : TileSt := {}
  rings : Tab Ring := []
  tls : Tab Timeline := []
  mbest : Tab Word := []
  mbestDue : Nat := 0
  tileDue : Tab Nat := []
  valDue : Tab Nat := []
  mxFree : List Nat := []
  carry : Tab Carry := []
  chunk : Nat := 6
  cks : Tab (Option (Bool × Nat × Nat × Nat)) := []
  act : Bool := false
  spill : Tab Row := []
  rwEn : Bool := false
  rwSupp : Bool := false
  rwHold : Option Addr := none
  ngrp : Nat := 0
  nref : Nat := 0
  last : Nat := 0
  plan : Option Plan := none
  hs : Tab Word := []
  hla : Tab Word := []
  hsa : Tab Word := []
  hand : Handler := {}
  trec : Tab Word := []
  wakeP : Option Addr := none
  held : Bool := false
  holdP : Bool := false
  saved : BitVec 56 := 0
  unfilled : BitVec 56 := 0
  trapP : Option TrapWait := none
  inS : List (Nat × Word) := []
  atYield : Bool := false
  tileCmds : List TileCmd := []
  bankCmds : List BankCmd := []
  endK : Nat := 0
  lastPc : Addr := 0
  deriving DecidableEq, Repr

/-! ### Cores -/

/-- A line of the L1 data cache (R178): its words, which have been fetched, which have been written, its last writer, and the
other contexts for which its written words are earlier accesses, as their own or as observed (R193). -/
structure L1Line where
  data : Row := 0
  got : BitVec 32 := 0
  wrote : BitVec 32 := 0
  writer : Nat := 0
  part : Nat := 0
  va : Nat := 0
  fn : Nat := 0
  seen : BitVec 8 := 0
  deriving DecidableEq, Repr

/-- A named barrier (Table 08-1). -/
structure Barrier where
  pend : BitVec 32 := 0
  arr : Nat := 0
  cnt : Nat := 0
  ph : Bool := false
  err : Bool := false
  ovr : Bool := false
  lerr : Bool := false
  lovr : Bool := false
  dlv : BitVec 32 := 0
  ldlv : BitVec 32 := 0
  deriving DecidableEq, Repr

/-- An update on its way to a barrier (R206, R216): arrivals, expected bytes, tied bytes that count
as delivered, a remainder that does not, an error, a new count, and the cycle from which it may be applied; `src` is 1 plus
the context an arrival comes from (R427 step 5), 0 otherwise. -/
structure BarUpd where
  a : Nat := 0
  x : Nat := 0
  y : Nat := 0
  rem : Nat := 0
  err : Bool := false
  init : Option Nat := none
  ready : Nat := 0
  src : Nat := 0
  deriving DecidableEq, Repr

/-- A row sent over a circuit (R344): its destination core and row, its data, the cycle it lands, and, on the last row
of a payload with HE = 1, the arrival (HCTX, HADDR, ARG, s2); `src` and `key` name the core and command it comes from. -/
structure SentRow where
  dcore : Nat
  row : Nat
  data : Row
  lands : Nat
  tie : Option Nat := none
  arrival : Option (Nat × Addr × Word × Word) := none
  src : Nat := 0
  key : Nat := 0
  deriving DecidableEq, Repr

/-- One compute core; `nbAt` is 1 plus the cycle in which a barrier last took up updates (R206), `brk` the bundle numbers at which
the debugger stops it (R457). -/
structure Core where
  ctxs : Tab Ctx := []
  va : Tab Row := []
  vb : Tab Row := []
  tiles : Tab Tile := []
  s : Tab Word := []
  la : Tab Word := []
  sa : Tab Word := []
  c : Tab Word := []
  tags : Tab Nat := []
  pad : Tab Row := []
  bankA : Tab Row := []
  bankB : Tab Row := []
  dirtyA : Tab Bool := []
  dirtyB : Tab Bool := []
  sessA : Option Nat := none
  sessB : Option Nat := none
  flip : Option Bool := none
  flipTo : List Nat := []
  slots : Tab WSlot := []
  plane0 : Plane := {}
  plane1 : Plane := {}
  mq : List MxEnt := []
  entryFree : Nat := 0
  entryPl : Nat := 2
  planeReq : Option (Nat × Bool) := none
  l1 : Tab L1Line := []
  nbs : Tab Barrier := []
  nbIn : List (Nat × BarUpd) := []
  nbAt : Tab Nat := []
  rules : Tab (BitVec 256) := []
  rwImg : Nat := 0
  rwImgV : Bool := false
  rwErr : Bool := false
  scan : Option Cmd := none
  scanRot : Nat := 0
  copies : List Cmd := []
  streams : List Stream := []
  copyRot : Nat := 0
  circ : Tab Nat := []
  sends : List SentRow := []
  arrivals : List (Nat × Addr × Word × Word) := []
  credits : Nat := 16
  prim : Option Nat := none
  prep : Bool := false
  slice : Nat := 65536
  rptr : Nat := 0
  sysw : Nat := 0
  lastCyc : Nat := 0
  halted : Bool := false
  brk : List Nat := []
  deriving DecidableEq, Repr

/-! ### Clusters, dies and the device -/

/-- A cached translation (R434): function, size class (0 4 KiB, 1 64 KiB, 2 2 MiB), page number, the entry (Table 18-6)
and the retired mask; `alts` the 16 entries of a 64 KiB page when they differ (R432). -/
structure TlbEnt where
  fn : Nat
  size : Nat
  page : Nat
  ent : Word
  ret : BitVec 32 := 0
  alts : List Word := []
  deriving DecidableEq, Repr

/-- A walk in flight for the context (core, ctx), and its fault (kind, level) once it has failed (R433, R434). -/
structure Walk where
  core : Nat
  ctx : Nat
  fn : Nat
  page : Nat
  fault : Option (Nat × Nat) := none
  deriving DecidableEq, Repr

/-- A frame of a pool (R385): its place, its kernel, its parent, the children pending, the resume bundle and mask of a
suspended task, its priority and coordinate, whether the task has ended. -/
structure Frame where
  id : Nat
  core : Nat
  row : Nat
  kern : Nat
  parent : Option Nat := none
  pend : Nat := 0
  resume : Option Addr := none
  mask : BitVec 56 := 0
  prio : BitVec 6 := 0
  tcoord : BitVec 48 := 0
  ended : Bool := false
  act : Nat := 0
  deriving DecidableEq, Repr

/-- A spawn or resume entry (R385, R387). -/
structure Spawn where
  kern : Nat
  target : Addr
  s1 : Word
  s2 : Word
  prio : BitVec 6
  tcoord : BitVec 48
  frame : Option Nat
  parent : Option Nat := none
  resume : Bool := false
  /-- The entry of the overflow area that a deferred entry was written to. -/
  slot : Nat := 0
  deriving DecidableEq, Repr

/-- A terminated task some of whose accesses have still to perform: those of its context below the key `last` (R390, R396). -/
structure Leaving where
  core : Nat
  ctx : Nat
  kern : Nat
  frame : Option Nat
  last : Nat
  deriving DecidableEq, Repr

/-- One cluster: its bindery, its task machinery and its translation unit. -/
structure Cluster where
  bind : List Cmd := []
  bindRun : List Cmd := []
  bindRot : Nat := 0
  spawnQ : List Spawn := []
  ovf : List Spawn := []
  frames : List Frame := []
  nextFrame : Nat := 0
  leaving : List Leaving := []
  tlb : List TlbEnt := []
  walks : List Walk := []
  deriving DecidableEq, Repr

/-- An entry of the machine-error log (Table 18-8). -/
structure LogEnt where
  w0 : Word
  w1 : Word
  w2 : Word
  w3 : Word
  deriving DecidableEq, Repr

/-- One die: the generation engines and the machine-error log. -/
structure Die where
  gens : List Cmd := []
  genRot : Tab Nat := []
  log : List LogEnt := []
  seq : Nat := 0
  deriving DecidableEq, Repr

/-- A line of the stacks (R180): its place, which sectors are valid and dirty, per 4-byte word whether it was written
or fetched, the data, the owner tag (core, context), and whether it is poisoned, with its page's retirement under way once
`retire` is set (R436). -/
structure StackLine where
  slice : Nat := 0
  way : Nat := 0
  valid : BitVec 4 := 0
  dirty : BitVec 4 := 0
  wrote : BitVec 64 := 0
  got : BitVec 64 := 0
  data : BitVec 2048 := 0
  owner : Nat × Nat := (0, 0)
  poison : Bool := false
  retire : Bool := false
  deriving DecidableEq, Repr

/-- A kernel launched and not yet completed (R451, R452): its record, its queue, slot and function, the tasks not yet
placed, live and terminated, and whether `hint.next` has taken effect. -/
structure Kernel where
  id : Nat
  fn : Nat
  queue : Nat
  slot : Nat
  img : Nat
  kid : Nat
  priv : Bool
  prio : BitVec 8
  entry : Addr
  banks : BitVec 56
  ptm : BitVec 8
  run0 : BitVec 20
  arg : Word
  pred : Nat
  succ : Nat
  ctl : Nat
  mirror : Nat
  ovfa : Nat
  ovfq : Nat
  frame : Nat
  fpcore : Nat
  fprow : Nat
  fpn : Nat
  smap : Nat
  regions : List Word
  toPlace : List Word
  live : Nat := 0
  term : Nat := 0
  hinted : Bool := false
  ill : Bool := false
  deriving DecidableEq, Repr

/-- A pre-emption block (R430): the core and context it was taken from, the context's dedicated state, its banks but the
tiles that are not persistent, the rows of its `persist` regions and its streams; `lost` lists the 64-byte sectors (twice the
row, plus one for the upper half) of its `discard` regions written since (R431); `img` is what the device wrote into LPDDR 6
for it. -/
structure Block where
  core : Nat
  j : Nat
  x : Ctx
  banks : List (Nat × List Row)
  rows : List (Nat × Row)
  streams : List Stream
  lost : List Nat := []
  img : List Row := []
  deriving DecidableEq, Repr

/-- A trim message in flight (R415): target core and context, LCM, KOP, KPV and the six counts; the die and the key of its
command. -/
structure Trim where
  core : Nat
  ctx : Nat
  lcm : Nat
  kop : Nat
  kpv : BitVec 16
  lcv : Nat
  die : Nat
  key : Nat
  deriving DecidableEq, Repr

/-- An installed image's protected copy (R454): whether its seal verified, its digest, and the loadable sections, as offset and
size, that the digest is taken over. -/
structure Image where
  kind : Nat
  idx : Nat
  base : Nat
  len : Nat
  nb : Nat
  rules : List (BitVec 256) := []
  ver : Bool := false
  dig : BitVec 384 := 0
  secs : List (Nat × Nat) := []
  deriving DecidableEq, Repr

/-- Which agent moves next (log entry 7, DESIGN CHOICE): a core issues, or a step of the hardware or of its surroundings takes place
with its arguments, or the clock alone moves on. -/
inductive Turn where
  | issue (core : Nat)
  | event (i : Instr) (arg : List Nat)
  | idle
  deriving DecidableEq, Repr

/-! ### The bundle in progress -/

/-- Priority of a write path in R126: owner, load port, copy port. -/
inductive Port where
  | owner
  | load
  | copy
  deriving DecidableEq, Repr

/-- A result promised by an operation of the bundle in progress; `mx` when MX writes it (R263). -/
structure Wr where
  dest : Dest
  mask : Row
  val : Row
  open_ : Row := 0
  lat : Nat
  port : Port
  tile : Option TileUpd := none
  mx : Bool := false
  deriving DecidableEq, Repr

/-- An effect of an operation beside its results, performed when the bundle has issued, in the order given. -/
inductive Act where
  | pad (row : Nat) (mask val : Row)
  | sb (row : Nat) (val : Row)
  | spill (slot : Nat) (lo len : Nat) (val : Row)
  | post (a : Acc) (dst : Option Dest) (mask : Row) (lat : Nat)
  | wait (w : Wait)
  | cst (bits : BitVec 5)
  | cqPush (v : Bool) (lat : Nat)
  | cqFlush
  | cqPop
  | pri (n : BitVec 6)
  | wdog
  | loop (l : Loop) (lx0 : BitVec 32)
  | call (t ra : Addr) (inline : Bool)
  | ret
  | jump (t : Addr)
  | skipTo (t : Addr)
  | yield (run : BitVec 20)
  | halt
  | sleep
  | sync (mask : BitVec 56)
  | trapAfter (cause n : Nat)
  | rfe (t : Addr)
  | kill (core ctx : Nat)
  | latch (l : Nat) (v : Latch) (due : Bool)
  | tileClr
  | ring (h : Nat) (r : Ring)
  | adv (h con fil res : Nat)
  | made (h n : Nat)
  | engine (e fn : Nat) (ca cb : Word) (blk : Row)
  | clear (e : Nat)
  | scnCfg (ca : Word)
  | mx (e : MxEnt)
  | touch (row : Nat)
  | nb (core b : Nat) (u : BarUpd)
  | dropL1 (rg : Option (Nat × Nat))
  | fork (t : Addr) (ovf : Bool) (s1 s2 : Word)
  | hint
  | rwLd (img : Nat)
  | rwInv (k : Option Nat)
  | rwSup
  | tlb (mode fn page : Nat) (dev : Bool)
  | retire (pa : Nat)
  | wayq (slice set way : Nat) (q : Bool)
  | hold (core ctx : Nat) (h : Bool)
  | lpw (pa n v : Nat)
  | walk (page : Nat)
  | plane (slot : Nat) (pair : Bool)
  deriving DecidableEq, Repr

/-- The bundle in progress (log entry 8, DESIGN CHOICE): the context issuing it, whether it issued as the merged secondary, its raw
bits, the literal bundle after a `li.wide`, whether it is skipped, and what its operations have decided so far; `dry`
while only the checks of a rewritten group's replacements are made, and `from0` in a replacement after b0, the transform registers as b0
saw them (R292). -/
structure Issue where
  opn : Bool := false
  core : Nat := 0
  ctx : Nat := 0
  sec : Bool := false
  word : Nat := 0
  lit : Option Nat := none
  skipped : Bool := false
  trap : Option TrapReq := none
  stall : Bool := false
  dry : Bool := false
  from0 : Option (Tab Word) := none
  stallActs : List Act := []
  wrs : List Wr := []
  acts : List Act := []
  deriving DecidableEq, Repr

/-- Attestation (R456): the SPDM phase, whether a session is open, the last response, the IDE stream keys. -/
structure Spdm where
  phase : Nat := 0
  session : Bool := false
  resp : List Byte := []
  keys : Tab (BitVec 256) := []
  deriving DecidableEq, Repr

/-- The machine.  `held` marks a step that met a slice or channel that is not ready, and so does not take place (R20, R459);
`codeBase` and `codeSize` are the protected code region in 64 KiB pages, once power-on has fixed it (R454); `retiring` lists
pages of LPDDR 6 whose retirement still awaits accesses in flight, with the channel found uncorrectable (R435, R437); `circTl`
holds the timelines of the circulation cores (R359); `launchRot` the queue taken next of each priority (R449), `ended` the kernels
(function, KID) that have completed (R451), `measured` what MR has taken up, in order (R454, R457), `keyFill` the words written of
each key slot (Table 19-7), and `bar2` log2 of each function's BAR2 window, 0 for its size after reset (R446). -/
structure State where
  now : Nat
  cores : Tab Core
  clusters : Tab Cluster
  dies : Tab Die
  regs : Tab Word
  dram : Memory
  host : Memory
  peer : Memory
  stack : Tab StackLine
  quar : Tab Bool
  badUnits : Tab Bool
  held : Bool
  codeBase : Nat
  codeSize : Nat
  retiring : List (Nat × Nat)
  kernels : List Kernel
  nextKernel : Nat
  launchRot : Tab Nat
  ended : List (Nat × Nat)
  completions : Tab Nat
  blocks : List Block
  trims : List Trim
  messages : List (Nat × Nat × Nat)
  images : List Image
  install : Option (Nat × Nat × Nat × Nat)
  measured : List (BitVec 384)
  keyFill : Tab Nat
  bar2 : Tab Nat
  spdm : Spdm
  off : Bool
  escaped : Tab Bool
  shelfUsed : List Nat
  circTl : Tab Timeline
  nextKey : Nat
  iss : Issue
  turns : List Turn
  arg : List Nat
  rr : Nat
  evt : Nat
  freeCtr : Nat
  deriving DecidableEq, Repr

/-- The machine right after reset: every table lists nothing, so that each register reads as its reset value
(INVENTORY.md, State). -/
def State.reset : State :=
  { now := 0, cores := [], clusters := [], dies := [], regs := [], dram := [], host := [], peer := [], stack := [],
    quar := [], badUnits := [], held := false, codeBase := 0, codeSize := 0, retiring := [], kernels := [], nextKernel := 0, launchRot := [], ended := [], completions := [], blocks := [],
    trims := [], messages := [], images := [], install := none,
    measured := [], keyFill := [], bar2 := [], spdm := {}, off := false, escaped := [], shelfUsed := [], circTl := [],
    nextKey := 0, iss := {}, turns := [], arg := [], rr := 0, evt := 0, freeCtr := 0 }

end Sys2Proof.Machine
end

