-- ==== Sys2Proof/Machine/Ops.lean ====
section
/-! DEFINITION. Named operations over the state: cores and contexts, device registers, registers under the
no-earlier-than model, bank demand, timelines, and the record of what an operation does. -/

namespace Sys2Proof.Machine

/-! ### Cores, contexts, clusters, dies -/

/-- A core by its device-wide number (R10). -/
def State.core (s : State) (k : Nat) : Core := tget {} s.cores k
def State.setCore (s : State) (k : Nat) (c : Core) : State := { s with cores := tput s.cores k c }
/-- A context of a core. -/
def Core.ctx (c : Core) (j : Nat) : Ctx := tget {} c.ctxs j
def Core.setCtx (c : Core) (j : Nat) (x : Ctx) : Core := { c with ctxs := tput c.ctxs j x }
def State.ctx (s : State) (k j : Nat) : Ctx := (s.core k).ctx j
def State.setCtx (s : State) (k j : Nat) (x : Ctx) : State := s.setCore k ((s.core k).setCtx j x)
def State.modCore (s : State) (k : Nat) (f : Core → Core) : State := s.setCore k (f (s.core k))
def State.modCtx (s : State) (k j : Nat) (f : Ctx → Ctx) : State := s.setCtx k j (f (s.ctx k j))
def State.cluster (s : State) (q : Nat) : Cluster := tget {} s.clusters q
def State.setCluster (s : State) (q : Nat) (c : Cluster) : State := { s with clusters := tput s.clusters q c }
def State.die (s : State) (d : Nat) : Die := tget {} s.dies d
def State.setDie (s : State) (d : Nat) (v : Die) : State := { s with dies := tput s.dies d v }
/-- The cluster and the die of a core (R10). -/
def clusterOf (k : Nat) : Nat := k / 4
def dieOf (k : Nat) : Nat := k / 64

/-! ### Free values (R5; log entry 1, DESIGN CHOICE) -/

/-- A free number for a place of this step. -/
def State.free (s : State) (key : Nat) : Nat := Config.freeNat s.freeCtr key
def State.tick (s : State) : State := { s with freeCtr := s.freeCtr + 1 }

/-! ### Device registers (R448) -/

/-- Offsets of BAR0 (Table 19-6). -/
def rSysReady (i : Nat) : Nat := 8 * i
def rLayout (i : Nat) : Nat := 0x20 + 8 * i
def rSecCtl : Nat := 0x100
def rSecSts : Nat := 0x108
def rDbgCtl : Nat := 0x110
def rDbgSts : Nat := 0x118
def rDbgNonce : Nat := 0x120
def rDbgTok : Nat := 0x128
def rPwrCtl : Nat := 0x130
def rPwrSts : Nat := 0x138
def rZlId : Nat := 0x140
def rZlRoute : Nat := 0x148
def rLqBase (q : Nat) : Nat := 0x10000 + 16 * q
def rLqCtl (q : Nat) : Nat := 0x10008 + 16 * q
def rKey (k i : Nat) : Nat := 0x20000 + 0x40 * k + 8 * i
def rMr (i : Nat) : Nat := 0x20200 + 8 * i
def rImgAddr : Nat := 0x20300
def rImgLen : Nat := 0x20308
def rImgKind : Nat := 0x20310
def rImgIdx : Nat := 0x20318
def rImgGo : Nat := 0x20320
def rImgSts : Nat := 0x20328
def rLogN : Nat := 0x20330
def rImgVb (i : Nat) : Nat := 0x20800 + 8 * i
def rImgPb (i : Nat) : Nat := 0x21000 + 8 * i
def rImgNb (i : Nat) : Nat := 0x21800 + 8 * i
def rLog (e : Nat) : Nat := 0x24000 + 64 * e
def rCcb (k : Nat) : Nat := 0x100000 + 0x10000 * k
def rSlice (k : Nat) : Nat := rCcb k
def rWdp (k : Nat) : Nat := rCcb k + 8
def rTvec (k : Nat) : Nat := rCcb k + 0x10
def rSave (k j : Nat) : Nat := rCcb k + 0x100 + 8 * j
def rErrA (k j : Nat) : Nat := rCcb k + 0x140 + 8 * j
def rErrN (k j : Nat) : Nat := rCcb k + 0x180 + 8 * j
def rErrP (k j : Nat) : Nat := rCcb k + 0x1C0 + 8 * j
def rErrC (k j : Nat) : Nat := rCcb k + 0x200 + 8 * j
def rErrD (k j : Nat) : Nat := rCcb k + 0x240 + 8 * j
def rFn (k j : Nat) : Nat := rCcb k + 0x280 + 8 * j
def rCirc (k c : Nat) : Nat := rCcb k + 0x1000 + 8 * c
def rCph (k c : Nat) : Nat := rCcb k + 0x1100 + 8 * c
def rSlt (d node p w : Nat) : Nat := 0x900000 + 0x10000 * d + 0x400 * node + 0x40 * p + 8 * w
def rSlcfg (p : Nat) : Nat := 0x920000 + 0x1000 * p
def rSlm (p j : Nat) : Nat := rSlcfg p + 0x40 + 8 * j
def rSlmap (p e : Nat) : Nat := rSlcfg p + 0x200 + 8 * e
def rBndFt : Nat := 0x930000
def rBndFp : Nat := 0x930008
def rBndNf : Nat := 0x930010
def rBndSt : Nat := 0x930018
def rBndSl : Nat := 0x930020
def rBndCtl : Nat := 0x930028
def rBndSts : Nat := 0x930030
def rXlRoot (f : Nat) : Nat := 0x931000 + 8 * f
def rRetBase : Nat := 0x931100
def rDnTmo : Nat := 0x931108
def rVfPart (f : Nat) : Nat := 0x931200 + 8 * f
def rShmBase (f : Nat) : Nat := 0x931300 + 16 * f
def rShmN (f : Nat) : Nat := 0x931308 + 16 * f
def rFne (f i : Nat) : Nat := 0x931400 + 0x40 * f + 8 * i

/-- Reset mask j of partition 0 (Table 07-2). -/
def slm0 (j : Nat) : Nat :=
  2 ^ (8 + j) + 2 ^ (14 + j) + 2 ^ (20 + j) + 2 ^ (26 + j) + 2 ^ (32 + j) + 2 ^ (38 + j) + 2 ^ (44 + j)

/-- What a register holds at reset: Tables 07-2, 14-5, 14-6, 15-1, 18-4, 19-2, 19-7, R183, R459; the fuses are OPEN (log
entry 6). -/
def regReset (off : Nat) : Nat :=
  if 0x10000 ≤ off ∧ off < 0x10400 ∧ off % 16 = 8 then 63 * 32
  else if 0x100000 ≤ off ∧ off < 0x900000 then
    (if off % 0x10000 = 0 then 65536 else if off % 0x10000 = 8 then 10000 else 0)
  else if off = rSlcfg 0 then 2
  else if rSlm 0 0 ≤ off ∧ off < rSlm 0 6 then slm0 ((off - rSlm 0 0) / 8)
  else if rSlmap 0 0 ≤ off ∧ off < rSlmap 0 64 then (off - rSlmap 0 0) / 8
  else if off = rDnTmo then 4096
  else 0

/-- A device register. -/
def State.reg (s : State) (off : Nat) : Nat := (tget (BitVec.ofNat 64 (regReset off)) s.regs off).toNat
def State.setReg (s : State) (off v : Nat) : State := { s with regs := tput s.regs off (BitVec.ofNat 64 v) }
/-- Whether power-on has fixed the layout: some unit is present (R459). -/
def State.layoutSet (s : State) : Bool := (List.range 4).any fun i => s.reg (rLayout i) != 0
/-- The layout is fixed, if it is not yet: that of a full part (R19, R459; log entry 6, DESIGN CHOICE). -/
def State.fixLayout (s : State) : State :=
  if s.layoutSet then s
  else (((s.setReg (rLayout 0) (2 ^ 56 - 1)).setReg (rLayout 1) (2 ^ 64 - 1)).setReg (rLayout 2) (2 ^ 64 - 1)).setReg (rLayout 3) (2 ^ 64 - 1)

/-- A core, a slice, an LPDDR 6 channel or a port is present (R19, R459). -/
def State.coreOk (s : State) (k : Nat) : Bool := k < 128 && bitAt (s.reg (rLayout (2 + k / 64))) (k % 64)
def State.sliceOk (s : State) (n : Nat) : Bool := n < 64 && bitAt (s.reg (rLayout 1)) n
/-- The function of the task on a context (`CCB_FN`). -/
def State.fnOf (s : State) (k j : Nat) : Nat := if (s.ctx k j).hand.on then 0 else (s.ctx k j).task.fn
/-- System privilege (R421). -/
def Ctx.privileged (x : Ctx) : Bool := x.hand.on || x.task.priv
def State.privOf (s : State) (k j : Nat) : Bool := (s.ctx k j).privileged

/-! ### Registers (R89, R90, R123, R141, R422) -/

/-- A number naming each destination, for free values. -/
def Dest.code : Dest → Nat
  | .s n => n
  | .v .va n => 1000 + n
  | .v .vb n => 2000 + n
  | .mask .va n => 3000 + n
  | .mask .vb n => 3100 + n
  | .p n => 3200 + n
  | .lc k => 3300 + k
  | .lcP k => 3310 + k
  | .lx k => 3320 + k
  | .kp => 3330
  | .kpP => 3331
  | .strd k => 3340 + k
  | .la n => 3400 + n
  | .sa n => 3500 + n
  | .c n => 3600 + n
  | .x n => 3700 + n
  | .hs n => 3800 + n
  | .hla n => 3810 + n
  | .hsa n => 3820 + n
  | .fmt => 3830
  | .rwp => 3831
  | .en => 3832
  | .cst => 3833
  | .satc => 3834
  | .rsvc => 3835
  | .satcAdd => 3836
  | .rsvcAdd => 3837
  | .cstSet => 3838
  | .pad r => 4000 + r

/-- A vector register file. -/
def Core.vfile (c : Core) : VFile → Tab Row
  | .va => c.va
  | .vb => c.vb
/-- Lane mask n of a file (R141). -/
def Ctx.mask (x : Ctx) (f : VFile) (n : Nat) : Nat :=
  match f with
  | .va => (tget 0 x.ma n).toNat
  | .vb => (tget 0 x.mb n).toNat

/-- The stored content of a register. -/
def rawD (s : State) (k j : Nat) (d : Dest) : Nat :=
  let c := s.core k
  let x := c.ctx j
  match d with
  | .s n => if n = 0 then 0 else (tget 0 c.s n).toNat
  | .v f n => (tget 0 (c.vfile f) n).toNat
  | .mask f n => x.mask f n
  | .p n => if n = 0 then 1 else bitsAt x.ctl.p.toNat n 1
  | .lc n => (tget 0 x.ctl.lc n).toNat
  | .lcP n => ((tget none x.ctl.lcP n).getD 0).toNat
  | .lx n => (tget 0 x.ctl.lx n).toNat
  | .kp => x.ctl.kp.toNat
  | .kpP => (x.ctl.kpP.getD 0).toNat
  | .strd n => if n = 0 then 2 ^ 32 else (tget 0 x.ctl.strd n).toNat
  | .la n => (tget 0 c.la n).toNat
  | .sa n => (tget 0 c.sa n).toNat
  | .c n => (tget 0 c.c n).toNat
  | .x n => (tget 0 x.xr n).toNat
  | .hs n => (tget 0 x.hs n).toNat
  | .hla n => (tget 0 x.hla n).toNat
  | .hsa n => (tget 0 x.hsa n).toNat
  | .fmt => x.ctl.fmt.toNat
  | .rwp => x.ctl.rwp.toNat
  | .en => b2n x.rwEn
  | .cst => x.cst.toNat
  | .satc => x.satc.toNat
  | .rsvc => x.rsvc.toNat
  | .satcAdd => 0
  | .rsvcAdd => 0
  | .cstSet => 0
  | .pad r => (tget 0 c.pad r).toNat

/-- Saturating 32-bit addition (R62, R66). -/
def satAdd32 (a b : Nat) : Nat := min (a + b) (2 ^ 32 - 1)

/-- Storing a whole value into a register; `s0` and `p0` discard it (R86, R123). -/
def putD (s : State) (k j : Nat) (d : Dest) (v : Nat) : State :=
  let c := s.core k
  let x := c.ctx j
  let w : Word := BitVec.ofNat 64 v
  let core (c : Core) : State := s.setCore k c
  let ctx (x : Ctx) : State := s.setCore k (c.setCtx j x)
  let ctl (t : Ctl) : State := ctx { x with ctl := t }
  match d with
  | .s n => if n = 0 then s else core { c with s := tput c.s n w }
  | .v .va n => core { c with va := tput c.va n (row v) }
  | .v .vb n => core { c with vb := tput c.vb n (row v) }
  | .mask .va n => ctx { x with ma := tput x.ma n (BitVec.ofNat 128 v) }
  | .mask .vb n => ctx { x with mb := tput x.mb n (BitVec.ofNat 128 v) }
  | .p n => if n = 0 then s else
      ctl { x.ctl with p := (x.ctl.p &&& ~~~(BitVec.ofNat 16 (2 ^ n))) ||| BitVec.ofNat 16 (v % 2 * 2 ^ n) }
  | .lc n => ctl { x.ctl with lc := tput x.ctl.lc n (BitVec.ofNat 16 v) }
  | .lcP n => ctl { x.ctl with lcP := tput x.ctl.lcP n (some (BitVec.ofNat 16 v)) }
  | .lx n => ctl { x.ctl with lx := tput x.ctl.lx n (BitVec.ofNat 32 v) }
  | .kp => ctl { x.ctl with kp := BitVec.ofNat 16 v }
  | .kpP => ctl { x.ctl with kpP := some (BitVec.ofNat 16 v) }
  | .strd n => if n = 0 then s else ctl { x.ctl with strd := tput x.ctl.strd n w }
  | .la n => core { c with la := tput c.la n w }
  | .sa n => core { c with sa := tput c.sa n w }
  | .c n => core { c with c := tput c.c n w }
  | .x n => ctx { x with xr := tput x.xr n w }
  | .hs n => ctx { x with hs := tput x.hs n w }
  | .hla n => ctx { x with hla := tput x.hla n w }
  | .hsa n => ctx { x with hsa := tput x.hsa n w }
  | .fmt => ctl { x.ctl with fmt := w }
  | .rwp => ctl { x.ctl with rwp := BitVec.ofNat 2 v }
  | .en => ctx { x with rwEn := bitAt v 0 }
  | .cst => ctx { x with cst := BitVec.ofNat 5 v }
  | .satc => ctx { x with satc := BitVec.ofNat 32 v }
  | .rsvc => ctx { x with rsvc := BitVec.ofNat 32 v }
  | .satcAdd => ctx { x with satc := BitVec.ofNat 32 (satAdd32 x.satc.toNat v) }
  | .rsvcAdd => ctx { x with rsvc := BitVec.ofNat 32 (satAdd32 x.rsvc.toNat v) }
  | .cstSet => ctx { x with cst := x.cst ||| BitVec.ofNat 5 v }
  | .pad r => core { c with pad := tset 0 c.pad r (row v) }

/-- Destinations whose pending results each take effect by themselves when they land, in place of excluding each other:
increments of a counter (R138) and sticky bits (R133). -/
def Dest.sums : Dest → Bool
  | .satcAdd => true
  | .rsvcAdd => true
  | .cstSet => true
  | _ => false
/-- Whether a pending result of destination e makes a read of d unpredictable (R89): the same register, or a counter
and its increment, or the status and a bit that is to be set. -/
def Dest.hits (e d : Dest) : Bool :=
  e == d || (e == .satcAdd && d == .satc) || (e == .rsvcAdd && d == .rsvc) || (e == .cstSet && d == .cst)
/-- Destinations that a result may reach before its position (R89).  The others are read with their old value until then, or
change otherwise in the meantime (R98, R103, R106, R133, R136, R138). -/
def Dest.early : Dest → Bool
  | .s _ => true
  | .v _ _ => true
  | .mask _ _ => true
  | .p _ => true
  | .strd _ => true
  | .la _ => true
  | .sa _ => true
  | .c _ => true
  | .x _ => true
  | .hs _ => true
  | .hla _ => true
  | .hsa _ => true
  | .pad _ => true
  | _ => false
/-- Whether a result may be delivered before its position; one that ends a tile step feeds the tile there (R232). -/
def Pend.early (p : Pend) : Bool := p.dest.early && p.tile.isNone

/-- The bits of a register that a read in counted bundle n may not rely on (R89); `fmt` is read with its old value
until its position (R103). -/
def taint (x : Ctx) (d : Dest) : Row :=
  if d = .fmt then 0 else
  x.pend.foldl
    (fun m e => if e.dest.hits d && x.bcount < e.due then
      m ||| (if e.dest = .satcAdd ∨ e.dest = .rsvcAdd then row (2 ^ 32 - 1) else e.mask) else m) 0

/-- A register as a bundle about to issue reads it: its content, with free bits where a result is still to come (R89).
A sticky status bit already set stays set (R133). -/
def readD (s : State) (k j slot : Nat) (d : Dest) : Nat :=
  let t := taint (s.ctx k j) d
  let r := rawD s k j d
  if t = 0 then r
  else
    let m := t.toNat
    let f := s.free (slot * 100000 + d.code)
    if d = .cst then r ||| (f &&& m) else (f &&& m) ||| (r &&& (2 ^ 1024 - 1 - m))

/-- Insertion of a result in order of position, after those of the same position. -/
def insPend (p : Pend) : List Pend → List Pend
  | [] => [p]
  | q :: r => if q.due ≤ p.due then q :: insPend p r else p :: q :: r

/-- A new result among the pending ones (R90): where an earlier one of the same destination has the same or a later
position, the new one replaces it there and is due at that later position.  One that ends a tile step is written at its own
position too, where the step covers the row with it (R232). -/
def addPend (l : List Pend) (p : Pend) : List Pend :=
  if p.dest.sums then insPend p l
  else
    let go := l.foldl (fun (acc : List Pend × List Pend × Row) q =>
      let o := q.mask &&& acc.2.2
      if q.dest = p.dest ∧ p.due ≤ q.due ∧ o ≠ 0 then
        (acc.1 ++ [{ q with mask := q.mask &&& ~~~o }], acc.2.1 ++ [{ p with mask := o, due := q.due, tile := none }], acc.2.2 &&& ~~~o)
      else (acc.1 ++ [q], acc.2.1, acc.2.2)) ([], [], p.mask)
    let kept := go.1.filter (fun q => q.mask ≠ 0 || q.tile.isSome)
    let rest : List Pend := if p.tile.isSome then [p] else if go.2.2 ≠ 0 then [{ p with mask := go.2.2 }] else []
    (go.2.1 ++ rest).foldl (fun a q => insPend q a) kept

/-- What an `xf.cvt` with W = 1 does to the tile state (R232); the CRC runs over the destination row as it stands after
the write. -/
def TileSt.upd (t : TileSt) (u : TileUpd) (v : Nat) : TileSt :=
  let b := if t.trows = 0 then { t with tfmt := u.tt, tv := true, tfirst := u.row }
    else if u.tt ≠ t.tfmt then { t with tv := false } else t
  let b := { b with tmax := if b.tmax.toNat < u.tmax.toNat then u.tmax else b.tmax,
                    tsat := satAdd32 b.tsat u.sat, trsv := satAdd32 b.trsv u.rsv }
  if u.joins then
    { b with tv := b.tv && u.row == (b.tfirst + b.trows) % 8192,
             tcrc := BitVec.ofNat 32 (crcRun (if b.trows = 0 then 0xFFFFFFFF else b.tcrc.toNat) (bytesOf 128 v)),
             trows := min (b.trows + 1) 65535 }
  else b

/-- The colophon row of a tile (Table 02-20): scale, maximum, saturation count, reserved-code count, CRC, format, valid
flag and length in rows. -/
def colophon (scale mx sat rsv crc fmt : Nat) (valid : Bool) (rows : Nat) : Nat :=
  scale % 2 ^ 32 + mx % 2 ^ 32 * 2 ^ 32 + sat % 2 ^ 32 * 2 ^ 64 + rsv % 2 ^ 32 * 2 ^ 96 + crc % 2 ^ 32 * 2 ^ 128 +
  fmt % 16 * 2 ^ 160 + b2n valid * 2 ^ 168 + rows % 2 ^ 16 * 2 ^ 176

/-- The value a result stores: where its bits are open, a free value (R5). -/
def Pend.value (s : State) (p : Pend) : Row :=
  if p.open_ = 0 then p.val else blend p.open_ (row (s.free (500000 + p.dest.code))) p.val

/-- Rows of the `discard` regions of a task (Table 19-4). -/
def discardRow (regions : List Word) (w : Nat) : Bool :=
  regions.any fun r => let v := r.toNat
    !bitAt v 27 && !bitAt v 28 && decide (bitsAt v 0 13 ≤ w) && decide (w < bitsAt v 0 13 + bitsAt v 13 14)

/-- A write of a row of a core's scratchpad as the pre-emption blocks see it (R431). -/
def State.notePad (s : State) (k w : Nat) (mask : Row) : State :=
  if s.blocks = [] then s
  else
    let hit := (if bitsAt mask.toNat 0 512 = 0 then [] else [2 * w]) ++ (if bitsAt mask.toNat 512 512 = 0 then [] else [2 * w + 1])
    { s with blocks := s.blocks.map fun b =>
        if b.core = k ∧ discardRow b.x.task.regions w then { b with lost := b.lost ++ hit.filter fun n => !b.lost.contains n } else b }

/-- An engine timeline of a context (R204). -/
def Ctx.tl (x : Ctx) (e : Nat) : Timeline := tget {} x.tls e
def Ctx.setTl (x : Ctx) (e : Nat) (t : Timeline) : Ctx := { x with tls := tput x.tls e t }

/-- The colophon row a copy command names (R340): its core of the cluster and the row. -/
def Cmd.colo (c : Cmd) (k w : Nat) : Bool :=
  let b := c.blk.toNat
  c.fn != 8 && bitAt b 142 && bitsAt b 143 13 == w && bitsAt b 125 3 == 2 &&
  (if c.fn = 3 then bitAt b (156 + k % 4) else bitsAt b 77 2 == k % 4)
/-- Whether a copy command of the cluster that is still pending names the row as its colophon, the command with the
given key apart (R340). -/
def State.coloPend (s : State) (k w key : Nat) : Bool :=
  (List.range 4).any fun m =>
    let c := s.core (clusterOf k * 4 + m)
    c.copies.any (fun q => q.key != key && q.colo k w) ||
    (List.range 8).any fun j => ((c.ctx j).tl 0).queue.any fun q => q.key != key && q.colo k w

/-- Whether `cupd` of a context changes a row until a position it has not reached (R278). -/
def Ctx.updMark (x : Ctx) (w : Nat) : Bool :=
  x.pend.any (fun p => p.upd && p.dest == .pad w && decide (x.bcount < p.due)) ||
  x.hand.pend.any fun p => p.upd && p.dest == .pad w && decide (x.hand.bcount < p.due)
/-- Whether a row is being changed by `cupd` of some context of the core: it reads as unpredictable to every context, and a
store leaves it so (R278). -/
def Core.updBusy (c : Core) (w : Nat) : Bool :=
  c.mq.any (fun e => e.op == .upd && e.reads.contains w) || c.ctxs.any fun e => e.2.updMark w

/-- Whether a result for a scratchpad row meets an engine's work on it, a colophon still to be written or a `cupd` in progress
(R278, R340). -/
def State.landMeets (s : State) (k : Nat) : Dest → Bool
  | .pad r => s.coloPend k r (2 ^ 64) || (s.core k).updBusy r
  | _ => false
/-- A result lands (R89): its bits are stored and the tile state moves on.  Nothing happens a second time.  On a colophon row
that a copy command is about to clear, and on a row that `cupd` changes, it leaves the row unpredictable (R278, R340). -/
def land (s : State) (k j : Nat) (p : Pend) : State :=
  if p.landed then s
  else
    let v := p.value s
    let s := if p.mask = 0 then s
      else if s.landMeets k p.dest then putD s k j p.dest (s.free (810000 + p.dest.code) % 2 ^ 1024)
      else putD s k j p.dest (if p.dest.sums then v.toNat
        else (blend p.mask v (row (rawD s k j p.dest))).toNat)
    let s := match p.dest with
      | .pad r => s.notePad k r p.mask
      | _ => s
    match p.tile with
    | some u => s.modCtx k j fun x => { x with tile := x.tile.upd u (rawD s k j p.dest) }
    | none => s

/-- Results that land together: an increment of a counter is lost to a `wrc` of the same position (R138). -/
def dropIncr (l : List Pend) : List Pend :=
  l.filter fun (p : Pend) =>
    !((p.dest == .satcAdd && l.any fun (q : Pend) => q.dest == .satc && q.due == p.due) ||
      (p.dest == .rsvcAdd && l.any fun (q : Pend) => q.dest == .rsvc && q.due == p.due))

/-- Every result due at counted bundle n or before lands, in order, and leaves the list (R89). -/
def landDue (s : State) (k j n : Nat) : State :=
  let l := (s.ctx k j).pend
  let s := s.modCtx k j fun x => { x with pend := l.filter fun p => n < p.due }
  (dropIncr (l.filter fun p => decide (p.due ≤ n))).foldl (fun s p => land s k j p) s

/-- Every pending result lands (R92, R117, R425). -/
def landAll (s : State) (k j : Nat) : State :=
  let l := (s.ctx k j).pend
  let s := s.modCtx k j fun x => { x with pend := [] }
  (dropIncr l).foldl (fun s p => land s k j p) s

/-! ### Operand registers of a context (R123, R170, R321, R422) -/

/-- The scalar register a number names: in handler mode 56 to 63 are the handler's own (R422). -/
def Ctx.sD (x : Ctx) (n : Nat) : Dest := if x.hand.on ∧ 56 ≤ n then .hs (n - 56) else .s n
def Ctx.laD (x : Ctx) (n : Nat) : Dest := if x.hand.on ∧ 28 ≤ n then .hla (n - 28) else .la n
def Ctx.saD (x : Ctx) (n : Nat) : Dest := if x.hand.on ∧ 28 ≤ n then .hsa (n - 28) else .sa n

/-! ### Bank demand (R380) -/

/-- The demand mask's bit for register n of file f (Table 16-1: 0 VA, 1 VB, 2 MX, 3 SC, 4 LD, 5 ST, 6 CP). -/
def perBank (f : Nat) : Nat := if f < 2 then 64 else if f = 2 then 1 else if f = 3 then 8 else 4
/-- Whether naming register n of file f raises `BANKX`; `s0` and the handler registers never do (R380, R422). -/
def Ctx.bankx (x : Ctx) (f n : Nat) : Bool :=
  if f = 3 ∧ n = 0 then false
  else if x.hand.on ∧ ((f = 3 ∧ 56 ≤ n) ∨ ((f = 4 ∨ f = 5) ∧ 28 ≤ n)) then false
  else !bitAt x.task.demand.toNat (8 * f + n / perBank f)
/-- The information word of `BANKX` (R380). -/
def bankxInfo (f n : Nat) : Nat := n % 512 + f * 512

/-- Whether every bank of a context's demand carries its tag (R381). -/
def Core.resident (c : Core) (j : Nat) : Bool :=
  (List.range 56).all fun b => !bitAt (c.ctx j).task.demand.toNat b || tget 0 c.tags b == j + 1

/-! ### Timelines and rings (R174, R204) -/

/-- A handle ring (R174). -/
def Ctx.ring (x : Ctx) (h : Nat) : Ring := tget {} x.rings h
def Ctx.setRing (x : Ctx) (h : Nat) (r : Ring) : Ctx := { x with rings := tput x.rings h r }

/-- C moves on over the operations that have completed in a row (R204). -/
def advanceC : Nat → Timeline → Timeline
  | 0, t => t
  | n + 1, t => if t.hist.any (fun r => r.n == t.c + 1 && r.done) then advanceC n { t with c := t.c + 1 } else t

/-- Operation n of a timeline completes with a status; a fault sets ERR and F, and HALT when the engine halts its queue
(R204, R349). -/
def Timeline.complete (t : Timeline) (r : OpRec) (faulted halts : Bool) : Timeline :=
  let h := t.hist.map fun q => if q.n = r.n then { r with done := true } else q
  let f := if faulted ∧ (t.f = 0 ∨ r.n < t.f) then r.n else t.f
  let hn := if !halts then t.haltN else if t.halt then min t.haltN r.n else r.n
  advanceC (h.length + 1) { t with hist := h, err := t.err || faulted, halt := t.halt || halts, haltN := hn, f := f }

/-- A new operation of a timeline; the last 64 are kept (R351, R372, R419), and earlier ones until C has passed them. -/
def Timeline.issue (t : Timeline) (c : Cmd) : Timeline :=
  let n := t.i + 1
  { t with i := n, hist := (t.hist.filter fun r => decide (t.c < r.n) || decide (n < r.n + 64)) ++ [{ n := n }],
           queue := t.queue ++ [{ c with opn := n }] }

/-! ### What an operation decides -/

/-- The outcome of one slot operation in the bundle in progress. -/
structure Out where
  trap : Option TrapReq := none
  stall : Bool := false
  pre : List Act := []
  wrs : List Wr := []
  acts : List Act := []
  deriving DecidableEq, Repr

/-- A precise trap (R7). -/
def Out.mkTrap (cause slot info : Nat) (va : Nat := 0) : Out :=
  { trap := some { cause := cause, slot := slot, info := info, va := va } }
/-- The bundle waits (R92), with what the wait starts. -/
def Out.wait (pre : List Act := []) : Out := { stall := true, pre := pre }
/-- One whole-register result. -/
def Out.wr (d : Dest) (w v lat : Nat) (port : Port := .owner) : Out :=
  { wrs := [{ dest := d, mask := row (2 ^ w - 1), val := row v, lat := lat, port := port }] }
/-- Effects only. -/
def Out.act (l : List Act) : Out := { acts := l }
/-- Two outcomes of one operation together. -/
def Out.and (a b : Out) : Out :=
  { trap := a.trap.or b.trap, stall := a.stall || b.stall, pre := a.pre ++ b.pre, wrs := a.wrs ++ b.wrs,
    acts := a.acts ++ b.acts }

/-- The bundle in progress takes up an operation's outcome: the first trap in slot order stands (R424). -/
def Issue.add (i : Issue) (o : Out) : Issue :=
  { i with trap := i.trap.or o.trap, stall := i.stall || o.stall, stallActs := i.stallActs ++ o.pre,
           wrs := i.wrs ++ o.wrs, acts := i.acts ++ o.acts }

/-! ### Reading operands in the bundle in progress (R89, R123) -/

/-- Core and context of the bundle in progress. -/
def State.ik (s : State) : Nat := s.iss.core
def State.ij (s : State) : Nat := s.iss.ctx
def State.ix (s : State) : Ctx := s.ctx s.ik s.ij
/-- A register operand of a slot. -/
def State.rd (s : State) (slot : Nat) (d : Dest) : Nat := readD s s.ik s.ij slot d
def State.rdS (s : State) (slot n : Nat) : Nat := s.rd slot (s.ix.sD n)
def State.rdLa (s : State) (slot n : Nat) : Nat := s.rd slot (s.ix.laD n)
def State.rdSa (s : State) (slot n : Nat) : Nat := s.rd slot (s.ix.saD n)
def State.rdV (s : State) (slot : Nat) (f : VFile) (n : Nat) : Nat := s.rd slot (.v f n)
def State.rdC (s : State) (slot n : Nat) : Nat := s.rd slot (.c n)
def State.rdX (s : State) (slot n : Nat) : Nat := s.rd slot (.x n)
def State.rdP (s : State) (slot n : Nat) : Bool := s.rd slot (.p n) % 2 == 1
/-- A row of the local scratchpad as a slot reads it: unpredictable as a whole while an XF result to it is still on its way
(R229), or while `cupd` changes it (R278). -/
def State.rdRow (s : State) (slot r : Nat) : Nat :=
  let w := r % 8192
  if (s.core s.ik).updBusy w || taint s.ix (.pad w) != 0 then s.free (790000 + w) % 2 ^ 1024 else s.rd slot (.pad w)
/-- `fmt` in force for the bundle (R103), and its fields (Table 04-2). -/
def State.fmtW (s : State) : Nat := s.ix.ctl.fmt.toNat
def State.fmtRm (s : State) : Nat := bitsAt s.fmtW 14 2
def State.fmtSat (s : State) : Bool := bitAt s.fmtW 16

/-- Whether a guard holds (R29, Table 02-3). -/
def State.guard (s : State) (slot : Nat) (g : BitVec 5) : Bool :=
  s.rdP (slot + 20) (g.toNat % 16) != bitAt g.toNat 4

/-- Writing `s`d through the owner port, or the copy port of the scalar file (R125). -/
def State.wrS (s : State) (d v lat : Nat) (port : Port := .owner) : Out := Out.wr (s.ix.sD d) 64 (v % 2 ^ 64) lat port

end Sys2Proof.Machine
end

