-- ==== Sys2Proof/Machine/Flags.lean ====
section
/-! DEFINITION. The conditions of floating-point operations (R133, R148), the sticky status bits (Table 05-5), the
counters `satc` and `rsvc` (R62, R66), and the words of status instructions. -/

namespace Sys2Proof.Machine

/-- Bits of `cst` (Table 05-5). -/
def cstWCOL : BitVec 5 := 1
def cstCQO : BitVec 5 := 2
def cstIDZ : BitVec 5 := 4
def cstFIV : BitVec 5 := 8
def cstFOF : BitVec 5 := 16

/-- Whether a raised condition is enabled in `fmt` (TIV, TDZ, TOF). -/
def fpEnabled (fmt : Nat) (inv dbz ovf : Bool) : Bool :=
  (inv && bitAt fmt 19) || (dbz && bitAt fmt 20) || (ovf && bitAt fmt 21)

/-- The sticky bits an untrapped invalid operation or overflow sets at the result position (R133, R148). -/
def fpSticky (inv ovf : Bool) (lat : Nat) : List Wr :=
  let b := (if inv then 8 else 0) + (if ovf then 16 else 0)
  if b = 0 then [] else [{ dest := .cstSet, mask := row b, val := row b, lat := lat, port := .owner }]

/-- An increment of `satc` or `rsvc` at the result position. -/
def countWr (d : Dest) (n lat : Nat) : List Wr :=
  if n = 0 then [] else [{ dest := d, mask := row (2 ^ 32 - 1), val := row n, lat := lat, port := .owner }]

/-- A named barrier of a core (R205). -/
def Core.nb (c : Core) (b : Nat) : Barrier := tget {} c.nbs b

/-- Whether a kernel has completed: no task to place and none started, queued or suspended (R452). -/
def Kernel.done (k : Kernel) : Bool := k.toPlace == [] && k.live == 0
/-- Whether the predecessor of the context's kernel has completed (R396); so it is when no such kernel runs. -/
def predOver (s : State) (k j : Nat) : Bool :=
  match s.kernels.find? fun n => n.id == (s.ctx k j).task.kern with
  | none => true
  | some n => n.pred == 0 || !s.kernels.any fun p => p.fn == n.fn && p.kid == n.pred && p.id != n.id && !p.done

/-- Whether one of the waits R5 names still holds. -/
def waitR5 (s : State) (k j : Nat) : Wait → Bool
  | .nb b q => ((s.core k).nb b).ph == q
  | .tl e n => decide (((s.ctx k j).tl e).c < n)
  | .pred => !predOver s k j
  | _ => false
/-- Whether the context waits on one of the waits R5 names. -/
def waitsR5 (s : State) (k j : Nat) : Bool := (s.ctx k j).waits.any fun w => waitR5 s k j w

/-- Whether a context counts as ready (R5, R444): a live task, not held, on none of the waits R5 names. -/
def isReady (s : State) (k j : Nat) : Bool :=
  let x := s.ctx k j
  x.life == .live && !x.held && !waitsR5 s k j

/-- The word of `ctx.stat` (R445). -/
def ctxStatWord (s : State) (k j : Nat) : Nat :=
  let c := s.core k
  let x := c.ctx j
  b2n (x.life == .live || x.life == .dormant || (x.life == .ending && x.endK != 2)) + b2n (isReady s k j) * 2 + b2n (x.life == .dormant) * 4 + b2n (x.held || x.holdP) * 8 +
  b2n x.hand.on * 16 + b2n (c.resident j) * 32 + b2n (c.prim == some j) * 64 + b2n x.wakeP.isSome * 128 +
  x.ctl.prio.toNat * 2 ^ 8 + x.ctl.pc.toNat * 2 ^ 14

/-- The word of `nb.stat` (Table 08-1). -/
def Barrier.word (b : Barrier) (sel : Bool) : Nat :=
  if sel then b.dlv.toNat + b.ldlv.toNat * 2 ^ 32
  else b.pend.toNat + b.arr * 2 ^ 32 + b.cnt * 2 ^ 42 + b2n b.ph * 2 ^ 52 + b2n b.err * 2 ^ 53 + b2n b.ovr * 2 ^ 54 +
    b2n b.lerr * 2 ^ 55 + b2n b.lovr * 2 ^ 56

/-- The word of `tl.read` (R217). -/
def Timeline.word (t : Timeline) (sel : Nat) : Nat :=
  if sel = 0 then t.c else if sel = 1 then t.i else if sel = 2 then b2n t.err + 2 * b2n t.halt else t.f

/-- The word of `h.stat` (R219). -/
def Ring.word (r : Ring) (sel : Bool) : Nat :=
  if sel then r.res.toNat + r.base * 2 ^ 32 + r.n * 2 ^ 45 + b2n (r.held != 0) * 2 ^ 59 + b2n (r.bad != []) * 2 ^ 60
  else r.con.toNat + r.fil.toNat * 2 ^ 32

/-- A context register (Table 05-4) as `rdc` reads it. -/
def rdcWord (s : State) (n : Nat) : Nat :=
  let x := s.ix
  let pv (d e : Dest) (valid : Bool) : Nat :=
    let v := if taint x e = 0 then b2n valid else s.free (201000 + n) % 2
    s.rd 2 d + s.rd 2 e * 2 ^ 16 + v * 2 ^ 32
  if n = 0 then s.rd 2 .cst
  else if n = 1 then s.rd 2 .satc
  else if n = 2 then s.rd 2 .rsvc
  else if n = 3 then s.ij + s.ik * 8
  else if n = 4 then x.task.tcoord.toNat
  else if n = 5 then x.ctl.prio.toNat + x.task.lprio.toNat * 64
  else if n = 6 then pv .kp .kpP x.ctl.kpP.isSome
  else if 8 ≤ n ∧ n ≤ 0xD then pv (.lc (n - 7)) (.lcP (n - 7)) (tget none x.ctl.lcP (n - 7)).isSome
  else if 0x10 ≤ n ∧ n ≤ 0x15 then (sextW 32 (s.rd 2 (.lx (n - 0xF)))).toNat
  else if n = 0x18 then s.fmtW
  else if n = 0x19 then s.rd 2 .rwp
  else if n = 0x20 then s.now
  else x.ctl.runCnt

end Sys2Proof.Machine
end

