-- ==== Sys2Proof/Machine/Mem.lean ====
section
/-! DEFINITION. The memory system: the stacks in front of LPDDR 6, host and peer memory, the L1 data caches, address
translation, error records and the machine-error log (R177 to R183, R428, R432 to R438, R453). -/

namespace Sys2Proof.Machine

/-! ### The stacks and LPDDR 6 (R180, R181) -/

/-- The slice a partition gives an address (R181). -/
def State.sliceOf (s : State) (part pa : Nat) : Nat :=
  let idx := (List.range 6).foldl (fun a j => a + b2n (parity 52 ((pa % 2 ^ 52) &&& s.reg (rSlm part j))) * 2 ^ j) 0
  s.reg (rSlmap part idx) % 256

/-- Key of a quarantined way (R438). -/
def quarKey (slice set way : Nat) : Nat := slice * 32768 + set * 32 + way
def State.quarantined (s : State) (slice set way : Nat) : Bool := tget false s.quar (quarKey slice set way)

/-- Key of a line of the stacks: the slice that caches it, and its number. -/
def lineKey (slice ln : Nat) : Nat := slice * 2 ^ 44 + ln
/-- The line a key names. -/
def keyLine (key : Nat) : Nat := key % 2 ^ 44
/-- The line of the stacks that an access of a partition finds (R181). -/
def State.lineAt (s : State) (part pa : Nat) : Option StackLine := tfind s.stack (lineKey (s.sliceOf part pa) (pa / 256))

/-- Whether a slice is ready (R20, R459). -/
def State.sliceReady (s : State) (sl : Nat) : Bool := bitAt (s.reg (rSysReady 2)) sl
/-- Whether the channel behind an address is ready; which one it is the spec does not say (log entry 88, DESIGN CHOICE). -/
def State.chanReady (s : State) (pa : Nat) : Bool :=
  let have_ := s.reg (rLayout 0) % 2 ^ 48
  let rdy := s.reg (rSysReady 0) % 2 ^ 48
  have_ &&& rdy == have_ || bitAt rdy (Config.channelOf (pa / 64) % 48)
/-- The step meets a unit that is not ready: it does not take place (R459). -/
def State.hold (s : State) : State := { s with held := true }

/-- Whether word w of a line holds valid data: written, or fetched. -/
def StackLine.has (l : StackLine) (w : Nat) : Bool := bitAt l.wrote.toNat w || bitAt l.got.toNat w

/-- One byte as a line, if there is one, or else the memory gives it. -/
def lineByte (o : Option StackLine) (m : Memory) (pa : Nat) : Byte :=
  match o with
  | some l => if l.has (pa % 256 / 4) then BitVec.ofNat 8 (bitsAt l.data.toNat (8 * (pa % 256)) 8) else m.read pa
  | none => m.read pa
/-- n bytes within one line. -/
def lineRead (o : Option StackLine) (m : Memory) (pa : Nat) : Nat → Nat
  | 0 => 0
  | n + 1 => (lineByte o m pa).toNat + 256 * lineRead o m (pa + 1) n

/-- One byte of LPDDR 6 as an access through a partition reads it: the valid word of its line, or the memory (R180).  An
address of or above 744 GiB reads as any other (log entry 74, DESIGN CHOICE). -/
def State.lpByte (s : State) (part pa : Nat) : Byte := lineByte (s.lineAt part pa) s.dram pa

/-- n bytes of LPDDR 6 as a number (R1), line by line; the first argument bounds the lines. -/
def State.lpReadF (s : State) (part : Nat) : Nat → Nat → Nat → Nat
  | 0, _, _ => 0
  | f + 1, pa, n =>
    if n = 0 then 0
    else
      let k := min n (256 - pa % 256)
      lineRead (s.lineAt part pa) s.dram pa k + 2 ^ (8 * k) * s.lpReadF part f (pa + k) (n - k)
def State.lpRead (s : State) (part pa n : Nat) : Nat := s.lpReadF part (n / 256 + 2) pa n

/-- Whether a line is poisoned (R436). -/
def State.poisoned (s : State) (part pa : Nat) : Bool :=
  match s.lineAt part pa with
  | some l => l.poison
  | none => false

/-- Whether reading one byte meets uncorrectable data: a poisoned line, or an uncorrectable unit of LPDDR 6 whose word
the stacks do not hold (R435, R436).  A slice or channel that is not ready finds nothing: the access waits for it (R459). -/
def State.badByte (s : State) (part pa : Nat) : Bool :=
  let unit := s.chanReady pa && tget false s.badUnits (pa / 64)
  s.sliceReady (s.sliceOf part pa) && match s.lineAt part pa with
  | some l => l.poison || (!l.has (pa % 256 / 4) && unit)
  | none => unit

/-- Whether any of n bytes does. -/
def State.lpBad (s : State) (part pa n : Nat) : Bool := (List.range n).any fun i => s.badByte part (pa + i)

/-- Whether a write of n bytes does: it meets a poisoned line, or covers part of a word that would have to be fetched from an
uncorrectable unit (R180, R435, R436). -/
def State.lpWBad (s : State) (part pa n : Nat) : Bool :=
  (List.range n).any fun i =>
    let w := (pa + i) / 4
    (s.sliceReady (s.sliceOf part (pa + i)) && s.poisoned part (pa + i)) || (!(decide (pa ≤ 4 * w) && decide (4 * w + 4 ≤ pa + n)) && s.badByte part (pa + i))

/-- Writing the written words of a line back to LPDDR 6 (R180: a write-back sends only the written words); a write that
covers a whole 64-byte unit encodes it afresh (R435).  It waits for the channels it writes to (R459). -/
def State.wbLine (s : State) (key : Nat) (l : StackLine) : State :=
  let ln := keyLine key
  let waits := (List.range 4).any fun q => bitsAt l.wrote.toNat (16 * q) 16 != 0 && !s.chanReady (256 * ln + 64 * q)
  let s := if waits then s.hold else s
  let m := (List.range 64).foldl (fun (m : Memory) w =>
    if bitAt l.wrote.toNat w then m.writeN (256 * ln + 4 * w) (bitsAt l.data.toNat (32 * w) 32) 4 else m) s.dram
  let b := (List.range 4).foldl (fun (b : Tab Bool) q =>
    if bitsAt l.wrote.toNat (16 * q) 16 = 2 ^ 16 - 1 then tdel b (4 * ln + q) else b) s.badUnits
  { s with dram := m, badUnits := b }

/-- Writing back and removing the line of a set that holds a way. -/
def State.dropWay (s : State) (slice set way : Nat) : State :=
  match s.stack.find? fun e => e.2.slice == slice && e.1 % 1024 == set && e.2.way == way with
  | some e =>
    let s := if e.2.dirty.toNat = 0 ∨ e.2.poison then s else s.wbLine e.1 e.2
    { s with stack := tdel s.stack e.1 }
  | none => s

/-- The way a new line takes: the lowest allocatable way that is free, else the lowest allocatable one whose line is not
poisoned, which is written back and removed (log entry 12, DESIGN CHOICE).  Where all are poisoned the access waits until one of
them has been dealt with (R436). -/
def State.allocWay (s : State) (slice set : Nat) : State × Nat :=
  let ok := (List.range 24).filter fun w => !s.quarantined slice set w
  let at_ (w : Nat) : Option StackLine :=
    (s.stack.find? fun e => e.2.slice == slice && e.1 % 1024 == set && e.2.way == w).map (·.2)
  match ok.find? fun w => (at_ w).isNone with
  | some w => (s, w)
  | none => match ok.find? fun w => !((at_ w).map (·.poison)).getD false with
    | some w => (s.dropWay slice set w, w)
    | none => (s.hold, 0)
/-- The line an access finds, or a new one that it allocates (R180). -/
def State.lineFor (s : State) (part pa : Nat) : State × StackLine :=
  match s.lineAt part pa with
  | some l => (s, l)
  | none =>
    let sl := s.sliceOf part pa
    let r := s.allocWay sl (pa / 256 % 1024)
    (r.1, { slice := sl, way := r.2 })

/-- The words of sector q of a line that it lacks, fetched from LPDDR 6 and merged (R180). -/
def StackLine.fill (l : StackLine) (m : Memory) (ln q : Nat) : StackLine :=
  let ws := (List.range 16).filter fun i => !l.has (16 * q + i)
  let put (d i : Nat) : Nat :=
    let o := 32 * (16 * q + i)
    d - (bitsAt d o 32) <<< o + (m.readN (256 * ln + 4 * (16 * q + i)) 4) <<< o
  { l with data := BitVec.ofNat 2048 (ws.foldl put l.data.toNat), valid := l.valid ||| BitVec.ofNat 4 (2 ^ q),
           got := l.got ||| BitVec.ofNat 64 ((ws.foldl (fun a i => a + 2 ^ i) 0) <<< (16 * q)) }

/-- What a read of n bytes within one line does to the stacks (R180): the line is allocated, and each sector that lacks a word
it reads is fetched and merged; an uncorrectable unit is not (R435). -/
def State.lpTouchLine (s : State) (part pa n : Nat) : State :=
  let o := pa % 256
  let r := s.lineFor part pa
  let lacks (q : Nat) : Bool := (List.range 16).any fun i =>
    let w := 16 * q + i
    decide (o < 4 * w + 4) && decide (4 * w < o + n) && !r.2.has w
  let qs := (List.range 4).filter lacks
  if !s.sliceReady (s.sliceOf part pa) then s.hold
  else if r.2.poison ∨ qs = [] then s
  else if qs.any fun q => !s.chanReady (pa / 256 * 256 + 64 * q) then s.hold
  else
    let good := qs.filter fun q => !tget false s.badUnits (pa / 256 * 4 + q)
    let l := good.foldl (fun (l : StackLine) q => l.fill s.dram (pa / 256) q) r.2
    if good = [] then s else { r.1 with stack := tput r.1.stack (lineKey (s.sliceOf part pa) (pa / 256)) l }
/-- The same of any n bytes; the first argument bounds the lines. -/
def State.lpTouchF (s : State) (part : Nat) : Nat → Nat → Nat → State
  | 0, _, _ => s
  | f + 1, pa, n =>
    if n = 0 then s
    else
      let k := min n (256 - pa % 256)
      (s.lpTouchLine part pa k).lpTouchF part f (pa + k) (n - k)
def State.lpTouch (s : State) (part pa n : Nat) : State := s.lpTouchF part (n / 256 + 2) pa n
/-- A read of n bytes of LPDDR 6: what it does to the stacks, and the value. -/
def State.lpLoad (s : State) (part pa n : Nat) : State × Nat := (s.lpTouch part pa n, s.lpRead part pa n)

/-- Whether an address lies in the protected code region, whose images no store reaches (R454). -/
def State.inImage (s : State) (pa : Nat) : Bool :=
  (decide (65536 * s.codeBase ≤ pa) && decide (pa < 65536 * (s.codeBase + s.codeSize))) ||
  s.images.any fun i => decide (i.base ≤ pa) && decide (pa < i.base + i.len)

/-- A write of n bytes within one line (R180): the line is allocated without fetching; the sector of a word that is written
in part and not yet valid is fetched first; the words are marked written, the sectors valid and dirty, and the owner
recorded.  A write that meets uncorrectable data is dropped (R435, R436). -/
def State.lpPut (s : State) (part pa n v : Nat) (own : Nat × Nat) : State :=
  let ln := pa / 256
  let o := pa % 256
  let ws := (List.range 64).filter fun w => decide (o < 4 * w + 4) && decide (4 * w < o + n)
  let r := s.lineFor part pa
  let short (w : Nat) : Bool := !r.2.has w && !(decide (o ≤ 4 * w) && decide (4 * w + 4 ≤ o + n))
  let qs := (List.range 4).filter fun q => ws.any fun w => w / 16 == q && short w
  if !s.sliceReady (s.sliceOf part pa) then s.hold
  else if r.2.poison then s
  else if qs.any fun q => !s.chanReady (256 * ln + 64 * q) then s.hold
  else if qs.any fun q => tget false s.badUnits (4 * ln + q) then s
  else
    let l := qs.foldl (fun (l : StackLine) q => l.fill s.dram ln q) r.2
    let d := l.data.toNat
    let m := onesAt (8 * o) (8 * n)
    let wm := ws.foldl (fun a w => a ||| 2 ^ w) 0
    let sm := (List.range 4).foldl (fun a q => if bitsAt wm (16 * q) 16 = 0 then a else a ||| 2 ^ q) 0
    { r.1 with stack := tput r.1.stack (lineKey (s.sliceOf part pa) ln) { l with
        data := BitVec.ofNat 2048 ((d - (d &&& m)) + ((v % 2 ^ (8 * n)) <<< (8 * o))), wrote := l.wrote ||| BitVec.ofNat 64 wm,
        valid := l.valid ||| BitVec.ofNat 4 sm, dirty := l.dirty ||| BitVec.ofNat 4 sm, owner := own } }

/-- A write of n bytes at any place, line by line; the first argument bounds the lines.  `dev` writes into the protected code
region, as only the device's installer does. -/
def State.lpWriteF (s : State) (part : Nat) (own : Nat × Nat) (dev : Bool) : Nat → Nat → Nat → Nat → State
  | 0, _, _, _ => s
  | f + 1, pa, n, v =>
    if n = 0 then s
    else
      let k := min n (256 - pa % 256)
      let s' := if !dev && s.inImage pa then s else s.lpPut part pa k v own
      s'.lpWriteF part own dev f (pa + k) (n - k) (v / 2 ^ (8 * k))

/-- The owner tag of a write by no compute context: none, so that R436 terminates no one (log entry 89, DESIGN CHOICE). -/
def noOwner : Nat × Nat := (128, 0)
/-- A write to LPDDR 6 through the stacks. -/
def State.lpWrite (s : State) (part pa n v : Nat) (own : Nat × Nat := noOwner) : State :=
  s.lpWriteF part own false (n / 256 + 2) pa n v
/-- A write of the installer (R454). -/
def State.lpInstall (s : State) (pa n v : Nat) : State := s.lpWriteF 0 noOwner true (n / 256 + 2) pa n v

/-- An address field ⟨51:12⟩ of a register. -/
def State.base12 (s : State) (r : Nat) : Nat := bitsAt (s.reg r) 12 40 * 4096
/-- Folios of the pool, and entries of a shelf slot (Table 15-1). -/
def State.nfol (s : State) : Nat := s.reg rBndNf % 2 ^ 28
def State.shelfLen (s : State) : Nat := 64 * 2 ^ (s.reg rBndSl % 16)
/-- The entry of a bindery table that a byte lies in: its address and bytes (R355). -/
def State.tableEnt (s : State) (pa : Nat) : Option (Nat × Nat) :=
  let inOf (b n e : Nat) : Option (Nat × Nat) :=
    if decide (b ≤ pa) && decide (pa < b + n) then some (b + (pa - b) / e * e, e) else none
  ((inOf (s.base12 rBndFt) (8 * s.nfol) 8).or (inOf (s.base12 rBndSt) (2 ^ 24) 16)).or
    (inOf (s.base12 rBndSl) (2 ^ 18 * s.shelfLen) 4)
/-- Software has written n bytes: while the bindery's tables are in use, the entries it touched are unpredictable (R355). -/
def State.tableSoft (s : State) (part pa n : Nat) (own : Nat × Nat) : State :=
  if !bitAt (s.reg rBndCtl) 0 then s
  else (((List.range n).filterMap fun i => s.tableEnt (pa + i)).eraseDups).foldl
    (fun t e => t.lpWrite part e.1 e.2 (s.free (2 ^ 52 + e.1)) own) s
/-- A write by software. -/
def State.lpSoft (s : State) (part pa n v : Nat) (own : Nat × Nat := noOwner) : State :=
  (s.lpWrite part pa n v own).tableSoft part pa n own

/-- The dirty sectors of a line are written back and the line is invalidated (R179). -/
def State.lpClean (s : State) (part pa : Nat) : State :=
  let key := lineKey (s.sliceOf part pa) (pa / 256)
  match tfind s.stack key with
  | some l => if l.poison then s else { s.wbLine key l with stack := tdel s.stack key }
  | none => s

/-! ### Host and peer memory (R453) -/

/-- Whether a peer device can be reached: a route to it, and its port ready. -/
def State.peerOk (s : State) (dev : Nat) : Bool :=
  let p := bitsAt (s.reg rZlRoute) (4 * dev) 4
  p < 8 && bitAt (s.reg (rSysReady 0)) (48 + p)
/-- Whether the host can be reached: the PCIe controller is ready. -/
def State.hostOk (s : State) : Bool := bitAt (s.reg (rSysReady 0)) 56

/-- n bytes behind a translation: LPDDR 6, host memory or a peer's (R432, R453). -/
def State.physRead (s : State) (tgt part pa n : Nat) : Nat :=
  if tgt = 0 then s.lpRead part pa n else if tgt = 1 then s.host.readN pa n else s.peer.readN pa n
/-- What such a read does to the stacks. -/
def State.physTouch (s : State) (tgt part pa n : Nat) : State := if tgt = 0 then s.lpTouch part pa n else s

/-- Whether the access comes back as uncorrectable data (R435, R453).  An access to host memory while the PCIe controller is
not ready is answered so too, as one to a peer is (log entry 58, DESIGN CHOICE). -/
def State.physBad (s : State) (tgt part pa n : Nat) : Bool :=
  if tgt = 0 then s.lpBad part pa n else if tgt = 1 then !s.hostOk else !s.peerOk (bitsAt pa 48 4)

/-- Whether a write comes back so. -/
def State.physWBad (s : State) (tgt part pa n : Nat) : Bool :=
  if tgt = 0 then s.lpWBad part pa n else if tgt = 1 then !s.hostOk else !s.peerOk (bitsAt pa 48 4)

/-- A write behind a translation. -/
def State.physWrite (s : State) (tgt part pa n v : Nat) (own : Nat × Nat := noOwner) : State :=
  if tgt = 0 then s.lpSoft part pa n v own
  else if tgt = 1 then { s with host := s.host.writeN pa v n }
  else { s with peer := s.peer.writeN pa v n }

/-- A message that terminates a context with UE (R435, R436). -/
def State.ueMsg (s : State) (k j pa : Nat) : State := { s with messages := s.messages ++ [(k, j, pa)] }

/-! ### The L1 data cache (R178, R179, R202, R218) -/

/-- Words of a 128-byte line whose bit is set in the mask, as a bit mask. -/
def wordBits (m : Nat) : Nat := laneMask 32 ((List.range 32).map fun w => bitAt m w)

/-- Writing back the written words of a line, which stays valid and clean; on a poisoned line the context that last wrote
it is terminated (R436). -/
def State.l1Flush (s : State) (k ln : Nat) : State :=
  match tfind (s.core k).l1 ln with
  | none => s
  | some l =>
    if l.wrote = 0 then s
    else
      let s := if s.poisoned l.part (128 * ln) then s.ueMsg k l.writer (128 * ln)
        else (List.range 32).foldl (fun s w => if bitAt l.wrote.toNat w then
          s.lpSoft l.part (128 * ln + 4 * w) 4 (bitsAt l.data.toNat (32 * w) 32) (k, l.writer) else s) s
      s.modCore k fun c => { c with l1 := tput c.l1 ln { l with wrote := 0, got := l.got ||| l.wrote, seen := 0 } }

/-- Write-back and invalidation of one line (R179, and an eviction). -/
def State.l1Evict (s : State) (k ln : Nat) : State :=
  (s.l1Flush k ln).modCore k fun c => { c with l1 := tdel c.l1 ln }

/-- Room for a line in its set of 12 ways (R178): where they are all taken, one of them, chosen without rule, is evicted. -/
def State.l1Room (s : State) (k ln : Nat) : State :=
  let set := (s.core k).l1.filter fun e => e.1 % 1024 == ln % 1024
  if (tfind (s.core k).l1 ln).isSome ∨ set.length < 12 then s
  else match set[s.free (870000 + ln) % 12]? with
    | some e => s.l1Evict k e.1
    | none => s

/-- A row of LPDDR 6 through a core's L1 for one of its contexts: unwritten words not yet fetched are fetched and merged
(R178); the words other contexts wrote are observed (R193). -/
def State.l1Read (s : State) (k j part pa va : Nat) : State × Nat :=
  let ln := pa / 128
  let s := s.l1Room k ln
  let l := (tfind (s.core k).l1 ln).getD { va := va / 128 * 128, part := part }
  let have_ := wordBits (l.got ||| l.wrote).toNat
  let f := s.lpRead part (128 * ln) 128
  let s := if (l.got ||| l.wrote) = ~~~(0 : BitVec 32) then s else s.lpTouch part (128 * ln) 128
  let d := (l.data.toNat &&& have_) ||| (f &&& (2 ^ 1024 - 1 - have_))
  let seen := if l.wrote = 0 then l.seen else l.seen ||| BitVec.ofNat 8 (2 ^ j)
  (s.modCore k fun c => { c with l1 := tput c.l1 ln { l with data := row d, got := l.got ||| ~~~l.wrote, seen := seen } }, d)

/-- Whether that read would meet uncorrectable data. -/
def State.l1Bad (s : State) (k part pa : Nat) : Bool :=
  match tfind (s.core k).l1 (pa / 128) with
  | some l => (List.range 32).any fun w =>
      !bitAt (l.got ||| l.wrote).toNat w && s.lpBad part (pa / 128 * 128 + 4 * w) 4
  | none => s.lpBad part (pa / 128 * 128) 128

/-- A store into L1: allocated without fetching, the written words marked, the last writer recorded (R178).  Words that
another context wrote before stay earlier accesses of it (R193). -/
def State.l1Write (s : State) (k j fn part pa n v va : Nat) : State :=
  let ln := pa / 128
  let o := pa % 128
  let s := s.l1Room k ln
  let l := (tfind (s.core k).l1 ln).getD { va := va / 128 * 128 }
  let m := row (onesAt (8 * o) (8 * n))
  let wm := BitVec.ofNat 32 (onesAt (o / 4) (n / 4))
  let seen := if l.wrote = 0 ∨ l.writer = j then l.seen else l.seen ||| BitVec.ofNat 8 (2 ^ l.writer)
  let l' := { l with data := blend m (row (v <<< (8 * o))) l.data, wrote := l.wrote ||| wm, writer := j, part := part, fn := fn,
                     seen := seen }
  s.modCore k fun c => { c with l1 := tput c.l1 ln l' }

/-- Write-back of every line for which the test holds. -/
def State.l1FlushIf (s : State) (k : Nat) (f : L1Line → Bool) : State :=
  ((s.core k).l1.filter fun e => f e.2).foldl (fun s e => s.l1Flush k e.1) s

/-- Whether a line holds written words that are earlier accesses of a context (R193, R202). -/
def L1Line.owed (l : L1Line) (j : Nat) : Bool := l.wrote != 0 && (l.writer == j || bitAt l.seen.toNat j)
/-- The write-backs of a release: every dirty word that the context wrote, or that it observed (R193, R202). -/
def State.l1Release (s : State) (k j : Nat) : State := s.l1FlushIf k fun l => l.owed j
/-- A context synchronises with others of its core: the written words then in L1 count as observed by it (R193, R199, R208;
log entry 90, DESIGN CHOICE). -/
def State.l1Observe (s : State) (k j : Nat) : State :=
  s.modCore k fun c => { c with l1 := c.l1.map fun e =>
    (e.1, if e.2.wrote = 0 then e.2 else { e.2 with seen := e.2.seen ||| BitVec.ofNat 8 (2 ^ j) }) }

/-- The discard of an acquire: every word that is not a written word (R202), of the lines for which the test holds. -/
def State.l1Discard (s : State) (k : Nat) (f : L1Line → Bool) : State :=
  let keep (l : Tab L1Line) : Tab L1Line :=
    (l.map fun e => (e.1, if f e.2 then { e.2 with got := 0 } else e.2)).filter fun e => !(f e.2 && e.2.wrote == 0)
  s.modCore k fun c => { c with l1 := keep c.l1 }

/-! ### Translation (R432 to R434) -/

/-- What a translation gives. -/
inductive Xr where
  | ok (tgt part pa : Nat)
  | fault (kind level : Nat)
  | miss
  deriving DecidableEq, Repr

/-- Bits of a page by size class. -/
def pageBits (size : Nat) : Nat := if size = 0 then 12 else if size = 1 then 16 else 21

/-- Whether a leaf of a level is malformed (kind 5). -/
def leafBad (level e : Nat) : Bool :=
  level < 2 || bitAt e 11 || bitsAt e 52 12 != 0 || bitsAt e 6 2 == 3 ||
  (level == 2 && (bitAt e 5 || bitsAt e 12 9 != 0)) || (level == 3 && bitAt e 5 && bitsAt e 12 4 != 0)

/-- The byte of the retirement map that holds the bit of a physical address (R437). -/
def State.retAt (s : State) (pa : Nat) : Nat := s.reg rRetBase / 4096 * 4096 % 2 ^ 52 + pa % 2 ^ 52 / 65536 / 8
/-- The retirement map's bit for a physical address. -/
def State.retired (s : State) (pa : Nat) : Bool :=
  let p := pa % 2 ^ 52 / 65536
  bitAt (s.lpByte 0 (s.retAt pa)).toNat (p % 8)

/-- The retired mask of a 2 MiB page: bit i for its i-th 64 KiB. -/
def State.retMask (s : State) (pa : Nat) : Nat :=
  ofBools ((List.range 32).map fun i => s.retired (pa + 65536 * i))

/-- The partition a walk under a function's root reads through (R181). -/
def State.walkPart (s : State) (fn : Nat) : Nat := if fn = 0 then 0 else s.reg (rVfPart fn) % 8
/-- What is wrong with an entry of a level, if it cannot be followed or used (R433). -/
def linkFault (level e : Nat) : Option Nat :=
  if !bitAt e 0 then some 1
  else if bitAt e 1 then (if leafBad level e then some 5 else none)
  else if level = 3 ∨ bitsAt e 2 10 ≠ 0 ∨ bitsAt e 52 12 ≠ 0 then some 5 else none
/-- The base a table entry or a leaf names. -/
def entBase (e : Nat) : Nat := bitsAt e 12 40 * 4096

/-- What a walk found, and the places it read: (partition, address, bytes). -/
structure Walked where
  reads : List (Nat × Nat × Nat)
  res : Except (Nat × Nat) TlbEnt

/-- A leaf of level 3 (R432): of a 64 KiB page all 16 entries are read, and one in uncorrectable data fails the walk. -/
def State.walkLeaf (s : State) (part fn va tbl e : Nat) : Walked :=
  let i0 := bitsAt va 16 5 * 16
  if bitAt e 5 then
    if s.lpBad part (tbl + 8 * i0) 128 then { reads := [(part, tbl + 8 * i0, 128)], res := .error (8, 3) }
    else
      let all := (List.range 16).map fun i => s.lpRead part (tbl + 8 * (i0 + i)) 8
      let same := all.all (· == e)
      let ent : TlbEnt := { fn := fn, size := 1, page := va / 2 ^ 16, ent := BitVec.ofNat 64 e,
                            alts := if same then [] else all.map (BitVec.ofNat 64) }
      let dead := same && bitsAt e 6 2 == 0 && s.retired (entBase e)
      { reads := [(part, tbl + 8 * i0, 128), (0, s.retAt (entBase e), 1)], res := if dead then .error (6, 3) else .ok ent }
  else
    let ent : TlbEnt := { fn := fn, size := 0, page := va / 2 ^ 12, ent := BitVec.ofNat 64 e }
    let dead := bitsAt e 6 2 == 0 && s.retired (entBase e)
    { reads := [(0, s.retAt (entBase e), 1)], res := if dead then .error (6, 3) else .ok ent }

/-- The index of a virtual address at a level (R432). -/
def walkIndex (level va : Nat) : Nat :=
  if level = 0 then bitsAt va 39 13 else if level = 1 then bitsAt va 30 9 else if level = 2 then bitsAt va 21 9 else bitsAt va 12 9

/-- A walk from a table of a level on, the first argument bounding the levels left (R432, R433). -/
def State.walkFrom (s : State) (part fn va : Nat) : Nat → Nat → Nat → Walked
  | 0, level, _ => { reads := [], res := .error (5, level) }
  | f + 1, level, tbl =>
    let a := tbl + 8 * walkIndex level va
    let here := (part, a, 8)
    if s.lpBad part a 8 then { reads := [here], res := .error (8, level) }
    else
      let e := s.lpRead part a 8
      match linkFault level e with
      | some k => { reads := [here], res := .error (k, level) }
      | none =>
        if !bitAt e 1 then let w := s.walkFrom part fn va f (level + 1) (entBase e); { w with reads := here :: w.reads }
        else if level = 2 then
          { reads := here :: (if bitsAt e 6 2 = 0 then [(0, s.retAt (entBase e), 4)] else []),
            res := .ok { fn := fn, size := 2, page := va / 2 ^ 21, ent := BitVec.ofNat 64 e,
                         ret := BitVec.ofNat 32 (if bitsAt e 6 2 = 0 then s.retMask (entBase e) else 0) } }
        else let w := s.walkLeaf part fn va tbl e; { w with reads := here :: w.reads }

/-- A walk of a virtual address under a function's root (R432). -/
def State.walkAll (s : State) (fn va : Nat) : Walked :=
  s.walkFrom (s.walkPart fn) fn va 4 0 (bitsAt (s.reg (rXlRoot fn)) 16 36 * 65536)
/-- The cached entry it gives, or the fault's kind and level. -/
def State.walk (s : State) (fn va : Nat) : Except (Nat × Nat) TlbEnt := (s.walkAll fn va).res
/-- What it does to the stacks. -/
def State.walkTouch (s : State) (fn va : Nat) : State :=
  (s.walkAll fn va).reads.foldl (fun s p => s.lpTouch p.1 p.2.1 p.2.2) s

/-- An access through a cached entry: permissions, partition and retired mask (Table 18-7), lowest kind first; of a
64 KiB page whose entries differ, one of the 16, chosen without rule (R432). -/
def State.access (s : State) (t : TlbEnt) (va : Nat) (write fetch priv atom : Bool) : Xr :=
  let e := if t.alts = [] then t.ent.toNat else (t.alts.getD (s.free (600000 + va) % 16) 0).toNat
  let level := if t.size = 2 then 2 else 3
  let tgt := bitsAt e 6 2
  let part := bitsAt e 8 3
  let pb := if t.alts = [] then pageBits t.size else if bitAt e 5 then 16 else 12
  let pa := (bitsAt e 12 40 * 4096) / 2 ^ pb * 2 ^ pb + va % 2 ^ pb
  if t.alts ≠ [] ∧ !bitAt e 0 then .fault 1 3
  else if write ∧ !bitAt e 2 then .fault 2 level
  else if fetch ∧ !bitAt e 3 then .fault 3 level
  else if bitAt e 4 ∧ !priv then .fault 4 level
  else if t.alts ≠ [] ∧ (!bitAt e 1 ∨ leafBad 3 e) then .fault 5 3
  else if (t.size = 2 ∧ bitAt t.ret.toNat (bitsAt va 16 5)) ∨ (t.alts ≠ [] ∧ tgt = 0 ∧ s.retired pa) then .fault 6 level
  else if tgt = 0 ∧ t.fn ≠ 0 ∧ part ≠ s.reg (rVfPart t.fn) % 8 then .fault 9 level
  else if atom ∧ tgt = 1 then .fault 10 level
  else if tgt = 0 ∧ s.reg (rSlcfg part) % 4 = 0 then .fault 11 level
  else .ok tgt part pa

/-- A lookup in a cluster's TLB. -/
def Cluster.tlbFind (c : Cluster) (fn va : Nat) : Option TlbEnt :=
  c.tlb.find? fun t => t.fn == fn && t.page == va / 2 ^ pageBits t.size

/-- Filling the TLB: an entry for the page in place of an older one, 4096 at most (log entry 13, DESIGN CHOICE). -/
def State.tlbFill (s : State) (q : Nat) (t : TlbEnt) : State :=
  let c := s.cluster q
  s.setCluster q { c with tlb := (t :: c.tlb.filter fun u => !(u.fn == t.fn && u.size == t.size && u.page == t.page)).take 4096 }

/-- A synchronous translation of a context (R177): a hit, a fault found by the context's own walk, or a miss. -/
def State.xlate (s : State) (k j va : Nat) (write fetch atom : Bool) : Xr :=
  let q := s.cluster (clusterOf k)
  let fn := s.fnOf k j
  match q.tlbFind fn va with
  | some t => s.access t va write fetch (s.privOf k j) atom
  | none =>
    match q.walks.find? fun w => w.core == k && w.ctx == j && w.fn == fn && w.page == va / 4096 with
    | some { fault := some f, .. } => .fault f.1 f.2
    | _ => .miss

/-- Whether a walk is in flight for a page. -/
def Walk.busy (w : Walk) (fn page : Nat) : Bool := w.fn == fn && w.page == page && w.fault.isNone
/-- The pages being walked: one walk serves all that wait for its page (R434). -/
def Cluster.walking (c : Cluster) : List (Nat × Nat) :=
  c.walks.foldl (fun l w => if w.fault.isSome || l.contains (w.fn, w.page) then l else l ++ [(w.fn, w.page)]) []

/-- A context waits for a page: for the walk in flight, or for a new one, 16 at most (R434). -/
def State.startWalk (s : State) (k j page : Nat) : State :=
  let q := clusterOf k
  let c := s.cluster q
  let fn := s.fnOf k j
  let mine := c.walks.any fun w => w.core == k && w.ctx == j && w.fn == fn && w.page == page
  if mine || (!c.walking.contains (fn, page) && decide (16 ≤ c.walking.length)) then s
  else s.setCluster q { c with walks := c.walks ++ [{ core := k, ctx := j, fn := fn, page := page }] }

/-- The walk of a page ends: its entry is cached, or its fault waits for each context that waited for it (R434). -/
def State.walkEnd (s : State) (q fn page : Nat) : State :=
  let r := s.walk fn (page * 4096)
  let s := s.walkTouch fn (page * 4096)
  let c := s.cluster q
  match r with
  | .ok t => (s.setCluster q { c with walks := c.walks.filter fun w => !w.busy fn page }).tlbFill q t
  | .error e => s.setCluster q { c with walks := c.walks.map fun w => if w.busy fn page then { w with fault := some e } else w }
/-- The walk that entry i of a cluster's list waits for ends. -/
def State.walkDone (s : State) (q i : Nat) : State :=
  match (s.cluster q).walks[i]? with
  | none => s
  | some w => if w.fault.isSome then s else s.walkEnd q w.fn w.page

/-- The walks of a context are given up: their faults are never cached (R434). -/
def State.dropWalks (s : State) (k j : Nat) : State :=
  let q := clusterOf k
  let c := s.cluster q
  s.setCluster q { c with walks := c.walks.filter fun w => !(w.core == k && w.ctx == j) }

/-- A translation of an engine or of `ldg`, whose wait is not a stall of the context: a miss waits for the walk of its page in
flight, or for one of 16 busy walks to end before its own (R434). -/
def State.xlNow (s : State) (q fn va : Nat) (write : Bool) (priv atom : Bool := false) : State × Xr :=
  match (s.cluster q).tlbFind fn va with
  | some t => (s, s.access t va write false priv atom)
  | none =>
    let l := (s.cluster q).walking
    let page := va % 2 ^ 52 / 4096
    let s := if l.contains (fn, page) ∨ l.length < 16 then s
      else match l with
        | w :: _ => s.walkEnd q w.1 w.2
        | [] => s
    let r := s.walk fn va
    let s := s.walkEnd q fn page
    match r with
    | .ok t => (s, s.access t va write false priv atom)
    | .error e => (s, .fault e.1 e.2)

/-! ### Error records and logs (R428, R436, R452) -/

/-- A 64-byte record into a ring of 2^n records at base, with its counts; dropped when the ring is full or has no base
(R428). -/
def State.ringRecord (s : State) (base n rp rc rd : Nat) (v : Nat) : State :=
  let p := s.reg rp
  if base = 0 ∨ 2 ^ n ≤ (p + 2 ^ 32 - s.reg rc) % 2 ^ 32 then s.setReg rd (min (s.reg rd + 1) (2 ^ 32 - 1))
  else (s.lpWrite 0 (base + 64 * (p % 2 ^ n)) 64 v).setReg rp ((p + 1) % 2 ^ 32)

/-- A record in a context's error area (R428). -/
def State.errRecord (s : State) (k j v : Nat) : State :=
  s.ringRecord (bitsAt (s.reg (rErrA k j)) 6 46 * 64) (s.reg (rErrN k j) % 32) (rErrP k j) (rErrC k j) (rErrD k j) v

/-- A record in a function's error area (R452). -/
def State.fneRecord (s : State) (f v : Nat) : State :=
  s.ringRecord (bitsAt (s.reg (rFne f 0)) 6 46 * 64) (s.reg (rFne f 1) % 32) (rFne f 2) (rFne f 3) (rFne f 4) v

/-- An entry of a die's machine-error log (Table 18-8): newest first, 256 kept. -/
def State.logErr (s : State) (die kind unit index pa w3 : Nat) : State :=
  let d := s.die die
  s.setDie die { d with seq := d.seq + 1, log := ({
    w0 := BitVec.ofNat 64 (kind + unit * 2 ^ 8 + index % 256 * 2 ^ 16 + d.seq % 2 ^ 40 * 2 ^ 24), w1 := BitVec.ofNat 64 pa,
    w2 := BitVec.ofNat 64 s.now, w3 := BitVec.ofNat 64 w3 } :: d.log).take 256 }

/-- The die of a unit: 0 core SRAM and 1 L1 by core, 2 by stack slice, 3 by LPDDR 6 channel (Table 18-8). -/
def unitDie (unit index : Nat) : Nat := if unit < 2 then index / 64 % 2 else if unit = 2 then index / 32 % 2 else index / 24 % 2
/-- Whether the log of a die is taken by an uncorrectable line, whose entries are consecutive (R436). -/
def State.logHeld (s : State) (die : Nat) : Bool := s.stack.any fun e => e.2.poison && e.2.slice / 32 == die
/-- Bytes 11 to 13 of an error record: context, then core (Table 18-3). -/
def ctxCore (k j : Nat) : Nat := j % 8 + k % 128 * 2 ^ 8

/-! ### Retirement and quarantine (R437, R438) -/

/-- Removing the TLB entries for which the test holds, in one cluster. -/
def State.tlbDrop (s : State) (q : Nat) (f : TlbEnt → Bool) : State :=
  let c := s.cluster q
  s.setCluster q { c with tlb := c.tlb.filter fun t => !f t }

/-- The same in every cluster. -/
def State.tlbDropAll (s : State) (f : TlbEnt → Bool) : State :=
  (List.range 32).foldl (fun s q => s.tlbDrop q f) s

/-- Whether a cached entry covers a 64 KiB page of LPDDR 6. -/
def TlbEnt.covers (t : TlbEnt) (pg : Nat) : Bool :=
  let hit (e : Nat) : Bool := bitsAt e 6 2 == 0 &&
    (if t.size = 2 then bitsAt e 21 31 == pg / 32 else bitsAt e 16 36 == pg)
  (t.ent :: t.alts).any fun e => hit e.toNat

/-- A 64 KiB page is retired: its map bit is set through the stacks, then its translations are removed device-wide. -/
def State.retirePage (s : State) (pa : Nat) : State :=
  let pg := pa % 2 ^ 52 / 65536
  let b := (s.lpByte 0 (s.retAt pa)).toNat
  (s.lpWrite 0 (s.retAt pa) 1 (b ||| 2 ^ (pg % 8))).tlbDropAll fun t => t.covers pg

/-- Entries in use in a slice's quarantine table. -/
def State.quarCount (s : State) (slice : Nat) : Nat := (s.quar.filter fun e => e.1 / 32768 == slice && e.2).length

/-- Whether a way may be quarantined: the reply of `wayq` (R443): 1 already, 2 table full, 4 last way of its set. -/
def State.quarReply (s : State) (slice set way : Nat) : Nat :=
  if s.quarantined slice set way then 1
  else if ((List.range 24).filter fun w => !s.quarantined slice set w).length ≤ 1 then 4
  else if 32 ≤ s.quarCount slice then 2 else 0

/-- A way is quarantined: written back if dirty and readable, invalidated, never allocated again (R438). -/
def State.quarantine (s : State) (slice set way : Nat) : State :=
  let s := s.dropWay slice set way
  { s with quar := tset false s.quar (quarKey slice set way) true }

/-- SLICE, SET and WAY of a log entry (Table 18-8, word 3). -/
def log3 (slice set way k j : Nat) : Nat := slice % 64 + set * 2 ^ 6 + way * 2 ^ 16 + k * 2 ^ 21 + j * 2 ^ 28

end Sys2Proof.Machine
end

