-- ==== Sys2Proof/Machine/Operands.lean ====
section
/-! DEFINITION. Operand forms: immediates and registers of SC, lanes and masks of the vector slots, effective addresses
and their spaces (R124, R142, R145, R170), handle forms (R175), and the operands that decide `BANKX` (R380). -/

namespace Sys2Proof.Machine

/-! ### SC -/

/-- Operation width of an integer SC type (R45). -/
def scW : ITy → Nat
  | .i64 => 64 | .n64 => 64 | .i32 => 32 | .n32 => 32
/-- Signedness of an integer SC type (R124). -/
def scSg : ITy → Bool
  | .i64 => true | .n64 => false | .i32 => true | .n32 => false
/-- Source b of an SC operation: a register, or imm22 sign-extended to 64 bits (R35, R124). -/
def srcB (s : State) : SrcB → Nat
  | .reg n => s.rdS 2 n.toNat
  | .imm v => (sextW 22 v.toNat).toNat
/-- An integer result as its form writes it (R124): modulo 2^W, sign-extended for `.i32`, zero-extended for `.n32`. -/
def scPut (t : ITy) (v : Int) : Nat :=
  match t with
  | .i64 => wrap 64 v
  | .n64 => wrap 64 v
  | .i32 => (sextW 32 (wrap 32 v)).toNat
  | .n32 => wrap 32 v
/-- The result of a compare: into a predicate, or onto the condition queue (R46). -/
def cmpOut (d : CmpDst) (v : Bool) (lat : Nat) : Out :=
  match d with
  | .pred n => Out.wr (.p n.toNat) 1 (b2n v) lat
  | .cq => Out.act [.cqPush v lat]

/-! ### VA and VB -/

/-- The slot of a vector file, and the file's number in Table 16-1. -/
def vSlot : VFile → Nat
  | .va => 3 | .vb => 4
def vFileNo : VFile → Nat
  | .va => 0 | .vb => 1
def otherFile : VFile → VFile
  | .va => .vb | .vb => .va

/-- The write mask of n lanes: all of them for m = 0, else bits of mask m of a file (R145). -/
def activeIn (s : State) (slot : Nat) (f : VFile) (m : BitVec 4) (n : Nat) : List Bool :=
  if m = 0 then List.replicate n true
  else let k := s.rd slot (.mask f m.toNat); (List.range n).map fun i => bitAt k i
def active (s : State) (h : VH) (n : Nat) : List Bool := activeIn s (vSlot h.f) h.f h.m n
/-- The lanes that are active for certain: the bits of a mask read before its result position reach the destination or the
entry pushed and nothing else (R169), so their lanes raise nothing and count nothing (log entry 86, DEDUCED). -/
def sure (s : State) (h : VH) (n : Nat) : List Bool :=
  if h.m = 0 then List.replicate n true
  else
    let k := s.rd (vSlot h.f) (.mask h.f h.m.toNat)
    let t := (taint s.ix (.mask h.f h.m.toNat)).toNat
    (List.range n).map fun i => bitAt k i && !bitAt t i

/-- A write of lanes of width w into a vector register, active ones only (R145). -/
def vWr (f : VFile) (d w : Nat) (act : List Bool) (vals : List Nat) (lat : Nat) (port : Port := .owner) : Wr :=
  { dest := .v f d, mask := row (laneMask w act), val := row (ofLanes w vals), lat := lat, port := port }

/-! ### LD and ST (R170) -/

/-- EA := (base + 128 x off) mod 2^64, the offset a signed row count. -/
def eaOf (base : Nat) (off : BitVec 20) : Nat := wrap 64 ((base : Int) + 128 * sval 20 off.toNat)
def eaLd (s : State) (a : Mem) : Nat := eaOf (s.rdLa 6 a.base.toNat) a.off
def eaSt (s : State) (a : Mem) : Nat := eaOf (s.rdSa 7 a.base.toNat) a.off

/-- `SPRANGE` with EA (R171). -/
def spRange (slot ea : Nat) : Out := Out.mkTrap 11 slot ea
/-- `SPRANGE` of a handle cause (R171): the handle, and the offset, count or number of slots. -/
def spRangeH (slot h v : Nat) : Out := Out.mkTrap 11 slot (h + v % 2 ^ 20 * 32)
/-- `XLATE` (R433). -/
def xlTrap (slot kind level va : Nat) (write : Bool) : Out :=
  Out.mkTrap 9 slot (kind + b2n write * 16 + level * 64) (va52 va)

/-- Row of the local scratchpad an address selects (Table 07-1). -/
def spaceLocal (slot ea : Nat) : Except Out Nat :=
  if ea / 2 ^ 20 ≠ 0 then .error (spRange slot ea) else .ok (ea / 128)
/-- Core and row of the cluster window; an absent core is out of range (R171). -/
def spaceWindow (s : State) (slot ea : Nat) : Except Out (Nat × Nat) :=
  let k := clusterOf s.ik * 4 + bitsAt ea 20 2
  if ea / 2 ^ 22 ≠ 0 ∨ !s.coreOk k then .error (spRange slot ea) else .ok (k, bitsAt ea 7 13)
/-- Row of the active state bank. -/
def spaceBank (slot ea : Nat) : Except Out Nat :=
  if ea / 2 ^ 19 ≠ 0 then .error (spRange slot ea) else .ok (ea / 128)
/-- Physical place of a global address, translated at issue (R177): a fault traps, a miss waits for its walk. -/
def spaceGlobal (s : State) (slot ea : Nat) (write : Bool) (atom : Bool := false) : Except Out (Nat × Nat × Nat) :=
  if ea / 2 ^ 52 ≠ 0 then .error (xlTrap slot 7 0 ea write)
  else match s.xlate s.ik s.ij ea write false atom with
    | .ok tgt part pa => .ok (tgt, part, pa)
    | .fault k l => .error (xlTrap slot k l ea write)
    | .miss => .error (Out.wait [.walk (ea / 4096)])

/-- What an operation makes of an operand that may trap or wait. -/
def withOp {α : Type} (e : Except Out α) (f : α → Out) : Out :=
  match e with
  | .ok a => f a
  | .error o => o

/-! ### Handle forms (R174, R175) -/

/-- A named handle: an unbound one traps `SYNCERR` 7 (R174). -/
def boundRing (s : State) (slot h : Nat) : Except Out Ring :=
  let r := s.ix.ring h
  if r.bound then .ok r else .error (Out.mkTrap 13 slot 7)
/-- fil - con and N - (res - con) (R174). -/
def Ring.filled (r : Ring) : Nat := (r.fil - r.con).toNat
def Ring.freeSlots (r : Ring) : Nat := r.n - (r.res - r.con).toNat
/-- The slot index at an offset from a count. -/
def Ring.slotAt (r : Ring) (c : BitVec 32) (off : Nat) : Nat := (c.toNat + off) % r.n

/-- 16-byte chunk c of a row becomes chunk c XOR key (R241, R346). -/
def swizzle (key v : Nat) : Nat := ofLanes 128 ((List.range 8).map fun c => lane 128 v (c ^^^ key))
/-- A ring row as a reader sees it: a stream that drained it swizzled is read back by its shift (R247). -/
def ringKey (r : Ring) (rw : Nat) : Nat :=
  match r.swz with
  | some sh => (rw >>> sh) % 8
  | none => 0

/-- The data of a ring slot for a consumer form: a fault traps `DATA_FAULT` (R176). -/
def ringSlot (s : State) (slot h : Nat) (r : Ring) (off : Nat) : Except Out Nat :=
  let i := r.slotAt r.con off
  let k := tget 0 r.bad i
  if k ≠ 0 then .error (Out.mkTrap 10 slot (h + i * 2 ^ 5 + k * 2 ^ 18))
  else .ok (s.rdRow slot (r.base + i))

/-- A consumer form of one slot (R175): the offset must lie in the ring, and the slot be filled. -/
def consume (s : State) (slot h : Nat) (off : BitVec 20) : Except Out Nat := do
  let r ← boundRing s slot h
  let o := sval 20 off.toNat
  if o < 0 ∨ (r.n : Int) ≤ o then .error (spRangeH slot h off.toNat)
  else if r.filled < o.toNat + 1 then .error (Out.wait)
  else ringSlot s slot h r o.toNat

/-! ### Fences met by local accesses (R197) -/

/-- Whether a fence of the context is still outstanding. -/
def Ctx.fenced (x : Ctx) : Bool := x.posted.any fun a => a.kind == .fence
/-- A local-path access waits for it. -/
def localPath (s : State) (o : Out) : Out := if s.ix.fenced then Out.wait else o

/-! ### Bank demand of direct operands (R380) -/

/-- The registers a slot operation names directly, as (file of Table 16-1, number). -/
def operandRegs (i : Instr) (arg : List Nat) : List (Nat × Nat) :=
  let sc (l : List (BitVec 6)) : List (Nat × Nat) := l.map fun n => (3, n.toNat)
  let b (x : SrcB) : List (Nat × Nat) := match x with | .reg n => [(3, n.toNat)] | .imm _ => []
  let v (f : VFile) (l : List (BitVec 9)) : List (Nat × Nat) := l.map fun n => (vFileNo f, n.toNat)
  let vr (r : VReg) : List (Nat × Nat) := [(vFileNo r.f, r.n.toNat)]
  let dr (r : DReg) : List (Nat × Nat) := match r with | .v r => vr r | .s n => [(3, n.toNat)]
  let la (n : BitVec 5) : List (Nat × Nat) := [(4, n.toNat)]
  let sa (n : BitVec 5) : List (Nat × Nat) := [(5, n.toNat)]
  let src (a : ASrc) : List (Nat × Nat) := if a.h then [] else la a.r
  let t (n : BitVec 3) : List (Nat × Nat) := [(2, n.toNat)]
  let c (l : List (BitVec 5)) : List (Nat × Nat) := l.map fun n => (6, n.toNat)
  let cp (l : List (BitVec 5)) (r : Option (BitVec 5)) : List (Nat × Nat) := c (l ++ r.toList)
  match i with
  | .cqDepth d => sc [d]
  | .scAdd _ d a x => sc [d, a] ++ b x
  | .scSub _ d a x => sc [d, a] ++ b x
  | .scMul _ d a x => sc [d, a] ++ b x
  | .scMulh _ d a x => sc [d, a] ++ b x
  | .scDiv _ d a x => sc [d, a] ++ b x
  | .scRem _ d a x => sc [d, a] ++ b x
  | .scAnd _ d a x => sc [d, a] ++ b x
  | .scOr _ d a x => sc [d, a] ++ b x
  | .scXor _ d a x => sc [d, a] ++ b x
  | .scLop3 _ d a x y _ => sc [d, a, x, y]
  | .scShl _ d a x => sc [d, a] ++ b x
  | .scShr _ d a x => sc [d, a] ++ b x
  | .scSar _ d a x => sc [d, a] ++ b x
  | .scRot _ d a x => sc [d, a] ++ b x
  | .scMin _ d a x => sc [d, a] ++ b x
  | .scMax _ d a x => sc [d, a] ++ b x
  | .scClz _ d a => sc [d, a]
  | .scPopc _ d a => sc [d, a]
  | .scSel _ d a x _ _ => sc [d, a, x]
  | .scCmpEq _ _ a x => sc [a] ++ b x
  | .scCmpNe _ _ a x => sc [a] ++ b x
  | .scCmpLt _ _ a x => sc [a] ++ b x
  | .scCmpLe _ _ a x => sc [a] ++ b x
  | .scCmpGt _ _ a x => sc [a] ++ b x
  | .scCmpGe _ _ a x => sc [a] ++ b x
  | .li d _ => sc [d]
  | .liHi d a _ => sc [d, a]
  | .liWide d _ => sc [d]
  | .adds d a x _ => sc [d, a, x]
  | .fadd _ d a x => sc [d, a, x]
  | .fmul _ d a x => sc [d, a, x]
  | .scFma _ d a x y => sc [d, a, x, y]
  | .fcmp _ _ _ a x => sc [a, x]
  | .scCvt _ _ _ d a => sc [d, a]
  | .scMov d a => sc [a] ++ (match d with
      | .vec f n _ _ => v f [n]
      | .la n => la n
      | .sa n => sa n
      | .c n => c [n]
      | _ => [])
  | .scSpl a _ => sc [a]
  | .scFil d _ => sc [d]
  | .rdc d _ => sc [d]
  | .wrc _ a => sc [a]
  | .errRdTrap d a => sc [d, a]
  | .errRdLog d a => sc [d, a]
  | .ctxStat d a => sc [d, a]
  | .vAdd h _ d a x _ _ => v h.f [d, a, x]
  | .vSub h _ d a x _ _ => v h.f [d, a, x]
  | .vMul h _ d a x _ _ => v h.f [d, a, x]
  | .vMulh h _ d a x => v h.f [d, a, x]
  | .vFma h _ d a x y _ => v h.f [d, a, x, y]
  | .vFms h _ d a x y _ => v h.f [d, a, x, y]
  | .vFnma h _ d a x y _ => v h.f [d, a, x, y]
  | .vMin h _ d a x _ => v h.f [d, a, x]
  | .vMax h _ d a x _ => v h.f [d, a, x]
  | .vAbs h _ d a _ => v h.f [d, a]
  | .vNeg h _ d a _ => v h.f [d, a]
  | .vRcp h _ d a _ => v h.f [d, a]
  | .vRsq h _ d a _ => v h.f [d, a]
  | .vExp2 h _ d a _ => v h.f [d, a]
  | .vLog2 h _ d a _ => v h.f [d, a]
  | .vTanh h _ d a _ => v h.f [d, a]
  | .vSilu h _ d a _ => v h.f [d, a]
  | .vSoftplus h _ d a _ => v h.f [d, a]
  | .vAnd h _ d a x => v h.f [d, a, x]
  | .vOr h _ d a x => v h.f [d, a, x]
  | .vXor h _ d a x => v h.f [d, a, x]
  | .vLop3 h d a x y _ => v h.f [d, a, x, y]
  | .vShl h _ d a x => v h.f [d, a, x]
  | .vShr h _ d a x => v h.f [d, a, x]
  | .vSar h _ d a x => v h.f [d, a, x]
  | .vCvt h _ _ d a _ _ => v h.f [d, a]
  | .vCmpEq h _ _ a x _ => v h.f [a, x]
  | .vCmpNe h _ _ a x _ => v h.f [a, x]
  | .vCmpLt h _ _ a x _ => v h.f [a, x]
  | .vCmpLe h _ _ a x _ => v h.f [a, x]
  | .vCmpGt h _ _ a x _ => v h.f [a, x]
  | .vCmpGe h _ _ a x _ => v h.f [a, x]
  | .vCmpUn h _ _ a x _ => v h.f [a, x]
  | .vCmpEqU h _ a x _ => v h.f [a, x]
  | .vCmpNeU h _ a x _ => v h.f [a, x]
  | .vCmpLtU h _ a x _ => v h.f [a, x]
  | .vCmpLeU h _ a x _ => v h.f [a, x]
  | .vCmpGtU h _ a x _ => v h.f [a, x]
  | .vCmpGeU h _ a x _ => v h.f [a, x]
  | .vCmpUnU h _ a x _ => v h.f [a, x]
  | .vSel h _ d a x _ => v h.f [d, a, x]
  | .vPerm h _ d a x y => v h.f [d, a, x, y]
  | .vShuf h _ pat d a x _ => v h.f (if 1 ≤ pat.toNat ∧ pat.toNat ≤ 4 then [d, a, x] else [d, a])
  | .vBcast h _ d a _ => v h.f [d, a]
  | .vIota h _ d => v h.f [d]
  | .vMov h d a => v h.f [d, a]
  | .vMovCross h d a => v (otherFile h.f) [d] ++ v h.f [a]
  | .vMovToScalar f _ d a _ => v f [a] ++ sc [d]
  | .movIxGet h d x => v h.f [d] ++ sc [x]
  | .movIxPut h a x => v h.f [a] ++ sc [x]
  | .vSpl f _ a _ => v f [a]
  | .vFil h d _ => v h.f [d]
  | .ldRow d a => vr d ++ la a.base
  | .ldRowChk d a => vr d ++ la a.base
  | .ldS d a => sc [d] ++ la a.base
  | .ldH d _ => vr d
  | .ldHChk d _ => vr d
  | .ldg _ _ a => la a.base
  | .ldPr d a => vr d ++ la a.base
  | .ldSb d a => vr d ++ la a.base
  | .ldIdx d x k _ => vr d ++ la x ++ la k
  | .ldBc d a => vr d ++ la a.base
  | .ldZ d a => vr d ++ la a.base
  | .ldAcq _ d a => dr d ++ la a.base
  | .stRow r a => vr r ++ sa a.base
  | .stS n a => sc [n] ++ sa a.base
  | .stH r _ => vr r
  | .stg r a => dr r ++ sa a.base
  | .stNt r a => dr r ++ sa a.base
  | .stPr r a => vr r ++ sa a.base
  | .stSb r a => vr r ++ sa a.base
  | .stRel _ r a => dr r ++ sa a.base
  | .aadd _ _ r a => sc [r] ++ sa a.base
  | .amin _ _ r a => sc [r] ++ sa a.base
  | .amax _ _ r a => sc [r] ++ sa a.base
  | .axch _ _ r a => sc [r] ++ sa a.base
  | .acas _ _ r a => sc [r, r + 1] ++ sa a.base
  | .aand _ _ r a => sc [r] ++ sa a.base
  | .aor _ _ r a => sc [r] ++ sa a.base
  | .axor _ _ r a => sc [r] ++ sa a.base
  | .nbExp _ x => sc [x]
  | .nbStat d _ _ => sc [d]
  | .tlWait _ k r => if k then sc [r] else [(6, r.toNat % 32)]
  | .tlRead d _ _ => sc [d]
  | .invL1 (some (x, _)) => sc [x]
  | .wbL1 (some (x, _)) => sc [x]
  | .hBind _ x => sc [x]
  | .hStat d _ _ => sc [d]
  | .xfMvScalar n _ => sc [n]
  | .rdAdd _ a _ _ => src a
  | .rdKadd _ a _ _ => src a
  | .rdMax _ a _ _ => src a
  | .rdMin _ a _ _ => src a
  | .rdAmax _ a _ _ => src a
  | .rdMv _ _ _ d _ _ => dr d
  | .mma acc _ a _ _ _ _ => t acc ++ src a
  | .mop acc _ a _ _ => t acc ++ src a
  | .mldW _ a _ _ => src a
  | .mdrain acc a _ => t acc ++ src a
  | .mrow acc f q _ _ => t acc ++ [(vFileNo f, q.toNat * 4), (vFileNo f, q.toNat * 4 + 3)]
  | .mclr acc => t acc
  | .mqStat d => sc [d]
  | .mdist acc _ a _ _ _ _ _ _ => t acc ++ src a
  | .mbestRd f q => [(vFileNo f, q.toNat * 2), (vFileNo f, q.toNat * 2 + 1)]
  | .cupd _ a _ => src a ++ [(4, a.r.toNat + b2n (!a.h))]
  | .cfin _ x _ => la x
  | .rwStat d => sc [d]
  | .cpy1d x y r => cp [x, y] r
  | .cpyNd x y r => cp [x, y] r
  | .cpyMc x y r => cp [x, y] r
  | .cpySnd x y r => cp [x, y] r
  | .cpyZrb x y r => cp [x, y] r
  | .cpySp24 x y r => cp [x, y] r
  | .cpyStrm x y r => cp [x, y] r
  | .cpyStop x r => cp [x] r
  | .cpyFill x y r => cp [x, y] r
  | .hndNew x y => c [x, y]
  | .hndFree x r => cp [x] r
  | .hndGen x y => c [x, y]
  | .frIn x y r => cp [x, y] r
  | .frOut x y r => cp [x, y] r
  | .frSwap x y r => cp [x, y] r
  | .frSnap x y r => cp [x, y] r
  | .frFork x y r => cp [x, y] r
  | .frRoll x y r => cp [x, y] r
  | .frRel x y r => cp [x, y] r
  | .frPin x y r => cp [x, y] r
  | .frChk x y r => cp [x, y] r
  | .frRes x y r => cp [x, y] r
  | .scnDiag x y r => cp [x, y] r
  | .scnLin x r => cp [x] r
  | .scnCin x r => cp [x] r
  | .scnCout x r => cp [x] r
  | .scnFade x r => cp [x] r
  | .scnCfg x r => cp [x] r
  | .smpRun x y r => cp [x, y] r
  | .smpShard x y r => cp [x, y] r
  | .smpMerge x y r => cp [x, y] r
  | .nwStart x y r => cp [x, y] r
  | .cmAcc x y r => cp [x, y] r
  | .cmEmit x y r => cp [x, y] r
  | .cmTrim x y r => cp [x, y] r
  | .sync x => sc [x]
  | .rfe (some x) => sc [x]
  | .kill x => sc [x]
  | .tlbInvPg x _ _ => sc [x]
  | .pgret x d => sc [x, d]
  | .wayq x d => sc [x, d]
  | .wayqRel x d => sc [x, d]
  | .hold x => sc [x]
  | .holdRel x => sc [x]
  | .fork _ _ => [(3, 1), (3, 2)]
  | .spawnStat => arg.map fun n => (3, n)
  | .cpyQ => arg.map fun n => (6, n)
  | .frStatOp => arg.map fun n => (6, n)
  | .frStatSession => arg.map fun n => (6, n)
  | .frStatBanks => arg.map fun n => (6, n)
  | .frStatClear => arg.map fun n => (6, n)
  | .smpStatQuery => arg.map fun n => (6, n)
  | .smpStatClear => arg.map fun n => (6, n)
  | .nwStatQuery => arg.map fun n => (6, n)
  | .nwStatClear => arg.map fun n => (6, n)
  | .cmStatQuery => arg.map fun n => (6, n)
  | .cmStatClear => arg.map fun n => (6, n)
  | _ => []

end Sys2Proof.Machine
end

