-- ==== Sys2Proof/Machine/ScalarOp.lean ====
section
/-! DEFINITION. What each SC operation decides, from the values before its bundle (R123 to R140, R445). -/

namespace Sys2Proof.Machine

/-- An integer operation: its function of the two sources modulo 2^W, and its latency (R127, Table 05-6). -/
def scInt (s : State) (t : ITy) (d a : BitVec 6) (b : SrcB) (lat : Nat) (f : Nat → Nat → Nat → Int) : Out :=
  let w := scW t
  s.wrS d.toNat (scPut t (f w (s.rdS 2 a.toNat % 2 ^ w) (srcB s b % 2 ^ w))) lat

/-- Bitwise function of three numbers by truth table: bit i := tab<4a+2b+c> (R127, R153). -/
def lop3N (w tab a b c : Nat) : Nat :=
  let m := 2 ^ w - 1
  let sel (x : Nat) (v : Bool) : Nat := if v then x % 2 ^ w else m - x % 2 ^ w
  (List.range 8).foldl (fun r k =>
    if bitAt tab k then r ||| (sel a (bitAt k 2) &&& sel b (bitAt k 1) &&& sel c (bitAt k 0)) else r) 0

/-- Quotient and remainder (R128): division by zero gives 0 and the dividend, and IDZ. -/
def scDivRem (s : State) (t : ITy) (d a : BitVec 6) (b : SrcB) (rem : Bool) : Out :=
  let w := scW t
  let x := tval (scSg t) w (s.rdS 2 a.toNat)
  let y := tval (scSg t) w (srcB s b)
  if y = 0 then (s.wrS d.toNat (scPut t (if rem then x else 0)) 18).and (Out.act [.cst cstIDZ])
  else s.wrS d.toNat (scPut t (if rem then x.tmod y else x.tdiv y)) 18

/-- Leading zeros within w bits (R127). -/
def clzN (w x : Nat) : Nat := if x % 2 ^ w = 0 then w else w - 1 - Nat.log2 (x % 2 ^ w)

def opScAdd (t : ITy) (d a : BitVec 6) (b : SrcB) (s : State) : Out := scInt s t d a b 1 fun _ x y => (x : Int) + y
def opScSub (t : ITy) (d a : BitVec 6) (b : SrcB) (s : State) : Out := scInt s t d a b 1 fun _ x y => (x : Int) - y
def opScMul (t : ITy) (d a : BitVec 6) (b : SrcB) (s : State) : Out := scInt s t d a b 3 fun _ x y => (x : Int) * y
def opScMulh (t : ITy) (d a : BitVec 6) (b : SrcB) (s : State) : Out :=
  scInt s t d a b 3 fun w x y => tval (scSg t) w x * tval (scSg t) w y / (2 ^ w : Nat)
def opScDiv (t : ITy) (d a : BitVec 6) (b : SrcB) (s : State) : Out := scDivRem s t d a b false
def opScRem (t : ITy) (d a : BitVec 6) (b : SrcB) (s : State) : Out := scDivRem s t d a b true
def opScAnd (t : ITy) (d a : BitVec 6) (b : SrcB) (s : State) : Out := scInt s t d a b 1 fun _ x y => (x &&& y : Nat)
def opScOr (t : ITy) (d a : BitVec 6) (b : SrcB) (s : State) : Out := scInt s t d a b 1 fun _ x y => (x ||| y : Nat)
def opScXor (t : ITy) (d a : BitVec 6) (b : SrcB) (s : State) : Out := scInt s t d a b 1 fun _ x y => (x ^^^ y : Nat)
def opScLop3 (t : ITy) (d a b c : BitVec 6) (tab : BitVec 8) (s : State) : Out :=
  s.wrS d.toNat (scPut t (lop3N (scW t) tab.toNat (s.rdS 2 a.toNat) (s.rdS 2 b.toNat) (s.rdS 2 c.toNat))) 1
def opScShl (t : ITy) (d a : BitVec 6) (b : SrcB) (s : State) : Out := scInt s t d a b 1 fun w x y => (x <<< (y % w) : Nat)
def opScShr (t : ITy) (d a : BitVec 6) (b : SrcB) (s : State) : Out := scInt s t d a b 1 fun w x y => (x >>> (y % w) : Nat)
def opScSar (t : ITy) (d a : BitVec 6) (b : SrcB) (s : State) : Out :=
  scInt s t d a b 1 fun w x y => sval w x / (2 ^ (y % w) : Nat)
def opScRot (t : ITy) (d a : BitVec 6) (b : SrcB) (s : State) : Out :=
  scInt s t d a b 1 fun w x y => (x <<< (y % w) ||| x >>> (w - y % w) : Nat)
def opScMin (t : ITy) (d a : BitVec 6) (b : SrcB) (s : State) : Out :=
  scInt s t d a b 1 fun w x y => min (tval (scSg t) w x) (tval (scSg t) w y)
def opScMax (t : ITy) (d a : BitVec 6) (b : SrcB) (s : State) : Out :=
  scInt s t d a b 1 fun w x y => max (tval (scSg t) w x) (tval (scSg t) w y)
def opScClz (t : ITy) (d a : BitVec 6) (s : State) : Out := s.wrS d.toNat (scPut t (clzN (scW t) (s.rdS 2 a.toNat))) 1
def opScPopc (t : ITy) (d a : BitVec 6) (s : State) : Out := s.wrS d.toNat (scPut t (popcount (scW t) (s.rdS 2 a.toNat))) 1
def opScSel (t : ITy) (d a b : BitVec 6) (p : BitVec 4) (neg : Bool) (s : State) : Out :=
  s.wrS d.toNat (scPut t (if s.rdP 2 p.toNat != neg then s.rdS 2 a.toNat else s.rdS 2 b.toNat)) 1

/-- An integer compare (R129). -/
def scCmp (s : State) (t : ITy) (d : CmpDst) (a : BitVec 6) (b : SrcB) (c : Nat) : Out :=
  cmpOut d (icond c (tval (scSg t) (scW t) (s.rdS 2 a.toNat)) (tval (scSg t) (scW t) (srcB s b))) 1
def opScCmpEq (t : ITy) (d : CmpDst) (a : BitVec 6) (b : SrcB) (s : State) : Out := scCmp s t d a b 0
def opScCmpNe (t : ITy) (d : CmpDst) (a : BitVec 6) (b : SrcB) (s : State) : Out := scCmp s t d a b 1
def opScCmpLt (t : ITy) (d : CmpDst) (a : BitVec 6) (b : SrcB) (s : State) : Out := scCmp s t d a b 2
def opScCmpLe (t : ITy) (d : CmpDst) (a : BitVec 6) (b : SrcB) (s : State) : Out := scCmp s t d a b 3
def opScCmpGt (t : ITy) (d : CmpDst) (a : BitVec 6) (b : SrcB) (s : State) : Out := scCmp s t d a b 4
def opScCmpGe (t : ITy) (d : CmpDst) (a : BitVec 6) (b : SrcB) (s : State) : Out := scCmp s t d a b 5

/-- R130, Table 05-2. -/
def opLi (d : BitVec 6) (imm : BitVec 22) (s : State) : Out := s.wrS d.toNat (sextW 22 imm.toNat).toNat 1
def opLiHi (d a : BitVec 6) (imm : BitVec 22) (s : State) : Out :=
  s.wrS d.toNat ((s.rdS 2 a.toNat <<< 22 ||| imm.toNat) % 2 ^ 64) 1
/-- Word k of a literal bundle (R28). -/
def litWord (lit k : Nat) : Nat := bitsAt (lit % 2 ^ 512) (16 + 64 * k) 64
def opLiWide (d : BitVec 6) (k : BitVec 3) (s : State) : Out := s.wrS d.toNat (litWord (s.iss.lit.getD 0) k.toNat) 1
/-- R131. -/
def opAdds (d a b : BitVec 6) (k : BitVec 3) (s : State) : Out :=
  s.wrS d.toNat ((s.rdS 2 a.toNat + s.rdS 2 b.toNat <<< k.toNat) % 2 ^ 64) 1

/-- An FP32 result with its conditions: the trap `FPX` when one is enabled, else the result and the sticky bits at its
position (R133). -/
def scFp (s : State) (d : BitVec 6) (v : FV × Bool) (rm : BitVec 3) : Out :=
  let r := fmtF32.round .arith false (rmode rm.toNat s.fmtRm) v.1
  if fpEnabled s.fmtW v.2 false r.ovf then Out.mkTrap 7 2 (b2n v.2 + 4 * b2n r.ovf)
  else (s.wrS d.toNat r.bits 4).and { wrs := fpSticky v.2 r.ovf 4 }
def scF (s : State) (n : BitVec 6) : FV := fmtF32.dec (s.rdS 2 n.toNat % 2 ^ 32)
def opFadd (rm : BitVec 3) (d a b : BitVec 6) (s : State) : Out :=
  scFp s d (FV.add (rmode rm.toNat s.fmtRm) (scF s a) (scF s b)) rm
def opFmul (rm : BitVec 3) (d a b : BitVec 6) (s : State) : Out := scFp s d ((scF s a).mul (scF s b)) rm
def opScFma (rm : BitVec 3) (d a b c : BitVec 6) (s : State) : Out :=
  scFp s d (FV.fma (rmode rm.toNat s.fmtRm) (scF s a) (scF s b) (scF s c)) rm
def opFcmp (cond _rm : BitVec 3) (d : CmpDst) (a b : BitVec 6) (s : State) : Out :=
  cmpOut d (fcond cond.toNat (scF s a) (scF s b)) 2

/-- R134: the result placed as its type writes it; a saturation counts in `satc`. -/
def opScCvt (tt src : BitVec 4) (rm : BitVec 3) (d a : BitVec 6) (s : State) : Out :=
  let x := s.rdS 2 a.toNat % 2 ^ Ty.bits src.toNat
  let r := convTo tt.toNat (rmode rm.toNat s.fmtRm) (elemVal src.toNat x)
  let v := if tt.toNat = 4 then (sextW 32 r.1).toNat else r.1
  (s.wrS d.toNat v 4).and { wrs := countWr .satcAdd (b2n r.2) 4 }

/-- R135, Table 05-3: latency 2 through the destination file's copy port. -/
def opScMov (d : MovDst) (a : BitVec 6) (s : State) : Out :=
  let v := s.rdS 2 a.toNat
  match d with
  | .vec f n e bc =>
    if bc then Out.wr (.v f n.toNat) 1024 (ofLanes 64 (List.replicate 16 v)) 2 .copy
    else { wrs := [{ dest := .v f n.toNat, mask := row (onesAt (64 * e.toNat) 64), val := row (v <<< (64 * e.toNat)),
                     lat := 2, port := .copy }] }
  | .pred n => Out.wr (.p n.toNat) 1 (v % 2) 2 .copy
  | .lc k p => Out.wr (if p then .lcP k.toNat else .lc k.toNat) 16 (v % 2 ^ 16) 2 .copy
  | .lx k => Out.wr (.lx k.toNat) 32 (v % 2 ^ 32) 2 .copy
  | .kp p => Out.wr (if p then .kpP else .kp) 16 (v % 2 ^ 16) 2 .copy
  | .la n => Out.wr (s.ix.laD n.toNat) 64 v 2 .copy
  | .sa n => Out.wr (s.ix.saD n.toNat) 64 v 2 .copy
  | .c n => Out.wr (.c n.toNat) 64 v 2 .copy
  | .x n => Out.wr (.x n.toNat) 64 v 2 .copy

/-- R137: the spill window in bytes; `fil` has the load port's priority. -/
def spillRead (x : Ctx) (lo len : Nat) : Nat := bitsAt (tget 0 x.spill (lo / 128)).toNat (8 * (lo % 128)) (8 * len)
def opScSpl (a : BitVec 6) (k : BitVec 10) (s : State) : Out := Out.act [.spill 2 (8 * k.toNat) 8 (row (s.rdS 2 a.toNat))]
def opScFil (d : BitVec 6) (k : BitVec 10) (s : State) : Out :=
  s.wrS d.toNat (spillRead s.ix (8 * k.toNat) 8) 1 .load

/-- R138. -/
def opRdc (d : BitVec 6) (n : BitVec 8) (s : State) : Out := s.wrS d.toNat (rdcWord s n.toNat) 1
def opWrc (n : BitVec 8) (a : BitVec 6) (s : State) : Out :=
  let v := s.rdS 2 a.toNat
  if n = 0 then { wrs := [{ dest := .cst, mask := row (v % 32), val := 0, lat := 1, port := .owner }] }
  else Out.wr (if n = 1 then .satc else .rsvc) 32 (v % 2 ^ 32) 1

/-- R445: a word of the trap record, or of a machine-error log entry counted back from the newest. -/
def opErrRdTrap (d a : BitVec 6) (s : State) : Out :=
  s.wrS d.toNat (tget 0 s.ix.trec (s.rdS 2 a.toNat % 8)).toNat 1
def opErrRdLog (d a : BitVec 6) (s : State) : Out :=
  let x := s.rdS 2 a.toNat
  let w := match (s.die (dieOf s.ik)).log[x % 256]? with
    | some e => (match bitsAt x 8 2 with | 0 => e.w0 | 1 => e.w1 | 2 => e.w2 | _ => e.w3).toNat
    | none => 0
  s.wrS d.toNat w 1

/-- A target word (R439): the core and the context, or `SYSERR` 2. -/
def target (s : State) (slot v : Nat) : Except Out (Nat × Nat) :=
  let k := bitsAt v 3 7
  if v / 2 ^ 10 ≠ 0 ∨ !s.coreOk k then .error (Out.mkTrap 17 slot 2) else .ok (k, v % 8)
def opCtxStat (d a : BitVec 6) (s : State) : Out :=
  withOp (target s 2 (s.rdS 2 a.toNat)) fun t => s.wrS d.toNat (ctxStatWord s t.1 t.2) 1

end Sys2Proof.Machine
end

