-- ==== Sys2Proof/Machine/Special.lean ====
section
/-! DEFINITION. The special functions of Table 06-3 and the exponential and logarithm of R406: a close fixed-point
approximation of the exact value, from which `Config.specialPick` chooses any result within the stated bound (log
entry 2).  Exact cases are exact. -/

namespace Sys2Proof.Machine

/-- Fraction bits of the fixed-point work. -/
def fxP : Nat := 160
/-- ln 2 in fixed point, 160 fraction bits. -/
def fxLn2 : Nat := 1013035739299659071135698605846798551586536899366
def fxOne : Nat := 2 ^ fxP

/-- Terms r^i / i! from i = n on, with t the term before; n counts down. -/
def expTerms (r : Nat) : Nat → Nat → Nat → Nat
  | 0, _, _ => 0
  | n + 1, i, t => let t' := t * r / fxOne / i; t' + expTerms r n (i + 1) t'

/-- e^r for 0 ≤ r < 1 in fixed point. -/
def expFrac (r : Nat) : Nat := fxOne + expTerms r 40 1 fxOne

/-- An exact dyadic in fixed point. -/
def toFx (v : FV) : Int :=
  match v with
  | .fin n m e =>
    let x : Nat := if 0 ≤ e + fxP then m <<< (e + fxP).toNat else m >>> (-(e + fxP)).toNat
    if n then -(x : Int) else x
  | _ => 0

/-- e^y for y in fixed point, as a value. -/
def expFx (y : Int) : FV :=
  let k : Int := y / (fxLn2 : Int)
  let r : Nat := (y - k * fxLn2).toNat
  .fin false (expFrac r) (k - fxP)

/-- Binary digits of log2 of u in [1, 2) (fixed point), n of them. -/
def logDigits : Nat → Nat → Nat → Nat
  | 0, _, acc => acc
  | n + 1, u, acc =>
    let q := u * u / fxOne
    if 2 * fxOne ≤ q then logDigits n (q / 2) (2 * acc + 1) else logDigits n q (2 * acc)

/-- Digits taken. -/
def logN : Nat := 120

/-- log2 of a positive dyadic as a signed number of 2^-120. -/
def log2Fx (m : Nat) (e : Int) : Int :=
  let l := Nat.log2 m
  let u := if l ≤ fxP then m <<< (fxP - l) else m >>> (l - fxP)
  ((l : Int) + e) * (2 ^ logN : Nat) + (logDigits logN u 0 : Nat)

/-- Integer square root, bit by bit from bit n down. -/
def isqrt : Nat → Nat → Nat → Nat
  | 0, _, r => r
  | n + 1, x, r => let c := r + 2 ^ n; isqrt n x (if c * c ≤ x then c else r)

/-- A result within a bound of an approximation v, in units in the last place, or of 2^ab when `ab` is given: the choice
is `Config.specialPick`'s.  A value in range gives a result in range. -/
def pickNear (f : FFmt) (ulps : Nat) (ab : Option Int) (v : FV) (pick : Int) : FV :=
  match v with
  | .fin n m e =>
    if m = 0 then v else
    let ev : Int := (Nat.log2 m : Int) + e
    let emin : Int := 1 - (f.bias : Int)
    let q0 : Int := (if ev < emin then emin else ev) - f.fb
    let q : Int := match ab with
      | some a => if q0 < a - f.fb + 1 then a - f.fb + 1 else q0
      | none => q0
    let t : Int := (FV.fin n m e).at (min e (q - 20)) / (2 ^ (q - 20 - min e (q - 20)).toNat : Nat)
    let u : Int := (ulps : Int) * 2 ^ 20 - 2 ^ 17
    let tol : Int := match ab with
      | some a => let w : Int := ((2 ^ (a - q + 20).toNat : Nat) : Int) - 2 ^ 17; if u < w then w else u
      | none => u
    let lo : Int := (t - tol + 2 ^ 20 - 1) / 2 ^ 20
    let top : Int := ((2 ^ f.fb + f.top % 2 ^ f.fb : Nat) : Int)
    let last : Bool := decide (q = ((f.top >>> f.fb : Nat) : Int) - f.bias - f.fb) && decide (t ≤ top * 2 ^ 20)
    let hi : Int := if last then min ((t + tol) / 2 ^ 20) top else (t + tol) / 2 ^ 20
    let c : Int := lo + pick % (hi - lo + 1)
    let p : Int := 2 ^ (f.fb + 1)
    let kept : Int := if p < c then p + (c - p) / 2 * 2 else if c < -p then -(p + (-c - p) / 2 * 2) else c
    ofInt kept q n
  | _ => v

/-- The special function with number op (opcode - 0x10, Table 06-3) on a value of type t: the result, invalid, division by
zero. -/
def special (op t : Nat) (v : FV) (pick : Int) : FV × Bool × Bool :=
  let f := fmtOf t
  let near (b : Nat) (w : FV) (ab : Option Int := none) : FV := pickNear f (if t = 10 then b else 1) ab w pick
  match v with
  | .nan => (.nan, false, false)
  | .inf n =>
    if op = 0 then (.fin n 0 0, false, false)
    else if op = 1 then (if n then (.nan, true, false) else (.fin false 0 0, false, false))
    else if op = 2 then (if n then .fin false 0 0 else .inf false, false, false)
    else if op = 3 then (if n then (.nan, true, false) else (.inf false, false, false))
    else if op = 4 then (.fin n 1 0, false, false)
    else if op = 5 then (if n then .fin true 0 0 else .inf false, false, false)
    else (if n then .fin false 0 0 else .inf false, false, false)
  | .fin n m e =>
    if m = 0 then
      (if op = 0 ∨ op = 1 then (.inf n, false, true)
      else if op = 2 then (.fin false 1 0, false, false)
      else if op = 3 then (.inf true, false, true)
      else if op = 4 ∨ op = 5 then (.fin n 0 0, false, false)
      else (near 3 (.fin false fxLn2 (-(fxP : Int))), false, false))
    else if op = 0 then
      let l := Nat.log2 m
      (if m = 2 ^ l then .fin n 1 (-((l : Int) + e)) else near 1 (.fin n (2 ^ (fxP + l) / m) (-((fxP : Int) + l) - e)), false, false)
    else if op = 1 then
      if n then (.nan, true, false)
      else
        let m' := if e % 2 = 0 then m else 2 * m
        let e' : Int := if e % 2 = 0 then e else e - 1
        let l := Nat.log2 m'
        (if m' = 2 ^ l ∧ l % 2 = 0 then .fin false 1 (-((l : Int) + e') / 2)
         else near 1 (.fin false (isqrt 120 (2 ^ 220 / m') 0) (-110 - e' / 2)), false, false)
    else if op = 2 then
      let x := if 2 ^ 12 ≤ m ∧ (0 : Int) ≤ e ∨ 12 < (Nat.log2 m : Int) + e then (if n then -(2 ^ 12 * fxOne : Int) else 2 ^ 12 * fxOne)
        else toFx v
      let k : Int := x / (fxOne : Int)
      let r : Nat := (x - k * fxOne).toNat
      (if 0 ≤ e ∨ m % 2 ^ (-e).toNat = 0 then .fin false 1 k
       else near 2 (.fin false (expFrac (r * fxLn2 / fxOne)) (k - fxP)), false, false)
    else if op = 3 then
      if n then (.nan, true, false)
      else
        let l := Nat.log2 m
        if m = 2 ^ l then (ofInt ((l : Int) + e) 0 false, false, false)
        else
          let y := log2Fx m e
          let inner : Bool := decide (-1 ≤ (l : Int) + e) && decide ((l : Int) + e < 1)
          (near 2 (ofInt y (-(logN : Int)) false) (if inner ∧ t = 10 then some (-22) else none), false, false)
    else
      let ev : Int := (Nat.log2 m : Int) + e
      if op = 4 then
        if ev < -13 then (near 2 (.fin n (m * 2 ^ 40 - 1) (e - 40)), false, false)
        else
          let y := if 6 ≤ ev then 2 ^ 7 * (fxOne : Int) else 2 * toFx v.abs
          let ex := (expFx y).at (-(fxP : Int))
          (near 2 (.fin n ((ex - fxOne).toNat * fxOne / (ex + fxOne).toNat) (-(fxP : Int))), false, false)
      else if op = 5 then
        let y := if 8 ≤ ev then 2 ^ 8 * (fxOne : Int) else toFx v.abs
        let ex := ((expFx (if n then y else -y)).at (-600)).toNat
        let one := 2 ^ 600
        (near 3 (.fin n (m * 2 ^ 1200 / (one + ex)) (e - 600)), false, false)
      else
        if 6 ≤ ev then (if n then (near 3 (expFx (if 9 ≤ ev then -(2 ^ 9 * (fxOne : Int)) else toFx v)), false, false) else (near 3 v, false, false))
        else
          let ex := expFx (toFx v)
          (near 3 (if n ∧ 5 ≤ ev then ex
            else ofInt (log2Fx ((ex.at (-400)).toNat + 2 ^ 400) (-400) * (fxLn2 : Int)) (-(logN : Int) - fxP) false), false, false)

/-- Natural exponential and logarithm within the bounds of R406, as values. -/
def expV (v : FV) : FV :=
  match v with
  | .fin n m e =>
    if m = 0 then .fin false 1 0
    else expFx (if 9 < (Nat.log2 m : Int) + e then (if n then -(2 ^ 10 * (fxOne : Int)) else 2 ^ 10 * fxOne) else toFx (.fin n m e))
  | .inf n => if n then .fin false 0 0 else .inf false
  | .nan => .nan
def lnV (v : FV) : FV :=
  match v with
  | .fin n m e => if m = 0 then .inf true else if n then .nan else ofInt (log2Fx m e * (fxLn2 : Int)) (-(logN : Int) - fxP) false
  | .inf n => if n then .nan else .inf false
  | .nan => .nan

end Sys2Proof.Machine
end

