-- ==== Sys2Proof/Machine/VectorOp.lean ====
section
/-! DEFINITION. What each VA and VB operation decides (R141 to R169). -/

namespace Sys2Proof.Machine

/-- What one lane gives: its bits, the conditions it raises (R148), saturations and reserved codes (R66, R62). -/
structure LaneR where
  v : Nat
  inv : Bool := false
  dbz : Bool := false
  ovf : Bool := false
  sat : Nat := 0
  rsv : Nat := 0
  deriving DecidableEq, Repr

/-- The lowest index at which the list holds. -/
def lowest (l : List Bool) : Nat := ((List.range l.length).find? fun i => l.getD i false).getD 0

/-- What each of n lanes gives where the list has it, nothing elsewhere. -/
def lanesIn (l : List Bool) (n : Nat) (f : Nat → LaneR) : List LaneR :=
  (List.range n).map fun i => if l.getD i false then f i else ⟨0, false, false, false, 0, 0⟩
/-- A lane-wise operation over lanes of width e: active lanes only (R145), the trap `FPX` when an enabled condition is
raised, else the results, the sticky bits and the counts at the result position (R148, R151).  Conditions and counts are
those of the lanes active for certain (R169). -/
def vLanes (s : State) (h : VH) (d : BitVec 9) (e lat : Nat) (f : Nat → LaneR) : Out :=
  let n := h.w.bits / e
  let act := active s h n
  let rs := lanesIn (sure s h n) n f
  let inv := rs.any (·.inv)
  let dbz := rs.any (·.dbz)
  let ovf := rs.any (·.ovf)
  if fpEnabled s.fmtW inv dbz ovf then
    Out.mkTrap 7 (vSlot h.f) (b2n inv + 2 * b2n dbz + 4 * b2n ovf +
      2 ^ 8 * lowest (rs.map fun r => fpEnabled s.fmtW r.inv r.dbz r.ovf))
  else
    { wrs := vWr h.f d.toNat e act ((lanesIn act n f).map (·.v)) lat :: fpSticky inv ovf lat ++
        countWr .satcAdd (rs.foldl (fun a r => a + r.sat) 0) lat ++ countWr .rsvcAdd (rs.foldl (fun a r => a + r.rsv) 0) lat }

/-- A float lane rounded once (R147). -/
def fLane (t rm : Nat) (v : FV × Bool) : LaneR :=
  let r := (fmtOf t).round .arith false rm v.1
  ⟨r.bits, v.2, false, r.ovf, 0, 0⟩
/-- An integer lane, wrapped or saturated (R151). -/
def iLane (t : Nat) (sat : Bool) (x : Int) : LaneR :=
  let w := Ty.bits t
  let c := clampI (imin (Ty.signed t) w) (imax (Ty.signed t) w) x
  if sat then ⟨wrap w c.1, false, false, false, b2n c.2, 0⟩ else ⟨wrap w x, false, false, false, 0, 0⟩

/-- Registers a, b, c of the slot as lane readers. -/
def vReg (s : State) (h : VH) (n : BitVec 9) : Nat := s.rdV (vSlot h.f) h.f n.toNat
def vF (s : State) (h : VH) (t : Nat) (n : BitVec 9) : Nat → FV :=
  let r := vReg s h n; fun i => (fmtOf t).dec (lane (Ty.bits t) r i)
def vI (s : State) (h : VH) (t : Nat) (n : BitVec 9) : Nat → Int :=
  let r := vReg s h n; fun i => tval (Ty.signed t) (Ty.bits t) (lane (Ty.bits t) r i)

/-- add, sub, mul: integer or float (R151). -/
def vBin (s : State) (h : VH) (t : BitVec 4) (d a b : BitVec 9) (rm : BitVec 3) (sat : Bool)
    (fi : Int → Int → Int) (ff : Nat → FV → FV → FV × Bool) : Out :=
  let e := Ty.bits t.toNat
  if Ty.isInt t.toNat then
    let x := vI s h t.toNat a; let y := vI s h t.toNat b
    vLanes s h d e 2 fun i => iLane t.toNat sat (fi (x i) (y i))
  else
    let m := rmode rm.toNat s.fmtRm
    let x := vF s h t.toNat a; let y := vF s h t.toNat b
    vLanes s h d e 4 fun i => fLane t.toNat m (ff m (x i) (y i))

def opVAdd (h : VH) (t : BitVec 4) (d a b : BitVec 9) (rm : BitVec 3) (sat : Bool) (s : State) : Out :=
  vBin s h t d a b rm sat (· + ·) fun m x y => FV.add m x y
def opVSub (h : VH) (t : BitVec 4) (d a b : BitVec 9) (rm : BitVec 3) (sat : Bool) (s : State) : Out :=
  vBin s h t d a b rm sat (· - ·) fun m x y => FV.add m x y.neg
def opVMul (h : VH) (t : BitVec 4) (d a b : BitVec 9) (rm : BitVec 3) (sat : Bool) (s : State) : Out :=
  vBin s h t d a b rm sat (· * ·) fun _ x y => x.mul y
def opVMulh (h : VH) (t : BitVec 4) (d a b : BitVec 9) (s : State) : Out :=
  vBin s h t d a b 0 false (fun x y => x * y / (2 ^ Ty.bits t.toNat : Nat)) fun _ x _ => (x, false)

/-- fma, fms, fnma: one rounding (R151). -/
def vTri (s : State) (h : VH) (t : BitVec 4) (d a b c : BitVec 9) (rm : BitVec 3) (np nc : Bool) : Out :=
  let m := rmode rm.toNat s.fmtRm
  let x := vF s h t.toNat a; let y := vF s h t.toNat b; let z := vF s h t.toNat c
  vLanes s h d (Ty.bits t.toNat) 4 fun i =>
    fLane t.toNat m (FV.fmaV m (if np then (x i).neg else x i) (y i) (if nc then (z i).neg else z i))
def opVFma (h : VH) (t : BitVec 4) (d a b c : BitVec 9) (rm : BitVec 3) (s : State) : Out := vTri s h t d a b c rm false false
def opVFms (h : VH) (t : BitVec 4) (d a b c : BitVec 9) (rm : BitVec 3) (s : State) : Out := vTri s h t d a b c rm false true
def opVFnma (h : VH) (t : BitVec 4) (d a b c : BitVec 9) (rm : BitVec 3) (s : State) : Out := vTri s h t d a b c rm true false

/-- Smaller or larger of two floats, -0 below +0, a NaN giving the canonical NaN (R147): the bits of the operand. -/
def fMinMax (t : Nat) (mx : Bool) (x y : Nat) : Nat :=
  let f := fmtOf t
  let a := f.dec x
  let b := f.dec y
  let less := a.lt b || (a.eq b && a.isNeg && !b.isNeg)
  if a.isNan || b.isNan then f.qnan else if less != mx then x else y
def vMinMax (s : State) (h : VH) (t : BitVec 4) (d a b : BitVec 9) (mx : Bool) : Out :=
  let e := Ty.bits t.toNat
  if Ty.isInt t.toNat then
    let x := vI s h t.toNat a; let y := vI s h t.toNat b
    vLanes s h d e 2 fun i => iLane t.toNat false (if mx then max (x i) (y i) else min (x i) (y i))
  else
    let x := vReg s h a; let y := vReg s h b
    vLanes s h d e 4 fun i => ⟨fMinMax t.toNat mx (lane e x i) (lane e y i), false, false, false, 0, 0⟩
def opVMin (h : VH) (t : BitVec 4) (d a b : BitVec 9) (_rm : BitVec 3) (s : State) : Out := vMinMax s h t d a b false
def opVMax (h : VH) (t : BitVec 4) (d a b : BitVec 9) (_rm : BitVec 3) (s : State) : Out := vMinMax s h t d a b true

/-- abs and neg: integers wrap, floats change only the sign of a non-NaN value (R147, R151). -/
def vSign (s : State) (h : VH) (t : BitVec 4) (d a : BitVec 9) (fi : Int → Int) (abs : Bool) : Out :=
  let e := Ty.bits t.toNat
  if Ty.isInt t.toNat then
    let x := vI s h t.toNat a
    vLanes s h d e 2 fun i => iLane t.toNat false (fi (x i))
  else
    let f := fmtOf t.toNat
    let x := vReg s h a
    vLanes s h d e 4 fun i =>
      let v := lane e x i
      ⟨if (f.dec v).isNan then f.qnan else if abs then v % f.signBit else v ^^^ f.signBit, false, false, false, 0, 0⟩
def opVAbs (h : VH) (t : BitVec 4) (d a : BitVec 9) (_rm : BitVec 3) (s : State) : Out :=
  vSign s h t d a (fun x => if x < 0 then -x else x) true
def opVNeg (h : VH) (t : BitVec 4) (d a : BitVec 9) (_rm : BitVec 3) (s : State) : Out := vSign s h t d a (fun x => -x) false

/-- A special function lane by lane (R152).  The rounding field has no effect, so neither has `fmt`.RM: a result beyond the
largest finite value is the infinity of round to nearest (log entry 87, DEDUCED). -/
def vSpecial (s : State) (h : VH) (t : BitVec 4) (d a : BitVec 9) (op : Nat) : Out :=
  let e := Ty.bits t.toNat
  let x := vReg s h a
  vLanes s h d e 8 fun i =>
    let b := lane e x i
    let r := special op t.toNat ((fmtOf t.toNat).dec b) (Config.specialPick op t.toNat b)
    let q := (fmtOf t.toNat).round .arith false 0 r.1
    ⟨q.bits, r.2.1, r.2.2, q.ovf, 0, 0⟩
def opVRcp (h : VH) (t : BitVec 4) (d a : BitVec 9) (_rm : BitVec 3) (s : State) : Out := vSpecial s h t d a 0
def opVRsq (h : VH) (t : BitVec 4) (d a : BitVec 9) (_rm : BitVec 3) (s : State) : Out := vSpecial s h t d a 1
def opVExp2 (h : VH) (t : BitVec 4) (d a : BitVec 9) (_rm : BitVec 3) (s : State) : Out := vSpecial s h t d a 2
def opVLog2 (h : VH) (t : BitVec 4) (d a : BitVec 9) (_rm : BitVec 3) (s : State) : Out := vSpecial s h t d a 3
def opVTanh (h : VH) (t : BitVec 4) (d a : BitVec 9) (_rm : BitVec 3) (s : State) : Out := vSpecial s h t d a 4
def opVSilu (h : VH) (t : BitVec 4) (d a : BitVec 9) (_rm : BitVec 3) (s : State) : Out := vSpecial s h t d a 5
def opVSoftplus (h : VH) (t : BitVec 4) (d a : BitVec 9) (_rm : BitVec 3) (s : State) : Out := vSpecial s h t d a 6

/-- Logic and shifts on integer lanes (R153): latency 2. -/
def vLogic (s : State) (h : VH) (t : BitVec 4) (d a b : BitVec 9) (f : Nat → Nat → Nat → Nat) : Out :=
  let e := Ty.bits t.toNat
  let x := vReg s h a; let y := vReg s h b
  vLanes s h d e 2 fun i => ⟨f e (lane e x i) (lane e y i) % 2 ^ e, false, false, false, 0, 0⟩
def opVAnd (h : VH) (t : BitVec 4) (d a b : BitVec 9) (s : State) : Out := vLogic s h t d a b fun _ x y => x &&& y
def opVOr (h : VH) (t : BitVec 4) (d a b : BitVec 9) (s : State) : Out := vLogic s h t d a b fun _ x y => x ||| y
def opVXor (h : VH) (t : BitVec 4) (d a b : BitVec 9) (s : State) : Out := vLogic s h t d a b fun _ x y => x ^^^ y
def opVShl (h : VH) (t : BitVec 4) (d a b : BitVec 9) (s : State) : Out := vLogic s h t d a b fun e x y => x <<< (y % e)
def opVShr (h : VH) (t : BitVec 4) (d a b : BitVec 9) (s : State) : Out := vLogic s h t d a b fun e x y => x >>> (y % e)
def opVSar (h : VH) (t : BitVec 4) (d a b : BitVec 9) (s : State) : Out :=
  vLogic s h t d a b fun e x y => wrap e (sval e x / (2 ^ (y % e) : Nat))
def opVLop3 (h : VH) (d a b c : BitVec 9) (tab : BitVec 8) (s : State) : Out :=
  let x := vReg s h a; let y := vReg s h b; let z := vReg s h c
  vLanes s h d 32 2 fun i => ⟨lop3N 32 tab.toNat (lane 32 x i) (lane 32 y i) (lane 32 z i), false, false, false, 0, 0⟩

/-- One converted element (R156): reserved t2 codes read as 0 and are counted (R62). -/
def cvtLane (src tt rm x : Nat) : LaneR :=
  let r := convTo tt rm (elemVal src x)
  ⟨r.1, false, false, false, b2n r.2, b2n (src == 13 && x == 2)⟩

/-- R154: lanes are those of the wider type; the narrower side holds part q. -/
def opVCvt (h : VH) (src tt : BitVec 4) (d a : BitVec 9) (q : BitVec 5) (rm : BitVec 3) (s : State) : Out :=
  let es := Ty.bits src.toNat
  let et := Ty.bits tt.toNat
  let wide := max es et
  let n := h.w.bits / wide
  let m := rmode rm.toNat s.fmtRm
  let x := vReg s h a
  let act := active s h n
  let f (i : Nat) : LaneR := cvtLane src.toNat tt.toNat m (lane es x (if es < et then q.toNat * n + i else i))
  let rs := lanesIn (sure s h n) n f
  let sh := if et < es then q.toNat * n * et else 0
  let wr : Wr := { dest := .v h.f d.toNat, mask := row (laneMask et act <<< sh), val := row (ofLanes et ((lanesIn act n f).map (·.v)) <<< sh),
                   lat := 4, port := .owner }
  { wrs := wr :: countWr .satcAdd (rs.foldl (fun a r => a + r.sat) 0) 4 ++
      countWr .rsvcAdd (rs.foldl (fun a r => a + r.rsv) 0) 4 }

/-- The condition in every lane (R157). -/
def vConds (s : State) (h : VH) (t : BitVec 4) (a b : BitVec 9) (c : Nat) : List Bool :=
  let n := h.w.bits / Ty.bits t.toNat
  if Ty.isInt t.toNat then
    let x := vI s h t.toNat a; let y := vI s h t.toNat b
    (List.range n).map fun i => icond c (x i) (y i)
  else
    let x := vF s h t.toNat a; let y := vF s h t.toNat b
    (List.range n).map fun i => fcond c (x i) (y i)
def vCmpLat (t : BitVec 4) : Nat := if Ty.isInt t.toNat then 2 else 4
/-- A compare into a lane mask: all 128 bits written (R146). -/
def vCmpMask (s : State) (h : VH) (t : BitVec 4) (d : BitVec 4) (a b : BitVec 9) (c : Nat) : Out :=
  let cs := vConds s h t a b c
  let act := active s h cs.length
  Out.wr (.mask h.f d.toNat) 128 (ofBools ((cs.zip act).map fun p => p.1 && p.2)) (vCmpLat t)
def opVCmpEq (h : VH) (t : BitVec 4) (d : BitVec 4) (a b : BitVec 9) (_rm : BitVec 3) (s : State) : Out := vCmpMask s h t d a b 0
def opVCmpNe (h : VH) (t : BitVec 4) (d : BitVec 4) (a b : BitVec 9) (_rm : BitVec 3) (s : State) : Out := vCmpMask s h t d a b 1
def opVCmpLt (h : VH) (t : BitVec 4) (d : BitVec 4) (a b : BitVec 9) (_rm : BitVec 3) (s : State) : Out := vCmpMask s h t d a b 2
def opVCmpLe (h : VH) (t : BitVec 4) (d : BitVec 4) (a b : BitVec 9) (_rm : BitVec 3) (s : State) : Out := vCmpMask s h t d a b 3
def opVCmpGt (h : VH) (t : BitVec 4) (d : BitVec 4) (a b : BitVec 9) (_rm : BitVec 3) (s : State) : Out := vCmpMask s h t d a b 4
def opVCmpGe (h : VH) (t : BitVec 4) (d : BitVec 4) (a b : BitVec 9) (_rm : BitVec 3) (s : State) : Out := vCmpMask s h t d a b 5
def opVCmpUn (h : VH) (t : BitVec 4) (d : BitVec 4) (a b : BitVec 9) (_rm : BitVec 3) (s : State) : Out := vCmpMask s h t d a b 6

/-- A uniform compare (R158): the lanes' common value onto `cq`, 0 with none active, `NONUNIF` when lanes active for certain
disagree (R169). -/
def vCmpU (s : State) (h : VH) (t : BitVec 4) (a b : BitVec 9) (c : Nat) : Out :=
  let cs := vConds s h t a b c
  let act := active s h cs.length
  let on := sure s h cs.length
  let ones := (cs.zip on).map fun p => p.1 && p.2
  let zeros := (cs.zip on).map fun p => !p.1 && p.2
  if ones.any id && zeros.any id then Out.mkTrap 6 (vSlot h.f) (lowest zeros + 2 ^ 8 * lowest ones)
  else Out.act [.cqPush ((cs.zip act).any fun p => p.1 && p.2) (vCmpLat t)]
def opVCmpEqU (h : VH) (t : BitVec 4) (a b : BitVec 9) (_rm : BitVec 3) (s : State) : Out := vCmpU s h t a b 0
def opVCmpNeU (h : VH) (t : BitVec 4) (a b : BitVec 9) (_rm : BitVec 3) (s : State) : Out := vCmpU s h t a b 1
def opVCmpLtU (h : VH) (t : BitVec 4) (a b : BitVec 9) (_rm : BitVec 3) (s : State) : Out := vCmpU s h t a b 2
def opVCmpLeU (h : VH) (t : BitVec 4) (a b : BitVec 9) (_rm : BitVec 3) (s : State) : Out := vCmpU s h t a b 3
def opVCmpGtU (h : VH) (t : BitVec 4) (a b : BitVec 9) (_rm : BitVec 3) (s : State) : Out := vCmpU s h t a b 4
def opVCmpGeU (h : VH) (t : BitVec 4) (a b : BitVec 9) (_rm : BitVec 3) (s : State) : Out := vCmpU s h t a b 5
def opVCmpUnU (h : VH) (t : BitVec 4) (a b : BitVec 9) (_rm : BitVec 3) (s : State) : Out := vCmpU s h t a b 6

/-- `any` and `all` (R159). -/
def vAnyAll (s : State) (h : VH) (t : BitVec 4) (ms : BitVec 4) (all : Bool) : Out :=
  let n := h.w.bits / Ty.bits t.toNat
  let act := active s h n
  let k := s.rd (vSlot h.f) (.mask h.f ms.toNat)
  let l := (List.range n).filter fun i => act.getD i false
  Out.act [.cqPush (if all then l.all (bitAt k) else l.any (bitAt k)) 2]
def opVAny (h : VH) (t : BitVec 4) (ms : BitVec 4) (s : State) : Out := vAnyAll s h t ms false
def opVAll (h : VH) (t : BitVec 4) (ms : BitVec 4) (s : State) : Out := vAnyAll s h t ms true

/-- Lanes moved unchanged (R160 to R163). -/
def vMoveLanes (s : State) (h : VH) (t : BitVec 4) (d : BitVec 9) (lat : Nat) (f : Nat → Nat → Nat) : Out :=
  let e := Ty.bits t.toNat
  vLanes s h d e lat fun i => ⟨f (h.w.bits / e) i, false, false, false, 0, 0⟩
def opVSel (h : VH) (t : BitVec 4) (d a b : BitVec 9) (ms : BitVec 4) (s : State) : Out :=
  let e := Ty.bits t.toNat
  let k := s.rd (vSlot h.f) (.mask h.f ms.toNat)
  let x := vReg s h a; let y := vReg s h b
  vMoveLanes s h t d 2 fun _ i => if bitAt k i then lane e x i else lane e y i
/-- Element i of the table T of R161. -/
def tabT (e n x y i : Nat) : Nat := if i < n then lane e x i else lane e y (i - n)
def opVPerm (h : VH) (t : BitVec 4) (d a b c : BitVec 9) (s : State) : Out :=
  let e := Ty.bits t.toNat
  let x := vReg s h a; let y := vReg s h b; let z := vReg s h c
  vMoveLanes s h t d 3 fun n i => tabT e n x y (lane e z i % (2 * n))
def opVShuf (h : VH) (t : BitVec 4) (pat : BitVec 3) (d a b k : BitVec 9) (s : State) : Out :=
  let e := Ty.bits t.toNat
  let x := vReg s h a; let y := vReg s h b
  vMoveLanes s h t d 3 fun n i =>
    match pat.toNat with
    | 0 => lane e x (n - 1 - i)
    | 1 => if i % 2 = 0 then lane e x (i / 2) else lane e y (i / 2)
    | 2 => if i % 2 = 0 then lane e x (n / 2 + i / 2) else lane e y (n / 2 + i / 2)
    | 3 => tabT e n x y (2 * i)
    | 4 => tabT e n x y (2 * i + 1)
    | 5 => lane e x ((i + k.toNat) % n)
    | _ => lane e x (i ^^^ 1)
def opVBcast (h : VH) (t : BitVec 4) (d a k : BitVec 9) (s : State) : Out :=
  let e := Ty.bits t.toNat
  let x := vReg s h a
  vMoveLanes s h t d 3 fun _ _ => lane e x k.toNat
/-- R164. -/
def opVIota (h : VH) (t : BitVec 4) (d : BitVec 9) (s : State) : Out :=
  vMoveLanes s h t d 2 fun _ i => if Ty.isInt t.toNat then i else ((fmtOf t.toNat).round .arith false 0 (ofInt i 0 false)).bits

/-- R166: kinds 0 to 4. -/
def opVMov (h : VH) (d a : BitVec 9) (s : State) : Out :=
  let x := vReg s h a
  vLanes s h d 32 2 fun i => ⟨lane 32 x i, false, false, false, 0, 0⟩
def opVMovCross (h : VH) (d a : BitVec 9) (s : State) : Out :=
  let g := otherFile h.f
  let n := h.w.bits / 32
  { wrs := [vWr g d.toNat 32 (activeIn s (vSlot h.f) g h.m n) (lanesOf 32 n (vReg s h a)) 2 .copy] }
def opVMovToScalar (f : VFile) (_w : VW) (d : BitVec 6) (a e : BitVec 9) (s : State) : Out :=
  s.wrS d.toNat (lane 64 (s.rdV (vSlot f) f a.toNat) e.toNat) 2 .copy
def opVMovMask (f : VFile) (d a : BitVec 4) (s : State) : Out :=
  Out.wr (.mask f d.toNat) 128 (s.rd (vSlot f) (.mask f a.toNat)) 2
def opVMovMaskCross (f : VFile) (d a : BitVec 4) (s : State) : Out :=
  Out.wr (.mask (otherFile f) d.toNat) 128 (s.rd (vSlot f) (.mask f a.toNat)) 2 .copy

/-- R167: the index is read at issue; a bank outside the demand traps `BANKX` then. -/
def movIx (s : State) (h : VH) (x : BitVec 6) (f : Nat → Out) : Out :=
  let j := s.rdS (vSlot h.f) x.toNat % 512
  if s.ix.bankx (vFileNo h.f) j then Out.mkTrap 4 (vSlot h.f) (bankxInfo (vFileNo h.f) j) else f j
def opMovIxGet (h : VH) (d : BitVec 9) (x : BitVec 6) (s : State) : Out :=
  movIx s h x fun j => let v := s.rdV (vSlot h.f) h.f j; vLanes s h d 32 2 fun i => ⟨lane 32 v i, false, false, false, 0, 0⟩
def opMovIxPut (h : VH) (a : BitVec 9) (x : BitVec 6) (s : State) : Out :=
  movIx s h x fun j => let v := vReg s h a
    vLanes s h (BitVec.ofNat 9 j) 32 2 fun i => ⟨lane 32 v i, false, false, false, 0, 0⟩

/-- R168. -/
def opVSpl (f : VFile) (w : VW) (a : BitVec 9) (k : BitVec 6) (s : State) : Out :=
  Out.act [.spill (vSlot f) (128 * k.toNat) (w.bits / 8) (row (s.rdV (vSlot f) f a.toNat % 2 ^ w.bits))]
def opVFil (h : VH) (d : BitVec 9) (k : BitVec 6) (s : State) : Out :=
  let n := h.w.bits / 32
  { wrs := [vWr h.f d.toNat 32 (active s h n) (lanesOf 32 n (spillRead s.ix (128 * k.toNat) (h.w.bits / 8))) 1 .load] }

end Sys2Proof.Machine
end

