-- ==== Sys2Proof/Machine/RedXfOp.lean ====
section
/-! DEFINITION. What each RD and XF operation decides (R221 to R243). -/

namespace Sys2Proof.Machine

/-! ### RD -/

/-- The source row of a reduction (R222): a local row named by `la`src, or slot `con` of a handle. -/
def rdSrc (s : State) (a : ASrc) : Except Out Nat :=
  if a.h then consume s 11 a.r.toNat 0
  else do
    let r ← spaceLocal 11 (s.rdLa 11 a.r.toNat)
    .ok (s.rdRow 11 r)

/-- hi, lo and the integer value of a 56-bit lane (R221). -/
def hiOf (l : Nat) : Nat := l % 2 ^ 32
def loOf (l : Nat) : Nat := bitsAt l 32 24
def hiLo (hi lo : Nat) : Nat := hi % 2 ^ 32 + lo % 2 ^ 24 * 2 ^ 32
/-- The range of an integer lane (R225). -/
def int56 : Int := 2 ^ 55 - 1

/-- fl32 of a sum of two binary32 numbers. -/
def addF32 (a b : Nat) : Nat := (fmtF32.round .arith false 0 (FV.add 0 (fmtF32.dec a) (fmtF32.dec b)).1).bits
/-- Level by level, pairs (2m, 2m+1) (R225). -/
def pairUp : List Nat → List Nat
  | a :: b :: r => addF32 a b :: pairUp r
  | l => l
def pairTree : Nat → List Nat → Nat
  | 0, l => l.headD 0
  | n + 1, l => pairTree n (pairUp l)

/-- The exact sum of values; one that is zero is -0 where every term is (log entry 15, DEDUCED). -/
def exactSum : List FV → FV
  | [] => .fin false 0 0
  | v :: l => l.foldl (fun a v => (FV.add 0 a v).1) v

/-- hi and lo after adding an exact amount g with compensation (R225, R253): TwoSum of hi and fl32(g), and one rounding
of lo. -/
def addComp (hi lo : Nat) (g : FV) : Nat × Nat :=
  let gh := fmtF32.round .arith false 0 g
  let ghv := fmtF32.dec gh.bits
  let h := fmtF32.dec hi
  let s := fmtF32.round .arith false 0 (FV.add 0 h ghv).1
  let sv := fmtF32.dec s.bits
  if h.odd || ghv.odd || sv.odd then (s.bits, 0)
  else
    let gl := fl32 (FV.add 0 g ghv.neg).1
    let e := (FV.add 0 (FV.add 0 h ghv).1 sv.neg).1
    let l := (FV.add 0 (FV.add 0 (fmtLo.dec lo) e).1 gl).1
    (s.bits, (fmtLo.round .arith true 0 l).bits)

/-- The largest or smallest non-NaN element, with -0 below +0 (R225). -/
def pickF (mx : Bool) (a b : Option Nat) : Option Nat :=
  match a, b with
  | none, x => x
  | x, none => x
  | some x, some y => some (fMinMax 10 mx x y)
def extremeF (mx : Bool) (l : List Nat) : Option Nat :=
  (l.filter fun x => !(fmtF32.dec x).isNan).foldl (fun a x => pickF mx a (some x)) none

/-- The lowest index with the largest magnitude among non-NaN lanes. -/
def amaxIdx (l : List Nat) : Option (Nat × Nat) :=
  (List.range l.length).foldl (fun (a : Option (Nat × Nat)) i =>
    let x := l.getD i 0
    if (fmtF32.dec x).isNan then a
    else match a with
      | none => some (i, x % 2 ^ 31)
      | some p => if p.2 < x % 2 ^ 31 then some (i, x % 2 ^ 31) else a) none

/-- The five reductions by opcode, 1 to 5 (R225): the latch after a row, and the number of saturations. -/
def reduce (op ty f : Nat) (r : Nat) (l : Latch) : Latch × Nat :=
  let fold := 2 ^ f
  let lanes := lanesOf 32 32 r
  let step (j : Nat) : Nat × Nat :=
    let L := lane 56 l.lanes.toNat j
    let g := (lanes.drop (j * fold)).take fold
    if 32 / fold ≤ j then (L, 0)
    else if ty = 0 then
      if op = 1 then (hiLo (addF32 (hiOf L) (pairTree f g)) (loOf L), 0)
      else if op = 2 then let p := addComp (hiOf L) (loOf L) (exactSum (g.map fmtF32.dec)); (hiLo p.1 p.2, 0)
      else if op = 5 then
        match amaxIdx g with
        | some t => if (fmtF32.dec (hiOf L)).lt (fmtF32.dec t.2) then (hiLo t.2 (32 * l.cnt + (j * fold + t.1)), 0) else (L, 0)
        | none => (L, 0)
      else
        match extremeF (op = 3) g with
        | none => (hiLo (hiOf L) 0, 0)
        | some m => (hiLo (if (fmtF32.dec (hiOf L)).isNan then m else fMinMax 10 (op = 3) (hiOf L) m) 0, 0)
    else
      let xs := g.map (tval (ty = 1) 32)
      let v := sval 56 L
      if op ≤ 2 then let c := clampI (-int56) int56 (xs.foldl (· + ·) v); (wrap 56 c.1, b2n c.2)
      else (wrap 56 (xs.foldl (fun a x => if op = 3 then max a x else min a x) v), 0)
  let rs := (List.range 32).map step
  ({ lanes := BitVec.ofNat 1792 (ofLanes 56 (rs.map (·.1))), cnt := min (l.cnt + 1) 65535 }, rs.foldl (fun a p => a + p.2) 0)

def Ctx.latch (x : Ctx) (l : Nat) : Latch := tget {} x.latches l

def rdReduce (s : State) (op : Nat) (l : BitVec 2) (a : ASrc) (t : BitVec 2) (fold : BitVec 3) : Out :=
  localPath s (withOp (rdSrc s a) fun r =>
    let p := reduce op t.toNat fold.toNat r (s.ix.latch l.toNat)
    { wrs := countWr .satcAdd p.2 6, acts := [.latch l.toNat p.1 true] })
def opRdAdd (l : BitVec 2) (a : ASrc) (t : BitVec 2) (fold : BitVec 3) (s : State) : Out := rdReduce s 1 l a t fold
def opRdKadd (l : BitVec 2) (a : ASrc) (t : BitVec 2) (fold : BitVec 3) (s : State) : Out := rdReduce s 2 l a t fold
def opRdMax (l : BitVec 2) (a : ASrc) (t : BitVec 2) (fold : BitVec 3) (s : State) : Out := rdReduce s 3 l a t fold
def opRdMin (l : BitVec 2) (a : ASrc) (t : BitVec 2) (fold : BitVec 3) (s : State) : Out := rdReduce s 4 l a t fold
def opRdAmax (l : BitVec 2) (a : ASrc) (t : BitVec 2) (fold : BitVec 3) (s : State) : Out := rdReduce s 5 l a t fold

/-- The value V_i of one lane (R226), and whether it was clamped. -/
def latchValue (mode ty L : Nat) : Nat × Bool :=
  if mode = 0 then
    if ty = 0 then ((fmtF32.round .arith false 0 (FV.add 0 (fmtF32.dec (hiOf L)) (fmtLo.dec (loOf L))).1).bits, false)
    else let c := clampI (imin (ty = 1) 32) (imax (ty = 1) 32) (sval 56 L); (wrap 32 c.1, c.2)
  else if mode = 1 then (hiOf L, false)
  else if mode = 2 then (loOf L * 256, false)
  else (loOf L, false)

/-- R226, R223: a latch whose last operation is fewer than 6 counted bundles old gives an unpredictable result. -/
def opRdMv (l mode t : BitVec 2) (d : DReg) (k : BitVec 5) (clr : Bool) (s : State) : Out :=
  let x := s.ix
  let p := x.latch l.toNat
  let early := x.bcount < tget 0 x.latchDue l.toNat
  let acts : List Act := if clr then [.latch l.toNat {} true] else []
  let wr (dst : Dest) (w v : Nat) : Wr :=
    let m := row (2 ^ w - 1)
    { dest := dst, mask := m, val := row v, open_ := if early then m else 0, lat := 2, port := .copy }
  match d with
  | .v r =>
    let vs := (List.range 32).map fun i => latchValue mode.toNat t.toNat (lane 56 p.lanes.toNat i)
    { wrs := wr (.v r.f r.n.toNat) 1024 (ofLanes 32 (vs.map (·.1))) ::
        countWr .satcAdd (vs.foldl (fun a v => a + b2n v.2) 0) 2, acts := acts }
  | .s n =>
    let L := lane 56 p.lanes.toNat k.toNat
    let v := if mode = 0 ∧ t ≠ 0 then (sextW 56 L).toNat else (latchValue mode.toNat t.toNat L).1
    { wrs := [wr (x.sD n.toNat) 64 v], acts := acts }

/-- R227. -/
def latchInit (init ty : Nat) : Latch :=
  let v := if init = 0 then 0
    else if ty = 0 then (if init = 1 then 0xFF800000 else 0x7F800000)
    else wrap 56 (if init = 1 then -int56 else int56)
  { lanes := BitVec.ofNat 1792 (ofLanes 56 (List.replicate 32 v)), cnt := 0 }
def opRdClr (m : BitVec 4) (init t : BitVec 2) (_s : State) : Out :=
  Out.act (((List.range 4).filter fun l => bitAt m.toNat l).map fun l => .latch l (latchInit init.toNat t.toNat) true)

/-! ### XF -/

/-- Fields of a transform register (R228). -/
def xRow (x : Nat) : Nat := x % 2 ^ 13
def xParam (x : Nat) : Nat := bitsAt x 32 32
/-- The register after an AUTO step. -/
def xStep (x : Nat) : Nat := wrap 13 ((xRow x : Int) + sval 16 (bitsAt x 16 16)) + 2 ^ 15 + bitsAt x 16 48 * 2 ^ 16
/-- The AUTO steps of the registers whose ROW an instruction uses; a register named twice steps once (R228). -/
def autoWr (s : State) (l : List (BitVec 4)) : List Wr :=
  (l.eraseDups.filter fun n => bitAt (s.rdX 10 n.toNat) 15).map fun n =>
    { dest := .x n.toNat, mask := row (2 ^ 64 - 1), val := row (xStep (s.rdX 10 n.toNat)), lat := 1, port := .owner }

/-- A row a register names, offset rows on, wrapping (R228). -/
def xAddr (s : State) (n : BitVec 4) : Nat := xRow (s.rdX 10 n.toNat)
/-- The row a source register names; in a replacement after b0, the one it named at b0 (R292). -/
def xFrom (s : State) (n : BitVec 4) : Nat :=
  match s.iss.from0 with
  | some t => xRow (tget 0 t n.toNat).toNat
  | none => xAddr s n
def xSrc (s : State) (n : BitVec 4) (i : Nat) : Nat := s.rdRow 10 (xFrom s n + i)
/-- A whole-row write at the result position (R229). -/
def xfWr (r v lat : Nat) (mask : Nat := 2 ^ 1024 - 1) (t : Option TileUpd := none) : Wr :=
  { dest := .pad (r % 8192), mask := row mask, val := row v, lat := lat, port := .owner, tile := t }

/-- The magnitude of a lane as binary32 bits, NaN ignored (R232). -/
def magF32 (t x : Nat) : Nat :=
  match (elemVal t x).abs with
  | .nan => 0
  | v => (fmtF32.round .arith false 0 v).bits

/-- R231, R232. -/
def opXfCvt (tt src : BitVec 4) (d a q : BitVec 4) (tile : Bool) (s : State) : Out :=
  let es := Ty.bits src.toNat
  let et := Ty.bits tt.toNat
  let n := 1024 / max es et
  let x := xSrc s a 0
  let ix := (List.range n).map fun i => lane es x (if es < et then q.toNat * n + i else i)
  let rs := ix.map (cvtLane src.toNat tt.toNat s.fmtRm)
  let sat := rs.foldl (fun a r => a + r.sat) 0
  let rsv := rs.foldl (fun a r => a + r.rsv) 0
  let sh := if et < es then q.toNat * n * et else 0
  let u : TileUpd := { tt := tt.toNat, row := xAddr s d, joins := es ≤ et || q.toNat + 1 == Ty.ratio src.toNat tt.toNat,
                       tmax := BitVec.ofNat 32 (ix.foldl (fun m v => max m (magF32 src.toNat v)) 0), sat := sat, rsv := rsv }
  { wrs := xfWr (xAddr s d) (ofLanes et (rs.map (·.v)) <<< sh) 6 (onesAt sh (n * et)) (if tile then some u else none) ::
      (if tile then [] else countWr .satcAdd sat 6 ++ countWr .rsvcAdd rsv 6) ++ autoWr s [d, a] }

/-- R238. -/
def opXfTr (e : BitVec 2) (d a : BitVec 4) (s : State) : Out :=
  let w := 8 * 2 ^ e.toNat
  let n := 1024 / w
  let ins := (List.range 8).map fun r => xSrc s a r
  { wrs := ((List.range 8).map fun r => xfWr (xAddr s d + r)
      (ofLanes w ((List.range n).map fun i => lane w (ins.getD (i % 8) 0) (i / 8 * 8 + r))) 8) ++ autoWr s [d, a] }

/-- The expansion of a packed row (R234), if it decodes. -/
def unpack (v : Nat) : Option Nat :=
  let e := v % 4
  let w := 8 * 2 ^ e
  let n := 1024 / w
  let m := n / 8
  let k := bitsAt v 8 8
  let map := bitsAt v 16 n
  let len := 2 + m + k * (w / 8)
  if bitsAt v 3 5 ≠ 0b10110 ∨ e = 3 ∨ bitAt v 2 ∨ k ≠ popcount n map ∨ 128 < len ∨ v / 2 ^ (8 * len) ≠ 0 then none
  else
    some (((List.range n).foldl (fun (p : Nat × Nat) i =>
      if bitAt map i then (p.1 + (bitsAt v (8 * (2 + m) + p.2 * w) w) <<< (w * i), p.2 + 1) else p) (0, 0)).1)

/-- The packed form of a row (R235). -/
def pack (e v : Nat) : Nat :=
  let w := 8 * 2 ^ e
  let n := 1024 / w
  let m := n / 8
  let xs := lanesOf w n v
  let nz := xs.filter (· ≠ 0)
  if 128 < 2 + m + nz.length * (w / 8) then e + 4 + 0b10110 * 8
  else e + 0b10110 * 8 + nz.length * 2 ^ 8 + ofBools (xs.map (· != 0)) * 2 ^ 16 + ofLanes w nz * 2 ^ (8 * (2 + m))

/-- `XFERR` (R237). -/
def xfErr (code r : Nat) : Out := Out.mkTrap 15 10 (code + r * 2 ^ 8)

def opXfExpZr (d a : BitVec 4) (s : State) : Out :=
  match unpack (xSrc s a 0) with
  | some v => { wrs := xfWr (xAddr s d) v 6 :: autoWr s [d, a] }
  | none => xfErr 1 (xFrom s a)

/-- The dense row of a 2:4 row (R236), if its metadata is well formed. -/
def expand24 (w v : Nat) : Option Nat :=
  let n := 1024 / w
  let md (g : Nat) : Nat := bitsAt v (512 + 8 * g) 8
  let bad := (List.range (n / 4)).any fun g => bitsAt (md g) 4 4 != 0 || decide (bitsAt (md g) 2 2 ≤ bitsAt (md g) 0 2)
  if bad || v / 2 ^ (512 + 8 * (n / 4)) != 0 then none
  else some ((List.range (n / 4)).foldl (fun a g =>
    a + (lane w v (2 * g)) <<< (w * (4 * g + bitsAt (md g) 0 2)) + (lane w v (2 * g + 1)) <<< (w * (4 * g + bitsAt (md g) 2 2))) 0)
def opXfExpSp24 (e : BitVec 2) (d a : BitVec 4) (s : State) : Out :=
  match expand24 (8 * 2 ^ e.toNat) (xSrc s a 0) with
  | some v => { wrs := xfWr (xAddr s d) v 6 :: autoWr s [d, a] }
  | none => xfErr 2 (xFrom s a)
def opXfPack (e : BitVec 2) (d a : BitVec 4) (s : State) : Out :=
  { wrs := xfWr (xAddr s d) (pack e.toNat (xSrc s a 0)) 6 :: autoWr s [d, a] }
/-- R239. -/
def opXfRot (d a b : BitVec 4) (k : BitVec 7) (s : State) : Out :=
  { wrs := xfWr (xAddr s d) (bitsAt (xSrc s a 0 + xSrc s b 0 * 2 ^ 1024) (8 * k.toNat) 1024) 3 :: autoWr s [d, a, b] }
/-- R240: type 00 f32, 01 bf16, 10 f16. -/
def xfSclType (t : BitVec 2) : Nat := if t = 0 then 10 else if t = 1 then 9 else 8
def opXfScl (t : BitVec 2) (v : Bool) (rm : BitVec 3) (d a b : BitVec 4) (s : State) : Out :=
  let ty := xfSclType t
  let w := Ty.bits ty
  let x := xSrc s a 0
  let sc (i : Nat) : FV := fmtF32.dec (if v then lane 32 (xSrc s b 0) i else xParam (s.rdX 10 b.toNat))
  let o : Ovf := if s.fmtSat then .largest else .arith
  let m := rmode rm.toNat s.fmtRm
  let r := (List.range (1024 / w)).map fun i => ((fmtOf ty).round o false m (((fmtOf ty).dec (lane w x i)).mul (sc i)).1).bits
  { wrs := xfWr (xAddr s d) (ofLanes w r) 6 :: autoWr s (if v then [d, a, b] else [d, a]) }

/-- The fields of a colophon that follow from the tile state; the other bits of `xf.col.w`'s row are the scale's or zero. -/
def colTileBits : Nat := onesAt 32 132 + 2 ^ 168 + onesAt 176 16
/-- R233: the tile state as it stands at issue; updates still to come leave the fields unpredictable (R89).  `XFERR` code 3 shows the
row of xd in INFO<20:8>, as this form has no source row (log entry 113, DESIGN CHOICE).  A replacement after b0 has been checked there
(R292). -/
def opXfColW (d b : BitVec 4) (s : State) : Out :=
  let x := s.ix
  let t := x.tile
  let early := x.pend.any fun p => p.tile.isSome && x.bcount < p.due
  if t.trows = 0 ∧ !early ∧ s.iss.from0.isNone then xfErr 3 (xAddr s d)
  else
    let r := xAddr s d
    let v := colophon (xParam (s.rdX 10 b.toNat)) t.tmax.toNat t.tsat t.trsv (t.tcrc.toNat ^^^ 0xFFFFFFFF) t.tfmt
      (t.tv && r == (t.tfirst + t.trows) % 8192) t.trows
    { wrs := { xfWr r v 6 with open_ := if early then row colTileBits else 0 } :: autoWr s [d], acts := [.tileClr] }

/-- A colophon check (R70): 0 when it holds, else the first failed condition. -/
def colCheck (c : Nat) (ty rows : Nat) (payload : List Nat) : Nat :=
  if !bitAt c 168 then 1
  else if bitsAt c 160 4 ≠ ty then 2
  else if bitsAt c 176 16 ≠ rows then 3
  else if bitsAt c 192 64 ≠ 0 ∨ bitsAt c 164 4 ≠ 0 ∨ bitsAt c 169 7 ≠ 0 ∨ bitsAt c 256 768 ≠ 0 then 4
  else if bitsAt c 128 32 ≠ (payload.foldl (fun a v => crcRun a (bytesOf 128 v)) 0xFFFFFFFF) ^^^ 0xFFFFFFFF then 5
  else 0
/-- Rows of a colophon. -/
def colRows (c : Nat) : Nat := bitsAt c 176 16
/-- `COLOPHON` (Table 18-10). -/
def colTrap (slot code r ty : Nat) (ring : Bool) : Out :=
  Out.mkTrap 8 slot (code + r * 2 ^ 4 + b2n ring * 2 ^ 17 + ty * 2 ^ 18)

def opXfColChk (t : BitVec 4) (a : BitVec 4) (s : State) : Out :=
  let r := xFrom s a
  let c := s.rdRow 10 r
  let n := colRows c
  let code := colCheck c t.toNat n ((List.range n).map fun i => s.rdRow 10 (r + 8192 * 9 - n + i))
  if code ≠ 0 then colTrap 10 code r t.toNat false
  else { wrs := autoWr s [a], acts := [.wait (.cycle (s.now + n + 4))] }
def opXfColRd (d a : BitVec 4) (s : State) : Out :=
  let c := xSrc s a 0
  { wrs := (autoWr s [a]).filter (fun w => w.dest ≠ .x d.toNat) ++
      [{ dest := .x d.toNat, mask := row (2 ^ 64 - 1), val := row (bitsAt c 32 32 * 2 ^ 32 + bitsAt c 0 32), lat := 6, port := .owner }] }
def opXfColClr (_s : State) : Out := Out.act [.tileClr]
/-- R241. -/
def opXfSwz (d a : BitVec 4) (sh : BitVec 3) (k : Bool) (s : State) : Out :=
  let r := if k then xAddr s d else xFrom s a
  { wrs := xfWr (xAddr s d) (swizzle ((r >>> sh.toNat) % 8) (xSrc s a 0)) 3 :: autoWr s [d, a] }
/-- R242. -/
def opXfMvRow (d a : BitVec 4) (s : State) : Out := { wrs := xfWr (xAddr s d) (xSrc s a 0) 2 :: autoWr s [d, a] }
def opXfMvScalar (n : BitVec 6) (a : BitVec 4) (s : State) : Out := s.wrS n.toNat (s.rdX 10 a.toNat) 2 .copy
def opXfMvReg (d a : BitVec 4) (s : State) : Out := Out.wr (.x d.toNat) 64 (s.rdX 10 a.toNat) 2

end Sys2Proof.Machine
end

