-- ==== Sys2Proof/Machine/MatrixOp.lean ====
section
/-! DEFINITION. What each MX operation decides (R244 to R280, R295 to R299), the summation of the array, and what a queue
entry does when it completes. -/

namespace Sys2Proof.Machine

/-! ### `fmt` as the array reads it (Table 04-2, Table 10-1) -/

def State.fAF (s : State) : Nat := bitsAt s.fmtW 0 4
def State.fBF (s : State) : Nat := bitsAt s.fmtW 4 4
def State.fDF (s : State) : Nat := bitsAt s.fmtW 8 4
def State.fACC (s : State) : Nat := bitsAt s.fmtW 12 2

/-- An accepted pair, and whether its accumulate mode is float. -/
def mxPair (a b : Nat) : Option Bool :=
  if (a = 11 ∨ a = 12) ∧ (b = 11 ∨ b = 12) then some true
  else if a = 0 ∧ (b = 0 ∨ b = 13) then some false
  else if a = b ∧ (a = 8 ∨ a = 9) then some true else none

/-- 16-bit types take two plane rows to a row of A (R247). -/
def wide16 (t : Nat) : Bool := t == 8 || t == 9
def rhoOf (t : Nat) : Nat := if wide16 t then 2 else 1
/-- The entry time E (Table 10-1). -/
def entryTime (a b r : Nat) : Nat := if b = 13 then (r + 1) / 2 else if wide16 a then 2 * r else r

/-- `MXERR` (R256). -/
def mxErr (code slot tile : Nat) : Out := Out.mkTrap 16 5 (code + slot * 2 ^ 8 + tile * 2 ^ 14)

/-! ### Tiles, slots, `mbest` (R245, R246, R268) -/

/-- A tile as every accepted operation will leave it (R250). -/
def Core.vtile (c : Core) (n : Nat) : Tile :=
  c.mq.foldl (fun t e => if e.acc = n then e.tile.getD t else t) (tget {} c.tiles n)

/-- A tile with free values in the rows for which the test holds. -/
def Tile.freed (t : Tile) (s : State) (key : Nat) (f : Nat → Bool) : Tile :=
  { t with rows := (List.range 32).foldl (fun m i =>
      if f i then tset 0 m i (BitVec.ofNat 7168 (s.free (key + i))) else m) t.rows }

def Core.wslot (c : Core) (n : Nat) : WSlot := tget {} c.slots n

/-- Element (k, j) of the B tile in stored rows (Table 10-3). -/
def bElem (ty : Nat) (sp : Bool) (rows : Tab Row) (k j : Nat) : Nat :=
  let r (i : Nat) : Nat := (tget 0 rows i).toNat
  if sp then
    let md := lane 4 (lane 8 (r (64 + k / 8)) j) (k / 4 % 2)
    if md % 4 = k % 4 then lane 8 (r (2 * (k / 4))) j
    else if md / 4 = k % 4 then lane 8 (r (2 * (k / 4) + 1)) j else 0
  else if ty = 13 then lane 2 (r (k / 4)) (128 * (k % 4) + j)
  else if wide16 ty then lane 16 (r (2 * k + j / 64)) (j % 64)
  else lane 8 (r k) j

/-- The running-best register after offers of one row's distances (R269). -/
def bestOffer (kind tie : Bool) (pass : Nat) (e : Nat) (j D : Nat) : Nat :=
  let c := 128 * pass + j
  let idx := bitsAt e 32 15
  let vld := bitAt e 48
  let old := e % 2 ^ 32
  let tw := if tie then decide (idx < c) else decide (c < idx)
  let win :=
    if !vld || bitAt e 47 != kind then true
    else if kind then
      let d := fmtF32.dec D
      let o := fmtF32.dec old
      if d.isNan && o.isNan then tw
      else if d.isNan then false
      else if o.isNan then true
      else d.lt o || (d.eq o && tw)
    else decide (sval 32 D < sval 32 old) || (D == old && tw)
  if win then D + c * 2 ^ 32 + b2n kind * 2 ^ 47 + 2 ^ 48 else e

/-- `mbest` after a queue entry. -/
def bestApply (m : Tab Word) (e : MxEnt) : Tab Word :=
  match e.op with
  | .dist => (List.range e.rows).foldl (fun m i =>
      let ds := e.offers.getD i []
      tput m i (BitVec.ofNat 64 ((List.range 128).foldl
        (fun b j => bestOffer e.kind e.tie e.pass b j (ds.getD j 0).toNat) (tget 0 m i).toNat))) m
  | .bestClear => (List.range e.rows).foldl (fun m i => tdel m i) m
  | _ => m

/-- `mbest` of a context as every operation so far will leave it (R270). -/
def State.vbest (s : State) (k j : Nat) : Tab Word :=
  (s.core k).mq.foldl (fun m e => if e.ctx = j then bestApply m e else m) (s.ctx k j).mbest
/-- The same as a reader in this bundle sees it: free entries while an update is too close (R270). -/
def State.readBest (s : State) : Nat → Nat :=
  if s.ix.bcount < s.ix.mbestDue then fun i => s.free (720000 + i) % 2 ^ 64
  else
    let m := s.vbest s.ik s.ij
    fun i => (tget 0 m i).toNat

/-! ### Planes of operands (R247) -/

/-- A plane of n rows as (row of the scratchpad, value read), with a swizzle undone. -/
def mxPlane (s : State) (a : ASrc) (n : Nat) : Except Out (List (Nat × Nat)) :=
  let h := a.r.toNat
  if s.ix.fenced then .error Out.wait
  else if a.h then do
    let r ← boundRing s 5 h
    if r.n < n then .error (spRangeH 5 h n)
    else if r.filled < n then .error Out.wait
    else (List.range n).mapM fun i => do
      let v ← ringSlot s 5 h r i
      let w := r.base + r.slotAt r.con i
      .ok (w, swizzle (ringKey r w) v)
  else
    let b := s.rdLa 5 h
    if b / 2 ^ 20 ≠ 0 then .error (spRange 5 b)
    else .ok ((List.range n).map fun i => let w := (b / 128 + i) % 8192; (w, s.rdRow 5 w))

/-- Tr on each group of 8 rows (R238, R247). -/
def trRows (w : Nat) (l : List Nat) : List Nat :=
  (List.range l.length).map fun m =>
    let g := m / 8 * 8
    ofLanes w ((List.range (1024 / w)).map fun i => lane w (l.getD (g + i % 8) 0) (i / 8 * 8 + m % 8))

/-- The depth elements of row i of an A plane. -/
def aRow (af : Nat) (pl : List Nat) (i : Nat) : List Nat :=
  if wide16 af then lanesOf 16 64 (pl.getD (2 * i) 0) ++ lanesOf 16 64 (pl.getD (2 * i + 1) 0)
  else lanesOf 8 128 (pl.getD i 0)

/-- Row of a colophon for the information word: the ring slot for a handle (Table 18-10). -/
def colPlace (s : State) (a : ASrc) (w : Nat) : Nat := if a.h then w - (s.ix.ring a.r.toNat).base else w

/-- A plane of n rows with, under CHK, its colophon after it checked (R258): the rows, and the reserved-code count. -/
def mxChecked (s : State) (a : ASrc) (n ty : Nat) (chk : Bool) : Except Out (List (Nat × Nat) × Nat) := do
  let l ← mxPlane s a (n + b2n chk)
  if chk then
    let p := l.take n
    let c := l.getD n (0, 0)
    let code := colCheck c.2 ty n (p.map (·.2))
    if code ≠ 0 then .error (colTrap 5 code (colPlace s a c.1) ty a.h)
    else .ok (p, bitsAt c.2 96 32)
  else .ok (l, 0)

/-- The next bundle issues Rows + 4 cycles after issue (R258). -/
def chkWait (s : State) (n : Nat) (chk : Bool) : List Act := if chk then [.wait (.cycle (s.now + n + 4))] else []

/-! ### The queue (R248, R249) -/

def Core.mqBusy (c : Core) : Nat := (c.mq.filter fun e => e.op != .bestClear).length
/-- A load of the slot, or of its pair, is pending. -/
def Core.ldwPending (c : Core) (ws : Nat) (pair : Bool) : Bool :=
  c.mq.any fun e => e.slots.any fun w => w.1 == ws || (pair && w.1 == ws + 1)
/-- The plane that holds a B tile: 0 or 1, or 2 for none. -/
def Core.planeOf (c : Core) (ws : Nat) (pair : Bool) : Nat :=
  let f (p : Plane) : Bool := p.slot == some ws && p.pair == pair
  if f c.plane0 then 0 else if f c.plane1 then 1 else 2
def Core.plane (c : Core) (i : Nat) : Plane := if i = 0 then c.plane0 else c.plane1

/-- The wait for a queue that does not accept; nothing while only checks are made (R292). -/
def mqWait (s : State) (ok : Bool) (pre : List Act) (o : Out) : Out :=
  if ok ∨ s.iss.dry then o else Out.wait pre

/-- An instruction that waits at issue and names a B tile that no plane holds asks for a plane (R249). -/
def planeAsk (s : State) (ws : Nat) (pair : Bool) (o : Out) : Out :=
  if o.stall && !s.iss.dry && (s.core s.ik).planeOf ws pair == 2 then { o with pre := [.plane ws pair] } else o

/-- The wait of an array instruction for its plane, its entry stage and a free entry. -/
def arrayWait (s : State) (ws : Nat) (pair : Bool) (o : Nat → Out) : Out :=
  let c := s.core s.ik
  let p := c.planeOf ws pair
  if s.iss.dry then o p
  else if p = 2 then Out.wait
  else if c.mqBusy < 8 ∧ c.entryFree ≤ s.now ∧ (c.plane p).ready ≤ s.now then o p else Out.wait

/-! ### Summation (R252 to R254) -/

/-- The sum of a group of exact products, as binary32 bits (R252). -/
def groupSum (fw : Nat) (ps : List FV) : Nat :=
  let pinf := ps.any fun p => p == .inf false
  let ninf := ps.any fun p => p == .inf true
  if ps.any FV.isNan || (pinf && ninf) then fmtF32.qnan
  else if pinf || ninf then fmtF32.infBits + (if ninf then fmtF32.signBit else 0)
  else
    let e := ps.foldl (fun (a : Option Int) p =>
      match p with
      | .fin _ m x => if m = 0 then a else
          let v := (Nat.log2 m : Int) + x
          some (match a with | some b => max b v | none => v)
      | _ => a) none
    match e with
    | none => 0
    | some e =>
      let u : Int := e - fw + 2
      let q : Int := ps.foldl (fun (q : Int) p =>
        match p with
        | .fin n m x =>
          let t := if u ≤ x then m <<< (x - u).toNat else m >>> (u - x).toNat
          if n then q - t else q + t
        | _ => q) 0
      (fmtF32.round .arith true 0 (ofInt q u false)).bits

/-- The accumulate step (R253). -/
def accAdd (el g : Nat) : Nat :=
  let h := fmtF32.dec (hiOf el)
  let gv := fmtF32.dec g
  let x := (FV.add 0 h gv).1
  let sb := (fmtF32.round .arith true 0 x).bits
  let sv := fmtF32.dec sb
  if h.odd || gv.odd || sv.odd then hiLo sb 0
  else
    let e := (FV.add 0 x sv.neg).1
    hiLo sb (fmtLo.round .arith true 0 (FV.add 0 (fmtLo.dec (loOf el)) e).1).bits

/-- Lists of n at a time; the first argument bounds their number. -/
def chunks {α : Type} (n : Nat) : Nat → List α → List (List α)
  | 0, _ => []
  | f + 1, l => if l.isEmpty then [] else l.take n :: chunks n f (l.drop n)

/-- A float element after a pass of 128 products. -/
def floatPass (wide : Bool) (el : Nat) (ps : List FV) : Nat :=
  (chunks (if wide then 8 else 16) 16 ps).foldl (fun a g => accAdd a (groupSum (if wide then 34 else 25) g)) el

/-- An integer element after a pass, and whether it clamped (R254). -/
def intPass (el : Nat) (sum : Int) : Nat × Bool :=
  let c := clampI (-int56) int56 (sval 56 el + sum)
  (wrap 56 c.1, c.2)

/-- A row of float elements after a pass: A values by depth (fewer than 128 count as exact zeros) against columns. -/
def floatRow (wide : Bool) (old : Nat) (ovw : Bool) (a : List FV) (cols : List (List FV)) : Nat :=
  ofLanes 56 ((List.range 128).map fun j =>
    let ps := List.zipWith (fun x y => (FV.mul x y).1) a (cols.getD j [])
    let ps := ps ++ List.replicate (128 - ps.length) (FV.fin false 0 0)
    floatPass wide (if ovw then 0 else lane 56 old j) ps)

/-- The same for integers, with the number of clamps. -/
def intRow (old : Nat) (ovw : Bool) (a : List Int) (cols : List (List Int)) : Nat × Nat :=
  let r := (List.range 128).map fun j =>
    intPass (if ovw then 0 else lane 56 old j) ((List.zipWith (· * ·) a (cols.getD j [])).foldl (· + ·) 0)
  (ofLanes 56 (r.map (·.1)), r.foldl (fun n p => n + b2n p.2) 0)

/-- Integer value of an A or B element of i8 or t2. -/
def intElem (t x : Nat) : Int := if t = 13 then (if x = 1 then 1 else if x = 3 then -1 else 0) else sval 8 x

/-- A tile after a pass of A rows, one to a tile row (R258, without VAL and the counts of an overwrite). -/
def passTile (t : Tile) (af bf : Nat) (ovw : Bool) (as : List (List Nat)) (b : Nat → Nat → Nat) : Tile × Nat :=
  let old (i : Nat) : Nat := (tget 0 t.rows i).toNat
  if Ty.anyFloat af then
    let cols := (List.range 128).map fun j => (List.range 128).map fun k => (fmtOf bf).decZ (b k j)
    ({ t with rows := (List.range as.length).foldl (fun m i =>
        tset 0 m i (BitVec.ofNat 7168 (floatRow (wide16 af) (old i) ovw ((as.getD i []).map (fmtOf af).decZ) cols))) t.rows }, 0)
  else
    let cols := (List.range 128).map fun j => (List.range 128).map fun k => intElem bf (b k j)
    let rs := as.map fun a => a.map (intElem af)
    let p := (List.range as.length).foldl (fun (p : Tab (BitVec 7168) × Nat) i =>
      let r := intRow (old i) ovw (rs.getD i []) cols
      (tset 0 p.1 i (BitVec.ofNat 7168 r.1), p.2 + r.2)) (t.rows, 0)
    ({ t with rows := p.1 }, p.2)

/-- VAL and the counts after an array instruction (R258). -/
def Tile.counts (t : Tile) (ovw : Bool) (sat rsv : Nat) : Tile :=
  let a := if ovw then 0 else t.asat
  let r := if ovw then 0 else t.arsv
  { t with val := t.val || ovw, asat := satAdd32 a sat, arsv := satAdd32 r rsv }

/-! ### `mma`, `mop` -/

/-- Whether two slots have the same descriptor (R246). -/
def WSlot.sameDesc (a b : WSlot) : Bool :=
  a.loaded == b.loaded && a.ty == b.ty && a.sp == b.sp && a.malf == b.malf && a.srsv == b.srsv
/-- Code 2 of Table 10-4 for `mdrain` and `mrow`: ACC is 10 or 11, or not the mode that the pair of AF and BF needs. -/
def State.accBad (s : State) : Bool :=
  decide (2 ≤ s.fACC) || (match mxPair s.fAF s.fBF with | some f => f != (s.fACC == 1) | none => false)
/-- The checks of R256 for `mma`, `mop` and `mdist`, lowest code first. -/
def arrayErr (s : State) (ws tile : Nat) (pairOk accOk : Bool) : Option Out :=
  let c := s.core s.ik
  let d := c.wslot ws
  let e := c.wslot (ws + 1)
  let w := wide16 s.fBF
  if !pairOk then some (mxErr 1 ws tile)
  else if !accOk then some (mxErr 2 ws tile)
  else if !d.loaded || d.ty != s.fBF then some (mxErr 3 ws tile)
  else if w && (ws % 2 == 1 || !e.sameDesc d) then some (mxErr 4 ws tile)
  else if d.malf then some (mxErr 5 ws tile)
  else none

/-- What both do once their plane is read: the pass on the tile as it will stand, and the queue entry. -/
def arrayOut (s : State) (acc ws r p : Nat) (ovw : Bool) (rows : List Nat) (as : List (List Nat)) (rsv : Nat)
    (acts : List Act) : Out :=
  let c := s.core s.ik
  let pl := c.plane p
  let af := s.fAF
  let bf := s.fBF
  let e := entryTime af bf r
  let t := c.vtile acc
  let q := passTile t af bf ovw as (bElem bf pl.sp pl.rows)
  let t' := q.1.counts ovw q.2 (satAdd32 (c.wslot ws).srsv rsv)
  Out.act (.mx { op := .array, ctx := s.ij, acc := acc, due := s.ix.bcount + e + 14, rows := as.length, t0 := s.now,
                 rdEnd := s.now + e, reads := rows, ovw := ovw, entry := e, pl := p, tile := some t' } :: acts)

def opMma (acc : BitVec 3) (ws : BitVec 6) (a : ASrc) (rows : BitVec 5) (t ovw chk : Bool) (s : State) : Out :=
  let r := rows.toNat + 1
  let w := ws.toNat
  let af := s.fAF
  let pk := mxPair af s.fBF
  if (s.core s.ik).ldwPending w (wide16 s.fBF) then Out.wait
  else match arrayErr s w acc.toNat pk.isSome (some (s.fACC == 1) == pk && s.fACC < 2) with
    | some o => o
    | none => planeAsk s w (wide16 s.fBF) <| withOp (mxChecked s a (r * rhoOf af) af chk) fun x =>
        arrayWait s w (wide16 s.fBF) fun p =>
          let vs := x.1.map (·.2)
          let vs := if t then trRows (Ty.bits af) vs else vs
          arrayOut s acc.toNat w r p ovw (x.1.map (·.1)) ((List.range r).map (aRow af vs)) x.2 (chkWait s (r * rhoOf af) chk)

def opMop (acc : BitVec 3) (ws : BitVec 6) (a : ASrc) (rows : BitVec 5) (ovw : Bool) (s : State) : Out :=
  let r := rows.toNat + 1
  let w := ws.toNat
  let af := s.fAF
  let pk := if s.fBF = 13 then none else mxPair af s.fBF
  if (s.core s.ik).ldwPending w (wide16 s.fBF) then Out.wait
  else match arrayErr s w acc.toNat pk.isSome (some (s.fACC == 1) == pk && s.fACC < 2) with
    | some o => o
    | none => planeAsk s w (wide16 s.fBF) <| withOp (mxPlane s a r) fun x =>
        arrayWait s w (wide16 s.fBF) fun p =>
          let b := Ty.bits af
          let as := (List.range 32).map fun i => x.map fun y => lane b y.2 i
          arrayOut s acc.toNat w r p ovw (x.map (·.1)) as 0 []

/-! ### `mld.w` (R259) -/

/-- A B type of Table 02-16. -/
def isBType (t : Nat) : Bool := t == 0 || t == 8 || t == 9 || t == 11 || t == 12 || t == 13
/-- Source rows of Table 10-3. -/
def ldwRows (bf : Nat) (sp : Bool) : Nat := if sp then 80 else if bf = 13 then 32 else if wide16 bf then 256 else 128
/-- A list of rows as a table from row 0. -/
def rowTab (l : List Nat) : Tab Row :=
  ((List.range l.length).map fun i => (i, row (l.getD i 0))).filter fun e => e.2 != 0
/-- Each t2 code 10 becomes 0 (R259), with their number. -/
def cleanT2 (v : Nat) : Nat × Nat :=
  let xs := lanesOf 2 512 v
  (ofLanes 2 (xs.map fun x => if x = 2 then 0 else x), (xs.filter (· == 2)).length)
/-- Whether some 2:4 group is malformed. -/
def sp24Bad (l : List Nat) : Bool :=
  (List.range 128).any fun j => (List.range 32).any fun g =>
    let m := lane 4 (lane 8 (l.getD (64 + g / 2) 0) j) (g % 2)
    decide (m / 4 ≤ m % 4)

def opMldW (ws : BitVec 6) (a : ASrc) (sp chk : Bool) (s : State) : Out :=
  let w := ws.toNat
  let bf := s.fBF
  let c := s.core s.ik
  let n := ldwRows bf sp
  let pair := wide16 bf
  if pair ∧ (w % 2 = 1 ∨ !(c.wslot w).sameDesc (c.wslot (w + 1))) then mxErr 4 w 0
  else if !isBType bf ∨ (sp ∧ (pair ∨ bf = 13)) then mxErr 7 w 0
  else withOp (mxChecked s a n bf chk) fun x =>
    let loading (p : Plane) : Bool :=
      decide (s.now < p.ready) && (p.slot == some w || (pair && p.slot == some (w + 1)) || (p.pair && p.slot == some (w - 1)))
    let ok := c.mqBusy < 8 && !(c.mq.any fun e => e.op == .ldw || e.op == .fin) && !loading c.plane0 && !loading c.plane1
    mqWait s ok [] <|
      let vs := x.1.map (·.2)
      let cl := vs.map fun v => if bf = 13 then cleanT2 v else (v, 0)
      let d : WSlot := { loaded := true, ty := bf, sp := sp, malf := sp && sp24Bad vs,
                         srsv := satAdd32 (cl.foldl (fun k y => k + y.2) 0) x.2 }
      let vs := cl.map (·.1)
      let slots := if pair then [(w, { d with rows := rowTab (vs.take 128) }), (w + 1, { d with rows := rowTab (vs.drop 128) })]
        else [(w, { d with rows := rowTab vs })]
      Out.act (.mx { op := .ldw, ctx := s.ij, t0 := s.now, rdEnd := s.now + n + 6, reads := x.1.map (·.1), slots := slots } ::
        chkWait s n chk)

/-! ### Reading a tile: `mdrain`, `mrow`, `mclr` -/

/-- A tile in the reader's issue cycle, and whether an operation on it is too close (R250) or an engine command on it is
not covered by a completed `tl.wait` (R315, R356). -/
def readTile (s : State) (n : Nat) : Tile × Bool :=
  let t := (s.core s.ik).vtile n
  if s.ix.bcount < tget 0 s.ix.tileDue n ∨ s.ix.tileCmds.any (fun c => c.acc == n) then
    (({ t with val := bitAt (s.free 730000) 0, asat := s.free 730001 % 2 ^ 32, arsv := s.free 730002 % 2 ^ 32 }).freed
      s 731000 fun _ => true, true)
  else (t, false)

/-- The exact value of an element (R255). -/
def elVal (flt : Bool) (el : Nat) : FV :=
  if flt then
    let h := fmtF32.dec (hiOf el)
    if h.odd then h else (FV.add 0 h (fmtLo.dec (loOf el))).1
  else ofInt (sval 56 el) 0 false

/-- DrainConvert (R255): the bits and whether it saturated. -/
def drainConv (df rm : Nat) (sat : Bool) (x : FV) : Nat × Bool :=
  if df = 8 ∨ df = 9 ∨ df = 10 then
    let r := (fmtOf df).round (if sat then .largest else .arith) true rm x
    (r.bits, r.sat)
  else convTo df rm x

/-- A row of the drain before conversion. -/
def drainRow (s : State) (flt : Bool) (r i : Nat) : List FV :=
  let sae := bitAt s.fmtW 17
  let sbe := bitAt s.fmtW 18
  let sa := fmtF32.dec (lane 32 (s.rdRow 5 (bitsAt s.fmtW 32 13)) i)
  let sb := (List.range 4).map fun m => s.rdRow 5 (bitsAt s.fmtW 48 13 + m)
  (List.range 128).map fun j =>
    let x := elVal flt (lane 56 r j)
    let x := if sae then (x.mul sa).1 else x
    if sbe then (x.mul (fmtF32.dec (lane 32 (sb.getD (j / 32) 0) (j % 32)))).1 else x

/-- Destination rows of a drain of n rows (R255). -/
def drainDst (s : State) (a : ASrc) (n : Nat) : Except Out (List Nat) :=
  let h := a.r.toNat
  if s.ix.fenced then .error Out.wait
  else if a.h then do
    let r ← boundRing s 5 h
    if r.n < n then .error (spRangeH 5 h n)
    else if r.freeSlots < n ∧ s.iss.from0.isNone then .error Out.wait
    else .ok ((List.range n).map fun i => r.base + r.slotAt r.res i)
  else
    let b := s.rdLa 5 h
    if b / 2 ^ 20 ≠ 0 ∧ s.iss.from0.isNone then .error (spRange 5 b) else .ok ((List.range n).map fun i => (b / 128 + i) % 8192)

def isDType (t : Nat) : Bool := t == 0 || t == 4 || (8 ≤ t && t ≤ 12)
/-- Bytes of an element. -/
def rhoD (df : Nat) : Nat := Ty.bits df / 8

/-- A result of MX. -/
def mxWr (w : Wr) : Wr := { w with mx := true }

def opMdrain (acc : BitVec 3) (a : ASrc) (rows : BitVec 5) (s : State) : Out :=
  let r := rows.toNat + 1
  let df := s.fDF
  let flt := s.fACC == 1
  let quant := df != 4 && df != 10
  let n := r * rhoD df
  if s.accBad then mxErr 2 0 acc.toNat
  else if !isDType df then mxErr 6 0 acc.toNat
  else withOp (drainDst s a (n + b2n quant)) fun dst =>
    let c := s.core s.ik
    mqWait s (c.mqBusy < 8 && !c.mq.any fun e => e.op == .drain) [] <|
      let lat := n + 7
      let te := readTile s acc.toNat
      let t := te.1
      let xs := (List.range r).map fun i => drainRow s flt (tget 0 t.rows i).toNat i
      let ys := xs.map fun l => l.map (drainConv df s.fmtRm s.fmtSat)
      let sat := ys.foldl (fun k l => l.foldl (fun k y => k + b2n y.2) k) 0
      let w := Ty.bits df
      let pay := ys.flatMap fun l =>
        let v := ofLanes w (l.map (·.1))
        (List.range (rhoD df)).map fun m => bitsAt v (1024 * m) 1024
      let mx := xs.foldl (fun k l => l.foldl (fun k x =>
        if x.isNan then k else max k (fmtF32.round .arith true 0 x.abs).bits) k) 0
      let crc := (pay.foldl (fun k v => crcRun k (bytesOf 128 v)) 0xFFFFFFFF) ^^^ 0xFFFFFFFF
      let rowsW := if quant then pay ++ [colophon 0x3F800000 mx (satAdd32 sat t.asat) t.arsv crc df t.val n] else pay
      let op_ : Row := if te.2 then row (2 ^ 1024 - 1) else 0
      let cw (d : Dest) (v : Nat) : List Wr :=
        if te.2 then [{ dest := d, mask := row (2 ^ 32 - 1), val := 0, open_ := row (2 ^ 32 - 1), lat := lat, port := .owner }]
        else countWr d v lat
      { wrs := (List.zipWith (fun d v => { xfWr d v lat with open_ := op_ }) dst rowsW ++
          (if quant then [] else cw .satcAdd (satAdd32 sat t.asat) ++ cw .rsvcAdd t.arsv)).map mxWr,
        acts := [.mx { op := .drain, ctx := s.ij, acc := acc.toNat, due := s.ix.bcount + lat, t0 := s.now, rdEnd := s.now + lat, reads := dst }] }

/-- A lane of `mrow` (R261), and whether it was clamped; a subnormal sum is flushed, as MX flushes binary32 (R67; log entry 95,
DEDUCED: no row of Table 02-19 names `mrow`). -/
def mrowLane (mode : Nat) (flt : Bool) (el : Nat) : Nat × Bool :=
  if mode = 1 then (hiOf el, false)
  else if mode = 2 then (loOf el * 256, false)
  else if flt then ((fmtF32.round .arith true 0 (elVal true el)).bits, false)
  else let c := clampI (imin true 32) (imax true 32) (sval 56 el); (wrap 32 c.1, c.2)

def opMrow (acc : BitVec 3) (f : VFile) (q : BitVec 7) (mode : BitVec 2) (i : BitVec 5) (s : State) : Out :=
  if s.accBad then mxErr 2 0 acc.toNat
  else
    let te := readTile s acc.toNat
    let r := (tget 0 te.1.rows i.toNat).toNat
    let ls := (List.range 128).map fun j => mrowLane mode.toNat (s.fACC == 1) (lane 56 r j)
    let op_ : Row := if te.2 then row (2 ^ 1024 - 1) else 0
    { wrs := (((List.range 4).map fun m => show Wr from
        { dest := .v f (q.toNat * 4 + m), mask := row (2 ^ 1024 - 1),
          val := row (ofLanes 32 (((ls.drop (32 * m)).take 32).map (·.1))), open_ := op_, lat := 4, port := .copy }) ++
        countWr .satcAdd (ls.foldl (fun k y => k + b2n y.2) 0) 4).map mxWr }

def opMclr (acc : BitVec 3) (s : State) : Out :=
  let c := s.core s.ik
  mqWait s (c.mqBusy < 8 && !c.mq.any fun e => e.acc == acc.toNat && e.op != .clear) [] <|
    Out.act [.mx { op := .clear, ctx := s.ij, acc := acc.toNat, due := s.ix.bcount + 1, rows := 32, t0 := s.now,
                   rdEnd := s.now + 1, ovw := true, tile := some { val := true } }]

def opMwait (_s : State) : Out := Out.act [.wait .mwait]

/-- Whether VAL of a tile is not settled for a reader (R250): an operation of the context that sets it is too close, an engine
command on the tile is not covered, or one of another context that sets it has not completed. -/
def State.valOpen (s : State) (n : Nat) : Bool :=
  decide (s.ix.bcount < tget 0 s.ix.valDue n) || s.ix.tileCmds.any (fun c => c.acc == n) ||
  (s.core s.ik).mq.any fun e => e.acc == n && e.ovw && e.ctx != s.ij
/-- R264. -/
def opMqStat (d : BitVec 6) (s : State) : Out :=
  let c := s.core s.ik
  let pl (p : Plane) (b : Nat) : Nat := (p.slot.getD 0) * 2 ^ b + b2n p.slot.isSome * 2 ^ (b + 6)
  let o := s.wrS d.toNat (c.mqBusy + (c.mq.filter fun e => e.op != .bestClear && e.ctx == s.ij).length * 2 ^ 4 + pl c.plane0 8 +
    pl c.plane1 15 + min (c.entryFree - s.now) 255 * 2 ^ 24 +
    ofBools ((List.range 8).map fun n =>
      if s.valOpen n then bitAt (s.free (725000 + n)) 0 else (c.vtile n).val) * 2 ^ 32) 2 .copy
  { o with wrs := o.wrs.map mxWr }

/-! ### Distance instructions -/

/-- An exact term of a metric (R266). -/
def distTermF (met : Nat) (a b : FV) : FV :=
  if met = 2 then (a.mul b).1.neg
  else
    let d := (FV.add 0 a b.neg).1
    if met = 0 then d.abs else (d.mul d).1
def distTermI (met : Nat) (a b : Int) : Int :=
  if met = 2 then -(a * b) else if met = 0 then ((a - b).natAbs : Nat) else (a - b) * (a - b)

/-- A row of distances: the tile's elements and the chain values (R267). -/
def distRow (met : Nat) (flt : Bool) (a : List Nat) (b : Nat → Nat → Nat) : List Nat × List (BitVec 32) :=
  let els := if flt then
      let av := a.map fmtE4M3.decZ
      (List.range 128).map fun j => floatPass false 0
        (List.zipWith (distTermF met) av ((List.range 128).map fun k => fmtE4M3.decZ (b k j)))
    else
      let av := a.map (intElem 0)
      (List.range 128).map fun j => wrap 56
        ((List.zipWith (distTermI met) av ((List.range 128).map fun k => intElem 0 (b k j))).foldl (· + ·) 0)
  (els, els.map fun e => BitVec.ofNat 32 (if flt then (mrowLane 0 true e).1 else wrap 32 (sval 56 e)))

def opMdist (acc : BitVec 3) (ws : BitVec 6) (a : ASrc) (rows : BitVec 5) (t : Bool) (met : BitVec 2) (tie : Bool)
    (pass : BitVec 8) (chk : Bool) (s : State) : Out :=
  let r := rows.toNat + 1
  let w := ws.toNat
  let af := s.fAF
  let flt := af == 11
  let ok := af == s.fBF && (af == 11 || af == 0)
  if (s.core s.ik).ldwPending w false then Out.wait
  else match arrayErr s w acc.toNat ok (s.fACC == b2n flt) with
    | some o => o
    | none => planeAsk s w false <| withOp (mxChecked s a r af chk) fun x =>
        arrayWait s w false fun p =>
          let vs := x.1.map (·.2)
          let vs := if t then trRows 8 vs else vs
          let c := s.core s.ik
          let pl := c.plane p
          let ds := (List.range r).map fun i => distRow met.toNat flt (aRow af vs i) (bElem s.fBF pl.sp pl.rows)
          let old := c.vtile acc.toNat
          let tl : Tile := { rows := (List.range r).foldl (fun m i =>
                               tset 0 m i (BitVec.ofNat 7168 (ofLanes 56 (ds.getD i ([], [])).1))) old.rows,
                             val := true, asat := 0, arsv := x.2 }
          Out.act (.mx { op := .dist, ctx := s.ij, acc := acc.toNat, due := s.ix.bcount + r + 22, rows := r, t0 := s.now,
                         rdEnd := s.now + r, reads := x.1.map (·.1), ovw := true, entry := r, pl := p, tile := some tl,
                         offers := ds.map (·.2), pass := pass.toNat, tie := tie, kind := flt } :: chkWait s r chk)

def opMbestClr (rows : BitVec 5) (s : State) : Out :=
  Out.act [.mx { op := .bestClear, ctx := s.ij, rows := rows.toNat + 1, due := s.ix.bcount + 1, t0 := s.now, rdEnd := s.now }]

def opMbestRd (f : VFile) (q : BitVec 8) (s : State) : Out :=
  let b := s.readBest
  let op_ : Row := if s.ix.bcount < s.ix.mbestDue then row (2 ^ 1024 - 1) else 0
  let wr (n : Nat) (g : Nat → Nat) : Wr :=
    { dest := .v f (q.toNat * 2 + n), mask := row (2 ^ 1024 - 1), val := row (ofLanes 32 ((List.range 32).map g)), open_ := op_,
      lat := 4, port := .copy }
  { wrs := List.map mxWr [wr 0 fun i => if bitAt (b i) 48 then bitsAt (b i) 32 15 else 0xFFFFFFFF,
            wr 1 fun i => if bitAt (b i) 48 then b i % 2 ^ 32 else 0] }

/-- A sum base: row of a local base register, or `SPRANGE` (R277, R279). -/
def sumBase (s : State) (la : Nat) : Except Out Nat :=
  let b := s.rdLa 5 la
  if b / 2 ^ 20 ≠ 0 then .error (spRange 5 b) else .ok (b / 128)

/-- The centroids an update touches (R277). -/
def updHits (p : Nat) (best : List Word) : List (Nat × Nat) :=
  (List.range best.length).filterMap fun i =>
    let e := (best.getD i 0).toNat
    if bitAt e 48 ∧ bitsAt e 39 8 = p then some (i, bitsAt e 32 7) else none

/-- R277. Its `MXERR` names no slot and no tile, so those nine bits of the information word are free (R256). -/
def opCupd (p : BitVec 8) (a : ASrc) (rows : BitVec 5) (s : State) : Out :=
  let r := rows.toNat + 1
  let af := s.fAF
  if af ≠ 0 ∧ af ≠ 11 then mxErr 8 (s.free 829000 % 2 ^ 9) 0
  else withOp (do let x ← mxPlane s a r; let b ← sumBase s (a.r.toNat + b2n (!a.h)); Except.ok (x, b)) fun y =>
    let c := s.core s.ik
    let ok := c.mqBusy < 8 && decide (c.entryFree ≤ s.now) && !c.mq.any fun e => e.op == .fin
    mqWait s ok [] <|
      let best := (List.range r).map fun i => BitVec.ofNat 64 (s.readBest i)
      let hits := updHits p.toNat best
      let touch := (hits.flatMap fun h =>
        ((List.range 4).map fun m => (y.2 + 4 * h.2 + m) % 8192) ++ [(y.2 + 512 + h.2 / 32) % 8192]).eraseDups
      Out.act [.mx { op := .upd, ctx := s.ij, due := s.ix.bcount + r + 16, rows := r, t0 := s.now, rdEnd := s.now + r + 16,
                     reads := touch, spoilt := if s.ix.bcount < s.ix.mbestDue then touch else [], entry := r, pl := 2,
                     kind := af == 11, data := y.1.map fun v => row v.2, best := best, sum := y.2, pass := p.toNat }]

/-- A core whose earlier `cupd` operations are over, whatever their contexts may rely on: the queue accepts `cfin` only then (R278). -/
def State.unmarked (s : State) (k : Nat) : State :=
  let un (l : List Pend) : List Pend := l.filter fun p => !p.upd
  s.modCore k fun c => { c with ctxs := c.ctxs.map fun e => (e.1, { e.2 with pend := un e.2.pend, hand := { e.2.hand with pend := un e.2.hand.pend } }) }

/-- A quotient by a count, exact enough for one rounding: the last bit says that something was dropped. -/
def divCount (v : FV) (n : Nat) : FV :=
  match v with
  | .fin neg m e => .fin neg (2 * (m <<< 80 / n) + b2n (m <<< 80 % n != 0)) (e - 81)
  | v => v

/-- The rounding of a mean to the slot's type (R279); a subnormal result is flushed, as in distance mode (R67). -/
def meanConv (bf : Nat) (v : FV) : Nat × Bool :=
  if bf = 11 then let r := fmtE4M3.round .conv true 0 v; (r.bits, r.sat) else convTo bf 0 v

def opCfin (ws : BitVec 6) (la : BitVec 5) (z : Bool) (s : State) : Out :=
  let w := ws.toNat
  let bf := s.fBF
  let c := s.core s.ik
  let d := c.wslot w
  if c.ldwPending w false then Out.wait
  else if !d.loaded ∨ d.ty ≠ bf then mxErr 3 w 0
  else if bf ≠ 0 ∧ bf ≠ 11 then mxErr 8 w 0
  else if d.sp then mxErr 9 w 0
  else withOp (if s.ix.fenced then .error Out.wait else sumBase s la.toNat) fun sb =>
    mqWait s (c.mqBusy < 8 && !c.mq.any fun e => e.op == .upd) [] <|
      let raw := s.unmarked s.ik
      let rd (i : Nat) : Nat := raw.rdRow 5 ((sb + i) % 8192)
      let cols := (List.range 128).map fun j =>
        let n := lane 32 (rd (512 + j / 32)) (j % 32)
        (List.range 128).map fun k =>
          if n = 0 then (bElem bf false d.rows k j, false)
          else
            let x := lane 32 (rd (4 * j + k / 32)) (k % 32)
            meanConv bf (divCount (if bf = 11 then fmtF32.decZ x else ofInt (sval 32 x) 0 false) n)
      let sat := cols.foldl (fun m l => l.foldl (fun m y => m + b2n y.2) m) 0
      let vs := (List.range 128).map fun k => ofLanes 8 (cols.map fun l => (l.getD k (0, false)).1)
      Out.act [.mx { op := .fin, ctx := s.ij, t0 := s.now, rdEnd := s.now + 524,
                     reads := (List.range 516).map fun i => (sb + i) % 8192,
                     slots := [(w, { rows := rowTab vs, loaded := true, ty := bf })], rows := sat, sum := sb, zero := z }]

/-! ### The rewrite operations of MX -/

/-- R299. -/
def opRwStat (d : BitVec 6) (s : State) : Out :=
  let c := s.core s.ik
  let x := s.ix
  s.wrS d.toNat (s.rd 5 .en % 2 + s.rd 5 .rwp % 4 * 2 + b2n x.rwSupp * 8 + b2n c.rwErr * 16 + c.rwImg * 32 +
    b2n c.rwImgV * 2 ^ 11 + (c.rules.filter fun r => bitAt r.2.toNat 0).length * 2 ^ 12 + x.ngrp * 2 ^ 20 + x.nref * 2 ^ 36 +
    x.last * 2 ^ 52) 2 .copy
def opRwSup (_s : State) : Out := Out.act [.rwSup]

/-! ### Interference (R251, R278, R279) -/

/-- A queue entry's tile result becomes unpredictable in the rows it writes, and so do later results built on it. -/
def spoilTile (s : State) (acc : Nat) : (Nat → Bool) → List MxEnt → List MxEnt
  | _, [] => []
  | f, e :: r =>
    if e.acc = acc then
      let g (i : Nat) : Bool := f i && !(e.ovw && decide (i < e.rows))
      { e with tile := e.tile.map fun t => t.freed s (740000 + 64 * r.length) g } :: spoilTile s acc g r
    else e :: spoilTile s acc f r

/-- A free weight slot. -/
def freeSlot (s : State) (key : Nat) : WSlot :=
  let v (i : Nat) : Nat := s.free (key + i)
  { rows := rowTab ((List.range 128).map fun i => v i % 2 ^ 1024), loaded := bitAt (v 128) 0, ty := v 129 % 16,
    sp := bitAt (v 130) 0, malf := bitAt (v 131) 0, srsv := v 132 % 2 ^ 32 }

/-- What happens to a row that queue entries read: a store or XF write, a load, or the release of its ring slot (R251, R278, R279). -/
inductive RowUse where
  | store
  | load
  | release
  deriving DecidableEq, Repr

/-- Whether an entry that still reads a row does not bear that use of it. -/
def MxEnt.upsetBy (e : MxEnt) : RowUse → Bool
  | .store => true
  | .load => e.op == .fin && e.zero
  | .release => e.op == .array || e.op == .dist || e.op == .ldw

/-- What a use of a row does to the entries that still read it. -/
def mxHit (s : State) (w : Nat) (u : RowUse) : List MxEnt → List MxEnt
  | [] => []
  | e :: r =>
    let hit := e.reads.contains w && decide (s.now < e.rdEnd) && e.upsetBy u
    if !hit then e :: mxHit s w u r
    else match e.op with
      | .array =>
          { e with tile := e.tile.map fun t => t.freed s 750000 fun i => decide (i < e.rows) } ::
            spoilTile s e.acc (fun i => decide (i < e.rows)) (mxHit s w u r)
      | .dist =>
          { e with tile := e.tile.map fun t => t.freed s 751000 fun i => decide (i < e.rows),
                   offers := (List.range e.rows).map fun i => (List.range 128).map fun j =>
                     BitVec.ofNat 32 (s.free (760000 + 128 * i + j)) } ::
            spoilTile s e.acc (fun i => decide (i < e.rows)) (mxHit s w u r)
      | .ldw => { e with slots := e.slots.map fun p => (p.1, freeSlot s (770000 + 200 * p.1)) } :: mxHit s w u r
      | .fin => { e with slots := e.slots.map fun p => (p.1, freeSlot s (770000 + 200 * p.1)) } :: mxHit s w u r
      | .upd => { e with spoilt := w :: e.spoilt } :: mxHit s w u r
      | _ => e :: mxHit s w u r

/-- A row of a core's scratchpad is stored to or written by XF, loaded, or released. -/
def State.mxTouch (s : State) (k w : Nat) (u : RowUse := .store) : State :=
  if (s.core k).mq.any fun e => e.reads.contains w then s.modCore k fun c => { c with mq := mxHit s w u c.mq } else s

/-- The rows that pending results due at counted bundle n or before will write are touched (R251). -/
def touchDue (s : State) (k j n : Nat) : State :=
  (s.ctx k j).pend.foldl (fun s p =>
    if p.landed ∨ n < p.due then s else match p.dest with
      | .pad r => s.mxTouch k r
      | _ => s) s
/-- Every row that a pending result will write is touched. -/
def touchAll (s : State) (k j : Nat) : State :=
  (s.ctx k j).pend.foldl (fun s p =>
    if p.landed then s else match p.dest with
      | .pad r => s.mxTouch k r
      | _ => s) s

/-! ### Completion (R248, R250) -/

/-- Whole-row mask. -/
def rowMask : Row := row (2 ^ 1024 - 1)

/-- Writing a whole row of a core's scratchpad. -/
def State.putPad (s : State) (k w : Nat) (v : Nat) : State :=
  (s.notePad k (w % 8192) rowMask).modCore k fun c => { c with pad := tset 0 c.pad (w % 8192) (row v) }
def State.padRow (s : State) (k w : Nat) : Nat := (tget 0 (s.core k).pad (w % 8192)).toNat

/-- The sums of R277. -/
def updApply (s : State) (k : Nat) (e : MxEnt) : State :=
  let one (s : State) (h : Nat × Nat) : State :=
    let x := (e.data.getD h.1 0).toNat
    let go (s : State) (m : Nat) : State :=
      let w := e.sum + 4 * h.2 + m
      let o := s.padRow k w
      let vs := (List.range 32).map fun l =>
        let b := lane 8 x (32 * m + l)
        if e.kind then ((fmtF32.round .arith true 0 (FV.add 0 (fmtF32.decZ (lane 32 o l)) (fmtE4M3.decZ b)).1).bits, false)
        else let c := clampI (imin true 32) (imax true 32) (sval 32 (lane 32 o l) + sval 8 b); (wrap 32 c.1, c.2)
      (s.putPad k w (ofLanes 32 (vs.map (·.1)))).modCtx k e.ctx fun x =>
        { x with satc := BitVec.ofNat 32 (satAdd32 x.satc.toNat (vs.foldl (fun n v => n + b2n v.2) 0)) }
    let s := (List.range 4).foldl go s
    let w := e.sum + 512 + h.2 / 32
    let o := s.padRow k w
    let n := lane 32 o (h.2 % 32)
    s.putPad k w (o - n <<< (32 * (h.2 % 32)) + min (n + 1) (2 ^ 32 - 1) <<< (32 * (h.2 % 32)))
  let s := (updHits e.pass e.best).foldl one s
  e.spoilt.foldl (fun s w => s.putPad k w (s.free (780000 + w) % 2 ^ 1024)) s

/-- A plane that holds a slot counts as holding nothing (R249). -/
def Plane.drop (p : Plane) (ws : Nat) : Plane :=
  if p.slot = some ws ∨ (p.pair ∧ p.slot.map (· + 1) = some ws) then {} else p
def Core.putSlot (c : Core) (p : Nat × WSlot) : Core :=
  { c with slots := tput c.slots p.1 p.2, plane0 := c.plane0.drop p.1, plane1 := c.plane1.drop p.1 }

/-- A pending result is delivered before its position, if it may be; a reader may still not rely on it (R89). -/
def landEarly (s : State) (k j i : Nat) : State :=
  let x := s.ctx k j
  match x.pend[i]? with
  | none => s
  | some p =>
    if p.landed ∨ p.acc.isSome ∨ !p.early then s
    else
      let after := (x.pend.drop (i + 1)).foldl (fun m q => if q.dest = p.dest ∧ q.landed then m ||| q.mask else m) (0 : Row)
      let cut := x.pend.zipIdx.map fun q =>
        if q.2 < i ∧ q.1.dest = p.dest ∧ !q.1.landed then { q.1 with mask := q.1.mask &&& ~~~p.mask } else q.1
      let s := s.modCtx k j fun x => { x with pend := setAt cut i { p with landed := true } }
      let s := match p.dest with
        | .pad r => s.mxTouch k r
        | _ => s
      land s k j { p with mask := p.mask &&& ~~~after }

/-- Every pending write of a context to one of the rows is delivered. -/
def landRows (s : State) (k j : Nat) (rows : List Nat) : State :=
  (List.range (s.ctx k j).pend.length).foldl (fun s i =>
    match (s.ctx k j).pend[i]? with
    | some p => if rows.any (fun w => p.dest == Dest.pad w) then landEarly s k j i else s
    | none => s) s

/-- What an entry does when it completes. -/
def mxApply (s : State) (k : Nat) (e : MxEnt) : State :=
  match e.op with
  | .drain => landRows s k e.ctx e.reads
  | .upd => updApply s k e
  | .bestClear => s.modCtx k e.ctx fun x => { x with mbest := bestApply x.mbest e }
  | .fin =>
    let s := s.modCore k fun c => e.slots.foldl Core.putSlot c
    let s := s.modCtx k e.ctx fun x => { x with satc := BitVec.ofNat 32 (satAdd32 x.satc.toNat e.rows) }
    if e.zero then e.reads.foldl (fun s w => s.putPad k w 0) s else s
  | .ldw => s.modCore k fun c => e.slots.foldl Core.putSlot c
  | .dist =>
    let s := s.modCore k fun c => { c with tiles := tput c.tiles e.acc (e.tile.getD {}) }
    s.modCtx k e.ctx fun x => { x with mbest := bestApply x.mbest e }
  | .array => s.modCore k fun c => { c with tiles := tput c.tiles e.acc (e.tile.getD {}) }
  | .clear => s.modCore k fun c => { c with tiles := tput c.tiles e.acc (e.tile.getD {}) }

/-- Whether entry e must complete after entry d, which stands before it. -/
def mxAfter (d e : MxEnt) : Bool :=
  (d.acc == e.acc && d.tile.isSome && e.tile.isSome) || (d.op == .upd && e.op == .upd) ||
  (d.ctx == e.ctx && (d.op == .dist || d.op == .bestClear) && (e.op == .dist || e.op == .bestClear))

/-- Cycles an entry stays in the queue after its reads: the array's pipe, and the chain of `mdist` (R248, R273). -/
def MxEnt.pipe (e : MxEnt) : Nat :=
  match e.op with
  | .array => 14
  | .dist => 22
  | _ => 0
/-- The first entry that may complete in this cycle. -/
def Core.mqNext (c : Core) (now : Nat) : Option Nat :=
  (List.range c.mq.length).find? fun i =>
    match c.mq[i]? with
    | some e => decide (e.rdEnd + e.pipe ≤ now) && !(c.mq.take i).any fun d => mxAfter d e
    | none => false

/-- Entry i completes and leaves the queue. -/
def mxDone (s : State) (k i : Nat) : State :=
  match (s.core k).mq[i]? with
  | some e => mxApply (s.modCore k fun c => { c with mq := dropAt c.mq i }) k e
  | none => s

/-- Results of `cupd` whose position has come are in place (R278): its entry, and those it follows, complete. -/
def mxForce (s : State) (k j n : Nat) : State :=
  match (s.core k).mq.findIdx? fun e => e.op == .upd && e.ctx == j && decide (e.due ≤ n) with
  | none => s
  | some i => ((List.range (i + 1)).reverse.foldl (fun (l : List Nat) m =>
      match (s.core k).mq[m]? with
      | some e => if e.op = .upd then m :: l else l
      | none => l) []).foldl (fun (p : State × Nat) m => (mxDone p.1 k (m - p.2), p.2 + 1)) (s, 0) |>.1

end Sys2Proof.Machine
end

