-- ==== Sys2Proof/Machine/LoadStoreOp.lean ====
section
/-! DEFINITION. What each LD and ST operation decides (R170 to R192), and the operations of atomics. -/

namespace Sys2Proof.Machine

/-! ### Local loads -/

/-- A load result through the load port (R184); the row is noted for `cfin` (R279). -/
def ldWr (d : VReg) (v lat : Nat) (w : Nat) : Out :=
  { wrs := [{ dest := .v d.f d.n.toNat, mask := row (2 ^ 1024 - 1), val := row v, lat := lat, port := .load }],
    acts := [.touch w] }

def opLdRow (d : VReg) (a : Mem) (s : State) : Out :=
  localPath s (withOp (spaceLocal 6 (eaLd s a)) fun w => ldWr d (s.rdRow 6 w) 4 w)

/-- The outcome of a `.chk` load (R185): the check's code, 6 for a payload out of range once the colophon itself holds. -/
def chkLoad (s : State) (d : VReg) (v w place : Nat) (ring : Bool) (payload : Option (List Nat)) : Out :=
  let n := colRows v
  let ty := s.fAF
  let code := match payload with
    | some l => colCheck v ty n l
    | none => let c := colCheck v ty n []; if c = 0 ∨ c = 5 then 6 else c
  if code ≠ 0 then colTrap 6 code place ty ring
  else (ldWr d v 4 w).and (Out.act [.wait (.cycle (s.now + n + 4))])

def opLdRowChk (d : VReg) (a : Mem) (s : State) : Out :=
  localPath s (withOp (spaceLocal 6 (eaLd s a)) fun w =>
    let v := s.rdRow 6 w
    let n := colRows v
    chkLoad s d v w w false (if w < n then none else some ((List.range n).map fun i => s.rdRow 6 (w - n + i))))

def opLdS (d : BitVec 6) (a : Mem) (s : State) : Out :=
  let ea := eaLd s a
  localPath s (withOp (spaceLocal 6 ea) fun w =>
    (s.wrS d.toNat (lane 64 (s.rdRow 6 w) (bitsAt ea 3 4)) 4 .load).and (Out.act [.touch w]))

def opLdH (d : VReg) (a : Mem) (s : State) : Out :=
  let h := a.base.toNat
  localPath s (withOp (consume s 6 h a.off) fun v =>
    let r := s.ix.ring h
    ldWr d v 4 (r.base + r.slotAt r.con a.off.toNat))

def opLdHChk (d : VReg) (a : Mem) (s : State) : Out :=
  let h := a.base.toNat
  localPath s (withOp (consume s 6 h a.off) fun v =>
    let r := s.ix.ring h
    let o := a.off.toNat
    let n := colRows v
    let i := r.slotAt r.con o
    if o < n then chkLoad s d v (r.base + i) i true none
    else withOp ((List.range n).mapM fun m => ringSlot s 6 h r (o - n + m)) fun l =>
      chkLoad s d v (r.base + i) i true (some l))

/-- R186: the rows are reserved at issue and fetched later. -/
def opLdg (h : BitVec 5) (cnt1 : BitVec 4) (a : Mem) (s : State) : Out :=
  let k := cnt1.toNat + 1
  let ea := eaLd s a / 128 * 128
  withOp (boundRing s 6 h.toNat) fun r =>
    if r.n < k then spRangeH 6 h.toNat k
    else if r.freeSlots < k then Out.wait
    else Out.act (.adv h.toNat 0 0 k :: (List.range k).map fun i =>
      .post { kind := .ldg h.toNat (r.slotAt r.res i), loc := .virt ((ea + 128 * i) % 2 ^ 64), va := (ea + 128 * i) % 2 ^ 64,
              fn := s.fnOf s.ik s.ij, priv := s.privOf s.ik s.ij } none 0 0)


/-- The bits of a row of the window to which XF results of the context are on their way: a load in between reads them free, a
store in between leaves them free (R229). -/
def State.wayBits (s : State) (k w : Nat) : Row := if k = s.ik then taint s.ix (.pad w) else 0
def State.onWay (s : State) (k w : Nat) : Bool := s.wayBits k w != 0
/-- The same of the place of an access. -/
def State.locBits (s : State) : Loc → Row
  | .win k w => s.wayBits k w
  | _ => 0
def opLdPr (d : VReg) (a : Mem) (s : State) : Out :=
  withOp (spaceWindow s 6 (eaLd s a)) fun p =>
    Out.act [.post { kind := .load, loc := .win p.1 p.2, ret := true, open_ := s.onWay p.1 p.2 } (some (.v d.f d.n.toNat)) rowMask 12]

/-- A row of the active state bank (R18). -/
def State.bankRow (s : State) (k j w : Nat) : Nat :=
  (tget 0 (if (s.ctx k j).act then (s.core k).bankB else (s.core k).bankA) w).toNat
def opLdSb (d : VReg) (a : Mem) (s : State) : Out :=
  localPath s (withOp (spaceBank 6 (eaLd s a)) fun w =>
    { wrs := [{ dest := .v d.f d.n.toNat, mask := rowMask, val := row (s.bankRow s.ik s.ij w), lat := 4, port := .load }] })

def opLdIdx (d : VReg) (b k : BitVec 5) (m : BitVec 15) (s : State) : Out :=
  let ea := wrap 64 ((s.rdLa 6 b.toNat : Int) + 128 * (s.rdLa 6 k.toNat : Int) + 128 * sval 15 m.toNat)
  localPath s (withOp (spaceLocal 6 ea) fun w => ldWr d (s.rdRow 6 w) 4 w)

def opLdBc (d : VReg) (a : Mem) (s : State) : Out :=
  let ea := eaLd s a
  localPath s (withOp (spaceLocal 6 ea) fun w =>
    ldWr d (ofLanes 32 (List.replicate 32 (lane 32 (s.rdRow 6 w) (bitsAt ea 2 5)))) 4 w)

def opLdZ (d : VReg) (a : Mem) (s : State) : Out :=
  localPath s (withOp (spaceLocal 6 (eaLd s a)) fun w =>
    match unpack (s.rdRow 6 w) with
    | some v => ldWr d v 6 w
    | none => Out.mkTrap 10 6 (4 * 2 ^ 18))

/-- The selected space of acquires and releases (Table 07-1). -/
def spaceSel (s : State) (slot ea : Nat) (write : Bool) : Except Out Loc :=
  if bitAt ea 63 then do
    let p ← spaceGlobal s slot (ea % 2 ^ 63) write
    .ok (.phys p.1 p.2.1 p.2.2)
  else do
    let p ← spaceWindow s slot ea
    .ok (.win p.1 p.2)

/-- Bytes a data register moves within its row: all, or the word EA<6:3> (R172, R190). -/
def dregLo (d : DReg) (ea : Nat) : Nat := match d with | .v _ => 0 | .s _ => bitsAt ea 3 4 * 8
def dregLen (d : DReg) : Nat := match d with | .v _ => 128 | .s _ => 8
def dregVal (s : State) (slot : Nat) (d : DReg) : Nat :=
  match d with | .v r => s.rdV slot r.f r.n.toNat | .s n => s.rdS slot n.toNat
def dregDest (s : State) (d : DReg) : Dest := match d with | .v r => .v r.f r.n.toNat | .s n => s.ix.sD n.toNat

/-- R189: the next bundle issues only after the value is written. -/
def opLdAcq (sc : BitVec 3) (d : DReg) (a : Mem) (s : State) : Out :=
  let ea := eaLd s a
  withOp (spaceSel s 6 ea false) fun l =>
    Out.act [.post { kind := .acq, loc := l, open_ := s.locBits l != 0, lo := dregLo d ea, len := dregLen d, scope := sc.toNat, ret := true, va := va52 ea }
      (some (dregDest s d)) (match d with | .v _ => rowMask | .s _ => row (2 ^ 64 - 1)) 1]

/-! ### Stores -/

def opStRow (v : VReg) (a : Mem) (s : State) : Out :=
  localPath s (withOp (spaceLocal 7 (eaSt s a)) fun w => Out.act [.pad w rowMask (row (s.rdV 7 v.f v.n.toNat))])

def opStS (n : BitVec 6) (a : Mem) (s : State) : Out :=
  let ea := eaSt s a
  let sh := 64 * bitsAt ea 3 4
  localPath s (withOp (spaceLocal 7 ea) fun w =>
    Out.act [.pad w (row (onesAt sh 64)) (row (s.rdS 7 n.toNat <<< sh))])

def opStH (v : VReg) (a : Mem) (s : State) : Out :=
  let h := a.base.toNat
  let o := sval 20 a.off.toNat
  localPath s (withOp (boundRing s 7 h) fun r =>
    if o < 0 ∨ (r.n : Int) ≤ o then spRangeH 7 h a.off.toNat
    else if r.freeSlots < o.toNat + 1 then Out.wait
    else Out.act [.pad (r.base + r.slotAt r.res o.toNat) rowMask (row (s.rdV 7 v.f v.n.toNat)), .made h o.toNat])

/-- A posted global store (R177). -/
def postGlobal (s : State) (k : AccKind) (d : DReg) (a : Mem) : Out :=
  let ea := eaSt s a
  withOp (spaceGlobal s 7 ea true) fun p =>
    Out.act [.post { kind := k, loc := .phys p.1 p.2.1 p.2.2, lo := dregLo d ea, len := dregLen d,
                     data := row (dregVal s 7 d), va := va52 ea } none 0 0]
def opStg (v : DReg) (a : Mem) (s : State) : Out := postGlobal s .store v a
def opStNt (v : DReg) (a : Mem) (s : State) : Out := postGlobal s .nt v a

def opStPr (v : VReg) (a : Mem) (s : State) : Out :=
  withOp (spaceWindow s 7 (eaSt s a)) fun p =>
    Out.act [.post { kind := .store, loc := .win p.1 p.2, data := row (s.rdV 7 v.f v.n.toNat), spoil := s.wayBits p.1 p.2 } none 0 0]

def opStSb (v : VReg) (a : Mem) (s : State) : Out :=
  localPath s (withOp (spaceBank 7 (eaSt s a)) fun w => Out.act [.sb w (row (s.rdV 7 v.f v.n.toNat))])

def opStRel (sc : BitVec 3) (v : DReg) (a : Mem) (s : State) : Out :=
  let ea := eaSt s a
  withOp (spaceSel s 7 ea true) fun l =>
    Out.act [.post { kind := .rel, loc := l, lo := dregLo v ea, len := dregLen v, data := row (dregVal s 7 v),
                     scope := sc.toNat, va := va52 ea, spoil := s.locBits l } none 0 0]

/-! ### Atomics (R191) -/

/-- The new word of an atomic: 0 aadd, 1 amin, 2 amax, 3 axch, 4 acas, 5 aand, 6 aor, 7 axor. -/
def atomNew (op w old v v2 : Nat) : Nat :=
  let v := v % 2 ^ w
  if op = 0 then (old + v) % 2 ^ w
  else if op = 1 then wrap w (min (sval w old) (sval w v))
  else if op = 2 then wrap w (max (sval w old) (sval w v))
  else if op = 3 then v
  else if op = 4 then (if old = v then v2 % 2 ^ w else old)
  else if op = 5 then old &&& v else if op = 6 then old ||| v else old ^^^ v

/-- An atomic: posted when it returns nothing; a `.sp` result is due at the sixth counted bundle, a `.gl` one before the
next bundle. -/
def atomic (s : State) (op : Nat) (gl w64 : Bool) (r : BitVec 6) (a : Mem) : Out :=
  let ea := eaSt s a
  let n := r.toNat
  let len := if w64 then 8 else 4
  let lo := ea % 128 / len * len
  let v : Word := BitVec.ofNat 64 (s.rdS 7 n)
  let v2 : Word := BitVec.ofNat 64 (if op = 4 then s.rdS 7 (n + 1) else 0)
  let post (l : Loc) : Out :=
    Out.act [.post { kind := .atom op w64 v v2, loc := l, lo := lo, len := len, ret := n ≠ 0, va := va52 ea,
                     open_ := s.locBits l != 0, spoil := s.locBits l }
      (if n = 0 then none else some (s.ix.sD n)) (row (2 ^ 64 - 1)) (if gl then 1 else 6)]
  if gl then withOp (spaceGlobal s 7 ea true (op == 1 || op == 2 || 5 ≤ op)) fun p => post (.phys p.1 p.2.1 p.2.2)
  else withOp (spaceWindow s 7 ea) fun p => post (.win p.1 p.2)
def opAadd (gl w64 : Bool) (r : BitVec 6) (a : Mem) (s : State) : Out := atomic s 0 gl w64 r a
def opAmin (gl w64 : Bool) (r : BitVec 6) (a : Mem) (s : State) : Out := atomic s 1 gl w64 r a
def opAmax (gl w64 : Bool) (r : BitVec 6) (a : Mem) (s : State) : Out := atomic s 2 gl w64 r a
def opAxch (gl w64 : Bool) (r : BitVec 6) (a : Mem) (s : State) : Out := atomic s 3 gl w64 r a
def opAcas (gl w64 : Bool) (r : BitVec 6) (a : Mem) (s : State) : Out := atomic s 4 gl w64 r a
def opAand (gl w64 : Bool) (r : BitVec 6) (a : Mem) (s : State) : Out := atomic s 5 gl w64 r a
def opAor (gl w64 : Bool) (r : BitVec 6) (a : Mem) (s : State) : Out := atomic s 6 gl w64 r a
def opAxor (gl w64 : Bool) (r : BitVec 6) (a : Mem) (s : State) : Out := atomic s 7 gl w64 r a

end Sys2Proof.Machine
end

