-- ==== Sys2Proof/Machine/SyncOp.lean ====
section
/-! DEFINITION. What each SY operation decides (R204 to R220). -/

namespace Sys2Proof.Machine

/-- `SYNCERR` (R215). -/
def syncErr (n : Nat) : Out := Out.mkTrap 13 9 n

/-- R216: `nb.init` and `nb.exp` reach the barrier one cycle after issue. -/
def opNbInit (b : BitVec 6) (n : BitVec 10) (s : State) : Out :=
  Out.act [.nb s.ik b.toNat { init := some n.toNat, ready := s.now + 1 }]
def opNbExp (b r : BitVec 6) (s : State) : Out :=
  Out.act [.nb s.ik b.toNat { x := s.rdS 9 r.toNat % 2 ^ 32, ready := s.now + 1 }]
/-- R208: the arrival is held behind the earlier accesses; `va` carries the cycle it may reach the barrier from.  An absent
peer traps `SPRANGE`, for which no address exists: a free information word (log entry 1, DESIGN CHOICE). -/
def opNbArr (b : BitVec 6) (peer : Option (BitVec 2)) (s : State) : Out :=
  match peer with
  | none => Out.act [.post { kind := .arrive s.ik b.toNat, loc := .nowhere, scope := 1, va := s.now + 2 } none 0 0]
  | some p =>
    let k := clusterOf s.ik * 4 + p.toNat
    if s.coreOk k then Out.act [.post { kind := .arrive k b.toNat, loc := .nowhere, scope := 2, va := s.now } none 0 0]
    else spRange 9 (s.free 800000 % 2 ^ 64)
def opNbWait (b : BitVec 6) (q : Bool) (_s : State) : Out := Out.act [.wait (.nb b.toNat q)]
def opNbStat (d b : BitVec 6) (sel : Bool) (s : State) : Out :=
  s.wrS d.toNat (((s.core s.ik).nb b.toNat).word sel) 2 .copy

/-- R217. -/
def opTlWait (e : BitVec 3) (k : Bool) (r : BitVec 6) (s : State) : Out :=
  let n := if k then s.rdS 9 r.toNat else s.rdC 9 (r.toNat % 32)
  if (s.ix.tl e.toNat).i < n then syncErr 1 else Out.act [.wait (.tl e.toNat n)]
def opTlRead (d : BitVec 6) (e : BitVec 3) (sel : BitVec 2) (s : State) : Out :=
  s.wrS d.toNat ((s.ix.tl e.toNat).word sel.toNat) 2 .copy

/-- R218. -/
def l1Range (s : State) (rg : Option (BitVec 6 × BitVec 14)) : Option (Nat × Nat) :=
  rg.map fun p => (s.rdS 9 p.1.toNat / 128 * 128, p.2.toNat + 1)
def opInvL1 (rg : Option (BitVec 6 × BitVec 14)) (s : State) : Out := Out.act [.dropL1 (l1Range s rg)]
def opWbL1 (rg : Option (BitVec 6 × BitVec 14)) (s : State) : Out :=
  Out.act [.post { kind := .wb (l1Range s rg), loc := .nowhere, fn := s.fnOf s.ik s.ij } none 0 0]

/-- R211. -/
def opHBind (h : BitVec 5) (r : BitVec 6) (s : State) : Out :=
  let v := s.rdS 9 r.toNat
  let b := v % 2 ^ 13
  let n := bitsAt v 16 14
  let o := s.ix.ring h.toNat
  if v ≠ b + n * 2 ^ 16 ∨ n = 0 ∨ 8192 < n ∨ 8192 < b + n then syncErr 6
  else if o.held ≠ 0 then syncErr 2
  else if o.res ≠ o.fil then syncErr 5
  else Out.act [.ring h.toNat { base := b, n := n, bound := true }]
/-- R210. -/
def opHAdvc (h : BitVec 5) (k : BitVec 14) (s : State) : Out :=
  withOp (boundRing s 9 h.toNat) fun r =>
    if r.n < k.toNat then syncErr 3
    else if r.held = 2 then syncErr 4
    else if r.filled < k.toNat then Out.wait
    else Out.act [.adv h.toNat k.toNat 0 0]
def opHAdvp (h : BitVec 5) (k : BitVec 14) (s : State) : Out :=
  withOp (boundRing s 9 h.toNat) fun r =>
    if r.n < k.toNat then syncErr 3
    else if r.held = 1 then syncErr 4
    else if r.freeSlots < k.toNat then Out.wait
    else Out.act [.adv h.toNat 0 k.toNat k.toNat]
def opHStat (d : BitVec 6) (h : BitVec 5) (sel : Bool) (s : State) : Out :=
  s.wrS d.toNat ((s.ix.ring h.toNat).word sel) 2 .copy

/-- R196, R197. -/
def opDrain (sc : BitVec 3) (_s : State) : Out := Out.act [.wait (.drain sc.toNat)]
def opFence (sc : BitVec 3) (_s : State) : Out :=
  Out.act [.post { kind := .fence, loc := .nowhere, scope := sc.toNat } none 0 0]

end Sys2Proof.Machine
end

