-- ==== Sys2Proof/Machine/ControlOp.lean ====
section
/-! DEFINITION. What each CT operation decides: control, tasks, system and rewrite enable (R86 to R122, R295 to R298, R385
to R397, R439 to R444). -/

namespace Sys2Proof.Machine

/-- `CTLERR` (R110). -/
def ctlErr (n : Nat) : Out := Out.mkTrap 12 1 n
/-- An instruction that handler mode forbids (R426): DOUBLE with the code 17. -/
def noHandler (s : State) (o : Out) : Out := if s.ix.hand.on then Out.mkTrap 17 1 0 else o
/-- A write into the control state (R91). -/
def ctWr (d : Dest) (w v : Nat) (lat : Nat := 1) : Out := Out.wr d w (v % 2 ^ w) lat

/-- A bundle number as it wraps. -/
def addr (n : Nat) : Addr := BitVec.ofNat 32 n
/-- The bundle after this one, past a literal bundle (R28, R112). -/
def State.nextPc (s : State) : Addr := s.ix.ctl.pc + (if s.iss.lit.isSome then 2 else 1)

/-! ### Branches (R112) -/

def opBr (t : Addr) (_s : State) : Out := Out.act [.jump t]
def opBrc (t : Addr) (f : Bool) (s : State) : Out :=
  match s.ix.ctl.cq with
  | [] => Out.wait
  | e :: _ => if s.now < e.at_ then Out.wait else Out.act (if e.v != f then [.cqPop, .jump t] else [.cqPop])
def opJmp (t : Addr) (k : BitVec 3) (s : State) : Out :=
  Out.act [.jump (t + addr (if k = 0 then 0 else s.rd 1 (.lx k.toNat)))]
/-- `call`, and the inline form of a refused `fork` (R388). -/
def callOut (t : Addr) (inline_ : Bool) (s : State) : Out :=
  if 16 ≤ s.ix.ctl.ret.length then ctlErr 3 else Out.act [.call t s.nextPc inline_]
def opCall (t : Addr) (s : State) : Out := callOut t false s
def opRet (s : State) : Out := if s.ix.ctl.ret = [] then ctlErr 4 else Out.act [.ret]

/-! ### Loops (R105, R114) -/

def opLoop (len1 : BitVec 10) (lvl set : BitVec 3) (n : LoopCnt) (s : State) : Out :=
  noHandler s <|
    let x := s.ix.ctl
    let a := x.pc.toNat
    let len := len1.toNat + 1
    let cnt := match n with | .imm n => n.toNat | .lc k => s.rd 1 (.lc k.toNat)
    let inner := x.loops.head?
    if inner.any fun l => decide (lvl.toNat ≤ l.lvl) then ctlErr 1
    else if inner.any fun l => decide (l.first.toNat ≤ a) && decide (a ≤ l.last.toNat) && decide (l.last.toNat < a + len)
      then ctlErr 2
    else if cnt = 0 then Out.act [.skipTo (addr (a + len + 1))]
    else Out.act [.loop { first := addr (a + 1), last := addr (a + len), left := cnt, total := cnt, lvl := lvl.toNat,
                          step := BitVec.ofNat 32 (s.rd 1 (.strd set.toNat) >>> 32) }
                        (BitVec.ofNat 32 (s.rd 1 (.strd set.toNat)))]
def opLpCnt (v : BitVec 16) (k : BitVec 3) (p : Bool) (_s : State) : Out :=
  ctWr (if p then .lcP k.toNat else .lc k.toNat) 16 v.toNat
def opLpIdx (v : BitVec 32) (k : BitVec 3) (_s : State) : Out := ctWr (.lx k.toNat) 32 v.toNat
/-- A stride set holds start below step, each sign-extended to 32 bits. -/
def opLpStr (step start : BitVec 16) (set : BitVec 3) (_s : State) : Out :=
  ctWr (.strd set.toNat) 64 (wrap 32 (sval 16 start.toNat) + wrap 32 (sval 16 step.toNat) * 2 ^ 32)

/-! ### Skip predicates, yields, priority, `fmt`, `rwp` -/

/-- R115: what `kp.set` and `kp.clr` start from; while a write of the pending `kp` is in flight the base of the pending forms is not
to be relied on (R89). -/
def kpBase (s : State) (p : Bool) : Nat :=
  if p ∧ (s.ix.ctl.kpP.isSome ∨ taint s.ix .kpP ≠ 0) then s.rd 1 .kpP else s.rd 1 .kp
def opKpSet (m : BitVec 16) (p : Bool) (s : State) : Out := ctWr (if p then .kpP else .kp) 16 (kpBase s p ||| m.toNat)
def opKpClr (m : BitVec 16) (p : Bool) (s : State) : Out :=
  ctWr (if p then .kpP else .kp) 16 (kpBase s p &&& (2 ^ 16 - 1 - m.toNat))
/-- `RUNOVER` (R101): the run in force, whether a yield raised it, and the count. -/
def runoverInfo (x : Ctx) (atYield : Bool) : Nat := x.ctl.run.toNat + b2n atYield * 2 ^ 20 + x.ctl.runCnt % 2 ^ 32 * 2 ^ 32
/-- A yield with stated run 0 needs the exclusive attribute (R101). -/
def opYield (run : BitVec 20) (s : State) : Out :=
  noHandler s (if run = 0 ∧ !s.ix.task.excl then Out.mkTrap 5 1 (runoverInfo s.ix true) else Out.act [.yield run])
def opFmtLo (v : BitVec 32) (_s : State) : Out :=
  { wrs := [{ dest := .fmt, mask := row (2 ^ 32 - 1), val := row v.toNat, lat := 4, port := .owner }] }
def opFmtHi (v : BitVec 32) (_s : State) : Out :=
  { wrs := [{ dest := .fmt, mask := row (onesAt 32 32), val := row (v.toNat <<< 32), lat := 4, port := .owner }] }
def opRwp (r x : Bool) (_s : State) : Out := ctWr .rwp 2 (b2n r + 2 * b2n x)
/-- R120: no context ranks above its launch. -/
def opPri (n : BitVec 6) (s : State) : Out :=
  Out.act [.pri (if n.toNat < s.ix.task.lprio.toNat then s.ix.task.lprio else n)]

/-! ### The condition queue (R121) -/

def opCqPush (p : BitVec 4) (neg : Bool) (s : State) : Out := Out.act [.cqPush (s.rdP 1 p.toNat != neg) 1]
def opCqFlush (_s : State) : Out := Out.act [.cqFlush]
def opCqDepth (d : BitVec 6) (s : State) : Out := s.wrS d.toNat s.ix.ctl.cq.length 2 .copy
def opWdog (_s : State) : Out := Out.act [.wdog]

/-! ### Tasks -/

/-- The kernel a task belongs to, if it is a launched one. -/
def State.kernelOf (s : State) (id : Nat) : Option Kernel := s.kernels.find? fun k => k.id == id
/-- The frame with a number in a cluster. -/
def Cluster.frame (c : Cluster) (id : Nat) : Option Frame := c.frames.find? fun f => f.id == id
/-- Free frames of a kernel's pool in a cluster. -/
def Cluster.freeFrames (c : Cluster) (k : Kernel) : Nat := k.fpn - (c.frames.filter fun f => f.kern == k.id).length
def Cluster.modFrame (c : Cluster) (id : Nat) (g : Frame → Frame) : Cluster :=
  { c with frames := c.frames.map fun f => if f.id = id then g f else f }
/-- The pending children of a task. -/
def State.children (s : State) (k j : Nat) : Nat :=
  match (s.ctx k j).task.frame with
  | some f => (((s.cluster (clusterOf k)).frame f).map (·.pend)).getD 0
  | none => 0

/-- `halt` returns from an inlined child, and otherwise ends the task (R117, R388). -/
def opHalt (s : State) : Out :=
  noHandler s (match s.ix.ctl.ret with
    | (_, true) :: _ => Out.act [.ret]
    | _ => Out.act [.halt])

/-- `TASKERR` (R387, R391). -/
def taskErr (n : Nat) : Out := Out.mkTrap 14 1 n

/-- R387, R388: a fork finds a free entry and a free frame, or acts by its policy; a `defer` fork stays behind the older entries
of its kernel (log entry 117, DEDUCED). -/
def opFork (t : Addr) (pol : BitVec 2) (s : State) : Out :=
  noHandler s <|
    match s.kernelOf s.ix.task.kern with
    | none => taskErr 1
    | some k =>
      if k.frame = 0 then taskErr 1
      else
        let c := s.cluster (clusterOf s.ik)
        let s1 : Word := BitVec.ofNat 64 (s.rdS 1 1)
        let s2 : Word := BitVec.ofNat 64 (s.rdS 1 2)
        let used := (c.ovf.filter fun e => e.kern == k.id).length
        let acc := (c.spawnQ.filter fun e => !e.resume).length < 256 && 0 < c.freeFrames k && (pol != 1 || used == 0)
        let full := 65535 ≤ s.children s.ik s.ij
        if acc then
          if full then taskErr 2
          else Out.act (.fork t false s1 s2 :: (if pol = 2 then [.cqPush true 1] else []))
        else if pol = 2 then Out.act [.cqPush false 1]
        else if pol = 1 ∧ used < k.ovfq then (if full then taskErr 2 else Out.act [.fork t true s1 s2])
        else callOut t true s

def opSync (r : BitVec 6) (s : State) : Out :=
  noHandler s <|
    let m := s.rdS 1 r.toNat
    if m &&& (2 ^ 64 - 1 - s.ix.task.demand.toNat) ≠ 0 then taskErr 3
    else Out.act [.sync (BitVec.ofNat 56 m)]
def opSleep (s : State) : Out := noHandler s (Out.act [.sleep])
/-- R393: a release at `.cl`. -/
def opWake (t : Addr) (k : BitVec 3) (c : BitVec 2) (s : State) : Out :=
  Out.act [.post { kind := .wake (clusterOf s.ik * 4 + c.toNat) k.toNat t, loc := .nowhere, scope := 2 } none 0 0]
def opHintNext (_s : State) : Out := Out.act [.hint]
def opWaitPred (_s : State) : Out := Out.act [.wait .pred]

/-- R397. -/
def opSpawnStat (s : State) : Out :=
  let c := s.cluster (clusterOf s.ik)
  let k := s.kernelOf s.ix.task.kern
  s.wrS (s.arg.getD 0 0) (
    (c.spawnQ.filter fun e => !e.resume).length + (c.ovf.filter fun e => e.kern == s.ix.task.kern).length % 2 ^ 16 * 2 ^ 9 +
    ((k.map fun k => c.freeFrames k).getD 0) % 2 ^ 16 * 2 ^ 25 + s.children s.ik s.ij % 2 ^ 16 * 2 ^ 41 +
    b2n s.ix.wakeP.isSome * 2 ^ 57 + b2n ((k.map (·.hinted)).getD false) * 2 ^ 58) 2 .copy

/-! ### Rewrite control (R295 to R297) -/

def opRwLd (img : BitVec 6) (_s : State) : Out := Out.act [.rwLd img.toNat]
def opRwEn (_s : State) : Out := ctWr .en 1 1
def opRwDis (_s : State) : Out := ctWr .en 1 0
def opRwInv (k : BitVec 6) (_s : State) : Out := Out.act [.rwInv (some k.toNat)]
def opRwInvAll (_s : State) : Out := Out.act [.rwInv none]

/-! ### System instructions (R439 to R444) -/

def opTrap (n : BitVec 16) (s : State) : Out :=
  if s.ix.hand.on then Out.mkTrap 18 1 n.toNat else Out.act [.trapAfter 18 n.toNat]
def opSys (n : BitVec 16) (s : State) : Out := noHandler s (Out.act [.trapAfter 19 n.toNat])
def sysErr (slot n : Nat) : Out := Out.mkTrap 17 slot n
def opRfe (r : Option (BitVec 6)) (s : State) : Out :=
  if !s.ix.hand.on then sysErr 1 1
  else Out.act [.rfe (match r with
    | some n => addr (s.rdS 1 n.toNat)
    | none => addr (bitsAt (tget 0 s.ix.trec 1).toNat 32 32))]
def opKill (r : BitVec 6) (s : State) : Out :=
  withOp (target s 1 (s.rdS 1 r.toNat)) fun t => Out.act [.kill t.1 t.2]
/-- R442: the entries go at once; the next bundle waits for the accesses they translated. -/
def opTlbInvAll (dev : Bool) (_s : State) : Out := Out.act [.tlb 0 0 0 dev, .wait (.tlbInv 0 0 0 dev)]
def opTlbInvFn (f : BitVec 4) (dev : Bool) (_s : State) : Out :=
  Out.act [.tlb 1 f.toNat 0 dev, .wait (.tlbInv 1 f.toNat 0 dev)]
def opTlbInvPg (r : BitVec 6) (f : BitVec 4) (dev : Bool) (s : State) : Out :=
  let p := va52 (s.rdS 1 r.toNat) / 4096
  Out.act [.tlb 2 f.toNat p dev, .wait (.tlbInv 2 f.toNat p dev)]

/-- Bytes of LPDDR 6: 744 GiB usable (Table 01-1). -/
def lpddrBytes : Nat := 744 * 2 ^ 30
/-- R443; a page to log waits while an uncorrectable line holds the log (R436). -/
def opPgret (r d : BitVec 6) (s : State) : Out :=
  let pa := va52 (s.rdS 1 r.toNat)
  let reply := if lpddrBytes ≤ pa then 2 else if s.retired pa then 1 else 0
  if reply = 0 ∧ s.logHeld (dieOf s.ik) then Out.wait
  else (s.wrS d.toNat reply 2 .copy).and (Out.act (if reply = 0 then [.retire pa, .wait (.quiet (pa / 65536))] else []))
/-- The operand of `wayq`: slice, set and way, if it is well formed and names a present slice. -/
def wayOperand (s : State) (v : Nat) : Option (Nat × Nat × Nat) :=
  let sl := v % 64
  let w := bitsAt v 16 5
  if v / 2 ^ 21 ≠ 0 ∨ 24 ≤ w ∨ !s.sliceOk sl then none else some (sl, bitsAt v 6 10, w)
def opWayq (r d : BitVec 6) (s : State) : Out :=
  match wayOperand s (s.rdS 1 r.toNat) with
  | none => s.wrS d.toNat 3 2 .copy
  | some p =>
    let reply := s.quarReply p.1 p.2.1 p.2.2
    if reply = 0 ∧ s.logHeld (p.1 / 32) then Out.wait
    else (s.wrS d.toNat reply 2 .copy).and (Out.act (if reply = 0 then [.wayq p.1 p.2.1 p.2.2 true] else []))
def opWayqRel (r d : BitVec 6) (s : State) : Out :=
  match wayOperand s (s.rdS 1 r.toNat) with
  | none => s.wrS d.toNat 3 2 .copy
  | some p =>
    let q := s.quarantined p.1 p.2.1 p.2.2
    (s.wrS d.toNat (if q then 0 else 1) 2 .copy).and (Out.act (if q then [.wayq p.1 p.2.1 p.2.2 false] else []))
def opHold (r : BitVec 6) (s : State) : Out :=
  withOp (target s 1 (s.rdS 1 r.toNat)) fun t => Out.act [.hold t.1 t.2 true]
def opHoldRel (r : BitVec 6) (s : State) : Out :=
  withOp (target s 1 (s.rdS 1 r.toNat)) fun t => Out.act [.hold t.1 t.2 false]

end Sys2Proof.Machine
end

