-- ==== Sys2Proof/Machine/Engine.lean ====
section
/-! DEFINITION. What the engines share (R204, R321, R349, R428): queues and their heads, completion, error records, tied
barriers, rows written by others, tiles named by commands. -/

namespace Sys2Proof.Machine

/-! ### Barriers and rows -/

/-- An update on its way to a barrier of a core (R206). -/
def State.nbAdd (s : State) (k b : Nat) (u : BarUpd) : State := s.modCore k fun c => { c with nbIn := c.nbIn ++ [(b, u)] }

/-- A write to a row of a core's scratchpad by anyone (R172): matrix entries that still read it are disturbed (R251), and
a colophon row that a copy command is about to clear, or a row that `cupd` changes, becomes unpredictable (R278, R340). -/
def State.storeRow (s : State) (k w : Nat) (mask v : Row) (key : Nat := 2 ^ 64) : State :=
  let w := w % 8192
  let s := s.mxTouch k w
  if s.coloPend k w key || (s.core k).updBusy w then s.putPad k w (s.free (810000 + w) % 2 ^ 1024)
  else (s.notePad k w mask).modCore k fun c => { c with pad := tset 0 c.pad w (blend mask v (row (s.padRow k w))) }

/-! ### Producers of a ring (R176) -/

/-- Whether no producer is at work on a ring. -/
def Ring.quiet (r : Ring) : Bool := r.res == r.fil && r.held != 1 && r.put == 0
/-- A producer has acted on a ring, which clashed with one of another kind or not.  While two kinds are at work the rows of the ring
are unpredictable (R176). -/
def ringProduced (s : State) (k j h : Nat) (clash : Bool) : State :=
  let r := (s.ctx k j).ring h
  if !clash && !r.mixed then s
  else
    let s := (List.range r.n).foldl (fun s i => s.storeRow k (r.base + i) rowMask (row (s.free (850000 + i)))) s
    s.modCtx k j fun x => x.setRing h { x.ring h with mixed := !r.quiet }

/-! ### Queues -/

/-- Whether a command may start: HALT does not hold it, and no fence it waits behind is outstanding (R197, R204, R310). -/
def Ctx.mayStart (x : Ctx) (e : Nat) (c : Cmd) : Bool :=
  let t := x.tl e
  !(t.halt && decide (t.haltN < c.opn)) && !x.posted.any fun a => a.kind == .fence && decide (a.key < c.key)
/-- The head of a context's queue, if it may start. -/
def Ctx.head (x : Ctx) (e : Nat) : Option Cmd :=
  match (x.tl e).queue with
  | c :: _ => if x.mayStart e c then some c else none
  | [] => none
/-- The head leaves its queue. -/
def Ctx.popCmd (x : Ctx) (e : Nat) : Ctx := let t := x.tl e; x.setTl e { t with queue := t.queue.drop 1 }
/-- The first of n in rotating order from `from` for which the test holds. -/
def rotPick (from_ n : Nat) (f : Nat → Bool) : Option Nat :=
  ((List.range n).map fun i => (from_ + i) % n).find? f

/-- An operation of a timeline completes (R204). -/
def State.opDone (s : State) (k j e : Nat) (r : OpRec) (faulted halts : Bool) : State :=
  s.modCtx k j fun x => x.setTl e ((x.tl e).complete r faulted halts)

/-- The error record of an engine (Tables 13-2, 14-8 and their like): bytes 0 to 31, with what the engine adds above. -/
def Cmd.record (c : Cmd) (eng code : Nat) : Nat :=
  c.opn % 2 ^ 64 + eng * 2 ^ 64 + c.fn % 256 * 2 ^ 72 + code % 256 * 2 ^ 80 + ctxCore c.core c.ctx * 2 ^ 88 +
  c.ca.toNat * 2 ^ 128 + c.cb.toNat * 2 ^ 192

/-! ### Tiles -/

/-- Whether an array instruction or `mclr` on the tile that was accepted before the command has still to complete (R315,
R330). -/
def Core.tileBusy (c : Core) (n key : Nat) : Bool := c.mq.any fun e => e.acc == n && e.tile.isSome && decide (e.key < key)
/-- The entry a command made for the tile it names (R315). -/
def Ctx.tileCmd (x : Ctx) (e opn : Nat) : Option TileCmd := x.tileCmds.find? fun t => t.e == e && t.opn == opn
def State.tileBad (s : State) (c : Cmd) (e : Nat) : Bool :=
  match (s.ctx c.core c.ctx).tileCmd e c.opn with
  | some t => t.bad
  | none => false
/-- Rows 0..n-1 of a tile become unpredictable; for a copy command the counts and VAL too. -/
def Tile.spoil (t : Tile) (s : State) (key n : Nat) (all : Bool) : Tile :=
  let t := t.freed s key fun i => decide (i < n)
  if all then { t with val := bitAt (s.free (key + 40)) 0, asat := s.free (key + 41) % 2 ^ 32, arsv := s.free (key + 42) % 2 ^ 32 }
  else t
def State.modTile (s : State) (k n : Nat) (f : Tile → Tile) : State :=
  s.modCore k fun c => { c with tiles := tput c.tiles n (f (tget {} c.tiles n)) }
/-- VAL of a tile is cleared, and stays so under the accumulating entries still in the queue, which do not change it (R310,
R349). -/
def State.clearVal (s : State) (k n : Nat) : State :=
  let low (t : Tile) : Tile := { t with val := false }
  let go (p : List MxEnt × Bool) (e : MxEnt) : List MxEnt × Bool :=
    if e.acc ≠ n ∨ p.2 then (p.1 ++ [e], p.2) else if e.ovw then (p.1 ++ [e], true) else (p.1 ++ [{ e with tile := e.tile.map low }], false)
  (s.modTile k n low).modCore k fun c => { c with mq := (c.mq.foldl go ([], false)).1 }
/-- After a command on a tile that another operation met: its rows are unpredictable (R315, R330). -/
def State.tileSpoilt (s : State) (c : Cmd) (e : Nat) : State :=
  match (s.ctx c.core c.ctx).tileCmd e c.opn with
  | some t => if t.bad then s.modTile c.core t.acc fun v => v.spoil s (820000 + 64 * t.acc) t.rows (e == 0) else s
  | none => s

/-- Whether the tile of an engine command lies within the bank demand of its context. -/
def State.tileOwned (s : State) (c : Cmd) (n : Nat) : Bool := bitAt (s.ctx c.core c.ctx).task.demand.toNat (16 + n)

/-! ### State banks (R354) -/

/-- A row of a bank, and its frames' dirty bits. -/
def Core.bank (c : Core) (b : Bool) : Tab Row := if b then c.bankB else c.bankA
def Core.dirty (c : Core) (b : Bool) (f : Nat) : Bool := tget false (if b then c.dirtyB else c.dirtyA) f
def Core.setDirty (c : Core) (b : Bool) (f : Nat) (v : Bool) : Core :=
  if b then { c with dirtyB := tset false c.dirtyB f v } else { c with dirtyA := tset false c.dirtyA f v }
def Core.setBank (c : Core) (b : Bool) (w : Nat) (v : Row) : Core :=
  if b then { c with bankB := tset 0 c.bankB w v } else { c with bankA := tset 0 c.bankA w v }
/-- A write of a row by anyone but a fill: both frames become dirty. -/
def State.putBank (s : State) (k : Nat) (b : Bool) (w : Nat) (v : Row) : State :=
  let w := w % 4096
  s.modCore k fun c => ((c.setBank b w v).setDirty b (2 * w) true).setDirty b (2 * w + 1) true

/-! ### Virtual memory as an engine reaches it (R323, R434) -/

/-- One byte of virtual memory: the byte, or the status (4 translation fault, 5 uncorrectable data) and the address. -/
def State.vByte (s : State) (q fn : Nat) (priv : Bool) (part : Option Nat) (va : Int) : State × Except (Nat × Nat) Nat :=
  if va < 0 ∨ (2 ^ 52 : Int) ≤ va then (s, .error (4, wrap 52 va))
  else
    let a := va.toNat
    let r := s.xlNow q fn a false priv
    match r.2 with
    | .ok tgt p pa =>
      if tgt = 0 ∧ part.isSome ∧ part ≠ some p then (r.1, .error (4, a))
      else if r.1.physBad tgt p pa 1 then (r.1, .error (5, a))
      else (r.1.physTouch tgt p pa 1, .ok (r.1.physRead tgt p pa 1))
    | _ => (r.1, .error (4, a))

/-- Bytes of virtual memory in turn. -/
def State.vBytes (s : State) (q fn : Nat) (priv : Bool) (part : Option Nat) : List Int → State × Except (Nat × Nat) (List Nat)
  | [] => (s, .ok [])
  | a :: l =>
    match s.vByte q fn priv part a with
    | (s, .error e) => (s, .error e)
    | (s, .ok b) =>
      match s.vBytes q fn priv part l with
      | (s, .ok r) => (s, .ok (b :: r))
      | (s, .error e) => (s, .error e)

/-- Bytes that lie together behind their translations: virtual address of the first, place, number, value. -/
structure Run where
  va : Nat
  tgt : Nat
  part : Nat
  pa : Nat
  n : Nat := 1
  v : Nat
  deriving DecidableEq, Repr

/-- Where a byte of virtual memory may be written, or the status and the address. -/
def State.vPlace (s : State) (q fn : Nat) (priv : Bool) (part : Option Nat) (x : Int × Nat) : State × Except (Nat × Nat) Run :=
  if x.1 < 0 ∨ (2 ^ 52 : Int) ≤ x.1 then (s, .error (4, wrap 52 x.1))
  else
    let a := x.1.toNat
    let r := s.xlNow q fn a true priv
    match r.2 with
    | .ok tgt p pa =>
      if tgt = 0 ∧ part.isSome ∧ part ≠ some p then (r.1, .error (4, a))
      else (r.1, .ok { va := a, tgt := tgt, part := p, pa := pa, v := x.2 % 256 })
    | _ => (r.1, .error (4, a))
/-- A byte joins the run it continues. -/
def joinRun (l : List Run) (x : Run) : List Run :=
  match l with
  | y :: r => if y.tgt = x.tgt ∧ y.part = x.part ∧ y.pa + y.n = x.pa then { y with n := y.n + 1, v := y.v + x.v * 2 ^ (8 * y.n) } :: r
    else x :: l
  | [] => [x]
/-- The runs of bytes in turn, the last one first. -/
def State.vRuns (s : State) (q fn : Nat) (priv : Bool) (part : Option Nat) (l : List (Int × Nat)) :
    State × Except (Nat × Nat) (List Run) :=
  l.foldl (fun (p : State × Except (Nat × Nat) (List Run)) x =>
    match p.2 with
    | .error _ => p
    | .ok r => match p.1.vPlace q fn priv part x with
      | (s, .ok y) => (s, .ok (joinRun r y))
      | (s, .error e) => (s, .error e)) (s, .ok [])

/-- Writing bytes of virtual memory, each in its own page, all or none. -/
def State.vWrite (s : State) (q fn : Nat) (priv : Bool) (part : Option Nat) (own : Nat × Nat) (l : List (Int × Nat)) :
    State × Except (Nat × Nat) Unit :=
  match s.vRuns q fn priv part l with
  | (s, .error e) => (s, .error e)
  | (s, .ok r) =>
    match r.reverse.find? fun x => s.physWBad x.tgt x.part x.pa x.n with
    | some x => (s, .error (5, x.va))
    | none => (r.reverse.foldl (fun s x => s.physWrite x.tgt x.part x.pa x.n x.v own) s, .ok ())

end Sys2Proof.Machine
end

