-- ==== Sys2Proof/Machine/ScanEngine.lean ====
section
/-! DEFINITION. The scan engine (R300 to R320).  A command proceeds one row access at a time, so that what loads and
stores see between its accesses is what R309 allows. -/

namespace Sys2Proof.Machine

/-! ### Numerics (R302 to R306) -/

/-- fl(x): binary32, nearest even, results below 2^-126 flushed. -/
def scFl (v : FV) : Nat := (fmtF32.round .arith true 0 v).bits
def scIn (x : Nat) : FV := fmtF32.decZ x
def FV.plus (a b : FV) : FV := (FV.add 0 a b).1
def FV.times (a b : FV) : FV := (a.mul b).1

/-- Fade (R304) of an exact value: the bits, and whether FADE is set.  The rounding before the test has no bound on the
exponent, so it is made 200 binades up. -/
def scFade (v : FV) : Nat × Bool :=
  match v with
  | .fin n m e =>
    if m = 0 then (0, false)
    else if (Nat.log2 m : Int) + e < -126 ∧ fmtF32.mag 0 n m (e + 200) < (74 + 127) <<< 23 then (0, true)
    else ((fmtF32.round .arith false 0 v).bits, false)
  | v => ((fmtF32.round .arith false 0 v).bits, false)

/-- One Kogge-Stone level at distance d (R304): A, U and FADE. -/
def scLevel (d : Nat) (st : List Nat × List Nat × Bool) : List Nat × List Nat × Bool :=
  let a := st.1
  let u := st.2.1
  let at' (l : List Nat) (t : Nat) : FV := fmtF32.dec (l.getD t 0)
  let fs := (List.range a.length).map fun t =>
    if t < d then (a.getD t 0, false) else scFade ((at' a t).times (at' a (t - d)))
  let us := (List.range u.length).map fun t =>
    if t < d then u.getD t 0 else scFl (((at' a t).times (at' u (t - d))).plus (at' u t))
  (fs.map (·.1), us, st.2.2 || fs.any (·.2))

/-- Phase 1 over log2 L levels. -/
def scPhase1 : Nat → Nat → List Nat × List Nat × Bool → List Nat × List Nat × Bool
  | 0, _, st => st
  | n + 1, d, st => scPhase1 n (2 * d) (scLevel d st)

/-- Phase 2 at one position (R305): h, c and y. -/
def scPos (a u hin cin : Nat) : Nat × Nat × Nat :=
  let A := fmtF32.dec a
  let h := fmtF32.decZ hin
  let cc := fmtF32.decZ cin
  let p := if a = 0 then 0 else scFl (A.times h)
  let e : FV := if a = 0 ∨ (fmtF32.dec p).odd then .fin false 0 0 else fmtF32.dec (scFl ((A.times h).plus (fmtF32.dec p).neg))
  let q := if a = 0 then 0 else scFl (A.times cc)
  let pu := (fmtF32.dec p).plus (fmtF32.dec u)
  let s := scFl pu
  let f : FV := if (fmtF32.dec s).odd then .fin false 0 0 else pu.plus (fmtF32.dec s).neg
  let c := scFl ((fmtF32.dec q).plus (fmtF32.dec (scFl (e.plus f))))
  (s, c, scFl ((fmtF32.dec s).plus (fmtF32.dec c)))

/-- A chunk of one lane: fades and drives to the read-outs, the carry-out and FADE (R304, R305). -/
def scChunk (lg : Nat) (fades drives : List Nat) (hin cin : Nat) : List Nat × Nat × Nat × Bool :=
  let a0 := fades.map fun x => (scFade (scIn x)).1
  let u0 := drives.map fun x => (fmtF32.round .arith true 0 (scIn x)).bits
  let st := scPhase1 lg 1 (a0, u0, false)
  let ps := List.zipWith (fun a u => scPos a u hin cin) st.1 st.2.1
  let l := ps.getLastD (hin, cin, 0)
  (ps.map (·.2.2), l.1, l.2.1, st.2.2)

/-! ### Operand fields -/

def Cmd.scG (c : Cmd) : Nat := if c.fn = 1 then bitsAt c.cb.toNat 16 4 + 1 else bitsAt c.ca.toNat 19 4 + 1
def Cmd.scK (c : Cmd) : Nat := if c.fn = 1 then bitsAt c.cb.toNat 12 4 else bitsAt c.ca.toNat 15 4
def Cmd.scT (c : Cmd) : Nat := bitsAt c.cb.toNat 0 12 + 1
def Cmd.scL (c : Cmd) : Nat := 2 ^ c.cfg

/-- The code of Table 13-1, lowest first; 0 for a well-formed command. -/
def scanBad (s : State) (c : Cmd) : Nat :=
  let a := c.ca.toNat
  let b := c.cb.toNat
  let f := c.fn
  if f = 1 then (if a / 2 ^ 40 ≠ 0 ∨ b / 2 ^ 20 ≠ 0 then 1 else if 16 < c.scK + c.scG then 3 else 0)
  else if f = 2 then (if a / 2 ^ 54 ≠ 0 then 1 else if !s.tileOwned c (bitsAt a 32 3) then 5 else 0)
  else if f = 3 ∨ f = 4 then
    (if a / 2 ^ 23 ≠ 0 ∨ (f = 4 ∧ bitAt a 14) ∨ (f = 3 ∧ bitAt a 14 ∧ a % 2 ^ 14 ≠ 0) then 1
     else if 16 < c.scK + c.scG then 3
     else if !bitAt a 13 ∧ bitAt a 12 then 4 else 0)
  else if f = 5 then (if a / 2 ^ 30 ≠ 0 then 1 else 0)
  else (if a / 2 ^ 4 ≠ 0 then 1 else if a % 8 = 7 then 2 else 0)

/-- Whether a command names the state bank (R308). -/
def Cmd.onBank (c : Cmd) : Bool := (c.fn == 3 && !bitAt c.ca.toNat 13 && !bitAt c.ca.toNat 14) || (c.fn == 4 && !bitAt c.ca.toNat 13)

/-! ### Steps of a command -/

/-- Row accesses of a started command; a diag of several chunks takes them chunk by chunk. -/
def Cmd.scUnits (c : Cmd) : Nat :=
  if c.sub ≠ 0 then 0
  else if c.fn = 1 then c.scT * c.scG * (if bitAt c.ca.toNat 39 then 3 else 2)
  else if c.fn = 2 then 1
  else if c.fn = 3 then (if bitAt c.ca.toNat 14 then 1 else 2 * c.scG)
  else if c.fn = 4 then 2 * c.scG
  else 1

/-- The carry slot n of a context. -/
def Ctx.carrySlot (x : Ctx) (n : Nat) : Carry := tget {} x.carry n
def Ctx.setCarry (x : Ctx) (n : Nat) (v : Carry) : Ctx := { x with carry := tput x.carry n v }

/-- The halves of frames that row r of a carry slot holds (R307): h and c of lanes 16r to 16r + 15. -/
def carryIn (v : Carry) (r : Nat) (x : Nat) : Carry :=
  let one (m : Nat) : Nat := ofLanes 32 ((List.range 16).map fun i => lane 32 x (i / 8 * 16 + m * 8 + i % 8))
  let put (old : Row) (new : Nat) : Row := blend (row (onesAt (512 * r) 512)) (row (new <<< (512 * r))) old
  { v with h := put v.h (one 0), c := put v.c (one 1), fade := v.fade &&& ~~~(BitVec.ofNat 32 (onesAt (16 * r) 16)) }
def carryOut (v : Carry) (r : Nat) : Nat :=
  ofLanes 32 ((List.range 32).map fun i =>
    lane 32 (if bitAt i 3 then v.c.toNat else v.h.toNat) (16 * r + i / 16 * 8 + i % 8))

/-- A row of the state bank that was active at issue (R308). -/
def State.scanBank (s : State) (c : Cmd) (w : Nat) : Nat :=
  let k := s.core c.core
  (tget 0 (if c.bank then k.bankB else k.bankA) (w % 4096)).toNat

/-- The end of a chunk's reads (R303): every lane group is evaluated, the carry slots move on, and the output rows stay to
be written. -/
def diagChunk (s : State) (c : Cmd) (m : Nat) (rows : List Nat) : State × List Nat :=
  let g := c.scG
  let one (p : State × List (List Nat)) (i : Nat) : State × List (List Nat) :=
    let x := p.1.ctx c.core c.ctx
    let v := x.carrySlot (c.scK + i)
    let rs := (List.range 32).map fun l =>
      let at' (o : Nat) (t : Nat) : Nat := lane 32 (rows.getD (o + t * g + i) 0) l
      scChunk c.cfg ((List.range m).map (at' 0)) ((List.range m).map (at' (m * g))) (lane 32 v.h.toNat l) (lane 32 v.c.toNat l)
    let v' : Carry := { h := row (ofLanes 32 (rs.map (·.2.1))), c := row (ofLanes 32 (rs.map (·.2.2.1))),
                        fade := v.fade ||| BitVec.ofNat 32 (ofBools (rs.map (·.2.2.2))) }
    (p.1.setCtx c.core c.ctx (x.setCarry (c.scK + i) v'),
     p.2 ++ [(List.range m).map fun t => ofLanes 32 (rs.map fun r => r.1.getD t 0)])
  let p := (List.range g).foldl one (s, [])
  (p.1, (List.range (m * g)).map fun n => (p.2.getD (n % g) []).getD (n / g) 0)

/-- One row access of `scn.diag`: `prog` counts them, `list` holds the rows read, then the rows to write. -/
def diagUnit (s : State) (c : Cmd) : State × Cmd :=
  let a := c.ca.toNat
  let g := c.scG
  let ye := bitAt a 39
  let per := if ye then 3 else 2
  let k := c.prog / (per * c.scL * g)
  let m := min c.scL (c.scT - k * c.scL)
  let o := c.prog - k * (per * c.scL * g)
  let base := k * c.scL * g
  if o < 2 * m * g then
    let w := if o < m * g then a % 2 ^ 13 + base + o else bitsAt a 13 13 + base + (o - m * g)
    let c := { c with prog := c.prog + 1, list := c.list ++ [s.padRow c.core w] }
    if o + 1 = 2 * m * g then
      let p := diagChunk s c m c.list
      (p.1, { c with list := if ye then p.2 else [] })
    else (s, c)
  else
    (s.storeRow c.core (bitsAt a 26 13 + base + (o - 2 * m * g)) rowMask (row (c.list.headD 0)),
     { c with prog := c.prog + 1, list := c.list.drop 1 })

/-- `scn.lin` on the tile as it stands (R314). -/
def linTile (s : State) (c : Cmd) : State :=
  let a := c.ca.toNat
  let gr := s.padRow c.core (bitsAt a 41 13)
  let one (i el : Nat) : Nat :=
    let g := fmtF32.decZ (if bitAt a 40 then lane 32 gr i else a % 2 ^ 32)
    let hi := fmtF32.decZ (hiOf el)
    let gh := g.times hi
    let h2 := (fmtF32.round .arith false 0 gh).bits
    let v := fmtF32.dec h2
    if g.odd || hi.odd || v.odd then hiLo h2 0
    else
      let h2 := if bitsAt h2 23 8 = 0 then h2 / 2 ^ 31 * 2 ^ 31 else h2
      let e := gh.plus (fmtF32.dec h2).neg
      hiLo h2 (fmtLo.round .arith true 0 ((g.times (fmtLo.dec (loOf el))).plus e)).bits
  s.modTile c.core (bitsAt a 32 3) fun t => { t with rows := (List.range (bitsAt a 35 5 + 1)).foldl (fun m i =>
    tset 0 m i (BitVec.ofNat 7168 (ofLanes 56 ((List.range 128).map fun j => one i (lane 56 (tget 0 t.rows i).toNat j))))) t.rows }

/-- One step of the command on the engine. -/
def scanUnit (s : State) (c : Cmd) : State × Cmd :=
  let a := c.ca.toNat
  let c1 := { c with prog := c.prog + 1 }
  let slot := c.scK + c.prog / 2
  let w := a % 2 ^ 13 + c.prog
  let mod (f : Carry → Carry) (n : Nat) : State := s.modCtx c.core c.ctx fun x => x.setCarry n (f (x.carrySlot n))
  if c.fn = 1 then diagUnit s c
  else if c.fn = 2 then
    if (s.core c.core).tileBusy (bitsAt a 32 3) c.key then (s, c) else ((linTile s c).tileSpoilt c 2, c1)
  else if c.fn = 3 then
    if bitAt a 14 then
      ((List.range c.scG).foldl (fun s g => s.modCtx c.core c.ctx fun x => x.setCarry (c.scK + g) {}) s, c1)
    else (mod (fun v => carryIn v (c.prog % 2) (if bitAt a 13 then s.padRow c.core w else s.scanBank c w)) slot, c1)
  else if c.fn = 4 then
    let v := row (carryOut ((s.ctx c.core c.ctx).carrySlot slot) (c.prog % 2))
    (if bitAt a 13 then s.storeRow c.core w rowMask v else s.putBank c.core c.bank w v, c1)
  else
    let x := s.ctx c.core c.ctx
    let v := ofLanes 32 ((List.range 16).map fun n => (x.carrySlot n).fade.toNat)
    let s := if bitAt a 13 then s.storeRow c.core a rowMask (row v) else s
    ((List.range 16).foldl (fun s n => if bitAt a (14 + n) then
      s.modCtx c.core c.ctx fun x => x.setCarry n { x.carrySlot n with fade := 0 } else s) s, c1)

/-- n steps of a command. -/
def scanRun : Nat → State → Cmd → State × Cmd
  | 0, s, c => (s, c)
  | n + 1, s, c => if c.scUnits ≤ c.prog then (s, c) else let p := scanUnit s c; scanRun n p.1 p.2

/-! ### The queue -/

/-- A command starts (R300): contexts in rotating order, the head of each queue. -/
def scanStart (s : State) (k : Nat) : State :=
  let c := s.core k
  if c.scan.isSome then s
  else match rotPick c.scanRot 8 fun j => ((c.ctx j).head 2).isSome with
    | none => s
    | some j =>
      match (c.ctx j).head 2 with
      | none => s
      | some q =>
        let q := { q with started := true, sub := scanBad s q }
        (s.modCtx k j (·.popCmd 2)).modCore k fun c => { c with scan := some q, scanRot := (j + 1) % 8 }

/-- An ill-formed command ends (R310): its record, VAL of the tile of `scn.lin`, ERR, F and HALT. -/
def scanFault (s : State) (c : Cmd) : State :=
  let s := s.errRecord c.core c.ctx (c.record 2 c.sub)
  let n := bitsAt c.ca.toNat 32 3
  let s := if c.fn = 2 ∧ s.tileOwned c n then s.clearVal c.core n else s
  s.opDone c.core c.ctx 2 { n := c.opn, status := c.sub } true true

/-- The command on the engine moves n row accesses on; with none left it completes (R309). -/
def scanAdvance (s : State) (k : Nat) (n : Option Nat) : State :=
  match (s.core k).scan with
  | none => s
  | some c =>
    let p := scanRun (n.getD (c.scUnits - c.prog)) s c
    let done := p.2.scUnits ≤ p.2.prog && n.isNone
    let s := p.1.modCore k fun m => { m with scan := if done then none else some p.2 }
    if !done then s
    else if c.sub ≠ 0 then scanFault s c
    else s.opDone k c.ctx 2 { n := c.opn } false false

/-- The end of the command of a killed context at its next chunk boundary (R320). -/
def scanKill (s : State) (k j : Nat) : State :=
  match (s.core k).scan with
  | none => s
  | some c =>
    if c.ctx ≠ j then s
    else
      let per := (if bitAt c.ca.toNat 39 then 3 else 2) * c.scL * c.scG
      let stop := if c.fn = 1 ∧ c.sub = 0 then min c.scUnits ((c.prog + per - 1) / per * per) else c.prog
      let p := scanRun (stop - c.prog) s c
      p.1.modCore k fun m => { m with scan := none }

/-- `scn.cfg` with CLR: the queued commands of the context end without effect, in order (R319). -/
def State.discard (s : State) (k j e status : Nat) : State :=
  let q := ((s.ctx k j).tl e).queue
  let s := s.modCtx k j fun x => x.setTl e { x.tl e with queue := [] }
  q.foldl (fun s c => s.opDone k j e { n := c.opn, status := status } false false) s

/-- `scn.cfg` at issue (R319): its number, then CLR; LC applies at once, or after the started command with CLR. -/
def scanCfg (s : State) (k j : Nat) (c : Cmd) : State :=
  let a := c.ca.toNat
  let t := ((s.ctx k j).tl 2).issue c
  let n := t.i
  let s := s.modCtx k j fun x => x.setTl 2 { t with queue := t.queue.dropLast }
  let c := { c with opn := n, sub := scanBad s c }
  if c.sub ≠ 0 then scanFault s c
  else
    let s := if bitAt a 3 then s.discard k j 2 0 else s
    let s := s.opDone k j 2 { n := n } false false
    if bitAt a 3 then s.modCtx k j fun x => { x with waits := x.waits ++ [.clear 2 (a % 8)] }
    else s.modCtx k j fun x => { x with chunk := if a % 8 = 0 then x.chunk else a % 8 }

end Sys2Proof.Machine
end

