-- ==== Sys2Proof/Machine/Bindery.lean ====
section
/-! DEFINITION. The bindery: its tables in LPDDR 6, its queues and their order, flips, and its commands (R354 to R378). -/

namespace Sys2Proof.Machine

/-! ### Tables (R355 to R358) -/

def State.sesAt (s : State) (sid : Nat) : Nat := s.base12 rBndSt + 16 * (sid % 2 ^ 20)
def State.ses (s : State) (sid : Nat) : Nat := s.lpRead 0 (s.sesAt sid) 16
def sesSlot (e : Nat) : Nat := e % 2 ^ 16
def sesNf (e : Nat) : Nat := bitsAt e 32 17
/-- Whether a session is live; identifier 0 never is. -/
def State.sesLive (s : State) (sid : Nat) : Bool := sid % 2 ^ 20 != 0 && bitAt (s.ses sid) 16
def sesFz (e : Nat) : Bool := bitAt e 17
def sesPn (e : Nat) : Bool := bitAt e 18
def State.folAt (s : State) (n : Nat) : Nat := s.base12 rBndFt + 8 * n
def State.fol (s : State) (n : Nat) : Nat := s.lpRead 0 (s.folAt n) 8
def State.folRef (s : State) (n : Nat) : Nat := s.fol n % 2 ^ 16
/-- Physical address of a folio. -/
def State.folData (s : State) (n : Nat) : Nat := s.base12 rBndFp + 4096 * n
def State.shAt (s : State) (slot i : Nat) : Nat := s.base12 rBndSl + 4 * s.shelfLen * slot + 4 * i
def State.sh (s : State) (slot i : Nat) : Nat := s.lpRead 0 (s.shAt slot i) 4 % 2 ^ 28
def State.setSh (s : State) (slot i v : Nat) : State := s.lpWrite 0 (s.shAt slot i) 4 v
def State.setSes (s : State) (sid v : Nat) : State := s.lpWrite 0 (s.sesAt sid) 16 v
def State.setFol (s : State) (n v : Nat) : State := s.lpWrite 0 (s.folAt n) 8 v
/-- FREE of `BND_STS` moves. -/
def State.addFree (s : State) (d : Int) : State :=
  let v := s.reg rBndSts
  s.setReg rBndSts (v - v % 2 ^ 28 + wrap 28 ((v % 2 ^ 28 : Nat) + d))
/-- LIVE of `BND_STS`, and how it moves: the sessions and snapshots that are live. -/
def State.liveN (s : State) : Nat := bitsAt (s.reg rBndSts) 28 17
def State.addLive (s : State) (d : Int) : State :=
  s.setReg rBndSts (s.reg rBndSts % 2 ^ 28 + wrap 17 ((s.liveN : Int) + d) * 2 ^ 28)

/-- What reading places (address, bytes) does to the stacks (R180). -/
def State.touches (s : State) (l : List (Nat × Nat)) : State := l.foldl (fun s p => s.lpTouch 0 p.1 p.2) s
/-- The first of the places to read, then of those to write, that is uncorrectable (R373). -/
def State.badAt (s : State) (rd wr : List (Nat × Nat)) : Option Nat :=
  ((rd.find? fun p => s.lpBad 0 p.1 p.2).or (wr.find? fun p => s.lpWBad 0 p.1 p.2)).map (·.1)

/-- A free folio, the search starting anywhere; an entry in uncorrectable data is passed over. -/
def State.popFree (s : State) : Option Nat :=
  let n := s.nfol
  let from_ := s.free 860000
  if n < 2 then none
  else (List.range (n - 1)).map (fun i => (from_ + i) % (n - 1) + 1) |>.find? fun i =>
    !s.lpBad 0 (s.folAt i) 8 && bitAt (s.fol i) 16
/-- One reference less, and one more; of the zero folio none are kept. -/
def State.deref (s : State) (n : Nat) : State := if n = 0 then s else s.setFol n (s.folRef n - 1)
def State.addRef (s : State) (n : Nat) : State := if n = 0 then s else s.setFol n (s.folRef n + 1)
/-- A folio whose count is 0 is freed, its link open (R356). -/
def State.freeIf (s : State) (n : Nat) : State :=
  if n = 0 ∨ s.folRef n ≠ 0 ∨ bitAt (s.fol n) 16 then s
  else (s.setFol n (2 ^ 16 + s.free (861000 + n) % 2 ^ 28 * 2 ^ 32)).addFree 1
def State.unref (s : State) (n : Nat) : State := (s.deref n).freeIf n
/-- The folio-table entry of a folio, if it has one that a command needs. -/
def State.folPl (s : State) (n : Nat) : List (Nat × Nat) := if n = 0 then [] else [(s.folAt n, 8)]

/-- Whether the slices and channels behind the session and folio tables are ready (R459). -/
def State.tablesReady (s : State) : Bool :=
  let ok (b n : Nat) : Bool := (List.range (n / 64 + 1)).all fun i => s.sliceReady (s.sliceOf 0 (b + 64 * i)) && s.chanReady (b + 64 * i)
  ok (s.base12 rBndSt) (2 ^ 24) && ok (s.base12 rBndFt) (8 * s.nfol)
/-- Initialisation ends (R355): every folio but 0 free, every session entry cleared, every shelf slot free. -/
def bndInit (s : State) : State :=
  let n := s.nfol
  let st := s.base12 rBndSt
  let ft := s.base12 rBndFt
  let inTab (a : Nat) : Bool := (decide (st ≤ a) && decide (a < st + 2 ^ 24)) || (decide (ft ≤ a) && decide (a < ft + 8 * n))
  let on (e : Nat × StackLine) : Bool := let a := 256 * keyLine e.1; !e.2.poison && (inTab a || inTab (a + 255))
  let s := (s.stack.filter on).foldl (fun s e => { s.wbLine e.1 e.2 with stack := tdel s.stack e.1 }) s
  let s := { s with dram := s.dram.filter fun c => !inTab c.1 }
  let s := (List.range n).foldl (fun s i =>
    if i = 0 then s else { s with dram := s.dram.writeN (ft + 8 * i) (2 ^ 16 + s.free (862000 + i) % 2 ^ 28 * 2 ^ 32) 8 }) s
  (({ s with shelfUsed := [] }.setReg rBndSts (n - 1)).setReg rBndCtl 3)

/-! ### Fields (Table 15-3) -/

def Cmd.bCls (c : Cmd) : Nat := c.cb.toNat % 4
def Cmd.bSid (c : Cmd) : Nat := c.ca.toNat % 2 ^ 20
def Cmd.bFi (c : Cmd) : Nat := bitsAt c.ca.toNat 20 16
def Cmd.bNfo (c : Cmd) : Nat := bitsAt c.ca.toNat 36 7 + 1
def Cmd.bBf (c : Cmd) : Nat := bitsAt c.ca.toNat 43 7
def Cmd.bAb (c : Cmd) : Bool := (c.fn == 1 || c.fn == 2) && bitAt c.cb.toNat 2
def Cmd.bFl (c : Cmd) : Bool := c.fn == 1 && bitAt c.cb.toNat 3
def Cmd.bDa (c : Cmd) : Bool := if c.fn = 3 then bitAt c.cb.toNat 2 else bitAt c.cb.toNat 4
def Cmd.bSidIn (c : Cmd) : Nat := bitsAt c.cb.toNat 3 20
def Cmd.bFiIn (c : Cmd) : Nat := bitsAt c.cb.toNat 23 16
def Cmd.bTsid (c : Cmd) : Nat := bitsAt c.cb.toNat 2 20
def Cmd.bNew (c : Cmd) : Bool := c.fn == 5 && bitAt c.cb.toNat 22
def Cmd.bSrow (c : Cmd) : Nat := c.ca.toNat % 2 ^ 12
def Cmd.bCrow (c : Cmd) : Nat := bitsAt c.ca.toNat 12 12
def Cmd.bN (c : Cmd) : Nat := bitsAt c.ca.toNat 24 12 + 1
def Cmd.bK (c : Cmd) : Nat := bitsAt c.ca.toNat 36 4

/-- The sessions and the bank a command names (R360). -/
def Cmd.sids (c : Cmd) : List Nat :=
  if c.fn = 1 ∨ c.fn = 2 ∨ c.fn = 7 ∨ c.fn = 8 then [c.bSid]
  else if c.fn = 3 then [c.bSid, c.bSidIn]
  else if c.fn = 4 ∨ c.fn = 6 then [c.bSid, c.bTsid]
  else if c.fn = 5 then (if c.bNew then [c.bTsid] else [c.bSid, c.bTsid]) else []
def Cmd.bBank (c : Cmd) : Option Bool :=
  if c.fn = 1 ∨ c.fn = 2 then some (if c.bAb then c.bank else !c.bank)
  else if c.fn = 3 then some !c.bank
  else if c.fn = 9 ∨ c.fn = 10 then some c.bank else none
/-- Acceptance order: cycle, contexts before rotation queues, core, context (R360); within one queue the order in which it was
filled. -/
def Cmd.before (a b : Cmd) : Bool :=
  if a.at_ ≠ b.at_ then decide (a.at_ < b.at_)
  else if a.rot ≠ b.rot then !a.rot
  else if a.core ≠ b.core then decide (a.core < b.core)
  else if !a.rot ∧ a.ctx ≠ b.ctx then decide (a.ctx < b.ctx) else decide (a.key < b.key)
def Cmd.ordered (a b : Cmd) : Bool :=
  a.sids.any (fun x => b.sids.contains x) || (a.bBank.isSome && a.bBank == b.bBank && a.core == b.core)

/-- A status joins what the command already has (lower codes rank higher, 0 lowest). -/
def bndWorse (a b : Nat) : Nat := if a = 0 then b else if b = 0 then a else min a b

/-! ### Checks (R373, R374) -/

/-- The checkpoint a `fr.res` uses. -/
def State.ckSlot (s : State) (c : Cmd) : Option (Bool × Nat × Nat × Nat) := tget none (s.ctx c.core c.ctx).cks c.bK

/-- SUB of an ill-formed command, lowest first; 0 for a well-formed one. -/
def bndBad (s : State) (c : Cmd) : Nat :=
  let a := c.ca.toNat
  let b := c.cb.toNat
  let f := c.fn
  let aw := if f = 1 ∨ f = 2 ∨ f = 3 then onesAt 0 50 else if f = 9 then onesAt 0 40 else if f = 10 then onesAt 36 4
    else if c.bNew then onesAt 0 17 else onesAt 0 20
  let bw := if f = 1 then 0xF else if f = 2 then 0x17 else if f = 3 then onesAt 0 39 else if f = 4 ∨ f = 6 then onesAt 0 22
    else if f = 5 then onesAt 0 23 else if f = 8 then 7 else 3
  let far (sid fi : Nat) : Bool := s.sesLive sid && !s.lpBad 0 (s.sesAt sid) 16 && decide (sesNf (s.ses sid) < fi + c.bNfo)
  if a &&& (2 ^ 64 - 1 - aw) ≠ 0 ∨ b &&& (2 ^ 64 - 1 - bw) ≠ 0 then 1
  else if c.bCls = 1 then 2
  else if (f ≤ 3 ∧ 128 < c.bBf + c.bNfo) ∨ (f = 9 ∧ (4096 < c.bSrow + c.bN ∨ 4096 < c.bCrow + c.bN ∨
    (c.bSrow < c.bCrow + c.bN ∧ c.bCrow < c.bSrow + c.bN))) then 3
  else if (f ≤ 3 ∧ far c.bSid c.bFi) ∨ (f = 3 ∧ far c.bSidIn c.bFiIn) then 4
  else if c.bNew ∧ (a = 0 ∨ s.shelfLen < a) then 5
  else if f = 1 ∧ c.bAb ∧ c.bFl then 6
  else if (f = 4 ∨ (f = 5 ∧ !c.bNew) ∨ f = 6) ∧ c.bSid = c.bTsid then 7
  else 0

/-- The session entries of a command that cannot be read. -/
def bndUnread (s : State) (c : Cmd) : Option Nat := s.badAt (c.sids.map fun x => (s.sesAt x, 16)) []
/-- The status that holds when the command starts (Table 15-4); where an entry cannot be read, what it would have said is not
checked. -/
def bndStatus (s : State) (c : Cmd) : Nat :=
  let f := c.fn
  let known (x : Nat) : Bool := !s.lpBad 0 (s.sesAt x) 16
  let live (x : Nat) : Bool := s.sesLive x && known x
  let gone (x : Nat) : Bool := !s.sesLive x && known x
  let e := if known c.bSid then s.ses c.bSid else 0
  let p := s.ses c.bTsid
  let dead := if f = 1 ∨ f = 2 ∨ f = 7 ∨ f = 8 then gone c.bSid
    else if f = 3 then gone c.bSid || gone c.bSidIn
    else if f = 6 then gone c.bSid || gone c.bTsid
    else if f = 4 ∨ f = 5 then (!c.bNew && gone c.bSid) || c.bTsid == 0 else false
  if dead then 2
  else if (f = 4 ∨ f = 5) ∧ live c.bTsid then 3
  else if ((f = 2 ∨ f = 3 ∨ f = 6) ∧ sesFz e) ∨ (f = 6 ∧ known c.bTsid ∧ !sesFz p) then 4
  else if (f = 6 ∨ f = 7) ∧ sesPn e then 5
  else if (f = 4 ∨ f = 5) ∧ 65536 ≤ s.liveN then 6
  else if (bndUnread s c).isSome then 9
  else if f = 10 then (match s.ckSlot c with | some p => if p.1 = c.bank then 0 else 10 | none => 10)
  else 0

/-! ### Steps of a command -/

/-- The rows stored to while the command was pending, before it reached them. -/
def State.bankBad (s : State) (c : Cmd) (w : Nat) : Bool :=
  (s.ctx c.core c.ctx).bankCmds.any fun b => b.opn == c.opn && b.bad.contains w && !c.rot
/-- Rows, or frames, of the active bank that a command has done with. -/
def State.bankHit (s : State) (c : Cmd) (l : List Nat) : State :=
  if c.rot then s
  else s.modCtx c.core c.ctx fun x =>
    { x with bankCmds := x.bankCmds.map fun b => if b.opn = c.opn then { b with hit := l ++ b.hit } else b }

/-- Uncorrectable data at a place, met at a folio index: the first one stands in the record (R364, R375). -/
def Cmd.data (c : Cmd) (i pa : Nat) : Cmd :=
  { c with status := bndWorse c.status 9, idx := if c.status = 0 then i else c.idx, addr := if c.status = 0 then pa else c.addr }

/-- Entry i of a session's shelf list, and its place.  A session that another bindery has released meanwhile has no list: what is
read of it is the zero folio, and nothing is written to it (R361; log entry 114, DEDUCED). -/
def State.ent (s : State) (sid i : Nat) : Nat := if s.sesLive sid then s.sh (sesSlot (s.ses sid)) i else 0
def State.entPl (s : State) (sid i : Nat) : List (Nat × Nat) := if s.sesLive sid then [(s.shAt (sesSlot (s.ses sid)) i, 4)] else []

/-- The fill of one folio: index i of session sid into bank folio bf (R364). -/
def fillFolio (s : State) (c : Cmd) (b : Bool) (sid i bf : Nat) : State × Cmd :=
  let ent := s.entPl sid i
  let s := s.touches ((s.sesAt sid, 16) :: ent)
  let fn := s.ent sid i
  let units := if fn = 0 then [] else (List.range 64).map fun u => (s.folData fn + 64 * u, 64)
  match (s.badAt ent []).or (s.badAt units []) with
  | some pa => (s, c.data i pa)
  | none =>
    let s := if fn = 0 then s else s.lpTouch 0 (s.folData fn) 4096
    (((List.range 32).foldl (fun s r =>
      let w := 32 * bf + r
      let v := if s.bankBad c w then s.free (863000 + w) else if fn = 0 then 0 else s.lpRead 0 (s.folData fn + 128 * r) 128
      s.modCore c.core fun m => ((m.setBank b w (row v)).setDirty b (2 * w) false).setDirty b (2 * w + 1) false) s).bankHit c
        ((List.range 32).map fun r => 32 * bf + r),
     { c with dlv := c.dlv + 1 })

/-- A frame of a bank. -/
def State.frameOf (s : State) (c : Cmd) (b : Bool) (f : Nat) : Nat :=
  if s.bankBad c (f / 2) then s.free (867000 + f) % 2 ^ 512
  else bitsAt (tget 0 ((s.core c.core).bank b) (f / 2)).toNat (512 * (f % 2)) 512

/-- The owner tag of a folio a command writes. -/
def Cmd.owner (c : Cmd) : Nat × Nat := if c.rot then noOwner else (c.core, c.ctx)
/-- The write-out of one folio (R365); a command that stops says so in `drop`.  Where it meets uncorrectable data the folio
index is left as it is. -/
def outFolio (s : State) (c : Cmd) (b : Bool) (i bf : Nat) : State × Cmd :=
  let k := s.core c.core
  let w := (List.range 64).filter fun f => c.bDa || k.dirty b (64 * bf + f)
  if w = [] then (s, { c with dlv := c.dlv + 1 })
  else if !s.sesLive c.bSid then (s, { c with drop := 1 })
  else
    let slot := sesSlot (s.ses c.bSid)
    let a := s.shAt slot i
    let s := s.touches [(s.sesAt c.bSid, 16), (a, 4)]
    let fn := s.sh slot i
    let at_ (n : Nat) (l : List Nat) : List (Nat × Nat) := l.map fun f => (s.folData n + 64 * f, 64)
    let put (s : State) (n : Nat) : State :=
      w.foldl (fun s f => s.lpWrite 0 (s.folData n + 64 * f) 64 (s.frameOf c b (64 * bf + f)) c.owner) s
    let clean (s : State) : State :=
      (s.modCore c.core fun m => w.foldl (fun m f => m.setDirty b (64 * bf + f) false) m).bankHit c (w.map fun f => 8192 + 64 * bf + f)
    match (s.badAt [(a, 4)] []).or (s.badAt (s.folPl fn) []) with
    | some pa => (s, c.data i pa)
    | none =>
      let s := s.touches (s.folPl fn)
      if fn ≠ 0 ∧ s.folRef fn = 1 then
        match s.badAt [] (at_ fn w) with
        | some pa => (s, c.data i pa)
        | none => (clean (put s fn), { c with dlv := c.dlv + 1 })
      else match s.popFree with
        | none => (s, { c with status := bndWorse c.status 8, idx := i, drop := 1 })
        | some nn =>
          let rest := (List.range 64).filter fun f => !w.contains f
          match s.badAt (if fn = 0 then [] else at_ fn rest) ((a, 4) :: s.folPl nn ++ s.folPl fn ++ at_ nn (w ++ rest)) with
          | some pa => (s, c.data i pa)
          | none =>
            let s := s.touches (if fn = 0 then [] else at_ fn rest)
            let s := (s.setFol nn 1).addFree (-1)
            let s := put s nn
            let s := rest.foldl (fun s f => s.lpWrite 0 (s.folData nn + 64 * f) 64
              (if fn = 0 then 0 else s.lpRead 0 (s.folData fn + 64 * f) 64) c.owner) s
            (clean ((s.setSh slot i nn).unref fn), { c with dlv := c.dlv + 1 })

/-- A free shelf slot. -/
def State.freeShelf (s : State) : Option Nat :=
  let from_ := s.free 864000
  (List.range 65536).map (fun i => (from_ + i) % 65536) |>.find? fun i => !s.shelfUsed.contains i

/-- How many shelf entries a table command goes through. -/
def bndSpan (s : State) (c : Cmd) : Nat :=
  let nf (x : Nat) : Nat := sesNf (s.ses x)
  if c.bNew then c.ca.toNat % 2 ^ 17
  else if c.fn = 6 then max (nf c.bSid) (nf c.bTsid)
  else if c.fn = 4 ∨ c.fn = 5 ∨ c.fn = 7 then nf c.bSid else 0

/-- A new session that cannot be completed: the references it took and its shelf slot are given back (R367; log entry 93, DESIGN
CHOICE). -/
def forkBack (s : State) (c : Cmd) : State :=
  match c.list with
  | slot :: l => { l.foldl (fun s n => s.unref n) s with shelfUsed := s.shelfUsed.erase slot }
  | [] => s
/-- `fr.snap` and `fr.fork` (R367): a shelf slot, its entries one by one with their counts (R361), then the session entry. -/
def bndFork (s : State) (c : Cmd) : State × Cmd :=
  let n := c.prog
  let back (s : State) (c : Cmd) : State × Cmd := (forkBack s c, { c with drop := 1, list := [] })
  if n = 0 then
    match s.freeShelf with
    | none => (s, { c with status := 6, drop := 1 })
    | some slot => ({ s with shelfUsed := s.shelfUsed ++ [slot] }, { c with list := [slot] })
  else
    let slot := c.list.headD 0
    let s := if c.bNew then s else s.lpTouch 0 (s.sesAt c.bSid) 16
    if n ≤ c.decl then
      let src := if c.bNew then [] else s.entPl c.bSid (n - 1)
      match s.badAt src [(s.shAt slot (n - 1), 4)] with
      | some pa => back s (c.data (n - 1) pa)
      | none =>
        let s := s.touches src
        let f := if c.bNew then 0 else s.ent c.bSid (n - 1)
        match s.badAt (s.folPl f) (s.folPl f) with
        | some pa => back s (c.data (n - 1) pa)
        | none =>
          if f ≠ 0 ∧ 65535 ≤ s.folRef f then back s { c with status := 7, idx := n - 1 }
          else ((s.addRef f).setSh slot (n - 1) f, { c with list := c.list ++ [f] })
    else if s.sesLive c.bTsid then back s { c with status := 3 }
    else match s.badAt [] [(s.sesAt c.bTsid, 16)] with
      | some pa => back s (c.data 0 pa)
      | none =>
        let s := s.setSes c.bTsid (slot + 2 ^ 16 + b2n (c.fn == 4) * 2 ^ 17 + c.decl * 2 ^ 32 + (if c.bNew then 0 else c.bSid) * 2 ^ 64)
        (s.addLive 1, { c with dlv := c.decl })

/-- NF of a session. -/
def State.setNf (s : State) (sid n : Nat) : State := let e := s.ses sid; s.setSes sid (e - sesNf e * 2 ^ 32 + n * 2 ^ 32)
/-- The end of a rollback, whose command keeps the NF it found and the folios it replaced: those without a name are freed (R356,
R368). -/
def rollFree (s : State) (c : Cmd) : State := (c.list.drop 1).foldl (fun s n => s.freeIf n) s
/-- A rollback that cannot be completed: the entries it wrote are given back, and NF (R368; log entry 93, DESIGN CHOICE). -/
def rollBack (s : State) (c : Cmd) : State :=
  let slot := sesSlot (s.ses c.bSid)
  let s := (c.list.drop 1).zipIdx.foldl (fun s p =>
    let cur := s.sh slot p.2
    if cur = p.1 then s else ((s.addRef p.1).setSh slot p.2 p.1).unref cur) s
  match c.list with
  | n :: _ => if sesNf (s.ses c.bSid) = n then s else s.setNf c.bSid n
  | [] => s
/-- `fr.roll` (R368): entry by entry with its counts (R361), then NF; a folio without a name is freed at the end.  An entry beyond the
session's list joins it with the step that writes it, so that wherever the command is stopped the counts are those of the lists
(R377). -/
def bndRoll (s : State) (c : Cmd) : State × Cmd :=
  let i := c.prog
  let s := s.touches [(s.sesAt c.bSid, 16), (s.sesAt c.bTsid, 16)]
  let e := s.ses c.bSid
  let p := s.ses c.bTsid
  let c := if i = 0 then { c with list := [sesNf e] } else c
  let back (s : State) (c : Cmd) : State × Cmd := (rollBack s c, { c with drop := 1, list := [] })
  let own := decide (i < sesNf e)
  let sa := (s.sesAt c.bSid, 16)
  let ea := (s.shAt (sesSlot e) i, 4)
  let pa := (s.shAt (sesSlot p) i, 4)
  if !s.sesLive c.bSid ∨ !s.sesLive c.bTsid then (rollFree s c, { c with drop := 1, list := [] })
  else if i < c.decl then
    let rd := (if own then [ea] else []) ++ (if i < sesNf p then [pa] else [])
    match s.badAt rd [] with
    | some x => back s (c.data i x)
    | none =>
      let s := s.touches rd
      let o := if own then s.sh (sesSlot e) i else 0
      let n := if i < sesNf p then s.sh (sesSlot p) i else 0
      if own ∧ o = n then (s, { c with list := c.list ++ [o] })
      else match s.badAt (s.folPl o ++ s.folPl n) (ea :: (if own then [] else [sa]) ++ s.folPl o ++ s.folPl n) with
        | some x => back s (c.data i x)
        | none =>
          if n ≠ 0 ∧ 65535 ≤ s.folRef n then back s { c with status := 7, idx := i }
          else
            let s := ((s.addRef n).setSh (sesSlot e) i n).deref o
            (if own then s else s.setNf c.bSid (i + 1), { c with list := c.list ++ [o] })
  else match s.badAt [] [sa] with
    | some x => back s (c.data i x)
    | none => (rollFree (s.setNf c.bSid (sesNf p)) c, { c with dlv := c.decl, list := [] })

/-- Entries of a session's list that still name folios are released (R361). -/
def relRest (s : State) (slot n : Nat) : State :=
  (List.range n).foldl (fun s i =>
    let f := s.sh slot i
    if f = 0 ∨ (s.badAt [] ((s.shAt slot i, 4) :: s.folPl f)).isSome then s else (s.setSh slot i 0).unref f) s
/-- `fr.rel` (R369): entry by entry with its count (R361), then the session with what another bindery's commands have put into its list
meanwhile; where it meets uncorrectable data it stops and the session stays, with the entries already released naming the zero
folio (log entry 93, DESIGN CHOICE). -/
def bndRel (s : State) (c : Cmd) : State × Cmd :=
  let i := c.prog
  let s := s.touches [(s.sesAt c.bSid, 16)]
  let e := s.ses c.bSid
  let a := (s.shAt (sesSlot e) i, 4)
  let stop (s : State) (pa : Nat) : State × Cmd := (s, { c.data i pa with drop := 1 })
  if !s.sesLive c.bSid then (s, { c with drop := 1 })
  else if i < c.decl then
    match s.badAt [a] [a] with
    | some pa => stop s pa
    | none =>
      let s := s.touches [a]
      let f := s.sh (sesSlot e) i
      match s.badAt (s.folPl f) (s.folPl f) with
      | some pa => stop s pa
      | none => ((s.setSh (sesSlot e) i 0).unref f, { c with dlv := c.dlv + 1 })
  else match s.badAt [] [(s.sesAt c.bSid, 16)] with
    | some pa => stop s pa
    | none =>
      let s := relRest s (sesSlot e) (sesNf e)
      ({ (s.setSes c.bSid 0).addLive (-1) with shelfUsed := s.shelfUsed.erase (sesSlot e) }, c)

/-- `fr.pin` (R370). -/
def bndPin (s : State) (c : Cmd) : State × Cmd :=
  let s := s.touches [(s.sesAt c.bSid, 16)]
  let e := s.ses c.bSid
  (s.setSes c.bSid (e - bitsAt e 18 1 * 2 ^ 18 + bitsAt c.cb.toNat 2 1 * 2 ^ 18), c)

/-- The copy a `fr.chk` or `fr.res` makes: source row, destination row, rows. -/
def chkRows (s : State) (c : Cmd) : Nat × Nat × Nat :=
  if c.fn = 9 then (c.bSrow, c.bCrow, c.bN)
  else match s.ckSlot c with
    | some p => (p.2.2.1, p.2.1, p.2.2.2)
    | none => (0, 0, 0)
def chkRow (s : State) (c : Cmd) : State × Cmd :=
  let r := chkRows s c
  let w := r.1 + c.prog
  let d := r.2.1 + c.prog
  let bad := s.bankBad c w || s.bankBad c d
  let v := if bad then row (s.free (865000 + d)) else tget 0 ((s.core c.core).bank c.bank) w
  let s := if bad then s.putBank c.core c.bank w (row (s.free (868000 + w))) else s
  ((s.putBank c.core c.bank d v).bankHit c [w, d], c)

/-- Steps of a started command: folios, rows, shelf entries with what goes before and after them, or one; none once it has
stopped (`drop`), and no fill after a write-out that ended otherwise than OK (`decl`, R366). -/
def bndUnits (s : State) (c : Cmd) : Nat :=
  if c.drop ≠ 0 then 0
  else if c.fn = 1 ∨ c.fn = 2 then c.bNfo
  else if c.fn = 3 then (if c.decl = 1 then c.bNfo else 2 * c.bNfo)
  else if c.fn = 4 ∨ c.fn = 5 then c.decl + 2
  else if c.fn = 6 ∨ c.fn = 7 then c.decl + 1
  else if c.fn = 9 ∨ c.fn = 10 then (chkRows s c).2.2
  else 1

/-- One step. -/
def bndUnit (s : State) (c : Cmd) : State × Cmd :=
  let n := c.prog
  let r : State × Cmd :=
    if c.fn = 1 then fillFolio s c (if c.bAb then c.bank else !c.bank) c.bSid (c.bFi + n) (c.bBf + n)
    else if c.fn = 2 then outFolio s c (if c.bAb then c.bank else !c.bank) (c.bFi + n) (c.bBf + n)
    else if c.fn = 3 then
      (if n < c.bNfo then outFolio s c (!c.bank) (c.bFi + n) (c.bBf + n)
       else fillFolio s c (!c.bank) c.bSidIn (c.bFiIn + (n - c.bNfo)) (c.bBf + (n - c.bNfo)))
    else if c.fn = 4 ∨ c.fn = 5 then bndFork s c
    else if c.fn = 6 then bndRoll s c
    else if c.fn = 7 then bndRel s c
    else if c.fn = 8 then bndPin s c
    else chkRow s c
  let c' : Cmd := { r.2 with prog := n + 1 }
  (r.1, if c.fn = 3 ∧ n + 1 = c.bNfo ∧ c'.status ≠ 0 then { c' with decl := 1 } else c')

/-- n steps. -/
def bndRun : Nat → State → Cmd → State × Cmd
  | 0, s, c => (s, c)
  | n + 1, s, c => if bndUnits s c ≤ c.prog then (s, c) else let p := bndUnit s c; bndRun n p.1 p.2

/-! ### Flips (R362, R308) -/

/-- Whether a pending command of the context names its active bank: the scan commands of R308, `fr.chk` and `fr.res`. -/
def State.bankHeld (s : State) (k j : Nat) : Bool :=
  let x := s.ctx k j
  let cl := s.cluster (clusterOf k)
  let sc (c : Cmd) : Bool := c.onBank && c.bank == x.act
  let ck (c : Cmd) : Bool := (c.fn == 9 || c.fn == 10) && c.bank == x.act
  (x.tl 2).queue.any sc || (s.core k).scan.any (fun c => c.ctx == j && sc c) ||
  (x.tl 1).queue.any ck || cl.bindRun.any fun c => c.core == k && c.ctx == j && !c.rot && ck c

/-- A pending flip applies to a context. -/
def flipTo (s : State) (k j : Nat) : State :=
  let c := s.core k
  match c.flip with
  | some b =>
    if !c.flipTo.contains j ∨ s.bankHeld k j then s
    else
      let l := c.flipTo.erase j
      (s.modCore k fun c => { c with flipTo := l, flip := if l = [] then none else some b }).modCtx k j fun x => { x with act := b }
  | none => s

/-- Contexts to which a flip applies at once: dormant, suspended, or without a task. -/
def Ctx.flipsNow (x : Ctx) : Bool := x.life != .live
def flipIdle (s : State) (k : Nat) : State :=
  (List.range 8).foldl (fun s j => if (s.ctx k j).flipsNow then flipTo s k j else s) s

/-- A fill that flips has completed. -/
def flipPend (s : State) (k : Nat) (b : Bool) (sid : Nat) : State :=
  flipIdle (s.modCore k fun c => { c with flip := some b, flipTo := List.range 8, sessA := if b then c.sessA else some sid,
                                          sessB := if b then some sid else c.sessB }) k

/-! ### Queues (R359, R360) -/

/-- All commands of a cluster that have not completed. -/
def State.bndAll (s : State) (q : Nat) : List Cmd :=
  let cl := s.cluster q
  cl.bindRun ++ cl.bind ++ (List.range 4).flatMap fun m => (List.range 8).flatMap fun j => ((s.ctx (4 * q + m) j).tl 1).queue

/-- Whether a pending scan command of the core names the bank of a command, which then may not reach it (R308). -/
def State.scanHas (s : State) (c : Cmd) : Bool :=
  let k := s.core c.core
  let on (q : Cmd) : Bool := q.onBank && some q.bank == c.bBank
  k.scan.any on || (List.range 8).any fun j => ((k.ctx j).tl 2).queue.any on

/-- Whether a command may start now. -/
def bndReady (s : State) (q : Nat) (c : Cmd) : Bool :=
  let k := s.core c.core
  let b := c.bBank
  bitAt (s.reg rBndCtl) 1 && bitAt (s.reg rBndCtl) 0 && decide (c.at_ < s.now) &&
  !((s.bndAll q).any fun d => d.key != c.key && d.before c && d.ordered c) &&
  (c.fn == 9 || c.fn == 10 || c.bAb || match b with
    | some b => !((List.range 8).any fun j => (k.ctx j).act == b)
    | none => true) &&
  !((c.fn == 1 || c.fn == 3) && k.flip.isSome && k.flip == b) && !s.scanHas c

/-- The n-th queue of a cluster: 9 to a core, the ninth its rotation queue; the restores of the commit engine wait in no queue of
theirs (R412), and one that may start comes before it. -/
def bndQueue (s : State) (q n : Nat) : Option Cmd :=
  let k := 4 * q + n / 9
  let free_ (c : Cmd) : Bool := let t := tget {} s.circTl c.cfg; !(t.halt && decide (t.haltN < c.opn))
  let own := (s.cluster q).bind.filter fun c => c.core == k
  if n % 9 = 8 then (own.find? fun c => c.opn == 0 && bndReady s q c).or ((own.find? fun c => c.opn != 0).filter free_)
  else (s.ctx k (n % 9)).head 1

/-- A bindery starts a command. -/
def bndStart (s : State) (q : Nat) : State :=
  let cl := s.cluster q
  if 4 ≤ cl.bindRun.length then s
  else
    let ok (n : Nat) : Option Cmd := (bndQueue s q n).filter fun c => bndReady s q c
    match (rotPick cl.bindRot 36 fun n => (ok n).any fun c => c.bCls == 0).or (rotPick cl.bindRot 36 fun n => (ok n).isSome) with
    | none => s
    | some n =>
      match ok n with
      | none => s
      | some c =>
        let sub := bndBad s c
        let st := if sub ≠ 0 then 1 else bndStatus s c
        let c := { c with started := true, sub := sub, status := st, drop := b2n (st != 0), decl := bndSpan s c,
                          addr := if st = 9 then (bndUnread s c).getD 0 else 0 }
        let s := if sub ≠ 0 then s else s.touches (c.sids.map fun x => (s.sesAt x, 16))
        let s := if n % 9 = 8 then s else s.modCtx c.core c.ctx (·.popCmd 1)
        let cl := s.cluster q
        s.setCluster q { cl with bind := cl.bind.filter fun d => d.key != c.key, bindRun := cl.bindRun ++ [c],
                                 bindRot := (n + 1) % 36 }

/-- The record of R375. -/
def bndRecord (c : Cmd) : Nat :=
  c.record 1 c.status + c.sub * 2 ^ 112 + c.dlv % 2 ^ 16 * 2 ^ 256 + c.idx % 2 ^ 32 * 2 ^ 288 +
  (if c.status = 9 then c.addr else 0) * 2 ^ 320

/-- A command ends: what it records, the flip it makes pending, the flips it held back (R308, R362), and its completion on the
timeline of its context or, out of a rotation queue, of its circulation core (R359). -/
def bndEnd (s : State) (c : Cmd) : State :=
  let st := c.status
  let s := if c.fn = 9 ∧ st = 0 then
      s.modCtx c.core c.ctx fun x => { x with cks := tput x.cks c.bK (some (c.bank, c.bSrow, c.bCrow, c.bN)) }
    else if st = 0 ∧ c.bFl then flipPend s c.core (!c.bank) c.bSid
    else if st = 0 ∧ c.fn = 3 then flipPend s c.core (!c.bank) c.bSidIn else s
  let s := flipIdle s c.core
  let r : OpRec := { n := c.opn, status := st, sub := c.sub, dlv := c.dlv }
  if c.rot then
    (if c.opn = 0 then s
     else { s with circTl := tput s.circTl c.cfg ((tget {} s.circTl c.cfg).complete r (st != 0 && st != 11) (st == 1)) })
  else
    let s := s.modCtx c.core c.ctx fun x => { x with bankCmds := x.bankCmds.map fun b => if b.opn = c.opn then { b with done := true } else b }
    if st = 0 ∨ st = 11 then s.opDone c.core c.ctx 1 r false false
    else (s.errRecord c.core c.ctx (bndRecord c)).opDone c.core c.ctx 1 r true (st == 1)

/-- The i-th running command of a cluster moves n steps on; with none left it completes.  A restore of the commit engine
reports back through `drop` of its command (R409). -/
def bndAdvance (s : State) (q i : Nat) (n : Option Nat) : State × Option Cmd :=
  match (s.cluster q).bindRun[i]? with
  | none => (s, none)
  | some c => if s.scanHas c then (s, none) else
    let p := bndRun (n.getD (bndUnits s c - c.prog)) s c
    let done := bndUnits p.1 p.2 ≤ p.2.prog && n.isNone
    let cl := p.1.cluster q
    if done then (bndEnd (p.1.setCluster q { cl with bindRun := dropAt cl.bindRun i }) p.2, some p.2)
    else (p.1.setCluster q { cl with bindRun := setAt cl.bindRun i p.2 }, none)

/-- The commands of a killed context (R377): a started one has finished the folio or entry it was at and stops there, what it
leaves in the tables being consistent. -/
def bndKill (s : State) (k j : Nat) : State :=
  let q := clusterOf k
  let s := s.modCtx k j fun x => x.setTl 1 { x.tl 1 with queue := [] }
  let cl := s.cluster q
  let mine (c : Cmd) : Bool := c.core == k && c.ctx == j && !c.rot
  let s := s.setCluster q { cl with bindRun := cl.bindRun.filter fun c => !mine c }
  (cl.bindRun.filter mine).foldl (fun s c =>
    if c.fn = 4 ∨ c.fn = 5 then (if c.prog = c.decl + 2 then s else forkBack s c) else if c.fn = 6 then rollFree s c else s) s

/-- Pending `fr.chk` of a context for a checkpoint slot. -/
def State.chkPend (s : State) (k j n : Nat) : List Cmd :=
  (((s.cluster (clusterOf k)).bindRun.filter fun c => c.core == k && c.ctx == j && !c.rot) ++ ((s.ctx k j).tl 1).queue).filter fun c =>
    c.fn == 9 && c.bK == n
/-- Rows of the active bank that a command names (R364, R365, R371); of `fr.res`, those its slot names now or may name by the
time it starts. -/
def bankRows (s : State) (c : Cmd) : List (Nat × Nat) :=
  if (c.fn = 1 ∨ c.fn = 2) ∧ c.bAb then [(32 * c.bBf, 32 * c.bNfo)]
  else if c.fn = 9 then [(c.bSrow, c.bN), (c.bCrow, c.bN)]
  else if c.fn = 10 then (match s.ckSlot c with | some p => [(p.2.1, p.2.2.2), (p.2.2.1, p.2.2.2)] | none => []) ++
    (s.chkPend c.core c.ctx c.bK).flatMap fun d => [(d.bSrow, d.bN), (d.bCrow, d.bN)]
  else []

/-- A command issues (R321). -/
def bndIssue (s : State) (k j : Nat) (c : Cmd) : State :=
  s.modCtx k j fun x =>
    let t := (x.tl 1).issue c
    let rs := bankRows s c
    { (x.setTl 1 t) with bankCmds := if rs = [] then x.bankCmds else
        x.bankCmds ++ [{ fn := c.fn, opn := t.i, bank := c.bank, rows := rs }] }

/-- Whether a row lies in the rows of a command, and its counterparts in a copy (R371). -/
def BankCmd.names (m : BankCmd) (w : Nat) : Bool := m.rows.any fun r => decide (r.1 ≤ w) && decide (w < r.1 + r.2)
def BankCmd.others (m : BankCmd) (w : Nat) : List Nat :=
  if m.fn < 9 then []
  else m.rows.zipIdx.filterMap fun p =>
    if decide (p.1.1 ≤ w) && decide (w < p.1.1 + p.1.2) then
      (m.rows[if p.2 % 2 = 0 then p.2 + 1 else p.2 - 1]?).map fun r => r.1 + (w - p.1.1)
    else none

/-- The frames of a row that a pending write-out with AB = 1 has already written become unpredictable where they were written
(R365). -/
def outAgain (s : State) (k j : Nat) (m : BankCmd) (w : Nat) : State :=
  match (s.cluster (clusterOf k)).bindRun.find? fun c => c.core == k && c.ctx == j && c.opn == m.opn && !c.rot with
  | none => s
  | some c =>
    let fn := s.ent c.bSid (c.bFi + (w / 32 - c.bBf))
    if fn = 0 then s
    else ([2 * w, 2 * w + 1].filter fun f => m.hit.contains (8192 + f)).foldl (fun s f =>
      s.lpWrite 0 (s.folData fn + 64 * (f % 64)) 64 (s.free (869000 + f)) c.owner) s

/-- A row store by a context into its active bank: it stores what it says.  Where a command on the row is not yet covered by a
wait, the row is unpredictable if the command has reached it, and becomes so when it does (R364, R365, R371). -/
def storeBank (s : State) (k j w : Nat) (v : Row) : State :=
  let b := (s.ctx k j).act
  let on (j' : Nat) (m : BankCmd) : Bool := m.bank == b && (m.fn == 1 || j' == j) && m.names w && !(m.fn == 2 && m.done)
  let of (j' : Nat) : List BankCmd := (s.ctx k j').bankCmds.filter (on j')
  let all := (List.range 8).flatMap of
  let open_ := all.any fun m => m.fn != 2 && m.hit.contains w
  let more := all.flatMap fun m => (m.others w).filter fun d => m.hit.contains d
  let mark (m : BankCmd) : BankCmd := if m.done ∨ m.hit.contains w then m else { m with bad := w :: m.bad }
  let s := ((of j).filter fun m => m.fn == 2).foldl (fun s m => outAgain s k j m w) s
  let s := (List.range 8).foldl (fun s j' => if of j' = [] then s else
    s.modCtx k j' fun x => { x with bankCmds := x.bankCmds.map fun m => if on j' m then mark m else m }) s
  let s := more.foldl (fun s d => s.putBank k b d (row (s.free (866000 + d)))) s
  s.putBank k b w (if open_ then row (s.free (866000 + w)) else v)

/-- `fr.stat` mode 11 (R372): as `cpy.clr` on `tl.bind`. -/
def bndClear (s : State) (k j : Nat) : State :=
  (s.discard k j 1 11).modCtx k j fun x => { x with waits := x.waits ++ [.clear 1 0] }

/-- The reply of `fr.stat` (R372). -/
def bndStat (s : State) (k j : Nat) (ca : Nat) : Nat :=
  let x := s.ctx k j
  let c := s.core k
  let mode := bitsAt ca 62 2
  if mode = 0 then
    let n := ca % 2 ^ 62
    let t := x.tl 1
    if n = 0 ∨ t.i < n ∨ n + 64 ≤ t.i then 2 ^ 5
    else match t.hist.find? fun r => r.n == n with
      | none => 2 ^ 5
      | some r =>
        if r.done then r.status + 2 ^ 4 + r.dlv % 2 ^ 16 * 2 ^ 8 + r.sub * 2 ^ 24
        else match (s.cluster (clusterOf k)).bindRun.find? fun q => q.core == k && q.ctx == j && q.opn == n && !q.rot with
          | some q => q.dlv % 2 ^ 16 * 2 ^ 8
          | none => 0
  else if mode = 1 then
    let e := s.ses (ca % 2 ^ 20)
    if ca % 2 ^ 20 = 0 then 0
    else sesNf e + bitsAt e 16 3 * 2 ^ 17 + bitsAt e 64 20 * 2 ^ 20
  else if mode = 2 then
    let tag (o : Option Nat) : Nat := match o with | some n => n + 2 ^ 20 | none => 0
    b2n x.act + b2n (c.flip.isSome && c.flipTo.contains j) * 2 + tag c.sessA * 2 ^ 2 + tag c.sessB * 2 ^ 23
  else 0

end Sys2Proof.Machine
end

