-- ==== Sys2Proof/Machine/CopyEngine.lean ====
section
/-! DEFINITION. The copy engine, its streams, the static network's circuits and the shelfmark table (R321 to R353). -/

namespace Sys2Proof.Machine

/-! ### Blocks (R324 to R327) -/

/-- n bytes of the block from byte o. -/
def Cmd.fld (c : Cmd) (o n : Nat) : Nat := bitsAt c.blk.toNat (8 * o) (8 * n)
def Cmd.src (c : Cmd) : Nat := c.fld 0 8
def Cmd.dst (c : Cmd) : Nat := c.fld 8 8
def Cmd.cw (c : Cmd) : Nat := c.fld 16 8
/-- Functions with a pattern of several dimensions. -/
def Cmd.multi (c : Cmd) : Bool := c.fn == 2 || c.fn == 3 || c.fn == 7
def Cmd.nd (c : Cmd) : Nat := if c.multi then c.cw % 16 else 1
def Cmd.c0 (c : Cmd) : Nat :=
  if c.fn = 1 ∨ c.fn = 9 then c.fld 24 8 % 2 ^ 48 else if c.fn = 5 ∨ c.fn = 6 then c.fld 32 8 % 2 ^ 48 else c.fld 24 4
/-- Dimensions 1 to ND - 1: count, source stride, destination stride. -/
def Cmd.dims (c : Cmd) : List (Nat × Int × Int) :=
  (List.range (min (c.nd - 1) 8)).map fun i =>
    let o := 28 + 12 * i
    (c.fld o 2, sval 40 (c.fld (o + 2) 5), sval 40 (c.fld (o + 7) 5))
def Cmd.runs (c : Cmd) : Nat := c.dims.foldl (fun n d => n * d.1) 1
def Cmd.nrows (c : Cmd) : Nat := c.fld 28 2
/-- The declared total T (R327, R329). -/
def Cmd.total (c : Cmd) : Nat := if c.fn = 4 then 128 * c.nrows else if c.fn = 8 then 0 else c.c0 * c.runs
/-- Offsets of run r, dimension 1 varying fastest (R329). -/
def runOffs : List (Nat × Int × Int) → Nat → Int × Int
  | [], _ => (0, 0)
  | (n, x, y) :: l, r =>
    let p := runOffs l (r / n)
    ((r % n : Nat) * x + p.1, (r % n : Nat) * y + p.2)
/-- Smallest and largest offset that a pattern reaches. -/
def spanOf (c0 : Nat) (l : List (Nat × Int)) : Int × Int :=
  l.foldl (fun p d => (p.1 + min 0 (((d.1 : Int) - 1) * d.2), p.2 + max 0 (((d.1 : Int) - 1) * d.2))) (0, (c0 : Int) - 1)
/-- How often a pattern reaches an offset, modulo md when that is not 0. -/
def covers (c0 md : Nat) : List (Nat × Int) → Int → Nat
  | [], o =>
    if md = 0 then b2n (decide (0 ≤ o) && decide (o < c0))
    else let x := (o % (md : Int)).toNat; if x < c0 then (c0 - 1 - x) / md + 1 else 0
  | (n, d) :: l, o => (List.range n).foldl (fun (a i : Nat) => a + covers c0 md l (o - (i : Int) * d)) 0

def Cmd.tieB (c : Cmd) : Nat := c.cb.toNat % 64
def Cmd.tieE (c : Cmd) : Bool := bitAt c.cb.toNat 8
def Cmd.cls (c : Cmd) : Nat := bitsAt c.cb.toNat 9 2

/-- An end of a command: kind 0 virtual memory, 1 scratchpad, 2 tile; the core; the logical start; what placement adds
(BASE of a shelf); the swizzle shift; the modulus of wrapping; the partition a shelf asks for. -/
structure CEnd where
  kind : Nat
  core : Nat := 0
  start : Int := 0
  add : Nat := 0
  sh : Option Nat := none
  md : Nat := 0
  part : Option Nat := none
  deriving DecidableEq, Repr

/-- The end a location descriptor names (Table 14-2), with its swizzle (R335). -/
def Cmd.endOf (c : Cmd) (loc se : Nat) (sh : Option Nat) : CEnd :=
  let k := bitsAt loc 61 3
  if k = 0 then { kind := 0, start := (va52 loc : Int) }
  else if k = 1 then
    { kind := 0, start := (bitsAt loc 32 29 : Int), add := va52 se, sh := if bitAt se 147 then some (bitsAt se 144 3) else none,
      part := some (bitsAt se 160 3) }
  else if k = 2 then
    { kind := 1, core := clusterOf c.core * 4 + bitsAt loc 13 2, start := (128 * (loc % 2 ^ 13) : Nat), sh := sh, md := 2 ^ 20 }
  else { kind := 2, core := loc % 8, start := (1024 * bitsAt loc 3 5 : Nat) }
def Cmd.dsw (c : Cmd) : Option Nat := if bitAt c.cw 7 then some (bitsAt c.cw 4 3) else none
def Cmd.ssw (c : Cmd) : Option Nat := if bitAt c.cw 11 then some (bitsAt c.cw 8 3) else none
def Cmd.srcEnd (c : Cmd) : CEnd := c.endOf c.src c.se c.ssw
def Cmd.dstEnd (c : Cmd) : CEnd := c.endOf c.dst c.de c.dsw

/-- The permutation of a swizzle on byte numbers; it is its own inverse (R335). -/
def swzByte (sh : Option Nat) (a : Int) : Int :=
  match sh with
  | none => a
  | some s =>
    let w := a / 128
    let key := (w / (2 ^ s : Nat) % 8).toNat
    let r := (a % 128).toNat
    w * 128 + (((r / 16) ^^^ key) * 16 + r % 16 : Nat)
/-- Where the byte at an offset lies, and the offset of a place. -/
def CEnd.place (e : CEnd) (o : Int) : Int :=
  let a := e.start + o
  swzByte e.sh (if e.md = 0 then a else a % (e.md : Int)) + e.add
def CEnd.unplace (e : CEnd) (p : Int) : Int := swzByte e.sh (p - e.add) - e.start

/-- The cores a command writes into: the one of a CLUSTER destination, or those of MCM (R341). -/
def Cmd.dstCores (c : Cmd) : List Nat :=
  let q := clusterOf c.core * 4
  if c.fn = 3 then ((List.range 4).filter fun i => bitAt c.cw (28 + i)).map (q + ·)
  else if bitsAt c.dst 61 3 = 2 ∧ c.fn ≠ 4 ∧ c.fn ≠ 7 then [q + bitsAt c.dst 13 2] else []

/-! ### Shelfmarks (R332 to R334) -/

/-- Address of an entry of a function's table; none past its size. -/
def State.shelfAt (s : State) (f slot : Nat) : Option Nat :=
  if slot < s.reg (rShmN f) % 2 ^ 21 then some (bitsAt (s.reg (rShmBase f)) 12 40 * 4096 + 32 * slot) else none
/-- The entry a shelfmark names (0 when there is none), and whether the check holds (R333). -/
def State.shelf (s : State) (f sm : Nat) : Nat × Bool :=
  match s.shelfAt f (sm % 2 ^ 20) with
  | some a =>
    let e := s.lpRead 0 a 32
    (e, sm % 2 ^ 20 ≠ 0 && bitAt e 140 && bitsAt e 128 12 == bitsAt sm 20 12)
  | none => (0, false)
/-- What reading the entry does to the stacks (R180). -/
def State.shelfTouch (s : State) (f sm : Nat) : State :=
  match s.shelfAt f (sm % 2 ^ 20) with
  | some a => s.lpTouch 0 a 32
  | none => s
/-- The layout an image of `hnd.new` must keep (R332), bytes 16 and 17 ignored. -/
def shelfOk (e : Nat) : Bool :=
  e % 128 == 0 && bitsAt e 52 12 == 0 && bitsAt e 112 16 == 0 && bitsAt e 148 4 == 0 && bitsAt e 154 6 == 0 &&
  bitsAt e 163 5 == 0 && bitsAt e 168 88 == 0

/-- Whether each function takes SHELF as source and as destination. -/
def Cmd.srcShelf (c : Cmd) : Bool :=
  bitsAt c.src 61 3 == 1 && (c.fn == 1 || c.fn == 2 || c.fn == 3 || c.fn == 5 || c.fn == 6 || (c.fn == 7 && !bitAt c.cw 33))
def Cmd.dstShelf (c : Cmd) : Bool :=
  bitsAt c.dst 61 3 == 1 && (c.fn == 1 || c.fn == 2 || c.fn == 5 || c.fn == 9 || (c.fn == 7 && bitAt c.cw 33))

/-! ### Ill-formed commands (Table 14-8) -/

/-- Bits of CW that a function uses. -/
def cwUsed (fn : Nat) : Nat :=
  let dsw := onesAt 4 4
  let ssw := onesAt 8 4
  let cv := onesAt 14 14
  let nd := onesAt 0 4
  if fn = 1 then dsw + ssw + cv else if fn = 2 then nd + dsw + ssw + cv else if fn = 3 then nd + dsw + ssw + cv + onesAt 28 4
  else if fn = 4 then ssw else if fn = 5 then dsw + cv else if fn = 6 then dsw + onesAt 12 2 + cv
  else if fn = 7 then nd + dsw + ssw + onesAt 32 7 else dsw + cv
/-- Bits of a location that its kind uses. -/
def locUsed (loc : Nat) : Nat :=
  let k := bitsAt loc 61 3
  onesAt 61 3 + (if k = 0 then 2 ^ 52 - 1 else if k = 1 then 2 ^ 61 - 1 else if k = 2 then 2 ^ 15 - 1 else if k = 3 then 2 ^ 8 - 1 else 2 ^ 61 - 1)
/-- Bits of the block that a function uses. -/
def Cmd.blkUsed (c : Cmd) : Nat :=
  let s := if c.fn = 9 ∨ (c.fn = 7 ∧ bitAt c.cw 33) then 0 else locUsed c.src
  let d := if c.fn = 4 ∨ (c.fn = 7 ∧ !bitAt c.cw 33) then 0 else locUsed c.dst
  s + d * 2 ^ 64 + cwUsed c.fn * 2 ^ 128 +
  (if c.fn = 1 then onesAt 192 48
   else if c.multi then onesAt 192 (32 + 96 * min (c.nd - 1) 8)
   else if c.fn = 4 then onesAt 192 5 + onesAt 208 13 + onesAt 224 16 + onesAt 240 8 + onesAt 248 1 + onesAt 256 32 + onesAt 288 64
   else if c.fn = 5 then onesAt 192 48 + onesAt 256 48
   else if c.fn = 6 then
     (if bitAt c.cw 12 ∨ (bitsAt c.src 61 3 = 1 ∧ bitsAt c.se 152 2 = 3) then onesAt 192 48 else 0) + onesAt 256 48
   else onesAt 192 48 + onesAt 256 64)
/-- Whether a location kind is accepted (R328): source and destination. -/
def Cmd.kindsOk (c : Cmd) : Bool :=
  let s := bitsAt c.src 61 3
  let d := bitsAt c.dst 61 3
  if c.fn = 1 then s < 4 && d < 4
  else if c.fn = 2 then s < 3 && d < 3
  else if c.fn = 3 then s < 3 && d == 2 && bitsAt c.dst 13 2 == 0
  else if c.fn = 4 then s == 2 && bitsAt c.src 13 2 == c.core % 4
  else if c.fn = 5 then s < 2 && d < 3
  else if c.fn = 6 then s < 2 && d == 2
  else if c.fn = 7 then (if bitAt c.cw 33 then d < 2 else s < 2)
  else d < 3

def State.circ (s : State) (k n : Nat) : Nat := s.reg (rCirc k n)
def Cmd.circuit (c : Cmd) : Nat := c.fld 24 1 % 32
/-- The destination core of a circuit. -/
def State.dcore (s : State) (c : Cmd) : Nat := s.circ c.core c.circuit % 128
def Cmd.he (c : Cmd) : Bool := bitAt (c.fld 31 1) 0

/-- The lowest code that applies, 0 for a well-formed command (R349). -/
def cpyBad (s : State) (c : Cmd) : Nat :=
  let a := c.ca.toNat
  let b := c.cb.toNat
  let x := s.ctx c.core c.ctx
  if c.fn = 8 then b2n (a / 32 != 0)
  else
    let isSrc := !(c.fn = 9 || (c.fn = 7 && bitAt c.cw 33))
    let isDst := !(c.fn = 4 || (c.fn = 7 && !bitAt c.cw 33))
    let sk := if isSrc then bitsAt c.src 61 3 else 0
    let dk := if isDst then bitsAt c.dst 61 3 else 0
    let rowEnd := sk == 2 || sk == 3 || dk == 2 || dk == 3
    let unit := if sk == 3 || dk == 3 then 1024 else 128
    let strS := c.dims.map fun d => (d.1, d.2.1)
    let strD := c.dims.map fun d => (d.1, d.2.2)
    let gran := c.fn != 4 && c.fn != 7 && rowEnd && ((c.fn != 5 && c.c0 % unit != 0) ||
      ((sk == 2 || sk == 3) && strS.any fun d => d.2 % (unit : Int) != 0) ||
      ((dk == 2 || dk == 3) && strD.any fun d => d.2 % (unit : Int) != 0))
    let past (e : CEnd) (l : List (Nat × Int)) : Bool :=
      let p := spanOf c.c0 l
      e.kind == 2 && (decide (e.start + p.1 < 0) || decide (32768 ≤ e.start + p.2))
    let out (sh : Bool) (loc e : Nat) (l : List (Nat × Int)) (n : Nat) : Bool :=
      let p := spanOf n l
      let o : Int := bitsAt loc 32 29
      sh && n != 0 && (decide (o + p.1 < 0) || decide ((bitsAt e 64 48 : Int) ≤ o + p.2))
    let srcN := if c.fn = 5 ∨ (c.fn = 6 ∧ (bitAt c.cw 12 ∨ bitsAt c.se 152 2 = 3)) then c.fld 24 8 % 2 ^ 48 else c.c0
    let cv := bitAt c.cw 14
    let cores := (if sk = 2 then [clusterOf c.core * 4 + bitsAt c.src 13 2] else []) ++ c.dstCores ++
      (if c.fn = 4 then [s.dcore c] else [])
    let r := x.ring (bitsAt c.cw 34 5)
    let streams := (s.core c.core).streams
    if a / 2 ^ 13 ≠ 0 ∨ bitsAt b 6 2 ≠ 0 ∨ b / 2 ^ 11 ≠ 0 ∨ c.blk.toNat &&& (2 ^ 1024 - 1 - c.blkUsed) ≠ 0 then 1
    else if !c.kindsOk then 2
    else if gran ∨ (isSrc ∧ c.fn ≠ 4 ∧ past c.srcEnd strS) ∨ (isDst ∧ past c.dstEnd strD) ∨ (sk = 3 ∧ dk = 3) ∨
      (c.fn = 6 ∧ c.c0 % 128 ≠ 0) then 3
    else if (c.multi ∧ (c.nd = 0 ∨ 9 < c.nd)) ∨ (c.fn ≠ 4 ∧ c.c0 = 0) ∨ (c.fn = 7 ∧ c.c0 ≠ 128) ∨ c.dims.any (fun d => d.1 == 0) ∨
      (c.fn = 4 ∧ (c.nrows = 0 ∨ 8192 < c.nrows)) then 4
    else if 2 ^ 48 ≤ c.total ∨ out (isSrc && c.srcShelf) c.src c.se (if c.fn = 5 ∨ c.fn = 6 then [] else strS) srcN ∨
      out (isDst && c.dstShelf) c.dst c.de strD c.c0 then 5
    else if (c.tieE ∧ (47 < c.tieB ∨ c.fn = 7 ∨ (c.fn ≠ 4 ∧ dk ≠ 2))) ∨ c.cls = 1 then 6
    else if c.fn = 4 ∧ (!bitAt (s.circ c.core c.circuit) 7 ∨ !bitAt (s.circ c.core c.circuit) 8 ∨ (c.he ∧ c.fld 30 1 = 0)) then 7
    else if (c.fn = 5 ∧ sk = 1 ∧ bitsAt c.se 152 2 ≠ 1) ∨ (c.fn = 6 ∧ sk = 1 ∧ bitsAt c.se 152 2 < 2) then 8
    else if c.fn = 7 ∧ (!r.bound ∨ r.held ≠ 0 ∨ (!bitAt c.cw 33 ∧ r.res ≠ r.fil) ∨ 8 ≤ streams.length) then 9
    else if (sk = 3 ∧ !s.tileOwned c (c.src % 8)) ∨ (dk = 3 ∧ !s.tileOwned c (c.dst % 8)) then 10
    else if (c.fn = 3 ∧ bitsAt c.cw 28 4 = 0) ∨ cores.any (fun k => !s.coreOk k) then 11
    else if cv ∧ dk ≠ 2 then 12
    else 0

/-! ### Completion (R327, R340, R348 to R350) -/

/-- The cores whose barrier a command is tied to. -/
def Cmd.tied (s : State) (c : Cmd) : List Nat :=
  if !c.tieE ∨ 47 < c.tieB ∨ c.fn = 7 ∨ c.fn = 8 then [] else if c.fn = 4 then [s.dcore c] else c.dstCores
/-- Remainders to the tied barriers. -/
def tieRest (s : State) (c : Cmd) : State :=
  (c.tied s).foldl (fun s k => s.nbAdd k c.tieB { rem := (c.total + 2 ^ 48 * 2 ^ 32 - c.dlv) % 2 ^ 32, err := true, ready := s.now }) s
/-- The colophon row of each core of a CLUSTER destination loses its valid flag (R340). -/
def coloClear (s : State) (c : Cmd) : State :=
  if !bitAt c.cw 14 ∨ c.fn = 4 ∨ c.fn = 7 ∨ c.fn = 8 ∨ bitsAt c.dst 61 3 ≠ 2 then s
  else c.dstCores.foldl (fun s k => s.storeRow k (bitsAt c.cw 15 13) (row (2 ^ 168)) 0 c.key) s

/-- A command ends with its status; VAL of its TILE destination follows R330 and R349. -/
def cpyEnd (s : State) (c : Cmd) : State :=
  let st := c.status
  let has := !(c.fn = 4 || c.fn = 8 || (c.fn = 7 && !bitAt c.cw 33)) && bitsAt c.dst 61 3 == 3
  let n := c.dst % 8
  let s := if !has then s
    else if st = 0 then (if c.c0 = 32768 then s.modTile c.core n fun t => { t with val := true } else s)
    else if st ≠ 7 ∧ s.tileOwned c n then s.clearVal c.core n else s
  let s := if st = 6 then s else s.tileSpoilt c 0
  let r : OpRec := { n := c.opn, status := st, sub := c.sub, dlv := c.dlv }
  if st = 0 then s.opDone c.core c.ctx 0 r false false
  else if st = 7 then (tieRest s c).opDone c.core c.ctx 0 r false false
  else
    let s := tieRest (coloClear s c) c
    let s := s.errRecord c.core c.ctx (c.record 0 st + c.sub * 2 ^ 112 + c.dlv % 2 ^ 64 * 2 ^ 256 + c.addr * 2 ^ 320 +
      c.total % 2 ^ 64 * 2 ^ 384)
    s.opDone c.core c.ctx 0 r true (st == 6)

/-- Rank of a status (Table 14-7). -/
def cpyRank (st : Nat) : Nat := ([0, 2, 3, 6, 5, 4, 7, 0, 1] : List Nat).getD st 0
def cpyWorse (a b : Nat) : Nat := if cpyRank a < cpyRank b then b else a

/-- Shelf entries of the command, read as it issues; false when a check fails (R333). -/
def cpyShelves (s : State) (c : Cmd) : Cmd × Bool :=
  let a := s.shelf c.vf (c.src % 2 ^ 32)
  let b := s.shelf c.vf (c.dst % 2 ^ 32)
  ({ c with se := if c.srcShelf then a.1 else 0, de := if c.dstShelf then b.1 else 0,
            addr := if c.srcShelf && !a.2 then c.src % 2 ^ 32 else if c.dstShelf && !b.2 then c.dst % 2 ^ 32 else 0 },
   (!c.srcShelf || a.2) && (!c.dstShelf || b.2))

/-- A command issues: queued, or complete with STALE at once (R333). -/
def cpyIssue (s : State) (k j : Nat) (c : Cmd) : State :=
  let x := s.ctx k j
  let p := if c.fn = 8 then (c, true) else cpyShelves s c
  let s := if c.fn ≠ 8 ∧ c.srcShelf then s.shelfTouch c.vf (c.src % 2 ^ 32) else s
  let s := if c.fn ≠ 8 ∧ c.dstShelf then s.shelfTouch c.vf (c.dst % 2 ^ 32) else s
  let t := (x.tl 0).issue p.1
  let sk := bitsAt c.src 61 3
  let dk := bitsAt c.dst 61 3
  let cmds := if c.fn = 1 ∧ p.2 then
      (if sk = 3 then [({ acc := c.src % 8, rows := 32, e := 0, opn := t.i } : TileCmd)] else []) ++
      (if dk = 3 then [({ acc := c.dst % 8, rows := 32, e := 0, opn := t.i } : TileCmd)] else []) else []
  let s := s.setCtx k j { (x.setTl 0 t) with tileCmds := x.tileCmds ++ cmds }
  if p.2 then s
  else
    let s := s.modCtx k j fun x => x.setTl 0 { x.tl 0 with queue := (x.tl 0).queue.dropLast }
    cpyEnd s { p.1 with opn := t.i, status := 3 }

/-! ### Moving bytes -/

/-- The 4 KiB ranges of a shelf that some offsets touch, as numbers: twice the range, plus 1 for the destination. -/
def Cmd.ranges (e : CEnd) (dstEnd : Bool) (l : List Int) : List Nat :=
  (l.map fun o => 2 * ((e.start + o) / 4096).toNat + b2n dstEnd).eraseDups
/-- The recheck before the first beat of each new range (R333), which reads the entries again: false when it fails. -/
def cpyRecheck (s : State) (c : Cmd) (so do_ : List Int) : State × Cmd × Bool :=
  let rs := ((if c.srcShelf then Cmd.ranges c.srcEnd false so else []) ++ (if c.dstShelf then Cmd.ranges c.dstEnd true do_ else [])).filter
    fun r => !c.rng.contains r
  let ra := rs.any fun r => r % 2 == 0
  let rb := rs.any fun r => r % 2 == 1
  let a := ra && !(s.shelf c.vf (c.src % 2 ^ 32)).2
  let b := rb && !(s.shelf c.vf (c.dst % 2 ^ 32)).2
  let s := if ra then s.shelfTouch c.vf (c.src % 2 ^ 32) else s
  let s := if rb then s.shelfTouch c.vf (c.dst % 2 ^ 32) else s
  (s, { c with rng := c.rng ++ rs, addr := if a then c.src % 2 ^ 32 else if b then c.dst % 2 ^ 32 else c.addr }, !(a || b))

/-- Bytes of an end at offsets. -/
def State.endRead (s : State) (c : Cmd) (e : CEnd) (os : List Int) : State × Except (Nat × Nat) (List Nat) :=
  if e.kind = 0 then s.vBytes (clusterOf c.core) c.vf c.priv e.part (os.map e.place)
  else if e.kind = 1 then (s, .ok (os.map fun o => let p := (e.place o).toNat; lane 8 (s.padRow e.core (p / 128)) (p % 128)))
  else
    let t : Tile := tget {} (s.core c.core).tiles e.core
    let t := if s.tileBad c 0 then t.spoil s (830000 + 64 * e.core) 32 true else t
    (s, .ok (os.map fun o =>
      let p := (e.place o).toNat
      let el := lane 56 (tget 0 t.rows (p / 1024)).toNat (p % 1024 / 8)
      lane 8 el (p % 8)))

/-- Writing bytes of one 128-byte row of an end. -/
def State.endWrite (s : State) (c : Cmd) (e : CEnd) (l : List (Int × Nat)) : State × Except (Nat × Nat) Unit :=
  if l.isEmpty then (s, .ok ())
  else if e.kind = 0 then
    s.vWrite (clusterOf c.core) c.vf c.priv e.part (c.core, c.ctx) (l.map fun x => (e.place x.1, x.2))
  else if e.kind = 1 then
    let ps := l.map fun x => ((e.place x.1).toNat, x.2)
    let w := (ps.headD (0, 0)).1 / 128
    let m := ps.foldl (fun m p => m ||| onesAt (8 * (p.1 % 128)) 8) 0
    let v := ps.foldl (fun v p => v ||| p.2 <<< (8 * (p.1 % 128))) 0
    (s.storeRow e.core w (row m) (row v) c.key, .ok ())
  else
    let s := s.modTile c.core e.core fun t => { t with rows := l.foldl (fun m x =>
      let p := (e.place x.1).toNat
      if p % 8 = 7 then m
      else
        let o := (tget 0 m (p / 1024)).toNat
        let sh := 56 * (p % 1024 / 8) + 8 * (p % 8)
        tset 0 m (p / 1024) (BitVec.ofNat 7168 (o - (bitsAt o sh 8) <<< sh + x.2 <<< sh))) t.rows }
    (s, .ok ())

/-- Counting written bytes at the tied barriers. -/
def tieCount (s : State) (c : Cmd) (n : Nat) : State :=
  if n = 0 then s else (c.tied s).foldl (fun s k => s.nbAdd k c.tieB { y := n, ready := s.now }) s

/-- A fault drops the beats not yet started (R348). -/
def Cmd.cut (c : Cmd) (st addr : Nat) : Cmd := { c with status := cpyWorse c.status st, addr := addr, drop := 1 }

/-- Whether both ends lie in one space. -/
def Cmd.sameSpace (c : Cmd) (a b : CEnd) : Bool :=
  a.kind == b.kind && (a.kind == 0 || (a.kind == 1 && c.dstCores.contains a.core))

/-- Writing n bytes at destination offset o with their values, byte positions in `free_` unpredictable. -/
def cpyPut (s : State) (c : Cmd) (o : Int) (vals : List Nat) (free_ : Nat → Bool) (count : Nat) : State × Cmd :=
  let e := c.dstEnd
  let vs := (List.range vals.length).map fun (i : Nat) => (o + (i : Int), if free_ i then s.free (840000 + i) % 256 else vals.getD i 0)
  let r := if c.fn = 3 then
      c.dstCores.foldl (fun (p : State × Except (Nat × Nat) Unit) k => p.1.endWrite c { e with core := k } vs) (s, .ok ())
    else s.endWrite c e vs
  match r.2 with
  | .ok _ => (tieCount r.1 c count, { c with dlv := c.dlv + count })
  | .error x => (r.1, c.cut x.1 x.2)

/-! ### Beats (R322, R329, R331) -/

/-- Whether a tile end of the command is still in use by the matrix queue (R330). -/
def cpyTileBusy (s : State) (c : Cmd) : Bool :=
  c.fn == 1 && ((bitsAt c.src 61 3 == 3 && (s.core c.core).tileBusy (c.src % 8) c.key) ||
    (bitsAt c.dst 61 3 == 3 && (s.core c.core).tileBusy (c.dst % 8) c.key))

/-- Pieces of a run: cut at multiples of 128 of the destination. -/
def Cmd.pieces (c : Cmd) : Nat := c.c0 / 128 + 2
/-- The bytes of piece m of a run that starts at destination offset o: first and number. -/
def Cmd.piece (c : Cmd) (o : Int) (m : Nat) : Nat × Nat :=
  let a := ((c.dstEnd.start + o) % 128).toNat
  let lo := 128 * m - a
  (lo, min c.c0 (128 * (m + 1) - a) - lo)

/-- Beat n of `cpy.1d`, `cpy.nd`, `cpy.mc` and `cpy.fill`. -/
def affineBeat (s : State) (c : Cmd) (n : Nat) : State × Cmd :=
  let offs := runOffs c.dims (n / c.pieces)
  let pc := c.piece offs.2 (n % c.pieces)
  let so := (List.range pc.2).map fun i => offs.1 + ((pc.1 + i : Nat) : Int)
  let dof := offs.2 + (pc.1 : Int)
  let ds := (List.range pc.2).map fun (i : Nat) => dof + (i : Int)
  if pc.2 = 0 then (s, c)
  else
    let q := cpyRecheck s c so ds
    let s := q.1
    let c := q.2.1
    if !q.2.2 then (s, { c with status := cpyWorse c.status 3, drop := 1 })
    else
      let r := if c.fn = 9 then (s, .ok (ds.map fun o => lane 8 (c.fld 32 8) (o % 8).toNat)) else s.endRead c c.srcEnd so
      match r.2 with
      | .error x => (r.1, c.cut x.1 x.2)
      | .ok vals =>
        let dd := c.dims.map fun d => (d.1, d.2.2)
        let e := c.dstEnd
        let fr (i : Nat) : Bool :=
          decide (1 < covers c.c0 e.md dd (ds.getD i 0)) ||
          (c.fn != 9 && c.sameSpace c.srcEnd e && decide (0 < covers c.c0 e.md dd (e.unplace (c.srcEnd.place (so.getD i 0)))))
        cpyPut r.1 c dof vals fr pc.2

/-- A decoder of a zero-run stream (R337): position, literal and zero bytes left, a pad byte to come, the end (1 clean, 2 not),
whether a header or pad byte it went by is one the command writes, and the status and address of a failed read. -/
structure ZDec where
  pos : Nat := 0
  lit : Nat := 0
  zero : Nat := 0
  pad : Bool := false
  fin : Nat := 0
  own : Bool := false
  err : Nat × Nat := (0, 0)
  deriving DecidableEq, Repr

/-- Whether the command writes the byte at a source offset (R323). -/
def Cmd.mine (c : Cmd) (o : Int) : Bool :=
  c.sameSpace c.srcEnd c.dstEnd && decide (0 < covers c.c0 c.dstEnd.md [] (c.dstEnd.unplace (c.srcEnd.place o)))

/-- The next byte of the stream, if there is one, and whether it comes from bytes the command writes; the first argument
bounds the steps that produce none. -/
def zNext (c : Cmd) : Nat → State → ZDec → State × Option (Nat × Bool) × ZDec
  | 0, s, z => (s, none, { z with fin := 2 })
  | f + 1, s, z =>
    let clen := c.fld 24 8 % 2 ^ 48
    if z.fin ≠ 0 then (s, none, z)
    else if 0 < z.zero then (s, some (0, z.own), { z with zero := z.zero - 1 })
    else if 0 < z.lit ∨ z.pad then
      if clen ≤ z.pos then (s, none, { z with fin := 2 })
      else match s.endRead c c.srcEnd [(z.pos : Int)] with
        | (s, .error e) => (s, none, { z with err := e })
        | (s, .ok l) =>
          let b := l.headD 0
          let m := c.mine z.pos
          if 0 < z.lit then (s, some (b, z.own || m), { z with pos := z.pos + 1, lit := z.lit - 1 })
          else if b ≠ 0 then (s, none, { z with pos := z.pos + 1, fin := 2 })
          else zNext c f s { z with pos := z.pos + 1, pad := false, own := z.own || m }
    else if clen < z.pos + 2 then (s, none, { z with fin := 2 })
    else match s.endRead c c.srcEnd [(z.pos : Int), (z.pos + 1 : Nat)] with
      | (s, .error e) => (s, none, { z with err := e })
      | (s, .ok l) =>
        let h := l.getD 0 0 + 256 * l.getD 1 0
        let n := h % 2 ^ 14 + 1
        let z := { z with pos := z.pos + 2, own := z.own || c.mine z.pos || c.mine (z.pos + 1) }
        if h / 2 ^ 14 = 0 then zNext c f s { z with lit := n, pad := n % 2 == 1 }
        else if h / 2 ^ 14 = 1 then (s, some (0, z.own), { z with zero := n - 1 })
        else (s, none, { z with fin := if h = 2 ^ 15 then 1 else 2 })

/-- Up to n bytes of the stream. -/
def zTake (c : Cmd) : Nat → State → ZDec → State × List (Nat × Bool) × ZDec
  | 0, s, z => (s, [], z)
  | n + 1, s, z =>
    match zNext c 4 s z with
    | (s, none, z) => (s, [], z)
    | (s, some b, z) => let r := zTake c n s z; (r.1, b :: r.2.1, r.2.2)

/-- The decoder as the command holds it. -/
def Cmd.zdec (c : Cmd) : ZDec :=
  { pos := c.list.getD 0 0, lit := c.list.getD 1 0, zero := c.list.getD 2 0, pad := c.list.getD 3 0 == 1, fin := c.list.getD 4 0,
    own := c.list.getD 5 0 == 1 }
def ZDec.save (z : ZDec) : List Nat := [z.pos, z.lit, z.zero, b2n z.pad, z.fin, b2n z.own]
/-- The source offsets a decoder went by from one state to another, or failed to read. -/
def zSpan (z z' : ZDec) : List Int :=
  (List.range (z'.pos - z.pos + (if z'.err.1 = 0 then 0 else 1))).map fun i => ((z.pos + i : Nat) : Int)

/-- Whether a coded stream comes first. -/
def Cmd.coded (c : Cmd) : Bool := c.fn == 5 || bitAt c.cw 12 || (bitsAt c.src 61 3 == 1 && bitsAt c.se 152 2 == 3)

/-- The next piece of `cpy.zrb` and `cpy.sp24` (R338, R339); past the last, whether the stream ends as it should.  The source
bytes are read first, so that the ranges they lie in are known, and the check comes before any byte is written (R333). -/
def codedBeat (s : State) (c : Cmd) (n : Nat) : State × Cmd :=
  let last := n == c.pieces
  let pc := if last then (c.c0, 1) else c.piece 0 n
  if pc.2 = 0 ∨ (last ∧ !c.coded) then (s, c)
  else
    let ds := if last then [] else (List.range pc.2).map fun i => ((pc.1 + i : Nat) : Int)
    let e := c.dstEnd
    let twice (i : Nat) : Bool := decide (1 < covers c.c0 e.md [] (ds.getD i 0))
    let r : State × Except (Nat × Nat) (List (Nat × Bool)) × ZDec :=
      if c.coded then
        let t := zTake c pc.2 s c.zdec
        (t.1, if t.2.2.err.1 = 0 then .ok t.2.1 else .error t.2.2.err, t.2.2)
      else match s.endRead c c.srcEnd ds with
        | (s, .error x) => (s, .error x, {})
        | (s, .ok l) => (s, .ok (List.zipWith (fun b o => (b, c.mine o)) l ds), {})
    let q := cpyRecheck r.1 c (if c.coded then zSpan c.zdec r.2.2 else ds) ds
    let s := q.1
    let c := q.2.1
    if !q.2.2 then (s, { c with status := cpyWorse c.status 3, drop := 1 })
    else match r.2.1 with
      | .error x => (s, c.cut x.1 x.2)
      | .ok l =>
        if last then
          (s, if l ≠ [] then { c with status := cpyWorse c.status 2 }
            else if r.2.2.fin = 1 ∧ c.idx = c.c0 then c else { c with status := cpyWorse c.status 1 })
        else
          let c := { c with list := if c.coded then r.2.2.save else c.list, idx := c.idx + l.length }
          let vals := l.map (·.1) ++ List.replicate (pc.2 - l.length) 0
          let own (i : Nat) : Bool := (l.getD i (0, r.2.2.own)).2
          if c.fn = 5 then cpyPut s c (pc.1 : Int) vals (fun i => twice i || own i) l.length
          else
            let any := (List.range 128).any own
            let fr (i : Nat) : Bool := twice i || any
            match expand24 (if bitAt c.cw 13 then 16 else 8) (ofLanes 8 vals) with
            | some v => cpyPut s c (pc.1 : Int) (lanesOf 8 128 v) fr l.length
            | none => cpyPut s { c with status := cpyWorse c.status 8 } (pc.1 : Int) (List.replicate 128 0) fr l.length

/-- Beats of a command; those of `cpy.snd` read its rows. -/
def Cmd.beats (c : Cmd) : Nat :=
  if c.drop ≠ 0 ∨ c.status = 6 then 0
  else if c.fn = 4 then c.nrows
  else if c.fn = 5 ∨ c.fn = 6 then c.pieces + 1
  else if c.fn = 7 ∨ c.fn = 8 then 0
  else c.runs * c.pieces

/-- A row of `cpy.snd` as the circuit takes it. -/
def sndRow (s : State) (c : Cmd) (n : Nat) : Nat :=
  let w := c.src % 2 ^ 13 + n
  let w := w % 8192
  match c.ssw with
  | some sh => swizzle ((w >>> sh) % 8) (s.padRow c.core w)
  | none => s.padRow c.core w

/-- Counting a beat as done: `prog` is the first not done, `list` those done beyond it. -/
def Cmd.mark (c : Cmd) (n : Nat) : Cmd :=
  let l := n :: c.list
  let p := (List.range (l.length + 1)).foldl (fun p _ => if l.contains p then p + 1 else p) c.prog
  { c with prog := p, list := l.filter fun i => decide (p ≤ i) }

/-- One beat of the i-th running command of a core; which one, where the function leaves the order open. -/
def copyBeat (s : State) (k i : Nat) (which : Option Nat) : State :=
  match (s.core k).copies[i]? with
  | none => s
  | some c =>
    let put (s : State) (c : Cmd) : State := s.modCore k fun m => { m with copies := setAt m.copies i c }
    if c.fn = 4 then
      let n := c.idx + c.list.length
      if c.beats ≤ n then s else put s { c with list := c.list ++ [sndRow s c n] }
    else if c.beats ≤ c.prog ∨ cpyTileBusy s c then s
    else if c.fn = 5 ∨ c.fn = 6 then
      let p := codedBeat s c c.prog
      put p.1 { p.2 with prog := c.prog + 1 }
    else
      let n := which.getD c.prog
      if n < c.prog ∨ c.beats ≤ n ∨ c.list.contains n then s
      else
        let p := affineBeat s c n
        put p.1 (p.2.mark n)

/-! ### Starting and completing -/

/-- The ring of a stream or a walk is released (R346, R404). -/
def releaseRing (s : State) (k j h : Nat) : State :=
  s.modCtx k j fun x => let r := { x.ring h with held := 0 }; x.setRing h { r with mixed := r.mixed && !r.quiet }
/-- Ending the streams of a core for which the test holds. -/
def endStreams (s : State) (k : Nat) (f : Stream → Bool) : State :=
  let l := (s.core k).streams
  let s := s.modCore k fun c => { c with streams := c.streams.filter fun t => !f t }
  (l.filter f).foldl (fun s t => releaseRing s k t.cmd.ctx t.h) s

/-- The next cycle from t at which a circuit owns its first link (R344). -/
def nextOwned (ph t : Nat) : Nat :=
  match (List.range 64).find? fun i => bitAt ph ((t + i) % 64) with
  | some i => t + i
  | none => t

/-- What starting does for `cpy.snd`, `cpy.strm` and `cpy.stop`; a stream of a task that has ended is stopped as it is bound
(R117). -/
def cpyBegin (s : State) (k : Nat) (c : Cmd) : State :=
  if c.status = 6 then s
  else if c.fn = 4 then
    if (s.core k).copies.any fun q => q.fn == 4 && q.status != 6 && q.circuit == c.circuit && decide (q.idx < q.nrows) then s
    else
      let t := nextOwned (s.reg (rCph k c.circuit)) (max s.now (tget 0 (s.core k).circ c.circuit))
      s.modCore k fun m => { m with circ := tput m.circ c.circuit t }
  else if c.fn = 7 then
    if (s.ctx k c.ctx).life = .ending then s else
    let h := bitsAt c.cw 34 5
    let d := bitAt c.cw 33
    let r := (s.ctx k c.ctx).ring h
    let s := s.modCtx k c.ctx fun x => x.setRing h { r with held := if d then 2 else 1, swz := if d then none else c.dsw }
    let s := if d then s else ringProduced s k c.ctx h (!r.quiet)
    s.modCore k fun m => { m with streams := m.streams ++ [{ cmd := c, h := h, drains := d }] }
  else if c.fn = 8 then endStreams s k fun t => t.cmd.ctx == c.ctx && t.h == c.ca.toNat % 32
  else s

/-- A channel starts a command (R322). -/
def copyStart (s : State) (k : Nat) : State :=
  let c := s.core k
  if 4 ≤ c.copies.length then s
  else
    let hd (j : Nat) : Option Cmd := (c.ctx j).head 0
    let first := rotPick c.copyRot 8 fun j => (hd j).any fun q => q.fn != 8 && q.cls == 0
    match first.or (rotPick c.copyRot 8 fun j => (hd j).isSome) with
    | none => s
    | some j =>
      match hd j with
      | none => s
      | some q =>
        let sub := cpyBad s q
        let q := { q with started := true, sub := sub, status := if sub = 0 then 0 else 6 }
        let s := cpyBegin (s.modCtx k j (·.popCmd 0)) k q
        s.modCore k fun c => { c with copies := c.copies ++ [q], copyRot := (j + 1) % 8 }

/-- The i-th running command of a core completes once nothing of it is left (R348). -/
def copyComplete (s : State) (k i : Nat) : State :=
  match (s.core k).copies[i]? with
  | none => s
  | some c => if c.prog < c.beats then s else cpyEnd (s.modCore k fun m => { m with copies := dropAt m.copies i }) c

/-- A killed context: queued commands are discarded, running ones stop, rows on their way count at no barrier, and its streams
end (R353). -/
def copyKill (s : State) (k j : Nat) : State :=
  let s := s.modCtx k j fun x => x.setTl 0 { x.tl 0 with queue := [] }
  let dead := ((s.core k).copies.filter fun q => q.ctx == j).map (·.key)
  let s := s.modCore k fun c => { c with copies := c.copies.filter fun q => q.ctx != j }
  let untie (r : SentRow) : SentRow := if r.src = k ∧ dead.contains r.key then { r with tie := none } else r
  let s := { s with cores := s.cores.map fun e => (e.1, { e.2 with sends := e.2.sends.map untie }) }
  endStreams s k fun t => t.cmd.ctx == j

/-- `cpy.clr` at issue (R352). -/
def copyClear (s : State) (k j : Nat) : State :=
  let q := ((s.ctx k j).tl 0).queue
  let s := s.modCtx k j fun x => { (x.setTl 0 { x.tl 0 with queue := [] }) with waits := x.waits ++ [.clear 0 0] }
  q.foldl (fun s c => cpyEnd s { c with status := 7 }) s

/-! ### Circuits (R344, R345) -/

/-- A circuit sends its next row, in a cycle of its own and not before the planned one, once the row has been read and,
for a payload with HE = 1, a credit is held; a missed phase is taken up a whole revolution later. -/
def circuitSend (s : State) (k n : Nat) : State :=
  let c := s.core k
  match c.copies.findIdx? fun q => q.fn == 4 && q.status != 6 && q.circuit == n && decide (q.idx < q.nrows) with
  | none => s
  | some i =>
    match c.copies[i]? with
    | none => s
    | some q =>
      let plan := tget 0 c.circ n
      let dc := s.dcore q
      let first := q.idx == 0
      if s.now < plan ∨ (s.now - plan) % 64 ≠ 0 ∨ q.list = [] ∨ (q.he ∧ first ∧ (s.core dc).credits = 0) then s
      else
        let last := q.idx + 1 == q.nrows
        let drow := q.fld 26 2 % 2 ^ 13
        let r : SentRow :=
          { dcore := dc, row := (drow + q.idx) % 8192, data := row (q.list.headD 0), lands := s.now + bitsAt (s.circ k n) 16 8,
            tie := if q.tieE then some q.tieB else none, src := k, key := q.key,
            arrival := if last ∧ q.he then some (q.fld 30 1, BitVec.ofNat 32 (q.fld 32 4), BitVec.ofNat 64 (q.fld 36 8),
              BitVec.ofNat 64 (k + drow * 2 ^ 7 + q.nrows * 2 ^ 20)) else none }
        let s := s.modCore k fun c => { c with copies := setAt c.copies i { q with idx := q.idx + 1, list := q.list.drop 1 },
                                               circ := tput c.circ n (nextOwned (s.reg (rCph k n)) (s.now + 1)) }
        s.modCore dc fun d => { d with sends := d.sends ++ [r], credits := if q.he ∧ first then d.credits - 1 else d.credits }

/-- The i-th row on its way to a core lands, once its cycle has come. -/
def landRow (s : State) (k i : Nat) : State :=
  match (s.core k).sends[i]? with
  | none => s
  | some r =>
    if s.now < r.lands then s
    else
      let s := s.modCore k fun c => { c with sends := dropAt c.sends i }
      let s := s.storeRow k r.row rowMask r.data
      let s := match r.tie with | some b => s.nbAdd k b { y := 128, ready := s.now } | none => s
      let s := s.modCore r.src fun c => { c with copies := c.copies.map fun q =>
        if q.key = r.key then { q with prog := q.prog + 1, dlv := q.dlv + 128 } else q }
      match r.arrival with
      | some a => s.modCore k fun c => { c with arrivals := c.arrivals ++ [a] }
      | none => s

/-- The first row that may land at a core. -/
def circuitLand (s : State) (k : Nat) : State :=
  match (s.core k).sends.findIdx? fun r => decide (r.lands ≤ s.now) with
  | some i => landRow s k i
  | none => s

/-! ### Streams (R346) -/

/-- fil moves over the slots that have landed or are faulted (R176). -/
def Ring.settle : Nat → Ring → Ring
  | 0, r => r
  | n + 1, r =>
    if r.fil = r.res then r
    else
      let i := r.slotAt r.fil 0
      if tget false r.arr i then Ring.settle n { r with fil := r.fil + 1, arr := tdel r.arr i } else r
/-- A slot has landed with a fault kind, 0 for none. -/
def Ring.land (r : Ring) (i kind : Nat) : Ring :=
  Ring.settle r.n { r with arr := tput r.arr i true, bad := if kind = 0 then tdel r.bad i else tput r.bad i kind }

/-- A fault of a stream: its record, ERR and F (R346, R350). -/
def streamFault (s : State) (t : Stream) (st addr : Nat) : State :=
  let c := t.cmd
  let s := s.errRecord c.core c.ctx (c.record 0 st + c.dlv % 2 ^ 64 * 2 ^ 256 + addr * 2 ^ 320 + c.total % 2 ^ 64 * 2 ^ 384)
  s.modCtx c.core c.ctx fun x =>
    let l := x.tl 0
    x.setTl 0 { l with err := true, f := if l.f = 0 ∨ c.opn < l.f then c.opn else l.f }

/-- The shelf check of a stream for a row at a memory offset, at each new 4 KiB range it reaches (R346). -/
def streamCheck (s : State) (t : Stream) (o : Int) : State × Cmd × Bool :=
  cpyRecheck s t.cmd [o, o + 127] [o, o + 127]

/-- One row of the i-th stream of a core. -/
def streamRow (s : State) (k i : Nat) : State :=
  match (s.core k).streams[i]? with
  | none => s
  | some t =>
    let c := t.cmd
    let x := s.ctx k c.ctx
    let r := x.ring t.h
    let n := c.runs
    let offs := runOffs c.dims (t.row % n)
    let more (s : State) (c : Cmd) (ends : Bool) : State :=
      let row' := t.row + 1
      let ends := ends || (row' == n && !bitAt c.cw 32)
      let c := if row' = n then { c with rng := [] } else c
      let s := s.modCore k fun m => { m with streams := setAt m.streams i { t with cmd := c, row := if row' = n then 0 else row' } }
      if ends then
        let s := s.modCore k fun m => { m with streams := dropAt m.streams i }
        releaseRing s k c.ctx t.h
      else s
    if !t.drains then
      if r.freeSlots = 0 then s
      else
        let i := r.slotAt r.res 0
        let w := r.base + i
        let r := { r with res := r.res + 1 }
        let q' := streamCheck s t offs.1
        let s := q'.1
        let q := q'.2
        let e := c.srcEnd
        let fill (s : State) (v kind : Nat) : State :=
          let s := s.storeRow k w rowMask (row (match c.dsw with | some sh => swizzle ((w >>> sh) % 8) v | none => v))
          ringProduced (s.modCtx k c.ctx fun x => x.setRing t.h (r.land i kind)) k c.ctx t.h false
        if !q.2 then more (streamFault (fill s 0 3) { t with cmd := q.1 } 3 q.1.addr) q.1 true
        else
          let d := s.endRead c e ((List.range 128).map fun (b : Nat) => offs.1 + (b : Int))
          match d.2 with
          | .ok l => more (fill d.1 (ofLanes 8 l) 0) { q.1 with dlv := c.dlv + 128 } false
          | .error f => more (streamFault (fill d.1 0 (f.1 - 3)) { t with cmd := q.1 } f.1 f.2) q.1 false
    else
      if r.filled = 0 then s
      else
        let i := r.slotAt r.con 0
        let w := r.base + i
        let v := s.padRow k w
        let v := match c.ssw with | some sh => swizzle ((w >>> sh) % 8) v | none => v
        let bad := tget 0 r.bad i
        let q' := streamCheck s t offs.2
        let s := q'.1
        let q := q'.2
        let s := (s.mxTouch k w .release).modCtx k c.ctx fun x => x.setRing t.h { r with con := r.con + 1, bad := tdel r.bad i }
        if !q.2 then more (streamFault s { t with cmd := q.1 } 3 q.1.addr) q.1 true
        else if bad ≠ 0 then more (streamFault s { t with cmd := q.1 } (if bad = 3 then 3 else bad + 3) 0) q.1 false
        else
          let e := c.dstEnd
          let l := (List.range 128).map fun (b : Nat) => (offs.2 + (b : Int), lane 8 v b)
          let first (p : Int × Nat) : Bool := (e.start + p.1) / 128 == (e.start + offs.2) / 128
          let d := match s.endWrite c e (l.filter first) with
            | (s, .ok _) => s.endWrite c e (l.filter fun p => !first p)
            | r => r
          match d.2 with
          | .ok _ => more d.1 { q.1 with dlv := c.dlv + 128 } false
          | .error f => more (streamFault d.1 { t with cmd := q.1 } f.1 f.2) q.1 false

/-! ### `hnd` (R334) -/

/-- A free slot of a function's table, the search starting anywhere. -/
def State.freeSlotOf (s : State) (f : Nat) : Option Nat :=
  let n := s.reg (rShmN f) % 2 ^ 21
  let from_ := s.free 850000
  if n < 2 then none
  else (List.range (n - 1)).map (fun i => (from_ + i) % (n - 1) + 1) |>.find? fun i =>
    match s.shelfAt f i with
    | some a => !bitAt (s.lpRead 0 (a + 16) 2) 12
    | none => false

/-- What each of the three does: the reply, and the writes (address, bytes, value). -/
def hndNew (s : State) (f img : Nat) : Nat × List (Nat × Nat × Nat) :=
  if !shelfOk img then (0, [])
  else match s.freeSlotOf f with
    | none => (0, [])
    | some i =>
      match s.shelfAt f i with
      | none => (0, [])
      | some a =>
        let gen := s.lpRead 0 (a + 16) 2 % 2 ^ 12
        let v := img % 2 ^ 256 - (bitsAt img 128 16) <<< 128 + (gen + 2 ^ 12) <<< 128
        (gen * 2 ^ 20 + i, [(a, 32, v)])
def hndFree (s : State) (f v : Nat) : Nat × List (Nat × Nat × Nat) :=
  let e := s.shelf f v
  match s.shelfAt f (v % 2 ^ 20) with
  | some a => if e.2 ∧ v / 2 ^ 32 = 0 then (0, [(a + 16, 2, (bitsAt e.1 128 12 + 1) % 2 ^ 12)]) else (1, [])
  | none => (1, [])
def hndGen (s : State) (f v : Nat) : Nat × List (Nat × Nat × Nat) :=
  let e := s.shelf f v
  match s.shelfAt f (v % 2 ^ 20) with
  | some a =>
    if e.2 ∧ v / 2 ^ 32 = 0 then
      let g := (bitsAt e.1 128 12 + 1) % 2 ^ 12
      (g * 2 ^ 20 + v % 2 ^ 20, [(a + 16, 2, g + 2 ^ 12)])
    else (0, [])
  | none => (0, [])

/-- The status word of `cpy.q` (R351); a running command shows its count. -/
def cpyStatus (s : State) (k j n : Nat) : Nat :=
  let t := (s.ctx k j).tl 0
  if n = 0 ∨ t.i < n ∨ n + 64 ≤ t.i then 2 ^ 5
  else match t.hist.find? fun r => r.n == n with
    | none => 2 ^ 5
    | some r =>
      if r.done then r.status % 16 + 2 ^ 4 + r.dlv % 2 ^ 48 * 2 ^ 8 + r.sub % 256 * 2 ^ 56
      else match (s.core k).copies.find? fun c => c.ctx == j && c.opn == n with
        | some c => c.dlv % 2 ^ 48 * 2 ^ 8
        | none => 0

end Sys2Proof.Machine
end

