-- ==== Sys2Proof/Machine/Generation.lean ====
section
/-! DEFINITION. The generation engines: node walker, sampler and commit engine (R399 to R420). -/

namespace Sys2Proof.Machine

/-! ### Memory as these engines reach it (R401, R418) -/

/-- A result, or the status (2 translation fault, 3 uncorrectable data) and the address. -/
abbrev GRes (α : Type) := State × Except (Nat × Nat) α

/-- Bytes in turn, as a number. -/
def gRead (c : Cmd) (s : State) (va n : Nat) : GRes Nat :=
  match s.vBytes (clusterOf c.core) c.vf c.priv none ((List.range n).map fun i => ((va + i : Nat) : Int)) with
  | (s, .ok l) => (s, .ok (ofLanes 8 l))
  | (s, .error e) => (s, .error (e.1 - 2, e.2))
/-- Words of given bytes at given places in turn, up to the first that cannot be read: those read, and what stopped it. -/
def gReads (c : Cmd) : State → List (Nat × Nat) → State × List Nat × Option (Nat × Nat)
  | s, [] => (s, [], none)
  | s, (va, n) :: r => match gRead c s va n with
    | (s, .error e) => (s, [], some e)
    | (s, .ok v) => let p := gReads c s r; (p.1, v :: p.2.1, p.2.2)
/-- The places of a list of words of n bytes from va on. -/
def wordsAt (va n cnt : Nat) : List (Nat × Nat) := (List.range cnt).map fun i => (va + n * i, n)
/-- A list of words of n bytes from va on. -/
def gWords (c : Cmd) (s : State) (va n cnt : Nat) : GRes (List Nat) :=
  match gReads c s (wordsAt va n cnt) with
  | (s, l, none) => (s, .ok l)
  | (s, _, some e) => (s, .error e)
/-- Writing n bytes, page by page; those of the pages before a fault stay written. -/
def gWrite (c : Cmd) (s : State) (va n v : Nat) : GRes Unit :=
  let go (r : GRes Unit) (p : Nat) : GRes Unit :=
    let o := (va / 4096 + p) * 4096 - va
    let m := min n ((va / 4096 + p + 1) * 4096 - va) - o
    match r with
    | (s, .ok _) =>
      match s.vWrite (clusterOf c.core) c.vf c.priv none (c.core, c.ctx)
          ((List.range m).map fun i => (((va + o + i : Nat) : Int), lane 8 v (o + i))) with
      | (s, .ok _) => (s, .ok ())
      | (s, .error e) => (s, .error (e.1 - 2, e.2))
    | r => r
  (List.range ((va + n - 1) / 4096 - va / 4096 + 1)).foldl go (s, .ok ())
/-- One after the other. -/
def gBind {α β : Type} (r : GRes α) (f : State → α → GRes β) : GRes β :=
  match r with
  | (s, .ok a) => f s a
  | (s, .error e) => (s, .error e)

def Cmd.bf (c : Cmd) (o n : Nat) : Nat := c.fld o n

/-! ### Binary32 as the sampler computes it (R406) -/

def f32v (x : Nat) : FV := fmtF32.dec x
def rnd32 (v : FV) : Nat := (fmtF32.round .arith false 0 v).bits
def negInf : Nat := 0xFF800000
def posInf : Nat := 0x7F800000
/-- A step's result: a NaN becomes minus infinity and counts (R406). -/
def anc (v : FV) : Nat × Nat := if v.isNan then (negInf, 1) else (rnd32 v, 0)
/-- A quotient, exact enough for one rounding. -/
def divF (a b : FV) : FV :=
  match a, b with
  | .nan, _ => .nan
  | _, .nan => .nan
  | .inf _, .inf _ => .nan
  | .inf n, .fin m _ _ => .inf (n != m)
  | .fin n _ _, .inf m => .fin (n != m) 0 0
  | .fin n x e, .fin m y f =>
    if y = 0 then (if x = 0 then .nan else .inf (n != m))
    else .fin (n != m) (2 * (x <<< 80 / y) + b2n (x <<< 80 % y != 0)) (e - f - 81)
def exp32 (x : Nat) : Nat :=
  match f32v x with
  | .inf n => if n then 0 else posInf
  | v => rnd32 (pickNear fmtF32 2 none (expV v) (Config.specialPick 32 10 x))
def ln32 (x : Nat) : Nat :=
  match lnV (f32v x) with
  | .fin n m e => rnd32 (pickNear fmtF32 2 none (.fin n m e) (Config.specialPick 33 10 x))
  | v => rnd32 v
def add32 (a b : Nat) : Nat := rnd32 ((f32v a).plus (f32v b))
def sub32 (a b : Nat) : Nat := rnd32 ((f32v a).plus (f32v b).neg)
def mul32 (a b : Nat) : Nat := rnd32 ((f32v a).times (f32v b))
def lt32 (a b : Nat) : Bool := (f32v a).lt (f32v b)
def eq32 (a b : Nat) : Bool := (f32v a).eq (f32v b)

/-- SplitMix64 (R407). -/
def splitMix (x : Nat) : Nat :=
  let m (v : Nat) : Nat := v % 2 ^ 64
  let z := m (x + 0x9E3779B97F4A7C15)
  let z := m ((z ^^^ (z >>> 30)) * 0xBF58476D1CE4E5B9)
  let z := m ((z ^^^ (z >>> 27)) * 0x94D049BB133111EB)
  z ^^^ (z >>> 31)

/-! ### Candidates and selection (R407) -/

/-- A candidate: its rank key (d, or z in a shard), global index, w and lp. -/
structure Cand where
  d : Nat
  t : Nat
  w : Nat := 0
  lp : Nat := 0
  deriving DecidableEq, Repr

/-- Rank order: d descending, then global index ascending. -/
def Cand.first (a b : Cand) : Bool := lt32 b.d a.d || (eq32 a.d b.d && decide (a.t < b.t))
/-- Insertion in rank order. -/
def rankIns (a : Cand) : List Cand → List Cand
  | [] => [a]
  | b :: l => if a.first b then a :: b :: l else b :: rankIns a l
/-- The first n of a list in rank order. -/
def topN (n : Nat) (l : List Cand) : List Cand := l.foldl (fun acc a => (rankIns a acc).take n) []
/-- Insertion by global index. -/
def idxIns (a : Cand) : List Cand → List Cand
  | [] => [a]
  | b :: l => if a.t < b.t then a :: b :: l else b :: idxIns a l
/-- The fl32 sum in order. -/
def sumW (l : List Cand) : Nat := l.foldl (fun a c => add32 a c.w) 0
/-- The shortest prefix whose running sum reaches a threshold. -/
def reach (thr : Nat) : Nat → List Cand → List Cand
  | _, [] => []
  | r, a :: l => let r' := add32 r a.w; if lt32 r' thr then a :: reach thr r' l else [a]
/-- The first whose running sum passes a threshold, or the last. -/
def passes (thr : Nat) : Nat → List Cand → Option Cand
  | _, [] => none
  | r, a :: l => let r' := add32 r a.w; if l.isEmpty || lt32 thr r' then some a else passes thr r' l

/-! ### Stage chains (R405) -/

/-- n bytes of a 64-byte stage block. -/
def stF (b o n : Nat) : Nat := bitsAt b (8 * o) (8 * n)
def stKind (b : Nat) : Nat := b % 256
def stage (l : List Nat) (k : Nat) : Option Nat := l.find? fun b => stKind b == k
/-- Bits a block of a kind uses. -/
def stUsed (k : Nat) : Nat :=
  255 + (if k = 1 then onesAt 32 32 else if k = 2 then onesAt 32 96 else if k = 3 then 2 ^ 8
    else if k = 4 then 2 ^ 8 + onesAt 32 224 else if k = 5 then onesAt 32 8 + onesAt 64 64 else 2 ^ 8 + onesAt 32 8)
def isPow2 (n : Nat) : Bool := n != 0 && n == 2 ^ Nat.log2 n
/-- The breach of a chain, as the set of SUB codes it meets (R417); of one that could not be read to its end, what the blocks read
show. -/
def chainBad (l : List Nat) (whole : Bool) : List Nat :=
  let kinds := l.map stKind
  let fin (x : Nat) : Bool := !(f32v x).odd
  let one := 0x3F800000
  (if l.any fun b => b &&& (2 ^ 512 - 1 - stUsed (stKind b)) != 0 && decide (1 ≤ stKind b) && decide (stKind b ≤ 6) then [1] else []) ++
  (if l.any fun b =>
      let k := stKind b
      (k == 2 && decide (4096 < stF b 4 4)) ||
      (k == 4 && (decide (4096 < stF b 12 4) || decide (stF b 28 4 < stF b 12 4) || !isPow2 (stF b 28 4) || decide (65536 < stF b 28 4))) ||
      (k == 5 && decide (64 < stF b 4 1)) || (k == 6 && decide (16 < stF b 4 1))
    then [3] else []) ++
  (if l.any fun b => (stKind b == 2 && stF b 8 8 % 8 != 0) || (stKind b == 4 && stF b 16 8 % 4 != 0) then [4] else []) ++
  (if kinds.any (fun k => k == 0 || decide (6 < k)) || (whole && kinds.getLastD 0 != 6) ||
      (List.range (kinds.length - 1)).any (fun i => decide (kinds.getD (i + 1) 0 ≤ kinds.getD i 0)) then [5] else []) ++
  (if l.any fun b =>
      let k := stKind b
      (k == 1 && (bitsAt b 63 1 == 1 || bitsAt b 55 8 == 0 || bitsAt b 55 8 == 255)) ||
      (k == 4 && (!fin (stF b 4 4) || lt32 (stF b 4 4) one || !fin (stF b 8 4))) ||
      (k == 5 && (!(lt32 0 (stF b 8 4) && !lt32 one (stF b 8 4) && fin (stF b 8 4)) ||
        !(!lt32 (stF b 12 4) 0 && lt32 (stF b 12 4) one && fin (stF b 12 4))))
    then [6] else [])

/-! ### Ill-formed commands (R417) -/

/-- Counts of a commit record, read at the start of `cm.emit`. -/
def ncomOf (r : Nat) : Nat := r % 2 ^ 32

/-- Bits of the block that a function uses. -/
def Cmd.gUsed (c : Cmd) : Nat :=
  if c.eng = 3 then
    onesAt 0 (8 * 40) + onesAt 320 20 + onesAt 352 32 + onesAt 384 64 + onesAt 448 32 + onesAt 480 32 + onesAt 512 48 + onesAt 576 8 +
    (if c.fn = 3 then onesAt 584 8 else 0) + (if c.fn = 2 then onesAt 608 32 else 0) + (if c.fn = 1 then 0 else onesAt 640 32)
  else if c.eng = 4 then onesAt 0 52 + onesAt 64 32 + onesAt 96 16 + onesAt 112 16 + onesAt 128 5
  else if c.fn = 1 then onesAt 0 192 + onesAt 192 32 + onesAt 256 64 + onesAt 320 16 + onesAt 336 7
  else if c.fn = 2 then onesAt 0 288 + onesAt 320 128 + onesAt 448 20
  else onesAt 0 64 + onesAt 64 16 + onesAt 80 7

/-- The checks of R417 on the block and what was read with it: the set of codes met. -/
def gBadBlock (s : State) (c : Cmd) (lst : List Nat) : List Nat :=
  let f := c.bf
  let e := c.eng
  let out (v lo hi : Nat) : Bool := decide (v < lo) || decide (hi < v)
  let arr (o : Nat) : Bool := bitAt (f o 1) 6 && decide (47 < f o 1 % 64)
  let cores := if e = 5 ∧ c.fn = 1 ∨ e = 5 ∧ c.fn = 3 then lst.map fun w => w % 128 else []
  let r := (s.ctx c.core c.ctx).ring (f 16 1 % 32)
  let ring := e == 4 && (!r.bound || r.held != 0 || r.res != r.fil)
  (if c.blk.toNat &&& (2 ^ 1024 - 1 - c.gUsed) ≠ 0 ∨ c.cb.toNat / 4 ≠ 0 ∨
      (e = 5 ∧ c.fn = 1 ∧ lst.any fun w => w / 2 ^ 10 != 0) ∨
      (e = 5 ∧ c.fn = 3 ∧ lst.any fun w => bitsAt w 10 6 != 0 || bitsAt w 22 2 != 0 || bitsAt w 27 5 != 0 || bitsAt w 48 16 != 0 ||
        bitsAt w 160 96 != 0) then [1] else []) ++
  (if c.cb.toNat % 4 = 1 then [2] else []) ++
  (if (e = 3 ∧ (out (f 56 4) 1 65535 || out (f 72 1) 1 6 || out (f 44 4) 1 (2 ^ 24) ||
        (c.fn == 3 && out (f 73 1) 1 16) || (c.fn != 1 && out (f 80 4) 1 (2 ^ 24)) || (c.fn == 2 && decide (2 ^ 24 < f 76 4 + f 44 4)))) ∨
      (e = 4 ∧ (out (f 8 4) 1 65535 || out (f 14 2) 1 256)) ∨
      (e = 5 ∧ c.fn = 1 ∧ (out (f 24 4) 1 65535 || out (f 40 2) 0 128 || arr 42)) ∨
      (e = 5 ∧ c.fn = 2 ∧ (!isPow2 (f 32 4) || out (f 32 4) 1 (2 ^ 20) || decide (65535 < ncomOf (lst.headD 0)))) ∨
      (e = 5 ∧ c.fn = 3 ∧ (out (f 8 2) 1 512 || arr 10)) then [3] else []) ++
  (if (e = 3 ∧ ((c.fn != 3 && f 0 8 % 128 != 0) || f 8 8 % 32 != 0 || f 16 8 % 128 != 0 || f 24 8 % 64 != 0 ||
        f 64 8 % 128 != 0)) ∨
      (e = 4 ∧ f 0 8 % 32 ≠ 0) ∨ (e = 5 ∧ c.fn = 1 ∧ f 16 8 % 128 ≠ 0) ∨
      (e = 5 ∧ c.fn = 2 ∧ (f 16 8 % 16 != 0 || f 24 8 % 128 != 0 || f 40 8 % 8 != 0)) then [4] else []) ++
  (if e = 5 ∧ c.fn = 3 ∧ lst.any fun w => bitsAt w 25 2 == 3 then [6] else []) ++
  (if cores.any fun k => !s.coreOk k then [8] else []) ++
  (if ring then [9] else []) ++
  (if (e = 4 ∧ 256 < f 12 2 + f 14 2) ∨ (e = 3 ∧ f 64 8 % 2 ^ 48 < 4 * f 44 4) then [10] else [])

/-- In the SEALED state every block of a chain lies in an installed stage image; the address of the first that does not
(R454). -/
def chainOut (s : State) (c : Cmd) : State × Option Nat :=
  if s.reg rSecSts % 4 ≠ 2 then (s, none)
  else (List.range (if c.bf 72 1 ≤ 6 then max 1 (c.bf 72 1) else 1)).foldl (fun (p : State × Option Nat) i =>
    match p.2 with
    | some a => (p.1, some a)
    | none =>
      let va := c.bf 24 8 + 64 * i
      let inside (pa : Nat) : Bool := p.1.images.any fun m => m.kind == 3 && decide (m.base ≤ pa) && decide (pa + 64 ≤ m.base + m.len)
      match p.1.xlNow (clusterOf c.core) c.vf (va52 va) false c.priv with
      | (t, .ok tgt _ pa) => (t, if tgt = 0 ∧ inside pa then none else some va)
      | (t, _) => (t, some va)) (s, none)

/-- The places a command reads with its block when it starts: the chain, the context list, the commit record's first bytes or the
trim list.  Counts out of range are not followed. -/
def Cmd.gPlaces (c : Cmd) : List (Nat × Nat) :=
  let f := c.bf
  if c.eng = 3 then wordsAt (f 24 8) 64 (if f 72 1 ≤ 6 then f 72 1 else 0)
  else if c.eng = 4 then []
  else if c.fn = 1 then wordsAt (f 32 8) 2 (if f 40 2 ≤ 128 then f 40 2 else 0)
  else if c.fn = 2 then [(f 0 8, 64), (f 40 8, 8), (f 48 8, 8)]
  else wordsAt (f 0 8) 32 (if f 8 2 ≤ 512 then f 8 2 else 0)
/-- What it reads there, up to the first place that it cannot read. -/
def gLists (s : State) (c : Cmd) : State × List Nat × Option (Nat × Nat) :=
  match if c.eng = 3 then chainOut s c else (s, none) with
  | (s, some a) => (s, [], some (2, a))
  | (s, none) => gReads c s c.gPlaces

/-- The lowest of a set of codes, 0 for none. -/
def lowCode (l : List Nat) : Nat := (List.range 11).find? (fun n => l.contains n) |>.getD 0
/-- The lowest code met in the block and what was read with it, all of it or not; 0 for none. -/
def gBad (s : State) (c : Cmd) (lst : List Nat) (whole : Bool) : Nat :=
  lowCode (gBadBlock s c lst ++ (if c.eng = 3 then chainBad lst whole ++
    (if c.fn = 3 ∧ (stage lst 6).any (fun b => bitAt b 8) ∧ stage lst 5 = none then [7] else []) else []))

/-! ### Sampling (R406 to R411) -/

/-- z after the stages, the NaN count, and 1 for a request that ends MASKMISS. -/
structure ZSt where
  z : List Nat
  nanc : Nat := 0
  miss : Bool := false
  deriving DecidableEq, Repr

/-- One step at one token. -/
def ZSt.at' (q : ZSt) (t : Nat) (g : FV → FV) : ZSt :=
  match q.z[t]? with
  | none => q
  | some x => let r := anc (g (f32v x)); { q with z := setAt q.z t r.1, nanc := q.nanc + r.2 }
/-- One step at every token. -/
def ZSt.all (q : ZSt) (g : FV → FV) : ZSt :=
  let l := q.z.map fun x => anc (g (f32v x))
  { q with z := l.map (·.1), nanc := l.foldl (fun n r => n + r.2) q.nanc }

/-- The walker entry of request k. -/
def entryOf (c : Cmd) (s : State) (k : Nat) : GRes Nat := gRead c s (c.bf 8 8 + 32 * k) 32
def enPos (e : Nat) : Nat := bitsAt e 32 16
def enPpos (e : Nat) : Nat := bitsAt e 48 16
def enTok (e : Nat) : Nat := bitsAt e 64 32
def enDepth (e : Nat) : Nat := bitsAt e 96 16
def enMv (e : Nat) : Bool := bitAt e 112
def enBr (e : Nat) : Bool := bitAt e 113
def enLeaf (e : Nat) : Bool := bitAt e 114
def enValid (e : Nat) : Bool := bitAt e 115
def enCk (e : Nat) : Nat := bitsAt e 120 4
def enMask (e : Nat) : Nat := bitsAt e 192 64

/-- Drafted tokens on the path from the root, exclusive, to a node, through the entries' parent positions (R406). -/
def ancestors (es : List Nat) : Nat → Nat → List Nat
  | 0, _ => []
  | n + 1, e =>
    if enPpos e = 0xFFFF then []
    else enTok e :: (match es.find? fun x => enValid x && enPos x == enPpos e with
      | some p => ancestors es n p
      | none => [])

/-- The stages before the selection, for a vocabulary of nv tokens whose token 0 has global index goff (R406). -/
def stages (c : Cmd) (s : State) (chain : List Nat) (e k goff nv : Nat) : GRes ZSt :=
  let f := c.bf
  gBind (gWords c s (f 0 8 + k * (f 64 8 % 2 ^ 48)) 4 nv) fun s ls =>
  let q : ZSt := ZSt.all { z := ls } id
  let q := match stage chain 1 with | some b => q.all fun z => divF z (f32v (stF b 4 4)) | none => q
  gBind (match stage chain 2 with
    | some b => gBind (gWords c s (stF b 8 8) 8 (stF b 4 4)) fun s ps =>
        (s, .ok (ps.foldl (fun (q : ZSt) p =>
          let t := p % 2 ^ 32
          if t < goff then q else q.at' (t - goff) fun z => z.plus (f32v (p / 2 ^ 32))) q))
    | none => (s, .ok q)) fun s q =>
  gBind (match stage chain 3 with
    | some b =>
      if !enMv e then (s, .ok { q with miss := bitAt b 8 })
      else gBind (gWords c s (enMask e + goff / 8) 1 ((goff % 8 + nv + 7) / 8)) fun s ms =>
        let keep (t : Nat) : Bool := bitAt (ms.getD ((goff % 8 + t) / 8) 0) ((goff + t) % 8)
        (s, .ok { q with z := (List.range q.z.length).map fun t => if keep t then q.z.getD t 0 else negInf })
    | none => (s, .ok q)) fun s q =>
  if q.miss then (s, .ok q)
  else match stage chain 4 with
    | none => (s, .ok q)
    | some b =>
      let w := stF b 12 4
      let hn := stF b 28 4
      let ring := (List.range w).map fun (i : Nat) => wrap 64 ((stF b 24 4 : Int) - (w : Int) + (i : Int)) % hn
      gBind (ring.foldl (fun (p : GRes (List Nat)) i => gBind p fun s l =>
        gBind (gRead c s (stF b 16 8 + 4 * i) 4) fun s t => (s, .ok (t :: l))) (s, .ok [])) fun s hist =>
      gBind (if bitAt b 8 then
          gBind (gWords c s (f 8 8) 32 (f 56 4)) fun s es => (s, .ok (ancestors es (f 56 4) e))
        else (s, .ok [])) fun s path =>
      (s, .ok ((hist ++ path).eraseDups.foldl (fun (q : ZSt) t =>
        if t < goff then q
        else
          let q := q.at' (t - goff) fun z =>
            if (FV.fin false 0 0).lt z then divF z (f32v (stF b 4 4)) else z.times (f32v (stF b 4 4))
          q.at' (t - goff) fun z => z.plus (f32v (stF b 8 4)).neg) q))

/-- The largest z. -/
def maxZ (l : List Nat) : Nat := l.foldl (fun m z => if lt32 m z then z else m) negInf
/-- d[t] from z and m (R406). -/
def dOf (m z : Nat) : Nat := if m = posInf then (if z = posInf then 0 else negInf) else sub32 z m

/-- Candidates of a vocabulary with d, w and lp. -/
def candsOf (zs : List (Nat × Nat)) (m S : Nat) : List Cand :=
  let L := ln32 S
  zs.map fun p => let d := dOf m p.1; { d := d, t := p.2, w := exp32 d, lp := sub32 d L }

/-- The result slot of a request (Table 17-8): flags RV 1, MASKMISS 2, EMPTY 4, SKIP 8. -/
def slotOf (tok lp nanc flags pos : Nat) (marg : List Cand) : Nat :=
  tok % 2 ^ 32 + lp * 2 ^ 32 + min nanc (2 ^ 32 - 1) * 2 ^ 64 + flags * 2 ^ 96 + marg.length * 2 ^ 104 + pos % 2 ^ 64 * 2 ^ 128 +
  ofLanes 64 (marg.map fun c => c.t + c.lp * 2 ^ 32) * 2 ^ 256

/-- Selection over the candidates with their d, w, lp (R407): the slot. -/
def selectSlot (s : State) (c : Cmd) (chain : List Nat) (cs : List Cand) (k pos nanc : Nat) : Nat :=
  let sel := (stage chain 6).getD 0
  let live := cs.filter fun a => a.d != negInf
  let C := match stage chain 5 with
    | some b =>
      let topk := if stF b 4 1 = 0 then 64 else stF b 4 1
      let l := ((topN 64 live).take topk).filter fun a => !lt32 a.w (stF b 12 4)
      reach (mul32 (stF b 8 4) (sumW l)) 0 l
    | none => cs.filter fun a => lt32 0 a.w
  let pick := if bitAt sel 8 then
      let l := C.foldl (fun acc a => idxIns a acc) []
      let x := c.bf 32 8 ^^^ ((c.bf 40 4 % 2 ^ 20) <<< 32) ^^^ pos % 2 ^ 64 ^^^ (c.bf 60 4 + k) % 2 ^ 32
      let u := rnd32 (.fin false (splitMix x >>> 40) (-24))
      passes (mul32 u (sumW l)) 0 l
    else (topN 1 C).head?
  let marg := topN (stF sel 4 1) live
  let p := pick.getD { d := 0, t := s.free 870000 % 2 ^ 24, lp := s.free 870001 % 2 ^ 32 }
  slotOf p.t p.lp nanc 1 pos marg

/-- P of a request (R408). -/
def reqPos (c : Cmd) (e : Nat) : Nat := (c.bf 48 8 + enDepth e + 1) % 2 ^ 64

/-- Request k of `smp.run`: the result slot. -/
def runReq (c : Cmd) (s : State) (chain : List Nat) (k : Nat) : GRes Nat :=
  gBind (entryOf c s k) fun s e =>
  if !enValid e then (s, .ok (slotOf 0 0 0 8 0 []))
  else gBind (stages c s chain e k 0 (c.bf 44 4)) fun s q =>
    let pos := reqPos c e
    if q.miss then (s, .ok (slotOf 0 0 q.nanc 2 pos []))
    else
      let m := maxZ q.z
      if m = negInf then (s, .ok (slotOf 0 0 q.nanc 4 pos []))
      else
        let ws := q.z.map fun z => exp32 (dOf m z)
        let S := ws.foldl add32 0
        (s, .ok (selectSlot s c chain (candsOf (q.z.zip (List.range q.z.length)) m S) k pos q.nanc))

/-- Request k of `smp.shard`: the shard record (R409); what a record without candidates would hold in MAXZ and SUMW is
open. -/
def shardReq (c : Cmd) (s : State) (chain : List Nat) (k : Nat) : GRes Nat :=
  let rec_ (mx sw nanc flags : Nat) (cs : List Cand) : Nat :=
    mx + sw * 2 ^ 32 + min nanc (2 ^ 32 - 1) * 2 ^ 64 + cs.length * 2 ^ 96 + flags * 2 ^ 128 +
    ofLanes 64 (cs.map fun a => a.d + a.t * 2 ^ 32) * 2 ^ 512
  gBind (entryOf c s k) fun s e =>
  if !enValid e then (s, .ok (rec_ 0 0 0 8 []))
  else gBind (stages c s chain e k (c.bf 76 4) (c.bf 44 4)) fun s q =>
    let open1 := s.free 870002 % 2 ^ 32
    let open2 := s.free 870003 % 2 ^ 32
    if q.miss then (s, .ok (rec_ open1 open2 q.nanc 3 []))
    else
      let m := maxZ q.z
      if m = negInf then (s, .ok (rec_ negInf open2 q.nanc 5 []))
      else
        let S := (q.z.map fun z => exp32 (dOf m z)).foldl add32 0
        let cs := (q.z.zip (List.range q.z.length)).filterMap fun p =>
          if p.1 = negInf then none else some ({ d := p.1, t := c.bf 76 4 + p.2 } : Cand)
        (s, .ok (rec_ m S q.nanc 1 (topN 64 cs)))

/-- Request k of `smp.merge` (R410). -/
def mergeReq (c : Cmd) (s : State) (chain : List Nat) (k : Nat) : GRes Nat :=
  gBind (entryOf c s k) fun s e =>
  if !enValid e then (s, .ok (slotOf 0 0 0 8 0 []))
  else gBind (gWords c s (c.bf 0 8) 8 (c.bf 73 1)) fun s bases =>
  gBind (bases.foldl (fun (p : GRes (List Nat)) b => gBind p fun s l =>
    gBind (gRead c s (b + 640 * k) 640) fun s r => (s, .ok (l ++ [r]))) (s, .ok [])) fun s rs =>
    let pos := reqPos c e
    let nanc := rs.foldl (fun n r => n + bitsAt r 64 32) 0
    if rs.any fun r => bitAt r 129 then (s, .ok (slotOf 0 0 nanc 2 pos []))
    else
      let live := rs.filter fun r => !bitAt r 130 && bitAt r 128
      if live = [] then (s, .ok (slotOf 0 0 nanc 4 pos []))
      else
        let m := maxZ (live.map fun r => r % 2 ^ 32)
        let zs := live.flatMap fun r => (List.range (min (bitsAt r 96 32) 64)).map fun i =>
          (bitsAt r (512 + 64 * i) 32, bitsAt r (544 + 64 * i) 32)
        let S := if m = posInf then rnd32 (ofInt ((zs.filter fun p => p.1 == posInf).length : Nat) 0 false)
          else live.foldl (fun a r => add32 a (mul32 (bitsAt r 32 32) (exp32 (sub32 (r % 2 ^ 32) m)))) 0
        (s, .ok (selectSlot s c chain (candsOf zs m S) k pos nanc))

/-- One request of a sampler command, its result written. -/
def smpUnit (s : State) (c : Cmd) : State × Cmd :=
  let k := c.prog
  let sz := if c.fn = 2 then 640 else 256
  let r := gBind (if c.fn = 1 then runReq c s c.list k else if c.fn = 2 then shardReq c s c.list k else mergeReq c s c.list k)
    fun s v => gWrite c s (c.bf 16 8 + sz * k) sz v
  match r with
  | (s, .ok _) => (s, { c with prog := k + 1, dlv := c.dlv + 1 })
  | (s, .error e) => (s, { c with status := e.1, addr := e.2, idx := k, drop := 1 })

/-! ### The node walker (R402 to R404) -/

/-- The walk: next position, BR nodes so far, the nodes reached, the queue of (node, parent's position, record). -/
structure Walker where
  pos : Nat := 0
  br : Nat := 0
  seen : List Nat := []
  q : List (Nat × Nat × Nat) := []
  deriving DecidableEq, Repr

/-- How the command holds the walk between rows. -/
def Walker.save (w : Walker) : List Nat :=
  [w.pos, w.br, w.seen.length] ++ w.seen ++ w.q.flatMap fun p => [p.1, p.2.1, p.2.2]
def triples : Nat → List Nat → List (Nat × Nat × Nat)
  | 0, _ => []
  | n + 1, l => match l with
    | a :: b :: c :: r => (a, b, c) :: triples n r
    | _ => []
def Walker.load (l : List Nat) : Walker :=
  let n := l.getD 2 0
  { pos := l.getD 0 0, br := l.getD 1 0, seen := (l.drop 3).take n, q := triples l.length (l.drop (3 + n)) }

def ndParent (r : Nat) : Nat := bitsAt r 32 32
def ndFchild (r : Nat) : Nat := bitsAt r 64 32
def ndNsib (r : Nat) : Nat := bitsAt r 96 32
def ndDepth (r : Nat) : Nat := bitsAt r 160 16
def ndBr (r : Nat) : Bool := bitAt r 177

/-- A breach of Table 17-3 in a record, lowest code first; 0 for none. -/
def nodeBad (nmax : Nat) (r : Nat) (root : Bool) (parent depth : Nat) (again : Bool) : Nat :=
  if nmax ≤ ndFchild r ∨ nmax ≤ ndNsib r then 1
  else if root ∧ (ndParent r ≠ 0xFFFFFFFF ∨ ndDepth r ≠ 0) then 2
  else if !root ∧ (ndParent r ≠ parent ∨ ndDepth r ≠ depth + 1) then 3
  else if again then 4
  else if bitsAt r 24 8 ≠ 0 ∨ bitsAt r 178 14 ≠ 0 ∨ bitsAt r 192 7 ≠ 0 ∨ bitsAt r 244 12 ≠ 0 then 6 else 0

/-- Reading a node: its record, or the status, SUB and address. -/
def readNode (s : State) (c : Cmd) (n : Nat) (root : Bool) (parent depth : Nat) (again : Bool) :
    State × Except (Nat × Nat × Nat) Nat :=
  match gRead c s (c.bf 0 8 + 32 * n) 32 with
  | (s, .error e) => (s, .error (e.1, 0, e.2))
  | (s, .ok r) =>
    let b := nodeBad (c.bf 8 4) r root parent depth again
    (s, if b = 0 then .ok r else .error (4, b, c.bf 0 8 + 32 * n))

/-- Appending a node's children in sibling order; the first argument bounds their number. -/
def addKids (c : Cmd) (x parentPos depth : Nat) : Nat → State → Nat → Walker → State × Except (Nat × Nat × Nat) Walker
  | 0, s, _, w => (s, .ok w)
  | f + 1, s, n, w =>
    if n = 0 then (s, .ok w)
    else match readNode s c n false x depth (w.seen.contains n) with
      | (s, .error e) => (s, .error e)
      | (s, .ok r) => addKids c x parentPos depth f s (ndNsib r) { w with seen := w.seen ++ [n], q := w.q ++ [(n, parentPos, r)] }

/-- END of a walk. -/
def Cmd.nwEnd (c : Cmd) : Nat := 256 * (c.bf 12 2 + c.bf 14 2)

/-- A walker entry (Table 17-5). -/
def entryWord (n pos ppos r ck : Nat) : Nat :=
  n + pos * 2 ^ 32 + ppos * 2 ^ 48 + r % 2 ^ 32 * 2 ^ 64 + ndDepth r * 2 ^ 96 +
  (bitsAt r 176 1 + b2n (ndBr r) * 2 + b2n (ndFchild r == 0) * 4 + 8) * 2 ^ 112 + ck * 2 ^ 120 + bitsAt r 128 32 * 2 ^ 128 +
  bitsAt r 192 64 * 2 ^ 192

/-- Up to n positions: their entries; a breach or fault comes with the position being worked on. -/
def walkSome (c : Cmd) : Nat → State → Walker → State × Except ((Nat × Nat × Nat) × Nat) (List Nat × Walker)
  | 0, s, w => (s, .ok ([], w))
  | f + 1, s, w =>
    match w.q with
    | [] => (s, .ok ([], w))
    | (n, pp, r) :: q =>
      if 65535 ≤ w.pos then (s, .error ((4, 4, 0), w.pos))
      else if ndBr r ∧ 16 ≤ w.br then (s, .error ((4, 5, 0), w.pos))
      else
        let e := entryWord n w.pos pp r (if ndBr r then w.br else 0)
        let w1 : Walker := { w with pos := w.pos + 1, br := w.br + b2n (ndBr r), q := q }
        let k := if w1.pos < c.nwEnd then addKids c n w.pos (ndDepth r) (c.bf 8 4) s (ndFchild r) w1 else (s, .ok w1)
        match k with
        | (s, .error x) => (s, .error (x, w.pos))
        | (s, .ok w2) => match walkSome c f s w2 with
          | (s, .error x) => (s, .error x)
          | (s, .ok (l, w3)) => (s, .ok (e :: l, w3))

/-- One row of the walk: four positions, in the ring once the first pass is reached. -/
def nwUnit (s : State) (c : Cmd) : State × Cmd :=
  let h := c.bf 16 1 % 32
  let r := (s.ctx c.core c.ctx).ring h
  let q := c.prog
  let emit := decide (64 * c.bf 12 2 ≤ q)
  let fill (s : State) (v kind : Nat) : State :=
    let r := (s.ctx c.core c.ctx).ring h
    let i := r.slotAt r.res 0
    ringProduced ((s.storeRow c.core (r.base + i) rowMask (row v)).modCtx c.core c.ctx fun x =>
      x.setRing h (Ring.land { r with res := r.res + 1 } i kind)) c.core c.ctx h false
  if r.freeSlots = 0 then (s, c)
  else
    let w := Walker.load c.list
    let start : State × Except (Nat × Nat × Nat) Walker := if q = 0 then match readNode s c 0 true 0 0 false with
        | (s, .error e) => (s, .error e)
        | (s, .ok rec_) => (s, .ok ({ seen := [0], q := [(0, 0xFFFF, rec_)] } : Walker))
      else (s, .ok w)
    let res : State × Except ((Nat × Nat × Nat) × Nat) (List Nat × Walker) := match start with
      | (s, .error e) => (s, .error (e, 0))
      | (s, .ok w) => walkSome c 4 s w
    match res with
    | (s, .error (e, p)) =>
      let s := if e.1 = 4 then s else fill s 0 (e.1 - 1)
      (s, { c with status := e.1, sub := e.2.1, addr := e.2.2, idx := p, drop := 1 })
    | (s, .ok (l, w)) =>
      let c' := { c with prog := q + 1, list := w.save, decl := b2n w.q.isEmpty }
      if l = [] then (s, c')
      else if emit then (fill s (ofLanes 256 l) 0, { c' with dlv := c.dlv + 1 })
      else (s, c')

/-! ### Commit (R412, R413) -/

/-- The walk of R412 from position x: the accepted positions. -/
def acceptPath (es rs : List Nat) : Nat → Nat → List Nat
  | 0, _ => []
  | f + 1, x =>
    let r := rs.getD x 0
    if !bitAt r 96 then []
    else match (List.range es.length).find? fun k =>
        let e := es.getD k 0
        enValid e && enPpos e == x && enTok e == r % 2 ^ 32 with
      | some k => k :: acceptPath es rs f k
      | none => []

/-- A restore of the commit engine (R412): a command of the target's bindery, linked back by `se`. -/
def restoreCmd (s : State) (c : Cmd) (w ck : Nat) : Cmd :=
  let k := w % 128
  let j := bitsAt w 7 3
  { core := k, ctx := j, opn := 0, fn := 10, ca := BitVec.ofNat 64 (ck <<< 36), cb := 0, rot := true, eng := 1, at_ := s.now,
    key := s.nextKey, bank := (s.ctx k j).act, se := c.key + 1 }

/-- The parts of `cm.acc`: reading, walking and issuing the restores; then, once they have completed, the record. -/
def accUnit (s : State) (c : Cmd) : State × Cmd :=
  let n := c.bf 24 4
  let stop (s : State) (e : Nat × Nat) (i : Nat) : State × Cmd :=
    (s, { c with status := e.1, sub := 0, addr := e.2, idx := i, drop := 1, list := [], decl := 0 })
  if c.prog = 0 then
    match gWords c s (c.bf 0 8) 32 n with
    | (s, .error e) => stop s e ((e.2 - c.bf 0 8) / 32)
    | (s, .ok es) => match gWords c s (c.bf 8 8) 256 n with
    | (s, .error e) => stop s e ((e.2 - c.bf 8 8) / 256)
    | (s, .ok rs) =>
      let A := acceptPath es rs n 0
      let x := A.getLastD 0
      let rx := rs.getD x 0
      let fin := bitAt rx 96
      let toks := (A.map fun k => (enTok (es.getD k 0), enPpos (es.getD k 0))) ++ (if fin then [(rx % 2 ^ 32, x)] else [])
      let b := ((0 :: A).filter fun k => enBr (es.getD k 0)).getLast?
      let dx := enDepth (es.getD x 0)
      let ck := match b with | some k => enCk (es.getD k 0) | none => 0
      let replay := match b with | some k => dx - enDepth (es.getD k 0) | none => dx + 1
      let leaf := enLeaf (es.getD x 0)
      let flags := (if fin then (if leaf then 1 else 2) else (bitsAt rx 97 2) * 4) + b2n b.isNone * 16
      let r := toks.length + A.length * 2 ^ 32 + x * 2 ^ 64 + (b.getD 0xFFFF) * 2 ^ 80 + flags * 2 ^ 96 + ck * 2 ^ 104 +
        replay % 2 ^ 16 * 2 ^ 112 + bitsAt (rs.headD 0) 128 64 * 2 ^ 128 +
        ofLanes 64 (toks.map fun t => t.1 % 2 ^ 24 + t.2 * 2 ^ 32) * 2 ^ 512
      let ctxs := if b.isSome then c.list else []
      let s := ctxs.foldl (fun s w =>
        let q := clusterOf (w % 128)
        let s1 := s.setCluster q { s.cluster q with bind := (s.cluster q).bind ++ [restoreCmd s c w ck] }
        { s1 with nextKey := s.nextKey + 1 }) s
      let st := if fin then 0 else if bitAt rx 97 then 6 else if bitAt rx 98 then 7 else 0
      (s, { c with prog := 1, decl := ctxs.length, de := r, idx := toks.length, status := st })
  else if c.decl ≠ 0 then (s, c)
  else
    match gWrite c s (c.bf 16 8) (64 + 8 * c.idx) (c.de + (if c.sub = 1 then 2 ^ 101 else 0)) with
    | (s, .error e) => stop s e ((e.2 - c.bf 16 8 - 64) / 8)
    | (s, .ok _) =>
      let a := c.bf 42 1
      let s := if bitAt a 6 then (c.list.map (· % 128)).eraseDups.foldl (fun s k => s.nbAdd k (a % 64) { a := 1, ready := s.now }) s else s
      (s, { c with prog := 2, sub := 0, dlv := c.idx })

/-- One write of `cm.emit` (R413): marginalia, record, SEQ of each token in turn, then PIDX. -/
def emitUnit (s : State) (c : Cmd) : State × Cmd :=
  let f := c.bf
  let r0 := c.list.getD 0 0
  let pc := c.list.getD 1 0
  let n := ncomOf r0
  let i := c.prog / 3
  let j := (pc + i) % f 32 4
  let last := i + 1 == n
  let res : GRes Unit :=
    if i = n then gWrite c s (f 40 8) 8 ((pc + n) % 2 ^ 64)
    else gBind (gRead c s (f 0 8 + 64 + 8 * i) 8) fun s tok =>
      gBind (gRead c s (f 8 8 + 256 * bitsAt tok 32 16) 256) fun s slot =>
        let nm := bitsAt slot 104 8
        if c.prog % 3 = 0 then gWrite c s (f 24 8 + 128 * j) 128 (bitsAt slot 256 (64 * min nm 16))
        else if c.prog % 3 = 1 then
          let fl := (if last then b2n (bitAt r0 96) + b2n (bitAt r0 97) * 2 + 4 + b2n (bitAt r0 98) * 8 else 0) +
            b2n (bitsAt slot 64 32 != 0) * 16
          gWrite c s (f 16 8 + 16 * j) 12 (f 56 4 % 2 ^ 20 + fl * 2 ^ 20 + (bitsAt r0 128 64 + i) % 2 ^ 32 * 2 ^ 32 +
            tok % 2 ^ 24 * 2 ^ 64 + nm * 2 ^ 88)
        else gWrite c s (f 16 8 + 16 * j + 12) 4 ((pc + i + 1) % 2 ^ 32)
  match res with
  | (s, .ok _) => (s, { c with prog := c.prog + 1, dlv := (c.prog + 1) / 3 })
  | (s, .error e) => (s, { c with status := e.1, addr := e.2, idx := i, drop := 1 })

/-! ### Trims (R415, R416) -/

/-- An entry of the list becomes a message. -/
def trimUnit (s : State) (c : Cmd) : State × Cmd :=
  let w := c.list.getD c.prog 0
  let t : Trim := { core := w % 128, ctx := bitsAt w 7 3, lcm := bitsAt w 16 6, kop := bitsAt w 24 8,
                    kpv := BitVec.ofNat 16 (bitsAt w 32 16), lcv := bitsAt w 64 96, die := c.cfg, key := c.key }
  ({ s with trims := s.trims ++ [t] }, { c with prog := c.prog + 1 })

/-- A message applied to a context (R415): the pending values of R115.  One that lands while a stalled bundle is at hand comes before
the results that land with that bundle (R416). -/
def trimApply (x : Ctx) (t : Trim) : Ctx :=
  let f := x.ctl.fresh
  let put (late : Bool) (m : Tab (Option (BitVec 16))) : Tab (Option (BitVec 16)) := (List.range 6).foldl (fun m k =>
    if bitAt t.lcm k && f.contains (.lcP (k + 1)) == late then tput m (k + 1) (some (BitVec.ofNat 16 (bitsAt t.lcv (16 * k) 16)))
    else m) m
  let late := f.contains .kpP
  let base := (if late then x.ctl.kpP0 else x.ctl.kpP).getD x.ctl.kp
  let mode := bitsAt t.kop 1 2
  let kp := if mode = 0 then t.kpv else if mode = 1 then base ||| t.kpv else base &&& ~~~t.kpv
  let ke := bitAt t.kop 0
  { x with ctl := { x.ctl with
      lcP := put false x.ctl.lcP, lcP0 := put true x.ctl.lcP0, kpP := if ke && !late then some kp else x.ctl.kpP,
      kpP0 := if ke && late then some kp else x.ctl.kpP0 } }

/-- Message i lands, or is dropped by a context without a task; those to one target land in order. -/
def trimLand (s : State) (i : Nat) : State :=
  match s.trims[i]? with
  | none => s
  | some t =>
    if (s.trims.take i).any fun u => u.core == t.core && u.ctx == t.ctx then s
    else
      let x := s.ctx t.core t.ctx
      let drop := x.life == .free || x.life == .ending
      let s := { s with trims := dropAt s.trims i }
      let s := if drop then s else s.setCtx t.core t.ctx (trimApply x t)
      let d := s.die t.die
      s.setDie t.die { d with gens := d.gens.map fun c =>
        if c.key = t.key then { c with idx := c.idx + 1, decl := c.decl + b2n drop, dlv := c.idx + 1 } else c }

/-! ### Commands -/

/-- Units of a started command. -/
def genUnits (c : Cmd) : Nat :=
  if c.drop ≠ 0 then 0
  else if c.eng = 3 then c.bf 56 4
  else if c.eng = 4 then (if c.decl = 1 then c.prog else c.nwEnd / 4)
  else if c.fn = 1 then 2
  else if c.fn = 2 then (if ncomOf (c.list.getD 0 0) = 0 then 0 else 3 * ncomOf (c.list.getD 0 0) + 1)
  else c.bf 8 2
/-- A row of the walk; with the last one the ring is released (R404). -/
def nwStep (s : State) (c : Cmd) : State × Cmd :=
  let p := nwUnit s c
  if genUnits p.2 ≤ p.2.prog then (releaseRing p.1 c.core c.ctx (c.bf 16 1 % 32), p.2) else p
def genUnit (s : State) (c : Cmd) : State × Cmd :=
  if c.eng = 3 then smpUnit s c else if c.eng = 4 then nwStep s c
  else if c.fn = 1 then accUnit s c else if c.fn = 2 then emitUnit s c else trimUnit s c
def genRun : Nat → State → Cmd → State × Cmd
  | 0, s, c => (s, c)
  | n + 1, s, c => if genUnits c ≤ c.prog then (s, c) else let p := genUnit s c; genRun n p.1 p.2

/-- A started command with what it read and found (R417): `cfg` keeps the die. -/
def genBegin (s : State) (die : Nat) (c : Cmd) : State × Cmd :=
  let c := { c with started := true, cfg := die }
  match gLists s c with
  | (s, l, some e) =>
    let b := gBad s c l false
    (s, if b ≠ 0 then { c with status := 1, sub := b, drop := 1 }
        else { c with status := e.1, addr := e.2, drop := 1 })
  | (s, l, none) =>
    let b := gBad s c l true
    if b ≠ 0 then (s, { c with status := 1, sub := b, drop := 1 })
    else if c.eng = 5 ∧ c.fn = 2 ∧ c.bf 32 4 < (l.getD 1 0 + 2 ^ 64 - l.getD 2 0) % 2 ^ 64 + ncomOf (l.getD 0 0) then
      (s, { c with status := 5, drop := 1 })
    else if c.eng = 4 then
      let h := c.bf 16 1 % 32
      let r := (s.ctx c.core c.ctx).ring h
      (ringProduced (s.modCtx c.core c.ctx fun x => x.setRing h { r with held := 1, swz := none }) c.core c.ctx h (!r.quiet),
       { c with list := [] })
    else (s, { c with list := l })

/-- An engine of a die starts a command (R400): class 0 first, else by core and context in turn. -/
def genStart (s : State) (die eng : Nat) : State :=
  let d := s.die die
  if 8 ≤ (d.gens.filter fun c => c.eng == eng).length then s
  else
    let hd (n : Nat) : Option Cmd :=
      let x := s.ctx (n / 8) (n % 8)
      if x.task.gdie = die then x.head eng else none
    let from_ := tget 0 d.genRot eng
    match (rotPick from_ 1024 fun n => (hd n).any fun c => c.cb.toNat % 4 == 0).or (rotPick from_ 1024 fun n => (hd n).isSome) with
    | none => s
    | some n =>
      match hd n with
      | none => s
      | some c =>
        let s := s.modCtx (n / 8) (n % 8) (·.popCmd eng)
        let p := genBegin s die c
        let d := p.1.die die
        p.1.setDie die { d with gens := d.gens ++ [p.2], genRot := tput d.genRot eng ((n + 1) % 1024) }

/-- A command ends. -/
def genEnd (s : State) (c : Cmd) : State :=
  let st := c.status
  let a := c.bf 10 1
  let s := if c.eng = 5 ∧ c.fn = 3 ∧ st = 0 ∧ bitAt a 6 then
      (c.list.map (· % 128)).eraseDups.foldl (fun s k => s.nbAdd k (a % 64) { a := 1, ready := s.now }) s else s
  let r : OpRec := { n := c.opn, status := st, sub := c.sub, dlv := c.dlv, drop := if c.eng = 5 ∧ c.fn = 3 then c.decl else 0 }
  if 1 ≤ st ∧ st ≤ 5 then
    let v := c.record c.eng st + c.sub * 2 ^ 112 + c.idx % 2 ^ 64 * 2 ^ 256 + c.addr * 2 ^ 320
    (s.errRecord c.core c.ctx v).opDone c.core c.ctx c.eng r true (st == 1)
  else s.opDone c.core c.ctx c.eng r false false

/-- Whether nothing of a command is left: for trims, every message has landed. -/
def genDone (c : Cmd) : Bool :=
  decide (genUnits c ≤ c.prog) && (c.drop != 0 || !(c.eng == 5 && c.fn == 3) || decide (c.bf 8 2 ≤ c.idx))

/-- The i-th running command of a die moves n units on; with none left, and none before it of its context, it completes. -/
def genAdvance (s : State) (die i : Nat) (n : Option Nat) : State :=
  match (s.die die).gens[i]? with
  | none => s
  | some c =>
    let p := genRun (n.getD (genUnits c - c.prog)) s c
    let d := p.1.die die
    let first := !((d.gens.take i).any fun q => q.eng == c.eng && q.core == c.core && q.ctx == c.ctx)
    if genDone p.2 && n.isNone && first then genEnd (p.1.setDie die { d with gens := dropAt d.gens i }) p.2
    else p.1.setDie die { d with gens := setAt d.gens i p.2 }

/-- A restore has completed (R412): its command counts it, and notes one that did not end OK. -/
def restoreDone (s : State) (r : Cmd) : State :=
  if r.se = 0 then s
  else [0, 1].foldl (fun s n =>
    let d := s.die n
    s.setDie n { d with gens := d.gens.map fun c =>
      if c.key + 1 = r.se then { c with decl := c.decl - 1, sub := if r.status = 0 then c.sub else 1 } else c }) s

/-- The commands of a killed context (R420): a started `cm.emit` completes in full, the others stop. -/
def genKill (s : State) (k j : Nat) : State :=
  let s := [3, 4, 5].foldl (fun s e => s.modCtx k j fun x => x.setTl e { x.tl e with queue := [] }) s
  [0, 1].foldl (fun s n =>
    let mine (c : Cmd) : Bool := c.core == k && c.ctx == j
    let s := ((s.die n).gens.filter fun c => mine c && c.eng == 5 && c.fn == 2).foldl (fun s c => (genRun (genUnits c) s c).1) s
    let d := s.die n
    s.setDie n { d with gens := d.gens.filter fun c => !mine c }) s

/-- The reply of the stat functions (R419). -/
def genStat (s : State) (k j eng ca : Nat) : Nat :=
  let x := s.ctx k j
  let mode := bitsAt ca 62 2
  if mode = 1 ∨ mode = 2 then 2 ^ 64 - 1
  else if mode = 3 then 0
  else
    let n := ca % 2 ^ 62
    let t := x.tl eng
    if n = 0 ∨ t.i < n ∨ n + 64 ≤ t.i then 2 ^ 5
    else match t.hist.find? fun r => r.n == n with
      | none => 2 ^ 5
      | some r =>
        if r.done then r.status + 2 ^ 4 + r.dlv % 2 ^ 16 * 2 ^ 8 + r.sub * 2 ^ 24 + r.drop % 2 ^ 16 * 2 ^ 32
        else match (s.die x.task.gdie).gens.find? fun q => q.core == k && q.ctx == j && q.eng == eng && q.opn == n with
          | some q => q.dlv % 2 ^ 16 * 2 ^ 8 + (if eng = 5 ∧ q.fn = 3 then q.decl % 2 ^ 16 * 2 ^ 32 else 0)
          | none => 0

end Sys2Proof.Machine
end

