-- ==== Sys2Proof/Machine/CpOp.lean ====
section
/-! DEFINITION. What each CP operation decides at issue (R300, R321, R334, R352, R359, R372, R399, R419). -/

namespace Sys2Proof.Machine

/-- A reply in `c`d, visible from the next counted bundle. -/
def cRep (d v : Nat) : Out := Out.wr (.c d) 64 (v % 2 ^ 64) 1
/-- The reply of a queued function, when it has one: the operation number. -/
def numRep (s : State) (e : Nat) (rep : Option (BitVec 5)) : Out :=
  match rep with
  | some d => cRep d.toNat ((s.ix.tl e).i + 1)
  | none => {}
/-- Commands a queue holds. -/
def queueCap (e : Nat) : Nat := if 3 ≤ e then 4 else 16

/-- A queued function (R321): it waits for room in its queue, and, where it takes a block, for an outstanding fence. -/
def engineOp (s : State) (e fn : Nat) (ca : BitVec 5) (cb rep : Option (BitVec 5)) (block : Bool) : Out :=
  let a := s.rdC 8 ca.toNat
  let b := match cb with | some n => s.rdC 8 n.toNat | none => 0
  if queueCap e ≤ (s.ix.tl e).queue.length ∨ (block ∧ s.ix.fenced) then Out.wait
  else
    let blk := if block then row (s.rdRow 8 a) else 0
    (numRep s e rep).and (Out.act [.engine e fn (BitVec.ofNat 64 a) (BitVec.ofNat 64 b) blk])

/-! ### Copy engine and handle table -/

def opCpy1d (ca cb : BitVec 5) (rep : Option (BitVec 5)) (s : State) : Out := engineOp s 0 1 ca (some cb) rep true
def opCpyNd (ca cb : BitVec 5) (rep : Option (BitVec 5)) (s : State) : Out := engineOp s 0 2 ca (some cb) rep true
def opCpyMc (ca cb : BitVec 5) (rep : Option (BitVec 5)) (s : State) : Out := engineOp s 0 3 ca (some cb) rep true
def opCpySnd (ca cb : BitVec 5) (rep : Option (BitVec 5)) (s : State) : Out := engineOp s 0 4 ca (some cb) rep true
def opCpyZrb (ca cb : BitVec 5) (rep : Option (BitVec 5)) (s : State) : Out := engineOp s 0 5 ca (some cb) rep true
def opCpySp24 (ca cb : BitVec 5) (rep : Option (BitVec 5)) (s : State) : Out := engineOp s 0 6 ca (some cb) rep true
def opCpyStrm (ca cb : BitVec 5) (rep : Option (BitVec 5)) (s : State) : Out := engineOp s 0 7 ca (some cb) rep true
def opCpyStop (ca : BitVec 5) (rep : Option (BitVec 5)) (s : State) : Out := engineOp s 0 8 ca none rep false
def opCpyFill (ca cb : BitVec 5) (rep : Option (BitVec 5)) (s : State) : Out := engineOp s 0 9 ca (some cb) rep true
def opCpyClr (_s : State) : Out := Out.act [.clear 0]
/-- The registers of a query: ca and cd. -/
def qCa (s : State) : Nat := s.arg.getD 0 0
def qCd (s : State) : Nat := s.arg.getD 1 0
def opCpyQ (s : State) : Out := cRep (qCd s) (cpyStatus s s.ik s.ij (s.rdC 8 (qCa s)))

/-- A handle function's reply and writes. -/
def hndOut (rep : Option Nat) (r : Nat × List (Nat × Nat × Nat)) : Out :=
  (match rep with | some d => cRep d r.1 | none => {}).and (Out.act (r.2.map fun (w : Nat × Nat × Nat) => .lpw w.1 w.2.1 w.2.2))
def opHndNew (ca cd : BitVec 5) (s : State) : Out :=
  if s.ix.fenced then Out.wait
  else hndOut (some cd.toNat) (hndNew s (s.fnOf s.ik s.ij) (s.rdRow 8 (s.rdC 8 ca.toNat) % 2 ^ 256))
def opHndFree (ca : BitVec 5) (rep : Option (BitVec 5)) (s : State) : Out :=
  if s.ix.fenced then Out.wait else hndOut (rep.map (·.toNat)) (hndFree s (s.fnOf s.ik s.ij) (s.rdC 8 ca.toNat))
def opHndGen (ca cd : BitVec 5) (s : State) : Out :=
  if s.ix.fenced then Out.wait else hndOut (some cd.toNat) (hndGen s (s.fnOf s.ik s.ij) (s.rdC 8 ca.toNat))

/-! ### Bindery -/

def opFrIn (ca cb : BitVec 5) (rep : Option (BitVec 5)) (s : State) : Out := engineOp s 1 1 ca (some cb) rep false
def opFrOut (ca cb : BitVec 5) (rep : Option (BitVec 5)) (s : State) : Out := engineOp s 1 2 ca (some cb) rep false
def opFrSwap (ca cb : BitVec 5) (rep : Option (BitVec 5)) (s : State) : Out := engineOp s 1 3 ca (some cb) rep false
def opFrSnap (ca cb : BitVec 5) (rep : Option (BitVec 5)) (s : State) : Out := engineOp s 1 4 ca (some cb) rep false
def opFrFork (ca cb : BitVec 5) (rep : Option (BitVec 5)) (s : State) : Out := engineOp s 1 5 ca (some cb) rep false
def opFrRoll (ca cb : BitVec 5) (rep : Option (BitVec 5)) (s : State) : Out := engineOp s 1 6 ca (some cb) rep false
def opFrRel (ca cb : BitVec 5) (rep : Option (BitVec 5)) (s : State) : Out := engineOp s 1 7 ca (some cb) rep false
def opFrPin (ca cb : BitVec 5) (rep : Option (BitVec 5)) (s : State) : Out := engineOp s 1 8 ca (some cb) rep false
def opFrChk (ca cb : BitVec 5) (rep : Option (BitVec 5)) (s : State) : Out := engineOp s 1 9 ca (some cb) rep false
def opFrRes (ca cb : BitVec 5) (rep : Option (BitVec 5)) (s : State) : Out := engineOp s 1 10 ca (some cb) rep false
/-- `fr.stat`, whose mode stands in the operand (R372). -/
def opFrStat (s : State) : Out :=
  let a := s.rdC 8 (qCa s)
  (cRep (qCd s) (bndStat s s.ik s.ij a)).and (Out.act (if bitsAt a 62 2 = 3 then [.clear 1] else []))

/-! ### Scan engine -/

def opScnDiag (ca cb : BitVec 5) (rep : Option (BitVec 5)) (s : State) : Out := engineOp s 2 1 ca (some cb) rep false
def opScnLin (ca : BitVec 5) (rep : Option (BitVec 5)) (s : State) : Out := engineOp s 2 2 ca none rep false
def opScnCin (ca : BitVec 5) (rep : Option (BitVec 5)) (s : State) : Out := engineOp s 2 3 ca none rep false
def opScnCout (ca : BitVec 5) (rep : Option (BitVec 5)) (s : State) : Out := engineOp s 2 4 ca none rep false
def opScnFade (ca : BitVec 5) (rep : Option (BitVec 5)) (s : State) : Out := engineOp s 2 5 ca none rep false
/-- `scn.cfg` is not queued (R319). -/
def opScnCfg (ca : BitVec 5) (rep : Option (BitVec 5)) (s : State) : Out :=
  (numRep s 2 rep).and (Out.act [.scnCfg (BitVec.ofNat 64 (s.rdC 8 ca.toNat))])

/-! ### Generation engines -/

def opSmpRun (ca cb : BitVec 5) (rep : Option (BitVec 5)) (s : State) : Out := engineOp s 3 1 ca (some cb) rep true
def opSmpShard (ca cb : BitVec 5) (rep : Option (BitVec 5)) (s : State) : Out := engineOp s 3 2 ca (some cb) rep true
def opSmpMerge (ca cb : BitVec 5) (rep : Option (BitVec 5)) (s : State) : Out := engineOp s 3 3 ca (some cb) rep true
def opNwStart (ca cb : BitVec 5) (rep : Option (BitVec 5)) (s : State) : Out := engineOp s 4 1 ca (some cb) rep true
def opCmAcc (ca cb : BitVec 5) (rep : Option (BitVec 5)) (s : State) : Out := engineOp s 5 1 ca (some cb) rep true
def opCmEmit (ca cb : BitVec 5) (rep : Option (BitVec 5)) (s : State) : Out := engineOp s 5 2 ca (some cb) rep true
def opCmTrim (ca cb : BitVec 5) (rep : Option (BitVec 5)) (s : State) : Out := engineOp s 5 3 ca (some cb) rep true
/-- A stat function of engine e, whose mode stands in the operand (R419). -/
def genStatOp (s : State) (e : Nat) : Out :=
  let a := s.rdC 8 (qCa s)
  (cRep (qCd s) (genStat s s.ik s.ij e a)).and (Out.act (if bitsAt a 62 2 = 3 then [.clear e] else []))

/-- A command as it is accepted (R321): what issue latches. -/
def newCmd (s : State) (k j e fn : Nat) (ca cb : Word) (blk : Row) : Cmd :=
  let x := s.ctx k j
  { core := k, ctx := j, opn := 0, fn := fn, ca := ca, cb := cb, blk := blk, key := s.nextKey, bank := x.act, cfg := x.chunk,
    eng := e, vf := s.fnOf k j, priv := s.privOf k j, at_ := s.now }

/-- A command enters its queue. -/
def engineIssue (s : State) (k j e fn : Nat) (ca cb : Word) (blk : Row) : State :=
  let c := newCmd s k j e fn ca cb blk
  let s := { s with nextKey := s.nextKey + 1 }
  if e = 0 then cpyIssue s k j c
  else if e = 1 then bndIssue s k j c
  else if e = 2 then s.modCtx k j fun x =>
    let t := (x.tl 2).issue c
    let a := ca.toNat
    { (x.setTl 2 t) with tileCmds := if fn = 2 then
        x.tileCmds ++ [{ acc := bitsAt a 32 3, rows := bitsAt a 35 5 + 1, e := 2, opn := t.i }] else x.tileCmds }
  else s.modCtx k j fun x => x.setTl e ((x.tl e).issue c)

/-- The clears of R352, R372 and R419: queued commands end with DISC, the context waits for the started ones. -/
def engineClear (s : State) (k j e : Nat) : State :=
  if e = 0 then copyClear s k j
  else if e = 1 then bndClear s k j
  else (s.discard k j e 8).modCtx k j fun x => { x with waits := x.waits ++ [.clear e 0] }

/-- Whether an engine still runs a command of a context. -/
def State.engineBusy (s : State) (k j e : Nat) : Bool :=
  let c := s.core k
  if e = 0 then c.copies.any fun q => q.ctx == j
  else if e = 1 then (s.cluster (clusterOf k)).bindRun.any fun q => q.core == k && q.ctx == j && !q.rot
  else if e = 2 then c.scan.any fun q => q.ctx == j
  else [0, 1].any fun n => (s.die n).gens.any fun q => q.eng == e && q.core == k && q.ctx == j

/-- What a clear does once the started commands have completed: ERR, HALT and F, and the chunk length of `scn.cfg`. -/
def engineCleared (x : Ctx) (e lc : Nat) : Ctx :=
  { (x.setTl e { x.tl e with err := false, halt := false, haltN := 0, f := 0 }) with
    chunk := if e = 2 ∧ 1 ≤ lc ∧ lc ≤ 6 then lc else x.chunk }

end Sys2Proof.Machine
end

