-- ==== Sys2Proof/Machine/Sched.lean ====
section
/-! DEFINITION. Contexts as a whole: what they wait for, the arbiter, the banks and their owner tags, the life of a task
from its start to its end, termination, and taking a trap and returning from one. -/

namespace Sys2Proof.Machine

/-! ### Waits (R92, R196, R202, R204, R208, R442) -/

/-- The discard of an acquire at `.cl` or wider (R202). -/
def l1Fresh (s : State) (k : Nat) : State := s.l1Discard k fun _ => true
/-- An acquire of a context at `.cl` or wider: what others of its core wrote counts as observed, and the words that are not
written ones are discarded (R193, R199, R202). -/
def acquire (s : State) (k j : Nat) : State := l1Fresh (s.l1Observe k j) k

/-- Whether `tlb.inv` with a mode, a function and a page names a place (R442). -/
def tlbNamed (mode fn page f p : Nat) : Bool := mode == 0 || (f == fn && (mode == 1 || p / 512 == page / 512))

/-- Whether an access in flight was translated by an entry that `tlb.inv` removed: pages of 2 MiB count whole. -/
def tlbInFlight (s : State) (q : Nat) (dev : Bool) (mode fn page : Nat) : Bool :=
  (List.range 128).any fun k => (dev || clusterOf k == q) && (List.range 8).any fun j =>
    (s.ctx k j).posted.any fun a =>
      (match a.loc with | .phys _ _ _ => true | _ => false) && tlbNamed mode fn page a.fn (a.va / 4096)

/-- Written words in the L1 caches that `tlb.inv` or a retirement has to see performed at `.dev` are written back (R437, R442). -/
def flushPages (s : State) (core : Nat → Bool) (f : Nat × L1Line → Bool) : State :=
  (s.cores.map (·.1)).foldl (fun s m => if core m then
    ((s.core m).l1.filter fun e => e.2.wrote != 0 && f e).foldl (fun s e => s.l1Flush m e.1) s else s) s
/-- Whether an access in flight is to a 64 KiB page of LPDDR 6, any of its 2 MiB counting (R437). -/
def pageInFlight (s : State) (page : Nat) : Bool :=
  (List.range 128).any fun m => (List.range 8).any fun n => (s.ctx m n).posted.any fun a =>
    match a.loc with | .phys 0 _ pa => pa / 2 ^ 21 == page / 32 | _ => false
/-- The end of the wait for such accesses. -/
def pageQuiet (s : State) (page : Nat) : State := flushPages s (fun _ => true) fun e => e.1 / 512 == page

/-- Whether one thing a context waits for has come about. -/
def waitDone (s : State) (k j : Nat) (w : Wait) : Bool :=
  match w with
  | .drain _ => (s.ctx k j).posted == []
  | .mwait => !(s.core k).mq.any fun e => e.ctx == j
  | .cycle t => decide (t ≤ s.now)
  | .tlbInv m f p dev => !tlbInFlight s (clusterOf k) dev m f p
  | .clear e _ => !s.engineBusy k j e
  | .quiet p => !pageInFlight s p
  | w => !waitR5 s k j w

/-- Whether all that a context waits for has come about. -/
def waitOver (s : State) (k j : Nat) : Bool := (s.ctx k j).waits.all fun w => waitDone s k j w

/-- Every result of MX is in place for the context's next bundle (R263; log entry 96, DEDUCED): its position is there, and earlier
results of the same bits no longer come. -/
def mxPlaced (x : Ctx) : Ctx :=
  let mine (p : Pend) : Bool := p.mx || p.upd
  let cut := x.pend.zipIdx.map fun q =>
    if mine q.1 ∨ q.1.dest.sums then q.1
    else { q.1 with mask := q.1.mask &&& ~~~((x.pend.drop (q.2 + 1)).foldl
      (fun m r => if mine r ∧ r.dest = q.1.dest then m ||| r.mask else m) (0 : Row)) }
  let l := (cut.filter fun p => p.mask != 0 || p.tile.isSome).map fun p => if mine p then { p with due := min p.due x.bcount } else p
  { x with pend := l.foldl (fun a p => insPend p a) [], tileDue := [], valDue := [], mbestDue := 0 }

/-- What the end of a wait brings about: the write-backs of a drain, of `tlb.inv` and of a retirement, the discard of an
acquire, what a completed `tl.wait` covers, what a clear does (R202, R204, R319, R352, R442). -/
def waitFinish (s : State) (k j : Nat) (w : Wait) : State :=
  match w with
  | .drain sc => if 2 ≤ sc then s.l1Release k j else s
  | .nb _ _ => acquire s k j
  | .nbDone => acquire s k j
  | .pred => acquire s k j
  | .tlbInv m f p dev => flushPages s (fun q => dev || clusterOf q == clusterOf k) fun e => tlbNamed m f p e.2.fn (e.2.va / 4096)
  | .quiet p => pageQuiet s p
  | .tl e n =>
    l1Fresh (s.modCtx k j fun x =>
      { x with tileCmds := x.tileCmds.filter (fun t => !(t.e == e && decide (t.opn ≤ n))),
               bankCmds := x.bankCmds.filter fun b => !(e == 1 && decide (b.opn ≤ n)) }) k
  | .clear e lc => s.modCtx k j fun x => engineCleared x e lc
  | .mwait => s.modCtx k j mxPlaced
  | _ => s

/-- All waits of a context end. -/
def waitEnd (s : State) (k j : Nat) : State :=
  let l := (s.ctx k j).waits
  if l = [] then s else l.foldl (fun s w => waitFinish s k j w) (s.modCtx k j fun x => { x with waits := [] })

/-! ### The arbiter (R96, R97) -/

/-- Insertion of a context by priority, after those of the same level. -/
def rankCtx (c : Core) (j : Nat) : List Nat → List Nat
  | [] => [j]
  | i :: r => if (c.ctx i).ctl.prio.toNat ≤ (c.ctx j).ctl.prio.toNat then i :: rankCtx c j r else j :: i :: r
/-- The contexts in the order of R96: by priority, and in rotation within a level. -/
def Core.order (c : Core) : List Nat := ((List.range 8).map fun i => (c.rptr + i) % 8).foldl (fun l j => rankCtx c j l) []

/-- The arbiter selects the next primary. -/
def arbSelect (s : State) (k : Nat) : State :=
  let c := s.core k
  let l := c.order.filter fun j => isReady s k j
  match l with
  | [] => s.setCore k { c with prim := none, prep := false }
  | first :: _ =>
    let fit := l.find? fun j => (c.ctx j).ctl.run.toNat != 0 && decide ((c.ctx j).ctl.run.toNat ≤ c.slice)
    let w := fit.getD first
    let s := s.setCore k { c with prim := some w, prep := !c.resident w, rptr := (w + 1) % 8,
                                  slice := if fit.isNone then s.reg (rSlice k) % 2 ^ 21 else c.slice }
    s.modCtx k w fun x => { x with ctl := { x.ctl with runCnt := 0 } }

/-- A core without a primary selects as soon as a context is ready (R96). -/
def wakeCore (s : State) (k : Nat) : State :=
  if (s.core k).prim.isNone ∧ (List.range 8).any (fun j => isReady s k j) then arbSelect s k else s

/-- What a yield bundle or a `sleep` brings into force (R98 steps 1 to 4).  A pending value that lands at the very
position of this bundle is not yet applied and stays pending (log entry 21, DEDUCED). -/
def yieldApply (s : State) (k j : Nat) : State :=
  let s := s.modCtx k j fun x =>
    let t := x.ctl
    let fresh := t.fresh
    let old := t.lcP0
    let oldK := t.kpP0
    let keep (n : Nat) : Bool := fresh.contains (.lcP n)
    let src (n : Nat) : Option (BitVec 16) := if keep n then tget none old n else tget none t.lcP n
    let lc := (List.range 7).foldl (fun m n => match src n with | some v => tput m n v | none => m) t.lc
    let lcP := t.lcP.filter fun p => keep p.1
    let kp := if fresh.contains .kpP then oldK else t.kpP
    { x with ctl := { t with lc := lc, lcP := lcP, kp := kp.getD t.kp, kpP := if fresh.contains .kpP then t.kpP else none,
                             prio := t.prioNext.getD t.prio, prioNext := none } }
  flipTo s k j

/-! ### Banks (R380 to R384) -/

/-- The bank of Table 16-1, by mask bit, that a destination lies in. -/
def destBank : Dest → Option Nat
  | .v .va n => some (n / 64)
  | .v .vb n => some (8 + n / 64)
  | .s n => some (24 + n / 8)
  | .la n => some (32 + n / 4)
  | .sa n => some (40 + n / 4)
  | .c n => some (48 + n / 4)
  | _ => none

/-- Rows of a save block of file f. -/
def blockRows (f : Nat) : Nat := if f < 2 then 64 else if f = 2 then 257 else 1
/-- Rows of the blocks of the banks of a mask below bank b (R383, R385). -/
def rowsBelow (mask b : Nat) : Nat := ((List.range b).filter fun i => bitAt mask i).foldl (fun n i => n + blockRows (i / 8)) 0

/-- The rows of a bank's save block (R383): registers in increasing number, a tile in the TILE layout before its state. -/
def Core.block (c : Core) (b : Nat) : List Nat :=
  let n := b % 8
  let words (t : Tab Word) (m : Nat) : Nat := ofLanes 64 ((List.range m).map fun i => (tget 0 t (m * n + i)).toNat)
  match b / 8 with
  | 0 => (List.range 64).map fun i => (tget 0 c.va (64 * n + i)).toNat
  | 1 => (List.range 64).map fun i => (tget 0 c.vb (64 * n + i)).toNat
  | 2 =>
    let t := tget {} c.tiles n
    ((List.range 256).map fun i => let r := (tget 0 t.rows (i / 8)).toNat
      ofLanes 64 ((List.range 16).map fun e => lane 56 r (16 * (i % 8) + e))) ++
    [b2n t.val + t.asat % 2 ^ 32 * 2 ^ 32 + t.arsv % 2 ^ 32 * 2 ^ 64]
  | 3 => [words c.s 8]
  | 4 => [words c.la 4]
  | 5 => [words c.sa 4]
  | _ => [words c.c 4]

/-- A bank takes the values of a save block. -/
def Core.putBlock (c : Core) (b : Nat) (l : List Nat) : Core :=
  let n := b % 8
  let rows (t : Tab Row) : Tab Row := l.zipIdx.foldl (fun m p => tput m (64 * n + p.2) (row p.1)) t
  let words (t : Tab Word) (m : Nat) : Tab Word :=
    (List.range m).foldl (fun a i => tput a (m * n + i) (BitVec.ofNat 64 (lane 64 (l.headD 0) i))) t
  match b / 8 with
  | 0 => { c with va := rows c.va }
  | 1 => { c with vb := rows c.vb }
  | 2 =>
    let st := l.getD 256 0
    let tr (r : Nat) : BitVec 7168 := BitVec.ofNat 7168 (ofLanes 56 ((List.range 128).map fun e => lane 64 (l.getD (8 * r + e / 16) 0) (e % 16)))
    let t : Tile := { rows := (List.range 32).foldl (fun m r => tset 0 m r (tr r)) [], val := bitAt st 0,
                      asat := bitsAt st 32 32, arsv := bitsAt st 64 32 }
    { c with tiles := tput c.tiles n t }
  | 3 => { c with s := words c.s 8 }
  | 4 => { c with la := words c.la 4 }
  | 5 => { c with sa := words c.sa 4 }
  | _ => { c with c := words c.c 4 }

/-- Where a context's save area holds a bank (R383). -/
def saveAt (s : State) (k j b : Nat) : Nat := bitsAt (s.reg (rSave k j)) 7 45 * 128 + 128 * rowsBelow (2 ^ 56 - 1) b
/-- The address of the first of n rows that cannot be read, or written. -/
def rowsBad (n pa : Nat) (bad : Nat → Bool) : Option Nat := ((List.range n).map fun i => pa + 128 * i).find? bad
/-- A bank is written to the save area of a context; the address at fault, if one is. -/
def bankSave (s : State) (k j b : Nat) : State × Option Nat :=
  let pa := saveAt s k j b
  match rowsBad (blockRows (b / 8)) pa fun a => s.lpWBad 0 a 128 with
  | some a => (s, some a)
  | none => (((s.core k).block b).zipIdx.foldl (fun s p => s.lpWrite 0 (pa + 128 * p.2) 128 p.1 (k, j)) s, none)
/-- The rows of a bank in a save area. -/
def savedRows (s : State) (k j b : Nat) : Except Nat (List Nat) :=
  let pa := saveAt s k j b
  match rowsBad (blockRows (b / 8)) pa fun a => s.lpBad 0 a 128 with
  | some a => .error a
  | none => .ok ((List.range (blockRows (b / 8))).map fun i => s.lpRead 0 (pa + 128 * i) 128)

/-- The rows of a bank in the frame of a suspended task (R385): packed, in the order of Table 16-1, after the header. -/
def frameRows (s : State) (f : Frame) (b : Nat) : List Nat :=
  (List.range (blockRows (b / 8))).map fun i => s.padRow f.core (f.row + 1 + rowsBelow f.mask.toNat b + i)

/-- Scalar registers that a start wrote while their bank lay elsewhere reach it (R345, R379). -/
def applyIn (s : State) (k j : Nat) : State :=
  if tget 0 (s.core k).tags 24 = j + 1 then
    let l := (s.ctx k j).inS
    l.foldl (fun s p => putD s k j (.s p.1) p.2.toNat) (s.modCtx k j fun x => { x with inS := [] })
  else s
/-- A start writes a register of the context's first scalar bank, if the demand holds it. -/
def startWrite (s : State) (k j n : Nat) (v : Word) : State :=
  if bitAt (s.ctx k j).task.demand.toNat 24 then applyIn (s.modCtx k j fun x => { x with inS := x.inS ++ [(n, v)] }) k j else s

/-- Whether a bank must still be left to its owner (R382): a write into it has not performed, a matrix entry works on the
tile, or a pending engine command names it. -/
def bankBusy (s : State) (k y b : Nat) : Bool :=
  let c := s.core k
  let x := c.ctx y
  let n := b % 8
  x.pend.any (fun p => p.acc.isSome && destBank p.dest == some b) ||
  (b / 8 == 2 && (c.mq.any (fun e => e.acc == n && e.tile.isSome && e.ctx == y) ||
    x.tileCmds.any fun t => t.acc == n && (x.tl t.e).hist.any fun r => r.n == t.opn && !r.done))

/-- Every pending write of a context into a bank is delivered. -/
def landBank (s : State) (k y b : Nat) : State :=
  (List.range (s.ctx k y).pend.length).foldl (fun s i =>
    match (s.ctx k y).pend[i]? with
    | some p => if destBank p.dest = some b then landEarly s k y i else s
    | none => s) s

/-! ### The end of a task (R117, R390, R391, R427, R452) -/

def State.modKernel (s : State) (id : Nat) (f : Kernel → Kernel) : State :=
  { s with kernels := s.kernels.map fun k => if k.id = id then f k else k }
def State.modCluster (s : State) (q : Nat) (f : Cluster → Cluster) : State := s.setCluster q (f (s.cluster q))

/-- A task of cluster q is over: its frame waits for its children, and a task without one leaves its kernel. -/
def taskOver (s : State) (q kern : Nat) (frame : Option Nat) : State :=
  match frame with
  | some f => s.modCluster q fun c => c.modFrame f fun f => { f with ended := true, resume := none }
  | none => s.modKernel kern fun n => { n with live := n.live - 1 }

/-- A context that has no task any more: its dedicated registers hold what they held until another begins (R379, R380). -/
def Ctx.freed (x : Ctx) : Ctx :=
  { x with life := .free, task := {}, ctl := { x.ctl with lcP0 := [], kpP0 := none, fresh := [] }, pend := [], waits := [], plan := none,
           rwHold := none, hand := {}, wakeP := none, held := false, holdP := false, unfilled := 0, trapP := none, inS := [],
           atYield := false, tileCmds := [], bankCmds := [], mxFree := [], latchDue := [], mbestDue := 0, tileDue := [], valDue := [],
           endK := 0, tls := x.tls.map fun e => (e.1, { e.2 with queue := [] }) }
/-- What the start of a task leaves of a context: its spill window, its handler and trap-record registers (R379, R422, R425),
accesses still on their way, and what its save area holds. -/
def Ctx.blank (x : Ctx) : Ctx :=
  { posted := x.posted, act := x.act, spill := x.spill, hs := x.hs, hla := x.hla, hsa := x.hsa, trec := x.trec,
    saved := x.saved, lastPc := x.lastPc }

/-- A context becomes free. -/
def freeCtx (s : State) (k j : Nat) : State := flipIdle ((s.modCtx k j Ctx.freed).dropWalks k j) k

/-- What is left of a terminated context's accesses (R427): stores and fences go on, and an atomic returns nothing. -/
def keptPosted (l : List Acc) : List Acc :=
  (l.filter fun a => match a.kind with
    | .arrive _ _ => false
    | .load => false
    | .acq => false
    | .ldg _ _ => false
    | _ => true).map fun a => { a with ret := false }

/-- A terminated task counts as over once what it leaves of its accesses, the write-backs of its L1 words among them, has
performed (R390, R396). -/
def taskGone (s : State) (k j : Nat) : State :=
  let x := s.ctx k j
  let t := x.task
  let s := s.modKernel t.kern fun n => { n with term := n.term + 1 }
  if keptPosted x.posted == [] && !(s.core k).l1.any (fun e => e.2.owed j) then taskOver s (clusterOf k) t.kern t.frame
  else s.modCluster (clusterOf k) fun c =>
    { c with leaving := c.leaving ++ [{ core := k, ctx := j, kern := t.kern, frame := t.frame, last := s.nextKey }] }

/-- The termination record with its kernel (Table 18-3, R452). -/
def termRecord (s : State) (k j cause info : Nat) : Nat :=
  let x := s.ctx k j
  let bpc := match x.trapP with | some t => t.bpc | none => x.lastPc
  let kid := ((s.kernelOf x.task.kern).map (·.kid)).getD 0
  cause + j * 2 ^ 16 + k * 2 ^ 24 + bpc.toNat * 2 ^ 32 + info % 2 ^ 64 * 2 ^ 64 + x.task.tcoord.toNat * 2 ^ 128 +
  s.now % 2 ^ 64 * 2 ^ 192 + kid * 2 ^ 256

/-- A context is terminated at once (R427, R320, R353, R377, R398, R420); one without a task is unaffected. -/
def terminate (s : State) (k j cause info : Nat) : State :=
  let x := s.ctx k j
  if x.life = .free ∨ (x.life = .ending ∧ x.endK = 2) then s
  else
    let fn := ((s.kernelOf x.task.kern).map (·.fn)).getD x.task.fn
    let s := s.fneRecord fn (termRecord s k j cause info)
    let s := genKill (bndKill (copyKill (scanKill s k j) k j) k j) k j
    let s := s.modCore k fun c =>
      { c with mq := c.mq.filter (fun e => e.ctx != j), tags := c.tags.filter (fun t => t.2 != j + 1),
               nbIn := c.nbIn.filter (fun u => u.2.a == 0 || u.2.src != 8 * k + j + 1) }
    let s := (List.range 4).foldl (fun s m => s.modCore (4 * clusterOf k + m) fun c =>
      { c with nbIn := c.nbIn.filter fun u => u.2.a == 0 || u.2.src != 8 * k + j + 1 }) s
    let s := taskGone s k j
    let s := freeCtx (s.modCtx k j fun x => { x with posted := keptPosted x.posted }) k j
    if (s.core k).prim = some j then arbSelect s k else s

/-- A context issues no further bundle of its task (R117, R391): its streams stop, and the core passes on (R99). -/
def beginEnd (s : State) (k j kind : Nat) : State :=
  let s := endStreams (s.modCtx k j fun x => { x with life := .ending, endK := kind, plan := none }) k fun t => t.cmd.ctx == j
  let s := flipIdle s k
  if (s.core k).prim = some j then arbSelect s k else s

/-- Whether an engine operation of a context is still to complete. -/
def commandsBusy (s : State) (k j : Nat) : Bool :=
  (List.range 6).any fun e => ((s.ctx k j).tl e).queue != [] || s.engineBusy k j e
/-- The same, or whether a stream of it has still to stop (R117). -/
def enginesBusy (s : State) (k j : Nat) : Bool :=
  ((s.core k).streams.any fun t => t.cmd.ctx == j) || commandsBusy s k j

/-- A resume entry joins the queue (R391). -/
def pushResume (s : State) (q : Nat) (f : Frame) (t : Addr) : State :=
  s.modCluster q fun c => { c with spawnQ := c.spawnQ ++
    [{ kern := f.kern, target := t, s1 := 0, s2 := 0, prio := f.prio, tcoord := f.tcoord, frame := some f.id, resume := true }] }

/-- A suspended task leaves its context (R391 steps 2 to 4). -/
def suspend (s : State) (k j : Nat) : State :=
  let x := s.ctx k j
  let q := clusterOf k
  match x.task.frame.bind (s.cluster q).frame with
  | none => s
  | some f =>
    let banks := (List.range 56).filter fun b => bitAt f.mask.toNat b
    let rows (b : Nat) : Except Nat (List Nat) :=
      if tget 0 (s.core k).tags b ≠ j + 1 ∧ bitAt x.saved.toNat b then savedRows s k j b else .ok ((s.core k).block b)
    match banks.mapM fun b => (rows b).map fun l => (b, l) with
    | .error pa => terminate s k j 5 pa
    | .ok l =>
      let s := l.foldl (fun s p => p.2.zipIdx.foldl (fun s r =>
        s.storeRow f.core (f.row + 1 + rowsBelow f.mask.toNat p.1 + r.2) rowMask (row r.1)) s) s
      let s := s.storeRow f.core f.row rowMask (row (s.free (880000 + f.row)))
      let f := { f with prio := x.ctl.prio, tcoord := x.task.tcoord }
      let now_ := f.pend == 0
      let s := s.modCluster q fun c => c.modFrame f.id fun _ => { f with resume := if now_ then none else some x.ctl.pc }
      let s := if now_ then pushResume s q f x.ctl.pc else s
      freeCtx s k j

/-- An ending context goes as far as it can: once its results and accesses are done, `halt` reports completion after
writing back its L1 words, and `sync` saves; the context is free once its engine operations have completed. -/
def endTry (s : State) (k j : Nat) : State :=
  let x := s.ctx k j
  let open_ := x.posted != [] || x.pend.any (fun p => p.acc.isSome) || (s.core k).mq.any fun e => e.ctx == j
  if x.life ≠ .ending then s
  else if x.endK = 2 then (if enginesBusy s k j then s else freeCtx s k j)
  else if open_ then s
  else if x.endK = 1 then
    let s := taskOver ((landAll (touchAll s k j) k j).l1Release k j) (clusterOf k) x.task.kern x.task.frame
    let s := s.modCtx k j fun x => { x with endK := 2 }
    if enginesBusy s k j then s else freeCtx s k j
  else if enginesBusy s k j ∨ !waitOver s k j then s
  else suspend (landAll (touchAll (waitEnd s k j) k j) k j) k j

/-! ### Frames and starts (R379, R385, R389) -/

/-- The place in a kernel's pool that no frame takes. -/
def freeRow (c : Cluster) (n : Kernel) : Option Nat :=
  ((List.range n.fpn).map fun i => n.fprow + i * n.frame).find? fun r => !c.frames.any fun f => f.kern == n.id && f.row == r

/-- A frame is taken from the pool; its header row is the hardware's (log entry 17, DESIGN CHOICE). -/
def takeFrame (s : State) (q : Nat) (n : Kernel) (parent : Option Nat) (prio : BitVec 6) (tcoord : BitVec 48) : Option (State × Nat) :=
  let c := s.cluster q
  (freeRow c n).map fun r =>
    let k := 4 * q + n.fpcore
    let f : Frame := { id := c.nextFrame, core := k, row := r, kern := n.id, parent := parent, prio := prio, tcoord := tcoord }
    let s := s.setCluster q { c with frames := c.frames ++ [f], nextFrame := c.nextFrame + 1 }
    (s.storeRow k r rowMask (row (s.free (880000 + r))), f.id)

/-- The rings a region table binds (R211, Table 19-4). -/
def boundRings (l : List Word) : Tab Ring :=
  l.foldl (fun m r => let v := r.toNat
    if bitAt v 27 then tput m (bitsAt v 28 5) { base := bitsAt v 0 13, n := bitsAt v 13 14, bound := true } else m) []

/-- A tile task begins on a context (R379): start values in all dedicated state; of a resumed task, the saved banks whose
tags stand are loaded, the others when the core prepares it. -/
def startTask (s : State) (k j : Nat) (n : Kernel) (pc : Addr) (prio : BitVec 6) (tcoord : BitVec 48) (frame : Option Nat)
    (s1 s2 : Option Word) (mask : BitVec 56) : State :=
  let task : Task :=
    { img := n.img, kern := n.id, fn := n.fn, priv := n.priv, demand := n.banks, ptm := n.ptm, tcoord := tcoord, regions := n.regions,
      lprio := n.prio.setWidth 6, excl := bitAt n.prio.toNat 6, gdie := bitsAt n.prio.toNat 7 1, frame := frame }
  let ctl : Ctl := { pc := pc, prio := prio, run := n.run0 }
  let rings := boundRings n.regions
  let s := s.modCtx k j fun x =>
    { x.blank with life := .live, task := task, ctl := ctl, rings := rings, unfilled := mask, act := false }
  let s := s.setReg (rFn k j) n.fn
  let s := match frame.bind (s.cluster (clusterOf k)).frame with
    | none => s
    | some f => (List.range 56).foldl (fun s b =>
        if bitAt mask.toNat b ∧ tget 0 (s.core k).tags b = j + 1 then
          (s.modCore k fun c => c.putBlock b (frameRows s f b)).modCtx k j fun x =>
            { x with unfilled := x.unfilled &&& ~~~BitVec.ofNat 56 (2 ^ b) }
        else s) s
  let s := match s1 with | some v => startWrite s k j 1 v | none => s
  match s2 with | some v => startWrite s k j 2 v | none => s

/-! ### Preparing a context (R382, R384) -/

/-- One bank of the context's demand: saved for its owner, then reloaded. -/
def prepBank (s : State) (k j b : Nat) : State :=
  let tag := tget 0 (s.core k).tags b
  let x := s.ctx k j
  if x.life = .free ∨ !bitAt x.task.demand.toNat b ∨ tag = j + 1 then s
  else
    let s := if tag = 0 then s
      else
        let y := tag - 1
        let s := landBank s k y b
        match bankSave s k y b with
        | (s, some pa) => terminate s k y 5 pa
        | (s, none) => s.modCtx k y fun x => { x with saved := x.saved ||| BitVec.ofNat 56 (2 ^ b) }
    let own (s : State) : State :=
      (s.modCore k fun c => { c with tags := tput c.tags b (j + 1) }).modCtx k j fun x =>
        { x with saved := x.saved &&& ~~~BitVec.ofNat 56 (2 ^ b), unfilled := x.unfilled &&& ~~~BitVec.ofNat 56 (2 ^ b) }
    if bitAt x.unfilled.toNat b then
      match x.task.frame.bind (s.cluster (clusterOf k)).frame with
      | some f => own (s.modCore k fun c => c.putBlock b (frameRows s f b))
      | none => own s
    else if bitAt x.saved.toNat b then
      match savedRows s k j b with
      | .error pa => terminate s k j 5 pa
      | .ok l => own (s.modCore k fun c => c.putBlock b l)
    else own s

/-- Whether the preparation of a context may go on. -/
def prepReady (s : State) (k j : Nat) : Bool :=
  (List.range 56).all fun b =>
    let tag := tget 0 (s.core k).tags b
    !bitAt (s.ctx k j).task.demand.toNat b || tag == 0 || tag == j + 1 || !bankBusy s k (tag - 1) b

/-- The banks of a context's demand become its own. -/
def prepBanks (s : State) (k j : Nat) : State := applyIn ((List.range 56).foldl (fun s b => prepBank s k j b) s) k j

/-- The core prepares its selected context, whose run watchdog then starts. -/
def bankPrep (s : State) (k : Nat) : State :=
  let c := s.core k
  match c.prim with
  | some j =>
    if !c.prep ∨ !prepReady s k j then s
    else
      let s := prepBanks s k j
      if (s.core k).prim = some j ∧ (s.core k).prep then
        (s.modCore k fun c => { c with prep := false }).modCtx k j fun x => { x with ctl := { x.ctl with runCnt := 0 } }
      else s
  | none => s

/-! ### Sleep, wake and arrivals (R345, R392 to R394) -/

/-- A dormant context goes on at a bundle. -/
def wakeAt (s : State) (k j : Nat) (t : Addr) : State :=
  s.modCtx k j fun x => { x with life := .live, wakeP := none, ctl := { x.ctl with pc := if t = 0xFFFFFFFF then x.ctl.pc else t } }

/-- The first arrival of a core that some dormant context may take, with that context. -/
def arrFits (s : State) (k : Nat) : Option (Nat × Nat) :=
  (s.core k).arrivals.zipIdx.findSome? fun a =>
    ((List.range 8).find? fun j => bitAt a.1.1 j && (s.ctx k j).life == .dormant && !(s.ctx k j).held).map fun j => (a.2, j)
/-- It starts there, and the arrival's credit returns. -/
def arrStart (s : State) (k : Nat) : State :=
  match arrFits s k with
  | none => s
  | some (i, j) =>
    match (s.core k).arrivals[i]? with
    | none => s
    | some a =>
      let s := s.modCore k fun c => { c with arrivals := dropAt c.arrivals i, credits := c.credits + 1 }
      let p := (s.ctx k j).wakeP
      let s := (wakeAt s k j a.2.1).modCtx k j fun x => { x with wakeP := p }
      startWrite (startWrite s k j 1 a.2.2.1) k j 2 a.2.2.2
/-- Every arrival of a core that may start a context does. -/
def arrAll (s : State) (k : Nat) : State := (s.core k).arrivals.foldl (fun s _ => arrStart s k) s

/-- A wake reaches a context; an arrival that has reached it too starts it, and the wake is then pending (R393, R394). -/
def wakeCtx (s : State) (k j : Nat) (t : Addr) : State :=
  let s := if (s.ctx k j).life = .dormant then arrAll s k else s
  let x := s.ctx k j
  if !s.coreOk k then s
  else match x.life with
    | .dormant => if x.held then s.modCtx k j fun x => { x with wakeP := some t } else acquire (wakeAt s k j t) k j
    | .live => s.modCtx k j fun x => { x with wakeP := some t }
    | _ => s

/-- A context becomes dormant, unless a wake is pending; an arrival may take it at once (R392, R394). -/
def sleepCtx (s : State) (k j : Nat) : State :=
  let s := yieldApply s k j
  match (s.ctx k j).wakeP with
  | some t => acquire (wakeAt s k j t) k j
  | none =>
    let s := s.modCtx k j fun x => { x with life := .dormant, held := x.held || x.holdP, holdP := false, plan := none }
    let s := flipIdle s k
    let s := if (s.core k).prim = some j then arbSelect s k else s
    arrStart s k

/-- `hold` and `hold.rel` reach a context (R444). -/
def holdCtx (s : State) (k j : Nat) (h : Bool) : State :=
  let x := s.ctx k j
  if x.life = .free then s
  else if h then s.modCtx k j fun x => if x.life = .dormant then { x with held := true } else { x with holdP := !x.held }
  else
    let s := s.modCtx k j fun x => { x with held := false, holdP := false }
    match x.life, x.wakeP with
    | .dormant, some t => acquire (wakeAt s k j t) k j
    | _, _ => s

/-! ### Traps (R423 to R426, R440) -/

/-- The words of a trap record (Table 18-2). -/
def trapRecord (s : State) (k j : Nat) (t : TrapWait) : Tab Word :=
  let r := t.req
  let w : List Nat := [r.cause + r.slot * 2 ^ 16 + j * 2 ^ 20 + k * 2 ^ 23 + b2n t.sec * 2 ^ 30, t.bpc.toNat + t.rpc.toNat * 2 ^ 32,
    r.info, r.va, r.rw, r.insn, s.now, 0]
  w.zipIdx.foldl (fun m p => tput m p.2 (BitVec.ofNat 64 p.1)) []

/-- Whether a wait is for other contexts, engines or kernels, so that it may never end. -/
def Wait.onOthers : Wait → Bool
  | .nb _ _ => true
  | .tl _ _ => true
  | .pred => true
  | _ => false
/-- Whether everything the context issued earlier is complete (R425 step 2); `RUNOVER` (cause 5) is there to end a wait for
others (R101). -/
def trapReady (s : State) (k j cause : Nat) : Bool :=
  !(s.ctx k j).pend.any (fun p => p.acc.isSome) && (!(s.core k).mq.any fun e => e.ctx == j) &&
  (s.ctx k j).waits.all fun w => waitDone s k j w || (cause == 5 && w.onOthers)

/-- Trap entry (R425): everything issued earlier lands, `fmt` too, whose old value is kept because its position is counted
in the task's bundles (R103); loops and promises are set aside, the record is written, and the handler's first bundle is
the one at `CCB_TVEC`.  The positions of latches, `mbest` and tiles, whose values have landed, go with the promises. -/
def trapEnter (s : State) (k j : Nat) (t : TrapWait) : State :=
  let x0 := s.ctx k j
  let past := x0.waits.filter fun w => waitDone s k j w
  let rest := x0.waits.filter fun w => !waitDone s k j w
  let s := past.foldl (fun s w => waitFinish s k j w) (landAll (touchAll s k j) k j)
  let s := s.dropWalks k j
  let words := trapRecord s k j t
  let pc : Addr := BitVec.ofNat 32 (s.reg (rTvec k))
  let kept := x0.pend.map fun (p : Pend) => if p.dest = .fmt then p else { p with landed := true }
  s.modCtx k j fun x =>
    let h : Handler := { on := true, loops := x.ctl.loops, bcount := x.bcount, cause := t.req.cause, bpc := t.bpc, waits := rest,
                         fmt0 := x0.ctl.fmt, fmt1 := x.ctl.fmt, pend := kept, latchDue := x.latchDue, mbestDue := x.mbestDue,
                         tileDue := x.tileDue, valDue := x.valDue }
    { x with trapP := none, plan := none, trec := words, pend := [], waits := [], hand := h, latchDue := [], mbestDue := 0, tileDue := [],
             valDue := [], ctl := { x.ctl with loops := [], pc := pc } }

/-- A pending trap is entered once it may be. -/
def trapTry (s : State) (k j : Nat) : State :=
  match (s.ctx k j).trapP with
  | some t => if trapReady s k j t.req.cause then trapEnter s k j t else s
  | none => s

/-- A bundle traps (R423): in handler mode the context is terminated (R426); else entry follows.  A group the rewrite stage
had decided is undone, and one that trapped as a replacement is decided unrewritten the next time (R292). -/
def trapTake (s : State) (k j : Nat) (t : TrapWait) : State :=
  if (s.ctx k j).hand.on then
    terminate (s.modCtx k j fun x => { x with trapP := some t }) k j 4 t.req.cause
  else trapTry (s.modCtx k j fun x => { x with trapP := some t, plan := none, rwSupp := x.rwSupp || t.req.rw != 0 }) k j

/-- `rfe` (R440): the task's loops, promises and waits return; the handler's own results keep their distance.  Where the
handler left `fmt` alone, a write to it that entry made land takes effect at its own position again; a wait that another
slot of its bundle begins stays. -/
def rfe (s : State) (k j : Nat) (t : Addr) : State :=
  s.modCtx k j fun x =>
    let own := x.pend.map fun p => { p with due := p.due + x.hand.bcount - x.bcount }
    let back_ (n : Nat) : Nat := n + x.hand.bcount - x.bcount
    let rebase (mine task : Tab Nat) : Tab Nat :=
      mine.foldl (fun m e => if e.2 ≤ x.bcount then m else tput m e.1 (max (tget 0 m e.1) (back_ e.2))) task
    let same := x.hand.fmt0 != x.hand.fmt1 && x.ctl.fmt == x.hand.fmt1
    let back := if same then x.hand.pend else x.hand.pend.map fun (p : Pend) => if p.dest = .fmt then { p with landed := true } else p
    { x with hand := {}, pend := own.foldl (fun l p => addPend l p) back, bcount := x.hand.bcount, waits := x.hand.waits ++ x.waits,
             latchDue := rebase x.latchDue x.hand.latchDue, tileDue := rebase x.tileDue x.hand.tileDue,
             valDue := rebase x.valDue x.hand.valDue,
             mbestDue := if x.mbestDue ≤ x.bcount then x.hand.mbestDue else max x.hand.mbestDue (back_ x.mbestDue),
             ctl := { x.ctl with loops := x.hand.loops, pc := t, fmt := if same then x.hand.fmt0 else x.ctl.fmt,
                                 runCnt := if x.hand.cause = 5 then 0 else x.ctl.runCnt } }

/-! ### Barriers (R206, R209) -/

/-- All updates of one cycle applied together, and the completion test; a remainder reduces PEND alone (R207). -/
def barrierStep (b : Barrier) (err : Bool) (a x y rem : Nat) : Barrier :=
  let b := { b with err := b.err || err, pend := b.pend - BitVec.ofNat 32 rem }
  let b := if b.cnt = 0 then { b with ovr := b.ovr || decide (0 < a) }
    else if b.cnt < b.arr + a then { b with ovr := true, arr := b.cnt } else { b with arr := b.arr + a }
  let b := { b with pend := b.pend + BitVec.ofNat 32 x - BitVec.ofNat 32 y, dlv := b.dlv + BitVec.ofNat 32 y }
  if b.cnt ≠ 0 ∧ b.arr = b.cnt ∧ b.pend = 0 then
    { b with ph := !b.ph, arr := 0, ldlv := b.dlv, lerr := b.err, lovr := b.ovr, dlv := 0, err := false, ovr := false }
  else b

/-- A barrier whose fields are all unpredictable (R209). -/
def barrierFree (s : State) (key : Nat) : Barrier :=
  let v (i n : Nat) : Nat := s.free (key + i) % 2 ^ n
  { pend := BitVec.ofNat 32 (v 0 32), arr := v 1 10, cnt := v 2 10, ph := v 3 1 == 1, err := v 4 1 == 1, ovr := v 5 1 == 1,
    lerr := v 6 1 == 1, lovr := v 7 1 == 1, dlv := BitVec.ofNat 32 (v 8 32), ldlv := BitVec.ofNat 32 (v 9 32) }

/-- Whether a context waits on a barrier, under its handler too. -/
def Ctx.waitsOn (x : Ctx) (b : Nat) : Bool :=
  (x.waits ++ x.hand.waits).any fun w => match w with | .nb n _ => n == b | _ => false

/-- Whether a `cm.acc` or `cm.trim` that has not completed is to arrive at barrier b of core k (R412, R415). -/
def Cmd.arrives (s : State) (k b : Nat) (c : Cmd) : Bool :=
  let a := c.bf (if c.fn = 1 then 42 else 10) 1
  c.eng == 5 && (c.fn == 1 || c.fn == 3) && bitAt a 6 && a % 64 == b && c.drop == 0 && !(c.fn == 1 && c.prog == 2) &&
  (if c.started then c.list else (gLists s c).2.1).any fun w => w % 128 == k
/-- Whether a copy command is tied to barrier b of core k. -/
def Cmd.tiedTo (s : State) (k b : Nat) (c : Cmd) : Bool := (c.tied s).any (· == k) && c.tieE && c.tieB == b
/-- Whether a barrier is in use: a context waits on it, or an arrival or a tied transfer for it is in flight, from the issue of its
command on (R209). -/
def barrierUsed (s : State) (k b : Nat) (rest : List (Nat × BarUpd)) : Bool :=
  let c := s.core k
  (List.range 8).any (fun j => (c.ctx j).waitsOn b) ||
  rest.any (fun u => u.1 == b && (u.2.a != 0 || u.2.y != 0 || u.2.rem != 0)) ||
  c.sends.any (fun r => r.tie == some b) ||
  s.cores.any (fun d => d.2.copies.any (Cmd.tiedTo s k b) ||
    d.2.ctxs.any fun x => (x.2.tl 0).queue.any (Cmd.tiedTo s k b) || (x.2.tl 5).queue.any (Cmd.arrives s k b)) ||
  s.dies.any (fun d => d.2.gens.any (Cmd.arrives s k b)) ||
  (List.range 4).any fun m =>
    let d := s.core (4 * clusterOf k + m)
    (List.range 8).any fun j => (d.ctx j).posted.any fun a => match a.kind with | .arrive k' b' => k' == k && b' == b | _ => false

/-- Waits of a context for a phase of a barrier that has come are over, whatever the barrier does next (R208). -/
def Ctx.phaseCome (x : Ctx) (b : Nat) (ph : Bool) : Ctx :=
  let past (w : Wait) : Wait := match w with | .nb n q => if n = b ∧ ph ≠ q then .nbDone else w | _ => w
  { x with waits := x.waits.map past, hand := { x.hand with waits := x.hand.waits.map past } }

/-- The updates of a barrier that have reached it (R206), once a cycle; an initialisation of one in use leaves it
unpredictable. -/
def barrierUpdate (s : State) (k b : Nat) : State :=
  let c := s.core k
  let mine := c.nbIn.filter fun u => u.1 == b && decide (u.2.ready ≤ s.now)
  let rest := c.nbIn.filter fun u => !(u.1 == b && decide (u.2.ready ≤ s.now))
  if mine = [] ∨ tget 0 c.nbAt b = s.now + 1 then s
  else
    let sum (f : BarUpd → Nat) : Nat := mine.foldl (fun n u => n + f u.2) 0
    let init := (mine.filterMap fun u => u.2.init).getLast?
    let old := c.nb b
    let base : Barrier := match init with | some n => { cnt := n } | none => old
    let err := mine.any fun u => u.2.err
    let nb := barrierStep base err (sum (·.a)) (sum (·.x)) (sum (·.y)) (sum (·.rem))
    let busy := init.isSome && (barrierUsed s k b rest || mine.any fun u => u.2.a != 0 || u.2.y != 0 || u.2.rem != 0)
    let v := if busy then barrierFree s (890000 + 16 * b) else nb
    let s := s.setCore k { c with nbIn := rest, nbs := tput c.nbs b v, nbAt := tput c.nbAt b (s.now + 1) }
    (List.range 8).foldl (fun s j => if (s.ctx k j).waitsOn b then s.modCtx k j fun x => x.phaseCome b v.ph else s) s

end Sys2Proof.Machine
end

