-- ==== Sys2Proof/Machine/Access.lean ====
section
/-! DEFINITION. The accesses of a context that have issued and not yet performed: in which order they may perform, and what each
does when it does (R176 to R180, R191 to R203, R212, R218, R393, R453). -/

namespace Sys2Proof.Machine

/-- A translation as it stands, for what only has to know where an access would go. -/
def State.xlPeek (s : State) (q fn va : Nat) (priv : Bool) : Xr :=
  match (s.cluster q).tlbFind fn va with
  | some t => s.access t va false false priv false
  | none => match s.walk fn va with
    | .ok t => s.access t va false false priv false
    | .error e => .fault e.1 e.2

/-- Whether an address translates for a function, for `inv.l1` and `wb.l1` (R218). -/
def translates (s : State) (k fn va : Nat) : Bool :=
  ((s.cluster (clusterOf k)).tlbFind fn va).isSome || (match s.walk fn va with | .ok _ => true | .error _ => false)
/-- Whether a line of L1 lies in the range of `inv.l1` or `wb.l1` (R218), by the virtual address of the access that allocated it
(log entry 116, DESIGN CHOICE). -/
def lineNamed (s : State) (k fn : Nat) (rg : Option (Nat × Nat)) (l : L1Line) : Bool :=
  match rg with
  | none => true
  | some (ea, n) => decide (ea ≤ l.va) && decide (l.va < ea + 128 * n) && translates s k fn l.va

/-- The 128-byte row an access is to, as (space, number): 0 to 2 as TGT, 3 and above a scratchpad. -/
def accRow (s : State) (k : Nat) (a : Acc) : Option (Nat × Nat) :=
  match a.loc with
  | .win q w => some (3 + q, w)
  | .phys t _ pa => some (t, pa / 128)
  | .virt va => match s.xlPeek (clusterOf k) a.fn va a.priv with
    | .ok t _ pa => some (t, pa / 128)
    | _ => none
  | .nowhere => none
/-- Whether an access reads at its place only, or writes there. -/
def AccKind.loads : AccKind → Bool
  | .load => true
  | .acq => true
  | .ldg _ _ => true
  | _ => false
/-- Whether it is a row of an `ldg`. -/
def AccKind.rows : AccKind → Bool
  | .ldg _ _ => true
  | _ => false
def AccKind.writes : AccKind → Bool
  | .store => true
  | .nt => true
  | .rel => true
  | .atom _ _ _ _ => true
  | _ => false
/-- Markers and releases perform after everything before them (R197, R200, R208, R393). -/
def AccKind.last : AccKind → Bool
  | .rel => true
  | .fence => true
  | .arrive _ _ => true
  | .wake _ _ _ => true
  | _ => false
/-- The peer device a write goes to. -/
def Acc.peer (a : Acc) : Option Nat :=
  match a.loc with
  | .phys 2 _ pa => if a.kind.writes then some (bitsAt pa 48 4) else none
  | _ => none
/-- Whether a write goes into L1. -/
def Acc.intoL1 (a : Acc) : Bool := a.kind == .store && (match a.loc with | .phys 0 _ _ => true | _ => false)
/-- Whether access a of a context may not perform before its earlier access b has: b is a fence, or an acquire of an earlier
bundle; b is a load and a a store of one bundle; both are to one row, or writes to one peer; or b is a store that the
write-backs a stand for have to cover (R191, R194, R197, R199, R212, R218). -/
def accAfter (s : State) (k : Nat) (b a : Acc) : Bool :=
  b.kind == .fence || (b.kind == .acq && b.bun != a.bun) || (b.kind.loads && a.kind.writes && b.bun == a.bun) ||
  (b.peer.isSome && b.peer == a.peer) || (b.intoL1 && match a.kind with | .wb _ => true | _ => false) ||
  (let r := accRow s k a; r.isSome && accRow s k b == r)
/-- Whether an access may perform after the given earlier ones of its context. -/
def accFree (s : State) (k : Nat) (before : List Acc) (a : Acc) : Bool :=
  if a.kind.last then before == [] else !before.any fun b => accAfter s k b a
/-- Whether access i of a context may perform. -/
def accReady (s : State) (k j i : Nat) : Bool :=
  let l := (s.ctx k j).posted
  match l[i]? with
  | none => false
  | some a => accFree s k (l.take i) a

/-- The destination of a packet, for the escape channel (R183): a slice, the host, or a peer. -/
def packetTo (s : State) (a : Acc) : Option Nat :=
  match a.loc with
  | .phys 0 part pa => some (s.sliceOf part pa)
  | .phys 1 _ _ => some 64
  | .phys _ _ pa => some (65 + bitsAt pa 48 4)
  | _ => none
/-- An access leaves the list; a pair of source and destination without outstanding packet leaves the escape channel. -/
def accDone (s : State) (k j i : Nat) (a : Acc) : State :=
  let s := s.modCtx k j fun x => { x with posted := dropAt x.posted i }
  match packetTo s a with
  | none => s
  | some d =>
    if (List.range 8).any fun n => (s.ctx k n).posted.any fun b => packetTo s b == some d then s
    else { s with escaped := tset false s.escaped (128 * k + d) false }

/-- The value of an access reaches the result that waits for it. -/
def accReturn (s : State) (k j key v : Nat) : State :=
  let got (p : Pend) : Pend := if p.acc = some key then { p with acc := none, val := row v } else p
  s.modCtx k j fun x => { x with pend := x.pend.map got }

/-- The place of an access's first byte behind its translation. -/
def Acc.pa (a : Acc) (pa : Nat) : Nat := pa / 128 * 128 + a.lo

/-- Writing the bytes of a store or atomic at its place; uncorrectable places send the context a message (R179, R435,
R453). -/
def accWrite (s : State) (k j : Nat) (a : Acc) (v : Nat) : State :=
  match a.loc with
  | .win q w =>
    let v := row (v <<< (8 * a.lo))
    s.storeRow q w (row (onesAt (8 * a.lo) (8 * a.len))) (if a.spoil = 0 then v else blend a.spoil (row (s.free (840000 + w))) v)
  | .phys t part pa =>
    let p := a.pa pa
    if t = 0 ∧ a.kind = .store then s.l1Write k j a.fn part p a.len v (va52 a.va / 128 * 128)
    else
      let s := if t = 0 then s.l1Evict k (p / 128) else s
      if s.physWBad t part p a.len then s.ueMsg k j p
      else if a.kind = .nt ∧ t = 0 then
        let s := s.lpClean part p
        if !s.sliceReady (s.sliceOf part p) || !s.chanReady p then s.hold
        else if s.inImage p then s
        else
          let whole := (List.range 2).filter fun i => decide (a.len = 128) && tget false s.badUnits (p / 64 + i)
          State.tableSoft { s with dram := s.dram.writeN p v a.len,
                                   badUnits := whole.foldl (fun m i => tset false m (p / 64 + i) false) s.badUnits } part p a.len (k, j)
      else s.physWrite t part p a.len v (k, j)
  | _ => s

/-- Reading the bytes of a load or atomic at its place, or the address found uncorrectable. -/
def accRead (s : State) (k : Nat) (a : Acc) : State × Except Nat Nat :=
  match a.loc with
  | .win q w =>
    let free := a.open_ || s.coloPend q w (2 ^ 64) || (s.core q).updBusy w
    (s, .ok (bitsAt (if free then s.free (790000 + w) % 2 ^ 1024 else s.padRow q w) (8 * a.lo) (8 * a.len)))
  | .phys t part pa =>
    let p := a.pa pa
    let s := if t = 0 then s.l1Evict k (p / 128) else s
    if s.physBad t part p a.len then (s, .error p) else (s.physTouch t part p a.len, .ok (s.physRead t part p a.len))
  | _ => (s, .ok 0)

/-- A load of another row than the local path's disturbs a matrix entry that is changing it (R278). -/
def accTouch (s : State) (a : Acc) : State := match a.loc with | .win q w => s.mxTouch q w .load | _ => s

/-- The record of a program ring's fault (Table 18-5). -/
def ringRecordWord (k j h slot kind addr : Nat) : Nat :=
  14 * 2 ^ 64 + kind * 2 ^ 80 + ctxCore k j * 2 ^ 88 + h * 2 ^ 128 + slot * 2 ^ 144 + addr % 2 ^ 64 * 2 ^ 320
/-- A row of an `ldg` reaches its slot, or leaves it faulted and zero (R176, R178). -/
def ldgRow (s : State) (k j h slot : Nat) (a : Acc) (va : Nat) : State :=
  let r := (s.ctx k j).ring h
  let fin (s : State) (kind v : Nat) : State :=
    ringProduced ((s.storeRow k (r.base + slot) rowMask (row v)).modCtx k j fun x =>
      x.setRing h ((x.ring h).land slot kind)) k j h false
  let bad (s : State) (kind addr : Nat) : State := fin (s.errRecord k j (ringRecordWord k j h slot kind addr)) kind 0
  match if va / 2 ^ 52 ≠ 0 then (s, Xr.fault 7 0) else s.xlNow (clusterOf k) a.fn va false a.priv with
  | (s, .ok t part pa) =>
    let p := pa / 128 * 128
    if t = 0 then
      if s.l1Bad k part p then bad s 2 p else let r := s.l1Read k j part p va; fin r.1 0 r.2
    else if s.physBad t part p 128 then bad s 2 p else fin s 0 (s.physRead t part p 128)
  | (s, _) => bad s 1 va

/-- Whether the host answers an atomic with something other than Successful Completion (R191): the fourth argument of the step
in which it performs says so (log entry 115, DESIGN CHOICE). -/
def State.hostRefuses (s : State) (a : Acc) : Bool :=
  s.arg.getD 3 0 == 1 && match a.loc with | .phys 1 _ _ => true | _ => false

/-- What an access does when it performs. -/
def accPerform (s : State) (k j : Nat) (a : Acc) : State :=
  let rel (s : State) : State := if 2 ≤ a.scope then s.l1Release k j else s
  match a.kind with
  | .store => accWrite s k j a a.data.toNat
  | .nt => accWrite s k j a a.data.toNat
  | .rel => accWrite (rel s) k j a a.data.toNat
  | .fence => if 2 ≤ a.scope then l1Fresh (rel s) k else s
  | .wb rg => s.l1FlushIf k (lineNamed s k a.fn rg)
  | .arrive q b => (rel s).nbAdd q b { a := 1, ready := max s.now a.va, src := 8 * k + j + 1 }
  | .wake q n t => wakeCtx (rel s) q n t
  | .load => match accRead (accTouch s a) k a with
    | (s, .ok v) => accReturn s k j a.key v
    | (s, .error p) => s.ueMsg k j p
  | .acq => match accRead (accTouch s a) k a with
    | (s, .ok v) => accReturn (if 2 ≤ a.scope then acquire s k j else if a.scope = 1 then s.l1Observe k j else s) k j a.key v
    | (s, .error p) => s.ueMsg k j p
  | .atom op w64 v v2 => if s.hostRefuses a then s.ueMsg k j (match a.loc with | .phys _ _ pa => a.pa pa | _ => 0) else match accRead (accTouch s a) k a with
    | (s, .ok old) =>
      let w := 8 * a.len
      let s := accWrite s k j a (atomNew op w old v.toNat v2.toNat)
      if a.ret then accReturn s k j a.key (sextW (if w64 then 64 else 32) old).toNat else s
    | (s, .error p) => s.ueMsg k j p
  | .ldg h slot => match a.loc with
    | .virt va => ldgRow s k j h slot a va
    | _ => s

/-- Access i of a context performs, if it is of the given sort and may. -/
def accGo (s : State) (k j i : Nat) (f : Acc → Bool) : State :=
  match (s.ctx k j).posted[i]? with
  | none => s
  | some a => if f a && accReady s k j i then accPerform (accDone s k j i a) k j a else s

end Sys2Proof.Machine
end

