-- ==== Sys2Proof/Machine/Rewrite.lean ====
section
/-! DEFINITION. Fetching a bundle (R22) and the rewrite stage: groups, rules, the built replacements and their plan
(R281 to R298). -/

namespace Sys2Proof.Machine

/-! ### Fetch (R22) -/

/-- What fetching a bundle gives: its word, a fault of kind and level at a virtual address, a page still to be walked, or
uncorrectable data at a physical address (R435). -/
inductive Fetch where
  | word (w : Nat)
  | fault (kind level va : Nat)
  | miss (page : Nat)
  | bad (pa : Nat)
  deriving DecidableEq, Repr

/-- The image a context fetches from (R22). -/
def State.imageOf (s : State) (k j : Nat) : Nat :=
  let x := s.ctx k j
  if x.hand.on then bitsAt (s.reg (rTvec k)) 32 8 else x.task.img

/-- Bundle n of the context's image (R22).  Of several faults a bundle number outside the image comes first, then those of the
translation, then a place outside the copy (log entry 109, DEDUCED). -/
def State.fetch (s : State) (k j n : Nat) : Fetch :=
  let i := s.imageOf k j
  let pb := s.reg (rImgPb i)
  let va := s.reg (rImgVb i) / 64 * 64 + 64 * n
  if !bitAt pb 0 ∨ s.reg (rImgNb i) % 2 ^ 32 ≤ n then .fault 3 0 (va52 va)
  else if va / 2 ^ 52 ≠ 0 then .fault 7 0 (va52 va)
  else match s.xlate k j va false true false with
    | .fault kd l => .fault kd l va
    | .miss => .miss (va / 4096)
    | .ok tgt part pa =>
      let base := pb % 2 ^ 52 / 64 * 64
      let len := ((s.images.find? fun m => m.kind == 1 && m.idx == i).map (·.len)).getD 0
      if tgt ≠ 0 ∨ pa < base ∨ base + len < pa + 64 then .fault 3 0 va
      else if s.lpBad part pa 64 then .bad pa
      else .word (s.lpRead part pa 64)
/-- What fetching it does to the stacks (R180). -/
def State.fetchTouch (s : State) (k j n : Nat) : State :=
  match s.fetch k j n, s.xlate k j (s.reg (rImgVb (s.imageOf k j)) / 64 * 64 + 64 * n) false true false with
  | .word _, .ok _ part pa => s.lpTouch part pa 64
  | _, _ => s

/-! ### Tile instructions (R281, R288) -/

/-- A tile instruction of a group: the bundle's offset from b0, its slot, its field. -/
structure TIns where
  b : Nat
  slot : Slot
  f : Nat
  deriving DecidableEq, Repr

/-- Slot codes of a rule (R293). -/
def slotNo : Slot → Nat
  | .mx => 0 | .xf => 1 | .rd => 2 | _ => 3
def slotOfNo (n : Nat) : Slot := if n = 0 then .mx else if n = 1 then .xf else .rd
/-- Whether an opcode of MX (0), XF (1) or RD (2) is that of a tile instruction. -/
def tileOp (sl op : Nat) : Bool :=
  if sl = 0 then op == 1 || (3 ≤ op && op ≤ 7) else if sl = 1 then 1 ≤ op && op ≤ 9 else sl == 2 && 1 ≤ op && op ≤ 7
def TIns.op (t : TIns) : Nat := fld t.f t.slot.opField.1 t.slot.opField.2
/-- The 12-bit key. -/
def TIns.key (t : TIns) : Nat :=
  match t.slot with
  | .mx => fld t.f 0 1 + fld t.f 1 1 * 2 + fld t.f 13 1 * 4 + fld t.f 16 5 * 8 + fld t.f 22 1 * 256
  | .xf => fld t.f 12 9
  | _ => fld t.f 7 12
/-- Low bit and width of operand o, H included. -/
def operandAt (sl : Slot) (o : Nat) : Nat × Nat :=
  match sl with
  | .mx => if o = 0 then (34, 3) else if o = 1 then (28, 6) else (22, 6)
  | .xf => (4 * o, 4)
  | _ => if o = 0 then (0, 2) else (2, 6)
/-- The encoded register field of operand o; a source with its H above the register number, whichever side of the number the slot
keeps it on (R288, R289). -/
def TIns.opd (t : TIns) (o : Nat) : Nat :=
  let p := operandAt t.slot o
  let v := fld t.f p.1 p.2
  if t.slot = .mx ∧ o = 2 then v / 2 + 32 * (v % 2) else v

/-- The transform register that operand o (d, a, b) of an XF instruction is, if it is one. -/
def xfRegAt (i : Instr) (o : Nat) : Option (BitVec 4) :=
  let at3 (d a b : Option (BitVec 4)) : Option (BitVec 4) := if o = 0 then d else if o = 1 then a else b
  match i with
  | .xfCvt _ _ d a _ _ => at3 d a none
  | .xfTr _ d a => at3 d a none
  | .xfExpZr d a => at3 d a none
  | .xfExpSp24 _ d a => at3 d a none
  | .xfPack _ d a => at3 d a none
  | .xfRot d a b _ => at3 d a b
  | .xfScl _ _ _ d a b => at3 d a b
  | .xfColW d b => at3 d none b
  | .xfColChk _ a => at3 none a none
  | .xfColRd d a => at3 d a none
  | .xfSwz d a _ _ => at3 d a none
  | .xfMvRow d a => at3 d a none
  | .xfMvScalar _ a => at3 none a none
  | .xfMvReg d a => at3 d a none
  | _ => none
/-- The transform registers an XF instruction names. -/
def xfRegs (i : Instr) : List (BitVec 4) := (List.range 3).filterMap (xfRegAt i)
/-- Those whose ROW it uses as a row address (Table 09-2). -/
def xfRowRegs (i : Instr) : List (BitVec 4) :=
  match i with
  | .xfScl _ false _ d a _ => [d, a]
  | .xfColW d _ => [d]
  | .xfColRd _ a => [a]
  | .xfMvScalar _ _ => []
  | .xfMvReg _ _ => []
  | i => xfRegs i
/-- The transform register an XF instruction writes. -/
def xfDest : Instr → List Nat
  | .xfColRd d _ => [d.toNat]
  | .xfMvReg d _ => [d.toNat]
  | _ => []
/-- The plane operand of a tile instruction, a source or a destination with its H. -/
def planeOpd : Instr → Option ASrc
  | .rdAdd _ a _ _ => some a
  | .rdKadd _ a _ _ => some a
  | .rdMax _ a _ _ => some a
  | .rdMin _ a _ _ => some a
  | .rdAmax _ a _ _ => some a
  | .mma _ _ a _ _ _ _ => some a
  | .mop _ _ a _ _ => some a
  | .mldW _ a _ _ => some a
  | .mdrain _ a _ => some a
  | _ => none
/-- The base register of a plane operand with H = 0. -/
def planeReg (i : Instr) : Option (BitVec 5) := ((planeOpd i).filter fun a => !a.h).map (·.r)
/-- The instruction of a field. -/
def TIns.ins (t : TIns) : Instr := ((decSlot t.slot t.f).ins).getD .mxNop

/-- The register a row value comes from: an XF register, or an `la` source with H = 0 (R289). -/
def TIns.rowReg (x : Ctx) (t : TIns) (o : Nat) : Option Dest :=
  match t.slot with
  | .xf => (xfRegAt t.ins o).map fun n => .x n.toNat
  | .mx => if o = 2 then (planeReg t.ins).map fun n => x.laD n.toNat else none
  | _ => if o = 1 then (planeReg t.ins).map fun n => x.laD n.toNat else none
/-- The row value of an operand. -/
def rowValue (s : State) (k j : Nat) (t : TIns) (o : Nat) : Option Nat :=
  (t.rowReg (s.ctx k j) o).map fun d =>
    match d with
    | .x _ => xRow (rawD s k j d)
    | _ => bitsAt (rawD s k j d) 7 13
/-- Latency of a tile instruction (Tables 09-5, 10-7). -/
def tileLat (s : State) (i : Instr) : Nat :=
  match i with
  | .mma _ _ _ r _ _ _ => entryTime s.fAF s.fBF (r.toNat + 1) + 14
  | .mop _ _ _ r _ => entryTime s.fAF s.fBF (r.toNat + 1) + 14
  | .mdrain _ _ r => (r.toNat + 1) * rhoD s.fDF + 7
  | .mrow _ _ _ _ _ => 4
  | .mclr _ => 1
  | .xfCvt _ _ _ _ _ _ => 6
  | .xfTr _ _ _ => 8
  | .xfExpZr _ _ => 6
  | .xfExpSp24 _ _ _ => 6
  | .xfPack _ _ _ => 6
  | .xfRot _ _ _ _ => 3
  | .xfScl _ _ _ _ _ _ => 6
  | .xfColW _ _ => 6
  | .xfColRd _ _ => 6
  | .xfSwz _ _ _ _ => 3
  | .xfMvRow _ _ => 2
  | .xfMvScalar _ _ => 2
  | .xfMvReg _ _ => 2
  | .rdMv _ _ _ _ _ _ => 2
  | .rdAdd _ _ _ _ => 6
  | .rdKadd _ _ _ _ => 6
  | .rdMax _ _ _ _ => 6
  | .rdMin _ _ _ _ => 6
  | .rdAmax _ _ _ _ => 6
  | .rdClr _ _ _ => 6
  | _ => 0

/-- What a tile instruction writes, as (kind, number): 0 a row, 1 row i of tile n as 64n + i with 32 for its counts, 2 a
weight slot, 3 a latch, 4 a scalar, 5 and 6 a vector register of VA and VB, 7 a transform register, one that AUTO steps among them
(R228), 8 the tile state. -/
def tileDests (s : State) (i : Instr) : List (Nat × Nat) :=
  ((xfRowRegs i).filter fun n => bitAt (s.rdX 10 n.toNat) 15).map (fun n => (7, n.toNat)) ++
  let rw (d : BitVec 4) (n : Nat) : List (Nat × Nat) := (List.range n).map fun m => (0, (xAddr s d + m) % 8192)
  let tile (a : BitVec 3) (n : Nat) : List (Nat × Nat) := (1, 64 * a.toNat + 32) :: (List.range n).map fun m => (1, 64 * a.toNat + m)
  let vf (f : VFile) (n : Nat) : Nat × Nat := (if f = .va then 5 else 6, n)
  match i with
  | .mma a _ _ r _ _ _ => tile a (r.toNat + 1)
  | .mop a _ _ _ _ => tile a 32
  | .mldW w _ _ _ => (2, w.toNat) :: (if wide16 s.fBF then [(2, w.toNat + 1)] else [])
  | .mdrain _ a r =>
    let n := (r.toNat + 1) * rhoD s.fDF + b2n (s.fDF != 4 && s.fDF != 10)
    let g := s.ix.ring a.r.toNat
    (List.range n).map fun m => (0, if a.h then g.base + g.slotAt g.res m else (bitsAt (s.rdLa 5 a.r.toNat) 7 13 + m) % 8192)
  | .mrow _ f q _ _ => (List.range 4).map fun m => vf f (q.toNat * 4 + m)
  | .mclr a => tile a 32
  | .xfCvt _ _ d _ _ w => rw d 1 ++ (if w then [(8, 0)] else [])
  | .xfTr _ d _ => rw d 8
  | .xfExpZr d _ => rw d 1
  | .xfExpSp24 _ d _ => rw d 1
  | .xfPack _ d _ => rw d 1
  | .xfRot d _ _ _ => rw d 1
  | .xfScl _ _ _ d _ _ => rw d 1
  | .xfColW d _ => (8, 0) :: rw d 1
  | .xfColClr => [(8, 0)]
  | .xfColRd d _ => [(7, d.toNat)]
  | .xfSwz d _ _ _ => rw d 1
  | .xfMvRow d _ => rw d 1
  | .xfMvScalar n _ => [(4, n.toNat)]
  | .xfMvReg d _ => [(7, d.toNat)]
  | .rdAdd l _ _ _ => [(3, l.toNat)]
  | .rdKadd l _ _ _ => [(3, l.toNat)]
  | .rdMax l _ _ _ => [(3, l.toNat)]
  | .rdMin l _ _ _ => [(3, l.toNat)]
  | .rdAmax l _ _ _ => [(3, l.toNat)]
  | .rdMv l _ _ d _ c => (match d with | .v r => vf r.f r.n.toNat | .s n => (4, n.toNat)) :: (if c then [(3, l.toNat)] else [])
  | .rdClr m _ _ => ((List.range 4).filter fun l => bitAt m.toNat l).map fun l => (3, l)
  | _ => []

/-! ### Rules (R293, R294) -/

def rPat (r k : Nat) : Nat := bitsAt r (16 + 32 * k) 32
def rCon (r c : Nat) : Nat := bitsAt r (144 + 12 * c) 12
def rRep (r q : Nat) : Nat := bitsAt r (192 + 16 * q) 16
def rNp (r : Nat) : Nat := bitsAt r 3 2
def rNr (r : Nat) : Nat := bitsAt r 5 3
def pSl (p : Nat) : Nat := p % 4
def pOp (p : Nat) : Nat := bitsAt p 2 6
def pKv (p : Nat) : Nat := bitsAt p 8 12
def pKm (p : Nat) : Nat := bitsAt p 20 12
def cKind (c : Nat) : Nat := c % 4
def cI (c : Nat) : Nat := bitsAt c 2 2
def cOi (c : Nat) : Nat := bitsAt c 4 2
def cJ (c : Nat) : Nat := bitsAt c 6 2
def cOj (c : Nat) : Nat := bitsAt c 8 2
def sPos (q : Nat) : Nat := q % 4
def sFrom (q : Nat) : Nat := bitsAt q 2 2
def sOp (q : Nat) : Nat := bitsAt q 4 6
def sKx (q : Nat) : Nat := bitsAt q 10 4
def sSb (q : Nat) : Nat := bitsAt q 14 2

/-- The conditions under which `rw.ld` leaves V standing (R294). -/
def ruleOk (r : Nat) : Bool :=
  let np := rNp r
  let nr := rNr r
  let sl (k : Nat) : Nat := pSl (rPat r k)
  let nOp (k : Nat) : Nat := if sl k = 2 then 2 else 3
  let reps := List.range nr
  bitsAt r 12 4 == 0 && nr ≤ 4 && bitsAt r 1 2 != 3 && ((List.range 4).all fun k =>
    if np < k then rPat r k == 0
    else let p := rPat r k
      pSl p != 3 && tileOp (pSl p) (pOp p) && (pKv p &&& (4095 - pKm p)) == 0) &&
  ((List.range 4).all fun k => k ≤ np || !bitAt r (8 + k)) &&
  ((List.range 4).all fun c =>
    let v := rCon r c
    bitsAt v 10 2 == 0 && cI v ≤ np && cJ v ≤ np && cOi v < nOp (cI v) && cOj v < nOp (cJ v)) &&
  ((List.range 4).all fun q =>
    let v := rRep r q
    if nr ≤ q then v == 0
    else
      let b := sSb v
      let c := rCon r (b - 1)
      sPos v ≤ np && sFrom v ≤ np && sl (sFrom v) == sl (sPos v) && tileOp (sl (sFrom v)) (sOp v) &&
      (reps.all fun m => m == q || sPos (rRep r m) != sPos v) &&
      (b == 0 || (2 ≤ cKind c && cJ c == sFrom v &&
        (if b = 3 then sl (sFrom v) == 1 && sOp v == 6 && cOj c == 2 && sl (cI c) == 1
         else (if sl (sFrom v) = 0 then cOj c == 2 else if sl (sFrom v) = 2 then cOj c == 1 else true)))))

/-- `rw.ld` and `rw.inv` are flush points for every context of the core (R285): a group whose b0 is held is decided unrewritten. -/
def Core.rwFlush (c : Core) : Core :=
  { c with ctxs := c.ctxs.map fun (p : Nat × Ctx) =>
      let x := p.2
      if x.rwHold = some x.ctl.pc then (p.1, { x with rwHold := none, plan := some { orig := true, todo := [(x.ctl.pc, [])] } })
      else (p.1, { x with rwHold := none }) }

/-- `rw.ld` of an installed and verified image (R296). -/
def rwLoad (s : State) (k img : Nat) : State :=
  let s := s.modCore k Core.rwFlush
  match s.images.find? fun m => m.kind == 2 && m.idx == img && m.ver with
  | none => s.modCore k fun c => { c with rules := [], rwImg := img, rwImgV := false, rwErr := true }
  | some m =>
    let rs := (m.rules.take 64).zipIdx.map fun p =>
      (p.2, if bitAt p.1.toNat 0 ∧ !ruleOk p.1.toNat then p.1 &&& ~~~1#256 else p.1)
    s.modCore k fun c => { c with rules := rs.filter fun p => p.2 != 0, rwImg := img, rwImgV := true, rwErr := false }

/-- `rw.inv` (R297). -/
def rwInval (s : State) (k : Nat) (n : Option Nat) : State :=
  (s.modCore k Core.rwFlush).modCore k fun c => { c with rules := (c.rules.map fun p =>
    if n.isNone ∨ n = some p.1 then (p.1, p.2 &&& ~~~1#256) else p).filter fun p => p.2 != 0 }

/-! ### Groups (R282, R283) -/

/-- What a bundle is to a group: not yet translated, unfit, or fit with its tile instructions. -/
inductive RwB where
  | miss (page : Nat)
  | stop
  | fit (w : Nat) (l : List TIns)
  deriving DecidableEq, Repr

/-- Whether some operand of a bundle raises `BANKX` at decode (R380). -/
def bankFaults (x : Ctx) (l : List SOp) : Option (Slot × Nat × Nat) :=
  l.findSome? fun o => ((operandRegs o.i o.arg).find? fun p => x.bankx p.1 p.2).map fun p => (o.slot, p.1, p.2)

/-- The bundle o places after b0 as the rewrite stage sees it. -/
def rwBundle (s : State) (k j o : Nat) : RwB :=
  let x := s.ctx k j
  let pc := x.ctl.pc + addr o
  match s.fetch k j pc.toNat with
  | .miss p => .miss p
  | .word w =>
    let h := hdrOf w
    let ops := opsOf w
    if h.kind ≠ 0 ∨ h.ske ∨ h.fio ∨ h.lio ∨ (bundleFault x.privileged w).isSome ∨ (bankFaults x ops).isSome ∨
        x.ctl.loops.any (fun l => l.last == pc && decide (1 < l.left)) ∨
        ops.any (fun p => p.g != 0 || !tileOp (slotNo p.slot) (fld (p.slot.field w) p.slot.opField.1 p.slot.opField.2)) then .stop
    else .fit w (ops.map fun p => { b := o, slot := p.slot, f := p.slot.field w })
  | _ => .stop

/-- Whether an instruction is one a pattern asks for. -/
def TIns.fits (t : TIns) (p : Nat) : Bool := slotNo t.slot == pSl p && t.op == pOp p && (t.key &&& pKm p) == pKv p

/-- The patterns a bundle's instructions leave over, if they fit. -/
def takePats : List Nat → List TIns → Option (List Nat)
  | ps, [] => some ps
  | [], _ :: _ => none
  | p :: ps, t :: l => if t.fits p then takePats ps l else none

/-- The bundles from o on as a group of the patterns: a page still to be walked, or the words and instructions of the
group, or nothing. -/
def matchFrom (s : State) (k j : Nat) : Nat → Nat → List Nat → Except Nat (Option (List Nat × List TIns))
  | 0, _, _ => .ok none
  | n + 1, o, ps =>
    match rwBundle s k j o with
    | .miss p => .error p
    | .stop => .ok none
    | .fit w l =>
      match takePats ps l with
      | none => .ok none
      | some [] => .ok (some ([w], l))
      | some r =>
        match matchFrom s k j n (o + 1) r with
        | .ok (some q) => .ok (some (w :: q.1, l ++ q.2))
        | e => e

/-! ### Replacements (R289 to R291) -/

/-- A field with other bits from lo on. -/
def setFld (x lo w v : Nat) : Nat := x - fld x lo w * 2 ^ lo + v % 2 ^ w * 2 ^ lo

/-- A field with its key⟨3:0⟩ changed. -/
def xorKey (sl : Slot) (x kx : Nat) : Nat :=
  let flip (x b i : Nat) : Nat := if bitAt kx i then setFld x b 1 (1 - fld x b 1) else x
  match sl with
  | .mx => flip (flip (flip (flip x 0 0) 1 1) 13 2) 16 3
  | .xf => flip (flip (flip (flip x 12 0) 13 1) 14 2) 15 3
  | _ => flip (flip (flip (flip x 7 0) 8 1) 9 2) 10 3

/-- Registers whose value a rule uses (R289): those of row constraints, and of substitutions. -/
def ruleRegs (x : Ctx) (r : Nat) (g : List TIns) : List Dest :=
  let t (k : Nat) : TIns := g.getD k { b := 0, slot := .mx, f := 0 }
  let regs (c : Nat) (both : Bool) : List Dest :=
    ((t (cI c)).rowReg x (cOi c)).toList ++ (if both then ((t (cJ c)).rowReg x (cOj c)).toList else [])
  (List.range 4).flatMap (fun n => let c := rCon r n; if cKind c = 2 then regs c true else []) ++
  (List.range (rNr r)).flatMap (fun q => let b := sSb (rRep r q); if b = 0 then [] else regs (rCon r (b - 1)) (b == 3))

/-- What a rule makes of a group that fits its patterns: it does not match, its match fails and counts (R289), the group
issues unrewritten and it counts (R290), or the replacements by bundle offset. -/
inductive RwTry where
  | no
  | fails
  | refused
  | yes (reps : List (Nat × RwOp))
  deriving DecidableEq, Repr

/-- A replacement as built: its bundle offset, slot and field; the field it executes with, in which a register that holds the
substituted value stands in for a substituted operand; and that register. -/
structure Built where
  b : Nat
  slot : Slot
  f : Nat
  run : Nat
  sub : List (Dest × Word) := []

/-- Replacement q (R291).  A substitution that names no register of the replacement changes nothing. -/
def buildRep (s : State) (k j : Nat) (r : Nat) (g : List TIns) (q : Nat) : Option Built :=
  let v := rRep r q
  let x := s.ctx k j
  let t (k : Nat) : TIns := g.getD k { b := 0, slot := .mx, f := 0 }
  let src := t (sFrom v)
  let sl := src.slot
  let f0 := xorKey sl (setFld src.f sl.opField.1 sl.opField.2 (sOp v)) (sKx v)
  let c := rCon r (sSb v - 1)
  let sb := sSb v
  let b := (t (sPos v)).b
  if sb = 0 then some { b := b, slot := sl, f := f0, run := f0 }
  else
    let i0 := ((decSlot sl f0).ins).getD .xfNop
    let used := (xfRegs i0).map (·.toNat)
    let n := ((List.range 16).find? fun m => !used.contains m).getD 0
    let inX (o : Nat) (v : Nat → Nat) : Built :=
      match (if o = 0 ∧ xfDest i0 ≠ [] then none else xfRegAt i0 o) with
      | none => { b := b, slot := sl, f := f0, run := f0 }
      | some m => { b := b, slot := sl, f := f0, run := setFld f0 (4 * o) 4 n,
                    sub := [(.x n, BitVec.ofNat 64 (v (rawD s k j (.x m.toNat))))] }
    let direct (h lo w : Nat) : Built :=
      let f := if (planeOpd i0).isSome then setFld f0 h 1 0 else f0
      { b := b, slot := sl, f := f, run := f, sub := if (planeOpd i0).isSome then [(x.laD (fld f lo 5), BitVec.ofNat 64 (128 * w))] else [] }
    if sb = 3 then
      let p (u : TIns) (o : Nat) : FV := fmtF32.dec (xParam (rawD s k j (.x (u.opd o))))
      let w := (fmtF32.round .arith false 0 ((p (t (cI c)) (cOi c)).mul (p src 2)).1).bits
      some (inX 2 fun old => old % 2 ^ 32 + w * 2 ^ 32)
    else (rowValue s k j (t (cI c)) (cOi c)).map fun w =>
      match sl with
      | .mx => direct 22 23 w
      | .xf => inX (cOj c) fun old => old / 2 ^ 16 * 2 ^ 16 + w
      | _ => direct 7 2 w

/-- A state in which registers of the issuing context hold other values, with nothing pending for them. -/
def State.withRegs (s : State) (k j : Nat) (l : List (Dest × Word)) : State :=
  let s := s.modCtx k j fun x => { x with pend := x.pend.filter fun p => !l.any fun e => p.dest == e.1 }
  l.foldl (fun s e => putD s k j e.1 e.2.toNat) s

/-- A rule on a group (R282, R286, R289 to R291). -/
def rwTry (s : State) (k j : Nat) (r : Nat) (words : List Nat) (g : List TIns) : RwTry :=
  let x := s.ctx k j
  let t (k : Nat) : TIns := g.getD k { b := 0, slot := .mx, f := 0 }
  let cls := bitsAt r 1 2
  let perm := cls == 0 || (cls == 1 && bitAt x.ctl.rwp.toNat 0) || (cls == 2 && bitAt x.ctl.rwp.toNat 1)
  let holds := (List.range 4).all fun n =>
    let c := rCon r n
    let u := t (cI c)
    let v := t (cJ c)
    if cKind c = 1 then u.opd (cOi c) == v.opd (cOj c)
    else if cKind c = 2 then
      match rowValue s k j u (cOi c), rowValue s k j v (cOj c) with
      | some a, some b => a == b
      | _, _ => false
    else true
  if !perm ∨ !holds then .no
  else
    let xs := (g.filter fun u => u.slot == .xf).flatMap fun u => (xfRegs u.ins).map (·.toNat)
    let written := g.flatMap fun u => (xfDest u.ins).map Dest.x
    let regs := ruleRegs x r g
    let rows := (List.range (rNr r)).any fun q => let b := sSb (rRep r q); b == 1 || b == 2
    let bad := regs.any (fun d => x.pend.any (fun p => p.dest == d) || written.contains d) ||
      xs.any (fun n => bitAt (rawD s k j (.x n)) 15) ||
      (rows && x.pend.any fun p => match p.dest with | .pad _ => true | _ => false)
    if bad then .fails
    else
      let built := (List.range (rNr r)).map fun q => buildRep s k j r g q
      let ok := built.filterMap id
      let word (o w : Nat) : Nat :=
        let cleared := (g.filter fun u => u.b == o).foldl (fun w u => w - u.slot.field w * 2 ^ u.slot.lo) w
        ok.foldl (fun w e => if e.b = o then w + e.f * 2 ^ e.slot.lo else w) cleared
      let fault := words.zipIdx.any fun p => (bundleFault x.privileged (word p.2 p.1)).isSome
      let reps : List (Nat × RwOp) := ok.map fun e =>
        let d := decSlot e.slot e.run
        (e.b, { op := { slot := e.slot, g := 0, i := d.ins.getD .mxNop, arg := d.arg }, fieldv := e.f, sub := e.sub })
      let late := (List.range (rNr r)).any fun q =>
        match reps[q]? with
        | some e => decide (tileLat s (t (sPos (rRep r q))).ins < tileLat s e.2.op.i)
        | none => true
      let all := g.flatMap fun u => tileDests s u.ins
      let out := reps.any fun e => (tileDests (s.withRegs k j e.2.sub) e.2.op.i).any fun d => !all.contains d
      if ok.length ≠ rNr r ∨ fault ∨ late ∨ out then .refused else .yes reps

/-! ### Deciding (R283, R298) -/

/-- The rewrite word of Table 12-1 for replacement 0. -/
def rwWord (rule r : Nat) (g : List TIns) : Nat :=
  1 + rule * 2 + rNp r * 2 ^ 7 + (ofLanes 8 (g.map fun u => slotNo u.slot + u.op * 4)) * 2 ^ 16

/-- The outcome of a decision: b0 is held for a translation, or a plan with the matches refused on the way. -/
inductive RwDec where
  | hold (page : Nat)
  | plan (p : Plan) (nref : Nat)
  deriving DecidableEq, Repr

/-- The rules in order on the group that begins at the context's bundle. -/
def rwDecide (s : State) (k j : Nat) : List (Nat × BitVec 256) → Nat → RwDec
  | [], nref => .plan { orig := true, todo := [((s.ctx k j).ctl.pc, [])] } nref
  | e :: rest, nref =>
    let r := e.2.toNat
    let pc := (s.ctx k j).ctl.pc
    if !bitAt r 0 then rwDecide s k j rest nref
    else match matchFrom s k j 32 0 ((List.range (rNp r + 1)).map (rPat r)) with
      | .error p => .hold p
      | .ok none => rwDecide s k j rest nref
      | .ok (some (words, g)) =>
        let todo (f : Nat → List RwOp) : List (Addr × List RwOp) := (List.range words.length).map fun o => (pc + addr o, f o)
        match rwTry s k j r words g with
        | .no => rwDecide s k j rest nref
        | .fails => rwDecide s k j rest (nref + 1)
        | .refused => .plan { orig := true, todo := todo fun _ => [] } (nref + 1)
        | .yes reps =>
          let disc := (g.zipIdx.filter fun p => bitAt r (8 + p.2)).flatMap fun p =>
            tileDests s p.1.ins
          .plan { todo := todo fun o => (reps.filter fun q => q.1 == o).map (·.2), reps := reps.map (·.2), rule := e.1,
                  word := rwWord e.1 r g, disc := disc } nref

/-- Saturating 16-bit count (R299). -/
def sat16 (n : Nat) : Nat := min n 65535

/-- Whether the context's bundle begins a group still to be decided: it issues as primary with EN, and holds a tile
instruction in a bundle that may belong to a group. -/
def rwWants (s : State) (k j : Nat) : Bool :=
  let x := s.ctx k j
  x.rwEn && !(match x.plan with | some p => (p.todo.map (·.1)).head? == some x.ctl.pc | none => false) &&
  (s.core k).rules.any (fun r => bitAt r.2.toNat 0) &&
  (match rwBundle s k j 0 with | .fit _ l => l != [] | _ => false)

/-- The decision at b0 (R283): the context's plan, or the page it waits for.  A group that `rw.sup` covers is decided
unrewritten and uses it up (R298). -/
def rwStage (s : State) (k j : Nat) : State × Option Nat :=
  if !rwWants s k j then (s, none)
  else match rwDecide s k j (s.core k).rules 0 with
    | .hold p => (s.modCtx k j fun x => { x with rwHold := some x.ctl.pc }, some p)
    | .plan p nref =>
      (s.modCtx k j fun x =>
        let x := { x with nref := sat16 (x.nref + nref), rwHold := none }
        if p.orig then { x with plan := some p }
        else if x.rwSupp then { x with rwSupp := false, plan := some { orig := true, todo := p.todo.map fun e => (e.1, []) } }
        else { x with plan := some p, ngrp := sat16 (x.ngrp + 1), last := p.rule }, none)

/-- A discardable destination takes a free value, and so do results on their way to it (R287). -/
def spoilDest (s : State) (k j : Nat) (d : Nat × Nat) : State :=
  let x := s.ctx k j
  let key := 830000 + 8192 * d.1 + d.2
  let reg (r : Dest) (w : Nat) : State :=
    let s := putD s k j r (s.free key % 2 ^ w)
    s.modCtx k j fun x => { x with pend := x.pend.map fun p => if p.dest = r then { p with open_ := p.open_ ||| p.mask } else p }
  let tileRow (n i : Nat) (t : Tile) : Tile := t.freed s (key + 64 * n) fun m => m == i
  if d.1 = 0 then reg (.pad d.2) 1024
  else if d.1 = 1 then
    let n := d.2 / 64
    let i := d.2 % 64
    if i = 32 then
      let f (t : Tile) : Tile :=
        { t with val := bitAt (s.free key) 0, asat := s.free (key + 1000000) % 2 ^ 32, arsv := s.free (key + 2000000) % 2 ^ 32 }
      s.modCore k fun c =>
        let ts := tput c.tiles n (f (tget {} c.tiles n))
        let mq := c.mq.map fun e => if e.acc = n then { e with tile := e.tile.map f } else e
        { c with tiles := ts, mq := mq }
    else s.modCore k fun c =>
      let mq := c.mq.zipIdx.map fun e => if e.1.acc = n then { e.1 with tile := e.1.tile.map (tileRow (e.2 + 1) i) } else e.1
      { c with tiles := tput c.tiles n (tileRow 0 i (tget {} c.tiles n)), mq := mq }
  else if d.1 = 2 then s.modCore k fun c => c.putSlot (d.2, freeSlot s (key + 3000000))
  else if d.1 = 3 then
    let l : Latch := { lanes := BitVec.ofNat 1792 (s.free key), cnt := s.free (key + 1000000) % 65536 }
    s.setCtx k j { x with latches := tput x.latches d.2 l }
  else if d.1 = 4 then reg (x.sD d.2) 64
  else if d.1 = 5 then reg (.v .va d.2) 1024
  else if d.1 = 6 then reg (.v .vb d.2) 1024
  else if d.1 = 7 then reg (.x d.2) 64
  else
    let v (i : Nat) : Nat := s.free (key + 1000000 * i)
    let t : TileSt := { tfmt := v 0 % 16, tv := bitAt (v 1) 0, tfirst := v 2 % 8192, trows := v 3 % 65536,
                        tmax := BitVec.ofNat 32 (v 4), tsat := v 5 % 2 ^ 32, trsv := v 6 % 2 ^ 32,
                        tcrc := BitVec.ofNat 32 (v 7) }
    s.setCtx k j { x with tile := t }

/-- A discardable row is no longer what entries that still read it relied on (R251, R287). -/
def touchDest (s : State) (k : Nat) (d : Nat × Nat) : State := if d.1 = 0 then s.mxTouch k d.2 else s

/-- What b0 sees of rows, base registers, transform registers and rings, with free values where a result is still to
come, and what else its checks depend on (R292). -/
def Plan.snap (p : Plan) (s : State) (k j : Nat) : Plan :=
  let c := s.core k
  let x := c.ctx j
  let rows := (x.pend.filterMap fun q => match q.dest with | .pad r => some r | _ => none) ++
    (c.mq.filter fun e => e.op == .upd).flatMap (·.reads)
  { p with pad := rows.foldl (fun m r => tset 0 m r (row (s.rdRow 5 r))) c.pad,
           la := (List.range 32).map (fun n => (n, BitVec.ofNat 64 (s.rdLa 5 n))),
           xr := (List.range 16).map (fun n => (n, BitVec.ofNat 64 (s.rdX 10 n))), rings := x.rings,
           fmt := x.ctl.fmt, slots := c.slots, tile := x.tile }

/-- A state with the format word, the weight slots and the tile state that b0 saw. -/
def Plan.checked (p : Plan) (s : State) (k j : Nat) : State :=
  (s.modCore k fun c => { c with slots := p.slots }).modCtx k j fun x => { x with ctl := { x.ctl with fmt := p.fmt }, tile := p.tile }
/-- The state a replacement executes in: the rows b0 saw, the base registers and rings of its plane as b0 saw them unless it
writes there, and its substituted operand (R291, R292). -/
def Plan.view (p : Plan) (s : State) (k j : Nat) (o : RwOp) : State :=
  let drains := match o.op.i with | .mdrain _ _ _ => true | _ => false
  let ls : List (Dest × Word) := if drains then [] else (List.range 32).map fun n => ((s.ctx k j).laD n, tget 0 p.la n)
  let rings := if drains then (s.ctx k j).rings else p.rings
  let s := s.modCore k fun c =>
    { c with pad := p.pad, mq := c.mq.map (fun e => if e.op = MxOp.upd then { e with reads := [] } else e) }
  let s := s.modCtx k j fun x => { x with rings := rings, pend := x.pend.filter fun q =>
    match q.dest with | .pad _ => false | _ => true }
  (s.withRegs k j ls).withRegs k j o.sub
/-- The transform registers from which a replacement after b0 takes its source rows (R292). -/
def Plan.from0 (p : Plan) (o : RwOp) : Option (Tab Word) :=
  if p.first then none
  else some (o.sub.foldl (fun t e => match e.1 with | .x n => tput t n e.2 | _ => t) p.xr)

end Sys2Proof.Machine
end

