-- ==== Sys2Proof/Machine/Issue.lean ====
section
/-! DEFINITION. How a bundle issues: what must hold before it, what lands first, how the decisions of its operations
become effects, where the context goes next, and how one operation by itself makes a bundle. -/

namespace Sys2Proof.Machine

/-! ### Before a bundle (R89, R92, R93) -/

/-- Whether the context has begun a rewritten group and not ended it. -/
def Ctx.midGroup (x : Ctx) : Bool := match x.plan with | some p => !p.orig && !p.first | none => false

/-- Whether the next bundle waits for an access to perform: an `ld.acq`, or a returning `.gl` atomic (R189, R191, R199). -/
def Acc.holds (a : Acc) : Bool :=
  match a.kind, a.loc with
  | .acq, _ => true
  | .atom _ _ _ _, .phys _ _ _ => a.ret
  | _, _ => false

/-- Whether a context may issue: a live task with no trap to take, its waits over, no earlier result still awaited that
its next bundle may rely on, no acquire or returning `.gl` atomic outstanding, and its core in its hands, as the primary or as
a resident ready context (R92, R93, R189, R191, R199). -/
def canIssue (s : State) (k j : Nat) : Bool :=
  let c := s.core k
  let x := c.ctx j
  x.life == .live && x.trapP.isNone && !c.halted && waitOver s k j &&
  !x.pend.any (fun p => p.acc.isSome && decide (p.due ≤ x.bcount)) && !x.posted.any Acc.holds &&
  (if c.prim == some j then !c.prep else c.prim.isSome && c.resident j && isReady s k j && !x.midGroup)

/-- The results due at the next bundle land, a skipped one before it too (log entry 112, DEDUCED); what was pending in `lc` and `kp` before is
kept for a yield (R98). -/
def landNow (s : State) (k j : Nat) : State :=
  let n := (s.ctx k j).bcount
  let s := mxForce s k j n
  let new := ((s.ctx k j).pend.filter fun p => decide (p.due ≤ n)).map (·.dest) |>.filter fun d =>
    match d with
    | .lcP _ => true
    | .kpP => true
    | _ => false
  let s := if new = [] then s else s.modCtx k j fun x =>
    let t := { x.ctl with lcP0 := x.ctl.lcP, kpP0 := x.ctl.kpP, fresh := new }
    { x with ctl := t }
  landDue (touchDue s k j n) k j n

/-- A bundle of a context begins to issue. -/
def openIssue (s : State) (k j : Nat) (word : Nat) (lit : Option Nat) (skipped : Bool) : State :=
  let s := landNow (waitEnd s.tick k j) k j
  { s with iss := { opn := true, core := k, ctx := j, sec := (s.core k).prim != some j, word := word, lit := lit,
                    skipped := skipped } }

/-! ### Results of a bundle (R90, R126) -/

/-- A result a bundle promises, with the key of the access it comes from, if one. -/
structure Promise where
  wr : Wr
  acc : Option Nat := none
  deriving DecidableEq, Repr

/-- The results a bundle promises; the access of effect i has the key base + i.  Writes to `s0` and `p0`, and of no bit, are
none. -/
def Issue.promises (i : Issue) (base : Nat) : List Promise :=
  (i.wrs.filter fun w => (w.mask != 0 || w.tile.isSome) && w.dest != .s 0 && w.dest != .p 0).map (fun w => { wr := w }) ++
  i.acts.zipIdx.filterMap fun q => match q.1 with
    | .post a (some d) m lat =>
      let port : Port := match a.kind with | .atom _ _ _ _ => .copy | _ => .load
      if a.ret then some { wr := { dest := d, mask := m, val := 0, lat := lat, port := port }, acc := some (base + q.2) } else none
    | _ => none

/-- Rank of a path in R126. -/
def Port.rank : Port → Nat
  | .owner => 0
  | .load => 1
  | .copy => 2
/-- The promise that takes the destination of the n-th one, if another does (R126); between two on the load port the choice
is free (log entry 1, DESIGN CHOICE). -/
def beaten (free : Bool) (l : List Promise) (n : Nat) : Option Promise :=
  match l[n]? with
  | none => none
  | some p =>
    if p.wr.dest.sums then none
    else (l.zipIdx.find? fun q => q.2 != n && q.1.wr.dest == p.wr.dest &&
      (decide (q.1.wr.port.rank < p.wr.port.rank) ||
        (q.1.wr.port == .load && p.wr.port == .load && (decide (q.2 < n) == free)))).map (·.1)

/-- A promise among the pending results of bundle bc. -/
def Promise.pend (p : Promise) (bc : Nat) : Pend :=
  { dest := p.wr.dest, mask := p.wr.mask, val := p.wr.val, open_ := p.wr.open_, due := bc + p.wr.lat, acc := p.acc, tile := p.wr.tile,
    mx := p.wr.mx }
/-- The bits of a loser: not to be relied on until the winner's position (R126). -/
def loserPend (p w : Promise) (bc : Nat) : Pend :=
  { dest := p.wr.dest, mask := p.wr.mask, val := 0, due := bc + w.wr.lat, landed := true, mx := w.wr.mx }

/-- The results of a bundle join the pending ones; WCOL is set where one lost (R126). -/
def Ctx.promise (x : Ctx) (free : Bool) (l : List Promise) (bc : Nat) : Ctx :=
  let who := (List.range l.length).map fun n => (l[n]?, beaten free l n)
  let lost := who.filterMap fun q => match q with | (some p, some w) => some (loserPend p w bc) | _ => none
  let won := who.filterMap fun q => match q with | (some p, none) => some (p.pend bc) | _ => none
  { x with pend := lost.foldl (fun a p => insPend p a) (won.foldl addPend x.pend),
           cst := if lost = [] then x.cst else x.cst ||| cstWCOL }

/-- Whether two spill writes of a bundle overlap (R137). -/
def spillClash : List Act → Bool
  | [] => false
  | .spill _ lo n _ :: r => (r.any fun a => match a with | .spill _ lo' n' _ => lo < lo' + n' && lo' < lo + n | _ => false) || spillClash r
  | _ :: r => spillClash r

/-! ### Effects of a bundle -/

/-- Whether an effect is a store on the local path, any store to a scratchpad, or a load on the remote path. -/
def Act.local : Act → Bool
  | .pad _ _ _ => true
  | .sb _ _ => true
  | _ => false
def Act.stores : Act → Bool
  | .pad _ _ _ => true
  | .post a _ _ _ => a.kind.writes
  | _ => false
def Act.remoteLoad : Act → Bool
  | .post a _ _ _ => a.kind.loads
  | _ => false

/-- A store of the context into its own scratchpad row: an XF result on its way to the same bytes leaves them unpredictable
from its position on (R229). -/
def padStore (s : State) (k j w : Nat) (m v : Row) : State :=
  let x := s.ctx k j
  let soon := x.pend.foldl (fun a p => if p.dest = .pad w ∧ p.landed then a ||| (p.mask &&& m) else a) (0 : Row)
  let v := if soon = 0 then v else blend soon (row (s.free (840000 + w))) v
  s.storeRow k w m v
/-- The bytes that the stores of a bundle leave unpredictable in the XF results of earlier bundles still on their way to its
own core's scratchpad (R229); through the cluster window as on the local path. -/
def Ctx.spoilBy (x : Ctx) (k : Nat) (l : List Act) : Ctx :=
  let hit (w : Nat) : Row := l.foldl (fun m a => match a with
    | .pad v n _ => if v = w then m ||| n else m
    | .post b _ _ _ => match b.loc with
      | .win q v => if q = k ∧ v = w ∧ b.kind.writes then m ||| row (onesAt (8 * b.lo) (8 * b.len)) else m
      | _ => m
    | _ => m) (0 : Row)
  let one (p : Pend) : Pend := match p.dest with
    | .pad w => if p.landed then p else { p with open_ := p.open_ ||| (p.mask &&& hit w) }
    | _ => p
  if l.any Act.stores then { x with pend := x.pend.map one } else x

/-- Pointer moves of a ring (R174, R210): consumed slots lose their fault bits, and entries that still read them are
disturbed.  A program's stores meet rows of an `ldg` on their way or a stream, an `ldg` a stream or stores (R176). -/
def ringAdvance (s : State) (k j h con fil res : Nat) : State :=
  let r := (s.ctx k j).ring h
  let gone := (List.range con).map fun i => r.slotAt r.con i
  let s := gone.foldl (fun s i => s.mxTouch k ((r.base + i) % 8192) .release) s
  let r' := { r with put := r.put - fil, con := r.con + BitVec.ofNat 32 con, fil := r.fil + BitVec.ofNat 32 fil, res := r.res + BitVec.ofNat 32 res,
                     bad := gone.foldl tdel r.bad }
  let s := s.modCtx k j fun x => x.setRing h r'
  if res = 0 then s
  else ringProduced s k j h ((0 < fil && (r.res != r.fil || r.held == 1)) || (fil < res && (r.held == 1 || r.put != 0)))

/-- A program store has reached slot n of those that `st.h` counts from res (R175, R176). -/
def ringStored (s : State) (k j h n : Nat) : State :=
  let r := (s.ctx k j).ring h
  ringProduced (s.modCtx k j fun x => x.setRing h { r with put := max r.put (n + 1) }) k j h (r.res != r.fil || r.held == 1)

/-- A `fork` that is accepted, or deferred to the overflow area (R387, R388); what an overflow entry holds in memory is the
hardware's (log entry 17, DESIGN CHOICE), and the entries are taken in rotation (log entry 98, DEDUCED). -/
def forkAct (s : State) (k j : Nat) (t : Addr) (ovf : Bool) (s1 s2 : Word) : State :=
  let x := s.ctx k j
  let q := clusterOf k
  match s.kernelOf x.task.kern with
  | none => s
  | some n =>
    let e : Spawn := { kern := n.id, target := t, s1 := s1, s2 := s2, prio := x.ctl.prio, tcoord := x.task.tcoord, frame := none,
                       parent := x.task.frame }
    let s := match x.task.frame with
      | some f => s.modCluster q fun c => c.modFrame f fun f => { f with pend := f.pend + 1 }
      | none => s
    let s := s.modKernel n.id fun n => { n with live := n.live + 1 }
    if ovf then
      let slot := match ((s.cluster q).ovf.filter fun e => e.kern == n.id).getLast? with
        | some l => (l.slot + 1) % n.ovfq
        | none => 0
      let v := s.free 860000 % 2 ^ 512
      (s.lpWrite 0 (n.ovfa + 64 * slot) 64 v (k, j)).modCluster q fun c => { c with ovf := c.ovf ++ [{ e with slot := slot }] }
    else match takeFrame s q n x.task.frame x.ctl.prio x.task.tcoord with
      | some (s, f) => s.modCluster q fun c => { c with spawnQ := c.spawnQ ++ [{ e with frame := some f }] }
      | none => s

/-- An entry of the matrix queue is accepted (R248, R250): a tile that an engine command names becomes unpredictable in the
rows of that command, the later results built on it too (R315, R330). -/
def mxAccept (s : State) (k j : Nat) (e : MxEnt) : State :=
  let x := s.ctx k j
  let named := if e.tile.isSome then x.tileCmds.filter fun t => t.acc == e.acc else []
  let tile := e.tile.map fun t => named.foldl (fun (t : Tile) n => t.spoil s (822000 + 64 * n.acc) n.rows (n.e == 0)) t
  let e := { e with tile := tile, key := s.nextKey }
  let s := s.modCore k fun c =>
    let c := { c with mq := c.mq ++ [e] }
    if e.entry = 0 then c else { c with entryFree := s.now + e.entry, entryPl := e.pl }
  s.modCtx k j fun x =>
    let cmds := x.tileCmds.map fun (t : TileCmd) => { t with bad := t.bad || (e.tile.isSome && t.acc == e.acc) }
    let td := if e.tile.isSome then tput x.tileDue e.acc (max (tget 0 x.tileDue e.acc) e.due) else x.tileDue
    let vd := if e.tile.isSome ∧ e.ovw then tput x.valDue e.acc (max (tget 0 x.valDue e.acc) e.due) else x.valDue
    let md := if e.op = .dist ∨ e.op = .bestClear then max x.mbestDue e.due else x.mbestDue
    let mark (d : Dest) (m : Row) : Pend := { dest := d, mask := m, val := 0, due := e.due, landed := true, upd := true }
    let marks : List Pend := if e.op = .upd then
      e.reads.map (fun w => mark (.pad w) rowMask) ++ (if e.kind then [] else [mark .satcAdd (row (2 ^ 32 - 1))]) else []
    { x with tileCmds := cmds, tileDue := td, valDue := vd, mbestDue := md, pend := marks.foldl (fun a p => insPend p a) x.pend }

/-- An effect of a bundle that issued in counted bundle bc; its accesses share the number base.  What changes the flow of
control is not among those performed here. -/
def applyAct (s : State) (k j bc base : Nat) (a : Act) : State :=
  let mod (f : Ctx → Ctx) : State := s.modCtx k j f
  match a with
  | .pad w m v => padStore s k j w m v
  | .sb w v => storeBank s k j w v
  | .spill _ lo n v =>
    let sh := 8 * (lo % 128)
    let m := row (onesAt sh (8 * n))
    mod fun x => { x with spill := tset 0 x.spill (lo / 128) (blend m (v <<< sh) (tget 0 x.spill (lo / 128))) }
  | .post a _ _ _ =>
    let phys := match a.loc with | .phys _ _ _ => true | _ => false
    let fn := if phys then s.fnOf k j else a.fn
    mod fun x => { x with posted := x.posted ++ [{ a with key := s.nextKey, fn := fn, bun := base }] }
  | .wait w => mod fun x =>
    let w := match w with | .nb b q => if ((s.core k).nb b).ph = q then w else .nbDone | _ => w
    { x with waits := x.waits ++ [w] }
  | .cst b => mod fun x => { x with cst := x.cst ||| b }
  | .cqPush v lat => mod fun x =>
    if 16 ≤ x.ctl.cq.length then { x with cst := x.cst ||| cstCQO }
    else { x with ctl := { x.ctl with cq := x.ctl.cq ++ [{ v := v, at_ := s.now + lat }] } }
  | .cqFlush => mod fun x => { x with ctl := { x.ctl with cq := [] } }
  | .cqPop => mod fun x => { x with ctl := { x.ctl with cq := x.ctl.cq.drop 1 } }
  | .pri n => mod fun x => { x with ctl := { x.ctl with prioNext := some n } }
  | .wdog => if (s.ctx k j).task.excl then s.modCore k fun c => { c with sysw := 0 } else s
  | .latch l v due => mod fun x =>
    { x with latches := tput x.latches l v, latchDue := if due then tput x.latchDue l (bc + 6) else x.latchDue }
  | .tileClr => mod fun x => { x with tile := {}, pend := x.pend.map fun p => { p with tile := none } }
  | .ring h r => mod fun x => x.setRing h r
  | .adv h con fil res => ringAdvance s k j h con fil res
  | .made h n => ringStored s k j h n
  | .engine e fn ca cb blk => engineIssue s k j e fn ca cb blk
  | .clear e => engineClear s k j e
  | .scnCfg ca => scanCfg s k j (newCmd s k j 2 6 ca 0 0)
  | .mx e => mxAccept s k j e
  | .touch w => s.mxTouch k w .load
  | .nb q b u => s.nbAdd q b u
  | .dropL1 rg => s.l1Discard k (lineNamed s k (s.fnOf k j) rg)
  | .fork t ovf s1 s2 => forkAct s k j t ovf s1 s2
  | .hint => s.modKernel (s.ctx k j).task.kern fun n => { n with hinted := n.hinted || n.succ != 0 }
  | .rwLd img => rwLoad s k img
  | .rwInv n => rwInval s k n
  | .rwSup => mod fun x => { x with rwSupp := true }
  | .tlb mode fn page dev =>
    let gone (t : TlbEnt) : Bool := mode == 0 || (t.fn == fn && (mode == 1 || t.page == page * 4096 / 2 ^ pageBits t.size))
    let s := if dev then s.tlbDropAll gone else s.tlbDrop (clusterOf k) gone
    let again (w : Walk) : Walk := if mode == 0 || (w.fn == fn && (mode == 1 || w.page == page)) then { w with fault := none } else w
    (List.range 32).foldl (fun s q => if dev || q == clusterOf k then
      s.modCluster q fun c => { c with walks := c.walks.map again } else s) s
  | .retire pa => (s.retirePage pa).logErr (dieOf k) 6 3 (s.free 861000 % 48) (pa / 65536 * 65536) (k * 2 ^ 21 + j * 2 ^ 28)
  | .wayq sl set way q =>
    if q then (s.quarantine sl set way).logErr (sl / 32) 7 2 sl (s.free 862000 % 2 ^ 52) (log3 sl set way k j)
    else { s with quar := tset false s.quar (quarKey sl set way) false }
  | .lpw pa n v => s.lpWrite 0 pa n v (k, j)
  | .walk page => s.startWalk k j page
  | .plane slot pair => s.modCore k fun c => { c with planeReq := some (slot, pair) }
  | _ => s

/-- The last access of a context performs. -/
def performLast (s : State) (k j : Nat) : State := accGo s k j ((s.ctx k j).posted.length - 1) fun _ => true
/-- The effects in order, the access or command of effect i under the key base + i.  A load on the remote path reads before a
store of its bundle on the local path, which performs at once (R173, R194). -/
def applyActs (s : State) (k j bc base : Nat) (l : List Act) : State :=
  let first := l.any Act.local
  l.zipIdx.foldl (fun s q =>
    let s := applyAct { s with nextKey := base + q.2 } k j bc base q.1
    if first && q.1.remoteLoad then performLast s k j else s) s
/-- Whether a bundle has to wait, because such a load may not yet perform (R194). -/
def Issue.loadHeld (i : Issue) (s : State) : Bool :=
  let before := (s.ctx i.core i.ctx).posted
  i.acts.any Act.local && i.acts.any fun a => a.remoteLoad && match a with
    | .post b _ _ _ => !accFree s i.core before { b with bun := s.nextKey }
    | _ => false
/-- Whether the bundle in progress waits instead of issuing. -/
def Issue.waits (i : Issue) (s : State) : Bool := i.stall || (i.trap.isNone && i.loadHeld s)

/-! ### Where the context goes next (R28, R105 to R107, R112) -/

/-- The flow of control a bundle produces. -/
structure Flow where
  pc : Addr
  loops : List Loop
  ret : List (Addr × Bool)
  lx : Tab (BitVec 32)
  taken : Bool := false
  deriving DecidableEq, Repr

/-- Loops left by a taken branch: the outermost one whose body does not hold the target, and all inside it (R107). -/
def leaveLoops (l : List Loop) (t : Addr) : List Loop :=
  match (List.range l.length).reverse.find? fun i => match l[i]? with
    | some p => !(decide (p.first.toNat ≤ t.toNat) && decide (t.toNat ≤ p.last.toNat))
    | none => false with
  | some i => l.drop (i + 1)
  | none => l

/-- What an effect does to the flow. -/
def Flow.act (f : Flow) : Act → Flow
  | .jump t => { f with pc := t, loops := leaveLoops f.loops t, taken := true }
  | .call t ra inline_ => { f with pc := t, ret := (ra, inline_) :: f.ret, taken := true }
  | .ret => { f with pc := (f.ret.headD (0, false)).1, ret := f.ret.drop 1, taken := true }
  | .loop l _ => { f with loops := l :: f.loops }
  | .skipTo t => { f with pc := t }
  | _ => f

/-- Iteration ends at the bundle e, from the innermost loop outwards (R106). -/
def iterEnd (e : Addr) : Flow → List Loop → Flow
  | f, [] => { f with loops := [] }
  | f, l :: r =>
    if l.last ≠ e then { f with loops := l :: r }
    else
      let f := { f with lx := tput f.lx l.lvl (tget 0 f.lx l.lvl + l.step) }
      if 1 < l.left then { f with loops := { l with left := l.left - 1 } :: r, pc := l.first } else iterEnd e f r

/-- The flow of the bundle at a context's pc, whose literal bundle is stepped over. -/
def flowOf (t : Ctl) (lit : Bool) (acts : List Act) : Flow :=
  let f : Flow := { pc := t.pc + (if lit then 2 else 1), loops := t.loops, ret := t.ret, lx := t.lx }
  let f := acts.foldl Flow.act f
  if f.taken then f else iterEnd t.pc f f.loops

/-- The start value of an activated loop's index is a result like any other (R105, R91). -/
def loopStarts (acts : List Act) : List Promise :=
  acts.filterMap fun a => match a with
    | .loop l v => some { wr := { dest := .lx l.lvl, mask := row (2 ^ 32 - 1), val := row v.toNat, lat := 1, port := .owner } }
    | _ => none

/-! ### After a bundle (R96, R117, R345, R390 to R394, R423, R440, R441, R444) -/

/-- What ends, suspends or interrupts the context, or reaches another, once its bundle has issued. -/
def afterAct (s : State) (k j : Nat) (pc : Addr) (i : Issue) (a : Act) : State :=
  match a with
  | .yield run =>
    let s := yieldApply s k j
    let s := s.modCtx k j fun x =>
      { x with ctl := { x.ctl with run := run, lcP0 := [], kpP0 := none, fresh := [] }, held := x.held || x.holdP, holdP := false }
    arbSelect (s.modCore k fun c => { c with sysw := 0 }) k
  | .halt => beginEnd s k j 1
  | .sleep => sleepCtx s k j
  | .sync m =>
    if s.children k j = 0 then acquire s k j
    else
      let s := match (s.ctx k j).task.frame with
        | some f => s.modCluster (clusterOf k) fun c => c.modFrame f fun f => { f with mask := m }
        | none => s
      beginEnd s k j 3
  | .trapAfter cause n =>
    trapTake s k j { req := { cause := cause, slot := 1, info := n, insn := Slot.ct.field i.word }, bpc := pc,
                     rpc := (s.ctx k j).ctl.pc, sec := i.sec }
  | .rfe t => rfe s k j t
  | .kill q n => terminate s q n 1 (8 * k + j)
  | .hold q n h => holdCtx s q n h
  | _ => s

/-- The whole of a bundle that neither waits nor traps. -/
def commit (s : State) (i : Issue) : State :=
  let k := i.core
  let j := i.ctx
  let x0 := s.ctx k j
  let bc := x0.bcount
  let base := s.nextKey
  let f := flowOf x0.ctl i.lit.isSome i.acts
  let free := bitAt (s.free 863000) 0
  let s := s.modCtx k j fun x => (x.spoilBy k i.acts).promise free (i.promises base ++ loopStarts i.acts) bc
  let s := if spillClash i.acts then s.modCtx k j fun x => { x with cst := x.cst ||| cstWCOL } else s
  let s := applyActs s k j bc base i.acts
  let s := { s with nextKey := base + i.acts.length }
  let s := s.modCtx k j fun x =>
    let t := { x.ctl with pc := f.pc, loops := f.loops, ret := f.ret, lx := f.lx }
    { x with ctl := t, bcount := if i.skipped then bc else bc + 1, lastPc := x0.ctl.pc, atYield := (hdrOf i.word).kind == 1,
             waits := x.waits ++ (if f.taken then [.cycle (s.now + 3)] else []) }
  let s := s.modCore k fun c => { c with lastCyc := s.now }
  let s := i.acts.foldl (fun s a => afterAct s k j x0.ctl.pc i a) s
  if i.skipped then s else s.modCtx k j fun x => { x with ctl := { x.ctl with fresh := [] } }

/-- The field of a bundle word that a trap record shows (Table 18-2): the header for slot 0. -/
def fieldOf (word slot : Nat) : Nat :=
  match Slot.all.find? fun l => l.code == slot with
  | some l => l.field word
  | none => word % 2 ^ 16

/-- The bundle in progress is decided: while an operation waits, the context stalls and only what the wait starts happens;
else a trap leaves the bundle without effect; else it takes effect (R92, R423). -/
def closeIssue (s : State) : State :=
  let i := s.iss
  let s := { s with iss := { core := i.core, ctx := i.ctx } }
  if i.waits s then i.stallActs.foldl (fun s a => applyAct s i.core i.ctx 0 0 a) s
  else match i.trap with
    | some t =>
      let pc := (s.ctx i.core i.ctx).ctl.pc
      let t := if t.insn = 0 then { t with insn := fieldOf i.word t.slot } else t
      trapTake s i.core i.ctx { req := t, bpc := pc, rpc := pc, sec := i.sec }
    | none => commit s i

/-! ### One operation by itself -/

/-- The instructions that need system privilege (R421, R439, R445). -/
def isSystem : Instr → Bool
  | .rfe _ => true
  | .kill _ => true
  | .tlbInvAll _ => true
  | .tlbInvFn _ _ => true
  | .tlbInvPg _ _ _ => true
  | .pgret _ _ => true
  | .wayq _ _ => true
  | .wayqRel _ _ => true
  | .hold _ => true
  | .holdRel _ => true
  | .errRdTrap _ _ => true
  | .errRdLog _ _ => true
  | .ctxStat _ _ => true
  | _ => false

/-- The bundle that holds one operation; `yield` makes a yield bundle (R27). -/
def soloBundle (o : SOp) : Bundle :=
  let kind : BitVec 2 := match o.i with | .yield _ => 1 | _ => 0
  { hdr := { kind := kind, ske := false, skp := 0, sks := false, m := false, fio := false, lio := false, lvl := 0 }, ops := [o] }
/-- Its word. -/
def soloWord (o : SOp) : Nat := (encodeBundle (soloBundle o)).getD 0

/-- What decode finds against an operation: privilege, then banks (R31, R380, R424). -/
def decodeOut (s : State) (o : SOp) (word : Nat) : Out :=
  let x := s.ix
  if isSystem o.i ∧ !x.privileged then
    { trap := some { cause := 3, slot := o.slot.code, info := fld (o.slot.field word) o.slot.opField.1 o.slot.opField.2 + 2 ^ 8 * o.slot.code } }
  else match bankFaults x [o] with
    | some (l, f, n) => { trap := some { cause := 4, slot := l.code, info := bankxInfo f n } }
    | none => {}

/-- Whether an operation is followed by a literal bundle (R28). -/
def wantsLit : Instr → Bool
  | .liWide _ _ => true
  | _ => false

/-- One operation issues as a bundle of its own on the context the state names. -/
def soloIssue (o : SOp) (f : State → Out) (s : State) : State :=
  if !canIssue s s.ik s.ij then s
  else
    let word := soloWord o
    let s := openIssue s s.ik s.ij word (if wantsLit o.i then some (s.iss.lit.getD 0) else none) false
    let d := decodeOut s o word
    closeIssue { s with iss := (s.iss.add d).add (if d.trap.isSome then {} else f s) }

/-- An operation as an instruction: within the bundle in progress it adds what it decides; alone it is a bundle (log entry
8). -/
def slotOp (sl : Slot) (i : Instr) (f : State → Out) (s : State) : Host.Outcome State Fault Refusal :=
  .next (if s.iss.opn then { s with iss := s.iss.add (f s) } else soloIssue { slot := sl, g := 0, i := i, arg := s.arg } f s)

/-- A bundle whose header has it skipped, as the bundle in progress or as one by itself: its slots do nothing, its
position does not count, and the flow of control passes it (R25, R26, R89, R106). -/
def skipOp (s : State) : Host.Outcome State Fault Refusal :=
  if s.iss.opn then .next { s with iss := { s.iss with skipped := true } }
  else if !canIssue s s.ik s.ij then .next s
  else .next (closeIssue (openIssue s s.ik s.ij 4 none true))

end Sys2Proof.Machine
end

