-- ==== Sys2Proof/Machine/Control.lean ====
section
/-! DEFINITION. The meanings of the CT instructions: control, tasks, system and rewrite enable (R86 to R122, R295 to R298, R385 to R397, R439 to R444). -/

namespace Sys2Proof.Machine

/-- `BR` (R107, R108, R112). -/
def execBr (t : Addr) (s : State) : Host.Outcome State Fault Refusal :=
  slotOp .ct (.br t) (opBr t) s
/-- `BRC` (R104, R107, R108, R112). -/
def execBrc (t : Addr) (f : Bool) (s : State) : Host.Outcome State Fault Refusal :=
  slotOp .ct (.brc t f) (opBrc t f) s
/-- `JMP` (R107, R108, R112). -/
def execJmp (t : Addr) (k : BitVec 3) (s : State) : Host.Outcome State Fault Refusal :=
  slotOp .ct (.jmp t k) (opJmp t k) s
/-- `CALL` (R108, R109, R110, R112). -/
def execCall (t : Addr) (s : State) : Host.Outcome State Fault Refusal :=
  slotOp .ct (.call t) (opCall t) s
/-- `LOOP` (R105, R110, R113). -/
def execLoop (len1 : BitVec 10) (lvl set : BitVec 3) (n : LoopCnt) (s : State) : Host.Outcome State Fault Refusal :=
  slotOp .ct (.loop len1 lvl set n) (opLoop len1 lvl set n) s
/-- `LP_CNT` (R114). -/
def execLpCnt (v : BitVec 16) (k : BitVec 3) (p : Bool) (s : State) : Host.Outcome State Fault Refusal :=
  slotOp .ct (.lpCnt v k p) (opLpCnt v k p) s
/-- `LP_IDX` (R114). -/
def execLpIdx (v : BitVec 32) (k : BitVec 3) (s : State) : Host.Outcome State Fault Refusal :=
  slotOp .ct (.lpIdx v k) (opLpIdx v k) s
/-- `LP_STR` (R114). -/
def execLpStr (step start : BitVec 16) (set : BitVec 3) (s : State) : Host.Outcome State Fault Refusal :=
  slotOp .ct (.lpStr step start set) (opLpStr step start set) s
/-- `KP_SET` (R115). -/
def execKpSet (m : BitVec 16) (p : Bool) (s : State) : Host.Outcome State Fault Refusal :=
  slotOp .ct (.kpSet m p) (opKpSet m p) s
/-- `KP_CLR` (R115). -/
def execKpClr (m : BitVec 16) (p : Bool) (s : State) : Host.Outcome State Fault Refusal :=
  slotOp .ct (.kpClr m p) (opKpClr m p) s
/-- `YIELD` (R18, R27, R92, R96, R97, R98). -/
def execYield (run : BitVec 20) (s : State) : Host.Outcome State Fault Refusal :=
  slotOp .ct (.yield run) (opYield run) s
/-- `FMT_LO` (R103, R118). -/
def execFmtLo (v : BitVec 32) (s : State) : Host.Outcome State Fault Refusal :=
  slotOp .ct (.fmtLo v) (opFmtLo v) s
/-- `FMT_HI` (R103, R118). -/
def execFmtHi (v : BitVec 32) (s : State) : Host.Outcome State Fault Refusal :=
  slotOp .ct (.fmtHi v) (opFmtHi v) s
/-- `RWP` (R119). -/
def execRwp (r x : Bool) (s : State) : Host.Outcome State Fault Refusal :=
  slotOp .ct (.rwp r x) (opRwp r x) s
/-- `PRI` (R120). -/
def execPri (n : BitVec 6) (s : State) : Host.Outcome State Fault Refusal :=
  slotOp .ct (.pri n) (opPri n) s
/-- `CQ_PUSH` (R104, R121). -/
def execCqPush (p : BitVec 4) (neg : Bool) (s : State) : Host.Outcome State Fault Refusal :=
  slotOp .ct (.cqPush p neg) (opCqPush p neg) s
/-- `CQ_DEPTH` (R121). -/
def execCqDepth (d : BitVec 6) (s : State) : Host.Outcome State Fault Refusal :=
  slotOp .ct (.cqDepth d) (opCqDepth d) s
/-- `RW_LD` (R285, R294, R296). -/
def execRwLd (img : BitVec 6) (s : State) : Host.Outcome State Fault Refusal :=
  slotOp .ct (.rwLd img) (opRwLd img) s
/-- `RW_INV` (R285, R297). -/
def execRwInv (k : BitVec 6) (s : State) : Host.Outcome State Fault Refusal :=
  slotOp .ct (.rwInv k) (opRwInv k) s
/-- `FORK` (R385, R387, R388). -/
def execFork (t : Addr) (pol : BitVec 2) (s : State) : Host.Outcome State Fault Refusal :=
  slotOp .ct (.fork t pol) (opFork t pol) s
/-- `SYNC` (R96, R99, R391). -/
def execSync (sn : BitVec 6) (s : State) : Host.Outcome State Fault Refusal :=
  slotOp .ct (.sync sn) (opSync sn) s
/-- `WAKE` (R393). -/
def execWake (t : Addr) (k : BitVec 3) (c : BitVec 2) (s : State) : Host.Outcome State Fault Refusal :=
  slotOp .ct (.wake t k c) (opWake t k c) s
/-- `TRAP` (R423, R440). -/
def execTrap (n : BitVec 16) (s : State) : Host.Outcome State Fault Refusal :=
  slotOp .ct (.trap n) (opTrap n) s
/-- `RFE` (R292, R429, R440). -/
def execRfe (sn : Option (BitVec 6)) (s : State) : Host.Outcome State Fault Refusal :=
  slotOp .ct (.rfe sn) (opRfe sn) s
/-- `SYS` (R423, R440). -/
def execSys (n : BitVec 16) (s : State) : Host.Outcome State Fault Refusal :=
  slotOp .ct (.sys n) (opSys n) s
/-- `KILL` (R99, R320, R353, R377, R398, R420). -/
def execKill (sn : BitVec 6) (s : State) : Host.Outcome State Fault Refusal :=
  slotOp .ct (.kill sn) (opKill sn) s
/-- `TLB_INV_ALL` (R442). -/
def execTlbInvAll (dev : Bool) (s : State) : Host.Outcome State Fault Refusal :=
  slotOp .ct (.tlbInvAll dev) (opTlbInvAll dev) s
/-- `TLB_INV_FN` (R442). -/
def execTlbInvFn (f : BitVec 4) (dev : Bool) (s : State) : Host.Outcome State Fault Refusal :=
  slotOp .ct (.tlbInvFn f dev) (opTlbInvFn f dev) s
/-- `TLB_INV_PG` (R442). -/
def execTlbInvPg (sn : BitVec 6) (f : BitVec 4) (dev : Bool) (s : State) : Host.Outcome State Fault Refusal :=
  slotOp .ct (.tlbInvPg sn f dev) (opTlbInvPg sn f dev) s
/-- `PGRET` (R437, R443). -/
def execPgret (sn d : BitVec 6) (s : State) : Host.Outcome State Fault Refusal :=
  slotOp .ct (.pgret sn d) (opPgret sn d) s
/-- `WAYQ` (R438, R443). -/
def execWayq (sn d : BitVec 6) (s : State) : Host.Outcome State Fault Refusal :=
  slotOp .ct (.wayq sn d) (opWayq sn d) s
/-- `WAYQ_REL` (R443). -/
def execWayqRel (sn d : BitVec 6) (s : State) : Host.Outcome State Fault Refusal :=
  slotOp .ct (.wayqRel sn d) (opWayqRel sn d) s
/-- `HOLD` (R429, R444). -/
def execHold (sn : BitVec 6) (s : State) : Host.Outcome State Fault Refusal :=
  slotOp .ct (.hold sn) (opHold sn) s
/-- `HOLD_REL` (R444). -/
def execHoldRel (sn : BitVec 6) (s : State) : Host.Outcome State Fault Refusal :=
  slotOp .ct (.holdRel sn) (opHoldRel sn) s
/-- `SKIPPED_BUNDLE` (R25, R26, R106). -/
def execSkippedBundle (s : State) : Host.Outcome State Fault Refusal := skipOp s
/-- `CT_NOP` (R32, R93, R94, R106). -/
def execCtNop (s : State) : Host.Outcome State Fault Refusal := slotOp .ct .ctNop (fun _ => {}) s
/-- `RET` (R109, R110, R112). -/
def execRet (s : State) : Host.Outcome State Fault Refusal :=
  slotOp .ct .ret opRet s
/-- `HALT` (R96, R99, R117, R347, R388, R390). -/
def execHalt (s : State) : Host.Outcome State Fault Refusal :=
  slotOp .ct .halt opHalt s
/-- `CQ_FLUSH` (R104, R121). -/
def execCqFlush (s : State) : Host.Outcome State Fault Refusal :=
  slotOp .ct .cqFlush opCqFlush s
/-- `WDOG` (R102, R122). -/
def execWdog (s : State) : Host.Outcome State Fault Refusal :=
  slotOp .ct .wdog opWdog s
/-- `RW_EN` (R297). -/
def execRwEn (s : State) : Host.Outcome State Fault Refusal :=
  slotOp .ct .rwEn opRwEn s
/-- `RW_DIS` (R297). -/
def execRwDis (s : State) : Host.Outcome State Fault Refusal :=
  slotOp .ct .rwDis opRwDis s
/-- `RW_INV_ALL` (R297). -/
def execRwInvAll (s : State) : Host.Outcome State Fault Refusal :=
  slotOp .ct .rwInvAll opRwInvAll s
/-- `SLEEP` (R18, R96, R99, R345, R362, R392). -/
def execSleep (s : State) : Host.Outcome State Fault Refusal :=
  slotOp .ct .sleep opSleep s
/-- `HINT_NEXT` (R395). -/
def execHintNext (s : State) : Host.Outcome State Fault Refusal :=
  slotOp .ct .hintNext opHintNext s
/-- `WAIT_PRED` (R396, R468). -/
def execWaitPred (s : State) : Host.Outcome State Fault Refusal :=
  slotOp .ct .waitPred opWaitPred s
/-- `SPAWN_STAT` (R397). -/
def execSpawnStat (s : State) : Host.Outcome State Fault Refusal :=
  slotOp .ct .spawnStat opSpawnStat s

end Sys2Proof.Machine
end

