-- ==== Sys2Proof/Machine/Cp.lean ====
section
/-! DEFINITION. The meanings of the CP instructions: copy engine, handle table, bindery, scan engine and generation engines (R300 to R419). -/

namespace Sys2Proof.Machine

/-- `CPY_1D` (R321, R329, R333). -/
def execCpy1d (ca cb : BitVec 5) (rep : Option (BitVec 5)) (s : State) : Host.Outcome State Fault Refusal :=
  slotOp .cp (.cpy1d ca cb rep) (opCpy1d ca cb rep) s
/-- `CPY_ND` (R321, R329). -/
def execCpyNd (ca cb : BitVec 5) (rep : Option (BitVec 5)) (s : State) : Host.Outcome State Fault Refusal :=
  slotOp .cp (.cpyNd ca cb rep) (opCpyNd ca cb rep) s
/-- `CPY_MC` (R341). -/
def execCpyMc (ca cb : BitVec 5) (rep : Option (BitVec 5)) (s : State) : Host.Outcome State Fault Refusal :=
  slotOp .cp (.cpyMc ca cb rep) (opCpyMc ca cb rep) s
/-- `CPY_SND` (R344). -/
def execCpySnd (ca cb : BitVec 5) (rep : Option (BitVec 5)) (s : State) : Host.Outcome State Fault Refusal :=
  slotOp .cp (.cpySnd ca cb rep) (opCpySnd ca cb rep) s
/-- `CPY_ZRB` (R338). -/
def execCpyZrb (ca cb : BitVec 5) (rep : Option (BitVec 5)) (s : State) : Host.Outcome State Fault Refusal :=
  slotOp .cp (.cpyZrb ca cb rep) (opCpyZrb ca cb rep) s
/-- `CPY_SP24` (R339). -/
def execCpySp24 (ca cb : BitVec 5) (rep : Option (BitVec 5)) (s : State) : Host.Outcome State Fault Refusal :=
  slotOp .cp (.cpySp24 ca cb rep) (opCpySp24 ca cb rep) s
/-- `CPY_STRM` (R346). -/
def execCpyStrm (ca cb : BitVec 5) (rep : Option (BitVec 5)) (s : State) : Host.Outcome State Fault Refusal :=
  slotOp .cp (.cpyStrm ca cb rep) (opCpyStrm ca cb rep) s
/-- `CPY_STOP` (R347). -/
def execCpyStop (ca : BitVec 5) (rep : Option (BitVec 5)) (s : State) : Host.Outcome State Fault Refusal :=
  slotOp .cp (.cpyStop ca rep) (opCpyStop ca rep) s
/-- `CPY_FILL` (R331). -/
def execCpyFill (ca cb : BitVec 5) (rep : Option (BitVec 5)) (s : State) : Host.Outcome State Fault Refusal :=
  slotOp .cp (.cpyFill ca cb rep) (opCpyFill ca cb rep) s
/-- `HND_NEW` (R334). -/
def execHndNew (ca cd : BitVec 5) (s : State) : Host.Outcome State Fault Refusal :=
  slotOp .cp (.hndNew ca cd) (opHndNew ca cd) s
/-- `HND_FREE` (R333, R334). -/
def execHndFree (ca : BitVec 5) (rep : Option (BitVec 5)) (s : State) : Host.Outcome State Fault Refusal :=
  slotOp .cp (.hndFree ca rep) (opHndFree ca rep) s
/-- `HND_GEN` (R333, R334). -/
def execHndGen (ca cd : BitVec 5) (s : State) : Host.Outcome State Fault Refusal :=
  slotOp .cp (.hndGen ca cd) (opHndGen ca cd) s
/-- `FR_IN` (R321, R354, R364). -/
def execFrIn (ca cb : BitVec 5) (rep : Option (BitVec 5)) (s : State) : Host.Outcome State Fault Refusal :=
  slotOp .cp (.frIn ca cb rep) (opFrIn ca cb rep) s
/-- `FR_OUT` (R354, R365). -/
def execFrOut (ca cb : BitVec 5) (rep : Option (BitVec 5)) (s : State) : Host.Outcome State Fault Refusal :=
  slotOp .cp (.frOut ca cb rep) (opFrOut ca cb rep) s
/-- `FR_SWAP` (R366). -/
def execFrSwap (ca cb : BitVec 5) (rep : Option (BitVec 5)) (s : State) : Host.Outcome State Fault Refusal :=
  slotOp .cp (.frSwap ca cb rep) (opFrSwap ca cb rep) s
/-- `FR_SNAP` (R367). -/
def execFrSnap (ca cb : BitVec 5) (rep : Option (BitVec 5)) (s : State) : Host.Outcome State Fault Refusal :=
  slotOp .cp (.frSnap ca cb rep) (opFrSnap ca cb rep) s
/-- `FR_FORK` (R367). -/
def execFrFork (ca cb : BitVec 5) (rep : Option (BitVec 5)) (s : State) : Host.Outcome State Fault Refusal :=
  slotOp .cp (.frFork ca cb rep) (opFrFork ca cb rep) s
/-- `FR_ROLL` (R368). -/
def execFrRoll (ca cb : BitVec 5) (rep : Option (BitVec 5)) (s : State) : Host.Outcome State Fault Refusal :=
  slotOp .cp (.frRoll ca cb rep) (opFrRoll ca cb rep) s
/-- `FR_REL` (R369). -/
def execFrRel (ca cb : BitVec 5) (rep : Option (BitVec 5)) (s : State) : Host.Outcome State Fault Refusal :=
  slotOp .cp (.frRel ca cb rep) (opFrRel ca cb rep) s
/-- `FR_PIN` (R370). -/
def execFrPin (ca cb : BitVec 5) (rep : Option (BitVec 5)) (s : State) : Host.Outcome State Fault Refusal :=
  slotOp .cp (.frPin ca cb rep) (opFrPin ca cb rep) s
/-- `FR_CHK` (R371). -/
def execFrChk (ca cb : BitVec 5) (rep : Option (BitVec 5)) (s : State) : Host.Outcome State Fault Refusal :=
  slotOp .cp (.frChk ca cb rep) (opFrChk ca cb rep) s
/-- `FR_RES` (R371). -/
def execFrRes (ca cb : BitVec 5) (rep : Option (BitVec 5)) (s : State) : Host.Outcome State Fault Refusal :=
  slotOp .cp (.frRes ca cb rep) (opFrRes ca cb rep) s
/-- `SCN_DIAG` (R300, R312, R313). -/
def execScnDiag (ca cb : BitVec 5) (rep : Option (BitVec 5)) (s : State) : Host.Outcome State Fault Refusal :=
  slotOp .cp (.scnDiag ca cb rep) (opScnDiag ca cb rep) s
/-- `SCN_LIN` (R312, R314, R315). -/
def execScnLin (ca : BitVec 5) (rep : Option (BitVec 5)) (s : State) : Host.Outcome State Fault Refusal :=
  slotOp .cp (.scnLin ca rep) (opScnLin ca rep) s
/-- `SCN_CIN` (R306, R312, R316). -/
def execScnCin (ca : BitVec 5) (rep : Option (BitVec 5)) (s : State) : Host.Outcome State Fault Refusal :=
  slotOp .cp (.scnCin ca rep) (opScnCin ca rep) s
/-- `SCN_COUT` (R312, R317). -/
def execScnCout (ca : BitVec 5) (rep : Option (BitVec 5)) (s : State) : Host.Outcome State Fault Refusal :=
  slotOp .cp (.scnCout ca rep) (opScnCout ca rep) s
/-- `SCN_FADE` (R306, R312, R318). -/
def execScnFade (ca : BitVec 5) (rep : Option (BitVec 5)) (s : State) : Host.Outcome State Fault Refusal :=
  slotOp .cp (.scnFade ca rep) (opScnFade ca rep) s
/-- `SCN_CFG` (R310, R312, R319). -/
def execScnCfg (ca : BitVec 5) (rep : Option (BitVec 5)) (s : State) : Host.Outcome State Fault Refusal :=
  slotOp .cp (.scnCfg ca rep) (opScnCfg ca rep) s
/-- `SMP_RUN` (R321, R399, R408). -/
def execSmpRun (ca cb : BitVec 5) (rep : Option (BitVec 5)) (s : State) : Host.Outcome State Fault Refusal :=
  slotOp .cp (.smpRun ca cb rep) (opSmpRun ca cb rep) s
/-- `SMP_SHARD` (R399, R409). -/
def execSmpShard (ca cb : BitVec 5) (rep : Option (BitVec 5)) (s : State) : Host.Outcome State Fault Refusal :=
  slotOp .cp (.smpShard ca cb rep) (opSmpShard ca cb rep) s
/-- `SMP_MERGE` (R399, R410). -/
def execSmpMerge (ca cb : BitVec 5) (rep : Option (BitVec 5)) (s : State) : Host.Outcome State Fault Refusal :=
  slotOp .cp (.smpMerge ca cb rep) (opSmpMerge ca cb rep) s
/-- `NW_START` (R321, R399, R403, R404). -/
def execNwStart (ca cb : BitVec 5) (rep : Option (BitVec 5)) (s : State) : Host.Outcome State Fault Refusal :=
  slotOp .cp (.nwStart ca cb rep) (opNwStart ca cb rep) s
/-- `CM_ACC` (R321, R399, R412, R470). -/
def execCmAcc (ca cb : BitVec 5) (rep : Option (BitVec 5)) (s : State) : Host.Outcome State Fault Refusal :=
  slotOp .cp (.cmAcc ca cb rep) (opCmAcc ca cb rep) s
/-- `CM_EMIT` (R399, R413, R470). -/
def execCmEmit (ca cb : BitVec 5) (rep : Option (BitVec 5)) (s : State) : Host.Outcome State Fault Refusal :=
  slotOp .cp (.cmEmit ca cb rep) (opCmEmit ca cb rep) s
/-- `CM_TRIM` (R399, R415). -/
def execCmTrim (ca cb : BitVec 5) (rep : Option (BitVec 5)) (s : State) : Host.Outcome State Fault Refusal :=
  slotOp .cp (.cmTrim ca cb rep) (opCmTrim ca cb rep) s
/-- `CP_NOP` (R32). -/
def execCpNop (s : State) : Host.Outcome State Fault Refusal := slotOp .cp .cpNop (fun _ => {}) s
/-- `CPY_CLR` (R352). -/
def execCpyClr (s : State) : Host.Outcome State Fault Refusal :=
  slotOp .cp .cpyClr opCpyClr s
/-- `CPY_Q` (R351). -/
def execCpyQ (s : State) : Host.Outcome State Fault Refusal :=
  slotOp .cp .cpyQ opCpyQ s
/-- `FR_STAT_OP` (R372). -/
def execFrStatOp (s : State) : Host.Outcome State Fault Refusal := slotOp .cp .frStatOp opFrStat s
/-- `FR_STAT_SESSION` (R372). -/
def execFrStatSession (s : State) : Host.Outcome State Fault Refusal := slotOp .cp .frStatOp opFrStat s
/-- `FR_STAT_BANKS` (R372). -/
def execFrStatBanks (s : State) : Host.Outcome State Fault Refusal := slotOp .cp .frStatOp opFrStat s
/-- `FR_STAT_CLEAR` (R372). -/
def execFrStatClear (s : State) : Host.Outcome State Fault Refusal := slotOp .cp .frStatOp opFrStat s
/-- `SMP_STAT_QUERY` (R419). -/
def execSmpStatQuery (s : State) : Host.Outcome State Fault Refusal := slotOp .cp .smpStatQuery (genStatOp · 3) s
/-- `SMP_STAT_CLEAR` (R419). -/
def execSmpStatClear (s : State) : Host.Outcome State Fault Refusal := slotOp .cp .smpStatQuery (genStatOp · 3) s
/-- `NW_STAT_QUERY` (R419). -/
def execNwStatQuery (s : State) : Host.Outcome State Fault Refusal := slotOp .cp .nwStatQuery (genStatOp · 4) s
/-- `NW_STAT_CLEAR` (R419). -/
def execNwStatClear (s : State) : Host.Outcome State Fault Refusal := slotOp .cp .nwStatQuery (genStatOp · 4) s
/-- `CM_STAT_QUERY` (R419). -/
def execCmStatQuery (s : State) : Host.Outcome State Fault Refusal := slotOp .cp .cmStatQuery (genStatOp · 5) s
/-- `CM_STAT_CLEAR` (R419). -/
def execCmStatClear (s : State) : Host.Outcome State Fault Refusal := slotOp .cp .cmStatQuery (genStatOp · 5) s

end Sys2Proof.Machine
end

