-- ==== Sys2Proof/Machine/Crypto.lean ====
section
/-! DEFINITION. SHA-384 and ECDSA P-384 verification, which R85, R454 and R457 name and whose standards (FIPS 180-4, FIPS 186-5)
lie outside the spec (log entry 3, PRESUMED).  A key slot holds only the digest of a public key, so a signature verifies when one of
the keys under which it would hold has that digest. -/

namespace Sys2Proof.Machine

/-! ### SHA-384 -/

/-- The k-th root of n rounded down, from its bits below the b-th on, when r is what the bits above give. -/
def rootBelow (k n : Nat) : Nat → Nat → Nat
  | 0, r => r
  | b + 1, r => rootBelow k n b (if (r + 2 ^ b) ^ k ≤ n then r + 2 ^ b else r)
/-- The first 64 bits of the fraction of the k-th root of n. -/
def rootFrac (k n : Nat) : BitVec 64 := BitVec.ofNat 64 (rootBelow k (n * 2 ^ (64 * k)) 72 0)
/-- The primes below 410, of which there are 80. -/
def shaPrimes : List Nat := (List.range 410).filter fun n => 2 ≤ n && (List.range n).all fun d => d < 2 || n % d != 0
/-- The round constants: FIPS 180-4 takes them from the cube roots of the first 80 primes. -/
def shaK : List (BitVec 64) := shaPrimes.map (rootFrac 3)
/-- The initial hash value, from the square roots of the ninth to the sixteenth prime. -/
def shaH : List (BitVec 64) := ((shaPrimes.drop 8).take 8).map (rootFrac 2)

def shaMix (a b : Nat) (x y : BitVec 64) : BitVec 64 := x.rotateRight a ^^^ x.rotateRight b ^^^ y
/-- The message schedule, the newest word first; the first argument counts the words to come. -/
def shaSched : Nat → List (BitVec 64) → List (BitVec 64)
  | 0, w => w
  | n + 1, w =>
    let at_ (i : Nat) : BitVec 64 := w.getD i 0
    shaSched n ((shaMix 19 61 (at_ 1) (at_ 1 >>> 6) + at_ 6 + shaMix 1 8 (at_ 14) (at_ 14 >>> 7) + at_ 15) :: w)
/-- One round on the eight working words. -/
def shaRound (v : List (BitVec 64)) (kw : BitVec 64 × BitVec 64) : List (BitVec 64) :=
  match v with
  | [a, b, c, d, e, f, g, h] =>
    let t1 := h + shaMix 14 18 e (e.rotateRight 41) + ((e &&& f) ^^^ (~~~e &&& g)) + kw.1 + kw.2
    let t2 := shaMix 28 34 a (a.rotateRight 39) + ((a &&& b) ^^^ (a &&& c) ^^^ (b &&& c))
    [t1 + t2, a, b, c, d + t1, e, f, g]
  | v => v
/-- A big-endian word of eight bytes. -/
def be64 (l : List Byte) : BitVec 64 := BitVec.ofNat 64 (ofBytes (l.take 8).reverse)
/-- The blocks of 128 bytes in turn; the first argument counts them. -/
def shaBlocks : Nat → List Byte → List (BitVec 64) → List (BitVec 64)
  | 0, _, h => h
  | n + 1, m, h =>
    let w := (shaSched 64 ((List.range 16).map fun i => be64 ((m.drop (8 * i)).take 8)).reverse).reverse
    shaBlocks n (m.drop 128) (List.zipWith (· + ·) h ((shaK.zip w).foldl shaRound h))
/-- SHA-384 of a byte string; byte i of the digest is bits 8i to 8i + 7. -/
def sha384 (m : List Byte) : BitVec 384 :=
  let n := (m.length + 17 + 127) / 128
  let pad := List.replicate (128 * n - m.length - 17) (0 : Byte)
  let h := shaBlocks n (m ++ [0x80] ++ pad ++ (bytesOf 16 (8 * m.length)).reverse) shaH
  BitVec.ofNat 384 (ofBytes ((h.take 6).flatMap fun x => (bytesOf 8 x.toNat).reverse))

/-! ### ECDSA P-384 -/

/-- 48 bytes as a big-endian integer. -/
def be48 (l : List Byte) : BitVec 384 := BitVec.ofNat 384 (ofBytes (l.take 48).reverse)
/-- The field, the group order, the coefficient b and the generator of P-384; a is -3. -/
def p384P : Nat := 2 ^ 384 - 2 ^ 128 - 2 ^ 96 + 2 ^ 32 - 1
def p384N : Nat := 0xffffffffffffffffffffffffffffffffffffffffffffffffc7634d81f4372ddf581a0db248b0a77aecec196accc52973
def p384B : Nat := 0xb3312fa7e23ee7e4988e056be3f82d19181d9c6efe8141120314088f5013875ac656398d8a2ed19d2a85c8edd3ec2aef
def p384G : Nat × Nat :=
  (0xaa87ca22be8b05378eb1c71ef320ad746e1d3b628ba79b9859f741e082542a385502f25dbf55296c3a545e3872760ab7,
   0x3617de4a96262c6f5d9e98bf9292dc29f8f41dbd289a147ce9da3113b5f0b8c00a60b1ce1d7e819d7a431d7c90ea0e5f)
/-- x to the e modulo q; the first argument bounds the bits of e. -/
def powMod (q x : Nat) : Nat → Nat → Nat
  | 0, _ => 1
  | f + 1, e => if e = 0 then 1 else
    let h := powMod q x f (e / 2)
    if e % 2 = 1 then h * h % q * x % q else h * h % q
def invMod (q x : Nat) : Nat := powMod q (x % q) 384 (q - 2)
/-- A point of the curve, or the point at infinity. -/
abbrev Pt := Option (Nat × Nat)
def Pt.add (a b : Pt) : Pt :=
  match a, b with
  | none, b => b
  | a, none => a
  | some (x, y), some (u, v) =>
    let p := p384P
    if x = u ∧ (y + v) % p = 0 then none
    else
      let m := if x = u then (3 * x * x + p - 3) * invMod p (2 * y) % p else (v + p - y) * invMod p (u + p - x) % p
      let w := (m * m + 2 * p - x - u) % p
      some (w, (m * (x + p - w) + p - y) % p)
/-- A multiple of a point; the first argument bounds the bits of the factor. -/
def Pt.mul (a : Pt) : Nat → Nat → Pt
  | 0, _ => none
  | f + 1, n => if n = 0 then none else
    let h := a.mul f (n / 2)
    let d := h.add h
    if n % 2 = 1 then d.add a else d
/-- The points with an x coordinate. -/
def liftX (x : Nat) : List Pt :=
  let p := p384P
  let c := (x * x * x + (p - 3) * x + p384B) % p
  let y := powMod p c 384 ((p + 1) / 4)
  if y * y % p = c then [some (x, y), some (x, p - y)] else []
/-- The digest of a public key in uncompressed SEC 1 form (R85). -/
def keyDigest : Pt → BitVec 384
  | none => 0
  | some (x, y) => sha384 (0x04 :: (bytesOf 48 x).reverse ++ (bytesOf 48 y).reverse)
/-- The public keys under which (r, s) is a signature of a message digest. -/
def keysOf (z r s : Nat) : List Pt :=
  let n := p384N
  let xs := (if r < p384P then [r] else []) ++ (if r + n < p384P then [r + n] else [])
  let i := invMod n r
  (xs.flatMap liftX).map fun q => (q.mul 384 (s * i % n)).add (Pt.mul (some p384G) 384 ((n - z % n) * i % n))
/-- Whether (r, s) is a signature of a digest by the key with a digest (R85, R454, R457). -/
def ecdsaOk (id d r s : BitVec 384) : Bool :=
  let ok (x : BitVec 384) : Bool := decide (0 < x.toNat) && decide (x.toNat < p384N)
  ok r && ok s && (keysOf (be48 (bytesOf 48 d.toNat)).toNat r.toNat s.toNat).any fun q => q.isSome && keyDigest q == id

end Sys2Proof.Machine
end

