-- ==== Sys2Proof/Machine/Events.lean ====
section
/-! DEFINITION. The steps of the hardware inside the cores and clusters: results, watchdogs, accesses that perform,
caches, barriers, the matrix queue, the engines, tasks, pre-emption and soft errors.  A step that cannot take place in a
state leaves it as it is; what a step names stands in the state's argument list (log entry 7, DESIGN CHOICE). -/

namespace Sys2Proof.Machine

/-- Argument i of a step. -/
def State.argN (s : State) (i : Nat) : Nat := s.arg.getD i 0
/-- Whether the device holds no power, or stays in reset after firmware verification failed (R458). -/
def State.down (s : State) : Bool := s.off || bitAt (s.reg rPwrSts) 3
/-- A step of the hardware: free values are renewed, and what it brings about is seen from the next cycle on; where it
brings about nothing, or meets a unit that is not ready (R459), the state stays as it is. -/
def event (f : State → State) (s : State) : Host.Outcome State Fault Refusal :=
  let t := { s.tick with held := false }
  let u := f t
  .next (if s.down ∨ u.held ∨ u = t then s else { u with evt := u.now })

/-! ### Results, watchdogs, traps, the arbiter (R89, R96, R101, R102, R382, R425) -/

/-- The bundle word a context would issue next, free where it cannot be fetched. -/
def nextWord (s : State) (k j : Nat) : Nat :=
  match s.fetch k j (s.ctx k j).ctl.pc.toNat with
  | .word w => w
  | _ => s.free 871000 % 2 ^ 512
/-- Whether the run watchdog has expired for a context: the primary, outside its handler, beyond its stated run and 256
cycles (R101). -/
def overrun (s : State) (k j : Nat) : Bool :=
  let x := s.ctx k j
  (s.core k).prim == some j && !(s.core k).prep && x.life == .live && x.trapP.isNone && !x.hand.on &&
  !(x.task.excl && x.ctl.run == 0) && decide (x.ctl.run.toNat + 256 < x.ctl.runCnt)
/-- `RUNOVER` at the bundle due to issue (R101, R424). -/
def takeOverrun (s : State) (k j : Nat) : State :=
  let x := s.ctx k j
  trapTake s k j { req := { cause := 5, slot := 0, info := runoverInfo x false, insn := nextWord s k j % 2 ^ 16 }, bpc := x.ctl.pc,
                   rpc := x.ctl.pc }
/-- Inside a rewritten group the bundles go on first (R292). -/
def evOverrun (s : State) : State :=
  let k := s.argN 0
  let j := s.argN 1
  if overrun s k j && !(s.ctx k j).midGroup then takeOverrun s k j else s

/-- The period of the system watchdog in cycles (R102, R9): 2900 to a microsecond, 1450 in the SLOW state. -/
def sysPeriod (s : State) (k : Nat) : Nat := s.reg (rWdp k) % 2 ^ 24 * (if s.reg rPwrSts % 8 = 1 then 1450 else 2900)
def evSysWatchdog (s : State) : State :=
  let k := s.argN 0
  let c := s.core k
  if c.sysw < sysPeriod s k then s
  else
    let s := s.modCore k fun c => { c with sysw := 0 }
    match c.prim with
    | some j => terminate s k j 2 0
    | none => s

def evTrap (s : State) : State := trapTry s (s.argN 0) (s.argN 1)
def evReady (s : State) : State := wakeCore s (s.argN 0)
def evBanks (s : State) : State := bankPrep s (s.argN 0)

/-! ### Accesses that perform (R176 to R180, R191 to R203, R393) -/

/-- A posted write, or a marker, or an access whose result another took the place of (R126): nothing waits for its value. -/
def Acc.plain (x : Ctx) (a : Acc) : Bool :=
  (!a.ret || !x.pend.any fun p => p.acc == some a.key) && !a.kind.rows
def evPosted (s : State) : State :=
  accGo s (s.argN 0) (s.argN 1) (s.argN 2) (Acc.plain (s.ctx (s.argN 0) (s.argN 1)))
/-- An atomic performs and its value comes back. -/
def Acc.isAtom (a : Acc) : Bool := match a.kind with | .atom _ _ _ _ => true | _ => false
def evReturn (s : State) : State := accGo s (s.argN 0) (s.argN 1) (s.argN 2) fun a => a.ret && a.isAtom
/-- A result is delivered before its position; that of a load comes with the access. -/
def evResult (s : State) : State :=
  let k := s.argN 0
  let j := s.argN 1
  match (s.ctx k j).pend[s.argN 2]? with
  | none => s
  | some p => match p.acc with
    | some key => match (s.ctx k j).posted.zipIdx.find? fun q => q.1.key == key with
      | some q => accGo s k j q.2 fun a => a.ret && !a.isAtom
      | none => s
    | none => landEarly s k j (s.argN 2)

/-- A row of an `ldg` arrives (R176). -/
def evLdg (s : State) : State := accGo s (s.argN 0) (s.argN 1) (s.argN 2) fun a => a.kind.rows

/-- A walk in flight ends. -/
def evWalk (s : State) : State := s.walkDone (s.argN 0) (s.argN 1)
/-- A line of L1 is evicted. -/
def evEvict (s : State) : State :=
  if (tfind (s.core (s.argN 0)).l1 (s.argN 1)).isSome then s.l1Evict (s.argN 0) (s.argN 1) else s
/-- A sector of a stack line is fetched and merged under the mask (R180); an uncorrectable unit is left (R435). -/
def evFetch (s : State) : State :=
  let key := s.argN 0
  let sec := s.argN 1 % 4
  match tfind s.stack key with
  | some l =>
    if !bitAt l.valid.toNat sec ∨ l.poison ∨ tget false s.badUnits (4 * keyLine key + sec) then s
    else if !s.sliceReady l.slice ∨ !s.chanReady (256 * keyLine key) then s.hold
    else { s with stack := tput s.stack key (l.fill s.dram (keyLine key) sec) }
  | none => s
/-- A packet is diverted to the escape channel, and its pair with it (R183); nothing but time depends on it. -/
def evEscape (s : State) : State :=
  let k := s.argN 0
  match ((s.ctx k (s.argN 1)).posted[s.argN 2]?).bind (packetTo s) with
  | some d => { s with escaped := tset false s.escaped (128 * k + d) true }
  | none => s

/-! ### Barriers and the matrix queue (R206, R248, R249) -/

def evBarrier (s : State) : State := barrierUpdate s (s.argN 0) (s.argN 1)
def evMatrix (s : State) : State :=
  let k := s.argN 0
  match (s.core k).mqNext s.now with
  | some i => mxDone s k i
  | none => s

/-- The rows a plane takes of a slot, or of a pair. -/
def planeRows (c : Core) (slot : Nat) (pair : Bool) : Tab Row :=
  (c.wslot slot).rows ++ (if pair then (c.wslot (slot + 1)).rows.map fun e => (e.1 + 128, e.2) else [])
/-- A plane that no instruction in its entry stage uses is loaded for the instruction that waits (R249): an empty one, else
one chosen without rule. -/
def planeLoad (s : State) (k : Nat) : State :=
  let c := s.core k
  match c.planeReq with
  | none => s
  | some (slot, pair) =>
    let ok (p : Nat) : Bool := !(decide (s.now < c.entryFree) && c.entryPl == p)
    let pick := if c.plane0.slot.isNone && ok 0 then 0 else if c.plane1.slot.isNone && ok 1 then 1
      else if !ok 0 then 1 else if !ok 1 then 0 else s.free 872000 % 2
    let d := c.wslot slot
    let p : Plane := { slot := some slot, pair := pair, rows := planeRows c slot pair, sp := d.sp, srsv := d.srsv,
                       ready := s.now + (if wide16 d.ty then 32 else 16) }
    if !ok pick then s
    else s.setCore k (if pick = 0 then { c with planeReq := none, plane0 := p } else { c with planeReq := none, plane1 := p })
def evPlane (s : State) : State := planeLoad s (s.argN 0)

/-! ### Engines and the static network -/

def evCopyStart (s : State) : State := copyStart s (s.argN 0)
def evCopyBeat (s : State) : State := copyBeat s (s.argN 0) (s.argN 1) s.arg[2]?
def evCopyEnd (s : State) : State := copyComplete s (s.argN 0) (s.argN 1)
def evStream (s : State) : State := streamRow s (s.argN 0) (s.argN 1)
def evSend (s : State) : State := circuitSend s (s.argN 0) (s.argN 1)
def evLand (s : State) : State := circuitLand s (s.argN 0)
def evArrival (s : State) : State := arrStart s (s.argN 0)
def evBndStart (s : State) : State := bndStart s (s.argN 0)
/-- A bindery command goes on or ends; one that a commit restored goes back to it (R412). -/
def evBndEnd (s : State) : State :=
  match bndAdvance s (s.argN 0) (s.argN 1) s.arg[2]? with
  | (s, some c) => restoreDone s c
  | (s, none) => s
/-- Whether a cluster is ready (R20, R459). -/
def clusterReady (s : State) (q : Nat) : Bool := bitAt (s.reg (rSysReady 1)) q
/-- The session program of circulation core n queues a bindery command on its own timeline (R359, R378); which, and the bank it
takes as active, is firmware's choice (log entry 94, DESIGN CHOICE).  It never writes out or replaces a pinned session (R370).
Function 11 clears the timeline, as `fr.stat` mode 11 does for a context. -/
def evRotation (s : State) : State :=
  let k := s.argN 0
  let q := clusterOf k
  let fn := s.argN 1
  let n := s.argN 5 % 4
  let t := tget {} s.circTl n
  let c : Cmd := { core := k, ctx := 0, opn := t.i + 1, fn := fn, ca := BitVec.ofNat 64 (s.argN 2), cb := BitVec.ofNat 64 (s.argN 3),
                   rot := true, eng := 1, at_ := s.now, key := s.nextKey, bank := s.argN 4 % 2 == 1, cfg := n }
  let pinned (x : Nat) : Bool := s.sesLive x && sesPn (s.ses x)
  let tag := match c.bBank with | some true => (s.core k).sessB | some false => (s.core k).sessA | none => none
  let own (d : Cmd) : Bool := d.rot && d.opn != 0 && d.cfg == n
  if !s.coreOk k ∨ !clusterReady s q ∨ s.reg rPwrSts % 8 = 3 then s
  else if fn = 11 then
    let gone := (List.range 32).flatMap fun q => (s.cluster q).bind.filter own
    let t := gone.foldl (fun (t : Timeline) d => t.complete { n := d.opn, status := 11 } false false) t
    let drop (s : State) (q : Nat) : State := s.modCluster q fun q => { q with bind := q.bind.filter fun d => !own d }
    { (List.range 32).foldl drop s with
        circTl := tput s.circTl n { t with err := false, halt := false, f := 0 } }
  else if fn = 0 ∨ 8 < fn ∨ ((fn = 2 ∨ fn = 3) ∧ pinned c.bSid) ∨ ((fn = 1 ∨ fn = 3) ∧ tag.any pinned) then s
  else ({ s with nextKey := s.nextKey + 1, circTl := tput s.circTl n { t.issue c with queue := [] } }).modCluster q fun q =>
    { q with bind := q.bind ++ [c] }
def evScanStart (s : State) : State := scanStart s (s.argN 0)
/-- A scan command goes on or ends; a flip that it held back from a context that issues nothing then applies (R308, R362). -/
def evScanEnd (s : State) : State := flipIdle (scanAdvance s (s.argN 0) s.arg[1]?) (s.argN 0)
def evGenStart (s : State) : State := genStart s (s.argN 0) (s.argN 1)
def evGenEnd (s : State) : State := genAdvance s (s.argN 0) (s.argN 1) s.arg[2]?
def evTrim (s : State) : State := trimLand s (s.argN 0)

/-! ### Tasks of a cluster (R385 to R391) -/

/-- Whether a spawn entry ranks before another that stands after it: by priority, then resume entries first (R385). -/
def Spawn.beats (a b : Spawn) : Bool := a.prio.toNat < b.prio.toNat || (a.prio == b.prio && a.resume && !b.resume)
/-- The entry that ranks highest, with its place. -/
def spawnBest (l : List Spawn) : Option (Spawn × Nat) :=
  l.zipIdx.foldl (fun b e => match b with | none => some e | some q => if e.1.beats q.1 then some e else some q) none
/-- The free context a cluster starts an entry on: the lowest core, then the lowest context (R389). -/
def freeContext (s : State) (q : Nat) : Option (Nat × Nat) :=
  ((List.range 32).find? fun n => s.coreOk (4 * q + n / 8) && (s.ctx (4 * q + n / 8) (n % 8)).life == .free).map fun n =>
    (4 * q + n / 8, n % 8)

def evSpawn (s : State) : State :=
  let q := s.argN 0
  match spawnBest (s.cluster q).spawnQ, freeContext s q with
  | some (e, i), some (k, j) =>
    if !clusterReady s q then s
    else
      let s := s.modCluster q fun c => { c with spawnQ := dropAt c.spawnQ i }
      match s.kernelOf e.kern with
      | none => s
      | some n =>
        if e.resume then
          let mask := ((e.frame.bind (s.cluster q).frame).map (·.mask)).getD 0
          acquire (startTask s k j n e.target e.prio e.tcoord e.frame none none mask) k j
        else startTask s k j n e.target e.prio e.tcoord e.frame (some e.s1) (some e.s2) 0
  | _, _ => s

/-- A terminated task whose accesses have performed is over; the write-backs of its L1 words come first (R390, R396, R427). -/
def leaveTry (s : State) (q i : Nat) : State :=
  match (s.cluster q).leaving[i]? with
  | none => s
  | some l =>
    if (s.ctx l.core l.ctx).posted.any fun a => decide (a.key < l.last) then s
    else taskOver ((s.modCluster q fun c => { c with leaving := dropAt c.leaving i }).l1Release l.core l.ctx) q l.kern l.frame
/-- A task whose children have all completed is complete (R390); beyond the frames, the terminated tasks that have still to
leave. -/
def evChild (s : State) : State :=
  let q := s.argN 0
  match (s.cluster q).frames[s.argN 1]? with
  | none => leaveTry s q (s.argN 1 - (s.cluster q).frames.length)
  | some f =>
    if !f.ended ∨ f.pend ≠ 0 then s
    else
      let s := s.modCluster q fun c => { c with frames := c.frames.filter fun g => g.id != f.id }
      let s := s.modKernel f.kern fun n => { n with live := n.live - 1 }
      match f.parent.bind (s.cluster q).frame with
      | none => s
      | some p =>
        let s := s.modCluster q fun c => c.modFrame p.id fun p => { p with pend := p.pend - 1 }
        match p.resume with
        | some t => if p.pend = 1 then (pushResume s q p t).modCluster q fun c => c.modFrame p.id fun p => { p with resume := none } else s
        | none => s

/-- The oldest overflow entry that finds an entry and a frame moves into the queue (R388). -/
def evOverflow (s : State) : State :=
  let q := s.argN 0
  let c := s.cluster q
  if 256 ≤ (c.spawnQ.filter fun e => !e.resume).length then s
  else match c.ovf with
    | [] => s
    | e :: _ => match s.kernelOf e.kern with
      | none => s.modCluster q fun c => { c with ovf := c.ovf.drop 1 }
      | some n => match takeFrame s q n e.parent e.prio e.tcoord with
        | some (s, f) => s.modCluster q fun c => { c with ovf := c.ovf.drop 1, spawnQ := c.spawnQ ++ [{ e with frame := some f }] }
        | none => s

/-! ### Pre-emption (R430, R431) -/

/-- The rows of a bank of a context's demand wherever they lie: the register file, the save area, or the frame. -/
def taskRows (s : State) (k j b : Nat) : Except Nat (List Nat) :=
  let x := s.ctx k j
  if tget 0 (s.core k).tags b = j + 1 then .ok ((s.core k).block b)
  else if bitAt x.unfilled.toNat b then
    match x.task.frame.bind (s.cluster (clusterOf k)).frame with
    | some f => .ok (frameRows s f b)
    | none => .ok ((s.core k).block b)
  else if bitAt x.saved.toNat b then savedRows s k j b
  else .ok ((s.core k).block b)
/-- The rows of the regions of a task with the given PERS (Table 19-4). -/
def regionRows (l : List Word) (pers : Bool) : List Nat :=
  l.flatMap fun r => let v := r.toNat
    if !bitAt v 27 && bitAt v 28 == pers then (List.range (bitsAt v 13 14)).map fun i => bitsAt v 0 13 + i else []
/-- The banks a pre-emption block keeps: those of the demand, a tile only if it is persistent. -/
def keptBank (t : Task) (b : Nat) : Bool := bitAt t.demand.toNat b && (b / 8 != 2 || bitAt t.ptm.toNat (b % 8))

/-- Whether a task may be pre-empted: at a yield, with nothing of its own still to come but rows of its streams, which stop
between two rows and go with it. -/
def mayPreempt (s : State) (k j : Nat) : Bool :=
  let x := s.ctx k j
  x.life == .live && x.atYield && !x.hand.on && x.trapP.isNone && x.posted == [] && !x.pend.any (fun p => p.acc.isSome) &&
  !((s.core k).mq.any fun e => e.ctx == j) && !commandsBusy s k j
/-- Rows of the area a pre-emption block takes beside its saved rows (log entry 92, DESIGN CHOICE). -/
def blockHead : Nat := 128
/-- A task is pre-empted into the block at an address that the circulation core names; the block's layout is the device's, and
its bytes stand for what was saved (R430). -/
def evPreempt (s : State) : State :=
  let k := s.argN 0
  let j := s.argN 1
  let pa := s.argN 2 / 128 * 128 % 2 ^ 52
  if !mayPreempt s k j then s
  else
    let s := landAll (touchAll s k j) k j
    let x := s.ctx k j
    match ((List.range 56).filter fun b => keptBank x.task b).mapM fun b => (taskRows s k j b).map fun l => (b, l.map row) with
    | .error pa => terminate s k j 5 pa
    | .ok banks =>
      let rows := (regionRows x.task.regions true).map fun w => (w, row (s.padRow k w))
      let n := blockHead + (banks.map fun p => p.2.length).foldl (· + ·) 0 + rows.length
      let img := (List.range n).map fun i => row (s.free (900000 + i))
      match rowsBad n pa fun a => s.lpWBad 0 a 128 with
      | some a => terminate s k j 5 a
      | none =>
        let b : Block := { core := k, j := j, x := x, banks := banks, rows := rows, img := img,
                           streams := (s.core k).streams.filter fun t => t.cmd.ctx == j }
        let s := img.zipIdx.foldl (fun s p => s.lpWrite 0 (pa + 128 * p.2) 128 p.1.toNat) s
        let s := s.modCore k fun c => { c with streams := c.streams.filter fun t => t.cmd.ctx != j }
        let s := freeCtx { s with blocks := s.blocks ++ [b] } k j
        if (s.core k).prim = some j then arbSelect s k else s

/-- The pre-emption block that stands at an address, wherever software has moved it as a whole (R430). -/
def blockAt (s : State) (pa : Nat) : Option (Block × Nat) :=
  s.blocks.zipIdx.find? fun b => b.1.img.zipIdx.all fun p => s.lpRead 0 (pa + 128 * p.2) 128 == p.1.toNat

/-- Lost sectors of the discard regions read zero, and each region's mask row tells them (R431). -/
def restoreDiscard (s : State) (k : Nat) (b : Block) : State :=
  let away := b.core != k
  let gone (n : Nat) : Bool := away || b.lost.contains n
  let put (s : State) (w : Nat) : State :=
    let lo := gone (2 * w)
    let hi := gone (2 * w + 1)
    let m := row ((if lo then onesAt 0 512 else 0) + (if hi then onesAt 512 512 else 0))
    if m = 0 then s else s.storeRow k w m 0
  let s := (regionRows b.x.task.regions false).foldl put s
  b.x.task.regions.foldl (fun s r =>
    let v := r.toNat
    if bitAt v 27 || bitAt v 28 then s
    else
      let first := bitsAt v 0 13
      let n := 2 * bitsAt v 13 14
      let bits := ofBools ((List.range n).map fun i => gone (2 * first + i))
      (List.range ((n + 1023) / 1024)).foldl (fun s i =>
        s.storeRow k (bitsAt v 29 13 + i) (row (onesAt 0 (min 1024 (n - 1024 * i)))) (row (bits >>> (1024 * i)))) s) s

/-- The pre-empted task of the block at an address goes on, on a free context of a core of a ready cluster whose banks can be
had and whose copy channels suffice for its streams; one with a frame stays in its cluster (R346, R431, R459). -/
def evRestore (s : State) : State :=
  let pa := s.argN 0 / 128 * 128 % 2 ^ 52
  let k := s.argN 1
  let j := s.argN 2
  match blockAt s pa with
  | none => s
  | some (b, i) =>
    let s := s.lpTouch 0 pa (128 * b.img.length)
    let old := s.ctx k j
    let here := b.x.task.frame.isNone || clusterOf k == clusterOf b.core
    if old.life ≠ .free ∨ !s.coreOk k ∨ !here ∨ !clusterReady s (clusterOf k) ∨ 8 < (s.core k).streams.length + b.streams.length ∨
        s.lpBad 0 pa (128 * b.img.length) then s
    else
      let x := { b.x with hs := old.hs, hla := old.hla, hsa := old.hsa, trec := old.trec, saved := 0, unfilled := 0,
                          posted := old.posted }
      let t := (({ s with blocks := dropAt s.blocks i }).setCtx k j x).setReg (rFn k j) x.task.fn
      if !prepReady t k j then s
      else
        let t := prepBanks t k j
        let t := t.modCore k fun c => b.banks.foldl (fun c p => c.putBlock p.1 (p.2.map (·.toNat))) c
        let lostTile (n : Nat) : Bool := bitAt x.task.demand.toNat (16 + n) && !bitAt x.task.ptm.toNat n
        let t := t.modCore k fun c => (((List.range 8).filter lostTile).foldl (fun c n => { c with tiles := tput c.tiles n {} }) c)
        let t := b.rows.foldl (fun t p => t.storeRow k p.1 rowMask p.2) t
        let st := b.streams.map fun (m : Stream) => let c := { m.cmd with core := k, ctx := j }; { m with cmd := c }
        let t := t.modCore k fun c => { c with streams := c.streams ++ st }
        restoreDiscard t k b

/-! ### Soft errors (R435, R436) -/

/-- A corrected error is counted in the log of the unit's die, with the set and way of a stack slice (Table 18-8). -/
def evCorrected (s : State) : State :=
  let unit := s.argN 0 % 4
  let i := s.argN 1 % 256
  let w3 := if unit = 2 then log3 i (s.argN 3 % 1024) (s.argN 4 % 24) 0 0 else 0
  if s.logHeld (unitDie unit i) then s else s.logErr (unitDie unit i) 1 unit i (s.argN 2 % 2 ^ 52) w3
/-- Place of a stack line for the log: SLICE, SET, WAY, CORE, CTX, the last two 0 where no compute context owns it. -/
def StackLine.log3 (l : StackLine) (ln : Nat) (own : Nat × Nat) : Nat :=
  Machine.log3 l.slice (ln % 1024) l.way (if own.1 < 128 then own.1 else 0) (if own.1 < 128 then own.2 else 0)
/-- An uncorrectable error in a clean stack line: it is invalidated, and the access fetches anew. -/
def evCleanLine (s : State) : State :=
  let key := s.argN 0
  match tfind s.stack key with
  | some l =>
    if l.dirty ≠ 0 ∨ l.poison ∨ s.logHeld (l.slice / 32) then s
    else ({ s with stack := tdel s.stack key }).logErr (l.slice / 32) 2 2 l.slice (256 * keyLine key) (l.log3 (keyLine key) (0, 0))
  | none => s
/-- A unit of LPDDR 6 is found uncorrectable: it stays so, and its page is retired, which is complete and logged once no access
in flight was translated before (R435, R437). -/
def evLpddr (s : State) : State :=
  let pa := s.argN 0 % 2 ^ 52
  let pg := pa / 65536
  if lpddrBytes ≤ pa then s
  else match s.retiring.find? fun p => p.1 / 65536 == pg with
    | some (a, ch) =>
      if pageInFlight s pg ∨ s.logHeld (unitDie 3 ch) then s
      else (pageQuiet { s with retiring := s.retiring.filter fun p => p.1 != a } pg).logErr (unitDie 3 ch) 6 3 ch (pg * 65536) 0
    | none =>
      let ch := Config.channelOf (pa / 64) % 48
      if s.logHeld (unitDie 3 ch) then s
      else
        let s := { s with badUnits := tset false s.badUnits (pa / 64) true, retiring := s.retiring ++ [(pa, ch)] }
        (s.logErr (unitDie 3 ch) 4 3 ch pa 0).retirePage pa
/-- The core whose context reads a row of core k, as the reader of an error names it: for a scratchpad row one of the cluster, n
cores on from k; the other rows only their own core reads. -/
def readerCore (k what n : Nat) : Nat := if what = 1 then 4 * clusterOf k + (k + n) % 4 else k
/-- The core and context charged with an uncorrectable error in a core's SRAM (R435): the owner of a register bank (0), the
reader of a scratchpad (1), state-bank (2) or spill (3) row, the last writer of a dirty L1 line (4). -/
def sramCharge (s : State) (k what x reader : Nat) : Option (Nat × Nat) :=
  let c := s.core k
  if what = 0 then (let t := tget 0 c.tags (x % 56); if t = 0 then none else some (k, t - 1))
  else if what < 4 then some (readerCore k what (reader / 8), reader % 8)
  else ((tfind c.l1 x).filter fun l => l.wrote != 0).map fun l => (k, l.writer)
/-- It is terminated; an L1 line goes with its words (log entry 91, DESIGN CHOICE). -/
def evSram (s : State) : State :=
  let k := s.argN 0
  let what := s.argN 1 % 5
  let x := s.argN 2
  match sramCharge s k what x (s.argN 3) with
  | none => s
  | some (m, j) =>
    if !s.coreOk k ∨ !s.coreOk m ∨ (s.ctx m j).life = .free ∨ s.logHeld (dieOf k) then s
    else
      let pa := if what = 0 then s.free 874000 % 2 ^ 52 else if what = 4 then 128 * x else x
      let s := s.logErr (dieOf k) 5 (if what = 4 then 1 else 0) k pa (m * 2 ^ 21 + j * 2 ^ 28)
      let s := if what = 4 then s.modCore k fun c => { c with l1 := tdel c.l1 x } else s
      terminate s m j 3 pa
/-- An uncorrectable error in a dirty stack line (R436): steps 1 to 3; once the owner's message has arrived (step 4) the
retirement begins, and once it is complete (R437) steps 5 and 6 end. -/
def evDirtyLine (s : State) : State :=
  let key := s.argN 0
  match tfind s.stack key with
  | none => s
  | some l =>
    let ln := keyLine key
    let pa := 256 * ln
    let d := l.slice / 32
    if !l.poison then
      if l.dirty = 0 ∨ s.logHeld d then s
      else
        let s := { s with stack := tput s.stack key { l with poison := true, dirty := 0, wrote := 0 } }
        let s := s.logErr d 3 2 l.slice pa (l.log3 ln l.owner)
        if l.owner.1 < 128 then s.ueMsg l.owner.1 l.owner.2 pa else s
    else if s.messages.contains (l.owner.1, l.owner.2, pa) then s
    else if !l.retire then
      ({ s with stack := tput s.stack key { l with retire := true } }).retirePage pa
    else if pageInFlight s (pa / 65536) then s
    else
      let ch := Config.channelOf (pa / 64) % 48
      let s := (pageQuiet s (pa / 65536)).logErr d 6 3 ch (pa / 65536 * 65536) 0
      let s := { s with stack := tdel s.stack key }
      if s.quarReply l.slice (ln % 1024) l.way = 0 then
        (s.quarantine l.slice (ln % 1024) l.way).logErr d 7 2 l.slice pa (Machine.log3 l.slice (ln % 1024) l.way 0 0)
      else s
/-- The message reaches the core in the line's owner tag (R436). -/
def evOwner (s : State) : State :=
  match s.messages[s.argN 0]? with
  | none => s
  | some (k, j, pa) => terminate { s with messages := dropAt s.messages (s.argN 0) } k j 3 pa

/-! ### The steps by name -/

/-- `RESULT_LANDING` (R89, R90, R92, R125, R126, R229). -/
def execResultLanding (s : State) : Host.Outcome State Fault Refusal := event evResult s
/-- `RUN_WATCHDOG_EXPIRY` (R101). -/
def execRunWatchdogExpiry (s : State) : Host.Outcome State Fault Refusal := event evOverrun s
/-- `SYSTEM_WATCHDOG_EXPIRY` (R99, R102, R427). -/
def execSystemWatchdogExpiry (s : State) : Host.Outcome State Fault Refusal := event evSysWatchdog s
/-- `TRAP_ENTRY` (R22, R24, R27, R28, R30, R31). -/
def execTrapEntry (s : State) : Host.Outcome State Fault Refusal := event evTrap s
/-- `CONTEXT_BECOMES_READY` (R96). -/
def execContextBecomesReady (s : State) : Host.Outcome State Fault Refusal := event evReady s
/-- `BANK_PREPARATION` (R382, R383, R384, R427). -/
def execBankPreparation (s : State) : Host.Outcome State Fault Refusal := event evBanks s
/-- `LDG_ROW_ARRIVAL` (R176, R428). -/
def execLdgRowArrival (s : State) : Host.Outcome State Fault Refusal := event evLdg s
/-- `POSTED_WRITE_PERFORM` (R177, R212, R453). -/
def execPostedWritePerform (s : State) : Host.Outcome State Fault Refusal := event evPosted s
/-- `ATOMIC_RETURN` (R191). -/
def execAtomicReturn (s : State) : Host.Outcome State Fault Refusal := event evReturn s
/-- `TRANSLATION_WALK_COMPLETE` (R177, R432, R433, R434, R446). -/
def execTranslationWalkComplete (s : State) : Host.Outcome State Fault Refusal := event evWalk s
/-- `L1_EVICTION` (R178, R180). -/
def execL1Eviction (s : State) : Host.Outcome State Fault Refusal := event evEvict s
/-- `SECTOR_FETCH` (R180). -/
def execSectorFetch (s : State) : Host.Outcome State Fault Refusal := event evFetch s
/-- `DN_ESCAPE_TIMEOUT` (R183). -/
def execDnEscapeTimeout (s : State) : Host.Outcome State Fault Refusal := event evEscape s
/-- `BARRIER_UPDATE` (R206). -/
def execBarrierUpdate (s : State) : Host.Outcome State Fault Refusal := event evBarrier s
/-- `CELL_PLANE_LOAD` (R249). -/
def execCellPlaneLoad (s : State) : Host.Outcome State Fault Refusal := event evPlane s
/-- `MATRIX_QUEUE_COMPLETE` (R248). -/
def execMatrixQueueComplete (s : State) : Host.Outcome State Fault Refusal := event evMatrix s
/-- `COPY_COMMAND_START` (R322, R325, R330, R332, R344, R349). -/
def execCopyCommandStart (s : State) : Host.Outcome State Fault Refusal := event evCopyStart s
/-- `COPY_BEAT` (R323, R327, R329, R331, R333, R335). -/
def execCopyBeat (s : State) : Host.Outcome State Fault Refusal := event evCopyBeat s
/-- `COPY_COMMAND_COMPLETE` (R71, R207, R327, R330, R338, R339). -/
def execCopyCommandComplete (s : State) : Host.Outcome State Fault Refusal := event evCopyEnd s
/-- `STREAM_ROW` (R346, R350, R428). -/
def execStreamRow (s : State) : Host.Outcome State Fault Refusal := event evStream s
/-- `CIRCUIT_ROW_SEND` (R342, R344). -/
def execCircuitRowSend (s : State) : Host.Outcome State Fault Refusal := event evSend s
/-- `CIRCUIT_ROW_LANDING` (R12, R344). -/
def execCircuitRowLanding (s : State) : Host.Outcome State Fault Refusal := event evLand s
/-- `ARRIVAL_HANDLER_START` (R345, R379, R394). -/
def execArrivalHandlerStart (s : State) : Host.Outcome State Fault Refusal := event evArrival s
/-- `BINDERY_COMMAND_START` (R359, R360, R362, R364, R365, R366). -/
def execBinderyCommandStart (s : State) : Host.Outcome State Fault Refusal := event evBndStart s
/-- `BINDERY_COMMAND_COMPLETE` (R361, R362, R364, R365, R366, R367). -/
def execBinderyCommandComplete (s : State) : Host.Outcome State Fault Refusal := event evBndEnd s
/-- `ROTATION_COMMAND` (R378). -/
def execRotationCommand (s : State) : Host.Outcome State Fault Refusal := event evRotation s
/-- `SCAN_COMMAND_START` (R300, R302, R303, R304, R305, R306). -/
def execScanCommandStart (s : State) : Host.Outcome State Fault Refusal := event evScanStart s
/-- `SCAN_COMMAND_COMPLETE` (R303, R304, R305, R309, R428, R463). -/
def execScanCommandComplete (s : State) : Host.Outcome State Fault Refusal := event evScanEnd s
/-- `GENERATION_COMMAND_START` (R400, R403, R404, R406, R407, R408). -/
def execGenerationCommandStart (s : State) : Host.Outcome State Fault Refusal := event evGenStart s
/-- `GENERATION_COMMAND_COMPLETE` (R401, R412, R418, R428). -/
def execGenerationCommandComplete (s : State) : Host.Outcome State Fault Refusal := event evGenEnd s
/-- `TRIM_MESSAGE_LANDING` (R415, R416). -/
def execTrimMessageLanding (s : State) : Host.Outcome State Fault Refusal := event evTrim s
/-- `SPAWN_START` (R16, R86, R221, R379, R389, R391). -/
def execSpawnStart (s : State) : Host.Outcome State Fault Refusal := event evSpawn s
/-- `CHILD_COMPLETION` (R390, R391). -/
def execChildCompletion (s : State) : Host.Outcome State Fault Refusal := event evChild s
/-- `OVERFLOW_ENTRY_MOVE` (R388). -/
def execOverflowEntryMove (s : State) : Host.Outcome State Fault Refusal := event evOverflow s
/-- `PREEMPTION` (R430). -/
def execPreemption (s : State) : Host.Outcome State Fault Refusal := event evPreempt s
/-- `PREEMPTION_RESTORE` (R431). -/
def execPreemptionRestore (s : State) : Host.Outcome State Fault Refusal := event evRestore s
/-- `SOFT_ERROR_CORRECTED` (R435). -/
def execSoftErrorCorrected (s : State) : Host.Outcome State Fault Refusal := event evCorrected s
/-- `UE_CLEAN_STACK_LINE` (R435). -/
def execUeCleanStackLine (s : State) : Host.Outcome State Fault Refusal := event evCleanLine s
/-- `UE_LPDDR6` (R435, R437). -/
def execUeLpddr6 (s : State) : Host.Outcome State Fault Refusal := event evLpddr s
/-- `UE_CORE_SRAM` (R427, R435). -/
def execUeCoreSram (s : State) : Host.Outcome State Fault Refusal := event evSram s
/-- `UE_DIRTY_STACK_LINE` (R436, R437, R438, R472). -/
def execUeDirtyStackLine (s : State) : Host.Outcome State Fault Refusal := event evDirtyLine s
/-- `UE_OWNER_MESSAGE` (R427, R436, R472). -/
def execUeOwnerMessage (s : State) : Host.Outcome State Fault Refusal := event evOwner s

end Sys2Proof.Machine
end

