-- ==== Sys2Proof/Machine/Device.lean ====
section
/-! DEFINITION. The device seen from outside its cores: BAR0 registers, BAR2 and peer accesses, security, debug and power
states, readiness, circuits, and attestation (R20, R343, R355, R446 to R448, R453 to R459). -/

namespace Sys2Proof.Machine

/-! ### Discarded writes (R5, R447) -/

/-- `ERRSTS` of the 64 KiB block that holds an offset. -/
def rErrsts (off : Nat) : Nat := off / 0x10000 * 0x10000 + 0xFFF8
/-- A write is discarded whole and recorded: bit 0, and the block offset at bits 23 to 8. -/
def regDiscard (s : State) (off : Nat) : State := s.setReg (rErrsts off) (1 + off % 0x10000 * 2 ^ 8)

/-! ### Fields (Tables 07-2, 14-5, 14-6, 15-1, 18-4, 19-2, 19-6, 19-7) -/

/-- Bits hi to lo. -/
def field (hi lo : Nat) : Nat := onesAt lo (hi - lo + 1)
/-- Writable and read-only bits of a register of a core control block, by its offset in the block. -/
def ccbBits (o : Nat) : Option (Nat × Nat) :=
  if o = 0 then some (field 20 0, 0)
  else if o = 8 then some (field 23 0, 0)
  else if o = 0x10 then some (field 39 0, 0)
  else if o < 0x100 then none
  else if o < 0x140 then some (field 51 7, 0)
  else if o < 0x180 then some (field 51 6, 0)
  else if o < 0x1C0 then some (field 4 0, 0)
  else if o < 0x200 then some (0, field 31 0)
  else if o < 0x240 then some (field 31 0, 0)
  else if o < 0x280 then some (0, field 31 0)
  else if o < 0x2C0 then some (0, field 3 0)
  else if o < 0x1000 then none
  else if o < 0x1100 then some (field 7 0, field 8 8 + field 23 16)
  else if o < 0x1200 then some (field 63 0, 0)
  else none
/-- The same in the system block. -/
def sysBits (o : Nat) : Option (Nat × Nat) :=
  if o = 0 then some (0, field 58 0)
  else if o = 8 then some (0, field 35 0)
  else if o = 0x10 then some (0, field 63 0)
  else if o = rLayout 0 then some (0, field 55 0)
  else if o = rLayout 1 ∨ o = rLayout 2 ∨ o = rLayout 3 then some (0, field 63 0)
  else if o = rSecCtl then some (field 1 0, 0)
  else if o = rSecSts then some (0, field 3 0)
  else if o = rDbgCtl then some (field 2 0, 0)
  else if o = rDbgSts then some (0, field 3 0)
  else if o = rDbgNonce then some (0, field 63 0)
  else if o = rDbgTok then some (field 51 0, 0)
  else if o = rPwrCtl then some (field 2 0, 0)
  else if o = rPwrSts then some (0, field 4 0)
  else if o = rZlId then some (field 3 0, 0)
  else if o = rZlRoute then some (field 63 0, 0)
  else none
/-- In the crypto block. -/
def cryptoBits (o : Nat) : Option (Nat × Nat) :=
  if o < 0x200 then (if o % 0x40 < 0x30 then some (field 63 0, 0) else none)
  else if o < 0x230 then some (0, field 63 0)
  else if o = 0x300 then some (field 51 0, 0)
  else if o = 0x308 then some (field 31 0, 0)
  else if o = 0x310 then some (field 1 0, 0)
  else if o = 0x318 then some (field 7 0, 0)
  else if o = 0x320 then some (field 0 0, 0)
  else if o = 0x328 then some (0, field 10 0)
  else if o = 0x330 then some (0, field 15 0)
  else if o < 0x800 then none
  else if o < 0x1000 then some (field 51 6, 0)
  else if o < 0x1800 then some (0, field 51 6 + field 0 0)
  else if o < 0x2000 then some (0, field 31 0)
  else if 0x4000 ≤ o ∧ o < 0x4000 + 64 * 704 then some (0, field 63 0)
  else none
/-- In the management block, from 0x90_0000. -/
def mgmtBits (o : Nat) : Option (Nat × Nat) :=
  if o < 0x20000 then
    (if o % 0x10000 < 0x4000 ∧ o % 0x400 < 0x180 ∧ o % 0x40 < 0x20 then some (0x7777777777777777, 0) else none)
  else if o < 0x28000 then
    let p := o % 0x1000
    if p = 0 then some (field 1 0, field 2 2)
    else if 0x40 ≤ p ∧ p < 0x70 then some (field 51 0, 0)
    else if 0x200 ≤ p ∧ p < 0x400 then some (field 7 0, 0)
    else none
  else if o = 0x30000 ∨ o = 0x30008 ∨ o = 0x30018 then some (field 51 12, 0)
  else if o = 0x30010 then some (field 27 0, 0)
  else if o = 0x30020 then some (field 51 12 + field 3 0, 0)
  else if o = 0x30028 then some (field 0 0, field 1 1)
  else if o = 0x30030 then some (0, field 44 0)
  else if 0x31000 ≤ o ∧ o < 0x31048 then some (field 51 16, 0)
  else if o = 0x31100 then some (field 51 12, 0)
  else if o = 0x31108 then some (field 19 0, 0)
  else if 0x31208 ≤ o ∧ o < 0x31248 then some (field 2 0, 0)
  else if 0x31300 ≤ o ∧ o < 0x31390 then (if o % 16 = 0 then some (field 51 12, 0) else some (field 20 0, 0))
  else if 0x31400 ≤ o ∧ o < 0x31640 then
    let i := o % 0x40 / 8
    if i = 0 then some (field 51 6, 0)
    else if i = 1 then some (field 4 0, 0)
    else if i = 3 then some (field 31 0, 0)
    else if i = 2 ∨ i = 4 then some (0, field 31 0)
    else none
  else none
/-- Writable and read-only bits of a register of BAR0; the others are reserved, and so is a place without a register (R448). -/
def regBits (off : Nat) : Option (Nat × Nat) :=
  if off % 8 ≠ 0 then none
  else if off % 0x10000 = 0xFFF8 then some (field 0 0, field 23 8)
  else if off < 0x10000 then sysBits off
  else if off < 0x10400 then some (if off % 16 = 0 then (field 51 7, 0) else (field 16 0, 0))
  else if off < 0x20000 then none
  else if off < 0x30000 then cryptoBits (off - 0x20000)
  else if off < 0x100000 then none
  else if off < 0x900000 then ccbBits (off % 0x10000)
  else if off < 0xD00000 then mgmtBits (off - 0x900000)
  else none

/-! ### Circuits (R342, R343) -/

/-- The owner of an output port of a router in a phase (Table 14-5). -/
def slotIn (s : State) (d node p ph : Nat) : Nat := bitsAt (s.reg (rSlt d node p (ph / 16))) (4 * (ph % 16)) 3
/-- The router behind an output port 0 N, 1 E, 2 S, 3 W, 5 bridge, and the input code its beats arrive under; N leads to the
smaller y (log entry 30, DEDUCED). -/
def neighbour (d node p : Nat) : Option (Nat × Nat × Nat) :=
  let x := node % 4
  let y := node / 4
  if p = 0 then (if 0 < y then some (d, node - 4, 3) else none)
  else if p = 1 then (if x < 3 then some (d, node + 1, 4) else none)
  else if p = 2 then (if y < 3 then some (d, node + 4, 1) else none)
  else if p = 3 then (if 0 < x then some (d, node - 1, 2) else none)
  else if p = 5 ∧ x = 3 ∧ (y = 1 ∨ y = 2) then some (1 - d, node, 6)
  else none
/-- A chain of owned links: routers passed, bridge crossings, and the entries used, as (die, node, port, phase). -/
structure Chain where
  h : Nat
  b : Nat
  uses : List (Nat × Nat × Nat × Nat)
  deriving DecidableEq, Repr
/-- The chains of owned links from an input of a router in a phase to the cluster port of a cluster; the first argument
bounds the routers passed, which LAT's eight bits bound too. -/
def chainsTo (s : State) (goal : Nat) : Nat → Nat → Nat → Nat → Nat → List Chain
  | 0, _, _, _, _ => []
  | n + 1, d, node, c, ph =>
    (List.range 6).flatMap fun p =>
      if slotIn s d node p ph ≠ c then []
      else if p = 4 then (if 16 * d + node = goal then [{ h := 1, b := 0, uses := [(d, node, p, ph)] }] else [])
      else match neighbour d node p with
        | none => []
        | some (d', node', c') =>
          let br := if p = 5 then 1 else 0
          (chainsTo s goal n d' node' c' ((ph + 2 + 9 * br) % 64)).map fun t =>
            { h := t.h + 1, b := t.b + br, uses := (d, node, p, ph) :: t.uses }
/-- The phases of a circuit. -/
def phasesOf (ph : Nat) : List Nat := (List.range 64).filter fun i => bitAt ph i
/-- The chains of a circuit to a core, phase by phase. -/
def circChains (s : State) (k ph dcore : Nat) : List (List Chain) :=
  (phasesOf ph).map fun f => chainsTo s (clusterOf dcore) 126 (dieOf k) (clusterOf k % 16) 5 f
/-- Whether a path is found for a circuit, and its hops and crossings (R343). -/
def circPath (s : State) (k c dcore : Nat) : Option (Nat × Nat) :=
  let ph := s.reg (rCph k c)
  let l := circChains s k ph dcore
  let taken := (List.range 32).any fun m => m != c && bitAt (s.reg (rCirc k m)) 7 && s.reg (rCph k m) &&& ph != 0
  match l with
  | [t] :: _ => if !taken && l.all (fun q => match q with | [u] => u.h == t.h && u.b == t.b | _ => false) then some (t.h, t.b) else none
  | _ => none
/-- A write to a circuit register; EN written as 1 sets VAL and LAT, LAT without a path being open. -/
def circWrite (s : State) (off v : Nat) : State :=
  let k := (off - 0x100000) / 0x10000
  let c := off % 0x100 / 8
  let old := s.reg off
  if !bitAt v 7 then s.setReg off (old / 2 ^ 8 * 2 ^ 8 + v % 2 ^ 8)
  else match circPath s k c (v % 128) with
    | some (h, b) => s.setReg off (v % 2 ^ 8 + 2 ^ 8 + (4 + 2 * h + 9 * b) % 256 * 2 ^ 16)
    | none => s.setReg off (v % 2 ^ 8 + s.free 880100 % 256 * 2 ^ 16)
/-- The slot-table entries enabled circuits use. -/
def usedSlots (s : State) : List (Nat × Nat × Nat × Nat) :=
  (List.range 128).flatMap fun k => (List.range 32).flatMap fun c =>
    let v := s.reg (rCirc k c)
    if bitAt v 7 && bitAt v 8 then (circChains s k (s.reg (rCph k c)) (v % 128)).flatten.flatMap (·.uses) else []
/-- Whether a write of a slot-table word leaves every entry of an enabled circuit as it is (R342). -/
def sltKeeps (s : State) (off v : Nat) : Bool :=
  let o := off - 0x900000
  let d := o / 0x10000
  let node := o % 0x10000 / 0x400
  let p := o % 0x400 / 0x40
  let w := o % 0x40 / 8
  let old := s.reg off
  let gone := (List.range 16).filter fun i => bitsAt old (4 * i) 3 != bitsAt v (4 * i) 3
  gone.isEmpty || !(usedSlots s).any fun u => u.1 == d && u.2.1 == node && u.2.2.1 == p && gone.any fun i => u.2.2.2 == 16 * w + i

/-! ### Security, debug and power (R454 to R458) -/

/-- The measurement register takes up a digest. -/
def mrExtend (s : State) (d : BitVec 384) : State :=
  let mr := ofLanes 64 ((List.range 6).map fun i => s.reg (rMr i))
  let v := (sha384 (bytesOf 48 mr ++ bytesOf 48 d.toNat)).toNat
  (List.range 6).foldl (fun s i => s.setReg (rMr i) (lane 64 v i)) { s with measured := s.measured ++ [d] }
/-- The digest a key slot holds, if it is filled. -/
def keySlot (s : State) (k : Nat) : Option (BitVec 384) :=
  let v := ofLanes 64 ((List.range 6).map fun i => s.reg (rKey k i))
  if v = 0 then none else some (BitVec.ofNat 384 v)
/-- The lowest filled key slot under which a signature of a digest verifies. -/
def verifySlot (s : State) (d r t : BitVec 384) : Option Nat :=
  (List.range 8).find? fun k => match keySlot s k with | some q => ecdsaOk q d r t | none => false
/-- Whether the token at `DBG_TOK` is for a debug state (R457). -/
def tokenOk (s : State) (n : Nat) : Bool :=
  let l := bytesOf 96 (s.lpRead 0 (s.reg rDbgTok % 2 ^ 52) 96)
  let m := Config.deviceKey ++ [BitVec.ofNat 8 n] ++ bytesOf 8 (s.reg rDbgNonce)
  !s.lpBad 0 (s.reg rDbgTok % 2 ^ 52) 96 && (verifySlot s (sha384 m) (be48 l) (be48 (l.drop 48))).isSome
/-- `DBG_STS`: state, refused, some core halted. -/
def setDbg (s : State) (st : Nat) (refd halted : Bool) : State := s.setReg rDbgSts (st + b2n refd * 4 + b2n halted * 8)
def anyHalted (s : State) : Bool := s.cores.any fun c => c.2.halted
/-- A debug request: a lower state always, after every halted core resumes and without the breakpoints; a higher one under the rules
of the security state.  A request for a higher state is an attempt, and changes the nonce; what MR is extended with is open. -/
def dbgRequest (s : State) (v : Nat) : State :=
  let n := v % 4
  let cur := s.reg rDbgSts % 4
  let sec := s.reg rSecSts % 4
  let s := s.setReg rDbgCtl v
  if n ≤ cur then
    let s := if n < 2 ∧ cur = 2 then { s with cores := s.cores.map fun c => (c.1, { c.2 with halted := false, brk := [] }) } else s
    setDbg s n false (anyHalted s)
  else
    let ok := decide (sec < 2) || (bitAt v 2 && tokenOk s n)
    let s := if sec = 2 ∧ bitAt v 2 then s.lpTouch 0 (s.reg rDbgTok % 2 ^ 52) 96 else s
    let old := s.reg rDbgNonce
    let new := s.free 874000 % 2 ^ 64
    let s := s.setReg rDbgNonce (if new = old then (old + 1) % 2 ^ 64 else new)
    if !ok then setDbg s cur true (anyHalted s)
    else setDbg (if sec = 0 then s else mrExtend s (BitVec.ofNat 384 (s.free 874001))) n false (anyHalted s)

/-- The power state. -/
def State.pwr (s : State) : Nat := s.reg rPwrSts % 8
/-- `PWR_STS` with a state and REFD. -/
def setPwr (s : State) (st : Nat) (refd : Bool) : State := s.setReg rPwrSts (st + b2n refd * 2 ^ 4)
/-- Whether a launch queue that is polled holds a record. -/
def lqHolds (s : State) (q : Nat) : Bool :=
  let base := s.reg (rLqBase q) / 128 * 128 % 2 ^ 52
  bitAt (s.reg (rLqCtl q)) 16 && decide (s.lpRead 0 (base + 64) 8 < s.lpRead 0 base 8)
/-- The condition of IDLE: no context has a task, no queue holds anything, no install goes on, no core is halted. -/
def idleOk (s : State) : Bool :=
  s.cores.all (fun c => !c.2.halted && c.2.ctxs.all fun x => x.2.life == .free) &&
  s.cores.all (fun c => c.2.arrivals == [] && c.2.sends == [] && c.2.mq == [] && c.2.nbIn == []) &&
  s.dies.all (fun d => d.2.gens == []) && s.trims == [] &&
  s.clusters.all (fun q => q.2.spawnQ == [] && q.2.ovf == [] && q.2.bind == [] && q.2.bindRun == []) && s.kernels == [] &&
  s.blocks == [] && s.install.isNone && !(List.range 64).any fun q => lqHolds s q
/-- A PCIe or Zustiul access brings IDLE back to RUN. -/
def hostWake (s : State) : State := if s.pwr = 2 then setPwr s 0 (bitAt (s.reg rPwrSts) 4) else s
/-- The device as reset leaves it, its surroundings and the driver of its steps as they are. -/
def coldState (s : State) (off : Bool) : State :=
  { State.reset with host := s.host, peer := s.peer, turns := s.turns, arg := s.arg, rr := s.rr, freeCtr := s.freeCtr, off := off }
/-- D of an installed image, taken again over its protected copy (R85). -/
def imageDigest (s : State) (m : Image) : BitVec 384 :=
  sha384 (m.secs.flatMap fun t => bytesOf 8 t.2 ++ bytesOf t.2 (s.lpRead 0 (m.base + t.1) t.2))
/-- What MR holds after a list of measurements. -/
def mrOf (l : List (BitVec 384)) : BitVec 384 := l.foldl (fun a d => sha384 (bytesOf 48 a.toNat ++ bytesOf 48 d.toNat)) 0
/-- Whether firmware verifies against the retained MR (R455, R458): the retained copy of an installed firmware image has the digest
that was measured, and MR is what the measurements make.  The firmware the device came up with lies outside the state, so
without an installed one the outcome is open (log entry 70, DESIGN CHOICE). -/
def firmwareOk (s : State) : Bool :=
  match s.images.find? fun m => m.kind == 0 with
  | some m => imageDigest s m == m.dig && s.measured.contains m.dig &&
      ofLanes 64 ((List.range 6).map fun i => s.reg (rMr i)) == (mrOf s.measured).toNat
  | none => bitAt (s.free 874002) 0
/-- PARK is left once firmware is verified; else the device stays in reset with VFAIL, its state lost (R458). -/
def leavePark (s : State) : State :=
  if firmwareOk s then setPwr s 0 false else (coldState s false).setReg rPwrSts 8
/-- SYS_READY is cleared on entry to PARK (R459). -/
def enterPark (s : State) : State :=
  (List.range 3).foldl (fun s i => s.setReg (rSysReady i) 0) (setPwr s 3 false)
/-- A request for a power state from RUN or SLOW. -/
def pwrEnter (s : State) (v : Nat) : State :=
  if v < 2 then setPwr s v false
  else if !idleOk s then setPwr s s.pwr true
  else if v = 2 then setPwr s 2 false else enterPark s
/-- A write to `PWR_CTL`. -/
def pwrRequest (s : State) (v : Nat) : State :=
  if s.pwr = 3 then
    if v = 3 then s
    else let t := leavePark s; if t.down then t else pwrEnter t v
  else pwrEnter s v

/-! ### Register writes (R5, R429, R446 to R449) -/

/-- Whether the unit behind a register is ready to take a write (R459).  The launch queues belong to the circulation cores, of which
one that is ready is enough (log entry 108, DESIGN CHOICE). -/
def blockReady (s : State) (off : Nat) : Bool :=
  if off < 0x10000 then true
  else if off < 0x20000 then bitsAt (s.reg (rSysReady 1)) 32 4 != 0
  else if off < 0x30000 then bitAt (s.reg (rSysReady 0)) 57
  else if 0x100000 ≤ off ∧ off < 0x900000 then bitAt (s.reg (rSysReady 1)) ((off - 0x100000) / 0x40000)
  else if 0x910000 ≤ off ∧ off < 0x920000 then bitAt (s.reg (rSysReady 0)) 58
  else bitAt (s.reg (rSysReady 0)) 57
/-- Index bits of a partition of SIZE n (Table 07-2). -/
def sizeBits (n : Nat) : Nat := if n = 1 then 4 else if n = 2 then 6 else if n = 3 then 5 else 0
/-- Whether a value keeps the ranges and rules of its register. -/
def valueOk (s : State) (off v : Nat) : Bool :=
  let within (lo hi : Nat) : Bool := decide (lo ≤ v) && decide (v ≤ hi)
  if off % 0x10000 = 0xFFF8 then true
  else if off = rSecCtl then decide (v < 3) && decide (s.reg rSecSts % 4 < v)
  else if off = rDbgCtl then v % 4 != 3
  else if off = rPwrCtl then decide (v < 4)
  else if off < 0x10000 then true
  else if off < 0x20000 then
    let ctl := off % 16 == 8
    (!ctl || (decide (v % 32 ≤ 16) && decide (bitsAt v 12 4 ≤ 8))) &&
    (!bitAt (s.reg (rLqCtl (off % 0x10000 / 16))) 16 || (ctl && !bitAt v 16))
  else if off < 0x20200 then
    (keySlot s ((off - 0x20000) / 0x40)).isNone || !bitAt (tget 0 s.keyFill ((off - 0x20000) / 0x40)) (off % 0x40 / 8)
  else if off < 0x100000 then true
  else if off < 0x900000 then
    let o := off % 0x10000
    if o = 0 then within 1024 1048576 else if o = 8 then within 1 (2 ^ 24 - 1)
    else if 0x180 ≤ o ∧ o < 0x1C0 then decide (v ≤ 20) else true
  else if off < 0x920000 then ((List.range 16).all fun i => bitsAt v (4 * i) 3 != 7) && sltKeeps s off v
  else if off < 0x928000 then
    let p := (off - 0x920000) / 0x1000
    let o := off % 0x1000
    if o = 0 then !(p == 0 && v % 4 == 0) && (List.range 6).all fun j => decide (j < sizeBits (v % 4)) || s.reg (rSlm p j) == 0
    else if o < 0x200 then v == 0 || decide ((o - 0x40) / 8 < sizeBits (s.reg (rSlcfg p) % 4))
    else s.sliceOk v
  else if off < 0x931000 then
    (off == rBndCtl || !bitAt (s.reg rBndCtl) 0) && (off != rBndNf || decide (2 ≤ v)) && (off != rBndSl || decide (v % 16 ≤ 10))
  else if off = rDnTmo then v != 0
  else if rShmBase 0 ≤ off ∧ off < rShmBase 9 ∧ off % 16 = 8 then decide (v ≤ 2 ^ 20)
  else if rFne 0 0 ≤ off ∧ off < rFne 9 0 ∧ off % 0x40 = 8 then decide (v ≤ 20)
  else true

/-- VAL of a partition after a write to one of its registers (Table 07-2). -/
def sliceVal (s : State) (p : Nat) : State :=
  let c := s.reg (rSlcfg p) % 4
  let n := sizeBits c
  let ok := c != 0 && (List.range 6).all (fun j => decide (j < n) || s.reg (rSlm p j) == 0) &&
    (List.range (2 ^ n)).all fun e => s.sliceOk (s.reg (rSlmap p e))
  s.setReg (rSlcfg p) (c + b2n ok * 4)
/-- A word of a key slot has been written.  A slot takes each of its six words once while it is being filled, and is fixed when all
six are there; a slot that is still all zero stays open (Table 19-7; log entry 100, DESIGN CHOICE). -/
def keyWrite (s : State) (k i : Nat) : State :=
  let m := tget 0 s.keyFill k ||| 2 ^ i
  { s with keyFill := tput s.keyFill k (if (keySlot s k).isNone ∧ m = 63 then 0 else m) }
/-- The effect of a write that is not discarded; v has only bits the register has, w its writable ones. -/
def regEffect (s : State) (off v w : Nat) : State :=
  let old := s.reg off
  let put := s.setReg off (old - (old &&& w) + (v &&& w))
  if off % 0x10000 = 0xFFF8 then s.setReg off (if bitAt v 0 then old / 2 * 2 else old)
  else if off = rSecCtl then s.setReg rSecSts (s.reg rSecSts / 4 * 4 + v)
  else if off = rDbgCtl then dbgRequest s v
  else if off = rPwrCtl then pwrRequest s v
  else if off = rImgGo then
    if bitAt v 0 ∧ s.install.isNone then
      { s.setReg rImgSts (s.reg rImgSts / 8 * 8 + 1) with
        install := some (s.reg rImgAddr, s.reg rImgLen, s.reg rImgKind, s.reg rImgIdx) }
    else s
  else if off = rBndCtl then (if bitAt v 0 then s.setReg rBndCtl 1 else s.setReg rBndCtl (old / 2 * 2))
  else if 0x20000 ≤ off ∧ off < 0x20200 then keyWrite put ((off - 0x20000) / 0x40) (off % 0x40 / 8)
  else if 0x100000 ≤ off ∧ off < 0x900000 ∧ off % 0x10000 / 0x100 = 0x10 then circWrite s off v
  else if 0x920000 ≤ off ∧ off < 0x928000 then sliceVal put ((off - 0x920000) / 0x1000)
  else put

/-- Whether a virtual function's BAR0 holds a register as one it may write: its own launch queues, without PRIV (R446,
R449). -/
def vfMay (s : State) (fn off v : Nat) : Bool :=
  decide (0x10000 ≤ off) && decide (off < 0x10400) && bitsAt (s.reg (rLqCtl (off % 0x10000 / 16))) 12 4 == fn &&
  !(off % 16 == 8 && bitAt v 11)
/-- A write of 8 bytes at an offset of a function's BAR0; the system block is read-only to a virtual function.  A write that breaks
a rule, or has a reserved bit set, is discarded whole and recorded (R5, R447). -/
def regWrite (s : State) (fn off v : Nat) : State :=
  let s := hostWake s
  let off := off % 2 ^ 26
  let sysVf := fn ≠ 0 ∧ off < 0x10000
  if fn ≠ 0 ∧ ¬sysVf ∧ !vfMay s fn off v then regDiscard s off
  else match regBits off with
    | none => regDiscard s off
    | some (w, ro) =>
      if v &&& (2 ^ 64 - 1 - (w ||| ro)) ≠ 0 ∨ !blockReady s off then regDiscard s off
      else if sysVf then s
      else if !valueOk s off (v &&& w) then regDiscard s off
      else if w = 0 then s else regEffect s off (v &&& w) w

/-! ### The steps -/

def evRegWrite (s : State) : State := regWrite s (s.argN 0) (s.argN 1) (s.argN 2 % 2 ^ 64)
def evSecMeasured (s : State) : State := regWrite s 0 rSecCtl 1
def evSecSealed (s : State) : State := regWrite s 0 rSecCtl 2
def evDbgNone (s : State) : State := regWrite s 0 rDbgCtl 0
def evDbgObserve (s : State) : State := regWrite s 0 rDbgCtl (1 + 4 * (s.argN 0 % 2))
def evDbgInvasive (s : State) : State := regWrite s 0 rDbgCtl (2 + 4 * (s.argN 0 % 2))
def evPwrRun (s : State) : State := regWrite s 0 rPwrCtl 0
def evPwrSlow (s : State) : State := regWrite s 0 rPwrCtl 1
def evPwrIdle (s : State) : State := regWrite s 0 rPwrCtl 2
def evPwrPark (s : State) : State := regWrite s 0 rPwrCtl 3
def evImgGo (s : State) : State := regWrite s 0 rImgGo 1
def evBndEn (s : State) : State := regWrite s 0 rBndCtl 1
/-- EN of a circuit is written as 1, beside the destination it holds. -/
def evCircEn (s : State) : State :=
  let off := rCirc (s.argN 0 % 128) (s.argN 1 % 32)
  regWrite s 0 off (s.reg off % 2 ^ 7 + 2 ^ 7)
/-- A write of 1 to bit 0 of the `ERRSTS` of a block. -/
def evErrsts (s : State) : State := regWrite s 0 (rErrsts (s.argN 0)) 1
/-- The initialisation of the bindery tables ends (R355). -/
def evBndInit (s : State) : State :=
  if s.reg rBndCtl % 4 ≠ 1 then s else if !s.tablesReady then s.hold else bndInit s
/-- The bytes of a step from argument i on. -/
def State.argBytes (s : State) (i : Nat) : List Byte := (s.arg.drop i).map (BitVec.ofNat 8)
/-- A register of a context as the debugger names it: a file as in Table 16-1 (0 VA, 1 VB, 3 SC, 4 LD, 5 ST, 6 CP), then 7 a
predicate, 8 a mask of VA, 9 one of VB, 10 a transform register, 11 a scratchpad row, 12 `lc`, 13 `lx`, 14 `strd`, 15 a control
register or a pending `lc` or `kp` value, 19 to 21 a handler register (log entry 102, DESIGN CHOICE). -/
def dbgDest (x : Ctx) (f n : Nat) : Option Dest :=
  match f with
  | 0 => some (.v .va (n % 512))
  | 1 => some (.v .vb (n % 512))
  | 3 => some (x.sD (n % 64))
  | 4 => some (x.laD (n % 32))
  | 5 => some (x.saD (n % 32))
  | 6 => some (.c (n % 32))
  | 7 => some (.p (n % 16))
  | 8 => some (.mask .va (n % 16))
  | 9 => some (.mask .vb (n % 16))
  | 10 => some (.x (n % 16))
  | 11 => some (.pad (n % 8192))
  | 12 => some (.lc (n % 8))
  | 13 => some (.lx (n % 8))
  | 14 => if n % 8 = 0 then none else some (.strd (n % 8))
  | 15 => [Dest.kp, .fmt, .rwp, .en, .cst, .satc, .rsvc, .kpP, .lcP 1, .lcP 2, .lcP 3, .lcP 4, .lcP 5, .lcP 6][n]?
  | 19 => some (.hs (n % 8))
  | 20 => some (.hla (n % 4))
  | 21 => some (.hsa (n % 4))
  | _ => none
/-- A ring with the fields of a debugger's word: base, N, the three counts, bound (R174). -/
def dbgRing (r : Ring) (v : Nat) : Ring :=
  { r with base := bitsAt v 0 13, n := bitsAt v 13 14, con := BitVec.ofNat 32 (bitsAt v 27 32), fil := BitVec.ofNat 32 (bitsAt v 59 32),
           res := BitVec.ofNat 32 (bitsAt v 91 32), bound := bitAt v 123 }
/-- A barrier with the fields of a debugger's word, in the order of Table 08-1. -/
def dbgBarrier (b : Barrier) (v : Nat) : Barrier :=
  { b with pend := BitVec.ofNat 32 (bitsAt v 0 32), arr := bitsAt v 32 10, cnt := bitsAt v 42 10, ph := bitAt v 52, err := bitAt v 53,
           ovr := bitAt v 54, lerr := bitAt v 55, lovr := bitAt v 56, dlv := BitVec.ofNat 32 (bitsAt v 57 32),
           ldlv := BitVec.ofNat 32 (bitsAt v 89 32) }
/-- A timeline with the fields of a debugger's word: I, C, ERR, HALT, F (R204). -/
def dbgTimeline (t : Timeline) (v : Nat) : Timeline :=
  { t with i := bitsAt v 0 64, c := bitsAt v 64 64, err := bitAt v 128, halt := bitAt v 129, f := bitsAt v 130 64 }
/-- A write of the debugger to a core's memories and to what its contexts hold beside the destinations of instructions: 16 the bundle
number; 17 row n mod 32 of tile n / 32, 22 its VAL, ASAT and ARSV; 18 a latch, CNT above its lanes; 23, 24 a row of state bank A or B;
25 row n mod 128 of weight slot n / 128, 26 the slot's descriptor; 27 a row of the spill window; 28 a ring; 29 a named barrier; 30 a
timeline; 31 a lane of `mbest`; 32 a carry slot (h, c, FADE); 33 the tile state; 34 a word of the trap record; 35 the counts of the
rewrite stage; 36 the priority; 37 the coordinate; 38 the chunk length; 39 the active bank; 40 a rule of the concordance; 41 the return
stack's top (log entry 102, DESIGN CHOICE). -/
def dbgPut (s : State) (k j f n v : Nat) : State :=
  if f = 16 then s.modCtx k j fun x => { x with ctl := { x.ctl with pc := addr v } }
  else if f = 17 then s.modTile k (n / 32 % 8) fun t => { t with rows := tput t.rows (n % 32) (BitVec.ofNat 7168 v) }
  else if f = 18 then s.modCtx k j fun x =>
    { x with latches := tput x.latches (n % 4) { lanes := BitVec.ofNat 1792 v, cnt := bitsAt v 1792 16 } }
  else if f = 22 then s.modTile k (n % 8) fun t => { t with val := bitAt v 0, asat := bitsAt v 1 32, arsv := bitsAt v 33 32 }
  else if f = 23 then s.modCore k fun c => { c with bankA := tset 0 c.bankA (n % 4096) (row v) }
  else if f = 24 then s.modCore k fun c => { c with bankB := tset 0 c.bankB (n % 4096) (row v) }
  else if f = 25 then s.modCore k fun c =>
    let w := c.wslot (n / 128 % 64)
    { c with slots := tput c.slots (n / 128 % 64) { w with rows := tput w.rows (n % 128) (row v) } }
  else if f = 26 then s.modCore k fun c =>
    { c with slots := tput c.slots (n % 64) { c.wslot (n % 64) with
        loaded := bitAt v 0, ty := bitsAt v 1 4, sp := bitAt v 5, malf := bitAt v 6, srsv := bitsAt v 7 32 } }
  else if f = 27 then s.modCtx k j fun x => { x with spill := tset 0 x.spill (n % 64) (row v) }
  else if f = 28 then s.modCtx k j fun x => x.setRing (n % 32) (dbgRing (x.ring (n % 32)) v)
  else if f = 29 then s.modCore k fun c => { c with nbs := tput c.nbs (n % 48) (dbgBarrier (c.nb (n % 48)) v) }
  else if f = 30 then s.modCtx k j fun x => x.setTl (n % 6) (dbgTimeline (x.tl (n % 6)) v)
  else if f = 31 then s.modCtx k j fun x => { x with mbest := tput x.mbest (n % 32) (BitVec.ofNat 64 v) }
  else if f = 32 then s.modCtx k j fun x =>
    { x with carry := tput x.carry (n % 16) { h := row v, c := row (v / 2 ^ 1024), fade := BitVec.ofNat 32 (bitsAt v 2048 32) } }
  else if f = 33 then s.modCtx k j fun x => { x with tile := {
      tfmt := bitsAt v 0 4, tv := bitAt v 4, tfirst := bitsAt v 5 13, trows := bitsAt v 18 16, tmax := BitVec.ofNat 32 (bitsAt v 34 32),
      tsat := bitsAt v 66 32, trsv := bitsAt v 98 32, tcrc := BitVec.ofNat 32 (bitsAt v 130 32) } }
  else if f = 34 then s.modCtx k j fun x => { x with trec := tset 0 x.trec (n % 8) (BitVec.ofNat 64 v) }
  else if f = 35 then s.modCtx k j fun x =>
    { x with rwSupp := bitAt v 0, ngrp := bitsAt v 1 16, nref := bitsAt v 17 16, last := bitsAt v 33 6 }
  else if f = 36 then s.modCtx k j fun x => { x with ctl := { x.ctl with prio := BitVec.ofNat 6 v } }
  else if f = 37 then s.modCtx k j fun x => { x with task := { x.task with tcoord := BitVec.ofNat 48 v } }
  else if f = 38 then s.modCtx k j fun x => { x with chunk := v % 8 }
  else if f = 39 then s.modCtx k j fun x => { x with act := bitAt v 0 }
  else if f = 40 then s.modCore k fun c => { c with rules := tset 0 c.rules (n % 64) (BitVec.ofNat 256 v) }
  else if f = 41 then s.modCtx k j fun x => { x with ctl := { x.ctl with ret := (addr v, bitAt v 32) :: x.ctl.ret.drop 1 } }
  else s
/-- A request of the debugger to a core in INVASIVE (R457, R458): 0 halts it; 1 sets or clears a breakpoint at a bundle number; 2
writes a register of a context; 3 writes memory at a physical address; reading changes nothing. -/
def dbgAct (s : State) (k : Nat) : State :=
  let op := s.argN 1
  if op = 0 then setDbg (s.modCore k fun c => { c with halted := true }) 2 (bitAt (s.reg rDbgSts) 2) true
  else if op = 1 then s.modCore k fun c =>
    { c with brk := if s.argN 3 % 2 = 1 then (if c.brk.contains (s.argN 2) then c.brk else s.argN 2 :: c.brk) else c.brk.erase (s.argN 2) }
  else if op = 2 then
    let j := s.argN 2 % 8
    match dbgDest (s.ctx k j) (s.argN 3) (s.argN 4) with
    | some d => putD s k j d (s.argN 5)
    | none => dbgPut s k j (s.argN 3) (s.argN 4) (s.argN 5)
  else if op = 3 then s.lpSoft 0 (s.argN 2 % 2 ^ 52) (s.arg.length - 3) (ofBytes (s.argBytes 3))
  else s
/-- A core is halted by a debug request, or the debugger makes another of its accesses (R457, R458); in PARK it is refused. -/
def evHalt (s : State) : State :=
  let k := s.argN 0
  if !s.coreOk k ∨ s.reg rDbgSts % 4 ≠ 2 ∨ s.pwr = 3 then s
  else dbgAct (hostWake s) k
def evIdle (s : State) : State := if s.pwr = 0 ∧ idleOk s then setPwr s 2 (bitAt (s.reg rPwrSts) 4) else s
def evWake (s : State) : State := hostWake s
/-- A unit that is present becomes ready (R20, R459); in PARK none does. -/
def evUnit (s : State) : State :=
  let r := s.argN 0
  let b := s.argN 1
  let there := (r == 0 && decide (b < 59) && (decide (56 ≤ b) || bitAt (s.reg (rLayout 0)) b)) ||
    (r == 1 && decide (b < 36) && (decide (32 ≤ b) || (List.range 4).any fun i => s.coreOk (4 * b + i))) ||
    (r == 2 && s.sliceOk b)
  if !there ∨ s.pwr = 3 then s else s.setReg (rSysReady r) (s.reg (rSysReady r) ||| 2 ^ b)
/-- The size of a function's BAR2 window on device physical memory (R446); after reset it is the largest, 1 TiB (log entry 101,
DESIGN CHOICE). -/
def bar2Size (s : State) (fn : Nat) : Nat := let n := tget 0 s.bar2 fn; 2 ^ (if n = 0 then 40 else n)
/-- A write of the host through BAR2, in the partition of its function (R213, R446), once the PCIe controller is ready (R20); or,
from function number 16 on, the resizing of that function's window to 2 to the second argument bytes.  The window begins at
physical address 0 (log entry 101, DESIGN CHOICE). -/
def evBar2 (s : State) : State :=
  let fn := s.argN 0
  let n := s.argN 1
  let l := s.argBytes 2
  if !s.hostOk ∨ 24 < fn ∨ (8 < fn ∧ fn < 16) then s
  else if 16 ≤ fn then (if 30 ≤ n ∧ n ≤ 40 then { s with bar2 := tput s.bar2 (fn - 16) n } else s)
  else if bar2Size s fn < n + l.length then s
  else (hostWake s).lpSoft (s.walkPart fn) n l.length (ofBytes l)
/-- An access of a peer device to this one's LPDDR 6, once a port is ready (R20, R453): 1 a write.  2 and 3 are writes of a peer
and of the host to memory of their own, at a peer address of R453 or a bus address (log entry 101, DESIGN CHOICE). -/
def evPeer (s : State) : State :=
  let op := s.argN 0 % 4
  let l := s.argBytes 2
  if op = 2 then { s with peer := s.peer.writeN (s.argN 1 % 2 ^ 52) (ofBytes l) l.length }
  else if op = 3 then { s with host := s.host.writeN (s.argN 1 % 2 ^ 52) (ofBytes l) l.length }
  else if bitsAt (s.reg (rSysReady 0)) 48 8 = 0 then s
  else if op = 1 then (hostWake s).lpSoft 0 (s.argN 1 % 2 ^ 48) l.length (ofBytes l) else hostWake s

/-! ### Power-on and loss of power (R458) -/

/-- Everything the device holds is lost; host and peer memories are not the device's. -/
def powerLoss (s : State) : State := if s.off then s else coldState s true
/-- The device comes up: security from the fuses, debug NONE, MR zero, a new nonce, its layout and its protected code region fixed,
once firmware is verified (R455), which is not in the state: an odd argument says that it is not, and the device then stays in
reset (log entry 70, DESIGN CHOICE).  After a reset whose power-on has not fixed the layout, that is what is left to do (log
entry 6, DESIGN CHOICE). -/
def powerOn (s : State) : State :=
  let bad := s.argN 0 % 2 = 1
  let up (s : State) : State :=
    if bad then (coldState s false).setReg rPwrSts 8
    else { s.fixLayout.setReg rDbgNonce (s.free 874003) with codeBase := Config.codeBase, codeSize := Config.codeSize }
  if s.off then up (coldState s false) else if s.down ∨ s.layoutSet then s else up s

/-! ### Attestation (R456) -/

/-- The measurement log's bytes. -/
def logBytes (s : State) : List Byte :=
  (List.range (s.reg rLogN)).flatMap fun e => (List.range 8).flatMap fun i => bytesOf 8 (s.reg (rLog e + 8 * i))
/-- What GET_MEASUREMENTS returns: MR, every log entry, and the signature of the device identity key. -/
def measurements (s : State) : List Byte :=
  let m := (List.range 6).flatMap (fun i => bytesOf 8 (s.reg (rMr i))) ++ logBytes s
  m ++ bytesOf 96 (Config.deviceSign m).toNat
/-- A response whose bytes the spec leaves to SPDM 1.3. -/
def spdmOpen (s : State) (code : Nat) : List Byte := Config.spdmBytes code s.freeCtr
/-- A request after the negotiation that must come before it, else an error response (log entry 19, DESIGN CHOICE). -/
def spdmStep (s : State) (need code : Nat) (f : Spdm → Spdm) : State :=
  let s := hostWake s
  if !bitAt (s.reg (rSysReady 0)) 57 then s
  else if s.spdm.phase < need then { s with spdm := { s.spdm with resp := spdmOpen s 0x7F } }
  else { s with spdm := f { s.spdm with resp := spdmOpen s code } }
def evSpdmVersion (s : State) : State := spdmStep s 0 0x04 fun p => { p with phase := 1, session := false }
def evSpdmCaps (s : State) : State := spdmStep s 1 0x61 fun p => { p with phase := 2 }
def evSpdmAlgs (s : State) : State := spdmStep s 2 0x63 fun p => { p with phase := 3 }
def evSpdmDigests (s : State) : State := spdmStep s 3 0x01 id
def evSpdmCert (s : State) : State := spdmStep s 3 0x02 id
def evSpdmChallenge (s : State) : State := spdmStep s 3 0x03 id
def evSpdmMeas (s : State) : State := spdmStep s 3 0x60 fun p => { p with resp := measurements s }
def evSpdmKex (s : State) : State := spdmStep s 3 0x64 fun p => { p with phase := 4 }
def evSpdmFinish (s : State) : State := spdmStep s 4 0x65 fun p => { p with phase := 3, session := true }
def evSpdmEnd (s : State) : State := spdmStep s 3 0x6C fun p => { p with session := false }
/-- An IDE key is programmed inside an SPDM session. -/
def evIdeKm (s : State) : State :=
  let s := hostWake s
  if s.spdm.session ∧ bitAt (s.reg (rSysReady 0)) 57 then { s with spdm := { s.spdm with keys := tput s.spdm.keys (s.argN 0) (BitVec.ofNat 256 (s.argN 1)) } } else s

/-! ### The steps by name -/

/-- `REGISTER_WRITE` (R5, R181, R342, R355, R429, R447). -/
def execRegisterWrite (s : State) : Host.Outcome State Fault Refusal := event evRegWrite s
/-- `SEC_RAISE_MEASURED` (R455). -/
def execSecRaiseMeasured (s : State) : Host.Outcome State Fault Refusal := event evSecMeasured s
/-- `SEC_RAISE_SEALED` (R455). -/
def execSecRaiseSealed (s : State) : Host.Outcome State Fault Refusal := event evSecSealed s
/-- `DBG_REQ_NONE` (R457). -/
def execDbgReqNone (s : State) : Host.Outcome State Fault Refusal := event evDbgNone s
/-- `DBG_REQ_OBSERVE` (R457). -/
def execDbgReqObserve (s : State) : Host.Outcome State Fault Refusal := event evDbgObserve s
/-- `DBG_REQ_INVASIVE` (R457, R458). -/
def execDbgReqInvasive (s : State) : Host.Outcome State Fault Refusal := event evDbgInvasive s
/-- `PWR_REQ_RUN` (R455, R458). -/
def execPwrReqRun (s : State) : Host.Outcome State Fault Refusal := event evPwrRun s
/-- `PWR_REQ_SLOW` (R9, R458). -/
def execPwrReqSlow (s : State) : Host.Outcome State Fault Refusal := event evPwrSlow s
/-- `PWR_REQ_IDLE` (R458). -/
def execPwrReqIdle (s : State) : Host.Outcome State Fault Refusal := event evPwrIdle s
/-- `PWR_REQ_PARK` (R458, R459). -/
def execPwrReqPark (s : State) : Host.Outcome State Fault Refusal := event evPwrPark s
/-- `IMG_GO` (R454). -/
def execImgGo (s : State) : Host.Outcome State Fault Refusal := event evImgGo s
/-- `BND_CTL_EN_WRITE` (R355). -/
def execBndCtlEnWrite (s : State) : Host.Outcome State Fault Refusal := event evBndEn s
/-- `CIRC_EN_WRITE` (R343). -/
def execCircEnWrite (s : State) : Host.Outcome State Fault Refusal := event evCircEn s
/-- `ERRSTS_CLEAR` (R447). -/
def execErrstsClear (s : State) : Host.Outcome State Fault Refusal := event evErrsts s
/-- `BINDERY_INIT_DONE` (R355). -/
def execBinderyInitDone (s : State) : Host.Outcome State Fault Refusal := event evBndInit s
/-- `DEBUG_HALT_REQUEST` (R458). -/
def execDebugHaltRequest (s : State) : Host.Outcome State Fault Refusal := event evHalt s
/-- `IDLE_ENTRY` (R458). -/
def execIdleEntry (s : State) : Host.Outcome State Fault Refusal := event evIdle s
/-- `IDLE_WAKE_ACCESS` (R458). -/
def execIdleWakeAccess (s : State) : Host.Outcome State Fault Refusal := event evWake s
/-- `UNIT_READY` (R20, R459). -/
def execUnitReady (s : State) : Host.Outcome State Fault Refusal := event evUnit s
/-- `HOST_BAR2_WRITE` (R213). -/
def execHostBar2Write (s : State) : Host.Outcome State Fault Refusal := event evBar2 s
/-- `PEER_ACCESS` (R453). -/
def execPeerAccess (s : State) : Host.Outcome State Fault Refusal := event evPeer s
/-- `SPDM_GET_VERSION` (R456). -/
def execSpdmGetVersion (s : State) : Host.Outcome State Fault Refusal := event evSpdmVersion s
/-- `SPDM_GET_CAPABILITIES` (R456). -/
def execSpdmGetCapabilities (s : State) : Host.Outcome State Fault Refusal := event evSpdmCaps s
/-- `SPDM_NEGOTIATE_ALGORITHMS` (R456). -/
def execSpdmNegotiateAlgorithms (s : State) : Host.Outcome State Fault Refusal := event evSpdmAlgs s
/-- `SPDM_GET_DIGESTS` (R456). -/
def execSpdmGetDigests (s : State) : Host.Outcome State Fault Refusal := event evSpdmDigests s
/-- `SPDM_GET_CERTIFICATE` (R456). -/
def execSpdmGetCertificate (s : State) : Host.Outcome State Fault Refusal := event evSpdmCert s
/-- `SPDM_CHALLENGE` (R456). -/
def execSpdmChallenge (s : State) : Host.Outcome State Fault Refusal := event evSpdmChallenge s
/-- `SPDM_GET_MEASUREMENTS` (R456). -/
def execSpdmGetMeasurements (s : State) : Host.Outcome State Fault Refusal := event evSpdmMeas s
/-- `SPDM_KEY_EXCHANGE` (R456). -/
def execSpdmKeyExchange (s : State) : Host.Outcome State Fault Refusal := event evSpdmKex s
/-- `SPDM_FINISH` (R456). -/
def execSpdmFinish (s : State) : Host.Outcome State Fault Refusal := event evSpdmFinish s
/-- `SPDM_END_SESSION` (R456). -/
def execSpdmEndSession (s : State) : Host.Outcome State Fault Refusal := event evSpdmEnd s
/-- `IDE_KM_REQUEST` (R456). -/
def execIdeKmRequest (s : State) : Host.Outcome State Fault Refusal := event evIdeKm s
/-- `POWER_LOSS` (R458); it happens in every state. -/
def execPowerLoss (s : State) : Host.Outcome State Fault Refusal := .next (powerLoss s.tick)
/-- `POWER_ON` (R455, R458, R459). -/
def execPowerOn (s : State) : Host.Outcome State Fault Refusal := .next (powerOn s.tick)

end Sys2Proof.Machine
end

