-- ==== Sys2Proof/Machine/Image.lean ====
section
/-! DEFINITION. Installing an image: the ELF file, its seal, its protected copy, the measurement log (R83 to R85, R454,
R455, R473).  The places of the ELF64 fields are those of the ELF standard, which R83 names (log entry 18, DESIGN CHOICE). -/

namespace Sys2Proof.Machine

/-- A section as its header gives it: name offset, type, flags, place in the file, size, alignment. -/
structure Sect where
  name : Nat
  ty : Nat
  flags : Nat
  off : Nat
  size : Nat
  align : Nat
  deriving DecidableEq, Repr

/-- n bytes of the image at a file offset, if they lie within it. -/
def imgBytes (s : State) (at_ len o n : Nat) : Option Nat := if o + n ≤ len then some (s.lpRead 0 (at_ + o) n) else none
/-- The same as a list. -/
def imgList (s : State) (at_ o n : Nat) : List Byte := (List.range n).map fun i => s.lpByte 0 (at_ + o + i)

/-- The header of an ET_EXEC image (R83), or nothing if it is malformed: section headers, their number, the index of the
name table. -/
def elfHeader (s : State) (at_ len : Nat) : Option (Nat × Nat × Nat) :=
  (imgBytes s at_ len 0 64).bind fun h =>
    if bitsAt h 0 32 = 0x464C457F ∧ bitsAt h 32 8 = 2 ∧ bitsAt h 40 8 = 1 ∧ bitsAt h 128 16 = 2 ∧ bitsAt h 144 16 = 0x7E51 ∧
        bitsAt h 192 64 = 0 ∧ bitsAt h 464 16 = 64 then
      some (bitsAt h 320 64, bitsAt h 480 16, bitsAt h 496 16)
    else none
/-- Section i. -/
def elfSect (s : State) (at_ len shoff i : Nat) : Option Sect :=
  (imgBytes s at_ len (shoff + 64 * i) 64).bind fun h =>
    let t : Sect := { name := bitsAt h 0 32, ty := bitsAt h 32 32, flags := bitsAt h 64 64, off := bitsAt h 192 64,
                      size := bitsAt h 256 64, align := bitsAt h 384 64 }
    if t.ty = 0 ∨ t.off + t.size ≤ len then some t else none
/-- All sections in order of index. -/
def elfSects (s : State) (at_ len : Nat) : Option (List Sect × Nat) :=
  (elfHeader s at_ len).bind fun (shoff, n, strs) =>
    ((List.range n).mapM (elfSect s at_ len shoff)).map fun l => (l, strs)
def Sect.alloc (t : Sect) : Bool := bitAt t.flags 1
/-- Whether a section has a name, its bytes followed by a zero. -/
def nameIs (s : State) (at_ len strs : Nat) (t : Sect) (n : List Byte) : Bool :=
  imgBytes s at_ len (strs + t.name) (n.length + 1) == some (ofBytes n)
def nBundles : List Byte := [0x2E, 0x62, 0x75, 0x6E, 0x64, 0x6C, 0x65, 0x73]
def nConcord : List Byte := [0x2E, 0x63, 0x6F, 0x6E, 0x63, 0x6F, 0x72, 0x64]
def nStages : List Byte := [0x2E, 0x73, 0x74, 0x61, 0x67, 0x65, 0x73]

def nRows : List Byte := [0x2E, 0x72, 0x6F, 0x77, 0x73]
def nLaunch : List Byte := [0x2E, 0x6C, 0x61, 0x75, 0x6E, 0x63, 0x68]
def nSeal : List Byte := [0x2E, 0x73, 0x65, 0x61, 0x6C]

/-- The next multiple of an alignment. -/
def alignUp (x a : Nat) : Nat := if a = 0 then x else (x + a - 1) / a * a
/-- The image offset of each loadable section, and the end of the layout (R473). -/
def layout : Nat → List Sect → List (Nat × Sect) × Nat
  | o, [] => ([], o)
  | o, t :: r => let p := alignUp o t.align; let q := layout (p + t.size) r; ((p, t) :: q.1, q.2)

/-- D: SHA-384 over the loadable sections, each after its 8-byte size (R85). -/
def sealDigest (s : State) (at_ : Nat) (l : List Sect) : BitVec 384 :=
  sha384 (l.flatMap fun t => bytesOf 8 t.size ++ imgList s at_ t.off t.size)
/-- The key slot under which a `.seal` verifies, if one does (R85).  D is the digest that ECDSA signs (log entry 3, PRESUMED); a seal is
known by its type alone, and one whose reserved bytes are not zero is malformed (log entry 110, DEDUCED). -/
def sealSlot (s : State) (at_ : Nat) (l : List Sect) (d : BitVec 384) : Option Nat :=
  match l.find? fun t => t.ty == 0x70000001 with
  | none => none
  | some t =>
    let b := imgList s at_ t.off 200
    let part (o : Nat) : List Byte := (b.drop o).take 48
    let id := BitVec.ofNat 384 (ofBytes (part 8))
    if t.size ≠ 200 ∨ ofBytes (b.take 8) ≠ 1 ∨ part 56 ≠ bytesOf 48 d.toNat then none
    else (List.range 8).find? fun k => keySlot s k == some id && ecdsaOk id d (be48 (part 104)) (be48 (part 152))

/-- Whether a range of the protected code region is free, an image that a new one replaces apart. -/
def rangeFree (s : State) (kind idx base len : Nat) : Bool :=
  !s.images.any fun m => !(m.kind == kind && m.idx == idx) && decide (m.base < base + len) && decide (base < m.base + m.len)
/-- A place for an image of n bytes, the search starting anywhere. -/
def codePlace (s : State) (kind idx n : Nat) : Option Nat :=
  let pages := (n + 65535) / 65536
  let spots := s.codeSize + 1 - pages
  ((List.range spots).map fun i => 65536 * (s.codeBase + (i + s.free 874100) % spots)).find? fun b => rangeFree s kind idx b (65536 * pages)

/-- `IMG_STS`: status and key slot. -/
def setImgSts (s : State) (sts slot : Nat) : State := s.setReg rImgSts (sts + slot % 256 * 8)
/-- An entry of the measurement log: kind, index and key slot in the first bytes, D in the last 48 (log entry 18, DESIGN CHOICE). -/
def logImage (s : State) (kind idx slot : Nat) (d : BitVec 384) : State :=
  let e := rLog (s.reg rLogN)
  let s := s.setReg e (kind + idx * 2 ^ 8 + slot * 2 ^ 16)
  let s := (List.range 6).foldl (fun s i => s.setReg (e + 16 + 8 * i) (lane 64 d.toNat i)) s
  s.setReg rLogN (s.reg rLogN + 1)

/-- The rules of a concordance image, 32 bytes each. -/
def concordRules (s : State) (at_ : Nat) (t : Sect) : List (BitVec 256) :=
  (List.range (t.size / 32)).map fun i => BitVec.ofNat 256 (s.lpRead 0 (at_ + t.off + 32 * i) 32)

/-- A row of Table 03-2: name, type, flags and alignment. -/
def sectTable : List (List Byte × Nat × Nat × Nat) :=
  [(nBundles, 1, 6, 64), (nRows, 1, 3, 128), (nLaunch, 1, 2, 128), (nConcord, 1, 2, 32), (nStages, 1, 2, 64), (nSeal, 0x70000001, 0, 8)]
/-- Whether a section is of Table 03-2, by its name, with the table's type, flags and alignment. -/
def Sect.inTable (t : Sect) (s : State) (at_ len strs : Nat) : Bool :=
  sectTable.any fun r => nameIs s at_ len strs t r.1 && t.ty == r.2.1 && t.flags == r.2.2.1 && t.align == r.2.2.2
/-- Whether the sections of an image are those of Table 03-2, with the one its kind needs, and `.bundles` the first loadable
(R473). -/
def sectsOk (s : State) (at_ len strs kind idx : Nat) (all l : List Sect) : Bool :=
  let has (n : List Byte) : Bool := l.any fun t => nameIs s at_ len strs t n
  (l.all fun t => t.inTable s at_ len strs) &&
  (all.all fun t => t.inTable s at_ len strs || !sectTable.any fun r => nameIs s at_ len strs t r.1) &&
  (!has nBundles || (l.head?.map fun t => nameIs s at_ len strs t nBundles && t.size % 64 == 0) == some true) &&
  (if kind = 1 then has nBundles else if kind = 2 then
    (l.all fun t => !nameIs s at_ len strs t nConcord || t.size % 32 == 0) && has nConcord && decide (idx < 64)
   else if kind = 3 then has nStages else decide (idx = 0))

/-- The install that `IMG_GO` started ends (R454, R455); an image in uncorrectable data is malformed (log entry 18, DESIGN CHOICE). -/
def evInstall (s : State) : State :=
  match s.install with
  | none => s
  | some (at_, len, kind, idx) =>
    let s := { s.lpTouch 0 at_ len with install := none }
    if s.lpBad 0 at_ len then setImgSts s 4 0xFF
    else match elfSects s at_ len with
    | none => setImgSts s 4 0xFF
    | some (all, si) =>
      let strs := ((all[si]?).map (·.off)).getD 0
      let l := all.filter Sect.alloc
      if !sectsOk s at_ len strs kind idx all l then setImgSts s 4 0xFF
      else
        let d := sealDigest s at_ l
        let slot := sealSlot s at_ all d
        let lay := layout 0 l
        if slot.isNone ∧ s.reg rSecSts % 4 = 2 then setImgSts s 2 0xFF
        else if 704 ≤ s.reg rLogN then setImgSts s 5 0xFF
        else match codePlace s kind idx lay.2 with
          | none => setImgSts s 5 0xFF
          | some base =>
            let old := s.images.filter fun m => !(m.kind == kind && m.idx == idx)
            let bytes := lay.1.map fun p => (p.1, p.2.size, s.lpRead 0 (at_ + p.2.off) p.2.size)
            let rules := match l.find? fun t => nameIs s at_ len strs t nConcord with
              | some t => if kind = 2 then concordRules s at_ t else []
              | none => []
            let nb := match l.find? fun t => nameIs s at_ len strs t nBundles with | some t => t.size / 64 | none => 0
            let s := bytes.foldl (fun s p => s.lpInstall (base + p.1) p.2.1 p.2.2) { s with images := old }
            let m : Image := { kind := kind, idx := idx, base := base, len := lay.2, nb := nb, rules := rules, ver := slot.isSome,
                               dig := d, secs := lay.1.map fun p => (p.1, p.2.size) }
            let s := { s with images := old ++ [m] }
            let s := if kind = 1 then (s.setReg (rImgPb idx) (base + 1)).setReg (rImgNb idx) nb else s
            setImgSts (mrExtend (logImage s kind idx (slot.getD 0xFF) d) d) 3 (slot.getD 0xFF)

/-- `IMAGE_INSTALL_DONE` (R455). -/
def execImageInstallDone (s : State) : Host.Outcome State Fault Refusal := event evInstall s

end Sys2Proof.Machine
end

