-- ==== Sys2Proof/Machine/Launch.lean ====
section
/-! DEFINITION. Launch queues, launch records, the placement of tasks and the completion of kernels (R395, R396, R449 to
R452). -/

namespace Sys2Proof.Machine

/-! ### Device addresses under a function -/

/-- Where a device address of a function lies, if it translates. -/
def fnXlate (s : State) (fn va : Nat) (write priv : Bool) : Option (Nat × Nat × Nat) :=
  if va / 2 ^ 52 ≠ 0 then none
  else match s.walk fn va with
    | .error _ => none
    | .ok t => match s.access t va write false priv false with
      | .ok tgt part pa => some (tgt, part, pa)
      | _ => none
/-- n bytes at a device address, if all can be read. -/
def fnRead (s : State) (fn va : Nat) (priv : Bool) (n : Nat) : Option Nat :=
  ((List.range n).mapM fun i => (fnXlate s fn (va + i) false priv).bind fun (tgt, part, pa) =>
    if s.physBad tgt part pa 1 then none else some (s.physRead tgt part pa 1)).map (ofLanes 8)
/-- What reading 8-byte words from a device address on does to the stacks, its walks included (R180, R459). -/
def fnTouch (s : State) (fn va : Nat) (priv : Bool) (n : Nat) : State :=
  ((List.range n).flatMap fun i => [va + 8 * i, va + 8 * i + 7]).foldl (fun s a =>
    let s := if a / 2 ^ 52 = 0 then s.walkTouch fn a else s
    match fnXlate s fn a false priv with
    | some (tgt, part, pa) => s.physTouch tgt part pa 1
    | none => s) s
/-- 8-byte words from a device address on. -/
def fnWords (s : State) (fn va : Nat) (priv : Bool) (n : Nat) : Option (List Nat) :=
  (List.range n).mapM fun i => fnRead s fn (va + 8 * i) priv 8
/-- Writing n bytes at a device address; what does not translate is not written. -/
def fnWrite (s : State) (fn va : Nat) (priv : Bool) (n v : Nat) : State :=
  (List.range n).foldl (fun s i => match fnXlate s fn (va + i) true priv with
    | some (tgt, part, pa) => if s.physWBad tgt part pa 1 then s else s.physWrite tgt part pa 1 (lane 8 v i)
    | none => s) s

/-! ### Records (Tables 19-2 to 19-4) -/

/-- The queue whose record is taken next: the lowest PRIO, in rotation within a level (R449). -/
def lqNext (s : State) : Option Nat :=
  let full := (List.range 64).filter (lqHolds s)
  let pr (q : Nat) : Nat := bitsAt (s.reg (rLqCtl q)) 5 6
  let best := full.foldl (fun b q => min b (pr q)) 63
  ((List.range 64).map fun i => (tget 0 s.launchRot best + i) % 64).find? fun q => full.contains q && pr q == best

/-- n bytes of a record from byte o. -/
def recF (r o n : Nat) : Nat := bitsAt r (8 * o) (8 * n)
/-- Whether a region-table entry holds to Table 19-4, and runs to no row past 8191. -/
def regionOk (e : Nat) : Bool :=
  let n := bitsAt e 13 14
  decide (1 ≤ n) && decide (bitsAt e 0 13 + n ≤ 8192) && e / 2 ^ 42 == 0 && (!bitAt e 27 || bitsAt e 33 9 == 0)
/-- Whether a placement entry does, on a core that is present. -/
def placeOk (s : State) (e : Nat) : Bool := bitsAt e 10 6 == 0 && s.coreOk (e % 128)
/-- No two the same. -/
def noTwice : List Nat → Bool
  | [] => true
  | a :: r => !r.contains a && noTwice r
/-- What Table 19-3 asks of the record itself (R450, R451); in SEALED its image must be a verified one (R455). -/
def recordOk (s : State) (fn r : Nat) : Bool :=
  recF r 4 4 != 0 && !s.kernels.any (fun n => n.fn == fn && n.kid == recF r 4 4) &&
  decide (1 ≤ recF r 10 2) && decide (recF r 10 2 ≤ 1024) && bitsAt r (8 * 28 + 20) 4 == 0 && decide (recF r 31 1 ≤ 64) &&
  recF r 83 1 == 0 && !bitAt r (8 * 84 + 15) && recF r 96 32 == 0 && bitAt (s.reg (rImgPb (recF r 8 1))) 0 &&
  (s.reg rSecSts % 4 != 2 || s.images.any fun m => m.kind == 1 && m.idx == recF r 8 1 && m.ver)
/-- The kernel of a record, with the placement and region tables. -/
def kernelOfRec (id q slot fn : Nat) (priv : Bool) (r : Nat) (place regs : List Nat) : Kernel :=
  { id := id, fn := fn, queue := q, slot := slot, img := recF r 8 1, kid := recF r 4 4, priv := priv,
    prio := BitVec.ofNat 8 (recF r 9 1), entry := BitVec.ofNat 32 (recF r 0 4), banks := BitVec.ofNat 56 (recF r 20 7),
    ptm := BitVec.ofNat 8 (recF r 27 1), run0 := BitVec.ofNat 20 (recF r 28 3), arg := BitVec.ofNat 64 (recF r 40 8),
    pred := recF r 48 4, succ := recF r 52 4, ctl := recF r 56 8, mirror := recF r 64 8, ovfa := recF r 72 8, ovfq := recF r 80 2,
    frame := recF r 82 1, fpcore := bitsAt (recF r 84 2) 13 2, fprow := recF r 84 2 % 2 ^ 13, fpn := recF r 86 2, smap := recF r 88 8,
    regions := regs.map (BitVec.ofNat 64), toPlace := place.map (BitVec.ofNat 64) }

/-! ### Completion (R452) -/

/-- A kernel's completion is reported: the counter at CTL, then the mirror in host memory, SEQ the function's count; it counts as
completed for a successor, unless a kernel of the same number still runs (R451). -/
def report (s : State) (n : Kernel) (status : Nat) : State :=
  let runs := s.kernels.any fun m => m.fn == n.fn && m.kid == n.kid
  let s := { s with ended := if runs || s.ended.contains (n.fn, n.kid) then s.ended else (n.fn, n.kid) :: s.ended }
  let s := if n.ctl = 0 then s else match fnRead s n.fn n.ctl n.priv 8 with
    | some v => fnWrite s n.fn n.ctl n.priv 8 ((v + 1) % 2 ^ 64)
    | none => s
  let seq := (tget 0 s.completions n.fn + 1) % 2 ^ 32
  let s := { s with completions := tput s.completions n.fn seq }
  if n.mirror = 0 ∨ !bitAt (s.reg (rSysReady 0)) 56 then s
  else { s with host := s.host.writeN (n.mirror % 2 ^ 52) (n.kid + status * 2 ^ 32 + n.term % 2 ^ 32 * 2 ^ 64 + seq * 2 ^ 96) 16 }

/-! ### The steps -/

/-- A circulation core takes the next record: it is read, HEAD moves on, and its kernel is launched, or completes with
ILLF (R449, R451, R452). -/
def evLaunch (s : State) : State :=
  match lqNext s with
  | none => s
  | some q =>
    if bitsAt (s.reg (rSysReady 1)) 32 4 = 0 then s
    else
      let ctl := s.reg (rLqCtl q)
      let base := s.reg (rLqBase q) / 128 * 128 % 2 ^ 52
      let s := s.lpTouch 0 base 128
      let head := s.lpRead 0 (base + 64) 8
      let slot := head % 2 ^ (ctl % 32)
      let fn := bitsAt ctl 12 4
      let priv := bitAt ctl 11
      let s := s.lpTouch 0 (base + 128 + 128 * slot) 128
      let r := s.lpRead 0 (base + 128 + 128 * slot) 128
      let bad := s.lpBad 0 (base + 128 + 128 * slot) 128
      let s := { s.lpWrite 0 (base + 64) 8 (head + 1) with launchRot := tput s.launchRot (bitsAt ctl 5 6) ((q + 1) % 64) }
      let s := if bad ∨ !recordOk s fn r then s else
        fnTouch (fnTouch s fn (recF r 12 8) priv (recF r 10 2)) fn (recF r 32 8) priv (recF r 31 1)
      let tabs := if bad ∨ !recordOk s fn r then none else
        (fnWords s fn (recF r 12 8) priv (recF r 10 2)).bind fun p => (fnWords s fn (recF r 32 8) priv (recF r 31 1)).map fun g => (p, g)
      let ok := match tabs with
        | some (p, g) => p.all (placeOk s) && noTwice (p.map (· % 2 ^ 10)) && g.all regionOk
        | none => false
      let n := kernelOfRec s.nextKernel q slot fn priv r ((tabs.map (·.1)).getD []) ((tabs.map (·.2)).getD [])
      if ok then { s with kernels := s.kernels ++ [n], nextKernel := s.nextKernel + 1, ended := s.ended.erase (fn, n.kid) }
      else report (s.fneRecord fn (6 + slot * 2 ^ 32 + n.kid * 2 ^ 256)) n 2

/-- Whether a kernel may place its tasks (R395, R451): its predecessor has issued `hint.next`, or has completed. -/
def mayPlace (s : State) (n : Kernel) : Bool :=
  n.pred == 0 || s.ended.contains (n.fn, n.pred) || s.kernels.any fun m => m.fn == n.fn && m.kid == n.pred && m.hinted
/-- A task of a kernel is placed on its context (R379, R385, R395, R451). -/
def evPlace (s : State) : State :=
  match s.kernels[s.argN 0]? with
  | none => s
  | some n => match n.toPlace[s.argN 1]? with
    | none => s
    | some e =>
      let k := e.toNat % 128
      let j := bitsAt e.toNat 7 3
      let q := clusterOf k
      let tc : BitVec 48 := BitVec.ofNat 48 (e.toNat / 2 ^ 16)
      let prio : BitVec 6 := n.prio.setWidth 6
      let start (s : State) (f : Option Nat) : State :=
        let s := s.modKernel n.id fun n => { n with toPlace := dropAt n.toPlace (s.argN 1), live := n.live + 1 }
        startTask s k j n n.entry prio tc f (some n.arg) none 0
      if !mayPlace s n ∨ !clusterReady s q ∨ !s.coreOk k ∨ (s.ctx k j).life ≠ .free then s
      else if n.frame = 0 then start s none
      else match takeFrame s q n none prio tc with
        | some (s, f) => start s (some f)
        | none => s

/-- A kernel all of whose tasks have completed or been terminated completes (R452). -/
def evComplete (s : State) : State :=
  match s.kernels[s.argN 0]? with
  | none => s
  | some n =>
    if n.toPlace ≠ [] ∨ n.live ≠ 0 then s
    else report { s with kernels := dropAt s.kernels (s.argN 0) } n (if n.term = 0 then 0 else 1)

/-- `LAUNCH_RECORD` (R449, R451, R452). -/
def execLaunchRecord (s : State) : Host.Outcome State Fault Refusal := event evLaunch s
/-- `TASK_PLACEMENT` (R16, R86, R379, R385, R395, R451). -/
def execTaskPlacement (s : State) : Host.Outcome State Fault Refusal := event evPlace s
/-- `KERNEL_COMPLETION` (R452, R468). -/
def execKernelCompletion (s : State) : Host.Outcome State Fault Refusal := event evComplete s

end Sys2Proof.Machine
end

