-- ==== Sys2Proof/Machine/LoadStore.lean ====
section
/-! DEFINITION. The meanings of the LD and ST instructions and the atomics (R170 to R192). -/

namespace Sys2Proof.Machine

/-- `LD_ROW` (R173, R184). -/
def execLdRow (d : VReg) (a : Mem) (s : State) : Host.Outcome State Fault Refusal :=
  slotOp .ld (.ldRow d a) (opLdRow d a) s
/-- `LD_ROW_CHK` (R70, R185). -/
def execLdRowChk (d : VReg) (a : Mem) (s : State) : Host.Outcome State Fault Refusal :=
  slotOp .ld (.ldRowChk d a) (opLdRowChk d a) s
/-- `LD_S` (R184). -/
def execLdS (d : BitVec 6) (a : Mem) (s : State) : Host.Outcome State Fault Refusal :=
  slotOp .ld (.ldS d a) (opLdS d a) s
/-- `LD_H` (R175). -/
def execLdH (d : VReg) (a : Mem) (s : State) : Host.Outcome State Fault Refusal :=
  slotOp .ld (.ldH d a) (opLdH d a) s
/-- `LD_H_CHK` (R70, R185). -/
def execLdHChk (d : VReg) (a : Mem) (s : State) : Host.Outcome State Fault Refusal :=
  slotOp .ld (.ldHChk d a) (opLdHChk d a) s
/-- `LDG` (R176, R186). -/
def execLdg (h : BitVec 5) (cnt1 : BitVec 4) (a : Mem) (s : State) : Host.Outcome State Fault Refusal :=
  slotOp .ld (.ldg h cnt1 a) (opLdg h cnt1 a) s
/-- `LD_PR` (R184). -/
def execLdPr (d : VReg) (a : Mem) (s : State) : Host.Outcome State Fault Refusal :=
  slotOp .ld (.ldPr d a) (opLdPr d a) s
/-- `LD_SB` (R184). -/
def execLdSb (d : VReg) (a : Mem) (s : State) : Host.Outcome State Fault Refusal :=
  slotOp .ld (.ldSb d a) (opLdSb d a) s
/-- `LD_IDX` (R187). -/
def execLdIdx (d : VReg) (b k : BitVec 5) (m : BitVec 15) (s : State) : Host.Outcome State Fault Refusal :=
  slotOp .ld (.ldIdx d b k m) (opLdIdx d b k m) s
/-- `LD_BC` (R184). -/
def execLdBc (d : VReg) (a : Mem) (s : State) : Host.Outcome State Fault Refusal :=
  slotOp .ld (.ldBc d a) (opLdBc d a) s
/-- `LD_Z` (R188, R234). -/
def execLdZ (d : VReg) (a : Mem) (s : State) : Host.Outcome State Fault Refusal :=
  slotOp .ld (.ldZ d a) (opLdZ d a) s
/-- `LD_ACQ` (R179, R189, R199, R202). -/
def execLdAcq (sc : BitVec 3) (d : DReg) (a : Mem) (s : State) : Host.Outcome State Fault Refusal :=
  slotOp .ld (.ldAcq sc d a) (opLdAcq sc d a) s
/-- `ST_ROW` (R173, R190). -/
def execStRow (v : VReg) (a : Mem) (s : State) : Host.Outcome State Fault Refusal :=
  slotOp .st (.stRow v a) (opStRow v a) s
/-- `ST_S` (R190). -/
def execStS (n : BitVec 6) (a : Mem) (s : State) : Host.Outcome State Fault Refusal :=
  slotOp .st (.stS n a) (opStS n a) s
/-- `ST_H` (R175). -/
def execStH (v : VReg) (a : Mem) (s : State) : Host.Outcome State Fault Refusal :=
  slotOp .st (.stH v a) (opStH v a) s
/-- `STG` (R177, R178, R190). -/
def execStg (v : DReg) (a : Mem) (s : State) : Host.Outcome State Fault Refusal :=
  slotOp .st (.stg v a) (opStg v a) s
/-- `ST_NT` (R177, R179). -/
def execStNt (v : DReg) (a : Mem) (s : State) : Host.Outcome State Fault Refusal :=
  slotOp .st (.stNt v a) (opStNt v a) s
/-- `ST_PR` (R190). -/
def execStPr (v : VReg) (a : Mem) (s : State) : Host.Outcome State Fault Refusal :=
  slotOp .st (.stPr v a) (opStPr v a) s
/-- `ST_SB` (R190, R354). -/
def execStSb (v : VReg) (a : Mem) (s : State) : Host.Outcome State Fault Refusal :=
  slotOp .st (.stSb v a) (opStSb v a) s
/-- `ST_REL` (R177, R179, R200, R202). -/
def execStRel (sc : BitVec 3) (v : DReg) (a : Mem) (s : State) : Host.Outcome State Fault Refusal :=
  slotOp .st (.stRel sc v a) (opStRel sc v a) s
/-- `AADD` (R191, R203). -/
def execAadd (gl w64 : Bool) (r : BitVec 6) (a : Mem) (s : State) : Host.Outcome State Fault Refusal :=
  slotOp .st (.aadd gl w64 r a) (opAadd gl w64 r a) s
/-- `AMIN` (R191, R203). -/
def execAmin (gl w64 : Bool) (r : BitVec 6) (a : Mem) (s : State) : Host.Outcome State Fault Refusal :=
  slotOp .st (.amin gl w64 r a) (opAmin gl w64 r a) s
/-- `AMAX` (R191, R203). -/
def execAmax (gl w64 : Bool) (r : BitVec 6) (a : Mem) (s : State) : Host.Outcome State Fault Refusal :=
  slotOp .st (.amax gl w64 r a) (opAmax gl w64 r a) s
/-- `AXCH` (R191, R203). -/
def execAxch (gl w64 : Bool) (r : BitVec 6) (a : Mem) (s : State) : Host.Outcome State Fault Refusal :=
  slotOp .st (.axch gl w64 r a) (opAxch gl w64 r a) s
/-- `ACAS` (R191, R203). -/
def execAcas (gl w64 : Bool) (r : BitVec 6) (a : Mem) (s : State) : Host.Outcome State Fault Refusal :=
  slotOp .st (.acas gl w64 r a) (opAcas gl w64 r a) s
/-- `AAND` (R191, R203). -/
def execAand (gl w64 : Bool) (r : BitVec 6) (a : Mem) (s : State) : Host.Outcome State Fault Refusal :=
  slotOp .st (.aand gl w64 r a) (opAand gl w64 r a) s
/-- `AOR` (R191, R203). -/
def execAor (gl w64 : Bool) (r : BitVec 6) (a : Mem) (s : State) : Host.Outcome State Fault Refusal :=
  slotOp .st (.aor gl w64 r a) (opAor gl w64 r a) s
/-- `AXOR` (R191, R203). -/
def execAxor (gl w64 : Bool) (r : BitVec 6) (a : Mem) (s : State) : Host.Outcome State Fault Refusal :=
  slotOp .st (.axor gl w64 r a) (opAxor gl w64 r a) s
/-- `LD_NOP` (R32). -/
def execLdNop (s : State) : Host.Outcome State Fault Refusal := slotOp .ld .ldNop (fun _ => {}) s
/-- `ST_NOP` (R32). -/
def execStNop (s : State) : Host.Outcome State Fault Refusal := slotOp .st .stNop (fun _ => {}) s

end Sys2Proof.Machine
end

