-- ==== Sys2Proof/Machine/Matrix.lean ====
section
/-! DEFINITION. The meanings of the MX instructions (R245 to R280, R299). -/

namespace Sys2Proof.Machine

/-- `MMA` (R70, R244, R245, R247, R248, R251). -/
def execMma (acc : BitVec 3) (ws : BitVec 6) (a : ASrc) (rows : BitVec 5) (t ovw chk : Bool) (s : State) : Host.Outcome State Fault Refusal :=
  slotOp .mx (.mma acc ws a rows t ovw chk) (opMma acc ws a rows t ovw chk) s
/-- `MOP` (R244, R247, R248, R251, R252, R253). -/
def execMop (acc : BitVec 3) (ws : BitVec 6) (a : ASrc) (rows : BitVec 5) (ovw : Bool) (s : State) : Host.Outcome State Fault Refusal :=
  slotOp .mx (.mop acc ws a rows ovw) (opMop acc ws a rows ovw) s
/-- `MLD_W` (R62, R70, R246, R247, R248, R251). -/
def execMldW (ws : BitVec 6) (a : ASrc) (sp chk : Bool) (s : State) : Host.Outcome State Fault Refusal :=
  slotOp .mx (.mldW ws a sp chk) (opMldW ws a sp chk) s
/-- `MDRAIN` (R66, R68, R248, R250, R255, R260). -/
def execMdrain (acc : BitVec 3) (a : ASrc) (rows : BitVec 5) (s : State) : Host.Outcome State Fault Refusal :=
  slotOp .mx (.mdrain acc a rows) (opMdrain acc a rows) s
/-- `MROW` (R250, R261, R462). -/
def execMrow (acc : BitVec 3) (f : VFile) (q : BitVec 7) (mode : BitVec 2) (i : BitVec 5) (s : State) : Host.Outcome State Fault Refusal :=
  slotOp .mx (.mrow acc f q mode i) (opMrow acc f q mode i) s
/-- `MCLR` (R245, R248, R262). -/
def execMclr (acc : BitVec 3) (s : State) : Host.Outcome State Fault Refusal :=
  slotOp .mx (.mclr acc) (opMclr acc) s
/-- `MQ_STAT` (R264). -/
def execMqStat (d : BitVec 6) (s : State) : Host.Outcome State Fault Refusal :=
  slotOp .mx (.mqStat d) (opMqStat d) s
/-- `MDIST` (R70, R247, R266, R267, R269, R270). -/
def execMdist (acc : BitVec 3) (ws : BitVec 6) (a : ASrc) (rows : BitVec 5) (t : Bool) (met : BitVec 2) (tie : Bool) (pass : BitVec 8) (chk : Bool) (s : State) : Host.Outcome State Fault Refusal :=
  slotOp .mx (.mdist acc ws a rows t met tie pass chk) (opMdist acc ws a rows t met tie pass chk) s
/-- `MBEST_CLR` (R270, R274). -/
def execMbestClr (rows : BitVec 5) (s : State) : Host.Outcome State Fault Refusal :=
  slotOp .mx (.mbestClr rows) (opMbestClr rows) s
/-- `MBEST_RD` (R270, R275, R464). -/
def execMbestRd (f : VFile) (q : BitVec 8) (s : State) : Host.Outcome State Fault Refusal :=
  slotOp .mx (.mbestRd f q) (opMbestRd f q) s
/-- `CUPD` (R247, R270, R277, R278). -/
def execCupd (p : BitVec 8) (a : ASrc) (rows : BitVec 5) (s : State) : Host.Outcome State Fault Refusal :=
  slotOp .mx (.cupd p a rows) (opCupd p a rows) s
/-- `CFIN` (R278, R279, R464). -/
def execCfin (ws : BitVec 6) (la : BitVec 5) (z : Bool) (s : State) : Host.Outcome State Fault Refusal :=
  slotOp .mx (.cfin ws la z) (opCfin ws la z) s
/-- `RW_STAT` (R299). -/
def execRwStat (d : BitVec 6) (s : State) : Host.Outcome State Fault Refusal :=
  slotOp .mx (.rwStat d) (opRwStat d) s
/-- `MX_NOP` (R32). -/
def execMxNop (s : State) : Host.Outcome State Fault Refusal := slotOp .mx .mxNop (fun _ => {}) s
/-- `MWAIT` (R263). -/
def execMwait (s : State) : Host.Outcome State Fault Refusal :=
  slotOp .mx .mwait opMwait s
/-- `RW_SUP` (R298). -/
def execRwSup (s : State) : Host.Outcome State Fault Refusal :=
  slotOp .mx .rwSup opRwSup s

end Sys2Proof.Machine
end

