-- ==== Sys2Proof/Machine/RedXf.lean ====
section
/-! DEFINITION. The meanings of the RD and XF instructions (R221 to R244). -/

namespace Sys2Proof.Machine

/-- `XF_CVT` (R62, R66, R228, R231, R232). -/
def execXfCvt (tt src : BitVec 4) (d a q : BitVec 4) (tile : Bool) (s : State) : Host.Outcome State Fault Refusal :=
  slotOp .xf (.xfCvt tt src d a q tile) (fun s => localPath s (opXfCvt tt src d a q tile s)) s
/-- `XF_TR` (R238). -/
def execXfTr (e : BitVec 2) (d a : BitVec 4) (s : State) : Host.Outcome State Fault Refusal :=
  slotOp .xf (.xfTr e d a) (fun s => localPath s (opXfTr e d a s)) s
/-- `XF_EXP_ZR` (R234, R236). -/
def execXfExpZr (d a : BitVec 4) (s : State) : Host.Outcome State Fault Refusal :=
  slotOp .xf (.xfExpZr d a) (fun s => localPath s (opXfExpZr d a s)) s
/-- `XF_EXP_SP24` (R236). -/
def execXfExpSp24 (e : BitVec 2) (d a : BitVec 4) (s : State) : Host.Outcome State Fault Refusal :=
  slotOp .xf (.xfExpSp24 e d a) (fun s => localPath s (opXfExpSp24 e d a s)) s
/-- `XF_PACK` (R235). -/
def execXfPack (e : BitVec 2) (d a : BitVec 4) (s : State) : Host.Outcome State Fault Refusal :=
  slotOp .xf (.xfPack e d a) (fun s => localPath s (opXfPack e d a s)) s
/-- `XF_ROT` (R228, R239). -/
def execXfRot (d a b : BitVec 4) (k : BitVec 7) (s : State) : Host.Outcome State Fault Refusal :=
  slotOp .xf (.xfRot d a b k) (fun s => localPath s (opXfRot d a b k s)) s
/-- `XF_SCL` (R240). -/
def execXfScl (t : BitVec 2) (v : Bool) (rm : BitVec 3) (d a b : BitVec 4) (s : State) : Host.Outcome State Fault Refusal :=
  slotOp .xf (.xfScl t v rm d a b) (fun s => localPath s (opXfScl t v rm d a b s)) s
/-- `XF_COL_W` (R68, R233). -/
def execXfColW (d b : BitVec 4) (s : State) : Host.Outcome State Fault Refusal :=
  slotOp .xf (.xfColW d b) (fun s => localPath s (opXfColW d b s)) s
/-- `XF_COL_CHK` (R70, R233). -/
def execXfColChk (t : BitVec 4) (a : BitVec 4) (s : State) : Host.Outcome State Fault Refusal :=
  slotOp .xf (.xfColChk t a) (fun s => localPath s (opXfColChk t a s)) s
/-- `XF_COL_RD` (R228, R233). -/
def execXfColRd (d a : BitVec 4) (s : State) : Host.Outcome State Fault Refusal :=
  slotOp .xf (.xfColRd d a) (fun s => localPath s (opXfColRd d a s)) s
/-- `XF_SWZ` (R241). -/
def execXfSwz (d a : BitVec 4) (sh : BitVec 3) (k : Bool) (s : State) : Host.Outcome State Fault Refusal :=
  slotOp .xf (.xfSwz d a sh k) (fun s => localPath s (opXfSwz d a sh k s)) s
/-- `XF_MV_ROW` (R242). -/
def execXfMvRow (d a : BitVec 4) (s : State) : Host.Outcome State Fault Refusal :=
  slotOp .xf (.xfMvRow d a) (fun s => localPath s (opXfMvRow d a s)) s
/-- `XF_MV_SCALAR` (R242). -/
def execXfMvScalar (n : BitVec 6) (a : BitVec 4) (s : State) : Host.Outcome State Fault Refusal :=
  slotOp .xf (.xfMvScalar n a) (opXfMvScalar n a) s
/-- `XF_MV_REG` (R228, R242). -/
def execXfMvReg (d a : BitVec 4) (s : State) : Host.Outcome State Fault Refusal :=
  slotOp .xf (.xfMvReg d a) (opXfMvReg d a) s
/-- `RD_ADD` (R222, R225). -/
def execRdAdd (l : BitVec 2) (a : ASrc) (t : BitVec 2) (fold : BitVec 3) (s : State) : Host.Outcome State Fault Refusal :=
  slotOp .rd (.rdAdd l a t fold) (opRdAdd l a t fold) s
/-- `RD_KADD` (R222, R225). -/
def execRdKadd (l : BitVec 2) (a : ASrc) (t : BitVec 2) (fold : BitVec 3) (s : State) : Host.Outcome State Fault Refusal :=
  slotOp .rd (.rdKadd l a t fold) (opRdKadd l a t fold) s
/-- `RD_MAX` (R222, R225). -/
def execRdMax (l : BitVec 2) (a : ASrc) (t : BitVec 2) (fold : BitVec 3) (s : State) : Host.Outcome State Fault Refusal :=
  slotOp .rd (.rdMax l a t fold) (opRdMax l a t fold) s
/-- `RD_MIN` (R222, R225). -/
def execRdMin (l : BitVec 2) (a : ASrc) (t : BitVec 2) (fold : BitVec 3) (s : State) : Host.Outcome State Fault Refusal :=
  slotOp .rd (.rdMin l a t fold) (opRdMin l a t fold) s
/-- `RD_AMAX` (R222, R225). -/
def execRdAmax (l : BitVec 2) (a : ASrc) (t : BitVec 2) (fold : BitVec 3) (s : State) : Host.Outcome State Fault Refusal :=
  slotOp .rd (.rdAmax l a t fold) (opRdAmax l a t fold) s
/-- `RD_MV` (R223, R226). -/
def execRdMv (l mode t : BitVec 2) (d : DReg) (k : BitVec 5) (clr : Bool) (s : State) : Host.Outcome State Fault Refusal :=
  slotOp .rd (.rdMv l mode t d k clr) (opRdMv l mode t d k clr) s
/-- `RD_CLR` (R227). -/
def execRdClr (m : BitVec 4) (init t : BitVec 2) (s : State) : Host.Outcome State Fault Refusal :=
  slotOp .rd (.rdClr m init t) (opRdClr m init t) s
/-- `XF_NOP` (R32). -/
def execXfNop (s : State) : Host.Outcome State Fault Refusal := slotOp .xf .xfNop (fun _ => {}) s
/-- `XF_COL_CLR` (R233). -/
def execXfColClr (s : State) : Host.Outcome State Fault Refusal :=
  slotOp .xf .xfColClr opXfColClr s
/-- `RD_NOP` (R32). -/
def execRdNop (s : State) : Host.Outcome State Fault Refusal := slotOp .rd .rdNop (fun _ => {}) s

end Sys2Proof.Machine
end

