-- ==== Sys2Proof/Machine/Scalar.lean ====
section
/-! DEFINITION. The meanings of the SC instructions (R123 to R140, R445). -/

namespace Sys2Proof.Machine

/-- `SC_ADD` (R127). -/
def execScAdd (t : ITy) (d a : BitVec 6) (b : SrcB) (s : State) : Host.Outcome State Fault Refusal :=
  slotOp .sc (.scAdd t d a b) (opScAdd t d a b) s
/-- `SC_SUB` (R127). -/
def execScSub (t : ITy) (d a : BitVec 6) (b : SrcB) (s : State) : Host.Outcome State Fault Refusal :=
  slotOp .sc (.scSub t d a b) (opScSub t d a b) s
/-- `SC_MUL` (R127). -/
def execScMul (t : ITy) (d a : BitVec 6) (b : SrcB) (s : State) : Host.Outcome State Fault Refusal :=
  slotOp .sc (.scMul t d a b) (opScMul t d a b) s
/-- `SC_MULH` (R127). -/
def execScMulh (t : ITy) (d a : BitVec 6) (b : SrcB) (s : State) : Host.Outcome State Fault Refusal :=
  slotOp .sc (.scMulh t d a b) (opScMulh t d a b) s
/-- `SC_DIV` (R128). -/
def execScDiv (t : ITy) (d a : BitVec 6) (b : SrcB) (s : State) : Host.Outcome State Fault Refusal :=
  slotOp .sc (.scDiv t d a b) (opScDiv t d a b) s
/-- `SC_REM` (R128). -/
def execScRem (t : ITy) (d a : BitVec 6) (b : SrcB) (s : State) : Host.Outcome State Fault Refusal :=
  slotOp .sc (.scRem t d a b) (opScRem t d a b) s
/-- `SC_AND` (R127). -/
def execScAnd (t : ITy) (d a : BitVec 6) (b : SrcB) (s : State) : Host.Outcome State Fault Refusal :=
  slotOp .sc (.scAnd t d a b) (opScAnd t d a b) s
/-- `SC_OR` (R127). -/
def execScOr (t : ITy) (d a : BitVec 6) (b : SrcB) (s : State) : Host.Outcome State Fault Refusal :=
  slotOp .sc (.scOr t d a b) (opScOr t d a b) s
/-- `SC_XOR` (R127). -/
def execScXor (t : ITy) (d a : BitVec 6) (b : SrcB) (s : State) : Host.Outcome State Fault Refusal :=
  slotOp .sc (.scXor t d a b) (opScXor t d a b) s
/-- `SC_LOP3` (R127). -/
def execScLop3 (t : ITy) (d a b c : BitVec 6) (tab : BitVec 8) (s : State) : Host.Outcome State Fault Refusal :=
  slotOp .sc (.scLop3 t d a b c tab) (opScLop3 t d a b c tab) s
/-- `SC_SHL` (R127). -/
def execScShl (t : ITy) (d a : BitVec 6) (b : SrcB) (s : State) : Host.Outcome State Fault Refusal :=
  slotOp .sc (.scShl t d a b) (opScShl t d a b) s
/-- `SC_SHR` (R127). -/
def execScShr (t : ITy) (d a : BitVec 6) (b : SrcB) (s : State) : Host.Outcome State Fault Refusal :=
  slotOp .sc (.scShr t d a b) (opScShr t d a b) s
/-- `SC_SAR` (R127). -/
def execScSar (t : ITy) (d a : BitVec 6) (b : SrcB) (s : State) : Host.Outcome State Fault Refusal :=
  slotOp .sc (.scSar t d a b) (opScSar t d a b) s
/-- `SC_ROT` (R127). -/
def execScRot (t : ITy) (d a : BitVec 6) (b : SrcB) (s : State) : Host.Outcome State Fault Refusal :=
  slotOp .sc (.scRot t d a b) (opScRot t d a b) s
/-- `SC_MIN` (R127). -/
def execScMin (t : ITy) (d a : BitVec 6) (b : SrcB) (s : State) : Host.Outcome State Fault Refusal :=
  slotOp .sc (.scMin t d a b) (opScMin t d a b) s
/-- `SC_MAX` (R127). -/
def execScMax (t : ITy) (d a : BitVec 6) (b : SrcB) (s : State) : Host.Outcome State Fault Refusal :=
  slotOp .sc (.scMax t d a b) (opScMax t d a b) s
/-- `SC_CLZ` (R127). -/
def execScClz (t : ITy) (d a : BitVec 6) (s : State) : Host.Outcome State Fault Refusal :=
  slotOp .sc (.scClz t d a) (opScClz t d a) s
/-- `SC_POPC` (R127). -/
def execScPopc (t : ITy) (d a : BitVec 6) (s : State) : Host.Outcome State Fault Refusal :=
  slotOp .sc (.scPopc t d a) (opScPopc t d a) s
/-- `SC_SEL` (R127). -/
def execScSel (t : ITy) (d a b : BitVec 6) (p : BitVec 4) (neg : Bool) (s : State) : Host.Outcome State Fault Refusal :=
  slotOp .sc (.scSel t d a b p neg) (opScSel t d a b p neg) s
/-- `SC_CMP_EQ` (R46, R129). -/
def execScCmpEq (t : ITy) (d : CmpDst) (a : BitVec 6) (b : SrcB) (s : State) : Host.Outcome State Fault Refusal :=
  slotOp .sc (.scCmpEq t d a b) (opScCmpEq t d a b) s
/-- `SC_CMP_NE` (R46, R129). -/
def execScCmpNe (t : ITy) (d : CmpDst) (a : BitVec 6) (b : SrcB) (s : State) : Host.Outcome State Fault Refusal :=
  slotOp .sc (.scCmpNe t d a b) (opScCmpNe t d a b) s
/-- `SC_CMP_LT` (R46, R129). -/
def execScCmpLt (t : ITy) (d : CmpDst) (a : BitVec 6) (b : SrcB) (s : State) : Host.Outcome State Fault Refusal :=
  slotOp .sc (.scCmpLt t d a b) (opScCmpLt t d a b) s
/-- `SC_CMP_LE` (R46, R129). -/
def execScCmpLe (t : ITy) (d : CmpDst) (a : BitVec 6) (b : SrcB) (s : State) : Host.Outcome State Fault Refusal :=
  slotOp .sc (.scCmpLe t d a b) (opScCmpLe t d a b) s
/-- `SC_CMP_GT` (R46, R129). -/
def execScCmpGt (t : ITy) (d : CmpDst) (a : BitVec 6) (b : SrcB) (s : State) : Host.Outcome State Fault Refusal :=
  slotOp .sc (.scCmpGt t d a b) (opScCmpGt t d a b) s
/-- `SC_CMP_GE` (R46, R129). -/
def execScCmpGe (t : ITy) (d : CmpDst) (a : BitVec 6) (b : SrcB) (s : State) : Host.Outcome State Fault Refusal :=
  slotOp .sc (.scCmpGe t d a b) (opScCmpGe t d a b) s
/-- `LI` (R130). -/
def execLi (d : BitVec 6) (imm : BitVec 22) (s : State) : Host.Outcome State Fault Refusal :=
  slotOp .sc (.li d imm) (opLi d imm) s
/-- `LI_HI` (R130). -/
def execLiHi (d a : BitVec 6) (imm : BitVec 22) (s : State) : Host.Outcome State Fault Refusal :=
  slotOp .sc (.liHi d a imm) (opLiHi d a imm) s
/-- `LI_WIDE` (R28, R130). -/
def execLiWide (d : BitVec 6) (k : BitVec 3) (s : State) : Host.Outcome State Fault Refusal :=
  slotOp .sc (.liWide d k) (opLiWide d k) s
/-- `ADDS` (R131). -/
def execAdds (d a b : BitVec 6) (k : BitVec 3) (s : State) : Host.Outcome State Fault Refusal :=
  slotOp .sc (.adds d a b k) (opAdds d a b k) s
/-- `FADD` (R132, R133). -/
def execFadd (rm : BitVec 3) (d a b : BitVec 6) (s : State) : Host.Outcome State Fault Refusal :=
  slotOp .sc (.fadd rm d a b) (opFadd rm d a b) s
/-- `FMUL` (R132, R133). -/
def execFmul (rm : BitVec 3) (d a b : BitVec 6) (s : State) : Host.Outcome State Fault Refusal :=
  slotOp .sc (.fmul rm d a b) (opFmul rm d a b) s
/-- `SC_FMA` (R132, R133). -/
def execScFma (rm : BitVec 3) (d a b c : BitVec 6) (s : State) : Host.Outcome State Fault Refusal :=
  slotOp .sc (.scFma rm d a b c) (opScFma rm d a b c) s
/-- `FCMP` (R46, R132). -/
def execFcmp (cond rm : BitVec 3) (d : CmpDst) (a b : BitVec 6) (s : State) : Host.Outcome State Fault Refusal :=
  slotOp .sc (.fcmp cond rm d a b) (opFcmp cond rm d a b) s
/-- `SC_CVT` (R66, R134). -/
def execScCvt (tt src : BitVec 4) (rm : BitVec 3) (d a : BitVec 6) (s : State) : Host.Outcome State Fault Refusal :=
  slotOp .sc (.scCvt tt src rm d a) (opScCvt tt src rm d a) s
/-- `SC_MOV` (R125, R135, R136, R228). -/
def execScMov (d : MovDst) (a : BitVec 6) (s : State) : Host.Outcome State Fault Refusal :=
  slotOp .sc (.scMov d a) (opScMov d a) s
/-- `SC_SPL` (R137). -/
def execScSpl (a : BitVec 6) (k : BitVec 10) (s : State) : Host.Outcome State Fault Refusal :=
  slotOp .sc (.scSpl a k) (opScSpl a k) s
/-- `SC_FIL` (R137). -/
def execScFil (d : BitVec 6) (k : BitVec 10) (s : State) : Host.Outcome State Fault Refusal :=
  slotOp .sc (.scFil d k) (opScFil d k) s
/-- `RDC` (R138). -/
def execRdc (d : BitVec 6) (n : BitVec 8) (s : State) : Host.Outcome State Fault Refusal :=
  slotOp .sc (.rdc d n) (opRdc d n) s
/-- `WRC` (R138, R139). -/
def execWrc (n : BitVec 8) (a : BitVec 6) (s : State) : Host.Outcome State Fault Refusal :=
  slotOp .sc (.wrc n a) (opWrc n a) s
/-- `ERR_RD_TRAP` (R445). -/
def execErrRdTrap (d a : BitVec 6) (s : State) : Host.Outcome State Fault Refusal :=
  slotOp .sc (.errRdTrap d a) (opErrRdTrap d a) s
/-- `ERR_RD_LOG` (R445). -/
def execErrRdLog (d a : BitVec 6) (s : State) : Host.Outcome State Fault Refusal :=
  slotOp .sc (.errRdLog d a) (opErrRdLog d a) s
/-- `CTX_STAT` (R429, R445). -/
def execCtxStat (d a : BitVec 6) (s : State) : Host.Outcome State Fault Refusal :=
  slotOp .sc (.ctxStat d a) (opCtxStat d a) s
/-- `SC_NOP` (R32). -/
def execScNop (s : State) : Host.Outcome State Fault Refusal := slotOp .sc .scNop (fun _ => {}) s

end Sys2Proof.Machine
end

