-- ==== Sys2Proof/Machine/Sync.lean ====
section
/-! DEFINITION. The meanings of the SY instructions (R193 to R219). -/

namespace Sys2Proof.Machine

/-- `NB_INIT` (R209, R216). -/
def execNbInit (b : BitVec 6) (n : BitVec 10) (s : State) : Host.Outcome State Fault Refusal :=
  slotOp .sy (.nbInit b n) (opNbInit b n) s
/-- `NB_EXP` (R216). -/
def execNbExp (b sn : BitVec 6) (s : State) : Host.Outcome State Fault Refusal :=
  slotOp .sy (.nbExp b sn) (opNbExp b sn) s
/-- `NB_ARR` (R202, R208, R216). -/
def execNbArr (b : BitVec 6) (peer : Option (BitVec 2)) (s : State) : Host.Outcome State Fault Refusal :=
  slotOp .sy (.nbArr b peer) (opNbArr b peer) s
/-- `NB_WAIT` (R202, R208, R216). -/
def execNbWait (b : BitVec 6) (q : Bool) (s : State) : Host.Outcome State Fault Refusal :=
  slotOp .sy (.nbWait b q) (opNbWait b q) s
/-- `NB_STAT` (R216). -/
def execNbStat (d b : BitVec 6) (sel : Bool) (s : State) : Host.Outcome State Fault Refusal :=
  slotOp .sy (.nbStat d b sel) (opNbStat d b sel) s
/-- `TL_WAIT` (R204, R217). -/
def execTlWait (e : BitVec 3) (k : Bool) (r : BitVec 6) (s : State) : Host.Outcome State Fault Refusal :=
  slotOp .sy (.tlWait e k r) (opTlWait e k r) s
/-- `TL_READ` (R217). -/
def execTlRead (d : BitVec 6) (e : BitVec 3) (sel : BitVec 2) (s : State) : Host.Outcome State Fault Refusal :=
  slotOp .sy (.tlRead d e sel) (opTlRead d e sel) s
/-- `INV_L1` (R218). -/
def execInvL1 (rg : Option (BitVec 6 × BitVec 14)) (s : State) : Host.Outcome State Fault Refusal :=
  slotOp .sy (.invL1 rg) (opInvL1 rg) s
/-- `WB_L1` (R218). -/
def execWbL1 (rg : Option (BitVec 6 × BitVec 14)) (s : State) : Host.Outcome State Fault Refusal :=
  slotOp .sy (.wbL1 rg) (opWbL1 rg) s
/-- `H_BIND` (R174, R211, R219). -/
def execHBind (h : BitVec 5) (sn : BitVec 6) (s : State) : Host.Outcome State Fault Refusal :=
  slotOp .sy (.hBind h sn) (opHBind h sn) s
/-- `H_ADVC` (R174, R210, R219). -/
def execHAdvc (h : BitVec 5) (k : BitVec 14) (s : State) : Host.Outcome State Fault Refusal :=
  slotOp .sy (.hAdvc h k) (opHAdvc h k) s
/-- `H_ADVP` (R174, R210, R219). -/
def execHAdvp (h : BitVec 5) (k : BitVec 14) (s : State) : Host.Outcome State Fault Refusal :=
  slotOp .sy (.hAdvp h k) (opHAdvp h k) s
/-- `H_STAT` (R219). -/
def execHStat (d : BitVec 6) (h : BitVec 5) (sel : Bool) (s : State) : Host.Outcome State Fault Refusal :=
  slotOp .sy (.hStat d h sel) (opHStat d h sel) s
/-- `DRAIN` (R196, R198, R202, R220). -/
def execDrain (sc : BitVec 3) (s : State) : Host.Outcome State Fault Refusal :=
  slotOp .sy (.drain sc) (opDrain sc) s
/-- `FENCE` (R197, R198, R202, R220). -/
def execFence (sc : BitVec 3) (s : State) : Host.Outcome State Fault Refusal :=
  slotOp .sy (.fence sc) (opFence sc) s
/-- `SY_NOP` (R32). -/
def execSyNop (s : State) : Host.Outcome State Fault Refusal := slotOp .sy .syNop (fun _ => {}) s

end Sys2Proof.Machine
end

