-- ==== Sys2Proof/Machine/Vector.lean ====
section
/-! DEFINITION. The meanings of the VA and VB instructions (R141 to R169). -/

namespace Sys2Proof.Machine

/-- `V_ADD` (R148, R151). -/
def execVAdd (h : VH) (t : BitVec 4) (d a b : BitVec 9) (rm : BitVec 3) (sat : Bool) (s : State) : Host.Outcome State Fault Refusal :=
  slotOp (Sys2Proof.vSlot h.f) (.vAdd h t d a b rm sat) (opVAdd h t d a b rm sat) s
/-- `V_SUB` (R148, R151). -/
def execVSub (h : VH) (t : BitVec 4) (d a b : BitVec 9) (rm : BitVec 3) (sat : Bool) (s : State) : Host.Outcome State Fault Refusal :=
  slotOp (Sys2Proof.vSlot h.f) (.vSub h t d a b rm sat) (opVSub h t d a b rm sat) s
/-- `V_MUL` (R148, R151). -/
def execVMul (h : VH) (t : BitVec 4) (d a b : BitVec 9) (rm : BitVec 3) (sat : Bool) (s : State) : Host.Outcome State Fault Refusal :=
  slotOp (Sys2Proof.vSlot h.f) (.vMul h t d a b rm sat) (opVMul h t d a b rm sat) s
/-- `V_MULH` (R151). -/
def execVMulh (h : VH) (t : BitVec 4) (d a b : BitVec 9) (s : State) : Host.Outcome State Fault Refusal :=
  slotOp (Sys2Proof.vSlot h.f) (.vMulh h t d a b) (opVMulh h t d a b) s
/-- `V_FMA` (R148, R151). -/
def execVFma (h : VH) (t : BitVec 4) (d a b c : BitVec 9) (rm : BitVec 3) (s : State) : Host.Outcome State Fault Refusal :=
  slotOp (Sys2Proof.vSlot h.f) (.vFma h t d a b c rm) (opVFma h t d a b c rm) s
/-- `V_FMS` (R148, R151). -/
def execVFms (h : VH) (t : BitVec 4) (d a b c : BitVec 9) (rm : BitVec 3) (s : State) : Host.Outcome State Fault Refusal :=
  slotOp (Sys2Proof.vSlot h.f) (.vFms h t d a b c rm) (opVFms h t d a b c rm) s
/-- `V_FNMA` (R148, R151). -/
def execVFnma (h : VH) (t : BitVec 4) (d a b c : BitVec 9) (rm : BitVec 3) (s : State) : Host.Outcome State Fault Refusal :=
  slotOp (Sys2Proof.vSlot h.f) (.vFnma h t d a b c rm) (opVFnma h t d a b c rm) s
/-- `V_MIN` (R151). -/
def execVMin (h : VH) (t : BitVec 4) (d a b : BitVec 9) (rm : BitVec 3) (s : State) : Host.Outcome State Fault Refusal :=
  slotOp (Sys2Proof.vSlot h.f) (.vMin h t d a b rm) (opVMin h t d a b rm) s
/-- `V_MAX` (R151). -/
def execVMax (h : VH) (t : BitVec 4) (d a b : BitVec 9) (rm : BitVec 3) (s : State) : Host.Outcome State Fault Refusal :=
  slotOp (Sys2Proof.vSlot h.f) (.vMax h t d a b rm) (opVMax h t d a b rm) s
/-- `V_ABS` (R151). -/
def execVAbs (h : VH) (t : BitVec 4) (d a : BitVec 9) (rm : BitVec 3) (s : State) : Host.Outcome State Fault Refusal :=
  slotOp (Sys2Proof.vSlot h.f) (.vAbs h t d a rm) (opVAbs h t d a rm) s
/-- `V_NEG` (R151). -/
def execVNeg (h : VH) (t : BitVec 4) (d a : BitVec 9) (rm : BitVec 3) (s : State) : Host.Outcome State Fault Refusal :=
  slotOp (Sys2Proof.vSlot h.f) (.vNeg h t d a rm) (opVNeg h t d a rm) s
/-- `V_RCP` (R148, R152). -/
def execVRcp (h : VH) (t : BitVec 4) (d a : BitVec 9) (rm : BitVec 3) (s : State) : Host.Outcome State Fault Refusal :=
  slotOp (Sys2Proof.vSlot h.f) (.vRcp h t d a rm) (opVRcp h t d a rm) s
/-- `V_RSQ` (R148, R152). -/
def execVRsq (h : VH) (t : BitVec 4) (d a : BitVec 9) (rm : BitVec 3) (s : State) : Host.Outcome State Fault Refusal :=
  slotOp (Sys2Proof.vSlot h.f) (.vRsq h t d a rm) (opVRsq h t d a rm) s
/-- `V_EXP2` (R148, R152). -/
def execVExp2 (h : VH) (t : BitVec 4) (d a : BitVec 9) (rm : BitVec 3) (s : State) : Host.Outcome State Fault Refusal :=
  slotOp (Sys2Proof.vSlot h.f) (.vExp2 h t d a rm) (opVExp2 h t d a rm) s
/-- `V_LOG2` (R148, R152). -/
def execVLog2 (h : VH) (t : BitVec 4) (d a : BitVec 9) (rm : BitVec 3) (s : State) : Host.Outcome State Fault Refusal :=
  slotOp (Sys2Proof.vSlot h.f) (.vLog2 h t d a rm) (opVLog2 h t d a rm) s
/-- `V_TANH` (R152). -/
def execVTanh (h : VH) (t : BitVec 4) (d a : BitVec 9) (rm : BitVec 3) (s : State) : Host.Outcome State Fault Refusal :=
  slotOp (Sys2Proof.vSlot h.f) (.vTanh h t d a rm) (opVTanh h t d a rm) s
/-- `V_SILU` (R152). -/
def execVSilu (h : VH) (t : BitVec 4) (d a : BitVec 9) (rm : BitVec 3) (s : State) : Host.Outcome State Fault Refusal :=
  slotOp (Sys2Proof.vSlot h.f) (.vSilu h t d a rm) (opVSilu h t d a rm) s
/-- `V_SOFTPLUS` (R152). -/
def execVSoftplus (h : VH) (t : BitVec 4) (d a : BitVec 9) (rm : BitVec 3) (s : State) : Host.Outcome State Fault Refusal :=
  slotOp (Sys2Proof.vSlot h.f) (.vSoftplus h t d a rm) (opVSoftplus h t d a rm) s
/-- `V_AND` (R153). -/
def execVAnd (h : VH) (t : BitVec 4) (d a b : BitVec 9) (s : State) : Host.Outcome State Fault Refusal :=
  slotOp (Sys2Proof.vSlot h.f) (.vAnd h t d a b) (opVAnd h t d a b) s
/-- `V_OR` (R153). -/
def execVOr (h : VH) (t : BitVec 4) (d a b : BitVec 9) (s : State) : Host.Outcome State Fault Refusal :=
  slotOp (Sys2Proof.vSlot h.f) (.vOr h t d a b) (opVOr h t d a b) s
/-- `V_XOR` (R153). -/
def execVXor (h : VH) (t : BitVec 4) (d a b : BitVec 9) (s : State) : Host.Outcome State Fault Refusal :=
  slotOp (Sys2Proof.vSlot h.f) (.vXor h t d a b) (opVXor h t d a b) s
/-- `V_LOP3` (R153). -/
def execVLop3 (h : VH) (d a b c : BitVec 9) (tab : BitVec 8) (s : State) : Host.Outcome State Fault Refusal :=
  slotOp (Sys2Proof.vSlot h.f) (.vLop3 h d a b c tab) (opVLop3 h d a b c tab) s
/-- `V_SHL` (R153). -/
def execVShl (h : VH) (t : BitVec 4) (d a b : BitVec 9) (s : State) : Host.Outcome State Fault Refusal :=
  slotOp (Sys2Proof.vSlot h.f) (.vShl h t d a b) (opVShl h t d a b) s
/-- `V_SHR` (R153). -/
def execVShr (h : VH) (t : BitVec 4) (d a b : BitVec 9) (s : State) : Host.Outcome State Fault Refusal :=
  slotOp (Sys2Proof.vSlot h.f) (.vShr h t d a b) (opVShr h t d a b) s
/-- `V_SAR` (R153). -/
def execVSar (h : VH) (t : BitVec 4) (d a b : BitVec 9) (s : State) : Host.Outcome State Fault Refusal :=
  slotOp (Sys2Proof.vSlot h.f) (.vSar h t d a b) (opVSar h t d a b) s
/-- `V_CVT` (R62, R66, R154, R155, R156). -/
def execVCvt (h : VH) (src tt : BitVec 4) (d a : BitVec 9) (q : BitVec 5) (rm : BitVec 3) (s : State) : Host.Outcome State Fault Refusal :=
  slotOp (Sys2Proof.vSlot h.f) (.vCvt h src tt d a q rm) (opVCvt h src tt d a q rm) s
/-- `V_CMP_EQ` (R146, R157). -/
def execVCmpEq (h : VH) (t : BitVec 4) (d : BitVec 4) (a b : BitVec 9) (rm : BitVec 3) (s : State) : Host.Outcome State Fault Refusal :=
  slotOp (Sys2Proof.vSlot h.f) (.vCmpEq h t d a b rm) (opVCmpEq h t d a b rm) s
/-- `V_CMP_NE` (R146, R157). -/
def execVCmpNe (h : VH) (t : BitVec 4) (d : BitVec 4) (a b : BitVec 9) (rm : BitVec 3) (s : State) : Host.Outcome State Fault Refusal :=
  slotOp (Sys2Proof.vSlot h.f) (.vCmpNe h t d a b rm) (opVCmpNe h t d a b rm) s
/-- `V_CMP_LT` (R146, R157). -/
def execVCmpLt (h : VH) (t : BitVec 4) (d : BitVec 4) (a b : BitVec 9) (rm : BitVec 3) (s : State) : Host.Outcome State Fault Refusal :=
  slotOp (Sys2Proof.vSlot h.f) (.vCmpLt h t d a b rm) (opVCmpLt h t d a b rm) s
/-- `V_CMP_LE` (R146, R157). -/
def execVCmpLe (h : VH) (t : BitVec 4) (d : BitVec 4) (a b : BitVec 9) (rm : BitVec 3) (s : State) : Host.Outcome State Fault Refusal :=
  slotOp (Sys2Proof.vSlot h.f) (.vCmpLe h t d a b rm) (opVCmpLe h t d a b rm) s
/-- `V_CMP_GT` (R146, R157). -/
def execVCmpGt (h : VH) (t : BitVec 4) (d : BitVec 4) (a b : BitVec 9) (rm : BitVec 3) (s : State) : Host.Outcome State Fault Refusal :=
  slotOp (Sys2Proof.vSlot h.f) (.vCmpGt h t d a b rm) (opVCmpGt h t d a b rm) s
/-- `V_CMP_GE` (R146, R157). -/
def execVCmpGe (h : VH) (t : BitVec 4) (d : BitVec 4) (a b : BitVec 9) (rm : BitVec 3) (s : State) : Host.Outcome State Fault Refusal :=
  slotOp (Sys2Proof.vSlot h.f) (.vCmpGe h t d a b rm) (opVCmpGe h t d a b rm) s
/-- `V_CMP_UN` (R146, R157). -/
def execVCmpUn (h : VH) (t : BitVec 4) (d : BitVec 4) (a b : BitVec 9) (rm : BitVec 3) (s : State) : Host.Outcome State Fault Refusal :=
  slotOp (Sys2Proof.vSlot h.f) (.vCmpUn h t d a b rm) (opVCmpUn h t d a b rm) s
/-- `V_CMP_EQ_U` (R158). -/
def execVCmpEqU (h : VH) (t : BitVec 4) (a b : BitVec 9) (rm : BitVec 3) (s : State) : Host.Outcome State Fault Refusal :=
  slotOp (Sys2Proof.vSlot h.f) (.vCmpEqU h t a b rm) (opVCmpEqU h t a b rm) s
/-- `V_CMP_NE_U` (R158). -/
def execVCmpNeU (h : VH) (t : BitVec 4) (a b : BitVec 9) (rm : BitVec 3) (s : State) : Host.Outcome State Fault Refusal :=
  slotOp (Sys2Proof.vSlot h.f) (.vCmpNeU h t a b rm) (opVCmpNeU h t a b rm) s
/-- `V_CMP_LT_U` (R158). -/
def execVCmpLtU (h : VH) (t : BitVec 4) (a b : BitVec 9) (rm : BitVec 3) (s : State) : Host.Outcome State Fault Refusal :=
  slotOp (Sys2Proof.vSlot h.f) (.vCmpLtU h t a b rm) (opVCmpLtU h t a b rm) s
/-- `V_CMP_LE_U` (R158). -/
def execVCmpLeU (h : VH) (t : BitVec 4) (a b : BitVec 9) (rm : BitVec 3) (s : State) : Host.Outcome State Fault Refusal :=
  slotOp (Sys2Proof.vSlot h.f) (.vCmpLeU h t a b rm) (opVCmpLeU h t a b rm) s
/-- `V_CMP_GT_U` (R158). -/
def execVCmpGtU (h : VH) (t : BitVec 4) (a b : BitVec 9) (rm : BitVec 3) (s : State) : Host.Outcome State Fault Refusal :=
  slotOp (Sys2Proof.vSlot h.f) (.vCmpGtU h t a b rm) (opVCmpGtU h t a b rm) s
/-- `V_CMP_GE_U` (R158). -/
def execVCmpGeU (h : VH) (t : BitVec 4) (a b : BitVec 9) (rm : BitVec 3) (s : State) : Host.Outcome State Fault Refusal :=
  slotOp (Sys2Proof.vSlot h.f) (.vCmpGeU h t a b rm) (opVCmpGeU h t a b rm) s
/-- `V_CMP_UN_U` (R158). -/
def execVCmpUnU (h : VH) (t : BitVec 4) (a b : BitVec 9) (rm : BitVec 3) (s : State) : Host.Outcome State Fault Refusal :=
  slotOp (Sys2Proof.vSlot h.f) (.vCmpUnU h t a b rm) (opVCmpUnU h t a b rm) s
/-- `V_SEL` (R160). -/
def execVSel (h : VH) (t : BitVec 4) (d a b : BitVec 9) (ms : BitVec 4) (s : State) : Host.Outcome State Fault Refusal :=
  slotOp (Sys2Proof.vSlot h.f) (.vSel h t d a b ms) (opVSel h t d a b ms) s
/-- `V_PERM` (R161). -/
def execVPerm (h : VH) (t : BitVec 4) (d a b c : BitVec 9) (s : State) : Host.Outcome State Fault Refusal :=
  slotOp (Sys2Proof.vSlot h.f) (.vPerm h t d a b c) (opVPerm h t d a b c) s
/-- `V_SHUF` (R162). -/
def execVShuf (h : VH) (t : BitVec 4) (pat : BitVec 3) (d a b k : BitVec 9) (s : State) : Host.Outcome State Fault Refusal :=
  slotOp (Sys2Proof.vSlot h.f) (.vShuf h t pat d a b k) (opVShuf h t pat d a b k) s
/-- `V_BCAST` (R163). -/
def execVBcast (h : VH) (t : BitVec 4) (d a k : BitVec 9) (s : State) : Host.Outcome State Fault Refusal :=
  slotOp (Sys2Proof.vSlot h.f) (.vBcast h t d a k) (opVBcast h t d a k) s
/-- `V_IOTA` (R164). -/
def execVIota (h : VH) (t : BitVec 4) (d : BitVec 9) (s : State) : Host.Outcome State Fault Refusal :=
  slotOp (Sys2Proof.vSlot h.f) (.vIota h t d) (opVIota h t d) s
/-- `V_ANY` (R159). -/
def execVAny (h : VH) (t : BitVec 4) (ms : BitVec 4) (s : State) : Host.Outcome State Fault Refusal :=
  slotOp (Sys2Proof.vSlot h.f) (.vAny h t ms) (opVAny h t ms) s
/-- `V_ALL` (R159). -/
def execVAll (h : VH) (t : BitVec 4) (ms : BitVec 4) (s : State) : Host.Outcome State Fault Refusal :=
  slotOp (Sys2Proof.vSlot h.f) (.vAll h t ms) (opVAll h t ms) s
/-- `V_MOV` (R166). -/
def execVMov (h : VH) (d a : BitVec 9) (s : State) : Host.Outcome State Fault Refusal :=
  slotOp (Sys2Proof.vSlot h.f) (.vMov h d a) (opVMov h d a) s
/-- `V_MOV_CROSS` (R125, R166). -/
def execVMovCross (h : VH) (d a : BitVec 9) (s : State) : Host.Outcome State Fault Refusal :=
  slotOp (Sys2Proof.vSlot h.f) (.vMovCross h d a) (opVMovCross h d a) s
/-- `V_MOV_TO_SCALAR` (R125, R166). -/
def execVMovToScalar (f : VFile) (w : VW) (d : BitVec 6) (a e : BitVec 9) (s : State) : Host.Outcome State Fault Refusal :=
  slotOp (Sys2Proof.vSlot f) (.vMovToScalar f w d a e) (opVMovToScalar f w d a e) s
/-- `V_MOV_MASK` (R166). -/
def execVMovMask (f : VFile) (d a : BitVec 4) (s : State) : Host.Outcome State Fault Refusal :=
  slotOp (Sys2Proof.vSlot f) (.vMovMask f d a) (opVMovMask f d a) s
/-- `V_MOV_MASK_CROSS` (R166). -/
def execVMovMaskCross (f : VFile) (d a : BitVec 4) (s : State) : Host.Outcome State Fault Refusal :=
  slotOp (Sys2Proof.vSlot f) (.vMovMaskCross f d a) (opVMovMaskCross f d a) s
/-- `MOV_IX_GET` (R167). -/
def execMovIxGet (h : VH) (d : BitVec 9) (sn : BitVec 6) (s : State) : Host.Outcome State Fault Refusal :=
  slotOp (Sys2Proof.vSlot h.f) (.movIxGet h d sn) (opMovIxGet h d sn) s
/-- `MOV_IX_PUT` (R167). -/
def execMovIxPut (h : VH) (a : BitVec 9) (sn : BitVec 6) (s : State) : Host.Outcome State Fault Refusal :=
  slotOp (Sys2Proof.vSlot h.f) (.movIxPut h a sn) (opMovIxPut h a sn) s
/-- `V_SPL` (R168). -/
def execVSpl (f : VFile) (w : VW) (a : BitVec 9) (k : BitVec 6) (s : State) : Host.Outcome State Fault Refusal :=
  slotOp (Sys2Proof.vSlot f) (.vSpl f w a k) (opVSpl f w a k) s
/-- `V_FIL` (R168). -/
def execVFil (h : VH) (d : BitVec 9) (k : BitVec 6) (s : State) : Host.Outcome State Fault Refusal :=
  slotOp (Sys2Proof.vSlot h.f) (.vFil h d k) (opVFil h d k) s
/-- `V_NOP` (R32). -/
def execVNop (s : State) : Host.Outcome State Fault Refusal := slotOp .va .vNop (fun _ => {}) s

end Sys2Proof.Machine
end

