-- ==== Sys2Proof/Machine/Dispatch.lean ====
section
/-! DEFINITION. The meaning of every instruction of the opcode table, arm by arm. -/

namespace Sys2Proof.Machine

/-- What an instruction does. -/
def exec (i : Instr) (s : State) : Host.Outcome State Fault Refusal :=
  match i with
  | .br t => Sys2Proof.Machine.execBr t s
  | .brc t f => Sys2Proof.Machine.execBrc t f s
  | .jmp t k => Sys2Proof.Machine.execJmp t k s
  | .call t => Sys2Proof.Machine.execCall t s
  | .loop len1 lvl set n => Sys2Proof.Machine.execLoop len1 lvl set n s
  | .lpCnt v k p => Sys2Proof.Machine.execLpCnt v k p s
  | .lpIdx v k => Sys2Proof.Machine.execLpIdx v k s
  | .lpStr step start set => Sys2Proof.Machine.execLpStr step start set s
  | .kpSet m p => Sys2Proof.Machine.execKpSet m p s
  | .kpClr m p => Sys2Proof.Machine.execKpClr m p s
  | .yield run => Sys2Proof.Machine.execYield run s
  | .fmtLo v => Sys2Proof.Machine.execFmtLo v s
  | .fmtHi v => Sys2Proof.Machine.execFmtHi v s
  | .rwp r x => Sys2Proof.Machine.execRwp r x s
  | .pri n => Sys2Proof.Machine.execPri n s
  | .cqPush p neg => Sys2Proof.Machine.execCqPush p neg s
  | .cqDepth d => Sys2Proof.Machine.execCqDepth d s
  | .scAdd t d a b => Sys2Proof.Machine.execScAdd t d a b s
  | .scSub t d a b => Sys2Proof.Machine.execScSub t d a b s
  | .scMul t d a b => Sys2Proof.Machine.execScMul t d a b s
  | .scMulh t d a b => Sys2Proof.Machine.execScMulh t d a b s
  | .scDiv t d a b => Sys2Proof.Machine.execScDiv t d a b s
  | .scRem t d a b => Sys2Proof.Machine.execScRem t d a b s
  | .scAnd t d a b => Sys2Proof.Machine.execScAnd t d a b s
  | .scOr t d a b => Sys2Proof.Machine.execScOr t d a b s
  | .scXor t d a b => Sys2Proof.Machine.execScXor t d a b s
  | .scLop3 t d a b c tab => Sys2Proof.Machine.execScLop3 t d a b c tab s
  | .scShl t d a b => Sys2Proof.Machine.execScShl t d a b s
  | .scShr t d a b => Sys2Proof.Machine.execScShr t d a b s
  | .scSar t d a b => Sys2Proof.Machine.execScSar t d a b s
  | .scRot t d a b => Sys2Proof.Machine.execScRot t d a b s
  | .scMin t d a b => Sys2Proof.Machine.execScMin t d a b s
  | .scMax t d a b => Sys2Proof.Machine.execScMax t d a b s
  | .scClz t d a => Sys2Proof.Machine.execScClz t d a s
  | .scPopc t d a => Sys2Proof.Machine.execScPopc t d a s
  | .scSel t d a b p neg => Sys2Proof.Machine.execScSel t d a b p neg s
  | .scCmpEq t d a b => Sys2Proof.Machine.execScCmpEq t d a b s
  | .scCmpNe t d a b => Sys2Proof.Machine.execScCmpNe t d a b s
  | .scCmpLt t d a b => Sys2Proof.Machine.execScCmpLt t d a b s
  | .scCmpLe t d a b => Sys2Proof.Machine.execScCmpLe t d a b s
  | .scCmpGt t d a b => Sys2Proof.Machine.execScCmpGt t d a b s
  | .scCmpGe t d a b => Sys2Proof.Machine.execScCmpGe t d a b s
  | .li d imm => Sys2Proof.Machine.execLi d imm s
  | .liHi d a imm => Sys2Proof.Machine.execLiHi d a imm s
  | .liWide d k => Sys2Proof.Machine.execLiWide d k s
  | .adds d a b k => Sys2Proof.Machine.execAdds d a b k s
  | .fadd rm d a b => Sys2Proof.Machine.execFadd rm d a b s
  | .fmul rm d a b => Sys2Proof.Machine.execFmul rm d a b s
  | .scFma rm d a b c => Sys2Proof.Machine.execScFma rm d a b c s
  | .fcmp cond rm d a b => Sys2Proof.Machine.execFcmp cond rm d a b s
  | .scCvt tt src rm d a => Sys2Proof.Machine.execScCvt tt src rm d a s
  | .scMov d a => Sys2Proof.Machine.execScMov d a s
  | .scSpl a k => Sys2Proof.Machine.execScSpl a k s
  | .scFil d k => Sys2Proof.Machine.execScFil d k s
  | .rdc d n => Sys2Proof.Machine.execRdc d n s
  | .wrc n a => Sys2Proof.Machine.execWrc n a s
  | .errRdTrap d a => Sys2Proof.Machine.execErrRdTrap d a s
  | .errRdLog d a => Sys2Proof.Machine.execErrRdLog d a s
  | .ctxStat d a => Sys2Proof.Machine.execCtxStat d a s
  | .vAdd h t d a b rm sat => Sys2Proof.Machine.execVAdd h t d a b rm sat s
  | .vSub h t d a b rm sat => Sys2Proof.Machine.execVSub h t d a b rm sat s
  | .vMul h t d a b rm sat => Sys2Proof.Machine.execVMul h t d a b rm sat s
  | .vMulh h t d a b => Sys2Proof.Machine.execVMulh h t d a b s
  | .vFma h t d a b c rm => Sys2Proof.Machine.execVFma h t d a b c rm s
  | .vFms h t d a b c rm => Sys2Proof.Machine.execVFms h t d a b c rm s
  | .vFnma h t d a b c rm => Sys2Proof.Machine.execVFnma h t d a b c rm s
  | .vMin h t d a b rm => Sys2Proof.Machine.execVMin h t d a b rm s
  | .vMax h t d a b rm => Sys2Proof.Machine.execVMax h t d a b rm s
  | .vAbs h t d a rm => Sys2Proof.Machine.execVAbs h t d a rm s
  | .vNeg h t d a rm => Sys2Proof.Machine.execVNeg h t d a rm s
  | .vRcp h t d a rm => Sys2Proof.Machine.execVRcp h t d a rm s
  | .vRsq h t d a rm => Sys2Proof.Machine.execVRsq h t d a rm s
  | .vExp2 h t d a rm => Sys2Proof.Machine.execVExp2 h t d a rm s
  | .vLog2 h t d a rm => Sys2Proof.Machine.execVLog2 h t d a rm s
  | .vTanh h t d a rm => Sys2Proof.Machine.execVTanh h t d a rm s
  | .vSilu h t d a rm => Sys2Proof.Machine.execVSilu h t d a rm s
  | .vSoftplus h t d a rm => Sys2Proof.Machine.execVSoftplus h t d a rm s
  | .vAnd h t d a b => Sys2Proof.Machine.execVAnd h t d a b s
  | .vOr h t d a b => Sys2Proof.Machine.execVOr h t d a b s
  | .vXor h t d a b => Sys2Proof.Machine.execVXor h t d a b s
  | .vLop3 h d a b c tab => Sys2Proof.Machine.execVLop3 h d a b c tab s
  | .vShl h t d a b => Sys2Proof.Machine.execVShl h t d a b s
  | .vShr h t d a b => Sys2Proof.Machine.execVShr h t d a b s
  | .vSar h t d a b => Sys2Proof.Machine.execVSar h t d a b s
  | .vCvt h src tt d a q rm => Sys2Proof.Machine.execVCvt h src tt d a q rm s
  | .vCmpEq h t d a b rm => Sys2Proof.Machine.execVCmpEq h t d a b rm s
  | .vCmpNe h t d a b rm => Sys2Proof.Machine.execVCmpNe h t d a b rm s
  | .vCmpLt h t d a b rm => Sys2Proof.Machine.execVCmpLt h t d a b rm s
  | .vCmpLe h t d a b rm => Sys2Proof.Machine.execVCmpLe h t d a b rm s
  | .vCmpGt h t d a b rm => Sys2Proof.Machine.execVCmpGt h t d a b rm s
  | .vCmpGe h t d a b rm => Sys2Proof.Machine.execVCmpGe h t d a b rm s
  | .vCmpUn h t d a b rm => Sys2Proof.Machine.execVCmpUn h t d a b rm s
  | .vCmpEqU h t a b rm => Sys2Proof.Machine.execVCmpEqU h t a b rm s
  | .vCmpNeU h t a b rm => Sys2Proof.Machine.execVCmpNeU h t a b rm s
  | .vCmpLtU h t a b rm => Sys2Proof.Machine.execVCmpLtU h t a b rm s
  | .vCmpLeU h t a b rm => Sys2Proof.Machine.execVCmpLeU h t a b rm s
  | .vCmpGtU h t a b rm => Sys2Proof.Machine.execVCmpGtU h t a b rm s
  | .vCmpGeU h t a b rm => Sys2Proof.Machine.execVCmpGeU h t a b rm s
  | .vCmpUnU h t a b rm => Sys2Proof.Machine.execVCmpUnU h t a b rm s
  | .vSel h t d a b ms => Sys2Proof.Machine.execVSel h t d a b ms s
  | .vPerm h t d a b c => Sys2Proof.Machine.execVPerm h t d a b c s
  | .vShuf h t pat d a b k => Sys2Proof.Machine.execVShuf h t pat d a b k s
  | .vBcast h t d a k => Sys2Proof.Machine.execVBcast h t d a k s
  | .vIota h t d => Sys2Proof.Machine.execVIota h t d s
  | .vAny h t ms => Sys2Proof.Machine.execVAny h t ms s
  | .vAll h t ms => Sys2Proof.Machine.execVAll h t ms s
  | .vMov h d a => Sys2Proof.Machine.execVMov h d a s
  | .vMovCross h d a => Sys2Proof.Machine.execVMovCross h d a s
  | .vMovToScalar f w d a e => Sys2Proof.Machine.execVMovToScalar f w d a e s
  | .vMovMask f d a => Sys2Proof.Machine.execVMovMask f d a s
  | .vMovMaskCross f d a => Sys2Proof.Machine.execVMovMaskCross f d a s
  | .movIxGet h d sn => Sys2Proof.Machine.execMovIxGet h d sn s
  | .movIxPut h a sn => Sys2Proof.Machine.execMovIxPut h a sn s
  | .vSpl f w a k => Sys2Proof.Machine.execVSpl f w a k s
  | .vFil h d k => Sys2Proof.Machine.execVFil h d k s
  | .ldRow d a => Sys2Proof.Machine.execLdRow d a s
  | .ldRowChk d a => Sys2Proof.Machine.execLdRowChk d a s
  | .ldS d a => Sys2Proof.Machine.execLdS d a s
  | .ldH d a => Sys2Proof.Machine.execLdH d a s
  | .ldHChk d a => Sys2Proof.Machine.execLdHChk d a s
  | .ldg h cnt1 a => Sys2Proof.Machine.execLdg h cnt1 a s
  | .ldPr d a => Sys2Proof.Machine.execLdPr d a s
  | .ldSb d a => Sys2Proof.Machine.execLdSb d a s
  | .ldIdx d b k m => Sys2Proof.Machine.execLdIdx d b k m s
  | .ldBc d a => Sys2Proof.Machine.execLdBc d a s
  | .ldZ d a => Sys2Proof.Machine.execLdZ d a s
  | .ldAcq sc d a => Sys2Proof.Machine.execLdAcq sc d a s
  | .stRow v a => Sys2Proof.Machine.execStRow v a s
  | .stS n a => Sys2Proof.Machine.execStS n a s
  | .stH v a => Sys2Proof.Machine.execStH v a s
  | .stg v a => Sys2Proof.Machine.execStg v a s
  | .stNt v a => Sys2Proof.Machine.execStNt v a s
  | .stPr v a => Sys2Proof.Machine.execStPr v a s
  | .stSb v a => Sys2Proof.Machine.execStSb v a s
  | .stRel sc v a => Sys2Proof.Machine.execStRel sc v a s
  | .aadd gl w64 r a => Sys2Proof.Machine.execAadd gl w64 r a s
  | .amin gl w64 r a => Sys2Proof.Machine.execAmin gl w64 r a s
  | .amax gl w64 r a => Sys2Proof.Machine.execAmax gl w64 r a s
  | .axch gl w64 r a => Sys2Proof.Machine.execAxch gl w64 r a s
  | .acas gl w64 r a => Sys2Proof.Machine.execAcas gl w64 r a s
  | .aand gl w64 r a => Sys2Proof.Machine.execAand gl w64 r a s
  | .aor gl w64 r a => Sys2Proof.Machine.execAor gl w64 r a s
  | .axor gl w64 r a => Sys2Proof.Machine.execAxor gl w64 r a s
  | .nbInit b n => Sys2Proof.Machine.execNbInit b n s
  | .nbExp b sn => Sys2Proof.Machine.execNbExp b sn s
  | .nbArr b peer => Sys2Proof.Machine.execNbArr b peer s
  | .nbWait b q => Sys2Proof.Machine.execNbWait b q s
  | .nbStat d b sel => Sys2Proof.Machine.execNbStat d b sel s
  | .tlWait e k r => Sys2Proof.Machine.execTlWait e k r s
  | .tlRead d e sel => Sys2Proof.Machine.execTlRead d e sel s
  | .invL1 rg => Sys2Proof.Machine.execInvL1 rg s
  | .wbL1 rg => Sys2Proof.Machine.execWbL1 rg s
  | .hBind h sn => Sys2Proof.Machine.execHBind h sn s
  | .hAdvc h k => Sys2Proof.Machine.execHAdvc h k s
  | .hAdvp h k => Sys2Proof.Machine.execHAdvp h k s
  | .hStat d h sel => Sys2Proof.Machine.execHStat d h sel s
  | .drain sc => Sys2Proof.Machine.execDrain sc s
  | .fence sc => Sys2Proof.Machine.execFence sc s
  | .xfCvt tt src d a q tile => Sys2Proof.Machine.execXfCvt tt src d a q tile s
  | .xfTr e d a => Sys2Proof.Machine.execXfTr e d a s
  | .xfExpZr d a => Sys2Proof.Machine.execXfExpZr d a s
  | .xfExpSp24 e d a => Sys2Proof.Machine.execXfExpSp24 e d a s
  | .xfPack e d a => Sys2Proof.Machine.execXfPack e d a s
  | .xfRot d a b k => Sys2Proof.Machine.execXfRot d a b k s
  | .xfScl t v rm d a b => Sys2Proof.Machine.execXfScl t v rm d a b s
  | .xfColW d b => Sys2Proof.Machine.execXfColW d b s
  | .xfColChk t a => Sys2Proof.Machine.execXfColChk t a s
  | .xfColRd d a => Sys2Proof.Machine.execXfColRd d a s
  | .xfSwz d a sh k => Sys2Proof.Machine.execXfSwz d a sh k s
  | .xfMvRow d a => Sys2Proof.Machine.execXfMvRow d a s
  | .xfMvScalar n a => Sys2Proof.Machine.execXfMvScalar n a s
  | .xfMvReg d a => Sys2Proof.Machine.execXfMvReg d a s
  | .rdAdd l a t fold => Sys2Proof.Machine.execRdAdd l a t fold s
  | .rdKadd l a t fold => Sys2Proof.Machine.execRdKadd l a t fold s
  | .rdMax l a t fold => Sys2Proof.Machine.execRdMax l a t fold s
  | .rdMin l a t fold => Sys2Proof.Machine.execRdMin l a t fold s
  | .rdAmax l a t fold => Sys2Proof.Machine.execRdAmax l a t fold s
  | .rdMv l mode t d k clr => Sys2Proof.Machine.execRdMv l mode t d k clr s
  | .rdClr m init t => Sys2Proof.Machine.execRdClr m init t s
  | .mma acc ws a rows t ovw chk => Sys2Proof.Machine.execMma acc ws a rows t ovw chk s
  | .mop acc ws a rows ovw => Sys2Proof.Machine.execMop acc ws a rows ovw s
  | .mldW ws a sp chk => Sys2Proof.Machine.execMldW ws a sp chk s
  | .mdrain acc a rows => Sys2Proof.Machine.execMdrain acc a rows s
  | .mrow acc f q mode im => Sys2Proof.Machine.execMrow acc f q mode im s
  | .mclr acc => Sys2Proof.Machine.execMclr acc s
  | .mqStat d => Sys2Proof.Machine.execMqStat d s
  | .mdist acc ws a rows t met tie pass chk => Sys2Proof.Machine.execMdist acc ws a rows t met tie pass chk s
  | .mbestClr rows => Sys2Proof.Machine.execMbestClr rows s
  | .mbestRd f q => Sys2Proof.Machine.execMbestRd f q s
  | .cupd p a rows => Sys2Proof.Machine.execCupd p a rows s
  | .cfin ws la z => Sys2Proof.Machine.execCfin ws la z s
  | .rwStat d => Sys2Proof.Machine.execRwStat d s
  | .rwLd img => Sys2Proof.Machine.execRwLd img s
  | .rwInv k => Sys2Proof.Machine.execRwInv k s
  | .cpy1d ca cb rep => Sys2Proof.Machine.execCpy1d ca cb rep s
  | .cpyNd ca cb rep => Sys2Proof.Machine.execCpyNd ca cb rep s
  | .cpyMc ca cb rep => Sys2Proof.Machine.execCpyMc ca cb rep s
  | .cpySnd ca cb rep => Sys2Proof.Machine.execCpySnd ca cb rep s
  | .cpyZrb ca cb rep => Sys2Proof.Machine.execCpyZrb ca cb rep s
  | .cpySp24 ca cb rep => Sys2Proof.Machine.execCpySp24 ca cb rep s
  | .cpyStrm ca cb rep => Sys2Proof.Machine.execCpyStrm ca cb rep s
  | .cpyStop ca rep => Sys2Proof.Machine.execCpyStop ca rep s
  | .cpyFill ca cb rep => Sys2Proof.Machine.execCpyFill ca cb rep s
  | .hndNew ca cd => Sys2Proof.Machine.execHndNew ca cd s
  | .hndFree ca rep => Sys2Proof.Machine.execHndFree ca rep s
  | .hndGen ca cd => Sys2Proof.Machine.execHndGen ca cd s
  | .frIn ca cb rep => Sys2Proof.Machine.execFrIn ca cb rep s
  | .frOut ca cb rep => Sys2Proof.Machine.execFrOut ca cb rep s
  | .frSwap ca cb rep => Sys2Proof.Machine.execFrSwap ca cb rep s
  | .frSnap ca cb rep => Sys2Proof.Machine.execFrSnap ca cb rep s
  | .frFork ca cb rep => Sys2Proof.Machine.execFrFork ca cb rep s
  | .frRoll ca cb rep => Sys2Proof.Machine.execFrRoll ca cb rep s
  | .frRel ca cb rep => Sys2Proof.Machine.execFrRel ca cb rep s
  | .frPin ca cb rep => Sys2Proof.Machine.execFrPin ca cb rep s
  | .frChk ca cb rep => Sys2Proof.Machine.execFrChk ca cb rep s
  | .frRes ca cb rep => Sys2Proof.Machine.execFrRes ca cb rep s
  | .scnDiag ca cb rep => Sys2Proof.Machine.execScnDiag ca cb rep s
  | .scnLin ca rep => Sys2Proof.Machine.execScnLin ca rep s
  | .scnCin ca rep => Sys2Proof.Machine.execScnCin ca rep s
  | .scnCout ca rep => Sys2Proof.Machine.execScnCout ca rep s
  | .scnFade ca rep => Sys2Proof.Machine.execScnFade ca rep s
  | .scnCfg ca rep => Sys2Proof.Machine.execScnCfg ca rep s
  | .smpRun ca cb rep => Sys2Proof.Machine.execSmpRun ca cb rep s
  | .smpShard ca cb rep => Sys2Proof.Machine.execSmpShard ca cb rep s
  | .smpMerge ca cb rep => Sys2Proof.Machine.execSmpMerge ca cb rep s
  | .nwStart ca cb rep => Sys2Proof.Machine.execNwStart ca cb rep s
  | .cmAcc ca cb rep => Sys2Proof.Machine.execCmAcc ca cb rep s
  | .cmEmit ca cb rep => Sys2Proof.Machine.execCmEmit ca cb rep s
  | .cmTrim ca cb rep => Sys2Proof.Machine.execCmTrim ca cb rep s
  | .fork t pol => Sys2Proof.Machine.execFork t pol s
  | .sync sn => Sys2Proof.Machine.execSync sn s
  | .wake t k c => Sys2Proof.Machine.execWake t k c s
  | .trap n => Sys2Proof.Machine.execTrap n s
  | .rfe sn => Sys2Proof.Machine.execRfe sn s
  | .sys n => Sys2Proof.Machine.execSys n s
  | .kill sn => Sys2Proof.Machine.execKill sn s
  | .tlbInvAll dev => Sys2Proof.Machine.execTlbInvAll dev s
  | .tlbInvFn f dev => Sys2Proof.Machine.execTlbInvFn f dev s
  | .tlbInvPg sn f dev => Sys2Proof.Machine.execTlbInvPg sn f dev s
  | .pgret sn d => Sys2Proof.Machine.execPgret sn d s
  | .wayq sn d => Sys2Proof.Machine.execWayq sn d s
  | .wayqRel sn d => Sys2Proof.Machine.execWayqRel sn d s
  | .hold sn => Sys2Proof.Machine.execHold sn s
  | .holdRel sn => Sys2Proof.Machine.execHoldRel sn s
  | .skippedBundle => Sys2Proof.Machine.execSkippedBundle s
  | .ctNop => Sys2Proof.Machine.execCtNop s
  | .ret => Sys2Proof.Machine.execRet s
  | .halt => Sys2Proof.Machine.execHalt s
  | .cqFlush => Sys2Proof.Machine.execCqFlush s
  | .wdog => Sys2Proof.Machine.execWdog s
  | .scNop => Sys2Proof.Machine.execScNop s
  | .vNop => Sys2Proof.Machine.execVNop s
  | .ldNop => Sys2Proof.Machine.execLdNop s
  | .stNop => Sys2Proof.Machine.execStNop s
  | .syNop => Sys2Proof.Machine.execSyNop s
  | .xfNop => Sys2Proof.Machine.execXfNop s
  | .xfColClr => Sys2Proof.Machine.execXfColClr s
  | .rdNop => Sys2Proof.Machine.execRdNop s
  | .mxNop => Sys2Proof.Machine.execMxNop s
  | .mwait => Sys2Proof.Machine.execMwait s
  | .rwSup => Sys2Proof.Machine.execRwSup s
  | .rwEn => Sys2Proof.Machine.execRwEn s
  | .rwDis => Sys2Proof.Machine.execRwDis s
  | .rwInvAll => Sys2Proof.Machine.execRwInvAll s
  | .cpNop => Sys2Proof.Machine.execCpNop s
  | .cpyClr => Sys2Proof.Machine.execCpyClr s
  | .binderyInitDone => Sys2Proof.Machine.execBinderyInitDone s
  | .sleep => Sys2Proof.Machine.execSleep s
  | .hintNext => Sys2Proof.Machine.execHintNext s
  | .waitPred => Sys2Proof.Machine.execWaitPred s
  | .imgGo => Sys2Proof.Machine.execImgGo s
  | .imageInstallDone => Sys2Proof.Machine.execImageInstallDone s
  | .secRaiseMeasured => Sys2Proof.Machine.execSecRaiseMeasured s
  | .secRaiseSealed => Sys2Proof.Machine.execSecRaiseSealed s
  | .dbgReqNone => Sys2Proof.Machine.execDbgReqNone s
  | .pwrReqRun => Sys2Proof.Machine.execPwrReqRun s
  | .pwrReqSlow => Sys2Proof.Machine.execPwrReqSlow s
  | .pwrReqIdle => Sys2Proof.Machine.execPwrReqIdle s
  | .pwrReqPark => Sys2Proof.Machine.execPwrReqPark s
  | .idleEntry => Sys2Proof.Machine.execIdleEntry s
  | .idleWakeAccess => Sys2Proof.Machine.execIdleWakeAccess s
  | .powerOn => Sys2Proof.Machine.execPowerOn s
  | .powerLoss => Sys2Proof.Machine.execPowerLoss s
  | .bndCtlEnWrite => Sys2Proof.Machine.execBndCtlEnWrite s
  | .spdmGetVersion => Sys2Proof.Machine.execSpdmGetVersion s
  | .spdmGetCapabilities => Sys2Proof.Machine.execSpdmGetCapabilities s
  | .spdmNegotiateAlgorithms => Sys2Proof.Machine.execSpdmNegotiateAlgorithms s
  | .spdmGetDigests => Sys2Proof.Machine.execSpdmGetDigests s
  | .spdmGetCertificate => Sys2Proof.Machine.execSpdmGetCertificate s
  | .spdmChallenge => Sys2Proof.Machine.execSpdmChallenge s
  | .spdmGetMeasurements => Sys2Proof.Machine.execSpdmGetMeasurements s
  | .spdmKeyExchange => Sys2Proof.Machine.execSpdmKeyExchange s
  | .spdmFinish => Sys2Proof.Machine.execSpdmFinish s
  | .spdmEndSession => Sys2Proof.Machine.execSpdmEndSession s
  | .cpyQ => Sys2Proof.Machine.execCpyQ s
  | .frStatOp => Sys2Proof.Machine.execFrStatOp s
  | .frStatSession => Sys2Proof.Machine.execFrStatSession s
  | .frStatBanks => Sys2Proof.Machine.execFrStatBanks s
  | .frStatClear => Sys2Proof.Machine.execFrStatClear s
  | .smpStatQuery => Sys2Proof.Machine.execSmpStatQuery s
  | .smpStatClear => Sys2Proof.Machine.execSmpStatClear s
  | .nwStatQuery => Sys2Proof.Machine.execNwStatQuery s
  | .nwStatClear => Sys2Proof.Machine.execNwStatClear s
  | .cmStatQuery => Sys2Proof.Machine.execCmStatQuery s
  | .cmStatClear => Sys2Proof.Machine.execCmStatClear s
  | .spawnStat => Sys2Proof.Machine.execSpawnStat s
  | .resultLanding => Sys2Proof.Machine.execResultLanding s
  | .runWatchdogExpiry => Sys2Proof.Machine.execRunWatchdogExpiry s
  | .systemWatchdogExpiry => Sys2Proof.Machine.execSystemWatchdogExpiry s
  | .trapEntry => Sys2Proof.Machine.execTrapEntry s
  | .contextBecomesReady => Sys2Proof.Machine.execContextBecomesReady s
  | .bankPreparation => Sys2Proof.Machine.execBankPreparation s
  | .ldgRowArrival => Sys2Proof.Machine.execLdgRowArrival s
  | .postedWritePerform => Sys2Proof.Machine.execPostedWritePerform s
  | .atomicReturn => Sys2Proof.Machine.execAtomicReturn s
  | .translationWalkComplete => Sys2Proof.Machine.execTranslationWalkComplete s
  | .l1Eviction => Sys2Proof.Machine.execL1Eviction s
  | .sectorFetch => Sys2Proof.Machine.execSectorFetch s
  | .dnEscapeTimeout => Sys2Proof.Machine.execDnEscapeTimeout s
  | .barrierUpdate => Sys2Proof.Machine.execBarrierUpdate s
  | .cellPlaneLoad => Sys2Proof.Machine.execCellPlaneLoad s
  | .matrixQueueComplete => Sys2Proof.Machine.execMatrixQueueComplete s
  | .copyCommandStart => Sys2Proof.Machine.execCopyCommandStart s
  | .copyBeat => Sys2Proof.Machine.execCopyBeat s
  | .copyCommandComplete => Sys2Proof.Machine.execCopyCommandComplete s
  | .streamRow => Sys2Proof.Machine.execStreamRow s
  | .circuitRowSend => Sys2Proof.Machine.execCircuitRowSend s
  | .circuitRowLanding => Sys2Proof.Machine.execCircuitRowLanding s
  | .arrivalHandlerStart => Sys2Proof.Machine.execArrivalHandlerStart s
  | .binderyCommandStart => Sys2Proof.Machine.execBinderyCommandStart s
  | .binderyCommandComplete => Sys2Proof.Machine.execBinderyCommandComplete s
  | .rotationCommand => Sys2Proof.Machine.execRotationCommand s
  | .scanCommandStart => Sys2Proof.Machine.execScanCommandStart s
  | .scanCommandComplete => Sys2Proof.Machine.execScanCommandComplete s
  | .generationCommandStart => Sys2Proof.Machine.execGenerationCommandStart s
  | .generationCommandComplete => Sys2Proof.Machine.execGenerationCommandComplete s
  | .trimMessageLanding => Sys2Proof.Machine.execTrimMessageLanding s
  | .spawnStart => Sys2Proof.Machine.execSpawnStart s
  | .childCompletion => Sys2Proof.Machine.execChildCompletion s
  | .overflowEntryMove => Sys2Proof.Machine.execOverflowEntryMove s
  | .preemption => Sys2Proof.Machine.execPreemption s
  | .preemptionRestore => Sys2Proof.Machine.execPreemptionRestore s
  | .softErrorCorrected => Sys2Proof.Machine.execSoftErrorCorrected s
  | .ueCleanStackLine => Sys2Proof.Machine.execUeCleanStackLine s
  | .ueLpddr6 => Sys2Proof.Machine.execUeLpddr6 s
  | .ueCoreSram => Sys2Proof.Machine.execUeCoreSram s
  | .ueDirtyStackLine => Sys2Proof.Machine.execUeDirtyStackLine s
  | .ueOwnerMessage => Sys2Proof.Machine.execUeOwnerMessage s
  | .launchRecord => Sys2Proof.Machine.execLaunchRecord s
  | .taskPlacement => Sys2Proof.Machine.execTaskPlacement s
  | .kernelCompletion => Sys2Proof.Machine.execKernelCompletion s
  | .hostBar2Write => Sys2Proof.Machine.execHostBar2Write s
  | .peerAccess => Sys2Proof.Machine.execPeerAccess s
  | .dbgReqObserve => Sys2Proof.Machine.execDbgReqObserve s
  | .dbgReqInvasive => Sys2Proof.Machine.execDbgReqInvasive s
  | .unitReady => Sys2Proof.Machine.execUnitReady s
  | .circEnWrite => Sys2Proof.Machine.execCircEnWrite s
  | .errstsClear => Sys2Proof.Machine.execErrstsClear s
  | .registerWrite => Sys2Proof.Machine.execRegisterWrite s
  | .debugHaltRequest => Sys2Proof.Machine.execDebugHaltRequest s
  | .ideKmRequest => Sys2Proof.Machine.execIdeKmRequest s

end Sys2Proof.Machine
end

