-- ==== Sys2Proof/Machine/Cycle.lean ====
section
/-! DEFINITION. One turn of the machine: the clock, a core's issue cycle with its primary bundle and the merged secondary
one, the steps of the hardware, and which of them comes next where nothing says so (R22 to R31, R93 to R97, R283 to R292;
log entries 7 and 8). -/

namespace Sys2Proof.Machine

/-- A state, or the refusal of an instruction that has no meaning. -/
abbrev Ran (α : Type) := Except Refusal α
/-- An outcome as such; there is no fault. -/
def ran : Host.Outcome State Fault Refusal → Ran State
  | .next s => .ok s
  | .refused r => .error r
  | .fault f => nomatch f

/-! ### The clock -/

/-- The counters of a core in one cycle (R96, R101, R102). -/
def Core.tick (c : Core) : Core :=
  let count (x : Ctx) : Ctx := { x with ctl := { x.ctl with runCnt := x.ctl.runCnt + 1 } }
  let c := { c with slice := c.slice - 1, sysw := c.sysw + 1 }
  match c.prim with
  | some j => if c.prep ∨ (c.ctx j).hand.on then c else c.setCtx j (count (c.ctx j))
  | none => c

/-- What the hardware does at its own cycle without a choice: a core without a primary selects, a plane is loaded, a circuit
sends in its phase, rows land, barriers take up what has reached them. -/
def atCycle (s : State) (k : Nat) : State :=
  let s := planeLoad (wakeCore s k) k
  let s := (List.range 32).foldl (fun s n => if (s.core k).copies.any (fun q => q.fn == 4 && q.circuit == n) then circuitSend s k n else s) s
  let s := ((s.core k).sends.filter fun r => decide (r.lands ≤ s.now)).foldl (fun s _ => circuitLand s k) s
  ((s.core k).nbIn.map (·.1)).foldl (fun s b => barrierUpdate s k b) s

/-- The clock moves on by one cycle. -/
def advance (s : State) : State :=
  let cs : Tab Core := s.cores.map fun (c : Nat × Core) => (c.1, c.2.tick)
  let s : State := { s.tick with now := s.now + 1, cores := cs }
  (s.cores.map (·.1)).foldl atCycle s
/-- The clock moves on by n cycles. -/
def advanceN : Nat → State → State
  | 0, s => s
  | n + 1, s => advanceN n (advance s)
/-- Ending contexts go as far as they can, and as the units they need are ready (R459). -/
def settle (s : State) : State :=
  let one (s : State) (k j : Nat) : State := let t := endTry { s with held := false } k j; if t.held then s else t
  s.cores.foldl (fun s c => c.2.ctxs.foldl (fun s x => if x.2.life = .ending then one s c.1 x.1 else s) s) s

/-! ### Fetch and decode (R22, R24 to R31, R424) -/

/-- What a context would issue: it waits for a page; it traps; its memory is uncorrectable; or a bundle with its literal. -/
inductive Look where
  | miss (page : Nat)
  | trap (t : TrapReq)
  | bad (pa : Nat)
  | go (word : Nat) (lit : Option Nat)
  deriving DecidableEq, Repr

/-- `XLATE` at fetch (R433). -/
def fetchTrap (kind level va : Nat) : Look := .trap { cause := 9, slot := 0, info := kind + 2 ^ 5 + level * 2 ^ 6, va := va }
/-- The literal bundle after `li.wide`, whose header bits 15 to 2 are zero (R28). -/
def litLook (word lit : Nat) : Look :=
  let h := lit % 2 ^ 16
  if h / 4 = 0 then .go word (some lit)
  else .trap { cause := 2, slot := 0, info := lowBit h 2 14 + 14 * 2 ^ 8 + 2 ^ 16, insn := h }
/-- Whether the header skips a bundle (R25); `kp` is read as the bundle reads it. -/
def skips (s : State) (h : Hdr) : Bool :=
  let x := s.ix
  let bykp := h.ske && bitAt (s.rd 0 .kp) h.skp.toNat != h.sks
  let tied := (h.fio || h.lio) && (match x.ctl.loops.find? fun l => l.lvl == h.lvl.toNat with
    | some l => !((h.fio && l.left == l.total) || (h.lio && l.left == 1))
    | none => false)
  bykp || tied

/-- A yield bundle of stated run 0 of a task without the exclusive attribute, which `RUNOVER` stops before all other causes
(R101, R424). -/
def yieldOver (s : State) (k j word : Nat) : Bool :=
  let x := s.ctx k j
  (hdrOf word).kind == 1 && (decSlot .ct (Slot.ct.field word)).ins == some (.yield 0) && !x.task.excl && !x.hand.on &&
    !skips (openIssue s k j word none false) (hdrOf word)

/-- The bundle a context would issue, checked in the order of R424: `RUNOVER`, fetch, encodings and privilege, the literal
bundle, banks. -/
def look (s : State) (k j : Nat) : Look :=
  let x := s.ctx k j
  match s.fetch k j x.ctl.pc.toNat with
  | .miss p => .miss p
  | .fault kd l va => fetchTrap kd l va
  | .bad pa => .bad pa
  | .word w =>
    if yieldOver s k j w then .trap { cause := 5, slot := 1, info := runoverInfo x true, insn := Slot.ct.field w }
    else match bundleFault x.privileged w with
    | some t => .trap t
    | none =>
      let ops := opsOf w
      let lit : Look := if !ops.any fun o => wantsLit o.i then .go w none
        else match s.fetch k j (x.ctl.pc + 1).toNat with
          | .miss p => .miss p
          | .fault kd l va => fetchTrap kd l va
          | .bad pa => .bad pa
          | .word v => litLook w v
      match lit with
      | .go w l => match bankFaults x ops with
        | some (sl, f, n) => .trap { cause := 4, slot := sl.code, info := bankxInfo f n, insn := sl.field w }
        | none => .go w l
      | t => t

/-! ### The operations of a bundle (R23, R29, R95) -/

/-- One operation, if its guard holds. -/
def runOp (s : State) (o : SOp) : Ran State :=
  if s.guard o.slot.code o.g then ran (exec o.i { s with arg := o.arg }) else .ok s
/-- The operations of a bundle; each reads the state before it and adds what it decides. -/
def runOps : List SOp → State → Ran State
  | [], s => .ok s
  | o :: l, s => match runOp s o with | .ok s => runOps l s | e => e

/-- The bank check of a replacement as built: a base register that a row took the place of is no operand (R291, R292). -/
def repBank (x : Ctx) (o : RwOp) : Option TrapReq :=
  ((operandRegs o.op.i o.op.arg).find? fun p => x.bankx p.1 p.2 && (o.sub.isEmpty || p.1 != 4)).map fun p =>
    { cause := 4, slot := o.op.slot.code, info := bankxInfo p.1 p.2 }
/-- A replacement instruction decides on what b0 saw (R291, R292); its trap carries the rewrite word.  All its checks are made at
b0: one that would fail only at a later bundle of the group gives way, the instruction then running under the format word,
the weight slots and the tile state of b0 (log entry 99, DEDUCED). -/
def runRep (s : State) (k j : Nat) (p : Plan) (o : RwOp) (word : Nat) : Ran State :=
  let go (s : State) : Ran State :=
    let v := p.view s k j o
    ran (exec o.op.i { v with arg := o.op.arg, iss := { v.iss with from0 := p.from0 o } })
  let first : Ran State := match (if p.first then repBank (s.ctx k j) o else none) with
    | some t => .ok { s with iss := { s.iss with trap := s.iss.trap.orElse fun _ => some t } }
    | none => go s
  match (match first with
    | .ok t => if !p.first ∧ t.iss.trap.isSome then go (p.checked s k j) else first
    | e => e) with
  | .error r => .error r
  | .ok t =>
    let mark (r : TrapReq) : TrapReq := if s.iss.trap.isSome then r else { r with rw := word, insn := o.fieldv }
    .ok { s with iss := { t.iss with trap := t.iss.trap.map mark, from0 := none } }
/-- The replacements in turn; with the number of the first. -/
def runReps (k j : Nat) (p : Plan) : List RwOp → Nat → State → Ran State
  | [], _, s => .ok s
  | o :: l, n, s => match runRep s k j p o (p.word + n * 2 ^ 9) with | .ok s => runReps k j p l (n + 1) s | e => e

/-- The rewrite plan moves on past the bundle that issues. -/
def planNext (s : State) (k j : Nat) (p : Plan) : State :=
  let rest := p.todo.drop 1
  s.modCtx k j fun x => { x with plan := if rest = [] then none else some { p with todo := rest, first := false } }

/-- What became of a context's issue: the state, the bundle it was about, and its occupied slots if it issued. -/
structure Did where
  s : State
  word : Option Nat := none
  ops : Option (List SOp) := none

/-- The open bundle closes; whether it issued. -/
def finish (s : State) (k j word : Nat) (ops : List SOp) (p : Option Plan) (isFirst : Bool) : Did :=
  let i := s.iss
  if i.waits s ∨ i.trap.isSome then { s := closeIssue s, word := some word }
  else
    let s := match p with | some p => planNext s k j p | none => s
    let s := match p with | some p => if isFirst then p.disc.foldl (fun s d => touchDest s k d) s else s | none => s
    let s := closeIssue s
    let s := match p with | some p => if isFirst then p.disc.foldl (fun s d => spoilDest s k j d) s else s | none => s
    { s := s, word := some word, ops := some ops }

/-- A decoded bundle issues on a context, which `look` has found fit. -/
def issueBundle (s : State) (k j word : Nat) (lit : Option Nat) (sec : Bool) : Ran Did :=
  let s := openIssue s k j word lit false
  let s := { s with iss := { s.iss with sec := sec } }
  if skips s (hdrOf word) then (ran (exec .skippedBundle s)).map fun s => finish s k j word [] none false
  else
    let (s, page) := if sec then (s, none) else rwStage s k j
    match page with
    | some p => .ok { s := { s.startWalk k j p with iss := {} }, word := some word }
    | none =>
      let plan := if sec then none else ((s.ctx k j).plan).filter fun p => (p.todo.map (·.1)).head? == some (s.ctx k j).ctl.pc
      match plan with
      | none => (runOps (opsOf word) s).map fun s => finish s k j word (opsOf word) none false
      | some p =>
        if p.orig then (runOps (opsOf word) s).map fun s => finish s k j word (opsOf word) (some p) false
        else
          let q := if p.first then p.snap s k j else p
          let mine := (p.todo.map (·.2)).headD []
          let i0 := { s.iss with dry := true }
          let tried := if p.first then (runReps k j q p.reps 0 { s with iss := i0 }).map (·.iss) else .ok {}
          match tried with
          | .error r => .error r
          | .ok t =>
            if t.stall ∨ t.trap.isSome then
              .ok { s := closeIssue { s with iss := { s.iss with stall := t.stall, trap := t.trap, stallActs := t.stallActs } }, word := some word }
            else (runReps k j q mine 0 s).map fun s => finish s k j word (mine.map (·.op)) (some q) p.first

/-- Fetching the bundle a context would issue, and the literal bundle after it, through the stacks. -/
def fetched (s : State) (k j : Nat) : State :=
  let pc := (s.ctx k j).ctl.pc
  match look s k j with
  | .go _ (some _) => (s.fetchTouch k j pc.toNat).fetchTouch k j (pc + 1).toNat
  | _ => s.fetchTouch k j pc.toNat

/-- A context's issue in this cycle: what it waits for goes on; a fetch or decode trap is taken; or its bundle issues. -/
def issueCtx (s : State) (k j : Nat) (sec : Bool) : Ran Did :=
  let s := fetched s k j
  let pc := (s.ctx k j).ctl.pc
  match look s k j with
  | .miss p => .ok { s := s.startWalk k j p }
  | .bad pa => .ok { s := terminate s k j 3 pa }
  | .trap t => .ok { s := trapTake (landNow (waitEnd s.tick k j) k j) k j { req := t, bpc := pc, rpc := pc, sec := sec } }
  | .go w lit => issueBundle s k j w lit sec

/-! ### A core's issue cycle (R93, R94, R100) -/

/-- Whether two slots' operations may share a cycle: different slots, or VA or VB at 512 bits at most each. -/
def slotsShare (a b : SOp) (wa wb : Nat) : Bool :=
  a.slot != b.slot || ((a.slot == .va || a.slot == .vb) && decide (wa ≤ 512) && decide (wb ≤ 512))
/-- The width of the operation in a vector field, in bits (R142). -/
def fieldWidth (word : Nat) (sl : Slot) : Nat := (vhOf (if sl == .vb then .vb else .va) (sl.field word)).w.bits
/-- Whether two bundles of a cycle use one copy port (R125). -/
def portsMeet (a b : List SOp) : Bool :=
  let l := a.filterMap fun o => copyPort o.i
  b.any fun o => match copyPort o.i with | some p => l.contains p | none => false
/-- Whether a candidate's bundle may issue beside the primary's, whose occupied slots are those of `ops` (R94). -/
def mayMerge (w1 : Option Nat) (ops1 : List SOp) (w2 : Nat) (ops2 : List SOp) : Bool :=
  let h2 := hdrOf w2
  let calm (w : Nat) : Bool := !(hdrOf w).m && (hdrOf w).kind != 1
  let word1 := w1.getD 0
  (w1.isNone || calm word1) && !h2.m && h2.kind != 1 &&
  (ops1.all fun a => ops2.all fun b => slotsShare a b (fieldWidth word1 a.slot) (fieldWidth w2 b.slot)) && !portsMeet ops1 ops2

/-- The secondary candidate: the highest-ranked ready context other than the primary whose banks are resident (R93). -/
def candidate (s : State) (k : Nat) : Option Nat :=
  let c := s.core k
  c.order.find? fun j => c.prim != some j && isReady s k j && c.resident j

/-- Whether a context under INVASIVE debug stands at a breakpoint, which waits for the end of a rewritten group (R292, R457). -/
def atBreak (s : State) (k j : Nat) : Bool :=
  s.reg rDbgSts % 4 == 2 && (s.core k).brk.contains (s.ctx k j).ctl.pc.toNat && !(s.ctx k j).midGroup
/-- The core stops there (log entry 102, DESIGN CHOICE). -/
def breakStop (s : State) (k : Nat) : State :=
  setDbg (s.modCore k fun c => { c with halted := true }) 2 (bitAt (s.reg rDbgSts) 2) true

/-- The candidate's bundle issues if R94 lets it; whether its header skips it is judged as it would issue. -/
def issueSecond (s : State) (k j : Nat) (w1 : Option Nat) (ops1 : List SOp) : Ran State :=
  if !canIssue s k j then .ok s
  else if atBreak s k j then .ok (breakStop s k)
  else match look s k j with
    | .go w lit =>
      let s := fetched s k j
      let skip := skips (openIssue s k j w lit false) (hdrOf w)
      if mayMerge w1 ops1 w (if skip then [] else opsOf w) then
        (issueBundle (s.modCtx k j fun x => { x with plan := none }) k j w lit true).map (·.s)
      else .ok s
    | .miss p => .ok (s.startWalk k j p)
    | .bad pa => .ok (terminate s k j 3 pa)
    | .trap t => if ops1 = [] ∧ t.cause ≠ 5 then (issueCtx s k j true).map (·.s) else .ok s

/-- The bundle word a context that issues nothing stands at, if it can be had. -/
def heldWord (s : State) (k j : Nat) : Option Nat :=
  match look s k j with | .go w _ => some w | _ => none

/-- A core's issue cycle: the primary's bundle, or the trap of an expired run watchdog, then the candidate's.  A candidate that
meets a unit that is not ready waits by itself (R20, R459). -/
def issueCore (s : State) (k : Nat) : Ran State :=
  let cand := candidate s k
  let first : Ran Did := match (s.core k).prim with
    | none => .ok { s := s }
    | some j =>
      if !canIssue s k j then .ok { s := s, word := if (s.core k).prep then none else heldWord s k j }
      else if atBreak s k j then .ok { s := breakStop s k }
      else if overrun s k j && !(s.ctx k j).midGroup then .ok { s := takeOverrun s k j }
      else issueCtx s k j false
  match first with
  | .error r => .error r
  | .ok d => match cand with
    | none => .ok d.s
    | some j =>
      if (s.core k).prim.isNone then .ok d.s
      else if d.s.held then issueSecond s k j (heldWord s k ((s.core k).prim.getD 0)) []
      else (issueSecond d.s k j d.word (d.ops.getD [])).map fun t => if t.held then d.s else t

/-! ### Turns (log entry 7, DESIGN CHOICE) -/

/-- The cycle of a core's next issue: later than its last, and than the last step of the hardware. -/
def nextCycle (s : State) (k : Nat) : Nat := max s.now (max ((s.core k).lastCyc + 1) (s.evt + 1))
/-- A turn; a core's issue that meets a slice or channel that is not ready waits (R459). -/
def takeTurn (s : State) (t : Turn) : Ran State :=
  match t with
  | .idle => .ok (settle (advance s))
  | .event i a => (ran (exec i { s with arg := a })).map settle
  | .issue k =>
    let s := settle (advanceN (nextCycle s k - s.now) s)
    let next (s : State) : State := settle ({ s with iss := {} }.modCore k fun c => { c with lastCyc := s.now })
    if s.down ∨ (s.core k).halted then .ok s
    else (issueCore { s with held := false } k).map fun t => if t.held then next s else next t

/-- A step with its arguments. -/
abbrev Due := Instr × List Nat
/-- A step for each number below n. -/
def dueEach (n : Nat) (f : Nat → Due) : List Due := (List.range n).map f
/-- Steps of the hardware that may come up at a context. -/
def ctxSteps (k j : Nat) (x : Ctx) : List Due :=
  List.flatten
    [ [(Instr.trapEntry, [k, j]), (Instr.runWatchdogExpiry, [k, j])],
      dueEach x.pend.length fun i => (Instr.resultLanding, [k, j, if (x.pend[i]?).any (fun p => p.acc.isSome) then i else x.pend.length]),
      dueEach x.posted.length fun i => (Instr.postedWritePerform, [k, j, i]),
      dueEach x.posted.length fun i => (Instr.atomicReturn, [k, j, i]),
      dueEach x.posted.length fun i => (Instr.ldgRowArrival, [k, j, i]) ]
/-- At a core. -/
def coreSteps (s : State) (k : Nat) : List Due :=
  let c := s.core k
  List.flatten
    [ c.ctxs.flatMap fun x => ctxSteps k x.1 x.2,
      [(Instr.systemWatchdogExpiry, [k]), (Instr.contextBecomesReady, [k]), (Instr.bankPreparation, [k])],
      c.nbIn.map fun u => (Instr.barrierUpdate, [k, u.1]),
      [(Instr.matrixQueueComplete, [k]), (Instr.cellPlaneLoad, [k]), (Instr.copyCommandStart, [k])],
      dueEach c.copies.length fun i => (Instr.copyBeat, [k, i]),
      dueEach c.copies.length fun i => (Instr.copyCommandComplete, [k, i]),
      dueEach c.streams.length fun i => (Instr.streamRow, [k, i]),
      [(Instr.circuitRowLanding, [k]), (Instr.arrivalHandlerStart, [k]), (Instr.scanCommandStart, [k]), (Instr.scanCommandComplete, [k])] ]
/-- At a cluster. -/
def clusterSteps (q : Nat) (c : Cluster) : List Due :=
  List.flatten
    [ dueEach c.walks.length fun i => (Instr.translationWalkComplete, [q, i]),
      [(Instr.binderyCommandStart, [q])],
      dueEach c.bindRun.length fun i => (Instr.binderyCommandComplete, [q, i]),
      [(Instr.spawnStart, [q])],
      dueEach (c.frames.length + c.leaving.length) fun i => (Instr.childCompletion, [q, i]),
      [(Instr.overflowEntryMove, [q])] ]
/-- At a die. -/
def dieSteps (s : State) (d : Nat) : List Due :=
  dueEach 3 (fun e => (Instr.generationCommandStart, [d, 3 + e])) ++
  dueEach (s.die d).gens.length fun i => (Instr.generationCommandComplete, [d, i])
/-- Elsewhere. -/
def deviceSteps (s : State) : List Due :=
  List.flatten
    [ s.clusters.flatMap fun q => clusterSteps q.1 q.2,
      dieSteps s 0, dieSteps s 1,
      dueEach s.trims.length fun i => (Instr.trimMessageLanding, [i]),
      dueEach s.messages.length fun i => (Instr.ueOwnerMessage, [i]),
      s.retiring.map fun p => (Instr.ueLpddr6, [p.1]),
      (s.stack.filter fun e => e.2.poison).map fun e => (Instr.ueDirtyStackLine, [e.1]),
      dueEach s.kernels.length fun i => (Instr.kernelCompletion, [i]),
      (List.range s.kernels.length).flatMap fun i =>
        dueEach ((s.kernels.map (·.toPlace)).getD i []).length fun t => (Instr.taskPlacement, [i, t]),
      [(Instr.binderyInitDone, []), (Instr.imageInstallDone, []), (Instr.launchRecord, [])] ]
/-- The first of a list of steps that brings something about. -/
def firstStep (s : State) : List Due → Option Turn
  | [] => none
  | e :: l => match exec e.1 { s with arg := e.2 } with
    | .next t => if t.freeCtr = s.freeCtr then firstStep s l else some (.event e.1 e.2)
    | _ => some (.event e.1 e.2)
/-- The turn where nothing names one: a step of the hardware that is due, else a core's issue in rotation, else the clock. -/
def ownTurn (s : State) : Turn :=
  match firstStep s (s.cores.flatMap (fun c => coreSteps s c.1) ++ deviceSteps s) with
  | some t => t
  | none =>
    let l := s.cores.map (·.1)
    let some_ := (l.filter fun k => decide (s.rr ≤ k)) ++ l.filter fun k => decide (k < s.rr)
    match some_.find? fun k => (s.core k).prim.isSome with
    | some k => .issue k
    | none => .idle

/-- One step of the machine: the next turn that is named, or the machine's own. -/
def cycle (s : State) : Ran State :=
  match s.turns with
  | t :: r => takeTurn { s with turns := r } t
  | [] =>
    let t := ownTurn s
    let rr := match t with | .issue k => k + 1 | _ => s.rr
    takeTurn { s with rr := rr } t

end Sys2Proof.Machine
end

