-- ==== Sys2Proof/Machine/Loader.lean ====
section
/-! DEFINITION. A program as it stands once it has been installed, launched and placed: what the steps IMAGE_INSTALL_DONE,
LAUNCH_RECORD and TASK_PLACEMENT bring about, put into a state directly (log entry 16, DESIGN CHOICE). -/

namespace Sys2Proof.Machine

/-- Where the loaded image lies. -/
def loadBase : Nat := 0x100000
/-- Its translation: page 0 of function 0, valid, leaf, executable, in LPDDR 6. -/
def loadEnt : TlbEnt := { fn := 0, size := 0, page := 0, ent := BitVec.ofNat 64 (loadBase + 11) }
/-- The image itself: one bundle, and a literal bundle of zeros after it. -/
def loadImage : Image := { kind := 1, idx := 0, base := loadBase, len := 128, nb := 2 }
/-- Memory with the two bundles, nothing of them in the stacks or uncorrectable. -/
def loadMemory (s : State) (w : Nat) : State :=
  { s with dram := (s.dram.writeN loadBase w 64).writeN (loadBase + 64) 0 64, stack := s.stack.filter (fun e => keyLine e.1 != loadBase / 256),
           badUnits := tdel (tdel s.badUnits (loadBase / 64)) (loadBase / 64 + 1),
           images := loadImage :: s.images.filter fun m => !(m.kind == 1 && m.idx == 0), off := false }
/-- The registers of code image 0, on a device whose layout power-on has fixed and whose units are all ready (R20, R459). -/
def loadRegs (s : State) : State :=
  ((((((s.fixLayout.setReg (rSysReady 0) (2 ^ 59 - 1)).setReg (rSysReady 1) (2 ^ 36 - 1)).setReg (rSysReady 2) (2 ^ 64 - 1)).setReg (rImgVb 0) 0).setReg (rImgPb 0) (loadBase + 1)).setReg (rImgNb 0) 2).setReg rPwrSts 0
/-- A context with a privileged task at bundle 0, every bank in its demand, and nothing to wait for. -/
def loadCtx (x : Ctx) : Ctx :=
  let task : Task := { priv := true, demand := BitVec.ofNat 56 (2 ^ 56 - 1) }
  let ctl := { x.ctl with pc := 0, loops := [], runCnt := 0 }
  { x with life := .live, task := task, ctl := ctl, pend := x.pend.filter (fun p => p.acc.isNone), waits := [], plan := none,
           hand := {}, held := false, trapP := none }
/-- That context as the primary of its core, with all banks its own. -/
def loadCore (c : Core) : Core :=
  let tags : Tab Nat := (List.range 56).map fun b => (b, 1)
  { c.setCtx 0 (loadCtx (c.ctx 0)) with prim := some 0, prep := false, tags := tags, halted := false }
/-- A bundle word loaded as the first bundle of the primary context of core 0, which issues next. -/
def loadFirst (s : State) (w : Nat) : State :=
  let s := (loadRegs (loadMemory s w)).tlbFill 0 loadEnt
  { s.setCore 0 (loadCore (s.core 0)) with turns := [.issue 0], iss := {} }

end Sys2Proof.Machine
end

