-- ==== Sys2Proof/Machine/Step.lean ====
section
/-! DEFINITION. One step of the machine, and a machine about to fetch a given instruction. -/

namespace Sys2Proof.Machine

/-- One step: one turn of the machine (log entry 7, DESIGN CHOICE). -/
def step (s : State) : Host.Outcome State Fault Refusal :=
  match cycle s with
  | .ok t => .next t
  | .error r => .refused r

/-- The machine with a bundle word loaded where its next step fetches: the first bundle of an installed code image, whose
page is cached, under a privileged task that is the primary context of core 0 (log entry 16, DESIGN CHOICE). -/
def State.withFetchWord (s : State) (nbits w : Nat) : State := loadFirst s (w % 2 ^ max nbits 512)

end Sys2Proof.Machine
end

