-- ==== Sys2Proof/Laws/Encoding.lean ====
section
/-! SUPPORT. Laws of the encoder: the fields of a word whose fields do not overlap read back as they were laid out. -/

namespace Sys2Proof

/-- Fields laid out in a word: low bit, width, value. -/
abbrev Layout := List (Nat × Nat × Nat)

/-- The word of a layout. -/
def Layout.enc (l : Layout) : Nat := Sys2Proof.enc (l.map fun f => (f.1, f.2.2))

/-- No two fields of a layout overlap. -/
def apart : List (Nat × Nat) → Bool
  | [] => true
  | f :: r => r.all (fun g => decide (f.1 + f.2 ≤ g.1) || decide (g.1 + g.2 ≤ f.1)) && apart r

/-- A range that lies within one field of a layout, or in none. -/
def within (l : Layout) (lo w : Nat) : Bool :=
  l.all (fun f => decide (f.1 + f.2.1 ≤ lo) || decide (lo + w ≤ f.1)) ||
    l.any fun f => decide (f.1 ≤ lo) && decide (lo + w ≤ f.1 + f.2.1)

/-- What such a range reads as. -/
def Layout.at (l : Layout) (lo w : Nat) : Nat :=
  match l with
  | [] => 0
  | f :: r => if f.1 ≤ lo ∧ lo + w ≤ f.1 + f.2.1 then
      (if f.1 = lo ∧ f.2.1 = w then f.2.2 else f.2.2 / 2 ^ (lo - f.1) % 2 ^ w) else Layout.at r lo w

theorem add_eq_lor_of_and (a b : Nat) (h : a &&& b = 0) : a + b = a ||| b := by
  have hw : a + b < 2 ^ (a + b) := Nat.lt_two_pow_self
  have hab : a ||| b < 2 ^ (a + b) := Nat.or_lt_two_pow (by omega) (by omega)
  have hv := BitVec.add_eq_or_of_and_eq_zero (BitVec.ofNat (a + b) a) (BitVec.ofNat (a + b) b) (by
    apply BitVec.eq_of_toNat_eq
    simp only [BitVec.toNat_and, BitVec.toNat_ofNat]
    rw [Nat.mod_eq_of_lt (by omega : a < _), Nat.mod_eq_of_lt (by omega : b < _), h]; simp)
  have := congrArg BitVec.toNat hv
  simp only [BitVec.toNat_add, BitVec.toNat_or, BitVec.toNat_ofNat] at this
  rw [Nat.mod_eq_of_lt (by omega : a < 2 ^ (a + b)), Nat.mod_eq_of_lt (by omega : b < 2 ^ (a + b)),
    Nat.mod_eq_of_lt hw] at this
  exact this

/-- Bit i of a field. -/
def fieldBit (i : Nat) (f : Nat × Nat × Nat) : Bool := decide (f.1 ≤ i) && f.2.2.testBit (i - f.1)

theorem apart_cons {f : Nat × Nat × Nat} {r : Layout} (h : apart ((f :: r).map fun f => (f.1, f.2.1)) = true) :
    (∀ g ∈ r, f.1 + f.2.1 ≤ g.1 ∨ g.1 + g.2.1 ≤ f.1) ∧ apart (r.map fun f => (f.1, f.2.1)) = true := by
  simp only [List.map_cons, apart, Bool.and_eq_true, List.all_eq_true, List.mem_map, Bool.or_eq_true,
    decide_eq_true_eq, forall_exists_index, and_imp, forall_apply_eq_imp_iff₂] at h
  exact h

theorem fieldBit_outside {i : Nat} {f : Nat × Nat × Nat} (hb : f.2.2 < 2 ^ f.2.1) (h : i < f.1 ∨ f.1 + f.2.1 ≤ i) :
    fieldBit i f = false := by
  simp only [fieldBit, Bool.and_eq_false_iff, decide_eq_false_iff_not]
  rcases h with h | h
  · exact .inl (by omega)
  · exact .inr (Nat.testBit_lt_two_pow (lt_of_lt_of_le hb (Nat.pow_le_pow_right (by omega) (by omega))))

theorem testBit_enc : ∀ (l : Layout), apart (l.map fun f => (f.1, f.2.1)) = true → (∀ f ∈ l, f.2.2 < 2 ^ f.2.1) →
    ∀ i, l.enc.testBit i = l.any (fieldBit i)
  | [], _, _, i => by simp [Layout.enc, Sys2Proof.enc]
  | f :: r, ha, hb, i => by
    obtain ⟨h1, h2⟩ := apart_cons ha
    have ih := testBit_enc r h2 fun g hg => hb g (List.mem_cons_of_mem _ hg)
    have hf := hb f (List.mem_cons_self ..)
    have hz : f.2.2 * 2 ^ f.1 &&& Layout.enc r = 0 := by
      apply Nat.eq_of_testBit_eq; intro i
      rw [Nat.testBit_and, Nat.testBit_mul_two_pow, ih, Nat.zero_testBit, Bool.and_eq_false_iff]
      by_cases hin : f.1 ≤ i ∧ i < f.1 + f.2.1
      · refine .inr (List.any_eq_false.2 fun g hg => ?_)
        rw [fieldBit_outside (hb g (List.mem_cons_of_mem _ hg)) (by have := h1 g hg; omega)]; simp
      · exact .inl (fieldBit_outside hf (by omega))
    show (f.2.2 * 2 ^ f.1 + Layout.enc r).testBit i = _
    rw [add_eq_lor_of_and _ _ hz, Nat.testBit_or, Nat.testBit_mul_two_pow, ih, List.any_cons]; rfl

theorem testBit_fld (x lo w i : Nat) : (fld x lo w).testBit i = (decide (i < w) && x.testBit (i + lo)) := by
  rw [fld, Nat.testBit_mod_two_pow, Nat.testBit_div_two_pow]

/-- Every field reads back, and what lies between the fields reads as zero. -/
theorem fld_enc : ∀ (l : Layout), apart (l.map fun f => (f.1, f.2.1)) = true → (∀ f ∈ l, f.2.2 < 2 ^ f.2.1) →
    ∀ lo w, within l lo w = true → fld l.enc lo w = l.at lo w := by
  intro l ha hb lo w hq
  have hbit := testBit_enc l ha hb
  simp only [within, Bool.or_eq_true, List.all_eq_true, List.any_eq_true, decide_eq_true_eq, Bool.and_eq_true] at hq
  by_cases hin : ∃ f ∈ l, f.1 ≤ lo ∧ lo + w ≤ f.1 + f.2.1
  · clear hq
    have key : fld l.enc lo w = l.at lo w := by
      apply Nat.eq_of_testBit_eq; intro i
      rw [testBit_fld, hbit]
      clear hbit
      induction l with
      | nil => simp at hin
      | cons f r ih =>
        obtain ⟨h1, h2⟩ := apart_cons ha
        have hf := hb f (List.mem_cons_self ..)
        simp only [Layout.at]
        split
        · rename_i hfl
          by_cases hi : i < w
          · have hr : r.any (fieldBit (i + lo)) = false := List.any_eq_false.2 fun g hg => by
              rw [fieldBit_outside (hb g (List.mem_cons_of_mem _ hg)) (by have := h1 g hg; omega)]; simp
            rw [List.any_cons, hr, Bool.or_false]
            split
            · rename_i he; obtain ⟨he, hw⟩ := he; subst he; simp [hi, fieldBit]
            · rw [Nat.testBit_mod_two_pow, Nat.testBit_div_two_pow]
              simp only [fieldBit, hi, decide_true, Bool.true_and, show f.1 ≤ i + lo by omega,
                show i + lo - f.1 = i + (lo - f.1) by omega]
          · split
            · rename_i he; obtain ⟨he, hw⟩ := he; subst hw
              simp only [hi, decide_false, Bool.false_and]
              exact (Nat.testBit_lt_two_pow (lt_of_lt_of_le hf (Nat.pow_le_pow_right (by omega) (by omega)))).symm
            · rw [Nat.testBit_mod_two_pow]; simp [hi]
        · rename_i hfl
          have hin' : ∃ g ∈ r, g.1 ≤ lo ∧ lo + w ≤ g.1 + g.2.1 := by
            obtain ⟨g, hg, hgl⟩ := hin
            rcases List.mem_cons.1 hg with rfl | hg
            · exact absurd hgl hfl
            · exact ⟨g, hg, hgl⟩
          rw [← ih h2 (fun g hg => hb g (List.mem_cons_of_mem _ hg)) hin']
          by_cases hi : i < w
          · obtain ⟨g, hg, hgl⟩ := hin'
            rw [List.any_cons, fieldBit_outside hf (by have := h1 g hg; omega), Bool.false_or]
          · simp [hi]
    exact key
  · have hall : ∀ f ∈ l, f.1 + f.2.1 ≤ lo ∨ lo + w ≤ f.1 := by
      rcases hq with hq | hq
      · exact hq
      · exact absurd hq hin
    have hat : ∀ l : Layout, (¬∃ f ∈ l, f.1 ≤ lo ∧ lo + w ≤ f.1 + f.2.1) → l.at lo w = 0 := by
      intro l
      induction l with
      | nil => intro _; rfl
      | cons f r ih =>
        intro h
        simp only [Layout.at]
        rw [if_neg fun hf => h ⟨f, List.mem_cons_self .., hf⟩]
        exact ih fun ⟨g, hg, hgl⟩ => h ⟨g, List.mem_cons_of_mem _ hg, hgl⟩
    rw [hat l hin]
    apply Nat.eq_of_testBit_eq; intro i
    rw [testBit_fld, hbit, Nat.zero_testBit, Bool.and_eq_false_iff]
    by_cases hi : i < w
    · refine .inr (List.any_eq_false.2 fun g hg => ?_)
      rw [fieldBit_outside (hb g hg) (by have := hall g hg; omega)]; simp
    · exact .inl (by simpa using hi)

theorem bv_eq (x lo w : Nat) : bv x lo w = BitVec.ofNat w (fld x lo w) := by
  apply BitVec.eq_of_toNat_eq; simp [bv, fld]

theorem bt_eq (x lo : Nat) : bt x lo = (fld x lo 1 == 1) := by simp [bt, fld]

/-! ### Decoding what was encoded -/

/-- Whether a range lies within one field of a layout's shape, or in none. -/
def inside (sh : List (Nat × Nat)) (lo w : Nat) : Bool := within (sh.map fun f => (f.1, f.2, 0)) lo w

theorem within_inside (l : Layout) (lo w : Nat) (h : inside (l.map fun f => (f.1, f.2.1)) lo w = true) :
    within l lo w = true := by
  simpa [inside, within, List.all_map, List.any_map, Function.comp_def] using h

/-- Every value of a layout fits its field. -/
def Fits : Layout → Prop
  | [] => True
  | f :: r => f.2.2 < 2 ^ f.2.1 ∧ Fits r

theorem Fits.all : ∀ {l : Layout}, Fits l → ∀ f ∈ l, f.2.2 < 2 ^ f.2.1
  | [], _, _, hf => absurd hf (by simp)
  | _ :: _, h, _, hf => (List.mem_cons.1 hf).elim (fun e => e ▸ h.1) (fun m => Fits.all h.2 _ m)

/-- The ranges of a word that was laid out read as the layout says. -/
theorem reads (x : Nat) (l : Layout) (sh : List (Nat × Nat)) (hx : x = l.enc) (hs : (l.map fun f => (f.1, f.2.1)) = sh)
    (ha : apart sh = true) (hb : Fits l) (lo w : Nat) (hw : inside sh lo w = true) : fld x lo w = l.at lo w := by
  subst hs; rw [hx]; exact fld_enc l ha hb.all lo w (within_inside l lo w hw)

/-- A word laid out below bit n is a number of n bits. -/
theorem enc_lt (x n : Nat) (l : Layout) (sh : List (Nat × Nat)) (hx : x = l.enc) (hs : (l.map fun f => (f.1, f.2.1)) = sh)
    (ha : apart sh = true) (hb : Fits l) (hn : (sh.all fun f => decide (f.1 + f.2 ≤ n)) = true) : x < 2 ^ n := by
  subst hs hx
  apply Nat.lt_pow_two_of_testBit
  intro i hi
  rw [testBit_enc l ha hb.all, List.any_eq_false]
  intro f hf
  have h1 : f.1 + f.2.1 ≤ n := by
    have := List.all_eq_true.1 hn (f.1, f.2.1) (List.mem_map.2 ⟨f, hf, rfl⟩)
    simpa using this
  rw [fieldBit_outside (hb.all f hf) (by omega)]; simp

theorem bool_lt (b : Bool) : b.toNat < 2 := by cases b <;> decide
theorem vfile_lt (f : VFile) : vfile f < 4 := by cases f <;> decide
theorem vfile_lt2 (f : VFile) : vfile f < 2 := by cases f <;> decide
theorem vwCode_lt (w : VW) : vwCode w < 4 := by cases w <;> decide
theorem ityCode_lt (t : ITy) : ityCode t < 4 := by cases t <;> decide
theorem cmpDstCode_lt (d : CmpDst) : cmpDstCode d < 64 := by
  cases d with
  | pred n => exact lt_of_lt_of_le n.isLt (by decide)
  | cq => decide

@[simp] theorem ofNat_toNat_eq {w : Nat} (v : BitVec w) : BitVec.ofNat w v.toNat = v := by simp
@[simp] theorem bool_toNat_beq (b : Bool) : (b.toNat == 1) = b := by cases b <;> rfl
@[simp] theorem vfile_beq_two (f : VFile) : (vfile f == 2) = false := by cases f <;> rfl
@[simp] theorem vfile_beq_three (f : VFile) : (vfile f == 3) = false := by cases f <;> rfl
@[simp] theorem vfile_pick (f : VFile) : (if vfile f == 1 then VFile.vb else VFile.va) = f := by cases f <;> rfl
@[simp] theorem vfile_pick_eq (f : VFile) : (if vfile f = 1 then VFile.vb else VFile.va) = f := by cases f <;> rfl
@[simp] theorem vwCode_beq_three (w : VW) : (vwCode w == 3) = false := by cases w <;> rfl

/-- A range in two halves. -/
theorem fld_split (x lo a b : Nat) : fld x lo (a + b) = fld x lo a + 2 ^ a * fld x (lo + a) b := by
  simp only [fld]
  rw [Nat.pow_add, Nat.mod_mul, Nat.div_div_eq_div_mul, ← Nat.pow_add]

theorem resv_nil (x : Nat) : resv x [] = [] := rfl
theorem resv_cons {x lo w : Nat} {l : List (Nat × Nat)} (h : fld x lo w = 0) : resv x ((lo, w) :: l) = resv x l := by
  simp [resv, h]

theorem ityOf_eq {x : Nat} {t : ITy} (h : fld x 40 2 = ityCode t) : ityOf x = t := by
  rw [ityOf, h]; cases t <;> rfl
theorem vhOf_eq {x : Nat} {h : VH} (hw : fld x 54 2 = vwCode h.w) (hm : fld x 41 4 = h.m.toNat) : vhOf h.f x = h := by
  rw [vhOf, hw, bv_eq, hm]
  obtain ⟨f, w, m⟩ := h
  cases w <;> simp [vwCode]
theorem vregOf_eq {x : Nat} {r : VReg} (h1 : fld x 35 2 = vfile r.f) (h2 : fld x 26 9 = r.n.toNat) : vregOf x = r := by
  rw [vregOf, h1, bv_eq, h2, vfile_pick]; simp
theorem memOf_eq {x : Nat} {a : Mem} (h1 : fld x 21 5 = a.base.toNat) (h2 : fld x 0 20 = a.off.toNat) : memOf x = a := by
  rw [memOf, bv_eq, bv_eq, h1, h2]; simp
theorem cmpDstOf_eq {x : Nat} {d : CmpDst} (h : fld x 29 6 = cmpDstCode d) : cmpDstOf x = d := by
  cases d with
  | pred n =>
    have hn := n.isLt
    have : bv x 29 4 = n := by
      apply BitVec.eq_of_toNat_eq; simp only [bv, fld, cmpDstCode, BitVec.toNat_ofNat] at h ⊢; omega
    rw [cmpDstOf, h, this]; simp [cmpDstCode]; omega
  | cq => rw [cmpDstOf, h]; rfl
theorem cmpDstRsv_eq {x : Nat} {d : CmpDst} (h : fld x 29 6 = cmpDstCode d) : cmpDstRsv x = [] := by
  have h34 : bt x 34 = (fld x 29 6 / 32 == 1) := by
    simp only [bt, fld]; congr 1; omega
  have h33 : fld x 33 1 = fld x 29 6 / 16 % 2 := by simp only [fld]; omega
  cases d with
  | pred n =>
    have hn := n.isLt
    have e1 : n.toNat / 32 = 0 := by omega
    have e2 : n.toNat / 16 = 0 := by omega
    simp [cmpDstRsv, h34, h, cmpDstCode, resv, h33, rcode, e1, e2]
  | cq => simp [cmpDstRsv, h34, h, cmpDstCode, rcode]

/-! ### The checks of a typed vector operation -/

theorem vCodes_ok {x : Nat} {w : VW} {t : BitVec 4} (hw : fld x 54 2 = vwCode w) (ht : fld x 50 4 = t.toNat) (h : t ≠ 15) :
    vCodes x = [] := by
  have : t.toNat ≠ 15 := fun e => h (BitVec.eq_of_toNat_eq e)
  simp [vCodes, hw, ht, rcode, this]
theorem vNoT_ok {x : Nat} {w : VW} (hw : fld x 54 2 = vwCode w) (ht : fld x 50 4 = 0) : vNoT x = [] := by
  simp [vNoT, hw, ht, rcode, resv]
theorem badTy_ok {x : Nat} {t : BitVec 4} {ok : Nat → Bool} (ht : fld x 50 4 = t.toNat) (h : ok t.toNat = true) :
    badTy x ok = [] := by simp [badTy, ht, h, wrongTy]
theorem badRm_ok {x lo : Nat} {rm : BitVec 3} (hr : fld x lo 3 = rm.toNat) (h : wfRm rm = true) : badRm x lo = [] := by
  have : ¬5 ≤ rm.toNat := by simp only [wfRm, decide_eq_true_eq] at h; omega
  simp [badRm, hr, rcode, this]
theorem numTy_of {t : BitVec 4} {rm : BitVec 3} (h : wfNum t rm = true) : numTy t.toNat = true := by
  simp only [wfNum, numTy, Bool.or_eq_true, Bool.and_eq_true] at h ⊢; tauto
theorem int_ne {t : BitVec 4} (h : Ty.isInt t.toNat = true) : t ≠ 15 := by rintro rfl; simp [Ty.isInt] at h
theorem float_ne {t : BitVec 4} (h : Ty.isFloat t.toNat = true) : t ≠ 15 := by rintro rfl; simp [Ty.isFloat] at h
theorem wide_ne {t : BitVec 4} (h : wfWide t = true) : t ≠ 15 := by rintro rfl; simp [wfWide] at h
theorem num_ne {t : BitVec 4} {rm : BitVec 3} (h : wfNum t rm = true) : t ≠ 15 := by
  simp only [wfNum, Bool.or_eq_true, Bool.and_eq_true] at h
  exact h.elim (fun h => int_ne h.1) fun h => float_ne h.1
theorem not_int_of_float {n : Nat} (h : Ty.isFloat n = true) : Ty.isInt n = false := by
  simp only [Ty.isFloat, Ty.isInt, Bool.or_eq_true, beq_iff_eq, decide_eq_false_iff_not] at *; omega

theorem rmOf_eq {x : Nat} {t : BitVec 4} {rm : BitVec 3} (ht : fld x 50 4 = t.toNat) (hr : fld x 0 3 = rm.toNat)
    (h : wfNum t rm = true) : rmOf x = rm := by
  simp only [wfNum, Bool.or_eq_true, Bool.and_eq_true, beq_iff_eq] at h
  rw [rmOf, ht, bv_eq, hr]
  rcases h with ⟨h, rfl⟩ | ⟨h, -⟩
  · simp [h]
  · simp [not_int_of_float h]
theorem satOf_eq {x : Nat} {t : BitVec 4} {sat : Bool} (ht : fld x 50 4 = t.toNat) (hs : fld x 3 1 = sat.toNat)
    (h : (Ty.isInt t.toNat || !sat) = true) : satOf x = sat := by
  rw [satOf, ht, bt_eq, hs, bool_toNat_beq]
  cases hi : Ty.isInt t.toNat <;> cases sat <;> simp_all
theorem vMod_ok {x : Nat} {t : BitVec 4} {rm : BitVec 3} (ht : fld x 50 4 = t.toNat) (hr : fld x 0 3 = rm.toNat)
    (h3 : fld x 3 2 = 0) (h : wfNum t rm = true) : vMod x false = [] := by
  have h05 := fld_split x 0 3 2
  simp only [wfNum, Bool.or_eq_true, Bool.and_eq_true, beq_iff_eq] at h
  rw [vMod, ht]
  rcases h with ⟨h, rfl⟩ | ⟨h, hrm⟩
  · simp only [h, if_true, Bool.false_eq_true, if_false]
    rw [resv_cons (by rw [h05, hr]; simp [h3]), resv_nil]
  · simp only [not_int_of_float h, Bool.false_eq_true, if_false]
    rw [resv_cons h3, resv_nil, badRm_ok hr hrm]; rfl
theorem vMod_sat {x : Nat} {t : BitVec 4} {rm : BitVec 3} {sat : Bool} (ht : fld x 50 4 = t.toNat)
    (hr : fld x 0 3 = rm.toNat) (h3 : fld x 3 1 = sat.toNat) (h4 : fld x 4 1 = 0) (h : wfNum t rm = true)
    (hs : (Ty.isInt t.toNat || !sat) = true) : vMod x true = [] := by
  have h32 := fld_split x 3 1 1
  simp only [wfNum, Bool.or_eq_true, Bool.and_eq_true, beq_iff_eq] at h
  rw [vMod, ht]
  rcases h with ⟨h, rfl⟩ | ⟨h, hrm⟩
  · simp only [h, if_true]
    rw [resv_cons (by rw [hr]; rfl), resv_cons h4, resv_nil]
  · have hi := not_int_of_float h
    have hsat : sat = false := by simpa [hi] using hs
    simp only [hi, Bool.false_eq_true, if_false]
    rw [resv_cons (by rw [h32, h3, h4, hsat]; rfl), resv_nil, badRm_ok hr hrm]; rfl

end Sys2Proof
end

