-- ==== Sys2Proof/Laws/PerInstr.lean ====
section
/-! SUPPORT. Statements made of every instruction: RoundTrip, that the decoder reads from an encoded instruction that
instruction and nothing at fault. -/

set_option Elab.async false
set_option linter.unusedSimpArgs false
set_option linter.unusedTactic false
set_option linter.unreachableTactic false
set_option linter.unnecessarySeqFocus false

namespace Sys2Proof.Laws.RoundTrip

open Sys2Proof

/-- How many arguments an encoding takes from the argument list, and their bound (the registers of the status queries and
of `spawn.stat`). -/
def argShape : Instr → Nat × Nat
  | .spawnStat => (1, 64)
  | .cpyQ => (2, 32)
  | .frStatOp => (2, 32)
  | .smpStatQuery => (2, 32)
  | .nwStatQuery => (2, 32)
  | .cmStatQuery => (2, 32)
  | _ => (0, 0)
def ArgOk (i : Instr) (arg : List Nat) : Prop := arg.length = (argShape i).1 ∧ ∀ a ∈ arg, a < (argShape i).2

/-- A decoding that gives the instruction and its arguments, and finds nothing excluded or reserved. -/
def Clean (i : Instr) (arg : List Nat) (d : Dec) : Prop := d.ins = some i ∧ d.arg = arg ∧ d.ill = [] ∧ d.rsv = []

/-- For every guard and argument list, the slot field of the well-formed instruction decodes to it, and fits its slot. -/
def Statement (i : Instr) : Prop :=
  ∀ (g : BitVec 5) (arg : List Nat), i.wf = true → ArgOk i arg →
    ∀ p ∈ encFields i arg, Clean i arg (decSlot p.1 (enc ((p.1.gLo, g.toNat) :: p.2))) ∧
      enc ((p.1.gLo, g.toNat) :: p.2) < 2 ^ p.1.width

theorem six {v : BitVec 3} (h : v.toNat < 6) : v = 0 ∨ v = 1 ∨ v = 2 ∨ v = 3 ∨ v = 4 ∨ v = 5 := by
  revert h; revert v; decide
theorem no_arg {i : Instr} {arg : List Nat} (h : arg.length = 0 ∧ ∀ a ∈ arg, a < (argShape i).2) : arg = [] :=
  List.length_eq_zero_iff.1 h.1
theorem one_arg {b : Nat} {arg : List Nat} (h : arg.length = 1 ∧ ∀ a ∈ arg, a < b) : ∃ u, arg = [u] ∧ u < b := by
  obtain ⟨u, rfl⟩ := List.length_eq_one_iff.1 h.1
  exact ⟨u, rfl, h.2 u (by simp)⟩
theorem two_args {b : Nat} {arg : List Nat} (h : arg.length = 2 ∧ ∀ a ∈ arg, a < b) :
    ∃ u v, arg = [u, v] ∧ u < b ∧ v < b := by
  obtain ⟨u, v, rfl⟩ := List.length_eq_two.1 h.1
  exact ⟨u, v, rfl, h.2 u (by simp), h.2 v (by simp)⟩

theorem back {i : Instr} {arg : List Nat} {g : BitVec 5} {sl : Slot} {fs : List (Nat × Nat)} (l : Layout)
    (sh : List (Nat × Nat)) (hx : enc ((sl.gLo, g.toNat) :: fs) = l.enc) (hs : (l.map fun f => (f.1, f.2.1)) = sh)
    (ha : apart sh = true) (hb : Fits l) (hn : (sh.all fun f => decide (f.1 + f.2 ≤ sl.width)) = true)
    (h : ∀ x, (∀ lo w, inside sh lo w = true → fld x lo w = l.at lo w) → Clean i arg (decSlot sl x)) :
    Clean i arg (decSlot sl (enc ((sl.gLo, g.toNat) :: fs))) ∧ enc ((sl.gLo, g.toNat) :: fs) < 2 ^ sl.width :=
  ⟨h _ fun lo w hw => reads _ l sh hx hs ha hb lo w hw, enc_lt _ _ l sh hx hs ha hb hn⟩

theorem backV {i : Instr} {arg : List Nat} {g : BitVec 5} {f : VFile} {fs : List (Nat × Nat)} (l : Layout)
    (sh : List (Nat × Nat)) (hx : enc ((45, g.toNat) :: fs) = l.enc) (hs : (l.map fun f => (f.1, f.2.1)) = sh)
    (ha : apart sh = true) (hb : Fits l) (hn : (sh.all fun f => decide (f.1 + f.2 ≤ 64)) = true)
    (h : ∀ x, (∀ lo w, inside sh lo w = true → fld x lo w = l.at lo w) → Clean i arg (decV f x)) :
    Clean i arg (decSlot (vSlot f) (enc (((vSlot f).gLo, g.toNat) :: fs))) ∧
      enc (((vSlot f).gLo, g.toNat) :: fs) < 2 ^ (vSlot f).width := by
  cases f <;> exact ⟨h _ fun lo w hw => reads _ l sh hx hs ha hb lo w hw, enc_lt _ _ l sh hx hs ha hb hn⟩

/-- The opcode of an integer SC operation as its two fields. -/
theorem scTy_enc (g k : Nat) (t : ITy) (r : List (Nat × Nat)) (l : Layout) (h : Sys2Proof.enc r = l.enc := by rfl) :
    enc ((35, g) :: (40, 4 * k + ityCode t) :: r) = Layout.enc ((35, 5, g) :: (42, 6, k) :: (40, 2, ityCode t) :: l) := by
  simp only [Layout.enc, List.map, enc] at h ⊢
  rw [h]; ring
theorem sc_op {x k : Nat} (h : fld x 42 6 = k) (h1 : 0 < k) (h2 : k < 0x1A) : ¬fld x 40 8 < 4 ∧ fld x 40 8 < 0x68 := by
  have : fld x 40 8 = fld x 40 2 + 2 ^ 2 * fld x 42 6 := fld_split x 40 2 6
  have h3 : fld x 40 2 < 4 := Nat.mod_lt _ (by decide)
  simp only [h] at this
  omega

theorem br (t : Addr) : Statement (.br t) := by
  rintro g arg hw ha p ⟨⟩
  obtain rfl := no_arg ha
  refine back [(37, 5, g.toNat), (42, 6, 1), (0, 32, t.toNat)] [(37, 5), (42, 6), (0, 32)] (by rfl) rfl rfl ⟨BitVec.isLt _, by decide, BitVec.isLt _, trivial⟩ rfl fun x hL => ?_; change Clean _ _ (decCt x)
  simp (disch := decide) [decCt, badLevel, Clean, bv_eq, bt_eq, resv, rcode, excl, wrongTy, hL, Layout.at, Nat.mod_add_div]
theorem brc (t : Addr) (f : Bool) : Statement (.brc t f) := by
  rintro g arg hw ha p ⟨⟩
  obtain rfl := no_arg ha
  refine back [(37, 5, g.toNat), (42, 6, 2), (0, 32, t.toNat), (32, 1, f.toNat)] [(37, 5), (42, 6), (0, 32), (32, 1)] (by rfl) rfl rfl ⟨BitVec.isLt _, by decide, BitVec.isLt _, bool_lt _, trivial⟩ rfl fun x hL => ?_; change Clean _ _ (decCt x)
  simp (disch := decide) [decCt, badLevel, Clean, bv_eq, bt_eq, resv, rcode, excl, wrongTy, hL, Layout.at, Nat.mod_add_div]
theorem jmp (t : Addr) (k : BitVec 3) : Statement (.jmp t k) := by
  rintro g arg hw ha p ⟨⟩
  obtain rfl := no_arg ha
  have hw' : (k != 7) = true := hw
  simp [wfLevel, wfRm, wfNb, wfAdv, BitVec.toNat_eq] at hw'
  refine back [(37, 5, g.toNat), (42, 6, 3), (0, 32, t.toNat), (32, 3, k.toNat)] [(37, 5), (42, 6), (0, 32), (32, 3)] (by rfl) rfl rfl ⟨BitVec.isLt _, by decide, BitVec.isLt _, BitVec.isLt _, trivial⟩ rfl fun x hL => ?_; change Clean _ _ (decCt x)
  simp (disch := decide) [decCt, badLevel, Clean, bv_eq, bt_eq, resv, rcode, excl, wrongTy, hL, Layout.at, Nat.mod_add_div] <;> first | omega | grind
theorem call (t : Addr) : Statement (.call t) := by
  rintro g arg hw ha p ⟨⟩
  obtain rfl := no_arg ha
  refine back [(37, 5, g.toNat), (42, 6, 4), (0, 32, t.toNat)] [(37, 5), (42, 6), (0, 32)] (by rfl) rfl rfl ⟨BitVec.isLt _, by decide, BitVec.isLt _, trivial⟩ rfl fun x hL => ?_; change Clean _ _ (decCt x)
  simp (disch := decide) [decCt, badLevel, Clean, bv_eq, bt_eq, resv, rcode, excl, wrongTy, hL, Layout.at, Nat.mod_add_div]
theorem loop (len1 : BitVec 10) (lvl : BitVec 3) (set : BitVec 3) (n : LoopCnt) : Statement (.loop len1 lvl set n) := by
  rcases n with n | k
  · rintro g arg hw ha p ⟨⟩
    obtain rfl := no_arg ha
    have hw' : (wfLevel lvl && n != 0) = true := hw
    simp [wfLevel, wfRm, wfNb, wfAdv, wfMov, BitVec.toNat_eq] at hw'
    refine back [(37, 5, g.toNat), (42, 6, 6), (0, 10, len1.toNat), (10, 3, lvl.toNat), (13, 3, set.toNat), (17, 16, n.toNat)] [(37, 5), (42, 6), (0, 10), (10, 3), (13, 3), (17, 16)] (by rfl) rfl rfl ⟨BitVec.isLt _, by decide, BitVec.isLt _, BitVec.isLt _, BitVec.isLt _, BitVec.isLt _, trivial⟩ rfl fun x hL => ?_; change Clean _ _ (decCt x)
    simp (disch := decide) [decCt, badLevel, Clean, bv_eq, bt_eq, resv, rcode, excl, wrongTy, hL, Layout.at, Nat.mod_add_div] <;> first | omega | grind
  · rintro g arg hw ha p ⟨⟩
    obtain rfl := no_arg ha
    have hw' : (wfLevel lvl && wfLevel k) = true := hw
    simp [wfLevel, wfRm, wfNb, wfAdv, wfMov, BitVec.toNat_eq] at hw'
    refine back [(37, 5, g.toNat), (42, 6, 6), (0, 10, len1.toNat), (10, 3, lvl.toNat), (13, 3, set.toNat), (16, 1, 1), (17, 3, k.toNat)] [(37, 5), (42, 6), (0, 10), (10, 3), (13, 3), (16, 1), (17, 3)] (by rfl) rfl rfl ⟨BitVec.isLt _, by decide, BitVec.isLt _, BitVec.isLt _, BitVec.isLt _, by decide, BitVec.isLt _, trivial⟩ rfl fun x hL => ?_; change Clean _ _ (decCt x)
    simp (disch := decide) [decCt, badLevel, Clean, bv_eq, bt_eq, resv, rcode, excl, wrongTy, hL, Layout.at, Nat.mod_add_div] <;> first | omega | grind
theorem lpCnt (v : BitVec 16) (k : BitVec 3) (p : Bool) : Statement (.lpCnt v k p) := by
  rintro g arg hw ha p ⟨⟩
  obtain rfl := no_arg ha
  have hw' : (wfLevel k) = true := hw
  simp [wfLevel, wfRm, wfNb, wfAdv, BitVec.toNat_eq] at hw'
  refine back [(37, 5, g.toNat), (42, 6, 7), (0, 16, v.toNat), (16, 3, k.toNat), (19, 1, p.toNat)] [(37, 5), (42, 6), (0, 16), (16, 3), (19, 1)] (by rfl) rfl rfl ⟨BitVec.isLt _, by decide, BitVec.isLt _, BitVec.isLt _, bool_lt _, trivial⟩ rfl fun x hL => ?_; change Clean _ _ (decCt x)
  simp (disch := decide) [decCt, badLevel, Clean, bv_eq, bt_eq, resv, rcode, excl, wrongTy, hL, Layout.at, Nat.mod_add_div] <;> first | omega | grind
theorem lpIdx (v : BitVec 32) (k : BitVec 3) : Statement (.lpIdx v k) := by
  rintro g arg hw ha p ⟨⟩
  obtain rfl := no_arg ha
  have hw' : (wfLevel k) = true := hw
  simp [wfLevel, wfRm, wfNb, wfAdv, BitVec.toNat_eq] at hw'
  refine back [(37, 5, g.toNat), (42, 6, 8), (0, 32, v.toNat), (32, 3, k.toNat)] [(37, 5), (42, 6), (0, 32), (32, 3)] (by rfl) rfl rfl ⟨BitVec.isLt _, by decide, BitVec.isLt _, BitVec.isLt _, trivial⟩ rfl fun x hL => ?_; change Clean _ _ (decCt x)
  simp (disch := decide) [decCt, badLevel, Clean, bv_eq, bt_eq, resv, rcode, excl, wrongTy, hL, Layout.at, Nat.mod_add_div] <;> first | omega | grind
theorem lpStr (step : BitVec 16) (start : BitVec 16) (set : BitVec 3) : Statement (.lpStr step start set) := by
  rintro g arg hw ha p ⟨⟩
  obtain rfl := no_arg ha
  have hw' : (set != 0) = true := hw
  simp [wfLevel, wfRm, wfNb, wfAdv, BitVec.toNat_eq] at hw'
  refine back [(37, 5, g.toNat), (42, 6, 9), (0, 16, step.toNat), (16, 16, start.toNat), (32, 3, set.toNat)] [(37, 5), (42, 6), (0, 16), (16, 16), (32, 3)] (by rfl) rfl rfl ⟨BitVec.isLt _, by decide, BitVec.isLt _, BitVec.isLt _, BitVec.isLt _, trivial⟩ rfl fun x hL => ?_; change Clean _ _ (decCt x)
  simp (disch := decide) [decCt, badLevel, Clean, bv_eq, bt_eq, resv, rcode, excl, wrongTy, hL, Layout.at, Nat.mod_add_div] <;> first | omega | grind
theorem kpSet (m : BitVec 16) (p : Bool) : Statement (.kpSet m p) := by
  rintro g arg hw ha p ⟨⟩
  obtain rfl := no_arg ha
  refine back [(37, 5, g.toNat), (42, 6, 10), (0, 16, m.toNat), (16, 1, p.toNat)] [(37, 5), (42, 6), (0, 16), (16, 1)] (by rfl) rfl rfl ⟨BitVec.isLt _, by decide, BitVec.isLt _, bool_lt _, trivial⟩ rfl fun x hL => ?_; change Clean _ _ (decCt x)
  simp (disch := decide) [decCt, badLevel, Clean, bv_eq, bt_eq, resv, rcode, excl, wrongTy, hL, Layout.at, Nat.mod_add_div]
theorem kpClr (m : BitVec 16) (p : Bool) : Statement (.kpClr m p) := by
  rintro g arg hw ha p ⟨⟩
  obtain rfl := no_arg ha
  refine back [(37, 5, g.toNat), (42, 6, 11), (0, 16, m.toNat), (16, 1, p.toNat)] [(37, 5), (42, 6), (0, 16), (16, 1)] (by rfl) rfl rfl ⟨BitVec.isLt _, by decide, BitVec.isLt _, bool_lt _, trivial⟩ rfl fun x hL => ?_; change Clean _ _ (decCt x)
  simp (disch := decide) [decCt, badLevel, Clean, bv_eq, bt_eq, resv, rcode, excl, wrongTy, hL, Layout.at, Nat.mod_add_div]
theorem yield (run : BitVec 20) : Statement (.yield run) := by
  rintro g arg hw ha p ⟨⟩
  obtain rfl := no_arg ha
  refine back [(37, 5, g.toNat), (42, 6, 12), (0, 20, run.toNat)] [(37, 5), (42, 6), (0, 20)] (by rfl) rfl rfl ⟨BitVec.isLt _, by decide, BitVec.isLt _, trivial⟩ rfl fun x hL => ?_; change Clean _ _ (decCt x)
  simp (disch := decide) [decCt, badLevel, Clean, bv_eq, bt_eq, resv, rcode, excl, wrongTy, hL, Layout.at, Nat.mod_add_div]
theorem fmtLo (v : BitVec 32) : Statement (.fmtLo v) := by
  rintro g arg hw ha p ⟨⟩
  obtain rfl := no_arg ha
  have hw' : (v.toNat / 2 ^ 22 == 0) = true := hw
  simp [wfLevel, wfRm, wfNb, wfAdv, BitVec.toNat_eq] at hw'
  refine back [(37, 5, g.toNat), (42, 6, 14), (0, 32, v.toNat)] [(37, 5), (42, 6), (0, 32)] (by rfl) rfl rfl ⟨BitVec.isLt _, by decide, BitVec.isLt _, trivial⟩ rfl fun x hL => ?_; change Clean _ _ (decCt x)
  simp (disch := decide) [decCt, badLevel, Clean, bv_eq, bt_eq, resv, rcode, excl, wrongTy, hL, Layout.at, Nat.mod_add_div] <;> first | omega | grind
theorem fmtHi (v : BitVec 32) : Statement (.fmtHi v) := by
  rintro g arg hw ha p ⟨⟩
  obtain rfl := no_arg ha
  have hw' : (v.toNat / 2 ^ 13 % 8 == 0 && v.toNat / 2 ^ 29 == 0) = true := hw
  simp [wfLevel, wfRm, wfNb, wfAdv, BitVec.toNat_eq] at hw'
  refine back [(37, 5, g.toNat), (42, 6, 14), (0, 32, v.toNat), (32, 1, 1)] [(37, 5), (42, 6), (0, 32), (32, 1)] (by rfl) rfl rfl ⟨BitVec.isLt _, by decide, BitVec.isLt _, by decide, trivial⟩ rfl fun x hL => ?_; change Clean _ _ (decCt x)
  simp (disch := decide) [decCt, badLevel, Clean, bv_eq, bt_eq, resv, rcode, excl, wrongTy, hL, Layout.at, Nat.mod_add_div] <;> first | omega | grind
theorem rwp (r : Bool) (x : Bool) : Statement (.rwp r x) := by
  rintro g arg hw ha p ⟨⟩
  obtain rfl := no_arg ha
  refine back [(37, 5, g.toNat), (42, 6, 15), (0, 1, r.toNat), (1, 1, x.toNat)] [(37, 5), (42, 6), (0, 1), (1, 1)] (by rfl) rfl rfl ⟨BitVec.isLt _, by decide, bool_lt _, bool_lt _, trivial⟩ rfl fun x hL => ?_; change Clean _ _ (decCt x)
  simp (disch := decide) [decCt, badLevel, Clean, bv_eq, bt_eq, resv, rcode, excl, wrongTy, hL, Layout.at, Nat.mod_add_div]
theorem pri (n : BitVec 6) : Statement (.pri n) := by
  rintro g arg hw ha p ⟨⟩
  obtain rfl := no_arg ha
  refine back [(37, 5, g.toNat), (42, 6, 16), (0, 6, n.toNat)] [(37, 5), (42, 6), (0, 6)] (by rfl) rfl rfl ⟨BitVec.isLt _, by decide, BitVec.isLt _, trivial⟩ rfl fun x hL => ?_; change Clean _ _ (decCt x)
  simp (disch := decide) [decCt, badLevel, Clean, bv_eq, bt_eq, resv, rcode, excl, wrongTy, hL, Layout.at, Nat.mod_add_div]
theorem cqPush (p : BitVec 4) (neg : Bool) : Statement (.cqPush p neg) := by
  rintro g arg hw ha p ⟨⟩
  obtain rfl := no_arg ha
  refine back [(37, 5, g.toNat), (42, 6, 17), (0, 4, p.toNat), (4, 1, neg.toNat)] [(37, 5), (42, 6), (0, 4), (4, 1)] (by rfl) rfl rfl ⟨BitVec.isLt _, by decide, BitVec.isLt _, bool_lt _, trivial⟩ rfl fun x hL => ?_; change Clean _ _ (decCt x)
  simp (disch := decide) [decCt, badLevel, Clean, bv_eq, bt_eq, resv, rcode, excl, wrongTy, hL, Layout.at, Nat.mod_add_div]
theorem cqDepth (d : BitVec 6) : Statement (.cqDepth d) := by
  rintro g arg hw ha p ⟨⟩
  obtain rfl := no_arg ha
  refine back [(37, 5, g.toNat), (42, 6, 19), (0, 6, d.toNat)] [(37, 5), (42, 6), (0, 6)] (by rfl) rfl rfl ⟨BitVec.isLt _, by decide, BitVec.isLt _, trivial⟩ rfl fun x hL => ?_; change Clean _ _ (decCt x)
  simp (disch := decide) [decCt, badLevel, Clean, bv_eq, bt_eq, resv, rcode, excl, wrongTy, hL, Layout.at, Nat.mod_add_div]
theorem scAdd (t : ITy) (d : BitVec 6) (a : BitVec 6) (b : SrcB) : Statement (.scAdd t d a b) := by
  rintro g arg hw ha p ⟨⟩
  obtain rfl := no_arg ha
  rcases b with n | v
  · refine back [(35, 5, g.toNat), (42, 6, 1), (40, 2, ityCode t), (29, 6, d.toNat), (23, 6, a.toNat), (16, 6, n.toNat)] [(35, 5), (42, 6), (40, 2), (29, 6), (23, 6), (16, 6)] (by exact scTy_enc _ 1 _ _ _) rfl rfl ⟨BitVec.isLt _, by decide, ityCode_lt _, BitVec.isLt _, BitVec.isLt _, BitVec.isLt _, trivial⟩ rfl fun x hL => ?_; change Clean _ _ (decSc x)
    have ht : ityOf x = t := ityOf_eq (hL 40 2 rfl)
    have hop : ¬fld x 40 8 < 4 ∧ fld x 40 8 < 0x68 := sc_op (k := 1) (hL 42 6 rfl) (by decide) (by decide)
    simp (disch := decide) [decSc, decScInt, hop, ht, srcBOf, scRest, noImm, Clean, bv_eq, bt_eq, resv, rcode, excl, wrongTy, hL, Layout.at, Nat.mod_add_div]
  · refine back [(35, 5, g.toNat), (42, 6, 1), (40, 2, ityCode t), (29, 6, d.toNat), (23, 6, a.toNat), (22, 1, 1), (0, 22, v.toNat)] [(35, 5), (42, 6), (40, 2), (29, 6), (23, 6), (22, 1), (0, 22)] (by exact scTy_enc _ 1 _ _ _) rfl rfl ⟨BitVec.isLt _, by decide, ityCode_lt _, BitVec.isLt _, BitVec.isLt _, by decide, BitVec.isLt _, trivial⟩ rfl fun x hL => ?_; change Clean _ _ (decSc x)
    have ht : ityOf x = t := ityOf_eq (hL 40 2 rfl)
    have hop : ¬fld x 40 8 < 4 ∧ fld x 40 8 < 0x68 := sc_op (k := 1) (hL 42 6 rfl) (by decide) (by decide)
    simp (disch := decide) [decSc, decScInt, hop, ht, srcBOf, scRest, noImm, Clean, bv_eq, bt_eq, resv, rcode, excl, wrongTy, hL, Layout.at, Nat.mod_add_div]
theorem scSub (t : ITy) (d : BitVec 6) (a : BitVec 6) (b : SrcB) : Statement (.scSub t d a b) := by
  rintro g arg hw ha p ⟨⟩
  obtain rfl := no_arg ha
  rcases b with n | v
  · refine back [(35, 5, g.toNat), (42, 6, 2), (40, 2, ityCode t), (29, 6, d.toNat), (23, 6, a.toNat), (16, 6, n.toNat)] [(35, 5), (42, 6), (40, 2), (29, 6), (23, 6), (16, 6)] (by exact scTy_enc _ 2 _ _ _) rfl rfl ⟨BitVec.isLt _, by decide, ityCode_lt _, BitVec.isLt _, BitVec.isLt _, BitVec.isLt _, trivial⟩ rfl fun x hL => ?_; change Clean _ _ (decSc x)
    have ht : ityOf x = t := ityOf_eq (hL 40 2 rfl)
    have hop : ¬fld x 40 8 < 4 ∧ fld x 40 8 < 0x68 := sc_op (k := 2) (hL 42 6 rfl) (by decide) (by decide)
    simp (disch := decide) [decSc, decScInt, hop, ht, srcBOf, scRest, noImm, Clean, bv_eq, bt_eq, resv, rcode, excl, wrongTy, hL, Layout.at, Nat.mod_add_div]
  · refine back [(35, 5, g.toNat), (42, 6, 2), (40, 2, ityCode t), (29, 6, d.toNat), (23, 6, a.toNat), (22, 1, 1), (0, 22, v.toNat)] [(35, 5), (42, 6), (40, 2), (29, 6), (23, 6), (22, 1), (0, 22)] (by exact scTy_enc _ 2 _ _ _) rfl rfl ⟨BitVec.isLt _, by decide, ityCode_lt _, BitVec.isLt _, BitVec.isLt _, by decide, BitVec.isLt _, trivial⟩ rfl fun x hL => ?_; change Clean _ _ (decSc x)
    have ht : ityOf x = t := ityOf_eq (hL 40 2 rfl)
    have hop : ¬fld x 40 8 < 4 ∧ fld x 40 8 < 0x68 := sc_op (k := 2) (hL 42 6 rfl) (by decide) (by decide)
    simp (disch := decide) [decSc, decScInt, hop, ht, srcBOf, scRest, noImm, Clean, bv_eq, bt_eq, resv, rcode, excl, wrongTy, hL, Layout.at, Nat.mod_add_div]
theorem scMul (t : ITy) (d : BitVec 6) (a : BitVec 6) (b : SrcB) : Statement (.scMul t d a b) := by
  rintro g arg hw ha p ⟨⟩
  obtain rfl := no_arg ha
  rcases b with n | v
  · refine back [(35, 5, g.toNat), (42, 6, 3), (40, 2, ityCode t), (29, 6, d.toNat), (23, 6, a.toNat), (16, 6, n.toNat)] [(35, 5), (42, 6), (40, 2), (29, 6), (23, 6), (16, 6)] (by exact scTy_enc _ 3 _ _ _) rfl rfl ⟨BitVec.isLt _, by decide, ityCode_lt _, BitVec.isLt _, BitVec.isLt _, BitVec.isLt _, trivial⟩ rfl fun x hL => ?_; change Clean _ _ (decSc x)
    have ht : ityOf x = t := ityOf_eq (hL 40 2 rfl)
    have hop : ¬fld x 40 8 < 4 ∧ fld x 40 8 < 0x68 := sc_op (k := 3) (hL 42 6 rfl) (by decide) (by decide)
    simp (disch := decide) [decSc, decScInt, hop, ht, srcBOf, scRest, noImm, Clean, bv_eq, bt_eq, resv, rcode, excl, wrongTy, hL, Layout.at, Nat.mod_add_div]
  · refine back [(35, 5, g.toNat), (42, 6, 3), (40, 2, ityCode t), (29, 6, d.toNat), (23, 6, a.toNat), (22, 1, 1), (0, 22, v.toNat)] [(35, 5), (42, 6), (40, 2), (29, 6), (23, 6), (22, 1), (0, 22)] (by exact scTy_enc _ 3 _ _ _) rfl rfl ⟨BitVec.isLt _, by decide, ityCode_lt _, BitVec.isLt _, BitVec.isLt _, by decide, BitVec.isLt _, trivial⟩ rfl fun x hL => ?_; change Clean _ _ (decSc x)
    have ht : ityOf x = t := ityOf_eq (hL 40 2 rfl)
    have hop : ¬fld x 40 8 < 4 ∧ fld x 40 8 < 0x68 := sc_op (k := 3) (hL 42 6 rfl) (by decide) (by decide)
    simp (disch := decide) [decSc, decScInt, hop, ht, srcBOf, scRest, noImm, Clean, bv_eq, bt_eq, resv, rcode, excl, wrongTy, hL, Layout.at, Nat.mod_add_div]
theorem scMulh (t : ITy) (d : BitVec 6) (a : BitVec 6) (b : SrcB) : Statement (.scMulh t d a b) := by
  rintro g arg hw ha p ⟨⟩
  obtain rfl := no_arg ha
  rcases b with n | v
  · refine back [(35, 5, g.toNat), (42, 6, 4), (40, 2, ityCode t), (29, 6, d.toNat), (23, 6, a.toNat), (16, 6, n.toNat)] [(35, 5), (42, 6), (40, 2), (29, 6), (23, 6), (16, 6)] (by exact scTy_enc _ 4 _ _ _) rfl rfl ⟨BitVec.isLt _, by decide, ityCode_lt _, BitVec.isLt _, BitVec.isLt _, BitVec.isLt _, trivial⟩ rfl fun x hL => ?_; change Clean _ _ (decSc x)
    have ht : ityOf x = t := ityOf_eq (hL 40 2 rfl)
    have hop : ¬fld x 40 8 < 4 ∧ fld x 40 8 < 0x68 := sc_op (k := 4) (hL 42 6 rfl) (by decide) (by decide)
    simp (disch := decide) [decSc, decScInt, hop, ht, srcBOf, scRest, noImm, Clean, bv_eq, bt_eq, resv, rcode, excl, wrongTy, hL, Layout.at, Nat.mod_add_div]
  · refine back [(35, 5, g.toNat), (42, 6, 4), (40, 2, ityCode t), (29, 6, d.toNat), (23, 6, a.toNat), (22, 1, 1), (0, 22, v.toNat)] [(35, 5), (42, 6), (40, 2), (29, 6), (23, 6), (22, 1), (0, 22)] (by exact scTy_enc _ 4 _ _ _) rfl rfl ⟨BitVec.isLt _, by decide, ityCode_lt _, BitVec.isLt _, BitVec.isLt _, by decide, BitVec.isLt _, trivial⟩ rfl fun x hL => ?_; change Clean _ _ (decSc x)
    have ht : ityOf x = t := ityOf_eq (hL 40 2 rfl)
    have hop : ¬fld x 40 8 < 4 ∧ fld x 40 8 < 0x68 := sc_op (k := 4) (hL 42 6 rfl) (by decide) (by decide)
    simp (disch := decide) [decSc, decScInt, hop, ht, srcBOf, scRest, noImm, Clean, bv_eq, bt_eq, resv, rcode, excl, wrongTy, hL, Layout.at, Nat.mod_add_div]
theorem scDiv (t : ITy) (d : BitVec 6) (a : BitVec 6) (b : SrcB) : Statement (.scDiv t d a b) := by
  rintro g arg hw ha p ⟨⟩
  obtain rfl := no_arg ha
  rcases b with n | v
  · refine back [(35, 5, g.toNat), (42, 6, 5), (40, 2, ityCode t), (29, 6, d.toNat), (23, 6, a.toNat), (16, 6, n.toNat)] [(35, 5), (42, 6), (40, 2), (29, 6), (23, 6), (16, 6)] (by exact scTy_enc _ 5 _ _ _) rfl rfl ⟨BitVec.isLt _, by decide, ityCode_lt _, BitVec.isLt _, BitVec.isLt _, BitVec.isLt _, trivial⟩ rfl fun x hL => ?_; change Clean _ _ (decSc x)
    have ht : ityOf x = t := ityOf_eq (hL 40 2 rfl)
    have hop : ¬fld x 40 8 < 4 ∧ fld x 40 8 < 0x68 := sc_op (k := 5) (hL 42 6 rfl) (by decide) (by decide)
    simp (disch := decide) [decSc, decScInt, hop, ht, srcBOf, scRest, noImm, Clean, bv_eq, bt_eq, resv, rcode, excl, wrongTy, hL, Layout.at, Nat.mod_add_div]
  · refine back [(35, 5, g.toNat), (42, 6, 5), (40, 2, ityCode t), (29, 6, d.toNat), (23, 6, a.toNat), (22, 1, 1), (0, 22, v.toNat)] [(35, 5), (42, 6), (40, 2), (29, 6), (23, 6), (22, 1), (0, 22)] (by exact scTy_enc _ 5 _ _ _) rfl rfl ⟨BitVec.isLt _, by decide, ityCode_lt _, BitVec.isLt _, BitVec.isLt _, by decide, BitVec.isLt _, trivial⟩ rfl fun x hL => ?_; change Clean _ _ (decSc x)
    have ht : ityOf x = t := ityOf_eq (hL 40 2 rfl)
    have hop : ¬fld x 40 8 < 4 ∧ fld x 40 8 < 0x68 := sc_op (k := 5) (hL 42 6 rfl) (by decide) (by decide)
    simp (disch := decide) [decSc, decScInt, hop, ht, srcBOf, scRest, noImm, Clean, bv_eq, bt_eq, resv, rcode, excl, wrongTy, hL, Layout.at, Nat.mod_add_div]
theorem scRem (t : ITy) (d : BitVec 6) (a : BitVec 6) (b : SrcB) : Statement (.scRem t d a b) := by
  rintro g arg hw ha p ⟨⟩
  obtain rfl := no_arg ha
  rcases b with n | v
  · refine back [(35, 5, g.toNat), (42, 6, 6), (40, 2, ityCode t), (29, 6, d.toNat), (23, 6, a.toNat), (16, 6, n.toNat)] [(35, 5), (42, 6), (40, 2), (29, 6), (23, 6), (16, 6)] (by exact scTy_enc _ 6 _ _ _) rfl rfl ⟨BitVec.isLt _, by decide, ityCode_lt _, BitVec.isLt _, BitVec.isLt _, BitVec.isLt _, trivial⟩ rfl fun x hL => ?_; change Clean _ _ (decSc x)
    have ht : ityOf x = t := ityOf_eq (hL 40 2 rfl)
    have hop : ¬fld x 40 8 < 4 ∧ fld x 40 8 < 0x68 := sc_op (k := 6) (hL 42 6 rfl) (by decide) (by decide)
    simp (disch := decide) [decSc, decScInt, hop, ht, srcBOf, scRest, noImm, Clean, bv_eq, bt_eq, resv, rcode, excl, wrongTy, hL, Layout.at, Nat.mod_add_div]
  · refine back [(35, 5, g.toNat), (42, 6, 6), (40, 2, ityCode t), (29, 6, d.toNat), (23, 6, a.toNat), (22, 1, 1), (0, 22, v.toNat)] [(35, 5), (42, 6), (40, 2), (29, 6), (23, 6), (22, 1), (0, 22)] (by exact scTy_enc _ 6 _ _ _) rfl rfl ⟨BitVec.isLt _, by decide, ityCode_lt _, BitVec.isLt _, BitVec.isLt _, by decide, BitVec.isLt _, trivial⟩ rfl fun x hL => ?_; change Clean _ _ (decSc x)
    have ht : ityOf x = t := ityOf_eq (hL 40 2 rfl)
    have hop : ¬fld x 40 8 < 4 ∧ fld x 40 8 < 0x68 := sc_op (k := 6) (hL 42 6 rfl) (by decide) (by decide)
    simp (disch := decide) [decSc, decScInt, hop, ht, srcBOf, scRest, noImm, Clean, bv_eq, bt_eq, resv, rcode, excl, wrongTy, hL, Layout.at, Nat.mod_add_div]
theorem scAnd (t : ITy) (d : BitVec 6) (a : BitVec 6) (b : SrcB) : Statement (.scAnd t d a b) := by
  rintro g arg hw ha p ⟨⟩
  obtain rfl := no_arg ha
  rcases b with n | v
  · refine back [(35, 5, g.toNat), (42, 6, 7), (40, 2, ityCode t), (29, 6, d.toNat), (23, 6, a.toNat), (16, 6, n.toNat)] [(35, 5), (42, 6), (40, 2), (29, 6), (23, 6), (16, 6)] (by exact scTy_enc _ 7 _ _ _) rfl rfl ⟨BitVec.isLt _, by decide, ityCode_lt _, BitVec.isLt _, BitVec.isLt _, BitVec.isLt _, trivial⟩ rfl fun x hL => ?_; change Clean _ _ (decSc x)
    have ht : ityOf x = t := ityOf_eq (hL 40 2 rfl)
    have hop : ¬fld x 40 8 < 4 ∧ fld x 40 8 < 0x68 := sc_op (k := 7) (hL 42 6 rfl) (by decide) (by decide)
    simp (disch := decide) [decSc, decScInt, hop, ht, srcBOf, scRest, noImm, Clean, bv_eq, bt_eq, resv, rcode, excl, wrongTy, hL, Layout.at, Nat.mod_add_div]
  · refine back [(35, 5, g.toNat), (42, 6, 7), (40, 2, ityCode t), (29, 6, d.toNat), (23, 6, a.toNat), (22, 1, 1), (0, 22, v.toNat)] [(35, 5), (42, 6), (40, 2), (29, 6), (23, 6), (22, 1), (0, 22)] (by exact scTy_enc _ 7 _ _ _) rfl rfl ⟨BitVec.isLt _, by decide, ityCode_lt _, BitVec.isLt _, BitVec.isLt _, by decide, BitVec.isLt _, trivial⟩ rfl fun x hL => ?_; change Clean _ _ (decSc x)
    have ht : ityOf x = t := ityOf_eq (hL 40 2 rfl)
    have hop : ¬fld x 40 8 < 4 ∧ fld x 40 8 < 0x68 := sc_op (k := 7) (hL 42 6 rfl) (by decide) (by decide)
    simp (disch := decide) [decSc, decScInt, hop, ht, srcBOf, scRest, noImm, Clean, bv_eq, bt_eq, resv, rcode, excl, wrongTy, hL, Layout.at, Nat.mod_add_div]
theorem scOr (t : ITy) (d : BitVec 6) (a : BitVec 6) (b : SrcB) : Statement (.scOr t d a b) := by
  rintro g arg hw ha p ⟨⟩
  obtain rfl := no_arg ha
  rcases b with n | v
  · refine back [(35, 5, g.toNat), (42, 6, 8), (40, 2, ityCode t), (29, 6, d.toNat), (23, 6, a.toNat), (16, 6, n.toNat)] [(35, 5), (42, 6), (40, 2), (29, 6), (23, 6), (16, 6)] (by exact scTy_enc _ 8 _ _ _) rfl rfl ⟨BitVec.isLt _, by decide, ityCode_lt _, BitVec.isLt _, BitVec.isLt _, BitVec.isLt _, trivial⟩ rfl fun x hL => ?_; change Clean _ _ (decSc x)
    have ht : ityOf x = t := ityOf_eq (hL 40 2 rfl)
    have hop : ¬fld x 40 8 < 4 ∧ fld x 40 8 < 0x68 := sc_op (k := 8) (hL 42 6 rfl) (by decide) (by decide)
    simp (disch := decide) [decSc, decScInt, hop, ht, srcBOf, scRest, noImm, Clean, bv_eq, bt_eq, resv, rcode, excl, wrongTy, hL, Layout.at, Nat.mod_add_div]
  · refine back [(35, 5, g.toNat), (42, 6, 8), (40, 2, ityCode t), (29, 6, d.toNat), (23, 6, a.toNat), (22, 1, 1), (0, 22, v.toNat)] [(35, 5), (42, 6), (40, 2), (29, 6), (23, 6), (22, 1), (0, 22)] (by exact scTy_enc _ 8 _ _ _) rfl rfl ⟨BitVec.isLt _, by decide, ityCode_lt _, BitVec.isLt _, BitVec.isLt _, by decide, BitVec.isLt _, trivial⟩ rfl fun x hL => ?_; change Clean _ _ (decSc x)
    have ht : ityOf x = t := ityOf_eq (hL 40 2 rfl)
    have hop : ¬fld x 40 8 < 4 ∧ fld x 40 8 < 0x68 := sc_op (k := 8) (hL 42 6 rfl) (by decide) (by decide)
    simp (disch := decide) [decSc, decScInt, hop, ht, srcBOf, scRest, noImm, Clean, bv_eq, bt_eq, resv, rcode, excl, wrongTy, hL, Layout.at, Nat.mod_add_div]
theorem scXor (t : ITy) (d : BitVec 6) (a : BitVec 6) (b : SrcB) : Statement (.scXor t d a b) := by
  rintro g arg hw ha p ⟨⟩
  obtain rfl := no_arg ha
  rcases b with n | v
  · refine back [(35, 5, g.toNat), (42, 6, 9), (40, 2, ityCode t), (29, 6, d.toNat), (23, 6, a.toNat), (16, 6, n.toNat)] [(35, 5), (42, 6), (40, 2), (29, 6), (23, 6), (16, 6)] (by exact scTy_enc _ 9 _ _ _) rfl rfl ⟨BitVec.isLt _, by decide, ityCode_lt _, BitVec.isLt _, BitVec.isLt _, BitVec.isLt _, trivial⟩ rfl fun x hL => ?_; change Clean _ _ (decSc x)
    have ht : ityOf x = t := ityOf_eq (hL 40 2 rfl)
    have hop : ¬fld x 40 8 < 4 ∧ fld x 40 8 < 0x68 := sc_op (k := 9) (hL 42 6 rfl) (by decide) (by decide)
    simp (disch := decide) [decSc, decScInt, hop, ht, srcBOf, scRest, noImm, Clean, bv_eq, bt_eq, resv, rcode, excl, wrongTy, hL, Layout.at, Nat.mod_add_div]
  · refine back [(35, 5, g.toNat), (42, 6, 9), (40, 2, ityCode t), (29, 6, d.toNat), (23, 6, a.toNat), (22, 1, 1), (0, 22, v.toNat)] [(35, 5), (42, 6), (40, 2), (29, 6), (23, 6), (22, 1), (0, 22)] (by exact scTy_enc _ 9 _ _ _) rfl rfl ⟨BitVec.isLt _, by decide, ityCode_lt _, BitVec.isLt _, BitVec.isLt _, by decide, BitVec.isLt _, trivial⟩ rfl fun x hL => ?_; change Clean _ _ (decSc x)
    have ht : ityOf x = t := ityOf_eq (hL 40 2 rfl)
    have hop : ¬fld x 40 8 < 4 ∧ fld x 40 8 < 0x68 := sc_op (k := 9) (hL 42 6 rfl) (by decide) (by decide)
    simp (disch := decide) [decSc, decScInt, hop, ht, srcBOf, scRest, noImm, Clean, bv_eq, bt_eq, resv, rcode, excl, wrongTy, hL, Layout.at, Nat.mod_add_div]
theorem scLop3 (t : ITy) (d : BitVec 6) (a : BitVec 6) (b : BitVec 6) (c : BitVec 6) (tab : BitVec 8) : Statement (.scLop3 t d a b c tab) := by
  rintro g arg hw ha p ⟨⟩
  obtain rfl := no_arg ha
  refine back [(35, 5, g.toNat), (42, 6, 10), (40, 2, ityCode t), (29, 6, d.toNat), (23, 6, a.toNat), (16, 6, b.toNat), (10, 6, c.toNat), (0, 8, tab.toNat)] [(35, 5), (42, 6), (40, 2), (29, 6), (23, 6), (16, 6), (10, 6), (0, 8)] (by exact scTy_enc _ 10 _ _ _) rfl rfl ⟨BitVec.isLt _, by decide, ityCode_lt _, BitVec.isLt _, BitVec.isLt _, BitVec.isLt _, BitVec.isLt _, BitVec.isLt _, trivial⟩ rfl fun x hL => ?_; change Clean _ _ (decSc x)
  have ht : ityOf x = t := ityOf_eq (hL 40 2 rfl)
  have hop : ¬fld x 40 8 < 4 ∧ fld x 40 8 < 0x68 := sc_op (k := 10) (hL 42 6 rfl) (by decide) (by decide)
  simp (disch := decide) [decSc, decScInt, hop, ht, srcBOf, scRest, noImm, Clean, bv_eq, bt_eq, resv, rcode, excl, wrongTy, hL, Layout.at, Nat.mod_add_div]
theorem scShl (t : ITy) (d : BitVec 6) (a : BitVec 6) (b : SrcB) : Statement (.scShl t d a b) := by
  rintro g arg hw ha p ⟨⟩
  obtain rfl := no_arg ha
  rcases b with n | v
  · refine back [(35, 5, g.toNat), (42, 6, 11), (40, 2, ityCode t), (29, 6, d.toNat), (23, 6, a.toNat), (16, 6, n.toNat)] [(35, 5), (42, 6), (40, 2), (29, 6), (23, 6), (16, 6)] (by exact scTy_enc _ 11 _ _ _) rfl rfl ⟨BitVec.isLt _, by decide, ityCode_lt _, BitVec.isLt _, BitVec.isLt _, BitVec.isLt _, trivial⟩ rfl fun x hL => ?_; change Clean _ _ (decSc x)
    have ht : ityOf x = t := ityOf_eq (hL 40 2 rfl)
    have hop : ¬fld x 40 8 < 4 ∧ fld x 40 8 < 0x68 := sc_op (k := 11) (hL 42 6 rfl) (by decide) (by decide)
    simp (disch := decide) [decSc, decScInt, hop, ht, srcBOf, scRest, noImm, Clean, bv_eq, bt_eq, resv, rcode, excl, wrongTy, hL, Layout.at, Nat.mod_add_div]
  · refine back [(35, 5, g.toNat), (42, 6, 11), (40, 2, ityCode t), (29, 6, d.toNat), (23, 6, a.toNat), (22, 1, 1), (0, 22, v.toNat)] [(35, 5), (42, 6), (40, 2), (29, 6), (23, 6), (22, 1), (0, 22)] (by exact scTy_enc _ 11 _ _ _) rfl rfl ⟨BitVec.isLt _, by decide, ityCode_lt _, BitVec.isLt _, BitVec.isLt _, by decide, BitVec.isLt _, trivial⟩ rfl fun x hL => ?_; change Clean _ _ (decSc x)
    have ht : ityOf x = t := ityOf_eq (hL 40 2 rfl)
    have hop : ¬fld x 40 8 < 4 ∧ fld x 40 8 < 0x68 := sc_op (k := 11) (hL 42 6 rfl) (by decide) (by decide)
    simp (disch := decide) [decSc, decScInt, hop, ht, srcBOf, scRest, noImm, Clean, bv_eq, bt_eq, resv, rcode, excl, wrongTy, hL, Layout.at, Nat.mod_add_div]
theorem scShr (t : ITy) (d : BitVec 6) (a : BitVec 6) (b : SrcB) : Statement (.scShr t d a b) := by
  rintro g arg hw ha p ⟨⟩
  obtain rfl := no_arg ha
  rcases b with n | v
  · refine back [(35, 5, g.toNat), (42, 6, 12), (40, 2, ityCode t), (29, 6, d.toNat), (23, 6, a.toNat), (16, 6, n.toNat)] [(35, 5), (42, 6), (40, 2), (29, 6), (23, 6), (16, 6)] (by exact scTy_enc _ 12 _ _ _) rfl rfl ⟨BitVec.isLt _, by decide, ityCode_lt _, BitVec.isLt _, BitVec.isLt _, BitVec.isLt _, trivial⟩ rfl fun x hL => ?_; change Clean _ _ (decSc x)
    have ht : ityOf x = t := ityOf_eq (hL 40 2 rfl)
    have hop : ¬fld x 40 8 < 4 ∧ fld x 40 8 < 0x68 := sc_op (k := 12) (hL 42 6 rfl) (by decide) (by decide)
    simp (disch := decide) [decSc, decScInt, hop, ht, srcBOf, scRest, noImm, Clean, bv_eq, bt_eq, resv, rcode, excl, wrongTy, hL, Layout.at, Nat.mod_add_div]
  · refine back [(35, 5, g.toNat), (42, 6, 12), (40, 2, ityCode t), (29, 6, d.toNat), (23, 6, a.toNat), (22, 1, 1), (0, 22, v.toNat)] [(35, 5), (42, 6), (40, 2), (29, 6), (23, 6), (22, 1), (0, 22)] (by exact scTy_enc _ 12 _ _ _) rfl rfl ⟨BitVec.isLt _, by decide, ityCode_lt _, BitVec.isLt _, BitVec.isLt _, by decide, BitVec.isLt _, trivial⟩ rfl fun x hL => ?_; change Clean _ _ (decSc x)
    have ht : ityOf x = t := ityOf_eq (hL 40 2 rfl)
    have hop : ¬fld x 40 8 < 4 ∧ fld x 40 8 < 0x68 := sc_op (k := 12) (hL 42 6 rfl) (by decide) (by decide)
    simp (disch := decide) [decSc, decScInt, hop, ht, srcBOf, scRest, noImm, Clean, bv_eq, bt_eq, resv, rcode, excl, wrongTy, hL, Layout.at, Nat.mod_add_div]
theorem scSar (t : ITy) (d : BitVec 6) (a : BitVec 6) (b : SrcB) : Statement (.scSar t d a b) := by
  rintro g arg hw ha p ⟨⟩
  obtain rfl := no_arg ha
  rcases b with n | v
  · refine back [(35, 5, g.toNat), (42, 6, 13), (40, 2, ityCode t), (29, 6, d.toNat), (23, 6, a.toNat), (16, 6, n.toNat)] [(35, 5), (42, 6), (40, 2), (29, 6), (23, 6), (16, 6)] (by exact scTy_enc _ 13 _ _ _) rfl rfl ⟨BitVec.isLt _, by decide, ityCode_lt _, BitVec.isLt _, BitVec.isLt _, BitVec.isLt _, trivial⟩ rfl fun x hL => ?_; change Clean _ _ (decSc x)
    have ht : ityOf x = t := ityOf_eq (hL 40 2 rfl)
    have hop : ¬fld x 40 8 < 4 ∧ fld x 40 8 < 0x68 := sc_op (k := 13) (hL 42 6 rfl) (by decide) (by decide)
    simp (disch := decide) [decSc, decScInt, hop, ht, srcBOf, scRest, noImm, Clean, bv_eq, bt_eq, resv, rcode, excl, wrongTy, hL, Layout.at, Nat.mod_add_div]
  · refine back [(35, 5, g.toNat), (42, 6, 13), (40, 2, ityCode t), (29, 6, d.toNat), (23, 6, a.toNat), (22, 1, 1), (0, 22, v.toNat)] [(35, 5), (42, 6), (40, 2), (29, 6), (23, 6), (22, 1), (0, 22)] (by exact scTy_enc _ 13 _ _ _) rfl rfl ⟨BitVec.isLt _, by decide, ityCode_lt _, BitVec.isLt _, BitVec.isLt _, by decide, BitVec.isLt _, trivial⟩ rfl fun x hL => ?_; change Clean _ _ (decSc x)
    have ht : ityOf x = t := ityOf_eq (hL 40 2 rfl)
    have hop : ¬fld x 40 8 < 4 ∧ fld x 40 8 < 0x68 := sc_op (k := 13) (hL 42 6 rfl) (by decide) (by decide)
    simp (disch := decide) [decSc, decScInt, hop, ht, srcBOf, scRest, noImm, Clean, bv_eq, bt_eq, resv, rcode, excl, wrongTy, hL, Layout.at, Nat.mod_add_div]
theorem scRot (t : ITy) (d : BitVec 6) (a : BitVec 6) (b : SrcB) : Statement (.scRot t d a b) := by
  rintro g arg hw ha p ⟨⟩
  obtain rfl := no_arg ha
  rcases b with n | v
  · refine back [(35, 5, g.toNat), (42, 6, 14), (40, 2, ityCode t), (29, 6, d.toNat), (23, 6, a.toNat), (16, 6, n.toNat)] [(35, 5), (42, 6), (40, 2), (29, 6), (23, 6), (16, 6)] (by exact scTy_enc _ 14 _ _ _) rfl rfl ⟨BitVec.isLt _, by decide, ityCode_lt _, BitVec.isLt _, BitVec.isLt _, BitVec.isLt _, trivial⟩ rfl fun x hL => ?_; change Clean _ _ (decSc x)
    have ht : ityOf x = t := ityOf_eq (hL 40 2 rfl)
    have hop : ¬fld x 40 8 < 4 ∧ fld x 40 8 < 0x68 := sc_op (k := 14) (hL 42 6 rfl) (by decide) (by decide)
    simp (disch := decide) [decSc, decScInt, hop, ht, srcBOf, scRest, noImm, Clean, bv_eq, bt_eq, resv, rcode, excl, wrongTy, hL, Layout.at, Nat.mod_add_div]
  · refine back [(35, 5, g.toNat), (42, 6, 14), (40, 2, ityCode t), (29, 6, d.toNat), (23, 6, a.toNat), (22, 1, 1), (0, 22, v.toNat)] [(35, 5), (42, 6), (40, 2), (29, 6), (23, 6), (22, 1), (0, 22)] (by exact scTy_enc _ 14 _ _ _) rfl rfl ⟨BitVec.isLt _, by decide, ityCode_lt _, BitVec.isLt _, BitVec.isLt _, by decide, BitVec.isLt _, trivial⟩ rfl fun x hL => ?_; change Clean _ _ (decSc x)
    have ht : ityOf x = t := ityOf_eq (hL 40 2 rfl)
    have hop : ¬fld x 40 8 < 4 ∧ fld x 40 8 < 0x68 := sc_op (k := 14) (hL 42 6 rfl) (by decide) (by decide)
    simp (disch := decide) [decSc, decScInt, hop, ht, srcBOf, scRest, noImm, Clean, bv_eq, bt_eq, resv, rcode, excl, wrongTy, hL, Layout.at, Nat.mod_add_div]
theorem scMin (t : ITy) (d : BitVec 6) (a : BitVec 6) (b : SrcB) : Statement (.scMin t d a b) := by
  rintro g arg hw ha p ⟨⟩
  obtain rfl := no_arg ha
  rcases b with n | v
  · refine back [(35, 5, g.toNat), (42, 6, 15), (40, 2, ityCode t), (29, 6, d.toNat), (23, 6, a.toNat), (16, 6, n.toNat)] [(35, 5), (42, 6), (40, 2), (29, 6), (23, 6), (16, 6)] (by exact scTy_enc _ 15 _ _ _) rfl rfl ⟨BitVec.isLt _, by decide, ityCode_lt _, BitVec.isLt _, BitVec.isLt _, BitVec.isLt _, trivial⟩ rfl fun x hL => ?_; change Clean _ _ (decSc x)
    have ht : ityOf x = t := ityOf_eq (hL 40 2 rfl)
    have hop : ¬fld x 40 8 < 4 ∧ fld x 40 8 < 0x68 := sc_op (k := 15) (hL 42 6 rfl) (by decide) (by decide)
    simp (disch := decide) [decSc, decScInt, hop, ht, srcBOf, scRest, noImm, Clean, bv_eq, bt_eq, resv, rcode, excl, wrongTy, hL, Layout.at, Nat.mod_add_div]
  · refine back [(35, 5, g.toNat), (42, 6, 15), (40, 2, ityCode t), (29, 6, d.toNat), (23, 6, a.toNat), (22, 1, 1), (0, 22, v.toNat)] [(35, 5), (42, 6), (40, 2), (29, 6), (23, 6), (22, 1), (0, 22)] (by exact scTy_enc _ 15 _ _ _) rfl rfl ⟨BitVec.isLt _, by decide, ityCode_lt _, BitVec.isLt _, BitVec.isLt _, by decide, BitVec.isLt _, trivial⟩ rfl fun x hL => ?_; change Clean _ _ (decSc x)
    have ht : ityOf x = t := ityOf_eq (hL 40 2 rfl)
    have hop : ¬fld x 40 8 < 4 ∧ fld x 40 8 < 0x68 := sc_op (k := 15) (hL 42 6 rfl) (by decide) (by decide)
    simp (disch := decide) [decSc, decScInt, hop, ht, srcBOf, scRest, noImm, Clean, bv_eq, bt_eq, resv, rcode, excl, wrongTy, hL, Layout.at, Nat.mod_add_div]
theorem scMax (t : ITy) (d : BitVec 6) (a : BitVec 6) (b : SrcB) : Statement (.scMax t d a b) := by
  rintro g arg hw ha p ⟨⟩
  obtain rfl := no_arg ha
  rcases b with n | v
  · refine back [(35, 5, g.toNat), (42, 6, 16), (40, 2, ityCode t), (29, 6, d.toNat), (23, 6, a.toNat), (16, 6, n.toNat)] [(35, 5), (42, 6), (40, 2), (29, 6), (23, 6), (16, 6)] (by exact scTy_enc _ 16 _ _ _) rfl rfl ⟨BitVec.isLt _, by decide, ityCode_lt _, BitVec.isLt _, BitVec.isLt _, BitVec.isLt _, trivial⟩ rfl fun x hL => ?_; change Clean _ _ (decSc x)
    have ht : ityOf x = t := ityOf_eq (hL 40 2 rfl)
    have hop : ¬fld x 40 8 < 4 ∧ fld x 40 8 < 0x68 := sc_op (k := 16) (hL 42 6 rfl) (by decide) (by decide)
    simp (disch := decide) [decSc, decScInt, hop, ht, srcBOf, scRest, noImm, Clean, bv_eq, bt_eq, resv, rcode, excl, wrongTy, hL, Layout.at, Nat.mod_add_div]
  · refine back [(35, 5, g.toNat), (42, 6, 16), (40, 2, ityCode t), (29, 6, d.toNat), (23, 6, a.toNat), (22, 1, 1), (0, 22, v.toNat)] [(35, 5), (42, 6), (40, 2), (29, 6), (23, 6), (22, 1), (0, 22)] (by exact scTy_enc _ 16 _ _ _) rfl rfl ⟨BitVec.isLt _, by decide, ityCode_lt _, BitVec.isLt _, BitVec.isLt _, by decide, BitVec.isLt _, trivial⟩ rfl fun x hL => ?_; change Clean _ _ (decSc x)
    have ht : ityOf x = t := ityOf_eq (hL 40 2 rfl)
    have hop : ¬fld x 40 8 < 4 ∧ fld x 40 8 < 0x68 := sc_op (k := 16) (hL 42 6 rfl) (by decide) (by decide)
    simp (disch := decide) [decSc, decScInt, hop, ht, srcBOf, scRest, noImm, Clean, bv_eq, bt_eq, resv, rcode, excl, wrongTy, hL, Layout.at, Nat.mod_add_div]
theorem scClz (t : ITy) (d : BitVec 6) (a : BitVec 6) : Statement (.scClz t d a) := by
  rintro g arg hw ha p ⟨⟩
  obtain rfl := no_arg ha
  refine back [(35, 5, g.toNat), (42, 6, 17), (40, 2, ityCode t), (29, 6, d.toNat), (23, 6, a.toNat)] [(35, 5), (42, 6), (40, 2), (29, 6), (23, 6)] (by exact scTy_enc _ 17 _ _ _) rfl rfl ⟨BitVec.isLt _, by decide, ityCode_lt _, BitVec.isLt _, BitVec.isLt _, trivial⟩ rfl fun x hL => ?_; change Clean _ _ (decSc x)
  have ht : ityOf x = t := ityOf_eq (hL 40 2 rfl)
  have hop : ¬fld x 40 8 < 4 ∧ fld x 40 8 < 0x68 := sc_op (k := 17) (hL 42 6 rfl) (by decide) (by decide)
  simp (disch := decide) [decSc, decScInt, hop, ht, srcBOf, scRest, noImm, Clean, bv_eq, bt_eq, resv, rcode, excl, wrongTy, hL, Layout.at, Nat.mod_add_div]
theorem scPopc (t : ITy) (d : BitVec 6) (a : BitVec 6) : Statement (.scPopc t d a) := by
  rintro g arg hw ha p ⟨⟩
  obtain rfl := no_arg ha
  refine back [(35, 5, g.toNat), (42, 6, 18), (40, 2, ityCode t), (29, 6, d.toNat), (23, 6, a.toNat)] [(35, 5), (42, 6), (40, 2), (29, 6), (23, 6)] (by exact scTy_enc _ 18 _ _ _) rfl rfl ⟨BitVec.isLt _, by decide, ityCode_lt _, BitVec.isLt _, BitVec.isLt _, trivial⟩ rfl fun x hL => ?_; change Clean _ _ (decSc x)
  have ht : ityOf x = t := ityOf_eq (hL 40 2 rfl)
  have hop : ¬fld x 40 8 < 4 ∧ fld x 40 8 < 0x68 := sc_op (k := 18) (hL 42 6 rfl) (by decide) (by decide)
  simp (disch := decide) [decSc, decScInt, hop, ht, srcBOf, scRest, noImm, Clean, bv_eq, bt_eq, resv, rcode, excl, wrongTy, hL, Layout.at, Nat.mod_add_div]
theorem scSel (t : ITy) (d : BitVec 6) (a : BitVec 6) (b : BitVec 6) (p : BitVec 4) (neg : Bool) : Statement (.scSel t d a b p neg) := by
  rintro g arg hw ha p ⟨⟩
  obtain rfl := no_arg ha
  refine back [(35, 5, g.toNat), (42, 6, 19), (40, 2, ityCode t), (29, 6, d.toNat), (23, 6, a.toNat), (16, 6, b.toNat), (0, 4, p.toNat), (4, 1, neg.toNat)] [(35, 5), (42, 6), (40, 2), (29, 6), (23, 6), (16, 6), (0, 4), (4, 1)] (by exact scTy_enc _ 19 _ _ _) rfl rfl ⟨BitVec.isLt _, by decide, ityCode_lt _, BitVec.isLt _, BitVec.isLt _, BitVec.isLt _, BitVec.isLt _, bool_lt _, trivial⟩ rfl fun x hL => ?_; change Clean _ _ (decSc x)
  have ht : ityOf x = t := ityOf_eq (hL 40 2 rfl)
  have hop : ¬fld x 40 8 < 4 ∧ fld x 40 8 < 0x68 := sc_op (k := 19) (hL 42 6 rfl) (by decide) (by decide)
  simp (disch := decide) [decSc, decScInt, hop, ht, srcBOf, scRest, noImm, Clean, bv_eq, bt_eq, resv, rcode, excl, wrongTy, hL, Layout.at, Nat.mod_add_div]
theorem scCmpEq (t : ITy) (d : CmpDst) (a : BitVec 6) (b : SrcB) : Statement (.scCmpEq t d a b) := by
  rintro g arg hw ha p ⟨⟩
  obtain rfl := no_arg ha
  rcases b with n | v
  · refine back [(35, 5, g.toNat), (42, 6, 20), (40, 2, ityCode t), (29, 6, cmpDstCode d), (23, 6, a.toNat), (16, 6, n.toNat)] [(35, 5), (42, 6), (40, 2), (29, 6), (23, 6), (16, 6)] (by exact scTy_enc _ 20 _ _ _) rfl rfl ⟨BitVec.isLt _, by decide, ityCode_lt _, cmpDstCode_lt _, BitVec.isLt _, BitVec.isLt _, trivial⟩ rfl fun x hL => ?_; change Clean _ _ (decSc x)
    have ht : ityOf x = t := ityOf_eq (hL 40 2 rfl)
    have hop : ¬fld x 40 8 < 4 ∧ fld x 40 8 < 0x68 := sc_op (k := 20) (hL 42 6 rfl) (by decide) (by decide)
    have hc : cmpDstOf x = d := cmpDstOf_eq (hL 29 6 rfl)
    have hc2 : cmpDstRsv x = [] := cmpDstRsv_eq (hL 29 6 rfl)
    simp (disch := decide) [decSc, decScInt, hop, ht, srcBOf, scRest, noImm, hc, hc2, Clean, bv_eq, bt_eq, resv, rcode, excl, wrongTy, hL, Layout.at, Nat.mod_add_div]
  · refine back [(35, 5, g.toNat), (42, 6, 20), (40, 2, ityCode t), (29, 6, cmpDstCode d), (23, 6, a.toNat), (22, 1, 1), (0, 22, v.toNat)] [(35, 5), (42, 6), (40, 2), (29, 6), (23, 6), (22, 1), (0, 22)] (by exact scTy_enc _ 20 _ _ _) rfl rfl ⟨BitVec.isLt _, by decide, ityCode_lt _, cmpDstCode_lt _, BitVec.isLt _, by decide, BitVec.isLt _, trivial⟩ rfl fun x hL => ?_; change Clean _ _ (decSc x)
    have ht : ityOf x = t := ityOf_eq (hL 40 2 rfl)
    have hop : ¬fld x 40 8 < 4 ∧ fld x 40 8 < 0x68 := sc_op (k := 20) (hL 42 6 rfl) (by decide) (by decide)
    have hc : cmpDstOf x = d := cmpDstOf_eq (hL 29 6 rfl)
    have hc2 : cmpDstRsv x = [] := cmpDstRsv_eq (hL 29 6 rfl)
    simp (disch := decide) [decSc, decScInt, hop, ht, srcBOf, scRest, noImm, hc, hc2, Clean, bv_eq, bt_eq, resv, rcode, excl, wrongTy, hL, Layout.at, Nat.mod_add_div]
theorem scCmpNe (t : ITy) (d : CmpDst) (a : BitVec 6) (b : SrcB) : Statement (.scCmpNe t d a b) := by
  rintro g arg hw ha p ⟨⟩
  obtain rfl := no_arg ha
  rcases b with n | v
  · refine back [(35, 5, g.toNat), (42, 6, 21), (40, 2, ityCode t), (29, 6, cmpDstCode d), (23, 6, a.toNat), (16, 6, n.toNat)] [(35, 5), (42, 6), (40, 2), (29, 6), (23, 6), (16, 6)] (by exact scTy_enc _ 21 _ _ _) rfl rfl ⟨BitVec.isLt _, by decide, ityCode_lt _, cmpDstCode_lt _, BitVec.isLt _, BitVec.isLt _, trivial⟩ rfl fun x hL => ?_; change Clean _ _ (decSc x)
    have ht : ityOf x = t := ityOf_eq (hL 40 2 rfl)
    have hop : ¬fld x 40 8 < 4 ∧ fld x 40 8 < 0x68 := sc_op (k := 21) (hL 42 6 rfl) (by decide) (by decide)
    have hc : cmpDstOf x = d := cmpDstOf_eq (hL 29 6 rfl)
    have hc2 : cmpDstRsv x = [] := cmpDstRsv_eq (hL 29 6 rfl)
    simp (disch := decide) [decSc, decScInt, hop, ht, srcBOf, scRest, noImm, hc, hc2, Clean, bv_eq, bt_eq, resv, rcode, excl, wrongTy, hL, Layout.at, Nat.mod_add_div]
  · refine back [(35, 5, g.toNat), (42, 6, 21), (40, 2, ityCode t), (29, 6, cmpDstCode d), (23, 6, a.toNat), (22, 1, 1), (0, 22, v.toNat)] [(35, 5), (42, 6), (40, 2), (29, 6), (23, 6), (22, 1), (0, 22)] (by exact scTy_enc _ 21 _ _ _) rfl rfl ⟨BitVec.isLt _, by decide, ityCode_lt _, cmpDstCode_lt _, BitVec.isLt _, by decide, BitVec.isLt _, trivial⟩ rfl fun x hL => ?_; change Clean _ _ (decSc x)
    have ht : ityOf x = t := ityOf_eq (hL 40 2 rfl)
    have hop : ¬fld x 40 8 < 4 ∧ fld x 40 8 < 0x68 := sc_op (k := 21) (hL 42 6 rfl) (by decide) (by decide)
    have hc : cmpDstOf x = d := cmpDstOf_eq (hL 29 6 rfl)
    have hc2 : cmpDstRsv x = [] := cmpDstRsv_eq (hL 29 6 rfl)
    simp (disch := decide) [decSc, decScInt, hop, ht, srcBOf, scRest, noImm, hc, hc2, Clean, bv_eq, bt_eq, resv, rcode, excl, wrongTy, hL, Layout.at, Nat.mod_add_div]
theorem scCmpLt (t : ITy) (d : CmpDst) (a : BitVec 6) (b : SrcB) : Statement (.scCmpLt t d a b) := by
  rintro g arg hw ha p ⟨⟩
  obtain rfl := no_arg ha
  rcases b with n | v
  · refine back [(35, 5, g.toNat), (42, 6, 22), (40, 2, ityCode t), (29, 6, cmpDstCode d), (23, 6, a.toNat), (16, 6, n.toNat)] [(35, 5), (42, 6), (40, 2), (29, 6), (23, 6), (16, 6)] (by exact scTy_enc _ 22 _ _ _) rfl rfl ⟨BitVec.isLt _, by decide, ityCode_lt _, cmpDstCode_lt _, BitVec.isLt _, BitVec.isLt _, trivial⟩ rfl fun x hL => ?_; change Clean _ _ (decSc x)
    have ht : ityOf x = t := ityOf_eq (hL 40 2 rfl)
    have hop : ¬fld x 40 8 < 4 ∧ fld x 40 8 < 0x68 := sc_op (k := 22) (hL 42 6 rfl) (by decide) (by decide)
    have hc : cmpDstOf x = d := cmpDstOf_eq (hL 29 6 rfl)
    have hc2 : cmpDstRsv x = [] := cmpDstRsv_eq (hL 29 6 rfl)
    simp (disch := decide) [decSc, decScInt, hop, ht, srcBOf, scRest, noImm, hc, hc2, Clean, bv_eq, bt_eq, resv, rcode, excl, wrongTy, hL, Layout.at, Nat.mod_add_div]
  · refine back [(35, 5, g.toNat), (42, 6, 22), (40, 2, ityCode t), (29, 6, cmpDstCode d), (23, 6, a.toNat), (22, 1, 1), (0, 22, v.toNat)] [(35, 5), (42, 6), (40, 2), (29, 6), (23, 6), (22, 1), (0, 22)] (by exact scTy_enc _ 22 _ _ _) rfl rfl ⟨BitVec.isLt _, by decide, ityCode_lt _, cmpDstCode_lt _, BitVec.isLt _, by decide, BitVec.isLt _, trivial⟩ rfl fun x hL => ?_; change Clean _ _ (decSc x)
    have ht : ityOf x = t := ityOf_eq (hL 40 2 rfl)
    have hop : ¬fld x 40 8 < 4 ∧ fld x 40 8 < 0x68 := sc_op (k := 22) (hL 42 6 rfl) (by decide) (by decide)
    have hc : cmpDstOf x = d := cmpDstOf_eq (hL 29 6 rfl)
    have hc2 : cmpDstRsv x = [] := cmpDstRsv_eq (hL 29 6 rfl)
    simp (disch := decide) [decSc, decScInt, hop, ht, srcBOf, scRest, noImm, hc, hc2, Clean, bv_eq, bt_eq, resv, rcode, excl, wrongTy, hL, Layout.at, Nat.mod_add_div]
theorem scCmpLe (t : ITy) (d : CmpDst) (a : BitVec 6) (b : SrcB) : Statement (.scCmpLe t d a b) := by
  rintro g arg hw ha p ⟨⟩
  obtain rfl := no_arg ha
  rcases b with n | v
  · refine back [(35, 5, g.toNat), (42, 6, 23), (40, 2, ityCode t), (29, 6, cmpDstCode d), (23, 6, a.toNat), (16, 6, n.toNat)] [(35, 5), (42, 6), (40, 2), (29, 6), (23, 6), (16, 6)] (by exact scTy_enc _ 23 _ _ _) rfl rfl ⟨BitVec.isLt _, by decide, ityCode_lt _, cmpDstCode_lt _, BitVec.isLt _, BitVec.isLt _, trivial⟩ rfl fun x hL => ?_; change Clean _ _ (decSc x)
    have ht : ityOf x = t := ityOf_eq (hL 40 2 rfl)
    have hop : ¬fld x 40 8 < 4 ∧ fld x 40 8 < 0x68 := sc_op (k := 23) (hL 42 6 rfl) (by decide) (by decide)
    have hc : cmpDstOf x = d := cmpDstOf_eq (hL 29 6 rfl)
    have hc2 : cmpDstRsv x = [] := cmpDstRsv_eq (hL 29 6 rfl)
    simp (disch := decide) [decSc, decScInt, hop, ht, srcBOf, scRest, noImm, hc, hc2, Clean, bv_eq, bt_eq, resv, rcode, excl, wrongTy, hL, Layout.at, Nat.mod_add_div]
  · refine back [(35, 5, g.toNat), (42, 6, 23), (40, 2, ityCode t), (29, 6, cmpDstCode d), (23, 6, a.toNat), (22, 1, 1), (0, 22, v.toNat)] [(35, 5), (42, 6), (40, 2), (29, 6), (23, 6), (22, 1), (0, 22)] (by exact scTy_enc _ 23 _ _ _) rfl rfl ⟨BitVec.isLt _, by decide, ityCode_lt _, cmpDstCode_lt _, BitVec.isLt _, by decide, BitVec.isLt _, trivial⟩ rfl fun x hL => ?_; change Clean _ _ (decSc x)
    have ht : ityOf x = t := ityOf_eq (hL 40 2 rfl)
    have hop : ¬fld x 40 8 < 4 ∧ fld x 40 8 < 0x68 := sc_op (k := 23) (hL 42 6 rfl) (by decide) (by decide)
    have hc : cmpDstOf x = d := cmpDstOf_eq (hL 29 6 rfl)
    have hc2 : cmpDstRsv x = [] := cmpDstRsv_eq (hL 29 6 rfl)
    simp (disch := decide) [decSc, decScInt, hop, ht, srcBOf, scRest, noImm, hc, hc2, Clean, bv_eq, bt_eq, resv, rcode, excl, wrongTy, hL, Layout.at, Nat.mod_add_div]
theorem scCmpGt (t : ITy) (d : CmpDst) (a : BitVec 6) (b : SrcB) : Statement (.scCmpGt t d a b) := by
  rintro g arg hw ha p ⟨⟩
  obtain rfl := no_arg ha
  rcases b with n | v
  · refine back [(35, 5, g.toNat), (42, 6, 24), (40, 2, ityCode t), (29, 6, cmpDstCode d), (23, 6, a.toNat), (16, 6, n.toNat)] [(35, 5), (42, 6), (40, 2), (29, 6), (23, 6), (16, 6)] (by exact scTy_enc _ 24 _ _ _) rfl rfl ⟨BitVec.isLt _, by decide, ityCode_lt _, cmpDstCode_lt _, BitVec.isLt _, BitVec.isLt _, trivial⟩ rfl fun x hL => ?_; change Clean _ _ (decSc x)
    have ht : ityOf x = t := ityOf_eq (hL 40 2 rfl)
    have hop : ¬fld x 40 8 < 4 ∧ fld x 40 8 < 0x68 := sc_op (k := 24) (hL 42 6 rfl) (by decide) (by decide)
    have hc : cmpDstOf x = d := cmpDstOf_eq (hL 29 6 rfl)
    have hc2 : cmpDstRsv x = [] := cmpDstRsv_eq (hL 29 6 rfl)
    simp (disch := decide) [decSc, decScInt, hop, ht, srcBOf, scRest, noImm, hc, hc2, Clean, bv_eq, bt_eq, resv, rcode, excl, wrongTy, hL, Layout.at, Nat.mod_add_div]
  · refine back [(35, 5, g.toNat), (42, 6, 24), (40, 2, ityCode t), (29, 6, cmpDstCode d), (23, 6, a.toNat), (22, 1, 1), (0, 22, v.toNat)] [(35, 5), (42, 6), (40, 2), (29, 6), (23, 6), (22, 1), (0, 22)] (by exact scTy_enc _ 24 _ _ _) rfl rfl ⟨BitVec.isLt _, by decide, ityCode_lt _, cmpDstCode_lt _, BitVec.isLt _, by decide, BitVec.isLt _, trivial⟩ rfl fun x hL => ?_; change Clean _ _ (decSc x)
    have ht : ityOf x = t := ityOf_eq (hL 40 2 rfl)
    have hop : ¬fld x 40 8 < 4 ∧ fld x 40 8 < 0x68 := sc_op (k := 24) (hL 42 6 rfl) (by decide) (by decide)
    have hc : cmpDstOf x = d := cmpDstOf_eq (hL 29 6 rfl)
    have hc2 : cmpDstRsv x = [] := cmpDstRsv_eq (hL 29 6 rfl)
    simp (disch := decide) [decSc, decScInt, hop, ht, srcBOf, scRest, noImm, hc, hc2, Clean, bv_eq, bt_eq, resv, rcode, excl, wrongTy, hL, Layout.at, Nat.mod_add_div]
theorem scCmpGe (t : ITy) (d : CmpDst) (a : BitVec 6) (b : SrcB) : Statement (.scCmpGe t d a b) := by
  rintro g arg hw ha p ⟨⟩
  obtain rfl := no_arg ha
  rcases b with n | v
  · refine back [(35, 5, g.toNat), (42, 6, 25), (40, 2, ityCode t), (29, 6, cmpDstCode d), (23, 6, a.toNat), (16, 6, n.toNat)] [(35, 5), (42, 6), (40, 2), (29, 6), (23, 6), (16, 6)] (by exact scTy_enc _ 25 _ _ _) rfl rfl ⟨BitVec.isLt _, by decide, ityCode_lt _, cmpDstCode_lt _, BitVec.isLt _, BitVec.isLt _, trivial⟩ rfl fun x hL => ?_; change Clean _ _ (decSc x)
    have ht : ityOf x = t := ityOf_eq (hL 40 2 rfl)
    have hop : ¬fld x 40 8 < 4 ∧ fld x 40 8 < 0x68 := sc_op (k := 25) (hL 42 6 rfl) (by decide) (by decide)
    have hc : cmpDstOf x = d := cmpDstOf_eq (hL 29 6 rfl)
    have hc2 : cmpDstRsv x = [] := cmpDstRsv_eq (hL 29 6 rfl)
    simp (disch := decide) [decSc, decScInt, hop, ht, srcBOf, scRest, noImm, hc, hc2, Clean, bv_eq, bt_eq, resv, rcode, excl, wrongTy, hL, Layout.at, Nat.mod_add_div]
  · refine back [(35, 5, g.toNat), (42, 6, 25), (40, 2, ityCode t), (29, 6, cmpDstCode d), (23, 6, a.toNat), (22, 1, 1), (0, 22, v.toNat)] [(35, 5), (42, 6), (40, 2), (29, 6), (23, 6), (22, 1), (0, 22)] (by exact scTy_enc _ 25 _ _ _) rfl rfl ⟨BitVec.isLt _, by decide, ityCode_lt _, cmpDstCode_lt _, BitVec.isLt _, by decide, BitVec.isLt _, trivial⟩ rfl fun x hL => ?_; change Clean _ _ (decSc x)
    have ht : ityOf x = t := ityOf_eq (hL 40 2 rfl)
    have hop : ¬fld x 40 8 < 4 ∧ fld x 40 8 < 0x68 := sc_op (k := 25) (hL 42 6 rfl) (by decide) (by decide)
    have hc : cmpDstOf x = d := cmpDstOf_eq (hL 29 6 rfl)
    have hc2 : cmpDstRsv x = [] := cmpDstRsv_eq (hL 29 6 rfl)
    simp (disch := decide) [decSc, decScInt, hop, ht, srcBOf, scRest, noImm, hc, hc2, Clean, bv_eq, bt_eq, resv, rcode, excl, wrongTy, hL, Layout.at, Nat.mod_add_div]
theorem li (d : BitVec 6) (imm : BitVec 22) : Statement (.li d imm) := by
  rintro g arg hw ha p ⟨⟩
  obtain rfl := no_arg ha
  refine back [(35, 5, g.toNat), (40, 8, 104), (29, 6, d.toNat), (22, 1, 1), (0, 22, imm.toNat)] [(35, 5), (40, 8), (29, 6), (22, 1), (0, 22)] (by rfl) rfl rfl ⟨BitVec.isLt _, by decide, BitVec.isLt _, by decide, BitVec.isLt _, trivial⟩ rfl fun x hL => ?_; change Clean _ _ (decSc x)
  simp (disch := decide) [decSc, noImm, onlyImm, badRm, Clean, bv_eq, bt_eq, resv, rcode, excl, wrongTy, hL, Layout.at, Nat.mod_add_div]
theorem liHi (d : BitVec 6) (a : BitVec 6) (imm : BitVec 22) : Statement (.liHi d a imm) := by
  rintro g arg hw ha p ⟨⟩
  obtain rfl := no_arg ha
  refine back [(35, 5, g.toNat), (40, 8, 105), (29, 6, d.toNat), (23, 6, a.toNat), (22, 1, 1), (0, 22, imm.toNat)] [(35, 5), (40, 8), (29, 6), (23, 6), (22, 1), (0, 22)] (by rfl) rfl rfl ⟨BitVec.isLt _, by decide, BitVec.isLt _, BitVec.isLt _, by decide, BitVec.isLt _, trivial⟩ rfl fun x hL => ?_; change Clean _ _ (decSc x)
  simp (disch := decide) [decSc, noImm, onlyImm, badRm, Clean, bv_eq, bt_eq, resv, rcode, excl, wrongTy, hL, Layout.at, Nat.mod_add_div]
theorem liWide (d : BitVec 6) (k : BitVec 3) : Statement (.liWide d k) := by
  rintro g arg hw ha p ⟨⟩
  obtain rfl := no_arg ha
  refine back [(35, 5, g.toNat), (40, 8, 106), (29, 6, d.toNat), (22, 1, 1), (0, 3, k.toNat)] [(35, 5), (40, 8), (29, 6), (22, 1), (0, 3)] (by rfl) rfl rfl ⟨BitVec.isLt _, by decide, BitVec.isLt _, by decide, BitVec.isLt _, trivial⟩ rfl fun x hL => ?_; change Clean _ _ (decSc x)
  simp (disch := decide) [decSc, noImm, onlyImm, badRm, Clean, bv_eq, bt_eq, resv, rcode, excl, wrongTy, hL, Layout.at, Nat.mod_add_div]
theorem adds (d : BitVec 6) (a : BitVec 6) (b : BitVec 6) (k : BitVec 3) : Statement (.adds d a b k) := by
  rintro g arg hw ha p ⟨⟩
  obtain rfl := no_arg ha
  refine back [(35, 5, g.toNat), (40, 8, 107), (29, 6, d.toNat), (23, 6, a.toNat), (16, 6, b.toNat), (0, 3, k.toNat)] [(35, 5), (40, 8), (29, 6), (23, 6), (16, 6), (0, 3)] (by rfl) rfl rfl ⟨BitVec.isLt _, by decide, BitVec.isLt _, BitVec.isLt _, BitVec.isLt _, BitVec.isLt _, trivial⟩ rfl fun x hL => ?_; change Clean _ _ (decSc x)
  simp (disch := decide) [decSc, noImm, onlyImm, badRm, Clean, bv_eq, bt_eq, resv, rcode, excl, wrongTy, hL, Layout.at, Nat.mod_add_div]
theorem fadd (rm : BitVec 3) (d : BitVec 6) (a : BitVec 6) (b : BitVec 6) : Statement (.fadd rm d a b) := by
  rintro g arg hw ha p ⟨⟩
  obtain rfl := no_arg ha
  have hw' : (wfRm rm) = true := hw
  simp [wfLevel, wfRm, wfNb, wfAdv, BitVec.toNat_eq] at hw'
  refine back [(35, 5, g.toNat), (40, 8, 112), (29, 6, d.toNat), (23, 6, a.toNat), (16, 6, b.toNat), (7, 3, rm.toNat)] [(35, 5), (40, 8), (29, 6), (23, 6), (16, 6), (7, 3)] (by rfl) rfl rfl ⟨BitVec.isLt _, by decide, BitVec.isLt _, BitVec.isLt _, BitVec.isLt _, BitVec.isLt _, trivial⟩ rfl fun x hL => ?_; change Clean _ _ (decSc x)
  simp (disch := decide) [decSc, noImm, onlyImm, badRm, Clean, bv_eq, bt_eq, resv, rcode, excl, wrongTy, hL, Layout.at, Nat.mod_add_div] <;> first | omega | grind
theorem fmul (rm : BitVec 3) (d : BitVec 6) (a : BitVec 6) (b : BitVec 6) : Statement (.fmul rm d a b) := by
  rintro g arg hw ha p ⟨⟩
  obtain rfl := no_arg ha
  have hw' : (wfRm rm) = true := hw
  simp [wfLevel, wfRm, wfNb, wfAdv, BitVec.toNat_eq] at hw'
  refine back [(35, 5, g.toNat), (40, 8, 113), (29, 6, d.toNat), (23, 6, a.toNat), (16, 6, b.toNat), (7, 3, rm.toNat)] [(35, 5), (40, 8), (29, 6), (23, 6), (16, 6), (7, 3)] (by rfl) rfl rfl ⟨BitVec.isLt _, by decide, BitVec.isLt _, BitVec.isLt _, BitVec.isLt _, BitVec.isLt _, trivial⟩ rfl fun x hL => ?_; change Clean _ _ (decSc x)
  simp (disch := decide) [decSc, noImm, onlyImm, badRm, Clean, bv_eq, bt_eq, resv, rcode, excl, wrongTy, hL, Layout.at, Nat.mod_add_div] <;> first | omega | grind
theorem scFma (rm : BitVec 3) (d : BitVec 6) (a : BitVec 6) (b : BitVec 6) (c : BitVec 6) : Statement (.scFma rm d a b c) := by
  rintro g arg hw ha p ⟨⟩
  obtain rfl := no_arg ha
  have hw' : (wfRm rm) = true := hw
  simp [wfLevel, wfRm, wfNb, wfAdv, BitVec.toNat_eq] at hw'
  refine back [(35, 5, g.toNat), (40, 8, 114), (29, 6, d.toNat), (23, 6, a.toNat), (16, 6, b.toNat), (10, 6, c.toNat), (7, 3, rm.toNat)] [(35, 5), (40, 8), (29, 6), (23, 6), (16, 6), (10, 6), (7, 3)] (by rfl) rfl rfl ⟨BitVec.isLt _, by decide, BitVec.isLt _, BitVec.isLt _, BitVec.isLt _, BitVec.isLt _, BitVec.isLt _, trivial⟩ rfl fun x hL => ?_; change Clean _ _ (decSc x)
  simp (disch := decide) [decSc, noImm, onlyImm, badRm, Clean, bv_eq, bt_eq, resv, rcode, excl, wrongTy, hL, Layout.at, Nat.mod_add_div] <;> first | omega | grind
theorem fcmp (cond : BitVec 3) (rm : BitVec 3) (d : CmpDst) (a : BitVec 6) (b : BitVec 6) : Statement (.fcmp cond rm d a b) := by
  rintro g arg hw ha p ⟨⟩
  obtain rfl := no_arg ha
  have hw' : (cond != 7 && wfRm rm) = true := hw
  simp [wfLevel, wfRm, wfNb, wfAdv, BitVec.toNat_eq] at hw'
  refine back [(35, 5, g.toNat), (40, 8, 115), (29, 6, cmpDstCode d), (23, 6, a.toNat), (16, 6, b.toNat), (7, 3, rm.toNat), (0, 3, cond.toNat)] [(35, 5), (40, 8), (29, 6), (23, 6), (16, 6), (7, 3), (0, 3)] (by rfl) rfl rfl ⟨BitVec.isLt _, by decide, cmpDstCode_lt _, BitVec.isLt _, BitVec.isLt _, BitVec.isLt _, BitVec.isLt _, trivial⟩ rfl fun x hL => ?_; change Clean _ _ (decSc x)
  have hc : cmpDstOf x = d := cmpDstOf_eq (hL 29 6 rfl)
  have hc2 : cmpDstRsv x = [] := cmpDstRsv_eq (hL 29 6 rfl)
  simp (disch := decide) [decSc, noImm, onlyImm, badRm, hc, hc2, Clean, bv_eq, bt_eq, resv, rcode, excl, wrongTy, hL, Layout.at, Nat.mod_add_div] <;> first | omega | grind
theorem scCvt (tt : BitVec 4) (src : BitVec 4) (rm : BitVec 3) (d : BitVec 6) (a : BitVec 6) : Statement (.scCvt tt src rm d a) := by
  rintro g arg hw ha p ⟨⟩
  obtain rfl := no_arg ha
  have hw' : (wfRm rm && Ty.isScCvt tt.toNat && Ty.isScCvt src.toNat && tt != src) = true := hw
  simp only [Bool.and_eq_true, bne_iff_ne, ne_eq, BitVec.toNat_eq] at hw'
  obtain ⟨⟨⟨h1, h2⟩, h3⟩, h4⟩ := hw'
  have h5 : tt.toNat ≠ 15 := by intro e; rw [e] at h2; exact absurd h2 (by decide)
  have h6 : src.toNat ≠ 15 := by intro e; rw [e] at h3; exact absurd h3 (by decide)
  refine back [(35, 5, g.toNat), (40, 8, 116), (29, 6, d.toNat), (23, 6, a.toNat), (16, 4, tt.toNat), (10, 4, src.toNat), (7, 3, rm.toNat)] [(35, 5), (40, 8), (29, 6), (23, 6), (16, 4), (10, 4), (7, 3)] (by rfl) rfl rfl ⟨BitVec.isLt _, by decide, BitVec.isLt _, BitVec.isLt _, BitVec.isLt _, BitVec.isLt _, BitVec.isLt _, trivial⟩ rfl fun x hL => ?_; change Clean _ _ (decSc x)
  have h7 : badRm x 7 = [] := badRm_ok (hL 7 3 rfl) h1
  have h8 : (src.toNat == tt.toNat) = false := by simp; exact fun e => h4 e.symm
  simp (disch := decide) [decSc, noImm, h7, h2, h3, h5, h6, h8, Clean, bv_eq, bt_eq, resv, rcode, excl, wrongTy, hL, Layout.at, Nat.mod_add_div]
theorem scMov (d : MovDst) (a : BitVec 6) : Statement (.scMov d a) := by
  rcases d with ⟨f, n, e, bc⟩ | n | ⟨k, q⟩ | k | q | n | n | n | n
  · cases f
    · rintro g arg hw ha p ⟨⟩
      obtain rfl := no_arg ha
      have hw' : (!bc || e == 0) = true := hw
      simp [wfLevel, BitVec.toNat_eq] at hw'
      refine back [(35, 5, g.toNat), (40, 8, 120), (23, 6, a.toNat), (0, 4, 1), (29, 6, n.toNat % 64), (10, 3, n.toNat / 64), (16, 4, e.toNat), (4, 1, bc.toNat)] [(35, 5), (40, 8), (23, 6), (0, 4), (29, 6), (10, 3), (16, 4), (4, 1)] (by rfl) rfl rfl ⟨BitVec.isLt _, by decide, BitVec.isLt _, by decide, Nat.mod_lt _ (by decide), (by have := n.isLt; omega : n.toNat / 64 < 2 ^ 3), BitVec.isLt _, bool_lt _, trivial⟩ rfl fun x hL => ?_; change Clean _ _ (decSc x)
      simp (disch := decide) [decSc, decScMov, movNum, noImm, Clean, bv_eq, bt_eq, resv, rcode, excl, wrongTy, hL, Layout.at, Nat.mod_add_div] <;> grind
    · rintro g arg hw ha p ⟨⟩
      obtain rfl := no_arg ha
      have hw' : (!bc || e == 0) = true := hw
      simp [wfLevel, BitVec.toNat_eq] at hw'
      refine back [(35, 5, g.toNat), (40, 8, 120), (23, 6, a.toNat), (0, 4, 2), (29, 6, n.toNat % 64), (10, 3, n.toNat / 64), (16, 4, e.toNat), (4, 1, bc.toNat)] [(35, 5), (40, 8), (23, 6), (0, 4), (29, 6), (10, 3), (16, 4), (4, 1)] (by rfl) rfl rfl ⟨BitVec.isLt _, by decide, BitVec.isLt _, by decide, Nat.mod_lt _ (by decide), (by have := n.isLt; omega : n.toNat / 64 < 2 ^ 3), BitVec.isLt _, bool_lt _, trivial⟩ rfl fun x hL => ?_; change Clean _ _ (decSc x)
      simp (disch := decide) [decSc, decScMov, movNum, noImm, Clean, bv_eq, bt_eq, resv, rcode, excl, wrongTy, hL, Layout.at, Nat.mod_add_div] <;> grind
  · rintro g arg hw ha p ⟨⟩
    obtain rfl := no_arg ha
    refine back [(35, 5, g.toNat), (40, 8, 120), (23, 6, a.toNat), (0, 4, 3), (29, 6, n.toNat)] [(35, 5), (40, 8), (23, 6), (0, 4), (29, 6)] (by rfl) rfl rfl ⟨BitVec.isLt _, by decide, BitVec.isLt _, by decide, (by have := n.isLt; omega : n.toNat < 2 ^ 6), trivial⟩ rfl fun x hL => ?_; change Clean _ _ (decSc x)
    have q2 : BitVec.ofNat 4 (n.toNat % 16) = n := by rw [Nat.mod_eq_of_lt n.isLt]; simp
    simp (disch := decide) [decSc, decScMov, movNum, noImm, q2, Clean, bv_eq, bt_eq, resv, rcode, excl, wrongTy, hL, Layout.at, Nat.mod_add_div] <;> first | omega | grind
  · rintro g arg hw ha p ⟨⟩
    obtain rfl := no_arg ha
    have hw' : (wfLevel k) = true := hw
    simp [wfLevel, BitVec.toNat_eq] at hw'
    refine back [(35, 5, g.toNat), (40, 8, 120), (23, 6, a.toNat), (0, 4, 4), (29, 6, k.toNat), (5, 1, q.toNat)] [(35, 5), (40, 8), (23, 6), (0, 4), (29, 6), (5, 1)] (by rfl) rfl rfl ⟨BitVec.isLt _, by decide, BitVec.isLt _, by decide, (by have := k.isLt; omega : k.toNat < 2 ^ 6), bool_lt _, trivial⟩ rfl fun x hL => ?_; change Clean _ _ (decSc x)
    have q2 : BitVec.ofNat 3 (k.toNat % 8) = k := by rw [Nat.mod_eq_of_lt k.isLt]; simp
    simp (disch := decide) [decSc, decScMov, movNum, noImm, q2, Clean, bv_eq, bt_eq, resv, rcode, excl, wrongTy, hL, Layout.at, Nat.mod_add_div] <;> first | omega | grind
  · rintro g arg hw ha p ⟨⟩
    obtain rfl := no_arg ha
    have hw' : (wfLevel k) = true := hw
    simp [wfLevel, BitVec.toNat_eq] at hw'
    refine back [(35, 5, g.toNat), (40, 8, 120), (23, 6, a.toNat), (0, 4, 5), (29, 6, k.toNat)] [(35, 5), (40, 8), (23, 6), (0, 4), (29, 6)] (by rfl) rfl rfl ⟨BitVec.isLt _, by decide, BitVec.isLt _, by decide, (by have := k.isLt; omega : k.toNat < 2 ^ 6), trivial⟩ rfl fun x hL => ?_; change Clean _ _ (decSc x)
    have q2 : BitVec.ofNat 3 (k.toNat % 8) = k := by rw [Nat.mod_eq_of_lt k.isLt]; simp
    simp (disch := decide) [decSc, decScMov, movNum, noImm, q2, Clean, bv_eq, bt_eq, resv, rcode, excl, wrongTy, hL, Layout.at, Nat.mod_add_div] <;> first | omega | grind
  · rintro g arg hw ha p ⟨⟩
    obtain rfl := no_arg ha
    refine back [(35, 5, g.toNat), (40, 8, 120), (23, 6, a.toNat), (0, 4, 6), (5, 1, q.toNat)] [(35, 5), (40, 8), (23, 6), (0, 4), (5, 1)] (by rfl) rfl rfl ⟨BitVec.isLt _, by decide, BitVec.isLt _, by decide, bool_lt _, trivial⟩ rfl fun x hL => ?_; change Clean _ _ (decSc x)
    simp (disch := decide) [decSc, decScMov, movNum, noImm, Clean, bv_eq, bt_eq, resv, rcode, excl, wrongTy, hL, Layout.at, Nat.mod_add_div]
  · rintro g arg hw ha p ⟨⟩
    obtain rfl := no_arg ha
    refine back [(35, 5, g.toNat), (40, 8, 120), (23, 6, a.toNat), (0, 4, 7), (29, 6, n.toNat)] [(35, 5), (40, 8), (23, 6), (0, 4), (29, 6)] (by rfl) rfl rfl ⟨BitVec.isLt _, by decide, BitVec.isLt _, by decide, (by have := n.isLt; omega : n.toNat < 2 ^ 6), trivial⟩ rfl fun x hL => ?_; change Clean _ _ (decSc x)
    have q2 : BitVec.ofNat 5 (n.toNat % 32) = n := by rw [Nat.mod_eq_of_lt n.isLt]; simp
    simp (disch := decide) [decSc, decScMov, movNum, noImm, q2, Clean, bv_eq, bt_eq, resv, rcode, excl, wrongTy, hL, Layout.at, Nat.mod_add_div] <;> first | omega | grind
  · rintro g arg hw ha p ⟨⟩
    obtain rfl := no_arg ha
    refine back [(35, 5, g.toNat), (40, 8, 120), (23, 6, a.toNat), (0, 4, 8), (29, 6, n.toNat)] [(35, 5), (40, 8), (23, 6), (0, 4), (29, 6)] (by rfl) rfl rfl ⟨BitVec.isLt _, by decide, BitVec.isLt _, by decide, (by have := n.isLt; omega : n.toNat < 2 ^ 6), trivial⟩ rfl fun x hL => ?_; change Clean _ _ (decSc x)
    have q2 : BitVec.ofNat 5 (n.toNat % 32) = n := by rw [Nat.mod_eq_of_lt n.isLt]; simp
    simp (disch := decide) [decSc, decScMov, movNum, noImm, q2, Clean, bv_eq, bt_eq, resv, rcode, excl, wrongTy, hL, Layout.at, Nat.mod_add_div] <;> first | omega | grind
  · rintro g arg hw ha p ⟨⟩
    obtain rfl := no_arg ha
    refine back [(35, 5, g.toNat), (40, 8, 120), (23, 6, a.toNat), (0, 4, 9), (29, 6, n.toNat)] [(35, 5), (40, 8), (23, 6), (0, 4), (29, 6)] (by rfl) rfl rfl ⟨BitVec.isLt _, by decide, BitVec.isLt _, by decide, (by have := n.isLt; omega : n.toNat < 2 ^ 6), trivial⟩ rfl fun x hL => ?_; change Clean _ _ (decSc x)
    have q2 : BitVec.ofNat 5 (n.toNat % 32) = n := by rw [Nat.mod_eq_of_lt n.isLt]; simp
    simp (disch := decide) [decSc, decScMov, movNum, noImm, q2, Clean, bv_eq, bt_eq, resv, rcode, excl, wrongTy, hL, Layout.at, Nat.mod_add_div] <;> first | omega | grind
  · rintro g arg hw ha p ⟨⟩
    obtain rfl := no_arg ha
    refine back [(35, 5, g.toNat), (40, 8, 120), (23, 6, a.toNat), (0, 4, 10), (29, 6, n.toNat)] [(35, 5), (40, 8), (23, 6), (0, 4), (29, 6)] (by rfl) rfl rfl ⟨BitVec.isLt _, by decide, BitVec.isLt _, by decide, (by have := n.isLt; omega : n.toNat < 2 ^ 6), trivial⟩ rfl fun x hL => ?_; change Clean _ _ (decSc x)
    have q2 : BitVec.ofNat 4 (n.toNat % 16) = n := by rw [Nat.mod_eq_of_lt n.isLt]; simp
    simp (disch := decide) [decSc, decScMov, movNum, noImm, q2, Clean, bv_eq, bt_eq, resv, rcode, excl, wrongTy, hL, Layout.at, Nat.mod_add_div] <;> first | omega | grind
theorem scSpl (a : BitVec 6) (k : BitVec 10) : Statement (.scSpl a k) := by
  rintro g arg hw ha p ⟨⟩
  obtain rfl := no_arg ha
  refine back [(35, 5, g.toNat), (40, 8, 121), (23, 6, a.toNat), (22, 1, 1), (0, 10, k.toNat)] [(35, 5), (40, 8), (23, 6), (22, 1), (0, 10)] (by rfl) rfl rfl ⟨BitVec.isLt _, by decide, BitVec.isLt _, by decide, BitVec.isLt _, trivial⟩ rfl fun x hL => ?_; change Clean _ _ (decSc x)
  simp (disch := decide) [decSc, noImm, onlyImm, badRm, Clean, bv_eq, bt_eq, resv, rcode, excl, wrongTy, hL, Layout.at, Nat.mod_add_div]
theorem scFil (d : BitVec 6) (k : BitVec 10) : Statement (.scFil d k) := by
  rintro g arg hw ha p ⟨⟩
  obtain rfl := no_arg ha
  refine back [(35, 5, g.toNat), (40, 8, 122), (29, 6, d.toNat), (22, 1, 1), (0, 10, k.toNat)] [(35, 5), (40, 8), (29, 6), (22, 1), (0, 10)] (by rfl) rfl rfl ⟨BitVec.isLt _, by decide, BitVec.isLt _, by decide, BitVec.isLt _, trivial⟩ rfl fun x hL => ?_; change Clean _ _ (decSc x)
  simp (disch := decide) [decSc, noImm, onlyImm, badRm, Clean, bv_eq, bt_eq, resv, rcode, excl, wrongTy, hL, Layout.at, Nat.mod_add_div]
theorem rdc (d : BitVec 6) (n : BitVec 8) : Statement (.rdc d n) := by
  rintro g arg hw ha p ⟨⟩
  obtain rfl := no_arg ha
  have hw' : wfRdc n = true := hw
  refine back [(35, 5, g.toNat), (40, 8, 123), (29, 6, d.toNat), (0, 8, n.toNat)] [(35, 5), (40, 8), (29, 6), (0, 8)] (by rfl) rfl rfl ⟨BitVec.isLt _, by decide, BitVec.isLt _, BitVec.isLt _, trivial⟩ rfl fun x hL => ?_; change Clean _ _ (decSc x)
  simp (disch := decide) [decSc, noImm, hw', Clean, bv_eq, bt_eq, resv, rcode, excl, wrongTy, hL, Layout.at, Nat.mod_add_div]
theorem wrc (n : BitVec 8) (a : BitVec 6) : Statement (.wrc n a) := by
  rintro g arg hw ha p ⟨⟩
  obtain rfl := no_arg ha
  have hw' : decide (n.toNat ≤ 2) = true := hw
  simp at hw'
  have hn : wfRdc n = true := by simp [wfRdc]; omega
  refine back [(35, 5, g.toNat), (40, 8, 124), (23, 6, a.toNat), (0, 8, n.toNat)] [(35, 5), (40, 8), (23, 6), (0, 8)] (by rfl) rfl rfl ⟨BitVec.isLt _, by decide, BitVec.isLt _, BitVec.isLt _, trivial⟩ rfl fun x hL => ?_; change Clean _ _ (decSc x)
  simp (disch := decide) [decSc, noImm, hn, Clean, bv_eq, bt_eq, resv, rcode, excl, wrongTy, hL, Layout.at, Nat.mod_add_div]; omega
theorem errRdTrap (d : BitVec 6) (a : BitVec 6) : Statement (.errRdTrap d a) := by
  rintro g arg hw ha p ⟨⟩
  obtain rfl := no_arg ha
  refine back [(35, 5, g.toNat), (40, 8, 125), (29, 6, d.toNat), (23, 6, a.toNat)] [(35, 5), (40, 8), (29, 6), (23, 6)] (by rfl) rfl rfl ⟨BitVec.isLt _, by decide, BitVec.isLt _, BitVec.isLt _, trivial⟩ rfl fun x hL => ?_; change Clean _ _ (decSc x)
  simp (disch := decide) [decSc, noImm, onlyImm, badRm, Clean, bv_eq, bt_eq, resv, rcode, excl, wrongTy, hL, Layout.at, Nat.mod_add_div]
theorem errRdLog (d : BitVec 6) (a : BitVec 6) : Statement (.errRdLog d a) := by
  rintro g arg hw ha p ⟨⟩
  obtain rfl := no_arg ha
  refine back [(35, 5, g.toNat), (40, 8, 125), (29, 6, d.toNat), (23, 6, a.toNat), (0, 2, 1)] [(35, 5), (40, 8), (29, 6), (23, 6), (0, 2)] (by rfl) rfl rfl ⟨BitVec.isLt _, by decide, BitVec.isLt _, BitVec.isLt _, by decide, trivial⟩ rfl fun x hL => ?_; change Clean _ _ (decSc x)
  simp (disch := decide) [decSc, noImm, onlyImm, badRm, Clean, bv_eq, bt_eq, resv, rcode, excl, wrongTy, hL, Layout.at, Nat.mod_add_div]
theorem ctxStat (d : BitVec 6) (a : BitVec 6) : Statement (.ctxStat d a) := by
  rintro g arg hw ha p ⟨⟩
  obtain rfl := no_arg ha
  refine back [(35, 5, g.toNat), (40, 8, 126), (29, 6, d.toNat), (23, 6, a.toNat)] [(35, 5), (40, 8), (29, 6), (23, 6)] (by rfl) rfl rfl ⟨BitVec.isLt _, by decide, BitVec.isLt _, BitVec.isLt _, trivial⟩ rfl fun x hL => ?_; change Clean _ _ (decSc x)
  simp (disch := decide) [decSc, noImm, onlyImm, badRm, Clean, bv_eq, bt_eq, resv, rcode, excl, wrongTy, hL, Layout.at, Nat.mod_add_div]
theorem vAdd (h : VH) (t : BitVec 4) (d : BitVec 9) (a : BitVec 9) (b : BitVec 9) (rm : BitVec 3) (sat : Bool) : Statement (.vAdd h t d a b rm sat) := by
  rintro g arg hw ha p ⟨⟩
  obtain rfl := no_arg ha
  refine backV [(45, 5, g.toNat), (56, 8, 1), (54, 2, vwCode h.w), (50, 4, t.toNat), (41, 4, h.m.toNat), (32, 9, d.toNat), (23, 9, a.toNat), (14, 9, b.toNat), (0, 3, rm.toNat), (3, 1, sat.toNat)] [(45, 5), (56, 8), (54, 2), (50, 4), (41, 4), (32, 9), (23, 9), (14, 9), (0, 3), (3, 1)] (by simp only [enc, Layout.enc, List.map, nmod, vf]; ring) rfl rfl ⟨BitVec.isLt _, by decide, vwCode_lt _, BitVec.isLt _, BitVec.isLt _, BitVec.isLt _, BitVec.isLt _, BitVec.isLt _, BitVec.isLt _, bool_lt _, trivial⟩ rfl fun x hL => ?_
  have hv : vhOf h.f x = h := vhOf_eq (hL 54 2 rfl) (hL 41 4 rfl)
  have hw' : (wfNum t rm && (Ty.isInt t.toNat || !sat)) = true := hw
  rw [Bool.and_eq_true] at hw'
  have hm : vMod x true = [] := vMod_sat (hL 50 4 rfl) (hL 0 3 rfl) (hL 3 1 rfl) (hL 4 1 rfl) hw'.1 hw'.2
  have hr : rmOf x = rm := rmOf_eq (hL 50 4 rfl) (hL 0 3 rfl) hw'.1
  have hs : satOf x = sat := satOf_eq (hL 50 4 rfl) (hL 3 1 rfl) hw'.2
  have hb : badTy x numTy = [] := badTy_ok (hL 50 4 rfl) (numTy_of hw'.1)
  have hk : vCodes x = [] := vCodes_ok (hL 54 2 rfl) (hL 50 4 rfl) (num_ne hw'.1)
  simp (disch := decide) [decV, decVMov, hv, hm, hr, hs, hb, hk, Clean, bv_eq, bt_eq, resv, rcode, excl, wrongTy, hL, Layout.at, Nat.mod_add_div]
theorem vSub (h : VH) (t : BitVec 4) (d : BitVec 9) (a : BitVec 9) (b : BitVec 9) (rm : BitVec 3) (sat : Bool) : Statement (.vSub h t d a b rm sat) := by
  rintro g arg hw ha p ⟨⟩
  obtain rfl := no_arg ha
  refine backV [(45, 5, g.toNat), (56, 8, 2), (54, 2, vwCode h.w), (50, 4, t.toNat), (41, 4, h.m.toNat), (32, 9, d.toNat), (23, 9, a.toNat), (14, 9, b.toNat), (0, 3, rm.toNat), (3, 1, sat.toNat)] [(45, 5), (56, 8), (54, 2), (50, 4), (41, 4), (32, 9), (23, 9), (14, 9), (0, 3), (3, 1)] (by simp only [enc, Layout.enc, List.map, nmod, vf]; ring) rfl rfl ⟨BitVec.isLt _, by decide, vwCode_lt _, BitVec.isLt _, BitVec.isLt _, BitVec.isLt _, BitVec.isLt _, BitVec.isLt _, BitVec.isLt _, bool_lt _, trivial⟩ rfl fun x hL => ?_
  have hv : vhOf h.f x = h := vhOf_eq (hL 54 2 rfl) (hL 41 4 rfl)
  have hw' : (wfNum t rm && (Ty.isInt t.toNat || !sat)) = true := hw
  rw [Bool.and_eq_true] at hw'
  have hm : vMod x true = [] := vMod_sat (hL 50 4 rfl) (hL 0 3 rfl) (hL 3 1 rfl) (hL 4 1 rfl) hw'.1 hw'.2
  have hr : rmOf x = rm := rmOf_eq (hL 50 4 rfl) (hL 0 3 rfl) hw'.1
  have hs : satOf x = sat := satOf_eq (hL 50 4 rfl) (hL 3 1 rfl) hw'.2
  have hb : badTy x numTy = [] := badTy_ok (hL 50 4 rfl) (numTy_of hw'.1)
  have hk : vCodes x = [] := vCodes_ok (hL 54 2 rfl) (hL 50 4 rfl) (num_ne hw'.1)
  simp (disch := decide) [decV, decVMov, hv, hm, hr, hs, hb, hk, Clean, bv_eq, bt_eq, resv, rcode, excl, wrongTy, hL, Layout.at, Nat.mod_add_div]
theorem vMul (h : VH) (t : BitVec 4) (d : BitVec 9) (a : BitVec 9) (b : BitVec 9) (rm : BitVec 3) (sat : Bool) : Statement (.vMul h t d a b rm sat) := by
  rintro g arg hw ha p ⟨⟩
  obtain rfl := no_arg ha
  refine backV [(45, 5, g.toNat), (56, 8, 3), (54, 2, vwCode h.w), (50, 4, t.toNat), (41, 4, h.m.toNat), (32, 9, d.toNat), (23, 9, a.toNat), (14, 9, b.toNat), (0, 3, rm.toNat), (3, 1, sat.toNat)] [(45, 5), (56, 8), (54, 2), (50, 4), (41, 4), (32, 9), (23, 9), (14, 9), (0, 3), (3, 1)] (by simp only [enc, Layout.enc, List.map, nmod, vf]; ring) rfl rfl ⟨BitVec.isLt _, by decide, vwCode_lt _, BitVec.isLt _, BitVec.isLt _, BitVec.isLt _, BitVec.isLt _, BitVec.isLt _, BitVec.isLt _, bool_lt _, trivial⟩ rfl fun x hL => ?_
  have hv : vhOf h.f x = h := vhOf_eq (hL 54 2 rfl) (hL 41 4 rfl)
  have hw' : (wfNum t rm && (Ty.isInt t.toNat || !sat)) = true := hw
  rw [Bool.and_eq_true] at hw'
  have hm : vMod x true = [] := vMod_sat (hL 50 4 rfl) (hL 0 3 rfl) (hL 3 1 rfl) (hL 4 1 rfl) hw'.1 hw'.2
  have hr : rmOf x = rm := rmOf_eq (hL 50 4 rfl) (hL 0 3 rfl) hw'.1
  have hs : satOf x = sat := satOf_eq (hL 50 4 rfl) (hL 3 1 rfl) hw'.2
  have hb : badTy x numTy = [] := badTy_ok (hL 50 4 rfl) (numTy_of hw'.1)
  have hk : vCodes x = [] := vCodes_ok (hL 54 2 rfl) (hL 50 4 rfl) (num_ne hw'.1)
  simp (disch := decide) [decV, decVMov, hv, hm, hr, hs, hb, hk, Clean, bv_eq, bt_eq, resv, rcode, excl, wrongTy, hL, Layout.at, Nat.mod_add_div]
theorem vMulh (h : VH) (t : BitVec 4) (d : BitVec 9) (a : BitVec 9) (b : BitVec 9) : Statement (.vMulh h t d a b) := by
  rintro g arg hw ha p ⟨⟩
  obtain rfl := no_arg ha
  refine backV [(45, 5, g.toNat), (56, 8, 4), (54, 2, vwCode h.w), (50, 4, t.toNat), (41, 4, h.m.toNat), (32, 9, d.toNat), (23, 9, a.toNat), (14, 9, b.toNat)] [(45, 5), (56, 8), (54, 2), (50, 4), (41, 4), (32, 9), (23, 9), (14, 9)] (by rfl) rfl rfl ⟨BitVec.isLt _, by decide, vwCode_lt _, BitVec.isLt _, BitVec.isLt _, BitVec.isLt _, BitVec.isLt _, BitVec.isLt _, trivial⟩ rfl fun x hL => ?_
  have hv : vhOf h.f x = h := vhOf_eq (hL 54 2 rfl) (hL 41 4 rfl)
  have hb : badTy x Ty.isInt = [] := badTy_ok (hL 50 4 rfl) hw
  have hk : vCodes x = [] := vCodes_ok (hL 54 2 rfl) (hL 50 4 rfl) (int_ne hw)
  simp (disch := decide) [decV, decVMov, hv, hb, hk, Clean, bv_eq, bt_eq, resv, rcode, excl, wrongTy, hL, Layout.at, Nat.mod_add_div]
theorem vFma (h : VH) (t : BitVec 4) (d : BitVec 9) (a : BitVec 9) (b : BitVec 9) (c : BitVec 9) (rm : BitVec 3) : Statement (.vFma h t d a b c rm) := by
  rintro g arg hw ha p ⟨⟩
  obtain rfl := no_arg ha
  refine backV [(45, 5, g.toNat), (56, 8, 5), (54, 2, vwCode h.w), (50, 4, t.toNat), (41, 4, h.m.toNat), (32, 9, d.toNat), (23, 9, a.toNat), (14, 9, b.toNat), (5, 9, c.toNat), (0, 3, rm.toNat)] [(45, 5), (56, 8), (54, 2), (50, 4), (41, 4), (32, 9), (23, 9), (14, 9), (5, 9), (0, 3)] (by rfl) rfl rfl ⟨BitVec.isLt _, by decide, vwCode_lt _, BitVec.isLt _, BitVec.isLt _, BitVec.isLt _, BitVec.isLt _, BitVec.isLt _, BitVec.isLt _, BitVec.isLt _, trivial⟩ rfl fun x hL => ?_
  have hv : vhOf h.f x = h := vhOf_eq (hL 54 2 rfl) (hL 41 4 rfl)
  have hw' : (Ty.isFloat t.toNat && wfRm rm) = true := hw
  rw [Bool.and_eq_true] at hw'
  have hm : badRm x 0 = [] := badRm_ok (hL 0 3 rfl) hw'.2
  have hb : badTy x Ty.isFloat = [] := badTy_ok (hL 50 4 rfl) hw'.1
  have hk : vCodes x = [] := vCodes_ok (hL 54 2 rfl) (hL 50 4 rfl) (float_ne hw'.1)
  simp (disch := decide) [decV, decVMov, hv, hm, hb, hk, Clean, bv_eq, bt_eq, resv, rcode, excl, wrongTy, hL, Layout.at, Nat.mod_add_div]
theorem vFms (h : VH) (t : BitVec 4) (d : BitVec 9) (a : BitVec 9) (b : BitVec 9) (c : BitVec 9) (rm : BitVec 3) : Statement (.vFms h t d a b c rm) := by
  rintro g arg hw ha p ⟨⟩
  obtain rfl := no_arg ha
  refine backV [(45, 5, g.toNat), (56, 8, 6), (54, 2, vwCode h.w), (50, 4, t.toNat), (41, 4, h.m.toNat), (32, 9, d.toNat), (23, 9, a.toNat), (14, 9, b.toNat), (5, 9, c.toNat), (0, 3, rm.toNat)] [(45, 5), (56, 8), (54, 2), (50, 4), (41, 4), (32, 9), (23, 9), (14, 9), (5, 9), (0, 3)] (by rfl) rfl rfl ⟨BitVec.isLt _, by decide, vwCode_lt _, BitVec.isLt _, BitVec.isLt _, BitVec.isLt _, BitVec.isLt _, BitVec.isLt _, BitVec.isLt _, BitVec.isLt _, trivial⟩ rfl fun x hL => ?_
  have hv : vhOf h.f x = h := vhOf_eq (hL 54 2 rfl) (hL 41 4 rfl)
  have hw' : (Ty.isFloat t.toNat && wfRm rm) = true := hw
  rw [Bool.and_eq_true] at hw'
  have hm : badRm x 0 = [] := badRm_ok (hL 0 3 rfl) hw'.2
  have hb : badTy x Ty.isFloat = [] := badTy_ok (hL 50 4 rfl) hw'.1
  have hk : vCodes x = [] := vCodes_ok (hL 54 2 rfl) (hL 50 4 rfl) (float_ne hw'.1)
  simp (disch := decide) [decV, decVMov, hv, hm, hb, hk, Clean, bv_eq, bt_eq, resv, rcode, excl, wrongTy, hL, Layout.at, Nat.mod_add_div]
theorem vFnma (h : VH) (t : BitVec 4) (d : BitVec 9) (a : BitVec 9) (b : BitVec 9) (c : BitVec 9) (rm : BitVec 3) : Statement (.vFnma h t d a b c rm) := by
  rintro g arg hw ha p ⟨⟩
  obtain rfl := no_arg ha
  refine backV [(45, 5, g.toNat), (56, 8, 7), (54, 2, vwCode h.w), (50, 4, t.toNat), (41, 4, h.m.toNat), (32, 9, d.toNat), (23, 9, a.toNat), (14, 9, b.toNat), (5, 9, c.toNat), (0, 3, rm.toNat)] [(45, 5), (56, 8), (54, 2), (50, 4), (41, 4), (32, 9), (23, 9), (14, 9), (5, 9), (0, 3)] (by rfl) rfl rfl ⟨BitVec.isLt _, by decide, vwCode_lt _, BitVec.isLt _, BitVec.isLt _, BitVec.isLt _, BitVec.isLt _, BitVec.isLt _, BitVec.isLt _, BitVec.isLt _, trivial⟩ rfl fun x hL => ?_
  have hv : vhOf h.f x = h := vhOf_eq (hL 54 2 rfl) (hL 41 4 rfl)
  have hw' : (Ty.isFloat t.toNat && wfRm rm) = true := hw
  rw [Bool.and_eq_true] at hw'
  have hm : badRm x 0 = [] := badRm_ok (hL 0 3 rfl) hw'.2
  have hb : badTy x Ty.isFloat = [] := badTy_ok (hL 50 4 rfl) hw'.1
  have hk : vCodes x = [] := vCodes_ok (hL 54 2 rfl) (hL 50 4 rfl) (float_ne hw'.1)
  simp (disch := decide) [decV, decVMov, hv, hm, hb, hk, Clean, bv_eq, bt_eq, resv, rcode, excl, wrongTy, hL, Layout.at, Nat.mod_add_div]
theorem vMin (h : VH) (t : BitVec 4) (d : BitVec 9) (a : BitVec 9) (b : BitVec 9) (rm : BitVec 3) : Statement (.vMin h t d a b rm) := by
  rintro g arg hw ha p ⟨⟩
  obtain rfl := no_arg ha
  refine backV [(45, 5, g.toNat), (56, 8, 8), (54, 2, vwCode h.w), (50, 4, t.toNat), (41, 4, h.m.toNat), (32, 9, d.toNat), (23, 9, a.toNat), (14, 9, b.toNat), (0, 3, rm.toNat)] [(45, 5), (56, 8), (54, 2), (50, 4), (41, 4), (32, 9), (23, 9), (14, 9), (0, 3)] (by rfl) rfl rfl ⟨BitVec.isLt _, by decide, vwCode_lt _, BitVec.isLt _, BitVec.isLt _, BitVec.isLt _, BitVec.isLt _, BitVec.isLt _, BitVec.isLt _, trivial⟩ rfl fun x hL => ?_
  have hv : vhOf h.f x = h := vhOf_eq (hL 54 2 rfl) (hL 41 4 rfl)
  have hw' : wfNum t rm = true := hw
  have hm : vMod x false = [] := vMod_ok (hL 50 4 rfl) (hL 0 3 rfl) (hL 3 2 rfl) hw'
  have hr : rmOf x = rm := rmOf_eq (hL 50 4 rfl) (hL 0 3 rfl) hw'
  have hb : badTy x numTy = [] := badTy_ok (hL 50 4 rfl) (numTy_of hw')
  have hk : vCodes x = [] := vCodes_ok (hL 54 2 rfl) (hL 50 4 rfl) (num_ne hw')
  simp (disch := decide) [decV, decVMov, hv, hm, hr, hb, hk, Clean, bv_eq, bt_eq, resv, rcode, excl, wrongTy, hL, Layout.at, Nat.mod_add_div]
theorem vMax (h : VH) (t : BitVec 4) (d : BitVec 9) (a : BitVec 9) (b : BitVec 9) (rm : BitVec 3) : Statement (.vMax h t d a b rm) := by
  rintro g arg hw ha p ⟨⟩
  obtain rfl := no_arg ha
  refine backV [(45, 5, g.toNat), (56, 8, 9), (54, 2, vwCode h.w), (50, 4, t.toNat), (41, 4, h.m.toNat), (32, 9, d.toNat), (23, 9, a.toNat), (14, 9, b.toNat), (0, 3, rm.toNat)] [(45, 5), (56, 8), (54, 2), (50, 4), (41, 4), (32, 9), (23, 9), (14, 9), (0, 3)] (by rfl) rfl rfl ⟨BitVec.isLt _, by decide, vwCode_lt _, BitVec.isLt _, BitVec.isLt _, BitVec.isLt _, BitVec.isLt _, BitVec.isLt _, BitVec.isLt _, trivial⟩ rfl fun x hL => ?_
  have hv : vhOf h.f x = h := vhOf_eq (hL 54 2 rfl) (hL 41 4 rfl)
  have hw' : wfNum t rm = true := hw
  have hm : vMod x false = [] := vMod_ok (hL 50 4 rfl) (hL 0 3 rfl) (hL 3 2 rfl) hw'
  have hr : rmOf x = rm := rmOf_eq (hL 50 4 rfl) (hL 0 3 rfl) hw'
  have hb : badTy x numTy = [] := badTy_ok (hL 50 4 rfl) (numTy_of hw')
  have hk : vCodes x = [] := vCodes_ok (hL 54 2 rfl) (hL 50 4 rfl) (num_ne hw')
  simp (disch := decide) [decV, decVMov, hv, hm, hr, hb, hk, Clean, bv_eq, bt_eq, resv, rcode, excl, wrongTy, hL, Layout.at, Nat.mod_add_div]
theorem vAbs (h : VH) (t : BitVec 4) (d : BitVec 9) (a : BitVec 9) (rm : BitVec 3) : Statement (.vAbs h t d a rm) := by
  rintro g arg hw ha p ⟨⟩
  obtain rfl := no_arg ha
  refine backV [(45, 5, g.toNat), (56, 8, 10), (54, 2, vwCode h.w), (50, 4, t.toNat), (41, 4, h.m.toNat), (32, 9, d.toNat), (23, 9, a.toNat), (0, 3, rm.toNat)] [(45, 5), (56, 8), (54, 2), (50, 4), (41, 4), (32, 9), (23, 9), (0, 3)] (by rfl) rfl rfl ⟨BitVec.isLt _, by decide, vwCode_lt _, BitVec.isLt _, BitVec.isLt _, BitVec.isLt _, BitVec.isLt _, BitVec.isLt _, trivial⟩ rfl fun x hL => ?_
  have hv : vhOf h.f x = h := vhOf_eq (hL 54 2 rfl) (hL 41 4 rfl)
  have hw' : wfNum t rm = true := hw
  have hm : vMod x false = [] := vMod_ok (hL 50 4 rfl) (hL 0 3 rfl) (hL 3 2 rfl) hw'
  have hr : rmOf x = rm := rmOf_eq (hL 50 4 rfl) (hL 0 3 rfl) hw'
  have hb : badTy x numTy = [] := badTy_ok (hL 50 4 rfl) (numTy_of hw')
  have hk : vCodes x = [] := vCodes_ok (hL 54 2 rfl) (hL 50 4 rfl) (num_ne hw')
  simp (disch := decide) [decV, decVMov, hv, hm, hr, hb, hk, Clean, bv_eq, bt_eq, resv, rcode, excl, wrongTy, hL, Layout.at, Nat.mod_add_div]
theorem vNeg (h : VH) (t : BitVec 4) (d : BitVec 9) (a : BitVec 9) (rm : BitVec 3) : Statement (.vNeg h t d a rm) := by
  rintro g arg hw ha p ⟨⟩
  obtain rfl := no_arg ha
  refine backV [(45, 5, g.toNat), (56, 8, 11), (54, 2, vwCode h.w), (50, 4, t.toNat), (41, 4, h.m.toNat), (32, 9, d.toNat), (23, 9, a.toNat), (0, 3, rm.toNat)] [(45, 5), (56, 8), (54, 2), (50, 4), (41, 4), (32, 9), (23, 9), (0, 3)] (by rfl) rfl rfl ⟨BitVec.isLt _, by decide, vwCode_lt _, BitVec.isLt _, BitVec.isLt _, BitVec.isLt _, BitVec.isLt _, BitVec.isLt _, trivial⟩ rfl fun x hL => ?_
  have hv : vhOf h.f x = h := vhOf_eq (hL 54 2 rfl) (hL 41 4 rfl)
  have hw' : wfNum t rm = true := hw
  have hm : vMod x false = [] := vMod_ok (hL 50 4 rfl) (hL 0 3 rfl) (hL 3 2 rfl) hw'
  have hr : rmOf x = rm := rmOf_eq (hL 50 4 rfl) (hL 0 3 rfl) hw'
  have hb : badTy x numTy = [] := badTy_ok (hL 50 4 rfl) (numTy_of hw')
  have hk : vCodes x = [] := vCodes_ok (hL 54 2 rfl) (hL 50 4 rfl) (num_ne hw')
  simp (disch := decide) [decV, decVMov, hv, hm, hr, hb, hk, Clean, bv_eq, bt_eq, resv, rcode, excl, wrongTy, hL, Layout.at, Nat.mod_add_div]
theorem vRcp (h : VH) (t : BitVec 4) (d : BitVec 9) (a : BitVec 9) (rm : BitVec 3) : Statement (.vRcp h t d a rm) := by
  rintro g arg hw ha p ⟨⟩
  obtain rfl := no_arg ha
  refine backV [(45, 5, g.toNat), (56, 8, 16), (54, 2, vwCode h.w), (50, 4, t.toNat), (41, 4, h.m.toNat), (32, 9, d.toNat), (23, 9, a.toNat), (0, 3, rm.toNat)] [(45, 5), (56, 8), (54, 2), (50, 4), (41, 4), (32, 9), (23, 9), (0, 3)] (by rfl) rfl rfl ⟨BitVec.isLt _, by decide, vwCode_lt _, BitVec.isLt _, BitVec.isLt _, BitVec.isLt _, BitVec.isLt _, BitVec.isLt _, trivial⟩ rfl fun x hL => ?_
  have hv : vhOf h.f x = h := vhOf_eq (hL 54 2 rfl) (hL 41 4 rfl)
  have hw' : (Ty.isFloat t.toNat && wfRm rm) = true := hw
  rw [Bool.and_eq_true] at hw'
  have hm : badRm x 0 = [] := badRm_ok (hL 0 3 rfl) hw'.2
  have hb : badTy x Ty.isFloat = [] := badTy_ok (hL 50 4 rfl) hw'.1
  have hk : vCodes x = [] := vCodes_ok (hL 54 2 rfl) (hL 50 4 rfl) (float_ne hw'.1)
  simp (disch := decide) [decV, decVMov, hv, hm, hb, hk, Clean, bv_eq, bt_eq, resv, rcode, excl, wrongTy, hL, Layout.at, Nat.mod_add_div]
theorem vRsq (h : VH) (t : BitVec 4) (d : BitVec 9) (a : BitVec 9) (rm : BitVec 3) : Statement (.vRsq h t d a rm) := by
  rintro g arg hw ha p ⟨⟩
  obtain rfl := no_arg ha
  refine backV [(45, 5, g.toNat), (56, 8, 17), (54, 2, vwCode h.w), (50, 4, t.toNat), (41, 4, h.m.toNat), (32, 9, d.toNat), (23, 9, a.toNat), (0, 3, rm.toNat)] [(45, 5), (56, 8), (54, 2), (50, 4), (41, 4), (32, 9), (23, 9), (0, 3)] (by rfl) rfl rfl ⟨BitVec.isLt _, by decide, vwCode_lt _, BitVec.isLt _, BitVec.isLt _, BitVec.isLt _, BitVec.isLt _, BitVec.isLt _, trivial⟩ rfl fun x hL => ?_
  have hv : vhOf h.f x = h := vhOf_eq (hL 54 2 rfl) (hL 41 4 rfl)
  have hw' : (Ty.isFloat t.toNat && wfRm rm) = true := hw
  rw [Bool.and_eq_true] at hw'
  have hm : badRm x 0 = [] := badRm_ok (hL 0 3 rfl) hw'.2
  have hb : badTy x Ty.isFloat = [] := badTy_ok (hL 50 4 rfl) hw'.1
  have hk : vCodes x = [] := vCodes_ok (hL 54 2 rfl) (hL 50 4 rfl) (float_ne hw'.1)
  simp (disch := decide) [decV, decVMov, hv, hm, hb, hk, Clean, bv_eq, bt_eq, resv, rcode, excl, wrongTy, hL, Layout.at, Nat.mod_add_div]
theorem vExp2 (h : VH) (t : BitVec 4) (d : BitVec 9) (a : BitVec 9) (rm : BitVec 3) : Statement (.vExp2 h t d a rm) := by
  rintro g arg hw ha p ⟨⟩
  obtain rfl := no_arg ha
  refine backV [(45, 5, g.toNat), (56, 8, 18), (54, 2, vwCode h.w), (50, 4, t.toNat), (41, 4, h.m.toNat), (32, 9, d.toNat), (23, 9, a.toNat), (0, 3, rm.toNat)] [(45, 5), (56, 8), (54, 2), (50, 4), (41, 4), (32, 9), (23, 9), (0, 3)] (by rfl) rfl rfl ⟨BitVec.isLt _, by decide, vwCode_lt _, BitVec.isLt _, BitVec.isLt _, BitVec.isLt _, BitVec.isLt _, BitVec.isLt _, trivial⟩ rfl fun x hL => ?_
  have hv : vhOf h.f x = h := vhOf_eq (hL 54 2 rfl) (hL 41 4 rfl)
  have hw' : (Ty.isFloat t.toNat && wfRm rm) = true := hw
  rw [Bool.and_eq_true] at hw'
  have hm : badRm x 0 = [] := badRm_ok (hL 0 3 rfl) hw'.2
  have hb : badTy x Ty.isFloat = [] := badTy_ok (hL 50 4 rfl) hw'.1
  have hk : vCodes x = [] := vCodes_ok (hL 54 2 rfl) (hL 50 4 rfl) (float_ne hw'.1)
  simp (disch := decide) [decV, decVMov, hv, hm, hb, hk, Clean, bv_eq, bt_eq, resv, rcode, excl, wrongTy, hL, Layout.at, Nat.mod_add_div]
theorem vLog2 (h : VH) (t : BitVec 4) (d : BitVec 9) (a : BitVec 9) (rm : BitVec 3) : Statement (.vLog2 h t d a rm) := by
  rintro g arg hw ha p ⟨⟩
  obtain rfl := no_arg ha
  refine backV [(45, 5, g.toNat), (56, 8, 19), (54, 2, vwCode h.w), (50, 4, t.toNat), (41, 4, h.m.toNat), (32, 9, d.toNat), (23, 9, a.toNat), (0, 3, rm.toNat)] [(45, 5), (56, 8), (54, 2), (50, 4), (41, 4), (32, 9), (23, 9), (0, 3)] (by rfl) rfl rfl ⟨BitVec.isLt _, by decide, vwCode_lt _, BitVec.isLt _, BitVec.isLt _, BitVec.isLt _, BitVec.isLt _, BitVec.isLt _, trivial⟩ rfl fun x hL => ?_
  have hv : vhOf h.f x = h := vhOf_eq (hL 54 2 rfl) (hL 41 4 rfl)
  have hw' : (Ty.isFloat t.toNat && wfRm rm) = true := hw
  rw [Bool.and_eq_true] at hw'
  have hm : badRm x 0 = [] := badRm_ok (hL 0 3 rfl) hw'.2
  have hb : badTy x Ty.isFloat = [] := badTy_ok (hL 50 4 rfl) hw'.1
  have hk : vCodes x = [] := vCodes_ok (hL 54 2 rfl) (hL 50 4 rfl) (float_ne hw'.1)
  simp (disch := decide) [decV, decVMov, hv, hm, hb, hk, Clean, bv_eq, bt_eq, resv, rcode, excl, wrongTy, hL, Layout.at, Nat.mod_add_div]
theorem vTanh (h : VH) (t : BitVec 4) (d : BitVec 9) (a : BitVec 9) (rm : BitVec 3) : Statement (.vTanh h t d a rm) := by
  rintro g arg hw ha p ⟨⟩
  obtain rfl := no_arg ha
  refine backV [(45, 5, g.toNat), (56, 8, 20), (54, 2, vwCode h.w), (50, 4, t.toNat), (41, 4, h.m.toNat), (32, 9, d.toNat), (23, 9, a.toNat), (0, 3, rm.toNat)] [(45, 5), (56, 8), (54, 2), (50, 4), (41, 4), (32, 9), (23, 9), (0, 3)] (by rfl) rfl rfl ⟨BitVec.isLt _, by decide, vwCode_lt _, BitVec.isLt _, BitVec.isLt _, BitVec.isLt _, BitVec.isLt _, BitVec.isLt _, trivial⟩ rfl fun x hL => ?_
  have hv : vhOf h.f x = h := vhOf_eq (hL 54 2 rfl) (hL 41 4 rfl)
  have hw' : (Ty.isFloat t.toNat && wfRm rm) = true := hw
  rw [Bool.and_eq_true] at hw'
  have hm : badRm x 0 = [] := badRm_ok (hL 0 3 rfl) hw'.2
  have hb : badTy x Ty.isFloat = [] := badTy_ok (hL 50 4 rfl) hw'.1
  have hk : vCodes x = [] := vCodes_ok (hL 54 2 rfl) (hL 50 4 rfl) (float_ne hw'.1)
  simp (disch := decide) [decV, decVMov, hv, hm, hb, hk, Clean, bv_eq, bt_eq, resv, rcode, excl, wrongTy, hL, Layout.at, Nat.mod_add_div]
theorem vSilu (h : VH) (t : BitVec 4) (d : BitVec 9) (a : BitVec 9) (rm : BitVec 3) : Statement (.vSilu h t d a rm) := by
  rintro g arg hw ha p ⟨⟩
  obtain rfl := no_arg ha
  refine backV [(45, 5, g.toNat), (56, 8, 21), (54, 2, vwCode h.w), (50, 4, t.toNat), (41, 4, h.m.toNat), (32, 9, d.toNat), (23, 9, a.toNat), (0, 3, rm.toNat)] [(45, 5), (56, 8), (54, 2), (50, 4), (41, 4), (32, 9), (23, 9), (0, 3)] (by rfl) rfl rfl ⟨BitVec.isLt _, by decide, vwCode_lt _, BitVec.isLt _, BitVec.isLt _, BitVec.isLt _, BitVec.isLt _, BitVec.isLt _, trivial⟩ rfl fun x hL => ?_
  have hv : vhOf h.f x = h := vhOf_eq (hL 54 2 rfl) (hL 41 4 rfl)
  have hw' : (Ty.isFloat t.toNat && wfRm rm) = true := hw
  rw [Bool.and_eq_true] at hw'
  have hm : badRm x 0 = [] := badRm_ok (hL 0 3 rfl) hw'.2
  have hb : badTy x Ty.isFloat = [] := badTy_ok (hL 50 4 rfl) hw'.1
  have hk : vCodes x = [] := vCodes_ok (hL 54 2 rfl) (hL 50 4 rfl) (float_ne hw'.1)
  simp (disch := decide) [decV, decVMov, hv, hm, hb, hk, Clean, bv_eq, bt_eq, resv, rcode, excl, wrongTy, hL, Layout.at, Nat.mod_add_div]
theorem vSoftplus (h : VH) (t : BitVec 4) (d : BitVec 9) (a : BitVec 9) (rm : BitVec 3) : Statement (.vSoftplus h t d a rm) := by
  rintro g arg hw ha p ⟨⟩
  obtain rfl := no_arg ha
  refine backV [(45, 5, g.toNat), (56, 8, 22), (54, 2, vwCode h.w), (50, 4, t.toNat), (41, 4, h.m.toNat), (32, 9, d.toNat), (23, 9, a.toNat), (0, 3, rm.toNat)] [(45, 5), (56, 8), (54, 2), (50, 4), (41, 4), (32, 9), (23, 9), (0, 3)] (by rfl) rfl rfl ⟨BitVec.isLt _, by decide, vwCode_lt _, BitVec.isLt _, BitVec.isLt _, BitVec.isLt _, BitVec.isLt _, BitVec.isLt _, trivial⟩ rfl fun x hL => ?_
  have hv : vhOf h.f x = h := vhOf_eq (hL 54 2 rfl) (hL 41 4 rfl)
  have hw' : (Ty.isFloat t.toNat && wfRm rm) = true := hw
  rw [Bool.and_eq_true] at hw'
  have hm : badRm x 0 = [] := badRm_ok (hL 0 3 rfl) hw'.2
  have hb : badTy x Ty.isFloat = [] := badTy_ok (hL 50 4 rfl) hw'.1
  have hk : vCodes x = [] := vCodes_ok (hL 54 2 rfl) (hL 50 4 rfl) (float_ne hw'.1)
  simp (disch := decide) [decV, decVMov, hv, hm, hb, hk, Clean, bv_eq, bt_eq, resv, rcode, excl, wrongTy, hL, Layout.at, Nat.mod_add_div]
theorem vAnd (h : VH) (t : BitVec 4) (d : BitVec 9) (a : BitVec 9) (b : BitVec 9) : Statement (.vAnd h t d a b) := by
  rintro g arg hw ha p ⟨⟩
  obtain rfl := no_arg ha
  refine backV [(45, 5, g.toNat), (56, 8, 32), (54, 2, vwCode h.w), (50, 4, t.toNat), (41, 4, h.m.toNat), (32, 9, d.toNat), (23, 9, a.toNat), (14, 9, b.toNat)] [(45, 5), (56, 8), (54, 2), (50, 4), (41, 4), (32, 9), (23, 9), (14, 9)] (by rfl) rfl rfl ⟨BitVec.isLt _, by decide, vwCode_lt _, BitVec.isLt _, BitVec.isLt _, BitVec.isLt _, BitVec.isLt _, BitVec.isLt _, trivial⟩ rfl fun x hL => ?_
  have hv : vhOf h.f x = h := vhOf_eq (hL 54 2 rfl) (hL 41 4 rfl)
  have hb : badTy x Ty.isInt = [] := badTy_ok (hL 50 4 rfl) hw
  have hk : vCodes x = [] := vCodes_ok (hL 54 2 rfl) (hL 50 4 rfl) (int_ne hw)
  simp (disch := decide) [decV, decVMov, hv, hb, hk, Clean, bv_eq, bt_eq, resv, rcode, excl, wrongTy, hL, Layout.at, Nat.mod_add_div]
theorem vOr (h : VH) (t : BitVec 4) (d : BitVec 9) (a : BitVec 9) (b : BitVec 9) : Statement (.vOr h t d a b) := by
  rintro g arg hw ha p ⟨⟩
  obtain rfl := no_arg ha
  refine backV [(45, 5, g.toNat), (56, 8, 33), (54, 2, vwCode h.w), (50, 4, t.toNat), (41, 4, h.m.toNat), (32, 9, d.toNat), (23, 9, a.toNat), (14, 9, b.toNat)] [(45, 5), (56, 8), (54, 2), (50, 4), (41, 4), (32, 9), (23, 9), (14, 9)] (by rfl) rfl rfl ⟨BitVec.isLt _, by decide, vwCode_lt _, BitVec.isLt _, BitVec.isLt _, BitVec.isLt _, BitVec.isLt _, BitVec.isLt _, trivial⟩ rfl fun x hL => ?_
  have hv : vhOf h.f x = h := vhOf_eq (hL 54 2 rfl) (hL 41 4 rfl)
  have hb : badTy x Ty.isInt = [] := badTy_ok (hL 50 4 rfl) hw
  have hk : vCodes x = [] := vCodes_ok (hL 54 2 rfl) (hL 50 4 rfl) (int_ne hw)
  simp (disch := decide) [decV, decVMov, hv, hb, hk, Clean, bv_eq, bt_eq, resv, rcode, excl, wrongTy, hL, Layout.at, Nat.mod_add_div]
theorem vXor (h : VH) (t : BitVec 4) (d : BitVec 9) (a : BitVec 9) (b : BitVec 9) : Statement (.vXor h t d a b) := by
  rintro g arg hw ha p ⟨⟩
  obtain rfl := no_arg ha
  refine backV [(45, 5, g.toNat), (56, 8, 34), (54, 2, vwCode h.w), (50, 4, t.toNat), (41, 4, h.m.toNat), (32, 9, d.toNat), (23, 9, a.toNat), (14, 9, b.toNat)] [(45, 5), (56, 8), (54, 2), (50, 4), (41, 4), (32, 9), (23, 9), (14, 9)] (by rfl) rfl rfl ⟨BitVec.isLt _, by decide, vwCode_lt _, BitVec.isLt _, BitVec.isLt _, BitVec.isLt _, BitVec.isLt _, BitVec.isLt _, trivial⟩ rfl fun x hL => ?_
  have hv : vhOf h.f x = h := vhOf_eq (hL 54 2 rfl) (hL 41 4 rfl)
  have hb : badTy x Ty.isInt = [] := badTy_ok (hL 50 4 rfl) hw
  have hk : vCodes x = [] := vCodes_ok (hL 54 2 rfl) (hL 50 4 rfl) (int_ne hw)
  simp (disch := decide) [decV, decVMov, hv, hb, hk, Clean, bv_eq, bt_eq, resv, rcode, excl, wrongTy, hL, Layout.at, Nat.mod_add_div]
theorem vLop3 (h : VH) (d : BitVec 9) (a : BitVec 9) (b : BitVec 9) (c : BitVec 9) (tab : BitVec 8) : Statement (.vLop3 h d a b c tab) := by
  rintro g arg hw ha p ⟨⟩
  obtain rfl := no_arg ha
  have ht := tab.isLt
  refine backV [(45, 5, g.toNat), (56, 8, 35), (54, 2, vwCode h.w), (50, 4, tab.toNat / 16), (41, 4, h.m.toNat), (32, 9, d.toNat), (23, 9, a.toNat), (14, 9, b.toNat), (5, 9, c.toNat), (1, 4, tab.toNat % 16)] [(45, 5), (56, 8), (54, 2), (50, 4), (41, 4), (32, 9), (23, 9), (14, 9), (5, 9), (1, 4)] (by rfl) rfl rfl (by refine ⟨BitVec.isLt _, by decide, vwCode_lt _, (by omega : tab.toNat / 16 < 2 ^ 4), BitVec.isLt _, BitVec.isLt _, BitVec.isLt _, BitVec.isLt _, BitVec.isLt _, (by omega : tab.toNat % 16 < 2 ^ 4), trivial⟩) rfl fun x hL => ?_
  have hv : vhOf h.f x = h := vhOf_eq (hL 54 2 rfl) (hL 41 4 rfl)
  have hk : 16 * (tab.toNat / 16) + tab.toNat % 16 = tab.toNat := Nat.div_add_mod _ _
  simp (disch := decide) [decV, hv, hk, Clean, bv_eq, bt_eq, resv, rcode, excl, wrongTy, hL, Layout.at, Nat.mod_add_div]
theorem vShl (h : VH) (t : BitVec 4) (d : BitVec 9) (a : BitVec 9) (b : BitVec 9) : Statement (.vShl h t d a b) := by
  rintro g arg hw ha p ⟨⟩
  obtain rfl := no_arg ha
  refine backV [(45, 5, g.toNat), (56, 8, 36), (54, 2, vwCode h.w), (50, 4, t.toNat), (41, 4, h.m.toNat), (32, 9, d.toNat), (23, 9, a.toNat), (14, 9, b.toNat)] [(45, 5), (56, 8), (54, 2), (50, 4), (41, 4), (32, 9), (23, 9), (14, 9)] (by rfl) rfl rfl ⟨BitVec.isLt _, by decide, vwCode_lt _, BitVec.isLt _, BitVec.isLt _, BitVec.isLt _, BitVec.isLt _, BitVec.isLt _, trivial⟩ rfl fun x hL => ?_
  have hv : vhOf h.f x = h := vhOf_eq (hL 54 2 rfl) (hL 41 4 rfl)
  have hb : badTy x Ty.isInt = [] := badTy_ok (hL 50 4 rfl) hw
  have hk : vCodes x = [] := vCodes_ok (hL 54 2 rfl) (hL 50 4 rfl) (int_ne hw)
  simp (disch := decide) [decV, decVMov, hv, hb, hk, Clean, bv_eq, bt_eq, resv, rcode, excl, wrongTy, hL, Layout.at, Nat.mod_add_div]
theorem vShr (h : VH) (t : BitVec 4) (d : BitVec 9) (a : BitVec 9) (b : BitVec 9) : Statement (.vShr h t d a b) := by
  rintro g arg hw ha p ⟨⟩
  obtain rfl := no_arg ha
  refine backV [(45, 5, g.toNat), (56, 8, 37), (54, 2, vwCode h.w), (50, 4, t.toNat), (41, 4, h.m.toNat), (32, 9, d.toNat), (23, 9, a.toNat), (14, 9, b.toNat)] [(45, 5), (56, 8), (54, 2), (50, 4), (41, 4), (32, 9), (23, 9), (14, 9)] (by rfl) rfl rfl ⟨BitVec.isLt _, by decide, vwCode_lt _, BitVec.isLt _, BitVec.isLt _, BitVec.isLt _, BitVec.isLt _, BitVec.isLt _, trivial⟩ rfl fun x hL => ?_
  have hv : vhOf h.f x = h := vhOf_eq (hL 54 2 rfl) (hL 41 4 rfl)
  have hb : badTy x Ty.isInt = [] := badTy_ok (hL 50 4 rfl) hw
  have hk : vCodes x = [] := vCodes_ok (hL 54 2 rfl) (hL 50 4 rfl) (int_ne hw)
  simp (disch := decide) [decV, decVMov, hv, hb, hk, Clean, bv_eq, bt_eq, resv, rcode, excl, wrongTy, hL, Layout.at, Nat.mod_add_div]
theorem vSar (h : VH) (t : BitVec 4) (d : BitVec 9) (a : BitVec 9) (b : BitVec 9) : Statement (.vSar h t d a b) := by
  rintro g arg hw ha p ⟨⟩
  obtain rfl := no_arg ha
  refine backV [(45, 5, g.toNat), (56, 8, 38), (54, 2, vwCode h.w), (50, 4, t.toNat), (41, 4, h.m.toNat), (32, 9, d.toNat), (23, 9, a.toNat), (14, 9, b.toNat)] [(45, 5), (56, 8), (54, 2), (50, 4), (41, 4), (32, 9), (23, 9), (14, 9)] (by rfl) rfl rfl ⟨BitVec.isLt _, by decide, vwCode_lt _, BitVec.isLt _, BitVec.isLt _, BitVec.isLt _, BitVec.isLt _, BitVec.isLt _, trivial⟩ rfl fun x hL => ?_
  have hv : vhOf h.f x = h := vhOf_eq (hL 54 2 rfl) (hL 41 4 rfl)
  have hb : badTy x Ty.isInt = [] := badTy_ok (hL 50 4 rfl) hw
  have hk : vCodes x = [] := vCodes_ok (hL 54 2 rfl) (hL 50 4 rfl) (int_ne hw)
  simp (disch := decide) [decV, decVMov, hv, hb, hk, Clean, bv_eq, bt_eq, resv, rcode, excl, wrongTy, hL, Layout.at, Nat.mod_add_div]
theorem vCvt (h : VH) (src : BitVec 4) (tt : BitVec 4) (d : BitVec 9) (a : BitVec 9) (q : BitVec 5) (rm : BitVec 3) : Statement (.vCvt h src tt d a q rm) := by
  rintro g arg hw ha p ⟨⟩
  obtain rfl := no_arg ha
  have hw' : (wfRm rm && src != 15 && tt != 15 && !Ty.cvtExcluded src.toNat tt.toNat && q.toNat < Ty.ratio src.toNat tt.toNat) = true := hw
  simp only [Bool.and_eq_true, bne_iff_ne, ne_eq, BitVec.toNat_eq, Bool.not_eq_true', decide_eq_true_eq] at hw'
  obtain ⟨⟨⟨⟨h1, h2⟩, h3⟩, h4⟩, h5⟩ := hw'
  have h2' : src ≠ 15 := fun e => h2 (congrArg BitVec.toNat e)
  refine backV [(45, 5, g.toNat), (56, 8, 39), (54, 2, vwCode h.w), (50, 4, src.toNat), (41, 4, h.m.toNat), (32, 9, d.toNat), (23, 9, a.toNat), (9, 5, q.toNat), (5, 4, tt.toNat), (0, 3, rm.toNat)] [(45, 5), (56, 8), (54, 2), (50, 4), (41, 4), (32, 9), (23, 9), (9, 5), (5, 4), (0, 3)] (by rfl) rfl rfl ⟨BitVec.isLt _, by decide, vwCode_lt _, BitVec.isLt _, BitVec.isLt _, BitVec.isLt _, BitVec.isLt _, BitVec.isLt _, BitVec.isLt _, BitVec.isLt _, trivial⟩ rfl fun x hL => ?_
  have hv : vhOf h.f x = h := vhOf_eq (hL 54 2 rfl) (hL 41 4 rfl)
  have h7 : badRm x 0 = [] := badRm_ok (hL 0 3 rfl) h1
  have h8 : vCodes x = [] := vCodes_ok (hL 54 2 rfl) (hL 50 4 rfl) h2'
  have h2n : src.toNat ≠ 15 := h2
  have h3n : tt.toNat ≠ 15 := h3
  simp (disch := decide) [decV, hv, h7, h8, h2n, h3n, h4, Clean, bv_eq, bt_eq, resv, rcode, excl, wrongTy, hL, Layout.at, Nat.mod_add_div]; omega
theorem vCmpEq (h : VH) (t : BitVec 4) (d : BitVec 4) (a : BitVec 9) (b : BitVec 9) (rm : BitVec 3) : Statement (.vCmpEq h t d a b rm) := by
  rintro g arg hw ha p ⟨⟩
  obtain rfl := no_arg ha
  refine backV [(45, 5, g.toNat), (56, 8, 48), (54, 2, vwCode h.w), (50, 4, t.toNat), (41, 4, h.m.toNat), (32, 4, d.toNat), (23, 9, a.toNat), (14, 9, b.toNat), (0, 3, rm.toNat)] [(45, 5), (56, 8), (54, 2), (50, 4), (41, 4), (32, 4), (23, 9), (14, 9), (0, 3)] (by rfl) rfl rfl ⟨BitVec.isLt _, by decide, vwCode_lt _, BitVec.isLt _, BitVec.isLt _, BitVec.isLt _, BitVec.isLt _, BitVec.isLt _, BitVec.isLt _, trivial⟩ rfl fun x hL => ?_
  have hv : vhOf h.f x = h := vhOf_eq (hL 54 2 rfl) (hL 41 4 rfl)
  have hw' : wfNum t rm = true := hw
  have hm : vMod x false = [] := vMod_ok (hL 50 4 rfl) (hL 0 3 rfl) (hL 3 2 rfl) hw'
  have hr : rmOf x = rm := rmOf_eq (hL 50 4 rfl) (hL 0 3 rfl) hw'
  have hb : badTy x numTy = [] := badTy_ok (hL 50 4 rfl) (numTy_of hw')
  have hk : vCodes x = [] := vCodes_ok (hL 54 2 rfl) (hL 50 4 rfl) (num_ne hw')
  simp (disch := decide) [decV, decVMov, hv, hm, hr, hb, hk, Clean, bv_eq, bt_eq, resv, rcode, excl, wrongTy, hL, Layout.at, Nat.mod_add_div]
theorem vCmpNe (h : VH) (t : BitVec 4) (d : BitVec 4) (a : BitVec 9) (b : BitVec 9) (rm : BitVec 3) : Statement (.vCmpNe h t d a b rm) := by
  rintro g arg hw ha p ⟨⟩
  obtain rfl := no_arg ha
  refine backV [(45, 5, g.toNat), (56, 8, 49), (54, 2, vwCode h.w), (50, 4, t.toNat), (41, 4, h.m.toNat), (32, 4, d.toNat), (23, 9, a.toNat), (14, 9, b.toNat), (0, 3, rm.toNat)] [(45, 5), (56, 8), (54, 2), (50, 4), (41, 4), (32, 4), (23, 9), (14, 9), (0, 3)] (by rfl) rfl rfl ⟨BitVec.isLt _, by decide, vwCode_lt _, BitVec.isLt _, BitVec.isLt _, BitVec.isLt _, BitVec.isLt _, BitVec.isLt _, BitVec.isLt _, trivial⟩ rfl fun x hL => ?_
  have hv : vhOf h.f x = h := vhOf_eq (hL 54 2 rfl) (hL 41 4 rfl)
  have hw' : wfNum t rm = true := hw
  have hm : vMod x false = [] := vMod_ok (hL 50 4 rfl) (hL 0 3 rfl) (hL 3 2 rfl) hw'
  have hr : rmOf x = rm := rmOf_eq (hL 50 4 rfl) (hL 0 3 rfl) hw'
  have hb : badTy x numTy = [] := badTy_ok (hL 50 4 rfl) (numTy_of hw')
  have hk : vCodes x = [] := vCodes_ok (hL 54 2 rfl) (hL 50 4 rfl) (num_ne hw')
  simp (disch := decide) [decV, decVMov, hv, hm, hr, hb, hk, Clean, bv_eq, bt_eq, resv, rcode, excl, wrongTy, hL, Layout.at, Nat.mod_add_div]
theorem vCmpLt (h : VH) (t : BitVec 4) (d : BitVec 4) (a : BitVec 9) (b : BitVec 9) (rm : BitVec 3) : Statement (.vCmpLt h t d a b rm) := by
  rintro g arg hw ha p ⟨⟩
  obtain rfl := no_arg ha
  refine backV [(45, 5, g.toNat), (56, 8, 50), (54, 2, vwCode h.w), (50, 4, t.toNat), (41, 4, h.m.toNat), (32, 4, d.toNat), (23, 9, a.toNat), (14, 9, b.toNat), (0, 3, rm.toNat)] [(45, 5), (56, 8), (54, 2), (50, 4), (41, 4), (32, 4), (23, 9), (14, 9), (0, 3)] (by rfl) rfl rfl ⟨BitVec.isLt _, by decide, vwCode_lt _, BitVec.isLt _, BitVec.isLt _, BitVec.isLt _, BitVec.isLt _, BitVec.isLt _, BitVec.isLt _, trivial⟩ rfl fun x hL => ?_
  have hv : vhOf h.f x = h := vhOf_eq (hL 54 2 rfl) (hL 41 4 rfl)
  have hw' : wfNum t rm = true := hw
  have hm : vMod x false = [] := vMod_ok (hL 50 4 rfl) (hL 0 3 rfl) (hL 3 2 rfl) hw'
  have hr : rmOf x = rm := rmOf_eq (hL 50 4 rfl) (hL 0 3 rfl) hw'
  have hb : badTy x numTy = [] := badTy_ok (hL 50 4 rfl) (numTy_of hw')
  have hk : vCodes x = [] := vCodes_ok (hL 54 2 rfl) (hL 50 4 rfl) (num_ne hw')
  simp (disch := decide) [decV, decVMov, hv, hm, hr, hb, hk, Clean, bv_eq, bt_eq, resv, rcode, excl, wrongTy, hL, Layout.at, Nat.mod_add_div]
theorem vCmpLe (h : VH) (t : BitVec 4) (d : BitVec 4) (a : BitVec 9) (b : BitVec 9) (rm : BitVec 3) : Statement (.vCmpLe h t d a b rm) := by
  rintro g arg hw ha p ⟨⟩
  obtain rfl := no_arg ha
  refine backV [(45, 5, g.toNat), (56, 8, 51), (54, 2, vwCode h.w), (50, 4, t.toNat), (41, 4, h.m.toNat), (32, 4, d.toNat), (23, 9, a.toNat), (14, 9, b.toNat), (0, 3, rm.toNat)] [(45, 5), (56, 8), (54, 2), (50, 4), (41, 4), (32, 4), (23, 9), (14, 9), (0, 3)] (by rfl) rfl rfl ⟨BitVec.isLt _, by decide, vwCode_lt _, BitVec.isLt _, BitVec.isLt _, BitVec.isLt _, BitVec.isLt _, BitVec.isLt _, BitVec.isLt _, trivial⟩ rfl fun x hL => ?_
  have hv : vhOf h.f x = h := vhOf_eq (hL 54 2 rfl) (hL 41 4 rfl)
  have hw' : wfNum t rm = true := hw
  have hm : vMod x false = [] := vMod_ok (hL 50 4 rfl) (hL 0 3 rfl) (hL 3 2 rfl) hw'
  have hr : rmOf x = rm := rmOf_eq (hL 50 4 rfl) (hL 0 3 rfl) hw'
  have hb : badTy x numTy = [] := badTy_ok (hL 50 4 rfl) (numTy_of hw')
  have hk : vCodes x = [] := vCodes_ok (hL 54 2 rfl) (hL 50 4 rfl) (num_ne hw')
  simp (disch := decide) [decV, decVMov, hv, hm, hr, hb, hk, Clean, bv_eq, bt_eq, resv, rcode, excl, wrongTy, hL, Layout.at, Nat.mod_add_div]
theorem vCmpGt (h : VH) (t : BitVec 4) (d : BitVec 4) (a : BitVec 9) (b : BitVec 9) (rm : BitVec 3) : Statement (.vCmpGt h t d a b rm) := by
  rintro g arg hw ha p ⟨⟩
  obtain rfl := no_arg ha
  refine backV [(45, 5, g.toNat), (56, 8, 52), (54, 2, vwCode h.w), (50, 4, t.toNat), (41, 4, h.m.toNat), (32, 4, d.toNat), (23, 9, a.toNat), (14, 9, b.toNat), (0, 3, rm.toNat)] [(45, 5), (56, 8), (54, 2), (50, 4), (41, 4), (32, 4), (23, 9), (14, 9), (0, 3)] (by rfl) rfl rfl ⟨BitVec.isLt _, by decide, vwCode_lt _, BitVec.isLt _, BitVec.isLt _, BitVec.isLt _, BitVec.isLt _, BitVec.isLt _, BitVec.isLt _, trivial⟩ rfl fun x hL => ?_
  have hv : vhOf h.f x = h := vhOf_eq (hL 54 2 rfl) (hL 41 4 rfl)
  have hw' : wfNum t rm = true := hw
  have hm : vMod x false = [] := vMod_ok (hL 50 4 rfl) (hL 0 3 rfl) (hL 3 2 rfl) hw'
  have hr : rmOf x = rm := rmOf_eq (hL 50 4 rfl) (hL 0 3 rfl) hw'
  have hb : badTy x numTy = [] := badTy_ok (hL 50 4 rfl) (numTy_of hw')
  have hk : vCodes x = [] := vCodes_ok (hL 54 2 rfl) (hL 50 4 rfl) (num_ne hw')
  simp (disch := decide) [decV, decVMov, hv, hm, hr, hb, hk, Clean, bv_eq, bt_eq, resv, rcode, excl, wrongTy, hL, Layout.at, Nat.mod_add_div]
theorem vCmpGe (h : VH) (t : BitVec 4) (d : BitVec 4) (a : BitVec 9) (b : BitVec 9) (rm : BitVec 3) : Statement (.vCmpGe h t d a b rm) := by
  rintro g arg hw ha p ⟨⟩
  obtain rfl := no_arg ha
  refine backV [(45, 5, g.toNat), (56, 8, 53), (54, 2, vwCode h.w), (50, 4, t.toNat), (41, 4, h.m.toNat), (32, 4, d.toNat), (23, 9, a.toNat), (14, 9, b.toNat), (0, 3, rm.toNat)] [(45, 5), (56, 8), (54, 2), (50, 4), (41, 4), (32, 4), (23, 9), (14, 9), (0, 3)] (by rfl) rfl rfl ⟨BitVec.isLt _, by decide, vwCode_lt _, BitVec.isLt _, BitVec.isLt _, BitVec.isLt _, BitVec.isLt _, BitVec.isLt _, BitVec.isLt _, trivial⟩ rfl fun x hL => ?_
  have hv : vhOf h.f x = h := vhOf_eq (hL 54 2 rfl) (hL 41 4 rfl)
  have hw' : wfNum t rm = true := hw
  have hm : vMod x false = [] := vMod_ok (hL 50 4 rfl) (hL 0 3 rfl) (hL 3 2 rfl) hw'
  have hr : rmOf x = rm := rmOf_eq (hL 50 4 rfl) (hL 0 3 rfl) hw'
  have hb : badTy x numTy = [] := badTy_ok (hL 50 4 rfl) (numTy_of hw')
  have hk : vCodes x = [] := vCodes_ok (hL 54 2 rfl) (hL 50 4 rfl) (num_ne hw')
  simp (disch := decide) [decV, decVMov, hv, hm, hr, hb, hk, Clean, bv_eq, bt_eq, resv, rcode, excl, wrongTy, hL, Layout.at, Nat.mod_add_div]
theorem vCmpUn (h : VH) (t : BitVec 4) (d : BitVec 4) (a : BitVec 9) (b : BitVec 9) (rm : BitVec 3) : Statement (.vCmpUn h t d a b rm) := by
  rintro g arg hw ha p ⟨⟩
  obtain rfl := no_arg ha
  refine backV [(45, 5, g.toNat), (56, 8, 54), (54, 2, vwCode h.w), (50, 4, t.toNat), (41, 4, h.m.toNat), (32, 4, d.toNat), (23, 9, a.toNat), (14, 9, b.toNat), (0, 3, rm.toNat)] [(45, 5), (56, 8), (54, 2), (50, 4), (41, 4), (32, 4), (23, 9), (14, 9), (0, 3)] (by rfl) rfl rfl ⟨BitVec.isLt _, by decide, vwCode_lt _, BitVec.isLt _, BitVec.isLt _, BitVec.isLt _, BitVec.isLt _, BitVec.isLt _, BitVec.isLt _, trivial⟩ rfl fun x hL => ?_
  have hv : vhOf h.f x = h := vhOf_eq (hL 54 2 rfl) (hL 41 4 rfl)
  have hw' : (Ty.isFloat t.toNat && wfRm rm) = true := hw
  rw [Bool.and_eq_true] at hw'
  have hm : badRm x 0 = [] := badRm_ok (hL 0 3 rfl) hw'.2
  have hb : badTy x Ty.isFloat = [] := badTy_ok (hL 50 4 rfl) hw'.1
  have hk : vCodes x = [] := vCodes_ok (hL 54 2 rfl) (hL 50 4 rfl) (float_ne hw'.1)
  simp (disch := decide) [decV, decVMov, hv, hm, hb, hk, Clean, bv_eq, bt_eq, resv, rcode, excl, wrongTy, hL, Layout.at, Nat.mod_add_div]
theorem vCmpEqU (h : VH) (t : BitVec 4) (a : BitVec 9) (b : BitVec 9) (rm : BitVec 3) : Statement (.vCmpEqU h t a b rm) := by
  rintro g arg hw ha p ⟨⟩
  obtain rfl := no_arg ha
  refine backV [(45, 5, g.toNat), (56, 8, 56), (54, 2, vwCode h.w), (50, 4, t.toNat), (41, 4, h.m.toNat), (23, 9, a.toNat), (14, 9, b.toNat), (0, 3, rm.toNat)] [(45, 5), (56, 8), (54, 2), (50, 4), (41, 4), (23, 9), (14, 9), (0, 3)] (by rfl) rfl rfl ⟨BitVec.isLt _, by decide, vwCode_lt _, BitVec.isLt _, BitVec.isLt _, BitVec.isLt _, BitVec.isLt _, BitVec.isLt _, trivial⟩ rfl fun x hL => ?_
  have hv : vhOf h.f x = h := vhOf_eq (hL 54 2 rfl) (hL 41 4 rfl)
  have hw' : wfNum t rm = true := hw
  have hm : vMod x false = [] := vMod_ok (hL 50 4 rfl) (hL 0 3 rfl) (hL 3 2 rfl) hw'
  have hr : rmOf x = rm := rmOf_eq (hL 50 4 rfl) (hL 0 3 rfl) hw'
  have hb : badTy x numTy = [] := badTy_ok (hL 50 4 rfl) (numTy_of hw')
  have hk : vCodes x = [] := vCodes_ok (hL 54 2 rfl) (hL 50 4 rfl) (num_ne hw')
  simp (disch := decide) [decV, decVMov, hv, hm, hr, hb, hk, Clean, bv_eq, bt_eq, resv, rcode, excl, wrongTy, hL, Layout.at, Nat.mod_add_div]
theorem vCmpNeU (h : VH) (t : BitVec 4) (a : BitVec 9) (b : BitVec 9) (rm : BitVec 3) : Statement (.vCmpNeU h t a b rm) := by
  rintro g arg hw ha p ⟨⟩
  obtain rfl := no_arg ha
  refine backV [(45, 5, g.toNat), (56, 8, 57), (54, 2, vwCode h.w), (50, 4, t.toNat), (41, 4, h.m.toNat), (23, 9, a.toNat), (14, 9, b.toNat), (0, 3, rm.toNat)] [(45, 5), (56, 8), (54, 2), (50, 4), (41, 4), (23, 9), (14, 9), (0, 3)] (by rfl) rfl rfl ⟨BitVec.isLt _, by decide, vwCode_lt _, BitVec.isLt _, BitVec.isLt _, BitVec.isLt _, BitVec.isLt _, BitVec.isLt _, trivial⟩ rfl fun x hL => ?_
  have hv : vhOf h.f x = h := vhOf_eq (hL 54 2 rfl) (hL 41 4 rfl)
  have hw' : wfNum t rm = true := hw
  have hm : vMod x false = [] := vMod_ok (hL 50 4 rfl) (hL 0 3 rfl) (hL 3 2 rfl) hw'
  have hr : rmOf x = rm := rmOf_eq (hL 50 4 rfl) (hL 0 3 rfl) hw'
  have hb : badTy x numTy = [] := badTy_ok (hL 50 4 rfl) (numTy_of hw')
  have hk : vCodes x = [] := vCodes_ok (hL 54 2 rfl) (hL 50 4 rfl) (num_ne hw')
  simp (disch := decide) [decV, decVMov, hv, hm, hr, hb, hk, Clean, bv_eq, bt_eq, resv, rcode, excl, wrongTy, hL, Layout.at, Nat.mod_add_div]
theorem vCmpLtU (h : VH) (t : BitVec 4) (a : BitVec 9) (b : BitVec 9) (rm : BitVec 3) : Statement (.vCmpLtU h t a b rm) := by
  rintro g arg hw ha p ⟨⟩
  obtain rfl := no_arg ha
  refine backV [(45, 5, g.toNat), (56, 8, 58), (54, 2, vwCode h.w), (50, 4, t.toNat), (41, 4, h.m.toNat), (23, 9, a.toNat), (14, 9, b.toNat), (0, 3, rm.toNat)] [(45, 5), (56, 8), (54, 2), (50, 4), (41, 4), (23, 9), (14, 9), (0, 3)] (by rfl) rfl rfl ⟨BitVec.isLt _, by decide, vwCode_lt _, BitVec.isLt _, BitVec.isLt _, BitVec.isLt _, BitVec.isLt _, BitVec.isLt _, trivial⟩ rfl fun x hL => ?_
  have hv : vhOf h.f x = h := vhOf_eq (hL 54 2 rfl) (hL 41 4 rfl)
  have hw' : wfNum t rm = true := hw
  have hm : vMod x false = [] := vMod_ok (hL 50 4 rfl) (hL 0 3 rfl) (hL 3 2 rfl) hw'
  have hr : rmOf x = rm := rmOf_eq (hL 50 4 rfl) (hL 0 3 rfl) hw'
  have hb : badTy x numTy = [] := badTy_ok (hL 50 4 rfl) (numTy_of hw')
  have hk : vCodes x = [] := vCodes_ok (hL 54 2 rfl) (hL 50 4 rfl) (num_ne hw')
  simp (disch := decide) [decV, decVMov, hv, hm, hr, hb, hk, Clean, bv_eq, bt_eq, resv, rcode, excl, wrongTy, hL, Layout.at, Nat.mod_add_div]
theorem vCmpLeU (h : VH) (t : BitVec 4) (a : BitVec 9) (b : BitVec 9) (rm : BitVec 3) : Statement (.vCmpLeU h t a b rm) := by
  rintro g arg hw ha p ⟨⟩
  obtain rfl := no_arg ha
  refine backV [(45, 5, g.toNat), (56, 8, 59), (54, 2, vwCode h.w), (50, 4, t.toNat), (41, 4, h.m.toNat), (23, 9, a.toNat), (14, 9, b.toNat), (0, 3, rm.toNat)] [(45, 5), (56, 8), (54, 2), (50, 4), (41, 4), (23, 9), (14, 9), (0, 3)] (by rfl) rfl rfl ⟨BitVec.isLt _, by decide, vwCode_lt _, BitVec.isLt _, BitVec.isLt _, BitVec.isLt _, BitVec.isLt _, BitVec.isLt _, trivial⟩ rfl fun x hL => ?_
  have hv : vhOf h.f x = h := vhOf_eq (hL 54 2 rfl) (hL 41 4 rfl)
  have hw' : wfNum t rm = true := hw
  have hm : vMod x false = [] := vMod_ok (hL 50 4 rfl) (hL 0 3 rfl) (hL 3 2 rfl) hw'
  have hr : rmOf x = rm := rmOf_eq (hL 50 4 rfl) (hL 0 3 rfl) hw'
  have hb : badTy x numTy = [] := badTy_ok (hL 50 4 rfl) (numTy_of hw')
  have hk : vCodes x = [] := vCodes_ok (hL 54 2 rfl) (hL 50 4 rfl) (num_ne hw')
  simp (disch := decide) [decV, decVMov, hv, hm, hr, hb, hk, Clean, bv_eq, bt_eq, resv, rcode, excl, wrongTy, hL, Layout.at, Nat.mod_add_div]
theorem vCmpGtU (h : VH) (t : BitVec 4) (a : BitVec 9) (b : BitVec 9) (rm : BitVec 3) : Statement (.vCmpGtU h t a b rm) := by
  rintro g arg hw ha p ⟨⟩
  obtain rfl := no_arg ha
  refine backV [(45, 5, g.toNat), (56, 8, 60), (54, 2, vwCode h.w), (50, 4, t.toNat), (41, 4, h.m.toNat), (23, 9, a.toNat), (14, 9, b.toNat), (0, 3, rm.toNat)] [(45, 5), (56, 8), (54, 2), (50, 4), (41, 4), (23, 9), (14, 9), (0, 3)] (by rfl) rfl rfl ⟨BitVec.isLt _, by decide, vwCode_lt _, BitVec.isLt _, BitVec.isLt _, BitVec.isLt _, BitVec.isLt _, BitVec.isLt _, trivial⟩ rfl fun x hL => ?_
  have hv : vhOf h.f x = h := vhOf_eq (hL 54 2 rfl) (hL 41 4 rfl)
  have hw' : wfNum t rm = true := hw
  have hm : vMod x false = [] := vMod_ok (hL 50 4 rfl) (hL 0 3 rfl) (hL 3 2 rfl) hw'
  have hr : rmOf x = rm := rmOf_eq (hL 50 4 rfl) (hL 0 3 rfl) hw'
  have hb : badTy x numTy = [] := badTy_ok (hL 50 4 rfl) (numTy_of hw')
  have hk : vCodes x = [] := vCodes_ok (hL 54 2 rfl) (hL 50 4 rfl) (num_ne hw')
  simp (disch := decide) [decV, decVMov, hv, hm, hr, hb, hk, Clean, bv_eq, bt_eq, resv, rcode, excl, wrongTy, hL, Layout.at, Nat.mod_add_div]
theorem vCmpGeU (h : VH) (t : BitVec 4) (a : BitVec 9) (b : BitVec 9) (rm : BitVec 3) : Statement (.vCmpGeU h t a b rm) := by
  rintro g arg hw ha p ⟨⟩
  obtain rfl := no_arg ha
  refine backV [(45, 5, g.toNat), (56, 8, 61), (54, 2, vwCode h.w), (50, 4, t.toNat), (41, 4, h.m.toNat), (23, 9, a.toNat), (14, 9, b.toNat), (0, 3, rm.toNat)] [(45, 5), (56, 8), (54, 2), (50, 4), (41, 4), (23, 9), (14, 9), (0, 3)] (by rfl) rfl rfl ⟨BitVec.isLt _, by decide, vwCode_lt _, BitVec.isLt _, BitVec.isLt _, BitVec.isLt _, BitVec.isLt _, BitVec.isLt _, trivial⟩ rfl fun x hL => ?_
  have hv : vhOf h.f x = h := vhOf_eq (hL 54 2 rfl) (hL 41 4 rfl)
  have hw' : wfNum t rm = true := hw
  have hm : vMod x false = [] := vMod_ok (hL 50 4 rfl) (hL 0 3 rfl) (hL 3 2 rfl) hw'
  have hr : rmOf x = rm := rmOf_eq (hL 50 4 rfl) (hL 0 3 rfl) hw'
  have hb : badTy x numTy = [] := badTy_ok (hL 50 4 rfl) (numTy_of hw')
  have hk : vCodes x = [] := vCodes_ok (hL 54 2 rfl) (hL 50 4 rfl) (num_ne hw')
  simp (disch := decide) [decV, decVMov, hv, hm, hr, hb, hk, Clean, bv_eq, bt_eq, resv, rcode, excl, wrongTy, hL, Layout.at, Nat.mod_add_div]
theorem vCmpUnU (h : VH) (t : BitVec 4) (a : BitVec 9) (b : BitVec 9) (rm : BitVec 3) : Statement (.vCmpUnU h t a b rm) := by
  rintro g arg hw ha p ⟨⟩
  obtain rfl := no_arg ha
  refine backV [(45, 5, g.toNat), (56, 8, 62), (54, 2, vwCode h.w), (50, 4, t.toNat), (41, 4, h.m.toNat), (23, 9, a.toNat), (14, 9, b.toNat), (0, 3, rm.toNat)] [(45, 5), (56, 8), (54, 2), (50, 4), (41, 4), (23, 9), (14, 9), (0, 3)] (by rfl) rfl rfl ⟨BitVec.isLt _, by decide, vwCode_lt _, BitVec.isLt _, BitVec.isLt _, BitVec.isLt _, BitVec.isLt _, BitVec.isLt _, trivial⟩ rfl fun x hL => ?_
  have hv : vhOf h.f x = h := vhOf_eq (hL 54 2 rfl) (hL 41 4 rfl)
  have hw' : (Ty.isFloat t.toNat && wfRm rm) = true := hw
  rw [Bool.and_eq_true] at hw'
  have hm : badRm x 0 = [] := badRm_ok (hL 0 3 rfl) hw'.2
  have hb : badTy x Ty.isFloat = [] := badTy_ok (hL 50 4 rfl) hw'.1
  have hk : vCodes x = [] := vCodes_ok (hL 54 2 rfl) (hL 50 4 rfl) (float_ne hw'.1)
  simp (disch := decide) [decV, decVMov, hv, hm, hb, hk, Clean, bv_eq, bt_eq, resv, rcode, excl, wrongTy, hL, Layout.at, Nat.mod_add_div]
theorem vSel (h : VH) (t : BitVec 4) (d : BitVec 9) (a : BitVec 9) (b : BitVec 9) (ms : BitVec 4) : Statement (.vSel h t d a b ms) := by
  rintro g arg hw ha p ⟨⟩
  obtain rfl := no_arg ha
  refine backV [(45, 5, g.toNat), (56, 8, 64), (54, 2, vwCode h.w), (50, 4, t.toNat), (41, 4, h.m.toNat), (32, 9, d.toNat), (23, 9, a.toNat), (14, 9, b.toNat), (5, 4, ms.toNat)] [(45, 5), (56, 8), (54, 2), (50, 4), (41, 4), (32, 9), (23, 9), (14, 9), (5, 4)] (by rfl) rfl rfl ⟨BitVec.isLt _, by decide, vwCode_lt _, BitVec.isLt _, BitVec.isLt _, BitVec.isLt _, BitVec.isLt _, BitVec.isLt _, BitVec.isLt _, trivial⟩ rfl fun x hL => ?_
  have hv : vhOf h.f x = h := vhOf_eq (hL 54 2 rfl) (hL 41 4 rfl)
  have hb : badTy x (· ≤ 12) = [] := badTy_ok (hL 50 4 rfl) hw
  have hk : vCodes x = [] := vCodes_ok (hL 54 2 rfl) (hL 50 4 rfl) (wide_ne hw)
  simp (disch := decide) [decV, decVMov, hv, hb, hk, Clean, bv_eq, bt_eq, resv, rcode, excl, wrongTy, hL, Layout.at, Nat.mod_add_div]
theorem vPerm (h : VH) (t : BitVec 4) (d : BitVec 9) (a : BitVec 9) (b : BitVec 9) (c : BitVec 9) : Statement (.vPerm h t d a b c) := by
  rintro g arg hw ha p ⟨⟩
  obtain rfl := no_arg ha
  refine backV [(45, 5, g.toNat), (56, 8, 65), (54, 2, vwCode h.w), (50, 4, t.toNat), (41, 4, h.m.toNat), (32, 9, d.toNat), (23, 9, a.toNat), (14, 9, b.toNat), (5, 9, c.toNat)] [(45, 5), (56, 8), (54, 2), (50, 4), (41, 4), (32, 9), (23, 9), (14, 9), (5, 9)] (by rfl) rfl rfl ⟨BitVec.isLt _, by decide, vwCode_lt _, BitVec.isLt _, BitVec.isLt _, BitVec.isLt _, BitVec.isLt _, BitVec.isLt _, BitVec.isLt _, trivial⟩ rfl fun x hL => ?_
  have hv : vhOf h.f x = h := vhOf_eq (hL 54 2 rfl) (hL 41 4 rfl)
  have hb : badTy x (· ≤ 12) = [] := badTy_ok (hL 50 4 rfl) hw
  have hk : vCodes x = [] := vCodes_ok (hL 54 2 rfl) (hL 50 4 rfl) (wide_ne hw)
  simp (disch := decide) [decV, decVMov, hv, hb, hk, Clean, bv_eq, bt_eq, resv, rcode, excl, wrongTy, hL, Layout.at, Nat.mod_add_div]
theorem vShuf (h : VH) (t : BitVec 4) (pat : BitVec 3) (d : BitVec 9) (a : BitVec 9) (b : BitVec 9) (k : BitVec 9) : Statement (.vShuf h t pat d a b k) := by
  rintro g arg hw ha p ⟨⟩
  obtain rfl := no_arg ha
  have hw' : (wfWide t && pat != 7 && ((1 ≤ pat.toNat && pat.toNat ≤ 4) || b == 0) && (if pat == 5 then k.toNat < Ty.lanes h.w.bits t.toNat else k == 0 : Bool)) = true := hw
  rw [Bool.and_eq_true, Bool.and_eq_true, Bool.and_eq_true] at hw'
  obtain ⟨⟨⟨hq, h2⟩, h3⟩, h4⟩ := hw'
  refine backV [(45, 5, g.toNat), (56, 8, 66), (54, 2, vwCode h.w), (50, 4, t.toNat), (41, 4, h.m.toNat), (32, 9, d.toNat), (23, 9, a.toNat), (14, 9, b.toNat), (5, 9, k.toNat), (0, 3, pat.toNat)] [(45, 5), (56, 8), (54, 2), (50, 4), (41, 4), (32, 9), (23, 9), (14, 9), (5, 9), (0, 3)] (by rfl) rfl rfl ⟨BitVec.isLt _, by decide, vwCode_lt _, BitVec.isLt _, BitVec.isLt _, BitVec.isLt _, BitVec.isLt _, BitVec.isLt _, BitVec.isLt _, BitVec.isLt _, trivial⟩ rfl fun x hL => ?_
  have hv : vhOf h.f x = h := vhOf_eq (hL 54 2 rfl) (hL 41 4 rfl)
  have hb : badTy x (· ≤ 12) = [] := badTy_ok (hL 50 4 rfl) hq
  have hk : vCodes x = [] := vCodes_ok (hL 54 2 rfl) (hL 50 4 rfl) (wide_ne hq)
  have h7 : pat.toNat ≠ 7 := by simpa [BitVec.toNat_eq] using h2
  have e5 : (pat == 5) = (pat.toNat == 5) := by rw [Bool.eq_iff_iff]; simp [BitVec.toNat_eq]
  rw [e5] at h4
  simp (disch := decide) [decV, hv, hb, hk, h7, Clean, bv_eq, bt_eq, resv, rcode, excl, wrongTy, hL, Layout.at, Nat.mod_add_div]
  simp [BitVec.toNat_eq] at h3 h4
  grind
theorem vBcast (h : VH) (t : BitVec 4) (d : BitVec 9) (a : BitVec 9) (k : BitVec 9) : Statement (.vBcast h t d a k) := by
  rintro g arg hw ha p ⟨⟩
  obtain rfl := no_arg ha
  have hw' : (wfWide t && k.toNat < Ty.lanes h.w.bits t.toNat) = true := hw
  simp only [Bool.and_eq_true, decide_eq_true_eq] at hw'
  obtain ⟨hq, h4⟩ := hw'
  refine backV [(45, 5, g.toNat), (56, 8, 67), (54, 2, vwCode h.w), (50, 4, t.toNat), (41, 4, h.m.toNat), (32, 9, d.toNat), (23, 9, a.toNat), (5, 9, k.toNat)] [(45, 5), (56, 8), (54, 2), (50, 4), (41, 4), (32, 9), (23, 9), (5, 9)] (by rfl) rfl rfl ⟨BitVec.isLt _, by decide, vwCode_lt _, BitVec.isLt _, BitVec.isLt _, BitVec.isLt _, BitVec.isLt _, BitVec.isLt _, trivial⟩ rfl fun x hL => ?_
  have hv : vhOf h.f x = h := vhOf_eq (hL 54 2 rfl) (hL 41 4 rfl)
  have hb : badTy x (· ≤ 12) = [] := badTy_ok (hL 50 4 rfl) hq
  have hk : vCodes x = [] := vCodes_ok (hL 54 2 rfl) (hL 50 4 rfl) (wide_ne hq)
  simp (disch := decide) [decV, hv, hb, hk, Clean, bv_eq, bt_eq, resv, rcode, excl, wrongTy, hL, Layout.at, Nat.mod_add_div]; omega
theorem vIota (h : VH) (t : BitVec 4) (d : BitVec 9) : Statement (.vIota h t d) := by
  rintro g arg hw ha p ⟨⟩
  obtain rfl := no_arg ha
  have hq : (Ty.isInt t.toNat || Ty.isFloat t.toNat) = true := hw
  refine backV [(45, 5, g.toNat), (56, 8, 68), (54, 2, vwCode h.w), (50, 4, t.toNat), (41, 4, h.m.toNat), (32, 9, d.toNat)] [(45, 5), (56, 8), (54, 2), (50, 4), (41, 4), (32, 9)] (by rfl) rfl rfl ⟨BitVec.isLt _, by decide, vwCode_lt _, BitVec.isLt _, BitVec.isLt _, BitVec.isLt _, trivial⟩ rfl fun x hL => ?_
  have hv : vhOf h.f x = h := vhOf_eq (hL 54 2 rfl) (hL 41 4 rfl)
  have hb : badTy x numTy = [] := badTy_ok (hL 50 4 rfl) hq
  have hk : vCodes x = [] := vCodes_ok (hL 54 2 rfl) (hL 50 4 rfl) (by rintro rfl; exact absurd hq (by decide))
  simp (disch := decide) [decV, hv, hb, hk, Clean, bv_eq, bt_eq, resv, rcode, excl, wrongTy, hL, Layout.at, Nat.mod_add_div]
theorem vAny (h : VH) (t : BitVec 4) (ms : BitVec 4) : Statement (.vAny h t ms) := by
  rintro g arg hw ha p ⟨⟩
  obtain rfl := no_arg ha
  refine backV [(45, 5, g.toNat), (56, 8, 69), (54, 2, vwCode h.w), (50, 4, t.toNat), (41, 4, h.m.toNat), (23, 4, ms.toNat)] [(45, 5), (56, 8), (54, 2), (50, 4), (41, 4), (23, 4)] (by rfl) rfl rfl ⟨BitVec.isLt _, by decide, vwCode_lt _, BitVec.isLt _, BitVec.isLt _, BitVec.isLt _, trivial⟩ rfl fun x hL => ?_
  have hv : vhOf h.f x = h := vhOf_eq (hL 54 2 rfl) (hL 41 4 rfl)
  have hb : badTy x (· ≤ 12) = [] := badTy_ok (hL 50 4 rfl) hw
  have hk : vCodes x = [] := vCodes_ok (hL 54 2 rfl) (hL 50 4 rfl) (wide_ne hw)
  simp (disch := decide) [decV, decVMov, hv, hb, hk, Clean, bv_eq, bt_eq, resv, rcode, excl, wrongTy, hL, Layout.at, Nat.mod_add_div]
theorem vAll (h : VH) (t : BitVec 4) (ms : BitVec 4) : Statement (.vAll h t ms) := by
  rintro g arg hw ha p ⟨⟩
  obtain rfl := no_arg ha
  refine backV [(45, 5, g.toNat), (56, 8, 70), (54, 2, vwCode h.w), (50, 4, t.toNat), (41, 4, h.m.toNat), (23, 4, ms.toNat)] [(45, 5), (56, 8), (54, 2), (50, 4), (41, 4), (23, 4)] (by rfl) rfl rfl ⟨BitVec.isLt _, by decide, vwCode_lt _, BitVec.isLt _, BitVec.isLt _, BitVec.isLt _, trivial⟩ rfl fun x hL => ?_
  have hv : vhOf h.f x = h := vhOf_eq (hL 54 2 rfl) (hL 41 4 rfl)
  have hb : badTy x (· ≤ 12) = [] := badTy_ok (hL 50 4 rfl) hw
  have hk : vCodes x = [] := vCodes_ok (hL 54 2 rfl) (hL 50 4 rfl) (wide_ne hw)
  simp (disch := decide) [decV, decVMov, hv, hb, hk, Clean, bv_eq, bt_eq, resv, rcode, excl, wrongTy, hL, Layout.at, Nat.mod_add_div]
theorem vMov (h : VH) (d : BitVec 9) (a : BitVec 9) : Statement (.vMov h d a) := by
  rintro g arg hw ha p ⟨⟩
  obtain rfl := no_arg ha
  refine backV [(45, 5, g.toNat), (56, 8, 72), (54, 2, vwCode h.w), (50, 4, 0), (41, 4, h.m.toNat), (32, 9, d.toNat), (23, 9, a.toNat)] [(45, 5), (56, 8), (54, 2), (50, 4), (41, 4), (32, 9), (23, 9)] (by rfl) rfl rfl ⟨BitVec.isLt _, by decide, vwCode_lt _, by decide, BitVec.isLt _, BitVec.isLt _, BitVec.isLt _, trivial⟩ rfl fun x hL => ?_
  have hv : vhOf h.f x = h := vhOf_eq (hL 54 2 rfl) (hL 41 4 rfl)
  have hn : vNoT x = [] := vNoT_ok (w := h.w) (hL 54 2 rfl) (hL 50 4 rfl)
  simp (disch := decide) [decV, decVMov, hv, hn, Clean, bv_eq, bt_eq, resv, rcode, excl, wrongTy, hL, Layout.at, Nat.mod_add_div]
theorem vMovCross (h : VH) (d : BitVec 9) (a : BitVec 9) : Statement (.vMovCross h d a) := by
  rintro g arg hw ha p ⟨⟩
  obtain rfl := no_arg ha
  refine backV [(45, 5, g.toNat), (56, 8, 72), (54, 2, vwCode h.w), (50, 4, 0), (41, 4, h.m.toNat), (32, 9, d.toNat), (23, 9, a.toNat), (0, 3, 1)] [(45, 5), (56, 8), (54, 2), (50, 4), (41, 4), (32, 9), (23, 9), (0, 3)] (by rfl) rfl rfl ⟨BitVec.isLt _, by decide, vwCode_lt _, by decide, BitVec.isLt _, BitVec.isLt _, BitVec.isLt _, by decide, trivial⟩ rfl fun x hL => ?_
  have hv : vhOf h.f x = h := vhOf_eq (hL 54 2 rfl) (hL 41 4 rfl)
  have hn : vNoT x = [] := vNoT_ok (w := h.w) (hL 54 2 rfl) (hL 50 4 rfl)
  simp (disch := decide) [decV, decVMov, hv, hn, Clean, bv_eq, bt_eq, resv, rcode, excl, wrongTy, hL, Layout.at, Nat.mod_add_div]
theorem vMovToScalar (f : VFile) (ww : VW) (d : BitVec 6) (a : BitVec 9) (e : BitVec 9) : Statement (.vMovToScalar f ww d a e) := by
  rintro g arg hw ha p ⟨⟩
  obtain rfl := no_arg ha
  have hw' : (decide (e.toNat < ww.bits / 64)) = true := hw
  simp [wfLevel, wfRm, wfNb, wfAdv, BitVec.toNat_eq] at hw'
  refine backV [(45, 5, g.toNat), (56, 8, 72), (54, 2, vwCode ww), (50, 4, 0), (41, 4, 0), (32, 6, d.toNat), (23, 9, a.toNat), (5, 9, e.toNat), (0, 3, 2)] [(45, 5), (56, 8), (54, 2), (50, 4), (41, 4), (32, 6), (23, 9), (5, 9), (0, 3)] (by rfl) rfl rfl ⟨BitVec.isLt _, by decide, vwCode_lt _, by decide, by decide, BitVec.isLt _, BitVec.isLt _, BitVec.isLt _, by decide, trivial⟩ rfl fun x hL => ?_
  have hv : vhOf f x = { f := f, w := ww, m := 0 } := vhOf_eq (h := { f := f, w := ww, m := 0 }) (hL 54 2 rfl) (hL 41 4 rfl)
  have hn : vNoT x = [] := vNoT_ok (w := ww) (hL 54 2 rfl) (hL 50 4 rfl)
  simp (disch := decide) [decV, decVMov, hv, hn, Clean, bv_eq, bt_eq, resv, rcode, excl, wrongTy, hL, Layout.at, Nat.mod_add_div] <;> first | omega | grind
theorem vMovMask (f : VFile) (d : BitVec 4) (a : BitVec 4) : Statement (.vMovMask f d a) := by
  rintro g arg hw ha p ⟨⟩
  obtain rfl := no_arg ha
  refine backV [(45, 5, g.toNat), (56, 8, 72), (54, 2, 2), (50, 4, 0), (41, 4, 0), (32, 4, d.toNat), (23, 4, a.toNat), (0, 3, 3)] [(45, 5), (56, 8), (54, 2), (50, 4), (41, 4), (32, 4), (23, 4), (0, 3)] (by rfl) rfl rfl ⟨BitVec.isLt _, by decide, by decide, by decide, by decide, BitVec.isLt _, BitVec.isLt _, by decide, trivial⟩ rfl fun x hL => ?_
  have hn : vNoT x = [] := vNoT_ok (w := .w1024) (hL 54 2 rfl) (hL 50 4 rfl)
  simp (disch := decide) [decV, decVMov, hn, Clean, bv_eq, bt_eq, resv, rcode, excl, wrongTy, hL, Layout.at, Nat.mod_add_div]
theorem vMovMaskCross (f : VFile) (d : BitVec 4) (a : BitVec 4) : Statement (.vMovMaskCross f d a) := by
  rintro g arg hw ha p ⟨⟩
  obtain rfl := no_arg ha
  refine backV [(45, 5, g.toNat), (56, 8, 72), (54, 2, 2), (50, 4, 0), (41, 4, 0), (32, 4, d.toNat), (23, 4, a.toNat), (0, 3, 4)] [(45, 5), (56, 8), (54, 2), (50, 4), (41, 4), (32, 4), (23, 4), (0, 3)] (by rfl) rfl rfl ⟨BitVec.isLt _, by decide, by decide, by decide, by decide, BitVec.isLt _, BitVec.isLt _, by decide, trivial⟩ rfl fun x hL => ?_
  have hn : vNoT x = [] := vNoT_ok (w := .w1024) (hL 54 2 rfl) (hL 50 4 rfl)
  simp (disch := decide) [decV, decVMov, hn, Clean, bv_eq, bt_eq, resv, rcode, excl, wrongTy, hL, Layout.at, Nat.mod_add_div]
theorem movIxGet (h : VH) (d : BitVec 9) (s : BitVec 6) : Statement (.movIxGet h d s) := by
  rintro g arg hw ha p ⟨⟩
  obtain rfl := no_arg ha
  refine backV [(45, 5, g.toNat), (56, 8, 73), (54, 2, vwCode h.w), (50, 4, 0), (41, 4, h.m.toNat), (32, 9, d.toNat), (14, 6, s.toNat)] [(45, 5), (56, 8), (54, 2), (50, 4), (41, 4), (32, 9), (14, 6)] (by rfl) rfl rfl ⟨BitVec.isLt _, by decide, vwCode_lt _, by decide, BitVec.isLt _, BitVec.isLt _, BitVec.isLt _, trivial⟩ rfl fun x hL => ?_
  have hv : vhOf h.f x = h := vhOf_eq (hL 54 2 rfl) (hL 41 4 rfl)
  have hn : vNoT x = [] := vNoT_ok (w := h.w) (hL 54 2 rfl) (hL 50 4 rfl)
  simp (disch := decide) [decV, decVMov, hv, hn, Clean, bv_eq, bt_eq, resv, rcode, excl, wrongTy, hL, Layout.at, Nat.mod_add_div]
theorem movIxPut (h : VH) (a : BitVec 9) (s : BitVec 6) : Statement (.movIxPut h a s) := by
  rintro g arg hw ha p ⟨⟩
  obtain rfl := no_arg ha
  refine backV [(45, 5, g.toNat), (56, 8, 73), (54, 2, vwCode h.w), (50, 4, 0), (41, 4, h.m.toNat), (23, 9, a.toNat), (14, 6, s.toNat), (0, 1, 1)] [(45, 5), (56, 8), (54, 2), (50, 4), (41, 4), (23, 9), (14, 6), (0, 1)] (by rfl) rfl rfl ⟨BitVec.isLt _, by decide, vwCode_lt _, by decide, BitVec.isLt _, BitVec.isLt _, BitVec.isLt _, by decide, trivial⟩ rfl fun x hL => ?_
  have hv : vhOf h.f x = h := vhOf_eq (hL 54 2 rfl) (hL 41 4 rfl)
  have hn : vNoT x = [] := vNoT_ok (w := h.w) (hL 54 2 rfl) (hL 50 4 rfl)
  simp (disch := decide) [decV, decVMov, hv, hn, Clean, bv_eq, bt_eq, resv, rcode, excl, wrongTy, hL, Layout.at, Nat.mod_add_div]
theorem vSpl (f : VFile) (ww : VW) (a : BitVec 9) (k : BitVec 6) : Statement (.vSpl f ww a k) := by
  rintro g arg hw ha p ⟨⟩
  obtain rfl := no_arg ha
  refine backV [(45, 5, g.toNat), (56, 8, 74), (54, 2, vwCode ww), (50, 4, 0), (41, 4, 0), (23, 9, a.toNat), (5, 6, k.toNat)] [(45, 5), (56, 8), (54, 2), (50, 4), (41, 4), (23, 9), (5, 6)] (by rfl) rfl rfl ⟨BitVec.isLt _, by decide, vwCode_lt _, by decide, by decide, BitVec.isLt _, BitVec.isLt _, trivial⟩ rfl fun x hL => ?_
  have hv : vhOf f x = { f := f, w := ww, m := 0 } := vhOf_eq (h := { f := f, w := ww, m := 0 }) (hL 54 2 rfl) (hL 41 4 rfl)
  have hn : vNoT x = [] := vNoT_ok (w := ww) (hL 54 2 rfl) (hL 50 4 rfl)
  simp (disch := decide) [decV, decVMov, hv, hn, Clean, bv_eq, bt_eq, resv, rcode, excl, wrongTy, hL, Layout.at, Nat.mod_add_div]
theorem vFil (h : VH) (d : BitVec 9) (k : BitVec 6) : Statement (.vFil h d k) := by
  rintro g arg hw ha p ⟨⟩
  obtain rfl := no_arg ha
  refine backV [(45, 5, g.toNat), (56, 8, 75), (54, 2, vwCode h.w), (50, 4, 0), (41, 4, h.m.toNat), (32, 9, d.toNat), (5, 6, k.toNat)] [(45, 5), (56, 8), (54, 2), (50, 4), (41, 4), (32, 9), (5, 6)] (by rfl) rfl rfl ⟨BitVec.isLt _, by decide, vwCode_lt _, by decide, BitVec.isLt _, BitVec.isLt _, BitVec.isLt _, trivial⟩ rfl fun x hL => ?_
  have hv : vhOf h.f x = h := vhOf_eq (hL 54 2 rfl) (hL 41 4 rfl)
  have hn : vNoT x = [] := vNoT_ok (w := h.w) (hL 54 2 rfl) (hL 50 4 rfl)
  simp (disch := decide) [decV, decVMov, hv, hn, Clean, bv_eq, bt_eq, resv, rcode, excl, wrongTy, hL, Layout.at, Nat.mod_add_div]
theorem ldRow (d : VReg) (a : Mem) : Statement (.ldRow d a) := by
  rintro g arg hw ha p ⟨⟩
  obtain rfl := no_arg ha
  refine back [(37, 5, g.toNat), (42, 6, 1), (20, 1, 0), (35, 2, vfile d.f), (26, 9, d.n.toNat), (21, 5, a.base.toNat), (0, 20, a.off.toNat)] [(37, 5), (42, 6), (20, 1), (35, 2), (26, 9), (21, 5), (0, 20)] (by rfl) rfl rfl ⟨BitVec.isLt _, by decide, by decide, vfile_lt _, BitVec.isLt _, BitVec.isLt _, BitVec.isLt _, trivial⟩ rfl fun x hL => ?_; change Clean _ _ (decLd x)
  have ha : memOf x = a := memOf_eq (hL 21 5 rfl) (hL 0 20 rfl)
  have hv : vregOf x = d := vregOf_eq (hL 35 2 rfl) (hL 26 9 rfl)
  simp (disch := decide) [decLd, onlyVec, onlySc, needH, dataRsv, dregOf, ha, hv, Clean, bv_eq, bt_eq, resv, rcode, excl, wrongTy, hL, Layout.at, Nat.mod_add_div]
theorem ldRowChk (d : VReg) (a : Mem) : Statement (.ldRowChk d a) := by
  rintro g arg hw ha p ⟨⟩
  obtain rfl := no_arg ha
  refine back [(37, 5, g.toNat), (42, 6, 2), (20, 1, 0), (35, 2, vfile d.f), (26, 9, d.n.toNat), (21, 5, a.base.toNat), (0, 20, a.off.toNat)] [(37, 5), (42, 6), (20, 1), (35, 2), (26, 9), (21, 5), (0, 20)] (by rfl) rfl rfl ⟨BitVec.isLt _, by decide, by decide, vfile_lt _, BitVec.isLt _, BitVec.isLt _, BitVec.isLt _, trivial⟩ rfl fun x hL => ?_; change Clean _ _ (decLd x)
  have ha : memOf x = a := memOf_eq (hL 21 5 rfl) (hL 0 20 rfl)
  have hv : vregOf x = d := vregOf_eq (hL 35 2 rfl) (hL 26 9 rfl)
  simp (disch := decide) [decLd, onlyVec, onlySc, needH, dataRsv, dregOf, ha, hv, Clean, bv_eq, bt_eq, resv, rcode, excl, wrongTy, hL, Layout.at, Nat.mod_add_div]
theorem ldS (d : BitVec 6) (a : Mem) : Statement (.ldS d a) := by
  rintro g arg hw ha p ⟨⟩
  obtain rfl := no_arg ha
  refine back [(37, 5, g.toNat), (42, 6, 3), (20, 1, 0), (35, 2, 2), (26, 6, d.toNat), (21, 5, a.base.toNat), (0, 20, a.off.toNat)] [(37, 5), (42, 6), (20, 1), (35, 2), (26, 6), (21, 5), (0, 20)] (by rfl) rfl rfl ⟨BitVec.isLt _, by decide, by decide, by decide, BitVec.isLt _, BitVec.isLt _, BitVec.isLt _, trivial⟩ rfl fun x hL => ?_; change Clean _ _ (decLd x)
  have ha : memOf x = a := memOf_eq (hL 21 5 rfl) (hL 0 20 rfl)
  simp (disch := decide) [decLd, onlyVec, onlySc, needH, dataRsv, dregOf, ha, Clean, bv_eq, bt_eq, resv, rcode, excl, wrongTy, hL, Layout.at, Nat.mod_add_div]
theorem ldH (d : VReg) (a : Mem) : Statement (.ldH d a) := by
  rintro g arg hw ha p ⟨⟩
  obtain rfl := no_arg ha
  refine back [(37, 5, g.toNat), (42, 6, 4), (20, 1, 1), (35, 2, vfile d.f), (26, 9, d.n.toNat), (21, 5, a.base.toNat), (0, 20, a.off.toNat)] [(37, 5), (42, 6), (20, 1), (35, 2), (26, 9), (21, 5), (0, 20)] (by rfl) rfl rfl ⟨BitVec.isLt _, by decide, by decide, vfile_lt _, BitVec.isLt _, BitVec.isLt _, BitVec.isLt _, trivial⟩ rfl fun x hL => ?_; change Clean _ _ (decLd x)
  have ha : memOf x = a := memOf_eq (hL 21 5 rfl) (hL 0 20 rfl)
  have hv : vregOf x = d := vregOf_eq (hL 35 2 rfl) (hL 26 9 rfl)
  simp (disch := decide) [decLd, onlyVec, onlySc, needH, dataRsv, dregOf, ha, hv, Clean, bv_eq, bt_eq, resv, rcode, excl, wrongTy, hL, Layout.at, Nat.mod_add_div]
theorem ldHChk (d : VReg) (a : Mem) : Statement (.ldHChk d a) := by
  rintro g arg hw ha p ⟨⟩
  obtain rfl := no_arg ha
  refine back [(37, 5, g.toNat), (42, 6, 5), (20, 1, 1), (35, 2, vfile d.f), (26, 9, d.n.toNat), (21, 5, a.base.toNat), (0, 20, a.off.toNat)] [(37, 5), (42, 6), (20, 1), (35, 2), (26, 9), (21, 5), (0, 20)] (by rfl) rfl rfl ⟨BitVec.isLt _, by decide, by decide, vfile_lt _, BitVec.isLt _, BitVec.isLt _, BitVec.isLt _, trivial⟩ rfl fun x hL => ?_; change Clean _ _ (decLd x)
  have ha : memOf x = a := memOf_eq (hL 21 5 rfl) (hL 0 20 rfl)
  have hv : vregOf x = d := vregOf_eq (hL 35 2 rfl) (hL 26 9 rfl)
  simp (disch := decide) [decLd, onlyVec, onlySc, needH, dataRsv, dregOf, ha, hv, Clean, bv_eq, bt_eq, resv, rcode, excl, wrongTy, hL, Layout.at, Nat.mod_add_div]
theorem ldg (h : BitVec 5) (cnt1 : BitVec 4) (a : Mem) : Statement (.ldg h cnt1 a) := by
  rintro g arg hw ha p ⟨⟩
  obtain rfl := no_arg ha
  refine back [(37, 5, g.toNat), (42, 6, 6), (20, 1, 0), (26, 5, h.toNat), (31, 4, cnt1.toNat), (21, 5, a.base.toNat), (0, 20, a.off.toNat)] [(37, 5), (42, 6), (20, 1), (26, 5), (31, 4), (21, 5), (0, 20)] (by rfl) rfl rfl ⟨BitVec.isLt _, by decide, by decide, BitVec.isLt _, BitVec.isLt _, BitVec.isLt _, BitVec.isLt _, trivial⟩ rfl fun x hL => ?_; change Clean _ _ (decLd x)
  have ha : memOf x = a := memOf_eq (hL 21 5 rfl) (hL 0 20 rfl)
  simp (disch := decide) [decLd, onlyVec, onlySc, needH, dataRsv, dregOf, ha, Clean, bv_eq, bt_eq, resv, rcode, excl, wrongTy, hL, Layout.at, Nat.mod_add_div]
theorem ldPr (d : VReg) (a : Mem) : Statement (.ldPr d a) := by
  rintro g arg hw ha p ⟨⟩
  obtain rfl := no_arg ha
  refine back [(37, 5, g.toNat), (42, 6, 7), (20, 1, 0), (35, 2, vfile d.f), (26, 9, d.n.toNat), (21, 5, a.base.toNat), (0, 20, a.off.toNat)] [(37, 5), (42, 6), (20, 1), (35, 2), (26, 9), (21, 5), (0, 20)] (by rfl) rfl rfl ⟨BitVec.isLt _, by decide, by decide, vfile_lt _, BitVec.isLt _, BitVec.isLt _, BitVec.isLt _, trivial⟩ rfl fun x hL => ?_; change Clean _ _ (decLd x)
  have ha : memOf x = a := memOf_eq (hL 21 5 rfl) (hL 0 20 rfl)
  have hv : vregOf x = d := vregOf_eq (hL 35 2 rfl) (hL 26 9 rfl)
  simp (disch := decide) [decLd, onlyVec, onlySc, needH, dataRsv, dregOf, ha, hv, Clean, bv_eq, bt_eq, resv, rcode, excl, wrongTy, hL, Layout.at, Nat.mod_add_div]
theorem ldSb (d : VReg) (a : Mem) : Statement (.ldSb d a) := by
  rintro g arg hw ha p ⟨⟩
  obtain rfl := no_arg ha
  refine back [(37, 5, g.toNat), (42, 6, 8), (20, 1, 0), (35, 2, vfile d.f), (26, 9, d.n.toNat), (21, 5, a.base.toNat), (0, 20, a.off.toNat)] [(37, 5), (42, 6), (20, 1), (35, 2), (26, 9), (21, 5), (0, 20)] (by rfl) rfl rfl ⟨BitVec.isLt _, by decide, by decide, vfile_lt _, BitVec.isLt _, BitVec.isLt _, BitVec.isLt _, trivial⟩ rfl fun x hL => ?_; change Clean _ _ (decLd x)
  have ha : memOf x = a := memOf_eq (hL 21 5 rfl) (hL 0 20 rfl)
  have hv : vregOf x = d := vregOf_eq (hL 35 2 rfl) (hL 26 9 rfl)
  simp (disch := decide) [decLd, onlyVec, onlySc, needH, dataRsv, dregOf, ha, hv, Clean, bv_eq, bt_eq, resv, rcode, excl, wrongTy, hL, Layout.at, Nat.mod_add_div]
theorem ldIdx (d : VReg) (b : BitVec 5) (k : BitVec 5) (m : BitVec 15) : Statement (.ldIdx d b k m) := by
  rintro g arg hw ha p ⟨⟩
  obtain rfl := no_arg ha
  refine back [(37, 5, g.toNat), (42, 6, 9), (21, 5, b.toNat), (15, 5, k.toNat), (0, 15, m.toNat), (35, 2, vfile d.f), (26, 9, d.n.toNat)] [(37, 5), (42, 6), (21, 5), (15, 5), (0, 15), (35, 2), (26, 9)] (by rfl) rfl rfl ⟨BitVec.isLt _, by decide, BitVec.isLt _, BitVec.isLt _, BitVec.isLt _, vfile_lt _, BitVec.isLt _, trivial⟩ rfl fun x hL => ?_; change Clean _ _ (decLd x)
  have hv : vregOf x = d := vregOf_eq (hL 35 2 rfl) (hL 26 9 rfl)
  simp (disch := decide) [decLd, onlyVec, needH, dataRsv, hv, Clean, bv_eq, bt_eq, resv, rcode, excl, wrongTy, hL, Layout.at, Nat.mod_add_div]
theorem ldBc (d : VReg) (a : Mem) : Statement (.ldBc d a) := by
  rintro g arg hw ha p ⟨⟩
  obtain rfl := no_arg ha
  refine back [(37, 5, g.toNat), (42, 6, 10), (20, 1, 0), (35, 2, vfile d.f), (26, 9, d.n.toNat), (21, 5, a.base.toNat), (0, 20, a.off.toNat)] [(37, 5), (42, 6), (20, 1), (35, 2), (26, 9), (21, 5), (0, 20)] (by rfl) rfl rfl ⟨BitVec.isLt _, by decide, by decide, vfile_lt _, BitVec.isLt _, BitVec.isLt _, BitVec.isLt _, trivial⟩ rfl fun x hL => ?_; change Clean _ _ (decLd x)
  have ha : memOf x = a := memOf_eq (hL 21 5 rfl) (hL 0 20 rfl)
  have hv : vregOf x = d := vregOf_eq (hL 35 2 rfl) (hL 26 9 rfl)
  simp (disch := decide) [decLd, onlyVec, onlySc, needH, dataRsv, dregOf, ha, hv, Clean, bv_eq, bt_eq, resv, rcode, excl, wrongTy, hL, Layout.at, Nat.mod_add_div]
theorem ldZ (d : VReg) (a : Mem) : Statement (.ldZ d a) := by
  rintro g arg hw ha p ⟨⟩
  obtain rfl := no_arg ha
  refine back [(37, 5, g.toNat), (42, 6, 11), (20, 1, 0), (35, 2, vfile d.f), (26, 9, d.n.toNat), (21, 5, a.base.toNat), (0, 20, a.off.toNat)] [(37, 5), (42, 6), (20, 1), (35, 2), (26, 9), (21, 5), (0, 20)] (by rfl) rfl rfl ⟨BitVec.isLt _, by decide, by decide, vfile_lt _, BitVec.isLt _, BitVec.isLt _, BitVec.isLt _, trivial⟩ rfl fun x hL => ?_; change Clean _ _ (decLd x)
  have ha : memOf x = a := memOf_eq (hL 21 5 rfl) (hL 0 20 rfl)
  have hv : vregOf x = d := vregOf_eq (hL 35 2 rfl) (hL 26 9 rfl)
  simp (disch := decide) [decLd, onlyVec, onlySc, needH, dataRsv, dregOf, ha, hv, Clean, bv_eq, bt_eq, resv, rcode, excl, wrongTy, hL, Layout.at, Nat.mod_add_div]
theorem ldAcq (sc : BitVec 3) (d : DReg) (a : Mem) : Statement (.ldAcq sc d a) := by
  intro g arg hw
  have hs : sc.toNat < 6 := by simpa [Instr.wf] using hw
  obtain rfl | rfl | rfl | rfl | rfl | rfl := six hs
  · rintro ha p ⟨⟩
    obtain rfl := no_arg ha
    rcases d with r | n
    · refine back [(37, 5, g.toNat), (42, 6, 16), (20, 1, 0), (35, 2, vfile r.f), (26, 9, r.n.toNat), (21, 5, a.base.toNat), (0, 20, a.off.toNat)] [(37, 5), (42, 6), (20, 1), (35, 2), (26, 9), (21, 5), (0, 20)] (by rfl) rfl rfl ⟨BitVec.isLt _, by decide, by decide, vfile_lt _, BitVec.isLt _, BitVec.isLt _, BitVec.isLt _, trivial⟩ rfl fun x hL => ?_; change Clean _ _ (decLd x)
      have hm : memOf x = a := memOf_eq (hL 21 5 rfl) (hL 0 20 rfl)
      have hv : vregOf x = r := vregOf_eq (hL 35 2 rfl) (hL 26 9 rfl)
      simp (disch := decide) [decLd, onlyVec, onlySc, needH, dataRsv, dregOf, hv, hm, Clean, bv_eq, bt_eq, resv, rcode, excl, wrongTy, hL, Layout.at, Nat.mod_add_div]
    · refine back [(37, 5, g.toNat), (42, 6, 16), (20, 1, 0), (35, 2, 2), (26, 6, n.toNat), (21, 5, a.base.toNat), (0, 20, a.off.toNat)] [(37, 5), (42, 6), (20, 1), (35, 2), (26, 6), (21, 5), (0, 20)] (by rfl) rfl rfl ⟨BitVec.isLt _, by decide, by decide, by decide, BitVec.isLt _, BitVec.isLt _, BitVec.isLt _, trivial⟩ rfl fun x hL => ?_; change Clean _ _ (decLd x)
      have hm : memOf x = a := memOf_eq (hL 21 5 rfl) (hL 0 20 rfl)
      simp (disch := decide) [decLd, onlyVec, onlySc, needH, dataRsv, dregOf, hm, Clean, bv_eq, bt_eq, resv, rcode, excl, wrongTy, hL, Layout.at, Nat.mod_add_div]
  · rintro ha p ⟨⟩
    obtain rfl := no_arg ha
    rcases d with r | n
    · refine back [(37, 5, g.toNat), (42, 6, 17), (20, 1, 0), (35, 2, vfile r.f), (26, 9, r.n.toNat), (21, 5, a.base.toNat), (0, 20, a.off.toNat)] [(37, 5), (42, 6), (20, 1), (35, 2), (26, 9), (21, 5), (0, 20)] (by rfl) rfl rfl ⟨BitVec.isLt _, by decide, by decide, vfile_lt _, BitVec.isLt _, BitVec.isLt _, BitVec.isLt _, trivial⟩ rfl fun x hL => ?_; change Clean _ _ (decLd x)
      have hm : memOf x = a := memOf_eq (hL 21 5 rfl) (hL 0 20 rfl)
      have hv : vregOf x = r := vregOf_eq (hL 35 2 rfl) (hL 26 9 rfl)
      simp (disch := decide) [decLd, onlyVec, onlySc, needH, dataRsv, dregOf, hv, hm, Clean, bv_eq, bt_eq, resv, rcode, excl, wrongTy, hL, Layout.at, Nat.mod_add_div]
    · refine back [(37, 5, g.toNat), (42, 6, 17), (20, 1, 0), (35, 2, 2), (26, 6, n.toNat), (21, 5, a.base.toNat), (0, 20, a.off.toNat)] [(37, 5), (42, 6), (20, 1), (35, 2), (26, 6), (21, 5), (0, 20)] (by rfl) rfl rfl ⟨BitVec.isLt _, by decide, by decide, by decide, BitVec.isLt _, BitVec.isLt _, BitVec.isLt _, trivial⟩ rfl fun x hL => ?_; change Clean _ _ (decLd x)
      have hm : memOf x = a := memOf_eq (hL 21 5 rfl) (hL 0 20 rfl)
      simp (disch := decide) [decLd, onlyVec, onlySc, needH, dataRsv, dregOf, hm, Clean, bv_eq, bt_eq, resv, rcode, excl, wrongTy, hL, Layout.at, Nat.mod_add_div]
  · rintro ha p ⟨⟩
    obtain rfl := no_arg ha
    rcases d with r | n
    · refine back [(37, 5, g.toNat), (42, 6, 18), (20, 1, 0), (35, 2, vfile r.f), (26, 9, r.n.toNat), (21, 5, a.base.toNat), (0, 20, a.off.toNat)] [(37, 5), (42, 6), (20, 1), (35, 2), (26, 9), (21, 5), (0, 20)] (by rfl) rfl rfl ⟨BitVec.isLt _, by decide, by decide, vfile_lt _, BitVec.isLt _, BitVec.isLt _, BitVec.isLt _, trivial⟩ rfl fun x hL => ?_; change Clean _ _ (decLd x)
      have hm : memOf x = a := memOf_eq (hL 21 5 rfl) (hL 0 20 rfl)
      have hv : vregOf x = r := vregOf_eq (hL 35 2 rfl) (hL 26 9 rfl)
      simp (disch := decide) [decLd, onlyVec, onlySc, needH, dataRsv, dregOf, hv, hm, Clean, bv_eq, bt_eq, resv, rcode, excl, wrongTy, hL, Layout.at, Nat.mod_add_div]
    · refine back [(37, 5, g.toNat), (42, 6, 18), (20, 1, 0), (35, 2, 2), (26, 6, n.toNat), (21, 5, a.base.toNat), (0, 20, a.off.toNat)] [(37, 5), (42, 6), (20, 1), (35, 2), (26, 6), (21, 5), (0, 20)] (by rfl) rfl rfl ⟨BitVec.isLt _, by decide, by decide, by decide, BitVec.isLt _, BitVec.isLt _, BitVec.isLt _, trivial⟩ rfl fun x hL => ?_; change Clean _ _ (decLd x)
      have hm : memOf x = a := memOf_eq (hL 21 5 rfl) (hL 0 20 rfl)
      simp (disch := decide) [decLd, onlyVec, onlySc, needH, dataRsv, dregOf, hm, Clean, bv_eq, bt_eq, resv, rcode, excl, wrongTy, hL, Layout.at, Nat.mod_add_div]
  · rintro ha p ⟨⟩
    obtain rfl := no_arg ha
    rcases d with r | n
    · refine back [(37, 5, g.toNat), (42, 6, 19), (20, 1, 0), (35, 2, vfile r.f), (26, 9, r.n.toNat), (21, 5, a.base.toNat), (0, 20, a.off.toNat)] [(37, 5), (42, 6), (20, 1), (35, 2), (26, 9), (21, 5), (0, 20)] (by rfl) rfl rfl ⟨BitVec.isLt _, by decide, by decide, vfile_lt _, BitVec.isLt _, BitVec.isLt _, BitVec.isLt _, trivial⟩ rfl fun x hL => ?_; change Clean _ _ (decLd x)
      have hm : memOf x = a := memOf_eq (hL 21 5 rfl) (hL 0 20 rfl)
      have hv : vregOf x = r := vregOf_eq (hL 35 2 rfl) (hL 26 9 rfl)
      simp (disch := decide) [decLd, onlyVec, onlySc, needH, dataRsv, dregOf, hv, hm, Clean, bv_eq, bt_eq, resv, rcode, excl, wrongTy, hL, Layout.at, Nat.mod_add_div]
    · refine back [(37, 5, g.toNat), (42, 6, 19), (20, 1, 0), (35, 2, 2), (26, 6, n.toNat), (21, 5, a.base.toNat), (0, 20, a.off.toNat)] [(37, 5), (42, 6), (20, 1), (35, 2), (26, 6), (21, 5), (0, 20)] (by rfl) rfl rfl ⟨BitVec.isLt _, by decide, by decide, by decide, BitVec.isLt _, BitVec.isLt _, BitVec.isLt _, trivial⟩ rfl fun x hL => ?_; change Clean _ _ (decLd x)
      have hm : memOf x = a := memOf_eq (hL 21 5 rfl) (hL 0 20 rfl)
      simp (disch := decide) [decLd, onlyVec, onlySc, needH, dataRsv, dregOf, hm, Clean, bv_eq, bt_eq, resv, rcode, excl, wrongTy, hL, Layout.at, Nat.mod_add_div]
  · rintro ha p ⟨⟩
    obtain rfl := no_arg ha
    rcases d with r | n
    · refine back [(37, 5, g.toNat), (42, 6, 20), (20, 1, 0), (35, 2, vfile r.f), (26, 9, r.n.toNat), (21, 5, a.base.toNat), (0, 20, a.off.toNat)] [(37, 5), (42, 6), (20, 1), (35, 2), (26, 9), (21, 5), (0, 20)] (by rfl) rfl rfl ⟨BitVec.isLt _, by decide, by decide, vfile_lt _, BitVec.isLt _, BitVec.isLt _, BitVec.isLt _, trivial⟩ rfl fun x hL => ?_; change Clean _ _ (decLd x)
      have hm : memOf x = a := memOf_eq (hL 21 5 rfl) (hL 0 20 rfl)
      have hv : vregOf x = r := vregOf_eq (hL 35 2 rfl) (hL 26 9 rfl)
      simp (disch := decide) [decLd, onlyVec, onlySc, needH, dataRsv, dregOf, hv, hm, Clean, bv_eq, bt_eq, resv, rcode, excl, wrongTy, hL, Layout.at, Nat.mod_add_div]
    · refine back [(37, 5, g.toNat), (42, 6, 20), (20, 1, 0), (35, 2, 2), (26, 6, n.toNat), (21, 5, a.base.toNat), (0, 20, a.off.toNat)] [(37, 5), (42, 6), (20, 1), (35, 2), (26, 6), (21, 5), (0, 20)] (by rfl) rfl rfl ⟨BitVec.isLt _, by decide, by decide, by decide, BitVec.isLt _, BitVec.isLt _, BitVec.isLt _, trivial⟩ rfl fun x hL => ?_; change Clean _ _ (decLd x)
      have hm : memOf x = a := memOf_eq (hL 21 5 rfl) (hL 0 20 rfl)
      simp (disch := decide) [decLd, onlyVec, onlySc, needH, dataRsv, dregOf, hm, Clean, bv_eq, bt_eq, resv, rcode, excl, wrongTy, hL, Layout.at, Nat.mod_add_div]
  · rintro ha p ⟨⟩
    obtain rfl := no_arg ha
    rcases d with r | n
    · refine back [(37, 5, g.toNat), (42, 6, 21), (20, 1, 0), (35, 2, vfile r.f), (26, 9, r.n.toNat), (21, 5, a.base.toNat), (0, 20, a.off.toNat)] [(37, 5), (42, 6), (20, 1), (35, 2), (26, 9), (21, 5), (0, 20)] (by rfl) rfl rfl ⟨BitVec.isLt _, by decide, by decide, vfile_lt _, BitVec.isLt _, BitVec.isLt _, BitVec.isLt _, trivial⟩ rfl fun x hL => ?_; change Clean _ _ (decLd x)
      have hm : memOf x = a := memOf_eq (hL 21 5 rfl) (hL 0 20 rfl)
      have hv : vregOf x = r := vregOf_eq (hL 35 2 rfl) (hL 26 9 rfl)
      simp (disch := decide) [decLd, onlyVec, onlySc, needH, dataRsv, dregOf, hv, hm, Clean, bv_eq, bt_eq, resv, rcode, excl, wrongTy, hL, Layout.at, Nat.mod_add_div]
    · refine back [(37, 5, g.toNat), (42, 6, 21), (20, 1, 0), (35, 2, 2), (26, 6, n.toNat), (21, 5, a.base.toNat), (0, 20, a.off.toNat)] [(37, 5), (42, 6), (20, 1), (35, 2), (26, 6), (21, 5), (0, 20)] (by rfl) rfl rfl ⟨BitVec.isLt _, by decide, by decide, by decide, BitVec.isLt _, BitVec.isLt _, BitVec.isLt _, trivial⟩ rfl fun x hL => ?_; change Clean _ _ (decLd x)
      have hm : memOf x = a := memOf_eq (hL 21 5 rfl) (hL 0 20 rfl)
      simp (disch := decide) [decLd, onlyVec, onlySc, needH, dataRsv, dregOf, hm, Clean, bv_eq, bt_eq, resv, rcode, excl, wrongTy, hL, Layout.at, Nat.mod_add_div]
theorem stRow (v : VReg) (a : Mem) : Statement (.stRow v a) := by
  rintro g arg hw ha p ⟨⟩
  obtain rfl := no_arg ha
  refine back [(37, 5, g.toNat), (42, 6, 1), (20, 1, 0), (35, 2, vfile v.f), (26, 9, v.n.toNat), (21, 5, a.base.toNat), (0, 20, a.off.toNat)] [(37, 5), (42, 6), (20, 1), (35, 2), (26, 9), (21, 5), (0, 20)] (by rfl) rfl rfl ⟨BitVec.isLt _, by decide, by decide, vfile_lt _, BitVec.isLt _, BitVec.isLt _, BitVec.isLt _, trivial⟩ rfl fun x hL => ?_; change Clean _ _ (decSt x)
  have ha : memOf x = a := memOf_eq (hL 21 5 rfl) (hL 0 20 rfl)
  have hv : vregOf x = v := vregOf_eq (hL 35 2 rfl) (hL 26 9 rfl)
  simp (disch := decide) [decSt, onlyVec, onlySc, needH, dataRsv, dregOf, ha, hv, Clean, bv_eq, bt_eq, resv, rcode, excl, wrongTy, hL, Layout.at, Nat.mod_add_div]
theorem stS (n : BitVec 6) (a : Mem) : Statement (.stS n a) := by
  rintro g arg hw ha p ⟨⟩
  obtain rfl := no_arg ha
  refine back [(37, 5, g.toNat), (42, 6, 2), (20, 1, 0), (35, 2, 2), (26, 6, n.toNat), (21, 5, a.base.toNat), (0, 20, a.off.toNat)] [(37, 5), (42, 6), (20, 1), (35, 2), (26, 6), (21, 5), (0, 20)] (by rfl) rfl rfl ⟨BitVec.isLt _, by decide, by decide, by decide, BitVec.isLt _, BitVec.isLt _, BitVec.isLt _, trivial⟩ rfl fun x hL => ?_; change Clean _ _ (decSt x)
  have ha : memOf x = a := memOf_eq (hL 21 5 rfl) (hL 0 20 rfl)
  simp (disch := decide) [decSt, onlyVec, onlySc, needH, dataRsv, dregOf, ha, Clean, bv_eq, bt_eq, resv, rcode, excl, wrongTy, hL, Layout.at, Nat.mod_add_div]
theorem stH (v : VReg) (a : Mem) : Statement (.stH v a) := by
  rintro g arg hw ha p ⟨⟩
  obtain rfl := no_arg ha
  refine back [(37, 5, g.toNat), (42, 6, 3), (20, 1, 1), (35, 2, vfile v.f), (26, 9, v.n.toNat), (21, 5, a.base.toNat), (0, 20, a.off.toNat)] [(37, 5), (42, 6), (20, 1), (35, 2), (26, 9), (21, 5), (0, 20)] (by rfl) rfl rfl ⟨BitVec.isLt _, by decide, by decide, vfile_lt _, BitVec.isLt _, BitVec.isLt _, BitVec.isLt _, trivial⟩ rfl fun x hL => ?_; change Clean _ _ (decSt x)
  have ha : memOf x = a := memOf_eq (hL 21 5 rfl) (hL 0 20 rfl)
  have hv : vregOf x = v := vregOf_eq (hL 35 2 rfl) (hL 26 9 rfl)
  simp (disch := decide) [decSt, onlyVec, onlySc, needH, dataRsv, dregOf, ha, hv, Clean, bv_eq, bt_eq, resv, rcode, excl, wrongTy, hL, Layout.at, Nat.mod_add_div]
theorem stg (v : DReg) (a : Mem) : Statement (.stg v a) := by
  rintro g arg hw ha p ⟨⟩
  obtain rfl := no_arg ha
  rcases v with r | n
  · refine back [(37, 5, g.toNat), (42, 6, 4), (20, 1, 0), (35, 2, vfile r.f), (26, 9, r.n.toNat), (21, 5, a.base.toNat), (0, 20, a.off.toNat)] [(37, 5), (42, 6), (20, 1), (35, 2), (26, 9), (21, 5), (0, 20)] (by rfl) rfl rfl ⟨BitVec.isLt _, by decide, by decide, vfile_lt _, BitVec.isLt _, BitVec.isLt _, BitVec.isLt _, trivial⟩ rfl fun x hL => ?_; change Clean _ _ (decSt x)
    have ha : memOf x = a := memOf_eq (hL 21 5 rfl) (hL 0 20 rfl)
    have hv : vregOf x = r := vregOf_eq (hL 35 2 rfl) (hL 26 9 rfl)
    simp (disch := decide) [decSt, onlyVec, onlySc, needH, dataRsv, dregOf, ha, hv, Clean, bv_eq, bt_eq, resv, rcode, excl, wrongTy, hL, Layout.at, Nat.mod_add_div]
  · refine back [(37, 5, g.toNat), (42, 6, 4), (20, 1, 0), (35, 2, 2), (26, 6, n.toNat), (21, 5, a.base.toNat), (0, 20, a.off.toNat)] [(37, 5), (42, 6), (20, 1), (35, 2), (26, 6), (21, 5), (0, 20)] (by rfl) rfl rfl ⟨BitVec.isLt _, by decide, by decide, by decide, BitVec.isLt _, BitVec.isLt _, BitVec.isLt _, trivial⟩ rfl fun x hL => ?_; change Clean _ _ (decSt x)
    have ha : memOf x = a := memOf_eq (hL 21 5 rfl) (hL 0 20 rfl)
    simp (disch := decide) [decSt, onlyVec, onlySc, needH, dataRsv, dregOf, ha, Clean, bv_eq, bt_eq, resv, rcode, excl, wrongTy, hL, Layout.at, Nat.mod_add_div]
theorem stNt (v : DReg) (a : Mem) : Statement (.stNt v a) := by
  rintro g arg hw ha p ⟨⟩
  obtain rfl := no_arg ha
  rcases v with r | n
  · refine back [(37, 5, g.toNat), (42, 6, 5), (20, 1, 0), (35, 2, vfile r.f), (26, 9, r.n.toNat), (21, 5, a.base.toNat), (0, 20, a.off.toNat)] [(37, 5), (42, 6), (20, 1), (35, 2), (26, 9), (21, 5), (0, 20)] (by rfl) rfl rfl ⟨BitVec.isLt _, by decide, by decide, vfile_lt _, BitVec.isLt _, BitVec.isLt _, BitVec.isLt _, trivial⟩ rfl fun x hL => ?_; change Clean _ _ (decSt x)
    have ha : memOf x = a := memOf_eq (hL 21 5 rfl) (hL 0 20 rfl)
    have hv : vregOf x = r := vregOf_eq (hL 35 2 rfl) (hL 26 9 rfl)
    simp (disch := decide) [decSt, onlyVec, onlySc, needH, dataRsv, dregOf, ha, hv, Clean, bv_eq, bt_eq, resv, rcode, excl, wrongTy, hL, Layout.at, Nat.mod_add_div]
  · refine back [(37, 5, g.toNat), (42, 6, 5), (20, 1, 0), (35, 2, 2), (26, 6, n.toNat), (21, 5, a.base.toNat), (0, 20, a.off.toNat)] [(37, 5), (42, 6), (20, 1), (35, 2), (26, 6), (21, 5), (0, 20)] (by rfl) rfl rfl ⟨BitVec.isLt _, by decide, by decide, by decide, BitVec.isLt _, BitVec.isLt _, BitVec.isLt _, trivial⟩ rfl fun x hL => ?_; change Clean _ _ (decSt x)
    have ha : memOf x = a := memOf_eq (hL 21 5 rfl) (hL 0 20 rfl)
    simp (disch := decide) [decSt, onlyVec, onlySc, needH, dataRsv, dregOf, ha, Clean, bv_eq, bt_eq, resv, rcode, excl, wrongTy, hL, Layout.at, Nat.mod_add_div]
theorem stPr (v : VReg) (a : Mem) : Statement (.stPr v a) := by
  rintro g arg hw ha p ⟨⟩
  obtain rfl := no_arg ha
  refine back [(37, 5, g.toNat), (42, 6, 6), (20, 1, 0), (35, 2, vfile v.f), (26, 9, v.n.toNat), (21, 5, a.base.toNat), (0, 20, a.off.toNat)] [(37, 5), (42, 6), (20, 1), (35, 2), (26, 9), (21, 5), (0, 20)] (by rfl) rfl rfl ⟨BitVec.isLt _, by decide, by decide, vfile_lt _, BitVec.isLt _, BitVec.isLt _, BitVec.isLt _, trivial⟩ rfl fun x hL => ?_; change Clean _ _ (decSt x)
  have ha : memOf x = a := memOf_eq (hL 21 5 rfl) (hL 0 20 rfl)
  have hv : vregOf x = v := vregOf_eq (hL 35 2 rfl) (hL 26 9 rfl)
  simp (disch := decide) [decSt, onlyVec, onlySc, needH, dataRsv, dregOf, ha, hv, Clean, bv_eq, bt_eq, resv, rcode, excl, wrongTy, hL, Layout.at, Nat.mod_add_div]
theorem stSb (v : VReg) (a : Mem) : Statement (.stSb v a) := by
  rintro g arg hw ha p ⟨⟩
  obtain rfl := no_arg ha
  refine back [(37, 5, g.toNat), (42, 6, 7), (20, 1, 0), (35, 2, vfile v.f), (26, 9, v.n.toNat), (21, 5, a.base.toNat), (0, 20, a.off.toNat)] [(37, 5), (42, 6), (20, 1), (35, 2), (26, 9), (21, 5), (0, 20)] (by rfl) rfl rfl ⟨BitVec.isLt _, by decide, by decide, vfile_lt _, BitVec.isLt _, BitVec.isLt _, BitVec.isLt _, trivial⟩ rfl fun x hL => ?_; change Clean _ _ (decSt x)
  have ha : memOf x = a := memOf_eq (hL 21 5 rfl) (hL 0 20 rfl)
  have hv : vregOf x = v := vregOf_eq (hL 35 2 rfl) (hL 26 9 rfl)
  simp (disch := decide) [decSt, onlyVec, onlySc, needH, dataRsv, dregOf, ha, hv, Clean, bv_eq, bt_eq, resv, rcode, excl, wrongTy, hL, Layout.at, Nat.mod_add_div]
theorem stRel (sc : BitVec 3) (v : DReg) (a : Mem) : Statement (.stRel sc v a) := by
  intro g arg hw
  have hs : sc.toNat < 6 := by simpa [Instr.wf] using hw
  obtain rfl | rfl | rfl | rfl | rfl | rfl := six hs
  · rintro ha p ⟨⟩
    obtain rfl := no_arg ha
    rcases v with r | n
    · refine back [(37, 5, g.toNat), (42, 6, 16), (20, 1, 0), (35, 2, vfile r.f), (26, 9, r.n.toNat), (21, 5, a.base.toNat), (0, 20, a.off.toNat)] [(37, 5), (42, 6), (20, 1), (35, 2), (26, 9), (21, 5), (0, 20)] (by rfl) rfl rfl ⟨BitVec.isLt _, by decide, by decide, vfile_lt _, BitVec.isLt _, BitVec.isLt _, BitVec.isLt _, trivial⟩ rfl fun x hL => ?_; change Clean _ _ (decSt x)
      have hm : memOf x = a := memOf_eq (hL 21 5 rfl) (hL 0 20 rfl)
      have hv : vregOf x = r := vregOf_eq (hL 35 2 rfl) (hL 26 9 rfl)
      simp (disch := decide) [decSt, onlyVec, onlySc, needH, dataRsv, dregOf, hv, hm, Clean, bv_eq, bt_eq, resv, rcode, excl, wrongTy, hL, Layout.at, Nat.mod_add_div]
    · refine back [(37, 5, g.toNat), (42, 6, 16), (20, 1, 0), (35, 2, 2), (26, 6, n.toNat), (21, 5, a.base.toNat), (0, 20, a.off.toNat)] [(37, 5), (42, 6), (20, 1), (35, 2), (26, 6), (21, 5), (0, 20)] (by rfl) rfl rfl ⟨BitVec.isLt _, by decide, by decide, by decide, BitVec.isLt _, BitVec.isLt _, BitVec.isLt _, trivial⟩ rfl fun x hL => ?_; change Clean _ _ (decSt x)
      have hm : memOf x = a := memOf_eq (hL 21 5 rfl) (hL 0 20 rfl)
      simp (disch := decide) [decSt, onlyVec, onlySc, needH, dataRsv, dregOf, hm, Clean, bv_eq, bt_eq, resv, rcode, excl, wrongTy, hL, Layout.at, Nat.mod_add_div]
  · rintro ha p ⟨⟩
    obtain rfl := no_arg ha
    rcases v with r | n
    · refine back [(37, 5, g.toNat), (42, 6, 17), (20, 1, 0), (35, 2, vfile r.f), (26, 9, r.n.toNat), (21, 5, a.base.toNat), (0, 20, a.off.toNat)] [(37, 5), (42, 6), (20, 1), (35, 2), (26, 9), (21, 5), (0, 20)] (by rfl) rfl rfl ⟨BitVec.isLt _, by decide, by decide, vfile_lt _, BitVec.isLt _, BitVec.isLt _, BitVec.isLt _, trivial⟩ rfl fun x hL => ?_; change Clean _ _ (decSt x)
      have hm : memOf x = a := memOf_eq (hL 21 5 rfl) (hL 0 20 rfl)
      have hv : vregOf x = r := vregOf_eq (hL 35 2 rfl) (hL 26 9 rfl)
      simp (disch := decide) [decSt, onlyVec, onlySc, needH, dataRsv, dregOf, hv, hm, Clean, bv_eq, bt_eq, resv, rcode, excl, wrongTy, hL, Layout.at, Nat.mod_add_div]
    · refine back [(37, 5, g.toNat), (42, 6, 17), (20, 1, 0), (35, 2, 2), (26, 6, n.toNat), (21, 5, a.base.toNat), (0, 20, a.off.toNat)] [(37, 5), (42, 6), (20, 1), (35, 2), (26, 6), (21, 5), (0, 20)] (by rfl) rfl rfl ⟨BitVec.isLt _, by decide, by decide, by decide, BitVec.isLt _, BitVec.isLt _, BitVec.isLt _, trivial⟩ rfl fun x hL => ?_; change Clean _ _ (decSt x)
      have hm : memOf x = a := memOf_eq (hL 21 5 rfl) (hL 0 20 rfl)
      simp (disch := decide) [decSt, onlyVec, onlySc, needH, dataRsv, dregOf, hm, Clean, bv_eq, bt_eq, resv, rcode, excl, wrongTy, hL, Layout.at, Nat.mod_add_div]
  · rintro ha p ⟨⟩
    obtain rfl := no_arg ha
    rcases v with r | n
    · refine back [(37, 5, g.toNat), (42, 6, 18), (20, 1, 0), (35, 2, vfile r.f), (26, 9, r.n.toNat), (21, 5, a.base.toNat), (0, 20, a.off.toNat)] [(37, 5), (42, 6), (20, 1), (35, 2), (26, 9), (21, 5), (0, 20)] (by rfl) rfl rfl ⟨BitVec.isLt _, by decide, by decide, vfile_lt _, BitVec.isLt _, BitVec.isLt _, BitVec.isLt _, trivial⟩ rfl fun x hL => ?_; change Clean _ _ (decSt x)
      have hm : memOf x = a := memOf_eq (hL 21 5 rfl) (hL 0 20 rfl)
      have hv : vregOf x = r := vregOf_eq (hL 35 2 rfl) (hL 26 9 rfl)
      simp (disch := decide) [decSt, onlyVec, onlySc, needH, dataRsv, dregOf, hv, hm, Clean, bv_eq, bt_eq, resv, rcode, excl, wrongTy, hL, Layout.at, Nat.mod_add_div]
    · refine back [(37, 5, g.toNat), (42, 6, 18), (20, 1, 0), (35, 2, 2), (26, 6, n.toNat), (21, 5, a.base.toNat), (0, 20, a.off.toNat)] [(37, 5), (42, 6), (20, 1), (35, 2), (26, 6), (21, 5), (0, 20)] (by rfl) rfl rfl ⟨BitVec.isLt _, by decide, by decide, by decide, BitVec.isLt _, BitVec.isLt _, BitVec.isLt _, trivial⟩ rfl fun x hL => ?_; change Clean _ _ (decSt x)
      have hm : memOf x = a := memOf_eq (hL 21 5 rfl) (hL 0 20 rfl)
      simp (disch := decide) [decSt, onlyVec, onlySc, needH, dataRsv, dregOf, hm, Clean, bv_eq, bt_eq, resv, rcode, excl, wrongTy, hL, Layout.at, Nat.mod_add_div]
  · rintro ha p ⟨⟩
    obtain rfl := no_arg ha
    rcases v with r | n
    · refine back [(37, 5, g.toNat), (42, 6, 19), (20, 1, 0), (35, 2, vfile r.f), (26, 9, r.n.toNat), (21, 5, a.base.toNat), (0, 20, a.off.toNat)] [(37, 5), (42, 6), (20, 1), (35, 2), (26, 9), (21, 5), (0, 20)] (by rfl) rfl rfl ⟨BitVec.isLt _, by decide, by decide, vfile_lt _, BitVec.isLt _, BitVec.isLt _, BitVec.isLt _, trivial⟩ rfl fun x hL => ?_; change Clean _ _ (decSt x)
      have hm : memOf x = a := memOf_eq (hL 21 5 rfl) (hL 0 20 rfl)
      have hv : vregOf x = r := vregOf_eq (hL 35 2 rfl) (hL 26 9 rfl)
      simp (disch := decide) [decSt, onlyVec, onlySc, needH, dataRsv, dregOf, hv, hm, Clean, bv_eq, bt_eq, resv, rcode, excl, wrongTy, hL, Layout.at, Nat.mod_add_div]
    · refine back [(37, 5, g.toNat), (42, 6, 19), (20, 1, 0), (35, 2, 2), (26, 6, n.toNat), (21, 5, a.base.toNat), (0, 20, a.off.toNat)] [(37, 5), (42, 6), (20, 1), (35, 2), (26, 6), (21, 5), (0, 20)] (by rfl) rfl rfl ⟨BitVec.isLt _, by decide, by decide, by decide, BitVec.isLt _, BitVec.isLt _, BitVec.isLt _, trivial⟩ rfl fun x hL => ?_; change Clean _ _ (decSt x)
      have hm : memOf x = a := memOf_eq (hL 21 5 rfl) (hL 0 20 rfl)
      simp (disch := decide) [decSt, onlyVec, onlySc, needH, dataRsv, dregOf, hm, Clean, bv_eq, bt_eq, resv, rcode, excl, wrongTy, hL, Layout.at, Nat.mod_add_div]
  · rintro ha p ⟨⟩
    obtain rfl := no_arg ha
    rcases v with r | n
    · refine back [(37, 5, g.toNat), (42, 6, 20), (20, 1, 0), (35, 2, vfile r.f), (26, 9, r.n.toNat), (21, 5, a.base.toNat), (0, 20, a.off.toNat)] [(37, 5), (42, 6), (20, 1), (35, 2), (26, 9), (21, 5), (0, 20)] (by rfl) rfl rfl ⟨BitVec.isLt _, by decide, by decide, vfile_lt _, BitVec.isLt _, BitVec.isLt _, BitVec.isLt _, trivial⟩ rfl fun x hL => ?_; change Clean _ _ (decSt x)
      have hm : memOf x = a := memOf_eq (hL 21 5 rfl) (hL 0 20 rfl)
      have hv : vregOf x = r := vregOf_eq (hL 35 2 rfl) (hL 26 9 rfl)
      simp (disch := decide) [decSt, onlyVec, onlySc, needH, dataRsv, dregOf, hv, hm, Clean, bv_eq, bt_eq, resv, rcode, excl, wrongTy, hL, Layout.at, Nat.mod_add_div]
    · refine back [(37, 5, g.toNat), (42, 6, 20), (20, 1, 0), (35, 2, 2), (26, 6, n.toNat), (21, 5, a.base.toNat), (0, 20, a.off.toNat)] [(37, 5), (42, 6), (20, 1), (35, 2), (26, 6), (21, 5), (0, 20)] (by rfl) rfl rfl ⟨BitVec.isLt _, by decide, by decide, by decide, BitVec.isLt _, BitVec.isLt _, BitVec.isLt _, trivial⟩ rfl fun x hL => ?_; change Clean _ _ (decSt x)
      have hm : memOf x = a := memOf_eq (hL 21 5 rfl) (hL 0 20 rfl)
      simp (disch := decide) [decSt, onlyVec, onlySc, needH, dataRsv, dregOf, hm, Clean, bv_eq, bt_eq, resv, rcode, excl, wrongTy, hL, Layout.at, Nat.mod_add_div]
  · rintro ha p ⟨⟩
    obtain rfl := no_arg ha
    rcases v with r | n
    · refine back [(37, 5, g.toNat), (42, 6, 21), (20, 1, 0), (35, 2, vfile r.f), (26, 9, r.n.toNat), (21, 5, a.base.toNat), (0, 20, a.off.toNat)] [(37, 5), (42, 6), (20, 1), (35, 2), (26, 9), (21, 5), (0, 20)] (by rfl) rfl rfl ⟨BitVec.isLt _, by decide, by decide, vfile_lt _, BitVec.isLt _, BitVec.isLt _, BitVec.isLt _, trivial⟩ rfl fun x hL => ?_; change Clean _ _ (decSt x)
      have hm : memOf x = a := memOf_eq (hL 21 5 rfl) (hL 0 20 rfl)
      have hv : vregOf x = r := vregOf_eq (hL 35 2 rfl) (hL 26 9 rfl)
      simp (disch := decide) [decSt, onlyVec, onlySc, needH, dataRsv, dregOf, hv, hm, Clean, bv_eq, bt_eq, resv, rcode, excl, wrongTy, hL, Layout.at, Nat.mod_add_div]
    · refine back [(37, 5, g.toNat), (42, 6, 21), (20, 1, 0), (35, 2, 2), (26, 6, n.toNat), (21, 5, a.base.toNat), (0, 20, a.off.toNat)] [(37, 5), (42, 6), (20, 1), (35, 2), (26, 6), (21, 5), (0, 20)] (by rfl) rfl rfl ⟨BitVec.isLt _, by decide, by decide, by decide, BitVec.isLt _, BitVec.isLt _, BitVec.isLt _, trivial⟩ rfl fun x hL => ?_; change Clean _ _ (decSt x)
      have hm : memOf x = a := memOf_eq (hL 21 5 rfl) (hL 0 20 rfl)
      simp (disch := decide) [decSt, onlyVec, onlySc, needH, dataRsv, dregOf, hm, Clean, bv_eq, bt_eq, resv, rcode, excl, wrongTy, hL, Layout.at, Nat.mod_add_div]
theorem aadd (gl : Bool) (w64 : Bool) (r : BitVec 6) (a : Mem) : Statement (.aadd gl w64 r a) := by
  cases gl <;> cases w64
  · rintro g arg hw ha p ⟨⟩
    obtain rfl := no_arg ha
    refine back [(37, 5, g.toNat), (42, 6, 32), (20, 1, 0), (35, 2, 2), (26, 6, r.toNat), (21, 5, a.base.toNat), (0, 20, a.off.toNat)] [(37, 5), (42, 6), (20, 1), (35, 2), (26, 6), (21, 5), (0, 20)] (by rfl) rfl rfl ⟨BitVec.isLt _, by decide, by decide, by decide, BitVec.isLt _, BitVec.isLt _, BitVec.isLt _, trivial⟩ rfl fun x hL => ?_; change Clean _ _ (decSt x)
    have hm : memOf x = a := memOf_eq (hL 21 5 rfl) (hL 0 20 rfl)
    simp (disch := decide) [decSt, onlySc, needH, dataRsv, hm, Clean, bv_eq, bt_eq, resv, rcode, excl, wrongTy, hL, Layout.at, Nat.mod_add_div]
  · rintro g arg hw ha p ⟨⟩
    obtain rfl := no_arg ha
    refine back [(37, 5, g.toNat), (42, 6, 33), (20, 1, 0), (35, 2, 2), (26, 6, r.toNat), (21, 5, a.base.toNat), (0, 20, a.off.toNat)] [(37, 5), (42, 6), (20, 1), (35, 2), (26, 6), (21, 5), (0, 20)] (by rfl) rfl rfl ⟨BitVec.isLt _, by decide, by decide, by decide, BitVec.isLt _, BitVec.isLt _, BitVec.isLt _, trivial⟩ rfl fun x hL => ?_; change Clean _ _ (decSt x)
    have hm : memOf x = a := memOf_eq (hL 21 5 rfl) (hL 0 20 rfl)
    simp (disch := decide) [decSt, onlySc, needH, dataRsv, hm, Clean, bv_eq, bt_eq, resv, rcode, excl, wrongTy, hL, Layout.at, Nat.mod_add_div]
  · rintro g arg hw ha p ⟨⟩
    obtain rfl := no_arg ha
    refine back [(37, 5, g.toNat), (42, 6, 48), (20, 1, 0), (35, 2, 2), (26, 6, r.toNat), (21, 5, a.base.toNat), (0, 20, a.off.toNat)] [(37, 5), (42, 6), (20, 1), (35, 2), (26, 6), (21, 5), (0, 20)] (by rfl) rfl rfl ⟨BitVec.isLt _, by decide, by decide, by decide, BitVec.isLt _, BitVec.isLt _, BitVec.isLt _, trivial⟩ rfl fun x hL => ?_; change Clean _ _ (decSt x)
    have hm : memOf x = a := memOf_eq (hL 21 5 rfl) (hL 0 20 rfl)
    simp (disch := decide) [decSt, onlySc, needH, dataRsv, hm, Clean, bv_eq, bt_eq, resv, rcode, excl, wrongTy, hL, Layout.at, Nat.mod_add_div]
  · rintro g arg hw ha p ⟨⟩
    obtain rfl := no_arg ha
    refine back [(37, 5, g.toNat), (42, 6, 49), (20, 1, 0), (35, 2, 2), (26, 6, r.toNat), (21, 5, a.base.toNat), (0, 20, a.off.toNat)] [(37, 5), (42, 6), (20, 1), (35, 2), (26, 6), (21, 5), (0, 20)] (by rfl) rfl rfl ⟨BitVec.isLt _, by decide, by decide, by decide, BitVec.isLt _, BitVec.isLt _, BitVec.isLt _, trivial⟩ rfl fun x hL => ?_; change Clean _ _ (decSt x)
    have hm : memOf x = a := memOf_eq (hL 21 5 rfl) (hL 0 20 rfl)
    simp (disch := decide) [decSt, onlySc, needH, dataRsv, hm, Clean, bv_eq, bt_eq, resv, rcode, excl, wrongTy, hL, Layout.at, Nat.mod_add_div]
theorem amin (gl : Bool) (w64 : Bool) (r : BitVec 6) (a : Mem) : Statement (.amin gl w64 r a) := by
  cases gl <;> cases w64
  · rintro g arg hw ha p ⟨⟩
    obtain rfl := no_arg ha
    refine back [(37, 5, g.toNat), (42, 6, 34), (20, 1, 0), (35, 2, 2), (26, 6, r.toNat), (21, 5, a.base.toNat), (0, 20, a.off.toNat)] [(37, 5), (42, 6), (20, 1), (35, 2), (26, 6), (21, 5), (0, 20)] (by rfl) rfl rfl ⟨BitVec.isLt _, by decide, by decide, by decide, BitVec.isLt _, BitVec.isLt _, BitVec.isLt _, trivial⟩ rfl fun x hL => ?_; change Clean _ _ (decSt x)
    have hm : memOf x = a := memOf_eq (hL 21 5 rfl) (hL 0 20 rfl)
    simp (disch := decide) [decSt, onlySc, needH, dataRsv, hm, Clean, bv_eq, bt_eq, resv, rcode, excl, wrongTy, hL, Layout.at, Nat.mod_add_div]
  · rintro g arg hw ha p ⟨⟩
    obtain rfl := no_arg ha
    refine back [(37, 5, g.toNat), (42, 6, 35), (20, 1, 0), (35, 2, 2), (26, 6, r.toNat), (21, 5, a.base.toNat), (0, 20, a.off.toNat)] [(37, 5), (42, 6), (20, 1), (35, 2), (26, 6), (21, 5), (0, 20)] (by rfl) rfl rfl ⟨BitVec.isLt _, by decide, by decide, by decide, BitVec.isLt _, BitVec.isLt _, BitVec.isLt _, trivial⟩ rfl fun x hL => ?_; change Clean _ _ (decSt x)
    have hm : memOf x = a := memOf_eq (hL 21 5 rfl) (hL 0 20 rfl)
    simp (disch := decide) [decSt, onlySc, needH, dataRsv, hm, Clean, bv_eq, bt_eq, resv, rcode, excl, wrongTy, hL, Layout.at, Nat.mod_add_div]
  · rintro g arg hw ha p ⟨⟩
    obtain rfl := no_arg ha
    refine back [(37, 5, g.toNat), (42, 6, 50), (20, 1, 0), (35, 2, 2), (26, 6, r.toNat), (21, 5, a.base.toNat), (0, 20, a.off.toNat)] [(37, 5), (42, 6), (20, 1), (35, 2), (26, 6), (21, 5), (0, 20)] (by rfl) rfl rfl ⟨BitVec.isLt _, by decide, by decide, by decide, BitVec.isLt _, BitVec.isLt _, BitVec.isLt _, trivial⟩ rfl fun x hL => ?_; change Clean _ _ (decSt x)
    have hm : memOf x = a := memOf_eq (hL 21 5 rfl) (hL 0 20 rfl)
    simp (disch := decide) [decSt, onlySc, needH, dataRsv, hm, Clean, bv_eq, bt_eq, resv, rcode, excl, wrongTy, hL, Layout.at, Nat.mod_add_div]
  · rintro g arg hw ha p ⟨⟩
    obtain rfl := no_arg ha
    refine back [(37, 5, g.toNat), (42, 6, 51), (20, 1, 0), (35, 2, 2), (26, 6, r.toNat), (21, 5, a.base.toNat), (0, 20, a.off.toNat)] [(37, 5), (42, 6), (20, 1), (35, 2), (26, 6), (21, 5), (0, 20)] (by rfl) rfl rfl ⟨BitVec.isLt _, by decide, by decide, by decide, BitVec.isLt _, BitVec.isLt _, BitVec.isLt _, trivial⟩ rfl fun x hL => ?_; change Clean _ _ (decSt x)
    have hm : memOf x = a := memOf_eq (hL 21 5 rfl) (hL 0 20 rfl)
    simp (disch := decide) [decSt, onlySc, needH, dataRsv, hm, Clean, bv_eq, bt_eq, resv, rcode, excl, wrongTy, hL, Layout.at, Nat.mod_add_div]
theorem amax (gl : Bool) (w64 : Bool) (r : BitVec 6) (a : Mem) : Statement (.amax gl w64 r a) := by
  cases gl <;> cases w64
  · rintro g arg hw ha p ⟨⟩
    obtain rfl := no_arg ha
    refine back [(37, 5, g.toNat), (42, 6, 36), (20, 1, 0), (35, 2, 2), (26, 6, r.toNat), (21, 5, a.base.toNat), (0, 20, a.off.toNat)] [(37, 5), (42, 6), (20, 1), (35, 2), (26, 6), (21, 5), (0, 20)] (by rfl) rfl rfl ⟨BitVec.isLt _, by decide, by decide, by decide, BitVec.isLt _, BitVec.isLt _, BitVec.isLt _, trivial⟩ rfl fun x hL => ?_; change Clean _ _ (decSt x)
    have hm : memOf x = a := memOf_eq (hL 21 5 rfl) (hL 0 20 rfl)
    simp (disch := decide) [decSt, onlySc, needH, dataRsv, hm, Clean, bv_eq, bt_eq, resv, rcode, excl, wrongTy, hL, Layout.at, Nat.mod_add_div]
  · rintro g arg hw ha p ⟨⟩
    obtain rfl := no_arg ha
    refine back [(37, 5, g.toNat), (42, 6, 37), (20, 1, 0), (35, 2, 2), (26, 6, r.toNat), (21, 5, a.base.toNat), (0, 20, a.off.toNat)] [(37, 5), (42, 6), (20, 1), (35, 2), (26, 6), (21, 5), (0, 20)] (by rfl) rfl rfl ⟨BitVec.isLt _, by decide, by decide, by decide, BitVec.isLt _, BitVec.isLt _, BitVec.isLt _, trivial⟩ rfl fun x hL => ?_; change Clean _ _ (decSt x)
    have hm : memOf x = a := memOf_eq (hL 21 5 rfl) (hL 0 20 rfl)
    simp (disch := decide) [decSt, onlySc, needH, dataRsv, hm, Clean, bv_eq, bt_eq, resv, rcode, excl, wrongTy, hL, Layout.at, Nat.mod_add_div]
  · rintro g arg hw ha p ⟨⟩
    obtain rfl := no_arg ha
    refine back [(37, 5, g.toNat), (42, 6, 52), (20, 1, 0), (35, 2, 2), (26, 6, r.toNat), (21, 5, a.base.toNat), (0, 20, a.off.toNat)] [(37, 5), (42, 6), (20, 1), (35, 2), (26, 6), (21, 5), (0, 20)] (by rfl) rfl rfl ⟨BitVec.isLt _, by decide, by decide, by decide, BitVec.isLt _, BitVec.isLt _, BitVec.isLt _, trivial⟩ rfl fun x hL => ?_; change Clean _ _ (decSt x)
    have hm : memOf x = a := memOf_eq (hL 21 5 rfl) (hL 0 20 rfl)
    simp (disch := decide) [decSt, onlySc, needH, dataRsv, hm, Clean, bv_eq, bt_eq, resv, rcode, excl, wrongTy, hL, Layout.at, Nat.mod_add_div]
  · rintro g arg hw ha p ⟨⟩
    obtain rfl := no_arg ha
    refine back [(37, 5, g.toNat), (42, 6, 53), (20, 1, 0), (35, 2, 2), (26, 6, r.toNat), (21, 5, a.base.toNat), (0, 20, a.off.toNat)] [(37, 5), (42, 6), (20, 1), (35, 2), (26, 6), (21, 5), (0, 20)] (by rfl) rfl rfl ⟨BitVec.isLt _, by decide, by decide, by decide, BitVec.isLt _, BitVec.isLt _, BitVec.isLt _, trivial⟩ rfl fun x hL => ?_; change Clean _ _ (decSt x)
    have hm : memOf x = a := memOf_eq (hL 21 5 rfl) (hL 0 20 rfl)
    simp (disch := decide) [decSt, onlySc, needH, dataRsv, hm, Clean, bv_eq, bt_eq, resv, rcode, excl, wrongTy, hL, Layout.at, Nat.mod_add_div]
theorem axch (gl : Bool) (w64 : Bool) (r : BitVec 6) (a : Mem) : Statement (.axch gl w64 r a) := by
  cases gl <;> cases w64
  · rintro g arg hw ha p ⟨⟩
    obtain rfl := no_arg ha
    refine back [(37, 5, g.toNat), (42, 6, 38), (20, 1, 0), (35, 2, 2), (26, 6, r.toNat), (21, 5, a.base.toNat), (0, 20, a.off.toNat)] [(37, 5), (42, 6), (20, 1), (35, 2), (26, 6), (21, 5), (0, 20)] (by rfl) rfl rfl ⟨BitVec.isLt _, by decide, by decide, by decide, BitVec.isLt _, BitVec.isLt _, BitVec.isLt _, trivial⟩ rfl fun x hL => ?_; change Clean _ _ (decSt x)
    have hm : memOf x = a := memOf_eq (hL 21 5 rfl) (hL 0 20 rfl)
    simp (disch := decide) [decSt, onlySc, needH, dataRsv, hm, Clean, bv_eq, bt_eq, resv, rcode, excl, wrongTy, hL, Layout.at, Nat.mod_add_div]
  · rintro g arg hw ha p ⟨⟩
    obtain rfl := no_arg ha
    refine back [(37, 5, g.toNat), (42, 6, 39), (20, 1, 0), (35, 2, 2), (26, 6, r.toNat), (21, 5, a.base.toNat), (0, 20, a.off.toNat)] [(37, 5), (42, 6), (20, 1), (35, 2), (26, 6), (21, 5), (0, 20)] (by rfl) rfl rfl ⟨BitVec.isLt _, by decide, by decide, by decide, BitVec.isLt _, BitVec.isLt _, BitVec.isLt _, trivial⟩ rfl fun x hL => ?_; change Clean _ _ (decSt x)
    have hm : memOf x = a := memOf_eq (hL 21 5 rfl) (hL 0 20 rfl)
    simp (disch := decide) [decSt, onlySc, needH, dataRsv, hm, Clean, bv_eq, bt_eq, resv, rcode, excl, wrongTy, hL, Layout.at, Nat.mod_add_div]
  · rintro g arg hw ha p ⟨⟩
    obtain rfl := no_arg ha
    refine back [(37, 5, g.toNat), (42, 6, 54), (20, 1, 0), (35, 2, 2), (26, 6, r.toNat), (21, 5, a.base.toNat), (0, 20, a.off.toNat)] [(37, 5), (42, 6), (20, 1), (35, 2), (26, 6), (21, 5), (0, 20)] (by rfl) rfl rfl ⟨BitVec.isLt _, by decide, by decide, by decide, BitVec.isLt _, BitVec.isLt _, BitVec.isLt _, trivial⟩ rfl fun x hL => ?_; change Clean _ _ (decSt x)
    have hm : memOf x = a := memOf_eq (hL 21 5 rfl) (hL 0 20 rfl)
    simp (disch := decide) [decSt, onlySc, needH, dataRsv, hm, Clean, bv_eq, bt_eq, resv, rcode, excl, wrongTy, hL, Layout.at, Nat.mod_add_div]
  · rintro g arg hw ha p ⟨⟩
    obtain rfl := no_arg ha
    refine back [(37, 5, g.toNat), (42, 6, 55), (20, 1, 0), (35, 2, 2), (26, 6, r.toNat), (21, 5, a.base.toNat), (0, 20, a.off.toNat)] [(37, 5), (42, 6), (20, 1), (35, 2), (26, 6), (21, 5), (0, 20)] (by rfl) rfl rfl ⟨BitVec.isLt _, by decide, by decide, by decide, BitVec.isLt _, BitVec.isLt _, BitVec.isLt _, trivial⟩ rfl fun x hL => ?_; change Clean _ _ (decSt x)
    have hm : memOf x = a := memOf_eq (hL 21 5 rfl) (hL 0 20 rfl)
    simp (disch := decide) [decSt, onlySc, needH, dataRsv, hm, Clean, bv_eq, bt_eq, resv, rcode, excl, wrongTy, hL, Layout.at, Nat.mod_add_div]
theorem acas (gl : Bool) (w64 : Bool) (r : BitVec 6) (a : Mem) : Statement (.acas gl w64 r a) := by
  cases gl <;> cases w64
  · rintro g arg hw ha p ⟨⟩
    obtain rfl := no_arg ha
    have hw' : (r != 63) = true := hw
    simp [BitVec.toNat_eq] at hw'
    refine back [(37, 5, g.toNat), (42, 6, 40), (20, 1, 0), (35, 2, 2), (26, 6, r.toNat), (21, 5, a.base.toNat), (0, 20, a.off.toNat)] [(37, 5), (42, 6), (20, 1), (35, 2), (26, 6), (21, 5), (0, 20)] (by rfl) rfl rfl ⟨BitVec.isLt _, by decide, by decide, by decide, BitVec.isLt _, BitVec.isLt _, BitVec.isLt _, trivial⟩ rfl fun x hL => ?_; change Clean _ _ (decSt x)
    have hm : memOf x = a := memOf_eq (hL 21 5 rfl) (hL 0 20 rfl)
    simp (disch := decide) [decSt, onlySc, needH, dataRsv, hm, Clean, bv_eq, bt_eq, resv, rcode, excl, wrongTy, hL, Layout.at, Nat.mod_add_div]; omega
  · rintro g arg hw ha p ⟨⟩
    obtain rfl := no_arg ha
    have hw' : (r != 63) = true := hw
    simp [BitVec.toNat_eq] at hw'
    refine back [(37, 5, g.toNat), (42, 6, 41), (20, 1, 0), (35, 2, 2), (26, 6, r.toNat), (21, 5, a.base.toNat), (0, 20, a.off.toNat)] [(37, 5), (42, 6), (20, 1), (35, 2), (26, 6), (21, 5), (0, 20)] (by rfl) rfl rfl ⟨BitVec.isLt _, by decide, by decide, by decide, BitVec.isLt _, BitVec.isLt _, BitVec.isLt _, trivial⟩ rfl fun x hL => ?_; change Clean _ _ (decSt x)
    have hm : memOf x = a := memOf_eq (hL 21 5 rfl) (hL 0 20 rfl)
    simp (disch := decide) [decSt, onlySc, needH, dataRsv, hm, Clean, bv_eq, bt_eq, resv, rcode, excl, wrongTy, hL, Layout.at, Nat.mod_add_div]; omega
  · rintro g arg hw ha p ⟨⟩
    obtain rfl := no_arg ha
    have hw' : (r != 63) = true := hw
    simp [BitVec.toNat_eq] at hw'
    refine back [(37, 5, g.toNat), (42, 6, 56), (20, 1, 0), (35, 2, 2), (26, 6, r.toNat), (21, 5, a.base.toNat), (0, 20, a.off.toNat)] [(37, 5), (42, 6), (20, 1), (35, 2), (26, 6), (21, 5), (0, 20)] (by rfl) rfl rfl ⟨BitVec.isLt _, by decide, by decide, by decide, BitVec.isLt _, BitVec.isLt _, BitVec.isLt _, trivial⟩ rfl fun x hL => ?_; change Clean _ _ (decSt x)
    have hm : memOf x = a := memOf_eq (hL 21 5 rfl) (hL 0 20 rfl)
    simp (disch := decide) [decSt, onlySc, needH, dataRsv, hm, Clean, bv_eq, bt_eq, resv, rcode, excl, wrongTy, hL, Layout.at, Nat.mod_add_div]; omega
  · rintro g arg hw ha p ⟨⟩
    obtain rfl := no_arg ha
    have hw' : (r != 63) = true := hw
    simp [BitVec.toNat_eq] at hw'
    refine back [(37, 5, g.toNat), (42, 6, 57), (20, 1, 0), (35, 2, 2), (26, 6, r.toNat), (21, 5, a.base.toNat), (0, 20, a.off.toNat)] [(37, 5), (42, 6), (20, 1), (35, 2), (26, 6), (21, 5), (0, 20)] (by rfl) rfl rfl ⟨BitVec.isLt _, by decide, by decide, by decide, BitVec.isLt _, BitVec.isLt _, BitVec.isLt _, trivial⟩ rfl fun x hL => ?_; change Clean _ _ (decSt x)
    have hm : memOf x = a := memOf_eq (hL 21 5 rfl) (hL 0 20 rfl)
    simp (disch := decide) [decSt, onlySc, needH, dataRsv, hm, Clean, bv_eq, bt_eq, resv, rcode, excl, wrongTy, hL, Layout.at, Nat.mod_add_div]; omega
theorem aand (gl : Bool) (w64 : Bool) (r : BitVec 6) (a : Mem) : Statement (.aand gl w64 r a) := by
  cases gl <;> cases w64
  · rintro g arg hw ha p ⟨⟩
    obtain rfl := no_arg ha
    refine back [(37, 5, g.toNat), (42, 6, 42), (20, 1, 0), (35, 2, 2), (26, 6, r.toNat), (21, 5, a.base.toNat), (0, 20, a.off.toNat)] [(37, 5), (42, 6), (20, 1), (35, 2), (26, 6), (21, 5), (0, 20)] (by rfl) rfl rfl ⟨BitVec.isLt _, by decide, by decide, by decide, BitVec.isLt _, BitVec.isLt _, BitVec.isLt _, trivial⟩ rfl fun x hL => ?_; change Clean _ _ (decSt x)
    have hm : memOf x = a := memOf_eq (hL 21 5 rfl) (hL 0 20 rfl)
    simp (disch := decide) [decSt, onlySc, needH, dataRsv, hm, Clean, bv_eq, bt_eq, resv, rcode, excl, wrongTy, hL, Layout.at, Nat.mod_add_div]
  · rintro g arg hw ha p ⟨⟩
    obtain rfl := no_arg ha
    refine back [(37, 5, g.toNat), (42, 6, 43), (20, 1, 0), (35, 2, 2), (26, 6, r.toNat), (21, 5, a.base.toNat), (0, 20, a.off.toNat)] [(37, 5), (42, 6), (20, 1), (35, 2), (26, 6), (21, 5), (0, 20)] (by rfl) rfl rfl ⟨BitVec.isLt _, by decide, by decide, by decide, BitVec.isLt _, BitVec.isLt _, BitVec.isLt _, trivial⟩ rfl fun x hL => ?_; change Clean _ _ (decSt x)
    have hm : memOf x = a := memOf_eq (hL 21 5 rfl) (hL 0 20 rfl)
    simp (disch := decide) [decSt, onlySc, needH, dataRsv, hm, Clean, bv_eq, bt_eq, resv, rcode, excl, wrongTy, hL, Layout.at, Nat.mod_add_div]
  · rintro g arg hw ha p ⟨⟩
    obtain rfl := no_arg ha
    refine back [(37, 5, g.toNat), (42, 6, 58), (20, 1, 0), (35, 2, 2), (26, 6, r.toNat), (21, 5, a.base.toNat), (0, 20, a.off.toNat)] [(37, 5), (42, 6), (20, 1), (35, 2), (26, 6), (21, 5), (0, 20)] (by rfl) rfl rfl ⟨BitVec.isLt _, by decide, by decide, by decide, BitVec.isLt _, BitVec.isLt _, BitVec.isLt _, trivial⟩ rfl fun x hL => ?_; change Clean _ _ (decSt x)
    have hm : memOf x = a := memOf_eq (hL 21 5 rfl) (hL 0 20 rfl)
    simp (disch := decide) [decSt, onlySc, needH, dataRsv, hm, Clean, bv_eq, bt_eq, resv, rcode, excl, wrongTy, hL, Layout.at, Nat.mod_add_div]
  · rintro g arg hw ha p ⟨⟩
    obtain rfl := no_arg ha
    refine back [(37, 5, g.toNat), (42, 6, 59), (20, 1, 0), (35, 2, 2), (26, 6, r.toNat), (21, 5, a.base.toNat), (0, 20, a.off.toNat)] [(37, 5), (42, 6), (20, 1), (35, 2), (26, 6), (21, 5), (0, 20)] (by rfl) rfl rfl ⟨BitVec.isLt _, by decide, by decide, by decide, BitVec.isLt _, BitVec.isLt _, BitVec.isLt _, trivial⟩ rfl fun x hL => ?_; change Clean _ _ (decSt x)
    have hm : memOf x = a := memOf_eq (hL 21 5 rfl) (hL 0 20 rfl)
    simp (disch := decide) [decSt, onlySc, needH, dataRsv, hm, Clean, bv_eq, bt_eq, resv, rcode, excl, wrongTy, hL, Layout.at, Nat.mod_add_div]
theorem aor (gl : Bool) (w64 : Bool) (r : BitVec 6) (a : Mem) : Statement (.aor gl w64 r a) := by
  cases gl <;> cases w64
  · rintro g arg hw ha p ⟨⟩
    obtain rfl := no_arg ha
    refine back [(37, 5, g.toNat), (42, 6, 44), (20, 1, 0), (35, 2, 2), (26, 6, r.toNat), (21, 5, a.base.toNat), (0, 20, a.off.toNat)] [(37, 5), (42, 6), (20, 1), (35, 2), (26, 6), (21, 5), (0, 20)] (by rfl) rfl rfl ⟨BitVec.isLt _, by decide, by decide, by decide, BitVec.isLt _, BitVec.isLt _, BitVec.isLt _, trivial⟩ rfl fun x hL => ?_; change Clean _ _ (decSt x)
    have hm : memOf x = a := memOf_eq (hL 21 5 rfl) (hL 0 20 rfl)
    simp (disch := decide) [decSt, onlySc, needH, dataRsv, hm, Clean, bv_eq, bt_eq, resv, rcode, excl, wrongTy, hL, Layout.at, Nat.mod_add_div]
  · rintro g arg hw ha p ⟨⟩
    obtain rfl := no_arg ha
    refine back [(37, 5, g.toNat), (42, 6, 45), (20, 1, 0), (35, 2, 2), (26, 6, r.toNat), (21, 5, a.base.toNat), (0, 20, a.off.toNat)] [(37, 5), (42, 6), (20, 1), (35, 2), (26, 6), (21, 5), (0, 20)] (by rfl) rfl rfl ⟨BitVec.isLt _, by decide, by decide, by decide, BitVec.isLt _, BitVec.isLt _, BitVec.isLt _, trivial⟩ rfl fun x hL => ?_; change Clean _ _ (decSt x)
    have hm : memOf x = a := memOf_eq (hL 21 5 rfl) (hL 0 20 rfl)
    simp (disch := decide) [decSt, onlySc, needH, dataRsv, hm, Clean, bv_eq, bt_eq, resv, rcode, excl, wrongTy, hL, Layout.at, Nat.mod_add_div]
  · rintro g arg hw ha p ⟨⟩
    obtain rfl := no_arg ha
    refine back [(37, 5, g.toNat), (42, 6, 60), (20, 1, 0), (35, 2, 2), (26, 6, r.toNat), (21, 5, a.base.toNat), (0, 20, a.off.toNat)] [(37, 5), (42, 6), (20, 1), (35, 2), (26, 6), (21, 5), (0, 20)] (by rfl) rfl rfl ⟨BitVec.isLt _, by decide, by decide, by decide, BitVec.isLt _, BitVec.isLt _, BitVec.isLt _, trivial⟩ rfl fun x hL => ?_; change Clean _ _ (decSt x)
    have hm : memOf x = a := memOf_eq (hL 21 5 rfl) (hL 0 20 rfl)
    simp (disch := decide) [decSt, onlySc, needH, dataRsv, hm, Clean, bv_eq, bt_eq, resv, rcode, excl, wrongTy, hL, Layout.at, Nat.mod_add_div]
  · rintro g arg hw ha p ⟨⟩
    obtain rfl := no_arg ha
    refine back [(37, 5, g.toNat), (42, 6, 61), (20, 1, 0), (35, 2, 2), (26, 6, r.toNat), (21, 5, a.base.toNat), (0, 20, a.off.toNat)] [(37, 5), (42, 6), (20, 1), (35, 2), (26, 6), (21, 5), (0, 20)] (by rfl) rfl rfl ⟨BitVec.isLt _, by decide, by decide, by decide, BitVec.isLt _, BitVec.isLt _, BitVec.isLt _, trivial⟩ rfl fun x hL => ?_; change Clean _ _ (decSt x)
    have hm : memOf x = a := memOf_eq (hL 21 5 rfl) (hL 0 20 rfl)
    simp (disch := decide) [decSt, onlySc, needH, dataRsv, hm, Clean, bv_eq, bt_eq, resv, rcode, excl, wrongTy, hL, Layout.at, Nat.mod_add_div]
theorem axor (gl : Bool) (w64 : Bool) (r : BitVec 6) (a : Mem) : Statement (.axor gl w64 r a) := by
  cases gl <;> cases w64
  · rintro g arg hw ha p ⟨⟩
    obtain rfl := no_arg ha
    refine back [(37, 5, g.toNat), (42, 6, 46), (20, 1, 0), (35, 2, 2), (26, 6, r.toNat), (21, 5, a.base.toNat), (0, 20, a.off.toNat)] [(37, 5), (42, 6), (20, 1), (35, 2), (26, 6), (21, 5), (0, 20)] (by rfl) rfl rfl ⟨BitVec.isLt _, by decide, by decide, by decide, BitVec.isLt _, BitVec.isLt _, BitVec.isLt _, trivial⟩ rfl fun x hL => ?_; change Clean _ _ (decSt x)
    have hm : memOf x = a := memOf_eq (hL 21 5 rfl) (hL 0 20 rfl)
    simp (disch := decide) [decSt, onlySc, needH, dataRsv, hm, Clean, bv_eq, bt_eq, resv, rcode, excl, wrongTy, hL, Layout.at, Nat.mod_add_div]
  · rintro g arg hw ha p ⟨⟩
    obtain rfl := no_arg ha
    refine back [(37, 5, g.toNat), (42, 6, 47), (20, 1, 0), (35, 2, 2), (26, 6, r.toNat), (21, 5, a.base.toNat), (0, 20, a.off.toNat)] [(37, 5), (42, 6), (20, 1), (35, 2), (26, 6), (21, 5), (0, 20)] (by rfl) rfl rfl ⟨BitVec.isLt _, by decide, by decide, by decide, BitVec.isLt _, BitVec.isLt _, BitVec.isLt _, trivial⟩ rfl fun x hL => ?_; change Clean _ _ (decSt x)
    have hm : memOf x = a := memOf_eq (hL 21 5 rfl) (hL 0 20 rfl)
    simp (disch := decide) [decSt, onlySc, needH, dataRsv, hm, Clean, bv_eq, bt_eq, resv, rcode, excl, wrongTy, hL, Layout.at, Nat.mod_add_div]
  · rintro g arg hw ha p ⟨⟩
    obtain rfl := no_arg ha
    refine back [(37, 5, g.toNat), (42, 6, 62), (20, 1, 0), (35, 2, 2), (26, 6, r.toNat), (21, 5, a.base.toNat), (0, 20, a.off.toNat)] [(37, 5), (42, 6), (20, 1), (35, 2), (26, 6), (21, 5), (0, 20)] (by rfl) rfl rfl ⟨BitVec.isLt _, by decide, by decide, by decide, BitVec.isLt _, BitVec.isLt _, BitVec.isLt _, trivial⟩ rfl fun x hL => ?_; change Clean _ _ (decSt x)
    have hm : memOf x = a := memOf_eq (hL 21 5 rfl) (hL 0 20 rfl)
    simp (disch := decide) [decSt, onlySc, needH, dataRsv, hm, Clean, bv_eq, bt_eq, resv, rcode, excl, wrongTy, hL, Layout.at, Nat.mod_add_div]
  · rintro g arg hw ha p ⟨⟩
    obtain rfl := no_arg ha
    refine back [(37, 5, g.toNat), (42, 6, 63), (20, 1, 0), (35, 2, 2), (26, 6, r.toNat), (21, 5, a.base.toNat), (0, 20, a.off.toNat)] [(37, 5), (42, 6), (20, 1), (35, 2), (26, 6), (21, 5), (0, 20)] (by rfl) rfl rfl ⟨BitVec.isLt _, by decide, by decide, by decide, BitVec.isLt _, BitVec.isLt _, BitVec.isLt _, trivial⟩ rfl fun x hL => ?_; change Clean _ _ (decSt x)
    have hm : memOf x = a := memOf_eq (hL 21 5 rfl) (hL 0 20 rfl)
    simp (disch := decide) [decSt, onlySc, needH, dataRsv, hm, Clean, bv_eq, bt_eq, resv, rcode, excl, wrongTy, hL, Layout.at, Nat.mod_add_div]
theorem nbInit (b : BitVec 6) (n : BitVec 10) : Statement (.nbInit b n) := by
  rintro g arg hw ha p ⟨⟩
  obtain rfl := no_arg ha
  have hw' : (wfNb b && n != 0) = true := hw
  simp [wfLevel, wfRm, wfNb, wfAdv, BitVec.toNat_eq] at hw'
  refine back [(21, 5, g.toNat), (26, 6, 1), (0, 6, b.toNat), (6, 10, n.toNat)] [(21, 5), (26, 6), (0, 6), (6, 10)] (by rfl) rfl rfl ⟨BitVec.isLt _, by decide, BitVec.isLt _, BitVec.isLt _, trivial⟩ rfl fun x hL => ?_; change Clean _ _ (decSy x)
  simp (disch := decide) [decSy, badNb, badAdv, rangeOf, Clean, bv_eq, bt_eq, resv, rcode, excl, wrongTy, hL, Layout.at, Nat.mod_add_div] <;> first | omega | grind
theorem nbExp (b : BitVec 6) (s : BitVec 6) : Statement (.nbExp b s) := by
  rintro g arg hw ha p ⟨⟩
  obtain rfl := no_arg ha
  have hw' : (wfNb b) = true := hw
  simp [wfLevel, wfRm, wfNb, wfAdv, BitVec.toNat_eq] at hw'
  refine back [(21, 5, g.toNat), (26, 6, 2), (0, 6, b.toNat), (6, 6, s.toNat)] [(21, 5), (26, 6), (0, 6), (6, 6)] (by rfl) rfl rfl ⟨BitVec.isLt _, by decide, BitVec.isLt _, BitVec.isLt _, trivial⟩ rfl fun x hL => ?_; change Clean _ _ (decSy x)
  simp (disch := decide) [decSy, badNb, badAdv, rangeOf, Clean, bv_eq, bt_eq, resv, rcode, excl, wrongTy, hL, Layout.at, Nat.mod_add_div] <;> first | omega | grind
theorem nbArr (b : BitVec 6) (peer : Option (BitVec 2)) : Statement (.nbArr b peer) := by
  rcases peer with _ | k
  · rintro g arg hw ha p ⟨⟩
    obtain rfl := no_arg ha
    have hw' : (wfNb b) = true := hw
    simp [wfLevel, wfRm, wfNb, wfAdv, wfMov, BitVec.toNat_eq] at hw'
    refine back [(21, 5, g.toNat), (26, 6, 3), (0, 6, b.toNat)] [(21, 5), (26, 6), (0, 6)] (by rfl) rfl rfl ⟨BitVec.isLt _, by decide, BitVec.isLt _, trivial⟩ rfl fun x hL => ?_; change Clean _ _ (decSy x)
    simp (disch := decide) [decSy, badNb, Clean, bv_eq, bt_eq, resv, rcode, excl, wrongTy, hL, Layout.at, Nat.mod_add_div]; omega
  · rintro g arg hw ha p ⟨⟩
    obtain rfl := no_arg ha
    have hw' : (wfNb b) = true := hw
    simp [wfLevel, wfRm, wfNb, wfAdv, wfMov, BitVec.toNat_eq] at hw'
    refine back [(21, 5, g.toNat), (26, 6, 3), (0, 6, b.toNat), (6, 2, k.toNat), (8, 1, 1)] [(21, 5), (26, 6), (0, 6), (6, 2), (8, 1)] (by rfl) rfl rfl ⟨BitVec.isLt _, by decide, BitVec.isLt _, BitVec.isLt _, by decide, trivial⟩ rfl fun x hL => ?_; change Clean _ _ (decSy x)
    simp (disch := decide) [decSy, badNb, Clean, bv_eq, bt_eq, resv, rcode, excl, wrongTy, hL, Layout.at, Nat.mod_add_div]; omega
theorem nbWait (b : BitVec 6) (q : Bool) : Statement (.nbWait b q) := by
  rintro g arg hw ha p ⟨⟩
  obtain rfl := no_arg ha
  have hw' : (wfNb b) = true := hw
  simp [wfLevel, wfRm, wfNb, wfAdv, BitVec.toNat_eq] at hw'
  refine back [(21, 5, g.toNat), (26, 6, 4), (0, 6, b.toNat), (6, 1, q.toNat)] [(21, 5), (26, 6), (0, 6), (6, 1)] (by rfl) rfl rfl ⟨BitVec.isLt _, by decide, BitVec.isLt _, bool_lt _, trivial⟩ rfl fun x hL => ?_; change Clean _ _ (decSy x)
  simp (disch := decide) [decSy, badNb, badAdv, rangeOf, Clean, bv_eq, bt_eq, resv, rcode, excl, wrongTy, hL, Layout.at, Nat.mod_add_div] <;> first | omega | grind
theorem nbStat (d : BitVec 6) (b : BitVec 6) (sel : Bool) : Statement (.nbStat d b sel) := by
  rintro g arg hw ha p ⟨⟩
  obtain rfl := no_arg ha
  have hw' : (wfNb b) = true := hw
  simp [wfLevel, wfRm, wfNb, wfAdv, BitVec.toNat_eq] at hw'
  refine back [(21, 5, g.toNat), (26, 6, 5), (0, 6, b.toNat), (6, 6, d.toNat), (12, 1, sel.toNat)] [(21, 5), (26, 6), (0, 6), (6, 6), (12, 1)] (by rfl) rfl rfl ⟨BitVec.isLt _, by decide, BitVec.isLt _, BitVec.isLt _, bool_lt _, trivial⟩ rfl fun x hL => ?_; change Clean _ _ (decSy x)
  simp (disch := decide) [decSy, badNb, badAdv, rangeOf, Clean, bv_eq, bt_eq, resv, rcode, excl, wrongTy, hL, Layout.at, Nat.mod_add_div] <;> first | omega | grind
theorem tlWait (e : BitVec 3) (k : Bool) (r : BitVec 6) : Statement (.tlWait e k r) := by
  rintro g arg hw ha p ⟨⟩
  obtain rfl := no_arg ha
  have hw' : (e.toNat < 6 && (k || r.toNat < 32)) = true := hw
  simp [wfLevel, wfRm, wfNb, wfAdv, BitVec.toNat_eq] at hw'
  refine back [(21, 5, g.toNat), (26, 6, 6), (0, 3, e.toNat), (3, 1, k.toNat), (4, 6, r.toNat)] [(21, 5), (26, 6), (0, 3), (3, 1), (4, 6)] (by rfl) rfl rfl ⟨BitVec.isLt _, by decide, BitVec.isLt _, bool_lt _, BitVec.isLt _, trivial⟩ rfl fun x hL => ?_; change Clean _ _ (decSy x)
  simp (disch := decide) [decSy, badNb, badAdv, rangeOf, Clean, bv_eq, bt_eq, resv, rcode, excl, wrongTy, hL, Layout.at, Nat.mod_add_div] <;> first | omega | grind
theorem tlRead (d : BitVec 6) (e : BitVec 3) (sel : BitVec 2) : Statement (.tlRead d e sel) := by
  rintro g arg hw ha p ⟨⟩
  obtain rfl := no_arg ha
  have hw' : (decide (e.toNat < 6)) = true := hw
  simp [wfLevel, wfRm, wfNb, wfAdv, BitVec.toNat_eq] at hw'
  refine back [(21, 5, g.toNat), (26, 6, 7), (0, 3, e.toNat), (3, 6, d.toNat), (9, 2, sel.toNat)] [(21, 5), (26, 6), (0, 3), (3, 6), (9, 2)] (by rfl) rfl rfl ⟨BitVec.isLt _, by decide, BitVec.isLt _, BitVec.isLt _, BitVec.isLt _, trivial⟩ rfl fun x hL => ?_; change Clean _ _ (decSy x)
  simp (disch := decide) [decSy, badNb, badAdv, rangeOf, Clean, bv_eq, bt_eq, resv, rcode, excl, wrongTy, hL, Layout.at, Nat.mod_add_div] <;> first | omega | grind
theorem invL1 (rg : Option (BitVec 6 × BitVec 14)) : Statement (.invL1 rg) := by
  rcases rg with _ | q
  · rintro g arg hw ha p ⟨⟩
    obtain rfl := no_arg ha
    refine back [(21, 5, g.toNat), (26, 6, 8)] [(21, 5), (26, 6)] (by rfl) rfl rfl ⟨BitVec.isLt _, by decide, trivial⟩ rfl fun x hL => ?_; change Clean _ _ (decSy x)
    simp (disch := decide) [decSy, rangeOf, Clean, bv_eq, bt_eq, resv, rcode, excl, wrongTy, hL, Layout.at, Nat.mod_add_div]
  · rintro g arg hw ha p ⟨⟩
    obtain rfl := no_arg ha
    refine back [(21, 5, g.toNat), (26, 6, 8), (0, 1, 1), (1, 6, q.1.toNat), (7, 14, q.2.toNat)] [(21, 5), (26, 6), (0, 1), (1, 6), (7, 14)] (by rfl) rfl rfl ⟨BitVec.isLt _, by decide, by decide, BitVec.isLt _, BitVec.isLt _, trivial⟩ rfl fun x hL => ?_; change Clean _ _ (decSy x)
    simp (disch := decide) [decSy, rangeOf, Clean, bv_eq, bt_eq, resv, rcode, excl, wrongTy, hL, Layout.at, Nat.mod_add_div]
theorem wbL1 (rg : Option (BitVec 6 × BitVec 14)) : Statement (.wbL1 rg) := by
  rcases rg with _ | q
  · rintro g arg hw ha p ⟨⟩
    obtain rfl := no_arg ha
    refine back [(21, 5, g.toNat), (26, 6, 9)] [(21, 5), (26, 6)] (by rfl) rfl rfl ⟨BitVec.isLt _, by decide, trivial⟩ rfl fun x hL => ?_; change Clean _ _ (decSy x)
    simp (disch := decide) [decSy, rangeOf, Clean, bv_eq, bt_eq, resv, rcode, excl, wrongTy, hL, Layout.at, Nat.mod_add_div]
  · rintro g arg hw ha p ⟨⟩
    obtain rfl := no_arg ha
    refine back [(21, 5, g.toNat), (26, 6, 9), (0, 1, 1), (1, 6, q.1.toNat), (7, 14, q.2.toNat)] [(21, 5), (26, 6), (0, 1), (1, 6), (7, 14)] (by rfl) rfl rfl ⟨BitVec.isLt _, by decide, by decide, BitVec.isLt _, BitVec.isLt _, trivial⟩ rfl fun x hL => ?_; change Clean _ _ (decSy x)
    simp (disch := decide) [decSy, rangeOf, Clean, bv_eq, bt_eq, resv, rcode, excl, wrongTy, hL, Layout.at, Nat.mod_add_div]
theorem hBind (h : BitVec 5) (s : BitVec 6) : Statement (.hBind h s) := by
  rintro g arg hw ha p ⟨⟩
  obtain rfl := no_arg ha
  refine back [(21, 5, g.toNat), (26, 6, 10), (0, 5, h.toNat), (5, 6, s.toNat)] [(21, 5), (26, 6), (0, 5), (5, 6)] (by rfl) rfl rfl ⟨BitVec.isLt _, by decide, BitVec.isLt _, BitVec.isLt _, trivial⟩ rfl fun x hL => ?_; change Clean _ _ (decSy x)
  simp (disch := decide) [decSy, badNb, badAdv, rangeOf, Clean, bv_eq, bt_eq, resv, rcode, excl, wrongTy, hL, Layout.at, Nat.mod_add_div]
theorem hAdvc (h : BitVec 5) (k : BitVec 14) : Statement (.hAdvc h k) := by
  rintro g arg hw ha p ⟨⟩
  obtain rfl := no_arg ha
  have hw' : (wfAdv k) = true := hw
  simp [wfLevel, wfRm, wfNb, wfAdv, BitVec.toNat_eq] at hw'
  refine back [(21, 5, g.toNat), (26, 6, 11), (0, 5, h.toNat), (5, 14, k.toNat)] [(21, 5), (26, 6), (0, 5), (5, 14)] (by rfl) rfl rfl ⟨BitVec.isLt _, by decide, BitVec.isLt _, BitVec.isLt _, trivial⟩ rfl fun x hL => ?_; change Clean _ _ (decSy x)
  simp (disch := decide) [decSy, badNb, badAdv, rangeOf, Clean, bv_eq, bt_eq, resv, rcode, excl, wrongTy, hL, Layout.at, Nat.mod_add_div] <;> first | omega | grind
theorem hAdvp (h : BitVec 5) (k : BitVec 14) : Statement (.hAdvp h k) := by
  rintro g arg hw ha p ⟨⟩
  obtain rfl := no_arg ha
  have hw' : (wfAdv k) = true := hw
  simp [wfLevel, wfRm, wfNb, wfAdv, BitVec.toNat_eq] at hw'
  refine back [(21, 5, g.toNat), (26, 6, 12), (0, 5, h.toNat), (5, 14, k.toNat)] [(21, 5), (26, 6), (0, 5), (5, 14)] (by rfl) rfl rfl ⟨BitVec.isLt _, by decide, BitVec.isLt _, BitVec.isLt _, trivial⟩ rfl fun x hL => ?_; change Clean _ _ (decSy x)
  simp (disch := decide) [decSy, badNb, badAdv, rangeOf, Clean, bv_eq, bt_eq, resv, rcode, excl, wrongTy, hL, Layout.at, Nat.mod_add_div] <;> first | omega | grind
theorem hStat (d : BitVec 6) (h : BitVec 5) (sel : Bool) : Statement (.hStat d h sel) := by
  rintro g arg hw ha p ⟨⟩
  obtain rfl := no_arg ha
  refine back [(21, 5, g.toNat), (26, 6, 13), (0, 5, h.toNat), (5, 6, d.toNat), (11, 1, sel.toNat)] [(21, 5), (26, 6), (0, 5), (5, 6), (11, 1)] (by rfl) rfl rfl ⟨BitVec.isLt _, by decide, BitVec.isLt _, BitVec.isLt _, bool_lt _, trivial⟩ rfl fun x hL => ?_; change Clean _ _ (decSy x)
  simp (disch := decide) [decSy, badNb, badAdv, rangeOf, Clean, bv_eq, bt_eq, resv, rcode, excl, wrongTy, hL, Layout.at, Nat.mod_add_div]
theorem drain (sc : BitVec 3) : Statement (.drain sc) := by
  intro g arg hw
  have hs : sc.toNat < 6 := by simpa [Instr.wf] using hw
  obtain rfl | rfl | rfl | rfl | rfl | rfl := six hs
  · rintro ha p ⟨⟩
    obtain rfl := no_arg ha
    refine back [(21, 5, g.toNat), (26, 6, 16)] [(21, 5), (26, 6)] (by rfl) rfl rfl ⟨BitVec.isLt _, by decide, trivial⟩ rfl fun x hL => ?_; change Clean _ _ (decSy x)
    simp (disch := decide) [decSy, Clean, bv_eq, bt_eq, resv, rcode, excl, wrongTy, hL, Layout.at, Nat.mod_add_div]
  · rintro ha p ⟨⟩
    obtain rfl := no_arg ha
    refine back [(21, 5, g.toNat), (26, 6, 17)] [(21, 5), (26, 6)] (by rfl) rfl rfl ⟨BitVec.isLt _, by decide, trivial⟩ rfl fun x hL => ?_; change Clean _ _ (decSy x)
    simp (disch := decide) [decSy, Clean, bv_eq, bt_eq, resv, rcode, excl, wrongTy, hL, Layout.at, Nat.mod_add_div]
  · rintro ha p ⟨⟩
    obtain rfl := no_arg ha
    refine back [(21, 5, g.toNat), (26, 6, 18)] [(21, 5), (26, 6)] (by rfl) rfl rfl ⟨BitVec.isLt _, by decide, trivial⟩ rfl fun x hL => ?_; change Clean _ _ (decSy x)
    simp (disch := decide) [decSy, Clean, bv_eq, bt_eq, resv, rcode, excl, wrongTy, hL, Layout.at, Nat.mod_add_div]
  · rintro ha p ⟨⟩
    obtain rfl := no_arg ha
    refine back [(21, 5, g.toNat), (26, 6, 19)] [(21, 5), (26, 6)] (by rfl) rfl rfl ⟨BitVec.isLt _, by decide, trivial⟩ rfl fun x hL => ?_; change Clean _ _ (decSy x)
    simp (disch := decide) [decSy, Clean, bv_eq, bt_eq, resv, rcode, excl, wrongTy, hL, Layout.at, Nat.mod_add_div]
  · rintro ha p ⟨⟩
    obtain rfl := no_arg ha
    refine back [(21, 5, g.toNat), (26, 6, 20)] [(21, 5), (26, 6)] (by rfl) rfl rfl ⟨BitVec.isLt _, by decide, trivial⟩ rfl fun x hL => ?_; change Clean _ _ (decSy x)
    simp (disch := decide) [decSy, Clean, bv_eq, bt_eq, resv, rcode, excl, wrongTy, hL, Layout.at, Nat.mod_add_div]
  · rintro ha p ⟨⟩
    obtain rfl := no_arg ha
    refine back [(21, 5, g.toNat), (26, 6, 21)] [(21, 5), (26, 6)] (by rfl) rfl rfl ⟨BitVec.isLt _, by decide, trivial⟩ rfl fun x hL => ?_; change Clean _ _ (decSy x)
    simp (disch := decide) [decSy, Clean, bv_eq, bt_eq, resv, rcode, excl, wrongTy, hL, Layout.at, Nat.mod_add_div]
theorem fence (sc : BitVec 3) : Statement (.fence sc) := by
  intro g arg hw
  have hs : sc.toNat < 6 := by simpa [Instr.wf] using hw
  obtain rfl | rfl | rfl | rfl | rfl | rfl := six hs
  · rintro ha p ⟨⟩
    obtain rfl := no_arg ha
    refine back [(21, 5, g.toNat), (26, 6, 24)] [(21, 5), (26, 6)] (by rfl) rfl rfl ⟨BitVec.isLt _, by decide, trivial⟩ rfl fun x hL => ?_; change Clean _ _ (decSy x)
    simp (disch := decide) [decSy, Clean, bv_eq, bt_eq, resv, rcode, excl, wrongTy, hL, Layout.at, Nat.mod_add_div]
  · rintro ha p ⟨⟩
    obtain rfl := no_arg ha
    refine back [(21, 5, g.toNat), (26, 6, 25)] [(21, 5), (26, 6)] (by rfl) rfl rfl ⟨BitVec.isLt _, by decide, trivial⟩ rfl fun x hL => ?_; change Clean _ _ (decSy x)
    simp (disch := decide) [decSy, Clean, bv_eq, bt_eq, resv, rcode, excl, wrongTy, hL, Layout.at, Nat.mod_add_div]
  · rintro ha p ⟨⟩
    obtain rfl := no_arg ha
    refine back [(21, 5, g.toNat), (26, 6, 26)] [(21, 5), (26, 6)] (by rfl) rfl rfl ⟨BitVec.isLt _, by decide, trivial⟩ rfl fun x hL => ?_; change Clean _ _ (decSy x)
    simp (disch := decide) [decSy, Clean, bv_eq, bt_eq, resv, rcode, excl, wrongTy, hL, Layout.at, Nat.mod_add_div]
  · rintro ha p ⟨⟩
    obtain rfl := no_arg ha
    refine back [(21, 5, g.toNat), (26, 6, 27)] [(21, 5), (26, 6)] (by rfl) rfl rfl ⟨BitVec.isLt _, by decide, trivial⟩ rfl fun x hL => ?_; change Clean _ _ (decSy x)
    simp (disch := decide) [decSy, Clean, bv_eq, bt_eq, resv, rcode, excl, wrongTy, hL, Layout.at, Nat.mod_add_div]
  · rintro ha p ⟨⟩
    obtain rfl := no_arg ha
    refine back [(21, 5, g.toNat), (26, 6, 28)] [(21, 5), (26, 6)] (by rfl) rfl rfl ⟨BitVec.isLt _, by decide, trivial⟩ rfl fun x hL => ?_; change Clean _ _ (decSy x)
    simp (disch := decide) [decSy, Clean, bv_eq, bt_eq, resv, rcode, excl, wrongTy, hL, Layout.at, Nat.mod_add_div]
  · rintro ha p ⟨⟩
    obtain rfl := no_arg ha
    refine back [(21, 5, g.toNat), (26, 6, 29)] [(21, 5), (26, 6)] (by rfl) rfl rfl ⟨BitVec.isLt _, by decide, trivial⟩ rfl fun x hL => ?_; change Clean _ _ (decSy x)
    simp (disch := decide) [decSy, Clean, bv_eq, bt_eq, resv, rcode, excl, wrongTy, hL, Layout.at, Nat.mod_add_div]
theorem xfCvt (tt : BitVec 4) (src : BitVec 4) (d : BitVec 4) (a : BitVec 4) (q : BitVec 4) (tile : Bool) : Statement (.xfCvt tt src d a q tile) := by
  rintro g arg hw ha p ⟨⟩
  obtain rfl := no_arg ha
  have hw' : (tt != 15 && src != 15 && !Ty.cvtExcluded src.toNat tt.toNat && q.toNat < Ty.ratio src.toNat tt.toNat && Ty.ratio src.toNat tt.toNat ≤ 16) = true := hw
  simp [wfLevel, wfRm, wfNb, wfAdv, BitVec.toNat_eq] at hw'
  refine back [(21, 5, g.toNat), (26, 6, 1), (0, 4, d.toNat), (4, 4, a.toNat), (8, 4, src.toNat), (12, 4, tt.toNat), (16, 4, q.toNat), (20, 1, tile.toNat)] [(21, 5), (26, 6), (0, 4), (4, 4), (8, 4), (12, 4), (16, 4), (20, 1)] (by rfl) rfl rfl ⟨BitVec.isLt _, by decide, BitVec.isLt _, BitVec.isLt _, BitVec.isLt _, BitVec.isLt _, BitVec.isLt _, bool_lt _, trivial⟩ rfl fun x hL => ?_; change Clean _ _ (decXf x)
  simp (disch := decide) [decXf, badRm, Clean, bv_eq, bt_eq, resv, rcode, excl, wrongTy, hL, Layout.at, Nat.mod_add_div] <;> first | omega | grind
theorem xfTr (e : BitVec 2) (d : BitVec 4) (a : BitVec 4) : Statement (.xfTr e d a) := by
  rintro g arg hw ha p ⟨⟩
  obtain rfl := no_arg ha
  have hw' : (e != 3) = true := hw
  simp [wfLevel, wfRm, wfNb, wfAdv, BitVec.toNat_eq] at hw'
  refine back [(21, 5, g.toNat), (26, 6, 2), (0, 4, d.toNat), (4, 4, a.toNat), (12, 2, e.toNat)] [(21, 5), (26, 6), (0, 4), (4, 4), (12, 2)] (by rfl) rfl rfl ⟨BitVec.isLt _, by decide, BitVec.isLt _, BitVec.isLt _, BitVec.isLt _, trivial⟩ rfl fun x hL => ?_; change Clean _ _ (decXf x)
  simp (disch := decide) [decXf, badRm, Clean, bv_eq, bt_eq, resv, rcode, excl, wrongTy, hL, Layout.at, Nat.mod_add_div] <;> first | omega | grind
theorem xfExpZr (d : BitVec 4) (a : BitVec 4) : Statement (.xfExpZr d a) := by
  rintro g arg hw ha p ⟨⟩
  obtain rfl := no_arg ha
  refine back [(21, 5, g.toNat), (26, 6, 3), (0, 4, d.toNat), (4, 4, a.toNat)] [(21, 5), (26, 6), (0, 4), (4, 4)] (by rfl) rfl rfl ⟨BitVec.isLt _, by decide, BitVec.isLt _, BitVec.isLt _, trivial⟩ rfl fun x hL => ?_; change Clean _ _ (decXf x)
  simp (disch := decide) [decXf, badRm, Clean, bv_eq, bt_eq, resv, rcode, excl, wrongTy, hL, Layout.at, Nat.mod_add_div]
theorem xfExpSp24 (e : BitVec 2) (d : BitVec 4) (a : BitVec 4) : Statement (.xfExpSp24 e d a) := by
  rintro g arg hw ha p ⟨⟩
  obtain rfl := no_arg ha
  have hw' : (decide (e.toNat < 2)) = true := hw
  simp [wfLevel, wfRm, wfNb, wfAdv, BitVec.toNat_eq] at hw'
  refine back [(21, 5, g.toNat), (26, 6, 3), (0, 4, d.toNat), (4, 4, a.toNat), (12, 2, 1), (14, 2, e.toNat)] [(21, 5), (26, 6), (0, 4), (4, 4), (12, 2), (14, 2)] (by rfl) rfl rfl ⟨BitVec.isLt _, by decide, BitVec.isLt _, BitVec.isLt _, by decide, BitVec.isLt _, trivial⟩ rfl fun x hL => ?_; change Clean _ _ (decXf x)
  simp (disch := decide) [decXf, badRm, Clean, bv_eq, bt_eq, resv, rcode, excl, wrongTy, hL, Layout.at, Nat.mod_add_div] <;> first | omega | grind
theorem xfPack (e : BitVec 2) (d : BitVec 4) (a : BitVec 4) : Statement (.xfPack e d a) := by
  rintro g arg hw ha p ⟨⟩
  obtain rfl := no_arg ha
  have hw' : (e != 3) = true := hw
  simp [wfLevel, wfRm, wfNb, wfAdv, BitVec.toNat_eq] at hw'
  refine back [(21, 5, g.toNat), (26, 6, 4), (0, 4, d.toNat), (4, 4, a.toNat), (12, 2, e.toNat)] [(21, 5), (26, 6), (0, 4), (4, 4), (12, 2)] (by rfl) rfl rfl ⟨BitVec.isLt _, by decide, BitVec.isLt _, BitVec.isLt _, BitVec.isLt _, trivial⟩ rfl fun x hL => ?_; change Clean _ _ (decXf x)
  simp (disch := decide) [decXf, badRm, Clean, bv_eq, bt_eq, resv, rcode, excl, wrongTy, hL, Layout.at, Nat.mod_add_div] <;> first | omega | grind
theorem xfRot (d : BitVec 4) (a : BitVec 4) (b : BitVec 4) (k : BitVec 7) : Statement (.xfRot d a b k) := by
  rintro g arg hw ha p ⟨⟩
  obtain rfl := no_arg ha
  refine back [(21, 5, g.toNat), (26, 6, 5), (0, 4, d.toNat), (4, 4, a.toNat), (8, 4, b.toNat), (12, 7, k.toNat)] [(21, 5), (26, 6), (0, 4), (4, 4), (8, 4), (12, 7)] (by rfl) rfl rfl ⟨BitVec.isLt _, by decide, BitVec.isLt _, BitVec.isLt _, BitVec.isLt _, BitVec.isLt _, trivial⟩ rfl fun x hL => ?_; change Clean _ _ (decXf x)
  simp (disch := decide) [decXf, badRm, Clean, bv_eq, bt_eq, resv, rcode, excl, wrongTy, hL, Layout.at, Nat.mod_add_div]
theorem xfScl (t : BitVec 2) (v : Bool) (rm : BitVec 3) (d : BitVec 4) (a : BitVec 4) (b : BitVec 4) : Statement (.xfScl t v rm d a b) := by
  rintro g arg hw ha p ⟨⟩
  obtain rfl := no_arg ha
  have hw' : (t != 3 && wfRm rm && (!v || t == 0)) = true := hw
  simp [wfLevel, wfRm, wfNb, wfAdv, BitVec.toNat_eq] at hw'
  refine back [(21, 5, g.toNat), (26, 6, 6), (0, 4, d.toNat), (4, 4, a.toNat), (8, 4, b.toNat), (12, 2, t.toNat), (14, 1, v.toNat), (15, 3, rm.toNat)] [(21, 5), (26, 6), (0, 4), (4, 4), (8, 4), (12, 2), (14, 1), (15, 3)] (by rfl) rfl rfl ⟨BitVec.isLt _, by decide, BitVec.isLt _, BitVec.isLt _, BitVec.isLt _, BitVec.isLt _, bool_lt _, BitVec.isLt _, trivial⟩ rfl fun x hL => ?_; change Clean _ _ (decXf x)
  simp (disch := decide) [decXf, badRm, Clean, bv_eq, bt_eq, resv, rcode, excl, wrongTy, hL, Layout.at, Nat.mod_add_div] <;> first | omega | grind
theorem xfColW (d : BitVec 4) (b : BitVec 4) : Statement (.xfColW d b) := by
  rintro g arg hw ha p ⟨⟩
  obtain rfl := no_arg ha
  refine back [(21, 5, g.toNat), (26, 6, 7), (0, 4, d.toNat), (8, 4, b.toNat)] [(21, 5), (26, 6), (0, 4), (8, 4)] (by rfl) rfl rfl ⟨BitVec.isLt _, by decide, BitVec.isLt _, BitVec.isLt _, trivial⟩ rfl fun x hL => ?_; change Clean _ _ (decXf x)
  simp (disch := decide) [decXf, badRm, Clean, bv_eq, bt_eq, resv, rcode, excl, wrongTy, hL, Layout.at, Nat.mod_add_div]
theorem xfColChk (t : BitVec 4) (a : BitVec 4) : Statement (.xfColChk t a) := by
  rintro g arg hw ha p ⟨⟩
  obtain rfl := no_arg ha
  have hw' : (t != 15) = true := hw
  simp [wfLevel, wfRm, wfNb, wfAdv, BitVec.toNat_eq] at hw'
  refine back [(21, 5, g.toNat), (26, 6, 7), (4, 4, a.toNat), (12, 2, 1), (14, 4, t.toNat)] [(21, 5), (26, 6), (4, 4), (12, 2), (14, 4)] (by rfl) rfl rfl ⟨BitVec.isLt _, by decide, BitVec.isLt _, by decide, BitVec.isLt _, trivial⟩ rfl fun x hL => ?_; change Clean _ _ (decXf x)
  simp (disch := decide) [decXf, badRm, Clean, bv_eq, bt_eq, resv, rcode, excl, wrongTy, hL, Layout.at, Nat.mod_add_div] <;> first | omega | grind
theorem xfColRd (d : BitVec 4) (a : BitVec 4) : Statement (.xfColRd d a) := by
  rintro g arg hw ha p ⟨⟩
  obtain rfl := no_arg ha
  refine back [(21, 5, g.toNat), (26, 6, 7), (0, 4, d.toNat), (4, 4, a.toNat), (12, 2, 2)] [(21, 5), (26, 6), (0, 4), (4, 4), (12, 2)] (by rfl) rfl rfl ⟨BitVec.isLt _, by decide, BitVec.isLt _, BitVec.isLt _, by decide, trivial⟩ rfl fun x hL => ?_; change Clean _ _ (decXf x)
  simp (disch := decide) [decXf, badRm, Clean, bv_eq, bt_eq, resv, rcode, excl, wrongTy, hL, Layout.at, Nat.mod_add_div]
theorem xfSwz (d : BitVec 4) (a : BitVec 4) (sh : BitVec 3) (k : Bool) : Statement (.xfSwz d a sh k) := by
  rintro g arg hw ha p ⟨⟩
  obtain rfl := no_arg ha
  refine back [(21, 5, g.toNat), (26, 6, 8), (0, 4, d.toNat), (4, 4, a.toNat), (12, 3, sh.toNat), (15, 1, k.toNat)] [(21, 5), (26, 6), (0, 4), (4, 4), (12, 3), (15, 1)] (by rfl) rfl rfl ⟨BitVec.isLt _, by decide, BitVec.isLt _, BitVec.isLt _, BitVec.isLt _, bool_lt _, trivial⟩ rfl fun x hL => ?_; change Clean _ _ (decXf x)
  simp (disch := decide) [decXf, badRm, Clean, bv_eq, bt_eq, resv, rcode, excl, wrongTy, hL, Layout.at, Nat.mod_add_div]
theorem xfMvRow (d : BitVec 4) (a : BitVec 4) : Statement (.xfMvRow d a) := by
  rintro g arg hw ha p ⟨⟩
  obtain rfl := no_arg ha
  refine back [(21, 5, g.toNat), (26, 6, 9), (0, 4, d.toNat), (4, 4, a.toNat)] [(21, 5), (26, 6), (0, 4), (4, 4)] (by rfl) rfl rfl ⟨BitVec.isLt _, by decide, BitVec.isLt _, BitVec.isLt _, trivial⟩ rfl fun x hL => ?_; change Clean _ _ (decXf x)
  simp (disch := decide) [decXf, badRm, Clean, bv_eq, bt_eq, resv, rcode, excl, wrongTy, hL, Layout.at, Nat.mod_add_div]
theorem xfMvScalar (n : BitVec 6) (a : BitVec 4) : Statement (.xfMvScalar n a) := by
  rintro g arg hw ha p ⟨⟩
  obtain rfl := no_arg ha
  refine back [(21, 5, g.toNat), (26, 6, 9), (4, 4, a.toNat), (12, 2, 1), (14, 6, n.toNat)] [(21, 5), (26, 6), (4, 4), (12, 2), (14, 6)] (by rfl) rfl rfl ⟨BitVec.isLt _, by decide, BitVec.isLt _, by decide, BitVec.isLt _, trivial⟩ rfl fun x hL => ?_; change Clean _ _ (decXf x)
  simp (disch := decide) [decXf, badRm, Clean, bv_eq, bt_eq, resv, rcode, excl, wrongTy, hL, Layout.at, Nat.mod_add_div]
theorem xfMvReg (d : BitVec 4) (a : BitVec 4) : Statement (.xfMvReg d a) := by
  rintro g arg hw ha p ⟨⟩
  obtain rfl := no_arg ha
  refine back [(21, 5, g.toNat), (26, 6, 9), (0, 4, d.toNat), (4, 4, a.toNat), (12, 2, 2)] [(21, 5), (26, 6), (0, 4), (4, 4), (12, 2)] (by rfl) rfl rfl ⟨BitVec.isLt _, by decide, BitVec.isLt _, BitVec.isLt _, by decide, trivial⟩ rfl fun x hL => ?_; change Clean _ _ (decXf x)
  simp (disch := decide) [decXf, badRm, Clean, bv_eq, bt_eq, resv, rcode, excl, wrongTy, hL, Layout.at, Nat.mod_add_div]
theorem rdAdd (l : BitVec 2) (a : ASrc) (t : BitVec 2) (fold : BitVec 3) : Statement (.rdAdd l a t fold) := by
  rintro g arg hw ha p ⟨⟩
  obtain rfl := no_arg ha
  have hw' : (t != 3 && fold.toNat ≤ 5) = true := hw
  simp [wfLevel, wfRm, wfNb, wfAdv, BitVec.toNat_eq] at hw'
  refine back [(23, 5, g.toNat), (28, 4, 1), (0, 2, l.toNat), (2, 5, a.r.toNat), (7, 1, a.h.toNat), (8, 2, t.toNat), (10, 3, fold.toNat)] [(23, 5), (28, 4), (0, 2), (2, 5), (7, 1), (8, 2), (10, 3)] (by rfl) rfl rfl ⟨BitVec.isLt _, by decide, BitVec.isLt _, BitVec.isLt _, bool_lt _, BitVec.isLt _, BitVec.isLt _, trivial⟩ rfl fun x hL => ?_; change Clean _ _ (decRd x)
  simp (disch := decide) [decRd, rdRsv, Clean, bv_eq, bt_eq, resv, rcode, excl, wrongTy, hL, Layout.at, Nat.mod_add_div] <;> first | omega | grind
theorem rdKadd (l : BitVec 2) (a : ASrc) (t : BitVec 2) (fold : BitVec 3) : Statement (.rdKadd l a t fold) := by
  rintro g arg hw ha p ⟨⟩
  obtain rfl := no_arg ha
  have hw' : (t != 3 && fold.toNat ≤ 5) = true := hw
  simp [wfLevel, wfRm, wfNb, wfAdv, BitVec.toNat_eq] at hw'
  refine back [(23, 5, g.toNat), (28, 4, 2), (0, 2, l.toNat), (2, 5, a.r.toNat), (7, 1, a.h.toNat), (8, 2, t.toNat), (10, 3, fold.toNat)] [(23, 5), (28, 4), (0, 2), (2, 5), (7, 1), (8, 2), (10, 3)] (by rfl) rfl rfl ⟨BitVec.isLt _, by decide, BitVec.isLt _, BitVec.isLt _, bool_lt _, BitVec.isLt _, BitVec.isLt _, trivial⟩ rfl fun x hL => ?_; change Clean _ _ (decRd x)
  simp (disch := decide) [decRd, rdRsv, Clean, bv_eq, bt_eq, resv, rcode, excl, wrongTy, hL, Layout.at, Nat.mod_add_div] <;> first | omega | grind
theorem rdMax (l : BitVec 2) (a : ASrc) (t : BitVec 2) (fold : BitVec 3) : Statement (.rdMax l a t fold) := by
  rintro g arg hw ha p ⟨⟩
  obtain rfl := no_arg ha
  have hw' : (t != 3 && fold.toNat ≤ 5) = true := hw
  simp [wfLevel, wfRm, wfNb, wfAdv, BitVec.toNat_eq] at hw'
  refine back [(23, 5, g.toNat), (28, 4, 3), (0, 2, l.toNat), (2, 5, a.r.toNat), (7, 1, a.h.toNat), (8, 2, t.toNat), (10, 3, fold.toNat)] [(23, 5), (28, 4), (0, 2), (2, 5), (7, 1), (8, 2), (10, 3)] (by rfl) rfl rfl ⟨BitVec.isLt _, by decide, BitVec.isLt _, BitVec.isLt _, bool_lt _, BitVec.isLt _, BitVec.isLt _, trivial⟩ rfl fun x hL => ?_; change Clean _ _ (decRd x)
  simp (disch := decide) [decRd, rdRsv, Clean, bv_eq, bt_eq, resv, rcode, excl, wrongTy, hL, Layout.at, Nat.mod_add_div] <;> first | omega | grind
theorem rdMin (l : BitVec 2) (a : ASrc) (t : BitVec 2) (fold : BitVec 3) : Statement (.rdMin l a t fold) := by
  rintro g arg hw ha p ⟨⟩
  obtain rfl := no_arg ha
  have hw' : (t != 3 && fold.toNat ≤ 5) = true := hw
  simp [wfLevel, wfRm, wfNb, wfAdv, BitVec.toNat_eq] at hw'
  refine back [(23, 5, g.toNat), (28, 4, 4), (0, 2, l.toNat), (2, 5, a.r.toNat), (7, 1, a.h.toNat), (8, 2, t.toNat), (10, 3, fold.toNat)] [(23, 5), (28, 4), (0, 2), (2, 5), (7, 1), (8, 2), (10, 3)] (by rfl) rfl rfl ⟨BitVec.isLt _, by decide, BitVec.isLt _, BitVec.isLt _, bool_lt _, BitVec.isLt _, BitVec.isLt _, trivial⟩ rfl fun x hL => ?_; change Clean _ _ (decRd x)
  simp (disch := decide) [decRd, rdRsv, Clean, bv_eq, bt_eq, resv, rcode, excl, wrongTy, hL, Layout.at, Nat.mod_add_div] <;> first | omega | grind
theorem rdAmax (l : BitVec 2) (a : ASrc) (t : BitVec 2) (fold : BitVec 3) : Statement (.rdAmax l a t fold) := by
  rintro g arg hw ha p ⟨⟩
  obtain rfl := no_arg ha
  have hw' : (t == 0 && fold.toNat ≤ 5) = true := hw
  simp [wfLevel, wfRm, wfNb, wfAdv, BitVec.toNat_eq] at hw'
  refine back [(23, 5, g.toNat), (28, 4, 5), (0, 2, l.toNat), (2, 5, a.r.toNat), (7, 1, a.h.toNat), (8, 2, t.toNat), (10, 3, fold.toNat)] [(23, 5), (28, 4), (0, 2), (2, 5), (7, 1), (8, 2), (10, 3)] (by rfl) rfl rfl ⟨BitVec.isLt _, by decide, BitVec.isLt _, BitVec.isLt _, bool_lt _, BitVec.isLt _, BitVec.isLt _, trivial⟩ rfl fun x hL => ?_; change Clean _ _ (decRd x)
  simp (disch := decide) [decRd, rdRsv, Clean, bv_eq, bt_eq, resv, rcode, excl, wrongTy, hL, Layout.at, Nat.mod_add_div] <;> first | omega | grind
theorem rdMv (l : BitVec 2) (mode : BitVec 2) (t : BitVec 2) (d : DReg) (k : BitVec 5) (clr : Bool) : Statement (.rdMv l mode t d k clr) := by
  rcases d with r | n
  · rintro g arg hw ha p ⟨⟩
    obtain rfl := no_arg ha
    have hw' : (t != 3 && (mode == 0 || t == 0) && k == 0) = true := hw
    simp [wfLevel, wfRm, wfNb, wfAdv, wfMov, BitVec.toNat_eq] at hw'
    refine back [(23, 5, g.toNat), (28, 4, 6), (0, 2, l.toNat), (2, 2, vfile r.f), (4, 9, r.n.toNat), (13, 2, mode.toNat), (15, 2, t.toNat), (17, 5, k.toNat), (22, 1, clr.toNat)] [(23, 5), (28, 4), (0, 2), (2, 2), (4, 9), (13, 2), (15, 2), (17, 5), (22, 1)] (by rfl) rfl rfl ⟨BitVec.isLt _, by decide, BitVec.isLt _, vfile_lt _, BitVec.isLt _, BitVec.isLt _, BitVec.isLt _, BitVec.isLt _, bool_lt _, trivial⟩ rfl fun x hL => ?_; change Clean _ _ (decRd x)
    have q1 : fld x 15 2 = t.toNat := hL 15 2 rfl
    have hk0 : k = 0 := BitVec.eq_of_toNat_eq (by simpa using hw'.2)
    simp (disch := decide) [decRd, rdDst, Clean, bv_eq, bt_eq, resv, rcode, excl, wrongTy, hL, Layout.at, Nat.mod_add_div] <;> grind
  · rintro g arg hw ha p ⟨⟩
    obtain rfl := no_arg ha
    have hw' : (t != 3 && (mode == 0 || t == 0) && true) = true := hw
    simp [wfLevel, wfRm, wfNb, wfAdv, wfMov, BitVec.toNat_eq] at hw'
    refine back [(23, 5, g.toNat), (28, 4, 6), (0, 2, l.toNat), (2, 2, 2), (4, 6, n.toNat), (13, 2, mode.toNat), (15, 2, t.toNat), (17, 5, k.toNat), (22, 1, clr.toNat)] [(23, 5), (28, 4), (0, 2), (2, 2), (4, 6), (13, 2), (15, 2), (17, 5), (22, 1)] (by rfl) rfl rfl ⟨BitVec.isLt _, by decide, BitVec.isLt _, by decide, BitVec.isLt _, BitVec.isLt _, BitVec.isLt _, BitVec.isLt _, bool_lt _, trivial⟩ rfl fun x hL => ?_; change Clean _ _ (decRd x)
    have q1 : fld x 15 2 = t.toNat := hL 15 2 rfl
    simp (disch := decide) [decRd, rdDst, Clean, bv_eq, bt_eq, resv, rcode, excl, wrongTy, hL, Layout.at, Nat.mod_add_div] <;> grind
theorem rdClr (m : BitVec 4) (init : BitVec 2) (t : BitVec 2) : Statement (.rdClr m init t) := by
  rintro g arg hw ha p ⟨⟩
  obtain rfl := no_arg ha
  have hw' : (m != 0 && init != 3 && t != 3 && (init != 0 || t == 0)) = true := hw
  simp [wfLevel, wfRm, wfNb, wfAdv, wfMov, BitVec.toNat_eq] at hw'
  refine back [(23, 5, g.toNat), (28, 4, 7), (0, 4, m.toNat), (4, 2, init.toNat), (6, 2, t.toNat)] [(23, 5), (28, 4), (0, 4), (4, 2), (6, 2)] (by rfl) rfl rfl ⟨BitVec.isLt _, by decide, BitVec.isLt _, BitVec.isLt _, BitVec.isLt _, trivial⟩ rfl fun x hL => ?_; change Clean _ _ (decRd x)
  have q1 : fld x 6 2 = t.toNat := hL 6 2 rfl
  simp (disch := decide) [decRd, Clean, bv_eq, bt_eq, resv, rcode, excl, wrongTy, hL, Layout.at, Nat.mod_add_div] <;> grind
theorem mma (acc : BitVec 3) (ws : BitVec 6) (a : ASrc) (rows : BitVec 5) (t : Bool) (ovw : Bool) (chk : Bool) : Statement (.mma acc ws a rows t ovw chk) := by
  rintro g arg hw ha p ⟨⟩
  obtain rfl := no_arg ha
  have hw' : (!t || (rows.toNat + 1) % 8 == 0) = true := hw
  simp [wfLevel, wfRm, wfNb, wfAdv, BitVec.toNat_eq] at hw'
  refine back [(37, 5, g.toNat), (42, 6, 1), (34, 3, acc.toNat), (28, 6, ws.toNat), (16, 5, rows.toNat), (0, 1, t.toNat), (1, 1, ovw.toNat), (13, 1, chk.toNat), (23, 5, a.r.toNat), (22, 1, a.h.toNat)] [(37, 5), (42, 6), (34, 3), (28, 6), (16, 5), (0, 1), (1, 1), (13, 1), (23, 5), (22, 1)] (by rfl) rfl rfl ⟨BitVec.isLt _, by decide, BitVec.isLt _, BitVec.isLt _, BitVec.isLt _, bool_lt _, bool_lt _, bool_lt _, BitVec.isLt _, bool_lt _, trivial⟩ rfl fun x hL => ?_; change Clean _ _ (decMx x)
  simp (disch := decide) [decMx, badT, noDist, noFlags, Clean, bv_eq, bt_eq, resv, rcode, excl, wrongTy, hL, Layout.at, Nat.mod_add_div] <;> first | omega | grind
theorem mop (acc : BitVec 3) (ws : BitVec 6) (a : ASrc) (rows : BitVec 5) (ovw : Bool) : Statement (.mop acc ws a rows ovw) := by
  rintro g arg hw ha p ⟨⟩
  obtain rfl := no_arg ha
  refine back [(37, 5, g.toNat), (42, 6, 3), (34, 3, acc.toNat), (28, 6, ws.toNat), (16, 5, rows.toNat), (1, 1, ovw.toNat), (23, 5, a.r.toNat), (22, 1, a.h.toNat)] [(37, 5), (42, 6), (34, 3), (28, 6), (16, 5), (1, 1), (23, 5), (22, 1)] (by rfl) rfl rfl ⟨BitVec.isLt _, by decide, BitVec.isLt _, BitVec.isLt _, BitVec.isLt _, bool_lt _, BitVec.isLt _, bool_lt _, trivial⟩ rfl fun x hL => ?_; change Clean _ _ (decMx x)
  simp (disch := decide) [decMx, badT, noDist, noFlags, Clean, bv_eq, bt_eq, resv, rcode, excl, wrongTy, hL, Layout.at, Nat.mod_add_div]
theorem mldW (ws : BitVec 6) (a : ASrc) (sp : Bool) (chk : Bool) : Statement (.mldW ws a sp chk) := by
  rintro g arg hw ha p ⟨⟩
  obtain rfl := no_arg ha
  refine back [(37, 5, g.toNat), (42, 6, 4), (28, 6, ws.toNat), (16, 1, sp.toNat), (13, 1, chk.toNat), (23, 5, a.r.toNat), (22, 1, a.h.toNat)] [(37, 5), (42, 6), (28, 6), (16, 1), (13, 1), (23, 5), (22, 1)] (by rfl) rfl rfl ⟨BitVec.isLt _, by decide, BitVec.isLt _, bool_lt _, bool_lt _, BitVec.isLt _, bool_lt _, trivial⟩ rfl fun x hL => ?_; change Clean _ _ (decMx x)
  simp (disch := decide) [decMx, badT, noDist, noFlags, Clean, bv_eq, bt_eq, resv, rcode, excl, wrongTy, hL, Layout.at, Nat.mod_add_div]
theorem mdrain (acc : BitVec 3) (a : ASrc) (rows : BitVec 5) : Statement (.mdrain acc a rows) := by
  rintro g arg hw ha p ⟨⟩
  obtain rfl := no_arg ha
  refine back [(37, 5, g.toNat), (42, 6, 5), (34, 3, acc.toNat), (16, 5, rows.toNat), (23, 5, a.r.toNat), (22, 1, a.h.toNat)] [(37, 5), (42, 6), (34, 3), (16, 5), (23, 5), (22, 1)] (by rfl) rfl rfl ⟨BitVec.isLt _, by decide, BitVec.isLt _, BitVec.isLt _, BitVec.isLt _, bool_lt _, trivial⟩ rfl fun x hL => ?_; change Clean _ _ (decMx x)
  simp (disch := decide) [decMx, badT, noDist, noFlags, Clean, bv_eq, bt_eq, resv, rcode, excl, wrongTy, hL, Layout.at, Nat.mod_add_div]
theorem mrow (acc : BitVec 3) (f : VFile) (q : BitVec 7) (mode : BitVec 2) (i : BitVec 5) : Statement (.mrow acc f q mode i) := by
  rintro g arg hw ha p ⟨⟩
  obtain rfl := no_arg ha
  have hw' : (mode != 3) = true := hw
  simp [wfLevel, wfRm, wfNb, wfAdv, BitVec.toNat_eq] at hw'
  refine back [(37, 5, g.toNat), (42, 6, 6), (34, 3, acc.toNat), (28, 6, q.toNat % 64), (23, 1, q.toNat / 64), (24, 1, vfile f), (25, 2, mode.toNat), (16, 5, i.toNat)] [(37, 5), (42, 6), (34, 3), (28, 6), (23, 1), (24, 1), (25, 2), (16, 5)] (by rfl) rfl rfl ⟨BitVec.isLt _, by decide, BitVec.isLt _, Nat.mod_lt _ (by decide), (by have := q.isLt; omega : q.toNat / 64 < 2 ^ 1), vfile_lt2 _, BitVec.isLt _, BitVec.isLt _, trivial⟩ rfl fun x hL => ?_; change Clean _ _ (decMx x)
  simp (disch := decide) [decMx, badT, noDist, noFlags, Clean, bv_eq, bt_eq, resv, rcode, excl, wrongTy, hL, Layout.at, Nat.mod_add_div] <;> first | omega | grind
theorem mclr (acc : BitVec 3) : Statement (.mclr acc) := by
  rintro g arg hw ha p ⟨⟩
  obtain rfl := no_arg ha
  refine back [(37, 5, g.toNat), (42, 6, 7), (34, 3, acc.toNat)] [(37, 5), (42, 6), (34, 3)] (by rfl) rfl rfl ⟨BitVec.isLt _, by decide, BitVec.isLt _, trivial⟩ rfl fun x hL => ?_; change Clean _ _ (decMx x)
  simp (disch := decide) [decMx, badT, noDist, noFlags, Clean, bv_eq, bt_eq, resv, rcode, excl, wrongTy, hL, Layout.at, Nat.mod_add_div]
theorem mqStat (d : BitVec 6) : Statement (.mqStat d) := by
  rintro g arg hw ha p ⟨⟩
  obtain rfl := no_arg ha
  refine back [(37, 5, g.toNat), (42, 6, 9), (28, 6, d.toNat)] [(37, 5), (42, 6), (28, 6)] (by rfl) rfl rfl ⟨BitVec.isLt _, by decide, BitVec.isLt _, trivial⟩ rfl fun x hL => ?_; change Clean _ _ (decMx x)
  simp (disch := decide) [decMx, badT, noDist, noFlags, Clean, bv_eq, bt_eq, resv, rcode, excl, wrongTy, hL, Layout.at, Nat.mod_add_div]
theorem mdist (acc : BitVec 3) (ws : BitVec 6) (a : ASrc) (rows : BitVec 5) (t : Bool) (met : BitVec 2) (tie : Bool) (pass : BitVec 8) (chk : Bool) : Statement (.mdist acc ws a rows t met tie pass chk) := by
  rintro g arg hw ha p ⟨⟩
  obtain rfl := no_arg ha
  have hw' : ((!t || (rows.toNat + 1) % 8 == 0) && met != 3) = true := hw
  simp [wfLevel, wfRm, wfNb, wfAdv, BitVec.toNat_eq] at hw'
  refine back [(37, 5, g.toNat), (42, 6, 16), (34, 3, acc.toNat), (28, 6, ws.toNat), (16, 5, rows.toNat), (0, 1, t.toNat), (2, 2, met.toNat), (4, 1, tie.toNat), (5, 8, pass.toNat), (13, 1, chk.toNat), (23, 5, a.r.toNat), (22, 1, a.h.toNat)] [(37, 5), (42, 6), (34, 3), (28, 6), (16, 5), (0, 1), (2, 2), (4, 1), (5, 8), (13, 1), (23, 5), (22, 1)] (by rfl) rfl rfl ⟨BitVec.isLt _, by decide, BitVec.isLt _, BitVec.isLt _, BitVec.isLt _, bool_lt _, BitVec.isLt _, bool_lt _, BitVec.isLt _, bool_lt _, BitVec.isLt _, bool_lt _, trivial⟩ rfl fun x hL => ?_; change Clean _ _ (decMx x)
  simp (disch := decide) [decMx, badT, noDist, noFlags, Clean, bv_eq, bt_eq, resv, rcode, excl, wrongTy, hL, Layout.at, Nat.mod_add_div] <;> first | omega | grind
theorem mbestClr (rows : BitVec 5) : Statement (.mbestClr rows) := by
  rintro g arg hw ha p ⟨⟩
  obtain rfl := no_arg ha
  refine back [(37, 5, g.toNat), (42, 6, 17), (16, 5, rows.toNat)] [(37, 5), (42, 6), (16, 5)] (by rfl) rfl rfl ⟨BitVec.isLt _, by decide, BitVec.isLt _, trivial⟩ rfl fun x hL => ?_; change Clean _ _ (decMx x)
  simp (disch := decide) [decMx, badT, noDist, noFlags, Clean, bv_eq, bt_eq, resv, rcode, excl, wrongTy, hL, Layout.at, Nat.mod_add_div]
theorem mbestRd (f : VFile) (q : BitVec 8) : Statement (.mbestRd f q) := by
  rintro g arg hw ha p ⟨⟩
  obtain rfl := no_arg ha
  refine back [(37, 5, g.toNat), (42, 6, 18), (28, 6, q.toNat % 64), (23, 2, q.toNat / 64), (25, 1, vfile f)] [(37, 5), (42, 6), (28, 6), (23, 2), (25, 1)] (by rfl) rfl rfl ⟨BitVec.isLt _, by decide, Nat.mod_lt _ (by decide), (by have := q.isLt; omega : q.toNat / 64 < 2 ^ 2), vfile_lt2 _, trivial⟩ rfl fun x hL => ?_; change Clean _ _ (decMx x)
  simp (disch := decide) [decMx, badT, noDist, noFlags, Clean, bv_eq, bt_eq, resv, rcode, excl, wrongTy, hL, Layout.at, Nat.mod_add_div]
theorem cupd (p : BitVec 8) (a : ASrc) (rows : BitVec 5) : Statement (.cupd p a rows) := by
  rintro g arg hw ha p ⟨⟩
  obtain rfl := no_arg ha
  have hw' : (a.h || a.r != 31) = true := hw
  simp [wfLevel, wfRm, wfNb, wfAdv, BitVec.toNat_eq] at hw'
  refine back [(37, 5, g.toNat), (42, 6, 19), (28, 6, p.toNat % 64), (34, 2, p.toNat / 64), (16, 5, rows.toNat), (23, 5, a.r.toNat), (22, 1, a.h.toNat)] [(37, 5), (42, 6), (28, 6), (34, 2), (16, 5), (23, 5), (22, 1)] (by rfl) rfl rfl ⟨BitVec.isLt _, by decide, Nat.mod_lt _ (by decide), (by have := p.isLt; omega : p.toNat / 64 < 2 ^ 2), BitVec.isLt _, BitVec.isLt _, bool_lt _, trivial⟩ rfl fun x hL => ?_; change Clean _ _ (decMx x)
  simp (disch := decide) [decMx, badT, noDist, noFlags, Clean, bv_eq, bt_eq, resv, rcode, excl, wrongTy, hL, Layout.at, Nat.mod_add_div] <;> first | omega | grind
theorem cfin (ws : BitVec 6) (la : BitVec 5) (z : Bool) : Statement (.cfin ws la z) := by
  rintro g arg hw ha p ⟨⟩
  obtain rfl := no_arg ha
  refine back [(37, 5, g.toNat), (42, 6, 20), (28, 6, ws.toNat), (23, 5, la.toNat), (16, 1, z.toNat)] [(37, 5), (42, 6), (28, 6), (23, 5), (16, 1)] (by rfl) rfl rfl ⟨BitVec.isLt _, by decide, BitVec.isLt _, BitVec.isLt _, bool_lt _, trivial⟩ rfl fun x hL => ?_; change Clean _ _ (decMx x)
  simp (disch := decide) [decMx, badT, noDist, noFlags, Clean, bv_eq, bt_eq, resv, rcode, excl, wrongTy, hL, Layout.at, Nat.mod_add_div]
theorem rwStat (d : BitVec 6) : Statement (.rwStat d) := by
  rintro g arg hw ha p ⟨⟩
  obtain rfl := no_arg ha
  refine back [(37, 5, g.toNat), (42, 6, 32), (28, 6, d.toNat)] [(37, 5), (42, 6), (28, 6)] (by rfl) rfl rfl ⟨BitVec.isLt _, by decide, BitVec.isLt _, trivial⟩ rfl fun x hL => ?_; change Clean _ _ (decMx x)
  simp (disch := decide) [decMx, badT, noDist, noFlags, Clean, bv_eq, bt_eq, resv, rcode, excl, wrongTy, hL, Layout.at, Nat.mod_add_div]
theorem rwLd (img : BitVec 6) : Statement (.rwLd img) := by
  rintro g arg hw ha p ⟨⟩
  obtain rfl := no_arg ha
  refine back [(37, 5, g.toNat), (42, 6, 32), (0, 6, img.toNat)] [(37, 5), (42, 6), (0, 6)] (by rfl) rfl rfl ⟨BitVec.isLt _, by decide, BitVec.isLt _, trivial⟩ rfl fun x hL => ?_; change Clean _ _ (decCt x)
  simp (disch := decide) [decCt, badLevel, Clean, bv_eq, bt_eq, resv, rcode, excl, wrongTy, hL, Layout.at, Nat.mod_add_div]
theorem rwInv (k : BitVec 6) : Statement (.rwInv k) := by
  rintro g arg hw ha p ⟨⟩
  obtain rfl := no_arg ha
  refine back [(37, 5, g.toNat), (42, 6, 35), (0, 6, k.toNat)] [(37, 5), (42, 6), (0, 6)] (by rfl) rfl rfl ⟨BitVec.isLt _, by decide, BitVec.isLt _, trivial⟩ rfl fun x hL => ?_; change Clean _ _ (decCt x)
  simp (disch := decide) [decCt, badLevel, Clean, bv_eq, bt_eq, resv, rcode, excl, wrongTy, hL, Layout.at, Nat.mod_add_div]
theorem cpy1d (ca : BitVec 5) (cb : BitVec 5) (rep : Option (BitVec 5)) : Statement (.cpy1d ca cb rep) := by
  rintro g arg hw ha p ⟨⟩
  obtain rfl := no_arg ha
  rcases rep with _ | r
  · refine back [(0, 5, g.toNat), (28, 4, 0), (21, 7, 1), (16, 5, ca.toNat), (11, 5, cb.toNat)] [(0, 5), (28, 4), (21, 7), (16, 5), (11, 5)] (by rfl) rfl rfl ⟨BitVec.isLt _, by decide, by decide, BitVec.isLt _, BitVec.isLt _, trivial⟩ rfl fun x hL => ?_; change Clean _ _ (decCp x)
    simp (disch := decide) [decCp, repOf, cdRsv, needRe, Clean, bv_eq, bt_eq, resv, rcode, excl, wrongTy, hL, Layout.at, Nat.mod_add_div]
  · refine back [(0, 5, g.toNat), (28, 4, 0), (21, 7, 1), (16, 5, ca.toNat), (11, 5, cb.toNat), (5, 1, 1), (6, 5, r.toNat)] [(0, 5), (28, 4), (21, 7), (16, 5), (11, 5), (5, 1), (6, 5)] (by rfl) rfl rfl ⟨BitVec.isLt _, by decide, by decide, BitVec.isLt _, BitVec.isLt _, by decide, BitVec.isLt _, trivial⟩ rfl fun x hL => ?_; change Clean _ _ (decCp x)
    simp (disch := decide) [decCp, repOf, cdRsv, needRe, Clean, bv_eq, bt_eq, resv, rcode, excl, wrongTy, hL, Layout.at, Nat.mod_add_div]
theorem cpyNd (ca : BitVec 5) (cb : BitVec 5) (rep : Option (BitVec 5)) : Statement (.cpyNd ca cb rep) := by
  rintro g arg hw ha p ⟨⟩
  obtain rfl := no_arg ha
  rcases rep with _ | r
  · refine back [(0, 5, g.toNat), (28, 4, 0), (21, 7, 2), (16, 5, ca.toNat), (11, 5, cb.toNat)] [(0, 5), (28, 4), (21, 7), (16, 5), (11, 5)] (by rfl) rfl rfl ⟨BitVec.isLt _, by decide, by decide, BitVec.isLt _, BitVec.isLt _, trivial⟩ rfl fun x hL => ?_; change Clean _ _ (decCp x)
    simp (disch := decide) [decCp, repOf, cdRsv, needRe, Clean, bv_eq, bt_eq, resv, rcode, excl, wrongTy, hL, Layout.at, Nat.mod_add_div]
  · refine back [(0, 5, g.toNat), (28, 4, 0), (21, 7, 2), (16, 5, ca.toNat), (11, 5, cb.toNat), (5, 1, 1), (6, 5, r.toNat)] [(0, 5), (28, 4), (21, 7), (16, 5), (11, 5), (5, 1), (6, 5)] (by rfl) rfl rfl ⟨BitVec.isLt _, by decide, by decide, BitVec.isLt _, BitVec.isLt _, by decide, BitVec.isLt _, trivial⟩ rfl fun x hL => ?_; change Clean _ _ (decCp x)
    simp (disch := decide) [decCp, repOf, cdRsv, needRe, Clean, bv_eq, bt_eq, resv, rcode, excl, wrongTy, hL, Layout.at, Nat.mod_add_div]
theorem cpyMc (ca : BitVec 5) (cb : BitVec 5) (rep : Option (BitVec 5)) : Statement (.cpyMc ca cb rep) := by
  rintro g arg hw ha p ⟨⟩
  obtain rfl := no_arg ha
  rcases rep with _ | r
  · refine back [(0, 5, g.toNat), (28, 4, 0), (21, 7, 3), (16, 5, ca.toNat), (11, 5, cb.toNat)] [(0, 5), (28, 4), (21, 7), (16, 5), (11, 5)] (by rfl) rfl rfl ⟨BitVec.isLt _, by decide, by decide, BitVec.isLt _, BitVec.isLt _, trivial⟩ rfl fun x hL => ?_; change Clean _ _ (decCp x)
    simp (disch := decide) [decCp, repOf, cdRsv, needRe, Clean, bv_eq, bt_eq, resv, rcode, excl, wrongTy, hL, Layout.at, Nat.mod_add_div]
  · refine back [(0, 5, g.toNat), (28, 4, 0), (21, 7, 3), (16, 5, ca.toNat), (11, 5, cb.toNat), (5, 1, 1), (6, 5, r.toNat)] [(0, 5), (28, 4), (21, 7), (16, 5), (11, 5), (5, 1), (6, 5)] (by rfl) rfl rfl ⟨BitVec.isLt _, by decide, by decide, BitVec.isLt _, BitVec.isLt _, by decide, BitVec.isLt _, trivial⟩ rfl fun x hL => ?_; change Clean _ _ (decCp x)
    simp (disch := decide) [decCp, repOf, cdRsv, needRe, Clean, bv_eq, bt_eq, resv, rcode, excl, wrongTy, hL, Layout.at, Nat.mod_add_div]
theorem cpySnd (ca : BitVec 5) (cb : BitVec 5) (rep : Option (BitVec 5)) : Statement (.cpySnd ca cb rep) := by
  rintro g arg hw ha p ⟨⟩
  obtain rfl := no_arg ha
  rcases rep with _ | r
  · refine back [(0, 5, g.toNat), (28, 4, 0), (21, 7, 4), (16, 5, ca.toNat), (11, 5, cb.toNat)] [(0, 5), (28, 4), (21, 7), (16, 5), (11, 5)] (by rfl) rfl rfl ⟨BitVec.isLt _, by decide, by decide, BitVec.isLt _, BitVec.isLt _, trivial⟩ rfl fun x hL => ?_; change Clean _ _ (decCp x)
    simp (disch := decide) [decCp, repOf, cdRsv, needRe, Clean, bv_eq, bt_eq, resv, rcode, excl, wrongTy, hL, Layout.at, Nat.mod_add_div]
  · refine back [(0, 5, g.toNat), (28, 4, 0), (21, 7, 4), (16, 5, ca.toNat), (11, 5, cb.toNat), (5, 1, 1), (6, 5, r.toNat)] [(0, 5), (28, 4), (21, 7), (16, 5), (11, 5), (5, 1), (6, 5)] (by rfl) rfl rfl ⟨BitVec.isLt _, by decide, by decide, BitVec.isLt _, BitVec.isLt _, by decide, BitVec.isLt _, trivial⟩ rfl fun x hL => ?_; change Clean _ _ (decCp x)
    simp (disch := decide) [decCp, repOf, cdRsv, needRe, Clean, bv_eq, bt_eq, resv, rcode, excl, wrongTy, hL, Layout.at, Nat.mod_add_div]
theorem cpyZrb (ca : BitVec 5) (cb : BitVec 5) (rep : Option (BitVec 5)) : Statement (.cpyZrb ca cb rep) := by
  rintro g arg hw ha p ⟨⟩
  obtain rfl := no_arg ha
  rcases rep with _ | r
  · refine back [(0, 5, g.toNat), (28, 4, 0), (21, 7, 5), (16, 5, ca.toNat), (11, 5, cb.toNat)] [(0, 5), (28, 4), (21, 7), (16, 5), (11, 5)] (by rfl) rfl rfl ⟨BitVec.isLt _, by decide, by decide, BitVec.isLt _, BitVec.isLt _, trivial⟩ rfl fun x hL => ?_; change Clean _ _ (decCp x)
    simp (disch := decide) [decCp, repOf, cdRsv, needRe, Clean, bv_eq, bt_eq, resv, rcode, excl, wrongTy, hL, Layout.at, Nat.mod_add_div]
  · refine back [(0, 5, g.toNat), (28, 4, 0), (21, 7, 5), (16, 5, ca.toNat), (11, 5, cb.toNat), (5, 1, 1), (6, 5, r.toNat)] [(0, 5), (28, 4), (21, 7), (16, 5), (11, 5), (5, 1), (6, 5)] (by rfl) rfl rfl ⟨BitVec.isLt _, by decide, by decide, BitVec.isLt _, BitVec.isLt _, by decide, BitVec.isLt _, trivial⟩ rfl fun x hL => ?_; change Clean _ _ (decCp x)
    simp (disch := decide) [decCp, repOf, cdRsv, needRe, Clean, bv_eq, bt_eq, resv, rcode, excl, wrongTy, hL, Layout.at, Nat.mod_add_div]
theorem cpySp24 (ca : BitVec 5) (cb : BitVec 5) (rep : Option (BitVec 5)) : Statement (.cpySp24 ca cb rep) := by
  rintro g arg hw ha p ⟨⟩
  obtain rfl := no_arg ha
  rcases rep with _ | r
  · refine back [(0, 5, g.toNat), (28, 4, 0), (21, 7, 6), (16, 5, ca.toNat), (11, 5, cb.toNat)] [(0, 5), (28, 4), (21, 7), (16, 5), (11, 5)] (by rfl) rfl rfl ⟨BitVec.isLt _, by decide, by decide, BitVec.isLt _, BitVec.isLt _, trivial⟩ rfl fun x hL => ?_; change Clean _ _ (decCp x)
    simp (disch := decide) [decCp, repOf, cdRsv, needRe, Clean, bv_eq, bt_eq, resv, rcode, excl, wrongTy, hL, Layout.at, Nat.mod_add_div]
  · refine back [(0, 5, g.toNat), (28, 4, 0), (21, 7, 6), (16, 5, ca.toNat), (11, 5, cb.toNat), (5, 1, 1), (6, 5, r.toNat)] [(0, 5), (28, 4), (21, 7), (16, 5), (11, 5), (5, 1), (6, 5)] (by rfl) rfl rfl ⟨BitVec.isLt _, by decide, by decide, BitVec.isLt _, BitVec.isLt _, by decide, BitVec.isLt _, trivial⟩ rfl fun x hL => ?_; change Clean _ _ (decCp x)
    simp (disch := decide) [decCp, repOf, cdRsv, needRe, Clean, bv_eq, bt_eq, resv, rcode, excl, wrongTy, hL, Layout.at, Nat.mod_add_div]
theorem cpyStrm (ca : BitVec 5) (cb : BitVec 5) (rep : Option (BitVec 5)) : Statement (.cpyStrm ca cb rep) := by
  rintro g arg hw ha p ⟨⟩
  obtain rfl := no_arg ha
  rcases rep with _ | r
  · refine back [(0, 5, g.toNat), (28, 4, 0), (21, 7, 7), (16, 5, ca.toNat), (11, 5, cb.toNat)] [(0, 5), (28, 4), (21, 7), (16, 5), (11, 5)] (by rfl) rfl rfl ⟨BitVec.isLt _, by decide, by decide, BitVec.isLt _, BitVec.isLt _, trivial⟩ rfl fun x hL => ?_; change Clean _ _ (decCp x)
    simp (disch := decide) [decCp, repOf, cdRsv, needRe, Clean, bv_eq, bt_eq, resv, rcode, excl, wrongTy, hL, Layout.at, Nat.mod_add_div]
  · refine back [(0, 5, g.toNat), (28, 4, 0), (21, 7, 7), (16, 5, ca.toNat), (11, 5, cb.toNat), (5, 1, 1), (6, 5, r.toNat)] [(0, 5), (28, 4), (21, 7), (16, 5), (11, 5), (5, 1), (6, 5)] (by rfl) rfl rfl ⟨BitVec.isLt _, by decide, by decide, BitVec.isLt _, BitVec.isLt _, by decide, BitVec.isLt _, trivial⟩ rfl fun x hL => ?_; change Clean _ _ (decCp x)
    simp (disch := decide) [decCp, repOf, cdRsv, needRe, Clean, bv_eq, bt_eq, resv, rcode, excl, wrongTy, hL, Layout.at, Nat.mod_add_div]
theorem cpyStop (ca : BitVec 5) (rep : Option (BitVec 5)) : Statement (.cpyStop ca rep) := by
  rintro g arg hw ha p ⟨⟩
  obtain rfl := no_arg ha
  rcases rep with _ | r
  · refine back [(0, 5, g.toNat), (28, 4, 0), (21, 7, 8), (16, 5, ca.toNat), (11, 5, 0)] [(0, 5), (28, 4), (21, 7), (16, 5), (11, 5)] (by rfl) rfl rfl ⟨BitVec.isLt _, by decide, by decide, BitVec.isLt _, by decide, trivial⟩ rfl fun x hL => ?_; change Clean _ _ (decCp x)
    simp (disch := decide) [decCp, repOf, cdRsv, needRe, Clean, bv_eq, bt_eq, resv, rcode, excl, wrongTy, hL, Layout.at, Nat.mod_add_div]
  · refine back [(0, 5, g.toNat), (28, 4, 0), (21, 7, 8), (16, 5, ca.toNat), (11, 5, 0), (5, 1, 1), (6, 5, r.toNat)] [(0, 5), (28, 4), (21, 7), (16, 5), (11, 5), (5, 1), (6, 5)] (by rfl) rfl rfl ⟨BitVec.isLt _, by decide, by decide, BitVec.isLt _, by decide, by decide, BitVec.isLt _, trivial⟩ rfl fun x hL => ?_; change Clean _ _ (decCp x)
    simp (disch := decide) [decCp, repOf, cdRsv, needRe, Clean, bv_eq, bt_eq, resv, rcode, excl, wrongTy, hL, Layout.at, Nat.mod_add_div]
theorem cpyFill (ca : BitVec 5) (cb : BitVec 5) (rep : Option (BitVec 5)) : Statement (.cpyFill ca cb rep) := by
  rintro g arg hw ha p ⟨⟩
  obtain rfl := no_arg ha
  rcases rep with _ | r
  · refine back [(0, 5, g.toNat), (28, 4, 0), (21, 7, 9), (16, 5, ca.toNat), (11, 5, cb.toNat)] [(0, 5), (28, 4), (21, 7), (16, 5), (11, 5)] (by rfl) rfl rfl ⟨BitVec.isLt _, by decide, by decide, BitVec.isLt _, BitVec.isLt _, trivial⟩ rfl fun x hL => ?_; change Clean _ _ (decCp x)
    simp (disch := decide) [decCp, repOf, cdRsv, needRe, Clean, bv_eq, bt_eq, resv, rcode, excl, wrongTy, hL, Layout.at, Nat.mod_add_div]
  · refine back [(0, 5, g.toNat), (28, 4, 0), (21, 7, 9), (16, 5, ca.toNat), (11, 5, cb.toNat), (5, 1, 1), (6, 5, r.toNat)] [(0, 5), (28, 4), (21, 7), (16, 5), (11, 5), (5, 1), (6, 5)] (by rfl) rfl rfl ⟨BitVec.isLt _, by decide, by decide, BitVec.isLt _, BitVec.isLt _, by decide, BitVec.isLt _, trivial⟩ rfl fun x hL => ?_; change Clean _ _ (decCp x)
    simp (disch := decide) [decCp, repOf, cdRsv, needRe, Clean, bv_eq, bt_eq, resv, rcode, excl, wrongTy, hL, Layout.at, Nat.mod_add_div]
theorem hndNew (ca : BitVec 5) (cd : BitVec 5) : Statement (.hndNew ca cd) := by
  rintro g arg hw ha p ⟨⟩
  obtain rfl := no_arg ha
  refine back [(0, 5, g.toNat), (28, 4, 15), (21, 7, 1), (16, 5, ca.toNat), (11, 5, 0), (5, 1, 1), (6, 5, cd.toNat)] [(0, 5), (28, 4), (21, 7), (16, 5), (11, 5), (5, 1), (6, 5)] (by rfl) rfl rfl ⟨BitVec.isLt _, by decide, by decide, BitVec.isLt _, by decide, by decide, BitVec.isLt _, trivial⟩ rfl fun x hL => ?_; change Clean _ _ (decCp x)
  simp (disch := decide) [decCp, repOf, cdRsv, needRe, Clean, bv_eq, bt_eq, resv, rcode, excl, wrongTy, hL, Layout.at, Nat.mod_add_div]
theorem hndFree (ca : BitVec 5) (rep : Option (BitVec 5)) : Statement (.hndFree ca rep) := by
  rintro g arg hw ha p ⟨⟩
  obtain rfl := no_arg ha
  rcases rep with _ | r
  · refine back [(0, 5, g.toNat), (28, 4, 15), (21, 7, 2), (16, 5, ca.toNat), (11, 5, 0)] [(0, 5), (28, 4), (21, 7), (16, 5), (11, 5)] (by rfl) rfl rfl ⟨BitVec.isLt _, by decide, by decide, BitVec.isLt _, by decide, trivial⟩ rfl fun x hL => ?_; change Clean _ _ (decCp x)
    simp (disch := decide) [decCp, repOf, cdRsv, needRe, Clean, bv_eq, bt_eq, resv, rcode, excl, wrongTy, hL, Layout.at, Nat.mod_add_div]
  · refine back [(0, 5, g.toNat), (28, 4, 15), (21, 7, 2), (16, 5, ca.toNat), (11, 5, 0), (5, 1, 1), (6, 5, r.toNat)] [(0, 5), (28, 4), (21, 7), (16, 5), (11, 5), (5, 1), (6, 5)] (by rfl) rfl rfl ⟨BitVec.isLt _, by decide, by decide, BitVec.isLt _, by decide, by decide, BitVec.isLt _, trivial⟩ rfl fun x hL => ?_; change Clean _ _ (decCp x)
    simp (disch := decide) [decCp, repOf, cdRsv, needRe, Clean, bv_eq, bt_eq, resv, rcode, excl, wrongTy, hL, Layout.at, Nat.mod_add_div]
theorem hndGen (ca : BitVec 5) (cd : BitVec 5) : Statement (.hndGen ca cd) := by
  rintro g arg hw ha p ⟨⟩
  obtain rfl := no_arg ha
  refine back [(0, 5, g.toNat), (28, 4, 15), (21, 7, 3), (16, 5, ca.toNat), (11, 5, 0), (5, 1, 1), (6, 5, cd.toNat)] [(0, 5), (28, 4), (21, 7), (16, 5), (11, 5), (5, 1), (6, 5)] (by rfl) rfl rfl ⟨BitVec.isLt _, by decide, by decide, BitVec.isLt _, by decide, by decide, BitVec.isLt _, trivial⟩ rfl fun x hL => ?_; change Clean _ _ (decCp x)
  simp (disch := decide) [decCp, repOf, cdRsv, needRe, Clean, bv_eq, bt_eq, resv, rcode, excl, wrongTy, hL, Layout.at, Nat.mod_add_div]
theorem frIn (ca : BitVec 5) (cb : BitVec 5) (rep : Option (BitVec 5)) : Statement (.frIn ca cb rep) := by
  rintro g arg hw ha p ⟨⟩
  obtain rfl := no_arg ha
  rcases rep with _ | r
  · refine back [(0, 5, g.toNat), (28, 4, 1), (21, 7, 1), (16, 5, ca.toNat), (11, 5, cb.toNat)] [(0, 5), (28, 4), (21, 7), (16, 5), (11, 5)] (by rfl) rfl rfl ⟨BitVec.isLt _, by decide, by decide, BitVec.isLt _, BitVec.isLt _, trivial⟩ rfl fun x hL => ?_; change Clean _ _ (decCp x)
    simp (disch := decide) [decCp, repOf, cdRsv, needRe, Clean, bv_eq, bt_eq, resv, rcode, excl, wrongTy, hL, Layout.at, Nat.mod_add_div]
  · refine back [(0, 5, g.toNat), (28, 4, 1), (21, 7, 1), (16, 5, ca.toNat), (11, 5, cb.toNat), (5, 1, 1), (6, 5, r.toNat)] [(0, 5), (28, 4), (21, 7), (16, 5), (11, 5), (5, 1), (6, 5)] (by rfl) rfl rfl ⟨BitVec.isLt _, by decide, by decide, BitVec.isLt _, BitVec.isLt _, by decide, BitVec.isLt _, trivial⟩ rfl fun x hL => ?_; change Clean _ _ (decCp x)
    simp (disch := decide) [decCp, repOf, cdRsv, needRe, Clean, bv_eq, bt_eq, resv, rcode, excl, wrongTy, hL, Layout.at, Nat.mod_add_div]
theorem frOut (ca : BitVec 5) (cb : BitVec 5) (rep : Option (BitVec 5)) : Statement (.frOut ca cb rep) := by
  rintro g arg hw ha p ⟨⟩
  obtain rfl := no_arg ha
  rcases rep with _ | r
  · refine back [(0, 5, g.toNat), (28, 4, 1), (21, 7, 2), (16, 5, ca.toNat), (11, 5, cb.toNat)] [(0, 5), (28, 4), (21, 7), (16, 5), (11, 5)] (by rfl) rfl rfl ⟨BitVec.isLt _, by decide, by decide, BitVec.isLt _, BitVec.isLt _, trivial⟩ rfl fun x hL => ?_; change Clean _ _ (decCp x)
    simp (disch := decide) [decCp, repOf, cdRsv, needRe, Clean, bv_eq, bt_eq, resv, rcode, excl, wrongTy, hL, Layout.at, Nat.mod_add_div]
  · refine back [(0, 5, g.toNat), (28, 4, 1), (21, 7, 2), (16, 5, ca.toNat), (11, 5, cb.toNat), (5, 1, 1), (6, 5, r.toNat)] [(0, 5), (28, 4), (21, 7), (16, 5), (11, 5), (5, 1), (6, 5)] (by rfl) rfl rfl ⟨BitVec.isLt _, by decide, by decide, BitVec.isLt _, BitVec.isLt _, by decide, BitVec.isLt _, trivial⟩ rfl fun x hL => ?_; change Clean _ _ (decCp x)
    simp (disch := decide) [decCp, repOf, cdRsv, needRe, Clean, bv_eq, bt_eq, resv, rcode, excl, wrongTy, hL, Layout.at, Nat.mod_add_div]
theorem frSwap (ca : BitVec 5) (cb : BitVec 5) (rep : Option (BitVec 5)) : Statement (.frSwap ca cb rep) := by
  rintro g arg hw ha p ⟨⟩
  obtain rfl := no_arg ha
  rcases rep with _ | r
  · refine back [(0, 5, g.toNat), (28, 4, 1), (21, 7, 3), (16, 5, ca.toNat), (11, 5, cb.toNat)] [(0, 5), (28, 4), (21, 7), (16, 5), (11, 5)] (by rfl) rfl rfl ⟨BitVec.isLt _, by decide, by decide, BitVec.isLt _, BitVec.isLt _, trivial⟩ rfl fun x hL => ?_; change Clean _ _ (decCp x)
    simp (disch := decide) [decCp, repOf, cdRsv, needRe, Clean, bv_eq, bt_eq, resv, rcode, excl, wrongTy, hL, Layout.at, Nat.mod_add_div]
  · refine back [(0, 5, g.toNat), (28, 4, 1), (21, 7, 3), (16, 5, ca.toNat), (11, 5, cb.toNat), (5, 1, 1), (6, 5, r.toNat)] [(0, 5), (28, 4), (21, 7), (16, 5), (11, 5), (5, 1), (6, 5)] (by rfl) rfl rfl ⟨BitVec.isLt _, by decide, by decide, BitVec.isLt _, BitVec.isLt _, by decide, BitVec.isLt _, trivial⟩ rfl fun x hL => ?_; change Clean _ _ (decCp x)
    simp (disch := decide) [decCp, repOf, cdRsv, needRe, Clean, bv_eq, bt_eq, resv, rcode, excl, wrongTy, hL, Layout.at, Nat.mod_add_div]
theorem frSnap (ca : BitVec 5) (cb : BitVec 5) (rep : Option (BitVec 5)) : Statement (.frSnap ca cb rep) := by
  rintro g arg hw ha p ⟨⟩
  obtain rfl := no_arg ha
  rcases rep with _ | r
  · refine back [(0, 5, g.toNat), (28, 4, 1), (21, 7, 4), (16, 5, ca.toNat), (11, 5, cb.toNat)] [(0, 5), (28, 4), (21, 7), (16, 5), (11, 5)] (by rfl) rfl rfl ⟨BitVec.isLt _, by decide, by decide, BitVec.isLt _, BitVec.isLt _, trivial⟩ rfl fun x hL => ?_; change Clean _ _ (decCp x)
    simp (disch := decide) [decCp, repOf, cdRsv, needRe, Clean, bv_eq, bt_eq, resv, rcode, excl, wrongTy, hL, Layout.at, Nat.mod_add_div]
  · refine back [(0, 5, g.toNat), (28, 4, 1), (21, 7, 4), (16, 5, ca.toNat), (11, 5, cb.toNat), (5, 1, 1), (6, 5, r.toNat)] [(0, 5), (28, 4), (21, 7), (16, 5), (11, 5), (5, 1), (6, 5)] (by rfl) rfl rfl ⟨BitVec.isLt _, by decide, by decide, BitVec.isLt _, BitVec.isLt _, by decide, BitVec.isLt _, trivial⟩ rfl fun x hL => ?_; change Clean _ _ (decCp x)
    simp (disch := decide) [decCp, repOf, cdRsv, needRe, Clean, bv_eq, bt_eq, resv, rcode, excl, wrongTy, hL, Layout.at, Nat.mod_add_div]
theorem frFork (ca : BitVec 5) (cb : BitVec 5) (rep : Option (BitVec 5)) : Statement (.frFork ca cb rep) := by
  rintro g arg hw ha p ⟨⟩
  obtain rfl := no_arg ha
  rcases rep with _ | r
  · refine back [(0, 5, g.toNat), (28, 4, 1), (21, 7, 5), (16, 5, ca.toNat), (11, 5, cb.toNat)] [(0, 5), (28, 4), (21, 7), (16, 5), (11, 5)] (by rfl) rfl rfl ⟨BitVec.isLt _, by decide, by decide, BitVec.isLt _, BitVec.isLt _, trivial⟩ rfl fun x hL => ?_; change Clean _ _ (decCp x)
    simp (disch := decide) [decCp, repOf, cdRsv, needRe, Clean, bv_eq, bt_eq, resv, rcode, excl, wrongTy, hL, Layout.at, Nat.mod_add_div]
  · refine back [(0, 5, g.toNat), (28, 4, 1), (21, 7, 5), (16, 5, ca.toNat), (11, 5, cb.toNat), (5, 1, 1), (6, 5, r.toNat)] [(0, 5), (28, 4), (21, 7), (16, 5), (11, 5), (5, 1), (6, 5)] (by rfl) rfl rfl ⟨BitVec.isLt _, by decide, by decide, BitVec.isLt _, BitVec.isLt _, by decide, BitVec.isLt _, trivial⟩ rfl fun x hL => ?_; change Clean _ _ (decCp x)
    simp (disch := decide) [decCp, repOf, cdRsv, needRe, Clean, bv_eq, bt_eq, resv, rcode, excl, wrongTy, hL, Layout.at, Nat.mod_add_div]
theorem frRoll (ca : BitVec 5) (cb : BitVec 5) (rep : Option (BitVec 5)) : Statement (.frRoll ca cb rep) := by
  rintro g arg hw ha p ⟨⟩
  obtain rfl := no_arg ha
  rcases rep with _ | r
  · refine back [(0, 5, g.toNat), (28, 4, 1), (21, 7, 6), (16, 5, ca.toNat), (11, 5, cb.toNat)] [(0, 5), (28, 4), (21, 7), (16, 5), (11, 5)] (by rfl) rfl rfl ⟨BitVec.isLt _, by decide, by decide, BitVec.isLt _, BitVec.isLt _, trivial⟩ rfl fun x hL => ?_; change Clean _ _ (decCp x)
    simp (disch := decide) [decCp, repOf, cdRsv, needRe, Clean, bv_eq, bt_eq, resv, rcode, excl, wrongTy, hL, Layout.at, Nat.mod_add_div]
  · refine back [(0, 5, g.toNat), (28, 4, 1), (21, 7, 6), (16, 5, ca.toNat), (11, 5, cb.toNat), (5, 1, 1), (6, 5, r.toNat)] [(0, 5), (28, 4), (21, 7), (16, 5), (11, 5), (5, 1), (6, 5)] (by rfl) rfl rfl ⟨BitVec.isLt _, by decide, by decide, BitVec.isLt _, BitVec.isLt _, by decide, BitVec.isLt _, trivial⟩ rfl fun x hL => ?_; change Clean _ _ (decCp x)
    simp (disch := decide) [decCp, repOf, cdRsv, needRe, Clean, bv_eq, bt_eq, resv, rcode, excl, wrongTy, hL, Layout.at, Nat.mod_add_div]
theorem frRel (ca : BitVec 5) (cb : BitVec 5) (rep : Option (BitVec 5)) : Statement (.frRel ca cb rep) := by
  rintro g arg hw ha p ⟨⟩
  obtain rfl := no_arg ha
  rcases rep with _ | r
  · refine back [(0, 5, g.toNat), (28, 4, 1), (21, 7, 7), (16, 5, ca.toNat), (11, 5, cb.toNat)] [(0, 5), (28, 4), (21, 7), (16, 5), (11, 5)] (by rfl) rfl rfl ⟨BitVec.isLt _, by decide, by decide, BitVec.isLt _, BitVec.isLt _, trivial⟩ rfl fun x hL => ?_; change Clean _ _ (decCp x)
    simp (disch := decide) [decCp, repOf, cdRsv, needRe, Clean, bv_eq, bt_eq, resv, rcode, excl, wrongTy, hL, Layout.at, Nat.mod_add_div]
  · refine back [(0, 5, g.toNat), (28, 4, 1), (21, 7, 7), (16, 5, ca.toNat), (11, 5, cb.toNat), (5, 1, 1), (6, 5, r.toNat)] [(0, 5), (28, 4), (21, 7), (16, 5), (11, 5), (5, 1), (6, 5)] (by rfl) rfl rfl ⟨BitVec.isLt _, by decide, by decide, BitVec.isLt _, BitVec.isLt _, by decide, BitVec.isLt _, trivial⟩ rfl fun x hL => ?_; change Clean _ _ (decCp x)
    simp (disch := decide) [decCp, repOf, cdRsv, needRe, Clean, bv_eq, bt_eq, resv, rcode, excl, wrongTy, hL, Layout.at, Nat.mod_add_div]
theorem frPin (ca : BitVec 5) (cb : BitVec 5) (rep : Option (BitVec 5)) : Statement (.frPin ca cb rep) := by
  rintro g arg hw ha p ⟨⟩
  obtain rfl := no_arg ha
  rcases rep with _ | r
  · refine back [(0, 5, g.toNat), (28, 4, 1), (21, 7, 8), (16, 5, ca.toNat), (11, 5, cb.toNat)] [(0, 5), (28, 4), (21, 7), (16, 5), (11, 5)] (by rfl) rfl rfl ⟨BitVec.isLt _, by decide, by decide, BitVec.isLt _, BitVec.isLt _, trivial⟩ rfl fun x hL => ?_; change Clean _ _ (decCp x)
    simp (disch := decide) [decCp, repOf, cdRsv, needRe, Clean, bv_eq, bt_eq, resv, rcode, excl, wrongTy, hL, Layout.at, Nat.mod_add_div]
  · refine back [(0, 5, g.toNat), (28, 4, 1), (21, 7, 8), (16, 5, ca.toNat), (11, 5, cb.toNat), (5, 1, 1), (6, 5, r.toNat)] [(0, 5), (28, 4), (21, 7), (16, 5), (11, 5), (5, 1), (6, 5)] (by rfl) rfl rfl ⟨BitVec.isLt _, by decide, by decide, BitVec.isLt _, BitVec.isLt _, by decide, BitVec.isLt _, trivial⟩ rfl fun x hL => ?_; change Clean _ _ (decCp x)
    simp (disch := decide) [decCp, repOf, cdRsv, needRe, Clean, bv_eq, bt_eq, resv, rcode, excl, wrongTy, hL, Layout.at, Nat.mod_add_div]
theorem frChk (ca : BitVec 5) (cb : BitVec 5) (rep : Option (BitVec 5)) : Statement (.frChk ca cb rep) := by
  rintro g arg hw ha p ⟨⟩
  obtain rfl := no_arg ha
  rcases rep with _ | r
  · refine back [(0, 5, g.toNat), (28, 4, 1), (21, 7, 9), (16, 5, ca.toNat), (11, 5, cb.toNat)] [(0, 5), (28, 4), (21, 7), (16, 5), (11, 5)] (by rfl) rfl rfl ⟨BitVec.isLt _, by decide, by decide, BitVec.isLt _, BitVec.isLt _, trivial⟩ rfl fun x hL => ?_; change Clean _ _ (decCp x)
    simp (disch := decide) [decCp, repOf, cdRsv, needRe, Clean, bv_eq, bt_eq, resv, rcode, excl, wrongTy, hL, Layout.at, Nat.mod_add_div]
  · refine back [(0, 5, g.toNat), (28, 4, 1), (21, 7, 9), (16, 5, ca.toNat), (11, 5, cb.toNat), (5, 1, 1), (6, 5, r.toNat)] [(0, 5), (28, 4), (21, 7), (16, 5), (11, 5), (5, 1), (6, 5)] (by rfl) rfl rfl ⟨BitVec.isLt _, by decide, by decide, BitVec.isLt _, BitVec.isLt _, by decide, BitVec.isLt _, trivial⟩ rfl fun x hL => ?_; change Clean _ _ (decCp x)
    simp (disch := decide) [decCp, repOf, cdRsv, needRe, Clean, bv_eq, bt_eq, resv, rcode, excl, wrongTy, hL, Layout.at, Nat.mod_add_div]
theorem frRes (ca : BitVec 5) (cb : BitVec 5) (rep : Option (BitVec 5)) : Statement (.frRes ca cb rep) := by
  rintro g arg hw ha p ⟨⟩
  obtain rfl := no_arg ha
  rcases rep with _ | r
  · refine back [(0, 5, g.toNat), (28, 4, 1), (21, 7, 10), (16, 5, ca.toNat), (11, 5, cb.toNat)] [(0, 5), (28, 4), (21, 7), (16, 5), (11, 5)] (by rfl) rfl rfl ⟨BitVec.isLt _, by decide, by decide, BitVec.isLt _, BitVec.isLt _, trivial⟩ rfl fun x hL => ?_; change Clean _ _ (decCp x)
    simp (disch := decide) [decCp, repOf, cdRsv, needRe, Clean, bv_eq, bt_eq, resv, rcode, excl, wrongTy, hL, Layout.at, Nat.mod_add_div]
  · refine back [(0, 5, g.toNat), (28, 4, 1), (21, 7, 10), (16, 5, ca.toNat), (11, 5, cb.toNat), (5, 1, 1), (6, 5, r.toNat)] [(0, 5), (28, 4), (21, 7), (16, 5), (11, 5), (5, 1), (6, 5)] (by rfl) rfl rfl ⟨BitVec.isLt _, by decide, by decide, BitVec.isLt _, BitVec.isLt _, by decide, BitVec.isLt _, trivial⟩ rfl fun x hL => ?_; change Clean _ _ (decCp x)
    simp (disch := decide) [decCp, repOf, cdRsv, needRe, Clean, bv_eq, bt_eq, resv, rcode, excl, wrongTy, hL, Layout.at, Nat.mod_add_div]
theorem scnDiag (ca : BitVec 5) (cb : BitVec 5) (rep : Option (BitVec 5)) : Statement (.scnDiag ca cb rep) := by
  rintro g arg hw ha p ⟨⟩
  obtain rfl := no_arg ha
  rcases rep with _ | r
  · refine back [(0, 5, g.toNat), (28, 4, 2), (21, 7, 1), (16, 5, ca.toNat), (11, 5, cb.toNat)] [(0, 5), (28, 4), (21, 7), (16, 5), (11, 5)] (by rfl) rfl rfl ⟨BitVec.isLt _, by decide, by decide, BitVec.isLt _, BitVec.isLt _, trivial⟩ rfl fun x hL => ?_; change Clean _ _ (decCp x)
    simp (disch := decide) [decCp, repOf, cdRsv, needRe, Clean, bv_eq, bt_eq, resv, rcode, excl, wrongTy, hL, Layout.at, Nat.mod_add_div]
  · refine back [(0, 5, g.toNat), (28, 4, 2), (21, 7, 1), (16, 5, ca.toNat), (11, 5, cb.toNat), (5, 1, 1), (6, 5, r.toNat)] [(0, 5), (28, 4), (21, 7), (16, 5), (11, 5), (5, 1), (6, 5)] (by rfl) rfl rfl ⟨BitVec.isLt _, by decide, by decide, BitVec.isLt _, BitVec.isLt _, by decide, BitVec.isLt _, trivial⟩ rfl fun x hL => ?_; change Clean _ _ (decCp x)
    simp (disch := decide) [decCp, repOf, cdRsv, needRe, Clean, bv_eq, bt_eq, resv, rcode, excl, wrongTy, hL, Layout.at, Nat.mod_add_div]
theorem scnLin (ca : BitVec 5) (rep : Option (BitVec 5)) : Statement (.scnLin ca rep) := by
  rintro g arg hw ha p ⟨⟩
  obtain rfl := no_arg ha
  rcases rep with _ | r
  · refine back [(0, 5, g.toNat), (28, 4, 2), (21, 7, 2), (16, 5, ca.toNat), (11, 5, 0)] [(0, 5), (28, 4), (21, 7), (16, 5), (11, 5)] (by rfl) rfl rfl ⟨BitVec.isLt _, by decide, by decide, BitVec.isLt _, by decide, trivial⟩ rfl fun x hL => ?_; change Clean _ _ (decCp x)
    simp (disch := decide) [decCp, repOf, cdRsv, needRe, Clean, bv_eq, bt_eq, resv, rcode, excl, wrongTy, hL, Layout.at, Nat.mod_add_div]
  · refine back [(0, 5, g.toNat), (28, 4, 2), (21, 7, 2), (16, 5, ca.toNat), (11, 5, 0), (5, 1, 1), (6, 5, r.toNat)] [(0, 5), (28, 4), (21, 7), (16, 5), (11, 5), (5, 1), (6, 5)] (by rfl) rfl rfl ⟨BitVec.isLt _, by decide, by decide, BitVec.isLt _, by decide, by decide, BitVec.isLt _, trivial⟩ rfl fun x hL => ?_; change Clean _ _ (decCp x)
    simp (disch := decide) [decCp, repOf, cdRsv, needRe, Clean, bv_eq, bt_eq, resv, rcode, excl, wrongTy, hL, Layout.at, Nat.mod_add_div]
theorem scnCin (ca : BitVec 5) (rep : Option (BitVec 5)) : Statement (.scnCin ca rep) := by
  rintro g arg hw ha p ⟨⟩
  obtain rfl := no_arg ha
  rcases rep with _ | r
  · refine back [(0, 5, g.toNat), (28, 4, 2), (21, 7, 3), (16, 5, ca.toNat), (11, 5, 0)] [(0, 5), (28, 4), (21, 7), (16, 5), (11, 5)] (by rfl) rfl rfl ⟨BitVec.isLt _, by decide, by decide, BitVec.isLt _, by decide, trivial⟩ rfl fun x hL => ?_; change Clean _ _ (decCp x)
    simp (disch := decide) [decCp, repOf, cdRsv, needRe, Clean, bv_eq, bt_eq, resv, rcode, excl, wrongTy, hL, Layout.at, Nat.mod_add_div]
  · refine back [(0, 5, g.toNat), (28, 4, 2), (21, 7, 3), (16, 5, ca.toNat), (11, 5, 0), (5, 1, 1), (6, 5, r.toNat)] [(0, 5), (28, 4), (21, 7), (16, 5), (11, 5), (5, 1), (6, 5)] (by rfl) rfl rfl ⟨BitVec.isLt _, by decide, by decide, BitVec.isLt _, by decide, by decide, BitVec.isLt _, trivial⟩ rfl fun x hL => ?_; change Clean _ _ (decCp x)
    simp (disch := decide) [decCp, repOf, cdRsv, needRe, Clean, bv_eq, bt_eq, resv, rcode, excl, wrongTy, hL, Layout.at, Nat.mod_add_div]
theorem scnCout (ca : BitVec 5) (rep : Option (BitVec 5)) : Statement (.scnCout ca rep) := by
  rintro g arg hw ha p ⟨⟩
  obtain rfl := no_arg ha
  rcases rep with _ | r
  · refine back [(0, 5, g.toNat), (28, 4, 2), (21, 7, 4), (16, 5, ca.toNat), (11, 5, 0)] [(0, 5), (28, 4), (21, 7), (16, 5), (11, 5)] (by rfl) rfl rfl ⟨BitVec.isLt _, by decide, by decide, BitVec.isLt _, by decide, trivial⟩ rfl fun x hL => ?_; change Clean _ _ (decCp x)
    simp (disch := decide) [decCp, repOf, cdRsv, needRe, Clean, bv_eq, bt_eq, resv, rcode, excl, wrongTy, hL, Layout.at, Nat.mod_add_div]
  · refine back [(0, 5, g.toNat), (28, 4, 2), (21, 7, 4), (16, 5, ca.toNat), (11, 5, 0), (5, 1, 1), (6, 5, r.toNat)] [(0, 5), (28, 4), (21, 7), (16, 5), (11, 5), (5, 1), (6, 5)] (by rfl) rfl rfl ⟨BitVec.isLt _, by decide, by decide, BitVec.isLt _, by decide, by decide, BitVec.isLt _, trivial⟩ rfl fun x hL => ?_; change Clean _ _ (decCp x)
    simp (disch := decide) [decCp, repOf, cdRsv, needRe, Clean, bv_eq, bt_eq, resv, rcode, excl, wrongTy, hL, Layout.at, Nat.mod_add_div]
theorem scnFade (ca : BitVec 5) (rep : Option (BitVec 5)) : Statement (.scnFade ca rep) := by
  rintro g arg hw ha p ⟨⟩
  obtain rfl := no_arg ha
  rcases rep with _ | r
  · refine back [(0, 5, g.toNat), (28, 4, 2), (21, 7, 5), (16, 5, ca.toNat), (11, 5, 0)] [(0, 5), (28, 4), (21, 7), (16, 5), (11, 5)] (by rfl) rfl rfl ⟨BitVec.isLt _, by decide, by decide, BitVec.isLt _, by decide, trivial⟩ rfl fun x hL => ?_; change Clean _ _ (decCp x)
    simp (disch := decide) [decCp, repOf, cdRsv, needRe, Clean, bv_eq, bt_eq, resv, rcode, excl, wrongTy, hL, Layout.at, Nat.mod_add_div]
  · refine back [(0, 5, g.toNat), (28, 4, 2), (21, 7, 5), (16, 5, ca.toNat), (11, 5, 0), (5, 1, 1), (6, 5, r.toNat)] [(0, 5), (28, 4), (21, 7), (16, 5), (11, 5), (5, 1), (6, 5)] (by rfl) rfl rfl ⟨BitVec.isLt _, by decide, by decide, BitVec.isLt _, by decide, by decide, BitVec.isLt _, trivial⟩ rfl fun x hL => ?_; change Clean _ _ (decCp x)
    simp (disch := decide) [decCp, repOf, cdRsv, needRe, Clean, bv_eq, bt_eq, resv, rcode, excl, wrongTy, hL, Layout.at, Nat.mod_add_div]
theorem scnCfg (ca : BitVec 5) (rep : Option (BitVec 5)) : Statement (.scnCfg ca rep) := by
  rintro g arg hw ha p ⟨⟩
  obtain rfl := no_arg ha
  rcases rep with _ | r
  · refine back [(0, 5, g.toNat), (28, 4, 2), (21, 7, 6), (16, 5, ca.toNat), (11, 5, 0)] [(0, 5), (28, 4), (21, 7), (16, 5), (11, 5)] (by rfl) rfl rfl ⟨BitVec.isLt _, by decide, by decide, BitVec.isLt _, by decide, trivial⟩ rfl fun x hL => ?_; change Clean _ _ (decCp x)
    simp (disch := decide) [decCp, repOf, cdRsv, needRe, Clean, bv_eq, bt_eq, resv, rcode, excl, wrongTy, hL, Layout.at, Nat.mod_add_div]
  · refine back [(0, 5, g.toNat), (28, 4, 2), (21, 7, 6), (16, 5, ca.toNat), (11, 5, 0), (5, 1, 1), (6, 5, r.toNat)] [(0, 5), (28, 4), (21, 7), (16, 5), (11, 5), (5, 1), (6, 5)] (by rfl) rfl rfl ⟨BitVec.isLt _, by decide, by decide, BitVec.isLt _, by decide, by decide, BitVec.isLt _, trivial⟩ rfl fun x hL => ?_; change Clean _ _ (decCp x)
    simp (disch := decide) [decCp, repOf, cdRsv, needRe, Clean, bv_eq, bt_eq, resv, rcode, excl, wrongTy, hL, Layout.at, Nat.mod_add_div]
theorem smpRun (ca : BitVec 5) (cb : BitVec 5) (rep : Option (BitVec 5)) : Statement (.smpRun ca cb rep) := by
  rintro g arg hw ha p ⟨⟩
  obtain rfl := no_arg ha
  rcases rep with _ | r
  · refine back [(0, 5, g.toNat), (28, 4, 3), (21, 7, 1), (16, 5, ca.toNat), (11, 5, cb.toNat)] [(0, 5), (28, 4), (21, 7), (16, 5), (11, 5)] (by rfl) rfl rfl ⟨BitVec.isLt _, by decide, by decide, BitVec.isLt _, BitVec.isLt _, trivial⟩ rfl fun x hL => ?_; change Clean _ _ (decCp x)
    simp (disch := decide) [decCp, repOf, cdRsv, needRe, Clean, bv_eq, bt_eq, resv, rcode, excl, wrongTy, hL, Layout.at, Nat.mod_add_div]
  · refine back [(0, 5, g.toNat), (28, 4, 3), (21, 7, 1), (16, 5, ca.toNat), (11, 5, cb.toNat), (5, 1, 1), (6, 5, r.toNat)] [(0, 5), (28, 4), (21, 7), (16, 5), (11, 5), (5, 1), (6, 5)] (by rfl) rfl rfl ⟨BitVec.isLt _, by decide, by decide, BitVec.isLt _, BitVec.isLt _, by decide, BitVec.isLt _, trivial⟩ rfl fun x hL => ?_; change Clean _ _ (decCp x)
    simp (disch := decide) [decCp, repOf, cdRsv, needRe, Clean, bv_eq, bt_eq, resv, rcode, excl, wrongTy, hL, Layout.at, Nat.mod_add_div]
theorem smpShard (ca : BitVec 5) (cb : BitVec 5) (rep : Option (BitVec 5)) : Statement (.smpShard ca cb rep) := by
  rintro g arg hw ha p ⟨⟩
  obtain rfl := no_arg ha
  rcases rep with _ | r
  · refine back [(0, 5, g.toNat), (28, 4, 3), (21, 7, 2), (16, 5, ca.toNat), (11, 5, cb.toNat)] [(0, 5), (28, 4), (21, 7), (16, 5), (11, 5)] (by rfl) rfl rfl ⟨BitVec.isLt _, by decide, by decide, BitVec.isLt _, BitVec.isLt _, trivial⟩ rfl fun x hL => ?_; change Clean _ _ (decCp x)
    simp (disch := decide) [decCp, repOf, cdRsv, needRe, Clean, bv_eq, bt_eq, resv, rcode, excl, wrongTy, hL, Layout.at, Nat.mod_add_div]
  · refine back [(0, 5, g.toNat), (28, 4, 3), (21, 7, 2), (16, 5, ca.toNat), (11, 5, cb.toNat), (5, 1, 1), (6, 5, r.toNat)] [(0, 5), (28, 4), (21, 7), (16, 5), (11, 5), (5, 1), (6, 5)] (by rfl) rfl rfl ⟨BitVec.isLt _, by decide, by decide, BitVec.isLt _, BitVec.isLt _, by decide, BitVec.isLt _, trivial⟩ rfl fun x hL => ?_; change Clean _ _ (decCp x)
    simp (disch := decide) [decCp, repOf, cdRsv, needRe, Clean, bv_eq, bt_eq, resv, rcode, excl, wrongTy, hL, Layout.at, Nat.mod_add_div]
theorem smpMerge (ca : BitVec 5) (cb : BitVec 5) (rep : Option (BitVec 5)) : Statement (.smpMerge ca cb rep) := by
  rintro g arg hw ha p ⟨⟩
  obtain rfl := no_arg ha
  rcases rep with _ | r
  · refine back [(0, 5, g.toNat), (28, 4, 3), (21, 7, 3), (16, 5, ca.toNat), (11, 5, cb.toNat)] [(0, 5), (28, 4), (21, 7), (16, 5), (11, 5)] (by rfl) rfl rfl ⟨BitVec.isLt _, by decide, by decide, BitVec.isLt _, BitVec.isLt _, trivial⟩ rfl fun x hL => ?_; change Clean _ _ (decCp x)
    simp (disch := decide) [decCp, repOf, cdRsv, needRe, Clean, bv_eq, bt_eq, resv, rcode, excl, wrongTy, hL, Layout.at, Nat.mod_add_div]
  · refine back [(0, 5, g.toNat), (28, 4, 3), (21, 7, 3), (16, 5, ca.toNat), (11, 5, cb.toNat), (5, 1, 1), (6, 5, r.toNat)] [(0, 5), (28, 4), (21, 7), (16, 5), (11, 5), (5, 1), (6, 5)] (by rfl) rfl rfl ⟨BitVec.isLt _, by decide, by decide, BitVec.isLt _, BitVec.isLt _, by decide, BitVec.isLt _, trivial⟩ rfl fun x hL => ?_; change Clean _ _ (decCp x)
    simp (disch := decide) [decCp, repOf, cdRsv, needRe, Clean, bv_eq, bt_eq, resv, rcode, excl, wrongTy, hL, Layout.at, Nat.mod_add_div]
theorem nwStart (ca : BitVec 5) (cb : BitVec 5) (rep : Option (BitVec 5)) : Statement (.nwStart ca cb rep) := by
  rintro g arg hw ha p ⟨⟩
  obtain rfl := no_arg ha
  rcases rep with _ | r
  · refine back [(0, 5, g.toNat), (28, 4, 4), (21, 7, 1), (16, 5, ca.toNat), (11, 5, cb.toNat)] [(0, 5), (28, 4), (21, 7), (16, 5), (11, 5)] (by rfl) rfl rfl ⟨BitVec.isLt _, by decide, by decide, BitVec.isLt _, BitVec.isLt _, trivial⟩ rfl fun x hL => ?_; change Clean _ _ (decCp x)
    simp (disch := decide) [decCp, repOf, cdRsv, needRe, Clean, bv_eq, bt_eq, resv, rcode, excl, wrongTy, hL, Layout.at, Nat.mod_add_div]
  · refine back [(0, 5, g.toNat), (28, 4, 4), (21, 7, 1), (16, 5, ca.toNat), (11, 5, cb.toNat), (5, 1, 1), (6, 5, r.toNat)] [(0, 5), (28, 4), (21, 7), (16, 5), (11, 5), (5, 1), (6, 5)] (by rfl) rfl rfl ⟨BitVec.isLt _, by decide, by decide, BitVec.isLt _, BitVec.isLt _, by decide, BitVec.isLt _, trivial⟩ rfl fun x hL => ?_; change Clean _ _ (decCp x)
    simp (disch := decide) [decCp, repOf, cdRsv, needRe, Clean, bv_eq, bt_eq, resv, rcode, excl, wrongTy, hL, Layout.at, Nat.mod_add_div]
theorem cmAcc (ca : BitVec 5) (cb : BitVec 5) (rep : Option (BitVec 5)) : Statement (.cmAcc ca cb rep) := by
  rintro g arg hw ha p ⟨⟩
  obtain rfl := no_arg ha
  rcases rep with _ | r
  · refine back [(0, 5, g.toNat), (28, 4, 5), (21, 7, 1), (16, 5, ca.toNat), (11, 5, cb.toNat)] [(0, 5), (28, 4), (21, 7), (16, 5), (11, 5)] (by rfl) rfl rfl ⟨BitVec.isLt _, by decide, by decide, BitVec.isLt _, BitVec.isLt _, trivial⟩ rfl fun x hL => ?_; change Clean _ _ (decCp x)
    simp (disch := decide) [decCp, repOf, cdRsv, needRe, Clean, bv_eq, bt_eq, resv, rcode, excl, wrongTy, hL, Layout.at, Nat.mod_add_div]
  · refine back [(0, 5, g.toNat), (28, 4, 5), (21, 7, 1), (16, 5, ca.toNat), (11, 5, cb.toNat), (5, 1, 1), (6, 5, r.toNat)] [(0, 5), (28, 4), (21, 7), (16, 5), (11, 5), (5, 1), (6, 5)] (by rfl) rfl rfl ⟨BitVec.isLt _, by decide, by decide, BitVec.isLt _, BitVec.isLt _, by decide, BitVec.isLt _, trivial⟩ rfl fun x hL => ?_; change Clean _ _ (decCp x)
    simp (disch := decide) [decCp, repOf, cdRsv, needRe, Clean, bv_eq, bt_eq, resv, rcode, excl, wrongTy, hL, Layout.at, Nat.mod_add_div]
theorem cmEmit (ca : BitVec 5) (cb : BitVec 5) (rep : Option (BitVec 5)) : Statement (.cmEmit ca cb rep) := by
  rintro g arg hw ha p ⟨⟩
  obtain rfl := no_arg ha
  rcases rep with _ | r
  · refine back [(0, 5, g.toNat), (28, 4, 5), (21, 7, 2), (16, 5, ca.toNat), (11, 5, cb.toNat)] [(0, 5), (28, 4), (21, 7), (16, 5), (11, 5)] (by rfl) rfl rfl ⟨BitVec.isLt _, by decide, by decide, BitVec.isLt _, BitVec.isLt _, trivial⟩ rfl fun x hL => ?_; change Clean _ _ (decCp x)
    simp (disch := decide) [decCp, repOf, cdRsv, needRe, Clean, bv_eq, bt_eq, resv, rcode, excl, wrongTy, hL, Layout.at, Nat.mod_add_div]
  · refine back [(0, 5, g.toNat), (28, 4, 5), (21, 7, 2), (16, 5, ca.toNat), (11, 5, cb.toNat), (5, 1, 1), (6, 5, r.toNat)] [(0, 5), (28, 4), (21, 7), (16, 5), (11, 5), (5, 1), (6, 5)] (by rfl) rfl rfl ⟨BitVec.isLt _, by decide, by decide, BitVec.isLt _, BitVec.isLt _, by decide, BitVec.isLt _, trivial⟩ rfl fun x hL => ?_; change Clean _ _ (decCp x)
    simp (disch := decide) [decCp, repOf, cdRsv, needRe, Clean, bv_eq, bt_eq, resv, rcode, excl, wrongTy, hL, Layout.at, Nat.mod_add_div]
theorem cmTrim (ca : BitVec 5) (cb : BitVec 5) (rep : Option (BitVec 5)) : Statement (.cmTrim ca cb rep) := by
  rintro g arg hw ha p ⟨⟩
  obtain rfl := no_arg ha
  rcases rep with _ | r
  · refine back [(0, 5, g.toNat), (28, 4, 5), (21, 7, 3), (16, 5, ca.toNat), (11, 5, cb.toNat)] [(0, 5), (28, 4), (21, 7), (16, 5), (11, 5)] (by rfl) rfl rfl ⟨BitVec.isLt _, by decide, by decide, BitVec.isLt _, BitVec.isLt _, trivial⟩ rfl fun x hL => ?_; change Clean _ _ (decCp x)
    simp (disch := decide) [decCp, repOf, cdRsv, needRe, Clean, bv_eq, bt_eq, resv, rcode, excl, wrongTy, hL, Layout.at, Nat.mod_add_div]
  · refine back [(0, 5, g.toNat), (28, 4, 5), (21, 7, 3), (16, 5, ca.toNat), (11, 5, cb.toNat), (5, 1, 1), (6, 5, r.toNat)] [(0, 5), (28, 4), (21, 7), (16, 5), (11, 5), (5, 1), (6, 5)] (by rfl) rfl rfl ⟨BitVec.isLt _, by decide, by decide, BitVec.isLt _, BitVec.isLt _, by decide, BitVec.isLt _, trivial⟩ rfl fun x hL => ?_; change Clean _ _ (decCp x)
    simp (disch := decide) [decCp, repOf, cdRsv, needRe, Clean, bv_eq, bt_eq, resv, rcode, excl, wrongTy, hL, Layout.at, Nat.mod_add_div]
theorem fork (t : Addr) (pol : BitVec 2) : Statement (.fork t pol) := by
  rintro g arg hw ha p ⟨⟩
  obtain rfl := no_arg ha
  have hw' : (pol != 3) = true := hw
  simp [wfLevel, wfRm, wfNb, wfAdv, BitVec.toNat_eq] at hw'
  refine back [(37, 5, g.toNat), (42, 6, 24), (0, 32, t.toNat), (32, 2, pol.toNat)] [(37, 5), (42, 6), (0, 32), (32, 2)] (by rfl) rfl rfl ⟨BitVec.isLt _, by decide, BitVec.isLt _, BitVec.isLt _, trivial⟩ rfl fun x hL => ?_; change Clean _ _ (decCt x)
  simp (disch := decide) [decCt, badLevel, Clean, bv_eq, bt_eq, resv, rcode, excl, wrongTy, hL, Layout.at, Nat.mod_add_div] <;> first | omega | grind
theorem sync (s : BitVec 6) : Statement (.sync s) := by
  rintro g arg hw ha p ⟨⟩
  obtain rfl := no_arg ha
  refine back [(37, 5, g.toNat), (42, 6, 25), (0, 6, s.toNat)] [(37, 5), (42, 6), (0, 6)] (by rfl) rfl rfl ⟨BitVec.isLt _, by decide, BitVec.isLt _, trivial⟩ rfl fun x hL => ?_; change Clean _ _ (decCt x)
  simp (disch := decide) [decCt, badLevel, Clean, bv_eq, bt_eq, resv, rcode, excl, wrongTy, hL, Layout.at, Nat.mod_add_div]
theorem wake (t : Addr) (k : BitVec 3) (c : BitVec 2) : Statement (.wake t k c) := by
  rintro g arg hw ha p ⟨⟩
  obtain rfl := no_arg ha
  refine back [(37, 5, g.toNat), (42, 6, 27), (0, 32, t.toNat), (32, 3, k.toNat), (35, 2, c.toNat)] [(37, 5), (42, 6), (0, 32), (32, 3), (35, 2)] (by rfl) rfl rfl ⟨BitVec.isLt _, by decide, BitVec.isLt _, BitVec.isLt _, BitVec.isLt _, trivial⟩ rfl fun x hL => ?_; change Clean _ _ (decCt x)
  simp (disch := decide) [decCt, badLevel, Clean, bv_eq, bt_eq, resv, rcode, excl, wrongTy, hL, Layout.at, Nat.mod_add_div]
theorem trap (n : BitVec 16) : Statement (.trap n) := by
  rintro g arg hw ha p ⟨⟩
  obtain rfl := no_arg ha
  refine back [(37, 5, g.toNat), (42, 6, 48), (0, 16, n.toNat)] [(37, 5), (42, 6), (0, 16)] (by rfl) rfl rfl ⟨BitVec.isLt _, by decide, BitVec.isLt _, trivial⟩ rfl fun x hL => ?_; change Clean _ _ (decCt x)
  simp (disch := decide) [decCt, badLevel, Clean, bv_eq, bt_eq, resv, rcode, excl, wrongTy, hL, Layout.at, Nat.mod_add_div]
theorem rfe (s : Option (BitVec 6)) : Statement (.rfe s) := by
  rcases s with _ | s
  · rintro g arg hw ha p ⟨⟩
    obtain rfl := no_arg ha
    refine back [(37, 5, g.toNat), (42, 6, 49)] [(37, 5), (42, 6)] (by rfl) rfl rfl ⟨BitVec.isLt _, by decide, trivial⟩ rfl fun x hL => ?_; change Clean _ _ (decCt x)
    simp (disch := decide) [decCt, Clean, bv_eq, bt_eq, resv, rcode, excl, wrongTy, hL, Layout.at, Nat.mod_add_div]
  · rintro g arg hw ha p ⟨⟩
    obtain rfl := no_arg ha
    refine back [(37, 5, g.toNat), (42, 6, 49), (0, 1, 1), (1, 6, s.toNat)] [(37, 5), (42, 6), (0, 1), (1, 6)] (by rfl) rfl rfl ⟨BitVec.isLt _, by decide, by decide, BitVec.isLt _, trivial⟩ rfl fun x hL => ?_; change Clean _ _ (decCt x)
    simp (disch := decide) [decCt, Clean, bv_eq, bt_eq, resv, rcode, excl, wrongTy, hL, Layout.at, Nat.mod_add_div]
theorem sys (n : BitVec 16) : Statement (.sys n) := by
  rintro g arg hw ha p ⟨⟩
  obtain rfl := no_arg ha
  refine back [(37, 5, g.toNat), (42, 6, 50), (0, 16, n.toNat)] [(37, 5), (42, 6), (0, 16)] (by rfl) rfl rfl ⟨BitVec.isLt _, by decide, BitVec.isLt _, trivial⟩ rfl fun x hL => ?_; change Clean _ _ (decCt x)
  simp (disch := decide) [decCt, badLevel, Clean, bv_eq, bt_eq, resv, rcode, excl, wrongTy, hL, Layout.at, Nat.mod_add_div]
theorem kill (s : BitVec 6) : Statement (.kill s) := by
  rintro g arg hw ha p ⟨⟩
  obtain rfl := no_arg ha
  refine back [(37, 5, g.toNat), (42, 6, 51), (0, 6, s.toNat)] [(37, 5), (42, 6), (0, 6)] (by rfl) rfl rfl ⟨BitVec.isLt _, by decide, BitVec.isLt _, trivial⟩ rfl fun x hL => ?_; change Clean _ _ (decCt x)
  simp (disch := decide) [decCt, badLevel, Clean, bv_eq, bt_eq, resv, rcode, excl, wrongTy, hL, Layout.at, Nat.mod_add_div]
theorem tlbInvAll (dev : Bool) : Statement (.tlbInvAll dev) := by
  rintro g arg hw ha p ⟨⟩
  obtain rfl := no_arg ha
  refine back [(37, 5, g.toNat), (42, 6, 52), (12, 1, dev.toNat)] [(37, 5), (42, 6), (12, 1)] (by rfl) rfl rfl ⟨BitVec.isLt _, by decide, bool_lt _, trivial⟩ rfl fun x hL => ?_; change Clean _ _ (decCt x)
  simp (disch := decide) [decCt, badLevel, Clean, bv_eq, bt_eq, resv, rcode, excl, wrongTy, hL, Layout.at, Nat.mod_add_div]
theorem tlbInvFn (f : BitVec 4) (dev : Bool) : Statement (.tlbInvFn f dev) := by
  rintro g arg hw ha p ⟨⟩
  obtain rfl := no_arg ha
  have hw' : (decide (f.toNat ≤ 8)) = true := hw
  simp [wfLevel, wfRm, wfNb, wfAdv, BitVec.toNat_eq] at hw'
  refine back [(37, 5, g.toNat), (42, 6, 52), (0, 2, 1), (2, 4, f.toNat), (12, 1, dev.toNat)] [(37, 5), (42, 6), (0, 2), (2, 4), (12, 1)] (by rfl) rfl rfl ⟨BitVec.isLt _, by decide, by decide, BitVec.isLt _, bool_lt _, trivial⟩ rfl fun x hL => ?_; change Clean _ _ (decCt x)
  simp (disch := decide) [decCt, badLevel, Clean, bv_eq, bt_eq, resv, rcode, excl, wrongTy, hL, Layout.at, Nat.mod_add_div] <;> first | omega | grind
theorem tlbInvPg (s : BitVec 6) (f : BitVec 4) (dev : Bool) : Statement (.tlbInvPg s f dev) := by
  rintro g arg hw ha p ⟨⟩
  obtain rfl := no_arg ha
  have hw' : (decide (f.toNat ≤ 8)) = true := hw
  simp [wfLevel, wfRm, wfNb, wfAdv, BitVec.toNat_eq] at hw'
  refine back [(37, 5, g.toNat), (42, 6, 52), (0, 2, 2), (2, 4, f.toNat), (6, 6, s.toNat), (12, 1, dev.toNat)] [(37, 5), (42, 6), (0, 2), (2, 4), (6, 6), (12, 1)] (by rfl) rfl rfl ⟨BitVec.isLt _, by decide, by decide, BitVec.isLt _, BitVec.isLt _, bool_lt _, trivial⟩ rfl fun x hL => ?_; change Clean _ _ (decCt x)
  simp (disch := decide) [decCt, badLevel, Clean, bv_eq, bt_eq, resv, rcode, excl, wrongTy, hL, Layout.at, Nat.mod_add_div] <;> first | omega | grind
theorem pgret (s : BitVec 6) (d : BitVec 6) : Statement (.pgret s d) := by
  rintro g arg hw ha p ⟨⟩
  obtain rfl := no_arg ha
  refine back [(37, 5, g.toNat), (42, 6, 53), (0, 6, s.toNat), (6, 6, d.toNat)] [(37, 5), (42, 6), (0, 6), (6, 6)] (by rfl) rfl rfl ⟨BitVec.isLt _, by decide, BitVec.isLt _, BitVec.isLt _, trivial⟩ rfl fun x hL => ?_; change Clean _ _ (decCt x)
  simp (disch := decide) [decCt, badLevel, Clean, bv_eq, bt_eq, resv, rcode, excl, wrongTy, hL, Layout.at, Nat.mod_add_div]
theorem wayq (s : BitVec 6) (d : BitVec 6) : Statement (.wayq s d) := by
  rintro g arg hw ha p ⟨⟩
  obtain rfl := no_arg ha
  refine back [(37, 5, g.toNat), (42, 6, 54), (0, 6, s.toNat), (6, 6, d.toNat), (12, 1, 1)] [(37, 5), (42, 6), (0, 6), (6, 6), (12, 1)] (by rfl) rfl rfl ⟨BitVec.isLt _, by decide, BitVec.isLt _, BitVec.isLt _, by decide, trivial⟩ rfl fun x hL => ?_; change Clean _ _ (decCt x)
  simp (disch := decide) [decCt, badLevel, Clean, bv_eq, bt_eq, resv, rcode, excl, wrongTy, hL, Layout.at, Nat.mod_add_div]
theorem wayqRel (s : BitVec 6) (d : BitVec 6) : Statement (.wayqRel s d) := by
  rintro g arg hw ha p ⟨⟩
  obtain rfl := no_arg ha
  refine back [(37, 5, g.toNat), (42, 6, 54), (0, 6, s.toNat), (6, 6, d.toNat)] [(37, 5), (42, 6), (0, 6), (6, 6)] (by rfl) rfl rfl ⟨BitVec.isLt _, by decide, BitVec.isLt _, BitVec.isLt _, trivial⟩ rfl fun x hL => ?_; change Clean _ _ (decCt x)
  simp (disch := decide) [decCt, badLevel, Clean, bv_eq, bt_eq, resv, rcode, excl, wrongTy, hL, Layout.at, Nat.mod_add_div]
theorem hold (s : BitVec 6) : Statement (.hold s) := by
  rintro g arg hw ha p ⟨⟩
  obtain rfl := no_arg ha
  refine back [(37, 5, g.toNat), (42, 6, 55), (0, 6, s.toNat), (6, 1, 1)] [(37, 5), (42, 6), (0, 6), (6, 1)] (by rfl) rfl rfl ⟨BitVec.isLt _, by decide, BitVec.isLt _, by decide, trivial⟩ rfl fun x hL => ?_; change Clean _ _ (decCt x)
  simp (disch := decide) [decCt, badLevel, Clean, bv_eq, bt_eq, resv, rcode, excl, wrongTy, hL, Layout.at, Nat.mod_add_div]
theorem holdRel (s : BitVec 6) : Statement (.holdRel s) := by
  rintro g arg hw ha p ⟨⟩
  obtain rfl := no_arg ha
  refine back [(37, 5, g.toNat), (42, 6, 55), (0, 6, s.toNat)] [(37, 5), (42, 6), (0, 6)] (by rfl) rfl rfl ⟨BitVec.isLt _, by decide, BitVec.isLt _, trivial⟩ rfl fun x hL => ?_; change Clean _ _ (decCt x)
  simp (disch := decide) [decCt, badLevel, Clean, bv_eq, bt_eq, resv, rcode, excl, wrongTy, hL, Layout.at, Nat.mod_add_div]
theorem skippedBundle : Statement (.skippedBundle) := by exact fun _ _ _ _ _ h => nomatch h
theorem ctNop : Statement (.ctNop) := by exact fun _ _ _ _ _ h => nomatch h
theorem ret : Statement (.ret) := by
  rintro g arg hw ha p ⟨⟩
  obtain rfl := no_arg ha
  refine back [(37, 5, g.toNat), (42, 6, 5)] [(37, 5), (42, 6)] (by rfl) rfl rfl ⟨BitVec.isLt _, by decide, trivial⟩ rfl fun x hL => ?_; change Clean _ _ (decCt x)
  simp (disch := decide) [decCt, badLevel, Clean, bv_eq, bt_eq, resv, rcode, excl, wrongTy, hL, Layout.at, Nat.mod_add_div]
theorem halt : Statement (.halt) := by
  rintro g arg hw ha p ⟨⟩
  obtain rfl := no_arg ha
  refine back [(37, 5, g.toNat), (42, 6, 13)] [(37, 5), (42, 6)] (by rfl) rfl rfl ⟨BitVec.isLt _, by decide, trivial⟩ rfl fun x hL => ?_; change Clean _ _ (decCt x)
  simp (disch := decide) [decCt, badLevel, Clean, bv_eq, bt_eq, resv, rcode, excl, wrongTy, hL, Layout.at, Nat.mod_add_div]
theorem cqFlush : Statement (.cqFlush) := by
  rintro g arg hw ha p ⟨⟩
  obtain rfl := no_arg ha
  refine back [(37, 5, g.toNat), (42, 6, 18)] [(37, 5), (42, 6)] (by rfl) rfl rfl ⟨BitVec.isLt _, by decide, trivial⟩ rfl fun x hL => ?_; change Clean _ _ (decCt x)
  simp (disch := decide) [decCt, badLevel, Clean, bv_eq, bt_eq, resv, rcode, excl, wrongTy, hL, Layout.at, Nat.mod_add_div]
theorem wdog : Statement (.wdog) := by
  rintro g arg hw ha p ⟨⟩
  obtain rfl := no_arg ha
  refine back [(37, 5, g.toNat), (42, 6, 20)] [(37, 5), (42, 6)] (by rfl) rfl rfl ⟨BitVec.isLt _, by decide, trivial⟩ rfl fun x hL => ?_; change Clean _ _ (decCt x)
  simp (disch := decide) [decCt, badLevel, Clean, bv_eq, bt_eq, resv, rcode, excl, wrongTy, hL, Layout.at, Nat.mod_add_div]
theorem scNop : Statement (.scNop) := by exact fun _ _ _ _ _ h => nomatch h
theorem vNop : Statement (.vNop) := by exact fun _ _ _ _ _ h => nomatch h
theorem ldNop : Statement (.ldNop) := by exact fun _ _ _ _ _ h => nomatch h
theorem stNop : Statement (.stNop) := by exact fun _ _ _ _ _ h => nomatch h
theorem syNop : Statement (.syNop) := by exact fun _ _ _ _ _ h => nomatch h
theorem xfNop : Statement (.xfNop) := by exact fun _ _ _ _ _ h => nomatch h
theorem xfColClr : Statement (.xfColClr) := by
  rintro g arg hw ha p ⟨⟩
  obtain rfl := no_arg ha
  refine back [(21, 5, g.toNat), (26, 6, 7), (12, 2, 3)] [(21, 5), (26, 6), (12, 2)] (by rfl) rfl rfl ⟨BitVec.isLt _, by decide, by decide, trivial⟩ rfl fun x hL => ?_; change Clean _ _ (decXf x)
  simp (disch := decide) [decXf, badRm, Clean, bv_eq, bt_eq, resv, rcode, excl, wrongTy, hL, Layout.at, Nat.mod_add_div]
theorem rdNop : Statement (.rdNop) := by exact fun _ _ _ _ _ h => nomatch h
theorem mxNop : Statement (.mxNop) := by exact fun _ _ _ _ _ h => nomatch h
theorem mwait : Statement (.mwait) := by
  rintro g arg hw ha p ⟨⟩
  obtain rfl := no_arg ha
  refine back [(37, 5, g.toNat), (42, 6, 8)] [(37, 5), (42, 6)] (by rfl) rfl rfl ⟨BitVec.isLt _, by decide, trivial⟩ rfl fun x hL => ?_; change Clean _ _ (decMx x)
  simp (disch := decide) [decMx, badT, noDist, noFlags, Clean, bv_eq, bt_eq, resv, rcode, excl, wrongTy, hL, Layout.at, Nat.mod_add_div]
theorem rwSup : Statement (.rwSup) := by
  rintro g arg hw ha p ⟨⟩
  obtain rfl := no_arg ha
  refine back [(37, 5, g.toNat), (42, 6, 33)] [(37, 5), (42, 6)] (by rfl) rfl rfl ⟨BitVec.isLt _, by decide, trivial⟩ rfl fun x hL => ?_; change Clean _ _ (decMx x)
  simp (disch := decide) [decMx, badT, noDist, noFlags, Clean, bv_eq, bt_eq, resv, rcode, excl, wrongTy, hL, Layout.at, Nat.mod_add_div]
theorem rwEn : Statement (.rwEn) := by
  rintro g arg hw ha p ⟨⟩
  obtain rfl := no_arg ha
  refine back [(37, 5, g.toNat), (42, 6, 33)] [(37, 5), (42, 6)] (by rfl) rfl rfl ⟨BitVec.isLt _, by decide, trivial⟩ rfl fun x hL => ?_; change Clean _ _ (decCt x)
  simp (disch := decide) [decCt, badLevel, Clean, bv_eq, bt_eq, resv, rcode, excl, wrongTy, hL, Layout.at, Nat.mod_add_div]
theorem rwDis : Statement (.rwDis) := by
  rintro g arg hw ha p ⟨⟩
  obtain rfl := no_arg ha
  refine back [(37, 5, g.toNat), (42, 6, 34)] [(37, 5), (42, 6)] (by rfl) rfl rfl ⟨BitVec.isLt _, by decide, trivial⟩ rfl fun x hL => ?_; change Clean _ _ (decCt x)
  simp (disch := decide) [decCt, badLevel, Clean, bv_eq, bt_eq, resv, rcode, excl, wrongTy, hL, Layout.at, Nat.mod_add_div]
theorem rwInvAll : Statement (.rwInvAll) := by
  rintro g arg hw ha p ⟨⟩
  obtain rfl := no_arg ha
  refine back [(37, 5, g.toNat), (42, 6, 35), (6, 1, 1)] [(37, 5), (42, 6), (6, 1)] (by rfl) rfl rfl ⟨BitVec.isLt _, by decide, by decide, trivial⟩ rfl fun x hL => ?_; change Clean _ _ (decCt x)
  simp (disch := decide) [decCt, badLevel, Clean, bv_eq, bt_eq, resv, rcode, excl, wrongTy, hL, Layout.at, Nat.mod_add_div]
theorem cpNop : Statement (.cpNop) := by exact fun _ _ _ _ _ h => nomatch h
theorem cpyClr : Statement (.cpyClr) := by
  rintro g arg hw ha p ⟨⟩
  obtain rfl := no_arg ha
  refine back [(0, 5, g.toNat), (28, 4, 0), (21, 7, 10), (16, 5, 0), (11, 5, 0)] [(0, 5), (28, 4), (21, 7), (16, 5), (11, 5)] (by rfl) rfl rfl ⟨BitVec.isLt _, by decide, by decide, by decide, by decide, trivial⟩ rfl fun x hL => ?_; change Clean _ _ (decCp x)
  simp (disch := decide) [decCp, repOf, cdRsv, needRe, Clean, bv_eq, bt_eq, resv, rcode, excl, wrongTy, hL, Layout.at, Nat.mod_add_div]
theorem binderyInitDone : Statement (.binderyInitDone) := by exact fun _ _ _ _ _ h => nomatch h
theorem sleep : Statement (.sleep) := by
  rintro g arg hw ha p ⟨⟩
  obtain rfl := no_arg ha
  refine back [(37, 5, g.toNat), (42, 6, 26)] [(37, 5), (42, 6)] (by rfl) rfl rfl ⟨BitVec.isLt _, by decide, trivial⟩ rfl fun x hL => ?_; change Clean _ _ (decCt x)
  simp (disch := decide) [decCt, badLevel, Clean, bv_eq, bt_eq, resv, rcode, excl, wrongTy, hL, Layout.at, Nat.mod_add_div]
theorem hintNext : Statement (.hintNext) := by
  rintro g arg hw ha p ⟨⟩
  obtain rfl := no_arg ha
  refine back [(37, 5, g.toNat), (42, 6, 28)] [(37, 5), (42, 6)] (by rfl) rfl rfl ⟨BitVec.isLt _, by decide, trivial⟩ rfl fun x hL => ?_; change Clean _ _ (decCt x)
  simp (disch := decide) [decCt, badLevel, Clean, bv_eq, bt_eq, resv, rcode, excl, wrongTy, hL, Layout.at, Nat.mod_add_div]
theorem waitPred : Statement (.waitPred) := by
  rintro g arg hw ha p ⟨⟩
  obtain rfl := no_arg ha
  refine back [(37, 5, g.toNat), (42, 6, 29)] [(37, 5), (42, 6)] (by rfl) rfl rfl ⟨BitVec.isLt _, by decide, trivial⟩ rfl fun x hL => ?_; change Clean _ _ (decCt x)
  simp (disch := decide) [decCt, badLevel, Clean, bv_eq, bt_eq, resv, rcode, excl, wrongTy, hL, Layout.at, Nat.mod_add_div]
theorem imgGo : Statement (.imgGo) := by exact fun _ _ _ _ _ h => nomatch h
theorem imageInstallDone : Statement (.imageInstallDone) := by exact fun _ _ _ _ _ h => nomatch h
theorem secRaiseMeasured : Statement (.secRaiseMeasured) := by exact fun _ _ _ _ _ h => nomatch h
theorem secRaiseSealed : Statement (.secRaiseSealed) := by exact fun _ _ _ _ _ h => nomatch h
theorem dbgReqNone : Statement (.dbgReqNone) := by exact fun _ _ _ _ _ h => nomatch h
theorem pwrReqRun : Statement (.pwrReqRun) := by exact fun _ _ _ _ _ h => nomatch h
theorem pwrReqSlow : Statement (.pwrReqSlow) := by exact fun _ _ _ _ _ h => nomatch h
theorem pwrReqIdle : Statement (.pwrReqIdle) := by exact fun _ _ _ _ _ h => nomatch h
theorem pwrReqPark : Statement (.pwrReqPark) := by exact fun _ _ _ _ _ h => nomatch h
theorem idleEntry : Statement (.idleEntry) := by exact fun _ _ _ _ _ h => nomatch h
theorem idleWakeAccess : Statement (.idleWakeAccess) := by exact fun _ _ _ _ _ h => nomatch h
theorem powerOn : Statement (.powerOn) := by exact fun _ _ _ _ _ h => nomatch h
theorem powerLoss : Statement (.powerLoss) := by exact fun _ _ _ _ _ h => nomatch h
theorem bndCtlEnWrite : Statement (.bndCtlEnWrite) := by exact fun _ _ _ _ _ h => nomatch h
theorem spdmGetVersion : Statement (.spdmGetVersion) := by exact fun _ _ _ _ _ h => nomatch h
theorem spdmGetCapabilities : Statement (.spdmGetCapabilities) := by exact fun _ _ _ _ _ h => nomatch h
theorem spdmNegotiateAlgorithms : Statement (.spdmNegotiateAlgorithms) := by exact fun _ _ _ _ _ h => nomatch h
theorem spdmGetDigests : Statement (.spdmGetDigests) := by exact fun _ _ _ _ _ h => nomatch h
theorem spdmGetCertificate : Statement (.spdmGetCertificate) := by exact fun _ _ _ _ _ h => nomatch h
theorem spdmChallenge : Statement (.spdmChallenge) := by exact fun _ _ _ _ _ h => nomatch h
theorem spdmGetMeasurements : Statement (.spdmGetMeasurements) := by exact fun _ _ _ _ _ h => nomatch h
theorem spdmKeyExchange : Statement (.spdmKeyExchange) := by exact fun _ _ _ _ _ h => nomatch h
theorem spdmFinish : Statement (.spdmFinish) := by exact fun _ _ _ _ _ h => nomatch h
theorem spdmEndSession : Statement (.spdmEndSession) := by exact fun _ _ _ _ _ h => nomatch h
theorem cpyQ : Statement (.cpyQ) := by
  rintro g arg hw ha p ⟨⟩
  obtain ⟨u, v, rfl, hu, hv⟩ := two_args (b := 32) ha
  refine back [(0, 5, g.toNat), (28, 4, 0), (21, 7, 11), (16, 5, u), (5, 1, 1), (6, 5, v)] [(0, 5), (28, 4), (21, 7), (16, 5), (5, 1), (6, 5)] (by rfl) rfl rfl ⟨BitVec.isLt _, by decide, by decide, (by omega : u < 2 ^ 5), by decide, (by omega : v < 2 ^ 5), trivial⟩ rfl fun x hL => ?_; change Clean _ _ (decCp x)
  simp (disch := decide) [decCp, repOf, cdRsv, needRe, Clean, bv_eq, bt_eq, resv, rcode, excl, wrongTy, hL, Layout.at, Nat.mod_add_div]
theorem frStatOp : Statement (.frStatOp) := by
  rintro g arg hw ha p ⟨⟩
  obtain ⟨u, v, rfl, hu, hv⟩ := two_args (b := 32) ha
  refine back [(0, 5, g.toNat), (28, 4, 1), (21, 7, 11), (16, 5, u), (5, 1, 1), (6, 5, v)] [(0, 5), (28, 4), (21, 7), (16, 5), (5, 1), (6, 5)] (by rfl) rfl rfl ⟨BitVec.isLt _, by decide, by decide, (by omega : u < 2 ^ 5), by decide, (by omega : v < 2 ^ 5), trivial⟩ rfl fun x hL => ?_; change Clean _ _ (decCp x)
  simp (disch := decide) [decCp, repOf, cdRsv, needRe, Clean, bv_eq, bt_eq, resv, rcode, excl, wrongTy, hL, Layout.at, Nat.mod_add_div]
theorem frStatSession : Statement (.frStatSession) := by exact fun _ _ _ _ _ h => nomatch h
theorem frStatBanks : Statement (.frStatBanks) := by exact fun _ _ _ _ _ h => nomatch h
theorem frStatClear : Statement (.frStatClear) := by exact fun _ _ _ _ _ h => nomatch h
theorem smpStatQuery : Statement (.smpStatQuery) := by
  rintro g arg hw ha p ⟨⟩
  obtain ⟨u, v, rfl, hu, hv⟩ := two_args (b := 32) ha
  refine back [(0, 5, g.toNat), (28, 4, 3), (21, 7, 4), (16, 5, u), (5, 1, 1), (6, 5, v)] [(0, 5), (28, 4), (21, 7), (16, 5), (5, 1), (6, 5)] (by rfl) rfl rfl ⟨BitVec.isLt _, by decide, by decide, (by omega : u < 2 ^ 5), by decide, (by omega : v < 2 ^ 5), trivial⟩ rfl fun x hL => ?_; change Clean _ _ (decCp x)
  simp (disch := decide) [decCp, repOf, cdRsv, needRe, Clean, bv_eq, bt_eq, resv, rcode, excl, wrongTy, hL, Layout.at, Nat.mod_add_div]
theorem smpStatClear : Statement (.smpStatClear) := by exact fun _ _ _ _ _ h => nomatch h
theorem nwStatQuery : Statement (.nwStatQuery) := by
  rintro g arg hw ha p ⟨⟩
  obtain ⟨u, v, rfl, hu, hv⟩ := two_args (b := 32) ha
  refine back [(0, 5, g.toNat), (28, 4, 4), (21, 7, 2), (16, 5, u), (5, 1, 1), (6, 5, v)] [(0, 5), (28, 4), (21, 7), (16, 5), (5, 1), (6, 5)] (by rfl) rfl rfl ⟨BitVec.isLt _, by decide, by decide, (by omega : u < 2 ^ 5), by decide, (by omega : v < 2 ^ 5), trivial⟩ rfl fun x hL => ?_; change Clean _ _ (decCp x)
  simp (disch := decide) [decCp, repOf, cdRsv, needRe, Clean, bv_eq, bt_eq, resv, rcode, excl, wrongTy, hL, Layout.at, Nat.mod_add_div]
theorem nwStatClear : Statement (.nwStatClear) := by exact fun _ _ _ _ _ h => nomatch h
theorem cmStatQuery : Statement (.cmStatQuery) := by
  rintro g arg hw ha p ⟨⟩
  obtain ⟨u, v, rfl, hu, hv⟩ := two_args (b := 32) ha
  refine back [(0, 5, g.toNat), (28, 4, 5), (21, 7, 4), (16, 5, u), (5, 1, 1), (6, 5, v)] [(0, 5), (28, 4), (21, 7), (16, 5), (5, 1), (6, 5)] (by rfl) rfl rfl ⟨BitVec.isLt _, by decide, by decide, (by omega : u < 2 ^ 5), by decide, (by omega : v < 2 ^ 5), trivial⟩ rfl fun x hL => ?_; change Clean _ _ (decCp x)
  simp (disch := decide) [decCp, repOf, cdRsv, needRe, Clean, bv_eq, bt_eq, resv, rcode, excl, wrongTy, hL, Layout.at, Nat.mod_add_div]
theorem cmStatClear : Statement (.cmStatClear) := by exact fun _ _ _ _ _ h => nomatch h
theorem spawnStat : Statement (.spawnStat) := by
  rintro g arg hw ha p ⟨⟩
  obtain ⟨u, rfl, hu⟩ := one_arg (b := 64) ha
  refine back [(37, 5, g.toNat), (42, 6, 30), (0, 6, u)] [(37, 5), (42, 6), (0, 6)] (by rfl) rfl rfl ⟨BitVec.isLt _, by decide, (by omega : u < 2 ^ 6), trivial⟩ rfl fun x hL => ?_; change Clean _ _ (decCt x)
  simp (disch := decide) [decCt, badLevel, Clean, bv_eq, bt_eq, resv, rcode, excl, wrongTy, hL, Layout.at, Nat.mod_add_div]
theorem resultLanding : Statement (.resultLanding) := by exact fun _ _ _ _ _ h => nomatch h
theorem runWatchdogExpiry : Statement (.runWatchdogExpiry) := by exact fun _ _ _ _ _ h => nomatch h
theorem systemWatchdogExpiry : Statement (.systemWatchdogExpiry) := by exact fun _ _ _ _ _ h => nomatch h
theorem trapEntry : Statement (.trapEntry) := by exact fun _ _ _ _ _ h => nomatch h
theorem contextBecomesReady : Statement (.contextBecomesReady) := by exact fun _ _ _ _ _ h => nomatch h
theorem bankPreparation : Statement (.bankPreparation) := by exact fun _ _ _ _ _ h => nomatch h
theorem ldgRowArrival : Statement (.ldgRowArrival) := by exact fun _ _ _ _ _ h => nomatch h
theorem postedWritePerform : Statement (.postedWritePerform) := by exact fun _ _ _ _ _ h => nomatch h
theorem atomicReturn : Statement (.atomicReturn) := by exact fun _ _ _ _ _ h => nomatch h
theorem translationWalkComplete : Statement (.translationWalkComplete) := by exact fun _ _ _ _ _ h => nomatch h
theorem l1Eviction : Statement (.l1Eviction) := by exact fun _ _ _ _ _ h => nomatch h
theorem sectorFetch : Statement (.sectorFetch) := by exact fun _ _ _ _ _ h => nomatch h
theorem dnEscapeTimeout : Statement (.dnEscapeTimeout) := by exact fun _ _ _ _ _ h => nomatch h
theorem barrierUpdate : Statement (.barrierUpdate) := by exact fun _ _ _ _ _ h => nomatch h
theorem cellPlaneLoad : Statement (.cellPlaneLoad) := by exact fun _ _ _ _ _ h => nomatch h
theorem matrixQueueComplete : Statement (.matrixQueueComplete) := by exact fun _ _ _ _ _ h => nomatch h
theorem copyCommandStart : Statement (.copyCommandStart) := by exact fun _ _ _ _ _ h => nomatch h
theorem copyBeat : Statement (.copyBeat) := by exact fun _ _ _ _ _ h => nomatch h
theorem copyCommandComplete : Statement (.copyCommandComplete) := by exact fun _ _ _ _ _ h => nomatch h
theorem streamRow : Statement (.streamRow) := by exact fun _ _ _ _ _ h => nomatch h
theorem circuitRowSend : Statement (.circuitRowSend) := by exact fun _ _ _ _ _ h => nomatch h
theorem circuitRowLanding : Statement (.circuitRowLanding) := by exact fun _ _ _ _ _ h => nomatch h
theorem arrivalHandlerStart : Statement (.arrivalHandlerStart) := by exact fun _ _ _ _ _ h => nomatch h
theorem binderyCommandStart : Statement (.binderyCommandStart) := by exact fun _ _ _ _ _ h => nomatch h
theorem binderyCommandComplete : Statement (.binderyCommandComplete) := by exact fun _ _ _ _ _ h => nomatch h
theorem rotationCommand : Statement (.rotationCommand) := by exact fun _ _ _ _ _ h => nomatch h
theorem scanCommandStart : Statement (.scanCommandStart) := by exact fun _ _ _ _ _ h => nomatch h
theorem scanCommandComplete : Statement (.scanCommandComplete) := by exact fun _ _ _ _ _ h => nomatch h
theorem generationCommandStart : Statement (.generationCommandStart) := by exact fun _ _ _ _ _ h => nomatch h
theorem generationCommandComplete : Statement (.generationCommandComplete) := by exact fun _ _ _ _ _ h => nomatch h
theorem trimMessageLanding : Statement (.trimMessageLanding) := by exact fun _ _ _ _ _ h => nomatch h
theorem spawnStart : Statement (.spawnStart) := by exact fun _ _ _ _ _ h => nomatch h
theorem childCompletion : Statement (.childCompletion) := by exact fun _ _ _ _ _ h => nomatch h
theorem overflowEntryMove : Statement (.overflowEntryMove) := by exact fun _ _ _ _ _ h => nomatch h
theorem preemption : Statement (.preemption) := by exact fun _ _ _ _ _ h => nomatch h
theorem preemptionRestore : Statement (.preemptionRestore) := by exact fun _ _ _ _ _ h => nomatch h
theorem softErrorCorrected : Statement (.softErrorCorrected) := by exact fun _ _ _ _ _ h => nomatch h
theorem ueCleanStackLine : Statement (.ueCleanStackLine) := by exact fun _ _ _ _ _ h => nomatch h
theorem ueLpddr6 : Statement (.ueLpddr6) := by exact fun _ _ _ _ _ h => nomatch h
theorem ueCoreSram : Statement (.ueCoreSram) := by exact fun _ _ _ _ _ h => nomatch h
theorem ueDirtyStackLine : Statement (.ueDirtyStackLine) := by exact fun _ _ _ _ _ h => nomatch h
theorem ueOwnerMessage : Statement (.ueOwnerMessage) := by exact fun _ _ _ _ _ h => nomatch h
theorem launchRecord : Statement (.launchRecord) := by exact fun _ _ _ _ _ h => nomatch h
theorem taskPlacement : Statement (.taskPlacement) := by exact fun _ _ _ _ _ h => nomatch h
theorem kernelCompletion : Statement (.kernelCompletion) := by exact fun _ _ _ _ _ h => nomatch h
theorem hostBar2Write : Statement (.hostBar2Write) := by exact fun _ _ _ _ _ h => nomatch h
theorem peerAccess : Statement (.peerAccess) := by exact fun _ _ _ _ _ h => nomatch h
theorem dbgReqObserve : Statement (.dbgReqObserve) := by exact fun _ _ _ _ _ h => nomatch h
theorem dbgReqInvasive : Statement (.dbgReqInvasive) := by exact fun _ _ _ _ _ h => nomatch h
theorem unitReady : Statement (.unitReady) := by exact fun _ _ _ _ _ h => nomatch h
theorem circEnWrite : Statement (.circEnWrite) := by exact fun _ _ _ _ _ h => nomatch h
theorem errstsClear : Statement (.errstsClear) := by exact fun _ _ _ _ _ h => nomatch h
theorem registerWrite : Statement (.registerWrite) := by exact fun _ _ _ _ _ h => nomatch h
theorem debugHaltRequest : Statement (.debugHaltRequest) := by exact fun _ _ _ _ _ h => nomatch h
theorem ideKmRequest : Statement (.ideKmRequest) := by exact fun _ _ _ _ _ h => nomatch h

end Sys2Proof.Laws.RoundTrip
end

