-- ==== Sys2Proof/Safety.lean ====
section
/-! DEFINITION. The terms the claims are made in: an operation that issues by itself and the state it meets, what a bundle
with given results and effects leaves behind, the results kept for a context, and what counts as a sound state. -/

namespace Sys2Proof.Machine

/-! ### One operation by itself (R22, R89, R92) -/

/-- An operation under the guard that always holds, as a bundle of its own. -/
def State.solo (s : State) (sl : Slot) (i : Instr) : SOp := { slot := sl, g := 0, i := i, arg := s.arg }

/-- The state such an operation decides in: the waits of its context are over, and the results due at its bundle have
landed (R89). -/
def State.meets (s : State) (sl : Slot) (i : Instr) : State :=
  openIssue s s.ik s.ij (soloWord (s.solo sl i)) (if wantsLit i then some (s.iss.lit.getD 0) else none) false

/-- The operation may issue by itself on the context the state names: no bundle is in progress; the context may issue; a
system instruction finds system privilege (R421); every register it names lies in the demand of the task (R380). -/
def State.mayIssue (s : State) (sl : Slot) (i : Instr) : Bool :=
  !s.iss.opn && canIssue s s.ik s.ij && (!isSystem i || (s.meets sl i).ix.privileged) &&
  (bankFaults (s.meets sl i).ix [s.solo sl i]).isNone

/-- The state after a bundle whose operation gave these results and these effects. -/
def State.after (s : State) (sl : Slot) (i : Instr) (ws : List Wr) (acts : List Act) : State :=
  let m := s.meets sl i
  commit { m with iss := { core := m.ik, ctx := m.ij } } { m.iss with wrs := ws, acts := acts }

/-- The operation executes: a next state, in which its bundle has taken effect with these results and effects. -/
def Completes (s : State) (sl : Slot) (i : Instr) (ws : List Wr) (acts : List Act) : Prop :=
  exec i s = .next (s.after sl i ws acts)

/-- The state after a bundle that traps (R7, R423). -/
def State.trapped (s : State) (sl : Slot) (i : Instr) (t : TrapReq) : State :=
  let m := s.meets sl i
  trapTake { m with iss := { core := m.ik, ctx := m.ij } } m.ik m.ij
    { req := if t.insn = 0 then { t with insn := fieldOf m.iss.word t.slot } else t, bpc := m.ix.ctl.pc, rpc := m.ix.ctl.pc,
      sec := m.iss.sec }

/-- The operation traps: a next state, in which its bundle has had no effect and the trap is taken. -/
def Traps (s : State) (sl : Slot) (i : Instr) (t : TrapReq) : Prop := exec i s = .next (s.trapped sl i t)

/-! ### Results (R89, R90) -/

/-- A result for the low w bits of a register, at its position lat bundles on. -/
def wholeWr (d : Dest) (w v lat : Nat) (port : Port := .owner) : Wr :=
  { dest := d, mask := row (2 ^ w - 1), val := row v, lat := lat, port := port }

/-- A result for the lanes of width e of a vector register that the mask of the operation selects (R145). -/
def lanesWr (m : State) (h : VH) (d : BitVec 9) (e lat : Nat) (f : Nat → Nat) (port : Port := .owner) : Wr :=
  let n := h.w.bits / e
  let act := active m h n
  vWr h.f d.toNat e act ((List.range n).map fun i => if act.getD i false then f i else 0) lat port

/-- A write that has an effect: not to `s0`, not to `p0`, and to some bit (R86, R123). -/
def Wr.kept (w : Wr) : Bool := (w.mask != 0 || w.tile.isSome) && w.dest != .s 0 && w.dest != .p 0

/-- Such a result as it waits for its position in counted bundle bc. -/
def Wr.pend (w : Wr) (bc : Nat) : Pend :=
  { dest := w.dest, mask := w.mask, val := w.val, open_ := w.open_, due := bc + w.lat, tile := w.tile, mx := w.mx }

/-- Results to different destinations, none of which adds up. -/
def apartDests (ws : List Wr) : Prop := (ws.filter Wr.kept).Pairwise fun a b => a.dest ≠ b.dest

/-! ### Values of scalar operands and results (R45, R123, R124) -/

/-- Scalar register n as an operation of the SC slot reads it. -/
def State.scalar (m : State) (n : BitVec 6) : BitVec 64 := BitVec.ofNat 64 (m.rdS 2 n.toNat)
/-- Source b: a register, or the immediate sign-extended to 64 bits (R124). -/
def State.source (m : State) : SrcB → BitVec 64
  | .reg n => m.scalar n
  | .imm v => v.signExtend 64
/-- An operation of W bits on the low bits of its sources, its result written as the type says (R124): for 32-bit types
sign-extended or zero-extended to 64. -/
def typed (t : ITy) (f : (w : Nat) → BitVec w → BitVec w → BitVec w) (a b : BitVec 64) : BitVec 64 :=
  match t with
  | .i64 => f 64 a b
  | .n64 => f 64 a b
  | .i32 => (f 32 (a.setWidth 32) (b.setWidth 32)).signExtend 64
  | .n32 => (f 32 (a.setWidth 32) (b.setWidth 32)).setWidth 64
/-- The value of w bits under a signedness. -/
def bvVal {w : Nat} (sg : Bool) (x : BitVec w) : Int := if sg then x.toInt else (x.toNat : Int)
/-- The order of two operands under a type (R129). -/
def typedVal (t : ITy) (x : BitVec 64) : Int :=
  match t with
  | .i64 => x.toInt
  | .n64 => x.toNat
  | .i32 => (x.setWidth 32).toInt
  | .n32 => (x.setWidth 32).toNat
/-- The result for the whole of scalar register d, lat bundles on. -/
def scalarWr (m : State) (d : BitVec 6) (v : BitVec 64) (lat : Nat) (port : Port := .owner) : Wr :=
  wholeWr (m.ix.sD d.toNat) 64 v.toNat lat port

/-! ### What stays as it was -/

/-- Everything but context j of core k, the record of the bundle in progress, the numbering of accesses and the cycle of the
core's last issue is as it was: every byte of every memory, every register of every core and every other context. -/
def KeptElse (m t : State) (k j : Nat) : Prop :=
  (∀ a, t.dram.read a = m.dram.read a ∧ t.host.read a = m.host.read a ∧ t.peer.read a = m.peer.read a) ∧
  (∀ k', k' ≠ k → t.core k' = m.core k') ∧ (∀ j', j' ≠ j → t.ctx k j' = m.ctx k j') ∧
  { t.core k with ctxs := [], lastCyc := 0 } = { m.core k with ctxs := [], lastCyc := 0 } ∧
  { t with cores := [], iss := {}, nextKey := 0 } = { m with cores := [], iss := {}, nextKey := 0 }

/-- A register that holds a value of its own: no counter increment, no register that reads as a constant. -/
def Dest.plain : Dest → Bool
  | .s n => n != 0
  | .p _ => false
  | .strd n => n != 0
  | .satc => false
  | .rsvc => false
  | .satcAdd => false
  | .rsvcAdd => false
  | .cst => false
  | .cstSet => false
  | _ => true
/-- Its width in bits. -/
def Dest.bits : Dest → Nat
  | .v _ _ => 1024
  | .pad _ => 1024
  | .mask _ _ => 128
  | .p _ => 1
  | .lc _ => 16
  | .lcP _ => 16
  | .lx _ => 32
  | .kp => 16
  | .kpP => 16
  | .rwp => 2
  | .en => 1
  | .cst => 5
  | .satc => 32
  | .rsvc => 32
  | .satcAdd => 32
  | .rsvcAdd => 32
  | _ => 64

/-! ### Vector lanes (R55, R145 to R148) -/

/-- Lane i of an operation on lanes of width e is active. -/
def State.laneOn (m : State) (h : VH) (e i : Nat) : Bool := (active m h (h.w.bits / e)).getD i false
/-- Lane i is active for certain: its mask bit can be relied on (R169). -/
def State.laneSure (m : State) (h : VH) (e i : Nat) : Bool := (sure m h (h.w.bits / e)).getD i false
/-- Whether some active lane has a property. -/
def State.anyLane (m : State) (h : VH) (e : Nat) (p : Nat → Bool) : Bool :=
  (List.range (h.w.bits / e)).any fun i => m.laneOn h e i && p i
/-- Whether some lane that is active for certain has a property. -/
def State.someLane (m : State) (h : VH) (e : Nat) (p : Nat → Bool) : Bool :=
  (List.range (h.w.bits / e)).any fun i => m.laneSure h e i && p i
/-- Sum over the lanes that are active for certain. -/
def State.overLanes (m : State) (h : VH) (e : Nat) (f : Nat → Nat) : Nat :=
  ((List.range (h.w.bits / e)).map fun i => if m.laneSure h e i then f i else 0).sum
/-- Element i, of type t, of vector register n: its bits, as an integer, as a float. -/
def State.elem (m : State) (h : VH) (t : BitVec 4) (n : BitVec 9) (i : Nat) : Nat :=
  lane (Ty.bits t.toNat) (m.rdV (Machine.vSlot h.f) h.f n.toNat) i
def State.intElem (m : State) (h : VH) (t : BitVec 4) (n : BitVec 9) (i : Nat) : Int :=
  tval (Ty.signed t.toNat) (Ty.bits t.toNat) (m.elem h t n i)
def State.fltElem (m : State) (h : VH) (t : BitVec 4) (n : BitVec 9) (i : Nat) : FV := (fmtOf t.toNat).dec (m.elem h t n i)
/-- An integer brought into the range of a type, and whether that changed it (R66). -/
def satTo (t : BitVec 4) (x : Int) : Int × Bool :=
  clampI (imin (Ty.signed t.toNat) (Ty.bits t.toNat)) (imax (Ty.signed t.toNat) (Ty.bits t.toNat)) x
/-- The lane mask whose bits are a property of the lanes; inactive lanes give 0 (R146). -/
def State.maskOf (m : State) (h : VH) (e : Nat) (p : Nat → Bool) : Nat :=
  ofBools ((List.range (h.w.bits / e)).map fun i => p i && m.laneOn h e i)

/-! ### Rows as sources (R171, R175, R222) -/

/-- The row an A-source names for a slot, with its value: a row of the local scratchpad, or the oldest filled slot of a bound
handle whose data is sound. -/
def State.reads (m : State) (slot : Nat) (a : ASrc) (v : Nat) : Prop :=
  if a.h then
    let r := m.ix.ring a.r.toNat
    r.bound = true ∧ 0 < r.n ∧ 0 < r.filled ∧ tget 0 r.bad (r.con.toNat % r.n) = 0 ∧ v = m.rdRow slot (r.base + r.con.toNat % r.n)
  else m.rdLa slot a.r.toNat < 2 ^ 20 ∧ v = m.rdRow slot (m.rdLa slot a.r.toNat / 128)
/-- The row a transform register names, i rows on, and its content (R228). -/
def State.xfRow (m : State) (n : BitVec 4) (i : Nat := 0) : Nat := m.rdRow 10 (m.rdX 10 n.toNat % 2 ^ 13 + i)
/-- Lane j of a reduction latch: its 56 bits (R221). -/
def Latch.lane (l : Latch) (j : Nat) : Nat := Machine.lane 56 l.lanes.toNat j

/-! ### Operands of the matrix unit (R245 to R250, R258) -/

/-- A plane of n rows can be read now: no fence stands, and the rows are local, or filled and sound slots of a bound handle. -/
def State.planeReadable (m : State) (a : ASrc) (n : Nat) : Prop :=
  m.ix.fenced = false ∧
  (if a.h then let r := m.ix.ring a.r.toNat
    r.bound = true ∧ n ≤ r.n ∧ n ≤ r.filled ∧ r.bad = []
  else m.rdLa 5 a.r.toNat < 2 ^ 20)
/-- Its rows: where each stands, and its content. -/
def State.planeRows (m : State) (a : ASrc) (n : Nat) : List (Nat × Nat) :=
  (List.range n).map fun i =>
    if a.h then
      let r := m.ix.ring a.r.toNat
      let w := r.base + (r.con.toNat + i) % r.n
      (w, swizzle (ringKey r w) (m.rdRow 5 w))
    else
      let w := (m.rdLa 5 a.r.toNat / 128 + i) % 8192
      (w, m.rdRow 5 w)
/-- The plane is readable and, under CHK, its colophon after it holds (R258). -/
def State.planeOk (m : State) (a : ASrc) (n ty : Nat) (chk : Bool) : Prop :=
  m.planeReadable a (n + b2n chk) ∧
  (chk = true → colCheck ((m.planeRows a (n + 1)).getD n (0, 0)).2 ty n ((m.planeRows a n).map (·.2)) = 0)
/-- The reserved-code count its colophon brings. -/
def State.planeRsv (m : State) (a : ASrc) (n : Nat) (chk : Bool) : Nat :=
  if chk then bitsAt ((m.planeRows a (n + 1)).getD n (0, 0)).2 96 32 else 0
/-- The weight slot is loaded with the B type of `fmt`, well formed and, for 16-bit types, the even half of a pair whose
halves agree; and no load of it is pending (R246, R256). -/
def State.slotReady (m : State) (w : Nat) : Prop :=
  let c := m.core m.ik
  let d := c.wslot w
  let e := c.wslot (w + 1)
  d.loaded = true ∧ d.ty = m.fBF ∧ d.malf = false ∧ c.ldwPending w (wide16 m.fBF) = false ∧
  (wide16 m.fBF = true → w % 2 = 0 ∧ e.loaded = d.loaded ∧ e.ty = d.ty ∧ e.sp = d.sp ∧ e.malf = d.malf ∧ e.srsv = d.srsv)
/-- Plane p of the array holds the slot, its entry stage is free, and the queue has room (R248, R249). -/
def State.planeReady (m : State) (w : Nat) (pair : Bool) (p : Nat) : Prop :=
  let c := m.core m.ik
  c.planeOf w pair = p ∧ p < 2 ∧ c.mqBusy < 8 ∧ c.entryFree ≤ m.now ∧ (c.plane p).ready ≤ m.now
/-! ### Steps of the hardware -/

/-- The state a step of the hardware finds: free values are renewed before it (log entry 1, DESIGN CHOICE). -/
def State.fresh (s : State) : State := { s.tick with held := false }
/-- Every stack slice and every channel that an access may come to is ready (R20, R459), and every set of a slice has a way in use
without a poisoned line, so that no access waits for one (R436). -/
def State.unitsReady (s : State) : Prop :=
  (∀ p a, s.sliceReady (s.sliceOf p a) = true) ∧ (∀ a, s.chanReady a = true) ∧
  ∀ sl set, ∃ w, w < 24 ∧ s.quarantined sl set w = false ∧
    ∀ e ∈ s.stack, e.2.slice = sl → e.1 % 1024 = set → e.2.way = w → e.2.poison = false
/-- A step of the hardware brings its state to t.  What it brings about is seen from the next cycle on; where it brings about
nothing, or meets a unit that is not ready (R459), the state stays as it is (log entry 7, DESIGN CHOICE). -/
def Occurs (s : State) (i : Instr) (t : State) : Prop :=
  exec i s = .next (if t.held = true ∨ t = s.fresh then s else { t with evt := t.now })
/-- A step answers a next state, of which a property holds. -/
def Brings (s : State) (i : Instr) (p : State → Prop) : Prop := ∃ t, exec i s = .next t ∧ p t

/-- A step that may take place, with the arguments it names: the device has power and is not held in reset. -/
def State.due (s : State) (l : List Nat) : Prop := s.down = false ∧ s.arg = l

/-- Effects that stay within the core of the bundle: its scratchpad, its state banks and the state of its contexts. -/
def Act.inCore : Act → Bool
  | .pad _ _ _ => true
  | .sb _ _ => true
  | .spill _ _ _ _ => true
  | .post _ _ _ _ => true
  | .wait _ => true
  | .cst _ => true
  | .cqPush _ _ => true
  | .cqFlush => true
  | .cqPop => true
  | .pri _ => true
  | .loop _ _ => true
  | .call _ _ _ => true
  | .ret => true
  | .jump _ => true
  | .skipTo _ => true
  | .latch _ _ _ => true
  | .tileClr => true
  | .ring _ _ => true
  | .adv _ _ _ _ => true
  | .mx _ => true
  | .touch _ => true
  | .rwSup => true
  | .plane _ _ => true
  | _ => false
/-- Effects among which a store on the local path and a load on the remote path do not meet (R194). -/
def notMixed (l : List Act) : Bool := !(l.any Act.local && l.any Act.remoteLoad)


/-! ### Soundness -/

/-- The three byte memories stand in their canonical form. -/
def State.memWf (s : State) : Bool := s.dram.wf && s.host.wf && s.peer.wf

/-- A run of n steps that meets no refusal. -/
def runs (s : State) (n : Nat) : Bool :=
  match Host.Core.run Sys2Proof.core n s with
  | .next _ => true
  | .fault _ => false
  | .refused _ => false

end Sys2Proof.Machine
end

