-- ==== Sys2Proof/Certificates/Slice0/Obligations.lean ====
section
/-! DEFINITION. The statements for the provers. `Completes`, `Traps`, `Occurs` and the other terms stand in
Sys2Proof/Safety.lean: `Completes s sl i ws acts` says that exec answers the next state in which the bundle of this one
operation has taken effect with exactly these results and effects, so that all else follows from `BundleResults` and
`BundleFrame`. -/

open Sys2Proof Sys2Proof.Machine

/-! ### Scalar unit -/

/-- R127, Table 05-1: what the integer operations of SC write, one bundle on, or three for the products. -/
def Obligations.ScalarIntegerResults : Prop :=
  ∀ (s : State) (t : ITy) (d a : BitVec 6) (b : SrcB),
    let put (i : Instr) (lat : Nat) (f : (w : Nat) → BitVec w → BitVec w → BitVec w) : Prop :=
      s.mayIssue .sc i = true →
        let m := s.meets .sc i
        Completes s .sc i [scalarWr m d (typed t f (m.scalar a) (m.source b)) lat] []
    put (.scAdd t d a b) 1 (fun _ x y => x + y) ∧
    put (.scSub t d a b) 1 (fun _ x y => x - y) ∧
    put (.scMul t d a b) 3 (fun _ x y => x * y) ∧
    put (.scMulh t d a b) 3 (fun w x y => BitVec.ofInt w (bvVal (scSg t) x * bvVal (scSg t) y / (2 ^ w : Nat))) ∧
    put (.scAnd t d a b) 1 (fun _ x y => x &&& y) ∧
    put (.scOr t d a b) 1 (fun _ x y => x ||| y) ∧
    put (.scXor t d a b) 1 (fun _ x y => x ^^^ y) ∧
    put (.scShl t d a b) 1 (fun w x y => x <<< (y.toNat % w)) ∧
    put (.scShr t d a b) 1 (fun w x y => x >>> (y.toNat % w)) ∧
    put (.scSar t d a b) 1 (fun w x y => x.sshiftRight (y.toNat % w)) ∧
    put (.scRot t d a b) 1 (fun w x y => x.rotateLeft (y.toNat % w)) ∧
    put (.scMin t d a b) 1 (fun _ x y => if bvVal (scSg t) x ≤ bvVal (scSg t) y then x else y) ∧
    put (.scMax t d a b) 1 (fun _ x y => if bvVal (scSg t) x ≤ bvVal (scSg t) y then y else x)

/-- R127, Table 05-1: the one-source, three-source and selecting operations of SC. R28, R130, R131: constants and
address sums. -/
def Obligations.ScalarBitAndConstantResults : Prop :=
  (∀ (s : State) (t : ITy) (d a b c : BitVec 6) (tab : BitVec 8) (p : BitVec 4) (neg : Bool),
     let put (i : Instr) (v : State → BitVec 64) : Prop :=
       s.mayIssue .sc i = true → Completes s .sc i [scalarWr (s.meets .sc i) d (v (s.meets .sc i)) 1] []
     put (.scClz t d a) (fun m => typed t (fun w x _ => BitVec.ofNat w (w - x.toNat.size)) (m.scalar a) 0) ∧
     put (.scPopc t d a) (fun m => typed t (fun w x _ => BitVec.ofNat w ((List.range w).countP x.getLsbD)) (m.scalar a) 0) ∧
     put (.scSel t d a b p neg) (fun m => typed t (fun _ x y => if m.rdP 2 p.toNat != neg then x else y) (m.scalar a) (m.scalar b)) ∧
     put (.scLop3 t d a b c tab) (fun m => typed t (fun w x y => BitVec.ofNat w (ofBools ((List.range w).map fun i =>
       tab.getLsbD (4 * b2n (x.getLsbD i) + 2 * b2n (y.getLsbD i) + b2n ((m.scalar c).getLsbD i))))) (m.scalar a) (m.scalar b))) ∧
  (∀ (s : State) (d a b : BitVec 6) (v : BitVec 22) (k : BitVec 3),
     let put (i : Instr) (r : State → BitVec 64) : Prop :=
       s.mayIssue .sc i = true → Completes s .sc i [scalarWr (s.meets .sc i) d (r (s.meets .sc i)) 1] []
     put (.li d v) (fun _ => v.signExtend 64) ∧
     put (.liHi d a v) (fun m => (m.scalar a) <<< 22 ||| v.setWidth 64) ∧
     put (.liWide d k) (fun m => BitVec.ofNat 64 (litWord (m.iss.lit.getD 0) k.toNat)) ∧
     put (.adds d a b k) (fun m => m.scalar a + (m.scalar b) <<< k.toNat))

/-- R128: `div` and `rem` complete on every operand. For a divisor of zero `div` writes 0, `rem` writes a, and both
set IDZ; for the most negative number and -1 the quotient wraps to that number again, the remainder is 0 and no status
is set. R46, R129: an integer compare writes its condition into a predicate, or offers it to the condition queue, one
bundle on; and R32: the slot's `nop` does neither. -/
def Obligations.ScalarDivideAndCompareResults : Prop :=
  ∀ (s : State) (t : ITy) (d a : BitVec 6) (b : SrcB) (p : BitVec 4),
    let div (i : Instr) (f : (w : Nat) → BitVec w → BitVec w → BitVec w) : Prop :=
      s.mayIssue .sc i = true →
        let m := s.meets .sc i
        Completes s .sc i [scalarWr m d (typed t f (m.scalar a) (m.source b)) 18]
          (if typedVal t (m.source b) = 0 then [.cst cstIDZ] else [])
    let cmp (mk : CmpDst → Instr) (c : Int → Int → Bool) : Prop :=
      let v (i : Instr) : Bool := c (typedVal t ((s.meets .sc i).scalar a)) (typedVal t ((s.meets .sc i).source b))
      (s.mayIssue .sc (mk (.pred p)) = true →
        Completes s .sc (mk (.pred p)) [wholeWr (.p p.toNat) 1 (b2n (v (mk (.pred p)))) 1] []) ∧
      (s.mayIssue .sc (mk .cq) = true → Completes s .sc (mk .cq) [] [.cqPush (v (mk .cq)) 1])
    div (.scDiv t d a b) (fun w x y => if y = 0 then 0 else BitVec.ofInt w ((bvVal (scSg t) x).tdiv (bvVal (scSg t) y))) ∧
    div (.scRem t d a b) (fun w x y => if y = 0 then x else BitVec.ofInt w ((bvVal (scSg t) x).tmod (bvVal (scSg t) y))) ∧
    cmp (fun d => .scCmpEq t d a b) (fun x y => x == y) ∧
    cmp (fun d => .scCmpNe t d a b) (fun x y => x != y) ∧
    cmp (fun d => .scCmpLt t d a b) (fun x y => decide (x < y)) ∧
    cmp (fun d => .scCmpLe t d a b) (fun x y => decide (x ≤ y)) ∧
    cmp (fun d => .scCmpGt t d a b) (fun x y => decide (y < x)) ∧
    cmp (fun d => .scCmpGe t d a b) (fun x y => decide (y ≤ x)) ∧
    (s.mayIssue .sc .scNop = true → Completes s .sc .scNop [] [])

/-- R132 to R134: with no enabled condition raised, the FP32 operations write the once-rounded result four bundles on
and set the sticky bits there; with one they have no effect and trap `FPX`, bit 0 for an invalid operation and bit 2 for an
overflow. A compare raises none; `cvt` raises none, writes the converted value and counts a saturation. -/
def Obligations.ScalarFloatResults : Prop :=
  ∀ (s : State) (rm : BitVec 3) (d a b c : BitVec 6),
    let f (m : State) (n : BitVec 6) : FV := fmtF32.dec ((m.scalar n).toNat % 2 ^ 32)
    let put (i : Instr) (v : State → FV × Bool) : Prop :=
      let m := s.meets .sc i
      let r := fmtF32.round .arith false (rmode rm.toNat m.fmtRm) (v m).1
      s.mayIssue .sc i = true →
        (fpEnabled m.fmtW (v m).2 false r.ovf = false →
          Completes s .sc i (scalarWr m d (BitVec.ofNat 64 r.bits) 4 :: fpSticky (v m).2 r.ovf 4) []) ∧
        (fpEnabled m.fmtW (v m).2 false r.ovf = true →
          Traps s .sc i { cause := 7, slot := 2, info := b2n (v m).2 + 4 * b2n r.ovf })
    put (.fadd rm d a b) (fun m => FV.add (rmode rm.toNat m.fmtRm) (f m a) (f m b)) ∧
    put (.fmul rm d a b) (fun m => (f m a).mul (f m b)) ∧
    put (.scFma rm d a b c) (fun m => FV.fma (rmode rm.toNat m.fmtRm) (f m a) (f m b) (f m c)) ∧
    (∀ (cond : BitVec 3) (p : BitVec 4),
      (s.mayIssue .sc (.fcmp cond rm (.pred p) a b) = true →
        let m := s.meets .sc (.fcmp cond rm (.pred p) a b)
        Completes s .sc (.fcmp cond rm (.pred p) a b) [wholeWr (.p p.toNat) 1 (b2n (fcond cond.toNat (f m a) (f m b))) 2] []) ∧
      (s.mayIssue .sc (.fcmp cond rm .cq a b) = true →
        let m := s.meets .sc (.fcmp cond rm .cq a b)
        Completes s .sc (.fcmp cond rm .cq a b) [] [.cqPush (fcond cond.toNat (f m a) (f m b)) 2])) ∧
    (∀ tt src : BitVec 4, s.mayIssue .sc (.scCvt tt src rm d a) = true →
      let m := s.meets .sc (.scCvt tt src rm d a)
      let r := convTo tt.toNat (rmode rm.toNat m.fmtRm) (elemVal src.toNat (m.rdS 2 a.toNat % 2 ^ Ty.bits src.toNat))
      Completes s .sc (.scCvt tt src rm d a)
        (scalarWr m d (if tt = 4 then (BitVec.ofNat 32 r.1).signExtend 64 else BitVec.ofNat 64 r.1) 4 ::
          countWr .satcAdd (b2n r.2) 4) [])

/-- R125, R135 to R138: `mov` copies to another file two bundles on through its copy port, the spill window moves
words of 8 bytes, and the context registers are read and written one bundle on. -/
def Obligations.ScalarTransferResults : Prop :=
  ∀ (s : State) (d a : BitVec 6) (f : VFile) (n : BitVec 9) (e p : BitVec 4) (k : BitVec 3) (r : BitVec 5) (w : BitVec 10)
    (c : BitVec 8) (pre : Bool),
    let put (i : Instr) (ws : State → Nat → List Wr) : Prop :=
      s.mayIssue .sc i = true → Completes s .sc i (ws (s.meets .sc i) ((s.meets .sc i).rdS 2 a.toNat)) []
    put (.scMov (.vec f n e true) a) (fun _ v => [wholeWr (.v f n.toNat) 1024 (ofLanes 64 (List.replicate 16 v)) 2 .copy]) ∧
    put (.scMov (.vec f n e false) a) (fun _ v =>
      [{ dest := .v f n.toNat, mask := row (onesAt (64 * e.toNat) 64), val := row (v <<< (64 * e.toNat)), lat := 2,
         port := .copy }]) ∧
    put (.scMov (.pred p) a) (fun _ v => [wholeWr (.p p.toNat) 1 (v % 2) 2 .copy]) ∧
    put (.scMov (.lc k pre) a) (fun _ v => [wholeWr (if pre then .lcP k.toNat else .lc k.toNat) 16 (v % 2 ^ 16) 2 .copy]) ∧
    put (.scMov (.lx k) a) (fun _ v => [wholeWr (.lx k.toNat) 32 (v % 2 ^ 32) 2 .copy]) ∧
    put (.scMov (.kp pre) a) (fun _ v => [wholeWr (if pre then .kpP else .kp) 16 (v % 2 ^ 16) 2 .copy]) ∧
    put (.scMov (.la r) a) (fun m v => [wholeWr (m.ix.laD r.toNat) 64 v 2 .copy]) ∧
    put (.scMov (.sa r) a) (fun m v => [wholeWr (m.ix.saD r.toNat) 64 v 2 .copy]) ∧
    put (.scMov (.c r) a) (fun _ v => [wholeWr (.c r.toNat) 64 v 2 .copy]) ∧
    put (.scMov (.x e) a) (fun _ v => [wholeWr (.x e.toNat) 64 v 2 .copy]) ∧
    (s.mayIssue .sc (.scSpl a w) = true →
      Completes s .sc (.scSpl a w) [] [.spill 2 (8 * w.toNat) 8 (row ((s.meets .sc (.scSpl a w)).rdS 2 a.toNat))]) ∧
    put (.scFil d w) (fun m _ => [wholeWr (m.ix.sD d.toNat) 64 (spillRead m.ix (8 * w.toNat) 8 % 2 ^ 64) 1 .load]) ∧
    put (.rdc d c) (fun m _ => [wholeWr (m.ix.sD d.toNat) 64 (rdcWord m c.toNat % 2 ^ 64) 1]) ∧
    put (.wrc 0 a) (fun _ v => [{ dest := .cst, mask := row (v % 32), val := 0, lat := 1, port := .owner }]) ∧
    put (.wrc 1 a) (fun _ v => [wholeWr .satc 32 (v % 2 ^ 32) 1]) ∧
    put (.wrc 2 a) (fun _ v => [wholeWr .rsvc 32 (v % 2 ^ 32) 1])

/-- R429, R445: the status instructions read a word of the trap record, of the machine-error log counted back from its
newest entry, and the state of a context; a target word that names no core traps `SYSERR` 2. -/
def Obligations.StatusReadResults : Prop :=
  ∀ (s : State) (d a : BitVec 6),
    let put (i : Instr) (ok : State → Bool) (v : State → Nat) : Prop :=
      s.mayIssue .sc i = true → ok (s.meets .sc i) = true →
        Completes s .sc i [wholeWr ((s.meets .sc i).ix.sD d.toNat) 64 (v (s.meets .sc i) % 2 ^ 64) 1] []
    let k (m : State) : Nat := bitsAt (m.rdS 2 a.toNat) 3 7
    let good (m : State) : Bool := decide (m.rdS 2 a.toNat < 2 ^ 10) && m.coreOk (k m)
    put (.errRdTrap d a) (fun _ => true) (fun m => (tget 0 m.ix.trec (m.rdS 2 a.toNat % 8)).toNat) ∧
    put (.errRdLog d a) (fun _ => true) (fun m =>
      match (m.die (dieOf m.ik)).log[m.rdS 2 a.toNat % 256]?, bitsAt (m.rdS 2 a.toNat) 8 2 with
      | none, _ => 0
      | some e, 0 => e.w0.toNat
      | some e, 1 => e.w1.toNat
      | some e, 2 => e.w2.toNat
      | some e, _ => e.w3.toNat) ∧
    put (.ctxStat d a) good (fun m => ctxStatWord m (k m) (m.rdS 2 a.toNat % 8)) ∧
    (s.mayIssue .sc (.ctxStat d a) = true → good (s.meets .sc (.ctxStat d a)) = false →
      Traps s .sc (.ctxStat d a) { cause := 17, slot := 2, info := 2 })

/-! ### Bundles, results and registers -/

/-- What a bundle of one operation without effects on memory or control leaves behind (R22, R89, R106): its results
wait for their positions, the bundle counts, the program counter moves on, and all else is as it was. The state an
operation meets when its context awaits nothing is the state itself, but for the step counter and the record of the
bundle in progress. R25, R26, R89: a bundle that its header skips, executed by itself: no operation takes effect and
its position does not count; the flow of control passes it. -/
def Obligations.BundleResults : Prop :=
  (∀ (s : State) (sl : Slot) (i : Instr) (ws : List Wr), apartDests ws →
     let m := s.meets sl i
     let t := s.after sl i ws []
     let x := m.ix
     let f := flowOf x.ctl m.iss.lit.isSome []
     KeptElse m t s.ik s.ij ∧
     t.ctx s.ik s.ij =
       { x with pend := ((ws.filter Wr.kept).map fun w => w.pend x.bcount).foldl addPend x.pend, bcount := x.bcount + 1,
                ctl := { x.ctl with pc := f.pc, loops := f.loops, lx := f.lx, fresh := [] }, lastPc := x.ctl.pc,
                atYield := (hdrOf m.iss.word).kind == 1 }) ∧
  (∀ (s : State) (sl : Slot) (i : Instr), s.ix.pend = [] → s.ix.waits = [] →
     (∀ e ∈ (s.core s.ik).mq, e.op ≠ .upd) →
     let m := s.meets sl i
     (∀ k, k ≠ s.ik → m.core k = s.core k) ∧ (∀ j, m.ctx s.ik j = s.ctx s.ik j) ∧
     { m.core s.ik with ctxs := [] } = { s.core s.ik with ctxs := [] } ∧
     { m with cores := [], iss := {} } = { s with cores := [], iss := {}, freeCtr := s.freeCtr + 1 }) ∧
  (∀ s : State, s.iss.opn = false → canIssue s s.ik s.ij = true →
     ∃ t, exec .skippedBundle s = .next t ∧
       let m := openIssue s s.ik s.ij 4 none true
       let f := flowOf m.ix.ctl false []
       KeptElse m t s.ik s.ij ∧
       t.ctx s.ik s.ij = { m.ix with ctl := { m.ix.ctl with pc := f.pc, loops := f.loops, lx := f.lx }, lastPc := m.ix.ctl.pc,
                                     atYield := false })

/-- R89: a result is in its register from its position on, and not before; a scratchpad row that an engine's colophon or a
`cupd` still awaits is the exception (R278, R340). R89: a register no result is awaited for
reads as what it holds; while one is, the bits it will write are free and the others are what the register holds. R86,
R123: `s0` reads as 0 and `p0` as true in every state, no result for either is kept, and in handler mode register 0 is
still `s0`. -/
def Obligations.RegisterReads : Prop :=
  (∀ (s : State) (k j n : Nat) (d : Dest) (p : Pend), d.plain = true → s.landMeets k d = false →
     (s.ctx k j).pend.filter (fun q => q.dest == d) = [p] → p.landed = false →
     (p.due ≤ n → rawD (landDue s k j n) k j d = (blend p.mask (p.value s) (row (rawD s k j d))).toNat % 2 ^ d.bits) ∧
     (n < p.due → rawD (landDue s k j n) k j d = rawD s k j d)) ∧
  (∀ (s : State) (k j slot : Nat) (d : Dest), d ≠ .cst →
     (taint (s.ctx k j) d = 0 → readD s k j slot d = rawD s k j d) ∧
     (∀ i, i < 1024 → (taint (s.ctx k j) d).getLsbD i = false → (readD s k j slot d).testBit i = (rawD s k j d).testBit i) ∧
     ((∀ p ∈ (s.ctx k j).pend, p.due ≤ (s.ctx k j).bcount) → taint (s.ctx k j) d = 0)) ∧
  ((∀ (s : State) (k j : Nat), rawD s k j (.s 0) = 0 ∧ rawD s k j (.p 0) = 1) ∧
   (∀ (m : State) (slot : Nat), taint m.ix (.s 0) = 0 → m.rdS slot 0 = 0) ∧
   (∀ (m : State) (slot : Nat), taint m.ix (.p 0) = 0 → m.rdP slot 0 = true) ∧
   (∀ w : Wr, w.kept = true → w.dest ≠ .s 0 ∧ w.dest ≠ .p 0))

/-- R31, R380, R421, R424: what decode finds against any instruction whose context may issue: one marked privileged
without system privilege traps `PRIV`; one that names a register outside the demand of its task traps `BANKX`. R380,
R167: an indexed register outside the demand of the task traps `BANKX` when the operation issues. -/
def Obligations.DecodeTraps : Prop :=
  (∀ (s : State) (i : Instr) (sl : Slot) (fs : List (Nat × Nat)), encFields i s.arg = some (sl, fs) → s.iss.opn = false →
     canIssue s s.ik s.ij = true →
     let m := s.meets sl i
     m.ix.privileged = (m.ix.hand.on || m.ix.task.priv) ∧
     (isSystem i = true → m.ix.privileged = false → Traps s sl i
       { cause := 3, slot := sl.code,
         info := fld (sl.field (soloWord (s.solo sl i))) sl.opField.1 sl.opField.2 + 2 ^ 8 * sl.code }) ∧
     (isSystem i = false ∨ m.ix.privileged = true → ∀ f n,
       (operandRegs i s.arg).find? (fun p => m.ix.bankx p.1 p.2) = some (f, n) →
       Traps s sl i { cause := 4, slot := sl.code, info := n % 512 + 512 * f })) ∧
  (∀ (s : State) (h : VH) (d : BitVec 9) (n : BitVec 6),
     let sl := Sys2Proof.vSlot h.f
     let traps (i : Instr) : Prop :=
       let m := s.meets sl i
       let j := m.rdS (Machine.vSlot h.f) n.toNat % 512
       s.mayIssue sl i = true → m.ix.bankx (vFileNo h.f) j = true →
         Traps s sl i { cause := 4, slot := Machine.vSlot h.f, info := j + 512 * vFileNo h.f }
     traps (.movIxGet h d n) ∧ traps (.movIxPut h d n))

/-- R89, R174, R177: what a bundle leaves as it was, its effects staying within its core: every byte of every memory,
the device registers, every other core, the numbered registers of its own core, whose new values wait for their
positions, every scratchpad row but those stored to, the state banks unless one is stored to, and the registers of
handler and trap. -/
def Obligations.BundleFrame : Prop :=
  ∀ (s : State) (sl : Slot) (i : Instr) (ws : List Wr) (acts : List Act), (∀ a ∈ acts, a.inCore = true) →
    notMixed acts = true →
    let m := s.meets sl i
    let t := s.after sl i ws acts
    let k := s.ik
    let c := m.core k
    let d := t.core k
    (∀ a, (∀ p, t.lpByte p a = m.lpByte p a) ∧ t.host.read a = m.host.read a ∧ t.peer.read a = m.peer.read a) ∧ t.regs = m.regs ∧
    (∀ k', k' ≠ k → t.core k' = m.core k') ∧
    (d.va = c.va ∧ d.vb = c.vb ∧ d.tiles = c.tiles ∧ d.s = c.s ∧ d.la = c.la ∧ d.sa = c.sa ∧ d.c = c.c ∧ d.tags = c.tags) ∧
    (∀ r, (∀ w mk v, Act.pad w mk v ∈ acts → w % 8192 ≠ r % 8192) → (∀ h x y z, Act.adv h x y z ∉ acts) →
      t.padRow k r = m.padRow k r) ∧
    (∀ w mk v, ws = [] → acts = [.pad w mk v] → (∀ p ∈ m.ix.pend, p.dest ≠ .pad w) → m.coloPend k (w % 8192) (2 ^ 64) = false →
      (m.core k).updBusy (w % 8192) = false → t.padRow k w = (blend mk v (row (m.padRow k w))).toNat) ∧
    ((∀ w v, Act.sb w v ∉ acts) → d.bankA = c.bankA ∧ d.bankB = c.bankB) ∧
    (t.ix.hs = m.ix.hs ∧ t.ix.hla = m.ix.hla ∧ t.ix.hsa = m.ix.hsa ∧ t.ix.trec = m.ix.trec ∧ t.ix.task = m.ix.task ∧ t.ix.hand = m.ix.hand)

/-! ### Vector units -/

/-- R145: what a lane-wise result stores, whatever the register held: its lane where the lane is active, and the rest
of the register as it was. -/
def Obligations.VectorLaneWrites : Prop :=
  ∀ (m : State) (h : VH) (d : BitVec 9) (e lat : Nat) (f : Nat → Nat) (old : Row), 0 < e → h.w.bits ≤ 1024 →
    let w := lanesWr m h d e lat f
    let new := (blend w.mask w.val old).toNat
    w.dest = .v h.f d.toNat ∧ w.lat = lat ∧
    (∀ i, i < h.w.bits / e → lane e new i = if m.laneOn h e i then f i % 2 ^ e else lane e old.toNat i) ∧
    (∀ b, b < 1024 → h.w.bits / e ≤ b / e → new.testBit b = old.toNat.testBit b)

/-- R151, R169, Table 06-2: the integer operations of VA and VB write every active lane two bundles on; with SAT = 1
results are clamped, and counted over the lanes that are active for certain, which is the model's choice (log entry 86). -/
def Obligations.VectorIntegerResults : Prop :=
  ∀ (s : State) (h : VH) (t : BitVec 4) (d a b : BitVec 9) (rm : BitVec 3), Ty.isInt t.toNat = true →
    let e := Ty.bits t.toNat
    let put (i : Instr) (f : State → Nat → Nat) : Prop :=
      s.mayIssue (Sys2Proof.vSlot h.f) i = true →
        let m := s.meets (Sys2Proof.vSlot h.f) i
        Completes s (Sys2Proof.vSlot h.f) i [lanesWr m h d e 2 (f m)] []
    let arith (i : Bool → Instr) (g : Int → Int → Int) : Prop :=
      put (i false) (fun m n => wrap e (g (m.intElem h t a n) (m.intElem h t b n))) ∧
      (s.mayIssue (Sys2Proof.vSlot h.f) (i true) = true →
        let m := s.meets (Sys2Proof.vSlot h.f) (i true)
        let r (n : Nat) := satTo t (g (m.intElem h t a n) (m.intElem h t b n))
        Completes s (Sys2Proof.vSlot h.f) (i true)
          (lanesWr m h d e 2 (fun n => wrap e (r n).1) :: countWr .satcAdd (m.overLanes h e fun n => b2n (r n).2) 2) [])
    arith (.vAdd h t d a b rm) (fun x y => x + y) ∧
    arith (.vSub h t d a b rm) (fun x y => x - y) ∧
    arith (.vMul h t d a b rm) (fun x y => x * y) ∧
    put (.vMulh h t d a b) (fun m n => wrap e (m.intElem h t a n * m.intElem h t b n / (2 ^ e : Nat))) ∧
    put (.vMin h t d a b rm) (fun m n => wrap e (min (m.intElem h t a n) (m.intElem h t b n))) ∧
    put (.vMax h t d a b rm) (fun m n => wrap e (max (m.intElem h t a n) (m.intElem h t b n))) ∧
    put (.vAbs h t d a rm) (fun m n => wrap e |m.intElem h t a n|) ∧
    put (.vNeg h t d a rm) (fun m n => wrap e (-(m.intElem h t a n)))

/-- R153: logic and shifts lane by lane, the shift distance modulo the element width. R147, R151: float minimum and
maximum order -0 below +0 and give the canonical NaN for a NaN; `abs` and `neg` change the sign bit only; none of them
raises a condition. -/
def Obligations.VectorBitAndSignResults : Prop :=
  (∀ (s : State) (h : VH) (t : BitVec 4) (d a b c : BitVec 9) (tab : BitVec 8),
     let e := Ty.bits t.toNat
     let put (i : Instr) (e : Nat) (f : State → Nat → Nat) : Prop :=
       s.mayIssue (Sys2Proof.vSlot h.f) i = true →
         let m := s.meets (Sys2Proof.vSlot h.f) i
         Completes s (Sys2Proof.vSlot h.f) i [lanesWr m h d e 2 (f m)] []
     put (.vAnd h t d a b) e (fun m n => m.elem h t a n &&& m.elem h t b n) ∧
     put (.vOr h t d a b) e (fun m n => m.elem h t a n ||| m.elem h t b n) ∧
     put (.vXor h t d a b) e (fun m n => m.elem h t a n ^^^ m.elem h t b n) ∧
     put (.vShl h t d a b) e (fun m n => m.elem h t a n * 2 ^ (m.elem h t b n % e) % 2 ^ e) ∧
     put (.vShr h t d a b) e (fun m n => m.elem h t a n / 2 ^ (m.elem h t b n % e)) ∧
     put (.vSar h t d a b) e (fun m n => wrap e (sval e (m.elem h t a n) / (2 ^ (m.elem h t b n % e) : Nat))) ∧
     put (.vLop3 h d a b c tab) 32 (fun m n => ofBools ((List.range 32).map fun i =>
       tab.getLsbD (4 * b2n ((m.elem h 4 a n).testBit i) + 2 * b2n ((m.elem h 4 b n).testBit i) + b2n ((m.elem h 4 c n).testBit i))))) ∧
  (∀ (s : State) (h : VH) (t : BitVec 4) (d a b : BitVec 9) (rm : BitVec 3), Ty.isInt t.toNat = false →
     let e := Ty.bits t.toNat
     let f := fmtOf t.toNat
     let put (i : Instr) (v : State → Nat → Nat) : Prop :=
       s.mayIssue (Sys2Proof.vSlot h.f) i = true →
         let m := s.meets (Sys2Proof.vSlot h.f) i
         Completes s (Sys2Proof.vSlot h.f) i [lanesWr m h d e 4 (v m)] []
     let less (x y : FV) : Bool := x.lt y || (x.eq y && x.isNeg && !y.isNeg)
     let pick (mx : Bool) (m : State) (n : Nat) : Nat :=
       let x := m.fltElem h t a n
       let y := m.fltElem h t b n
       if x.isNan || y.isNan then f.qnan else if mx = less x y then m.elem h t b n else m.elem h t a n
     put (.vMin h t d a b rm) (pick false) ∧
     put (.vMax h t d a b rm) (pick true) ∧
     put (.vAbs h t d a rm) (fun m n => if (m.fltElem h t a n).isNan then f.qnan else m.elem h t a n % 2 ^ (f.eb + f.fb)) ∧
     put (.vNeg h t d a rm) (fun m n => if (m.fltElem h t a n).isNan then f.qnan else m.elem h t a n ^^^ 2 ^ (f.eb + f.fb)))

/-- R147, R148, R151: with no enabled condition raised in an active lane, the float operations write every active lane
four bundles on, rounded once, and set the sticky bits there. R148: a float operation with an enabled condition in an
active lane has no effect and traps `FPX`, with the conditions and the lowest such lane. -/
def Obligations.VectorFloatResultsAndTraps : Prop :=
  (∀ (s : State) (h : VH) (t : BitVec 4) (d a b c : BitVec 9) (rm : BitVec 3), Ty.isInt t.toNat = false →
     let e := Ty.bits t.toNat
     let put (i : Instr) (v : State → Nat → Nat → FV × Bool) : Prop :=
       let m := s.meets (Sys2Proof.vSlot h.f) i
       let x (n : Nat) := v m (rmode rm.toNat m.fmtRm) n
       let r (n : Nat) := (fmtOf t.toNat).round .arith false (rmode rm.toNat m.fmtRm) (x n).1
       let inv := m.someLane h e fun n => (x n).2
       let ovf := m.someLane h e fun n => (r n).ovf
       s.mayIssue (Sys2Proof.vSlot h.f) i = true → fpEnabled m.fmtW inv false ovf = false →
         Completes s (Sys2Proof.vSlot h.f) i (lanesWr m h d e 4 (fun n => (r n).bits) :: fpSticky inv ovf 4) []
     put (.vAdd h t d a b rm false) (fun m q n => FV.add q (m.fltElem h t a n) (m.fltElem h t b n)) ∧
     put (.vSub h t d a b rm false) (fun m q n => FV.add q (m.fltElem h t a n) (m.fltElem h t b n).neg) ∧
     put (.vMul h t d a b rm false) (fun m _ n => (m.fltElem h t a n).mul (m.fltElem h t b n)) ∧
     put (.vFma h t d a b c rm) (fun m q n => FV.fmaV q (m.fltElem h t a n) (m.fltElem h t b n) (m.fltElem h t c n)) ∧
     put (.vFms h t d a b c rm) (fun m q n => FV.fmaV q (m.fltElem h t a n) (m.fltElem h t b n) (m.fltElem h t c n).neg) ∧
     put (.vFnma h t d a b c rm) (fun m q n => FV.fmaV q (m.fltElem h t a n).neg (m.fltElem h t b n) (m.fltElem h t c n))) ∧
  (∀ (s : State) (h : VH) (t : BitVec 4) (d a b : BitVec 9) (rm : BitVec 3) (l : Nat), Ty.isInt t.toNat = false →
     let e := Ty.bits t.toNat
     let traps (i : Instr) (v : State → Nat → Nat → FV × Bool) : Prop :=
       let m := s.meets (Sys2Proof.vSlot h.f) i
       let x (n : Nat) := v m (rmode rm.toNat m.fmtRm) n
       let r (n : Nat) := (fmtOf t.toNat).round .arith false (rmode rm.toNat m.fmtRm) (x n).1
       let on (n : Nat) : Bool := m.laneSure h e n && fpEnabled m.fmtW (x n).2 false (r n).ovf
       s.mayIssue (Sys2Proof.vSlot h.f) i = true → l < h.w.bits / e → on l = true → (∀ n, n < l → on n = false) →
         Traps s (Sys2Proof.vSlot h.f) i
           { cause := 7, slot := Machine.vSlot h.f,
             info := b2n (m.someLane h e fun n => (x n).2) + 4 * b2n (m.someLane h e fun n => (r n).ovf) + 2 ^ 8 * l }
     traps (.vAdd h t d a b rm false) (fun m q n => FV.add q (m.fltElem h t a n) (m.fltElem h t b n)) ∧
     traps (.vSub h t d a b rm false) (fun m q n => FV.add q (m.fltElem h t a n) (m.fltElem h t b n).neg) ∧
     traps (.vMul h t d a b rm false) (fun m _ n => (m.fltElem h t a n).mul (m.fltElem h t b n)))

/-- R152, Table 06-3: the special functions on a value of f32, f16 or bf16, whatever choice is made within the bounds: the
exact cases; which operands are invalid and which divide by zero; and how far a result in range may lie from the exact
value, in units in the last place of the exact value: for f32 those of the table, for f16 and bf16 one. -/
def Obligations.SpecialFunctionValues : Prop :=
  ∀ (t x : Nat) (pick : Int), t = 8 ∨ t = 9 ∨ t = 10 →
    let f := fmtOf t
    let v := f.dec x
    let r (op : Nat) : FV × Bool × Bool := special op t v pick
    let val (n : Bool) (m : Nat) (e : Int) : ℝ := (if n then -1 else 1) * (m : ℝ) * (2 : ℝ) ^ e
    let top : ℝ := ((2 : ℝ) ^ (f.fb + 1) - 1) * (2 : ℝ) ^ ((f.bias : Int) - f.fb)
    let ulp (y : ℝ) : ℝ := (2 : ℝ) ^ (max (Int.log 2 |y|) (1 - (f.bias : Int)) - f.fb)
    let near (op : Nat) (y tol : ℝ) : Prop := |y| ≤ top → ∃ n m e,
      f.dec (f.round .arith false 0 (r op).1).bits = .fin n m e ∧ |val n m e - y| ≤ tol
    let within (op k : Nat) (y : ℝ) : Prop := near op y ((if t = 10 then (k : ℝ) else 1) * ulp y)
    (∀ op, op < 7 → ((r op).2.1 = true ↔ (op = 1 ∨ op = 3) ∧ v.isNeg = true ∧ v.isZero = false) ∧
      ((r op).2.2 = true ↔ (op = 0 ∨ op = 1 ∨ op = 3) ∧ v.isZero = true) ∧ (v = .nan → (r op).1 = .nan)) ∧
    (∀ n, v = .inf n → (r 0).1 = .fin n 0 0 ∧ (r 1).1 = (if n then .nan else .fin false 0 0) ∧
      (r 2).1 = (if n then .fin false 0 0 else .inf false) ∧ (r 3).1 = (if n then .nan else .inf false) ∧
      (r 4).1 = .fin n 1 0 ∧ (r 5).1 = (if n then .fin true 0 0 else .inf false) ∧
      (r 6).1 = (if n then .fin false 0 0 else .inf false)) ∧
    (∀ n e, v = .fin n 0 e → (r 0).1 = .inf n ∧ (r 1).1 = .inf n ∧ (r 2).1 = .fin false 1 0 ∧ (r 3).1 = .inf true ∧
      (r 4).1 = .fin n 0 0 ∧ (r 5).1 = .fin n 0 0 ∧ within 6 3 (Real.log 2)) ∧
    (∀ n m e, v = .fin n m e → m ≠ 0 →
      let X := val n m e
      (∀ l : Nat, m = 2 ^ l → (r 0).1 = .fin n 1 (-((l : Int) + e)) ∧
        (n = false → (r 3).1 = ofInt ((l : Int) + e) 0 false) ∧
        (n = false → ((l : Int) + e) % 2 = 0 → (r 1).1 = .fin false 1 (-(((l : Int) + e) / 2)))) ∧
      (∀ k : Int, -4096 < k → k < 4096 → X = (k : ℝ) → (r 2).1 = .fin false 1 k) ∧
      within 0 1 (1 / X) ∧
      (n = false → within 1 1 (1 / Real.sqrt X)) ∧
      within 2 2 ((2 : ℝ) ^ X) ∧
      (n = false → near 3 (Real.logb 2 X) (max ((if t = 10 then 2 else 1) * ulp (Real.logb 2 X))
        (if t = 10 ∧ 1 / 2 ≤ X ∧ X ≤ 2 then (2 : ℝ) ^ (-22 : Int) else 0))) ∧
      within 4 2 (Real.tanh X) ∧
      within 5 3 (X / (1 + Real.exp (-X))) ∧
      within 6 3 (Real.log (1 + Real.exp X)) ∧
      (n = true → (r 1).1 = .nan ∧ (r 3).1 = .nan))

/-- R148, R152: the special functions complete, eight bundles on, every active lane holding what `special` gives for it,
rounded: the choice within the bounds (SpecialFunctionValues) is the free value `Config.specialPick` of the function, the
type and the operand (log entry 2); it is rounded to nearest whatever the mode, and overflow gives infinity (log entries 87 and
105); conditions and counts are those of the lanes active for certain (log entry 86). R148: no condition the operands raise is enabled, and the overflow trap is off or no lane overflows.
R156: `cvt` works in lanes of the wider type; the narrower side is part q of its register. -/
def Obligations.VectorSpecialAndConvertResults : Prop :=
  (∀ (s : State) (h : VH) (t : BitVec 4) (d a : BitVec 9) (rm : BitVec 3),
     let e := Ty.bits t.toNat
     let put (i : Instr) (op : Nat) : Prop :=
       let m := s.meets (Sys2Proof.vSlot h.f) i
       let x (n : Nat) := (special op t.toNat (m.fltElem h t a n) (Config.specialPick op t.toNat (m.elem h t a n))).1
       let r (n : Nat) := (fmtOf t.toNat).round .arith false 0 (x n)
       let inv := m.someLane h e fun n =>
         (op == 1 || op == 3) && (m.fltElem h t a n).isNeg && !(m.fltElem h t a n).isZero
       let dbz := m.someLane h e fun n => (op == 0 || op == 1 || op == 3) && (m.fltElem h t a n).isZero
       let ovf := m.someLane h e fun n => (r n).ovf
       s.mayIssue (Sys2Proof.vSlot h.f) i = true →
         (bitAt m.fmtW 21 = false ∨ ovf = false) → fpEnabled m.fmtW inv dbz false = false →
         Completes s (Sys2Proof.vSlot h.f) i (lanesWr m h d e 8 (fun n => (r n).bits) :: fpSticky inv ovf 8) []
     put (.vRcp h t d a rm) 0 ∧ put (.vRsq h t d a rm) 1 ∧ put (.vExp2 h t d a rm) 2 ∧ put (.vLog2 h t d a rm) 3 ∧
     put (.vTanh h t d a rm) 4 ∧ put (.vSilu h t d a rm) 5 ∧ put (.vSoftplus h t d a rm) 6) ∧
  (∀ (s : State) (h : VH) (src tt : BitVec 4) (d a : BitVec 9) (q : BitVec 5) (rm : BitVec 3),
     let i := Instr.vCvt h src tt d a q rm
     let es := Ty.bits src.toNat
     let et := Ty.bits tt.toNat
     let wide := max es et
     let n := h.w.bits / wide
     let m := s.meets (Sys2Proof.vSlot h.f) i
     let from_ (l : Nat) : Nat := m.elem h src a (if es < et then q.toNat * n + l else l)
     let r (l : Nat) := convTo tt.toNat (rmode rm.toNat m.fmtRm) (elemVal src.toNat (from_ l))
     let sh := if et < es then q.toNat * n * et else 0
     s.mayIssue (Sys2Proof.vSlot h.f) i = true →
       Completes s (Sys2Proof.vSlot h.f) i
         ({ dest := .v h.f d.toNat, mask := row (laneMask et (active m h n) <<< sh),
            val := row (ofLanes et ((List.range n).map fun l => if m.laneOn h wide l then (r l).1 else 0) <<< sh), lat := 4,
            port := .owner } ::
           countWr .satcAdd (m.overLanes h wide fun l => b2n (r l).2) 4 ++
           countWr .rsvcAdd (m.overLanes h wide fun l => b2n (src == 13 && from_ l == 2)) 4) [])

/-- R146, R157, R159: compares write all 128 bits of a lane mask; `any` and `all` offer their value to the condition
queue. R158: a uniform compare offers the value its active lanes agree on, 0 with none active, and traps `NONUNIF`
with the lowest lane of either value where they disagree. R169: it looks at the lanes that are active for certain, which is the
model's choice (log entry 86). -/
def Obligations.VectorCompareResults : Prop :=
  (∀ (s : State) (h : VH) (t : BitVec 4) (k : BitVec 4) (a b : BitVec 9) (rm : BitVec 3),
     let e := Ty.bits t.toNat
     let lat := if Ty.isInt t.toNat then 2 else 4
     let cond (m : State) (c n : Nat) : Bool :=
       if Ty.isInt t.toNat then icond c (m.intElem h t a n) (m.intElem h t b n) else fcond c (m.fltElem h t a n) (m.fltElem h t b n)
     let put (i : Instr) (c : Nat) : Prop :=
       s.mayIssue (Sys2Proof.vSlot h.f) i = true →
         let m := s.meets (Sys2Proof.vSlot h.f) i
         Completes s (Sys2Proof.vSlot h.f) i [wholeWr (.mask h.f k.toNat) 128 (m.maskOf h e (cond m c)) lat] []
     let offer (i : Instr) (v : State → Bool) : Prop :=
       s.mayIssue (Sys2Proof.vSlot h.f) i = true →
         Completes s (Sys2Proof.vSlot h.f) i [] [.cqPush (v (s.meets (Sys2Proof.vSlot h.f) i)) 2]
     let bit (m : State) (n : Nat) : Bool := bitAt (m.rd (Machine.vSlot h.f) (.mask h.f k.toNat)) n
     put (.vCmpEq h t k a b rm) 0 ∧ put (.vCmpNe h t k a b rm) 1 ∧ put (.vCmpLt h t k a b rm) 2 ∧
     put (.vCmpLe h t k a b rm) 3 ∧ put (.vCmpGt h t k a b rm) 4 ∧ put (.vCmpGe h t k a b rm) 5 ∧
     put (.vCmpUn h t k a b rm) 6 ∧
     offer (.vAny h t k) (fun m => m.anyLane h e (bit m)) ∧
     offer (.vAll h t k) (fun m => !m.anyLane h e fun n => !bit m n)) ∧
  (∀ (s : State) (h : VH) (t : BitVec 4) (a b : BitVec 9) (rm : BitVec 3),
     let e := Ty.bits t.toNat
     let lat := if Ty.isInt t.toNat then 2 else 4
     let cond (m : State) (c n : Nat) : Bool :=
       if Ty.isInt t.toNat then icond c (m.intElem h t a n) (m.intElem h t b n) else fcond c (m.fltElem h t a n) (m.fltElem h t b n)
     let offer (i : Instr) (c : Nat) : Prop :=
       s.mayIssue (Sys2Proof.vSlot h.f) i = true →
         let m := s.meets (Sys2Proof.vSlot h.f) i
         (∀ v, (∀ n, n < h.w.bits / e → m.laneOn h e n = true → cond m c n = v) → (v = true → m.anyLane h e fun _ => true) →
           Completes s (Sys2Proof.vSlot h.f) i [] [.cqPush v lat]) ∧
         (∀ l0 l1, l0 < h.w.bits / e → l1 < h.w.bits / e → m.laneSure h e l0 = true → m.laneSure h e l1 = true →
           cond m c l0 = false → cond m c l1 = true →
           (∀ n, n < l0 → m.laneSure h e n = true → cond m c n = true) →
           (∀ n, n < l1 → m.laneSure h e n = true → cond m c n = false) →
           Traps s (Sys2Proof.vSlot h.f) i { cause := 6, slot := Machine.vSlot h.f, info := l0 + 2 ^ 8 * l1 })
     offer (.vCmpEqU h t a b rm) 0 ∧ offer (.vCmpNeU h t a b rm) 1 ∧ offer (.vCmpLtU h t a b rm) 2 ∧
     offer (.vCmpLeU h t a b rm) 3 ∧ offer (.vCmpGtU h t a b rm) 4 ∧ offer (.vCmpGeU h t a b rm) 5 ∧
     offer (.vCmpUnU h t a b rm) 6)

/-- R160 to R164: what selection, permutation, the fixed patterns, broadcast and iota put into active
lanes. -/
def Obligations.VectorMoveResults : Prop :=
  ∀ (s : State) (h : VH) (t : BitVec 4) (d a b c k : BitVec 9) (ms : BitVec 4),
    let e := Ty.bits t.toNat
    let n := h.w.bits / e
    let put (i : Instr) (lat : Nat) (f : State → Nat → Nat) : Prop :=
      s.mayIssue (Sys2Proof.vSlot h.f) i = true →
        let m := s.meets (Sys2Proof.vSlot h.f) i
        Completes s (Sys2Proof.vSlot h.f) i [lanesWr m h d e lat (f m)] []
    let pair (m : State) (i : Nat) : Nat := if i < n then m.elem h t a i else m.elem h t b (i - n)
    put (.vSel h t d a b ms) 2 (fun m i =>
      if bitAt (m.rd (Machine.vSlot h.f) (.mask h.f ms.toNat)) i then m.elem h t a i else m.elem h t b i) ∧
    put (.vPerm h t d a b c) 3 (fun m i => pair m (m.elem h t c i % (2 * n))) ∧
    put (.vShuf h t 0 d a b k) 3 (fun m i => m.elem h t a (n - 1 - i)) ∧
    put (.vShuf h t 1 d a b k) 3 (fun m i => if i % 2 = 0 then m.elem h t a (i / 2) else m.elem h t b (i / 2)) ∧
    put (.vShuf h t 2 d a b k) 3 (fun m i => if i % 2 = 0 then m.elem h t a (n / 2 + i / 2) else m.elem h t b (n / 2 + i / 2)) ∧
    put (.vShuf h t 3 d a b k) 3 (fun m i => pair m (2 * i)) ∧
    put (.vShuf h t 4 d a b k) 3 (fun m i => pair m (2 * i + 1)) ∧
    put (.vShuf h t 5 d a b k) 3 (fun m i => m.elem h t a ((i + k.toNat) % n)) ∧
    put (.vShuf h t 6 d a b k) 3 (fun m i => m.elem h t a (i ^^^ 1)) ∧
    put (.vBcast h t d a k) 3 (fun m _ => m.elem h t a k.toNat) ∧
    (Ty.isInt t.toNat = true → put (.vIota h t d) 2 (fun _ i => i)) ∧
    (Ty.isInt t.toNat = false → put (.vIota h t d) 2 (fun _ i => ((fmtOf t.toNat).round .arith false 0 (ofInt i 0 false)).bits))

/-- R165 to R168: moves within a file, to the other file, to a scalar register and between masks; the indexed forms;
the spill window. -/
def Obligations.VectorTransferResults : Prop :=
  ∀ (s : State) (h : VH) (d a e : BitVec 9) (n : BitVec 6) (md ma : BitVec 4),
    let sl := Sys2Proof.vSlot h.f
    let put (i : Instr) (w : State → List Wr) (acts : State → List Act) : Prop :=
      s.mayIssue sl i = true → Completes s sl i (w (s.meets sl i)) (acts (s.meets sl i))
    let words (_ : State) (v : Nat) (i : Nat) : Nat := lane 32 v i
    let reg (m : State) (j : Nat) : Nat := m.rdV (Machine.vSlot h.f) h.f j
    let none_ (_ : State) : List Act := []
    put (.vMov h d a) (fun m => [lanesWr m h d 32 2 (words m (reg m a.toNat))]) none_ ∧
    put (.vMovCross h d a) (fun m => [vWr (otherFile h.f) d.toNat 32 (activeIn m (Machine.vSlot h.f) (otherFile h.f) h.m (h.w.bits / 32))
      (lanesOf 32 (h.w.bits / 32) (reg m a.toNat)) 2 .copy]) none_ ∧
    put (.vMovToScalar h.f h.w n a e) (fun m => [wholeWr (m.ix.sD n.toNat) 64 (lane 64 (reg m a.toNat) e.toNat % 2 ^ 64) 2 .copy]) none_ ∧
    put (.vMovMask h.f md ma) (fun m => [wholeWr (.mask h.f md.toNat) 128 (m.rd (Machine.vSlot h.f) (.mask h.f ma.toNat)) 2]) none_ ∧
    put (.vMovMaskCross h.f md ma)
      (fun m => [wholeWr (.mask (otherFile h.f) md.toNat) 128 (m.rd (Machine.vSlot h.f) (.mask h.f ma.toNat)) 2 .copy]) none_ ∧
    (let i := Instr.movIxGet h d n
     let j := (s.meets sl i).rdS (Machine.vSlot h.f) n.toNat % 512
     (s.meets sl i).ix.bankx (vFileNo h.f) j = false →
       put i (fun m => [lanesWr m h d 32 2 (words m (reg m j))]) none_) ∧
    (let i := Instr.movIxPut h a n
     let j := (s.meets sl i).rdS (Machine.vSlot h.f) n.toNat % 512
     (s.meets sl i).ix.bankx (vFileNo h.f) j = false →
       put i (fun m => [lanesWr m h (BitVec.ofNat 9 j) 32 2 (words m (reg m a.toNat))]) none_) ∧
    put (.vSpl h.f h.w a n) (fun _ => [])
      (fun m => [.spill (Machine.vSlot h.f) (128 * n.toNat) (h.w.bits / 8) (row (reg m a.toNat % 2 ^ h.w.bits))]) ∧
    put (.vFil h d n) (fun m => [lanesWr m h d 32 1 (words m (spillRead m.ix (128 * n.toNat) (h.w.bits / 8))) .load]) none_ ∧
    (s.mayIssue .va .vNop = true → Completes s .va .vNop [] [])

/-! ### Reductions and transforms -/

/-- R223, R225: what a reduction leaves in lane j of its latch, for a row r: groups of 2^f elements, level by level
pairs for f32 `add`, the compensated sum for `kadd`, the largest and smallest element that is no NaN, with -0 below +0, for
f32 `max` and `min`, the magnitude and the index of the lowest lane that is larger for `amax`, exact integers clamped to 56 bits;
lanes from 32 / 2^f on keep their content, and the row count goes up by one. R222, R225 to R227: the reductions read their row at issue and change
their latch at once, counting saturations six bundles on; `rd.mv` moves a latch out two bundles on, free while the
latch's last operation is fewer than six counted bundles old; `rd.clr` initialises latches. -/
def Obligations.ReductionResults : Prop :=
  (∀ (op ty f r j : Nat) (l : Latch), 1 ≤ op → op ≤ 5 → f ≤ 5 → j < 32 →
     let q := (reduce op ty f r l).1
     let L := l.lane j
     let g := (List.range (2 ^ f)).map fun i => lane 32 r (j * 2 ^ f + i)
     let ints := g.map (tval (ty = 1) 32)
     let val (x : Nat) : FV := fmtF32.dec x
     let live := g.filter fun x => !(val x).isNan
     let less (x y : Nat) : Bool := (val x).lt (val y) || ((val x).eq (val y) && (val x).isNeg && !(val y).isNeg)
     q.cnt = min (l.cnt + 1) 65535 ∧
     (32 / 2 ^ f ≤ j → q.lane j = L) ∧
     (j < 32 / 2 ^ f → ty ≠ 0 → op ≤ 2 → q.lane j = wrap 56 (max (-(2 ^ 55 - 1)) (min (2 ^ 55 - 1) (sval 56 L + ints.sum)))) ∧
     (j < 32 / 2 ^ f → ty ≠ 0 → op = 3 → q.lane j = wrap 56 (ints.foldl max (sval 56 L))) ∧
     (j < 32 / 2 ^ f → ty ≠ 0 → op = 4 → q.lane j = wrap 56 (ints.foldl min (sval 56 L))) ∧
     (j < 32 / 2 ^ f → ty = 0 → op = 3 → (live = [] → q.lane j = hiLo (hiOf L) 0) ∧
       ∀ m ∈ live, (∀ x ∈ live, less m x = false) →
         q.lane j = hiLo (if (val (hiOf L)).isNan || less (hiOf L) m then m else hiOf L) 0) ∧
     (j < 32 / 2 ^ f → ty = 0 → op = 4 → (live = [] → q.lane j = hiLo (hiOf L) 0) ∧
       ∀ m ∈ live, (∀ x ∈ live, less x m = false) →
         q.lane j = hiLo (if (val (hiOf L)).isNan || less m (hiOf L) then m else hiOf L) 0) ∧
     (j < 32 / 2 ^ f → ty = 0 → op = 5 → (live = [] → q.lane j = L) ∧
       ∀ t, t < 2 ^ f → let x (i : Nat) : Nat := g.getD i 0
         (val (x t)).isNan = false → (∀ i, i < 2 ^ f → (val (x i)).isNan = false → x i % 2 ^ 31 ≤ x t % 2 ^ 31) →
           (∀ i, i < t → (val (x i)).isNan = false → x i % 2 ^ 31 < x t % 2 ^ 31) →
             q.lane j = if (val (hiOf L)).lt (val (x t % 2 ^ 31)) then hiLo (x t % 2 ^ 31) (32 * l.cnt + (j * 2 ^ f + t)) else L) ∧
     (j < 32 / 2 ^ f → ty = 0 → op = 1 → q.lane j = hiLo (addF32 (hiOf L) (pairTree f g)) (loOf L)) ∧
     (j < 32 / 2 ^ f → ty = 0 → op = 2 →
       q.lane j = hiLo (addComp (hiOf L) (loOf L) (exactSum (g.map fmtF32.dec))).1 (addComp (hiOf L) (loOf L) (exactSum (g.map fmtF32.dec))).2)) ∧
  (∀ (s : State) (l mode t init : BitVec 2) (a : ASrc) (f : BitVec 3) (v : Nat) (d : VReg) (n : BitVec 6) (k : BitVec 5)
     (clr : Bool) (sel : BitVec 4),
     let red (i : Instr) (op : Nat) : Prop :=
       let m := s.meets .rd i
       let p := reduce op t.toNat f.toNat v (m.ix.latch l.toNat)
       s.mayIssue .rd i = true → m.ix.fenced = false → m.reads 11 a v →
         Completes s .rd i (countWr .satcAdd p.2 6) [.latch l.toNat p.1 true]
     let mv (i : Instr) (wr : State → Row → List Wr) : Prop :=
       let m := s.meets .rd i
       s.mayIssue .rd i = true →
         Completes s .rd i (wr m (if m.ix.bcount < tget 0 m.ix.latchDue l.toNat then row (2 ^ 1024 - 1) else 0))
           (if clr then [.latch l.toNat {} true] else [])
     red (.rdAdd l a t f) 1 ∧ red (.rdKadd l a t f) 2 ∧ red (.rdMax l a t f) 3 ∧ red (.rdMin l a t f) 4 ∧ red (.rdAmax l a t f) 5 ∧
     mv (.rdMv l mode t (.v d) k clr) (fun m o =>
       let vs := (List.range 32).map fun i => latchValue mode.toNat t.toNat ((m.ix.latch l.toNat).lane i)
       { wholeWr (.v d.f d.n.toNat) 1024 (ofLanes 32 (vs.map (·.1))) 2 .copy with open_ := o } ::
         countWr .satcAdd (vs.foldl (fun c x => c + b2n x.2) 0) 2) ∧
     mv (.rdMv l mode t (.s n) k clr) (fun m o =>
       let L := (m.ix.latch l.toNat).lane k.toNat
       [{ wholeWr (m.ix.sD n.toNat) 64
            (if mode = 0 ∧ t ≠ 0 then (sextW 56 L).toNat else (latchValue mode.toNat t.toNat L).1) 2 .copy with
          open_ := if o = 0 then 0 else row (2 ^ 64 - 1) }]) ∧
     (s.mayIssue .rd (.rdClr sel init t) = true → Completes s .rd (.rdClr sel init t) []
       (((List.range 4).filter fun n => sel.getLsbD n).map fun n => .latch n (latchInit init.toNat t.toNat) true)) ∧
     (s.mayIssue .rd .rdNop = true → Completes s .rd .rdNop [] []))

/-- R234, R235: a row that packs into 128 bytes expands again to itself; one that does not packs to a row that does
not decode. -/
def Obligations.PackedRowsExpand : Prop :=
  ∀ e v, e < 3 → v < 2 ^ 1024 →
    let w := 8 * 2 ^ e
    let n := 1024 / w
    let c := ((List.range n).filter fun i => lane w v i ≠ 0).length
    (2 + n / 8 + c * (w / 8) ≤ 128 → unpack (pack e v) = some v) ∧
    (128 < 2 + n / 8 + c * (w / 8) → unpack (pack e v) = none)

/-- R228 to R242: the rows and registers that transforms write, at their positions, with the AUTO steps of the
registers whose ROW they use. -/
def Obligations.TransformResults : Prop :=
  ∀ (s : State) (d a b : BitVec 4) (e : BitVec 2) (k : BitVec 7) (sh : BitVec 3) (key : Bool) (n : BitVec 6),
    let at_ (m : State) (x : BitVec 4) : Nat := m.rdX 10 x.toNat % 2 ^ 13
    let put (i : Instr) (ws : State → List Wr) : Prop :=
      s.mayIssue .xf i = true → Completes s .xf i (ws (s.meets .xf i)) []
    let w := 8 * 2 ^ e.toNat
    put (.xfTr e d a) (fun m => ((List.range 8).map fun r => xfWr (at_ m d + r)
      (ofLanes w ((List.range (1024 / w)).map fun i => lane w (m.xfRow a (i % 8)) (i / 8 * 8 + r))) 8) ++ autoWr m [d, a]) ∧
    put (.xfPack e d a) (fun m => xfWr (at_ m d) (pack e.toNat (m.xfRow a)) 6 :: autoWr m [d, a]) ∧
    put (.xfRot d a b k) (fun m =>
      xfWr (at_ m d) ((m.xfRow a + m.xfRow b * 2 ^ 1024) / 2 ^ (8 * k.toNat) % 2 ^ 1024) 3 :: autoWr m [d, a, b]) ∧
    put (.xfSwz d a sh key) (fun m =>
      xfWr (at_ m d) (swizzle ((if key then at_ m d else at_ m a) / 2 ^ sh.toNat % 8) (m.xfRow a)) 3 :: autoWr m [d, a]) ∧
    put (.xfMvRow d a) (fun m => xfWr (at_ m d) (m.xfRow a) 2 :: autoWr m [d, a]) ∧
    put (.xfMvScalar n a) (fun m => [wholeWr (m.ix.sD n.toNat) 64 (m.rdX 10 a.toNat % 2 ^ 64) 2 .copy]) ∧
    put (.xfMvReg d a) (fun m => [wholeWr (.x d.toNat) 64 (m.rdX 10 a.toNat) 2]) ∧
    (let i := Instr.xfExpZr d a
     let m := s.meets .xf i
     (∀ v, unpack (m.xfRow a) = some v → put i (fun m => xfWr (at_ m d) v 6 :: autoWr m [d, a])) ∧
     (s.mayIssue .xf i = true → unpack (m.xfRow a) = none → Traps s .xf i { cause := 15, slot := 10, info := 1 + at_ m a * 2 ^ 8 })) ∧
    (let i := Instr.xfExpSp24 e d a
     let m := s.meets .xf i
     (∀ v, expand24 w (m.xfRow a) = some v → put i (fun m => xfWr (at_ m d) v 6 :: autoWr m [d, a])) ∧
     (s.mayIssue .xf i = true → expand24 w (m.xfRow a) = none →
       Traps s .xf i { cause := 15, slot := 10, info := 2 + at_ m a * 2 ^ 8 })) ∧
    (s.mayIssue .xf .xfNop = true → Completes s .xf .xfNop [] [])

/-- R231 to R233, R240: conversion, scaling and the colophon operations. -/
def Obligations.TileResults : Prop :=
  ∀ (s : State) (d a b t src q : BitVec 4) (ty : BitVec 2) (v tile : Bool) (rm : BitVec 3),
    let at_ (m : State) (x : BitVec 4) : Nat := m.rdX 10 x.toNat % 2 ^ 13
    let put (i : Instr) (ws : State → List Wr) (acts : State → List Act) : Prop :=
      s.mayIssue .xf i = true → Completes s .xf i (ws (s.meets .xf i)) (acts (s.meets .xf i))
    let es := Ty.bits src.toNat
    let et := Ty.bits t.toNat
    let n := 1024 / max es et
    let shift := if et < es then q.toNat * n * et else 0
    let els (m : State) : List Nat := (List.range n).map fun i => lane es (m.xfRow a) (if es < et then q.toNat * n + i else i)
    let conv (m : State) : List (Nat × Bool) := (els m).map fun x => convTo t.toNat m.fmtRm (elemVal src.toNat x)
    let sats (m : State) : Nat := (conv m).countP (·.2)
    let rsvs (m : State) : Nat := (els m).countP fun x => src == 13 && x == 2
    let upd (m : State) : TileUpd :=
      { tt := t.toNat, row := at_ m d, joins := es ≤ et || q.toNat + 1 == Ty.ratio src.toNat t.toNat,
        tmax := BitVec.ofNat 32 ((els m).foldl (fun k x => max k (magF32 src.toNat x)) 0), sat := sats m, rsv := rsvs m }
    let scl := xfSclType ty
    let wd := Ty.bits scl
    put (.xfCvt t src d a q tile) (fun m =>
      xfWr (at_ m d) (ofLanes et ((conv m).map (·.1)) <<< shift) 6 (onesAt shift (n * et)) (if tile then some (upd m) else none) ::
        (if tile then [] else countWr .satcAdd (sats m) 6 ++ countWr .rsvcAdd (rsvs m) 6) ++ autoWr m [d, a]) (fun _ => []) ∧
    put (.xfScl ty v rm d a b) (fun m =>
      xfWr (at_ m d) (ofLanes wd ((List.range (1024 / wd)).map fun i =>
        ((fmtOf scl).round (if m.fmtSat then .largest else .arith) false (rmode rm.toNat m.fmtRm)
          (((fmtOf scl).dec (lane wd (m.xfRow a) i)).mul
            (fmtF32.dec (if v then lane 32 (m.xfRow b) i else bitsAt (m.rdX 10 b.toNat) 32 32))).1).bits)) 6 ::
        autoWr m (if v then [d, a, b] else [d, a])) (fun _ => []) ∧
    (let i := Instr.xfColW d b
     let m := s.meets .xf i
     let x := m.ix.tile
     (m.ix.pend.all fun p => p.tile.isNone) = true →
       (x.trows ≠ 0 → put i (fun m => xfWr (at_ m d) (colophon (bitsAt (m.rdX 10 b.toNat) 32 32) x.tmax.toNat x.tsat x.trsv
         (x.tcrc.toNat ^^^ 0xFFFFFFFF) x.tfmt (x.tv && at_ m d == (x.tfirst + x.trows) % 8192) x.trows) 6 :: autoWr m [d])
         (fun _ => [.tileClr])) ∧
       (x.trows = 0 → s.mayIssue .xf i = true → Traps s .xf i { cause := 15, slot := 10, info := 3 + at_ m d * 2 ^ 8 })) ∧
    (let i := Instr.xfColChk t a
     let m := s.meets .xf i
     let c := m.xfRow a
     let rows := bitsAt c 176 16
     let code := colCheck c t.toNat rows ((List.range rows).map fun j => m.rdRow 10 (at_ m a + 8192 * 9 - rows + j))
     (code = 0 → put i (fun m => autoWr m [a]) (fun m => [.wait (.cycle (m.now + rows + 4))])) ∧
     (code ≠ 0 → s.mayIssue .xf i = true →
       Traps s .xf i { cause := 8, slot := 10, info := code + at_ m a * 2 ^ 4 + t.toNat * 2 ^ 18 })) ∧
    put (.xfColRd d a) (fun m => (autoWr m [a]).filter (fun w => w.dest ≠ .x d.toNat) ++
      [{ wholeWr (.x d.toNat) 64 (bitsAt (m.xfRow a) 32 32 * 2 ^ 32 + bitsAt (m.xfRow a) 0 32) 6 with open_ := 0 }]) (fun _ => []) ∧
    put .xfColClr (fun _ => []) (fun _ => [.tileClr])

/-! ### Loads, stores, atomics -/

/-- R171 to R173, R180 to R185, R187, R188: loads from the local scratchpad, the active state bank and handles write
their register through the load port at their position, and note the row they read. A local access waits for no one:
no fence of the context is outstanding. -/
def Obligations.LocalLoadResults : Prop :=
  ∀ (s : State) (d : VReg) (n : BitVec 6) (a : Mem) (b k : BitVec 5) (o : BitVec 15),
    let load (i : Instr) (ea : State → Nat) (lim lat : Nat) (v : State → Nat → Option Nat) (dst : State → Dest × Nat)
        (note : Bool) : Prop :=
      let m := s.meets .ld i
      s.mayIssue .ld i = true → m.ix.fenced = false → ea m < lim → ∀ x, v m (ea m) = some x →
        Completes s .ld i [wholeWr (dst m).1 (dst m).2 x lat .load] (if note then [.touch (ea m / 128)] else [])
    let vec (_ : State) : Dest × Nat := (.v d.f d.n.toNat, 1024)
    let base (m : State) : Nat := (((m.rdLa 6 a.base.toNat : Int) + 128 * a.off.toInt) % 2 ^ 64).toNat
    load (.ldRow d a) base (2 ^ 20) 4 (fun m ea => some (m.rdRow 6 (ea / 128))) vec true ∧
    load (.ldS n a) base (2 ^ 20) 4 (fun m ea => some (lane 64 (m.rdRow 6 (ea / 128)) (ea / 8 % 16) % 2 ^ 64))
      (fun m => (m.ix.sD n.toNat, 64)) true ∧
    load (.ldBc d a) base (2 ^ 20) 4
      (fun m ea => some (ofLanes 32 (List.replicate 32 (lane 32 (m.rdRow 6 (ea / 128)) (ea / 4 % 32))))) vec true ∧
    load (.ldIdx d b k o) (fun m => (((m.rdLa 6 b.toNat : Int) + 128 * (m.rdLa 6 k.toNat : Int) + 128 * o.toInt) % 2 ^ 64).toNat)
      (2 ^ 20) 4 (fun m ea => some (m.rdRow 6 (ea / 128))) vec true ∧
    load (.ldZ d a) base (2 ^ 20) 6 (fun m ea => unpack (m.rdRow 6 (ea / 128))) vec true ∧
    load (.ldSb d a) base (2 ^ 19) 4 (fun m ea => some (m.bankRow m.ik m.ij (ea / 128))) vec false ∧
    (let i := Instr.ldH d a
     let m := s.meets .ld i
     let r := m.ix.ring a.base.toNat
     let x := (r.con.toNat + a.off.toNat) % r.n
     s.mayIssue .ld i = true → m.ix.fenced = false → r.bound = true → a.off.toNat < 2 ^ 19 → a.off.toNat < r.n →
       a.off.toNat < r.filled → tget 0 r.bad x = 0 →
       Completes s .ld i [wholeWr (vec m).1 1024 (m.rdRow 6 (r.base + x)) 4 .load] [.touch (r.base + x)]) ∧
    (s.mayIssue .ld .ldNop = true → Completes s .ld .ldNop [] [])

/-- R171, R174 to R176, R188: a local load whose address lies beyond its space, and a consumer form whose offset lies
beyond its ring, trap `SPRANGE`; one that names an unbound handle traps `SYNCERR` 7; one whose slot holds a faulted row, or
whose packed row is malformed, traps `DATA_FAULT`. R70, R185: a `.chk` load whose colophon holds gives its row like the
plain form and holds the next bundle for the rows it checks; one that fails traps `COLOPHON` with the first condition that
fails, 6 where its rows do not lie within its space, and names the row or the slot of the ring. The order of the conditions is that
of log entry 34, and the faulted payload slot that `ld.h.chk` meets that of log entry 50 (both DEDUCED). -/
def Obligations.LoadTrapsAndChecks : Prop :=
  (∀ (s : State) (d : VReg) (n : BitVec 6) (a : Mem) (b k : BitVec 5) (o : BitVec 15),
     let far (i : Instr) (ea : State → Nat) (lim : Nat) : Prop :=
       let m := s.meets .ld i
       s.mayIssue .ld i = true → m.ix.fenced = false → lim ≤ ea m → Traps s .ld i { cause := 11, slot := 6, info := ea m }
     let base (m : State) : Nat := eaLd m a
     let ring (i : Instr) : Prop :=
       let m := s.meets .ld i
       let r := m.ix.ring a.base.toNat
       let x := (r.con.toNat + a.off.toNat) % r.n
       s.mayIssue .ld i = true → m.ix.fenced = false →
         (r.bound = false → Traps s .ld i { cause := 13, slot := 6, info := 7 }) ∧
         (r.bound = true → 2 ^ 19 ≤ a.off.toNat ∨ r.n ≤ a.off.toNat →
           Traps s .ld i { cause := 11, slot := 6, info := a.base.toNat + a.off.toNat * 32 }) ∧
         (r.bound = true → a.off.toNat < 2 ^ 19 → a.off.toNat < r.n → a.off.toNat < r.filled → tget 0 r.bad x ≠ 0 →
           Traps s .ld i { cause := 10, slot := 6, info := a.base.toNat + x * 2 ^ 5 + tget 0 r.bad x * 2 ^ 18 })
     far (.ldRow d a) base (2 ^ 20) ∧ far (.ldRowChk d a) base (2 ^ 20) ∧ far (.ldS n a) base (2 ^ 20) ∧
     far (.ldBc d a) base (2 ^ 20) ∧ far (.ldZ d a) base (2 ^ 20) ∧ far (.ldSb d a) base (2 ^ 19) ∧
     far (.ldIdx d b k o) (fun m => (((m.rdLa 6 b.toNat : Int) + 128 * (m.rdLa 6 k.toNat : Int) + 128 * o.toInt) % 2 ^ 64).toNat)
       (2 ^ 20) ∧
     ring (.ldH d a) ∧ ring (.ldHChk d a) ∧
     (let i := Instr.ldZ d a
      let m := s.meets .ld i
      s.mayIssue .ld i = true → m.ix.fenced = false → base m < 2 ^ 20 → unpack (m.rdRow 6 (base m / 128)) = none →
        Traps s .ld i { cause := 10, slot := 6, info := 4 * 2 ^ 18 })) ∧
  (∀ (s : State) (d : VReg) (a : Mem),
     let head (v ty : Nat) : Nat :=
       let c := colCheck v ty (bitsAt v 176 16) []
       if c = 0 ∨ c = 5 then 6 else c
     (let i := Instr.ldRowChk d a
      let m := s.meets .ld i
      let w := eaLd m a / 128
      let v := m.rdRow 6 w
      let rows := bitsAt v 176 16
      let code := if w < rows then head v m.fAF
        else colCheck v m.fAF rows ((List.range rows).map fun j => m.rdRow 6 (w - rows + j))
      s.mayIssue .ld i = true → m.ix.fenced = false → eaLd m a < 2 ^ 20 →
        (code = 0 → Completes s .ld i [wholeWr (.v d.f d.n.toNat) 1024 v 4 .load] [.touch w, .wait (.cycle (m.now + rows + 4))]) ∧
        (code ≠ 0 → Traps s .ld i { cause := 8, slot := 6, info := code + w * 2 ^ 4 + m.fAF * 2 ^ 18 })) ∧
     (let i := Instr.ldHChk d a
      let m := s.meets .ld i
      let r := m.ix.ring a.base.toNat
      let o := a.off.toNat
      let slot (q : Nat) : Nat := (r.con.toNat + q) % r.n
      let v := m.rdRow 6 (r.base + slot o)
      let rows := bitsAt v 176 16
      let sound (q : Nat) : Prop := tget 0 r.bad (slot q) = 0
      let code := if o < rows then head v m.fAF
        else colCheck v m.fAF rows ((List.range rows).map fun j => m.rdRow 6 (r.base + slot (o - rows + j)))
      s.mayIssue .ld i = true → m.ix.fenced = false → r.bound = true → o < 2 ^ 19 → o < r.n → o < r.filled → sound o →
        (rows ≤ o → ∀ q, q < rows → ¬sound (o - rows + q) → (∀ p, p < q → sound (o - rows + p)) →
          Traps s .ld i { cause := 10, slot := 6,
                          info := a.base.toNat + slot (o - rows + q) * 2 ^ 5 + tget 0 r.bad (slot (o - rows + q)) * 2 ^ 18 }) ∧
        ((∀ q, o - rows ≤ q → q < o → sound q) ∨ o < rows →
          (code = 0 → Completes s .ld i [wholeWr (.v d.f d.n.toNat) 1024 v 4 .load]
            [.touch (r.base + slot o), .wait (.cycle (m.now + rows + 4))]) ∧
          (code ≠ 0 → Traps s .ld i { cause := 8, slot := 6, info := code + slot o * 2 ^ 4 + 2 ^ 17 + m.fAF * 2 ^ 18 }))))

/-- R177, R186, R189: loads of other cores' rows are posted and give their result at the twelfth position; `ldg`
reserves its slots and posts one fetch per row; an acquire is posted at its scope, and the next bundle finds its
value. R229: a row of its own core that an XF result of the context is on its way to reads unpredictable. R171, R177, R433:
an address beyond the window or in an absent core traps `SPRANGE`, more rows than the ring has likewise, an unbound handle
`SYNCERR` 7, and a global address that does not translate traps `XLATE` at issue. -/
def Obligations.PostedLoadResults : Prop :=
  ∀ (s : State) (d : VReg) (h : BitVec 5) (cnt : BitVec 4) (sc : BitVec 3) (x : DReg) (a : Mem),
    (let i := Instr.ldPr d a
     let m := s.meets .ld i
     let ea := eaLd m a
     let k := clusterOf m.ik * 4 + ea / 2 ^ 20 % 4
     s.mayIssue .ld i = true →
       (ea < 2 ^ 22 → m.coreOk k = true →
         Completes s .ld i [] [.post
            { kind := .load, loc := .win k (ea / 128 % 2 ^ 13), ret := true, open_ := m.onWay k (ea / 128 % 2 ^ 13) }
           (some (.v d.f d.n.toNat)) (row (2 ^ 1024 - 1)) 12]) ∧
       (2 ^ 22 ≤ ea ∨ m.coreOk k = false → Traps s .ld i { cause := 11, slot := 6, info := ea })) ∧
    (let i := Instr.ldg h cnt a
     let m := s.meets .ld i
     let r := m.ix.ring h.toNat
     let n := cnt.toNat + 1
     let ea := eaLd m a / 128 * 128
     s.mayIssue .ld i = true → (r.bound = false → Traps s .ld i { cause := 13, slot := 6, info := 7 }) ∧ (r.bound = true →
       (n ≤ r.n → n ≤ r.freeSlots → Completes s .ld i []
         (.adv h.toNat 0 0 n :: (List.range n).map fun q =>
           .post { kind := .ldg h.toNat ((r.res.toNat + q) % r.n), loc := .virt ((ea + 128 * q) % 2 ^ 64), va := (ea + 128 * q) % 2 ^ 64,
                   fn := m.fnOf m.ik m.ij, priv := m.privOf m.ik m.ij } none 0 0)) ∧
       (r.n < n → Traps s .ld i { cause := 11, slot := 6, info := h.toNat + n * 32 }))) ∧
    (let i := Instr.ldAcq sc x a
     let m := s.meets .ld i
     let ea := eaLd m a
     let k := clusterOf m.ik * 4 + ea / 2 ^ 20 % 4
     let post (l : Loc) (late : Bool) : Prop := Completes s .ld i []
       [.post { kind := .acq, loc := l, open_ := late, lo := dregLo x ea, len := dregLen x, scope := sc.toNat, ret := true, va := ea % 2 ^ 52 }
         (some (dregDest m x)) (match x with | .v _ => row (2 ^ 1024 - 1) | .s _ => row (2 ^ 64 - 1)) 1]
     s.mayIssue .ld i = true →
       (ea < 2 ^ 22 → m.coreOk k = true → post (.win k (ea / 128 % 2 ^ 13)) (m.onWay k (ea / 128 % 2 ^ 13))) ∧
       (∀ g p pa, 2 ^ 63 ≤ ea → ea < 2 ^ 63 + 2 ^ 52 → m.xlate m.ik m.ij (ea - 2 ^ 63) false false false = .ok g p pa →
         post (.phys g p pa) false) ∧
       (ea < 2 ^ 63 → 2 ^ 22 ≤ ea ∨ m.coreOk k = false → Traps s .ld i { cause := 11, slot := 6, info := ea }) ∧
       (2 ^ 63 + 2 ^ 52 ≤ ea → Traps s .ld i { cause := 9, slot := 6, info := 7, va := ea % 2 ^ 52 }) ∧
       (∀ kd lv, 2 ^ 63 ≤ ea → ea < 2 ^ 63 + 2 ^ 52 → m.xlate m.ik m.ij (ea - 2 ^ 63) false false false = .fault kd lv →
         Traps s .ld i { cause := 9, slot := 6, info := kd + lv * 64, va := ea % 2 ^ 52 }))

/-- R171 to R175, R177, R180, R190: local stores change their row, word or slot with the bundle; the others are posted
with their data and their bytes, one into the window with the bits that XF results of the context are on their way to, which it
leaves unpredictable (R229). R171, R433: an address beyond its space, an offset beyond its ring or an absent core traps `SPRANGE`,
an unbound handle `SYNCERR` 7, and a global address that does not translate traps `XLATE` at issue. -/
def Obligations.StoreResults : Prop :=
  ∀ (s : State) (v : VReg) (n : BitVec 6) (x : DReg) (sc : BitVec 3) (a : Mem),
    let store (i : Instr) (ok : State → Prop) (acts : State → List Act) : Prop :=
      s.mayIssue .st i = true → ok (s.meets .st i) → Completes s .st i [] (acts (s.meets .st i))
    let reg (m : State) : Row := row (m.rdV 7 v.f v.n.toNat)
    let local_ (lim : Nat) (m : State) : Prop := m.ix.fenced = false ∧ eaSt m a < lim
    let global (m : State) (l : Loc) : Prop :=
      ∃ g p pa, eaSt m a < 2 ^ 52 ∧ m.xlate m.ik m.ij (eaSt m a) true false false = .ok g p pa ∧ l = .phys g p pa
    let peer (m : State) : Nat := clusterOf m.ik * 4 + eaSt m a / 2 ^ 20 % 4
    let bytes (m : State) (q : AccKind) (l : Loc) : Acc :=
      { kind := q, loc := l, lo := dregLo x (eaSt m a), len := dregLen x, data := row (dregVal m 7 x), va := eaSt m a % 2 ^ 52 }
    store (.stRow v a) (local_ (2 ^ 20)) (fun m => [.pad (eaSt m a / 128) (row (2 ^ 1024 - 1)) (reg m)]) ∧
    store (.stS n a) (local_ (2 ^ 20)) (fun m => [.pad (eaSt m a / 128) (row (onesAt (64 * (eaSt m a / 8 % 16)) 64))
      (row (m.rdS 7 n.toNat <<< (64 * (eaSt m a / 8 % 16))))]) ∧
    store (.stSb v a) (local_ (2 ^ 19)) (fun m => [.sb (eaSt m a / 128) (reg m)]) ∧
    store (.stH v a) (fun m => m.ix.fenced = false ∧ (m.ix.ring a.base.toNat).bound = true ∧ a.off.toNat < 2 ^ 19 ∧
        a.off.toNat < (m.ix.ring a.base.toNat).n ∧ a.off.toNat < (m.ix.ring a.base.toNat).freeSlots)
      (fun m => let r := m.ix.ring a.base.toNat
        [.pad (r.base + (r.res.toNat + a.off.toNat) % r.n) (row (2 ^ 1024 - 1)) (reg m), .made a.base.toNat a.off.toNat]) ∧
    (∀ l, store (.stg x a) (fun m => global m l) (fun m => [.post (bytes m .store l) none 0 0])) ∧
    (∀ l, store (.stNt x a) (fun m => global m l) (fun m => [.post (bytes m .nt l) none 0 0])) ∧
    store (.stPr v a) (fun m => eaSt m a < 2 ^ 22 ∧ m.coreOk (peer m) = true)
      (fun m => [.post { kind := .store, loc := .win (peer m) (eaSt m a / 128 % 2 ^ 13), data := reg m,
                         spoil := m.wayBits (peer m) (eaSt m a / 128 % 2 ^ 13) } none 0 0]) ∧
    store (.stRel sc x a) (fun m => eaSt m a < 2 ^ 22 ∧ m.coreOk (peer m) = true)
      (fun m => [.post { bytes m .rel (.win (peer m) (eaSt m a / 128 % 2 ^ 13)) with
                         scope := sc.toNat, spoil := m.wayBits (peer m) (eaSt m a / 128 % 2 ^ 13) } none 0 0]) ∧
    (∀ g p pa, store (.stRel sc x a) (fun m => 2 ^ 63 ≤ eaSt m a ∧ eaSt m a < 2 ^ 63 + 2 ^ 52 ∧
        m.xlate m.ik m.ij (eaSt m a - 2 ^ 63) true false false = .ok g p pa)
      (fun m => [.post { bytes m .rel (.phys g p pa) with scope := sc.toNat } none 0 0])) ∧
    (s.mayIssue .st .stNop = true → Completes s .st .stNop [] []) ∧
    (let traps (i : Instr) (ok : State → Prop) (c : Nat) (info : State → Nat) (va : State → Nat := fun _ => 0) : Prop :=
       s.mayIssue .st i = true → ok (s.meets .st i) →
         Traps s .st i { cause := c, slot := 7, info := info (s.meets .st i), va := va (s.meets .st i) }
     let ea (m : State) : Nat := eaSt m a
     let ring (m : State) : Ring := m.ix.ring a.base.toNat
     let at_ (m : State) : Nat := ea m % 2 ^ 52
     let bad (kd lv : Nat) (from_ : Nat) (m : State) : Prop := from_ ≤ ea m ∧ ea m < from_ + 2 ^ 52 ∧
       m.xlate m.ik m.ij (ea m - from_) true false false = .fault kd lv
     traps (.stRow v a) (fun m => m.ix.fenced = false ∧ 2 ^ 20 ≤ ea m) 11 ea ∧
     traps (.stS n a) (fun m => m.ix.fenced = false ∧ 2 ^ 20 ≤ ea m) 11 ea ∧
     traps (.stSb v a) (fun m => m.ix.fenced = false ∧ 2 ^ 19 ≤ ea m) 11 ea ∧
     traps (.stH v a) (fun m => m.ix.fenced = false ∧ (ring m).bound = false) 13 (fun _ => 7) ∧
     traps (.stH v a) (fun m => m.ix.fenced = false ∧ (ring m).bound = true ∧ (2 ^ 19 ≤ a.off.toNat ∨ (ring m).n ≤ a.off.toNat)) 11
       (fun _ => a.base.toNat + a.off.toNat * 32) ∧
     traps (.stPr v a) (fun m => 2 ^ 22 ≤ ea m ∨ m.coreOk (peer m) = false) 11 ea ∧
     traps (.stRel sc x a) (fun m => ea m < 2 ^ 63 ∧ (2 ^ 22 ≤ ea m ∨ m.coreOk (peer m) = false)) 11 ea ∧
     traps (.stg x a) (fun m => 2 ^ 52 ≤ ea m) 9 (fun _ => 7 + 16) at_ ∧
     traps (.stNt x a) (fun m => 2 ^ 52 ≤ ea m) 9 (fun _ => 7 + 16) at_ ∧
     traps (.stRel sc x a) (fun m => 2 ^ 63 + 2 ^ 52 ≤ ea m) 9 (fun _ => 7 + 16) at_ ∧
     ∀ kd lv, traps (.stg x a) (bad kd lv 0) 9 (fun _ => kd + 16 + lv * 64) at_ ∧
       traps (.stNt x a) (bad kd lv 0) 9 (fun _ => kd + 16 + lv * 64) at_ ∧
       traps (.stRel sc x a) (bad kd lv (2 ^ 63)) 9 (fun _ => kd + 16 + lv * 64) at_)

/-- R191, R192: an atomic posts its operation on the aligned word its address selects; with register 0 it returns
nothing. R191: the word an atomic leaves, as its pseudocode gives it: wrapped sum, signed minimum and maximum, exchange, compare
and exchange, logic. R229: in a row that XF results of the context are on their way to it reads those bits unpredictable and
leaves them so. R171, R433: an address beyond the window or in an absent core traps `SPRANGE`, and a global address that does not
translate, or on a host page an operation that has no AtomicOp, traps `XLATE` at issue. -/
def Obligations.AtomicResults : Prop :=
  (∀ (s : State) (w64 : Bool) (r : BitVec 6) (a : Mem),
     let atom (mk : Bool → Instr) (op : Nat) : Prop :=
       let post (i : Instr) (gl : Bool) (l : Loc) : Prop :=
         let m := s.meets .st i
         let ea := eaSt m a
         let len := if w64 then 8 else 4
         Completes s .st i []
           [.post { kind := .atom op w64 (BitVec.ofNat 64 (m.rdS 7 r.toNat)) (BitVec.ofNat 64 (if op = 4 then m.rdS 7 (r.toNat + 1) else 0)),
                    loc := l, lo := ea % 128 / len * len, len := len, ret := r.toNat ≠ 0, va := ea % 2 ^ 52,
                    open_ := m.locBits l != 0, spoil := m.locBits l }
             (if r.toNat = 0 then none else some (m.ix.sD r.toNat)) (row (2 ^ 64 - 1)) (if gl then 1 else 6)]
       (let m := s.meets .st (mk false)
        let k := clusterOf m.ik * 4 + eaSt m a / 2 ^ 20 % 4
        s.mayIssue .st (mk false) = true →
          (eaSt m a < 2 ^ 22 → m.coreOk k = true → post (mk false) false (.win k (eaSt m a / 128 % 2 ^ 13))) ∧
          (2 ^ 22 ≤ eaSt m a ∨ m.coreOk k = false → Traps s .st (mk false) { cause := 11, slot := 7, info := eaSt m a })) ∧
       (let m := s.meets .st (mk true)
        let x : Xr := m.xlate m.ik m.ij (eaSt m a) true false (op == 1 || op == 2 || 5 ≤ op)
        s.mayIssue .st (mk true) = true →
          (∀ g p pa, eaSt m a < 2 ^ 52 → x = .ok g p pa → post (mk true) true (.phys g p pa)) ∧
          (2 ^ 52 ≤ eaSt m a → Traps s .st (mk true) { cause := 9, slot := 7, info := 7 + 16, va := eaSt m a % 2 ^ 52 }) ∧
          (∀ kd lv, eaSt m a < 2 ^ 52 → x = .fault kd lv →
            Traps s .st (mk true) { cause := 9, slot := 7, info := kd + 16 + lv * 64, va := eaSt m a % 2 ^ 52 }))
     atom (.aadd · w64 r a) 0 ∧ atom (.amin · w64 r a) 1 ∧ atom (.amax · w64 r a) 2 ∧ atom (.axch · w64 r a) 3 ∧
     atom (.acas · w64 r a) 4 ∧ atom (.aand · w64 r a) 5 ∧ atom (.aor · w64 r a) 6 ∧ atom (.axor · w64 r a) 7) ∧
  (∀ (w : Nat) (old v v2 : BitVec w), 0 < w → w ≤ 64 →
     let new (op : Nat) : BitVec w := BitVec.ofNat w (atomNew op w old.toNat v.toNat v2.toNat)
     new 0 = old + v ∧ new 1 = (if old.slt v then old else v) ∧ new 2 = (if old.slt v then v else old) ∧ new 3 = v ∧
     new 4 = (if old = v then v2 else old) ∧ new 5 = old &&& v ∧ new 6 = old ||| v ∧ new 7 = old ^^^ v)

/-! ### Synchronisation and control -/

/-- R196, R197, R208, R211, R216 to R219: barriers, timelines, the L1 operations, handle binding, drains and fences
take effect with their bundle; what names a wait holds the next bundle; the status forms write their word two bundles
on. R210, R215: `h.advc` and `h.advp` move the counts of a bound handle on once enough slots are filled or free; more
slots than the ring has, and a side that a stream holds, trap `SYNCERR` 3 and 4, an unbound handle 7. -/
def Obligations.SyncResults : Prop :=
  (∀ (s : State) (b r d : BitVec 6) (n : BitVec 10) (p : BitVec 2) (q : Bool) (e : BitVec 3) (h : BitVec 5) (sel2 : BitVec 2)
     (rg : Option (BitVec 6 × BitVec 14)) (sc : BitVec 3),
     let act (i : Instr) (ok : State → Prop) (acts : State → List Act) : Prop :=
       s.mayIssue .sy i = true → ok (s.meets .sy i) → Completes s .sy i [] (acts (s.meets .sy i))
     let read (i : Instr) (v : State → Nat) : Prop :=
       s.mayIssue .sy i = true → Completes s .sy i [wholeWr ((s.meets .sy i).ix.sD d.toNat) 64 (v (s.meets .sy i) % 2 ^ 64) 2 .copy] []
     let range (m : State) : Option (Nat × Nat) := rg.map fun x => (m.rdS 9 x.1.toNat / 128 * 128, x.2.toNat + 1)
     let always (_ : State) : Prop := True
     act (.nbInit b n) always (fun m => [.nb m.ik b.toNat { init := some n.toNat, ready := m.now + 1 }]) ∧
     act (.nbExp b r) always (fun m => [.nb m.ik b.toNat { x := m.rdS 9 r.toNat % 2 ^ 32, ready := m.now + 1 }]) ∧
     act (.nbArr b none) always
       (fun m => [.post { kind := .arrive m.ik b.toNat, loc := .nowhere, scope := 1, va := m.now + 2 } none 0 0]) ∧
     act (.nbArr b (some p)) (fun m => m.coreOk (clusterOf m.ik * 4 + p.toNat) = true)
       (fun m => [.post { kind := .arrive (clusterOf m.ik * 4 + p.toNat) b.toNat, loc := .nowhere, scope := 2, va := m.now } none 0 0]) ∧
     act (.nbWait b q) always (fun _ => [.wait (.nb b.toNat q)]) ∧
     read (.nbStat d b q) (fun m => ((m.core m.ik).nb b.toNat).word q) ∧
     (let i (k : Bool) := Instr.tlWait e k r
      let cnt (m : State) (k : Bool) : Nat := if k then m.rdS 9 r.toNat else m.rdC 9 (r.toNat % 32)
      ∀ k, act (i k) (fun m => cnt m k ≤ (m.ix.tl e.toNat).i) (fun m => [.wait (.tl e.toNat (cnt m k))]) ∧
        (let m := s.meets .sy (i k)
         s.mayIssue .sy (i k) = true → (m.ix.tl e.toNat).i < cnt m k → Traps s .sy (i k) { cause := 13, slot := 9, info := 1 })) ∧
     read (.tlRead d e sel2) (fun m => (m.ix.tl e.toNat).word sel2.toNat) ∧
     act (.invL1 rg) always (fun m => [.dropL1 (range m)]) ∧
     act (.wbL1 rg) always (fun m => [.post { kind := .wb (range m), loc := .nowhere, fn := m.fnOf m.ik m.ij } none 0 0]) ∧
     (let i := Instr.hBind h r
      let m := s.meets .sy i
      let v := m.rdS 9 r.toNat
      let o := m.ix.ring h.toNat
      ∀ base cnt, v = base + cnt * 2 ^ 16 → base < 2 ^ 13 → 0 < cnt → cnt < 2 ^ 14 → s.mayIssue .sy i = true →
        (base + cnt ≤ 8192 → o.held = 0 → o.res = o.fil →
          Completes s .sy i [] [.ring h.toNat { base := base, n := cnt, bound := true }]) ∧
        (8192 < base + cnt → Traps s .sy i { cause := 13, slot := 9, info := 6 }) ∧
        (base + cnt ≤ 8192 → o.held ≠ 0 → Traps s .sy i { cause := 13, slot := 9, info := 2 }) ∧
        (base + cnt ≤ 8192 → o.held = 0 → o.res ≠ o.fil → Traps s .sy i { cause := 13, slot := 9, info := 5 })) ∧
     read (.hStat d h q) (fun m => (m.ix.ring h.toNat).word q) ∧
     act (.drain sc) always (fun _ => [.wait (.drain sc.toNat)]) ∧
     act (.fence sc) always (fun _ => [.post { kind := .fence, loc := .nowhere, scope := sc.toNat } none 0 0]) ∧
     act .syNop always (fun _ => [])) ∧
  (∀ (s : State) (h : BitVec 5) (k : BitVec 14),
     let adv (i : Instr) (stop : Nat) (room : Ring → Nat) (acts : List Act) : Prop :=
       let m := s.meets .sy i
       let r := m.ix.ring h.toNat
       s.mayIssue .sy i = true →
         (r.bound = false → Traps s .sy i { cause := 13, slot := 9, info := 7 }) ∧
         (r.bound = true → r.n < k.toNat → Traps s .sy i { cause := 13, slot := 9, info := 3 }) ∧
         (r.bound = true → k.toNat ≤ r.n → r.held = stop → Traps s .sy i { cause := 13, slot := 9, info := 4 }) ∧
         (r.bound = true → k.toNat ≤ r.n → r.held ≠ stop → k.toNat ≤ room r → Completes s .sy i [] acts)
     adv (.hAdvc h k) 2 Ring.filled [.adv h.toNat k.toNat 0 0] ∧
     adv (.hAdvp h k) 1 Ring.freeSlots [.adv h.toNat 0 k.toNat k.toNat])

/-- R110: `CTLERR` is precise at the bundle, with INFO 1 for a `loop` level not above the innermost active loop, 2 for
a body past the body of the enclosing active loop, 3 for a `call` with a full return stack and 4 for a `ret` with an
empty one; and what branches, calls, returns and loops do where nothing stands against them. In handler mode `loop`
does not trap `CTLERR`: it terminates the context (R426, HandlerTraps). -/
def Obligations.FlowResults : Prop :=
  ∀ (s : State) (t : Addr) (f : Bool) (k lvl set : BitVec 3) (len : BitVec 10) (n : LoopCnt),
    let act (i : Instr) (ok : State → Prop) (acts : State → List Act) : Prop :=
      s.mayIssue .ct i = true → ok (s.meets .ct i) → Completes s .ct i [] (acts (s.meets .ct i))
    let traps (i : Instr) (ok : State → Prop) (n : Nat) : Prop :=
      s.mayIssue .ct i = true → ok (s.meets .ct i) → Traps s .ct i { cause := 12, slot := 1, info := n }
    let cnt (m : State) : Nat := match n with | .imm n => n.toNat | .lc k => m.rd 1 (.lc k.toNat)
    let first (m : State) : Nat := m.ix.ctl.pc.toNat + 1
    let last (m : State) : Nat := m.ix.ctl.pc.toNat + len.toNat + 1
    let lp : Instr := .loop len lvl set n
    let inside (m : State) (l : Loop) : Prop := l.first.toNat ≤ m.ix.ctl.pc.toNat ∧ m.ix.ctl.pc.toNat ≤ l.last.toNat
    let nests (m : State) : Prop := ∀ l ∈ m.ix.ctl.loops.head?, l.lvl < lvl.toNat ∧ (inside m l → last m ≤ l.last.toNat)
    act (.br t) (fun _ => True) (fun _ => [.jump t]) ∧
    (∀ e r, act (.brc t f) (fun m => m.ix.ctl.cq = e :: r ∧ e.at_ ≤ m.now)
      (fun _ => if e.v = f then [.cqPop] else [.cqPop, .jump t])) ∧
    act (.jmp t k) (fun _ => True) (fun m => [.jump (t + BitVec.ofNat 32 (if k = 0 then 0 else m.rd 1 (.lx k.toNat)))]) ∧
    act (.call t) (fun m => m.ix.ctl.ret.length < 16) (fun m => [.call t m.nextPc false]) ∧
    traps (.call t) (fun m => 16 ≤ m.ix.ctl.ret.length) 3 ∧
    act .ret (fun m => m.ix.ctl.ret ≠ []) (fun _ => [.ret]) ∧
    traps .ret (fun m => m.ix.ctl.ret = []) 4 ∧
    act lp (fun m => m.ix.hand.on = false ∧ nests m ∧ cnt m ≠ 0) (fun m =>
      [.loop { first := BitVec.ofNat 32 (first m), last := BitVec.ofNat 32 (last m), left := cnt m, total := cnt m, lvl := lvl.toNat,
               step := BitVec.ofNat 32 (m.rd 1 (.strd set.toNat) / 2 ^ 32) } (BitVec.ofNat 32 (m.rd 1 (.strd set.toNat)))]) ∧
    act lp (fun m => m.ix.hand.on = false ∧ nests m ∧ cnt m = 0) (fun m => [.skipTo (BitVec.ofNat 32 (last m + 1))]) ∧
    traps lp (fun m => m.ix.hand.on = false ∧ ∃ l, m.ix.ctl.loops.head? = some l ∧ lvl.toNat ≤ l.lvl) 1 ∧
    traps lp (fun m => m.ix.hand.on = false ∧ ∃ l, m.ix.ctl.loops.head? = some l ∧ l.lvl < lvl.toNat ∧ inside m l ∧
      l.last.toNat < last m) 2 ∧
    act .ctNop (fun _ => True) (fun _ => [])

/-- R105 to R107, R112: where a bundle leads: the next one, past a literal bundle; the target of a branch, leaving the
outermost loop whose body does not hold it with all inside it, and keeping the others; back to the first bundle of a loop's
body while iterations are left, its index stepped; out of the loop after the last, where the loop around it goes on in the same
way. -/
def Obligations.FlowOfBundles : Prop :=
  ∀ (t : Ctl) (lit : Bool) (a b : Addr) (l : Loop) (ra : Addr) (z : Bool) (r : List (Addr × Bool)),
    let next : Addr := t.pc + (if lit then 2 else 1)
    (t.loops = [] → (flowOf t lit []).pc = next ∧ (flowOf t lit []).loops = []) ∧
    ((∀ x ∈ t.loops.head?, x.last ≠ t.pc) → (flowOf t lit []).pc = next ∧ (flowOf t lit []).loops = t.loops) ∧
    ((flowOf t lit [.jump a]).pc = a ∧
      (∀ x ∈ (flowOf t lit [.jump a]).loops, x ∈ t.loops ∧ x.first.toNat ≤ a.toNat ∧ a.toNat ≤ x.last.toNat)) ∧
    (let holds (x : Loop) : Prop := x.first.toNat ≤ a.toNat ∧ a.toNat ≤ x.last.toNat
     ((∀ x ∈ t.loops, holds x) → (flowOf t lit [.jump a]).loops = t.loops) ∧
     (∀ inner outer, t.loops = inner ++ l :: outer → ¬holds l → (∀ x ∈ outer, holds x) →
       (flowOf t lit [.jump a]).loops = outer)) ∧
    ((flowOf t lit [.call a b z]).pc = a ∧ (flowOf t lit [.call a b z]).ret = (b, z) :: t.ret ∧
      (flowOf t lit [.call a b z]).loops = t.loops) ∧
    (t.ret = (ra, z) :: r → (flowOf t lit [.ret]).pc = ra ∧ (flowOf t lit [.ret]).ret = r) ∧
    (∀ rest, t.loops = l :: rest → l.last = t.pc → 1 < l.left →
      (flowOf t lit []).pc = l.first ∧ (flowOf t lit []).loops = { l with left := l.left - 1 } :: rest ∧
      tget 0 (flowOf t lit []).lx l.lvl = tget 0 t.lx l.lvl + l.step) ∧
    (∀ rest, t.loops = l :: rest → l.last = t.pc → l.left ≤ 1 → flowOf t lit [] =
      flowOf { t with loops := rest, lx := tput t.lx l.lvl (tget 0 t.lx l.lvl + l.step) } lit []) ∧
    (t.loops = [l] → l.last = t.pc → l.left ≤ 1 →
      (flowOf t lit []).pc = next ∧ (flowOf t lit []).loops = [] ∧ tget 0 (flowOf t lit []).lx l.lvl = tget 0 t.lx l.lvl + l.step)

/-- R91, R98, R103, R114, R115, R120, R121: writes to the loop, stride and skip registers and `rwp` are visible one
bundle on, those to `fmt` four; the condition queue and the priority change with the bundle. R295 to R299: the
operations that control rewriting. -/
def Obligations.ControlStateResults : Prop :=
  (∀ (s : State) (v16 st : BitVec 16) (v32 : BitVec 32) (k set : BitVec 3) (pre x r : Bool) (n d : BitVec 6) (p : BitVec 4)
     (run : BitVec 20),
     let put (i : Instr) (w : State → Wr) : Prop := s.mayIssue .ct i = true → Completes s .ct i [w (s.meets .ct i)] []
     let act (i : Instr) (acts : State → List Act) : Prop := s.mayIssue .ct i = true → Completes s .ct i [] (acts (s.meets .ct i))
     let lcD : Dest := if pre then .lcP k.toNat else .lc k.toNat
     let kpD : Dest := if pre then .kpP else .kp
     let kp (m : State) : Nat := if pre = true ∧ m.ix.ctl.kpP.isSome = true then m.rd 1 .kpP else m.rd 1 .kp
     put (.lpCnt v16 k pre) (fun _ => wholeWr lcD 16 v16.toNat 1) ∧
     put (.lpIdx v32 k) (fun _ => wholeWr (.lx k.toNat) 32 v32.toNat 1) ∧
     put (.lpStr st v16 set) (fun _ =>
       wholeWr (.strd set.toNat) 64 ((v16.signExtend 32).toNat + (st.signExtend 32).toNat * 2 ^ 32) 1) ∧
     put (.kpSet v16 pre) (fun m => wholeWr kpD 16 ((kp m ||| v16.toNat) % 2 ^ 16) 1) ∧
     put (.kpClr v16 pre) (fun m => wholeWr kpD 16 (kp m &&& (2 ^ 16 - 1 - v16.toNat)) 1) ∧
     put (.fmtLo v32) (fun _ => { wholeWr .fmt 32 v32.toNat 4 with mask := row (2 ^ 32 - 1) }) ∧
     put (.fmtHi v32) (fun _ => { wholeWr .fmt 64 (v32.toNat * 2 ^ 32) 4 with mask := row ((2 ^ 32 - 1) * 2 ^ 32) }) ∧
     put (.rwp r x) (fun _ => wholeWr .rwp 2 (b2n r + 2 * b2n x) 1) ∧
     act (.pri n) (fun m => [.pri (if n.toNat < m.ix.task.lprio.toNat then m.ix.task.lprio else n)]) ∧
     act (.cqPush p pre) (fun m => [.cqPush (m.rdP 1 p.toNat != pre) 1]) ∧
     act .cqFlush (fun _ => [.cqFlush]) ∧
     put (.cqDepth d) (fun m => wholeWr (m.ix.sD d.toNat) 64 (m.ix.ctl.cq.length % 2 ^ 64) 2 .copy) ∧
     act .wdog (fun _ => [.wdog]) ∧
     (let i := Instr.yield run
      let m := s.meets .ct i
      s.mayIssue .ct i = true → m.ix.hand.on = false →
        (run ≠ 0 ∨ m.ix.task.excl = true → Completes s .ct i [] [.yield run]) ∧
        (run = 0 → m.ix.task.excl = false →
          Traps s .ct i { cause := 5, slot := 1, info := m.ix.ctl.run.toNat + 2 ^ 20 + m.ix.ctl.runCnt % 2 ^ 32 * 2 ^ 32 }))) ∧
  (∀ (s : State) (n d : BitVec 6),
     let put (sl : Slot) (i : Instr) (ws : State → List Wr) (acts : List Act) : Prop :=
       s.mayIssue sl i = true → Completes s sl i (ws (s.meets sl i)) acts
     put .ct (.rwLd n) (fun _ => []) [.rwLd n.toNat] ∧
     put .ct .rwEn (fun _ => [wholeWr .en 1 1 1]) [] ∧
     put .ct .rwDis (fun _ => [wholeWr .en 1 0 1]) [] ∧
     put .ct (.rwInv n) (fun _ => []) [.rwInv (some n.toNat)] ∧
     put .ct .rwInvAll (fun _ => []) [.rwInv none] ∧
     put .mx .rwSup (fun _ => []) [.rwSup] ∧
     put .mx (.rwStat d) (fun m =>
       let c := m.core m.ik
       [wholeWr (m.ix.sD d.toNat) 64
         ((m.rd 5 .en % 2 + m.rd 5 .rwp % 4 * 2 + b2n m.ix.rwSupp * 2 ^ 3 + b2n c.rwErr * 2 ^ 4 + c.rwImg * 2 ^ 5 + b2n c.rwImgV * 2 ^ 11 +
           (c.rules.countP fun r => bitAt r.2.toNat 0) * 2 ^ 12 + m.ix.ngrp * 2 ^ 20 + m.ix.nref * 2 ^ 36 + m.ix.last * 2 ^ 52) % 2 ^ 64)
         2 .copy]) [])

/-- R385 to R397, R117: tasks: `halt` ends one or returns from an inlined child; `fork` starts a child while a frame
is free, and reports, overflows or inlines it otherwise; a deferred child waits behind the older ones of its kernel, and with
65,535 children neither kind starts; `sync` and `sleep` suspend; `wake` is posted at `.cl`.  That a `defer` fork is not accepted
while older entries of its kernel wait is read from R388 (log entry 117, DEDUCED). -/
def Obligations.TaskResults : Prop :=
  ∀ (s : State) (t : Addr) (pol c : BitVec 2) (r : BitVec 6) (k : BitVec 3),
    let act (i : Instr) (ok : State → Prop) (acts : State → List Act) : Prop :=
      s.mayIssue .ct i = true → ok (s.meets .ct i) → Completes s .ct i [] (acts (s.meets .ct i))
    let traps (i : Instr) (ok : State → Prop) (n : Nat) : Prop :=
      s.mayIssue .ct i = true → ok (s.meets .ct i) → Traps s .ct i { cause := 14, slot := 1, info := n }
    let free (m : State) : Prop := m.ix.hand.on = false
    let arg (m : State) (n : Nat) : Word := BitVec.ofNat 64 (m.rdS 1 n)
    let used (m : State) (q : Kernel) : Nat := ((m.cluster (clusterOf m.ik)).ovf.filter fun e => e.kern == q.id).length
    let room (m : State) (q : Kernel) : Bool := ((m.cluster (clusterOf m.ik)).spawnQ.filter fun e => !e.resume).length < 256 &&
      0 < (m.cluster (clusterOf m.ik)).freeFrames q && (pol != 1 || used m q == 0)
    let forks (m : State) (q : Kernel) : Prop := free m ∧ m.kernelOf m.ix.task.kern = some q ∧ q.frame ≠ 0
    let outside (m : State) : Nat := m.rdS 1 r.toNat &&& (2 ^ 64 - 1 - m.ix.task.demand.toNat)
    act .halt (fun m => free m ∧ ∀ x ∈ m.ix.ctl.ret.head?, x.2 = false) (fun _ => [.halt]) ∧
    act .halt (fun m => free m ∧ ∃ a q, m.ix.ctl.ret = (a, true) :: q) (fun _ => [.ret]) ∧
    (∀ q, act (.fork t pol) (fun m => forks m q ∧ room m q = true ∧ m.children m.ik m.ij < 65535)
      (fun m => .fork t false (arg m 1) (arg m 2) :: if pol = 2 then [.cqPush true 1] else [])) ∧
    (∀ q, act (.fork t pol) (fun m => forks m q ∧ room m q = false ∧ pol = 2) (fun _ => [.cqPush false 1])) ∧
    (∀ q, act (.fork t pol) (fun m => forks m q ∧ room m q = false ∧ pol = 1 ∧ used m q < q.ovfq ∧ m.children m.ik m.ij < 65535)
      (fun m => [.fork t true (arg m 1) (arg m 2)])) ∧
    (∀ q, act (.fork t pol) (fun m => forks m q ∧ room m q = false ∧ pol ≠ 2 ∧ (pol = 1 → q.ovfq ≤ used m q) ∧
      m.ix.ctl.ret.length < 16) (fun m => [.call t m.nextPc true])) ∧
    traps (.fork t pol) (fun m => free m ∧ (m.kernelOf m.ix.task.kern = none ∨ ∃ q, m.kernelOf m.ix.task.kern = some q ∧ q.frame = 0)) 1 ∧
    (∀ q, traps (.fork t pol) (fun m => forks m q ∧ room m q = true ∧ 65535 ≤ m.children m.ik m.ij) 2) ∧
    (∀ q, traps (.fork t pol)
      (fun m => forks m q ∧ room m q = false ∧ pol = 1 ∧ used m q < q.ovfq ∧ 65535 ≤ m.children m.ik m.ij) 2) ∧
    (∀ k' j q (a b : Word), s.kernelOf (s.ctx k' j).task.kern = some q →
      ∃ e : Spawn, e.target = t ∧ e.kern = q.id ∧ e.s1 = a ∧ e.s2 = b ∧
        ((forkAct s k' j t true a b).cluster (clusterOf k')).ovf = (s.cluster (clusterOf k')).ovf ++ [e]) ∧
    act (.sync r) (fun m => free m ∧ outside m = 0) (fun m => [.sync (BitVec.ofNat 56 (m.rdS 1 r.toNat))]) ∧
    traps (.sync r) (fun m => free m ∧ outside m ≠ 0) 3 ∧
    act .sleep free (fun _ => [.sleep]) ∧
    act (.wake t k c) (fun _ => True)
      (fun m => [.post { kind := .wake (clusterOf m.ik * 4 + c.toNat) k.toNat t, loc := .nowhere, scope := 2 } none 0 0]) ∧
    act .hintNext (fun _ => True) (fun _ => [.hint]) ∧
    act .waitPred (fun _ => True) (fun _ => [.wait .pred]) ∧
    (s.mayIssue .ct .spawnStat = true →
      let m := s.meets .ct .spawnStat
      let q := m.cluster (clusterOf m.ik)
      let n := m.kernelOf m.ix.task.kern
      Completes s .ct .spawnStat [wholeWr (m.ix.sD (m.arg.getD 0 0)) 64
        (((q.spawnQ.filter fun e => !e.resume).length + (q.ovf.filter fun e => e.kern == m.ix.task.kern).length % 2 ^ 16 * 2 ^ 9 +
          (n.elim 0 q.freeFrames) % 2 ^ 16 * 2 ^ 25 + m.children m.ik m.ij % 2 ^ 16 * 2 ^ 41 +
          b2n m.ix.wakeP.isSome * 2 ^ 57 + b2n (n.elim false (·.hinted)) * 2 ^ 58) % 2 ^ 64) 2 .copy] [])

/-- R118, R426, R428, R439 to R444: `trap` and `sys` end their bundle and then trap with causes 18 and 19; `rfe`
returns from a handler; the system instructions act on a target, translations, pages and ways; what logs an entry does so
while no uncorrectable line holds the log (R436). -/
def Obligations.SystemResults : Prop :=
  ∀ (s : State) (n : BitVec 16) (r d : BitVec 6) (f : BitVec 4) (dev : Bool),
    let act (i : Instr) (ok : State → Prop) (acts : State → List Act) : Prop :=
      s.mayIssue .ct i = true → ok (s.meets .ct i) → Completes s .ct i [] (acts (s.meets .ct i))
    let reply (i : Instr) (ok : State → Prop) (v : Nat) (acts : State → List Act) : Prop :=
      s.mayIssue .ct i = true → ok (s.meets .ct i) →
        Completes s .ct i [wholeWr ((s.meets .ct i).ix.sD d.toNat) 64 v 2 .copy] (acts (s.meets .ct i))
    let traps (i : Instr) (ok : State → Prop) (c v : Nat) : Prop :=
      s.mayIssue .ct i = true → ok (s.meets .ct i) → Traps s .ct i { cause := c, slot := 1, info := v }
    let op (m : State) : Nat := m.rdS 1 r.toNat
    let core (m : State) : Nat := op m / 8 % 2 ^ 7
    let names (m : State) : Prop := op m < 2 ^ 10 ∧ m.coreOk (core m) = true
    let page (m : State) : Nat := op m % 2 ^ 52
    let none_ (_ : State) : List Act := []
    act (.trap n) (fun m => m.ix.hand.on = false) (fun _ => [.trapAfter 18 n.toNat]) ∧
    traps (.trap n) (fun m => m.ix.hand.on = true) 18 n.toNat ∧
    act (.sys n) (fun m => m.ix.hand.on = false) (fun _ => [.trapAfter 19 n.toNat]) ∧
    traps (.sys n) (fun m => m.ix.hand.on = true) 17 0 ∧
    act (.rfe none) (fun m => m.ix.hand.on = true) (fun m => [.rfe (BitVec.ofNat 32 (bitsAt (tget 0 m.ix.trec 1).toNat 32 32))]) ∧
    act (.rfe (some r)) (fun m => m.ix.hand.on = true) (fun m => [.rfe (BitVec.ofNat 32 (op m))]) ∧
    traps (.rfe (some r)) (fun m => m.ix.hand.on = false) 17 1 ∧ traps (.rfe none) (fun m => m.ix.hand.on = false) 17 1 ∧
    act (.kill r) names (fun m => [.kill (core m) (op m % 8)]) ∧ traps (.kill r) (fun m => ¬names m) 17 2 ∧
    act (.hold r) names (fun m => [.hold (core m) (op m % 8) true]) ∧ traps (.hold r) (fun m => ¬names m) 17 2 ∧
    act (.holdRel r) names (fun m => [.hold (core m) (op m % 8) false]) ∧ traps (.holdRel r) (fun m => ¬names m) 17 2 ∧
    act (.tlbInvAll dev) (fun _ => True) (fun _ => [.tlb 0 0 0 dev, .wait (.tlbInv 0 0 0 dev)]) ∧
    act (.tlbInvFn f dev) (fun _ => True) (fun _ => [.tlb 1 f.toNat 0 dev, .wait (.tlbInv 1 f.toNat 0 dev)]) ∧
    act (.tlbInvPg r f dev) (fun _ => True)
      (fun m => [.tlb 2 f.toNat (page m / 4096) dev, .wait (.tlbInv 2 f.toNat (page m / 4096) dev)]) ∧
    reply (.pgret r d) (fun m => page m < lpddrBytes ∧ m.retired (page m) = false ∧ m.logHeld (dieOf m.ik) = false) 0
      (fun m => [.retire (page m), .wait (.quiet (page m / 65536))]) ∧
    reply (.pgret r d) (fun m => page m < lpddrBytes ∧ m.retired (page m) = true) 1 none_ ∧
    reply (.pgret r d) (fun m => lpddrBytes ≤ page m) 2 none_ ∧
    (∀ sl set way, reply (.wayq r d) (fun m => wayOperand m (op m) = some (sl, set, way) ∧ m.quarReply sl set way = 0 ∧
      m.logHeld (sl / 32) = false) 0
      (fun _ => [.wayq sl set way true])) ∧
    (∀ sl set way v, v ≠ 0 → reply (.wayq r d)
      (fun m => wayOperand m (op m) = some (sl, set, way) ∧ m.quarReply sl set way = v) v none_) ∧
    (∀ sl set way, reply (.wayqRel r d) (fun m => wayOperand m (op m) = some (sl, set, way) ∧ m.quarantined sl set way = true) 0
      (fun _ => [.wayq sl set way false])) ∧
    (∀ sl set way, reply (.wayqRel r d) (fun m => wayOperand m (op m) = some (sl, set, way) ∧ m.quarantined sl set way = false) 1
      none_) ∧
    reply (.wayq r d) (fun m => wayOperand m (op m) = none) 3 none_ ∧
    reply (.wayqRel r d) (fun m => wayOperand m (op m) = none) 3 none_

/-! ### Matrix unit -/

/-- R247 to R254, R258: an accepted `mma` or `mop` enters the queue with the tile it leaves: the pass of its rows on
the tile as every earlier operation will leave it, VAL and the counts, due E + 14 bundles on. -/
def Obligations.ArrayProductResults : Prop :=
  ∀ (s : State) (acc : BitVec 3) (ws : BitVec 6) (a : ASrc) (rows : BitVec 5) (t ovw chk fl : Bool) (p : Nat),
    let r := rows.toNat + 1
    let entry (m : State) (n : Nat) (pl : List (Nat × Nat)) (as : List (List Nat)) (rsv : Nat) : MxEnt :=
      let c := m.core m.ik
      let q := passTile (c.vtile acc.toNat) m.fAF m.fBF ovw as (bElem m.fBF (c.plane p).sp (c.plane p).rows)
      let e := entryTime m.fAF m.fBF r
      { op := .array, ctx := m.ij, acc := acc.toNat, due := m.ix.bcount + e + 14, rows := n, t0 := m.now, rdEnd := m.now + e,
        reads := pl.map (·.1), ovw := ovw, entry := e, pl := p,
        tile := some (q.1.counts ovw q.2 (satAdd32 (c.wslot ws.toNat).srsv rsv)) }
    (let i := Instr.mma acc ws a rows t ovw chk
     let m := s.meets .mx i
     let n := r * (if wide16 m.fAF then 2 else 1)
     let vs := if t then trRows (Ty.bits m.fAF) ((m.planeRows a n).map (·.2)) else (m.planeRows a n).map (·.2)
     s.mayIssue .mx i = true → mxPair m.fAF m.fBF = some fl → m.fACC = b2n fl → m.slotReady ws.toNat →
       m.planeOk a n m.fAF chk → m.planeReady ws.toNat (wide16 m.fBF) p →
       Completes s .mx i [] (.mx (entry m r (m.planeRows a n) ((List.range r).map (aRow m.fAF vs)) (m.planeRsv a n chk)) ::
         if chk then [.wait (.cycle (m.now + n + 4))] else [])) ∧
    (let i := Instr.mop acc ws a rows ovw
     let m := s.meets .mx i
     let pl := m.planeRows a r
     s.mayIssue .mx i = true → mxPair m.fAF m.fBF = some fl → m.fBF ≠ 13 → m.fACC = b2n fl → m.slotReady ws.toNat →
       m.planeReadable a r → m.planeReady ws.toNat (wide16 m.fBF) p →
       Completes s .mx i [] [.mx (entry m 32 pl ((List.range 32).map fun j => pl.map fun y => lane (Ty.bits m.fAF) y.2 j) 0)])

/-- R252, R254: an integer pass: element (i, j) becomes its old value, 0 under OVW, plus the products over the depth,
clamped to 56 bits; the rows a pass does not reach keep their elements. -/
def Obligations.IntegerPassElements : Prop :=
  ∀ (t : Tile) (bf : Nat) (ovw : Bool) (as : List (List Nat)) (b : Nat → Nat → Nat) (i j : Nat), j < 128 →
    let q := (passTile t 0 bf ovw as b).1
    let old : Int := if ovw then 0 else sval 56 (lane 56 (tget 0 t.rows i).toNat j)
    let sum : Int := ((List.range 128).map fun k => intElem 0 ((as.getD i []).getD k 0) * intElem bf (b k j)).sum
    (i < as.length → (as.getD i []).length = 128 →
      lane 56 (tget 0 q.rows i).toNat j = wrap 56 (max (-(2 ^ 55 - 1)) (min (2 ^ 55 - 1) (old + sum)))) ∧
    (as.length ≤ i → tget 0 q.rows i = tget 0 t.rows i)

/-- R256, R271, Table 10-4: an instruction of the matrix unit whose types, accumulate mode, weight slot or slot pair do not fit
traps `MXERR` with the lowest code that holds, the slot and the tile beside it: `mma`, `mop` and `mdist`; `mld.w`; `mdrain` and
`mrow`; `cupd`, which names neither, so that those bits are free; and `cfin`. -/
def Obligations.ArrayTraps : Prop :=
  ∀ (s : State) (acc : BitVec 3) (ws : BitVec 6) (a : ASrc) (rows la j : BitVec 5) (met mode : BitVec 2) (pass : BitVec 8)
    (q : BitVec 7) (f : VFile) (t ovw chk tie sp z : Bool),
    let w := ws.toNat
    let slot (m : State) (n : Nat) : WSlot := (m.core m.ik).wslot n
    let alike (d e : WSlot) : Prop := e.loaded = d.loaded ∧ e.ty = d.ty ∧ e.sp = d.sp ∧ e.malf = d.malf ∧ e.srsv = d.srsv
    let pairOk (m : State) : Prop := wide16 m.fBF = true → w % 2 = 0 ∧ alike (slot m w) (slot m (w + 1))
    let traps (i : Instr) (ok : State → Prop) (code slot tile : Nat) : Prop :=
      s.mayIssue .mx i = true → ok (s.meets .mx i) →
        Traps s .mx i { cause := 16, slot := 5, info := code + slot * 2 ^ 8 + tile * 2 ^ 14 }
    let array (i : Instr) (pair : State → Option Bool) (wide : State → Bool) : Prop :=
      let at_ (ok : State → Prop) (n : Nat) : Prop :=
        traps i (fun m => (m.core m.ik).ldwPending w (wide m) = false ∧ ok m) n w acc.toNat
      let fits (m : State) : Prop := ∃ fl, pair m = some fl ∧ m.fACC = b2n fl
      let loaded (m : State) : Prop := (slot m w).loaded = true ∧ (slot m w).ty = m.fBF
      at_ (fun m => pair m = none) 1 ∧
      at_ (fun m => ∃ fl, pair m = some fl ∧ m.fACC ≠ b2n fl) 2 ∧
      at_ (fun m => fits m ∧ ¬loaded m) 3 ∧
      at_ (fun m => fits m ∧ loaded m ∧ ¬pairOk m) 4 ∧
      at_ (fun m => fits m ∧ loaded m ∧ pairOk m ∧ (slot m w).malf = true) 5
    let modeOk (m : State) : Prop := m.fACC < 2 ∧ ∀ fl, mxPair m.fAF m.fBF = some fl → m.fACC = b2n fl
    let waiting (m : State) : Bool := (m.core m.ik).ldwPending w false
    let held (m : State) : Prop := waiting m = false ∧ (slot m w).loaded = true ∧ (slot m w).ty = m.fBF
    let distType (n : Nat) : Prop := n = 0 ∨ n = 11
    array (.mma acc ws a rows t ovw chk) (fun m => mxPair m.fAF m.fBF) (fun m => wide16 m.fBF) ∧
    array (.mop acc ws a rows ovw) (fun m => if m.fBF = 13 then none else mxPair m.fAF m.fBF) (fun m => wide16 m.fBF) ∧
    array (.mdist acc ws a rows t met tie pass chk)
      (fun m => if m.fAF = m.fBF ∧ m.fAF = 11 then some true else if m.fAF = m.fBF ∧ m.fAF = 0 then some false else none)
      (fun _ => false) ∧
    traps (.mldW ws a sp chk) (fun m => ¬pairOk m) 4 w 0 ∧
    traps (.mldW ws a sp chk)
      (fun m => pairOk m ∧ (isBType m.fBF = false ∨ (sp = true ∧ (wide16 m.fBF = true ∨ m.fBF = 13)))) 7 w 0 ∧
    traps (.mdrain acc a rows) (fun m => ¬modeOk m) 2 0 acc.toNat ∧
    traps (.mdrain acc a rows) (fun m => modeOk m ∧ isDType m.fDF = false) 6 0 acc.toNat ∧
    traps (.mrow acc f q mode j) (fun m => ¬modeOk m) 2 0 acc.toNat ∧
    (let i := Instr.cupd pass a rows
     s.mayIssue .mx i = true → ¬distType (s.meets .mx i).fAF →
       ∃ n, n < 2 ^ 9 ∧ Traps s .mx i { cause := 16, slot := 5, info := 8 + n * 2 ^ 8 }) ∧
    traps (.cfin ws la z) (fun m => waiting m = false ∧ ((slot m w).loaded = false ∨ (slot m w).ty ≠ m.fBF)) 3 w 0 ∧
    traps (.cfin ws la z) (fun m => held m ∧ ¬distType m.fBF) 8 w 0 ∧
    traps (.cfin ws la z) (fun m => held m ∧ distType m.fBF ∧ (slot m w).sp = true) 9 w 0

/-- R266 to R270: an accepted `mdist` leaves its distances in the tile and offers them to the running best, due rows +
22 bundles on; `mbest.clr` clears entries; `mbest.rd` writes indexes and values, free while an update is too close. -/
def Obligations.DistanceResults : Prop :=
  ∀ (s : State) (acc : BitVec 3) (ws : BitVec 6) (a : ASrc) (rows : BitVec 5) (t tie chk fl : Bool) (met : BitVec 2)
    (pass q : BitVec 8) (f : VFile) (p : Nat),
    (let i := Instr.mdist acc ws a rows t met tie pass chk
     let m := s.meets .mx i
     let c := m.core m.ik
     let r := rows.toNat + 1
     let vs := if t then trRows 8 ((m.planeRows a r).map (·.2)) else (m.planeRows a r).map (·.2)
     let ds := (List.range r).map fun i => distRow met.toNat fl (aRow m.fAF vs i) (bElem m.fBF (c.plane p).sp (c.plane p).rows)
     let rws := (List.range r).foldl (fun x i => tset 0 x i (BitVec.ofNat 7168 (ofLanes 56 (ds.getD i ([], [])).1)))
       (c.vtile acc.toNat).rows
     s.mayIssue .mx i = true → m.fAF = m.fBF → m.fAF = (if fl then 11 else 0) → m.fACC = b2n fl → m.slotReady ws.toNat →
       m.planeOk a r m.fAF chk → m.planeReady ws.toNat false p →
       Completes s .mx i [] (.mx
         { op := .dist, ctx := m.ij, acc := acc.toNat, due := m.ix.bcount + r + 22, rows := r, t0 := m.now, rdEnd := m.now + r,
           reads := (m.planeRows a r).map (·.1), ovw := true, entry := r, pl := p,
           tile := some { rows := rws, val := true, asat := 0, arsv := m.planeRsv a r chk },
           offers := ds.map (·.2), pass := pass.toNat, tie := tie, kind := fl } ::
         if chk then [.wait (.cycle (m.now + r + 4))] else [])) ∧
    (let i := Instr.mbestClr rows
     let m := s.meets .mx i
     s.mayIssue .mx i = true → Completes s .mx i []
       [.mx { op := .bestClear, ctx := m.ij, rows := rows.toNat + 1, due := m.ix.bcount + 1, t0 := m.now, rdEnd := m.now }]) ∧
    (let i := Instr.mbestRd f q
     let m := s.meets .mx i
     let o : Row := if m.ix.bcount < m.ix.mbestDue then row (2 ^ 1024 - 1) else 0
     let wr (n : Nat) (g : Nat → Nat) : Wr :=
       { wholeWr (.v f (q.toNat * 2 + n)) 1024 (ofLanes 32 ((List.range 32).map g)) 4 .copy with open_ := o, mx := true }
     s.mayIssue .mx i = true → Completes s .mx i
       [wr 0 fun n => if bitAt (m.readBest n) 48 then bitsAt (m.readBest n) 32 15 else 0xFFFFFFFF,
        wr 1 fun n => if bitAt (m.readBest n) 48 then m.readBest n % 2 ^ 32 else 0] [])

/-- R246, R259: `mld.w` accepts the rows of a slot, or of a pair for 16-bit types whose slots have one descriptor (Table 10-4,
code 4): reserved t2 codes cleared and counted, a malformed 2:4 group noted. -/
def Obligations.WeightLoadResults : Prop :=
  ∀ (s : State) (ws : BitVec 6) (a : ASrc) (sp chk : Bool),
    let i := Instr.mldW ws a sp chk
    let m := s.meets .mx i
    let c := m.core m.ik
    let w := ws.toNat
    let n := ldwRows m.fBF sp
    let pair := wide16 m.fBF
    let vs := (m.planeRows a n).map (·.2)
    let cl := vs.map fun v => if m.fBF = 13 then (cleanT2 v).1 else v
    let d : WSlot := { loaded := true, ty := m.fBF, sp := sp, malf := sp && sp24Bad vs,
                       srsv := satAdd32 (vs.map fun v => if m.fBF = 13 then (cleanT2 v).2 else 0).sum (m.planeRsv a n chk) }
    let idle (p : Plane) : Prop := p.ready ≤ m.now
    let d0 := c.wslot w
    let d1 := c.wslot (w + 1)
    s.mayIssue .mx i = true → isBType m.fBF = true →
      (pair = true → w % 2 = 0 ∧ d0.loaded = d1.loaded ∧ d0.ty = d1.ty ∧ d0.sp = d1.sp ∧ d0.malf = d1.malf ∧ d0.srsv = d1.srsv) →
      (sp = true → pair = false ∧ m.fBF ≠ 13) →
      m.planeOk a n m.fBF chk → c.mqBusy < 8 → (∀ e ∈ c.mq, e.op ≠ .ldw ∧ e.op ≠ .fin) → idle c.plane0 → idle c.plane1 →
      Completes s .mx i [] (.mx
        { op := .ldw, ctx := m.ij, t0 := m.now, rdEnd := m.now + n + 6, reads := (m.planeRows a n).map (·.1),
          slots := if pair then [(w, { d with rows := rowTab (cl.take 128) }), (w + 1, { d with rows := rowTab (cl.drop 128) })]
            else [(w, { d with rows := rowTab cl })] } ::
        if chk then [.wait (.cycle (m.now + n + 4))] else [])

/-- R255, R261 to R264: a tile leaves the array: `mdrain` writes the converted rows, with a colophon for a type that
is not 32 bits wide, n + 7 bundles on; `mrow` writes one row to four registers; `mclr` clears; `mq.stat` reads the
queue's word. Table 10-4, code 2: both run with ACC in the mode of the pair of types, and where AF and BF are no pair with ACC 0 or 1
(log entry 103). The flush of `mrow` is log entry 95's. -/
def Obligations.TileReadResults : Prop :=
  ∀ (s : State) (acc : BitVec 3) (a : ASrc) (rows j : BitVec 5) (f : VFile) (q : BitVec 7) (mode : BitVec 2) (d : BitVec 6),
    let settled (m : State) : Prop := tget 0 m.ix.tileDue acc.toNat ≤ m.ix.bcount ∧ ∀ c ∈ m.ix.tileCmds, c.acc ≠ acc.toNat
    let modeOk (m : State) : Prop := m.fACC < 2 ∧ ∀ fl, mxPair m.fAF m.fBF = some fl → m.fACC = b2n fl
    let tile (m : State) : Tile := (m.core m.ik).vtile acc.toNat
    let mine (l : List Wr) : List Wr := l.map fun w => { w with mx := true }
    (let i := Instr.mdrain acc a rows
     let m := s.meets .mx i
     let df := m.fDF
     let flt := m.fACC == 1
     let w := Ty.bits df
     let quant := df != 4 && df != 10
     let r := rows.toNat + 1
     let n := r * (w / 8)
     let xs := (List.range r).map fun i => drainRow m flt (tget 0 (tile m).rows i).toNat i
     let ys := xs.map fun l => l.map (drainConv df m.fmtRm m.fmtSat)
     let sat := satAdd32 ((ys.map fun l => l.countP (·.2)).sum) (tile m).asat
     let pay := ys.flatMap fun l => (List.range (w / 8)).map fun k => bitsAt (ofLanes w (l.map (·.1))) (1024 * k) 1024
     let top := (xs.flatMap id).foldl (fun k x => if x.isNan then k else max k (fmtF32.round .arith true 0 x.abs).bits) 0
     let crc := (pay.foldl (fun k v => crcRun k (bytesOf 128 v)) 0xFFFFFFFF) ^^^ 0xFFFFFFFF
     let out := if quant then pay ++ [colophon 0x3F800000 top sat (tile m).arsv crc df (tile m).val n] else pay
     ∀ dst, s.mayIssue .mx i = true → modeOk m → isDType df = true → drainDst m a (n + b2n quant) = .ok dst → settled m →
       (m.core m.ik).mqBusy < 8 → (∀ e ∈ (m.core m.ik).mq, e.op ≠ .drain) →
       Completes s .mx i (mine (List.zipWith (fun x v => xfWr x v (n + 7)) dst out ++
           (if quant then [] else countWr .satcAdd sat (n + 7) ++ countWr .rsvcAdd (tile m).arsv (n + 7))))
         [.mx { op := .drain, ctx := m.ij, acc := acc.toNat, due := m.ix.bcount + (n + 7), t0 := m.now, rdEnd := m.now + (n + 7),
                reads := dst }]) ∧
    (let i := Instr.mrow acc f q mode j
     let m := s.meets .mx i
     let ls := (List.range 128).map fun k => mrowLane mode.toNat (m.fACC == 1) (lane 56 (tget 0 (tile m).rows j.toNat).toNat k)
     s.mayIssue .mx i = true → modeOk m → settled m →
       Completes s .mx i (mine (((List.range 4).map fun k =>
         wholeWr (.v f (q.toNat * 4 + k)) 1024 (ofLanes 32 (((ls.drop (32 * k)).take 32).map (·.1))) 4 .copy) ++
         countWr .satcAdd (ls.countP (·.2)) 4)) []) ∧
    (let i := Instr.mclr acc
     let m := s.meets .mx i
     s.mayIssue .mx i = true → (m.core m.ik).mqBusy < 8 →
       (∀ e ∈ (m.core m.ik).mq, e.acc = acc.toNat → e.op = .clear) →
       Completes s .mx i [] [.mx
         { op := .clear, ctx := m.ij, acc := acc.toNat, due := m.ix.bcount + 1, rows := 32, t0 := m.now, rdEnd := m.now + 1,
           ovw := true, tile := some { val := true } }]) ∧
    (s.mayIssue .mx .mwait = true → Completes s .mx .mwait [] [.wait .mwait]) ∧
    (let i := Instr.mqStat d
     let m := s.meets .mx i
     let c := m.core m.ik
     let plane (p : Plane) : Nat := p.slot.getD 0 + b2n p.slot.isSome * 2 ^ 6
     s.mayIssue .mx i = true → (∀ n, n < 8 → m.valOpen n = false) →
       Completes s .mx i (mine [wholeWr (m.ix.sD d.toNat) 64
         ((c.mqBusy + (c.mq.countP fun e => e.op != .bestClear && e.ctx == m.ij) * 2 ^ 4 + plane c.plane0 * 2 ^ 8 + plane c.plane1 * 2 ^ 15 +
           min (c.entryFree - m.now) 255 * 2 ^ 24 + ofBools ((List.range 8).map fun n => (c.vtile n).val) * 2 ^ 32) % 2 ^ 64) 2 .copy]) []) ∧
    (s.mayIssue .mx .mxNop = true → Completes s .mx .mxNop [] [])

/-- R277 to R279: `cupd` enters the queue with the running best it found and the rows it will change; `cfin` with the
B tile it forms: the mean of each centroid, rounded once, or the old column where its count is 0; a subnormal e4m3 sum
counts as zero and a subnormal e4m3 mean is flushed, as in distance mode (R67). `cfin` reads the sums and counts as the earlier
`cupd` operations leave them, whatever their contexts may rely on (R278). -/
def Obligations.CentroidResults : Prop :=
  ∀ (s : State) (p : BitVec 8) (a : ASrc) (rows la : BitVec 5) (ws : BitVec 6) (z : Bool),
    (let i := Instr.cupd p a rows
     let m := s.meets .mx i
     let c := m.core m.ik
     let r := rows.toNat + 1
     let base := m.rdLa 5 (a.r.toNat + b2n (!a.h))
     let best := (List.range r).map fun n => BitVec.ofNat 64 (m.readBest n)
     let touch := ((updHits p.toNat best).flatMap fun h =>
       ((List.range 4).map fun q => (base / 128 + 4 * h.2 + q) % 8192) ++ [(base / 128 + 512 + h.2 / 32) % 8192]).eraseDups
     s.mayIssue .mx i = true → m.fAF = 0 ∨ m.fAF = 11 → m.planeReadable a r → base < 2 ^ 20 → m.ix.mbestDue ≤ m.ix.bcount →
       c.mqBusy < 8 → c.entryFree ≤ m.now → (∀ e ∈ c.mq, e.op ≠ .fin) →
       Completes s .mx i [] [.mx
         { op := .upd, ctx := m.ij, due := m.ix.bcount + r + 16, rows := r, t0 := m.now, rdEnd := m.now + r + 16, reads := touch,
           spoilt := [], entry := r, pl := 2, kind := m.fAF == 11, data := (m.planeRows a r).map fun v => row v.2, best := best,
           sum := base / 128, pass := p.toNat }]) ∧
    (let i := Instr.cfin ws la z
     let m := s.meets .mx i
     let c := m.core m.ik
     let d := c.wslot ws.toNat
     let sb := m.rdLa 5 la.toNat / 128
     let rd (n : Nat) : Nat := (m.unmarked m.ik).rdRow 5 ((sb + n) % 8192)
     let cnt (j : Nat) : Nat := lane 32 (rd (512 + j / 32)) (j % 32)
     let x (j k : Nat) : Nat := lane 32 (rd (4 * j + k / 32)) (k % 32)
     let cell (j k : Nat) : Nat × Bool := if cnt j = 0 then (bElem m.fBF false d.rows k j, false)
       else meanConv m.fBF (divCount (if m.fBF = 11 then fmtF32.decZ (x j k) else ofInt (sval 32 (x j k)) 0 false) (cnt j))
     s.mayIssue .mx i = true → c.ldwPending ws.toNat false = false → d.loaded = true → d.ty = m.fBF → m.fBF = 0 ∨ m.fBF = 11 →
       d.sp = false → m.ix.fenced = false → m.rdLa 5 la.toNat < 2 ^ 20 → c.mqBusy < 8 → (∀ e ∈ c.mq, e.op ≠ .upd) →
       let b : WSlot :=
         { rows := rowTab ((List.range 128).map fun k => ofLanes 8 ((List.range 128).map fun j => (cell j k).1)), loaded := true,
           ty := m.fBF }
       Completes s .mx i [] [.mx
         { op := .fin, ctx := m.ij, t0 := m.now, rdEnd := m.now + 524, reads := (List.range 516).map fun n => (sb + n) % 8192,
           slots := [(ws.toNat, b)],
           rows := ((List.range 128).map fun j => (List.range 128).countP fun k => (cell j k).2).sum,
           sum := sb, zero := z }])

/-! ### Engines -/

/-- R300, R321, R334, R359, R399: a queued function enters the queue of its engine with its operands and, where it
takes one, its block, once the queue has room; its reply, one bundle on, is the number of the operation: one more than
were issued. R204: what a queued command and its completion do to the timeline of its engine: I goes up by one with
the command; C moves over the operations that have completed in a row, and a fault sets ERR and the lowest F. -/
def Obligations.QueuedCommandResults : Prop :=
  (∀ (s : State) (ca cb : BitVec 5) (rep : Option (BitVec 5)),
     let cmd (i : Instr) (e fn : Nat) (two block : Bool) : Prop :=
       let m := s.meets .cp i
       let a := m.rdC 8 ca.toNat
       let b := if two then m.rdC 8 cb.toNat else 0
       s.mayIssue .cp i = true → (m.ix.tl e).queue.length < (if 3 ≤ e then 4 else 16) → (block = true → m.ix.fenced = false) →
         Completes s .cp i (rep.elim [] fun d => [wholeWr (.c d.toNat) 64 (((m.ix.tl e).i + 1) % 2 ^ 64) 1])
           [.engine e fn (BitVec.ofNat 64 a) (BitVec.ofNat 64 b) (if block then row (m.rdRow 8 a) else 0)]
     cmd (.cpy1d ca cb rep) 0 1 true true ∧ cmd (.cpyNd ca cb rep) 0 2 true true ∧ cmd (.cpyMc ca cb rep) 0 3 true true ∧
     cmd (.cpySnd ca cb rep) 0 4 true true ∧ cmd (.cpyZrb ca cb rep) 0 5 true true ∧ cmd (.cpySp24 ca cb rep) 0 6 true true ∧
     cmd (.cpyStrm ca cb rep) 0 7 true true ∧ cmd (.cpyStop ca rep) 0 8 false false ∧ cmd (.cpyFill ca cb rep) 0 9 true true ∧
     cmd (.frIn ca cb rep) 1 1 true false ∧ cmd (.frOut ca cb rep) 1 2 true false ∧ cmd (.frSwap ca cb rep) 1 3 true false ∧
     cmd (.frSnap ca cb rep) 1 4 true false ∧ cmd (.frFork ca cb rep) 1 5 true false ∧ cmd (.frRoll ca cb rep) 1 6 true false ∧
     cmd (.frRel ca cb rep) 1 7 true false ∧ cmd (.frPin ca cb rep) 1 8 true false ∧ cmd (.frChk ca cb rep) 1 9 true false ∧
     cmd (.frRes ca cb rep) 1 10 true false ∧
     cmd (.scnDiag ca cb rep) 2 1 true false ∧ cmd (.scnLin ca rep) 2 2 false false ∧ cmd (.scnCin ca rep) 2 3 false false ∧
     cmd (.scnCout ca rep) 2 4 false false ∧ cmd (.scnFade ca rep) 2 5 false false ∧
     cmd (.smpRun ca cb rep) 3 1 true true ∧ cmd (.smpShard ca cb rep) 3 2 true true ∧ cmd (.smpMerge ca cb rep) 3 3 true true ∧
     cmd (.nwStart ca cb rep) 4 1 true true ∧
     cmd (.cmAcc ca cb rep) 5 1 true true ∧ cmd (.cmEmit ca cb rep) 5 2 true true ∧ cmd (.cmTrim ca cb rep) 5 3 true true) ∧
  (∀ (t : Timeline) (c : Cmd) (r : OpRec) (faulted halts : Bool),
     let a := t.issue c
     let b := t.complete r faulted halts
     (a.i = t.i + 1 ∧ a.c = t.c ∧ a.queue = t.queue ++ [{ c with opn := t.i + 1 }] ∧ a.err = t.err ∧ a.halt = t.halt) ∧
     (b.i = t.i ∧ t.c ≤ b.c ∧ b.err = (t.err || faulted) ∧ b.halt = (t.halt || halts) ∧
       (faulted = false → b.f = t.f) ∧ (faulted = true → b.f = if t.f = 0 ∨ r.n < t.f then r.n else t.f)) ∧
     (∀ n, t.c < n → n ≤ b.c → ∃ q ∈ b.hist, q.n = n ∧ q.done = true))

/-- R319, R350 to R353, R358, R372, R399, R419: the functions that are not queued: the scan configuration, the clears,
the handle table with its reply, and the status queries, whose operand registers stand in the argument list. R332, R334: a
handle is made in a free slot, under the slot's generation number; it is freed, or takes the next generation, if it names a
valid entry of that generation. -/
def Obligations.DirectCommandResults : Prop :=
  ∀ (s : State) (ca cd : BitVec 5) (rep : Option (BitVec 5)) (mode : Nat),
    let reply (d v : Nat) : Wr := wholeWr (.c d) 64 (v % 2 ^ 64) 1
    let ready (i : Instr) : Prop := s.mayIssue .cp i = true ∧ (s.meets .cp i).ix.fenced = false
    let fn (m : State) : Nat := m.fnOf m.ik m.ij
    let mark (m : State) : Nat := m.rdC 8 ca.toNat
    let live (m : State) (a : Nat) : Prop :=
      let e := m.lpRead 0 a 32
      mark m < 2 ^ 32 ∧ mark m % 2 ^ 20 ≠ 0 ∧ bitAt e 140 = true ∧ bitsAt e 128 12 = bitsAt (mark m) 20 12
    let next (m : State) (a : Nat) : Nat := (bitsAt (m.lpRead 0 a 32) 128 12 + 1) % 2 ^ 12
    let stat (i : Instr) (v : State → Nat → Nat) (clear : Option Nat) : Prop :=
      let m := s.meets .cp i
      let a := m.rdC 8 (m.arg.getD 0 0)
      s.mayIssue .cp i = true → (clear = none ∨ bitsAt a 62 2 = mode) →
        Completes s .cp i [reply (m.arg.getD 1 0) (v m a)] (clear.elim [] fun e => if mode = 3 then [.clear e] else [])
    (let i := Instr.scnCfg ca rep
     let m := s.meets .cp i
     s.mayIssue .cp i = true → Completes s .cp i (rep.elim [] fun d => [reply d.toNat ((m.ix.tl 2).i + 1)])
       [.scnCfg (BitVec.ofNat 64 (m.rdC 8 ca.toNat))]) ∧
    (s.mayIssue .cp .cpyClr = true → Completes s .cp .cpyClr [] [.clear 0]) ∧
    (s.mayIssue .cp .cpNop = true → Completes s .cp .cpNop [] []) ∧
    (let i := Instr.hndNew ca cd
     let m := s.meets .cp i
     let img := m.rdRow 8 (mark m) % 2 ^ 256
     ready i →
       (shelfOk img = false ∨ m.freeSlotOf (fn m) = none → Completes s .cp i [reply cd.toNat 0] []) ∧
       (∀ n a, shelfOk img = true → m.freeSlotOf (fn m) = some n → m.shelfAt (fn m) n = some a →
         let g := m.lpRead 0 (a + 16) 2 % 2 ^ 12
         0 < n ∧ bitAt (m.lpRead 0 (a + 16) 2) 12 = false ∧
         Completes s .cp i [reply cd.toNat (g * 2 ^ 20 + n)]
           [.lpw a 32 (img % 2 ^ 128 + (g + 2 ^ 12) * 2 ^ 128 + bitsAt img 144 112 * 2 ^ 144)])) ∧
    (let i := Instr.hndFree ca rep
     let m := s.meets .cp i
     let r (v : Nat) : List Wr := rep.elim [] fun d => [reply d.toNat v]
     ready i →
       (m.shelfAt (fn m) (mark m % 2 ^ 20) = none → Completes s .cp i (r 1) []) ∧
       (∀ a, m.shelfAt (fn m) (mark m % 2 ^ 20) = some a →
         (live m a → Completes s .cp i (r 0) [.lpw (a + 16) 2 (next m a)]) ∧ (¬live m a → Completes s .cp i (r 1) []))) ∧
    (let i := Instr.hndGen ca cd
     let m := s.meets .cp i
     let r (v : Nat) : List Wr := [reply cd.toNat v]
     ready i →
       (m.shelfAt (fn m) (mark m % 2 ^ 20) = none → Completes s .cp i (r 0) []) ∧
       (∀ a, m.shelfAt (fn m) (mark m % 2 ^ 20) = some a →
         (live m a → Completes s .cp i (r (next m a * 2 ^ 20 + mark m % 2 ^ 20)) [.lpw (a + 16) 2 (next m a + 2 ^ 12)]) ∧
         (¬live m a → Completes s .cp i (r 0) []))) ∧
    stat .cpyQ (fun m a => cpyStatus m m.ik m.ij a) none ∧
    stat .frStatOp (fun m a => bndStat m m.ik m.ij a) (some 1) ∧ stat .frStatSession (fun m a => bndStat m m.ik m.ij a) (some 1) ∧
    stat .frStatBanks (fun m a => bndStat m m.ik m.ij a) (some 1) ∧ stat .frStatClear (fun m a => bndStat m m.ik m.ij a) (some 1) ∧
    stat .smpStatQuery (fun m a => genStat m m.ik m.ij 3 a) (some 3) ∧ stat .smpStatClear (fun m a => genStat m m.ik m.ij 3 a) (some 3) ∧
    stat .nwStatQuery (fun m a => genStat m m.ik m.ij 4 a) (some 4) ∧ stat .nwStatClear (fun m a => genStat m m.ik m.ij 4 a) (some 4) ∧
    stat .cmStatQuery (fun m a => genStat m m.ik m.ij 5 a) (some 5) ∧ stat .cmStatClear (fun m a => genStat m m.ik m.ij 5 a) (some 5)

/-! ### The machine -/

/-- R22 to R24, R93: a core's issue with nothing beside it is its primary context's next bundle, whose one operation,
its guard true, is executed within the bundle and decides what the bundle does; hardware steps that were due come
before, and contexts that end go on after. R459: a bundle that meets a unit that is not ready waits, and has no effect. -/
def Obligations.StepRunsDecoded : Prop :=
  ∀ (s q a b m : State) (k j w : Nat) (o : SOp) (r : List Turn) (lit : Option Nat),
    s.turns = .issue k :: r →
    q = settle (advanceN (nextCycle s k - s.now) { s with turns := r }) → a = { q with held := false } → b = fetched a k j →
    q.down = false → (q.core k).halted = false → (a.core k).prim = some j → candidate a k = none →
    canIssue a k j = true → atBreak a k j = false → overrun a k j = false → look b k j = .go w lit → opsOf w = [o] →
    m = { openIssue b k j w lit false with iss := { (openIssue b k j w lit false).iss with sec := false } } →
    skips m (hdrOf w) = false → rwWants m k j = false →
    (((m.ctx k j).plan).filter fun p => (p.todo.map (·.1)).head? == some (m.ctx k j).ctl.pc) = none →
    m.guard o.slot.code o.g = true →
    let after (x : State) : State := settle ({ x with iss := {} }.modCore k fun c => { c with lastCyc := x.now })
    ∃ t, exec o.i { m with arg := o.arg } = .next t ∧
      step s = .next (if (closeIssue t).held then after q else after (closeIssue t))

/-- Every instruction is executed in every state, and the machine never stops: no instruction is refused, and none
ends in a fault. -/
def Obligations.NoStepStops : Prop :=
  (∀ (i : Instr) (s : State), ∃ t, exec i s = .next t) ∧ ∀ s : State, ∃ t, step s = .next t

/-- R97, R102, R205, R246, R343, R355, R422, R429, R447, R454, R457, R458, R459 and Tables 07-2, 18-4 and 19-2: what
reset leaves. -/
def Obligations.ResetState : Prop :=
  let s := State.reset
  (∀ k, (s.core k).rptr = 0 ∧ (s.core k).prim = none ∧ (s.core k).halted = false ∧ ∀ b, ((s.core k).nb b) = {}) ∧
  (∀ k w, ((s.core k).wslot w).loaded = false) ∧
  (∀ k j, (s.ctx k j).life = .free ∧ ∀ n, tget 0 (s.ctx k j).hs n = 0 ∧ tget 0 (s.ctx k j).hla n = 0 ∧ tget 0 (s.ctx k j).hsa n = 0 ∧
    tget 0 (s.ctx k j).trec n = 0) ∧
  (∀ i, i < 3 → s.reg (rSysReady i) = 0) ∧ (∀ i, i < 4 → s.reg (rLayout i) = 0) ∧
  s.reg rDbgSts = 0 ∧ s.reg rDbgCtl = 0 ∧ s.reg rPwrSts = 0 ∧ s.reg rImgSts = 0 ∧ s.reg rLogN = 0 ∧ s.reg rBndCtl = 0 ∧
  (∀ i, i < 6 → s.reg (rMr i) = 0) ∧ (∀ k i, k < 8 → i < 6 → s.reg (rKey k i) = 0) ∧ s.reg rDnTmo = 4096 ∧
  (∀ k, k < 128 → s.reg (rSlice k) = 65536 ∧ s.reg (rWdp k) = 10000) ∧
  (∀ k c, k < 128 → c < 32 → s.reg (rCirc k c) = 0) ∧ (∀ n, s.quar = [] ∧ s.quarantined n 0 0 = false)

/-- Every step of the machine keeps the canonical form of the three byte memories. -/
def Obligations.MemoryFormKept : Prop :=
  ∀ s t : State, s.memWf = true → step s = .next t → t.memWf = true

/-- The memories have that form at reset. -/
def Obligations.MemoryFormAtReset : Prop :=
  State.reset.memWf = true

/-- R425, Table 18-2: a trap taken outside handler mode, with nothing of the context awaited, is entered at once:
loops are frozen, the record is written, handler mode is set and the handler starts at `CCB_TVEC`; no byte of any
memory changes and no other core is affected. -/
def Obligations.TrapEntry : Prop :=
  ∀ (s : State) (k j : Nat) (t : TrapWait),
    let x := s.ctx k j
    let u := trapTake s k j t
    let y := u.ctx k j
    let f := t.req
    x.hand.on = false → x.waits = [] → (∀ p ∈ x.pend, p.acc = none) → (∀ e ∈ (s.core k).mq, e.ctx ≠ j) →
      y.hand.on = true ∧ y.ctl.pc = BitVec.ofNat 32 (s.reg (rTvec k)) ∧ y.hand.loops = x.ctl.loops ∧ y.ctl.loops = [] ∧
      y.hand.bcount = x.bcount ∧ y.pend = [] ∧ y.trapP = none ∧ y.posted = x.posted ∧ y.task = x.task ∧ y.ctl.ret = x.ctl.ret ∧
      tget 0 y.trec 0 = BitVec.ofNat 64 (f.cause + f.slot * 2 ^ 16 + j * 2 ^ 20 + k * 2 ^ 23 + b2n t.sec * 2 ^ 30) ∧
      tget 0 y.trec 1 = BitVec.ofNat 64 (t.bpc.toNat + t.rpc.toNat * 2 ^ 32) ∧ tget 0 y.trec 2 = BitVec.ofNat 64 f.info ∧
      tget 0 y.trec 3 = BitVec.ofNat 64 f.va ∧ tget 0 y.trec 4 = BitVec.ofNat 64 f.rw ∧ tget 0 y.trec 5 = BitVec.ofNat 64 f.insn ∧
      tget 0 y.trec 6 = BitVec.ofNat 64 s.now ∧ tget 0 y.trec 7 = 0 ∧
      (∀ a, (∀ p, u.lpByte p a = s.lpByte p a) ∧ u.host.read a = s.host.read a ∧ u.peer.read a = s.peer.read a) ∧
      (∀ k', k' ≠ k → u.core k' = s.core k') ∧ u.regs = s.regs

/-- R426: in handler mode a trap terminates the context with DOUBLE, and so do the instructions named, with INFO 17,
the code of `SYSERR`; CAUSE and INFO stand in the termination record (Table 18-3), where DOUBLE is 4. -/
def Obligations.HandlerTraps : Prop :=
  (∀ (s : State) (k j : Nat) (t : TrapWait), (s.ctx k j).hand.on = true →
    trapTake s k j t = terminate (s.modCtx k j fun x => { x with trapP := some t }) k j 4 t.req.cause) ∧
  (∀ (s : State) (i : Instr) (a : Addr) (n : BitVec 20) (c : LoopCnt) (len : BitVec 10) (lvl set : BitVec 3) (p : BitVec 2)
    (r : BitVec 6) (v : BitVec 16),
    i = .yield n ∨ i = .loop len lvl set c ∨ i = .halt ∨ i = .fork a p ∨ i = .sync r ∨ i = .sleep ∨ i = .sys v →
    s.mayIssue .ct i = true → (s.meets .ct i).ix.hand.on = true → Traps s .ct i { cause := 17, slot := 1, info := 0 }) ∧
  (∀ (s : State) (k j c n : Nat), c < 2 ^ 16 → j < 8 → k < 128 →
    bitsAt (termRecord s k j c n) 0 16 = c ∧ bitsAt (termRecord s k j c n) 64 64 = n % 2 ^ 64)

/-- R427, R440: a terminated context is free, without results, matrix entries or banks; `rfe` leaves handler mode,
gives the loops and the count of bundles back and goes on at its target, the run watchdog at zero after `RUNOVER`. -/
def Obligations.TerminationAndReturn : Prop :=
  (∀ (s : State) (k j c n : Nat), (s.ctx k j).life = .live →
    let u := terminate s k j c n
    (u.ctx k j).life = .free ∧ (u.ctx k j).pend = [] ∧ (∀ e ∈ (u.core k).mq, e.ctx ≠ j) ∧
    (∀ b, tget 0 (u.core k).tags b ≠ j + 1)) ∧
  (∀ (s : State) (k j : Nat) (t : Addr),
    let x := s.ctx k j
    let y := (rfe s k j t).ctx k j
    y.hand = {} ∧ y.ctl.pc = t ∧ y.ctl.loops = x.hand.loops ∧ y.bcount = x.hand.bcount ∧ y.waits = x.hand.waits ++ x.waits ∧
    y.ctl.runCnt = (if x.hand.cause = 5 then 0 else x.ctl.runCnt) ∧ y.trec = x.trec ∧ y.hs = x.hs)

/-- R96, R97: the arbiter selects the first ready context, by priority and then in rotation from the pointer, whose
stated run fits the remainder of the slice; where none fits a new slice starts, and it selects the first; the pointer
moves past it. -/
def Obligations.ArbiterSelects : Prop :=
  ∀ (s : State) (k : Nat),
    let c := s.core k
    let d := (arbSelect s k).core k
    let from_ (j : Nat) : Nat := (j + 8 - c.rptr) % 8
    let ranks (w j : Nat) : Prop := (c.ctx w).ctl.prio.toNat < (c.ctx j).ctl.prio.toNat ∨
      ((c.ctx w).ctl.prio = (c.ctx j).ctl.prio ∧ from_ w ≤ from_ j)
    let fits (j : Nat) : Prop := (c.ctx j).ctl.run.toNat ≠ 0 ∧ (c.ctx j).ctl.run.toNat ≤ c.slice
    c.rptr < 8 →
      ((∀ j, j < 8 → isReady s k j = false) → d.prim = none) ∧
      (∀ j, j < 8 → isReady s k j = true → ∃ w, w < 8 ∧ isReady s k w = true ∧ d.prim = some w ∧ d.rptr = (w + 1) % 8 ∧
        ((∃ i, i < 8 ∧ isReady s k i = true ∧ fits i) →
          d.slice = c.slice ∧ fits w ∧ ∀ i, i < 8 → isReady s k i = true → fits i → ranks w i) ∧
        ((∀ i, i < 8 → isReady s k i = true → ¬fits i) →
          d.slice = s.reg (rSlice k) % 2 ^ 21 ∧ ∀ i, i < 8 → isReady s k i = true → ranks w i))

/-! ### Steps of the hardware and of its surroundings -/

/-- R89, R96, R101, R102, R206, R208, R248, R249, R345, R382, R425: results landing early, watchdogs, trap entry, the
arbiter, banks, barriers, the matrix queue, its planes and arrivals; and what each brings about.  The model's choices: which
results land early (log entry 57), where the run watchdog is taken and SLOT 0 in the record of its `RUNOVER` (log entries 32 and 44),
and that the count of the system watchdog restarts (log entry 104). -/
def Obligations.CoreStepsOccur : Prop :=
  ∀ (s : State) (k j n : Nat),
    let u := s.fresh
    let c := s.core k
    let x := s.ctx k j
    (∀ p, s.due [k, j, n] → x.pend[n]? = some p → p.acc = none → p.early = true → Occurs s .resultLanding (landEarly u k j n) ∧
      (p.landed = false → p.dest.plain = true → s.landMeets k p.dest = false → x.pend.filter (fun q => q.dest == p.dest) = [p] →
        Brings s .resultLanding fun t =>
          rawD t k j p.dest = (blend p.mask (p.value u) (row (rawD s k j p.dest))).toNat % 2 ^ p.dest.bits)) ∧
    (s.due [k, j] → c.prim = some j → c.prep = false → x.life = .live → x.trapP = none → x.hand.on = false → x.midGroup = false →
      (x.ctl.run ≠ 0 ∨ x.task.excl = false) → x.ctl.run.toNat + 256 < x.ctl.runCnt →
      Occurs s .runWatchdogExpiry (trapTake u k j
        { req := { cause := 5, slot := 0, info := x.ctl.run.toNat + x.ctl.runCnt % 2 ^ 32 * 2 ^ 32, insn := nextWord u k j % 2 ^ 16 },
          bpc := x.ctl.pc, rpc := x.ctl.pc })) ∧
    (s.due [k] → s.reg (rWdp k) % 2 ^ 24 * (if s.reg rPwrSts % 8 = 1 then 1450 else 2900) ≤ c.sysw →
      let v := u.modCore k fun c => { c with sysw := 0 }
      (c.prim = some j → Occurs s .systemWatchdogExpiry (terminate v k j 2 0) ∧
        (s.unitsReady → x.life = .live → Brings s .systemWatchdogExpiry fun t => (t.ctx k j).life = .free ∧ (t.core k).sysw = 0)) ∧
      (c.prim = none → Occurs s .systemWatchdogExpiry v)) ∧
    (∀ r, s.due [k, j] → x.trapP = some r → trapReady u k j r.req.cause = true → Occurs s .trapEntry (trapEnter u k j r) ∧
      (x.waits = [] → Brings s .trapEntry fun t => (t.ctx k j).hand.on = true ∧ (t.ctx k j).trapP = none ∧
        (t.ctx k j).ctl.pc = BitVec.ofNat 32 (s.reg (rTvec k)))) ∧
    (s.due [k] → c.prim = none → j < 8 → isReady u k j = true → Occurs s .contextBecomesReady (arbSelect u k) ∧
      Brings s .contextBecomesReady fun t => ∃ w, w < 8 ∧ isReady u k w = true ∧ (t.core k).prim = some w) ∧
    (s.due [k] → c.prim = some j → c.prep = true → prepReady u k j = true → Occurs s .bankPreparation (bankPrep u k) ∧
      (x.life = .live → x.saved = 0 → x.unfilled = 0 →
        (∀ b, b < 56 → bitAt x.task.demand.toNat b = true → tget 0 c.tags b = 0 ∨ tget 0 c.tags b = j + 1) →
        Brings s .bankPreparation fun t => (t.core k).prep = false ∧ (t.ctx k j).ctl.runCnt = 0 ∧
          ∀ b, b < 56 → bitAt x.task.demand.toNat b = true → tget 0 (t.core k).tags b = j + 1)) ∧
    (s.due [k, n] → ∀ up : BarUpd, c.nbIn = [(n, up)] → up.ready ≤ s.now → up.init = none → up.rem = 0 → up.err = false →
      tget 0 c.nbAt n ≠ s.now + 1 →
      let b := c.nb n
      let arr := if b.cnt = 0 then b.arr else min (b.arr + up.a) b.cnt
      let ovr := b.ovr || (if b.cnt = 0 then decide (0 < up.a) else decide (b.cnt < b.arr + up.a))
      let pend := b.pend + BitVec.ofNat 32 up.x - BitVec.ofNat 32 up.y
      let dlv := b.dlv + BitVec.ofNat 32 up.y
      let new : Barrier := if b.cnt ≠ 0 ∧ arr = b.cnt ∧ pend = 0 then
          { b with ph := !b.ph, arr := 0, pend := 0, ldlv := dlv, lerr := b.err, lovr := ovr, dlv := 0, err := false, ovr := false }
        else { b with arr := arr, ovr := ovr, pend := pend, dlv := dlv }
      ((∀ i, i < 8 → (s.ctx k i).waitsOn n = false) → Occurs s .barrierUpdate
        (u.setCore k { c with nbIn := [], nbs := tput c.nbs n new, nbAt := tput c.nbAt n (s.now + 1) })) ∧
      Brings s .barrierUpdate fun t => (t.core k).nb n = new ∧ (t.core k).nbIn = [] ∧
        ∀ i q, i < 8 → Wait.nb n q ∈ (t.ctx k i).waits → new.ph = q) ∧
    (s.due [k] → c.mqNext s.now = some n → Occurs s .matrixQueueComplete (mxDone u k n) ∧
      (∀ e, c.mq[n]? = some e → e.op = .array ∨ e.op = .clear ∨ e.op = .dist → Brings s .matrixQueueComplete fun t =>
        (t.core k).mq = dropAt c.mq n ∧ tget {} (t.core k).tiles e.acc = e.tile.getD {}) ∧
      (∀ e w d, c.mq[n]? = some e → e.op = .ldw → e.slots = [(w, d)] → Brings s .matrixQueueComplete fun t =>
        (t.core k).mq = dropAt c.mq n ∧ (t.core k).wslot w = d)) ∧
    (∀ w pair, s.due [k] → c.planeReq = some (w, pair) → c.plane0.slot = none → c.entryFree ≤ s.now →
      Occurs s .cellPlaneLoad (u.setCore k { c with
        planeReq := none
        plane0 := { slot := some w, pair := pair, rows := planeRows c w pair, sp := (c.wslot w).sp, srsv := (c.wslot w).srsv,
                    ready := s.now + (if wide16 (c.wslot w).ty then 32 else 16) } })) ∧
    (∀ i a, s.due [k] → arrFits u k = some (i, j) → c.arrivals[i]? = some a → Occurs s .arrivalHandlerStart (arrStart u k) ∧
      Brings s .arrivalHandlerStart fun t => (t.ctx k j).life = .live ∧
        (t.ctx k j).ctl.pc = (if a.2.1 = 0xFFFFFFFF then x.ctl.pc else a.2.1) ∧
        (t.core k).arrivals = dropAt c.arrivals i ∧ (t.core k).credits = c.credits + 1)

/-- R176 to R180, R183, R191, R194, R433, R434, R453: accesses perform in their order and leave the list, rows of `ldg` arrive
or leave their slot faulted, translations end, lines are evicted and sectors fetched. A store into a scratchpad changes its row
alone, one to host memory its bytes alone. How the host answers an atomic is an argument of the step (log entry 115). -/
def Obligations.AccessStepsOccur : Prop :=
  ∀ (s : State) (k j n : Nat) (a : Acc),
    let u := s.fresh
    let x := s.ctx k j
    let alone (q w : Nat) : Prop := w < 8192 ∧ a.lo + a.len ≤ 128 ∧ s.coloPend q w (2 ^ 64) = false ∧ (s.core q).updBusy w = false
    let bytes (v : Nat) : Nat := bitsAt v (8 * a.lo) (8 * a.len)
    (s.due [k, j, n] → x.posted[n]? = some a → accReady u k j n = true → (a.ret = true → ∀ p ∈ x.pend, p.acc ≠ some a.key) →
      (∀ h w, a.kind ≠ .ldg h w) →
      let t := accPerform (accDone u k j n a) k j a
      Occurs s .postedWritePerform t ∧
      (∀ q w, a.kind = .store ∨ a.kind = .nt → a.loc = .win q w →
        (∀ b, (∀ p, t.lpByte p b = s.lpByte p b) ∧ t.host.read b = s.host.read b ∧ t.peer.read b = s.peer.read b) ∧
        (∀ q' r, q' ≠ q ∨ r % 8192 ≠ w % 8192 → t.padRow q' r = s.padRow q' r) ∧
        (a.spoil = 0 → alone q w → bytes (t.padRow q w) = a.data.toNat % 2 ^ (8 * a.len) ∧
          Brings s .postedWritePerform fun t => bytes (t.padRow q w) = a.data.toNat % 2 ^ (8 * a.len))) ∧
      (s.unitsReady → a.kind = .store ∨ a.kind = .nt ∨ a.kind = .rel ∨ a.kind = .fence ∨ (∃ g, a.kind = .wb g) →
        Brings s .postedWritePerform fun t => (t.ctx k j).posted = dropAt x.posted n) ∧
      (∀ p pa, a.kind = .nt → a.loc = .phys 1 p pa → s.reg (rSysReady 0) / 2 ^ 56 % 2 = 1 →
        (∀ b, (∀ p, t.lpByte p b = s.lpByte p b) ∧ t.peer.read b = s.peer.read b) ∧
        (∀ b, b < pa / 128 * 128 + a.lo ∨ pa / 128 * 128 + a.lo + a.len ≤ b → t.host.read b = s.host.read b))) ∧
    (s.due [k, j, n] → x.posted[n]? = some a → accReady u k j n = true → a.ret = true → a.isAtom = true →
      Occurs s .atomicReturn (accPerform (accDone u k j n a) k j a) ∧
      (∀ op w64 v v2 q w, a.kind = .atom op w64 v v2 → a.loc = .win q w → a.open_ = false → a.spoil = 0 → alone q w →
        Brings s .atomicReturn fun t =>
          bytes (t.padRow q w) = atomNew op (8 * a.len) (bytes (s.padRow q w)) v.toNat v2.toNat % 2 ^ (8 * a.len) ∧
          (t.ctx k j).posted = dropAt x.posted n ∧ ∀ p ∈ (t.ctx k j).pend, p.acc ≠ some a.key)) ∧
    (∀ p pa, s.due [k, j, n, 1] → x.posted[n]? = some a → accReady u k j n = true → a.ret = true → a.isAtom = true →
      a.loc = .phys 1 p pa →
      let at_ := pa / 128 * 128 + a.lo
      Occurs s .atomicReturn ((accDone u k j n a).ueMsg k j at_) ∧
      Brings s .atomicReturn fun t => t.messages = s.messages ++ [(k, j, at_)] ∧ t.host = s.host) ∧
    (∀ h slot va, s.due [k, j, n] → x.posted[n]? = some a → accReady u k j n = true → a.kind = .ldg h slot → a.loc = .virt va →
      let v := u.modCtx k j fun x => { x with posted := dropAt x.posted n }
      let r := v.xlNow (clusterOf k) a.fn va false a.priv
      let w := (x.ring h).base + slot
      let lands (y : State) (kind d : Nat) : State := ringProduced
        ((y.storeRow k w rowMask (row d)).modCtx k j fun x => x.setRing h ((x.ring h).land slot kind)) k j h false
      let faulted (y : State) (kind adr : Nat) : Prop :=
        Occurs s .ldgRowArrival (lands (y.errRecord k j (ringRecordWord k j h slot kind adr)) kind 0)
      let filled (y : State) (d : Nat) : Prop := Occurs s .ldgRowArrival (lands y 0 d) ∧
        (s.unitsReady → (x.ring h).mixed = false → s.coloPend k (w % 8192) (2 ^ 64) = false → (s.core k).updBusy (w % 8192) = false →
          Brings s .ldgRowArrival fun t => t.padRow k w = d % 2 ^ 1024 ∧ (t.ctx k j).posted = dropAt x.posted n)
      (2 ^ 52 ≤ va → faulted v 1 va) ∧ (∀ e l, va < 2 ^ 52 → r.2 = .fault e l → faulted r.1 1 va) ∧
      ∀ t part pa, va < 2 ^ 52 → r.2 = .ok t part pa →
        let at_ := pa / 128 * 128
        (t ≠ 0 → r.1.physBad t part at_ 128 = true → faulted r.1 2 at_) ∧ (t = 0 → r.1.l1Bad k part at_ = true → faulted r.1 2 at_) ∧
        (t ≠ 0 → r.1.physBad t part at_ 128 = false → filled r.1 (r.1.physRead t part at_ 128)) ∧
        (t = 0 → r.1.l1Bad k part at_ = false → let c := r.1.l1Read k j part at_ va; filled c.1 c.2)) ∧
    (∀ w, s.due [k, n] → (s.cluster k).walks[n]? = some w → w.fault = none →
      let v := u.walkTouch w.fn (w.page * 4096)
      let q := v.cluster k
      let left := (s.cluster k).walks.filter fun y => !y.busy w.fn w.page
      let failed (e : Nat × Nat) := (s.cluster k).walks.map fun y => if y.busy w.fn w.page then { y with fault := some e } else y
      (∀ t, u.walk w.fn (w.page * 4096) = .ok t →
        Occurs s .translationWalkComplete ((v.setCluster k { q with walks := left }).tlbFill k t) ∧
        (s.unitsReady → Brings s .translationWalkComplete fun y => (y.cluster k).walks = left ∧ (y.cluster k).tlb.head? = some t)) ∧
      (∀ e, u.walk w.fn (w.page * 4096) = .error e →
        Occurs s .translationWalkComplete (v.setCluster k { q with walks := failed e }) ∧
        (s.unitsReady → Brings s .translationWalkComplete fun y => (y.cluster k).walks = failed e))) ∧
    (∀ l, s.due [k, n] → tfind (s.core k).l1 n = some l → Occurs s .l1Eviction (u.l1Evict k n) ∧
      (l.wrote = 0 ∨ s.unitsReady → Brings s .l1Eviction fun t => tfind (t.core k).l1 n = none)) ∧
    (∀ l, s.due [n, j] → tfind s.stack n = some l → l.valid.getLsbD (j % 4) = true → l.poison = false →
      tget false s.badUnits (4 * keyLine n + j % 4) = false → s.sliceReady l.slice = true → s.chanReady (256 * keyLine n) = true →
      ∃ t l', Occurs s .sectorFetch t ∧ t = { u with stack := tput s.stack n l' } ∧
        ∀ w, w < 64 → l'.has w = (l.has w || decide (w / 16 = j % 4))) ∧
    (∀ d, s.due [k, j, n] → x.posted[n]? = some a → packetTo u a = some d →
      Occurs s .dnEscapeTimeout { u with escaped := tset false s.escaped (128 * k + d) true })

/-- R300, R303, R322, R327, R344, R345, R355, R359, R378, R400, R415: the engines start the commands that are due,
move them on, and complete them: a command whose work is done leaves its engine and completes on its timeline. The arguments,
the bank and the circulation core of a rotation command are the model's choice (log entries 94 and 19). -/
def Obligations.EngineStepsOccur : Prop :=
  ∀ (s : State) (k n e : Nat) (c : Cmd),
    let u := s.fresh
    let q := s.cluster k
    let tl (s : State) (e : Nat) : Timeline := (s.ctx c.core c.ctx).tl e
    (s.due [k] → (s.core k).copies.length < 4 → (∃ j, j < 8 ∧ ((s.ctx k j).head 0).isSome = true) →
      Occurs s .copyCommandStart (copyStart u k) ∧
      Brings s .copyCommandStart fun t => ∃ j d, j < 8 ∧ (s.ctx k j).head 0 = some d ∧
        ((t.ctx k j).tl 0).queue = ((s.ctx k j).tl 0).queue.drop 1 ∧
        (t.core k).copies.length = (s.core k).copies.length + 1 ∧ ∃ p ∈ (t.core k).copies, p.key = d.key ∧ p.started = true) ∧
    (s.due [k, n] → (s.core k).copies[n]? = some c → Occurs s .copyBeat (copyBeat u k n none) ∧
      (c.fn = 4 → c.idx + c.list.length < c.beats → Brings s .copyBeat fun t =>
        (t.core k).copies[n]? = some { c with list := c.list ++ [sndRow s c (c.idx + c.list.length)] }) ∧
      (s.unitsReady → c.fn ≠ 4 → c.prog < c.beats → cpyTileBusy u c = false → c.fn = 5 ∨ c.fn = 6 ∨ c.list.contains c.prog = false →
        Brings s .copyBeat fun t => ∃ d, (t.core k).copies[n]? = some d ∧ c.prog < d.prog)) ∧
    (s.due [k, n] → (s.core k).copies[n]? = some c → c.beats ≤ c.prog →
      Occurs s .copyCommandComplete (cpyEnd (u.modCore k fun m => { m with copies := dropAt m.copies n }) c) ∧
      (s.unitsReady → Brings s .copyCommandComplete fun t => (t.core k).copies = dropAt (s.core k).copies n ∧
        tl t 0 = (tl s 0).complete { n := c.opn, status := c.status, sub := c.sub, dlv := c.dlv }
          (c.status != 0 && c.status != 7) (c.status == 6))) ∧
    (∀ m, s.due [k, n] → (s.core k).streams[n]? = some m → Occurs s .streamRow (streamRow u k n) ∧
      let r (s : State) : Ring := (s.ctx k m.cmd.ctx).ring m.h
      (s.unitsReady → m.drains = false → 0 < (r s).freeSlots → Brings s .streamRow fun t => (r t).res = (r s).res + 1) ∧
      (s.unitsReady → m.drains = true → 0 < (r s).filled → Brings s .streamRow fun t => (r t).con = (r s).con + 1)) ∧
    (s.due [k, n] → (s.core k).copies.find? (fun q => q.fn == 4 && q.status != 6 && q.circuit == n && decide (q.idx < q.nrows)) = some c →
      Occurs s .circuitRowSend (circuitSend u k n) ∧
      (∀ v l, c.list = v :: l → tget 0 (s.core k).circ n ≤ s.now → (s.now - tget 0 (s.core k).circ n) % 64 = 0 →
        (c.he = true → c.idx = 0 → (s.core (s.dcore c)).credits ≠ 0) →
        Brings s .circuitRowSend fun t => ∃ r, (t.core (s.dcore c)).sends = (s.core (s.dcore c)).sends ++ [r] ∧ r.data = row v ∧
          r.row = (c.fld 26 2 % 2 ^ 13 + c.idx) % 8192 ∧ r.lands = s.now + bitsAt (s.circ k n) 16 8)) ∧
    (∀ r, s.due [k] → (s.core k).sends.find? (fun r => decide (r.lands ≤ s.now)) = some r →
      Occurs s .circuitRowLanding (circuitLand u k) ∧
      (s.coloPend k (r.row % 8192) (2 ^ 64) = false → (s.core k).updBusy (r.row % 8192) = false →
        Brings s .circuitRowLanding fun t => t.padRow k r.row = r.data.toNat ∧
          (t.core k).sends.length + 1 = (s.core k).sends.length ∧ (t.core k).arrivals = (s.core k).arrivals ++ r.arrival.toList)) ∧
    (s.due [k] → (s.core k).scan = none → ∀ j, rotPick (s.core k).scanRot 8 (fun j => ((s.ctx k j).head 2).isSome) = some j →
      (s.ctx k j).head 2 = some c → Occurs s .scanCommandStart ((u.modCtx k j (·.popCmd 2)).modCore k fun m =>
        { m with scan := some { c with started := true, sub := scanBad u c }, scanRot := (j + 1) % 8 })) ∧
    (s.due [k] → (s.core k).scan = some c → Occurs s .scanCommandComplete (flipIdle (scanAdvance u k none) k) ∧
      (c.sub = 0 → c.scUnits ≤ c.prog → Brings s .scanCommandComplete fun t => (t.core k).scan = none ∧
        (t.ctx k c.ctx).tl 2 = ((s.ctx k c.ctx).tl 2).complete { n := c.opn } false false) ∧
      (c.sub ≠ 0 → s.unitsReady → Brings s .scanCommandComplete fun t => (t.core k).scan = none ∧ (tl t 2).halt = true ∧
        (tl t 2).err = true)) ∧
    (s.due [k] → q.bindRun.length < 4 → Occurs s .binderyCommandStart (bndStart u k) ∧
      (∀ m d, s.unitsReady → m < 36 → bndQueue u k m = some d → bndReady u k d = true →
        Brings s .binderyCommandStart fun t => (t.cluster k).bindRun.length = q.bindRun.length + 1)) ∧
    (s.due [k, n] → q.bindRun[n]? = some c → Occurs s .binderyCommandComplete
        (match bndAdvance u k n none with | (t, some c) => restoreDone t c | (t, none) => t) ∧
      (s.unitsReady → s.scanHas c = false → bndUnits u c ≤ c.prog → c.rot = false → Brings s .binderyCommandComplete fun t =>
        (t.cluster k).bindRun = dropAt q.bindRun n ∧
        tl t 1 = (tl s 1).complete { n := c.opn, status := c.status, sub := c.sub, dlv := c.dlv }
          (c.status != 0 && c.status != 11) (c.status == 1))) ∧
    (∀ a b m, s.due [k, n, a, b, e, m] → s.coreOk k = true → s.reg rPwrSts % 8 ≠ 3 → 1 ≤ n → n ≤ 8 →
      let tm := tget {} s.circTl (m % 4)
      let d : Cmd := { core := k, ctx := 0, opn := tm.i + 1, fn := n, ca := BitVec.ofNat 64 a, cb := BitVec.ofNat 64 b, rot := true,
                       eng := 1, at_ := s.now, key := s.nextKey, bank := e % 2 == 1, cfg := m % 4 }
      let pinned (x : Nat) : Prop := s.sesLive x = true ∧ sesPn (s.ses x) = true
      (n = 2 ∨ n = 3 → ¬pinned d.bSid) →
      (n = 1 ∨ n = 3 → ∀ x, (s.core k).sessA = some x ∨ (s.core k).sessB = some x → ¬pinned x) →
      Occurs s .rotationCommand (({ u with nextKey := s.nextKey + 1, circTl := tput s.circTl (m % 4) { tm.issue d with queue := [] } }).modCluster
        (clusterOf k) fun q => { q with bind := q.bind ++ [d] })) ∧
    (s.due [k, e] → ((s.die k).gens.filter fun c => c.eng == e).length < 8 → Occurs s .generationCommandStart (genStart u k e) ∧
      (∀ m, s.unitsReady → m < 1024 → (s.ctx (m / 8) (m % 8)).task.gdie = k → ((s.ctx (m / 8) (m % 8)).head e).isSome = true →
        Brings s .generationCommandStart fun t => (t.die k).gens.length = (s.die k).gens.length + 1)) ∧
    (s.due [k, n] → (s.die k).gens[n]? = some c → Occurs s .generationCommandComplete (genAdvance u k n none) ∧
      (s.unitsReady → genDone c = true → (∀ d ∈ (s.die k).gens.take n, d.eng ≠ c.eng ∨ d.core ≠ c.core ∨ d.ctx ≠ c.ctx) →
        Brings s .generationCommandComplete fun t => (t.die k).gens = dropAt (s.die k).gens n ∧
          ∃ r : OpRec, r.n = c.opn ∧ r.status = c.status ∧
            tl t c.eng = (tl s c.eng).complete r (decide (1 ≤ c.status ∧ c.status ≤ 5)) (c.status == 1))) ∧
    (∀ t, s.due [n] → s.trims[n]? = some t → (∀ v ∈ s.trims.take n, v.core ≠ t.core ∨ v.ctx ≠ t.ctx) →
      Occurs s .trimMessageLanding (trimLand u n) ∧ ((trimLand u n).trims = dropAt s.trims n)) ∧
    (s.due [] → s.reg rBndCtl % 4 = 1 → s.unitsReady → Occurs s .binderyInitDone (bndInit u) ∧
      Brings s .binderyInitDone fun t => t.reg rBndCtl = 3 ∧ t.reg rBndSts = s.nfol - 1 ∧ t.shelfUsed = [])

/-- R379, R385 to R391, R395, R396, R430, R431, R449 to R452, R459: launches, placement, spawning, completion and pre-emption;
a terminated task is over once its accesses have performed (R427). -/
def Obligations.TaskStepsOccur : Prop :=
  ∀ (s : State) (q n t : Nat),
    let u := s.fresh
    let c := s.cluster q
    (∀ e i k j m, s.due [q] → spawnBest c.spawnQ = some (e, i) → freeContext s q = some (k, j) → clusterReady s q = true →
      s.kernelOf e.kern = some m →
      let v := u.modCluster q fun c => { c with spawnQ := dropAt c.spawnQ i }
      (e.resume = false → Occurs s .spawnStart (startTask v k j m e.target e.prio e.tcoord e.frame (some e.s1) (some e.s2) 0)) ∧
      (e.resume = true → Occurs s .spawnStart (acquire (startTask v k j m e.target e.prio e.tcoord e.frame none none
        (((e.frame.bind c.frame).map (·.mask)).getD 0)) k j))) ∧
    (∀ f, s.due [q, n] → c.frames[n]? = some f → f.ended = true → f.pend = 0 → f.parent = none →
      Occurs s .childCompletion ((u.modCluster q fun c => { c with frames := c.frames.filter fun g => g.id != f.id }).modKernel f.kern
        fun n => { n with live := n.live - 1 })) ∧
    (∀ l, s.due [q, c.frames.length + n] → c.leaving[n]? = some l → (∀ a ∈ (s.ctx l.core l.ctx).posted, l.last ≤ a.key) →
      Occurs s .childCompletion (taskOver ((u.modCluster q fun c => { c with leaving := dropAt c.leaving n }).l1Release l.core l.ctx)
        q l.kern l.frame) ∧
      (s.unitsReady → Brings s .childCompletion fun v => (v.cluster q).leaving = dropAt c.leaving n ∧
        (l.frame = none → ∀ m ∈ s.kernels, m.id = l.kern → { m with live := m.live - 1 } ∈ v.kernels))) ∧
    (∀ e l m v f, s.due [q] → (c.spawnQ.filter fun e => !e.resume).length < 256 → c.ovf = e :: l → s.kernelOf e.kern = some m →
      takeFrame u q m e.parent e.prio e.tcoord = some (v, f) → Occurs s .overflowEntryMove
        (v.modCluster q fun c => { c with ovf := c.ovf.drop 1, spawnQ := c.spawnQ ++ [{ e with frame := some f }] })) ∧
    (s.due [q, n, t] → mayPreempt u q n = true → Occurs s .preemption (evPreempt u) ∧
      ((∀ b, b < 56 → keptBank (s.ctx q n).task b = true → tget 0 (s.core q).tags b = n + 1) → (∀ a, s.lpWBad 0 a 128 = false) →
        ((evPreempt u).ctx q n).life = .free ∧ (evPreempt u).blocks.length = s.blocks.length + 1 ∧
        (s.unitsReady → Brings s .preemption fun v => (v.ctx q n).life = .free ∧ v.blocks.length = s.blocks.length + 1))) ∧
    (∀ b i j, s.due [t, q, j] →
      let pa := t / 128 * 128 % 2 ^ 52
      blockAt u pa = some (b, i) → (s.ctx q j).life = .free → s.coreOk q = true → clusterReady s (clusterOf q) = true →
      b.x.task.frame = none → (u.lpTouch 0 pa (128 * b.img.length)).lpBad 0 pa (128 * b.img.length) = false →
      (∀ b, tget 0 (s.core q).tags b = 0) → (s.core q).streams.length + b.streams.length ≤ 8 →
        Occurs s .preemptionRestore (evRestore u) ∧
        ((evRestore u).ctx q j).task = b.x.task ∧ (evRestore u).blocks.length + 1 = s.blocks.length ∧
        (s.unitsReady → Brings s .preemptionRestore fun v => (v.ctx q j).task = b.x.task ∧ v.blocks.length + 1 = s.blocks.length)) ∧
    (s.due [] → lqNext s = some n → bitsAt (s.reg (rSysReady 1)) 32 4 ≠ 0 → Occurs s .launchRecord (evLaunch u) ∧
      (s.unitsReady → Brings s .launchRecord fun v => tget 0 v.launchRot (bitsAt (s.reg (rLqCtl n)) 5 6) = (n + 1) % 64)) ∧
    (∀ (m : Kernel) (e : Word), s.due [n, t] → s.kernels[n]? = some m → m.toPlace[t]? = some e →
      let k := e.toNat % 128
      let j := e.toNat / 2 ^ 7 % 8
      mayPlace s m = true → clusterReady s (clusterOf k) = true → s.coreOk k = true → (s.ctx k j).life = .free → m.frame = 0 →
      Occurs s .taskPlacement (startTask (u.modKernel m.id fun n => { n with toPlace := dropAt n.toPlace t, live := n.live + 1 }) k j m
        m.entry (m.prio.setWidth 6) (BitVec.ofNat 48 (e.toNat / 2 ^ 16)) none (some m.arg) none 0)) ∧
    (∀ m, s.due [n] → s.kernels[n]? = some m → m.toPlace = [] → m.live = 0 →
      let st := if m.term = 0 then 0 else 1
      let seq := (tget 0 s.completions m.fn + 1) % 2 ^ 32
      Occurs s .kernelCompletion (report { u with kernels := dropAt s.kernels n } m st) ∧
      (s.unitsReady → Brings s .kernelCompletion fun v => v.kernels = dropAt s.kernels n ∧
        ((∀ k ∈ dropAt s.kernels n, k.fn ≠ m.fn ∨ k.kid ≠ m.kid) → v.ended.contains (m.fn, m.kid) = true) ∧
        tget 0 v.completions m.fn = seq ∧ (m.mirror ≠ 0 → s.hostOk = true →
          v.host.readN (m.mirror % 2 ^ 52) 16 = (m.kid + st * 2 ^ 32 + m.term % 2 ^ 32 * 2 ^ 64 + seq * 2 ^ 96) % 2 ^ 128)))

/-- R427, R428, R435 to R438: soft errors: a corrected one is logged; a clean line is dropped; a unit of LPDDR 6 stays
uncorrectable and its page is retired, which is logged once it is complete; an error in a core's SRAM terminates the
context charged; a dirty line sends its owner a message, which terminates it, then its page is retired and its way
quarantined. The log of a die is not written between the entries of one dirty line. The model's choices: whose error it is and
what goes with it (log entries 91 and 51), the stages of a dirty line (log entry 59), the channel of a place (log entry 88). -/
def Obligations.ErrorStepsOccur : Prop :=
  ∀ (s : State) (a b c d e : Nat) (l : StackLine),
    let u := s.fresh
    let unit := a % 4
    let i := b % 256
    let pg := a / 65536
    let ch := Config.channelOf (a / 64) % 48
    let pa := 256 * keyLine a
    let die := l.slice / 32
    let line := tfind s.stack a = some l
    let told := s.messages.contains (l.owner.1, l.owner.2, pa)
    let logged (t : State) (d kind adr : Nat) : Prop :=
      ∃ e r, (t.die d).log = e :: r ∧ e.w0.toNat % 256 = kind ∧ e.w1.toNat = adr
    let unmapped (t : State) (pg : Nat) : Prop := ∀ q, q < 32 → ∀ e ∈ (t.cluster q).tlb, e.covers pg = false
    (s.due [a, b, c, d, e] → s.logHeld (unitDie unit i) = false → Occurs s .softErrorCorrected
      (u.logErr (unitDie unit i) 1 unit i (c % 2 ^ 52) (if unit = 2 then log3 i (d % 1024) (e % 24) 0 0 else 0))) ∧
    (s.due [a] → line → l.dirty = 0 → l.poison = false → s.logHeld die = false → Occurs s .ueCleanStackLine
      (({ u with stack := tdel s.stack a }).logErr die 2 2 l.slice pa (log3 l.slice (keyLine a % 1024) l.way 0 0))) ∧
    (s.due [a] → a < lpddrBytes → (∀ p ∈ s.retiring, p.1 / 65536 ≠ pg) → s.logHeld (unitDie 3 ch) = false → Occurs s .ueLpddr6
      ((({ u with badUnits := tset false s.badUnits (a / 64) true, retiring := s.retiring ++ [(a, ch)] }).logErr
        (unitDie 3 ch) 4 3 ch a 0).retirePage a) ∧
      (s.unitsReady → Brings s .ueLpddr6 fun t => t.retiring = s.retiring ++ [(a, ch)] ∧ logged t (unitDie 3 ch) 4 a ∧
        unmapped t pg)) ∧
    (∀ p, s.due [a] → a < lpddrBytes → s.retiring.find? (fun p => p.1 / 65536 == pg) = some p → pageInFlight u pg = false →
      s.logHeld (unitDie 3 p.2) = false → Occurs s .ueLpddr6
        ((pageQuiet { u with retiring := s.retiring.filter fun q => q.1 != p.1 } pg).logErr (unitDie 3 p.2) 6 3 p.2 (pg * 65536) 0) ∧
      (s.unitsReady → Brings s .ueLpddr6 fun t => t.retiring = s.retiring.filter (fun q => q.1 != p.1) ∧
        logged t (unitDie 3 p.2) 6 (pg * 65536))) ∧
    (∀ m j, s.due [a, b, c, d] → s.coreOk a = true → s.coreOk m = true → (s.ctx m j).life ≠ .free → s.logHeld (dieOf a) = false →
      let at_ := m * 2 ^ 21 + j * 2 ^ 28
      let ends : Prop := s.unitsReady → (s.ctx m j).life = .live → Brings s .ueCoreSram fun t => (t.ctx m j).life = .free
      (b = 0 → m = a → tget 0 (s.core a).tags (c % 56) = j + 1 → let p := u.free 874000 % 2 ^ 52
        Occurs s .ueCoreSram (terminate (u.logErr (dieOf a) 5 0 a p at_) a j 3 p) ∧ ends) ∧
      (1 ≤ b → b ≤ 3 → (b = 1 ∧ m = 4 * clusterOf a + (a + d / 8) % 4 ∨ b ≠ 1 ∧ m = a) → j = d % 8 →
        Occurs s .ueCoreSram (terminate (u.logErr (dieOf a) 5 0 a c at_) m j 3 c) ∧ ends) ∧
      (∀ w, b = 4 → m = a → tfind (s.core a).l1 c = some w → w.wrote ≠ 0 → w.writer = j → Occurs s .ueCoreSram
        (terminate ((u.logErr (dieOf a) 5 1 a (128 * c) at_).modCore a fun m => { m with l1 := tdel m.l1 c }) a j 3 (128 * c)) ∧
        ends)) ∧
    (s.due [a] → line → l.dirty ≠ 0 → l.poison = false → s.logHeld die = false →
      let v := ({ u with stack := tput s.stack a { l with poison := true, dirty := 0, wrote := 0 } }).logErr die 3 2 l.slice pa
        (l.log3 (keyLine a) l.owner)
      Occurs s .ueDirtyStackLine (if l.owner.1 < 128 then v.ueMsg l.owner.1 l.owner.2 pa else v) ∧
      Brings s .ueDirtyStackLine fun t => tfind t.stack a = some { l with poison := true, dirty := 0, wrote := 0 } ∧ logged t die 3 pa ∧
        (l.owner.1 < 128 → t.messages = s.messages ++ [(l.owner.1, l.owner.2, pa)])) ∧
    (s.due [a] → line → l.poison = true → told = false → l.retire = false → Occurs s .ueDirtyStackLine
      (({ u with stack := tput s.stack a { l with retire := true } }).retirePage pa) ∧
      (s.unitsReady → Brings s .ueDirtyStackLine fun t => unmapped t (pa / 65536))) ∧
    (s.due [a] → line → l.poison = true → told = false → l.retire = true → pageInFlight u (pa / 65536) = false →
      let ch := Config.channelOf (pa / 64) % 48
      let v := (pageQuiet u (pa / 65536)).logErr die 6 3 ch (pa / 65536 * 65536) 0
      let w := { v with stack := tdel v.stack a }
      let set := keyLine a % 1024
      Occurs s .ueDirtyStackLine (if w.quarReply l.slice set l.way = 0 then
        (w.quarantine l.slice set l.way).logErr die 7 2 l.slice pa (log3 l.slice set l.way 0 0) else w) ∧
      (s.unitsReady → Brings s .ueDirtyStackLine fun t => tfind t.stack a = none ∧
        (w.quarReply l.slice set l.way = 0 → t.quarantined l.slice set l.way = true ∧ logged t die 7 pa))) ∧
    (∀ k j pa, s.due [a] → s.messages[a]? = some (k, j, pa) →
      Occurs s .ueOwnerMessage (terminate { u with messages := dropAt s.messages a } k j 3 pa) ∧
      (s.unitsReady → (s.ctx k j).life = .live → Brings s .ueOwnerMessage fun t => (t.ctx k j).life = .free))

/-- R5, R213, R343, R355, R446 to R448, R453 to R459: the device from outside: register writes, memory accesses,
security, debug and power, readiness, installs and attestation. The model's choices: what the host may do at its own addresses and
through BAR2 (log entry 101), power-on and the firmware's verification (log entries 6 and 70), the order of SPDM requests, the
error response and the keys (log entries 19 and 107), what a debugger names and the new nonce (log entry 102). -/
def Obligations.DeviceStepsOccur : Prop :=
  ∀ (s : State) (a b : Nat) (l : List Nat),
    let u := s.fresh
    let w (fn off v : Nat) : State := regWrite u fn off v
    let data : List Byte := l.map (BitVec.ofNat 8)
    let hsm : Prop := (s.reg (rSysReady 0)).testBit 57 = true
    let need (i : Instr) (n : Nat) (f : State → State) : Prop := s.due [] → hsm →
      (n ≤ s.spdm.phase → Occurs s i (f (hostWake u))) ∧
      (s.spdm.phase < n → Occurs s i (let v := hostWake u; { v with spdm := { v.spdm with resp := spdmOpen v 0x7F } }))
    let told (n code : Nat) (i : Instr) (f : Spdm → Spdm) : Prop :=
      need i n fun v => { v with spdm := f { v.spdm with resp := spdmOpen v code } }
    let plain (part : Nat) : Prop := s.unitsReady ∧ (s.reg rBndCtl).testBit 0 = false ∧ a % 256 + l.length ≤ 256 ∧
      s.inImage a = false ∧ s.poisoned part a = false ∧
      ∀ i, i < l.length → tget false s.badUnits ((a + i) / 64) = false
    let sec (s : State) : Nat := s.reg rSecSts % 4
    let dbg (s : State) : Nat := s.reg rDbgSts % 4
    let pwr (s : State) : Nat := s.reg rPwrSts % 8
    (∀ v, s.due [a, b, v] → Occurs s .registerWrite (w a b (v % 2 ^ 64))) ∧
    (∀ v, s.due [0, rSlice b, v] → b < 128 → (s.reg (rSysReady 1)).testBit (b / 4) = true → 1024 ≤ v → v ≤ 1048576 →
      Brings s .registerWrite fun t => t.reg (rSlice b) % 2 ^ 21 = v) ∧
    (s.due [] → Occurs s .secRaiseMeasured (w 0 rSecCtl 1) ∧ Occurs s .secRaiseSealed (w 0 rSecCtl 2) ∧
      (sec s = 0 → Brings s .secRaiseMeasured fun t => sec t = 1) ∧ (sec s < 2 → Brings s .secRaiseSealed fun t => sec t = 2) ∧
      (sec s = 2 → (w 0 rSecCtl 1).reg rSecSts = s.reg rSecSts)) ∧
    (s.due [] → Occurs s .dbgReqNone (w 0 rDbgCtl 0) ∧ Brings s .dbgReqNone fun t => dbg t = 0) ∧
    (s.due [a] → Occurs s .dbgReqObserve (w 0 rDbgCtl (1 + 4 * (a % 2))) ∧ Occurs s .dbgReqInvasive (w 0 rDbgCtl (2 + 4 * (a % 2))) ∧
      (sec s = 0 → Brings s .dbgReqObserve (fun t => dbg t = 1) ∧ Brings s .dbgReqInvasive fun t => dbg t = 2)) ∧
    (s.due [] → Occurs s .pwrReqRun (w 0 rPwrCtl 0) ∧ Occurs s .pwrReqSlow (w 0 rPwrCtl 1) ∧ Occurs s .pwrReqIdle (w 0 rPwrCtl 2) ∧
      Occurs s .pwrReqPark (w 0 rPwrCtl 3) ∧
      (pwr s < 2 → Brings s .pwrReqRun (fun t => pwr t = 0) ∧ Brings s .pwrReqSlow (fun t => pwr t = 1) ∧
        (idleOk u = true → Brings s .pwrReqIdle (fun t => pwr t = 2) ∧
          Brings s .pwrReqPark fun t => pwr t = 3 ∧ ∀ i, i < 3 → t.reg (rSysReady i) = 0) ∧
        (idleOk u = false → pwr (w 0 rPwrCtl 3) = pwr s))) ∧
    (s.due [] → Occurs s .imgGo (w 0 rImgGo 1) ∧ (hsm → s.install = none → Brings s .imgGo fun t =>
      t.install = some (s.reg rImgAddr, s.reg rImgLen, s.reg rImgKind, s.reg rImgIdx) ∧ t.reg rImgSts % 8 = 1)) ∧
    (s.due [] → Occurs s .bndCtlEnWrite (w 0 rBndCtl 1) ∧ (hsm → Brings s .bndCtlEnWrite fun t => t.reg rBndCtl = 1)) ∧
    (s.due [a, b] → a < 128 → b < 32 → Occurs s .circEnWrite (w 0 (rCirc a b) (s.reg (rCirc a b) % 2 ^ 7 + 2 ^ 7)) ∧
      (∀ h x, (s.reg (rSysReady 1)).testBit (a / 4) = true → circPath u a b (s.reg (rCirc a b) % 2 ^ 7) = some (h, x) →
        Brings s .circEnWrite fun t => t.reg (rCirc a b) =
          s.reg (rCirc a b) % 2 ^ 7 + 2 ^ 7 + 2 ^ 8 + (4 + 2 * h + 9 * x) % 256 * 2 ^ 16)) ∧
    (s.due [a] → let r := a / 0x10000 * 0x10000 + 0xFFF8
      Occurs s .errstsClear (w 0 r 1) ∧
      (a < 2 ^ 26 → blockReady s r = true → Brings s .errstsClear fun t => t.reg r % 2 = 0)) ∧
    (s.due [a] → s.coreOk a = true → dbg s = 2 → pwr s ≠ 3 →
      Brings s .debugHaltRequest fun t => (t.core a).halted = true ∧ t.reg rDbgSts / 8 % 2 = 1) ∧
    (s.due [a, 1, b, 1] → s.coreOk a = true → dbg s = 2 → pwr s ≠ 3 → Brings s .debugHaltRequest fun t => b ∈ (t.core a).brk) ∧
    (∀ j v, s.due [a, 2, j, 1, b, v] → s.coreOk a = true → dbg s = 2 → pwr s ≠ 3 → j < 8 → b < 512 → v < 2 ^ 1024 →
      Brings s .debugHaltRequest fun t => rawD t a j (.v .vb b) = v) ∧
    (s.due [] → pwr s = 0 → idleOk u = true → Brings s .idleEntry fun t => pwr t = 2) ∧
    (s.due [] → pwr s = 2 → Brings s .idleWakeAccess fun t => pwr t = 0) ∧
    (∀ r, s.due [r, b] → pwr s ≠ 3 → (r = 2 ∧ s.sliceOk b = true ∨ r = 1 ∧ 32 ≤ b ∧ b < 36 ∨
        r = 1 ∧ b < 32 ∧ (∃ i, i < 4 ∧ s.coreOk (4 * b + i) = true) ∨ r = 0 ∧ 56 ≤ b ∧ b < 59 ∨
        r = 0 ∧ b < 56 ∧ (s.reg (rLayout 0)).testBit b = true) →
      Brings s .unitReady fun t => t.reg (rSysReady r) = s.reg (rSysReady r) ||| 2 ^ b) ∧
    (s.due (b :: a :: l) → b ≤ 8 → s.hostOk = true → a + l.length ≤ bar2Size s b →
      Occurs s .hostBar2Write ((hostWake u).lpSoft (s.walkPart b) a l.length (ofBytes data)) ∧
      (plain (s.walkPart b) → Brings s .hostBar2Write fun t => t.lpRead (s.walkPart b) a l.length = ofBytes data)) ∧
    (s.due [16 + b, a] → b ≤ 8 → s.hostOk = true → 30 ≤ a → a ≤ 40 →
      Occurs s .hostBar2Write { u with bar2 := tput s.bar2 b a } ∧ Brings s .hostBar2Write fun t => bar2Size t b = 2 ^ a) ∧
    (s.due (1 :: a :: l) → a < 2 ^ 48 → bitsAt (s.reg (rSysReady 0)) 48 8 ≠ 0 →
      Occurs s .peerAccess ((hostWake u).lpSoft 0 a l.length (ofBytes data)) ∧
      (plain 0 → Brings s .peerAccess fun t => t.lpRead 0 a l.length = ofBytes data)) ∧
    (s.due (2 :: a :: l) → a < 2 ^ 52 → Brings s .peerAccess fun t => t.peer.readN a l.length = ofBytes data) ∧
    (s.due (3 :: a :: l) → a < 2 ^ 52 → Brings s .peerAccess fun t => t.host.readN a l.length = ofBytes data) ∧
    (exec .powerLoss s = .next (if s.off then s.tick else coldState s.tick true)) ∧
    (s.off = true → s.arg.getD 0 0 % 2 = 0 → ∃ t, exec .powerOn s = .next t ∧ t.off = false ∧ t.reg rDbgSts = 0 ∧
      (a < 6 → t.reg (rMr a) = 0) ∧ t.reg (rLayout 2) = 2 ^ 64 - 1 ∧ t.memWf = (s.host.wf && s.peer.wf)) ∧
    (s.off = true → s.arg.getD 0 0 % 2 = 1 → ∃ t, exec .powerOn s = .next t ∧ t.off = false ∧ t.down = true ∧ t.reg rPwrSts = 8) ∧
    (s.due [] → s.install ≠ none → Occurs s .imageInstallDone (evInstall u) ∧ (evInstall u).install = none ∧
      (s.unitsReady → Brings s .imageInstallDone fun t => t.install = none ∧ 2 ≤ t.reg rImgSts % 8)) ∧
    told 0 0x04 .spdmGetVersion (fun p => { p with phase := 1, session := false }) ∧
    told 1 0x61 .spdmGetCapabilities (fun p => { p with phase := 2 }) ∧
    told 2 0x63 .spdmNegotiateAlgorithms (fun p => { p with phase := 3 }) ∧
    told 3 0x01 .spdmGetDigests id ∧ told 3 0x02 .spdmGetCertificate id ∧ told 3 0x03 .spdmChallenge id ∧
    told 3 0x64 .spdmKeyExchange (fun p => { p with phase := 4 }) ∧
    told 4 0x65 .spdmFinish (fun p => { p with phase := 3, session := true }) ∧
    told 3 0x6C .spdmEndSession (fun p => { p with session := false }) ∧
    need .spdmGetMeasurements 3 (fun v => { v with spdm := { v.spdm with resp := measurements u } }) ∧
    (s.due [a, b] → hsm → s.spdm.session = true → Occurs s .ideKmRequest
      (let v := hostWake u; { v with spdm := { v.spdm with keys := tput v.spdm.keys a (BitVec.ofNat 256 b) } }))

/-! ### Encodings -/

/-- Decoding an encoded instruction gives it back: for every well-formed instruction, guard and argument list. -/
def Obligations.RoundTrip : Prop :=
  ∀ i : Instr, Laws.RoundTrip.Statement i

/-- R22, R30, R31 and Tables 02-5 to 02-14: the example bundle and the `yield` of the encoding chapter, and words
written out from the tables, decode to the instructions they stand for; a code the tables leave out and a reserved
field are found. -/
def Obligations.DecodesSpecWords : Prop :=
  let bundle : Nat := 0x8000_0400_61C0_0008 * 2 ^ 64 + 0x0000_0190_0004_0281 * 2 ^ 128
  let va : VH := { f := .va, w := .w1024, m := 0 }
  let is (sl : Slot) (w : Nat) (i : Instr) : Prop :=
    (decSlot sl w).ins = some i ∧ (decSlot sl w).arg = [] ∧ (decSlot sl w).ill = [] ∧ (decSlot sl w).rsv = []
  opsOf bundle = [{ slot := .sc, g := 0, i := .scAdd .i64 3 3 (.imm 8) }, { slot := .va, g := 0, i := .vAdd va 4 4 5 6 0 false }] ∧
  bundleFault false bundle = none ∧
  decodeTableWord 512 0x3000_0000_1388_0001 = some (.yield 5000) ∧
  is .ct (0x04 * 2 ^ 42 + 0x1234) (.call 0x1234) ∧
  is .ct (0x0D * 2 ^ 42) .halt ∧
  is .sc (0x6B * 2 ^ 40 + 5 * 2 ^ 29 + 6 * 2 ^ 23 + 7 * 2 ^ 16 + 3) (.adds 5 6 7 3) ∧
  is .mx (0x07 * 2 ^ 42 + 3 * 2 ^ 34) (.mclr 3) ∧
  (decSlot .ct (0x3F * 2 ^ 42)).ill ≠ [] ∧ (decSlot .ct (0x0D * 2 ^ 42 + 1)).rsv ≠ []
end

