-- ==== Sys2Proof/Laws/State.lean ====
section
/-! SUPPORT. What each named update of the state leaves as it was, and what it sets: one rfl lemma per field. -/

namespace Sys2Proof.Machine


/-! ### `State.setCore` -/

@[simp] theorem State.setCore_now (s : State) (k : Nat) (c : Core) : (s.setCore k c).now = s.now := rfl
@[simp] theorem State.setCore_clusters (s : State) (k : Nat) (c : Core) : (s.setCore k c).clusters = s.clusters := rfl
@[simp] theorem State.setCore_dies (s : State) (k : Nat) (c : Core) : (s.setCore k c).dies = s.dies := rfl
@[simp] theorem State.setCore_regs (s : State) (k : Nat) (c : Core) : (s.setCore k c).regs = s.regs := rfl
@[simp] theorem State.setCore_dram (s : State) (k : Nat) (c : Core) : (s.setCore k c).dram = s.dram := rfl
@[simp] theorem State.setCore_host (s : State) (k : Nat) (c : Core) : (s.setCore k c).host = s.host := rfl
@[simp] theorem State.setCore_peer (s : State) (k : Nat) (c : Core) : (s.setCore k c).peer = s.peer := rfl
@[simp] theorem State.setCore_stack (s : State) (k : Nat) (c : Core) : (s.setCore k c).stack = s.stack := rfl
@[simp] theorem State.setCore_quar (s : State) (k : Nat) (c : Core) : (s.setCore k c).quar = s.quar := rfl
@[simp] theorem State.setCore_badUnits (s : State) (k : Nat) (c : Core) : (s.setCore k c).badUnits = s.badUnits := rfl
@[simp] theorem State.setCore_kernels (s : State) (k : Nat) (c : Core) : (s.setCore k c).kernels = s.kernels := rfl
@[simp] theorem State.setCore_nextKernel (s : State) (k : Nat) (c : Core) : (s.setCore k c).nextKernel = s.nextKernel := rfl
@[simp] theorem State.setCore_launchRot (s : State) (k : Nat) (c : Core) : (s.setCore k c).launchRot = s.launchRot := rfl
@[simp] theorem State.setCore_held (s : State) (k : Nat) (c : Core) : (s.setCore k c).held = s.held := rfl
@[simp] theorem State.setCore_codeBase (s : State) (k : Nat) (c : Core) : (s.setCore k c).codeBase = s.codeBase := rfl
@[simp] theorem State.setCore_codeSize (s : State) (k : Nat) (c : Core) : (s.setCore k c).codeSize = s.codeSize := rfl
@[simp] theorem State.setCore_retiring (s : State) (k : Nat) (c : Core) : (s.setCore k c).retiring = s.retiring := rfl
@[simp] theorem State.setCore_ended (s : State) (k : Nat) (c : Core) : (s.setCore k c).ended = s.ended := rfl
@[simp] theorem State.setCore_measured (s : State) (k : Nat) (c : Core) : (s.setCore k c).measured = s.measured := rfl
@[simp] theorem State.setCore_keyFill (s : State) (k : Nat) (c : Core) : (s.setCore k c).keyFill = s.keyFill := rfl
@[simp] theorem State.setCore_bar2 (s : State) (k : Nat) (c : Core) : (s.setCore k c).bar2 = s.bar2 := rfl
@[simp] theorem State.setCore_circTl (s : State) (k : Nat) (c : Core) : (s.setCore k c).circTl = s.circTl := rfl
@[simp] theorem State.setCore_completions (s : State) (k : Nat) (c : Core) : (s.setCore k c).completions = s.completions := rfl
@[simp] theorem State.setCore_blocks (s : State) (k : Nat) (c : Core) : (s.setCore k c).blocks = s.blocks := rfl
@[simp] theorem State.setCore_trims (s : State) (k : Nat) (c : Core) : (s.setCore k c).trims = s.trims := rfl
@[simp] theorem State.setCore_messages (s : State) (k : Nat) (c : Core) : (s.setCore k c).messages = s.messages := rfl
@[simp] theorem State.setCore_images (s : State) (k : Nat) (c : Core) : (s.setCore k c).images = s.images := rfl
@[simp] theorem State.setCore_install (s : State) (k : Nat) (c : Core) : (s.setCore k c).install = s.install := rfl
@[simp] theorem State.setCore_spdm (s : State) (k : Nat) (c : Core) : (s.setCore k c).spdm = s.spdm := rfl
@[simp] theorem State.setCore_off (s : State) (k : Nat) (c : Core) : (s.setCore k c).off = s.off := rfl
@[simp] theorem State.setCore_escaped (s : State) (k : Nat) (c : Core) : (s.setCore k c).escaped = s.escaped := rfl
@[simp] theorem State.setCore_shelfUsed (s : State) (k : Nat) (c : Core) : (s.setCore k c).shelfUsed = s.shelfUsed := rfl
@[simp] theorem State.setCore_nextKey (s : State) (k : Nat) (c : Core) : (s.setCore k c).nextKey = s.nextKey := rfl
@[simp] theorem State.setCore_iss (s : State) (k : Nat) (c : Core) : (s.setCore k c).iss = s.iss := rfl
@[simp] theorem State.setCore_turns (s : State) (k : Nat) (c : Core) : (s.setCore k c).turns = s.turns := rfl
@[simp] theorem State.setCore_arg (s : State) (k : Nat) (c : Core) : (s.setCore k c).arg = s.arg := rfl
@[simp] theorem State.setCore_rr (s : State) (k : Nat) (c : Core) : (s.setCore k c).rr = s.rr := rfl
@[simp] theorem State.setCore_evt (s : State) (k : Nat) (c : Core) : (s.setCore k c).evt = s.evt := rfl
@[simp] theorem State.setCore_freeCtr (s : State) (k : Nat) (c : Core) : (s.setCore k c).freeCtr = s.freeCtr := rfl

/-! ### `State.setCtx` -/

@[simp] theorem State.setCtx_now (s : State) (k j : Nat) (x : Ctx) : (s.setCtx k j x).now = s.now := rfl
@[simp] theorem State.setCtx_clusters (s : State) (k j : Nat) (x : Ctx) : (s.setCtx k j x).clusters = s.clusters := rfl
@[simp] theorem State.setCtx_dies (s : State) (k j : Nat) (x : Ctx) : (s.setCtx k j x).dies = s.dies := rfl
@[simp] theorem State.setCtx_regs (s : State) (k j : Nat) (x : Ctx) : (s.setCtx k j x).regs = s.regs := rfl
@[simp] theorem State.setCtx_dram (s : State) (k j : Nat) (x : Ctx) : (s.setCtx k j x).dram = s.dram := rfl
@[simp] theorem State.setCtx_host (s : State) (k j : Nat) (x : Ctx) : (s.setCtx k j x).host = s.host := rfl
@[simp] theorem State.setCtx_peer (s : State) (k j : Nat) (x : Ctx) : (s.setCtx k j x).peer = s.peer := rfl
@[simp] theorem State.setCtx_stack (s : State) (k j : Nat) (x : Ctx) : (s.setCtx k j x).stack = s.stack := rfl
@[simp] theorem State.setCtx_quar (s : State) (k j : Nat) (x : Ctx) : (s.setCtx k j x).quar = s.quar := rfl
@[simp] theorem State.setCtx_badUnits (s : State) (k j : Nat) (x : Ctx) : (s.setCtx k j x).badUnits = s.badUnits := rfl
@[simp] theorem State.setCtx_kernels (s : State) (k j : Nat) (x : Ctx) : (s.setCtx k j x).kernels = s.kernels := rfl
@[simp] theorem State.setCtx_nextKernel (s : State) (k j : Nat) (x : Ctx) : (s.setCtx k j x).nextKernel = s.nextKernel := rfl
@[simp] theorem State.setCtx_launchRot (s : State) (k j : Nat) (x : Ctx) : (s.setCtx k j x).launchRot = s.launchRot := rfl
@[simp] theorem State.setCtx_held (s : State) (k j : Nat) (x : Ctx) : (s.setCtx k j x).held = s.held := rfl
@[simp] theorem State.setCtx_codeBase (s : State) (k j : Nat) (x : Ctx) : (s.setCtx k j x).codeBase = s.codeBase := rfl
@[simp] theorem State.setCtx_codeSize (s : State) (k j : Nat) (x : Ctx) : (s.setCtx k j x).codeSize = s.codeSize := rfl
@[simp] theorem State.setCtx_retiring (s : State) (k j : Nat) (x : Ctx) : (s.setCtx k j x).retiring = s.retiring := rfl
@[simp] theorem State.setCtx_ended (s : State) (k j : Nat) (x : Ctx) : (s.setCtx k j x).ended = s.ended := rfl
@[simp] theorem State.setCtx_measured (s : State) (k j : Nat) (x : Ctx) : (s.setCtx k j x).measured = s.measured := rfl
@[simp] theorem State.setCtx_keyFill (s : State) (k j : Nat) (x : Ctx) : (s.setCtx k j x).keyFill = s.keyFill := rfl
@[simp] theorem State.setCtx_bar2 (s : State) (k j : Nat) (x : Ctx) : (s.setCtx k j x).bar2 = s.bar2 := rfl
@[simp] theorem State.setCtx_circTl (s : State) (k j : Nat) (x : Ctx) : (s.setCtx k j x).circTl = s.circTl := rfl
@[simp] theorem State.setCtx_completions (s : State) (k j : Nat) (x : Ctx) : (s.setCtx k j x).completions = s.completions := rfl
@[simp] theorem State.setCtx_blocks (s : State) (k j : Nat) (x : Ctx) : (s.setCtx k j x).blocks = s.blocks := rfl
@[simp] theorem State.setCtx_trims (s : State) (k j : Nat) (x : Ctx) : (s.setCtx k j x).trims = s.trims := rfl
@[simp] theorem State.setCtx_messages (s : State) (k j : Nat) (x : Ctx) : (s.setCtx k j x).messages = s.messages := rfl
@[simp] theorem State.setCtx_images (s : State) (k j : Nat) (x : Ctx) : (s.setCtx k j x).images = s.images := rfl
@[simp] theorem State.setCtx_install (s : State) (k j : Nat) (x : Ctx) : (s.setCtx k j x).install = s.install := rfl
@[simp] theorem State.setCtx_spdm (s : State) (k j : Nat) (x : Ctx) : (s.setCtx k j x).spdm = s.spdm := rfl
@[simp] theorem State.setCtx_off (s : State) (k j : Nat) (x : Ctx) : (s.setCtx k j x).off = s.off := rfl
@[simp] theorem State.setCtx_escaped (s : State) (k j : Nat) (x : Ctx) : (s.setCtx k j x).escaped = s.escaped := rfl
@[simp] theorem State.setCtx_shelfUsed (s : State) (k j : Nat) (x : Ctx) : (s.setCtx k j x).shelfUsed = s.shelfUsed := rfl
@[simp] theorem State.setCtx_nextKey (s : State) (k j : Nat) (x : Ctx) : (s.setCtx k j x).nextKey = s.nextKey := rfl
@[simp] theorem State.setCtx_iss (s : State) (k j : Nat) (x : Ctx) : (s.setCtx k j x).iss = s.iss := rfl
@[simp] theorem State.setCtx_turns (s : State) (k j : Nat) (x : Ctx) : (s.setCtx k j x).turns = s.turns := rfl
@[simp] theorem State.setCtx_arg (s : State) (k j : Nat) (x : Ctx) : (s.setCtx k j x).arg = s.arg := rfl
@[simp] theorem State.setCtx_rr (s : State) (k j : Nat) (x : Ctx) : (s.setCtx k j x).rr = s.rr := rfl
@[simp] theorem State.setCtx_evt (s : State) (k j : Nat) (x : Ctx) : (s.setCtx k j x).evt = s.evt := rfl
@[simp] theorem State.setCtx_freeCtr (s : State) (k j : Nat) (x : Ctx) : (s.setCtx k j x).freeCtr = s.freeCtr := rfl

/-! ### `State.modCore` -/

@[simp] theorem State.modCore_now (s : State) (k : Nat) (f : Core → Core) : (s.modCore k f).now = s.now := rfl
@[simp] theorem State.modCore_clusters (s : State) (k : Nat) (f : Core → Core) : (s.modCore k f).clusters = s.clusters := rfl
@[simp] theorem State.modCore_dies (s : State) (k : Nat) (f : Core → Core) : (s.modCore k f).dies = s.dies := rfl
@[simp] theorem State.modCore_regs (s : State) (k : Nat) (f : Core → Core) : (s.modCore k f).regs = s.regs := rfl
@[simp] theorem State.modCore_dram (s : State) (k : Nat) (f : Core → Core) : (s.modCore k f).dram = s.dram := rfl
@[simp] theorem State.modCore_host (s : State) (k : Nat) (f : Core → Core) : (s.modCore k f).host = s.host := rfl
@[simp] theorem State.modCore_peer (s : State) (k : Nat) (f : Core → Core) : (s.modCore k f).peer = s.peer := rfl
@[simp] theorem State.modCore_stack (s : State) (k : Nat) (f : Core → Core) : (s.modCore k f).stack = s.stack := rfl
@[simp] theorem State.modCore_quar (s : State) (k : Nat) (f : Core → Core) : (s.modCore k f).quar = s.quar := rfl
@[simp] theorem State.modCore_badUnits (s : State) (k : Nat) (f : Core → Core) : (s.modCore k f).badUnits = s.badUnits := rfl
@[simp] theorem State.modCore_kernels (s : State) (k : Nat) (f : Core → Core) : (s.modCore k f).kernels = s.kernels := rfl
@[simp] theorem State.modCore_nextKernel (s : State) (k : Nat) (f : Core → Core) : (s.modCore k f).nextKernel = s.nextKernel := rfl
@[simp] theorem State.modCore_launchRot (s : State) (k : Nat) (f : Core → Core) : (s.modCore k f).launchRot = s.launchRot := rfl
@[simp] theorem State.modCore_held (s : State) (k : Nat) (f : Core → Core) : (s.modCore k f).held = s.held := rfl
@[simp] theorem State.modCore_codeBase (s : State) (k : Nat) (f : Core → Core) : (s.modCore k f).codeBase = s.codeBase := rfl
@[simp] theorem State.modCore_codeSize (s : State) (k : Nat) (f : Core → Core) : (s.modCore k f).codeSize = s.codeSize := rfl
@[simp] theorem State.modCore_retiring (s : State) (k : Nat) (f : Core → Core) : (s.modCore k f).retiring = s.retiring := rfl
@[simp] theorem State.modCore_ended (s : State) (k : Nat) (f : Core → Core) : (s.modCore k f).ended = s.ended := rfl
@[simp] theorem State.modCore_measured (s : State) (k : Nat) (f : Core → Core) : (s.modCore k f).measured = s.measured := rfl
@[simp] theorem State.modCore_keyFill (s : State) (k : Nat) (f : Core → Core) : (s.modCore k f).keyFill = s.keyFill := rfl
@[simp] theorem State.modCore_bar2 (s : State) (k : Nat) (f : Core → Core) : (s.modCore k f).bar2 = s.bar2 := rfl
@[simp] theorem State.modCore_circTl (s : State) (k : Nat) (f : Core → Core) : (s.modCore k f).circTl = s.circTl := rfl
@[simp] theorem State.modCore_completions (s : State) (k : Nat) (f : Core → Core) : (s.modCore k f).completions = s.completions := rfl
@[simp] theorem State.modCore_blocks (s : State) (k : Nat) (f : Core → Core) : (s.modCore k f).blocks = s.blocks := rfl
@[simp] theorem State.modCore_trims (s : State) (k : Nat) (f : Core → Core) : (s.modCore k f).trims = s.trims := rfl
@[simp] theorem State.modCore_messages (s : State) (k : Nat) (f : Core → Core) : (s.modCore k f).messages = s.messages := rfl
@[simp] theorem State.modCore_images (s : State) (k : Nat) (f : Core → Core) : (s.modCore k f).images = s.images := rfl
@[simp] theorem State.modCore_install (s : State) (k : Nat) (f : Core → Core) : (s.modCore k f).install = s.install := rfl
@[simp] theorem State.modCore_spdm (s : State) (k : Nat) (f : Core → Core) : (s.modCore k f).spdm = s.spdm := rfl
@[simp] theorem State.modCore_off (s : State) (k : Nat) (f : Core → Core) : (s.modCore k f).off = s.off := rfl
@[simp] theorem State.modCore_escaped (s : State) (k : Nat) (f : Core → Core) : (s.modCore k f).escaped = s.escaped := rfl
@[simp] theorem State.modCore_shelfUsed (s : State) (k : Nat) (f : Core → Core) : (s.modCore k f).shelfUsed = s.shelfUsed := rfl
@[simp] theorem State.modCore_nextKey (s : State) (k : Nat) (f : Core → Core) : (s.modCore k f).nextKey = s.nextKey := rfl
@[simp] theorem State.modCore_iss (s : State) (k : Nat) (f : Core → Core) : (s.modCore k f).iss = s.iss := rfl
@[simp] theorem State.modCore_turns (s : State) (k : Nat) (f : Core → Core) : (s.modCore k f).turns = s.turns := rfl
@[simp] theorem State.modCore_arg (s : State) (k : Nat) (f : Core → Core) : (s.modCore k f).arg = s.arg := rfl
@[simp] theorem State.modCore_rr (s : State) (k : Nat) (f : Core → Core) : (s.modCore k f).rr = s.rr := rfl
@[simp] theorem State.modCore_evt (s : State) (k : Nat) (f : Core → Core) : (s.modCore k f).evt = s.evt := rfl
@[simp] theorem State.modCore_freeCtr (s : State) (k : Nat) (f : Core → Core) : (s.modCore k f).freeCtr = s.freeCtr := rfl

/-! ### `State.modCtx` -/

@[simp] theorem State.modCtx_now (s : State) (k j : Nat) (f : Ctx → Ctx) : (s.modCtx k j f).now = s.now := rfl
@[simp] theorem State.modCtx_clusters (s : State) (k j : Nat) (f : Ctx → Ctx) : (s.modCtx k j f).clusters = s.clusters := rfl
@[simp] theorem State.modCtx_dies (s : State) (k j : Nat) (f : Ctx → Ctx) : (s.modCtx k j f).dies = s.dies := rfl
@[simp] theorem State.modCtx_regs (s : State) (k j : Nat) (f : Ctx → Ctx) : (s.modCtx k j f).regs = s.regs := rfl
@[simp] theorem State.modCtx_dram (s : State) (k j : Nat) (f : Ctx → Ctx) : (s.modCtx k j f).dram = s.dram := rfl
@[simp] theorem State.modCtx_host (s : State) (k j : Nat) (f : Ctx → Ctx) : (s.modCtx k j f).host = s.host := rfl
@[simp] theorem State.modCtx_peer (s : State) (k j : Nat) (f : Ctx → Ctx) : (s.modCtx k j f).peer = s.peer := rfl
@[simp] theorem State.modCtx_stack (s : State) (k j : Nat) (f : Ctx → Ctx) : (s.modCtx k j f).stack = s.stack := rfl
@[simp] theorem State.modCtx_quar (s : State) (k j : Nat) (f : Ctx → Ctx) : (s.modCtx k j f).quar = s.quar := rfl
@[simp] theorem State.modCtx_badUnits (s : State) (k j : Nat) (f : Ctx → Ctx) : (s.modCtx k j f).badUnits = s.badUnits := rfl
@[simp] theorem State.modCtx_kernels (s : State) (k j : Nat) (f : Ctx → Ctx) : (s.modCtx k j f).kernels = s.kernels := rfl
@[simp] theorem State.modCtx_nextKernel (s : State) (k j : Nat) (f : Ctx → Ctx) : (s.modCtx k j f).nextKernel = s.nextKernel := rfl
@[simp] theorem State.modCtx_launchRot (s : State) (k j : Nat) (f : Ctx → Ctx) : (s.modCtx k j f).launchRot = s.launchRot := rfl
@[simp] theorem State.modCtx_held (s : State) (k j : Nat) (f : Ctx → Ctx) : (s.modCtx k j f).held = s.held := rfl
@[simp] theorem State.modCtx_codeBase (s : State) (k j : Nat) (f : Ctx → Ctx) : (s.modCtx k j f).codeBase = s.codeBase := rfl
@[simp] theorem State.modCtx_codeSize (s : State) (k j : Nat) (f : Ctx → Ctx) : (s.modCtx k j f).codeSize = s.codeSize := rfl
@[simp] theorem State.modCtx_retiring (s : State) (k j : Nat) (f : Ctx → Ctx) : (s.modCtx k j f).retiring = s.retiring := rfl
@[simp] theorem State.modCtx_ended (s : State) (k j : Nat) (f : Ctx → Ctx) : (s.modCtx k j f).ended = s.ended := rfl
@[simp] theorem State.modCtx_measured (s : State) (k j : Nat) (f : Ctx → Ctx) : (s.modCtx k j f).measured = s.measured := rfl
@[simp] theorem State.modCtx_keyFill (s : State) (k j : Nat) (f : Ctx → Ctx) : (s.modCtx k j f).keyFill = s.keyFill := rfl
@[simp] theorem State.modCtx_bar2 (s : State) (k j : Nat) (f : Ctx → Ctx) : (s.modCtx k j f).bar2 = s.bar2 := rfl
@[simp] theorem State.modCtx_circTl (s : State) (k j : Nat) (f : Ctx → Ctx) : (s.modCtx k j f).circTl = s.circTl := rfl
@[simp] theorem State.modCtx_completions (s : State) (k j : Nat) (f : Ctx → Ctx) : (s.modCtx k j f).completions = s.completions := rfl
@[simp] theorem State.modCtx_blocks (s : State) (k j : Nat) (f : Ctx → Ctx) : (s.modCtx k j f).blocks = s.blocks := rfl
@[simp] theorem State.modCtx_trims (s : State) (k j : Nat) (f : Ctx → Ctx) : (s.modCtx k j f).trims = s.trims := rfl
@[simp] theorem State.modCtx_messages (s : State) (k j : Nat) (f : Ctx → Ctx) : (s.modCtx k j f).messages = s.messages := rfl
@[simp] theorem State.modCtx_images (s : State) (k j : Nat) (f : Ctx → Ctx) : (s.modCtx k j f).images = s.images := rfl
@[simp] theorem State.modCtx_install (s : State) (k j : Nat) (f : Ctx → Ctx) : (s.modCtx k j f).install = s.install := rfl
@[simp] theorem State.modCtx_spdm (s : State) (k j : Nat) (f : Ctx → Ctx) : (s.modCtx k j f).spdm = s.spdm := rfl
@[simp] theorem State.modCtx_off (s : State) (k j : Nat) (f : Ctx → Ctx) : (s.modCtx k j f).off = s.off := rfl
@[simp] theorem State.modCtx_escaped (s : State) (k j : Nat) (f : Ctx → Ctx) : (s.modCtx k j f).escaped = s.escaped := rfl
@[simp] theorem State.modCtx_shelfUsed (s : State) (k j : Nat) (f : Ctx → Ctx) : (s.modCtx k j f).shelfUsed = s.shelfUsed := rfl
@[simp] theorem State.modCtx_nextKey (s : State) (k j : Nat) (f : Ctx → Ctx) : (s.modCtx k j f).nextKey = s.nextKey := rfl
@[simp] theorem State.modCtx_iss (s : State) (k j : Nat) (f : Ctx → Ctx) : (s.modCtx k j f).iss = s.iss := rfl
@[simp] theorem State.modCtx_turns (s : State) (k j : Nat) (f : Ctx → Ctx) : (s.modCtx k j f).turns = s.turns := rfl
@[simp] theorem State.modCtx_arg (s : State) (k j : Nat) (f : Ctx → Ctx) : (s.modCtx k j f).arg = s.arg := rfl
@[simp] theorem State.modCtx_rr (s : State) (k j : Nat) (f : Ctx → Ctx) : (s.modCtx k j f).rr = s.rr := rfl
@[simp] theorem State.modCtx_evt (s : State) (k j : Nat) (f : Ctx → Ctx) : (s.modCtx k j f).evt = s.evt := rfl
@[simp] theorem State.modCtx_freeCtr (s : State) (k j : Nat) (f : Ctx → Ctx) : (s.modCtx k j f).freeCtr = s.freeCtr := rfl

/-! ### `State.setCluster` -/

@[simp] theorem State.setCluster_now (s : State) (q : Nat) (c : Cluster) : (s.setCluster q c).now = s.now := rfl
@[simp] theorem State.setCluster_cores (s : State) (q : Nat) (c : Cluster) : (s.setCluster q c).cores = s.cores := rfl
@[simp] theorem State.setCluster_dies (s : State) (q : Nat) (c : Cluster) : (s.setCluster q c).dies = s.dies := rfl
@[simp] theorem State.setCluster_regs (s : State) (q : Nat) (c : Cluster) : (s.setCluster q c).regs = s.regs := rfl
@[simp] theorem State.setCluster_dram (s : State) (q : Nat) (c : Cluster) : (s.setCluster q c).dram = s.dram := rfl
@[simp] theorem State.setCluster_host (s : State) (q : Nat) (c : Cluster) : (s.setCluster q c).host = s.host := rfl
@[simp] theorem State.setCluster_peer (s : State) (q : Nat) (c : Cluster) : (s.setCluster q c).peer = s.peer := rfl
@[simp] theorem State.setCluster_stack (s : State) (q : Nat) (c : Cluster) : (s.setCluster q c).stack = s.stack := rfl
@[simp] theorem State.setCluster_quar (s : State) (q : Nat) (c : Cluster) : (s.setCluster q c).quar = s.quar := rfl
@[simp] theorem State.setCluster_badUnits (s : State) (q : Nat) (c : Cluster) : (s.setCluster q c).badUnits = s.badUnits := rfl
@[simp] theorem State.setCluster_kernels (s : State) (q : Nat) (c : Cluster) : (s.setCluster q c).kernels = s.kernels := rfl
@[simp] theorem State.setCluster_nextKernel (s : State) (q : Nat) (c : Cluster) : (s.setCluster q c).nextKernel = s.nextKernel := rfl
@[simp] theorem State.setCluster_launchRot (s : State) (q : Nat) (c : Cluster) : (s.setCluster q c).launchRot = s.launchRot := rfl
@[simp] theorem State.setCluster_held (s : State) (q : Nat) (c : Cluster) : (s.setCluster q c).held = s.held := rfl
@[simp] theorem State.setCluster_codeBase (s : State) (q : Nat) (c : Cluster) : (s.setCluster q c).codeBase = s.codeBase := rfl
@[simp] theorem State.setCluster_codeSize (s : State) (q : Nat) (c : Cluster) : (s.setCluster q c).codeSize = s.codeSize := rfl
@[simp] theorem State.setCluster_retiring (s : State) (q : Nat) (c : Cluster) : (s.setCluster q c).retiring = s.retiring := rfl
@[simp] theorem State.setCluster_ended (s : State) (q : Nat) (c : Cluster) : (s.setCluster q c).ended = s.ended := rfl
@[simp] theorem State.setCluster_measured (s : State) (q : Nat) (c : Cluster) : (s.setCluster q c).measured = s.measured := rfl
@[simp] theorem State.setCluster_keyFill (s : State) (q : Nat) (c : Cluster) : (s.setCluster q c).keyFill = s.keyFill := rfl
@[simp] theorem State.setCluster_bar2 (s : State) (q : Nat) (c : Cluster) : (s.setCluster q c).bar2 = s.bar2 := rfl
@[simp] theorem State.setCluster_circTl (s : State) (q : Nat) (c : Cluster) : (s.setCluster q c).circTl = s.circTl := rfl
@[simp] theorem State.setCluster_completions (s : State) (q : Nat) (c : Cluster) : (s.setCluster q c).completions = s.completions := rfl
@[simp] theorem State.setCluster_blocks (s : State) (q : Nat) (c : Cluster) : (s.setCluster q c).blocks = s.blocks := rfl
@[simp] theorem State.setCluster_trims (s : State) (q : Nat) (c : Cluster) : (s.setCluster q c).trims = s.trims := rfl
@[simp] theorem State.setCluster_messages (s : State) (q : Nat) (c : Cluster) : (s.setCluster q c).messages = s.messages := rfl
@[simp] theorem State.setCluster_images (s : State) (q : Nat) (c : Cluster) : (s.setCluster q c).images = s.images := rfl
@[simp] theorem State.setCluster_install (s : State) (q : Nat) (c : Cluster) : (s.setCluster q c).install = s.install := rfl
@[simp] theorem State.setCluster_spdm (s : State) (q : Nat) (c : Cluster) : (s.setCluster q c).spdm = s.spdm := rfl
@[simp] theorem State.setCluster_off (s : State) (q : Nat) (c : Cluster) : (s.setCluster q c).off = s.off := rfl
@[simp] theorem State.setCluster_escaped (s : State) (q : Nat) (c : Cluster) : (s.setCluster q c).escaped = s.escaped := rfl
@[simp] theorem State.setCluster_shelfUsed (s : State) (q : Nat) (c : Cluster) : (s.setCluster q c).shelfUsed = s.shelfUsed := rfl
@[simp] theorem State.setCluster_nextKey (s : State) (q : Nat) (c : Cluster) : (s.setCluster q c).nextKey = s.nextKey := rfl
@[simp] theorem State.setCluster_iss (s : State) (q : Nat) (c : Cluster) : (s.setCluster q c).iss = s.iss := rfl
@[simp] theorem State.setCluster_turns (s : State) (q : Nat) (c : Cluster) : (s.setCluster q c).turns = s.turns := rfl
@[simp] theorem State.setCluster_arg (s : State) (q : Nat) (c : Cluster) : (s.setCluster q c).arg = s.arg := rfl
@[simp] theorem State.setCluster_rr (s : State) (q : Nat) (c : Cluster) : (s.setCluster q c).rr = s.rr := rfl
@[simp] theorem State.setCluster_evt (s : State) (q : Nat) (c : Cluster) : (s.setCluster q c).evt = s.evt := rfl
@[simp] theorem State.setCluster_freeCtr (s : State) (q : Nat) (c : Cluster) : (s.setCluster q c).freeCtr = s.freeCtr := rfl

/-! ### `State.modCluster` -/

@[simp] theorem State.modCluster_now (s : State) (q : Nat) (f : Cluster → Cluster) : (s.modCluster q f).now = s.now := rfl
@[simp] theorem State.modCluster_cores (s : State) (q : Nat) (f : Cluster → Cluster) : (s.modCluster q f).cores = s.cores := rfl
@[simp] theorem State.modCluster_dies (s : State) (q : Nat) (f : Cluster → Cluster) : (s.modCluster q f).dies = s.dies := rfl
@[simp] theorem State.modCluster_regs (s : State) (q : Nat) (f : Cluster → Cluster) : (s.modCluster q f).regs = s.regs := rfl
@[simp] theorem State.modCluster_dram (s : State) (q : Nat) (f : Cluster → Cluster) : (s.modCluster q f).dram = s.dram := rfl
@[simp] theorem State.modCluster_host (s : State) (q : Nat) (f : Cluster → Cluster) : (s.modCluster q f).host = s.host := rfl
@[simp] theorem State.modCluster_peer (s : State) (q : Nat) (f : Cluster → Cluster) : (s.modCluster q f).peer = s.peer := rfl
@[simp] theorem State.modCluster_stack (s : State) (q : Nat) (f : Cluster → Cluster) : (s.modCluster q f).stack = s.stack := rfl
@[simp] theorem State.modCluster_quar (s : State) (q : Nat) (f : Cluster → Cluster) : (s.modCluster q f).quar = s.quar := rfl
@[simp] theorem State.modCluster_badUnits (s : State) (q : Nat) (f : Cluster → Cluster) : (s.modCluster q f).badUnits = s.badUnits := rfl
@[simp] theorem State.modCluster_kernels (s : State) (q : Nat) (f : Cluster → Cluster) : (s.modCluster q f).kernels = s.kernels := rfl
@[simp] theorem State.modCluster_nextKernel (s : State) (q : Nat) (f : Cluster → Cluster) : (s.modCluster q f).nextKernel = s.nextKernel := rfl
@[simp] theorem State.modCluster_launchRot (s : State) (q : Nat) (f : Cluster → Cluster) : (s.modCluster q f).launchRot = s.launchRot := rfl
@[simp] theorem State.modCluster_held (s : State) (q : Nat) (f : Cluster → Cluster) : (s.modCluster q f).held = s.held := rfl
@[simp] theorem State.modCluster_codeBase (s : State) (q : Nat) (f : Cluster → Cluster) : (s.modCluster q f).codeBase = s.codeBase := rfl
@[simp] theorem State.modCluster_codeSize (s : State) (q : Nat) (f : Cluster → Cluster) : (s.modCluster q f).codeSize = s.codeSize := rfl
@[simp] theorem State.modCluster_retiring (s : State) (q : Nat) (f : Cluster → Cluster) : (s.modCluster q f).retiring = s.retiring := rfl
@[simp] theorem State.modCluster_ended (s : State) (q : Nat) (f : Cluster → Cluster) : (s.modCluster q f).ended = s.ended := rfl
@[simp] theorem State.modCluster_measured (s : State) (q : Nat) (f : Cluster → Cluster) : (s.modCluster q f).measured = s.measured := rfl
@[simp] theorem State.modCluster_keyFill (s : State) (q : Nat) (f : Cluster → Cluster) : (s.modCluster q f).keyFill = s.keyFill := rfl
@[simp] theorem State.modCluster_bar2 (s : State) (q : Nat) (f : Cluster → Cluster) : (s.modCluster q f).bar2 = s.bar2 := rfl
@[simp] theorem State.modCluster_circTl (s : State) (q : Nat) (f : Cluster → Cluster) : (s.modCluster q f).circTl = s.circTl := rfl
@[simp] theorem State.modCluster_completions (s : State) (q : Nat) (f : Cluster → Cluster) : (s.modCluster q f).completions = s.completions := rfl
@[simp] theorem State.modCluster_blocks (s : State) (q : Nat) (f : Cluster → Cluster) : (s.modCluster q f).blocks = s.blocks := rfl
@[simp] theorem State.modCluster_trims (s : State) (q : Nat) (f : Cluster → Cluster) : (s.modCluster q f).trims = s.trims := rfl
@[simp] theorem State.modCluster_messages (s : State) (q : Nat) (f : Cluster → Cluster) : (s.modCluster q f).messages = s.messages := rfl
@[simp] theorem State.modCluster_images (s : State) (q : Nat) (f : Cluster → Cluster) : (s.modCluster q f).images = s.images := rfl
@[simp] theorem State.modCluster_install (s : State) (q : Nat) (f : Cluster → Cluster) : (s.modCluster q f).install = s.install := rfl
@[simp] theorem State.modCluster_spdm (s : State) (q : Nat) (f : Cluster → Cluster) : (s.modCluster q f).spdm = s.spdm := rfl
@[simp] theorem State.modCluster_off (s : State) (q : Nat) (f : Cluster → Cluster) : (s.modCluster q f).off = s.off := rfl
@[simp] theorem State.modCluster_escaped (s : State) (q : Nat) (f : Cluster → Cluster) : (s.modCluster q f).escaped = s.escaped := rfl
@[simp] theorem State.modCluster_shelfUsed (s : State) (q : Nat) (f : Cluster → Cluster) : (s.modCluster q f).shelfUsed = s.shelfUsed := rfl
@[simp] theorem State.modCluster_nextKey (s : State) (q : Nat) (f : Cluster → Cluster) : (s.modCluster q f).nextKey = s.nextKey := rfl
@[simp] theorem State.modCluster_iss (s : State) (q : Nat) (f : Cluster → Cluster) : (s.modCluster q f).iss = s.iss := rfl
@[simp] theorem State.modCluster_turns (s : State) (q : Nat) (f : Cluster → Cluster) : (s.modCluster q f).turns = s.turns := rfl
@[simp] theorem State.modCluster_arg (s : State) (q : Nat) (f : Cluster → Cluster) : (s.modCluster q f).arg = s.arg := rfl
@[simp] theorem State.modCluster_rr (s : State) (q : Nat) (f : Cluster → Cluster) : (s.modCluster q f).rr = s.rr := rfl
@[simp] theorem State.modCluster_evt (s : State) (q : Nat) (f : Cluster → Cluster) : (s.modCluster q f).evt = s.evt := rfl
@[simp] theorem State.modCluster_freeCtr (s : State) (q : Nat) (f : Cluster → Cluster) : (s.modCluster q f).freeCtr = s.freeCtr := rfl

/-! ### `State.setDie` -/

@[simp] theorem State.setDie_now (s : State) (d : Nat) (v : Die) : (s.setDie d v).now = s.now := rfl
@[simp] theorem State.setDie_cores (s : State) (d : Nat) (v : Die) : (s.setDie d v).cores = s.cores := rfl
@[simp] theorem State.setDie_clusters (s : State) (d : Nat) (v : Die) : (s.setDie d v).clusters = s.clusters := rfl
@[simp] theorem State.setDie_regs (s : State) (d : Nat) (v : Die) : (s.setDie d v).regs = s.regs := rfl
@[simp] theorem State.setDie_dram (s : State) (d : Nat) (v : Die) : (s.setDie d v).dram = s.dram := rfl
@[simp] theorem State.setDie_host (s : State) (d : Nat) (v : Die) : (s.setDie d v).host = s.host := rfl
@[simp] theorem State.setDie_peer (s : State) (d : Nat) (v : Die) : (s.setDie d v).peer = s.peer := rfl
@[simp] theorem State.setDie_stack (s : State) (d : Nat) (v : Die) : (s.setDie d v).stack = s.stack := rfl
@[simp] theorem State.setDie_quar (s : State) (d : Nat) (v : Die) : (s.setDie d v).quar = s.quar := rfl
@[simp] theorem State.setDie_badUnits (s : State) (d : Nat) (v : Die) : (s.setDie d v).badUnits = s.badUnits := rfl
@[simp] theorem State.setDie_kernels (s : State) (d : Nat) (v : Die) : (s.setDie d v).kernels = s.kernels := rfl
@[simp] theorem State.setDie_nextKernel (s : State) (d : Nat) (v : Die) : (s.setDie d v).nextKernel = s.nextKernel := rfl
@[simp] theorem State.setDie_launchRot (s : State) (d : Nat) (v : Die) : (s.setDie d v).launchRot = s.launchRot := rfl
@[simp] theorem State.setDie_held (s : State) (d : Nat) (v : Die) : (s.setDie d v).held = s.held := rfl
@[simp] theorem State.setDie_codeBase (s : State) (d : Nat) (v : Die) : (s.setDie d v).codeBase = s.codeBase := rfl
@[simp] theorem State.setDie_codeSize (s : State) (d : Nat) (v : Die) : (s.setDie d v).codeSize = s.codeSize := rfl
@[simp] theorem State.setDie_retiring (s : State) (d : Nat) (v : Die) : (s.setDie d v).retiring = s.retiring := rfl
@[simp] theorem State.setDie_ended (s : State) (d : Nat) (v : Die) : (s.setDie d v).ended = s.ended := rfl
@[simp] theorem State.setDie_measured (s : State) (d : Nat) (v : Die) : (s.setDie d v).measured = s.measured := rfl
@[simp] theorem State.setDie_keyFill (s : State) (d : Nat) (v : Die) : (s.setDie d v).keyFill = s.keyFill := rfl
@[simp] theorem State.setDie_bar2 (s : State) (d : Nat) (v : Die) : (s.setDie d v).bar2 = s.bar2 := rfl
@[simp] theorem State.setDie_circTl (s : State) (d : Nat) (v : Die) : (s.setDie d v).circTl = s.circTl := rfl
@[simp] theorem State.setDie_completions (s : State) (d : Nat) (v : Die) : (s.setDie d v).completions = s.completions := rfl
@[simp] theorem State.setDie_blocks (s : State) (d : Nat) (v : Die) : (s.setDie d v).blocks = s.blocks := rfl
@[simp] theorem State.setDie_trims (s : State) (d : Nat) (v : Die) : (s.setDie d v).trims = s.trims := rfl
@[simp] theorem State.setDie_messages (s : State) (d : Nat) (v : Die) : (s.setDie d v).messages = s.messages := rfl
@[simp] theorem State.setDie_images (s : State) (d : Nat) (v : Die) : (s.setDie d v).images = s.images := rfl
@[simp] theorem State.setDie_install (s : State) (d : Nat) (v : Die) : (s.setDie d v).install = s.install := rfl
@[simp] theorem State.setDie_spdm (s : State) (d : Nat) (v : Die) : (s.setDie d v).spdm = s.spdm := rfl
@[simp] theorem State.setDie_off (s : State) (d : Nat) (v : Die) : (s.setDie d v).off = s.off := rfl
@[simp] theorem State.setDie_escaped (s : State) (d : Nat) (v : Die) : (s.setDie d v).escaped = s.escaped := rfl
@[simp] theorem State.setDie_shelfUsed (s : State) (d : Nat) (v : Die) : (s.setDie d v).shelfUsed = s.shelfUsed := rfl
@[simp] theorem State.setDie_nextKey (s : State) (d : Nat) (v : Die) : (s.setDie d v).nextKey = s.nextKey := rfl
@[simp] theorem State.setDie_iss (s : State) (d : Nat) (v : Die) : (s.setDie d v).iss = s.iss := rfl
@[simp] theorem State.setDie_turns (s : State) (d : Nat) (v : Die) : (s.setDie d v).turns = s.turns := rfl
@[simp] theorem State.setDie_arg (s : State) (d : Nat) (v : Die) : (s.setDie d v).arg = s.arg := rfl
@[simp] theorem State.setDie_rr (s : State) (d : Nat) (v : Die) : (s.setDie d v).rr = s.rr := rfl
@[simp] theorem State.setDie_evt (s : State) (d : Nat) (v : Die) : (s.setDie d v).evt = s.evt := rfl
@[simp] theorem State.setDie_freeCtr (s : State) (d : Nat) (v : Die) : (s.setDie d v).freeCtr = s.freeCtr := rfl

/-! ### `State.setReg` -/

@[simp] theorem State.setReg_now (s : State) (off v : Nat) : (s.setReg off v).now = s.now := rfl
@[simp] theorem State.setReg_cores (s : State) (off v : Nat) : (s.setReg off v).cores = s.cores := rfl
@[simp] theorem State.setReg_clusters (s : State) (off v : Nat) : (s.setReg off v).clusters = s.clusters := rfl
@[simp] theorem State.setReg_dies (s : State) (off v : Nat) : (s.setReg off v).dies = s.dies := rfl
@[simp] theorem State.setReg_dram (s : State) (off v : Nat) : (s.setReg off v).dram = s.dram := rfl
@[simp] theorem State.setReg_host (s : State) (off v : Nat) : (s.setReg off v).host = s.host := rfl
@[simp] theorem State.setReg_peer (s : State) (off v : Nat) : (s.setReg off v).peer = s.peer := rfl
@[simp] theorem State.setReg_stack (s : State) (off v : Nat) : (s.setReg off v).stack = s.stack := rfl
@[simp] theorem State.setReg_quar (s : State) (off v : Nat) : (s.setReg off v).quar = s.quar := rfl
@[simp] theorem State.setReg_badUnits (s : State) (off v : Nat) : (s.setReg off v).badUnits = s.badUnits := rfl
@[simp] theorem State.setReg_kernels (s : State) (off v : Nat) : (s.setReg off v).kernels = s.kernels := rfl
@[simp] theorem State.setReg_nextKernel (s : State) (off v : Nat) : (s.setReg off v).nextKernel = s.nextKernel := rfl
@[simp] theorem State.setReg_launchRot (s : State) (off v : Nat) : (s.setReg off v).launchRot = s.launchRot := rfl
@[simp] theorem State.setReg_held (s : State) (off v : Nat) : (s.setReg off v).held = s.held := rfl
@[simp] theorem State.setReg_codeBase (s : State) (off v : Nat) : (s.setReg off v).codeBase = s.codeBase := rfl
@[simp] theorem State.setReg_codeSize (s : State) (off v : Nat) : (s.setReg off v).codeSize = s.codeSize := rfl
@[simp] theorem State.setReg_retiring (s : State) (off v : Nat) : (s.setReg off v).retiring = s.retiring := rfl
@[simp] theorem State.setReg_ended (s : State) (off v : Nat) : (s.setReg off v).ended = s.ended := rfl
@[simp] theorem State.setReg_measured (s : State) (off v : Nat) : (s.setReg off v).measured = s.measured := rfl
@[simp] theorem State.setReg_keyFill (s : State) (off v : Nat) : (s.setReg off v).keyFill = s.keyFill := rfl
@[simp] theorem State.setReg_bar2 (s : State) (off v : Nat) : (s.setReg off v).bar2 = s.bar2 := rfl
@[simp] theorem State.setReg_circTl (s : State) (off v : Nat) : (s.setReg off v).circTl = s.circTl := rfl
@[simp] theorem State.setReg_completions (s : State) (off v : Nat) : (s.setReg off v).completions = s.completions := rfl
@[simp] theorem State.setReg_blocks (s : State) (off v : Nat) : (s.setReg off v).blocks = s.blocks := rfl
@[simp] theorem State.setReg_trims (s : State) (off v : Nat) : (s.setReg off v).trims = s.trims := rfl
@[simp] theorem State.setReg_messages (s : State) (off v : Nat) : (s.setReg off v).messages = s.messages := rfl
@[simp] theorem State.setReg_images (s : State) (off v : Nat) : (s.setReg off v).images = s.images := rfl
@[simp] theorem State.setReg_install (s : State) (off v : Nat) : (s.setReg off v).install = s.install := rfl
@[simp] theorem State.setReg_spdm (s : State) (off v : Nat) : (s.setReg off v).spdm = s.spdm := rfl
@[simp] theorem State.setReg_off (s : State) (off v : Nat) : (s.setReg off v).off = s.off := rfl
@[simp] theorem State.setReg_escaped (s : State) (off v : Nat) : (s.setReg off v).escaped = s.escaped := rfl
@[simp] theorem State.setReg_shelfUsed (s : State) (off v : Nat) : (s.setReg off v).shelfUsed = s.shelfUsed := rfl
@[simp] theorem State.setReg_nextKey (s : State) (off v : Nat) : (s.setReg off v).nextKey = s.nextKey := rfl
@[simp] theorem State.setReg_iss (s : State) (off v : Nat) : (s.setReg off v).iss = s.iss := rfl
@[simp] theorem State.setReg_turns (s : State) (off v : Nat) : (s.setReg off v).turns = s.turns := rfl
@[simp] theorem State.setReg_arg (s : State) (off v : Nat) : (s.setReg off v).arg = s.arg := rfl
@[simp] theorem State.setReg_rr (s : State) (off v : Nat) : (s.setReg off v).rr = s.rr := rfl
@[simp] theorem State.setReg_evt (s : State) (off v : Nat) : (s.setReg off v).evt = s.evt := rfl
@[simp] theorem State.setReg_freeCtr (s : State) (off v : Nat) : (s.setReg off v).freeCtr = s.freeCtr := rfl

/-! ### `State.tick` -/

@[simp] theorem State.tick_now (s : State) : (s.tick).now = s.now := rfl
@[simp] theorem State.tick_cores (s : State) : (s.tick).cores = s.cores := rfl
@[simp] theorem State.tick_clusters (s : State) : (s.tick).clusters = s.clusters := rfl
@[simp] theorem State.tick_dies (s : State) : (s.tick).dies = s.dies := rfl
@[simp] theorem State.tick_regs (s : State) : (s.tick).regs = s.regs := rfl
@[simp] theorem State.tick_dram (s : State) : (s.tick).dram = s.dram := rfl
@[simp] theorem State.tick_host (s : State) : (s.tick).host = s.host := rfl
@[simp] theorem State.tick_peer (s : State) : (s.tick).peer = s.peer := rfl
@[simp] theorem State.tick_stack (s : State) : (s.tick).stack = s.stack := rfl
@[simp] theorem State.tick_quar (s : State) : (s.tick).quar = s.quar := rfl
@[simp] theorem State.tick_badUnits (s : State) : (s.tick).badUnits = s.badUnits := rfl
@[simp] theorem State.tick_kernels (s : State) : (s.tick).kernels = s.kernels := rfl
@[simp] theorem State.tick_nextKernel (s : State) : (s.tick).nextKernel = s.nextKernel := rfl
@[simp] theorem State.tick_launchRot (s : State) : (s.tick).launchRot = s.launchRot := rfl
@[simp] theorem State.tick_held (s : State) : (s.tick).held = s.held := rfl
@[simp] theorem State.tick_codeBase (s : State) : (s.tick).codeBase = s.codeBase := rfl
@[simp] theorem State.tick_codeSize (s : State) : (s.tick).codeSize = s.codeSize := rfl
@[simp] theorem State.tick_retiring (s : State) : (s.tick).retiring = s.retiring := rfl
@[simp] theorem State.tick_ended (s : State) : (s.tick).ended = s.ended := rfl
@[simp] theorem State.tick_measured (s : State) : (s.tick).measured = s.measured := rfl
@[simp] theorem State.tick_keyFill (s : State) : (s.tick).keyFill = s.keyFill := rfl
@[simp] theorem State.tick_bar2 (s : State) : (s.tick).bar2 = s.bar2 := rfl
@[simp] theorem State.tick_circTl (s : State) : (s.tick).circTl = s.circTl := rfl
@[simp] theorem State.tick_completions (s : State) : (s.tick).completions = s.completions := rfl
@[simp] theorem State.tick_blocks (s : State) : (s.tick).blocks = s.blocks := rfl
@[simp] theorem State.tick_trims (s : State) : (s.tick).trims = s.trims := rfl
@[simp] theorem State.tick_messages (s : State) : (s.tick).messages = s.messages := rfl
@[simp] theorem State.tick_images (s : State) : (s.tick).images = s.images := rfl
@[simp] theorem State.tick_install (s : State) : (s.tick).install = s.install := rfl
@[simp] theorem State.tick_spdm (s : State) : (s.tick).spdm = s.spdm := rfl
@[simp] theorem State.tick_off (s : State) : (s.tick).off = s.off := rfl
@[simp] theorem State.tick_escaped (s : State) : (s.tick).escaped = s.escaped := rfl
@[simp] theorem State.tick_shelfUsed (s : State) : (s.tick).shelfUsed = s.shelfUsed := rfl
@[simp] theorem State.tick_nextKey (s : State) : (s.tick).nextKey = s.nextKey := rfl
@[simp] theorem State.tick_iss (s : State) : (s.tick).iss = s.iss := rfl
@[simp] theorem State.tick_turns (s : State) : (s.tick).turns = s.turns := rfl
@[simp] theorem State.tick_arg (s : State) : (s.tick).arg = s.arg := rfl
@[simp] theorem State.tick_rr (s : State) : (s.tick).rr = s.rr := rfl
@[simp] theorem State.tick_evt (s : State) : (s.tick).evt = s.evt := rfl

/-! ### `Core.setCtx` -/

@[simp] theorem Core.setCtx_va (c : Core) (j : Nat) (x : Ctx) : (c.setCtx j x).va = c.va := rfl
@[simp] theorem Core.setCtx_vb (c : Core) (j : Nat) (x : Ctx) : (c.setCtx j x).vb = c.vb := rfl
@[simp] theorem Core.setCtx_tiles (c : Core) (j : Nat) (x : Ctx) : (c.setCtx j x).tiles = c.tiles := rfl
@[simp] theorem Core.setCtx_s (c : Core) (j : Nat) (x : Ctx) : (c.setCtx j x).s = c.s := rfl
@[simp] theorem Core.setCtx_la (c : Core) (j : Nat) (x : Ctx) : (c.setCtx j x).la = c.la := rfl
@[simp] theorem Core.setCtx_sa (c : Core) (j : Nat) (x : Ctx) : (c.setCtx j x).sa = c.sa := rfl
@[simp] theorem Core.setCtx_c (c : Core) (j : Nat) (x : Ctx) : (c.setCtx j x).c = c.c := rfl
@[simp] theorem Core.setCtx_tags (c : Core) (j : Nat) (x : Ctx) : (c.setCtx j x).tags = c.tags := rfl
@[simp] theorem Core.setCtx_pad (c : Core) (j : Nat) (x : Ctx) : (c.setCtx j x).pad = c.pad := rfl
@[simp] theorem Core.setCtx_bankA (c : Core) (j : Nat) (x : Ctx) : (c.setCtx j x).bankA = c.bankA := rfl
@[simp] theorem Core.setCtx_bankB (c : Core) (j : Nat) (x : Ctx) : (c.setCtx j x).bankB = c.bankB := rfl
@[simp] theorem Core.setCtx_dirtyA (c : Core) (j : Nat) (x : Ctx) : (c.setCtx j x).dirtyA = c.dirtyA := rfl
@[simp] theorem Core.setCtx_dirtyB (c : Core) (j : Nat) (x : Ctx) : (c.setCtx j x).dirtyB = c.dirtyB := rfl
@[simp] theorem Core.setCtx_sessA (c : Core) (j : Nat) (x : Ctx) : (c.setCtx j x).sessA = c.sessA := rfl
@[simp] theorem Core.setCtx_sessB (c : Core) (j : Nat) (x : Ctx) : (c.setCtx j x).sessB = c.sessB := rfl
@[simp] theorem Core.setCtx_flip (c : Core) (j : Nat) (x : Ctx) : (c.setCtx j x).flip = c.flip := rfl
@[simp] theorem Core.setCtx_flipTo (c : Core) (j : Nat) (x : Ctx) : (c.setCtx j x).flipTo = c.flipTo := rfl
@[simp] theorem Core.setCtx_slots (c : Core) (j : Nat) (x : Ctx) : (c.setCtx j x).slots = c.slots := rfl
@[simp] theorem Core.setCtx_plane0 (c : Core) (j : Nat) (x : Ctx) : (c.setCtx j x).plane0 = c.plane0 := rfl
@[simp] theorem Core.setCtx_plane1 (c : Core) (j : Nat) (x : Ctx) : (c.setCtx j x).plane1 = c.plane1 := rfl
@[simp] theorem Core.setCtx_mq (c : Core) (j : Nat) (x : Ctx) : (c.setCtx j x).mq = c.mq := rfl
@[simp] theorem Core.setCtx_entryFree (c : Core) (j : Nat) (x : Ctx) : (c.setCtx j x).entryFree = c.entryFree := rfl
@[simp] theorem Core.setCtx_entryPl (c : Core) (j : Nat) (x : Ctx) : (c.setCtx j x).entryPl = c.entryPl := rfl
@[simp] theorem Core.setCtx_planeReq (c : Core) (j : Nat) (x : Ctx) : (c.setCtx j x).planeReq = c.planeReq := rfl
@[simp] theorem Core.setCtx_l1 (c : Core) (j : Nat) (x : Ctx) : (c.setCtx j x).l1 = c.l1 := rfl
@[simp] theorem Core.setCtx_nbs (c : Core) (j : Nat) (x : Ctx) : (c.setCtx j x).nbs = c.nbs := rfl
@[simp] theorem Core.setCtx_nbIn (c : Core) (j : Nat) (x : Ctx) : (c.setCtx j x).nbIn = c.nbIn := rfl
@[simp] theorem Core.setCtx_rules (c : Core) (j : Nat) (x : Ctx) : (c.setCtx j x).rules = c.rules := rfl
@[simp] theorem Core.setCtx_rwImg (c : Core) (j : Nat) (x : Ctx) : (c.setCtx j x).rwImg = c.rwImg := rfl
@[simp] theorem Core.setCtx_rwImgV (c : Core) (j : Nat) (x : Ctx) : (c.setCtx j x).rwImgV = c.rwImgV := rfl
@[simp] theorem Core.setCtx_rwErr (c : Core) (j : Nat) (x : Ctx) : (c.setCtx j x).rwErr = c.rwErr := rfl
@[simp] theorem Core.setCtx_scan (c : Core) (j : Nat) (x : Ctx) : (c.setCtx j x).scan = c.scan := rfl
@[simp] theorem Core.setCtx_scanRot (c : Core) (j : Nat) (x : Ctx) : (c.setCtx j x).scanRot = c.scanRot := rfl
@[simp] theorem Core.setCtx_copies (c : Core) (j : Nat) (x : Ctx) : (c.setCtx j x).copies = c.copies := rfl
@[simp] theorem Core.setCtx_streams (c : Core) (j : Nat) (x : Ctx) : (c.setCtx j x).streams = c.streams := rfl
@[simp] theorem Core.setCtx_copyRot (c : Core) (j : Nat) (x : Ctx) : (c.setCtx j x).copyRot = c.copyRot := rfl
@[simp] theorem Core.setCtx_circ (c : Core) (j : Nat) (x : Ctx) : (c.setCtx j x).circ = c.circ := rfl
@[simp] theorem Core.setCtx_sends (c : Core) (j : Nat) (x : Ctx) : (c.setCtx j x).sends = c.sends := rfl
@[simp] theorem Core.setCtx_arrivals (c : Core) (j : Nat) (x : Ctx) : (c.setCtx j x).arrivals = c.arrivals := rfl
@[simp] theorem Core.setCtx_credits (c : Core) (j : Nat) (x : Ctx) : (c.setCtx j x).credits = c.credits := rfl
@[simp] theorem Core.setCtx_prim (c : Core) (j : Nat) (x : Ctx) : (c.setCtx j x).prim = c.prim := rfl
@[simp] theorem Core.setCtx_prep (c : Core) (j : Nat) (x : Ctx) : (c.setCtx j x).prep = c.prep := rfl
@[simp] theorem Core.setCtx_slice (c : Core) (j : Nat) (x : Ctx) : (c.setCtx j x).slice = c.slice := rfl
@[simp] theorem Core.setCtx_rptr (c : Core) (j : Nat) (x : Ctx) : (c.setCtx j x).rptr = c.rptr := rfl
@[simp] theorem Core.setCtx_sysw (c : Core) (j : Nat) (x : Ctx) : (c.setCtx j x).sysw = c.sysw := rfl
@[simp] theorem Core.setCtx_lastCyc (c : Core) (j : Nat) (x : Ctx) : (c.setCtx j x).lastCyc = c.lastCyc := rfl
@[simp] theorem Core.setCtx_halted (c : Core) (j : Nat) (x : Ctx) : (c.setCtx j x).halted = c.halted := rfl

/-! ### `Ctx.setTl` -/

@[simp] theorem Ctx.setTl_life (x : Ctx) (e : Nat) (t : Timeline) : (x.setTl e t).life = x.life := rfl
@[simp] theorem Ctx.setTl_task (x : Ctx) (e : Nat) (t : Timeline) : (x.setTl e t).task = x.task := rfl
@[simp] theorem Ctx.setTl_ctl (x : Ctx) (e : Nat) (t : Timeline) : (x.setTl e t).ctl = x.ctl := rfl
@[simp] theorem Ctx.setTl_bcount (x : Ctx) (e : Nat) (t : Timeline) : (x.setTl e t).bcount = x.bcount := rfl
@[simp] theorem Ctx.setTl_pend (x : Ctx) (e : Nat) (t : Timeline) : (x.setTl e t).pend = x.pend := rfl
@[simp] theorem Ctx.setTl_posted (x : Ctx) (e : Nat) (t : Timeline) : (x.setTl e t).posted = x.posted := rfl
@[simp] theorem Ctx.setTl_waits (x : Ctx) (e : Nat) (t : Timeline) : (x.setTl e t).waits = x.waits := rfl
@[simp] theorem Ctx.setTl_cst (x : Ctx) (e : Nat) (t : Timeline) : (x.setTl e t).cst = x.cst := rfl
@[simp] theorem Ctx.setTl_satc (x : Ctx) (e : Nat) (t : Timeline) : (x.setTl e t).satc = x.satc := rfl
@[simp] theorem Ctx.setTl_rsvc (x : Ctx) (e : Nat) (t : Timeline) : (x.setTl e t).rsvc = x.rsvc := rfl
@[simp] theorem Ctx.setTl_ma (x : Ctx) (e : Nat) (t : Timeline) : (x.setTl e t).ma = x.ma := rfl
@[simp] theorem Ctx.setTl_mb (x : Ctx) (e : Nat) (t : Timeline) : (x.setTl e t).mb = x.mb := rfl
@[simp] theorem Ctx.setTl_latches (x : Ctx) (e : Nat) (t : Timeline) : (x.setTl e t).latches = x.latches := rfl
@[simp] theorem Ctx.setTl_latchDue (x : Ctx) (e : Nat) (t : Timeline) : (x.setTl e t).latchDue = x.latchDue := rfl
@[simp] theorem Ctx.setTl_xr (x : Ctx) (e : Nat) (t : Timeline) : (x.setTl e t).xr = x.xr := rfl
@[simp] theorem Ctx.setTl_tile (x : Ctx) (e : Nat) (t : Timeline) : (x.setTl e t).tile = x.tile := rfl
@[simp] theorem Ctx.setTl_rings (x : Ctx) (e : Nat) (t : Timeline) : (x.setTl e t).rings = x.rings := rfl
@[simp] theorem Ctx.setTl_mbest (x : Ctx) (e : Nat) (t : Timeline) : (x.setTl e t).mbest = x.mbest := rfl
@[simp] theorem Ctx.setTl_mbestDue (x : Ctx) (e : Nat) (t : Timeline) : (x.setTl e t).mbestDue = x.mbestDue := rfl
@[simp] theorem Ctx.setTl_tileDue (x : Ctx) (e : Nat) (t : Timeline) : (x.setTl e t).tileDue = x.tileDue := rfl
@[simp] theorem Ctx.setTl_mxFree (x : Ctx) (e : Nat) (t : Timeline) : (x.setTl e t).mxFree = x.mxFree := rfl
@[simp] theorem Ctx.setTl_carry (x : Ctx) (e : Nat) (t : Timeline) : (x.setTl e t).carry = x.carry := rfl
@[simp] theorem Ctx.setTl_chunk (x : Ctx) (e : Nat) (t : Timeline) : (x.setTl e t).chunk = x.chunk := rfl
@[simp] theorem Ctx.setTl_cks (x : Ctx) (e : Nat) (t : Timeline) : (x.setTl e t).cks = x.cks := rfl
@[simp] theorem Ctx.setTl_act (x : Ctx) (e : Nat) (t : Timeline) : (x.setTl e t).act = x.act := rfl
@[simp] theorem Ctx.setTl_spill (x : Ctx) (e : Nat) (t : Timeline) : (x.setTl e t).spill = x.spill := rfl
@[simp] theorem Ctx.setTl_rwEn (x : Ctx) (e : Nat) (t : Timeline) : (x.setTl e t).rwEn = x.rwEn := rfl
@[simp] theorem Ctx.setTl_rwSupp (x : Ctx) (e : Nat) (t : Timeline) : (x.setTl e t).rwSupp = x.rwSupp := rfl
@[simp] theorem Ctx.setTl_ngrp (x : Ctx) (e : Nat) (t : Timeline) : (x.setTl e t).ngrp = x.ngrp := rfl
@[simp] theorem Ctx.setTl_nref (x : Ctx) (e : Nat) (t : Timeline) : (x.setTl e t).nref = x.nref := rfl
@[simp] theorem Ctx.setTl_last (x : Ctx) (e : Nat) (t : Timeline) : (x.setTl e t).last = x.last := rfl
@[simp] theorem Ctx.setTl_plan (x : Ctx) (e : Nat) (t : Timeline) : (x.setTl e t).plan = x.plan := rfl
@[simp] theorem Ctx.setTl_hs (x : Ctx) (e : Nat) (t : Timeline) : (x.setTl e t).hs = x.hs := rfl
@[simp] theorem Ctx.setTl_hla (x : Ctx) (e : Nat) (t : Timeline) : (x.setTl e t).hla = x.hla := rfl
@[simp] theorem Ctx.setTl_hsa (x : Ctx) (e : Nat) (t : Timeline) : (x.setTl e t).hsa = x.hsa := rfl
@[simp] theorem Ctx.setTl_hand (x : Ctx) (e : Nat) (t : Timeline) : (x.setTl e t).hand = x.hand := rfl
@[simp] theorem Ctx.setTl_trec (x : Ctx) (e : Nat) (t : Timeline) : (x.setTl e t).trec = x.trec := rfl
@[simp] theorem Ctx.setTl_wakeP (x : Ctx) (e : Nat) (t : Timeline) : (x.setTl e t).wakeP = x.wakeP := rfl
@[simp] theorem Ctx.setTl_held (x : Ctx) (e : Nat) (t : Timeline) : (x.setTl e t).held = x.held := rfl
@[simp] theorem Ctx.setTl_holdP (x : Ctx) (e : Nat) (t : Timeline) : (x.setTl e t).holdP = x.holdP := rfl
@[simp] theorem Ctx.setTl_saved (x : Ctx) (e : Nat) (t : Timeline) : (x.setTl e t).saved = x.saved := rfl
@[simp] theorem Ctx.setTl_unfilled (x : Ctx) (e : Nat) (t : Timeline) : (x.setTl e t).unfilled = x.unfilled := rfl
@[simp] theorem Ctx.setTl_trapP (x : Ctx) (e : Nat) (t : Timeline) : (x.setTl e t).trapP = x.trapP := rfl
@[simp] theorem Ctx.setTl_inS (x : Ctx) (e : Nat) (t : Timeline) : (x.setTl e t).inS = x.inS := rfl
@[simp] theorem Ctx.setTl_atYield (x : Ctx) (e : Nat) (t : Timeline) : (x.setTl e t).atYield = x.atYield := rfl
@[simp] theorem Ctx.setTl_tileCmds (x : Ctx) (e : Nat) (t : Timeline) : (x.setTl e t).tileCmds = x.tileCmds := rfl
@[simp] theorem Ctx.setTl_bankCmds (x : Ctx) (e : Nat) (t : Timeline) : (x.setTl e t).bankCmds = x.bankCmds := rfl
@[simp] theorem Ctx.setTl_endK (x : Ctx) (e : Nat) (t : Timeline) : (x.setTl e t).endK = x.endK := rfl
@[simp] theorem Ctx.setTl_lastPc (x : Ctx) (e : Nat) (t : Timeline) : (x.setTl e t).lastPc = x.lastPc := rfl

/-! ### `Ctx.setRing` -/

@[simp] theorem Ctx.setRing_life (x : Ctx) (h : Nat) (r : Ring) : (x.setRing h r).life = x.life := rfl
@[simp] theorem Ctx.setRing_task (x : Ctx) (h : Nat) (r : Ring) : (x.setRing h r).task = x.task := rfl
@[simp] theorem Ctx.setRing_ctl (x : Ctx) (h : Nat) (r : Ring) : (x.setRing h r).ctl = x.ctl := rfl
@[simp] theorem Ctx.setRing_bcount (x : Ctx) (h : Nat) (r : Ring) : (x.setRing h r).bcount = x.bcount := rfl
@[simp] theorem Ctx.setRing_pend (x : Ctx) (h : Nat) (r : Ring) : (x.setRing h r).pend = x.pend := rfl
@[simp] theorem Ctx.setRing_posted (x : Ctx) (h : Nat) (r : Ring) : (x.setRing h r).posted = x.posted := rfl
@[simp] theorem Ctx.setRing_waits (x : Ctx) (h : Nat) (r : Ring) : (x.setRing h r).waits = x.waits := rfl
@[simp] theorem Ctx.setRing_cst (x : Ctx) (h : Nat) (r : Ring) : (x.setRing h r).cst = x.cst := rfl
@[simp] theorem Ctx.setRing_satc (x : Ctx) (h : Nat) (r : Ring) : (x.setRing h r).satc = x.satc := rfl
@[simp] theorem Ctx.setRing_rsvc (x : Ctx) (h : Nat) (r : Ring) : (x.setRing h r).rsvc = x.rsvc := rfl
@[simp] theorem Ctx.setRing_ma (x : Ctx) (h : Nat) (r : Ring) : (x.setRing h r).ma = x.ma := rfl
@[simp] theorem Ctx.setRing_mb (x : Ctx) (h : Nat) (r : Ring) : (x.setRing h r).mb = x.mb := rfl
@[simp] theorem Ctx.setRing_latches (x : Ctx) (h : Nat) (r : Ring) : (x.setRing h r).latches = x.latches := rfl
@[simp] theorem Ctx.setRing_latchDue (x : Ctx) (h : Nat) (r : Ring) : (x.setRing h r).latchDue = x.latchDue := rfl
@[simp] theorem Ctx.setRing_xr (x : Ctx) (h : Nat) (r : Ring) : (x.setRing h r).xr = x.xr := rfl
@[simp] theorem Ctx.setRing_tile (x : Ctx) (h : Nat) (r : Ring) : (x.setRing h r).tile = x.tile := rfl
@[simp] theorem Ctx.setRing_tls (x : Ctx) (h : Nat) (r : Ring) : (x.setRing h r).tls = x.tls := rfl
@[simp] theorem Ctx.setRing_mbest (x : Ctx) (h : Nat) (r : Ring) : (x.setRing h r).mbest = x.mbest := rfl
@[simp] theorem Ctx.setRing_mbestDue (x : Ctx) (h : Nat) (r : Ring) : (x.setRing h r).mbestDue = x.mbestDue := rfl
@[simp] theorem Ctx.setRing_tileDue (x : Ctx) (h : Nat) (r : Ring) : (x.setRing h r).tileDue = x.tileDue := rfl
@[simp] theorem Ctx.setRing_mxFree (x : Ctx) (h : Nat) (r : Ring) : (x.setRing h r).mxFree = x.mxFree := rfl
@[simp] theorem Ctx.setRing_carry (x : Ctx) (h : Nat) (r : Ring) : (x.setRing h r).carry = x.carry := rfl
@[simp] theorem Ctx.setRing_chunk (x : Ctx) (h : Nat) (r : Ring) : (x.setRing h r).chunk = x.chunk := rfl
@[simp] theorem Ctx.setRing_cks (x : Ctx) (h : Nat) (r : Ring) : (x.setRing h r).cks = x.cks := rfl
@[simp] theorem Ctx.setRing_act (x : Ctx) (h : Nat) (r : Ring) : (x.setRing h r).act = x.act := rfl
@[simp] theorem Ctx.setRing_spill (x : Ctx) (h : Nat) (r : Ring) : (x.setRing h r).spill = x.spill := rfl
@[simp] theorem Ctx.setRing_rwEn (x : Ctx) (h : Nat) (r : Ring) : (x.setRing h r).rwEn = x.rwEn := rfl
@[simp] theorem Ctx.setRing_rwSupp (x : Ctx) (h : Nat) (r : Ring) : (x.setRing h r).rwSupp = x.rwSupp := rfl
@[simp] theorem Ctx.setRing_ngrp (x : Ctx) (h : Nat) (r : Ring) : (x.setRing h r).ngrp = x.ngrp := rfl
@[simp] theorem Ctx.setRing_nref (x : Ctx) (h : Nat) (r : Ring) : (x.setRing h r).nref = x.nref := rfl
@[simp] theorem Ctx.setRing_last (x : Ctx) (h : Nat) (r : Ring) : (x.setRing h r).last = x.last := rfl
@[simp] theorem Ctx.setRing_plan (x : Ctx) (h : Nat) (r : Ring) : (x.setRing h r).plan = x.plan := rfl
@[simp] theorem Ctx.setRing_hs (x : Ctx) (h : Nat) (r : Ring) : (x.setRing h r).hs = x.hs := rfl
@[simp] theorem Ctx.setRing_hla (x : Ctx) (h : Nat) (r : Ring) : (x.setRing h r).hla = x.hla := rfl
@[simp] theorem Ctx.setRing_hsa (x : Ctx) (h : Nat) (r : Ring) : (x.setRing h r).hsa = x.hsa := rfl
@[simp] theorem Ctx.setRing_hand (x : Ctx) (h : Nat) (r : Ring) : (x.setRing h r).hand = x.hand := rfl
@[simp] theorem Ctx.setRing_trec (x : Ctx) (h : Nat) (r : Ring) : (x.setRing h r).trec = x.trec := rfl
@[simp] theorem Ctx.setRing_wakeP (x : Ctx) (h : Nat) (r : Ring) : (x.setRing h r).wakeP = x.wakeP := rfl
@[simp] theorem Ctx.setRing_held (x : Ctx) (h : Nat) (r : Ring) : (x.setRing h r).held = x.held := rfl
@[simp] theorem Ctx.setRing_holdP (x : Ctx) (h : Nat) (r : Ring) : (x.setRing h r).holdP = x.holdP := rfl
@[simp] theorem Ctx.setRing_saved (x : Ctx) (h : Nat) (r : Ring) : (x.setRing h r).saved = x.saved := rfl
@[simp] theorem Ctx.setRing_unfilled (x : Ctx) (h : Nat) (r : Ring) : (x.setRing h r).unfilled = x.unfilled := rfl
@[simp] theorem Ctx.setRing_trapP (x : Ctx) (h : Nat) (r : Ring) : (x.setRing h r).trapP = x.trapP := rfl
@[simp] theorem Ctx.setRing_inS (x : Ctx) (h : Nat) (r : Ring) : (x.setRing h r).inS = x.inS := rfl
@[simp] theorem Ctx.setRing_atYield (x : Ctx) (h : Nat) (r : Ring) : (x.setRing h r).atYield = x.atYield := rfl
@[simp] theorem Ctx.setRing_tileCmds (x : Ctx) (h : Nat) (r : Ring) : (x.setRing h r).tileCmds = x.tileCmds := rfl
@[simp] theorem Ctx.setRing_bankCmds (x : Ctx) (h : Nat) (r : Ring) : (x.setRing h r).bankCmds = x.bankCmds := rfl
@[simp] theorem Ctx.setRing_endK (x : Ctx) (h : Nat) (r : Ring) : (x.setRing h r).endK = x.endK := rfl
@[simp] theorem Ctx.setRing_lastPc (x : Ctx) (h : Nat) (r : Ring) : (x.setRing h r).lastPc = x.lastPc := rfl

@[simp] theorem State.tick_freeCtr (s : State) : s.tick.freeCtr = s.freeCtr + 1 := rfl

end Sys2Proof.Machine
end

