-- ==== Sys2Proof/Laws/Tables.lean ====
section
/-! SUPPORT. Laws of sparse tables and of memory: reading after writing, and that every operation keeps the canonical
form. -/

namespace Sys2Proof.Machine

variable {α : Type}

/-! ### Reading after writing -/

@[simp] theorem tget_tput_same (d : α) (t : Tab α) (k : Nat) (v : α) : tget d (tput t k v) k = v := by
  induction t with
  | nil => simp [tput, tget]
  | cons e r ih => simp only [tput]; split <;> [skip; split] <;> simp_all [tget]

theorem tget_tput_other (d : α) (t : Tab α) {k n : Nat} (v : α) (h : n ≠ k) : tget d (tput t k v) n = tget d t n := by
  induction t with
  | nil => simp [tput, tget, Ne.symm h]
  | cons e r ih =>
    simp only [tput]; split
    · rename_i he; simp [tget, he, Ne.symm h]
    · split
      · simp [tget, Ne.symm h]
      · simp only [tget]; split <;> simp_all

theorem tget_tput (d : α) (t : Tab α) (k n : Nat) (v : α) :
    tget d (tput t k v) n = if n = k then v else tget d t n := by
  by_cases h : n = k
  · subst h; simp
  · simp [h, tget_tput_other]

@[simp] theorem tput_tput (t : Tab α) (k : Nat) (v w : α) : tput (tput t k v) k w = tput t k w := by
  induction t with
  | nil => simp [tput]
  | cons e r ih =>
    simp only [tput]; split
    · simp [tput]
    · split
      · simp [tput]
      · simp_all [tput]

/-! ### The canonical form -/

/-- Every key of the table lies above k. -/
def Above (k : Nat) (t : Tab α) : Prop := ∀ e ∈ t, k < e.1

theorem tsorted_cons (e : Nat × α) (r : Tab α) : tsorted (e :: r) = true ↔ Above e.1 r ∧ tsorted r = true := by
  induction r generalizing e with
  | nil => simp [tsorted, Above]
  | cons f r ih =>
    rw [tsorted, Bool.and_eq_true, decide_eq_true_eq]
    constructor
    · rintro ⟨h, ht⟩
      refine ⟨fun x hx => ?_, ht⟩
      rcases List.mem_cons.1 hx with rfl | hx
      · exact h
      · exact h.trans (((ih f).1 ht).1 x hx)
    · rintro ⟨h, ht⟩; exact ⟨h f (List.mem_cons_self ..), ht⟩

theorem mem_tput {t : Tab α} {n : Nat} {v : α} {e : Nat × α} (h : e ∈ tput t n v) : e = (n, v) ∨ e ∈ t := by
  induction t with
  | nil => exact .inl (List.mem_singleton.1 h)
  | cons f r ih =>
    simp only [tput] at h; split at h
    · rcases List.mem_cons.1 h with h | h <;> simp [h]
    · split at h
      · rcases List.mem_cons.1 h with h | h <;> simp [h]
      · rcases List.mem_cons.1 h with h | h
        · simp [h]
        · rcases ih h with h | h <;> simp [h]

theorem mem_tdel {t : Tab α} {n : Nat} {e : Nat × α} (h : e ∈ tdel t n) : e ∈ t := by
  induction t with
  | nil => exact h
  | cons f r ih =>
    simp only [tdel] at h; split at h
    · exact List.mem_cons_of_mem _ (ih h)
    · exact (List.mem_cons.1 h).elim (fun h => h ▸ List.mem_cons_self ..) fun h => List.mem_cons_of_mem _ (ih h)

theorem above_tput {k n : Nat} {t : Tab α} {v : α} (ht : Above k t) (hn : k < n) : Above k (tput t n v) := fun e he => by
  rcases mem_tput he with rfl | he
  · exact hn
  · exact ht e he

theorem above_tdel {k n : Nat} {t : Tab α} (ht : Above k t) : Above k (tdel t n) := fun e he => ht e (mem_tdel he)

theorem above_mono {k n : Nat} {t : Tab α} (h : k ≤ n) (ht : Above n t) : Above k t := fun e he => lt_of_le_of_lt h (ht e he)

theorem tsorted_tput {t : Tab α} (n : Nat) (v : α) (ht : tsorted t = true) : tsorted (tput t n v) = true := by
  induction t with
  | nil => rfl
  | cons e r ih =>
    have hs := (tsorted_cons e r).1 ht
    simp only [tput]; split
    · rename_i he; exact (tsorted_cons _ _).2 ⟨he ▸ hs.1, hs.2⟩
    · split
      · rename_i h
        refine (tsorted_cons _ _).2 ⟨fun x hx => ?_, ht⟩
        rcases List.mem_cons.1 hx with rfl | hx
        · exact h
        · exact h.trans (hs.1 x hx)
      · rename_i h1 h2; exact (tsorted_cons _ _).2 ⟨above_tput hs.1 (by omega), ih hs.2⟩

theorem tsorted_tdel {t : Tab α} (n : Nat) (ht : tsorted t = true) : tsorted (tdel t n) = true := by
  induction t with
  | nil => rfl
  | cons e r ih =>
    have hs := (tsorted_cons e r).1 ht
    simp only [tdel]; split
    · exact ih hs.2
    · exact (tsorted_cons _ _).2 ⟨above_tdel hs.1, ih hs.2⟩

theorem tcanon_tset [DecidableEq α] {d : α} {t : Tab α} (k : Nat) (v : α) (h : tcanon d t = true) :
    tcanon d (tset d t k v) = true := by
  simp only [tcanon, Bool.and_eq_true, List.all_eq_true, bne_iff_ne, ne_eq] at h ⊢
  unfold tset; split
  · exact ⟨tsorted_tdel k h.1, fun e he => h.2 e (mem_tdel he)⟩
  · rename_i hv
    refine ⟨tsorted_tput k v h.1, fun e he => ?_⟩
    rcases mem_tput he with rfl | he
    · exact hv
    · exact h.2 e he

/-! ### Reading a table after writing it -/

theorem tget_of_above (d : α) {t : Tab α} {k : Nat} (h : Above k t) : tget d t k = d := by
  induction t with
  | nil => rfl
  | cons e r ih =>
    have he := h e (List.mem_cons_self ..)
    simp only [tget]; rw [if_neg (by omega)]
    exact ih fun x hx => h x (List.mem_cons_of_mem _ hx)

theorem tget_tdel_same (d : α) (t : Tab α) (k : Nat) : tget d (tdel t k) k = d := by
  induction t with
  | nil => rfl
  | cons e r ih =>
    simp only [tdel]; split
    · exact ih
    · rename_i h; simp only [tget, h, if_false]; exact ih

theorem tget_tdel_other (d : α) (t : Tab α) {k n : Nat} (h : n ≠ k) : tget d (tdel t k) n = tget d t n := by
  induction t with
  | nil => rfl
  | cons e r ih =>
    simp only [tdel]; split
    · rename_i he; simp only [tget, he, if_neg (Ne.symm h)]; exact ih
    · simp only [tget]; split
      · rfl
      · exact ih

theorem tget_tset [DecidableEq α] (d : α) (t : Tab α) (k n : Nat) (v : α) :
    tget d (tset d t k v) n = if n = k then v else tget d t n := by
  unfold tset
  by_cases h : n = k
  · subst h; split
    · rename_i hv; simp [tget_tdel_same d t n, hv]
    · simp
  · simp only [h, if_false]; split
    · exact tget_tdel_other d t h
    · exact tget_tput_other d t v h

theorem tget_tset_other [DecidableEq α] (d : α) (t : Tab α) {k n : Nat} (v : α) (h : n ≠ k) :
    tget d (tset d t k v) n = tget d t n := by
  unfold tset; split
  · exact tget_tdel_other d t h
  · exact tget_tput_other d t v h

/-! ### Memory -/

theorem Memory.write_wf {m : Memory} (a : Nat) (b : Byte) (h : m.wf = true) : (m.write a b).wf = true :=
  tcanon_tset a b h

theorem Memory.writeN_wf (n : Nat) {m : Memory} (a v : Nat) (h : m.wf = true) : (m.writeN a v n).wf = true := by
  induction n generalizing m a v with
  | zero => exact h
  | succ n ih => exact ih _ _ (Memory.write_wf a _ h)

theorem Memory.writeBytes_wf (l : List Byte) {m : Memory} (a : Nat) (h : m.wf = true) : (m.writeBytes a l).wf = true := by
  induction l generalizing m a with
  | nil => exact h
  | cons b r ih => exact ih _ (Memory.write_wf a b h)

theorem Memory.sorted_of_wf {m : Memory} (h : m.wf = true) : tsorted m = true := by
  simp only [Memory.wf, tcanon, Bool.and_eq_true] at h; exact h.1

theorem Memory.read_write (m : Memory) (a n : Nat) (b : Byte) :
    (m.write a b).read n = if n = a then b else m.read n :=
  tget_tset Memory.unlisted m a n b

theorem Memory.read_write_other (m : Memory) {a n : Nat} (b : Byte) (h : n ≠ a) : (m.write a b).read n = m.read n :=
  tget_tset_other Memory.unlisted m b h

theorem Memory.read_writeN_other (n : Nat) (m : Memory) {a v x : Nat} (h : x < a ∨ a + n ≤ x) :
    (m.writeN a v n).read x = m.read x := by
  induction n generalizing m a v with
  | zero => rfl
  | succ n ih =>
    rw [Memory.writeN, ih (m.write a _) (by omega), Memory.read_write_other m _ (by omega)]

end Sys2Proof.Machine
end

