-- ==== Sys2Proof/Laws/Issue.lean ====
section
/-! SUPPORT. Laws of issue: an operation by itself completes with what it decides, or traps; what a bundle without
effects on memory or control leaves as it was. -/

namespace Sys2Proof.Machine

theorem decodeOut_none {m : State} {o : SOp} {w : Nat} (h1 : (!isSystem o.i || m.ix.privileged) = true)
    (h2 : bankFaults m.ix [o] = none) : decodeOut m o w = {} := by
  have : ¬(isSystem o.i = true ∧ (!m.ix.privileged) = true) := by
    simp only [Bool.or_eq_true, Bool.not_eq_true'] at h1
    rcases h1 with h | h <;> simp [h]
  simp only [decodeOut, if_neg this, h2]

/-- A bundle of such effects has no load to wait for. -/
theorem loadHeld_notMixed {i : Issue} (s : State) (h : notMixed i.acts = true) : i.loadHeld s = false := by
  unfold notMixed at h
  unfold Issue.loadHeld
  rw [Bool.not_eq_true', Bool.and_eq_false_iff] at h
  rcases h with h | h
  · simp [h]
  · rw [List.any_eq_false] at h
    rw [Bool.and_eq_false_iff]
    right
    rw [List.any_eq_false]
    intro a ha
    simp [Bool.eq_false_iff.2 (h a ha)]

/-- A fresh bundle in progress that takes up an outcome with neither trap nor wait commits it. -/
theorem close_commit {m : State} {o : Out} (h1 : m.iss.trap = none) (h2 : m.iss.stall = false) (h3 : m.iss.wrs = [])
    (h4 : m.iss.acts = []) (h5 : m.iss.stallActs = []) (ht : o.trap = none) (hs : o.stall = false) (hp : o.pre = [])
    (hm : notMixed o.acts = true) :
    closeIssue { m with iss := (m.iss.add {}).add o } =
      commit { m with iss := { core := m.iss.core, ctx := m.iss.ctx } } { m.iss with wrs := o.wrs, acts := o.acts } := by
  have hl (s : State) : ((m.iss.add {}).add o).loadHeld s = false :=
    loadHeld_notMixed s (by simp only [Issue.add, h4, List.nil_append, List.append_nil]; exact hm)
  simp only [closeIssue, Issue.waits, hl, Bool.and_false, Bool.or_false]
  simp only [Issue.add, ht, hs, hp, h1, h2, h3, h4, h5, Option.or_none, Bool.or_self, Bool.false_eq_true,
    if_false, List.nil_append, List.append_nil]

theorem close_trap {m : State} {o : Out} {t : TrapReq} (h1 : m.iss.trap = none) (h2 : m.iss.stall = false)
    (ht : o.trap = some t) (hs : o.stall = false) :
    closeIssue { m with iss := (m.iss.add {}).add o } =
      trapTake { m with iss := { core := m.iss.core, ctx := m.iss.ctx } } m.iss.core m.iss.ctx
        { req := if t.insn = 0 then { t with insn := fieldOf m.iss.word t.slot } else t,
          bpc := (m.ctx m.iss.core m.iss.ctx).ctl.pc, rpc := (m.ctx m.iss.core m.iss.ctx).ctl.pc, sec := m.iss.sec } := by
  simp only [closeIssue, Issue.waits, Issue.add, ht, hs, h1, h2, Option.or_none, Option.none_or, Bool.or_self, Bool.false_eq_true,
    if_false, Option.isNone_some, Bool.false_and]
  rfl

/-- An operation that may issue by itself closes its bundle with what it decides in the state it meets. -/
theorem slotOp_eq {s : State} {sl : Slot} {i : Instr} {f : State → Out} (h : s.mayIssue sl i = true) :
    slotOp sl i f s =
      .next (closeIssue { s.meets sl i with iss := ((s.meets sl i).iss.add {}).add (f (s.meets sl i)) }) := by
  simp only [State.mayIssue, Bool.and_eq_true, Bool.not_eq_true', Option.isNone_iff_eq_none] at h
  obtain ⟨⟨⟨h1, h2⟩, h3⟩, h4⟩ := h
  have hd := decodeOut_none (o := s.solo sl i) (w := soloWord (s.solo sl i)) h3 h4
  unfold slotOp soloIssue
  rw [if_neg (by simp [h1]), if_neg (by simp [h2])]
  show Host.Outcome.next (closeIssue { s.meets sl i with iss := ((s.meets sl i).iss.add (decodeOut (s.meets sl i) (s.solo sl i) (soloWord (s.solo sl i)))).add (if (decodeOut (s.meets sl i) (s.solo sl i) (soloWord (s.solo sl i))).trap.isSome then {} else f (s.meets sl i)) }) = _
  rw [hd]; rfl

/-- The bundle an operation meets is fresh. -/
theorem meets_fresh (s : State) (sl : Slot) (i : Instr) : (s.meets sl i).iss.trap = none ∧ (s.meets sl i).iss.stall = false ∧
    (s.meets sl i).iss.wrs = [] ∧ (s.meets sl i).iss.acts = [] ∧ (s.meets sl i).iss.stallActs = [] := ⟨rfl, rfl, rfl, rfl, rfl⟩

/-- An operation that may issue by itself, and decides neither a trap nor a wait, completes with what it decides. -/
theorem slotOp_alone {s : State} {sl : Slot} {i : Instr} {f : State → Out} (h : s.mayIssue sl i = true)
    (ht : (f (s.meets sl i)).trap = none) (hs : (f (s.meets sl i)).stall = false) (hp : (f (s.meets sl i)).pre = [])
    (hm : notMixed (f (s.meets sl i)).acts = true) :
    slotOp sl i f s = .next (s.after sl i (f (s.meets sl i)).wrs (f (s.meets sl i)).acts) := by
  rw [slotOp_eq h]
  obtain ⟨h1, h2, h3, h4, h5⟩ := meets_fresh s sl i
  unfold State.after
  generalize s.meets sl i = m at *
  exact congrArg Host.Outcome.next (close_commit h1 h2 h3 h4 h5 ht hs hp hm)

/-- An operation that may issue by itself and decides a trap traps. -/
theorem slotOp_traps {s : State} {sl : Slot} {i : Instr} {f : State → Out} {t : TrapReq} (h : s.mayIssue sl i = true)
    (ht : (f (s.meets sl i)).trap = some t) (hs : (f (s.meets sl i)).stall = false) :
    slotOp sl i f s = .next (s.trapped sl i t) := by
  rw [slotOp_eq h]
  obtain ⟨h1, h2, -⟩ := meets_fresh s sl i
  unfold State.trapped
  generalize s.meets sl i = m at *
  exact congrArg Host.Outcome.next (close_trap h1 h2 ht hs)

/-- The same for the outcome written out. -/
theorem slotOp_out {s : State} {sl : Slot} {i : Instr} {f : State → Out} {ws : List Wr} {acts : List Act}
    (h : s.mayIssue sl i = true) (ho : f (s.meets sl i) = { wrs := ws, acts := acts }) (hm : notMixed acts = true := by rfl) :
    slotOp sl i f s = .next (s.after sl i ws acts) := by
  have := slotOp_alone (f := f) h (by rw [ho]) (by rw [ho]) (by rw [ho]) (by rw [ho]; exact hm)
  rwa [ho] at this

/-! ### What a bundle promises -/

theorem beaten_none (free : Bool) (l : List Promise) (h : l.Pairwise fun a b => a.wr.dest ≠ b.wr.dest) (n : Nat) :
    beaten free l n = none := by
  unfold beaten
  cases hn : l[n]? with
  | none => rfl
  | some p =>
    simp only
    split
    · rfl
    · rw [Option.map_eq_none_iff, List.find?_eq_none]
      rintro ⟨q, i⟩ hq
      rw [List.mem_zipIdx_iff_getElem?] at hq
      simp only at hq
      by_cases hin : i = n
      · simp [hin]
      · have : q.wr.dest ≠ p.wr.dest := by
          obtain ⟨h1, rfl⟩ := List.getElem?_eq_some_iff.1 hq
          obtain ⟨h2, rfl⟩ := List.getElem?_eq_some_iff.1 hn
          rw [List.pairwise_iff_getElem] at h
          rcases lt_or_gt_of_ne hin with hlt | hlt
          · exact h _ _ _ _ hlt
          · exact (h _ _ _ _ hlt).symm
        simp [this]

theorem promise_apart (x : Ctx) (free : Bool) (l : List Promise) (bc : Nat)
    (h : l.Pairwise fun a b => a.wr.dest ≠ b.wr.dest) :
    x.promise free l bc = { x with pend := (l.map fun p => p.pend bc).foldl addPend x.pend } := by
  unfold Ctx.promise
  simp only [beaten_none free l h]
  have h1 : ((List.range l.length).map fun n => (l[n]?, (none : Option Promise))) = l.map fun p => (some p, none) := by
    apply List.ext_getElem?
    intro n
    simp only [List.getElem?_map]
    rcases lt_or_ge n l.length with hn | hn
    · rw [List.getElem?_range hn]; simp [hn]
    · rw [List.getElem?_eq_none (by simpa using hn), List.getElem?_eq_none (by simpa using hn)]; rfl
  rw [h1]
  simp only [List.filterMap_map, Function.comp_def, List.filterMap_eq_map', List.filterMap_none, List.foldl_nil, if_true]

theorem promises_results (i : Issue) (base : Nat) (h : i.acts = []) :
    i.promises base = (i.wrs.filter Wr.kept).map fun w => { wr := w } := by
  simp only [Issue.promises, h, List.zipIdx_nil, List.filterMap_nil, List.append_nil]
  rfl


/-! ### What a bundle without effects changes -/

theorem KeptElse.refl (s : State) (k j : Nat) : KeptElse s s k j :=
  ⟨fun _ => ⟨rfl, rfl, rfl⟩, fun _ _ => rfl, fun _ _ => rfl, rfl, rfl⟩
theorem KeptElse.trans {a b c : State} {k j : Nat} (h : KeptElse a b k j) (g : KeptElse b c k j) : KeptElse a c k j :=
  ⟨fun n => ⟨(g.1 n).1.trans (h.1 n).1, (g.1 n).2.1.trans (h.1 n).2.1, (g.1 n).2.2.trans (h.1 n).2.2⟩,
    fun k' hk => (g.2.1 k' hk).trans (h.2.1 k' hk), fun j' hj => (g.2.2.1 j' hj).trans (h.2.2.1 j' hj),
    g.2.2.2.1.trans h.2.2.2.1, g.2.2.2.2.trans h.2.2.2.2⟩

theorem core_setCore_same (s : State) (k : Nat) (c : Core) : (s.setCore k c).core k = c := tget_tput_same ..
theorem core_setCore_other (s : State) {k n : Nat} (c : Core) (h : n ≠ k) : (s.setCore k c).core n = s.core n :=
  tget_tput_other _ _ _ h
theorem ctx_setCtx_same (c : Core) (j : Nat) (x : Ctx) : (c.setCtx j x).ctx j = x := tget_tput_same ..
theorem ctx_setCtx_other (c : Core) {j n : Nat} (x : Ctx) (h : n ≠ j) : (c.setCtx j x).ctx n = c.ctx n :=
  tget_tput_other _ _ _ h
@[simp] theorem ctx_modCtx_same (s : State) (k j : Nat) (f : Ctx → Ctx) : (s.modCtx k j f).ctx k j = f (s.ctx k j) := by
  simp only [State.ctx, State.modCtx, State.setCtx, core_setCore_same, ctx_setCtx_same]

theorem KeptElse_modCtx (s : State) (k j : Nat) (f : Ctx → Ctx) : KeptElse s (s.modCtx k j f) k j := by
  refine ⟨fun _ => ⟨rfl, rfl, rfl⟩, fun k' hk => core_setCore_other _ _ hk, fun j' hj => ?_, ?_, rfl⟩
  · simp only [State.ctx, State.modCtx, State.setCtx, core_setCore_same, ctx_setCtx_other _ _ hj]
  · simp only [State.modCtx, State.setCtx, core_setCore_same, Core.setCtx]
theorem KeptElse_lastCyc (s : State) (k j n : Nat) : KeptElse s (s.modCore k fun c => { c with lastCyc := n }) k j := by
  refine ⟨fun _ => ⟨rfl, rfl, rfl⟩, fun k' hk => core_setCore_other _ _ hk, fun j' _ => ?_, ?_, rfl⟩
  · simp only [State.ctx, State.modCore, core_setCore_same]; rfl
  · simp only [State.modCore, core_setCore_same]
theorem ctx_lastCyc (s : State) (k j n : Nat) : (s.modCore k fun c => { c with lastCyc := n }).ctx k j = s.ctx k j := by
  simp only [State.ctx, State.modCore, core_setCore_same]; rfl
theorem KeptElse_iss (s : State) (k j : Nat) (i : Issue) (n : Nat) : KeptElse s { s with iss := i, nextKey := n } k j :=
  ⟨fun _ => ⟨rfl, rfl, rfl⟩, fun _ _ => rfl, fun _ _ => rfl, rfl, rfl⟩

/-- The last part of a bundle: position, program counter and loops of its context. -/
theorem commit_plain (m : State) (i : Issue) (ws : List Wr) (hs : i.skipped = false) :
    commit m { i with wrs := ws, acts := [] } =
      let k := i.core
      let j := i.ctx
      let x0 := m.ctx k j
      let f := flowOf x0.ctl i.lit.isSome []
      let free := bitAt (m.free 863000) 0
      (((({ (m.modCtx k j fun x => x.promise free (({ i with wrs := ws, acts := [] } : Issue).promises m.nextKey ++ [])
              x0.bcount) with iss := m.iss, nextKey := m.nextKey } : State).modCtx k j fun x =>
        let t := { x.ctl with pc := f.pc, loops := f.loops, ret := f.ret, lx := f.lx }
        { x with ctl := t, bcount := x0.bcount + 1, lastPc := x0.ctl.pc, atYield := (hdrOf i.word).kind == 1,
                 waits := x.waits ++ (if f.taken then [.cycle (m.now + 3)] else []) }).modCore k fun c => { c with lastCyc := m.now }).modCtx k j
        fun x => { x with ctl := { x.ctl with fresh := [] } }) := by
  obtain ⟨a, b, c, d, e, f, g, h⟩ := i
  subst hs; rfl

/-- A bundle without effects takes nothing from the return stack, and no branch. -/
theorem iterEnd_plain (e : Addr) (f : Flow) (l : List Loop) : (iterEnd e f l).ret = f.ret ∧ (iterEnd e f l).taken = f.taken := by
  induction l generalizing f with
  | nil => exact ⟨rfl, rfl⟩
  | cons a r ih =>
    unfold iterEnd
    split
    · exact ⟨rfl, rfl⟩
    · dsimp only
      split
      · exact ⟨rfl, rfl⟩
      · exact ih _
theorem flowOf_plain (t : Ctl) (lit : Bool) : (flowOf t lit []).ret = t.ret ∧ (flowOf t lit []).taken = false :=
  iterEnd_plain ..

theorem KeptElse_commit (m : State) (i : Issue) (ws : List Wr) (hs : i.skipped = false) (hw : apartDests ws) :
    KeptElse m (commit m { i with wrs := ws, acts := [] }) i.core i.ctx ∧
    (commit m { i with wrs := ws, acts := [] }).ctx i.core i.ctx =
      { m.ctx i.core i.ctx with
        pend := ((ws.filter Wr.kept).map fun w => w.pend (m.ctx i.core i.ctx).bcount).foldl addPend (m.ctx i.core i.ctx).pend
        bcount := (m.ctx i.core i.ctx).bcount + 1
        ctl := { (m.ctx i.core i.ctx).ctl with
                 pc := (flowOf (m.ctx i.core i.ctx).ctl i.lit.isSome []).pc
                 loops := (flowOf (m.ctx i.core i.ctx).ctl i.lit.isSome []).loops
                 lx := (flowOf (m.ctx i.core i.ctx).ctl i.lit.isSome []).lx, fresh := [] }
        lastPc := (m.ctx i.core i.ctx).ctl.pc
        atYield := (hdrOf i.word).kind == 1 } := by
  have hp : (({ i with wrs := ws, acts := [] } : Issue).promises m.nextKey ++ []).Pairwise
      fun (a b : Promise) => a.wr.dest ≠ b.wr.dest := by
    rw [List.append_nil, promises_results _ _ rfl, List.pairwise_map]; exact hw
  have e : (({ i with wrs := ws, acts := [] } : Issue).promises m.nextKey ++ []).map
      (fun (p : Promise) => p.pend (m.ctx i.core i.ctx).bcount) = (ws.filter Wr.kept).map fun w => w.pend (m.ctx i.core i.ctx).bcount := by
    rw [List.append_nil, promises_results _ _ rfl, List.map_map]; rfl
  rw [commit_plain m i ws hs]
  constructor
  · exact KeptElse.trans (KeptElse.trans (KeptElse.trans (KeptElse_modCtx ..) (KeptElse_iss ..)) (KeptElse_modCtx ..))
      (KeptElse.trans (KeptElse_lastCyc ..) (KeptElse_modCtx ..))
  · have hi : ∀ (s : State) (a : Issue) (n : Nat), ({ s with iss := a, nextKey := n } : State).ctx i.core i.ctx = s.ctx i.core i.ctx :=
      fun _ _ _ => rfl
    rw [List.append_nil] at hp e
    have hf := flowOf_plain (m.ctx i.core i.ctx).ctl i.lit.isSome
    simp only [ctx_modCtx_same, ctx_lastCyc, hi, List.append_nil, promise_apart _ _ _ _ hp, e, hf.1, hf.2, Bool.false_eq_true, if_false]

end Sys2Proof.Machine
end

