-- ==== Sys2Proof/Laws/Cp.lean ====
section
/-! SUPPORT. Laws of the command processor: a queued function that finds room enters its queue. -/

namespace Sys2Proof.Machine

theorem withOp_ok {α : Type} (a : α) (f : α → Out) : withOp (.ok a) f = f a := rfl

/-- A queued function that finds room in its queue, and no fence in its way, decides its command and its reply (R321). -/
theorem engineOp_ok {m : State} {e fn : Nat} {ca : BitVec 5} {cb rep : Option (BitVec 5)} {block : Bool}
    (h1 : (m.ix.tl e).queue.length < queueCap e) (h2 : block = true → m.ix.fenced = false) :
    engineOp m e fn ca cb rep block =
      { wrs := rep.elim [] fun d => [wholeWr (.c d.toNat) 64 (((m.ix.tl e).i + 1) % 2 ^ 64) 1],
        acts := [.engine e fn (BitVec.ofNat 64 (m.rdC 8 ca.toNat))
          (BitVec.ofNat 64 (match cb with | some n => m.rdC 8 n.toNat | none => 0)) (if block then row (m.rdRow 8 (m.rdC 8 ca.toNat)) else 0)] } := by
  have h : ¬(queueCap e ≤ (m.ix.tl e).queue.length ∨ (block = true ∧ m.ix.fenced = true)) := by
    rintro (h | ⟨hb, hf⟩)
    · omega
    · simp [h2 hb] at hf
  unfold engineOp
  dsimp only
  rw [if_neg h]
  cases rep <;> rfl

end Sys2Proof.Machine
end

