-- ==== Sys2Proof/Laws/LoadStore.lean ====
section
/-! SUPPORT. Laws of the operands of local and posted accesses: when an address names a row, a window, a bank or a page, and
when a handle form finds its slot. -/

set_option Elab.async false

namespace Sys2Proof.Machine

theorem bitsAt_eq (x lo w : Nat) : bitsAt x lo w = x / 2 ^ lo % 2 ^ w := by rw [bitsAt, Nat.shiftRight_eq_div_pow]
theorem sval_toInt {n : Nat} (x : BitVec n) : sval n x.toNat = x.toInt := by
  have := x.isLt
  rw [sval, Nat.mod_eq_of_lt this, BitVec.toInt_eq_toNat_cond]
  rcases n with _ | n
  · simp
  · simp only [Nat.add_sub_cancel, pow_succ]
    split <;> split <;> omega
theorem eaOf_eq (b : Nat) (o : BitVec 20) : eaOf b o = (((b : Int) + 128 * o.toInt) % 2 ^ 64).toNat := by
  rw [eaOf, sval_toInt, wrap]; rfl
theorem eaOf_lt (b : Nat) (o : BitVec 20) : eaOf b o < 2 ^ 64 := by
  rw [eaOf, wrap]
  have := Int.emod_lt_of_pos ((b : Int) + 128 * sval 20 o.toNat) (b := ((2 ^ 64 : Nat) : Int)) (by decide)
  omega

theorem spaceLocal_ok {slot ea : Nat} (h : ea < 2 ^ 20) : spaceLocal slot ea = .ok (ea / 128) := by
  unfold spaceLocal
  rw [if_neg (by simp; omega)]
theorem spaceLocal_far {slot ea : Nat} (h : 2 ^ 20 ≤ ea) : spaceLocal slot ea = .error (spRange slot ea) := by
  unfold spaceLocal
  rw [if_pos (by have := Nat.div_pos h (by decide); omega)]
theorem spaceBank_ok {slot ea : Nat} (h : ea < 2 ^ 19) : spaceBank slot ea = .ok (ea / 128) := by
  unfold spaceBank
  rw [if_neg (by simp; omega)]
theorem spaceBank_far {slot ea : Nat} (h : 2 ^ 19 ≤ ea) : spaceBank slot ea = .error (spRange slot ea) := by
  unfold spaceBank
  rw [if_pos (by have := Nat.div_pos h (by decide); omega)]
theorem spaceWindow_ok {m : State} {slot ea : Nat} (h : ea < 2 ^ 22) (hk : m.coreOk (clusterOf m.ik * 4 + ea / 2 ^ 20 % 4) = true) :
    spaceWindow m slot ea = .ok (clusterOf m.ik * 4 + ea / 2 ^ 20 % 4, ea / 128 % 2 ^ 13) := by
  unfold spaceWindow
  rw [bitsAt_eq, bitsAt_eq]
  dsimp only
  rw [if_neg]; · rfl
  rintro (h1 | h1)
  · omega
  · rw [show (2 : Nat) ^ 2 = 4 from rfl, hk] at h1; cases h1
theorem spaceGlobal_ok {m : State} {slot ea : Nat} {w at_ : Bool} {g p pa : Nat} (h : ea < 2 ^ 52)
    (hx : m.xlate m.ik m.ij ea w false at_ = .ok g p pa) : spaceGlobal m slot ea w at_ = .ok (g, p, pa) := by
  unfold spaceGlobal
  rw [if_neg (by simp; omega), hx]
theorem spaceSel_win {m : State} {slot ea : Nat} {w : Bool} (h : ea < 2 ^ 22)
    (hk : m.coreOk (clusterOf m.ik * 4 + ea / 2 ^ 20 % 4) = true) :
    spaceSel m slot ea w = .ok (.win (clusterOf m.ik * 4 + ea / 2 ^ 20 % 4) (ea / 128 % 2 ^ 13)) := by
  unfold spaceSel
  rw [if_neg, spaceWindow_ok h hk]; · rfl
  rw [bitAt, Nat.shiftRight_eq_div_pow, show ea / 2 ^ 63 = 0 by omega]; decide
theorem spaceSel_global {m : State} {slot ea : Nat} {w : Bool} {g p pa : Nat} (h1 : 2 ^ 63 ≤ ea) (h2 : ea < 2 ^ 63 + 2 ^ 52)
    (hx : m.xlate m.ik m.ij (ea - 2 ^ 63) w false false = .ok g p pa) : spaceSel m slot ea w = .ok (.phys g p pa) := by
  unfold spaceSel
  have h3 : ea % 2 ^ 63 = ea - 2 ^ 63 := by omega
  rw [if_pos, h3, spaceGlobal_ok (by omega) hx]; · rfl
  rw [bitAt, Nat.shiftRight_eq_div_pow, show ea / 2 ^ 63 = 1 by omega]; decide

theorem localPath_ok {m : State} (o : Out) (h : m.ix.fenced = false) : localPath m o = o := by simp [localPath, h]
theorem boundRing_ok {m : State} {slot h : Nat} (hb : (m.ix.ring h).bound = true) : boundRing m slot h = .ok (m.ix.ring h) := by
  unfold boundRing; rw [if_pos hb]
theorem sval20_small {o : Nat} (h : o < 2 ^ 19) : sval 20 o = o := by
  rw [sval, if_pos (by omega)]; omega
/-- A consumer form whose slot is filled and sound finds its row (R174 to R176). -/
theorem consume_ok {m : State} {slot h : Nat} {o : BitVec 20} (hb : (m.ix.ring h).bound = true) (h1 : o.toNat < 2 ^ 19)
    (h2 : o.toNat < (m.ix.ring h).n) (h3 : o.toNat < (m.ix.ring h).filled)
    (h4 : tget 0 (m.ix.ring h).bad (((m.ix.ring h).con.toNat + o.toNat) % (m.ix.ring h).n) = 0) :
    consume m slot h o = .ok (m.rdRow slot ((m.ix.ring h).base + ((m.ix.ring h).con.toNat + o.toNat) % (m.ix.ring h).n)) := by
  unfold consume
  rw [boundRing_ok hb]
  show (if _ then _ else if _ then _ else _) = _
  rw [sval20_small h1, if_neg (by omega), if_neg (by rw [Int.toNat_natCast]; omega)]
  unfold ringSlot Ring.slotAt
  rw [Int.toNat_natCast]
  dsimp only
  rw [h4]; rfl
/-- The row an A-source reads (R222). -/
theorem rdSrc_ok {m : State} {a : ASrc} {v : Nat} (h : m.reads 11 a v) : rdSrc m a = .ok v := by
  unfold State.reads at h
  unfold rdSrc
  cases ha : a.h
  · simp only [ha, Bool.false_eq_true, if_false] at h ⊢
    obtain ⟨h1, rfl⟩ := h
    rw [spaceLocal_ok h1]; rfl
  · simp only [ha, if_true] at h ⊢
    obtain ⟨h1, h2, h3, h4, rfl⟩ := h
    exact consume_ok h1 (by decide) (by simpa using h2) (by simpa using h3) h4

end Sys2Proof.Machine
end

