-- ==== Sys2Proof/Laws/Matrix.lean ====
section
/-! SUPPORT. Laws of the operands of the matrix unit: planes that can be read, checked planes, the waits of the queue and
tiles with no operation too close. -/

set_option Elab.async false

namespace Sys2Proof.Machine

theorem mapM_ok {α β ε : Type} (f : α → Except ε β) (g : α → β) (l : List α) (h : ∀ x ∈ l, f x = .ok (g x)) :
    l.mapM f = .ok (l.map g) := by
  induction l with
  | nil => rfl
  | cons x r ih =>
    rw [List.mapM_cons, h x List.mem_cons_self, ih fun y hy => h y (List.mem_cons_of_mem _ hy)]; rfl

/-- A readable plane is read (R247). -/
theorem mxPlane_ok {m : State} {a : ASrc} {n : Nat} (h : m.planeReadable a n) : mxPlane m a n = .ok (m.planeRows a n) := by
  obtain ⟨hf, h⟩ := h
  unfold mxPlane State.planeRows
  dsimp only
  rw [hf, if_neg (by simp)]
  cases ha : a.h
  · simp only [ha, Bool.false_eq_true, if_false] at h ⊢
    rw [if_neg (by simp; omega)]
  · simp only [ha, if_true] at h ⊢
    obtain ⟨hb, h1, h2, h3⟩ := h
    rw [boundRing_ok hb]
    show (if _ then _ else if _ then _ else _) = _
    rw [if_neg (by omega), if_neg (by omega)]
    refine mapM_ok _ _ _ fun i _ => ?_
    have : ringSlot m 5 a.r.toNat (m.ix.ring a.r.toNat) i =
        .ok (m.rdRow 5 ((m.ix.ring a.r.toNat).base + ((m.ix.ring a.r.toNat).con.toNat + i) % (m.ix.ring a.r.toNat).n)) := by
      unfold ringSlot
      dsimp only
      rw [h3]; rfl
    rw [this]; rfl
/-- A plane that is in order under CHK is read (R258). -/
theorem mxChecked_ok {m : State} {a : ASrc} {n ty : Nat} {chk : Bool} (h : m.planeOk a n ty chk) :
    mxChecked m a n ty chk = .ok (m.planeRows a n, m.planeRsv a n chk) := by
  obtain ⟨h1, h2⟩ := h
  unfold mxChecked
  rw [mxPlane_ok h1]
  cases chk
  · rfl
  · have ht : (m.planeRows a (n + 1)).take n = m.planeRows a n := by
      unfold State.planeRows
      rw [List.range_succ, List.map_append, List.take_left' (by simp)]
    have h2 := h2 rfl
    show (let c := (m.planeRows a (n + 1)).getD n (0, 0)
      let code := colCheck c.2 ty n (((m.planeRows a (n + 1)).take n).map (·.2))
      if code ≠ 0 then Except.error (colTrap 5 code (colPlace m a c.1) ty a.h)
      else Except.ok ((m.planeRows a (n + 1)).take n, bitsAt c.2 96 32)) = _
    dsimp only
    rw [ht, h2]; rfl
theorem arrayWait_ok {m : State} {w p : Nat} {pair : Bool} (o : Nat → Out) (h : m.planeReady w pair p) :
    arrayWait m w pair o = o p := by
  obtain ⟨h1, h2, h3, h4, h5⟩ := h
  unfold arrayWait
  dsimp only
  rw [h1]
  split
  · rfl
  · rw [if_neg (by omega), if_pos ⟨h3, h4, h5⟩]
theorem mqWait_ok {m : State} {ok : Bool} (pre : List Act) (o : Out) (h : ok = true) : mqWait m ok pre o = o := by
  unfold mqWait; rw [if_pos (.inl h)]
/-- A tile with no operation too close reads as the accepted operations leave it (R250). -/
theorem readTile_settled {m : State} {n : Nat} (h1 : tget 0 m.ix.tileDue n ≤ m.ix.bcount) (h2 : ∀ c ∈ m.ix.tileCmds, c.acc ≠ n) :
    readTile m n = ((m.core m.ik).vtile n, false) := by
  unfold readTile
  dsimp only
  rw [if_neg]
  rintro (h | h)
  · omega
  · rw [List.any_eq_true] at h
    obtain ⟨c, hc, he⟩ := h
    exact h2 c hc (by simpa using he)
/-- No check of R256 fails for a slot that is ready. -/
theorem arrayErr_none {m : State} {w tile : Nat} {a b : Bool} (ha : a = true) (hb : b = true) (h : m.slotReady w) :
    arrayErr m w tile a b = none := by
  obtain ⟨h1, h2, h3, -, h5⟩ := h
  unfold arrayErr
  dsimp only
  cases hw : wide16 m.fBF
  · simp [ha, hb, h1, h2, h3]
  · obtain ⟨k1, k2, k3, k4, k5, k6⟩ := h5 hw
    simp [WSlot.sameDesc, ha, hb, h1, h2, h3, k1, k2, k3, k4, k5, k6]

end Sys2Proof.Machine
end

