-- ==== Sys2Proof/Laws/Scalar.lean ====
section
/-! SUPPORT. Laws of the SC slot's operands and results: the numbers the operations compute, as bit vectors. -/

namespace Sys2Proof.Machine

theorem rdS_mod (m : State) (n : BitVec 6) : (m.scalar n).toNat = m.rdS 2 n.toNat % 2 ^ 64 := by simp [State.scalar]
theorem wrS_eq (m : State) (d : BitVec 6) (v : BitVec 64) (n lat : Nat) (port : Port) (h : n % 2 ^ 64 = v.toNat) :
    m.wrS d.toNat n lat port = { wrs := [scalarWr m d v lat port] } := by
  simp only [State.wrS, Out.wr, scalarWr, wholeWr, h]
theorem sextW_setWidth (w : Nat) (x : Nat) (h0 : 0 < w) (hw : w ≤ 64) : sextW w x = (BitVec.ofNat w x).signExtend 64 := by
  apply BitVec.eq_of_toInt_eq
  rw [BitVec.toInt_signExtend_of_le hw, sextW, BitVec.toInt_ofInt, sval, BitVec.toInt_eq_toNat_cond]
  have h1 : x % 2 ^ w < 2 ^ w := Nat.mod_lt _ (by positivity)
  have h2 : 2 ^ w = 2 * 2 ^ (w - 1) := by rw [← Nat.pow_succ']; congr 1; omega
  have h3 : (2 ^ (w - 1) : Nat) ≤ 2 ^ 63 := Nat.pow_le_pow_right (by decide) (by omega)
  simp only [BitVec.toNat_ofNat]
  split <;> split <;> first | omega | skip
  · exact Int.bmod_eq_of_le (by omega) (by omega)
  · exact Int.bmod_eq_of_le (by omega) (by omega)
theorem srcB_mod (m : State) (b : SrcB) : (m.source b).toNat = srcB m b % 2 ^ 64 := by
  cases b with
  | reg n => simp [State.source, srcB, rdS_mod]
  | imm v => simp only [State.source, srcB]; rw [sextW_setWidth 22 _ (by decide) (by decide)]; simp; omega

theorem wrap_ofInt (w : Nat) (i : Int) : wrap w i = (BitVec.ofInt w i).toNat := by simp [wrap, BitVec.toNat_ofInt]

/-- An integer operation as a function of bit vectors gives what the machine writes. -/
theorem scPut_typed (t : ITy) (f : (w : Nat) → BitVec w → BitVec w → BitVec w) (g : Nat → Nat → Nat → Int) (x y : Nat)
    (X Y : BitVec 64) (hx : X.toNat = x % 2 ^ 64) (hy : Y.toNat = y % 2 ^ 64)
    (h : ∀ (a b : BitVec (scW t)), BitVec.ofInt (scW t) (g (scW t) a.toNat b.toNat) = f (scW t) a b) :
    scPut t (g (scW t) (x % 2 ^ scW t) (y % 2 ^ scW t)) % 2 ^ 64 = (typed t f X Y).toNat := by
  have e32 : ∀ (X : BitVec 64) (x : Nat), X.toNat = x % 2 ^ 64 → x % 2 ^ 32 = (X.setWidth 32).toNat := by
    intro X x h; rw [BitVec.toNat_setWidth, h]; omega
  cases t
  · simp only [scW, scPut, typed] at h ⊢
    rw [← hx, ← hy, wrap_ofInt, h]; omega
  · simp only [scW, scPut, typed] at h ⊢
    rw [← hx, ← hy, wrap_ofInt, h]; omega
  · simp only [scW, scPut, typed] at h ⊢
    rw [e32 X x hx, e32 Y y hy, wrap_ofInt, h, sextW_setWidth 32 _ (by decide) (by decide)]
    simp
    omega
  · simp only [scW, scPut, typed] at h ⊢
    rw [e32 X x hx, e32 Y y hy, wrap_ofInt, h]
    simp

theorem scInt_put (m : State) (t : ITy) (d a : BitVec 6) (b : SrcB) (lat : Nat) (f : (w : Nat) → BitVec w → BitVec w → BitVec w)
    (g : Nat → Nat → Nat → Int)
    (h : ∀ (a b : BitVec (scW t)), BitVec.ofInt (scW t) (g (scW t) a.toNat b.toNat) = f (scW t) a b) :
    scInt m t d a b lat g = { wrs := [scalarWr m d (typed t f (m.scalar a) (m.source b)) lat] } :=
  wrS_eq m d _ _ lat _ (scPut_typed t f g _ _ _ _ (rdS_mod m a) (srcB_mod m b) h)

theorem tval_bv (t : ITy) {w : Nat} (hw : 0 < w) (x : BitVec w) : tval (scSg t) w x.toNat = bvVal (scSg t) x := by
  have h1 := x.isLt
  have h2 : 2 ^ w = 2 * 2 ^ (w - 1) := by rw [← Nat.pow_succ']; congr 1; omega
  simp only [tval, bvVal, sval, Nat.mod_eq_of_lt h1, BitVec.toInt_eq_toNat_cond]
  split <;> [skip; rfl]
  split <;> split <;> first | rfl | omega

theorem scW_pos (t : ITy) : 0 < scW t := by cases t <;> decide

theorem scPut_one (t : ITy) (v : Nat) (X : BitVec 64) (r : (w : Nat) → BitVec w → BitVec w → BitVec w) (Y : BitVec 64)
    (h : BitVec.ofNat (scW t) v = r (scW t) (X.setWidth (scW t)) (Y.setWidth (scW t))) :
    scPut t (v : Int) % 2 ^ 64 = (typed t r X Y).toNat := by
  cases t <;> simp only [scW, scPut, typed, wrap_ofInt, BitVec.ofInt_natCast, BitVec.setWidth_eq] at h ⊢
  · rw [h]; omega
  · rw [h]; omega
  · rw [sextW_setWidth 32 _ (by decide) (by decide), BitVec.ofNat_toNat, BitVec.setWidth_eq, h]; omega
  · rw [h]; simp

theorem rdS_W (m : State) (t : ITy) (a : BitVec 6) : m.rdS 2 a.toNat % 2 ^ scW t = ((m.scalar a).setWidth (scW t)).toNat := by
  rw [BitVec.toNat_setWidth, rdS_mod]
  cases t <;> simp only [scW] <;> omega
theorem src_W (m : State) (t : ITy) (b : SrcB) : srcB m b % 2 ^ scW t = ((m.source b).setWidth (scW t)).toNat := by
  rw [BitVec.toNat_setWidth, srcB_mod]
  cases t <;> simp only [scW] <;> omega

theorem clzN_size (w x : Nat) : clzN w x = w - (x % 2 ^ w).size := by
  unfold clzN
  split
  · rename_i h; simp [h]
  · rename_i h
    have : (x % 2 ^ w).size = Nat.log2 (x % 2 ^ w) + 1 := by
      apply le_antisymm
      · exact Nat.size_le.2 Nat.lt_log2_self
      · have := Nat.lt_size.2 (Nat.log2_self_le h); omega
    omega

theorem popcount_countP (w x : Nat) : popcount w x = (List.range w).countP x.testBit := by
  induction w generalizing x with
  | zero => rfl
  | succ w ih =>
    rw [popcount, ih, List.range_succ_eq_map, List.countP_cons, List.countP_map, add_comm]
    congr 1
    · apply congrArg (fun f => List.countP f (List.range w)); funext i; simp [Nat.testBit_succ]
    · rw [Nat.testBit_zero]; rcases Nat.mod_two_eq_zero_or_one x with h | h <;> simp [h]

theorem popcount_bv {w : Nat} (n : Nat) (x : BitVec w) (h : n % 2 ^ w = x.toNat) : popcount w n = (List.range w).countP x.getLsbD := by
  rw [popcount_countP]
  apply List.countP_congr
  intro i hi
  rw [List.mem_range] at hi
  rw [BitVec.getLsbD, ← h, Nat.testBit_mod_two_pow]; simp [hi]

theorem testBit_ofBools (l : List Bool) (i : Nat) : (ofBools l).testBit i = l.getD i false := by
  induction l generalizing i with
  | nil => simp [ofBools, ofLanes]
  | cons b l ih =>
    have : ofBools (b :: l) = b2n b + 2 * ofBools l := by
      have hb : b2n b % 2 ^ 1 = b2n b := by cases b <;> rfl
      simp only [ofBools, List.map_cons, ofLanes, hb]; omega
    rw [this]
    cases i with
    | zero => cases b <;> simp [b2n, Nat.testBit_zero]
    | succ i => rw [Nat.testBit_succ, show (b2n b + 2 * ofBools l) / 2 = ofBools l by cases b <;> simp [b2n]; omega, ih]; rfl

theorem bitAt_testBit (x i : Nat) : bitAt x i = x.testBit i := by
  rw [bitAt, Nat.testBit, Nat.and_comm, Nat.and_one_is_mod]
  rcases Nat.mod_two_eq_zero_or_one (x >>> i) with h | h <;> simp [h]

theorem testBit_lop3N (w tab a b c i : Nat) (h : i < w) : (lop3N w tab a b c).testBit i =
    tab.testBit (4 * b2n (a.testBit i) + 2 * b2n (b.testBit i) + b2n (c.testBit i)) := by
  have key : ∀ x : Nat, (2 ^ w - 1 - x % 2 ^ w).testBit i = !x.testBit i := by
    intro x
    rw [show 2 ^ w - 1 - x % 2 ^ w = 2 ^ w - (x % 2 ^ w + 1) by omega, Nat.testBit_two_pow_sub_succ (Nat.mod_lt _ (by positivity)), Nat.testBit_mod_two_pow]
    simp [h]
  have sel : ∀ (x : Nat) (v : Bool), (if v then x % 2 ^ w else 2 ^ w - 1 - x % 2 ^ w).testBit i = (x.testBit i == v) := by
    intro x v
    cases v
    · simp [key]
    · simp [Nat.testBit_mod_two_pow, h]
  have fold : ∀ (l : List Nat) (r : Nat), (l.foldl (fun r k =>
      if bitAt tab k then r ||| ((if bitAt k 2 then a % 2 ^ w else 2 ^ w - 1 - a % 2 ^ w) &&&
        (if bitAt k 1 then b % 2 ^ w else 2 ^ w - 1 - b % 2 ^ w) &&& (if bitAt k 0 then c % 2 ^ w else 2 ^ w - 1 - c % 2 ^ w)) else r)
      r).testBit i = (r.testBit i || l.any fun k => tab.testBit k && (a.testBit i == bitAt k 2) && (b.testBit i == bitAt k 1) &&
        (c.testBit i == bitAt k 0)) := by
    intro l
    induction l with
    | nil => simp
    | cons k l ih =>
      intro r
      rw [List.foldl_cons, ih, List.any_cons, bitAt_testBit tab k]
      cases tab.testBit k
      · simp
      · rw [if_pos rfl, Nat.testBit_or, Nat.testBit_and, Nat.testBit_and, sel, sel, sel, Bool.true_and, Bool.or_assoc]
  refine (fold (List.range 8) 0).trans ?_
  rw [show List.range 8 = [0, 1, 2, 3, 4, 5, 6, 7] from rfl, Nat.zero_testBit]
  simp only [List.any_cons, List.any_nil]
  cases a.testBit i <;> cases b.testBit i <;> cases c.testBit i <;>
    simp [show bitAt 0 2 = false by decide, show bitAt 0 1 = false by decide, show bitAt 0 0 = false by decide,
      show bitAt 1 2 = false by decide, show bitAt 1 1 = false by decide, show bitAt 1 0 = true by decide,
      show bitAt 2 2 = false by decide, show bitAt 2 1 = true by decide, show bitAt 2 0 = false by decide,
      show bitAt 3 2 = false by decide, show bitAt 3 1 = true by decide, show bitAt 3 0 = true by decide,
      show bitAt 4 2 = true by decide, show bitAt 4 1 = false by decide, show bitAt 4 0 = false by decide,
      show bitAt 5 2 = true by decide, show bitAt 5 1 = false by decide, show bitAt 5 0 = true by decide,
      show bitAt 6 2 = true by decide, show bitAt 6 1 = true by decide, show bitAt 6 0 = false by decide,
      show bitAt 7 2 = true by decide, show bitAt 7 1 = true by decide, show bitAt 7 0 = true by decide, b2n]

theorem lop3N_lt (w tab a b c : Nat) : lop3N w tab a b c < 2 ^ w := by
  have h1 : ∀ (x : Nat) (v : Bool), (if v then x % 2 ^ w else 2 ^ w - 1 - x % 2 ^ w) < 2 ^ w := by
    intro x v
    have : 0 < 2 ^ w := by positivity
    have := Nat.mod_lt x this
    cases v <;> simp <;> omega
  have h2 : ∀ (l : List Nat) (r : Nat), r < 2 ^ w → l.foldl (fun r k =>
      if bitAt tab k then r ||| ((if bitAt k 2 then a % 2 ^ w else 2 ^ w - 1 - a % 2 ^ w) &&&
        (if bitAt k 1 then b % 2 ^ w else 2 ^ w - 1 - b % 2 ^ w) &&& (if bitAt k 0 then c % 2 ^ w else 2 ^ w - 1 - c % 2 ^ w)) else r) r < 2 ^ w := by
    intro l
    induction l with
    | nil => exact fun r h => h
    | cons k l ih =>
      intro r hr
      refine ih _ ?_
      dsimp only
      split
      · exact Nat.or_lt_two_pow hr (Nat.and_lt_two_pow _ (h1 _ _))
      · exact hr
  exact h2 _ 0 (by positivity)

theorem tval_W (t : ITy) (n : Nat) (X : BitVec 64) (h : n % 2 ^ scW t = (X.setWidth (scW t)).toNat) :
    tval (scSg t) (scW t) n = bvVal (scSg t) (X.setWidth (scW t)) := by
  rw [← tval_bv t (scW_pos t), ← h]; simp [tval, sval]
theorem typedVal_eq (t : ITy) (X : BitVec 64) : typedVal t X = bvVal (scSg t) (X.setWidth (scW t)) := by
  cases t <;> simp [typedVal, bvVal, scSg, scW]
theorem scPut_int (t : ITy) (v : Int) (X : BitVec 64) (r : (w : Nat) → BitVec w → BitVec w → BitVec w) (Y : BitVec 64)
    (h : BitVec.ofInt (scW t) v = r (scW t) (X.setWidth (scW t)) (Y.setWidth (scW t))) :
    scPut t v % 2 ^ 64 = (typed t r X Y).toNat := by
  cases t <;> simp only [scW, scPut, typed, wrap_ofInt, BitVec.setWidth_eq] at h ⊢
  · rw [h]; omega
  · rw [h]; omega
  · rw [sextW_setWidth 32 _ (by decide) (by decide), BitVec.ofNat_toNat, BitVec.setWidth_eq, h]; omega
  · rw [h]; simp
theorem bvVal_eq_zero {w : Nat} (sg : Bool) (x : BitVec w) : bvVal sg x = 0 ↔ x = 0 := by
  cases sg
  · simp [bvVal, BitVec.toNat_eq]
  · constructor
    · intro h; apply BitVec.eq_of_toInt_eq; simpa [bvVal] using h
    · rintro rfl; simp [bvVal]
theorem ofInt_bvVal {w : Nat} (sg : Bool) (x : BitVec w) : BitVec.ofInt w (bvVal sg x) = x := by
  cases sg <;> simp [bvVal]

theorem scDivRem_eq (m : State) (t : ITy) (d a : BitVec 6) (b : SrcB) (rem : Bool) (f : (w : Nat) → BitVec w → BitVec w → BitVec w)
    (hf : ∀ w (x y : BitVec w), f w x y = if y = 0 then (if rem then x else 0) else
      BitVec.ofInt w (if rem then (bvVal (scSg t) x).tmod (bvVal (scSg t) y) else (bvVal (scSg t) x).tdiv (bvVal (scSg t) y))) :
    scDivRem m t d a b rem =
      { wrs := [scalarWr m d (typed t f (m.scalar a) (m.source b)) 18],
        acts := if typedVal t (m.source b) = 0 then [.cst cstIDZ] else [] } := by
  unfold scDivRem
  simp only [tval_W t _ _ (src_W m t b), tval_W t _ _ (rdS_W m t a), typedVal_eq]
  by_cases hz : bvVal (scSg t) ((m.source b).setWidth (scW t)) = 0
  · rw [if_pos hz, if_pos hz, wrS_eq m d _ _ 18 _ (scPut_int t _ (m.scalar a) f (m.source b) ?_)]
    · rfl
    · rw [hf, if_pos ((bvVal_eq_zero _ _).1 hz)]
      cases rem
      · simp
      · simp [ofInt_bvVal]
  · rw [if_neg hz, if_neg hz, wrS_eq m d _ _ 18 _ (scPut_int t _ (m.scalar a) f (m.source b) ?_)]
    rw [hf, if_neg fun h => hz ((bvVal_eq_zero _ _).2 h)]

theorem cmp_one (t : ITy) (m : State) (a : BitVec 6) : tval (scSg t) (scW t) (m.rdS 2 a.toNat) = typedVal t (m.scalar a) := by
  rw [typedVal_eq, tval_W t _ _ (rdS_W m t a)]
theorem cmp_src (t : ITy) (m : State) (b : SrcB) : tval (scSg t) (scW t) (srcB m b) = typedVal t (m.source b) := by
  rw [typedVal_eq, tval_W t _ _ (src_W m t b)]

theorem scFp_eq (m : State) (d : BitVec 6) (v : FV × Bool) (rm : BitVec 3)
    (h : fpEnabled m.fmtW v.2 false (fmtF32.round .arith false (rmode rm.toNat m.fmtRm) v.1).ovf = false) :
    scFp m d v rm =
      { wrs := scalarWr m d (BitVec.ofNat 64 (fmtF32.round .arith false (rmode rm.toNat m.fmtRm) v.1).bits) 4 ::
          fpSticky v.2 (fmtF32.round .arith false (rmode rm.toNat m.fmtRm) v.1).ovf 4 } := by
  simp only [scFp, h, Bool.false_eq_true, if_false]
  rw [wrS_eq m d (BitVec.ofNat 64 (fmtF32.round .arith false (rmode rm.toNat m.fmtRm) v.1).bits)
    (fmtF32.round .arith false (rmode rm.toNat m.fmtRm) v.1).bits 4 .owner (by simp)]
  rfl
theorem scF_eq (m : State) (n : BitVec 6) : scF m n = fmtF32.dec ((m.scalar n).toNat % 2 ^ 32) := by
  rw [scF, rdS_mod]; congr 1; omega

end Sys2Proof.Machine
end

