-- ==== Sys2Proof/Laws/Memory.lean ====
section
/-! SUPPORT. Laws of the accesses to LPDDR 6 through the stacks and through L1: what each can change, that with every unit ready
none of them waits, and that what is written within a line reads back. -/

set_option Elab.async false

namespace Sys2Proof.Machine

/-- All that an access through the stacks may change; with every unit ready it does not wait, and every unit stays ready. -/
structure MemStep (s t : State) : Prop where
  only : t = { s with dram := t.dram, stack := t.stack, badUnits := t.badUnits, held := t.held }
  ready : s.unitsReady → t.held = s.held ∧ t.unitsReady

theorem MemStep.refl (s : State) : MemStep s s := ⟨rfl, fun h => ⟨rfl, h⟩⟩
theorem MemStep.trans {s t u : State} (h : MemStep s t) (g : MemStep t u) : MemStep s u := by
  refine ⟨?_, fun r => ?_⟩
  · have h1 := h.only
    rw [g.only, h1]
  · have h1 := h.ready r
    exact ⟨(g.ready h1.2).1.trans h1.1, (g.ready h1.2).2⟩
theorem MemStep.foldl {α : Type} {f : State → α → State} (hf : ∀ s a, MemStep s (f s a)) (l : List α) (s : State) :
    MemStep s (l.foldl f s) := by
  induction l generalizing s with
  | nil => exact .refl s
  | cons a r ih => exact (hf s a).trans (ih _)

/-- The registers that readiness depends on stay, and so does readiness when no line of a way in use becomes poisoned. -/
theorem unitsReady_of_lines {s t : State} (h : s.unitsReady) (hr : t.regs = s.regs) (hq : t.quar = s.quar)
    (hl : ∀ e ∈ t.stack, e ∈ s.stack ∨ e.2.poison = false) : t.unitsReady := by
  have hreg (n : Nat) : t.reg n = s.reg n := by simp only [State.reg, hr]
  refine ⟨fun p a => ?_, fun a => ?_, fun sl set => ?_⟩
  · have := h.1 p a
    simpa only [State.sliceReady, State.sliceOf, hreg] using this
  · have := h.2.1 a
    simpa only [State.chanReady, hreg] using this
  · obtain ⟨w, hw, hwq, hwl⟩ := h.2.2 sl set
    refine ⟨w, hw, by simpa only [State.quarantined, hq] using hwq, fun e he h1 h2 h3 => ?_⟩
    exact (hl e he).elim (fun g => hwl e g h1 h2 h3) id

theorem memStep_of_lines {s t : State} (ho : t = { s with dram := t.dram, stack := t.stack, badUnits := t.badUnits, held := t.held })
    (hh : s.unitsReady → t.held = s.held) (hl : ∀ e ∈ t.stack, e ∈ s.stack ∨ e.2.poison = false) : MemStep s t :=
  ⟨ho, fun r => ⟨hh r, unitsReady_of_lines r (by rw [ho]) (by rw [ho]) hl⟩⟩

/-- A step that waits leaves the rest as it is; with every unit ready there is none to wait for. -/
theorem memStep_hold {s : State} (h : ¬s.unitsReady) : MemStep s s.hold :=
  ⟨rfl, fun r => absurd r h⟩
theorem sliceReady_of {s : State} (h : s.unitsReady) (p a : Nat) : s.sliceReady (s.sliceOf p a) = true := h.1 p a
theorem chanReady_of {s : State} (h : s.unitsReady) (a : Nat) : s.chanReady a = true := h.2.1 a

theorem wbLine_stack (s : State) (key : Nat) (l : StackLine) : (s.wbLine key l).stack = s.stack := by
  unfold State.wbLine; dsimp only; split <;> rfl

/-- `State.wbLine` (R180): nothing of the stacks changes. -/
theorem memStep_wbLine (s : State) (key : Nat) (l : StackLine) : MemStep s (s.wbLine key l) := by
  refine memStep_of_lines ?_ (fun r => ?_) fun e he => .inl ?_
  · unfold State.wbLine; dsimp only; split <;> rfl
  · unfold State.wbLine; dsimp only
    rw [if_neg]
    simp [chanReady_of r]
  · rwa [wbLine_stack] at he

/-- Lines may be taken out of the stacks. -/
theorem memStep_tdel (s : State) (key : Nat) : MemStep s { s with stack := tdel s.stack key } :=
  memStep_of_lines rfl (fun _ => rfl) fun _ he => .inl (mem_tdel he)
/-- A line without poison may be put into them. -/
theorem memStep_tput (s : State) (key : Nat) {l : StackLine} (h : l.poison = false) :
    MemStep s { s with stack := tput s.stack key l } :=
  memStep_of_lines rfl (fun _ => rfl) fun e he => (mem_tput he).elim (fun g => .inr (by rw [g]; exact h)) .inl

theorem memStep_dropWay (s : State) (slice set way : Nat) : MemStep s (s.dropWay slice set way) := by
  unfold State.dropWay
  split
  · dsimp only
    split
    · exact memStep_tdel _ _
    · exact (memStep_wbLine ..).trans (memStep_tdel _ _)
  · exact .refl s

/-- `State.allocWay` finds a way wherever every unit is ready. -/
theorem memStep_allocWay (s : State) (slice set : Nat) : MemStep s (s.allocWay slice set).1 := by
  unfold State.allocWay
  dsimp only
  split
  · exact .refl s
  · split
    · exact memStep_dropWay ..
    · rename_i hn
      refine memStep_hold fun r => ?_
      obtain ⟨w, hw, hq, hl⟩ := r.2.2 slice set
      have := List.find?_eq_none.1 hn w (List.mem_filter.2 ⟨List.mem_range.2 hw, by simp [hq]⟩)
      refine this ?_
      cases hf : s.stack.find? fun e => e.2.slice == slice && e.1 % 1024 == set && e.2.way == w with
      | none => rfl
      | some e =>
        have h1 := List.find?_some hf
        simp only [Bool.and_eq_true, beq_iff_eq] at h1
        simp [hl e (List.mem_of_find?_eq_some hf) h1.1.1 h1.1.2 h1.2]

/-- `State.lineFor`: a new line has no poison; one that is found may have. -/
theorem memStep_lineFor (s : State) (part pa : Nat) : MemStep s (s.lineFor part pa).1 := by
  unfold State.lineFor
  split
  · exact .refl s
  · exact memStep_allocWay ..

theorem fill_poison (l : StackLine) (m : Memory) (ln q : Nat) : (l.fill m ln q).poison = l.poison := rfl
theorem foldl_fill_poison (m : Memory) (ln : Nat) (qs : List Nat) (l : StackLine) :
    (qs.foldl (fun (l : StackLine) q => l.fill m ln q) l).poison = l.poison := by
  induction qs generalizing l with
  | nil => rfl
  | cons q r ih => rw [List.foldl_cons, ih, fill_poison]

theorem memStep_lpPut (s : State) (part pa n v : Nat) (own : Nat × Nat) : MemStep s (s.lpPut part pa n v own) := by
  unfold State.lpPut
  dsimp only
  split
  · rename_i h
    exact memStep_hold fun r => by simp [sliceReady_of r] at h
  split
  · exact .refl s
  split
  · rename_i h
    exact memStep_hold fun r => by simp [chanReady_of r] at h
  split
  · exact .refl s
  · rename_i hp _ _
    refine (memStep_lineFor s part pa).trans (memStep_tput _ _ ?_)
    rw [foldl_fill_poison]
    exact Bool.eq_false_iff.2 hp

theorem memStep_lpTouchLine (s : State) (part pa n : Nat) : MemStep s (s.lpTouchLine part pa n) := by
  unfold State.lpTouchLine
  dsimp only
  split
  · rename_i h
    exact memStep_hold fun r => by simp [sliceReady_of r] at h
  split
  · exact .refl s
  split
  · rename_i h
    exact memStep_hold fun r => by simp [chanReady_of r] at h
  split
  · exact .refl s
  · rename_i hp _ _
    refine (memStep_lineFor s part pa).trans (memStep_tput _ _ ?_)
    rw [foldl_fill_poison]
    exact Bool.eq_false_iff.2 fun h => hp (.inl h)

theorem memStep_lpWriteF (part : Nat) (own : Nat × Nat) (dev : Bool) (f : Nat) :
    ∀ s pa n v, MemStep s (s.lpWriteF part own dev f pa n v) := by
  induction f with
  | zero => exact fun s _ _ _ => .refl s
  | succ f ih =>
    intro s pa n v
    unfold State.lpWriteF
    split
    · exact .refl s
    · dsimp only
      refine MemStep.trans ?_ (ih _ _ _ _)
      split
      · exact .refl s
      · exact memStep_lpPut ..
theorem memStep_lpTouchF (part f : Nat) : ∀ s pa n, MemStep s (s.lpTouchF part f pa n) := by
  induction f with
  | zero => exact fun s _ _ => .refl s
  | succ f ih =>
    intro s pa n
    unfold State.lpTouchF
    split
    · exact .refl s
    · exact (memStep_lpTouchLine ..).trans (ih _ _ _)

/-- A write to LPDDR 6, a read's effect on the stacks, a write by software, and a line cleaned (R179, R180, R355). -/
theorem memStep_lpWrite (s : State) (part pa n v : Nat) (own : Nat × Nat) : MemStep s (s.lpWrite part pa n v own) :=
  memStep_lpWriteF ..
theorem memStep_lpTouch (s : State) (part pa n : Nat) : MemStep s (s.lpTouch part pa n) := memStep_lpTouchF ..
theorem memStep_tableSoft (s : State) (part pa n : Nat) (own : Nat × Nat) : MemStep s (s.tableSoft part pa n own) := by
  unfold State.tableSoft
  split
  · exact .refl s
  · exact .foldl (fun _ _ => memStep_lpWrite ..) _ _
theorem memStep_lpSoft (s : State) (part pa n v : Nat) (own : Nat × Nat) : MemStep s (s.lpSoft part pa n v own) :=
  (memStep_lpWrite ..).trans (memStep_tableSoft ..)
theorem memStep_lpClean (s : State) (part pa : Nat) : MemStep s (s.lpClean part pa) := by
  unfold State.lpClean
  dsimp only
  split
  · split
    · exact .refl s
    · have h := (memStep_wbLine s (lineKey (s.sliceOf part pa) (pa / 256)) ‹_›).trans
        (memStep_tdel _ (lineKey (s.sliceOf part pa) (pa / 256)))
      rwa [wbLine_stack] at h
  · exact .refl s
/-- What a walk reads (R432). -/
theorem memStep_walkTouch (s : State) (fn va : Nat) : MemStep s (s.walkTouch fn va) :=
  .foldl (fun _ _ => memStep_lpTouch ..) _ _

/-- What such an access leaves as it was. -/
theorem MemStep.keeps {s t : State} (h : MemStep s t) :
    t.cores = s.cores ∧ t.clusters = s.clusters ∧ t.dies = s.dies ∧ t.regs = s.regs ∧ t.host = s.host ∧ t.peer = s.peer ∧
    t.quar = s.quar ∧ t.kernels = s.kernels ∧ t.messages = s.messages ∧ t.blocks = s.blocks ∧ t.retiring = s.retiring ∧ t.now = s.now := by
  rw [h.only]; exact ⟨rfl, rfl, rfl, rfl, rfl, rfl, rfl, rfl, rfl, rfl, rfl, rfl⟩

/-! ### L1 -/

/-- All that an access through L1 may change: beside what `MemStep` names, the lines of L1 and the messages to contexts. -/
structure L1Step (s t : State) : Prop where
  only : t = { s with cores := t.cores, messages := t.messages, dram := t.dram, stack := t.stack, badUnits := t.badUnits, held := t.held }
  lines : ∀ k, ∃ l, t.core k = { s.core k with l1 := l }
  ready : s.unitsReady → t.held = s.held ∧ t.unitsReady

theorem L1Step.refl (s : State) : L1Step s s := ⟨rfl, fun _ => ⟨_, rfl⟩, fun h => ⟨rfl, h⟩⟩
theorem L1Step.trans {s t u : State} (h : L1Step s t) (g : L1Step t u) : L1Step s u := by
  refine ⟨?_, fun k => ?_, fun r => ?_⟩
  · have h1 := h.only
    rw [g.only, h1]
  · obtain ⟨l, hl⟩ := h.lines k
    obtain ⟨m, hm⟩ := g.lines k
    exact ⟨m, by rw [hm, hl]⟩
  · have h1 := h.ready r
    exact ⟨(g.ready h1.2).1.trans h1.1, (g.ready h1.2).2⟩
theorem L1Step.foldl {α : Type} {f : State → α → State} (hf : ∀ s a, L1Step s (f s a)) (l : List α) (s : State) :
    L1Step s (l.foldl f s) := by
  induction l generalizing s with
  | nil => exact .refl s
  | cons a r ih => exact (hf s a).trans (ih _)
theorem MemStep.l1 {s t : State} (h : MemStep s t) : L1Step s t :=
  ⟨by rw [h.only], fun k => ⟨(s.core k).l1, by rw [State.core, h.only]; rfl⟩, h.ready⟩
theorem l1Step_ueMsg (s : State) (k j pa : Nat) : L1Step s (s.ueMsg k j pa) := ⟨rfl, fun _ => ⟨_, rfl⟩, fun h => ⟨rfl, h⟩⟩
theorem l1Step_lines (s : State) (k : Nat) {f : Core → Core} (hf : ∀ c, ∃ l, f c = { c with l1 := l }) : L1Step s (s.modCore k f) := by
  refine ⟨rfl, fun q => ?_, fun h => ⟨rfl, h⟩⟩
  by_cases hq : q = k
  · subst hq
    exact (hf (s.core q)).imp fun l hl => (core_setCore_same ..).trans hl
  · exact ⟨_, core_setCore_other _ _ hq⟩

/-- A write-back of a line, of a line that then leaves, and of the lines a test or a context names (R178, R179, R202). -/
theorem l1Step_l1Flush (s : State) (k ln : Nat) : L1Step s (s.l1Flush k ln) := by
  unfold State.l1Flush
  split
  · exact .refl s
  · split
    · exact .refl s
    · dsimp only
      refine L1Step.trans ?_ (l1Step_lines _ k fun _ => ⟨_, rfl⟩)
      split
      · exact l1Step_ueMsg ..
      · refine .foldl (fun u w => ?_) _ _
        split
        · exact (memStep_lpSoft ..).l1
        · exact .refl u
theorem l1Step_l1Evict (s : State) (k ln : Nat) : L1Step s (s.l1Evict k ln) :=
  (l1Step_l1Flush s k ln).trans (l1Step_lines _ k fun _ => ⟨_, rfl⟩)
theorem l1Step_l1FlushIf (s : State) (k : Nat) (f : L1Line → Bool) : L1Step s (s.l1FlushIf k f) :=
  .foldl (fun _ _ => l1Step_l1Flush ..) _ _
theorem l1Step_l1Release (s : State) (k j : Nat) : L1Step s (s.l1Release k j) := l1Step_l1FlushIf ..
theorem l1Step_l1Room (s : State) (k ln : Nat) : L1Step s (s.l1Room k ln) := by
  unfold State.l1Room
  dsimp only
  split
  · exact .refl s
  · split
    · exact l1Step_l1Evict ..
    · exact .refl s
/-- A read and a store through L1 (R178). -/
theorem l1Step_l1Read (s : State) (k j part pa va : Nat) : L1Step s (s.l1Read k j part pa va).1 := by
  unfold State.l1Read
  dsimp only
  refine L1Step.trans ((l1Step_l1Room s k (pa / 128)).trans ?_) (l1Step_lines _ k fun _ => ⟨_, rfl⟩)
  split
  · exact .refl _
  · exact (memStep_lpTouch ..).l1
theorem l1Step_l1Write (s : State) (k j fn part pa n v va : Nat) : L1Step s (s.l1Write k j fn part pa n v va) := by
  unfold State.l1Write
  dsimp only
  exact (l1Step_l1Room ..).trans (l1Step_lines _ k fun _ => ⟨_, rfl⟩)
theorem l1Step_l1Discard (s : State) (k : Nat) (f : L1Line → Bool) : L1Step s (s.l1Discard k f) :=
  l1Step_lines s k fun _ => ⟨_, rfl⟩
theorem l1Step_l1Observe (s : State) (k j : Nat) : L1Step s (s.l1Observe k j) :=
  l1Step_lines s k fun _ => ⟨_, rfl⟩

/-- What such an access leaves as it was. -/
theorem L1Step.keeps {s t : State} (h : L1Step s t) :
    t.clusters = s.clusters ∧ t.dies = s.dies ∧ t.regs = s.regs ∧ t.host = s.host ∧ t.peer = s.peer ∧ t.quar = s.quar ∧
    t.kernels = s.kernels ∧ t.blocks = s.blocks ∧ t.retiring = s.retiring ∧ t.now = s.now ∧ ∀ k j, t.ctx k j = s.ctx k j := by
  have h1 := h.only
  refine ⟨by rw [h1], by rw [h1], by rw [h1], by rw [h1], by rw [h1], by rw [h1], by rw [h1], by rw [h1], by rw [h1], by rw [h1],
    fun k j => ?_⟩
  obtain ⟨l, hl⟩ := h.lines k
  rw [State.ctx, hl]; rfl

/-! ### What is written reads back -/

theorem and_onesAt (d a n : Nat) : d &&& onesAt a n = d / 2 ^ a % 2 ^ n * 2 ^ a := by
  apply Nat.eq_of_testBit_eq
  intro i
  simp only [onesAt, Nat.testBit_and, Nat.testBit_shiftLeft, Nat.testBit_two_pow_sub_one, Nat.testBit_mul_two_pow,
    Nat.testBit_mod_two_pow, Nat.testBit_div_two_pow]
  by_cases h : a ≤ i
  · simp only [h, decide_true, Bool.true_and, Nat.sub_add_cancel h, Bool.and_comm]
  · simp [h]

/-- Bytes of a word read back where they were put in. -/
theorem bytes_put (d v o n i : Nat) (hi : i < n) (ho : o + n ≤ 256) :
    bitsAt (((d - (d &&& onesAt (8 * o) (8 * n))) + (v % 2 ^ (8 * n)) <<< (8 * o)) % 2 ^ 2048) (8 * (o + i)) 8 =
      v / 2 ^ (8 * i) % 2 ^ 8 := by
  have e : d - (d &&& onesAt (8 * o) (8 * n)) + (v % 2 ^ (8 * n)) <<< (8 * o) =
      d % 2 ^ (8 * o) + 2 ^ (8 * o) * (v % 2 ^ (8 * n) + 2 ^ (8 * n) * (d / 2 ^ (8 * o) / 2 ^ (8 * n))) := by
    rw [and_onesAt, Nat.shiftLeft_eq]
    have h1 := Nat.mod_add_div d (2 ^ (8 * o))
    have h2 := Nat.mod_add_div (d / 2 ^ (8 * o)) (2 ^ (8 * n))
    generalize d % 2 ^ (8 * o) = lo at *
    generalize d / 2 ^ (8 * o) = q at *
    generalize q % 2 ^ (8 * n) = mid at *
    generalize q / 2 ^ (8 * n) = hi at *
    generalize 2 ^ (8 * n) = N at *
    generalize 2 ^ (8 * o) = O at *
    subst h2
    have : d = lo + O * mid + O * (N * hi) := by rw [← h1]; ring
    have g : mid * O = O * mid := Nat.mul_comm ..
    rw [this, g, Nat.mul_add, Nat.mul_comm (v % N)]
    omega
  rw [e, bitsAt, Nat.shiftRight_eq_div_pow]
  apply Nat.eq_of_testBit_eq
  intro j
  simp only [Nat.testBit_mod_two_pow, Nat.testBit_div_two_pow]
  by_cases hj : j < 8
  · simp only [hj, decide_true, Bool.true_and]
    rw [Nat.add_comm (d % 2 ^ (8 * o)), Nat.testBit_two_pow_mul_add _ (Nat.mod_lt _ (Nat.two_pow_pos _)), if_neg (by omega),
      Nat.add_comm (v % _), Nat.testBit_two_pow_mul_add _ (Nat.mod_lt _ (Nat.two_pow_pos _)), if_pos (by omega),
      Nat.testBit_mod_two_pow]
    have h3 : j + 8 * (o + i) - 8 * o = j + 8 * i := by omega
    have h4 : j + 8 * i < 8 * n := by omega
    have h5 : j + 8 * (o + i) < 2048 := by omega
    simp only [h3, h4, h5, decide_true, Bool.true_and]
  · simp [hj]

theorem lineRead_eq (l : Option StackLine) (m : Memory) (x : Nat) :
    ∀ n pa, (∀ i, i < n → lineByte l m (pa + i) = BitVec.ofNat 8 (x / 2 ^ (8 * i))) → lineRead l m pa n = x % 2 ^ (8 * n) := by
  intro n
  induction n generalizing x with
  | zero => intro pa _; simp [lineRead, Nat.mod_one]
  | succ n ih =>
    intro pa h
    have h0 := h 0 (by omega)
    rw [lineRead, ih (x / 256) (pa + 1) fun i hi => by
      rw [show pa + 1 + i = pa + (i + 1) by omega, h (i + 1) (by omega)]
      rw [show 8 * (i + 1) = 8 + 8 * i by omega, pow_add, Nat.div_div_eq_div_mul]; rfl]
    rw [show pa = pa + 0 from rfl, h0]
    simp only [Nat.mul_zero, pow_zero, Nat.div_one, BitVec.toNat_ofNat]
    rw [show 8 * (n + 1) = 8 + 8 * n by omega, pow_add, Nat.mod_mul]; rfl

theorem testBit_foldl_or (l : List Nat) (a w : Nat) :
    (l.foldl (fun a w => a ||| 2 ^ w) a).testBit w = (a.testBit w || l.contains w) := by
  induction l generalizing a with
  | nil => simp
  | cons x r ih =>
    rw [List.foldl_cons, ih, Nat.testBit_or, Nat.testBit_two_pow]
    by_cases h : x = w
    · simp [h]
    · simp [h, Ne.symm h]

theorem reg_of_regs {s t : State} (h : t.regs = s.regs) (n : Nat) : t.reg n = s.reg n := by simp only [State.reg, h]
theorem sliceOf_of_regs {s t : State} (h : t.regs = s.regs) (p a : Nat) : t.sliceOf p a = s.sliceOf p a := by
  simp only [State.sliceOf, reg_of_regs h]

@[simp] theorem tfind_tput_same {α : Type} (t : Tab α) (k : Nat) (v : α) : tfind (tput t k v) k = some v := by
  induction t with
  | nil => simp [tput, tfind]
  | cons e r ih => simp only [tput]; split_ifs <;> simp_all [tfind]

/-- Within one line the bytes of LPDDR 6 are those of the line. -/
theorem lpRead_line (s : State) (part pa n : Nat) (h : pa % 256 + n ≤ 256) :
    s.lpRead part pa n = lineRead (s.lineAt part pa) s.dram pa n := by
  unfold State.lpRead State.lpReadF
  by_cases hn : n = 0
  · subst hn; simp [lineRead]
  · have hm : min n (256 - pa % 256) = n := by omega
    rw [if_neg hn]
    simp only [hm, Nat.sub_self]
    cases n / 256 + 1 <;> simp [State.lpReadF]

theorem lineByte_has {l : StackLine} (m : Memory) {pa : Nat} (h : l.has (pa % 256 / 4) = true) :
    lineByte (some l) m pa = BitVec.ofNat 8 (bitsAt l.data.toNat (8 * (pa % 256)) 8) := by simp [lineByte, h]

theorem lineFor_lineAt (s : State) (part pa : Nat) :
    (s.lineFor part pa).2.poison = s.poisoned part pa ∧ (s.lineFor part pa).1.regs = s.regs := by
  refine ⟨?_, by rw [(memStep_lineFor s part pa).only]⟩
  unfold State.lineFor State.poisoned
  split <;> simp

/-- What is written within one line, and not dropped, reads back (R180). -/
theorem lpRead_lpPut {s : State} (h : s.unitsReady) (part pa n v : Nat) (own : Nat × Nat) (hl : pa % 256 + n ≤ 256) (hn : 0 < n)
    (hp : s.poisoned part pa = false) (hb : ∀ i, i < n → tget false s.badUnits ((pa + i) / 64) = false) :
    (s.lpPut part pa n v own).lpRead part pa n = v % 2 ^ (8 * n) := by
  rw [lpRead_line _ _ _ _ hl]
  have hr := (memStep_lpPut s part pa n v own).keeps.2.2.2.1
  have hw (w : Nat) (hw : pa % 256 < 4 * w + 4 ∧ 4 * w < pa % 256 + n) : ∃ i, i < n ∧ (pa + i) / 64 = 4 * (pa / 256) + w / 16 := by
    by_cases h0 : 4 * w ≤ pa % 256
    · exact ⟨0, hn, by omega⟩
    · exact ⟨4 * w - pa % 256, by omega, by omega⟩
  apply lineRead_eq
  intro i hi
  unfold State.lineAt
  rw [sliceOf_of_regs hr]
  unfold State.lpPut
  dsimp only
  rw [if_neg (by simp [sliceReady_of h]), if_neg (by rw [(lineFor_lineAt s part pa).1, hp]; decide), if_neg (by simp [chanReady_of h]),
    if_neg]
  · simp only [tfind_tput_same]
    rw [lineByte_has]
    · dsimp only
      rw [BitVec.toNat_ofNat, show (pa + i) % 256 = pa % 256 + i by omega, bytes_put _ _ _ _ _ hi hl]
      exact BitVec.eq_of_toNat_eq (by simp)
    · have hwi : (pa + i) % 256 / 4 < 64 := by omega
      unfold StackLine.has
      dsimp only
      rw [Bool.or_eq_true]
      refine .inl ?_
      rw [bitAt_testBit, BitVec.toNat_or, Nat.testBit_or, Bool.or_eq_true]
      refine .inr ?_
      rw [BitVec.toNat_ofNat, Nat.testBit_mod_two_pow, testBit_foldl_or]
      simp only [hwi, decide_true, Bool.true_and, Nat.zero_testBit, Bool.false_or, List.contains_iff_mem, List.mem_filter, List.mem_range,
        Bool.and_eq_true, decide_eq_true_eq, true_and]
      omega
  · simp only [List.any_eq_true, List.mem_filter, not_exists, not_and, Bool.not_eq_true]
    rintro q ⟨hq, w, hwm, hwq⟩
    simp only [List.mem_range, Bool.and_eq_true, decide_eq_true_eq, beq_iff_eq] at hwm hwq
    obtain ⟨j, hj, hj2⟩ := hw w hwm.2
    rw [← hwq.1, ← hj2]
    exact hb j hj
end Sys2Proof.Machine
end

