-- ==== Sys2Proof/Laws/Regs.lean ====
section
/-! SUPPORT. Laws of the registers: what storing into one register does to that one and to every other, and what the
landing of results does. -/

set_option Elab.async false

namespace Sys2Proof.Machine

/-! ### Storing -/

theorem rawD_lt (s : State) (k j : Nat) {d : Dest} (hd : d.plain = true) : rawD s k j d < 2 ^ d.bits := by
  cases d <;> simp only [rawD, Dest.bits] <;> first
    | exact BitVec.isLt _
    | (split <;> first | (exact BitVec.isLt _) | omega)
    | skip
  all_goals first
    | (rename_i f n; cases f <;> exact BitVec.isLt _)
    | (unfold b2n; split <;> omega)
    | simp [Dest.plain] at hd

theorem rawD_putD_same (s : State) (k j : Nat) {d : Dest} (v : Nat) (hd : d.plain = true) :
    rawD (putD s k j d v) k j d = v % 2 ^ d.bits := by
  cases d
  case v f n => cases f <;> simp [rawD, putD, core_setCore_same, Core.vfile, row, Dest.bits]
  case mask f n => cases f <;> simp [rawD, putD, core_setCore_same, ctx_setCtx_same, Ctx.mask, Dest.bits]
  case pad r => simp [rawD, putD, core_setCore_same, tget_tset, row, Dest.bits]
  case en => simp [rawD, putD, core_setCore_same, ctx_setCtx_same, Dest.bits, b2n, bitAt]; split <;> omega
  all_goals first
    | (simp [Dest.plain] at hd; simp [rawD, putD, hd, core_setCore_same, ctx_setCtx_same, Dest.bits])
    | (simp [rawD, putD, core_setCore_same, ctx_setCtx_same, Dest.bits]; done)
    | simp [Dest.plain] at hd

theorem rawD_putD_other (s : State) (k j : Nat) {d e : Dest} (v : Nat) (hd : d.plain = true) (h : d ≠ e) :
    rawD (putD s k j e v) k j d = rawD s k j d := by
  rcases e with n | ⟨⟨⟩, n⟩ | ⟨⟨⟩, n⟩ | n | n | n | n | _ | _ | n | n | n | n | n | n | n | n | _ | _ | _ | _ | _ | _ | _ | _ | n <;>
    simp only [putD] <;> (try split) <;> (try rfl) <;>
    rcases d with m | ⟨⟨⟩, m⟩ | ⟨⟨⟩, m⟩ | m | m | m | m | _ | _ | m | m | m | m | m | m | m | m | _ | _ | _ | _ | _ | _ | _ | _ | m <;>
    simp only [rawD, core_setCore_same, Core.setCtx, Core.ctx, tget_tput_same, Core.vfile, Ctx.mask, Dest.plain, Bool.false_eq_true] at hd ⊢ <;>
    first
    | rfl
    | exact absurd rfl h
    | (rw [tget_tput_other]; intro e; apply h; rw [e])
    | (rw [tget_tset_other]; intro e; apply h; rw [e])
/-- Storing keeps the rows of the scratchpad in canonical form. -/
theorem pad_putD (s : State) (k j : Nat) (e : Dest) (v : Nat) (hp : tcanon 0 (s.core k).pad = true) :
    tcanon 0 ((putD s k j e v).core k).pad = true := by
  rcases e with n | ⟨⟨⟩, n⟩ | ⟨⟨⟩, n⟩ | n | n | n | n | _ | _ | n | n | n | n | n | n | n | n | _ | _ | _ | _ | _ | _ | _ | _ | n <;>
    simp only [putD] <;> (try split) <;> (try simp only [core_setCore_same, Core.setCtx]) <;> first
    | exact hp
    | exact tcanon_tset _ _ hp

/-! ### Landing (R89) -/

theorem blend_zero (v r : Row) : blend 0 v r = r := by
  show (v &&& 0#1024) ||| (r &&& ~~~0#1024) = r
  rw [BitVec.and_zero, BitVec.zero_or, BitVec.not_zero, BitVec.and_allOnes]
theorem rawD_notePad (s : State) (k w : Nat) (m : Row) (k' j : Nat) (d : Dest) : rawD (s.notePad k w m) k' j d = rawD s k' j d := by
  unfold State.notePad; split <;> rfl
theorem core_notePad (s : State) (k w : Nat) (m : Row) (k' : Nat) : (s.notePad k w m).core k' = s.core k' := by
  unfold State.notePad; split <;> rfl
theorem rawD_tile (s : State) (k j : Nat) (f : Ctx → TileSt) (d : Dest) :
    rawD (s.modCtx k j fun x => { x with tile := f x }) k j d = rawD s k j d := by
  simp only [rawD, State.modCtx, State.setCtx, core_setCore_same]
  cases d <;> simp only [ctx_setCtx_same] <;> rfl

/-- A result that lands leaves every other register as it was. -/
theorem rawD_land_other (s : State) (k j : Nat) {d : Dest} (p : Pend) (hd : d.plain = true) (h : d ≠ p.dest) :
    rawD (land s k j p) k j d = rawD s k j d := by
  have hl : ∀ (t : State) (v : Nat), rawD (putD t k j p.dest v) k j d = rawD t k j d := fun t v => rawD_putD_other t k j v hd h
  unfold land
  split
  · rfl
  · dsimp only
    generalize hu : (if p.mask = 0 then s else _) = u
    have h1 : rawD u k j d = rawD s k j d := by rw [← hu]; split <;> [rfl; (split <;> exact hl ..)]
    split <;> (try split) <;> simp only [rawD_tile, rawD_notePad, h1]
/-- A result that lands is in its register; a scratchpad row may meet an engine's work on it (R278, R340). -/
theorem rawD_land_same (s : State) (k j : Nat) (p : Pend) (hd : p.dest.plain = true) (hl : p.landed = false)
    (hn : ∀ r, p.dest ≠ .pad r) :
    rawD (land s k j p) k j p.dest =
      (blend p.mask (p.value s) (row (rawD s k j p.dest))).toNat % 2 ^ p.dest.bits := by
  unfold land
  rw [if_neg (by simp [hl])]
  dsimp only
  generalize hu : (if p.mask = 0 then s else _) = u
  have h1 : rawD u k j p.dest = (blend p.mask (p.value s) (row (rawD s k j p.dest))).toNat % 2 ^ p.dest.bits := by
    rw [← hu]
    split
    · have h := rawD_lt s k j hd
      have hb : p.dest.bits ≤ 1024 := by cases p.dest <;> simp [Dest.bits]
      have := Nat.pow_le_pow_right (n := 2) (by decide) hb
      rename_i h0
      rw [h0]
      rw [blend_zero]
      simp only [row, BitVec.toNat_ofNat]
      rw [Nat.mod_eq_of_lt (a := rawD s k j p.dest) (b := 2 ^ 1024) (by omega), Nat.mod_eq_of_lt h]
    · have hs : p.dest.sums = false := by cases h : p.dest <;> simp [h, Dest.plain] at hd <;> rfl
      have hc : s.landMeets k p.dest = false := by
        cases h : p.dest <;> first | rfl | exact absurd h (hn _)
      rw [hc, hs]
      simp only [Bool.false_eq_true, if_false]
      rw [rawD_putD_same _ _ _ _ hd]
  split <;> (try split) <;> (try simp only [rawD_tile, rawD_notePad]) <;> exact h1
theorem pad_land (s : State) (k j : Nat) (p : Pend) (hp : tcanon 0 (s.core k).pad = true) :
    tcanon 0 ((land s k j p).core k).pad = true := by
  unfold land
  split
  · exact hp
  · dsimp only
    generalize hu : (if p.mask = 0 then s else _) = u
    have h1 : tcanon 0 (u.core k).pad = true := by
      rw [← hu]; split <;> [exact hp; (split <;> exact pad_putD _ _ _ _ _ hp)]
    split <;> (try split) <;>
      simp only [State.modCtx, State.setCtx, core_setCore_same, Core.setCtx, core_notePad, h1]
theorem freeCtr_land (s : State) (k j : Nat) (p : Pend) : (land s k j p).freeCtr = s.freeCtr := by
  have hn : ∀ (t : State) (w : Nat) (m : Row), (t.notePad k w m).freeCtr = t.freeCtr := by
    intro t w m; unfold State.notePad; split <;> rfl
  have hp : ∀ (t : State) (e : Dest) (v : Nat), (putD t k j e v).freeCtr = t.freeCtr := by
    intro t e v; unfold putD; rcases e with n | ⟨⟨⟩, n⟩ | ⟨⟨⟩, n⟩ | n | n | n | n | _ | _ | n | n | n | n | n | n | n | n | _ | _ | _ | _ | _ | _ | _ | _ | n <;> dsimp only <;> (try split) <;> rfl
  unfold land
  split
  · rfl
  · dsimp only
    generalize hu : (if p.mask = 0 then s else _) = u
    have h1 : u.freeCtr = s.freeCtr := by rw [← hu]; split <;> [rfl; (split <;> exact hp ..)]
    split <;> (try split) <;> first
      | exact h1
      | exact (hn ..).trans h1

theorem rawD_lands_other (k j : Nat) {d : Dest} (hd : d.plain = true) (l : List Pend) (s : State) (h : ∀ p ∈ l, d ≠ p.dest) :
    rawD (l.foldl (fun s p => land s k j p) s) k j d = rawD s k j d := by
  induction l generalizing s with
  | nil => rfl
  | cons p r ih =>
    rw [List.foldl_cons, ih _ fun q hq => h q (List.mem_cons_of_mem _ hq), rawD_land_other _ _ _ _ hd (h p List.mem_cons_self)]
/-- The one result of a list for a register is in it after all have landed. -/
theorem rawD_lands_one (k j : Nat) (p : Pend) (hd : p.dest.plain = true) (hl : p.landed = false) (hp : ∀ r, p.dest ≠ .pad r)
    (l : List Pend) (s : State)
    (h : l.filter (fun q => q.dest == p.dest) = [p]) :
    rawD (l.foldl (fun s p => land s k j p) s) k j p.dest =
      (blend p.mask (p.value s) (row (rawD s k j p.dest))).toNat % 2 ^ p.dest.bits := by
  induction l generalizing s with
  | nil => simp at h
  | cons q r ih =>
    rw [List.foldl_cons]
    by_cases hq : q.dest = p.dest
    · rw [List.filter_cons_of_pos (by simp [hq])] at h
      obtain ⟨rfl, h⟩ := List.cons.inj h
      rw [rawD_lands_other k j hd r _ fun e he => ?_, rawD_land_same s k j q hd hl hp]
      rw [List.filter_eq_nil_iff] at h
      have := h e he
      exact fun hh => this (by simp [hh])
    · rw [List.filter_cons_of_neg (by simp [hq])] at h
      rw [ih _ h, rawD_land_other _ _ _ _ hd fun hh => hq hh.symm]
      have : p.value (land s k j q) = p.value s := by simp only [Pend.value, State.free, freeCtr_land]
      rw [this]

end Sys2Proof.Machine
end

