-- ==== Sys2Proof/Laws/Vector.lean ====
section
/-! SUPPORT. Laws of the vector operations: what a lane-wise operation decides, in terms of its lanes. -/

set_option Elab.async false

namespace Sys2Proof.Machine

theorem foldl_add (l : List LaneR) (g : LaneR → Nat) (a : Nat) : l.foldl (fun a r => a + g r) a = a + (l.map g).sum := by
  induction l generalizing a with
  | nil => simp
  | cons x r ih => simp [ih]; omega

theorem any_lanes (m : State) (h : VH) (e : Nat) (f : Nat → LaneR) (g : LaneR → Bool)
    (g0 : g ⟨0, false, false, false, 0, 0⟩ = false) :
    (lanesIn (sure m h (h.w.bits / e)) (h.w.bits / e) f).any g = m.someLane h e fun i => g (f i) := by
  unfold State.someLane lanesIn State.laneSure
  rw [List.any_map]
  congr 1; funext i
  simp only [Function.comp]
  cases (sure m h (h.w.bits / e)).getD i false <;> simp [g0]
theorem sum_lanes (m : State) (h : VH) (e : Nat) (f : Nat → LaneR) (g : LaneR → Nat)
    (g0 : g ⟨0, false, false, false, 0, 0⟩ = 0) :
    (lanesIn (sure m h (h.w.bits / e)) (h.w.bits / e) f).foldl (fun a r => a + g r) 0 = m.overLanes h e fun i => g (f i) := by
  rw [foldl_add, Nat.zero_add]
  unfold State.overLanes lanesIn State.laneSure
  rw [List.map_map]
  congr 2; funext i
  simp only [Function.comp]
  cases (sure m h (h.w.bits / e)).getD i false <;> simp [g0]

/-- A lane-wise operation, by its active lanes (R145, R148). -/
theorem vLanes_eq (m : State) (h : VH) (d : BitVec 9) (e lat : Nat) (f : Nat → LaneR) : vLanes m h d e lat f =
    let inv := m.someLane h e fun i => (f i).inv
    let dbz := m.someLane h e fun i => (f i).dbz
    let ovf := m.someLane h e fun i => (f i).ovf
    if fpEnabled m.fmtW inv dbz ovf then
      Out.mkTrap 7 (vSlot h.f) (b2n inv + 2 * b2n dbz + 4 * b2n ovf + 2 ^ 8 * lowest ((List.range (h.w.bits / e)).map fun i =>
        m.laneSure h e i && fpEnabled m.fmtW (f i).inv (f i).dbz (f i).ovf))
    else
      { wrs := lanesWr m h d e lat (fun i => (f i).v) :: fpSticky inv ovf lat ++
          countWr .satcAdd (m.overLanes h e fun i => (f i).sat) lat ++ countWr .rsvcAdd (m.overLanes h e fun i => (f i).rsv) lat } := by
  have h1 := any_lanes m h e f (·.inv) rfl
  have h2 := any_lanes m h e f (·.dbz) rfl
  have h3 := any_lanes m h e f (·.ovf) rfl
  have h4 := sum_lanes m h e f (·.sat) rfl
  have h5 := sum_lanes m h e f (·.rsv) rfl
  have h6 : (lanesIn (sure m h (h.w.bits / e)) (h.w.bits / e) f).map
      (fun r => fpEnabled m.fmtW r.inv r.dbz r.ovf) = (List.range (h.w.bits / e)).map fun i =>
        m.laneSure h e i && fpEnabled m.fmtW (f i).inv (f i).dbz (f i).ovf := by
    unfold lanesIn State.laneSure
    rw [List.map_map]; congr 1; funext i
    simp only [Function.comp]
    cases (sure m h (h.w.bits / e)).getD i false <;> simp [fpEnabled]
  have h7 : (lanesIn (active m h (h.w.bits / e)) (h.w.bits / e) f).map (·.v) =
      (List.range (h.w.bits / e)).map fun i => if (active m h (h.w.bits / e)).getD i false then (f i).v else 0 := by
    unfold lanesIn
    rw [List.map_map]; congr 1; funext i
    simp only [Function.comp]
    cases (active m h (h.w.bits / e)).getD i false <;> simp
  unfold vLanes lanesWr
  dsimp only
  rw [h1, h2, h3, h4, h5, h6, h7]

theorem countWr_zero (d : Dest) (lat : Nat) : countWr d 0 lat = [] := rfl
theorem fpSticky_none (lat : Nat) : fpSticky false false lat = [] := rfl
theorem fpEnabled_none (w : Nat) : fpEnabled w false false false = false := by simp [fpEnabled]
theorem someLane_none (m : State) (h : VH) (e : Nat) : (m.someLane h e fun _ => false) = false := by
  simp [State.someLane]
theorem overLanes_none (m : State) (h : VH) (e : Nat) : (m.overLanes h e fun _ => 0) = 0 := by
  unfold State.overLanes
  simp

/-- A lane-wise operation whose lanes raise nothing and count nothing. -/
theorem vLanes_plain (m : State) (h : VH) (d : BitVec 9) (e lat : Nat) (f : Nat → Nat) :
    vLanes m h d e lat (fun i => ⟨f i, false, false, false, 0, 0⟩) = { wrs := [lanesWr m h d e lat f] } := by
  rw [vLanes_eq]
  simp only [someLane_none, overLanes_none, fpEnabled_none, fpSticky_none, countWr_zero]
  rfl

theorem lowest_map (n l : Nat) (p : Nat → Bool) (hl : l < n) (h1 : p l = true) (h2 : ∀ i, i < l → p i = false) :
    lowest ((List.range n).map p) = l := by
  unfold lowest
  have hf : ∀ i, i < n → ((List.range n).map p).getD i false = p i := by
    intro i hi
    simp [List.getD, hi]
  have : (List.range ((List.range n).map p).length).find? (fun i => ((List.range n).map p).getD i false) = some l := by
    rw [List.length_map, List.length_range, List.find?_range_eq_some]
    refine ⟨by rw [hf l hl]; exact h1, by simpa using hl, fun j hj => ?_⟩
    rw [hf j (by omega), h2 j hj]; rfl
  rw [this]; rfl

end Sys2Proof.Machine
end

