-- ==== Sys2Proof/Tests/Slice0.lean ====
section
/-! SUPPORT. Tests: per slot a word for every encodable instruction, written out from the encoding tables; a state in which
each may issue; a state that meets the premises of each statement; ill-formed terms; worked examples of the spec; single
steps. -/

namespace Sys2Proof.Tests
open Sys2Proof.Machine
set_option Elab.async false
/-- Every listed field, given by (low bit, value) pairs, decodes in the slot to its instruction and argument list with
nothing excluded and nothing reserved. -/
def reads (sl : Slot) (l : List (Instr × List Nat × List (Nat × Nat))) : Bool :=
  l.all fun e =>
    let x := decSlot sl (e.2.2.foldl (fun n f => n + f.2 * 2 ^ f.1) 0)
    decide (x = { ins := some e.1, arg := e.2.1, priv := x.priv })

/-- The primary context of core 0 of the machine after reset, with a program loaded. -/
def ready : State := State.reset.withFetchWord 512 0

/-- Every listed operation may issue there by itself. -/
def issues (sl : Slot) (l : List (Instr × List Nat × List (Nat × Nat))) : Bool :=
  l.all fun e => ({ ready with arg := e.2.1 } : State).mayIssue sl e.1

/-- CT: opcode at bit 42 (Tables 02-3, 02-11, 04-5, 16-3, 18-9). -/
def ctWords : List (Instr × List Nat × List (Nat × Nat)) := [
  (.br 0x89ABCDEF, [], [(42, 0x1), (0, 0x89ABCDEF)]), (.brc 0x1234 false, [], [(42, 0x2), (0, 0x1234)]),
  (.brc 0x1234 true, [], [(42, 0x2), (0, 0x1234), (32, 1)]),
  (.jmp 0x80000000 5, [], [(42, 0x3), (0, 0x80000000), (32, 5)]),
  (.call 0xFFFFFFFF, [], [(42, 0x4), (0, 0xFFFFFFFF)]), (.ret, [], [(42, 0x5)]),
  (.loop 513 2 7 (.imm 0xBEEF), [], [(42, 0x6), (0, 513), (10, 2), (13, 7), (17, 0xBEEF)]),
  (.loop 1 6 3 (.lc 5), [], [(42, 0x6), (0, 1), (10, 6), (13, 3), (16, 1), (17, 5)]),
  (.lpCnt 0xABCD 4 true, [], [(42, 0x7), (0, 0xABCD), (16, 4), (19, 1)]),
  (.lpIdx 0xFEDCBA98 6, [], [(42, 0x8), (0, 0xFEDCBA98), (32, 6)]),
  (.lpStr 0x8001 0x4002 3, [], [(42, 0x9), (0, 0x8001), (16, 0x4002), (32, 3)]),
  (.kpSet 0x8003 true, [], [(42, 0xa), (0, 0x8003), (16, 1)]), (.kpClr 0x7001 false, [], [(42, 0xb), (0, 0x7001)]),
  (.yield 0x54321, [], [(42, 0xc), (0, 0x54321)]), (.halt, [], [(42, 0xd)]),
  (.fmtLo 0x10BB, [], [(42, 0xe), (0, 0x10BB)]), (.fmtHi 0x1FFF0000, [], [(42, 0xe), (0, 0x1FFF0000), (32, 1)]),
  (.rwp true false, [], [(42, 0xf), (0, 1)]), (.rwp false true, [], [(42, 0xf), (1, 1)]),
  (.pri 37, [], [(42, 0x10), (0, 37)]), (.cqPush 9 true, [], [(42, 0x11), (0, 9), (4, 1)]),
  (.cqFlush, [], [(42, 0x12)]), (.cqDepth 33, [], [(42, 0x13), (0, 33)]), (.wdog, [], [(42, 0x14)]),
  (.fork 0x120 1, [], [(42, 0x18), (0, 0x120), (32, 1)]), (.sync 41, [], [(42, 0x19), (0, 41)]),
  (.sleep, [], [(42, 0x1a)]), (.wake 0x90000001 5 2, [], [(42, 0x1b), (0, 0x90000001), (32, 5), (35, 2)]),
  (.hintNext, [], [(42, 0x1c)]), (.waitPred, [], [(42, 0x1d)]), (.spawnStat, [43], [(42, 0x1e), (0, 43)]),
  (.rwLd 50, [], [(42, 0x20), (0, 50)]), (.rwEn, [], [(42, 0x21)]), (.rwDis, [], [(42, 0x22)]),
  (.rwInv 44, [], [(42, 0x23), (0, 44)]), (.rwInvAll, [], [(42, 0x23), (6, 1)]),
  (.trap 0xC001, [], [(42, 0x30), (0, 0xC001)]), (.rfe none, [], [(42, 0x31)]),
  (.rfe (some 52), [], [(42, 0x31), (0, 1), (1, 52)]), (.sys 0xC002, [], [(42, 0x32), (0, 0xC002)]),
  (.kill 53, [], [(42, 0x33), (0, 53)]), (.tlbInvAll true, [], [(42, 0x34), (12, 1)]),
  (.tlbInvFn 8 false, [], [(42, 0x34), (0, 1), (2, 8)]),
  (.tlbInvPg 54 7 true, [], [(42, 0x34), (0, 2), (2, 7), (6, 54), (12, 1)]),
  (.pgret 33 44, [], [(42, 0x35), (0, 33), (6, 44)]), (.wayq 35 46, [], [(42, 0x36), (0, 35), (6, 46), (12, 1)]),
  (.wayqRel 35 46, [], [(42, 0x36), (0, 35), (6, 46)]), (.hold 55, [], [(42, 0x37), (0, 55), (6, 1)]),
  (.holdRel 55, [], [(42, 0x37), (0, 55)])]

/-- SC integer operations: type in the two low opcode bits, I at bit 22 (Tables 02-5, 02-12, R45, R46). -/
def scIntegerWords : List (Instr × List Nat × List (Nat × Nat)) := [
  (.scAdd .i64 33 44 (.reg 55), [], [(40, 0x4), (29, 33), (23, 44), (16, 55)]),
  (.scAdd .i32 1 2 (.imm 0x212345), [], [(40, 0x6), (29, 1), (23, 2), (22, 1), (0, 0x212345)]),
  (.scSub .n64 33 44 (.reg 55), [], [(40, 0x9), (29, 33), (23, 44), (16, 55)]),
  (.scSub .n32 1 2 (.imm 0x212345), [], [(40, 0xb), (29, 1), (23, 2), (22, 1), (0, 0x212345)]),
  (.scMul .i32 33 44 (.reg 55), [], [(40, 0xe), (29, 33), (23, 44), (16, 55)]),
  (.scMul .i64 1 2 (.imm 0x212345), [], [(40, 0xc), (29, 1), (23, 2), (22, 1), (0, 0x212345)]),
  (.scMulh .n32 33 44 (.reg 55), [], [(40, 0x13), (29, 33), (23, 44), (16, 55)]),
  (.scMulh .n64 1 2 (.imm 0x212345), [], [(40, 0x11), (29, 1), (23, 2), (22, 1), (0, 0x212345)]),
  (.scDiv .i64 33 44 (.reg 55), [], [(40, 0x14), (29, 33), (23, 44), (16, 55)]),
  (.scDiv .i32 1 2 (.imm 0x212345), [], [(40, 0x16), (29, 1), (23, 2), (22, 1), (0, 0x212345)]),
  (.scRem .n64 33 44 (.reg 55), [], [(40, 0x19), (29, 33), (23, 44), (16, 55)]),
  (.scRem .n32 1 2 (.imm 0x212345), [], [(40, 0x1b), (29, 1), (23, 2), (22, 1), (0, 0x212345)]),
  (.scAnd .i32 33 44 (.reg 55), [], [(40, 0x1e), (29, 33), (23, 44), (16, 55)]),
  (.scAnd .i64 1 2 (.imm 0x212345), [], [(40, 0x1c), (29, 1), (23, 2), (22, 1), (0, 0x212345)]),
  (.scOr .n32 33 44 (.reg 55), [], [(40, 0x23), (29, 33), (23, 44), (16, 55)]),
  (.scOr .n64 1 2 (.imm 0x212345), [], [(40, 0x21), (29, 1), (23, 2), (22, 1), (0, 0x212345)]),
  (.scXor .i64 33 44 (.reg 55), [], [(40, 0x24), (29, 33), (23, 44), (16, 55)]),
  (.scXor .i32 1 2 (.imm 0x212345), [], [(40, 0x26), (29, 1), (23, 2), (22, 1), (0, 0x212345)]),
  (.scShl .n64 33 44 (.reg 55), [], [(40, 0x2d), (29, 33), (23, 44), (16, 55)]),
  (.scShl .n32 1 2 (.imm 0x212345), [], [(40, 0x2f), (29, 1), (23, 2), (22, 1), (0, 0x212345)]),
  (.scShr .i32 33 44 (.reg 55), [], [(40, 0x32), (29, 33), (23, 44), (16, 55)]),
  (.scShr .i64 1 2 (.imm 0x212345), [], [(40, 0x30), (29, 1), (23, 2), (22, 1), (0, 0x212345)]),
  (.scSar .n32 33 44 (.reg 55), [], [(40, 0x37), (29, 33), (23, 44), (16, 55)]),
  (.scSar .n64 1 2 (.imm 0x212345), [], [(40, 0x35), (29, 1), (23, 2), (22, 1), (0, 0x212345)]),
  (.scRot .i64 33 44 (.reg 55), [], [(40, 0x38), (29, 33), (23, 44), (16, 55)]),
  (.scRot .i32 1 2 (.imm 0x212345), [], [(40, 0x3a), (29, 1), (23, 2), (22, 1), (0, 0x212345)]),
  (.scMin .n64 33 44 (.reg 55), [], [(40, 0x3d), (29, 33), (23, 44), (16, 55)]),
  (.scMin .n32 1 2 (.imm 0x212345), [], [(40, 0x3f), (29, 1), (23, 2), (22, 1), (0, 0x212345)]),
  (.scMax .i32 33 44 (.reg 55), [], [(40, 0x42), (29, 33), (23, 44), (16, 55)]),
  (.scMax .i64 1 2 (.imm 0x212345), [], [(40, 0x40), (29, 1), (23, 2), (22, 1), (0, 0x212345)]),
  (.scLop3 .n64 33 44 55 56 0xCA, [], [(40, 0x29), (29, 33), (23, 44), (16, 55), (10, 56), (0, 0xCA)]),
  (.scClz .i32 33 44, [], [(40, 0x46), (29, 33), (23, 44)]),
  (.scPopc .n32 33 44, [], [(40, 0x4b), (29, 33), (23, 44)]),
  (.scSel .i64 33 44 55 9 true, [], [(40, 0x4c), (29, 33), (23, 44), (16, 55), (0, 9), (4, 1)]),
  (.scCmpEq .i64 (.pred 11) 44 (.reg 55), [], [(40, 0x50), (29, 11), (23, 44), (16, 55)]),
  (.scCmpEq .n32 .cq 44 (.imm 7), [], [(40, 0x53), (29, 32), (23, 44), (22, 1), (0, 7)]),
  (.scCmpNe .n64 (.pred 11) 44 (.reg 55), [], [(40, 0x55), (29, 11), (23, 44), (16, 55)]),
  (.scCmpNe .i32 .cq 44 (.imm 7), [], [(40, 0x56), (29, 32), (23, 44), (22, 1), (0, 7)]),
  (.scCmpLt .i32 (.pred 11) 44 (.reg 55), [], [(40, 0x5a), (29, 11), (23, 44), (16, 55)]),
  (.scCmpLt .n64 .cq 44 (.imm 7), [], [(40, 0x59), (29, 32), (23, 44), (22, 1), (0, 7)]),
  (.scCmpLe .n32 (.pred 11) 44 (.reg 55), [], [(40, 0x5f), (29, 11), (23, 44), (16, 55)]),
  (.scCmpLe .i64 .cq 44 (.imm 7), [], [(40, 0x5c), (29, 32), (23, 44), (22, 1), (0, 7)]),
  (.scCmpGt .i64 (.pred 11) 44 (.reg 55), [], [(40, 0x60), (29, 11), (23, 44), (16, 55)]),
  (.scCmpGt .n32 .cq 44 (.imm 7), [], [(40, 0x63), (29, 32), (23, 44), (22, 1), (0, 7)]),
  (.scCmpGe .n64 (.pred 11) 44 (.reg 55), [], [(40, 0x65), (29, 11), (23, 44), (16, 55)]),
  (.scCmpGe .i32 .cq 44 (.imm 7), [], [(40, 0x66), (29, 32), (23, 44), (22, 1), (0, 7)])]

/-- The other SC operations (Tables 02-12, 05-2, 05-3, 05-4). -/
def scOtherWords : List (Instr × List Nat × List (Nat × Nat)) := [
  (.li 33 0x3ABCDE, [], [(40, 0x68), (29, 33), (22, 1), (0, 0x3ABCDE)]),
  (.liHi 33 44 0x155555, [], [(40, 0x69), (29, 33), (23, 44), (22, 1), (0, 0x155555)]),
  (.liWide 33 5, [], [(40, 0x6a), (29, 33), (22, 1), (0, 5)]),
  (.adds 33 44 55 6, [], [(40, 0x6b), (29, 33), (23, 44), (16, 55), (0, 6)]),
  (.fadd 1 33 44 55, [], [(40, 0x70), (29, 33), (23, 44), (16, 55), (7, 1)]),
  (.fmul 4 33 44 55, [], [(40, 0x71), (29, 33), (23, 44), (16, 55), (7, 4)]),
  (.scFma 2 33 44 55 56, [], [(40, 0x72), (29, 33), (23, 44), (16, 55), (10, 56), (7, 2)]),
  (.fcmp 6 3 (.pred 12) 44 55, [], [(40, 0x73), (29, 12), (23, 44), (16, 55), (0, 6), (7, 3)]),
  (.fcmp 1 0 .cq 44 55, [], [(40, 0x73), (29, 32), (23, 44), (16, 55), (0, 1)]),
  (.scCvt 10 4 1 33 44, [], [(40, 0x74), (29, 33), (23, 44), (16, 10), (10, 4), (7, 1)]),
  (.scMov (.vec .va 0x1A5 13 false) 44, [], [(40, 0x78), (29, 0x25), (10, 6), (23, 44), (16, 13), (0, 1)]),
  (.scMov (.vec .vb 0x7F 0 true) 44, [], [(40, 0x78), (29, 0x3F), (10, 1), (23, 44), (4, 1), (0, 2)]),
  (.scMov (.pred 13) 44, [], [(40, 0x78), (29, 13), (23, 44), (0, 3)]),
  (.scMov (.lc 3 true) 44, [], [(40, 0x78), (29, 3), (23, 44), (5, 1), (0, 4)]),
  (.scMov (.lx 4) 44, [], [(40, 0x78), (29, 4), (23, 44), (0, 5)]),
  (.scMov (.kp true) 44, [], [(40, 0x78), (23, 44), (5, 1), (0, 6)]),
  (.scMov (.la 29) 44, [], [(40, 0x78), (29, 29), (23, 44), (0, 7)]),
  (.scMov (.sa 28) 44, [], [(40, 0x78), (29, 28), (23, 44), (0, 8)]),
  (.scMov (.c 27) 44, [], [(40, 0x78), (29, 27), (23, 44), (0, 9)]),
  (.scMov (.x 14) 44, [], [(40, 0x78), (29, 14), (23, 44), (0, 10)]),
  (.scSpl 44 0x2AB, [], [(40, 0x79), (23, 44), (22, 1), (0, 0x2AB)]),
  (.scFil 33 0x2AB, [], [(40, 0x7a), (29, 33), (22, 1), (0, 0x2AB)]),
  (.rdc 33 0x21, [], [(40, 0x7b), (29, 33), (0, 0x21)]), (.wrc 2 44, [], [(40, 0x7c), (23, 44), (0, 2)]),
  (.errRdTrap 33 44, [], [(40, 0x7d), (29, 33), (23, 44)]),
  (.errRdLog 33 44, [], [(40, 0x7d), (29, 33), (23, 44), (0, 1)]),
  (.ctxStat 33 44, [], [(40, 0x7e), (29, 33), (23, 44)])]

/-- VB, 512 bits, mask 3 (Tables 02-6, 02-13, 06-1, R48, R166). -/
def vectorWords : List (Instr × List Nat × List (Nat × Nat)) := [
  (.vAdd ⟨.vb, .w512, 3⟩ 2 0x155 0xCC 0x1F1 0 true, [], [(56, 0x1), (54, 1), (50, 2), (41, 3), (32, 0x155), (23, 0xcc), (14, 0x1f1), (0, 8)]),
  (.vSub ⟨.vb, .w512, 3⟩ 9 0x155 0xCC 0x1F1 4 false, [], [(56, 0x2), (54, 1), (50, 9), (41, 3), (32, 0x155), (23, 0xcc), (14, 0x1f1), (0, 4)]),
  (.vMul ⟨.vb, .w512, 3⟩ 7 0x155 0xCC 0x1F1 0 false, [], [(56, 0x3), (54, 1), (50, 7), (41, 3), (32, 0x155), (23, 0xcc), (14, 0x1f1), (0, 0)]),
  (.vMulh ⟨.vb, .w512, 3⟩ 6 0x155 0xCC 0x1F1, [], [(56, 0x4), (54, 1), (50, 6), (41, 3), (32, 0x155), (23, 0xcc), (14, 0x1f1)]),
  (.vFma ⟨.vb, .w512, 3⟩ 10 0x155 0xCC 0x1F1 0xA7 2, [], [(56, 0x5), (54, 1), (50, 10), (41, 3), (32, 0x155), (23, 0xcc), (14, 0x1f1), (5, 0xa7), (0, 2)]),
  (.vFms ⟨.vb, .w512, 3⟩ 8 0x155 0xCC 0x1F1 0xA7 1, [], [(56, 0x6), (54, 1), (50, 8), (41, 3), (32, 0x155), (23, 0xcc), (14, 0x1f1), (5, 0xa7), (0, 1)]),
  (.vFnma ⟨.vb, .w512, 3⟩ 9 0x155 0xCC 0x1F1 0xA7 3, [], [(56, 0x7), (54, 1), (50, 9), (41, 3), (32, 0x155), (23, 0xcc), (14, 0x1f1), (5, 0xa7), (0, 3)]),
  (.vMin ⟨.vb, .w512, 3⟩ 0 0x155 0xCC 0x1F1 0, [], [(56, 0x8), (54, 1), (50, 0), (41, 3), (32, 0x155), (23, 0xcc), (14, 0x1f1), (0, 0)]),
  (.vMax ⟨.vb, .w512, 3⟩ 10 0x155 0xCC 0x1F1 1, [], [(56, 0x9), (54, 1), (50, 10), (41, 3), (32, 0x155), (23, 0xcc), (14, 0x1f1), (0, 1)]),
  (.vAbs ⟨.vb, .w512, 3⟩ 3 0x155 0xCC 0, [], [(56, 0xa), (54, 1), (50, 3), (41, 3), (32, 0x155), (23, 0xcc), (0, 0)]),
  (.vNeg ⟨.vb, .w512, 3⟩ 8 0x155 0xCC 2, [], [(56, 0xb), (54, 1), (50, 8), (41, 3), (32, 0x155), (23, 0xcc), (0, 2)]),
  (.vRcp ⟨.vb, .w512, 3⟩ 10 0x155 0xCC 1, [], [(56, 0x10), (54, 1), (50, 10), (41, 3), (32, 0x155), (23, 0xcc), (0, 1)]),
  (.vRsq ⟨.vb, .w512, 3⟩ 8 0x155 0xCC 0, [], [(56, 0x11), (54, 1), (50, 8), (41, 3), (32, 0x155), (23, 0xcc), (0, 0)]),
  (.vExp2 ⟨.vb, .w512, 3⟩ 9 0x155 0xCC 2, [], [(56, 0x12), (54, 1), (50, 9), (41, 3), (32, 0x155), (23, 0xcc), (0, 2)]),
  (.vLog2 ⟨.vb, .w512, 3⟩ 10 0x155 0xCC 3, [], [(56, 0x13), (54, 1), (50, 10), (41, 3), (32, 0x155), (23, 0xcc), (0, 3)]),
  (.vTanh ⟨.vb, .w512, 3⟩ 8 0x155 0xCC 4, [], [(56, 0x14), (54, 1), (50, 8), (41, 3), (32, 0x155), (23, 0xcc), (0, 4)]),
  (.vSilu ⟨.vb, .w512, 3⟩ 9 0x155 0xCC 0, [], [(56, 0x15), (54, 1), (50, 9), (41, 3), (32, 0x155), (23, 0xcc), (0, 0)]),
  (.vSoftplus ⟨.vb, .w512, 3⟩ 10 0x155 0xCC 1, [], [(56, 0x16), (54, 1), (50, 10), (41, 3), (32, 0x155), (23, 0xcc), (0, 1)]),
  (.vAnd ⟨.vb, .w512, 3⟩ 0 0x155 0xCC 0x1F1, [], [(56, 0x20), (54, 1), (50, 0), (41, 3), (32, 0x155), (23, 0xcc), (14, 0x1f1)]),
  (.vOr ⟨.vb, .w512, 3⟩ 5 0x155 0xCC 0x1F1, [], [(56, 0x21), (54, 1), (50, 5), (41, 3), (32, 0x155), (23, 0xcc), (14, 0x1f1)]),
  (.vXor ⟨.vb, .w512, 3⟩ 7 0x155 0xCC 0x1F1, [], [(56, 0x22), (54, 1), (50, 7), (41, 3), (32, 0x155), (23, 0xcc), (14, 0x1f1)]),
  (.vShl ⟨.vb, .w512, 3⟩ 1 0x155 0xCC 0x1F1, [], [(56, 0x24), (54, 1), (50, 1), (41, 3), (32, 0x155), (23, 0xcc), (14, 0x1f1)]),
  (.vShr ⟨.vb, .w512, 3⟩ 3 0x155 0xCC 0x1F1, [], [(56, 0x25), (54, 1), (50, 3), (41, 3), (32, 0x155), (23, 0xcc), (14, 0x1f1)]),
  (.vSar ⟨.vb, .w512, 3⟩ 2 0x155 0xCC 0x1F1, [], [(56, 0x26), (54, 1), (50, 2), (41, 3), (32, 0x155), (23, 0xcc), (14, 0x1f1)]),
  (.vLop3 ⟨.vb, .w512, 3⟩ 0x155 0xCC 0x1F1 0xA7 0xCA, [], [(56, 0x23), (54, 1), (50, 12), (41, 3), (32, 0x155), (23, 0xcc), (14, 0x1f1), (5, 0xa7), (1, 0xA)]),
  (.vCvt ⟨.vb, .w512, 3⟩ 10 11 0x155 0xCC 2 1, [], [(56, 0x27), (54, 1), (50, 10), (41, 3), (32, 0x155), (23, 0xcc), (5, 11), (9, 2), (0, 1)]),
  (.vCmpEq ⟨.vb, .w512, 3⟩ 2 3 0xCC 0x1F1 0, [], [(56, 0x30), (54, 1), (50, 2), (41, 3), (32, 3), (23, 0xcc), (14, 0x1f1), (0, 0)]),
  (.vCmpEqU ⟨.vb, .w512, 3⟩ 2 0xCC 0x1F1 0, [], [(56, 0x38), (54, 1), (50, 2), (41, 3), (23, 0xcc), (14, 0x1f1), (0, 0)]),
  (.vCmpNe ⟨.vb, .w512, 3⟩ 8 4 0xCC 0x1F1 1, [], [(56, 0x31), (54, 1), (50, 8), (41, 3), (32, 4), (23, 0xcc), (14, 0x1f1), (0, 1)]),
  (.vCmpNeU ⟨.vb, .w512, 3⟩ 8 0xCC 0x1F1 1, [], [(56, 0x39), (54, 1), (50, 8), (41, 3), (23, 0xcc), (14, 0x1f1), (0, 1)]),
  (.vCmpLt ⟨.vb, .w512, 3⟩ 5 5 0xCC 0x1F1 0, [], [(56, 0x32), (54, 1), (50, 5), (41, 3), (32, 5), (23, 0xcc), (14, 0x1f1), (0, 0)]),
  (.vCmpLtU ⟨.vb, .w512, 3⟩ 5 0xCC 0x1F1 0, [], [(56, 0x3a), (54, 1), (50, 5), (41, 3), (23, 0xcc), (14, 0x1f1), (0, 0)]),
  (.vCmpLe ⟨.vb, .w512, 3⟩ 10 6 0xCC 0x1F1 2, [], [(56, 0x33), (54, 1), (50, 10), (41, 3), (32, 6), (23, 0xcc), (14, 0x1f1), (0, 2)]),
  (.vCmpLeU ⟨.vb, .w512, 3⟩ 10 0xCC 0x1F1 2, [], [(56, 0x3b), (54, 1), (50, 10), (41, 3), (23, 0xcc), (14, 0x1f1), (0, 2)]),
  (.vCmpGt ⟨.vb, .w512, 3⟩ 6 7 0xCC 0x1F1 0, [], [(56, 0x34), (54, 1), (50, 6), (41, 3), (32, 7), (23, 0xcc), (14, 0x1f1), (0, 0)]),
  (.vCmpGtU ⟨.vb, .w512, 3⟩ 6 0xCC 0x1F1 0, [], [(56, 0x3c), (54, 1), (50, 6), (41, 3), (23, 0xcc), (14, 0x1f1), (0, 0)]),
  (.vCmpGe ⟨.vb, .w512, 3⟩ 9 8 0xCC 0x1F1 3, [], [(56, 0x35), (54, 1), (50, 9), (41, 3), (32, 8), (23, 0xcc), (14, 0x1f1), (0, 3)]),
  (.vCmpGeU ⟨.vb, .w512, 3⟩ 9 0xCC 0x1F1 3, [], [(56, 0x3d), (54, 1), (50, 9), (41, 3), (23, 0xcc), (14, 0x1f1), (0, 3)]),
  (.vCmpUn ⟨.vb, .w512, 3⟩ 10 9 0xCC 0x1F1 4, [], [(56, 0x36), (54, 1), (50, 10), (41, 3), (32, 9), (23, 0xcc), (14, 0x1f1), (0, 4)]),
  (.vCmpUnU ⟨.vb, .w512, 3⟩ 10 0xCC 0x1F1 4, [], [(56, 0x3e), (54, 1), (50, 10), (41, 3), (23, 0xcc), (14, 0x1f1), (0, 4)]),
  (.vSel ⟨.vb, .w512, 3⟩ 12 0x155 0xCC 0x1F1 9, [], [(56, 0x40), (54, 1), (50, 12), (41, 3), (32, 0x155), (23, 0xcc), (14, 0x1f1), (5, 9)]),
  (.vPerm ⟨.vb, .w512, 3⟩ 1 0x155 0xCC 0x1F1 0xA7, [], [(56, 0x41), (54, 1), (50, 1), (41, 3), (32, 0x155), (23, 0xcc), (14, 0x1f1), (5, 0xa7)]),
  (.vShuf ⟨.vb, .w512, 3⟩ 4 5 0x155 0xCC 0 15, [], [(56, 0x42), (54, 1), (50, 4), (41, 3), (32, 0x155), (23, 0xcc), (5, 15), (0, 5)]),
  (.vShuf ⟨.vb, .w512, 3⟩ 4 2 0x155 0xCC 0x1F1 0, [], [(56, 0x42), (54, 1), (50, 4), (41, 3), (32, 0x155), (23, 0xcc), (14, 0x1f1), (0, 2)]),
  (.vBcast ⟨.vb, .w512, 3⟩ 0 0x155 0xCC 63, [], [(56, 0x43), (54, 1), (50, 0), (41, 3), (32, 0x155), (23, 0xcc), (5, 63)]),
  (.vIota ⟨.vb, .w512, 3⟩ 5 0x155, [], [(56, 0x44), (54, 1), (50, 5), (41, 3), (32, 0x155)]),
  (.vAny ⟨.vb, .w512, 3⟩ 0 9, [], [(56, 0x45), (54, 1), (50, 0), (41, 3), (23, 9)]),
  (.vAll ⟨.vb, .w512, 3⟩ 4 9, [], [(56, 0x46), (54, 1), (50, 4), (41, 3), (23, 9)]),
  (.vMov ⟨.vb, .w512, 3⟩ 0x155 0xCC, [], [(56, 0x48), (54, 1), (50, 0), (41, 3), (32, 0x155), (23, 0xcc)]),
  (.vMovCross ⟨.vb, .w512, 3⟩ 0x155 0xCC, [], [(56, 0x48), (54, 1), (50, 0), (41, 3), (32, 0x155), (23, 0xcc), (0, 1)]),
  (.vMovToScalar .vb .w512 37 0xCC 7, [], [(56, 0x48), (54, 1), (50, 0), (41, 0), (32, 37), (23, 0xcc), (5, 7), (0, 2)]),
  (.vMovMask .vb 9 6, [], [(56, 0x48), (54, 2), (50, 0), (41, 0), (32, 9), (23, 6), (0, 3)]),
  (.vMovMaskCross .vb 9 6, [], [(56, 0x48), (54, 2), (50, 0), (41, 0), (32, 9), (23, 6), (0, 4)]),
  (.movIxGet ⟨.vb, .w512, 3⟩ 0x155 45, [], [(56, 0x49), (54, 1), (50, 0), (41, 3), (32, 0x155), (14, 45)]),
  (.movIxPut ⟨.vb, .w512, 3⟩ 0xCC 45, [], [(56, 0x49), (54, 1), (50, 0), (41, 3), (23, 0xcc), (14, 45), (0, 1)]),
  (.vSpl .vb .w512 0xCC 45, [], [(56, 0x4a), (54, 1), (50, 0), (41, 0), (23, 0xcc), (5, 45)]),
  (.vFil ⟨.vb, .w512, 3⟩ 0x155 45, [], [(56, 0x4b), (54, 1), (50, 0), (41, 3), (32, 0x155), (5, 45)])]

/-- LD (Tables 02-9, 07-4). -/
def ldWords : List (Instr × List Nat × List (Nat × Nat)) := [
  (.ldRow ⟨.vb, 0x155⟩ ⟨21, 0xC5432⟩, [], [(42, 0x1), (35, 1), (26, 0x155), (21, 21), (0, 0xC5432)]),
  (.ldRowChk ⟨.vb, 0x155⟩ ⟨21, 0xC5432⟩, [], [(42, 0x2), (35, 1), (26, 0x155), (21, 21), (0, 0xC5432)]),
  (.ldS 45 ⟨21, 0xC5432⟩, [], [(42, 0x3), (35, 2), (26, 45), (21, 21), (0, 0xC5432)]),
  (.ldH ⟨.vb, 0x155⟩ ⟨21, 0xC5432⟩, [], [(42, 0x4), (35, 1), (26, 0x155), (20, 1), (21, 21), (0, 0xC5432)]),
  (.ldHChk ⟨.vb, 0x155⟩ ⟨21, 0xC5432⟩, [], [(42, 0x5), (35, 1), (26, 0x155), (20, 1), (21, 21), (0, 0xC5432)]),
  (.ldg 27 13 ⟨21, 0xC5432⟩, [], [(42, 0x6), (26, 27), (31, 13), (21, 21), (0, 0xC5432)]),
  (.ldPr ⟨.vb, 0x155⟩ ⟨21, 0xC5432⟩, [], [(42, 0x7), (35, 1), (26, 0x155), (21, 21), (0, 0xC5432)]),
  (.ldSb ⟨.vb, 0x155⟩ ⟨21, 0xC5432⟩, [], [(42, 0x8), (35, 1), (26, 0x155), (21, 21), (0, 0xC5432)]),
  (.ldIdx ⟨.vb, 0x155⟩ 21 19 0x5432, [], [(42, 0x9), (35, 1), (26, 0x155), (21, 21), (15, 19), (0, 0x5432)]),
  (.ldBc ⟨.vb, 0x155⟩ ⟨21, 0xC5432⟩, [], [(42, 0xa), (35, 1), (26, 0x155), (21, 21), (0, 0xC5432)]),
  (.ldZ ⟨.vb, 0x155⟩ ⟨21, 0xC5432⟩, [], [(42, 0xb), (35, 1), (26, 0x155), (21, 21), (0, 0xC5432)]),
  (.ldAcq 0 (.v ⟨.vb, 0x155⟩) ⟨21, 0xC5432⟩, [], [(42, 0x10), (35, 1), (26, 0x155), (21, 21), (0, 0xC5432)]),
  (.ldAcq 1 (.s 45) ⟨21, 0xC5432⟩, [], [(42, 0x11), (35, 2), (26, 45), (21, 21), (0, 0xC5432)]),
  (.ldAcq 2 (.v ⟨.vb, 0x155⟩) ⟨21, 0xC5432⟩, [], [(42, 0x12), (35, 1), (26, 0x155), (21, 21), (0, 0xC5432)]),
  (.ldAcq 3 (.s 45) ⟨21, 0xC5432⟩, [], [(42, 0x13), (35, 2), (26, 45), (21, 21), (0, 0xC5432)]),
  (.ldAcq 4 (.v ⟨.vb, 0x155⟩) ⟨21, 0xC5432⟩, [], [(42, 0x14), (35, 1), (26, 0x155), (21, 21), (0, 0xC5432)]),
  (.ldAcq 5 (.s 45) ⟨21, 0xC5432⟩, [], [(42, 0x15), (35, 2), (26, 45), (21, 21), (0, 0xC5432)])]

/-- ST and the atomics: opcode 0x20 + 0x10 G + 2k + W (Tables 02-9, 07-5, R51). -/
def stWords : List (Instr × List Nat × List (Nat × Nat)) := [
  (.stRow ⟨.vb, 0x155⟩ ⟨21, 0xC5432⟩, [], [(42, 0x1), (35, 1), (26, 0x155), (21, 21), (0, 0xC5432)]),
  (.stS 45 ⟨21, 0xC5432⟩, [], [(42, 0x2), (35, 2), (26, 45), (21, 21), (0, 0xC5432)]),
  (.stH ⟨.vb, 0x155⟩ ⟨21, 0xC5432⟩, [], [(42, 0x3), (35, 1), (26, 0x155), (20, 1), (21, 21), (0, 0xC5432)]),
  (.stg (.v ⟨.vb, 0x155⟩) ⟨21, 0xC5432⟩, [], [(42, 0x4), (35, 1), (26, 0x155), (21, 21), (0, 0xC5432)]),
  (.stg (.s 45) ⟨21, 0xC5432⟩, [], [(42, 0x4), (35, 2), (26, 45), (21, 21), (0, 0xC5432)]),
  (.stNt (.v ⟨.vb, 0x155⟩) ⟨21, 0xC5432⟩, [], [(42, 0x5), (35, 1), (26, 0x155), (21, 21), (0, 0xC5432)]),
  (.stPr ⟨.vb, 0x155⟩ ⟨21, 0xC5432⟩, [], [(42, 0x6), (35, 1), (26, 0x155), (21, 21), (0, 0xC5432)]),
  (.stSb ⟨.vb, 0x155⟩ ⟨21, 0xC5432⟩, [], [(42, 0x7), (35, 1), (26, 0x155), (21, 21), (0, 0xC5432)]),
  (.stRel 0 (.v ⟨.vb, 0x155⟩) ⟨21, 0xC5432⟩, [], [(42, 0x10), (35, 1), (26, 0x155), (21, 21), (0, 0xC5432)]),
  (.stRel 1 (.s 45) ⟨21, 0xC5432⟩, [], [(42, 0x11), (35, 2), (26, 45), (21, 21), (0, 0xC5432)]),
  (.stRel 2 (.v ⟨.vb, 0x155⟩) ⟨21, 0xC5432⟩, [], [(42, 0x12), (35, 1), (26, 0x155), (21, 21), (0, 0xC5432)]),
  (.stRel 3 (.s 45) ⟨21, 0xC5432⟩, [], [(42, 0x13), (35, 2), (26, 45), (21, 21), (0, 0xC5432)]),
  (.stRel 4 (.v ⟨.vb, 0x155⟩) ⟨21, 0xC5432⟩, [], [(42, 0x14), (35, 1), (26, 0x155), (21, 21), (0, 0xC5432)]),
  (.stRel 5 (.s 45) ⟨21, 0xC5432⟩, [], [(42, 0x15), (35, 2), (26, 45), (21, 21), (0, 0xC5432)]),
  (.aadd false true 45 ⟨21, 0xC5432⟩, [], [(42, 0x21), (35, 2), (26, 45), (21, 21), (0, 0xC5432)]),
  (.aadd true false 45 ⟨21, 0xC5432⟩, [], [(42, 0x30), (35, 2), (26, 45), (21, 21), (0, 0xC5432)]),
  (.amin false true 45 ⟨21, 0xC5432⟩, [], [(42, 0x23), (35, 2), (26, 45), (21, 21), (0, 0xC5432)]),
  (.amin true false 45 ⟨21, 0xC5432⟩, [], [(42, 0x32), (35, 2), (26, 45), (21, 21), (0, 0xC5432)]),
  (.amax false true 45 ⟨21, 0xC5432⟩, [], [(42, 0x25), (35, 2), (26, 45), (21, 21), (0, 0xC5432)]),
  (.amax true false 45 ⟨21, 0xC5432⟩, [], [(42, 0x34), (35, 2), (26, 45), (21, 21), (0, 0xC5432)]),
  (.axch false true 45 ⟨21, 0xC5432⟩, [], [(42, 0x27), (35, 2), (26, 45), (21, 21), (0, 0xC5432)]),
  (.axch true false 45 ⟨21, 0xC5432⟩, [], [(42, 0x36), (35, 2), (26, 45), (21, 21), (0, 0xC5432)]),
  (.acas false true 45 ⟨21, 0xC5432⟩, [], [(42, 0x29), (35, 2), (26, 45), (21, 21), (0, 0xC5432)]),
  (.acas true false 45 ⟨21, 0xC5432⟩, [], [(42, 0x38), (35, 2), (26, 45), (21, 21), (0, 0xC5432)]),
  (.aand false true 45 ⟨21, 0xC5432⟩, [], [(42, 0x2b), (35, 2), (26, 45), (21, 21), (0, 0xC5432)]),
  (.aand true false 45 ⟨21, 0xC5432⟩, [], [(42, 0x3a), (35, 2), (26, 45), (21, 21), (0, 0xC5432)]),
  (.aor false true 45 ⟨21, 0xC5432⟩, [], [(42, 0x2d), (35, 2), (26, 45), (21, 21), (0, 0xC5432)]),
  (.aor true false 45 ⟨21, 0xC5432⟩, [], [(42, 0x3c), (35, 2), (26, 45), (21, 21), (0, 0xC5432)]),
  (.axor false true 45 ⟨21, 0xC5432⟩, [], [(42, 0x2f), (35, 2), (26, 45), (21, 21), (0, 0xC5432)]),
  (.axor true false 45 ⟨21, 0xC5432⟩, [], [(42, 0x3e), (35, 2), (26, 45), (21, 21), (0, 0xC5432)])]

/-- SY (Table 08-2). -/
def syWords : List (Instr × List Nat × List (Nat × Nat)) := [
  (.nbInit 47 0x3A5, [], [(26, 0x1), (0, 47), (6, 0x3A5)]), (.nbExp 46 53, [], [(26, 0x2), (0, 46), (6, 53)]),
  (.nbArr 45 (some 2), [], [(26, 0x3), (0, 45), (6, 2), (8, 1)]), (.nbArr 45 none, [], [(26, 0x3), (0, 45)]),
  (.nbWait 44 true, [], [(26, 0x4), (0, 44), (6, 1)]),
  (.nbStat 53 43 true, [], [(26, 0x5), (0, 43), (6, 53), (12, 1)]),
  (.tlWait 5 true 53, [], [(26, 0x6), (0, 5), (3, 1), (4, 53)]),
  (.tlWait 2 false 29, [], [(26, 0x6), (0, 2), (4, 29)]), (.tlRead 53 4 2, [], [(26, 0x7), (0, 4), (3, 53), (9, 2)]),
  (.invL1 (some (45, 0x2345)), [], [(26, 0x8), (0, 1), (1, 45), (7, 0x2345)]), (.invL1 none, [], [(26, 0x8)]),
  (.wbL1 (some (45, 0x2345)), [], [(26, 0x9), (0, 1), (1, 45), (7, 0x2345)]), (.wbL1 none, [], [(26, 0x9)]),
  (.hBind 29 45, [], [(26, 0xa), (0, 29), (5, 45)]), (.hAdvc 29 8192, [], [(26, 0xb), (0, 29), (5, 8192)]),
  (.hAdvp 28 1, [], [(26, 0xc), (0, 28), (5, 1)]), (.hStat 45 29 true, [], [(26, 0xd), (0, 29), (5, 45), (11, 1)]),
  (.drain 0, [], [(26, 0x10)]), (.fence 0, [], [(26, 0x18)]), (.drain 1, [], [(26, 0x11)]),
  (.fence 1, [], [(26, 0x19)]), (.drain 2, [], [(26, 0x12)]), (.fence 2, [], [(26, 0x1a)]),
  (.drain 3, [], [(26, 0x13)]), (.fence 3, [], [(26, 0x1b)]), (.drain 4, [], [(26, 0x14)]),
  (.fence 4, [], [(26, 0x1c)]), (.drain 5, [], [(26, 0x15)]), (.fence 5, [], [(26, 0x1d)])]

/-- XF (Table 09-2). -/
def xfWords : List (Instr × List Nat × List (Nat × Nat)) := [
  (.xfCvt 10 11 13 6 3 true, [], [(26, 0x1), (0, 13), (4, 6), (8, 11), (12, 10), (16, 3), (20, 1)]),
  (.xfTr 2 13 6, [], [(26, 0x2), (0, 13), (4, 6), (12, 2)]), (.xfExpZr 13 6, [], [(26, 0x3), (0, 13), (4, 6)]),
  (.xfExpSp24 1 13 6, [], [(26, 0x3), (0, 13), (4, 6), (12, 1), (14, 1)]),
  (.xfPack 2 13 6, [], [(26, 0x4), (0, 13), (4, 6), (12, 2)]),
  (.xfRot 13 6 9 101, [], [(26, 0x5), (0, 13), (4, 6), (8, 9), (12, 101)]),
  (.xfScl 0 true 4 13 6 9, [], [(26, 0x6), (0, 13), (4, 6), (8, 9), (14, 1), (15, 4)]),
  (.xfScl 2 false 1 13 6 9, [], [(26, 0x6), (0, 13), (4, 6), (8, 9), (12, 2), (15, 1)]),
  (.xfColW 13 9, [], [(26, 0x7), (0, 13), (8, 9)]), (.xfColChk 11 6, [], [(26, 0x7), (4, 6), (12, 1), (14, 11)]),
  (.xfColRd 13 6, [], [(26, 0x7), (0, 13), (4, 6), (12, 2)]), (.xfColClr, [], [(26, 0x7), (12, 3)]),
  (.xfSwz 13 6 5 true, [], [(26, 0x8), (0, 13), (4, 6), (12, 5), (15, 1)]),
  (.xfMvRow 13 6, [], [(26, 0x9), (0, 13), (4, 6)]), (.xfMvScalar 45 6, [], [(26, 0x9), (4, 6), (12, 1), (14, 45)]),
  (.xfMvReg 13 6, [], [(26, 0x9), (0, 13), (4, 6), (12, 2)])]

/-- RD (Table 09-1). -/
def rdWords : List (Instr × List Nat × List (Nat × Nat)) := [
  (.rdAdd 3 ⟨29, true⟩ 1 5, [], [(28, 1), (0, 3), (2, 29), (7, 1), (8, 1), (10, 5)]),
  (.rdKadd 2 ⟨30, false⟩ 2 4, [], [(28, 2), (0, 2), (2, 30), (8, 2), (10, 4)]),
  (.rdMax 1 ⟨6, false⟩ 0 3, [], [(28, 3), (0, 1), (2, 6), (10, 3)]),
  (.rdMin 1 ⟨6, true⟩ 2 0, [], [(28, 4), (0, 1), (2, 6), (7, 1), (8, 2)]),
  (.rdAmax 3 ⟨6, false⟩ 0 2, [], [(28, 5), (0, 3), (2, 6), (10, 2)]),
  (.rdMv 2 0 1 (.v ⟨.vb, 0x155⟩) 0 true, [], [(28, 6), (0, 2), (2, 1), (4, 0x155), (15, 1), (22, 1)]),
  (.rdMv 1 3 0 (.s 45) 29 false, [], [(28, 6), (0, 1), (2, 2), (4, 45), (13, 3), (17, 29)]),
  (.rdClr 9 2 1, [], [(28, 7), (0, 9), (4, 2), (6, 1)])]

/-- MX (Tables 02-7, 02-8, 10-5, 11-2, R295). -/
def mxWords : List (Instr × List Nat × List (Nat × Nat)) := [
  (.mma 5 45 ⟨29, true⟩ 23 true true true, [], [(42, 0x1), (34, 5), (28, 45), (23, 29), (22, 1), (16, 23), (0, 1), (1, 1), (13, 1)]),
  (.mop 5 45 ⟨29, false⟩ 21 true, [], [(42, 0x3), (34, 5), (28, 45), (23, 29), (16, 21), (1, 1)]),
  (.mldW 45 ⟨29, false⟩ true true, [], [(42, 0x4), (28, 45), (23, 29), (16, 1), (13, 1)]),
  (.mdrain 5 ⟨29, true⟩ 21, [], [(42, 0x5), (34, 5), (23, 29), (22, 1), (16, 21)]),
  (.mrow 5 .vb 109 2 21, [], [(42, 0x6), (34, 5), (28, 45), (23, 1), (24, 1), (25, 2), (16, 21)]),
  (.mclr 5, [], [(42, 0x7), (34, 5)]), (.mwait, [], [(42, 0x8)]), (.mqStat 45, [], [(42, 0x9), (28, 45)]),
  (.mdist 5 45 ⟨29, false⟩ 15 true 2 true 0x9C true, [], [(42, 0x10), (34, 5), (28, 45), (23, 29), (16, 15), (0, 1), (2, 2), (4, 1), (5, 0x9C), (13, 1)]),
  (.mbestClr 21, [], [(42, 0x11), (16, 21)]), (.mbestRd .vb 0xAD, [], [(42, 0x12), (28, 45), (23, 2), (25, 1)]),
  (.cupd 0xAD ⟨29, false⟩ 21, [], [(42, 0x13), (28, 45), (34, 2), (23, 29), (16, 21)]),
  (.cfin 45 29 true, [], [(42, 0x14), (28, 45), (23, 29), (16, 1)]), (.rwStat 45, [], [(42, 0x20), (28, 45)]),
  (.rwSup, [], [(42, 0x21)])]

/-- CP (Tables 02-10, 02-14). -/
def cpWords : List (Instr × List Nat × List (Nat × Nat)) := [
  (.cpy1d 29 22 (some 19), [], [(28, 0), (21, 0x1), (16, 29), (11, 22), (5, 1), (6, 19)]),
  (.cpyNd 29 22 none, [], [(28, 0), (21, 0x2), (16, 29), (11, 22)]),
  (.cpyMc 29 22 (some 19), [], [(28, 0), (21, 0x3), (16, 29), (11, 22), (5, 1), (6, 19)]),
  (.cpySnd 29 22 none, [], [(28, 0), (21, 0x4), (16, 29), (11, 22)]),
  (.cpyZrb 29 22 (some 19), [], [(28, 0), (21, 0x5), (16, 29), (11, 22), (5, 1), (6, 19)]),
  (.cpySp24 29 22 none, [], [(28, 0), (21, 0x6), (16, 29), (11, 22)]),
  (.cpyStrm 29 22 (some 19), [], [(28, 0), (21, 0x7), (16, 29), (11, 22), (5, 1), (6, 19)]),
  (.cpyStop 29 (some 19), [], [(28, 0), (21, 0x8), (16, 29), (5, 1), (6, 19)]),
  (.cpyFill 29 22 (some 19), [], [(28, 0), (21, 0x9), (16, 29), (11, 22), (5, 1), (6, 19)]),
  (.cpyClr, [], [(28, 0), (21, 0xa)]), (.cpyQ, [29, 19], [(28, 0), (21, 0xb), (16, 29), (5, 1), (6, 19)]),
  (.frIn 29 22 (some 19), [], [(28, 1), (21, 0x1), (16, 29), (11, 22), (5, 1), (6, 19)]),
  (.frOut 29 22 none, [], [(28, 1), (21, 0x2), (16, 29), (11, 22)]),
  (.frSwap 29 22 (some 19), [], [(28, 1), (21, 0x3), (16, 29), (11, 22), (5, 1), (6, 19)]),
  (.frSnap 29 22 none, [], [(28, 1), (21, 0x4), (16, 29), (11, 22)]),
  (.frFork 29 22 (some 19), [], [(28, 1), (21, 0x5), (16, 29), (11, 22), (5, 1), (6, 19)]),
  (.frRoll 29 22 none, [], [(28, 1), (21, 0x6), (16, 29), (11, 22)]),
  (.frRel 29 22 (some 19), [], [(28, 1), (21, 0x7), (16, 29), (11, 22), (5, 1), (6, 19)]),
  (.frPin 29 22 none, [], [(28, 1), (21, 0x8), (16, 29), (11, 22)]),
  (.frChk 29 22 (some 19), [], [(28, 1), (21, 0x9), (16, 29), (11, 22), (5, 1), (6, 19)]),
  (.frRes 29 22 none, [], [(28, 1), (21, 0xa), (16, 29), (11, 22)]),
  (.frStatOp, [29, 19], [(28, 1), (21, 0xb), (16, 29), (5, 1), (6, 19)]),
  (.scnDiag 29 22 (some 19), [], [(28, 2), (21, 0x1), (16, 29), (11, 22), (5, 1), (6, 19)]),
  (.scnLin 29 (some 19), [], [(28, 2), (21, 0x2), (16, 29), (5, 1), (6, 19)]),
  (.scnCin 29 none, [], [(28, 2), (21, 0x3), (16, 29)]),
  (.scnCout 29 (some 19), [], [(28, 2), (21, 0x4), (16, 29), (5, 1), (6, 19)]),
  (.scnFade 29 none, [], [(28, 2), (21, 0x5), (16, 29)]),
  (.scnCfg 29 (some 19), [], [(28, 2), (21, 0x6), (16, 29), (5, 1), (6, 19)]),
  (.smpRun 29 22 (some 19), [], [(28, 3), (21, 0x1), (16, 29), (11, 22), (5, 1), (6, 19)]),
  (.smpShard 29 22 none, [], [(28, 3), (21, 0x2), (16, 29), (11, 22)]),
  (.smpMerge 29 22 (some 19), [], [(28, 3), (21, 0x3), (16, 29), (11, 22), (5, 1), (6, 19)]),
  (.smpStatQuery, [29, 19], [(28, 3), (21, 0x4), (16, 29), (5, 1), (6, 19)]),
  (.nwStart 29 22 (some 19), [], [(28, 4), (21, 0x1), (16, 29), (11, 22), (5, 1), (6, 19)]),
  (.nwStatQuery, [29, 19], [(28, 4), (21, 0x2), (16, 29), (5, 1), (6, 19)]),
  (.cmAcc 29 22 (some 19), [], [(28, 5), (21, 0x1), (16, 29), (11, 22), (5, 1), (6, 19)]),
  (.cmEmit 29 22 none, [], [(28, 5), (21, 0x2), (16, 29), (11, 22)]),
  (.cmTrim 29 22 (some 19), [], [(28, 5), (21, 0x3), (16, 29), (11, 22), (5, 1), (6, 19)]),
  (.cmStatQuery, [29, 19], [(28, 5), (21, 0x4), (16, 29), (5, 1), (6, 19)]),
  (.hndNew 29 19, [], [(28, 15), (21, 0x1), (16, 29), (5, 1), (6, 19)]),
  (.hndFree 29 none, [], [(28, 15), (21, 0x2), (16, 29)]),
  (.hndGen 29 19, [], [(28, 15), (21, 0x3), (16, 29), (5, 1), (6, 19)])]

theorem test_decode_ct : reads .ct ctWords = true := by decide +kernel
theorem test_decode_scInteger : reads .sc scIntegerWords = true := by decide +kernel
theorem test_decode_scOther : reads .sc scOtherWords = true := by decide +kernel
theorem test_decode_vector : reads .vb vectorWords = true := by decide +kernel
theorem test_decode_ld : reads .ld ldWords = true := by decide +kernel
theorem test_decode_st : reads .st stWords = true := by decide +kernel
theorem test_decode_sy : reads .sy syWords = true := by decide +kernel
theorem test_decode_xf : reads .xf xfWords = true := by decide +kernel
theorem test_decode_rd : reads .rd rdWords = true := by decide +kernel
theorem test_decode_mx : reads .mx mxWords = true := by decide +kernel
theorem test_decode_cp : reads .cp cpWords = true := by decide +kernel

theorem witness_issue_ct : issues .ct ctWords = true := by decide +kernel
theorem witness_issue_scInteger : issues .sc scIntegerWords = true := by decide +kernel
theorem witness_issue_scOther : issues .sc scOtherWords = true := by decide +kernel
theorem witness_issue_vector : issues .vb vectorWords = true := by decide +kernel
theorem witness_issue_ld : issues .ld ldWords = true := by decide +kernel
theorem witness_issue_st : issues .st stWords = true := by decide +kernel
theorem witness_issue_sy : issues .sy syWords = true := by decide +kernel
theorem witness_issue_xf : issues .xf xfWords = true := by decide +kernel
theorem witness_issue_rd : issues .rd rdWords = true := by decide +kernel
theorem witness_issue_mx : issues .mx mxWords = true := by decide +kernel
theorem witness_issue_cp : issues .cp cpWords = true := by decide +kernel
theorem witness_issue_nops :
    ([(.sc, .scNop), (.va, .vNop), (.ld, .ldNop), (.st, .stNop), (.sy, .syNop), (.xf, .xfNop), (.rd, .rdNop), (.mx, .mxNop), (.cp, .cpNop),
      (.ct, .ctNop)] : List (Slot × Instr)).all (fun p => ready.mayIssue p.1 p.2) = true := by decide +kernel

/-! ### States that meet the premises of the statements -/

/-- `ready` with its context, or its core, changed. -/
def inCtx (f : Ctx → Ctx) : State := ready.modCtx 0 0 f
def inCore (f : Core → Core) : State := ready.modCore 0 f
/-- `ready` with `fmt`, with values in scalar, local-address or transform registers, with rows of the scratchpad. -/
def withFmt (v : Word) : State := inCtx fun x => { x with ctl := { x.ctl with fmt := v } }
def withS (l : Tab Word) : State := inCore fun c => { c with s := l }
def withLa (l : Tab Word) : State := inCore fun c => { c with la := l }
def withRows (l : Tab Row) : State := inCore fun c => { c with pad := l }
def withRing (r : Ring) : State := inCtx fun x => x.setRing 4 r
/-- `ready` with virtual page 1 readable and writable for the task. -/
def withPage : State := ready.tlbFill 0 { fn := 0, size := 0, page := 1, ent := 0x200007 }
/-- A row whose every 32-bit lane is v. -/
def all32 (v : Nat) : Row := row (ofLanes 32 (List.replicate 32 v))
/-- A row of zeros followed by the colophon that closes it, of type i8. -/
def closedRows : Tab Row :=
  [(1, row (colophon 0 0 0 0 ((crcRun 0xFFFFFFFF (bytesOf 128 0)) ^^^ 0xFFFFFFFF) 0 true 1))]

theorem witness_ScalarFloatResults :
    let m := ready.meets .sc (.fadd 0 3 1 2)
    let s := (withFmt (2 ^ 19)).modCore 0 fun c => { c with s := [(1, 0x7F800000), (2, 0xFF800000)] }
    let v (m : State) (n : Nat) : FV := fmtF32.dec ((m.scalar n).toNat % 2 ^ 32)
    let q := s.meets .sc (.fadd 0 3 1 2)
    (ready.mayIssue .sc (.fadd 0 3 1 2) = true ∧ fpEnabled m.fmtW false false false = false) ∧
    (s.mayIssue .sc (.fadd 0 3 1 2) = true ∧
      fpEnabled q.fmtW (FV.add (rmode 0 q.fmtRm) (v q 1) (v q 2)).2 false false = true) := by decide +kernel

theorem witness_StatusReadResults :
    let bad := withS [(5, 1024)]
    (ready.mayIssue .sc (.ctxStat 3 5) = true ∧ (ready.meets .sc (.ctxStat 3 5)).rdS 2 5 < 2 ^ 10 ∧
      (ready.meets .sc (.ctxStat 3 5)).coreOk 0 = true) ∧
    (bad.mayIssue .sc (.ctxStat 3 5) = true ∧ ¬(bad.meets .sc (.ctxStat 3 5)).rdS 2 5 < 2 ^ 10) := by decide +kernel

theorem witness_BundleResults :
    apartDests [scalarWr ready 3 7 1, wholeWr (.p 1) 1 1 1] ∧
    (ready.ix.pend = [] ∧ ready.ix.waits = [] ∧ ∀ e ∈ (ready.core ready.ik).mq, e.op ≠ .upd) ∧
    (ready.iss.opn = false ∧ canIssue ready ready.ik ready.ij = true) := by unfold apartDests; decide +kernel

/-- A result for `s3` due at counted bundle 5: not there at 4, there at 5. -/
theorem witness_RegisterReads :
    let p : Pend := { dest := .s 3, mask := row 255, val := row 7, due := 5 }
    let s := inCtx fun x => { x with pend := [p] }
    ((Dest.s 3).plain = true ∧ s.landMeets 0 (.s 3) = false ∧ s.landMeets 0 (.pad 9) = false ∧
      (s.ctx 0 0).pend.filter (fun q => q.dest == .s 3) = [p] ∧ p.landed = false) ∧
    rawD (landDue s 0 0 4) 0 0 (.s 3) = 0 ∧ rawD (landDue s 0 0 5) 0 0 (.s 3) = 7 ∧
    (taint (ready.ctx 0 0) (.s 3) = 0 ∧ ∀ p ∈ (ready.ctx 0 0).pend, p.due ≤ (ready.ctx 0 0).bcount) ∧
    (taint ready.ix (.s 0) = 0 ∧ taint ready.ix (.p 0) = 0) ∧ (wholeWr (.s 3) 64 1 1).kept = true := by decide +kernel

theorem witness_DecodeTraps :
    (let s := inCtx fun x => { x with task := { x.task with priv := false } }
     (encFields (.kill 1) s.arg).isSome = true ∧ s.iss.opn = false ∧ canIssue s s.ik s.ij = true ∧ isSystem (.kill 1) = true ∧
       (s.meets .ct (.kill 1)).ix.privileged = false) ∧
    (let s := inCtx fun x => { x with task := { x.task with demand := 0 } }
     let i := Instr.scAdd .i64 5 0 (.reg 0)
     (encFields i s.arg).isSome = true ∧ s.iss.opn = false ∧ canIssue s s.ik s.ij = true ∧ isSystem i = false ∧
       (operandRegs i s.arg).find? (fun p => (s.meets .sc i).ix.bankx p.1 p.2) = some (3, 5)) ∧
    (let s := (withS [(1, 300)]).modCtx 0 0 fun x => { x with task := { x.task with demand := BitVec.ofNat 56 (2 ^ 56 - 1 - 2 ^ 4) } }
     let i := Instr.movIxGet ⟨.va, .w256, 0⟩ 0 1
     s.mayIssue .va i = true ∧ (s.meets .va i).ix.bankx (vFileNo .va) ((s.meets .va i).rdS 3 1 % 512) = true) := by decide +kernel

theorem witness_BundleFrame :
    let m := ready.meets .st (.stRow ⟨.va, 0⟩ ⟨0, 0⟩)
    let acts : List Act := [.pad 5 (row (2 ^ 1024 - 1)) (all32 1)]
    (∀ a ∈ acts, a.inCore = true) ∧ notMixed acts = true ∧ (∀ p ∈ m.ix.pend, p.dest ≠ .pad 5) ∧ m.coloPend 0 5 (2 ^ 64) = false ∧
    (m.core 0).updBusy 5 = false := by decide +kernel

/-- Lane 3 of an `add.f32` is infinity minus infinity, and the invalid condition is enabled. -/
theorem witness_VectorFloatResultsAndTraps :
    let h : VH := ⟨.va, .w256, 0⟩
    let i := Instr.vAdd h 10 4 5 6 0 false
    let x (v : Nat) : Row := row (v * 2 ^ 96)
    let s := (withFmt (2 ^ 19)).modCore 0 fun c => { c with va := [(5, x 0x7F800000), (6, x 0xFF800000)] }
    let m := s.meets .va i
    let r (n : Nat) := FV.add (rmode 0 m.fmtRm) (m.fltElem h 10 5 n) (m.fltElem h 10 6 n)
    (s.mayIssue .va i = true ∧ 3 < h.w.bits / 32 ∧ (m.laneSure h 32 3 && fpEnabled m.fmtW (r 3).2 false false) = true ∧
      ∀ n, n < 3 → fpEnabled m.fmtW (r n).2 false (fmtF32.round .arith false (rmode 0 m.fmtRm) (r n).1).ovf = false) ∧
    fpEnabled (ready.meets .va i).fmtW true false true = false := by decide +kernel

/-- Values at the edges of the clauses: a NaN, an infinity, a zero, and 2, whose reciprocal lies in range. -/
theorem witness_SpecialFunctionValues :
    ((fmtOf 10).dec 0x7FC00000 = .nan ∧ (fmtOf 8).dec 0xFC00 = .inf true ∧ (fmtOf 9).dec 0x8000 = .fin true 0 (-133)) ∧
    ((fmtOf 10).dec 0x40000000 = .fin false (2 ^ 23) (-22) ∧ (1 : ℝ) * ((2 ^ 23 : Nat) : ℝ) * (2 : ℝ) ^ (-22 : Int) = ((2 : Int) : ℝ)) ∧
    |1 / (2 : ℝ)| ≤ ((2 : ℝ) ^ ((fmtOf 10).fb + 1) - 1) * (2 : ℝ) ^ (((fmtOf 10).bias : Int) - (fmtOf 10).fb) := by
  have hb : (fmtOf 10).fb = 23 ∧ (fmtOf 10).bias = 127 := by decide +kernel
  refine ⟨by decide +kernel, ⟨by decide +kernel, ?_⟩, ?_⟩
  · norm_num
  · rw [hb.1, hb.2]; norm_num

theorem witness_VectorSpecialAndConvertResults :
    let m := ready.meets .va (.vRcp ⟨.va, .w256, 0⟩ 10 4 5 0)
    bitAt m.fmtW 21 = false ∧ fpEnabled m.fmtW true true false = false := by decide +kernel

/-- All lanes agree; then lane 0 differs from lane 1. -/
theorem witness_VectorCompareResults :
    let h : VH := ⟨.va, .w256, 0⟩
    let i := Instr.vCmpEqU h 4 5 6 0
    let s := inCore fun c => { c with va := [(5, row 1)] }
    let cond (m : State) (n : Nat) : Bool := icond 0 (m.intElem h 4 5 n) (m.intElem h 4 6 n)
    (ready.mayIssue .va i = true ∧ (∀ n, n < 8 → cond (ready.meets .va i) n = true) ∧
      (ready.meets .va i).anyLane h 32 (fun _ => true) = true) ∧
    (s.mayIssue .va i = true ∧ (s.meets .va i).laneSure h 32 0 = true ∧ (s.meets .va i).laneSure h 32 1 = true ∧
      cond (s.meets .va i) 0 = false ∧ cond (s.meets .va i) 1 = true) := by decide +kernel

theorem witness_VectorTransferResults :
    let m := ready.meets .va (.movIxGet ⟨.va, .w256, 0⟩ 0 1)
    m.ix.bankx (vFileNo .va) (m.rdS 3 1 % 512) = false := by decide +kernel

theorem witness_ReductionResults :
    let m := ready.meets .rd (.rdAdd 0 ⟨6, false⟩ 0 0)
    let s := withRing { base := 16, n := 4, fil := 1, res := 1, bound := true }
    let q := s.meets .rd (.rdAdd 0 ⟨4, true⟩ 0 0)
    (m.ix.fenced = false ∧ m.reads 11 ⟨6, false⟩ (m.rdRow 11 0)) ∧ (q.ix.fenced = false ∧ q.reads 11 ⟨4, true⟩ (q.rdRow 11 16)) := by
  unfold State.reads; decide +kernel

/-- The largest, the smallest and the lowest lane of the largest magnitude among 1, 2, a NaN and -2. -/
theorem witness_ReductionResults_extremes :
    let g : List Nat := [0x3F800000, 0x40000000, 0x7FC00000, 0xC0000000]
    let val (x : Nat) : FV := fmtF32.dec x
    let live := g.filter fun x => !(val x).isNan
    let less (x y : Nat) : Bool := (val x).lt (val y) || ((val x).eq (val y) && (val x).isNeg && !(val y).isNeg)
    live ≠ [] ∧ (∀ x ∈ live, less 0x40000000 x = false) ∧ (∀ x ∈ live, less x 0xC0000000 = false) ∧
    ((val (g.getD 1 0)).isNan = false ∧ (∀ i, i < 4 → (val (g.getD i 0)).isNan = false → g.getD i 0 % 2 ^ 31 ≤ g.getD 1 0 % 2 ^ 31) ∧
      ∀ i, i < 1 → (val (g.getD i 0)).isNan = false → g.getD i 0 % 2 ^ 31 < g.getD 1 0 % 2 ^ 31) := by decide +kernel

theorem witness_TransformResults :
    let s := withRows [(0, row (pack 0 5)), (1, row (2 ^ 1024 - 1)), (2, row (ofLanes 8 (List.replicate 64 0 ++ List.replicate 32 4)))]
    let x (n : Nat) (i : Instr) : State := (s.modCtx 0 0 fun x => { x with xr := [(3, BitVec.ofNat 64 n)] }).meets .xf i
    (unpack ((x 0 (.xfExpZr 0 3)).xfRow 3) = some 5 ∧ unpack ((x 1 (.xfExpZr 0 3)).xfRow 3) = none) ∧
    ((expand24 8 ((x 2 (.xfExpSp24 0 0 3)).xfRow 3)).isSome = true ∧ expand24 8 ((x 1 (.xfExpSp24 0 0 3)).xfRow 3) = none) := by
  decide +kernel

set_option maxRecDepth 20000 in
theorem witness_TileResults :
    let s := (withRows closedRows).modCtx 0 0 fun x => { x with xr := [(3, 1), (4, 2)], tile := { trows := 1 } }
    let code (a : BitVec 4) : Nat := let m := s.meets .xf (.xfColChk 0 a)
      let rows := bitsAt (m.xfRow a) 176 16
      colCheck (m.xfRow a) 0 rows ((List.range rows).map fun j => m.rdRow 10 (m.rdX 10 a.toNat % 2 ^ 13 + 8192 * 9 - rows + j))
    ((s.meets .xf (.xfColW 0 1)).ix.pend.all fun p => p.tile.isNone) = true ∧ (s.meets .xf (.xfColW 0 1)).ix.tile.trows ≠ 0 ∧
    (ready.meets .xf (.xfColW 0 1)).ix.tile.trows = 0 ∧ code 3 = 0 ∧ code 4 ≠ 0 := by decide +kernel

theorem witness_LocalLoadResults :
    let a : Mem := ⟨2, 1⟩
    let m := ready.meets .ld (.ldRow ⟨.va, 0⟩ a)
    let top := (withLa [(2, BitVec.ofNat 64 (2 ^ 20 - 256))]).meets .ld (.ldRow ⟨.va, 0⟩ a)
    let r := (withRing { base := 16, n := 4, fil := 2, res := 2, bound := true }).meets .ld (.ldH ⟨.va, 0⟩ ⟨4, 1⟩)
    (m.ix.fenced = false ∧ eaLd m a = 128 ∧ unpack (row (pack 0 5)).toNat = some 5) ∧ eaLd top a = 2 ^ 20 - 128 ∧
    (r.ix.fenced = false ∧ (r.ix.ring 4).bound = true ∧ 1 < (r.ix.ring 4).n ∧ 1 < (r.ix.ring 4).filled ∧ tget 0 (r.ix.ring 4).bad 1 = 0) := by
  decide +kernel

/-- Clause by clause at the edge of its range: the first address past a space, the first offset past a ring; a row whose
colophon holds and one whose does not. -/
theorem witness_LoadTraps :
    let far (v : Nat) (a : Mem) : Nat := eaLd ((withLa [(2, BitVec.ofNat 64 v)]).meets .ld (.ldRow ⟨.va, 0⟩ a)) a
    let r := (withRing { base := 16, n := 4, bound := true }).meets .ld (.ldH ⟨.va, 0⟩ ⟨4, 4⟩)
    let idx := (withLa [(2, 128), (3, 8191)]).meets .ld (.ldIdx ⟨.va, 0⟩ 2 3 0)
    let bad := (withRing { base := 16, n := 4, fil := 1, res := 1, bad := [(0, 1)], bound := true }).meets .ld (.ldH ⟨.va, 0⟩ ⟨4, 0⟩)
    let z := (withRows [(0, row (2 ^ 1024 - 1))]).meets .ld (.ldZ ⟨.va, 0⟩ ⟨2, 0⟩)
    far (2 ^ 20) ⟨2, 0⟩ = 2 ^ 20 ∧ far (2 ^ 19) ⟨2, 0⟩ = 2 ^ 19 ∧ idx.rdLa 6 2 + 128 * idx.rdLa 6 3 = 2 ^ 20 ∧
    ((ready.meets .ld (.ldH ⟨.va, 0⟩ ⟨4, 0⟩)).ix.ring 4).bound = false ∧ ((r.ix.ring 4).bound = true ∧ (r.ix.ring 4).n ≤ 4) ∧
    ((bad.ix.ring 4).bound = true ∧ 0 < (bad.ix.ring 4).filled ∧ tget 0 (bad.ix.ring 4).bad 0 ≠ 0) ∧
    (eaLd z ⟨2, 0⟩ = 0 ∧ unpack (z.rdRow 6 0) = none) := by
  decide +kernel

set_option maxRecDepth 20000 in
theorem witness_LoadChecks :
    let s := (withRows closedRows).modCtx 0 0 fun x => x.setRing 4 { base := 0, n := 4, fil := 3, res := 3, bound := true }
    let code (w : Nat) : Nat := let v := s.rdRow 6 w
      colCheck v 0 (bitsAt v 176 16) ((List.range (bitsAt v 176 16)).map fun j => s.rdRow 6 (w - bitsAt v 176 16 + j))
    s.mayIssue .ld (.ldRowChk ⟨.va, 0⟩ ⟨2, 1⟩) = true ∧ eaLd (s.meets .ld (.ldRowChk ⟨.va, 0⟩ ⟨2, 1⟩)) ⟨2, 1⟩ / 128 = 1 ∧
    code 1 = 0 ∧ code 2 ≠ 0 ∧ bitsAt (s.rdRow 6 1) 176 16 = 1 ∧ (s.ix.ring 4).bad = [] ∧ 1 < (s.ix.ring 4).filled ∧
    (let t := withRows [(0, (closedRows.head?.getD (0, 0)).2)]
     bitsAt (t.rdRow 6 0) 176 16 = 1 ∧ colCheck (t.rdRow 6 0) 0 1 [] = 5) ∧
    (let r : Ring := { base := 0, n := 4, fil := 3, res := 3, bad := [(0, 1)], bound := true }
     tget 0 r.bad 1 = 0 ∧ tget 0 r.bad 0 ≠ 0 ∧ 1 < r.filled) := by decide +kernel

theorem witness_PostedLoadResults :
    let a : Mem := ⟨2, 0⟩
    let pr := (withLa [(2, 2 ^ 20)]).meets .ld (.ldPr ⟨.va, 0⟩ a)
    let g := (withRing { base := 16, n := 4, bound := true }).meets .ld (.ldg 4 1 a)
    let q := (withPage.modCore 0 fun c => { c with la := [(2, BitVec.ofNat 64 (2 ^ 63 + 4096))] }).meets .ld (.ldAcq 3 (.s 5) a)
    (eaLd pr a = 2 ^ 20 ∧ pr.coreOk (clusterOf pr.ik * 4 + eaLd pr a / 2 ^ 20 % 4) = true) ∧
    ((g.ix.ring 4).bound = true ∧ 2 ≤ (g.ix.ring 4).n ∧ 2 ≤ (g.ix.ring 4).freeSlots ∧ (g.ix.ring 4).n < 5) ∧
    (2 ^ 63 ≤ eaLd q a ∧ q.xlate q.ik q.ij (eaLd q a - 2 ^ 63) false false false = .ok 0 0 0x200000) := by decide +kernel

/-- A posted load past the window, at its first absent address; an unbound ring; a page for supervisors alone; an address past
the virtual space. -/
theorem witness_PostedLoadResults_traps :
    let a : Mem := ⟨2, 0⟩
    let la (s : State) (v : Nat) : State := s.modCore 0 fun c => { c with la := [(2, BitVec.ofNat 64 v)] }
    let acq (s : State) (v : Nat) : State := (la s v).meets .ld (.ldAcq 3 (.s 5) a)
    let sup := (ready.tlbFill 0 { fn := 0, size := 0, page := 1, ent := 0x200017 }).modCtx 0 0 fun x =>
      { x with task := { x.task with priv := false } }
    let q := acq sup (2 ^ 63 + 4096)
    eaLd ((la ready (2 ^ 22)).meets .ld (.ldPr ⟨.va, 0⟩ a)) a = 2 ^ 22 ∧
    ((ready.meets .ld (.ldg 4 1 a)).ix.ring 4).bound = false ∧
    eaLd (acq ready (2 ^ 22)) a = 2 ^ 22 ∧ eaLd (acq ready (2 ^ 63 + 2 ^ 52)) a = 2 ^ 63 + 2 ^ 52 ∧
    (eaLd q a = 2 ^ 63 + 4096 ∧ q.xlate q.ik q.ij 4096 false false false = .fault 4 3) := by decide +kernel

theorem witness_StoreResults :
    let a : Mem := ⟨2, 0⟩
    let g (v : Nat) : State := (withPage.modCore 0 fun c => { c with la := [(2, BitVec.ofNat 64 v)], sa := [(2, BitVec.ofNat 64 v)] })
    let h := (withRing { base := 16, n := 4, bound := true }).meets .st (.stH ⟨.va, 0⟩ ⟨4, 3⟩)
    let at_ (v : Nat) (i : Instr) : Nat := eaSt ((g v).meets .st i) a
    let st := Instr.stg (.s 5) a
    ((g 0).ix.fenced = false ∧ at_ (2 ^ 20 - 128) (.stRow ⟨.va, 0⟩ a) < 2 ^ 20 ∧ 2 ^ 20 ≤ at_ (2 ^ 20) (.stRow ⟨.va, 0⟩ a) ∧
      at_ (2 ^ 19 - 128) (.stSb ⟨.va, 0⟩ a) < 2 ^ 19) ∧
    ((h.ix.ring 4).bound = true ∧ 3 < (h.ix.ring 4).n ∧ 3 < (h.ix.ring 4).freeSlots) ∧
    (at_ 4096 st = 4096 ∧ ((g 4096).meets .st st).xlate 0 0 4096 true false false = .ok 0 0 0x200000) ∧
    (at_ (2 ^ 20) (.stPr ⟨.va, 0⟩ a) < 2 ^ 22 ∧ ready.coreOk 1 = true) ∧
    (at_ (2 ^ 63 + 4096) (.stRel 2 (.s 5) a) = 2 ^ 63 + 4096) := by decide +kernel

/-- The first address past each space, a page without W, an unbound ring, and an offset past the slots of one. -/
theorem witness_StoreResults_traps :
    let a : Mem := ⟨2, 0⟩
    let w := ready.tlbFill 0 { fn := 0, size := 0, page := 1, ent := 0x200003 }
    let sa (s : State) (v : Nat) (i : Instr) : State := (s.modCore 0 fun c => { c with sa := [(2, BitVec.ofNat 64 v)] }).meets .st i
    let at_ (v : Nat) (i : Instr) : Nat := eaSt (sa ready v i) a
    let h := (withRing { base := 16, n := 4, bound := true }).meets .st (.stH ⟨.va, 0⟩ ⟨4, 4⟩)
    let q := sa w 4096 (.stg (.s 5) a)
    (sa ready (2 ^ 20) (.stS 5 a)).ix.fenced = false ∧ at_ (2 ^ 20) (.stS 5 a) = 2 ^ 20 ∧ at_ (2 ^ 19) (.stSb ⟨.va, 0⟩ a) = 2 ^ 19 ∧
    ((ready.meets .st (.stH ⟨.va, 0⟩ ⟨4, 4⟩)).ix.ring 4).bound = false ∧ ((h.ix.ring 4).bound = true ∧ (h.ix.ring 4).n ≤ 4) ∧
    at_ (2 ^ 22) (.stPr ⟨.va, 0⟩ a) = 2 ^ 22 ∧ at_ (2 ^ 22) (.stRel 2 (.s 5) a) = 2 ^ 22 ∧
    at_ (2 ^ 52) (.stg (.s 5) a) = 2 ^ 52 ∧ at_ (2 ^ 63 + 2 ^ 52) (.stRel 2 (.s 5) a) = 2 ^ 63 + 2 ^ 52 ∧
    (eaSt q a = 4096 ∧ q.xlate q.ik q.ij 4096 true false false = .fault 2 3) := by decide +kernel

theorem witness_AtomicResults :
    let a : Mem := ⟨2, 0⟩
    let g (v : Nat) : State := (withPage.modCore 0 fun c => { c with sa := [(2, BitVec.ofNat 64 v)], la := [(2, BitVec.ofNat 64 v)] })
    (eaSt ((g (2 ^ 20)).meets .st (.aadd false true 5 a)) a < 2 ^ 22 ∧ ready.coreOk 1 = true) ∧
    (eaSt ((g 4096).meets .st (.amin true true 5 a)) a = 4096 ∧
      ((g 4096).meets .st (.amin true true 5 a)).xlate 0 0 4096 true false true = .ok 0 0 0x200000) ∧
    (eaSt ((g (2 ^ 22)).meets .st (.aadd false true 5 a)) a = 2 ^ 22 ∧ eaSt ((g (2 ^ 52)).meets .st (.aadd true true 5 a)) a = 2 ^ 52) ∧
    (let h := (ready.tlbFill 0 { fn := 0, size := 0, page := 1, ent := 0x200047 }).modCore 0 fun c => { c with sa := [(2, 4096)] }
     let m := h.meets .st (.amin true true 5 a)
     eaSt m a = 4096 ∧ m.xlate m.ik m.ij 4096 true false true = .fault 10 3) := by decide +kernel

theorem witness_SyncResults :
    let bind (o : Ring) (v : Nat) : Ring × Nat :=
      let m := ((withRing o).modCore 0 fun c => { c with s := [(5, BitVec.ofNat 64 v)] }).meets .sy (.hBind 4 5)
      (m.ix.ring 4, m.rdS 9 5)
    let adv (r : Ring) : Ring := ((withRing r).meets .sy (.hAdvc 4 2)).ix.ring 4
    (bind {} (8191 + 2 ^ 16) = ({}, 8191 + 2 ^ 16) ∧ bind {} (8191 + 2 * 2 ^ 16) = ({}, 8191 + 2 * 2 ^ 16)) ∧
    ((bind { held := 1 } (2 ^ 16)).1.held ≠ 0 ∧ (bind { res := 1 } (2 ^ 16)).1.res ≠ (bind { res := 1 } (2 ^ 16)).1.fil) ∧
    ((adv {}).bound = false ∧ (adv { bound := true, n := 1 }).n < 2 ∧ (adv { bound := true, n := 2, held := 2 }).held = 2 ∧
      2 ≤ (adv { bound := true, n := 2, fil := 2, res := 2 }).filled) ∧
    ((ready.meets .sy (.tlWait 0 false 5)).rdC 9 5 ≤ ((ready.meets .sy (.tlWait 0 false 5)).ix.tl 0).i ∧
      (((withS [(5, 1)]).meets .sy (.tlWait 0 true 5)).ix.tl 0).i < ((withS [(5, 1)]).meets .sy (.tlWait 0 true 5)).rdS 9 5) := by
  decide +kernel

theorem witness_FlowResults :
    let ctl (f : Ctl → Ctl) (i : Instr) : Ctl := ((inCtx fun x => { x with ctl := f x.ctl }).meets .ct i).ix.ctl
    let l : Loop := { first := 0, last := 3, left := 2, total := 2, lvl := 2, step := 0 }
    let lp := Instr.loop 3 3 0 (.imm 2)
    (let t := ctl (fun c => { c with cq := [{ v := true, at_ := 0 }] }) (.brc 0 false); t.cq = [{ v := true, at_ := 0 }] ∧ 0 ≤ ready.now) ∧
    (let t := ctl (fun c => { c with ret := List.replicate 15 (0, false) }) (.call 7); t.ret.length < 16) ∧
    (let t := ctl (fun c => { c with ret := List.replicate 16 (0, false) }) (.call 7); 16 ≤ t.ret.length) ∧
    ((ctl (fun c => { c with ret := [(5, false)] }) .ret).ret ≠ [] ∧ (ctl id .ret).ret = []) ∧
    (ready.ix.hand.on = false ∧ (ctl id lp).loops.head? = none) ∧
    (let t := ctl (fun c => { c with loops := [l] }) (.loop 2 2 0 (.imm 1)); t.loops.head? = some l ∧ 2 ≤ l.lvl) ∧
    (let t := ctl (fun c => { c with loops := [l] }) lp; t.loops.head? = some l ∧ l.lvl < 3 ∧ l.first.toNat ≤ t.pc.toNat ∧
      t.pc.toNat ≤ l.last.toNat ∧ l.last.toNat < t.pc.toNat + 3 + 1) ∧
    ((ready.meets .ct (.loop 3 3 0 (.lc 1))).rd 1 (.lc 1) = 0) := by decide +kernel

theorem witness_FlowOfBundles :
    let l : Loop := { first := 1, last := 3, left := 2, total := 2, lvl := 1, step := 4 }
    let t : Ctl := { pc := 3, loops := [l], ret := [(9, false)] }
    let o : Loop := { first := 0, last := 9, left := 2, total := 2, lvl := 2, step := 0 }
    let holds (a : Nat) (x : Loop) : Prop := x.first.toNat ≤ a ∧ a ≤ x.last.toNat
    (t.loops = [l] ∧ l.last = t.pc ∧ 1 < l.left) ∧ ({ l with left := 1 } : Loop).left ≤ 1 ∧
    ((∀ x ∈ [l, o], holds 3 x) ∧ [l, o] = [] ++ l :: [o] ∧ ¬holds 4 l ∧ ∀ x ∈ [o], holds 4 x) ∧
    (∀ x ∈ ({ t with pc := 2 } : Ctl).loops.head?, x.last ≠ 2) := by decide +kernel

theorem witness_ControlStateResults :
    let m (x : Bool) : Ctx := ((inCtx fun c => { c with task := { c.task with excl := x } }).meets .ct (.yield 0)).ix
    (m true).hand.on = false ∧ (m true).task.excl = true ∧ (m false).task.excl = false := by decide +kernel

/-- A kernel with a frame pool of one frame of 8 rows per core. -/
def kern : Kernel :=
  { id := 7, fn := 0, queue := 0, slot := 0, img := 0, kid := 1, priv := true, prio := 0, entry := 0, banks := 1, ptm := 0, run0 := 9,
    arg := 0, pred := 0, succ := 0, ctl := 0, mirror := 0, ovfa := 0, ovfq := 4, frame := 8, fpcore := 0, fprow := 64, fpn := 1,
    smap := 0, regions := [], toPlace := [2 ^ 16 + 8], live := 1 }
/-- `ready` under a task of a kernel. -/
def inKernel (k : Kernel) : State :=
  let s := inCtx fun x => { x with task := { x.task with kern := k.id } }
  { s with kernels := [k] }

/-- The same with the one frame of the pool in use, its children at their limit. -/
def fullKernel (fpn : Nat) : State :=
  let s := inKernel { kern with fpn := fpn }
  let s := s.modCtx 0 0 fun x => { x with task := { x.task with frame := some 0 } }
  s.modCluster 0 fun c => { c with frames := [{ id := 0, core := 0, row := 64, kern := 7, pend := 65535 }] }
/-- Free frames of the kernel, and the children of the task, as a `fork` meets them. -/
def forkMeets (s : State) : Nat × Nat :=
  let m := s.meets .ct (.fork 5 0)
  (((m.kernelOf 7).map (m.cluster 0).freeFrames).getD 0, m.children 0 0)

theorem witness_TaskResults_fork :
    ((inKernel kern).kernelOf 7 = some kern ∧ kern.frame ≠ 0 ∧ 0 < kern.ovfq) ∧
    forkMeets (inKernel kern) = (1, 0) ∧ forkMeets (fullKernel 1) = (0, 65535) ∧ forkMeets (fullKernel 2) = (1, 65535) ∧
    ((inKernel kern).cluster 0).spawnQ = [] ∧ ready.kernelOf 0 = none ∧
    ((((fullKernel 1).cluster 0).ovf.filter fun e => e.kern == kern.id).length < kern.ovfq) ∧
    (inKernel kern).kernelOf ((inKernel kern).ctx 0 0).task.kern = some kern := by decide +kernel

theorem witness_TaskResults_others :
    (ready.ix.hand.on = false ∧ ready.ix.ctl.ret = []) ∧
    ((inCtx fun x => { x with ctl := { x.ctl with ret := [(3, true)] } }).meets .ct .halt).ix.ctl.ret = [(3, true)] ∧
    (ready.meets .ct (.sync 5)).rdS 1 5 &&& (2 ^ 64 - 1 - ready.ix.task.demand.toNat) = 0 ∧
    ((withS [(5, 2 ^ 60)]).meets .ct (.sync 5)).rdS 1 5 &&& (2 ^ 64 - 1 - ready.ix.task.demand.toNat) ≠ 0 := by decide +kernel

theorem witness_SystemResults :
    let m (i : Instr) : State := ready.meets .ct i
    let h := (inCtx fun x => { x with hand := { on := true } })
    let at_ (v : Nat) (i : Instr) : State := (withS [(5, BitVec.ofNat 64 v)]).meets .ct i
    ((m (.trap 1)).ix.hand.on = false ∧ (h.meets .ct (.trap 1)).ix.hand.on = true ∧ h.mayIssue .ct (.rfe none) = true) ∧
    ((m (.kill 5)).rdS 1 5 < 2 ^ 10 ∧ (m (.kill 5)).coreOk 0 = true ∧ ¬(at_ 1024 (.kill 5)).rdS 1 5 < 2 ^ 10) ∧
    ((m (.pgret 5 6)).retired 0 = false ∧ lpddrBytes ≤ (at_ (2 ^ 51) (.pgret 5 6)).rdS 1 5 % 2 ^ 52) ∧
    (wayOperand (m (.wayq 5 6)) 0 = some (0, 0, 0) ∧ (m (.wayq 5 6)).quarReply 0 0 0 = 0 ∧ (m (.wayqRel 5 6)).quarantined 0 0 0 = false ∧
      wayOperand (at_ (2 ^ 21) (.wayq 5 6)) ((at_ (2 ^ 21) (.wayq 5 6)).rdS 1 5) = none) ∧
    (let q (i : Instr) : State := ({ ready with quar := [] } : State).quarantine 0 0 0 |>.meets .ct i
     (q (.wayqRel 5 6)).quarantined 0 0 0 = true ∧ (q (.wayq 5 6)).quarReply 0 0 0 = 1) := by decide +kernel

/-! ### Matrix unit -/

/-- `ready` with weight slots 4 and 5 loaded as a type, plane 0 holding slot 4, and a word in `fmt`. -/
def armed (fmt : Word) (ty : Nat) : State :=
  (withFmt fmt).modCore 0 fun c => { c with slots := [(4, { loaded := true, ty := ty }), (5, { loaded := true, ty := ty })],
                                            plane0 := { slot := some 4, pair := wide16 ty } }

theorem witness_ArrayProductResults :
    let i := Instr.mma 1 4 ⟨6, false⟩ 7 false false false
    let m := (armed 0 0).meets .mx i
    let w := (armed 0x1088 8).meets .mx i
    (mxPair m.fAF m.fBF = some false ∧ m.fACC = 0 ∧ m.slotReady 4 ∧ m.planeOk ⟨6, false⟩ 8 m.fAF false ∧ m.planeReady 4 (wide16 m.fBF) 0) ∧
    (mxPair w.fAF w.fBF = some true ∧ w.fACC = 1 ∧ w.slotReady 4 ∧ w.planeOk ⟨6, false⟩ 16 w.fAF false ∧
      w.planeReady 4 (wide16 w.fBF) 0) := by
  dsimp only
  refine ⟨⟨?_, ?_, ?_, ?_, ?_⟩, ?_, ?_, ?_, ?_, ?_⟩ <;>
    first | decide +kernel | (unfold State.slotReady; decide +kernel) | (unfold State.planeReady; decide +kernel) |
      (unfold State.planeOk State.planeReadable; decide +kernel)

/-- One case for each clause, each with the codes below it false. -/
theorem witness_ArrayTraps :
    let m (fmt : Word) (ty : Nat) (w : BitVec 6) : State := (armed fmt ty).meets .mx (.mma 1 w ⟨6, false⟩ 7 false false false)
    let fits (m : State) (f : Bool) : Prop := mxPair m.fAF m.fBF = some f ∧ m.fACC = b2n f
    (mxPair (m 1 0 4).fAF (m 1 0 4).fBF = none) ∧
    (mxPair (m 0x1000 0 4).fAF (m 0x1000 0 4).fBF = some false ∧ (m 0x1000 0 4).fACC ≠ 0) ∧
    (fits (m 0 0 6) false ∧ ((m 0 0 6).core 0).wslot 6 = {}) ∧
    (fits (m 0x1088 8 5) true ∧ (((m 0x1088 8 5).core 0).wslot 5).loaded = true ∧ (((m 0x1088 8 5).core 0).wslot 5).ty = 8 ∧
      wide16 (m 0x1088 8 5).fBF = true) ∧
    (let d : WSlot := { loaded := true, ty := 8 }
     let s (a b : WSlot) : State := ((withFmt 0x1088).modCore 0 fun c => { c with slots := [(4, a), (5, b)] }).meets .mx
       (.mma 1 4 ⟨6, false⟩ 7 false false false)
     let x := s d { d with sp := true }
     let y := s { d with malf := true } { d with malf := true }
     (fits x true ∧ ((x.core 0).wslot 4).ty = x.fBF ∧ ((x.core 0).wslot 5).sp ≠ ((x.core 0).wslot 4).sp) ∧
     (fits y true ∧ (y.core 0).wslot 5 = (y.core 0).wslot 4 ∧ ((y.core 0).wslot 4).malf = true)) ∧
    (let s := (armed 0 0).modCore 0 fun c => { c with slots := [(4, { loaded := true, malf := true })] }
     let m := s.meets .mx (.mma 1 4 ⟨6, false⟩ 7 false false false)
     fits m false ∧ ((m.core 0).wslot 4).malf = true ∧ (m.core 0).ldwPending 4 false = false) := by decide +kernel

/-- The same for the instructions beside `mma`: a wide pair at an odd slot, types outside a table, a mode that is none of the
pair's, a slot that holds nothing, and one that holds 2:4 data. -/
theorem witness_ArrayTraps_others :
    let at_ (s : State) (i : Instr) : State := s.meets .mx i
    let ldw (fmt : Word) (w : BitVec 6) (sp : Bool) : State := at_ (armed fmt 0) (.mldW w ⟨6, false⟩ sp false)
    let fin (fmt : Word) (s : WSlot) : State := at_ ((withFmt fmt).modCore 0 fun c => { c with slots := [(4, s)] }) (.cfin 4 6 false)
    let fits (m : State) : Prop := ∀ fl, mxPair m.fAF m.fBF = some fl → m.fACC = b2n fl
    let dr (fmt : Word) : State := at_ (withFmt fmt) (.mdrain 1 ⟨6, false⟩ 0)
    (mxPair (at_ (armed 1 0) (.mop 1 4 ⟨6, false⟩ 7 false)).fAF 0 = none ∧ (at_ (armed 1 0) (.mdist 1 4 ⟨6, false⟩ 7 false 1 false 0 false)).fAF = 1) ∧
    (wide16 (ldw 0x88 5 false).fBF = true ∧ (5 : BitVec 6).toNat % 2 ≠ 0) ∧
    (wide16 (ldw 0xF0 4 false).fBF = false ∧ isBType (ldw 0xF0 4 false).fBF = false) ∧
    (¬fits (dr 0x1000) ∧ (dr 0x2000).fACC = 2 ∧ isDType (dr 0x100).fDF = false ∧ fits (dr 0x100) ∧ (dr 0x100).fACC < 2) ∧
    ((at_ (withFmt 1) (.cupd 0 ⟨6, false⟩ 0)).fAF = 1) ∧
    (((fin 0 {}).core 0).wslot 4 = {} ∧ ((fin 0 {}).core 0).ldwPending 4 false = false) ∧
    ((fin 0x10 { loaded := true, ty := 1 }).fBF = 1 ∧ (fin 0 { loaded := true, sp := true }).fBF = 0) := by decide +kernel

theorem witness_DistanceResults :
    let m := (armed 0x10BB 11).meets .mx (.mdist 1 4 ⟨6, false⟩ 7 false 1 false 0 false)
    (m.fAF = m.fBF ∧ m.fAF = 11 ∧ m.fACC = 1 ∧ m.slotReady 4 ∧ m.planeOk ⟨6, false⟩ 8 m.fAF false ∧ m.planeReady 4 false 0) := by
  unfold State.slotReady State.planeOk State.planeReadable State.planeReady; dsimp only; decide +kernel

theorem witness_WeightLoadResults :
    let m := ready.meets .mx (.mldW 4 ⟨6, false⟩ true false)
    let c := m.core m.ik
    isBType m.fBF = true ∧ wide16 m.fBF = false ∧ m.fBF ≠ 13 ∧ m.planeOk ⟨6, false⟩ 80 m.fBF false ∧ c.mqBusy < 8 ∧
    (∀ e ∈ c.mq, e.op ≠ .ldw ∧ e.op ≠ .fin) ∧ c.plane0.ready ≤ m.now ∧ c.plane1.ready ≤ m.now := by
  unfold State.planeOk State.planeReadable; dsimp only; decide +kernel

/-- 16-bit weights into a pair of slots with one descriptor. -/
theorem witness_WeightLoadResults_pair :
    let m := (armed 0x88 8).meets .mx (.mldW 4 ⟨6, false⟩ false false)
    wide16 m.fBF = true ∧ isBType m.fBF = true ∧ (m.core 0).wslot 4 = (m.core 0).wslot 5 ∧ m.planeOk ⟨6, false⟩ 128 m.fBF false := by
  unfold State.planeOk State.planeReadable; dsimp only; decide +kernel

theorem witness_TileReadResults :
    let m := ready.meets .mx (.mdrain 1 ⟨6, false⟩ 0)
    (m.fACC < 2 ∧ (∀ fl, mxPair m.fAF m.fBF = some fl → m.fACC = b2n fl) ∧ isDType m.fDF = true ∧ (drainDst m ⟨6, false⟩ 2).toOption = some [0, 1]) ∧
    (tget 0 m.ix.tileDue 1 ≤ m.ix.bcount ∧ ∀ c ∈ m.ix.tileCmds, c.acc ≠ 1) ∧
    ((m.core m.ik).mqBusy < 8 ∧ ∀ e ∈ (m.core m.ik).mq, e.op ≠ .drain) ∧
    (let c := (inCore fun c => { c with mq := [{ op := .clear, ctx := 0, acc := 1 }] }).meets .mx (.mclr 1)
     (c.core 0).mqBusy < 8 ∧ ∀ e ∈ (c.core 0).mq, e.acc = 1 → e.op = .clear) ∧
    (∀ n, n < 8 → (ready.meets .mx (.mqStat 5)).valOpen n = false) := by decide +kernel

theorem witness_CentroidResults :
    let m := ready.meets .mx (.cupd 0 ⟨6, false⟩ 0)
    let f := (armed 0 0).meets .mx (.cfin 4 6 false)
    (m.fAF = 0 ∧ m.planeReadable ⟨6, false⟩ 1 ∧ m.rdLa 5 7 < 2 ^ 20 ∧ m.ix.mbestDue ≤ m.ix.bcount ∧ (m.core m.ik).mqBusy < 8 ∧
      (m.core m.ik).entryFree ≤ m.now ∧ ∀ e ∈ (m.core m.ik).mq, e.op ≠ .fin) ∧
    ((f.core f.ik).ldwPending 4 false = false ∧ ((f.core f.ik).wslot 4).loaded = true ∧ ((f.core f.ik).wslot 4).ty = f.fBF ∧ f.fBF = 0 ∧
      ((f.core f.ik).wslot 4).sp = false ∧ f.ix.fenced = false ∧ f.rdLa 5 6 < 2 ^ 20 ∧ ∀ e ∈ (f.core f.ik).mq, e.op ≠ .upd) := by
  unfold State.planeReadable; dsimp only; decide +kernel

/-! ### Engines and the machine -/

theorem witness_QueuedCommandResults :
    let m := ready.meets .cp (.cpy1d 1 2 none)
    (∀ e, e < 6 → (m.ix.tl e).queue.length < 4) ∧ m.ix.fenced = false := by decide +kernel

theorem witness_DirectCommandResults :
    let s (v : Nat) : State := { inCore (fun c => { c with c := [(1, BitVec.ofNat 64 v)] }) with arg := [1, 2] }
    let mode (v : Nat) : Nat := bitsAt (((s v).meets .cp .frStatOp).rdC 8 1) 62 2
    mode 5 = 0 ∧ mode (2 ^ 62) = 1 ∧ mode (2 ^ 63) = 2 ∧ mode (3 * 2 ^ 62) = 3 ∧ ((s 5).meets .cp (.hndFree 1 none)).ix.fenced = false := by
  decide +kernel

/-- A table of two entries at 4096, whose entry 1 holds generation 5, valid or free; `c1` names it, or a row with an image. -/
def shelves (valid c1 : Nat) : State :=
  let s := ((ready.setReg (rShmN 0) 2).setReg (rShmBase 0) 4096).modCore 0 fun c => { c with c := [(1, BitVec.ofNat 64 c1)] }
  { s with dram := s.dram.writeN 4144 (5 + valid * 2 ^ 12) 2 }

/-- With one entry the search for a free one starts there. -/
theorem freeSlotOf_single (m : State) (f a : Nat) (h : m.reg (rShmN f) % 2 ^ 21 = 2) (ha : m.shelfAt f 1 = some a)
    (hv : bitAt (m.lpRead 0 (a + 16) 2) 12 = false) : m.freeSlotOf f = some 1 := by
  unfold State.freeSlotOf
  simp only [h]
  simp [List.range, List.range.loop, Nat.mod_one, ha, hv]

theorem witness_DirectCommandResults_tables :
    (let m := (shelves 0 0).meets .cp (.hndNew 1 2)
     m.ix.fenced = false ∧ m.fnOf 0 0 = 0 ∧ shelfOk (m.rdRow 8 0 % 2 ^ 256) = true ∧ m.freeSlotOf 0 = some 1 ∧ m.shelfAt 0 1 = some 4128) ∧
    (let m := (shelves 1 (5 * 2 ^ 20 + 1)).meets .cp (.hndFree 1 none)
     m.rdC 8 1 = 5 * 2 ^ 20 + 1 ∧ m.shelfAt 0 1 = some 4128 ∧ bitAt (m.lpRead 0 4128 32) 140 = true ∧ bitsAt (m.lpRead 0 4128 32) 128 12 = 5) ∧
    (let m := (shelves 1 (4 * 2 ^ 20 + 1)).meets .cp (.hndGen 1 2)
     m.shelfAt 0 1 = some 4128 ∧ bitsAt (m.lpRead 0 4128 32) 128 12 ≠ 4) ∧
    (shelves 1 2).shelfAt 0 2 = none := by
  refine ⟨⟨?_, ?_, ?_, freeSlotOf_single _ _ 4128 ?_ ?_ ?_, ?_⟩, ?_⟩ <;> decide +kernel

/-- A bundle of one `li s3, 7`, fetched from the loaded image and run by a step. -/
theorem witness_StepRunsDecoded :
    let w := (0x68 * 2 ^ 40 + 3 * 2 ^ 29 + 2 ^ 22 + 7) * 2 ^ 64
    let s := State.reset.withFetchWord 512 w
    let q := settle (advanceN (nextCycle s 0 - s.now) { s with turns := [] })
    let a := { q with held := false }
    let b := fetched a 0 0
    let m := { openIssue b 0 0 w none false with iss := { (openIssue b 0 0 w none false).iss with sec := false } }
    s.turns = [.issue 0] ∧ (q.down = false ∧ (q.core 0).halted = false ∧ (a.core 0).prim = some 0 ∧ candidate a 0 = none) ∧
    (canIssue a 0 0 = true ∧ atBreak a 0 0 = false ∧ overrun a 0 0 = false ∧ look b 0 0 = .go w none ∧
      opsOf w = [{ slot := .sc, g := 0, i := .li 3 7 }]) ∧
    (skips m (hdrOf w) = false ∧ rwWants m 0 0 = false ∧
      (((m.ctx 0 0).plan).filter fun p => (p.todo.map (·.1)).head? == some (m.ctx 0 0).ctl.pc) = none ∧ m.guard 2 0 = true) := by
  decide +kernel

theorem witness_MemoryFormKept : ready.memWf = true := by decide +kernel

theorem witness_TrapEntry :
    let x := ready.ctx 0 0
    x.hand.on = false ∧ x.waits = [] ∧ (∀ p ∈ x.pend, p.acc = none) ∧ ∀ e ∈ (ready.core 0).mq, e.ctx ≠ 0 := by decide +kernel

theorem witness_HandlerTraps :
    let s := inCtx fun x => { x with hand := { on := true } }
    (s.ctx 0 0).hand.on = true ∧ s.mayIssue .ct .halt = true ∧ (s.meets .ct .halt).ix.hand.on = true := by decide +kernel

theorem witness_TerminationAndReturn : (ready.ctx 0 0).life = .live := by decide +kernel

/-- No context ready; one ready without a stated run; one whose run fits. -/
theorem witness_ArbiterSelects :
    let r (n : BitVec 20) : State := inCtx fun x => { x with ctl := { x.ctl with run := n } }
    (∀ j, j < 8 → isReady State.reset 0 j = false) ∧
    (isReady (r 0) 0 0 = true ∧ ((r 0).core 0).rptr < 8 ∧ ((r 0).ctx 0 0).ctl.run.toNat = 0 ∧ isReady (r 0) 0 1 = false) ∧
    (isReady (r 9) 0 0 = true ∧ ((r 9).ctx 0 0).ctl.run.toNat = 9 ∧ 9 ≤ ((r 9).core 0).slice) := by decide +kernel

/-! ### Steps of the hardware: each premise in a state that meets it -/

/-- `ready` with every unit ready, and its core or context changed. -/
def up : State := ((ready.setReg (rSysReady 0) (2 ^ 64 - 1)).setReg (rSysReady 1) (2 ^ 64 - 1)).setReg (rSysReady 2) (2 ^ 64 - 1)
def upCore (f : Core → Core) : State := up.modCore 0 f
def upCtx (f : Ctx → Ctx) : State := up.modCtx 0 0 f
/-- A command of context 0 of core 0; its block has its two upper quarters clear of SHELF and TILE. -/
def cmd (fn beats : Nat) : Cmd := { core := 0, ctx := 0, opn := 1, fn := fn, ca := 0, cb := 0, decl := beats }

/-- A register that the state does not list holds what it holds at reset. -/
theorem reg_unlisted (s : State) (off : Nat) (h : ∀ e ∈ s.regs, e.1 ≠ off) : s.reg off = regReset off % 2 ^ 64 := by
  have key : ∀ (l : Tab Word) (d : Word), (∀ e ∈ l, e.1 ≠ off) → tget d l off = d := by
    intro l d; induction l with
    | nil => intro _; rfl
    | cons e r ih => intro h; simp only [tget, h e (List.mem_cons_self ..), if_false]; exact ih fun x hx => h x (List.mem_cons_of_mem _ hx)
  simp only [State.reg, key _ _ h, BitVec.toNat_ofNat]

theorem slmap_reset (off : Nat) (h : 0x920200 ≤ off) (h2 : 0x200 ≤ off % 0x1000) : regReset off % 2 ^ 64 % 256 < 64 := by
  unfold regReset rSlm rSlmap rSlcfg rDnTmo
  split_ifs <;> omega

theorem parity_index (f : Nat → Bool) : (List.range 6).foldl (fun a j => a + b2n (f j) * 2 ^ j) 0 < 64 := by
  have h : ∀ j, b2n (f j) ≤ 1 := fun j => by unfold b2n; split <;> omega
  have := h 0; have := h 1; have := h 2; have := h 3; have := h 4; have := h 5
  simp only [List.range, List.range.loop, List.foldl]; omega

/-- Every unit is ready (R20, R459) in any state with the ready bits of `up` and the slice maps of reset, nothing in the stacks and
no way in quarantine. -/
theorem unitsReady_of (s : State) (h0 : s.reg (rSysReady 2) = 2 ^ 64 - 1)
    (h1 : s.reg (rLayout 0) % 2 ^ 48 &&& s.reg (rSysReady 0) % 2 ^ 48 = s.reg (rLayout 0) % 2 ^ 48)
    (h2 : ∀ e ∈ s.regs, e.1 < 0x920000 ∨ e.1 % 0x1000 < 0x200) (h3 : s.stack = [] ∧ s.quar = []) : s.unitsReady := by
  refine ⟨fun p a => ?_, fun a => by unfold State.chanReady; simp only [h1, beq_self_eq_true, Bool.true_or],
    fun sl set => ⟨0, by decide, by simp only [State.quarantined, h3.2, tget], fun e he => by simp [h3.1] at he⟩⟩
  have hi := parity_index fun j => parity 52 ((a % 2 ^ 52) &&& s.reg (rSlm p j))
  unfold State.sliceReady State.sliceOf
  rw [h0]
  generalize (List.range 6).foldl (fun a_1 j => a_1 + b2n (parity 52 ((a % 2 ^ 52) &&& s.reg (rSlm p j))) * 2 ^ j) 0 = i at hi
  have hr := reg_unlisted s (rSlmap p i) (fun e he hq => by
    have := h2 e he; rw [hq] at this; unfold rSlmap rSlcfg at this; omega)
  have hb := slmap_reset (rSlmap p i) (by unfold rSlmap rSlcfg; omega) (by unfold rSlmap rSlcfg; omega)
  rw [← hr] at hb
  exact (by decide : ∀ x, x < 64 → bitAt (2 ^ 64 - 1) x = true) _ hb

theorem witness_units_ready : up.unitsReady ∧ (up.setReg rBndCtl 3).unitsReady :=
  ⟨unitsReady_of _ (by decide +kernel) (by decide +kernel) (by decide +kernel) ⟨rfl, rfl⟩,
   unitsReady_of _ (by decide +kernel) (by decide +kernel) (by decide +kernel) ⟨rfl, rfl⟩⟩

theorem witness_due : State.reset.down = false ∧ up.down = false ∧ ({ up with arg := [0, 0, 1] } : State).arg = [0, 0, 1] := by
  decide +kernel

theorem witness_CoreStepsOccur_results :
    let p : Pend := { dest := .s 3, mask := 1, val := 1, due := 9 }
    let r : State := upCtx fun x => { x with pend := [p] }
    let w : State := upCtx fun x => { x with ctl := { x.ctl with run := 9, runCnt := 266 } }
    let t : TrapWait := { req := { cause := 1, slot := 1, info := 0 }, bpc := 0, rpc := 0 }
    let s : State := upCtx fun x => { x with trapP := some t }
    ((r.ctx 0 0).pend[0]? = some p ∧ p.acc = none ∧ p.early = true ∧ p.landed = false ∧ p.dest.plain = true ∧
      r.landMeets 0 p.dest = false ∧ (r.ctx 0 0).pend.filter (fun q => q.dest == p.dest) = [p]) ∧
    ((w.core 0).prim = some 0 ∧ (w.core 0).prep = false ∧ (w.ctx 0 0).life = .live ∧ (w.ctx 0 0).trapP = none ∧
      (w.ctx 0 0).hand.on = false ∧ (w.ctx 0 0).midGroup = false ∧ (w.ctx 0 0).ctl.run ≠ 0 ∧
      (w.ctx 0 0).ctl.run.toNat + 256 < (w.ctx 0 0).ctl.runCnt) ∧
    (let s := upCore fun c => { c with sysw := 29000000 }
     s.reg (rWdp 0) % 2 ^ 24 * (if s.reg rPwrSts % 8 = 1 then 1450 else 2900) ≤ (s.core 0).sysw ∧ (s.core 0).prim = some 0 ∧
       ((upCore fun c => { c with sysw := 29000000, prim := none }).core 0).prim = none) ∧
    ((s.ctx 0 0).trapP = some t ∧ trapReady s.fresh 0 0 t.req.cause = true ∧ (s.ctx 0 0).waits = []) := by decide +kernel

theorem witness_CoreStepsOccur_units :
    let idle := upCore fun c => { c with prim := none }
    let prep := upCore fun c => { c with prep := true }
    let b : BarUpd := { a := 1 }
    let nb := upCore fun c => { c with nbIn := [(3, b)] }
    let q (e : MxEnt) : Core := (upCore fun c => { c with mq := [e] }).core 0
    let arr := (upCtx fun x => { x with life := .dormant }).modCore 0 fun c => { c with arrivals := [(1, 5, 0, 0)] }
    ((idle.core 0).prim = none ∧ isReady idle.fresh 0 0 = true) ∧
    (prepReady prep.fresh 0 0 = true ∧ (prep.core 0).prim = some 0 ∧ (prep.ctx 0 0).life = .live ∧ (prep.ctx 0 0).saved = 0 ∧
      (prep.ctx 0 0).unfilled = 0 ∧ ∀ b, b < 56 → tget 0 (prep.core 0).tags b = 1) ∧
    ((nb.core 0).nbIn = [(3, b)] ∧ b.ready ≤ nb.now ∧ b.init = none ∧ b.rem = 0 ∧ b.err = false ∧ tget 0 (nb.core 0).nbAt 3 ≠ nb.now + 1 ∧
      ∀ i, i < 8 → (nb.ctx 0 i).waitsOn 3 = false) ∧
    ((q { op := .clear, ctx := 0 }).mqNext up.now = some 0 ∧ (q { op := .ldw, ctx := 0, slots := [(3, {})] }).mqNext up.now = some 0) ∧
    (let c := (upCore fun c => { c with planeReq := some (4, false) }).core 0
     c.planeReq = some (4, false) ∧ c.plane0.slot = none ∧ c.entryFree ≤ up.now) ∧
    (arrFits arr.fresh 0 = some (0, 0) ∧ ((arr.core 0).arrivals[0]?).isSome = true) := by decide +kernel

/-- `up` with a virtual page 1 in LPDDR 6 and an access posted. -/
def posted (x : Acc) : State := (up.tlbFill 0 { fn := 0, size := 0, page := 1, ent := 0x200007 }).modCtx 0 0 fun c => { c with posted := [x] }

theorem witness_AccessStepsOccur :
    let a (k : AccKind) (l : Loc) (r : Bool) : Acc := { kind := k, loc := l, ret := r }
    let st := a .store (.win 0 5) false
    let at_ := { a (.atom 0 true 1 0) (.win 0 5) true with len := 8 }
    accReady (posted st).fresh 0 0 0 = true ∧
    ((posted st).coloPend 0 5 (2 ^ 64) = false ∧ ((posted st).core 0).updBusy 5 = false ∧ ((posted st).ctx 0 0).pend = []) ∧
    (accReady (posted (a .nt (.phys 1 0 0x1000) false)).fresh 0 0 0 = true ∧ up.reg (rSysReady 0) / 2 ^ 56 % 2 = 1) ∧
    (accReady (posted at_).fresh 0 0 0 = true ∧ at_.isAtom = true ∧ at_.open_ = false) ∧
    packetTo up.fresh (a .store (.phys 1 0 0) false) = some 64 ∧
    (let r := { a (.atom 0 true 1 0) (.phys 1 0 0x1000) true with len := 8 }
     accReady (posted r).fresh 0 0 0 = true ∧ r.ret = true ∧ r.isAtom = true) ∧ st.spoil = 0 := by decide +kernel

/-- The premises of an arriving row of `ldg`, of LPDDR 6 and of host memory. -/
theorem witness_AccessStepsOccur_ldg :
    let v := posted { kind := .ldg 4 0, loc := .virt 4096 }
    let h := (up.tlbFill 0 { fn := 0, size := 0, page := 1, ent := 0x200047 }).modCtx 0 0 fun c => { c with posted := [{ kind := .ldg 4 0, loc := .virt 4096 }] }
    let gone (s : State) : State := s.fresh.modCtx 0 0 fun x => { x with posted := [] }
    (accReady v.fresh 0 0 0 = true ∧ ((gone v).xlNow 0 0 4096 false false).2 = .ok 0 0 0x200000 ∧
      ((gone v).xlNow 0 0 4096 false false).1.l1Bad 0 0 0x200000 = false) ∧
    (((gone h).xlNow 0 0 4096 false false).2 = .ok 1 0 0x200000 ∧
      ((gone h).xlNow 0 0 4096 false false).1.physBad 1 0 0x200000 128 = false) ∧
    ((((gone v).ctx 0 0).ring 4).mixed = false ∧ (gone v).coloPend 0 0 (2 ^ 64) = false ∧ ((gone v).core 0).updBusy 0 = false) ∧
    (let b : State := { gone v with badUnits := [(0x8000, true)] }
     let c : State := (gone h).setReg (rSysReady 0) 0
     (b.xlNow 0 0 4096 false false).1.l1Bad 0 0 0x200000 = true ∧ (c.xlNow 0 0 4096 false false).1.physBad 1 0 0x200000 128 = true) ∧
    ((gone v).xlNow 0 0 8192 false false).2 = .fault 1 0 := by decide +kernel

/-- A walk that finds a 2 MiB page of host memory, and one that meets an entry without V. -/
theorem witness_AccessStepsOccur_translations :
    let w : Walk := { core := 0, ctx := 0, fn := 0, page := 1 }
    let s := up.modCluster 0 fun c => { c with walks := [w] }
    let p : State := { s.setReg (rXlRoot 0) 0x10000 with
      dram := ((s.dram.writeN 0x10000 0x20001 8).writeN 0x20000 0x30001 8).writeN 0x30000 0x200047 8 }
    let l : StackLine := { valid := 1 }
    ((s.cluster 0).walks[0]? = some w ∧ w.fault = none ∧ (s.fresh.walk 0 4096).toOption = none ∧ (p.fresh.walk 0 4096).toOption.isSome = true) ∧
    ((tfind ((upCore fun c => { c with l1 := [(7, {})] }).core 0).l1 7) = some {}) ∧
    (let t : State := { up with stack := [(9, l)] }
     tfind t.stack 9 = some l ∧ l.valid.getLsbD 0 = true ∧ l.poison = false ∧ tget false t.badUnits 36 = false ∧
       t.sliceReady l.slice = true ∧ t.chanReady (256 * keyLine 9) = true) := by
  simp only [State.chanReady]; decide +kernel

theorem witness_EngineStepsOccur_copies :
    let q : State := upCtx fun x => x.setTl 0 { i := 1, queue := [cmd 1 4] }
    let run (c : Cmd) : Core := (upCore fun m => { m with copies := [c] }).core 0
    let snd : Cmd := { cmd 4 0 with blk := row (2 * 2 ^ 224) }
    let str (d : Bool) : Stream := { cmd := cmd 7 0, h := 4, drains := d }
    let rs (r : Ring) : Ring := ((upCtx fun x => x.setRing 4 r).ctx 0 0).ring 4
    ((q.core 0).copies.length < 4 ∧ ((q.ctx 0 0).head 0).isSome = true) ∧
    ((run snd).copies[0]? = some snd ∧ snd.idx + snd.list.length < snd.beats) ∧
    ((cmd 1 4).prog < (cmd 1 4).beats ∧ cpyTileBusy up.fresh (cmd 1 4) = false ∧ (cmd 1 4).list.contains 0 = false) ∧
    ({ cmd 1 4 with prog := 10000 } : Cmd).beats ≤ 10000 ∧
    ((upCore fun m => { m with streams := [str true] }).core 0).streams[0]? = some (str true) ∧
    0 < (rs { base := 16, n := 4, bound := true }).freeSlots ∧ 0 < (rs { base := 16, n := 4, fil := 1, res := 1, bound := true }).filled := by
  decide +kernel

theorem witness_EngineStepsOccur_circuits :
    let snd : Cmd := { cmd 4 0 with blk := row (2 * 2 ^ 224), list := [7] }
    let s := upCore fun m => { m with copies := [snd] }
    let r : SentRow := { dcore := 0, row := 5, data := row 7, lands := 0 }
    let t := upCore fun m => { m with sends := [r] }
    ((s.core 0).copies.find? (fun q => q.fn == 4 && q.status != 6 && q.circuit == 0 && decide (q.idx < q.nrows)) = some snd ∧
      tget 0 (s.core 0).circ 0 ≤ s.now ∧ (s.now - tget 0 (s.core 0).circ 0) % 64 = 0) ∧
    ((t.core 0).sends.find? (fun r => decide (r.lands ≤ t.now)) = some r ∧ t.coloPend 0 5 (2 ^ 64) = false ∧ (t.core 0).updBusy 5 = false) := by
  decide +kernel

theorem witness_EngineStepsOccur_scans :
    let q : State := upCtx fun x => x.setTl 2 { i := 1, queue := [cmd 5 4] }
    let s (c : Cmd) : State := upCore fun m => { m with scan := some c }
    let done : Cmd := { cmd 5 4 with prog := 1 }
    ((q.core 0).scan = none ∧ rotPick (q.core 0).scanRot 8 (fun j => ((q.ctx 0 j).head 2).isSome) = some 0 ∧ (q.ctx 0 0).head 2 = some (cmd 5 4)) ∧
    (((s done).core 0).scan = some done ∧ done.sub = 0 ∧ done.scUnits ≤ done.prog) ∧
    ((s { done with sub := 1 }).core 0).scan = some { done with sub := 1 } := by decide +kernel

theorem witness_EngineStepsOccur_bindery :
    let b : State := ((up.setReg rBndCtl 3).modCtx 0 0 fun x => x.setTl 1 { i := 1, queue := [cmd 8 0] }).tick
    let r (c : Cmd) : State := up.modCluster 0 fun q => { q with bindRun := [c] }
    let c : Cmd := { cmd 8 0 with prog := 1 }
    ((b.cluster 0).bindRun.length < 4 ∧ bndQueue b 0 0 = some (cmd 8 0)) ∧
    (bndReady ({ b with now := 1 } : State) 0 (cmd 8 0) = true) ∧
    (((r c).cluster 0).bindRun[0]? = some c ∧ (r c).scanHas c = false ∧ bndUnits (r c).fresh c ≤ c.prog ∧ c.rot = false) ∧
    (up.coreOk 0 = true ∧ up.reg rPwrSts % 8 ≠ 3 ∧ up.sesLive 0 = false ∧ (up.core 0).sessA = none ∧ (up.core 0).sessB = none) ∧
    (up.setReg rBndCtl 1).reg rBndCtl % 4 = 1 := by decide +kernel

theorem witness_EngineStepsOccur_generation :
    let q : State := upCtx fun x => x.setTl 4 { i := 1, queue := [cmd 1 0] }
    let c : Cmd := { cmd 1 0 with eng := 4, drop := 1 }
    let t : Trim := { core := 0, ctx := 0, lcm := 0, kop := 0, kpv := 0, lcv := 0, die := 0, key := 0 }
    ((q.die 0).gens = [] ∧ (q.ctx 0 0).task.gdie = 0 ∧ ((q.ctx 0 0).head 4).isSome = true) ∧
    (((up.setDie 0 { up.die 0 with gens := [c] }).die 0).gens[0]? = some c ∧ genDone c = true) ∧
    ({ up with trims := [t] } : State).trims[0]? = some t := by decide +kernel

theorem witness_TaskStepsOccur_spawn :
    let e : Spawn := { kern := 7, target := 5, s1 := 1, s2 := 2, prio := 0, tcoord := 0, frame := none }
    let s : State := { up.modCluster 0 (fun c => { c with spawnQ := [e] }) with kernels := [kern] }
    let o : State := { up.modCluster 0 (fun c => { c with ovf := [e] }) with kernels := [kern] }
    let f : Frame := { id := 0, core := 0, row := 64, kern := 7, ended := true }
    (spawnBest (s.cluster 0).spawnQ = some (e, 0) ∧ spawnBest [{ e with resume := true }] = some ({ e with resume := true }, 0) ∧
      freeContext s 0 = some (0, 1) ∧ clusterReady s 0 = true ∧ s.kernelOf 7 = some kern) ∧
    ((o.cluster 0).ovf = [e] ∧ ((o.cluster 0).spawnQ).length < 256 ∧ (takeFrame o.fresh 0 kern none 0 0).isSome = true) ∧
    (((up.modCluster 0 fun c => { c with frames := [f] }).cluster 0).frames[0]? = some f ∧ f.pend = 0 ∧ f.parent = none) ∧
    (let l : Leaving := { core := 0, ctx := 0, kern := 7, frame := none, last := 1 }
     ((up.modCluster 0 fun c => { c with leaving := [l] }).cluster 0).leaving[0]? = some l ∧ (up.ctx 0 0).posted = [] ∧ kern.id = l.kern) := by
  decide +kernel

theorem witness_TaskStepsOccur_launch :
    let k := { kern with frame := 0 }
    let s : State := { up with kernels := [k] }
    let p := upCtx fun x => { x with atYield := true }
    let q : State := { up.setReg (rLqCtl 3) (2 ^ 16) with dram := up.dram.writeN 0 1 1 }
    let b : Block := { core := 0, j := 0, x := {}, banks := [], rows := [], streams := [], img := [row 5] }
    let r : State := { (up.modCore 0 fun c => { c with tags := [] }).setCtx 0 0 {} with
      blocks := [b], dram := up.dram.writeN 0x40000 5 128 }
    ((s.kernels[0]?).map (·.toPlace) = some [2 ^ 16 + 8] ∧ mayPlace s k = true ∧ s.coreOk 8 = true ∧
      clusterReady s (clusterOf 8) = true ∧ (s.ctx 8 0).life = .free) ∧
    mayPreempt p.fresh 0 0 = true ∧
    (∀ b, b < 56 → keptBank (p.ctx 0 0).task b = true → tget 0 (p.core 0).tags b = 1) ∧
    (blockAt r.fresh 0x40000 = some (b, 0) ∧ (r.ctx 0 0).life = .free ∧ (r.coreOk 0 && clusterReady r 0) = true ∧ b.x.task.frame = none ∧
      (r.fresh.lpTouch 0 0x40000 128).lpBad 0 0x40000 128 = false ∧
      (∀ b, tget 0 (r.core 0).tags b = 0) ∧ (r.core 0).streams.length + b.streams.length ≤ 8) ∧
    (lqNext q = some 3 ∧ bitsAt (q.reg (rSysReady 1)) 32 4 ≠ 0) ∧
    (let z := { k with toPlace := [], live := 0, mirror := 0x1000 }
     ({ up with kernels := [z] } : State).kernels[0]? = some z ∧ z.toPlace = [] ∧ z.live = 0 ∧ up.hostOk = true) := by
  refine ⟨by decide +kernel, by decide +kernel, by decide +kernel, ⟨by decide +kernel, by decide +kernel, by decide +kernel, rfl, by decide +kernel, fun b => ?_, by decide +kernel⟩,
    by decide +kernel, by decide +kernel⟩
  rfl

/-- Nothing of LPDDR 6 is uncorrectable there, so that a block can be written. -/
theorem witness_TaskStepsOccur_memory (a : Nat) : (upCtx fun x => { x with atYield := true }).lpWBad 0 a 128 = false := by
  have h : (upCtx fun x => { x with atYield := true }).stack = [] := by rfl
  have g : (upCtx fun x => { x with atYield := true }).badUnits = [] := by rfl
  simp [State.lpWBad, State.poisoned, State.badByte, State.lineAt, h, g, tfind, tget]

theorem witness_ErrorStepsOccur :
    let clean : StackLine := { valid := 1 }
    let dirty : StackLine := { valid := 1, dirty := 1 }
    let hurt (r : Bool) : StackLine := { valid := 1, poison := true, retire := r }
    let s (l : StackLine) : State := { up with stack := [(9, l)] }
    let w : L1Line := { wrote := 1, writer := 0 }
    (tfind (s clean).stack 9 = some clean ∧ clean.dirty = 0 ∧ clean.poison = false ∧ (s clean).logHeld 0 = false) ∧
    (tfind (s dirty).stack 9 = some dirty ∧ dirty.dirty ≠ 0 ∧ dirty.poison = false ∧ (s dirty).logHeld 0 = false) ∧
    (∀ r, tfind (s (hurt r)).stack 9 = some (hurt r) ∧ (hurt r).retire = r ∧ (s (hurt r)).messages = [] ∧
      pageInFlight (s (hurt r)).fresh 0 = false) ∧
    (0 < lpddrBytes ∧ up.retiring = [] ∧ up.logHeld 0 = false ∧ up.logHeld 1 = false ∧
      ({ up with retiring := [(64, 1)] } : State).retiring.find? (fun p => p.1 / 65536 == 0) = some (64, 1)) ∧
    ((up.ctx 0 0).life ≠ .free ∧ up.coreOk 0 = true ∧ tget 0 (up.core 0).tags 0 = 1 ∧
      tfind ((upCore fun c => { c with l1 := [(7, w)] }).core 0).l1 7 = some w ∧ w.wrote ≠ 0) ∧
    (up.coreOk 3 = true ∧ 0 = 4 * clusterOf 3 + (3 + 8 / 8) % 4 ∧ (up.ctx 0 0).life = .live ∧ up.logHeld (dieOf 3) = false) ∧
    ({ up with messages := [(0, 0, 5)] } : State).messages[0]? = some (0, 0, 5) := by
  decide +kernel

theorem witness_DeviceStepsOccur :
    let r (o v : Nat) : State := State.reset.setReg o v
    (up.reg (rSysReady 0)).testBit 57 = true ∧ (up.reg (rSysReady 1)).testBit 31 = true ∧ (up.sliceOk 5 = true) ∧
    (up.reg rSecSts % 4 = 0 ∧ (r rSecSts 2).reg rSecSts % 4 = 2) ∧
    (up.hostOk = true ∧ 4096 + 4 ≤ bar2Size up 8 ∧ bitsAt (up.reg (rSysReady 0)) 48 8 ≠ 0) ∧
    ((r rDbgSts 2).reg rDbgSts % 4 = 2 ∧ up.coreOk 127 = true) ∧
    (State.reset.reg rPwrSts % 8 = 0 ∧ idleOk State.reset.fresh = true ∧ idleOk up.fresh = false) ∧ ((r rPwrSts 2).reg rPwrSts % 8 = 2) ∧
    (blockReady up (2 ^ 26 / 0x10000 * 0x10000 - 8) = true) ∧
    (((up.reg rBndCtl).testBit 0 = false ∧ up.inImage 4096 = false ∧ up.poisoned 0 4096 = false ∧
        ∀ i, i < 4 → tget false up.badUnits ((4096 + i) / 64) = false) ∧
      (up.reg (rLayout 0)).testBit 5 = true ∧ up.coreOk 124 = true) ∧
    (up.install = none ∧ ({ up with install := some (0, 0, 0, 0) } : State).install ≠ none) ∧ ({ up with off := true } : State).off = true ∧
    (up.spdm.phase < 1 ∧ ({ up with spdm := { up.spdm with phase := 3, session := true } } : State).spdm.session = true) := by decide +kernel

/-- A circuit in phase 0 within its own cluster has a path of one hop (Table 14-5). -/
theorem witness_DeviceStepsOccur_circuit :
    circPath ((up.setReg (rCph 0 0) 1).setReg (rSlt 0 0 4 0) 5).fresh 0 0 0 = some (1, 0) := by decide +kernel

/-! ### Encodings that are found against, and ill-formed terms -/

/-- What a field decodes to is found against: by an excluded value or code (`ILLOP`), or by a reserved one (`RSVFLD`). -/
def bad (sl : Slot) (l : List (Nat × Nat)) : Bool × Bool :=
  let x := decSlot sl (l.foldl (fun n f => n + f.2 * 2 ^ f.1) 0)
  (x.ill != [], x.rsv != [])

/-- R31, R33, R37, R44 to R54: unassigned codes, excluded values, reserved codes and reserved fields. -/
theorem test_decode_found_against :
    [bad .ct [(42, 0x1F)], bad .ct [(42, 0x3F)], bad .sc [(40, 0x01)], bad .va [(56, 0x0F)], bad .mx [(42, 0x02)], bad .ld [(42, 0x0C)],
     bad .st [(42, 0x08)], bad .cp [(28, 6)], bad .cp [(28, 1)], bad .sy [(26, 0x0E)], bad .xf [(26, 0x0A)], bad .rd [(28, 8)],
     bad .sc [(40, 0x44), (22, 1)], bad .sc [(40, 0x68)], bad .cp [(28, 15), (21, 1)], bad .ld [(42, 4)], bad .ct [(42, 6), (10, 1)]].all
      (· == (true, false)) = true ∧
    [bad .ct [(42, 0x0D), (0, 1)], bad .ct [(42, 0x18), (32, 3)], bad .sc [(40, 0x70), (7, 5)], bad .va [(56, 1), (54, 3)],
     bad .va [(56, 1), (50, 15)], bad .sc [(40, 0x50), (29, 33)], bad .rd [(28, 1), (10, 6)], bad .mx [(42, 0x10), (2, 3)]].all
      (· == (false, true)) = true := by decide +kernel

/-- Which slot operations are privileged (R421, Table 02-11, R46). -/
theorem test_decode_privileged :
    ([0x31, 0x33, 0x34, 0x35, 0x36, 0x37].all fun o => (decSlot .ct (o * 2 ^ 42)).priv) = true ∧
    ((List.range 64).filter fun o => (decSlot .ct (o * 2 ^ 42)).priv) = [0x31, 0x33, 0x34, 0x35, 0x36, 0x37] ∧
    ((List.range 256).filter fun o => (decSlot .sc (o * 2 ^ 40)).priv) = [0x7D, 0x7E] := by decide +kernel

/-- An ill-formed term for each check of WellFormed. -/
def illFormed : List Instr :=
  let h : VH := ⟨.va, .w512, 0⟩
  [.jmp 0 7, .loop 0 0 0 (.imm 1), .loop 0 7 0 (.imm 1), .loop 0 1 0 (.imm 0), .loop 0 1 0 (.lc 0), .lpCnt 0 7 false, .lpIdx 0 0, .lpStr 0 0 0,
   .fmtLo 0x400000, .fmtHi 0x2000, .fmtHi 0x20000000, .fork 0 3, .tlbInvFn 9 false, .tlbInvPg 0 9 false, .fadd 5 1 2 3, .fmul 5 1 2 3,
   .scFma 5 1 2 3 4, .fcmp 7 0 .cq 1 2, .fcmp 0 5 .cq 1 2, .scCvt 10 10 0 1 2, .scCvt 0 10 0 1 2, .scCvt 10 4 5 1 2,
   .scMov (.vec .va 0 1 true) 1, .scMov (.lc 0 false) 1, .scMov (.lx 7) 1, .rdc 1 7, .wrc 3 1,
   .vAdd h 13 1 2 3 0 false, .vAdd h 0 1 2 3 1 false, .vAdd h 10 1 2 3 5 false, .vSub h 10 1 2 3 0 true, .vMul h 10 1 2 3 0 true,
   .vMulh h 10 1 2 3, .vFma h 0 1 2 3 4 0, .vFms h 10 1 2 3 4 5, .vFnma h 0 1 2 3 4 0, .vMin h 13 1 2 3 0, .vMax h 10 1 2 3 7,
   .vAbs h 14 1 2 0, .vNeg h 0 1 2 1, .vRcp h 0 1 2 0, .vRsq h 10 1 2 5, .vExp2 h 0 1 2 0, .vLog2 h 0 1 2 0, .vTanh h 0 1 2 0,
   .vSilu h 0 1 2 0, .vSoftplus h 0 1 2 0, .vAnd h 8 1 2 3, .vOr h 8 1 2 3, .vXor h 8 1 2 3, .vShl h 8 1 2 3, .vShr h 8 1 2 3, .vSar h 8 1 2 3,
   .vCvt h 10 15 1 2 0 0, .vCvt h 10 10 1 2 0 5, .vCvt h 10 11 1 2 4 0, .vCmpEq h 13 1 2 3 0, .vCmpNe h 13 1 2 3 0, .vCmpLt h 13 1 2 3 0,
   .vCmpLe h 13 1 2 3 0, .vCmpGt h 13 1 2 3 0, .vCmpGe h 13 1 2 3 0, .vCmpUn h 0 1 2 3 0, .vCmpEqU h 13 2 3 0, .vCmpNeU h 13 2 3 0,
   .vCmpLtU h 13 2 3 0, .vCmpLeU h 13 2 3 0, .vCmpGtU h 13 2 3 0, .vCmpGeU h 13 2 3 0, .vCmpUnU h 0 2 3 0]

def illFormed2 : List Instr :=
  let h : VH := ⟨.va, .w512, 0⟩
  [.vSel h 13 1 2 3 0, .vPerm h 13 1 2 3 4, .vShuf h 13 0 1 2 0 0, .vShuf h 0 7 1 2 0 0, .vShuf h 0 0 1 2 3 0, .vShuf h 4 5 1 2 0 16,
   .vShuf h 4 6 1 2 0 1, .vBcast h 13 1 2 0, .vBcast h 4 1 2 16, .vIota h 13 1, .vAny h 13 1, .vAll h 13 1, .vMovToScalar .va .w512 1 2 8,
   .acas true true 63 ⟨0, 0⟩, .ldAcq 6 (.s 1) ⟨0, 0⟩, .stRel 6 (.s 1) ⟨0, 0⟩, .nbInit 48 1, .nbInit 0 0, .nbExp 48 1, .nbArr 48 none,
   .nbWait 48 false, .nbStat 1 48 false, .tlWait 6 true 0, .tlWait 0 false 32, .tlRead 1 6 0, .hAdvc 0 0, .hAdvp 0 8193, .drain 6, .fence 6,
   .xfCvt 15 0 0 0 0 false, .xfCvt 10 11 0 0 4 false, .xfCvt 13 6 0 0 0 false, .xfTr 3 0 0, .xfExpSp24 2 0 0, .xfPack 3 0 0,
   .xfScl 3 false 0 0 0 0, .xfScl 1 true 0 0 0 0, .xfScl 0 false 5 0 0 0, .xfColChk 15 0, .rdAdd 0 ⟨0, false⟩ 3 0, .rdKadd 0 ⟨0, false⟩ 0 6,
   .rdMax 0 ⟨0, false⟩ 3 0, .rdMin 0 ⟨0, false⟩ 3 0, .rdAmax 0 ⟨0, false⟩ 1 0, .rdMv 0 0 3 (.s 0) 0 false, .rdMv 0 1 1 (.s 0) 0 false,
   .rdMv 0 0 0 (.v ⟨.va, 0⟩) 1 false, .rdClr 0 0 0, .rdClr 1 3 0, .rdClr 1 1 3, .rdClr 1 0 1, .mma 0 0 ⟨0, false⟩ 6 true false false,
   .mrow 0 .va 0 3 0, .mdist 0 0 ⟨0, false⟩ 6 true 0 false 0 false, .mdist 0 0 ⟨0, false⟩ 7 false 3 false 0 false, .cupd 0 ⟨31, false⟩ 0]

theorem test_wellFormed_refuses : (illFormed ++ illFormed2).all (fun i => !i.wf) = true := by decide +kernel

/-- A bundle with an unknown kind, and one with an unassigned opcode, decode to no bundle (R31). -/
theorem test_bundle_refused :
    (decodeBundle 2).isNone = true ∧ (decodeBundle (0x3F * 2 ^ 58)).isNone = true ∧ decodeTableWord 512 (0x3F * 2 ^ 58) = none := by
  decide +kernel

/-! ### Worked examples of the spec -/

/-- The example of R30's section: `add.i64 s3, s3, 8 | add.i8 va4, va5, va6`; the examples of the chapters on vectors, the
matrix unit, distances, transforms, tasks and loops. -/
theorem test_examples_decode :
    (decSlot .va 0x0568_040A_0583_01A2).ins = some (.vFma ⟨.va, .w512, 2⟩ 10 10 11 12 13 2) ∧
    (decSlot .mx 0x0408_519F_0002).ins = some (.mma 2 5 ⟨3, false⟩ 31 false true false) ∧
    (decSlot .mx 0x4004_4100_0030).ins = some (.mdist 1 4 ⟨2, false⟩ 0 false 0 true 1 false) ∧
    (decSlot .sy 0x1000_0045).ins = some (.nbWait 5 true) ∧ (decSlot .xf 0x1401_8213).ins = some (.xfRot 3 1 2 24) ∧
    (decSlot .rd 0x2000_0018).ins = some (.rdKadd 0 ⟨6, false⟩ 0 0) ∧ (decSlot .ct 0x6001_0000_0120).ins = some (.fork 0x120 1) ∧
    (decSlot .ct 0x1800_0020_6804).ins = some (.loop 4 2 3 (.imm 16)) ∧ (decSlot .mx 0x8000_5000_0000).ins = some (.rwStat 5) := by
  decide +kernel

/-- R65: -3.3, 0.005, 2^-20, 450, 500 and a NaN to E4M3; -3.3 to E5M2. -/
theorem test_convert_fp8 :
    ([0xC0533333, 0x3BA3D70A, 0x35800000, 0x43E10000, 0x43FA0000, 0x7FC00000].map fun x => convTo 11 0 (elemVal 10 x)) =
      [(0xC5, false), (0x03, false), (0x00, false), (0x7E, false), (0x7E, true), (0x7F, false)] ∧
    convTo 12 0 (elemVal 10 0xC0533333) = (0xC3, false) := by decide +kernel

set_option maxRecDepth 20000 in
/-- R70: the check value of CRC-32C. -/
theorem test_crc32c :
    crcRun 0xFFFFFFFF [0x31, 0x32, 0x33, 0x34, 0x35, 0x36, 0x37, 0x38, 0x39] ^^^ 0xFFFFFFFF = 0xE3069283 := by decide +kernel

/-- R234: the example row of `xf.pack.e32`. -/
theorem test_pack_example :
    pack 2 (0x3F800000 + 0x80000000 * 2 ^ (32 * 5)) = ofBytes [0xB2, 0x02, 0x21, 0, 0, 0, 0, 0, 0x80, 0x3F, 0, 0, 0, 0x80] := by
  decide +kernel

/-! ### One step each -/

/-- The state an outcome leads to. -/
def nextOf (o : Host.Outcome State Fault Refusal) : State :=
  match o with
  | .next t => t
  | _ => ready

/-- What a step of `ready`, changed, leaves after a bundle, its results landed. -/
def after (s : State) (_ : Slot) (i : Instr) : State :=
  match exec i s with
  | .next t => landDue t 0 0 1000
  | _ => s

/-- `add.n32` wraps and clears the upper half; `mulh.i64` of two negative numbers; `rem.i64` by zero gives the dividend. -/
theorem test_scalar :
    (tget 0 ((after (withS [(1, 0xFFFFFFFF), (2, 0x100000001)]) .sc (.scAdd .n32 3 1 (.reg 2))).core 0).s 3) = 0 ∧
    (tget 0 ((after (withS [(1, 2 ^ 63)]) .sc (.scMulh .i64 3 1 (.imm 0x3FFFFE))).core 0).s 3) = 1 ∧
    (tget 0 ((after (withS [(1, 7)]) .sc (.scRem .i64 3 1 (.reg 0))).core 0).s 3) = 7 := by decide +kernel

/-- `s0` stays zero and a write to it is no result. -/
theorem test_s0 : ((after (withS [(1, 7)]) .sc (.scAdd .i64 0 1 (.reg 1))).core 0).s = [(1, 7)] := by decide +kernel

/-- `add.i8.sat` clamps a lane, counts it, and leaves the lanes past the width alone. -/
theorem test_vector_saturates :
    let s := inCore fun c => { c with va := [(4, row (2 ^ 1000)), (5, row 0x64), (6, row 0x64)] }
    let t := after s .va (.vAdd ⟨.va, .w256, 0⟩ 0 4 5 6 0 true)
    tget 0 (t.core 0).va 4 = row (2 ^ 1000 + 0x7F) ∧ (t.ctx 0 0).satc = 1 := by decide +kernel

/-- `st.s` into the second word of a row, read back by `ld.s`. -/
theorem test_store_load :
    let s := (withS [(5, 0x1122334455667788)]).modCore 0 fun c => { c with sa := [(2, 136)], la := [(2, 136)] }
    let t := after s .st (.stS 5 ⟨2, 0⟩)
    t.padRow 0 1 = 0x1122334455667788 * 2 ^ 64 ∧ tget 0 ((after t .ld (.ldS 6 ⟨2, 0⟩)).core 0).s 6 = 0x1122334455667788 := by
  decide +kernel

/-- `call` saves the next bundle; `ret` with an empty stack is a precise `CTLERR` with INFO 4 and enters the handler. -/
theorem test_flow :
    ((after ready .ct (.call 9)).ctx 0 0).ctl.pc = 9 ∧ ((after ready .ct (.call 9)).ctx 0 0).ctl.ret = [(1, false)] ∧
    (let t := nextOf (exec .ret ready); (t.ctx 0 0).hand.on = true ∧
      tget 0 (t.ctx 0 0).trec 0 = 12 + 2 ^ 16 ∧ tget 0 (t.ctx 0 0).trec 2 = 4) := by decide +kernel

/-- A step fetches, decodes and runs the bundle loaded at the program counter. -/
theorem test_step_li :
    let t := nextOf (step (State.reset.withFetchWord 512 ((0x68 * 2 ^ 40 + 3 * 2 ^ 29 + 2 ^ 22 + 7) * 2 ^ 64)))
    (t.ctx 0 0).ctl.pc = 1 ∧ tget 0 ((landDue t 0 0 9).core 0).s 3 = 7 := by decide +kernel

end Sys2Proof.Tests
end

namespace Sys2Proof.Machine

/-! ### No instruction is refused, and no step stops -/

theorem skipOp_next (s : State) : ∃ t, skipOp s = .next t := by
  unfold skipOp
  split
  · exact ⟨_, rfl⟩
  · split <;> exact ⟨_, rfl⟩

/-- Every instruction answers a next state: slot operations and steps of the hardware do so by their form. -/
theorem exec_next (i : Instr) (s : State) : ∃ t, exec i s = .next t := by
  cases i with
  | skippedBundle => exact skipOp_next s
  | _ => exact ⟨_, rfl⟩

/-- A computation of the machine that answers, and is not refused. -/
def Answers {α : Type} (x : Ran α) : Prop := ∃ a, x = .ok a

theorem answers_ok {α : Type} (a : α) : Answers (.ok a : Ran α) := ⟨a, rfl⟩
theorem Answers.map {α β : Type} {x : Ran α} (h : Answers x) (f : α → β) : Answers (x.map f) := by
  obtain ⟨a, rfl⟩ := h
  exact ⟨f a, rfl⟩
theorem answers_ite {α : Type} {c : Prop} [Decidable c] {x y : Ran α} (hx : Answers x) (hy : Answers y) :
    Answers (if c then x else y) := by
  split
  · exact hx
  · exact hy
theorem Answers.not_error {α : Type} {x : Ran α} {r : Refusal} (h : Answers x) : x ≠ .error r := by
  obtain ⟨a, rfl⟩ := h
  exact nofun
theorem answers_exec (i : Instr) (s : State) : Answers (ran (exec i s)) := by
  obtain ⟨t, ht⟩ := exec_next i s
  rw [ht]
  exact answers_ok t

/-! The operations of a bundle. -/

theorem answers_runOp (s : State) (o : SOp) : Answers (runOp s o) := answers_ite (answers_exec ..) (answers_ok s)

theorem answers_runOps (l : List SOp) (s : State) : Answers (runOps l s) := by
  induction l generalizing s with
  | nil => exact answers_ok s
  | cons o l ih =>
    obtain ⟨t, ht⟩ := answers_runOp s o
    rw [runOps, ht]
    exact ih t

theorem answers_runRep (s : State) (k j : Nat) (p : Plan) (o : RwOp) (word : Nat) : Answers (runRep s k j p o word) := by
  unfold runRep
  extract_lets go _ first mark
  have hgo (u : State) : Answers (go u) := answers_exec ..
  have hfirst : Answers first := by
    unfold first
    split
    · exact answers_ok _
    · exact hgo s
  obtain ⟨t, ht⟩ := hfirst
  rw [ht]
  dsimp only
  split
  · next h => exact absurd h (answers_ite (hgo _) (answers_ok t)).not_error
  · exact answers_ok _

theorem answers_runReps (k j : Nat) (p : Plan) (l : List RwOp) (n : Nat) (s : State) : Answers (runReps k j p l n s) := by
  induction l generalizing n s with
  | nil => exact answers_ok s
  | cons o l ih =>
    obtain ⟨t, ht⟩ := answers_runRep s k j p o (p.word + n * 2 ^ 9)
    rw [runReps, ht]
    exact ih (n + 1) t

/-! A context's issue, a core's issue cycle, a turn. -/

theorem answers_issueBundle (s : State) (k j word : Nat) (lit : Option Nat) (sec : Bool) :
    Answers (issueBundle s k j word lit sec) := by
  unfold issueBundle
  dsimp only
  split
  · exact (answers_exec ..).map _
  · split
    · exact answers_ok _
    · split
      · exact (answers_runOps ..).map _
      · refine answers_ite ((answers_runOps ..).map _) ?_
        split
        · next h => exact absurd h (answers_ite ((answers_runReps ..).map _) (answers_ok _)).not_error
        · exact answers_ite (answers_ok _) ((answers_runReps ..).map _)

theorem answers_issueCtx (s : State) (k j : Nat) (sec : Bool) : Answers (issueCtx s k j sec) := by
  unfold issueCtx
  dsimp only
  split
  · exact answers_ok _
  · exact answers_ok _
  · exact answers_ok _
  · exact answers_issueBundle ..

theorem answers_issueSecond (s : State) (k j : Nat) (w1 : Option Nat) (ops1 : List SOp) :
    Answers (issueSecond s k j w1 ops1) := by
  refine answers_ite (answers_ok s) (answers_ite (answers_ok _) ?_)
  split
  · exact answers_ite ((answers_issueBundle ..).map _) (answers_ok _)
  · exact answers_ok _
  · exact answers_ok _
  · exact answers_ite ((answers_issueCtx ..).map _) (answers_ok s)

theorem answers_issueCore (s : State) (k : Nat) : Answers (issueCore s k) := by
  unfold issueCore
  extract_lets cand first
  have hfirst : Answers first := by
    unfold first
    split
    · exact answers_ok _
    · exact answers_ite (answers_ok _) (answers_ite (answers_ok _) (answers_ite (answers_ok _) (answers_issueCtx ..)))
  clear_value cand first
  obtain ⟨d, rfl⟩ := hfirst
  cases cand with
  | none => exact answers_ok d.s
  | some j => exact answers_ite (answers_ok _) (answers_ite (answers_issueSecond ..) ((answers_issueSecond ..).map _))

theorem answers_takeTurn (s : State) (t : Turn) : Answers (takeTurn s t) := by
  cases t with
  | idle => exact answers_ok _
  | event i a => exact (answers_exec ..).map _
  | issue k => exact answers_ite (answers_ok _) ((answers_issueCore ..).map _)

theorem answers_cycle (s : State) : Answers (cycle s) := by
  unfold cycle
  split
  · exact answers_takeTurn ..
  · exact answers_takeTurn ..

/-- The machine always takes a next step. -/
theorem step_next (s : State) : ∃ t, step s = .next t := by
  obtain ⟨t, ht⟩ := answers_cycle s
  exact ⟨t, by rw [step, ht]⟩

/-- Settles O45: every instruction answers a next state by the form of its meaning, and so does each part of a turn. -/
theorem noStepStops : Obligations.NoStepStops := ⟨exec_next, step_next⟩

end Sys2Proof.Machine

namespace Sys2Proof.Machine

/-! ### Steps of the surroundings -/

theorem argN_fresh {s : State} {l : List Nat} (h : s.arg = l) (i : Nat) : s.fresh.argN i = l.getD i 0 := by
  rw [← h]; rfl
theorem argBytes_fresh {s : State} {l : List Nat} (h : s.arg = l) (i : Nat) :
    s.fresh.argBytes i = (l.drop i).map (BitVec.ofNat 8) := by
  rw [← h]; rfl

/-- A step that may take place leads where its function leads. -/
theorem occurs_event {s t : State} {i : Instr} {f : State → State} (hi : exec i s = event f s) (hd : s.down = false)
    (ht : f s.fresh = t) : Occurs s i t := by
  subst ht
  rw [Occurs, hi]
  simp only [event, hd, Bool.false_eq_true, false_or]
  rfl

/-- A property into which the record of the step itself does not enter: its free values, its wait, its cycle. -/
def IgnoresStep (p : State → Prop) : Prop :=
  ∀ (u : State) (c : Nat) (h : Bool) (e : Nat), p u → p { u with freeCtr := c, held := h, evt := e }

/-- What holds of the state a step leads to without a wait, the step brings about. -/
theorem Occurs.brings {s t : State} {i : Instr} {p : State → Prop} (h : Occurs s i t) (hh : t.held = false) (hp : p t)
    (hc : IgnoresStep p) : Brings s i p := by
  refine ⟨_, h, ?_⟩
  split
  · next ht =>
    obtain rfl : t = s.fresh := ht.resolve_left (by simp [hh])
    exact hc s.fresh s.freeCtr s.held s.evt hp
  · exact hc t t.freeCtr t.held t.now hp

/-! ### Device registers -/

theorem reg_setReg (s : State) (off v n : Nat) : (s.setReg off v).reg n = if n = off then v % 2 ^ 64 else s.reg n := by
  simp only [State.reg, State.setReg, tget_tput]
  split
  · exact BitVec.toNat_ofNat ..
  · rfl
@[simp] theorem reg_setReg_same (s : State) (off v : Nat) : (s.setReg off v).reg off = v % 2 ^ 64 := by
  rw [reg_setReg, if_pos rfl]
theorem reg_setReg_other (s : State) {off n : Nat} (v : Nat) (h : n ≠ off) : (s.setReg off v).reg n = s.reg n := by
  rw [reg_setReg, if_neg h]
theorem reg_lt (s : State) (off : Nat) : s.reg off < 2 ^ 64 := BitVec.isLt _

/-! ### An access from outside wakes the device (R458) -/

theorem hostWake_only (s : State) : hostWake s = { s with regs := (hostWake s).regs } := by
  unfold hostWake
  split <;> rfl
theorem hostWake_awake {s : State} (h : s.pwr ≠ 2) : hostWake s = s := if_neg h
@[simp] theorem hostWake_held (s : State) : (hostWake s).held = s.held := by rw [hostWake_only]
@[simp] theorem hostWake_spdm (s : State) : (hostWake s).spdm = s.spdm := by rw [hostWake_only]
@[simp] theorem hostWake_install (s : State) : (hostWake s).install = s.install := by rw [hostWake_only]
/-- Only the power state is written. -/
theorem reg_hostWake (s : State) {n : Nat} (h : n ≠ rPwrSts) : (hostWake s).reg n = s.reg n := by
  unfold hostWake
  split
  · exact reg_setReg_other _ _ h
  · rfl
theorem reg_hostWake_of_le (s : State) {n : Nat} (h : 0x200 ≤ n) : (hostWake s).reg n = s.reg n :=
  reg_hostWake s (Nat.ne_of_gt (Nat.lt_of_lt_of_le (by decide) h))

theorem blockReady_hostWake (s : State) (off : Nat) : blockReady (hostWake s) off = blockReady s off := by
  unfold blockReady
  rw [reg_hostWake s (by decide), reg_hostWake s (by decide)]

theorem sliceOf_hostWake (s : State) (p a : Nat) : (hostWake s).sliceOf p a = s.sliceOf p a := by
  have hm (j : Nat) : (hostWake s).reg (rSlm p j) = s.reg (rSlm p j) :=
    reg_hostWake_of_le s (by unfold rSlm rSlcfg; omega)
  have he (e : Nat) : (hostWake s).reg (rSlmap p e) = s.reg (rSlmap p e) :=
    reg_hostWake_of_le s (by unfold rSlmap rSlcfg; omega)
  simp only [State.sliceOf, hm, he]
theorem poisoned_hostWake (s : State) (p a : Nat) : (hostWake s).poisoned p a = s.poisoned p a := by
  simp only [State.poisoned, State.lineAt, sliceOf_hostWake]
  rw [hostWake_only]
theorem unitsReady_hostWake {s : State} (h : s.unitsReady) : (hostWake s).unitsReady := by
  obtain ⟨h1, h2, h3⟩ := h
  refine ⟨fun p a => ?_, fun a => ?_, ?_⟩
  · rw [State.sliceReady, reg_hostWake s (by decide), sliceOf_hostWake]
    exact h1 p a
  · rw [State.chanReady, reg_hostWake s (by decide), reg_hostWake s (by decide)]
    exact h2 a
  · rw [hostWake_only]
    exact h3

theorem chainsTo_hostWake (s : State) (goal n d node c ph : Nat) :
    chainsTo (hostWake s) goal n d node c ph = chainsTo s goal n d node c ph := by
  have hs (d node p ph : Nat) : slotIn (hostWake s) d node p ph = slotIn s d node p ph := by
    rw [slotIn, reg_hostWake_of_le s (by unfold rSlt; omega)]
    rfl
  induction n generalizing d node c ph with
  | zero => rfl
  | succ n ih => simp only [chainsTo, hs, ih]
theorem circPath_hostWake (s : State) (k c dcore : Nat) : circPath (hostWake s) k c dcore = circPath s k c dcore := by
  have hp (c : Nat) : (hostWake s).reg (rCph k c) = s.reg (rCph k c) := reg_hostWake_of_le s (by unfold rCph rCcb; omega)
  have hc (c : Nat) : (hostWake s).reg (rCirc k c) = s.reg (rCirc k c) :=
    reg_hostWake_of_le s (by unfold rCirc rCcb; omega)
  simp only [circPath, circChains, chainsTo_hostWake, hp, hc] <;> rfl

/-! ### Writes that take effect (R447) -/

theorem and_eq_zero_of_low {v m k : Nat} (hv : v < 2 ^ k) (hm : m % 2 ^ k = 0) : v &&& m = 0 := by
  have h : (v &&& m) % 2 ^ k = 0 := by rw [Nat.and_mod_two_pow, hm, Nat.and_zero]
  rwa [Nat.mod_eq_of_lt (Nat.and_le_left.trans_lt hv)] at h

/-- A write of the low k bits of a register, which are its writable ones, takes effect where its unit is ready and its value keeps
the rules. -/
theorem regWrite_effect {s : State} {off v k ro : Nat} (ho : off < 2 ^ 26) (hb : regBits off = some (2 ^ k - 1, ro)) (hv : v < 2 ^ k)
    (hm : (2 ^ 64 - 1 - ((2 ^ k - 1) ||| ro)) % 2 ^ k = 0) (hk : 2 ^ k - 1 ≠ 0) (hr : blockReady s off = true)
    (hok : valueOk (hostWake s) off v = true) : regWrite s 0 off v = regEffect (hostWake s) off v (2 ^ k - 1) := by
  unfold regWrite
  have ha : v &&& (2 ^ k - 1) = v := Nat.and_two_pow_sub_one_of_lt_two_pow hv
  simp only [Nat.mod_eq_of_lt ho, hb, and_eq_zero_of_low hv hm, blockReady_hostWake, hr, ha, hok, if_neg hk, ne_eq, not_true_eq_false,
    false_and, if_false, Bool.not_true, Bool.false_eq_true, or_self]

theorem regWrite_secCtl {s : State} {v : Nat} (h : v < 3) (hs : s.reg rSecSts % 4 < v) :
    regWrite s 0 rSecCtl v = (hostWake s).setReg rSecSts (s.reg rSecSts / 4 * 4 + v) := by
  rw [regWrite_effect (k := 2) (ro := 0) (by decide) (by decide) (by omega) (by decide) (by decide) rfl]
  · rw [← reg_hostWake s (n := rSecSts) (by decide)]
    rfl
  · rw [← reg_hostWake s (n := rSecSts) (by decide)] at hs
    show (decide (v < 3) && decide ((hostWake s).reg rSecSts % 4 < v)) = true
    simp [h, hs]

/-! ### Security, debug and power (R454 to R458) -/

/-- A security state that is no higher than the one in force is refused. -/
theorem regWrite_secCtl_refused {s : State} {v : Nat} (h : v < 3) (hs : v ≤ s.reg rSecSts % 4) :
    regWrite s 0 rSecCtl v = regDiscard (hostWake s) rSecCtl := by
  have hok : valueOk (hostWake s) rSecCtl (v &&& (2 ^ 2 - 1)) = false := by
    rw [Nat.and_two_pow_sub_one_of_lt_two_pow (by omega)]
    show (decide (v < 3) && decide ((hostWake s).reg rSecSts % 4 < v)) = false
    rw [reg_hostWake s (by decide)]
    simp [hs]
  have hv : v &&& (2 ^ 64 - 1 - (2 ^ 2 - 1)) = 0 := and_eq_zero_of_low (k := 2) (by omega) (by decide)
  unfold regWrite
  have hb : regBits rSecCtl = some (2 ^ 2 - 1, 0) := by decide
  simp only [show rSecCtl % 2 ^ 26 = rSecCtl from rfl, hb, Nat.or_zero, hv, hok]
  rfl

theorem sec_setReg {s : State} {v : Nat} (h : v < 4) : (s.setReg rSecSts (s.reg rSecSts / 4 * 4 + v)).reg rSecSts % 4 = v := by
  have := reg_lt s rSecSts
  rw [reg_setReg_same]
  omega

theorem regWrite_dbgCtl {s : State} {v : Nat} (h : v < 8) (hv : v % 4 ≠ 3) :
    regWrite s 0 rDbgCtl v = dbgRequest (hostWake s) v := by
  rw [regWrite_effect (k := 3) (ro := 0) (by decide) (by decide) h (by decide) (by decide) rfl]
  · rfl
  · show (v % 4 != 3) = true
    simpa using hv

/-- The debug state that `DBG_STS` is set to. -/
theorem setDbg_state (s : State) {n : Nat} (h : n < 4) (r a : Bool) : (setDbg s n r a).reg rDbgSts % 4 = n := by
  rw [setDbg, reg_setReg_same]
  cases r <;> cases a <;> simp [b2n] <;> omega

/-- A request that the rules allow sets the debug state (R457): a lower one always, a higher one while security is OPEN. -/
theorem dbgRequest_state {s : State} {v : Nat} (h : v % 4 ≤ s.reg rDbgSts % 4 ∨ s.reg rSecSts % 4 = 0) :
    (dbgRequest s v).reg rDbgSts % 4 = v % 4 ∧ (dbgRequest s v).held = s.held := by
  have hv : v % 4 < 4 := Nat.mod_lt _ (by decide)
  unfold dbgRequest
  dsimp only
  split
  · refine ⟨setDbg_state _ hv .., ?_⟩
    split <;> rfl
  · next hn =>
    have hs := h.resolve_left hn
    simp only [hs]
    exact ⟨setDbg_state _ hv .., rfl⟩

theorem regWrite_pwrCtl {s : State} {v : Nat} (h : v < 4) : regWrite s 0 rPwrCtl v = pwrRequest (hostWake s) v := by
  rw [regWrite_effect (k := 3) (ro := 0) (by decide) (by decide) (by omega) (by decide) (by decide) rfl]
  · rfl
  · exact decide_eq_true h
/-- In RUN and SLOW a request is taken up as it is. -/
theorem regWrite_pwrCtl_on {s : State} {v : Nat} (h : v < 4) (hp : s.pwr < 2) : regWrite s 0 rPwrCtl v = pwrEnter s v := by
  rw [regWrite_pwrCtl h, hostWake_awake (by omega), pwrRequest, if_neg (by omega)]

@[simp] theorem setPwr_pwr (s : State) {n : Nat} (h : n < 8) (r : Bool) : (setPwr s n r).pwr = n := by
  rw [State.pwr, setPwr, reg_setReg_same]
  cases r <;> simp [b2n] <;> omega
theorem enterPark_pwr (s : State) : (enterPark s).pwr = 3 := by
  have h : (enterPark s).pwr = (setPwr s 3 false).pwr := by
    simp only [State.pwr, enterPark, List.range, List.range.loop, List.foldl]
    rw [reg_setReg_other _ _ (by decide), reg_setReg_other _ _ (by decide), reg_setReg_other _ _ (by decide)]
  rw [h, setPwr_pwr s (by decide)]
theorem enterPark_sysReady (s : State) {i : Nat} (h : i < 3) : (enterPark s).reg (rSysReady i) = 0 := by
  simp only [enterPark, List.range, List.range.loop, List.foldl, reg_setReg, rSysReady]
  interval_cases i <;> rfl

/-! ### The control registers of installs, the bindery and `ERRSTS` -/

theorem regWrite_imgGo {s : State} (hr : (s.reg (rSysReady 0)).testBit 57 = true) (hi : s.install = none) :
    regWrite s 0 rImgGo 1 = { (hostWake s).setReg rImgSts ((hostWake s).reg rImgSts / 8 * 8 + 1) with
      install := some (s.reg rImgAddr, s.reg rImgLen, s.reg rImgKind, s.reg rImgIdx) } := by
  rw [regWrite_effect (k := 1) (ro := 0) (by decide) (by decide) (by decide) (by decide) (by decide) _ rfl]
  · have hg (n : Nat) (hn : 0x200 ≤ n) : (hostWake s).reg n = s.reg n := reg_hostWake_of_le s hn
    rw [← hg rImgAddr (by decide), ← hg rImgLen (by decide), ← hg rImgKind (by decide), ← hg rImgIdx (by decide)]
    show (if bitAt 1 0 ∧ (hostWake s).install.isNone then _ else _) = _
    rw [hostWake_install, hi]
    rfl
  · show bitAt (s.reg (rSysReady 0)) 57 = true
    rw [bitAt_testBit, hr]

theorem regWrite_bndCtl {s : State} (hr : (s.reg (rSysReady 0)).testBit 57 = true) :
    regWrite s 0 rBndCtl 1 = (hostWake s).setReg rBndCtl 1 := by
  rw [regWrite_effect (k := 1) (ro := 2) (by decide) (by decide) (by decide) (by decide) (by decide) _ rfl]
  · rfl
  · show bitAt (s.reg (rSysReady 0)) 57 = true
    rw [bitAt_testBit, hr]

theorem rErrsts_eq (a : Nat) : rErrsts a = a / 0x10000 * 0x10000 + 0xFFF8 := rfl
theorem regWrite_errsts {s : State} {a : Nat} (ha : a < 2 ^ 26) (hr : blockReady s (rErrsts a) = true) :
    regWrite s 0 (rErrsts a) 1 = (hostWake s).setReg (rErrsts a) ((hostWake s).reg (rErrsts a) / 2 * 2) := by
  have h1 : rErrsts a % 0x10000 = 0xFFF8 := by rw [rErrsts_eq]; omega
  have h2 : rErrsts a % 8 = 0 := by rw [rErrsts_eq]; omega
  rw [regWrite_effect (k := 1) (ro := field 23 8) (by rw [rErrsts_eq]; omega) _ (by decide) (by decide) (by decide) hr]
  · rw [regEffect, if_pos h1]; rfl
  · rw [valueOk, if_pos h1]
  · rw [regBits, if_neg (by omega), if_pos h1]; rfl

/-! ### Core control blocks (Tables 14-6, 18-4) -/

section
variable {off : Nat} (h1 : 0x100000 ≤ off) (h2 : off < 0x900000) (hf : off % 0x10000 ≠ 0xFFF8)
include h1 h2 hf

theorem regBits_ccb (h8 : off % 8 = 0) : regBits off = ccbBits (off % 0x10000) := by
  unfold regBits
  rw [if_neg (by omega), if_neg hf, if_neg (by omega), if_neg (by omega), if_neg (by omega), if_neg (by omega), if_neg (by omega),
    if_pos h2]
omit hf in
theorem blockReady_ccb (s : State) : blockReady s off = (s.reg (rSysReady 1)).testBit ((off - 0x100000) / 0x40000) := by
  unfold blockReady
  rw [if_neg (by omega), if_neg (by omega), if_neg (by omega), if_pos ⟨h1, h2⟩, bitAt_testBit]
theorem valueOk_ccb (s : State) (v : Nat) : valueOk s off v =
    if off % 0x10000 = 0 then decide (1024 ≤ v) && decide (v ≤ 1048576)
    else if off % 0x10000 = 8 then decide (1 ≤ v) && decide (v ≤ 2 ^ 24 - 1)
    else if 0x180 ≤ off % 0x10000 ∧ off % 0x10000 < 0x1C0 then decide (v ≤ 20) else true := by
  unfold valueOk
  dsimp only
  rw [if_neg hf, if_neg (by unfold rSecCtl; omega), if_neg (by unfold rDbgCtl; omega), if_neg (by unfold rPwrCtl; omega),
    if_neg (by omega), if_neg (by omega), if_neg (by omega), if_neg (by omega), if_pos h2]
theorem regEffect_ccb (s : State) (v w : Nat) : regEffect s off v w =
    if off % 0x10000 / 0x100 = 0x10 then circWrite s off v else s.setReg off (s.reg off - (s.reg off &&& w) + (v &&& w)) := by
  unfold regEffect
  dsimp only
  rw [if_neg hf, if_neg (by unfold rSecCtl; omega), if_neg (by unfold rDbgCtl; omega), if_neg (by unfold rPwrCtl; omega),
    if_neg (by unfold rImgGo; omega), if_neg (by unfold rBndCtl; omega), if_neg (by omega)]
  by_cases hc : off % 0x10000 / 0x100 = 0x10
  · rw [if_pos ⟨h1, h2, hc⟩, if_pos hc]
  · rw [if_neg (by tauto), if_neg hc, if_neg (by omega)]
end

/-- The time slice of a core in range, its cluster ready, is what `CCB_SLICE` then holds (R96). -/
theorem regWrite_slice {s : State} {k v : Nat} (hk : k < 128) (hr : (s.reg (rSysReady 1)).testBit (k / 4) = true) (h1 : 1024 ≤ v)
    (h2 : v ≤ 1048576) : (regWrite s 0 (rSlice k) v).reg (rSlice k) % 2 ^ 21 = v ∧ (regWrite s 0 (rSlice k) v).held = s.held := by
  have ho : rSlice k = 0x100000 + 0x10000 * k := rfl
  have hz : rSlice k % 0x10000 = 0 := by omega
  have hl : 0x100000 ≤ rSlice k := by omega
  have hu : rSlice k < 0x900000 := by omega
  rw [regWrite_effect (k := 21) (ro := 0) (by omega) _ (by omega) (by decide) (by decide),
    regEffect_ccb hl hu (by omega), if_neg (by omega)]
  · refine ⟨?_, hostWake_held s⟩
    rw [reg_setReg_same, Nat.and_two_pow_sub_one_eq_mod, Nat.and_two_pow_sub_one_eq_mod]
    omega
  · rw [blockReady_ccb hl hu, show (rSlice k - 0x100000) / 0x40000 = k / 4 by omega, hr]
  · rw [valueOk_ccb hl hu (by omega), if_pos hz]
    simp [h1, h2]
  · rw [regBits_ccb hl hu (by omega) (by omega), hz]
    rfl

/-- The fields of a circuit register (Table 14-6). -/
theorem ccbBits_circ {o : Nat} (h1 : 0x1000 ≤ o) (h2 : o < 0x1100) :
    ccbBits o = some (field 7 0, field 8 8 + field 23 16) := by
  unfold ccbBits
  rw [if_neg (by omega), if_neg (by omega), if_neg (by omega), if_neg (by omega), if_neg (by omega), if_neg (by omega),
    if_neg (by omega), if_neg (by omega), if_neg (by omega), if_neg (by omega), if_neg (by omega), if_neg (by omega), if_pos h2]

/-- A circuit whose path is found holds, once enabled, its destination, EN, VAL and LAT (R343). -/
theorem regWrite_circ {s : State} {k c d h x : Nat} (hk : k < 128) (hc : c < 32) (hd : d < 128)
    (hr : (s.reg (rSysReady 1)).testBit (k / 4) = true) (hp : circPath s k c d = some (h, x)) :
    regWrite s 0 (rCirc k c) (d + 2 ^ 7) =
      (hostWake s).setReg (rCirc k c) (d + 2 ^ 7 + 2 ^ 8 + (4 + 2 * h + 9 * x) % 256 * 2 ^ 16) := by
  have ho : rCirc k c = 0x100000 + 0x10000 * k + 0x1000 + 8 * c := rfl
  have hz : rCirc k c % 0x10000 = 0x1000 + 8 * c := by omega
  have hl : 0x100000 ≤ rCirc k c := by omega
  have hu : rCirc k c < 0x900000 := by omega
  rw [regWrite_effect (k := 8) (ro := field 8 8 + field 23 16) (by omega) _ (by omega) (by decide) (by decide),
    regEffect_ccb hl hu (by omega), if_pos (by omega)]
  · have e1 : (rCirc k c - 0x100000) / 0x10000 = k := by omega
    have e2 : rCirc k c % 0x100 / 8 = c := by omega
    have e3 : (d + 2 ^ 7) % 128 = d := by omega
    have e4 : (d + 2 ^ 7) % 2 ^ 8 = d + 2 ^ 7 := by omega
    have e5 : bitAt (d + 2 ^ 7) 7 = true := by
      rw [bitAt, Nat.shiftRight_eq_div_pow, show (d + 2 ^ 7) / 2 ^ 7 = 1 by omega]; rfl
    unfold circWrite
    simp only [e1, e2, e3, e4, e5, circPath_hostWake, hp, Bool.not_true, Bool.false_eq_true, if_false]
  · rw [blockReady_ccb hl hu, show (rCirc k c - 0x100000) / 0x40000 = k / 4 by omega, hr]
  · rw [valueOk_ccb hl hu (by omega), if_neg (by omega), if_neg (by omega), if_neg (by omega)]
  · rw [regBits_ccb hl hu (by omega) (by omega), hz, ccbBits_circ (by omega) (by omega)]
    rfl

/-! ### Memory that the host and its peers write -/

theorem ofBytes_lt (l : List Byte) : ofBytes l < 2 ^ (8 * l.length) := by
  induction l with
  | nil => decide
  | cons b r ih =>
    have hb : b.toNat < 256 := b.isLt
    rw [ofBytes, List.length_cons, Nat.mul_succ, pow_add]
    omega

theorem Memory.readN_writeN (n : Nat) (m : Memory) (a v : Nat) : (m.writeN a v n).readN a n = v % 2 ^ (8 * n) := by
  induction n generalizing m a v with
  | zero => rw [Memory.readN, Nat.mul_zero, pow_zero, Nat.mod_one]
  | succ n ih =>
    rw [Memory.writeN, Memory.readN, ih, Memory.read_writeN_other n _ (.inl (Nat.lt_succ_self a)), Memory.read_write, if_pos rfl,
      BitVec.toNat_ofNat, Nat.mul_succ, Nat.add_comm (8 * n), pow_add, Nat.mod_mul]
    rfl
/-- A list of bytes reads back where it was written. -/
theorem Memory.readN_writeN_bytes (m : Memory) (a : Nat) (l : List Byte) :
    (m.writeN a (ofBytes l) l.length).readN a l.length = ofBytes l := by
  rw [Memory.readN_writeN, Nat.mod_eq_of_lt (ofBytes_lt l)]

theorem lpReadF_congr {s t : State} (hr : t.regs = s.regs) (hs : t.stack = s.stack) (hd : t.dram = s.dram) (p f a n : Nat) :
    t.lpReadF p f a n = s.lpReadF p f a n := by
  induction f generalizing a n with
  | zero => rfl
  | succ f ih => simp only [State.lpReadF, State.lineAt, sliceOf_of_regs hr, hs, hd, ih]
theorem ignoresStep_lpRead (p a n v : Nat) : IgnoresStep fun t => t.lpRead p a n = v := fun u c h e hu =>
  (lpReadF_congr (s := u) (t := { u with freeCtr := c, held := h, evt := e }) rfl rfl rfl p (n / 256 + 2) a n).trans hu

/-- A write within one line, outside the protected code region, is one access (R180). -/
theorem lpWrite_line {s : State} {p a n v : Nat} {own : Nat × Nat} (hn : 0 < n) (hl : a % 256 + n ≤ 256) (hi : s.inImage a = false) :
    s.lpWrite p a n v own = s.lpPut p a n v own := by
  unfold State.lpWrite State.lpWriteF
  have hm : min n (256 - a % 256) = n := by omega
  simp only [if_neg (Nat.ne_of_gt hn), hi, hm, Nat.sub_self, Bool.not_false, Bool.true_and, Bool.false_eq_true, if_false,
    State.lpWriteF, if_true]

/-- While the bindery is disabled, what software writes within a sound line reads back (R180, R355). -/
theorem lpRead_lpSoft {s : State} (h : s.unitsReady) {p a : Nat} (l : List Byte) (own : Nat × Nat)
    (hb : (s.reg rBndCtl).testBit 0 = false) (hl : a % 256 + l.length ≤ 256) (hi : s.inImage a = false) (hp : s.poisoned p a = false)
    (hu : ∀ i, i < l.length → tget false s.badUnits ((a + i) / 64) = false) :
    (s.lpSoft p a l.length (ofBytes l) own).lpRead p a l.length = ofBytes l := by
  rcases Nat.eq_zero_or_pos l.length with h0 | hn
  · rw [List.eq_nil_of_length_eq_zero h0]
    rfl
  · have hreg : (s.lpWrite p a l.length (ofBytes l) own).reg rBndCtl = s.reg rBndCtl :=
      reg_of_regs (memStep_lpWrite s p a l.length (ofBytes l) own).keeps.2.2.2.1 _
    rw [State.lpSoft, State.tableSoft, hreg, bitAt_testBit, hb, Bool.not_false, if_pos rfl, lpWrite_line hn hl hi,
      lpRead_lpPut h p a _ _ own hl hn hp hu, Nat.mod_eq_of_lt (ofBytes_lt l)]

/-- An access from outside, in the state that it wakes (R213, R458). -/
theorem lpRead_wake_lpSoft {s : State} (h : s.unitsReady) {p a : Nat} (l : List Byte)
    (hb : (s.reg rBndCtl).testBit 0 = false) (hl : a % 256 + l.length ≤ 256) (hi : s.inImage a = false) (hp : s.poisoned p a = false)
    (hu : ∀ i, i < l.length → tget false s.badUnits ((a + i) / 64) = false) :
    ((hostWake s).lpSoft p a l.length (ofBytes l)).held = s.held ∧
    ((hostWake s).lpSoft p a l.length (ofBytes l)).lpRead p a l.length = ofBytes l := by
  refine ⟨?_, lpRead_lpSoft (unitsReady_hostWake h) l noOwner ?_ hl ?_ ?_ ?_⟩
  · exact ((memStep_lpSoft ..).ready (unitsReady_hostWake h)).1.trans (hostWake_held s)
  · rwa [reg_hostWake_of_le s (by decide)]
  · rw [hostWake_only]; exact hi
  · rwa [poisoned_hostWake]
  · rw [hostWake_only]; exact hu

/-! ### Writes of whole runs of registers -/

theorem foldl_setReg_only (f g : Nat → Nat) (l : List Nat) (s : State) :
    l.foldl (fun s i => s.setReg (f i) (g i)) s = { s with regs := (l.foldl (fun s i => s.setReg (f i) (g i)) s).regs } := by
  induction l generalizing s with
  | nil => rfl
  | cons i l ih => rw [List.foldl_cons, ih]; rfl
theorem mrExtend_only (s : State) (d : BitVec 384) :
    mrExtend s d = { s with regs := (mrExtend s d).regs, measured := s.measured ++ [d] } := foldl_setReg_only ..
theorem logImage_only (s : State) (kind idx slot : Nat) (d : BitVec 384) :
    logImage s kind idx slot d = { s with regs := (logImage s kind idx slot d).regs } := by
  unfold logImage
  dsimp only
  rw [foldl_setReg_only]
  rfl

/-! ### The end of an install (R454, R455) -/

/-- No install goes on, `IMG_STS` gives its result, and with every unit ready no wait was met. -/
def InstallEnded (s t : State) : Prop := t.install = none ∧ 2 ≤ t.reg rImgSts % 8 ∧ (s.unitsReady → t.held = s.held)

theorem installEnded_setImgSts {s t : State} {sts : Nat} (slot : Nat) (hi : t.install = none) (h2 : 2 ≤ sts) (h8 : sts < 8)
    (hh : s.unitsReady → t.held = s.held) : InstallEnded s (setImgSts t sts slot) := by
  refine ⟨hi, ?_, hh⟩
  rw [setImgSts, reg_setReg_same]
  omega

/-- The same once the image is measured and logged, with its code registers if it has any. -/
theorem installEnded_measured {s t : State} (kind idx slot pb nb : Nat) (d : BitVec 384) (hi : t.install = none)
    (hh : s.unitsReady → t.held = s.held) :
    InstallEnded s (setImgSts (mrExtend (logImage
      (if kind = 1 then (t.setReg (rImgPb idx) pb).setReg (rImgNb idx) nb else t) kind idx slot d) d) 3 slot) := by
  rw [mrExtend_only, logImage_only]
  refine installEnded_setImgSts slot ?_ (by decide) (by decide) fun r => ?_
  · split <;> exact hi
  · split <;> exact hh r

/-- The installer's writes, made among the images that stay, meet no wait with every unit ready and end no install. -/
theorem lpInstalls_keep (t : State) (old : List Image) (base : Nat) (l : List (Nat × Nat × Nat)) :
    let u := l.foldl (fun (s : State) p => s.lpInstall (base + p.1) p.2.1 p.2.2) { t with images := old }
    u.install = t.install ∧ (t.unitsReady → u.held = t.held) := by
  intro u
  have h : MemStep { t with images := old } u := .foldl (fun _ _ => memStep_lpWriteF ..) l _
  exact ⟨by rw [h.only], fun r => (h.ready r).1⟩

theorem installEnded_ite {s t u : State} {c : Prop} [Decidable c] (ht : InstallEnded s t) (hu : InstallEnded s u) :
    InstallEnded s (if c then t else u) := by
  split
  · exact ht
  · exact hu

/-- An install that ends, its image read, goes on in a state in which no install goes on. -/
theorem MemStep.installing {s t : State} (h : MemStep s t) :
    let u := { t with install := none }
    u.install = none ∧ (s.unitsReady → u.held = s.held ∧ u.unitsReady) := ⟨rfl, h.ready⟩

theorem evInstall_ended {s : State} (h : s.install ≠ none) : InstallEnded s (evInstall s) := by
  unfold evInstall
  split
  · next hn => exact absurd hn h
  · next at_ len kind idx _ =>
    have hk := (memStep_lpTouch s 0 at_ len).installing
    refine installEnded_ite ?_ ?_
    all_goals
      generalize ({ s.lpTouch 0 at_ len with install := none } : State) = t at hk ⊢
      obtain ⟨hi, hh⟩ := hk
    · exact installEnded_setImgSts _ hi (by decide) (by decide) fun r => (hh r).1
    · have ends (sts slot : Nat) (h2 : 2 ≤ sts) (h8 : sts < 8) : InstallEnded s (setImgSts t sts slot) :=
        installEnded_setImgSts slot hi h2 h8 fun r => (hh r).1
      split
      · exact ends 4 _ (by decide) (by decide)
      refine installEnded_ite (ends 4 _ (by decide) (by decide)) ?_
      refine installEnded_ite (ends 2 _ (by decide) (by decide)) (installEnded_ite (ends 5 _ (by decide) (by decide)) ?_)
      split
      · exact ends 5 _ (by decide) (by decide)
      · refine installEnded_measured _ _ _ _ _ _ ?_ fun r => ?_
        · exact (lpInstalls_keep ..).1.trans hi
        · exact ((lpInstalls_keep ..).2 (hh r).2).trans (hh r).1

/-! ### The debugger, units that become ready, power-on -/

/-- The debugger reaches a core that is present, in INVASIVE and outside PARK (R457, R458). -/
theorem occurs_debug {s : State} {k : Nat} {l : List Nat} (h : s.due (k :: l)) (hk : s.coreOk k = true) (hd : s.reg rDbgSts % 4 = 2)
    (hp : s.reg rPwrSts % 8 ≠ 3) : Occurs s .debugHaltRequest (dbgAct (hostWake s.fresh) k) := by
  refine occurs_event rfl h.1 ?_
  unfold evHalt
  rw [argN_fresh h.2]
  refine if_neg ?_
  show ¬((!s.coreOk k) = true ∨ s.reg rDbgSts % 4 ≠ 2 ∨ s.reg rPwrSts % 8 = 3)
  simp [hk, hd, hp]

theorem argN_hostWake (s : State) (i : Nat) : (hostWake s).argN i = s.argN i := by
  rw [State.argN, hostWake_only]; rfl
/-- Debug request 0 halts the core. -/
theorem dbgAct_halt {s : State} (k : Nat) (h : s.argN 1 = 0) :
    dbgAct s k = setDbg (s.modCore k fun c => { c with halted := true }) 2 (bitAt (s.reg rDbgSts) 2) true := by
  unfold dbgAct
  dsimp only
  rw [if_pos h]
/-- Debug request 1, with 1 as its last argument, leaves a breakpoint. -/
theorem dbgAct_break {s : State} (k : Nat) (h : s.argN 1 = 1) (h3 : s.argN 3 = 1) :
    s.argN 2 ∈ ((dbgAct s k).core k).brk ∧ (dbgAct s k).held = s.held := by
  unfold dbgAct
  dsimp only
  rw [if_neg (by omega), if_pos h]
  refine ⟨?_, rfl⟩
  rw [State.modCore, core_setCore_same]
  simp only [h3, Nat.one_mod, if_true]
  split
  · next hc => exact List.contains_iff_mem.1 hc
  · exact List.mem_cons_self
theorem dbgDest_vb (x : Ctx) (n : Nat) : dbgDest x 1 n = some (.v .vb (n % 512)) := rfl
/-- Debug request 2 with file 1 writes a register of VB (R457). -/
theorem dbgAct_vb {s : State} {k j b : Nat} (h : s.argN 1 = 2) (h2 : s.argN 2 = j) (h3 : s.argN 3 = 1) (h4 : s.argN 4 = b)
    (hj : j < 8) (hb : b < 512) : dbgAct s k = putD s k j (.v .vb b) (s.argN 5) := by
  unfold dbgAct
  dsimp only
  rw [if_neg (by omega), if_neg (by omega), if_pos h, h2, h3, h4, Nat.mod_eq_of_lt hj,
    dbgDest_vb, Nat.mod_eq_of_lt hb]

/-- The unit that bit b of ready register r stands for is present (R459). -/
def State.unitThere (s : State) (r b : Nat) : Prop :=
  r = 2 ∧ s.sliceOk b = true ∨ r = 1 ∧ 32 ≤ b ∧ b < 36 ∨ r = 1 ∧ b < 32 ∧ (∃ i, i < 4 ∧ s.coreOk (4 * b + i) = true) ∨
  r = 0 ∧ 56 ≤ b ∧ b < 59 ∨ r = 0 ∧ b < 56 ∧ (s.reg (rLayout 0)).testBit b = true

theorem sliceOk_lt {s : State} {n : Nat} (h : s.sliceOk n = true) : n < 64 := by
  simp only [State.sliceOk, Bool.and_eq_true, decide_eq_true_eq] at h
  exact h.1
theorem State.unitThere.lt {s : State} {r b : Nat} (h : s.unitThere r b) : b < 64 := by
  rcases h with ⟨-, h⟩ | h | h | h | h
  · exact sliceOk_lt h
  all_goals omega

theorem evUnit_there {s : State} {r b : Nat} (h0 : s.argN 0 = r) (h1 : s.argN 1 = b) (hp : s.pwr ≠ 3) (h : s.unitThere r b) :
    evUnit s = s.setReg (rSysReady r) (s.reg (rSysReady r) ||| 2 ^ b) := by
  unfold evUnit
  dsimp only
  rw [h0, h1, if_neg]
  rintro (hn | hn)
  · revert hn
    rcases h with ⟨rfl, h⟩ | ⟨rfl, h, h'⟩ | ⟨rfl, h, h'⟩ | ⟨rfl, h, h'⟩ | ⟨rfl, h, h'⟩
    · simp [h]
    · simp [h, h']
    · have hc : (List.range 4).any (fun i => s.coreOk (4 * b + i)) = true :=
        List.any_eq_true.2 (h'.imp fun i hi => ⟨List.mem_range.2 hi.1, hi.2⟩)
      simp only [hc, show b < 36 by omega]
      simp
    · simp [h, h']
    · simp [bitAt_testBit, h', show b < 59 by omega]
  · exact hp hn

/-- Power-on of a device without power whose firmware verifies, and of one whose firmware does not (R455, R458). -/
theorem powerOn_verified {s : State} (ho : s.off = true) (ha : s.argN 0 % 2 = 0) :
    powerOn s = { (coldState s false).fixLayout.setReg rDbgNonce ((coldState s false).free 874003) with
      codeBase := Config.codeBase, codeSize := Config.codeSize } := by
  unfold powerOn
  dsimp only
  rw [if_pos ho, if_neg (by omega)]
theorem powerOn_unverified {s : State} (ho : s.off = true) (ha : s.argN 0 % 2 = 1) :
    powerOn s = (coldState s false).setReg rPwrSts 8 := by
  unfold powerOn
  dsimp only
  rw [if_pos ho, if_pos ha]
  rfl
/-- Without power no layout is fixed, and power-on fixes that of a full part (R19; log entry 6). -/
theorem fixLayout_cold (s : State) (off : Bool) : (coldState s off).fixLayout =
    ((((coldState s off).setReg (rLayout 0) (2 ^ 56 - 1)).setReg (rLayout 1) (2 ^ 64 - 1)).setReg (rLayout 2) (2 ^ 64 - 1)).setReg
      (rLayout 3) (2 ^ 64 - 1) := rfl
/-- Without power every register holds what reset gives it. -/
theorem reg_cold (s : State) (off : Bool) (n : Nat) : (coldState s off).reg n = regReset n % 2 ^ 64 := BitVec.toNat_ofNat ..
theorem reg_cold_on (s : State) (v : Nat) {n : Nat} (hn : n ≠ rDbgNonce) (hl : n < 0x20 ∨ 0x40 ≤ n) :
    (((coldState s false).fixLayout.setReg rDbgNonce v).reg n) = regReset n % 2 ^ 64 := by
  have h (i : Nat) (hi : i < 4) : n ≠ rLayout i := by unfold rLayout; omega
  rw [fixLayout_cold, reg_setReg_other _ _ hn, reg_setReg_other _ _ (h 3 (by decide)), reg_setReg_other _ _ (h 2 (by decide)),
    reg_setReg_other _ _ (h 1 (by decide)), reg_setReg_other _ _ (h 0 (by decide)), reg_cold]

/-! ### Attestation (R456) -/

/-- A request after the negotiation it needs is answered; one that comes before it is answered with an error. -/
theorem spdmStep_answers {s : State} {n : Nat} (code : Nat) (f : Spdm → Spdm) (hr : (s.reg (rSysReady 0)).testBit 57 = true)
    (h : n ≤ s.spdm.phase) : spdmStep s n code f =
      { hostWake s with spdm := f { (hostWake s).spdm with resp := spdmOpen (hostWake s) code } } := by
  unfold spdmStep
  dsimp only
  rw [reg_hostWake s (by decide), bitAt_testBit, hr, if_neg (by decide), if_neg (by rw [hostWake_spdm]; omega)]
theorem spdmStep_errs {s : State} {n : Nat} (code : Nat) (f : Spdm → Spdm) (hr : (s.reg (rSysReady 0)).testBit 57 = true)
    (h : s.spdm.phase < n) : spdmStep s n code f =
      { hostWake s with spdm := { (hostWake s).spdm with resp := spdmOpen (hostWake s) 0x7F } } := by
  unfold spdmStep
  dsimp only
  rw [reg_hostWake s (by decide), bitAt_testBit, hr, if_neg (by decide), if_pos (by rwa [hostWake_spdm])]

/-- A request of SPDM as an instruction: what it does after the negotiation it needs, and before. -/
theorem occurs_spdm {s : State} {i : Instr} {n : Nat} (code : Nat) (f : Spdm → Spdm)
    (hi : exec i s = event (fun s => spdmStep s n code f) s) (hd : s.due []) (hr : (s.reg (rSysReady 0)).testBit 57 = true) :
    let v := hostWake s.fresh
    (n ≤ s.spdm.phase → Occurs s i { v with spdm := f { v.spdm with resp := spdmOpen v code } }) ∧
    (s.spdm.phase < n → Occurs s i { v with spdm := { v.spdm with resp := spdmOpen v 0x7F } }) :=
  ⟨fun h => occurs_event hi hd.1 (spdmStep_answers code f hr h), fun h => occurs_event hi hd.1 (spdmStep_errs code f hr h)⟩

/-! ### Each step of the surroundings, with what it brings about -/

section
variable {s : State}

theorem registerWrite_occurs {a b v : Nat} (hd : s.due [a, b, v]) :
    Occurs s .registerWrite (regWrite s.fresh a b (v % 2 ^ 64)) := by
  refine occurs_event rfl hd.1 ?_
  simp only [evRegWrite, argN_fresh hd.2, List.getD_cons_zero, List.getD_cons_succ]
theorem registerWrite_sets {b v : Nat} (hd : s.due [0, rSlice b, v]) (hb : b < 128)
    (hr : (s.reg (rSysReady 1)).testBit (b / 4) = true) (h1 : 1024 ≤ v) (h2 : v ≤ 1048576) :
    Brings s .registerWrite fun t => t.reg (rSlice b) % 2 ^ 21 = v := by
  obtain ⟨hv, hh⟩ := regWrite_slice (s := s.fresh) hb hr h1 h2
  have ho := registerWrite_occurs hd
  rw [Nat.mod_eq_of_lt (by omega)] at ho
  exact ho.brings hh hv fun _ _ _ _ h => h

/-- A security state above the one in force is entered (R455). -/
theorem secRaise_brings {i : Instr} {v : Nat} (ho : Occurs s i (regWrite s.fresh 0 rSecCtl v)) (hv : v < 3)
    (hs : s.reg rSecSts % 4 < v) : Brings s i fun t => t.reg rSecSts % 4 = v := by
  rw [regWrite_secCtl (s := s.fresh) hv hs] at ho
  refine ho.brings (hostWake_held _) ?_ fun _ _ _ _ h => h
  have := sec_setReg (s := hostWake s.fresh) (v := v) (by omega)
  rwa [reg_hostWake s.fresh (by decide)] at this
/-- MEASURED is not entered from SEALED (R455). -/
theorem secRaise_sealed (hs : s.reg rSecSts % 4 = 2) : (regWrite s.fresh 0 rSecCtl 1).reg rSecSts = s.reg rSecSts := by
  have h : 1 ≤ s.fresh.reg rSecSts % 4 := (by decide : 1 ≤ 2).trans_eq hs.symm
  rw [regWrite_secCtl_refused (by decide) h, regDiscard, reg_setReg_other _ _ (by decide), reg_hostWake s.fresh (by decide)]
  rfl
theorem secRaise_steps (hd : s.due []) :
    Occurs s .secRaiseMeasured (regWrite s.fresh 0 rSecCtl 1) ∧ Occurs s .secRaiseSealed (regWrite s.fresh 0 rSecCtl 2) ∧
    (s.reg rSecSts % 4 = 0 → Brings s .secRaiseMeasured fun t => t.reg rSecSts % 4 = 1) ∧
    (s.reg rSecSts % 4 < 2 → Brings s .secRaiseSealed fun t => t.reg rSecSts % 4 = 2) ∧
    (s.reg rSecSts % 4 = 2 → (regWrite s.fresh 0 rSecCtl 1).reg rSecSts = s.reg rSecSts) := by
  have h1 : Occurs s .secRaiseMeasured (regWrite s.fresh 0 rSecCtl 1) := occurs_event rfl hd.1 rfl
  have h2 : Occurs s .secRaiseSealed (regWrite s.fresh 0 rSecCtl 2) := occurs_event rfl hd.1 rfl
  exact ⟨h1, h2, fun hs => secRaise_brings h1 (by decide) (by omega), secRaise_brings h2 (by decide), secRaise_sealed⟩

/-- A debug state is entered that is the lowest, or asked for while security is OPEN (R457). -/
theorem dbgReq_brings {i : Instr} {v n : Nat} (ho : Occurs s i (regWrite s.fresh 0 rDbgCtl v)) (h8 : v < 8) (hn : v % 4 = n)
    (h3 : n ≠ 3) (h : n = 0 ∨ s.reg rSecSts % 4 = 0) : Brings s i fun t => t.reg rDbgSts % 4 = n := by
  subst hn
  rw [regWrite_dbgCtl h8 h3] at ho
  have hr : v % 4 ≤ (hostWake s.fresh).reg rDbgSts % 4 ∨ (hostWake s.fresh).reg rSecSts % 4 = 0 := by
    rw [reg_hostWake s.fresh (n := rSecSts) (by decide)]
    exact h.imp (fun h0 => h0.trans_le (Nat.zero_le _)) id
  obtain ⟨hp, hh⟩ := dbgRequest_state hr
  exact ho.brings (hh.trans (hostWake_held _)) hp fun _ _ _ _ h => h
theorem dbgReqNone_step (hd : s.due []) : Occurs s .dbgReqNone (regWrite s.fresh 0 rDbgCtl 0) ∧
    Brings s .dbgReqNone fun t => t.reg rDbgSts % 4 = 0 := by
  have h : Occurs s .dbgReqNone (regWrite s.fresh 0 rDbgCtl 0) := occurs_event rfl hd.1 rfl
  exact ⟨h, dbgReq_brings h (by decide) rfl (by decide) (.inl rfl)⟩
theorem dbgReq_steps {a : Nat} (hd : s.due [a]) :
    Occurs s .dbgReqObserve (regWrite s.fresh 0 rDbgCtl (1 + 4 * (a % 2))) ∧
    Occurs s .dbgReqInvasive (regWrite s.fresh 0 rDbgCtl (2 + 4 * (a % 2))) ∧
    (s.reg rSecSts % 4 = 0 → Brings s .dbgReqObserve (fun t => t.reg rDbgSts % 4 = 1) ∧
      Brings s .dbgReqInvasive fun t => t.reg rDbgSts % 4 = 2) := by
  have ha : s.fresh.argN 0 = a := argN_fresh hd.2 0
  have h1 : Occurs s .dbgReqObserve (regWrite s.fresh 0 rDbgCtl (1 + 4 * (a % 2))) :=
    occurs_event rfl hd.1 (by rw [evDbgObserve, ha])
  have h2 : Occurs s .dbgReqInvasive (regWrite s.fresh 0 rDbgCtl (2 + 4 * (a % 2))) :=
    occurs_event rfl hd.1 (by rw [evDbgInvasive, ha])
  exact ⟨h1, h2, fun hs => ⟨dbgReq_brings h1 (by omega) (by omega) (by decide) (.inr hs),
    dbgReq_brings h2 (by omega) (by omega) (by decide) (.inr hs)⟩⟩

/-- RUN or SLOW is entered from either (R458). -/
theorem pwrReq_brings {i : Instr} {v : Nat} (ho : Occurs s i (regWrite s.fresh 0 rPwrCtl v)) (hp : s.pwr < 2) (hv : v < 2) :
    Brings s i fun t => t.reg rPwrSts % 8 = v := by
  rw [regWrite_pwrCtl_on (s := s.fresh) (by omega) hp, pwrEnter, if_pos hv] at ho
  exact ho.brings rfl (setPwr_pwr s.fresh (by omega) false) fun _ _ _ _ h => h
/-- IDLE and PARK are entered where no context has a task and no queue holds anything (R458, R459). -/
theorem pwrReqIdle_brings (ho : Occurs s .pwrReqIdle (regWrite s.fresh 0 rPwrCtl 2)) (hp : s.pwr < 2)
    (hi : idleOk s.fresh = true) : Brings s .pwrReqIdle fun t => t.reg rPwrSts % 8 = 2 := by
  rw [regWrite_pwrCtl_on (s := s.fresh) (by decide) hp, pwrEnter, if_neg (by decide), hi, if_neg (by decide), if_pos rfl] at ho
  exact ho.brings rfl (setPwr_pwr s.fresh (by decide) false) fun _ _ _ _ h => h
theorem pwrReqPark_brings (ho : Occurs s .pwrReqPark (regWrite s.fresh 0 rPwrCtl 3)) (hp : s.pwr < 2)
    (hi : idleOk s.fresh = true) :
    Brings s .pwrReqPark fun t => t.reg rPwrSts % 8 = 3 ∧ ∀ i, i < 3 → t.reg (rSysReady i) = 0 := by
  rw [regWrite_pwrCtl_on (s := s.fresh) (by decide) hp, pwrEnter, if_neg (by decide), hi, if_neg (by decide),
    if_neg (by decide)] at ho
  exact ho.brings rfl ⟨enterPark_pwr s.fresh, fun i => enterPark_sysReady s.fresh⟩ fun _ _ _ _ h => h
/-- Elsewhere the power state stays as it is. -/
theorem pwrPark_refused (hp : s.pwr < 2) (hi : idleOk s.fresh = false) :
    (regWrite s.fresh 0 rPwrCtl 3).reg rPwrSts % 8 = s.reg rPwrSts % 8 := by
  rw [regWrite_pwrCtl_on (s := s.fresh) (by decide) hp, pwrEnter, if_neg (by decide), hi, Bool.not_false, if_pos rfl]
  exact setPwr_pwr s.fresh (Nat.mod_lt _ (by decide)) true
theorem pwrReq_steps (hd : s.due []) :
    Occurs s .pwrReqRun (regWrite s.fresh 0 rPwrCtl 0) ∧ Occurs s .pwrReqSlow (regWrite s.fresh 0 rPwrCtl 1) ∧
    Occurs s .pwrReqIdle (regWrite s.fresh 0 rPwrCtl 2) ∧ Occurs s .pwrReqPark (regWrite s.fresh 0 rPwrCtl 3) ∧
    (s.reg rPwrSts % 8 < 2 → Brings s .pwrReqRun (fun t => t.reg rPwrSts % 8 = 0) ∧
      Brings s .pwrReqSlow (fun t => t.reg rPwrSts % 8 = 1) ∧
      (idleOk s.fresh = true → Brings s .pwrReqIdle (fun t => t.reg rPwrSts % 8 = 2) ∧
        Brings s .pwrReqPark fun t => t.reg rPwrSts % 8 = 3 ∧ ∀ i, i < 3 → t.reg (rSysReady i) = 0) ∧
      (idleOk s.fresh = false → (regWrite s.fresh 0 rPwrCtl 3).reg rPwrSts % 8 = s.reg rPwrSts % 8)) := by
  have h0 : Occurs s .pwrReqRun (regWrite s.fresh 0 rPwrCtl 0) := occurs_event rfl hd.1 rfl
  have h1 : Occurs s .pwrReqSlow (regWrite s.fresh 0 rPwrCtl 1) := occurs_event rfl hd.1 rfl
  have h2 : Occurs s .pwrReqIdle (regWrite s.fresh 0 rPwrCtl 2) := occurs_event rfl hd.1 rfl
  have h3 : Occurs s .pwrReqPark (regWrite s.fresh 0 rPwrCtl 3) := occurs_event rfl hd.1 rfl
  exact ⟨h0, h1, h2, h3, fun hp => ⟨pwrReq_brings h0 hp (by decide), pwrReq_brings h1 hp (by decide),
    fun hi => ⟨pwrReqIdle_brings h2 hp hi, pwrReqPark_brings h3 hp hi⟩, pwrPark_refused hp⟩⟩

theorem imgGo_occurs (hd : s.due []) : Occurs s .imgGo (regWrite s.fresh 0 rImgGo 1) := occurs_event rfl hd.1 rfl
theorem imgGo_brings (hd : s.due []) (hr : (s.reg (rSysReady 0)).testBit 57 = true) (hi : s.install = none) :
    Brings s .imgGo fun t =>
      t.install = some (s.reg rImgAddr, s.reg rImgLen, s.reg rImgKind, s.reg rImgIdx) ∧ t.reg rImgSts % 8 = 1 := by
  have ho := imgGo_occurs hd
  rw [regWrite_imgGo (s := s.fresh) hr hi] at ho
  refine ho.brings (hostWake_held _) ⟨rfl, ?_⟩ fun _ _ _ _ h => h
  show ((hostWake s.fresh).setReg rImgSts ((hostWake s.fresh).reg rImgSts / 8 * 8 + 1)).reg rImgSts % 8 = 1
  have := reg_lt (hostWake s.fresh) rImgSts
  rw [reg_setReg_same]
  omega

theorem bndCtl_occurs (hd : s.due []) : Occurs s .bndCtlEnWrite (regWrite s.fresh 0 rBndCtl 1) := occurs_event rfl hd.1 rfl
theorem bndCtl_brings (hd : s.due []) (hr : (s.reg (rSysReady 0)).testBit 57 = true) :
    Brings s .bndCtlEnWrite fun t => t.reg rBndCtl = 1 := by
  have ho := bndCtl_occurs hd
  rw [regWrite_bndCtl (s := s.fresh) hr] at ho
  exact ho.brings (hostWake_held _) (reg_setReg_same ..) fun _ _ _ _ h => h

theorem circEnWrite_occurs {a b : Nat} (hd : s.due [a, b]) (ha : a < 128) (hb : b < 32) :
    Occurs s .circEnWrite (regWrite s.fresh 0 (rCirc a b) (s.reg (rCirc a b) % 2 ^ 7 + 2 ^ 7)) := by
  refine occurs_event rfl hd.1 ?_
  simp only [evCircEn, argN_fresh hd.2, List.getD_cons_zero, List.getD_cons_succ, Nat.mod_eq_of_lt ha, Nat.mod_eq_of_lt hb]
  rfl
theorem circEnWrite_brings {a b h x : Nat} (hd : s.due [a, b]) (ha : a < 128) (hb : b < 32)
    (hr : (s.reg (rSysReady 1)).testBit (a / 4) = true)
    (hp : circPath s.fresh a b (s.reg (rCirc a b) % 2 ^ 7) = some (h, x)) :
    Brings s .circEnWrite fun t => t.reg (rCirc a b) =
      s.reg (rCirc a b) % 2 ^ 7 + 2 ^ 7 + 2 ^ 8 + (4 + 2 * h + 9 * x) % 256 * 2 ^ 16 := by
  have ho := circEnWrite_occurs hd ha hb
  have hm : s.reg (rCirc a b) % 2 ^ 7 < 128 := by omega
  rw [regWrite_circ (s := s.fresh) ha hb hm hr hp] at ho
  refine ho.brings (hostWake_held _) ?_ fun _ _ _ _ h => h
  rw [reg_setReg_same]
  omega

theorem errstsClear_occurs {a : Nat} (hd : s.due [a]) : Occurs s .errstsClear (regWrite s.fresh 0 (rErrsts a) 1) := by
  refine occurs_event rfl hd.1 ?_
  rw [evErrsts, argN_fresh hd.2]
  rfl
theorem errstsClear_brings {a : Nat} (hd : s.due [a]) (ha : a < 2 ^ 26) (hr : blockReady s (rErrsts a) = true) :
    Brings s .errstsClear fun t => t.reg (rErrsts a) % 2 = 0 := by
  have ho := errstsClear_occurs hd
  rw [regWrite_errsts (s := s.fresh) ha hr] at ho
  refine ho.brings (hostWake_held _) ?_ fun _ _ _ _ h => h
  rw [reg_setReg_same]
  omega

theorem debugHalt_brings {a : Nat} (hd : s.due [a]) (hk : s.coreOk a = true) (hs : s.reg rDbgSts % 4 = 2)
    (hp : s.reg rPwrSts % 8 ≠ 3) :
    Brings s .debugHaltRequest fun t => (t.core a).halted = true ∧ t.reg rDbgSts / 8 % 2 = 1 := by
  have ho := occurs_debug hd hk hs hp
  rw [dbgAct_halt a ((argN_hostWake ..).trans (argN_fresh hd.2 1))] at ho
  refine ho.brings (hostWake_held _) ⟨?_, ?_⟩ fun _ _ _ _ h => h
  · exact congrArg Core.halted (core_setCore_same (hostWake s.fresh) a _)
  · rw [setDbg, reg_setReg_same]
    cases bitAt ((hostWake s.fresh).reg rDbgSts) 2 <;> rfl
theorem debugBreak_brings {a b : Nat} (hd : s.due [a, 1, b, 1]) (hk : s.coreOk a = true) (hs : s.reg rDbgSts % 4 = 2)
    (hp : s.reg rPwrSts % 8 ≠ 3) : Brings s .debugHaltRequest fun t => b ∈ (t.core a).brk := by
  have hn (i : Nat) : (hostWake s.fresh).argN i = [a, 1, b, 1].getD i 0 := (argN_hostWake ..).trans (argN_fresh hd.2 i)
  obtain ⟨hb, hh⟩ := dbgAct_break a (hn 1) (hn 3)
  rw [hn 2] at hb
  exact (occurs_debug hd hk hs hp).brings (hh.trans (hostWake_held _)) hb fun _ _ _ _ h => h
theorem debugWrite_brings {a j b v : Nat} (hd : s.due [a, 2, j, 1, b, v]) (hk : s.coreOk a = true) (hs : s.reg rDbgSts % 4 = 2)
    (hp : s.reg rPwrSts % 8 ≠ 3) (hj : j < 8) (hb : b < 512) (hv : v < 2 ^ 1024) :
    Brings s .debugHaltRequest fun t => rawD t a j (.v .vb b) = v := by
  have hn (i : Nat) : (hostWake s.fresh).argN i = [a, 2, j, 1, b, v].getD i 0 := (argN_hostWake ..).trans (argN_fresh hd.2 i)
  have ho := occurs_debug hd hk hs hp
  rw [dbgAct_vb (hn 1) (hn 2) (hn 3) (hn 4) hj hb, hn 5] at ho
  refine ho.brings (hostWake_held _) ?_ fun _ _ _ _ h => h
  exact (rawD_putD_same (hostWake s.fresh) a j v rfl).trans (Nat.mod_eq_of_lt hv)

theorem idleEntry_brings (hd : s.due []) (hp : s.reg rPwrSts % 8 = 0) (hi : idleOk s.fresh = true) :
    Brings s .idleEntry fun t => t.reg rPwrSts % 8 = 2 := by
  refine (occurs_event rfl hd.1 (if_pos ⟨hp, hi⟩)).brings rfl ?_ fun _ _ _ _ h => h
  exact setPwr_pwr s.fresh (by decide) _
theorem idleWake_brings (hd : s.due []) (hp : s.reg rPwrSts % 8 = 2) :
    Brings s .idleWakeAccess fun t => t.reg rPwrSts % 8 = 0 := by
  refine (occurs_event rfl hd.1 (if_pos hp)).brings rfl ?_ fun _ _ _ _ h => h
  exact setPwr_pwr s.fresh (by decide) _

theorem unitReady_brings {r b : Nat} (hd : s.due [r, b]) (hp : s.reg rPwrSts % 8 ≠ 3) (h : s.unitThere r b) :
    Brings s .unitReady fun t => t.reg (rSysReady r) = s.reg (rSysReady r) ||| 2 ^ b := by
  have he := evUnit_there (r := r) (b := b) (argN_fresh hd.2 0) (argN_fresh hd.2 1) hp (show s.fresh.unitThere r b from h)
  refine (occurs_event rfl hd.1 he).brings rfl ?_ fun _ _ _ _ h => h
  rw [reg_setReg_same]
  exact Nat.mod_eq_of_lt (Nat.or_lt_two_pow (reg_lt ..) (Nat.pow_lt_pow_right (by decide) h.lt))

end

section
variable {s : State}

/-- What a write from outside may rely on to read back: every unit ready, the bindery disabled, the bytes within one sound line
outside the protected code region (R180, R355, R435, R436, R454). -/
def State.writable (s : State) (part a n : Nat) : Prop :=
  s.unitsReady ∧ (s.reg rBndCtl).testBit 0 = false ∧ a % 256 + n ≤ 256 ∧ s.inImage a = false ∧ s.poisoned part a = false ∧
  ∀ i, i < n → tget false s.badUnits ((a + i) / 64) = false

/-- A write from outside that occurs is read back. -/
theorem lpSoft_brings {i : Instr} {p a n : Nat} {l : List Byte} (hn : l.length = n)
    (ho : Occurs s i ((hostWake s.fresh).lpSoft p a n (ofBytes l))) (h : s.writable p a n) :
    Brings s i fun t => t.lpRead p a n = ofBytes l := by
  subst hn
  obtain ⟨hr, hb, hl, hi, hp, hu⟩ := h
  obtain ⟨hh, hv⟩ := lpRead_wake_lpSoft (s := s.fresh) hr l hb hl hi hp hu
  exact ho.brings hh hv (ignoresStep_lpRead _ _ _ _)

theorem bar2Write_occurs {a b : Nat} {l : List Nat} (hd : s.due (b :: a :: l)) (hb : b ≤ 8) (hk : s.hostOk = true)
    (hl : a + l.length ≤ bar2Size s b) : Occurs s .hostBar2Write
      ((hostWake s.fresh).lpSoft (s.walkPart b) a l.length (ofBytes (l.map (BitVec.ofNat 8)))) := by
  refine occurs_event rfl hd.1 ?_
  have hk' : s.fresh.hostOk = true := hk
  have hl' : ¬bar2Size s.fresh b < a + l.length := Nat.not_lt.2 hl
  unfold evBar2
  simp only [argN_fresh hd.2, argBytes_fresh hd.2, List.getD_cons_zero, List.getD_cons_succ, List.drop_succ_cons, List.drop_zero,
    List.length_map]
  rw [if_neg (by simp only [hk', Bool.not_true, Bool.false_eq_true, false_or]; omega), if_neg (by omega), if_neg hl']
  rfl

theorem bar2Resize_occurs {a b : Nat} (hd : s.due [16 + b, a]) (hb : b ≤ 8) (hk : s.hostOk = true) (h1 : 30 ≤ a) (h2 : a ≤ 40) :
    Occurs s .hostBar2Write { s.fresh with bar2 := tput s.bar2 b a } := by
  refine occurs_event rfl hd.1 ?_
  have hk' : s.fresh.hostOk = true := hk
  unfold evBar2
  simp only [argN_fresh hd.2, List.getD_cons_zero, List.getD_cons_succ]
  rw [if_neg (by simp only [hk', Bool.not_true, Bool.false_eq_true, false_or]; omega), if_pos (by omega), if_pos ⟨h1, h2⟩,
    Nat.add_sub_cancel_left]
  rfl
theorem bar2Resize_brings {a b : Nat} (hd : s.due [16 + b, a]) (hb : b ≤ 8) (hk : s.hostOk = true) (h1 : 30 ≤ a) (h2 : a ≤ 40) :
    Brings s .hostBar2Write fun t => bar2Size t b = 2 ^ a := by
  refine (bar2Resize_occurs hd hb hk h1 h2).brings rfl ?_ fun _ _ _ _ h => h
  simp only [bar2Size, tget_tput_same]
  rw [if_neg (by omega)]

theorem peerAccess_occurs {a : Nat} {l : List Nat} (hd : s.due (1 :: a :: l)) (ha : a < 2 ^ 48)
    (hk : bitsAt (s.reg (rSysReady 0)) 48 8 ≠ 0) : Occurs s .peerAccess
      ((hostWake s.fresh).lpSoft 0 a l.length (ofBytes (l.map (BitVec.ofNat 8)))) := by
  refine occurs_event rfl hd.1 ?_
  have hk' : ¬bitsAt (s.fresh.reg (rSysReady 0)) 48 8 = 0 := hk
  unfold evPeer
  simp only [argN_fresh hd.2, argBytes_fresh hd.2, List.getD_cons_zero, List.getD_cons_succ, List.drop_succ_cons, List.drop_zero,
    List.length_map, Nat.mod_eq_of_lt ha]
  rw [if_neg (by decide), if_neg (by decide), if_neg hk', if_pos (by decide)]

/-- The bytes that a peer, or the host, writes to memory of its own. -/
theorem evPeer_peer {a : Nat} {l : List Nat} (h : s.arg = 2 :: a :: l) (ha : a < 2 ^ 52) : evPeer s.fresh =
    { s.fresh with peer := s.peer.writeN a (ofBytes (l.map (BitVec.ofNat 8))) (l.map (BitVec.ofNat 8 : Nat → Byte)).length } := by
  unfold evPeer
  simp only [argN_fresh h, argBytes_fresh h, List.getD_cons_zero, List.getD_cons_succ, List.drop_succ_cons, List.drop_zero,
    Nat.mod_eq_of_lt ha]
  rfl
theorem evPeer_host {a : Nat} {l : List Nat} (h : s.arg = 3 :: a :: l) (ha : a < 2 ^ 52) : evPeer s.fresh =
    { s.fresh with host := s.host.writeN a (ofBytes (l.map (BitVec.ofNat 8))) (l.map (BitVec.ofNat 8 : Nat → Byte)).length } := by
  unfold evPeer
  simp only [argN_fresh h, argBytes_fresh h, List.getD_cons_zero, List.getD_cons_succ, List.drop_succ_cons, List.drop_zero,
    Nat.mod_eq_of_lt ha]
  rfl
theorem peerMemory_brings {a : Nat} {l : List Nat} (hd : s.due (2 :: a :: l)) (ha : a < 2 ^ 52) :
    Brings s .peerAccess fun t => t.peer.readN a l.length = ofBytes (l.map (BitVec.ofNat 8)) := by
  refine (occurs_event rfl hd.1 (evPeer_peer hd.2 ha)).brings rfl ?_ fun _ _ _ _ h => h
  have := Memory.readN_writeN_bytes s.peer a (l.map (BitVec.ofNat 8))
  rwa [List.length_map] at this ⊢
theorem hostMemory_brings {a : Nat} {l : List Nat} (hd : s.due (3 :: a :: l)) (ha : a < 2 ^ 52) :
    Brings s .peerAccess fun t => t.host.readN a l.length = ofBytes (l.map (BitVec.ofNat 8)) := by
  refine (occurs_event rfl hd.1 (evPeer_host hd.2 ha)).brings rfl ?_ fun _ _ _ _ h => h
  have := Memory.readN_writeN_bytes s.host a (l.map (BitVec.ofNat 8))
  rwa [List.length_map] at this ⊢

/-- Power-on leaves debug in NONE, MR zero, every core present and LPDDR 6 empty. -/
def PoweredOn (s t : State) (a : Nat) : Prop :=
  t.off = false ∧ t.reg rDbgSts = 0 ∧ (a < 6 → t.reg (rMr a) = 0) ∧ t.reg (rLayout 2) = 2 ^ 64 - 1 ∧
  t.memWf = (s.host.wf && s.peer.wf)

theorem poweredOn_cold (s : State) (v a : Nat) : PoweredOn s ((coldState s false).fixLayout.setReg rDbgNonce v) a := by
  refine ⟨rfl, reg_cold_on _ _ (by decide) (by decide), fun h => ?_, ?_, ?_⟩
  · rw [reg_cold_on _ _ (by unfold rMr rDbgNonce; omega) (by unfold rMr; omega)]
    interval_cases a <;> rfl
  · rw [fixLayout_cold, reg_setReg_other _ _ (by decide), reg_setReg_other _ _ (by decide), reg_setReg_same,
      Nat.mod_eq_of_lt (by decide)]
  · rw [fixLayout_cold]
    rfl
theorem PoweredOn.codeRegion {s t : State} {a : Nat} (h : PoweredOn s t a) (b c : Nat) :
    PoweredOn s { t with codeBase := b, codeSize := c } a := h
theorem powerOn_up {a : Nat} (ho : s.off = true) (ha : s.arg.getD 0 0 % 2 = 0) :
    ∃ t, exec .powerOn s = .next t ∧ PoweredOn s t a :=
  ⟨_, congrArg Host.Outcome.next (powerOn_verified (s := s.tick) ho ha), (poweredOn_cold s.tick _ a).codeRegion _ _⟩
theorem powerOn_down (ho : s.off = true) (ha : s.arg.getD 0 0 % 2 = 1) :
    ∃ t, exec .powerOn s = .next t ∧ t.off = false ∧ t.down = true ∧ t.reg rPwrSts = 8 := by
  refine ⟨_, congrArg Host.Outcome.next (powerOn_unverified (s := s.tick) ho ha), rfl, ?_, reg_setReg_same ..⟩
  rw [State.down, reg_setReg_same]
  rfl

theorem installDone_brings (hd : s.due []) (h : s.install ≠ none) (hr : s.unitsReady) :
    Brings s .imageInstallDone fun t => t.install = none ∧ 2 ≤ t.reg rImgSts % 8 := by
  obtain ⟨hi, hs, hh⟩ := evInstall_ended (s := s.fresh) h
  exact (occurs_event rfl hd.1 rfl).brings (hh hr) ⟨hi, hs⟩ fun _ _ _ _ h => h

theorem ideKm_occurs {a b : Nat} (hd : s.due [a, b]) (hr : (s.reg (rSysReady 0)).testBit 57 = true) (hs : s.spdm.session = true) :
    Occurs s .ideKmRequest
      (let v := hostWake s.fresh; { v with spdm := { v.spdm with keys := tput v.spdm.keys a (BitVec.ofNat 256 b) } }) := by
  refine occurs_event rfl hd.1 ?_
  have hr' : (s.fresh.reg (rSysReady 0)).testBit 57 = true := hr
  unfold evIdeKm
  dsimp only
  rw [reg_hostWake s.fresh (by decide), bitAt_testBit, hr', hostWake_spdm, if_pos ⟨hs, rfl⟩]
  rw [argN_hostWake, argN_hostWake, argN_fresh hd.2, argN_fresh hd.2]
  rfl

end

/-- Settles O58, step by step of the surroundings: each occurs as its function says, and brings about what the statement names. -/
theorem deviceStepsOccur : Obligations.DeviceStepsOccur := by
  intro s a b l u w data hsm need told plain sec dbg pwr
  have hl : data.length = l.length := List.length_map _
  refine ⟨fun v => registerWrite_occurs, fun v => registerWrite_sets, secRaise_steps, dbgReqNone_step, dbgReq_steps, pwrReq_steps,
    fun hd => ⟨imgGo_occurs hd, imgGo_brings hd⟩, fun hd => ⟨bndCtl_occurs hd, bndCtl_brings hd⟩,
    fun hd ha hb => ⟨circEnWrite_occurs hd ha hb, fun h x => circEnWrite_brings hd ha hb⟩,
    fun hd => ⟨errstsClear_occurs hd, errstsClear_brings hd⟩, debugHalt_brings, debugBreak_brings, fun j v => debugWrite_brings,
    idleEntry_brings, idleWake_brings, fun r => unitReady_brings, ?bar2, ?resize, ?peer, peerMemory_brings, hostMemory_brings, rfl,
    powerOn_up, powerOn_down, ?install, ?attestation⟩
  case bar2 =>
    intro hd hb hk hw
    have ho := bar2Write_occurs hd hb hk hw
    exact ⟨ho, lpSoft_brings hl ho⟩
  case resize => exact fun hd hb hk h1 h2 => ⟨bar2Resize_occurs hd hb hk h1 h2, bar2Resize_brings hd hb hk h1 h2⟩
  case peer =>
    intro hd ha hk
    have ho := peerAccess_occurs hd ha hk
    exact ⟨ho, lpSoft_brings hl ho⟩
  case install =>
    exact fun hd h => ⟨occurs_event rfl hd.1 rfl, (evInstall_ended (s := s.fresh) h).1, installDone_brings hd h⟩
  case attestation =>
    exact ⟨occurs_spdm 0x04 (fun p => { p with phase := 1, session := false }) rfl,
      occurs_spdm 0x61 (fun p => { p with phase := 2 }) rfl, occurs_spdm 0x63 (fun p => { p with phase := 3 }) rfl,
      occurs_spdm 0x01 id rfl, occurs_spdm 0x02 id rfl, occurs_spdm 0x03 id rfl,
      occurs_spdm 0x64 (fun p => { p with phase := 4 }) rfl,
      occurs_spdm 0x65 (fun p => { p with phase := 3, session := true }) rfl,
      occurs_spdm 0x6C (fun p => { p with session := false }) rfl,
      occurs_spdm 0x60 (fun p => { p with resp := measurements u }) rfl, ideKm_occurs⟩

end Sys2Proof.Machine

namespace Sys2Proof.Laws.RoundTrip

/-! ### Encodings (R22, R30, R31) -/

/-- Settles O59: every instruction by its own lemma, in the order of the constructors. -/
theorem roundTrip : Obligations.RoundTrip := fun i =>
  Instr.casesOn (motive := Statement) i
    br brc jmp call loop lpCnt lpIdx lpStr kpSet kpClr yield fmtLo fmtHi rwp pri cqPush cqDepth scAdd scSub scMul scMulh
    scDiv scRem scAnd scOr scXor scLop3 scShl scShr scSar scRot scMin scMax scClz scPopc scSel scCmpEq scCmpNe scCmpLt
    scCmpLe scCmpGt scCmpGe li liHi liWide adds fadd fmul scFma fcmp scCvt scMov scSpl scFil rdc wrc errRdTrap errRdLog
    ctxStat vAdd vSub vMul vMulh vFma vFms vFnma vMin vMax vAbs vNeg vRcp vRsq vExp2 vLog2 vTanh vSilu vSoftplus vAnd vOr
    vXor vLop3 vShl vShr vSar vCvt vCmpEq vCmpNe vCmpLt vCmpLe vCmpGt vCmpGe vCmpUn vCmpEqU vCmpNeU vCmpLtU vCmpLeU vCmpGtU
    vCmpGeU vCmpUnU vSel vPerm vShuf vBcast vIota vAny vAll vMov vMovCross vMovToScalar vMovMask vMovMaskCross movIxGet
    movIxPut vSpl vFil ldRow ldRowChk ldS ldH ldHChk ldg ldPr ldSb ldIdx ldBc ldZ ldAcq stRow stS stH stg stNt stPr stSb
    stRel aadd amin amax axch acas aand aor axor nbInit nbExp nbArr nbWait nbStat tlWait tlRead invL1 wbL1 hBind hAdvc hAdvp
    hStat drain fence xfCvt xfTr xfExpZr xfExpSp24 xfPack xfRot xfScl xfColW xfColChk xfColRd xfSwz xfMvRow xfMvScalar
    xfMvReg rdAdd rdKadd rdMax rdMin rdAmax rdMv rdClr mma mop mldW mdrain mrow mclr mqStat mdist mbestClr mbestRd cupd cfin
    rwStat rwLd rwInv cpy1d cpyNd cpyMc cpySnd cpyZrb cpySp24 cpyStrm cpyStop cpyFill hndNew hndFree hndGen frIn frOut frSwap
    frSnap frFork frRoll frRel frPin frChk frRes scnDiag scnLin scnCin scnCout scnFade scnCfg smpRun smpShard smpMerge
    nwStart cmAcc cmEmit cmTrim fork sync wake trap rfe sys kill tlbInvAll tlbInvFn tlbInvPg pgret wayq wayqRel hold holdRel
    skippedBundle ctNop ret halt cqFlush wdog scNop vNop ldNop stNop syNop xfNop xfColClr rdNop mxNop mwait rwSup rwEn rwDis
    rwInvAll cpNop cpyClr binderyInitDone sleep hintNext waitPred imgGo imageInstallDone secRaiseMeasured secRaiseSealed
    dbgReqNone pwrReqRun pwrReqSlow pwrReqIdle pwrReqPark idleEntry idleWakeAccess powerOn powerLoss bndCtlEnWrite
    spdmGetVersion spdmGetCapabilities spdmNegotiateAlgorithms spdmGetDigests spdmGetCertificate spdmChallenge
    spdmGetMeasurements spdmKeyExchange spdmFinish spdmEndSession cpyQ frStatOp frStatSession frStatBanks frStatClear
    smpStatQuery smpStatClear nwStatQuery nwStatClear cmStatQuery cmStatClear spawnStat resultLanding runWatchdogExpiry
    systemWatchdogExpiry trapEntry contextBecomesReady bankPreparation ldgRowArrival postedWritePerform atomicReturn
    translationWalkComplete l1Eviction sectorFetch dnEscapeTimeout barrierUpdate cellPlaneLoad matrixQueueComplete
    copyCommandStart copyBeat copyCommandComplete streamRow circuitRowSend circuitRowLanding arrivalHandlerStart
    binderyCommandStart binderyCommandComplete rotationCommand scanCommandStart scanCommandComplete generationCommandStart
    generationCommandComplete trimMessageLanding spawnStart childCompletion overflowEntryMove preemption preemptionRestore
    softErrorCorrected ueCleanStackLine ueLpddr6 ueCoreSram ueDirtyStackLine ueOwnerMessage launchRecord taskPlacement
    kernelCompletion hostBar2Write peerAccess dbgReqObserve dbgReqInvasive unitReady circEnWrite errstsClear registerWrite
    debugHaltRequest ideKmRequest

/-- Settles O60: the bundles and each slot's word are decoded, part by part, by computation. -/
theorem decodesSpecWords : Obligations.DecodesSpecWords := by
  unfold Obligations.DecodesSpecWords
  refine ⟨?bundle, ?lawful, ?yield, ?call, ?halt, ?adds, ?mclr, ?unassigned, ?reserved⟩
  all_goals decide +kernel

end Sys2Proof.Laws.RoundTrip

namespace Sys2Proof.Machine

/-! ### Bit operations, selections, constants and address sums of SC (R28, R127, R130, R131) -/

/-- A result of a type, as a function of bit vectors, one bundle on. -/
theorem wrS_scPut (m : State) (t : ITy) (d : BitVec 6) (v : Nat) (f : (w : Nat) → BitVec w → BitVec w → BitVec w)
    (x y : BitVec 64)
    (h : BitVec.ofNat (scW t) v = f (scW t) (x.setWidth (scW t)) (y.setWidth (scW t))) :
    m.wrS d.toNat (scPut t v) 1 = { wrs := [scalarWr m d (typed t f x y) 1] } :=
  wrS_eq m d _ _ 1 _ (scPut_one t v x f y h)

theorem ofNat_rdS (m : State) (t : ITy) (a : BitVec 6) :
    BitVec.ofNat (scW t) (m.rdS 2 a.toNat) = (m.scalar a).setWidth (scW t) :=
  BitVec.eq_of_toNat_eq (by rw [BitVec.toNat_ofNat, rdS_W])

theorem opScClz_eq (t : ITy) (d a : BitVec 6) (m : State) :
    opScClz t d a m = { wrs := [scalarWr m d (typed t (fun w x _ => BitVec.ofNat w (w - x.toNat.size)) (m.scalar a) 0) 1] } :=
  wrS_scPut m t d _ _ _ _ (by rw [clzN_size, rdS_W])

theorem opScPopc_eq (t : ITy) (d a : BitVec 6) (m : State) :
    opScPopc t d a m =
      { wrs := [scalarWr m d (typed t (fun w x _ => BitVec.ofNat w ((List.range w).countP x.getLsbD)) (m.scalar a) 0) 1] } :=
  wrS_scPut m t d _ _ _ _ (by rw [popcount_bv _ _ (rdS_W m t a)])

theorem opScSel_eq (t : ITy) (d a b : BitVec 6) (p : BitVec 4) (neg : Bool) (m : State) :
    opScSel t d a b p neg m =
      { wrs := [scalarWr m d (typed t (fun _ x y => if m.rdP 2 p.toNat != neg then x else y) (m.scalar a) (m.scalar b)) 1] } := by
  unfold opScSel
  cases m.rdP 2 p.toNat != neg
  · exact wrS_scPut m t d _ _ _ _ (ofNat_rdS m t b)
  · exact wrS_scPut m t d _ _ _ _ (ofNat_rdS m t a)

/-- Below the width of an operation, the bits of a register are those of the number read. -/
theorem testBit_rdS (m : State) (t : ITy) (a : BitVec 6) {i : Nat} (hi : i < scW t) :
    (m.rdS 2 a.toNat).testBit i = ((m.scalar a).setWidth (scW t)).getLsbD i := by
  rw [← ofNat_rdS, BitVec.getLsbD_ofNat, decide_eq_true hi, Bool.true_and]

theorem getLsbD_setWidth_scW (t : ITy) (x : BitVec 64) {i : Nat} (hi : i < scW t) : (x.setWidth (scW t)).getLsbD i = x.getLsbD i := by
  rw [BitVec.getLsbD_setWidth, decide_eq_true hi, Bool.true_and]

theorem opScLop3_eq (t : ITy) (d a b c : BitVec 6) (tab : BitVec 8) (m : State) :
    opScLop3 t d a b c tab m =
      { wrs := [scalarWr m d (typed t (fun w x y => BitVec.ofNat w (ofBools ((List.range w).map fun i =>
          tab.getLsbD (4 * b2n (x.getLsbD i) + 2 * b2n (y.getLsbD i) + b2n ((m.scalar c).getLsbD i)))))
          (m.scalar a) (m.scalar b)) 1] } := by
  refine wrS_scPut m t d _ _ _ _ (BitVec.eq_of_getLsbD_eq fun i hi => ?_)
  rw [BitVec.getLsbD_ofNat, BitVec.getLsbD_ofNat, testBit_lop3N _ _ _ _ _ _ hi, testBit_ofBools, testBit_rdS m t a hi,
    testBit_rdS m t b hi, testBit_rdS m t c hi, getLsbD_setWidth_scW t (m.scalar c) hi]
  simp [hi, BitVec.getLsbD]

theorem opLi_eq (d : BitVec 6) (v : BitVec 22) (m : State) :
    opLi d v m = { wrs := [scalarWr m d (v.signExtend 64) 1] } :=
  wrS_eq m d _ _ 1 _ (by rw [sextW_setWidth 22 _ (by decide) (by decide), BitVec.ofNat_toNat, BitVec.setWidth_eq]; omega)

theorem opLiHi_eq (d a : BitVec 6) (v : BitVec 22) (m : State) :
    opLiHi d a v m = { wrs := [scalarWr m d (m.scalar a <<< 22 ||| v.setWidth 64) 1] } := by
  refine wrS_eq m d _ _ 1 _ ?_
  have hv : BitVec.ofNat 64 (m.rdS 2 a.toNat <<< 22 ||| v.toNat) = m.scalar a <<< 22 ||| v.setWidth 64 := by
    refine BitVec.eq_of_toNat_eq ?_
    rw [BitVec.toNat_or, BitVec.toNat_shiftLeft, rdS_mod, BitVec.toNat_ofNat, Nat.or_mod_two_pow]
    simp [Nat.shiftLeft_eq, Nat.mul_mod]
  rw [← hv, BitVec.toNat_ofNat, Nat.mod_mod]

theorem opLiWide_eq (d : BitVec 6) (k : BitVec 3) (m : State) :
    opLiWide d k m = { wrs := [scalarWr m d (BitVec.ofNat 64 (litWord (m.iss.lit.getD 0) k.toNat)) 1] } :=
  wrS_eq m d _ _ 1 _ (BitVec.toNat_ofNat ..).symm

theorem opAdds_eq (d a b : BitVec 6) (k : BitVec 3) (m : State) :
    opAdds d a b k m = { wrs := [scalarWr m d (m.scalar a + m.scalar b <<< k.toNat) 1] } := by
  refine wrS_eq m d _ _ 1 _ ?_
  rw [BitVec.toNat_add, BitVec.toNat_shiftLeft, rdS_mod, rdS_mod]
  simp [Nat.shiftLeft_eq, Nat.add_mod, Nat.mul_mod]

/-- Settles O2: each operation decides the one result that its lemma above gives. -/
theorem scalarBitAndConstantResults : Obligations.ScalarBitAndConstantResults :=
  ⟨fun _ t d a b c tab p neg => ⟨fun h => slotOp_out h (opScClz_eq t d a _), fun h => slotOp_out h (opScPopc_eq t d a _),
      fun h => slotOp_out h (opScSel_eq t d a b p neg _), fun h => slotOp_out h (opScLop3_eq t d a b c tab _)⟩,
   fun _ d a b v k => ⟨fun h => slotOp_out h (opLi_eq d v _), fun h => slotOp_out h (opLiHi_eq d a v _),
      fun h => slotOp_out h (opLiWide_eq d k _), fun h => slotOp_out h (opAdds_eq d a b k _)⟩⟩

end Sys2Proof.Machine

namespace Sys2Proof.Machine

/-! ### What a bundle leaves behind (R22, R25, R26, R89, R106) -/

theorem promise_nil (x : Ctx) (free : Bool) (bc : Nat) : x.promise free [] bc = x := promise_apart x free [] bc .nil

/-- A bundle that its header skips moves the program counter and the loops of its context on, and does nothing else. -/
theorem commit_skipped (m : State) {i : Issue} (hs : i.skipped = true) (hl : i.lit = none) (hw : i.wrs = []) (ha : i.acts = []) :
    commit m i =
      let k := i.core
      let j := i.ctx
      let x0 := m.ctx k j
      let f := flowOf x0.ctl false []
      (({ (m.modCtx k j fun x => x.promise (bitAt (m.free 863000) 0) [] x0.bcount) with iss := m.iss, nextKey := m.nextKey } :
          State).modCtx k j fun x =>
        let t := { x.ctl with pc := f.pc, loops := f.loops, ret := f.ret, lx := f.lx }
        { x with ctl := t, bcount := x0.bcount, lastPc := x0.ctl.pc, atYield := (hdrOf i.word).kind == 1,
                 waits := x.waits ++ (if f.taken then [.cycle (m.now + 3)] else []) }).modCore k fun c =>
          { c with lastCyc := m.now } := by
  obtain ⟨opn, core, ctx, sec, word, lit, skipped, trap, stall, dry, from0, stallActs, wrs, acts⟩ := i
  subst hs hl hw ha
  rfl

theorem KeptElse_commit_skipped (m : State) {i : Issue} (hs : i.skipped = true) (hl : i.lit = none) (hw : i.wrs = [])
    (ha : i.acts = []) :
    KeptElse m (commit m i) i.core i.ctx ∧
    (commit m i).ctx i.core i.ctx =
      let x := m.ctx i.core i.ctx
      let f := flowOf x.ctl false []
      { x with ctl := { x.ctl with pc := f.pc, loops := f.loops, lx := f.lx }, lastPc := x.ctl.pc,
               atYield := (hdrOf i.word).kind == 1 } := by
  rw [commit_skipped m hs hl hw ha]
  constructor
  · exact (((KeptElse_modCtx ..).trans (KeptElse_iss ..)).trans (KeptElse_modCtx ..)).trans (KeptElse_lastCyc ..)
  · obtain ⟨hr, ht⟩ := flowOf_plain (m.ctx i.core i.ctx).ctl false
    have hk (s : State) (a : Issue) (n : Nat) :
        ({ s with iss := a, nextKey := n } : State).ctx i.core i.ctx = s.ctx i.core i.ctx := rfl
    simp only [ctx_lastCyc, ctx_modCtx_same, hk, promise_nil, hr, ht, Bool.false_eq_true, if_false, List.append_nil]

/-- A bundle in progress that waits for nothing, traps nothing and has no effects takes effect. -/
theorem closeIssue_plain {m : State} (ht : m.iss.trap = none) (hs : m.iss.stall = false) (ha : m.iss.acts = []) :
    closeIssue m = commit { m with iss := { core := m.iss.core, ctx := m.iss.ctx } } m.iss := by
  simp only [closeIssue, Issue.waits, Issue.loadHeld, ht, hs, ha, List.any_nil, Bool.and_false, Bool.or_false,
    Bool.false_eq_true, if_false]

/-- A bundle that its header skips, by itself. -/
theorem exec_skippedBundle {s : State} (ho : s.iss.opn = false) (hc : canIssue s s.ik s.ij = true) :
    exec .skippedBundle s = .next (closeIssue (openIssue s s.ik s.ij 4 none true)) := by
  show skipOp s = _
  rw [skipOp, if_neg (by simp [ho]), if_neg (by simp [hc])]

/-- Where no `cupd` is queued, none completes because its position has come. -/
theorem mxForce_none {s : State} {k : Nat} (j n : Nat) (h : ∀ e ∈ (s.core k).mq, e.op ≠ .upd) : mxForce s k j n = s := by
  have hn : (s.core k).mq.findIdx? (fun e => e.op == .upd && e.ctx == j && decide (e.due ≤ n)) = none :=
    List.findIdx?_eq_none_iff.2 fun e he => by simp [h e he]
  rw [mxForce, hn]

theorem waitEnd_none {s : State} {k j : Nat} (h : (s.ctx k j).waits = []) : waitEnd s k j = s := if_pos h

theorem touchDue_nil {s : State} {k j : Nat} (n : Nat) (h : (s.ctx k j).pend = []) : touchDue s k j n = s := by
  rw [touchDue, h]; rfl

theorem landDue_nil {s : State} {k j : Nat} (n : Nat) (h : (s.ctx k j).pend = []) :
    landDue s k j n = s.modCtx k j fun x => { x with pend := [] } := by
  rw [landDue, h]; rfl

/-- Where no result is awaited, none lands. -/
theorem landNow_nil {s : State} {k j : Nat} (hp : (s.ctx k j).pend = []) (hm : ∀ e ∈ (s.core k).mq, e.op ≠ .upd) :
    landNow s k j = s.modCtx k j fun x => { x with pend := [] } := by
  unfold landNow
  dsimp only
  rw [mxForce_none _ _ hm, hp]
  simp only [List.filter_nil, List.map_nil, if_true]
  rw [touchDue_nil _ hp, landDue_nil _ hp]

/-- A bundle that begins to issue on a context that awaits nothing. -/
theorem openIssue_unawaited {s : State} {k j : Nat} (w : Nat) (lit : Option Nat) (sk : Bool) (hp : (s.ctx k j).pend = [])
    (hw : (s.ctx k j).waits = []) (hm : ∀ e ∈ (s.core k).mq, e.op ≠ .upd) :
    ∃ a, openIssue s k j w lit sk = { (s.tick.modCtx k j fun x => { x with pend := [] }) with iss := a } := by
  have hl : landNow (waitEnd s.tick k j) k j = s.tick.modCtx k j fun x => { x with pend := [] } := by
    rw [waitEnd_none (s := s.tick) hw, landNow_nil (s := s.tick) hp hm]
  have ho : openIssue s k j w lit sk = { landNow (waitEnd s.tick k j) k j with iss := (openIssue s k j w lit sk).iss } := rfl
  rw [hl] at ho
  exact ⟨_, ho⟩

theorem ctx_modCtx_other (s : State) (k : Nat) {j n : Nat} (f : Ctx → Ctx) (h : n ≠ j) : (s.modCtx k j f).ctx k n = s.ctx k n := by
  simp only [State.ctx, State.modCtx, State.setCtx, core_setCore_same, ctx_setCtx_other _ _ h]

/-- Emptying the pending results of a context that has none changes no context. -/
theorem modCtx_pend_nil (s : State) (k j : Nat) (n : Nat) (h : (s.ctx k j).pend = []) :
    (s.modCtx k j fun x => { x with pend := [] }).ctx k n = s.ctx k n := by
  by_cases hn : n = j
  · rw [hn, ctx_modCtx_same]
    generalize s.ctx k j = x at h
    cases x
    cases h
    rfl
  · exact ctx_modCtx_other s k _ hn

/-- A bundle of results to different destinations, from the state it meets. -/
theorem commit_results {m : State} {ws : List Wr} (hs : m.iss.skipped = false) (hw : apartDests ws) :
    let t := commit { m with iss := { core := m.ik, ctx := m.ij } } { m.iss with wrs := ws, acts := [] }
    let x := m.ix
    let f := flowOf x.ctl m.iss.lit.isSome []
    KeptElse m t m.ik m.ij ∧
    t.ctx m.ik m.ij =
      { x with pend := ((ws.filter Wr.kept).map fun w => w.pend x.bcount).foldl addPend x.pend, bcount := x.bcount + 1,
               ctl := { x.ctl with pc := f.pc, loops := f.loops, lx := f.lx, fresh := [] }, lastPc := x.ctl.pc,
               atYield := (hdrOf m.iss.word).kind == 1 } := by
  intro t x f
  obtain ⟨hk, hx⟩ := KeptElse_commit { m with iss := { core := m.ik, ctx := m.ij } } m.iss ws hs hw
  exact ⟨(KeptElse_iss m _ _ _ m.nextKey).trans hk, hx⟩

/-- A bundle that its header skips, from the state it meets. -/
theorem closeIssue_skipped {m : State} (hs : m.iss.skipped = true) (hl : m.iss.lit = none) (hw : m.iss.wrs = [])
    (ha : m.iss.acts = []) (ht : m.iss.trap = none) (hn : m.iss.stall = false) :
    let t := closeIssue m
    let x := m.ix
    let f := flowOf x.ctl false []
    KeptElse m t m.ik m.ij ∧
    t.ctx m.ik m.ij =
      { x with ctl := { x.ctl with pc := f.pc, loops := f.loops, lx := f.lx }, lastPc := x.ctl.pc,
               atYield := (hdrOf m.iss.word).kind == 1 } := by
  rw [closeIssue_plain ht hn ha]
  obtain ⟨hk, hx⟩ := KeptElse_commit_skipped { m with iss := { core := m.iss.core, ctx := m.iss.ctx } } hs hl hw ha
  exact ⟨(KeptElse_iss m _ _ _ m.nextKey).trans hk, hx⟩

@[simp] theorem openIssue_ik (s : State) (k j w : Nat) (lit : Option Nat) (sk : Bool) : (openIssue s k j w lit sk).ik = k := by
  simp only [openIssue, State.ik]
@[simp] theorem openIssue_ij (s : State) (k j w : Nat) (lit : Option Nat) (sk : Bool) : (openIssue s k j w lit sk).ij = j := by
  simp only [openIssue, State.ij]
@[simp] theorem openIssue_word (s : State) (k j w : Nat) (lit : Option Nat) (sk : Bool) :
    (openIssue s k j w lit sk).iss.word = w := by
  simp only [openIssue]
@[simp] theorem meets_ik (s : State) (sl : Slot) (i : Instr) : (s.meets sl i).ik = s.ik := openIssue_ik ..
@[simp] theorem meets_ij (s : State) (sl : Slot) (i : Instr) : (s.meets sl i).ij = s.ij := openIssue_ij ..

/-- The state a bundle meets on a context that awaits nothing is the state before it, but for the step counter and the record
of the bundle in progress. -/
theorem kept_of_unawaited {s t : State} {k j : Nat} (hp : (s.ctx k j).pend = []) (a : Issue)
    (ht : t = { (s.tick.modCtx k j fun x => { x with pend := [] }) with iss := a }) :
    (∀ k', k' ≠ k → t.core k' = s.core k') ∧ (∀ j', t.ctx k j' = s.ctx k j') ∧
    { t.core k with ctxs := [] } = { s.core k with ctxs := [] } ∧
    { t with cores := [], iss := {} } = { s with cores := [], iss := {}, freeCtr := s.freeCtr + 1 } := by
  subst ht
  refine ⟨fun k' hk => core_setCore_other _ _ hk, fun j' => modCtx_pend_nil s.tick k j j' hp, ?_, rfl⟩
  exact congrArg (fun c : Core => { c with ctxs := [] }) (core_setCore_same s.tick k _)

/-- Settles O7: what closing a bundle leaves, with results or skipped, and what beginning one leaves where nothing is awaited. -/
theorem bundleResults : Obligations.BundleResults := by
  refine ⟨?results, ?unawaited, ?skipped⟩
  case results =>
    intro s sl i ws hw
    have h := commit_results (m := s.meets sl i) rfl hw
    simp only [State.after, meets_ik, meets_ij] at h ⊢
    exact h
  case unawaited =>
    intro s sl i hp hw hm
    obtain ⟨a, he⟩ := openIssue_unawaited (soloWord (s.solo sl i)) (if wantsLit i then some (s.iss.lit.getD 0) else none) false
      hp hw hm
    exact kept_of_unawaited hp a he
  case skipped =>
    intro s ho hc
    refine ⟨_, exec_skippedBundle ho hc, ?_⟩
    have h := closeIssue_skipped (m := openIssue s s.ik s.ij 4 none true) rfl rfl rfl rfl rfl rfl
    simp only [openIssue_ik, openIssue_ij, openIssue_word] at h ⊢
    exact h

end Sys2Proof.Machine

namespace Sys2Proof.Machine

/-! ### What decode finds against an operation (R31, R167, R380, R421, R424) -/

/-- An instruction that a bundle encodes is an operation of its slot. -/
theorem exec_encoded (i : Instr) (arg : List Nat) : ∀ p ∈ encFields i arg, ∃ f, ∀ s, exec i s = slotOp p.1 i f s := by
  cases i with
  | loop _ _ _ n => cases n <;> (rintro _ ⟨⟩; exact ⟨_, fun _ => rfl⟩)
  | rfe n => cases n <;> (rintro _ ⟨⟩; exact ⟨_, fun _ => rfl⟩)
  | nbArr _ p => cases p <;> (rintro _ ⟨⟩; exact ⟨_, fun _ => rfl⟩)
  | rdMv _ _ _ d _ _ => cases d <;> (rintro _ ⟨⟩; exact ⟨_, fun _ => rfl⟩)
  | _ => rintro _ ⟨⟩ <;> exact ⟨_, fun _ => rfl⟩

/-- An operation that may issue by itself and decides only a trap. -/
theorem slotOp_trap {s : State} {sl : Slot} {i : Instr} {f : State → Out} {t : TrapReq} (h : s.mayIssue sl i = true)
    (ho : f (s.meets sl i) = { trap := some t }) : slotOp sl i f s = .next (s.trapped sl i t) :=
  slotOp_traps h (congrArg Out.trap ho) (congrArg Out.stall ho)

/-- An outcome taken up before an empty one, or after it. -/
theorem add_add_none (i : Issue) (o : Out) : (i.add o).add {} = (i.add {}).add o := by
  simp [Issue.add]

/-- An operation that decode finds something against traps with it. -/
theorem slotOp_found {s : State} {sl : Slot} {i : Instr} {f : State → Out} {t : TrapReq} (ho : s.iss.opn = false)
    (hc : canIssue s s.ik s.ij = true)
    (ht : decodeOut (s.meets sl i) (s.solo sl i) (soloWord (s.solo sl i)) = { trap := some t }) :
    slotOp sl i f s = .next (s.trapped sl i t) := by
  unfold slotOp soloIssue
  rw [if_neg (by simp [ho]), if_neg (by simp [hc])]
  show Host.Outcome.next (let m := s.meets sl i
    let d := decodeOut m (s.solo sl i) (soloWord (s.solo sl i))
    closeIssue { m with iss := (m.iss.add d).add (if d.trap.isSome then {} else f m) }) = _
  dsimp only
  rw [ht, Option.isSome_some, if_pos rfl, add_add_none]
  obtain ⟨h1, h2, -⟩ := meets_fresh s sl i
  unfold State.trapped
  generalize s.meets sl i = m at *
  exact congrArg Host.Outcome.next (close_trap h1 h2 rfl rfl)

theorem decodeOut_priv {m : State} {o : SOp} (w : Nat) (hi : isSystem o.i = true) (hp : m.ix.privileged = false) :
    decodeOut m o w =
      { trap := some { cause := 3, slot := o.slot.code,
                       info := fld (o.slot.field w) o.slot.opField.1 o.slot.opField.2 + 2 ^ 8 * o.slot.code } } :=
  if_pos ⟨hi, by rw [hp]; rfl⟩

theorem decodeOut_bank {m : State} {o : SOp} (w : Nat) {f n : Nat} (hp : isSystem o.i = false ∨ m.ix.privileged = true)
    (hb : (operandRegs o.i o.arg).find? (fun p => m.ix.bankx p.1 p.2) = some (f, n)) :
    decodeOut m o w = { trap := some { cause := 4, slot := o.slot.code, info := n % 512 + 512 * f } } := by
  have hn : ¬(isSystem o.i = true ∧ (!m.ix.privileged) = true) := by
    rintro ⟨hi, hq⟩
    rcases hp with h | h <;> simp_all
  have hf : bankFaults m.ix [o] = some (o.slot, f, n) := by
    simp [bankFaults, hb]
  rw [decodeOut, if_neg hn, hf]
  dsimp only
  rw [bankxInfo, Nat.mul_comm f]

/-- An index that names a register outside the demand of the task. -/
theorem movIx_bankx {m : State} {h : VH} {n : BitVec 6} (f : Nat → Out)
    (hb : m.ix.bankx (vFileNo h.f) (m.rdS (vSlot h.f) n.toNat % 512) = true) :
    movIx m h n f =
      { trap := some { cause := 4, slot := vSlot h.f,
                       info := m.rdS (vSlot h.f) n.toNat % 512 + 512 * vFileNo h.f } } := by
  rw [movIx, if_pos hb, bankxInfo, Nat.mod_mod, Nat.mul_comm 512]
  rfl

/-- Settles O9: what decode finds stands before what the operation decides; an index is judged by the operation itself. -/
theorem decodeTraps : Obligations.DecodeTraps := by
  refine ⟨?decode, ?issue⟩
  case decode =>
    intro s i sl fs he ho hc m
    obtain ⟨g, hg⟩ := exec_encoded i s.arg _ he
    refine ⟨rfl, fun hi hp => ?_, fun hp f n hb => ?_⟩
    · exact (hg s).trans (slotOp_found ho hc (decodeOut_priv _ hi hp))
    · exact (hg s).trans (slotOp_found ho hc (decodeOut_bank _ hp hb))
  case issue =>
    intro s h d n sl traps
    exact ⟨fun hm hb => slotOp_trap (f := opMovIxGet h d n) hm (movIx_bankx _ hb),
      fun hm hb => slotOp_trap (f := opMovIxPut h d n) hm (movIx_bankx _ hb)⟩

end Sys2Proof.Machine

namespace Sys2Proof.Machine

/-! ### Local loads that trap, and checked loads (R70, R171, R174 to R176, R185, R188) -/

theorem localPath_far {m : State} {ea : Nat} (g : Nat → Out) (hf : m.ix.fenced = false) (h : 2 ^ 20 ≤ ea) :
    localPath m (withOp (spaceLocal 6 ea) g) = { trap := some { cause := 11, slot := 6, info := ea } } := by
  rw [localPath_ok _ hf, spaceLocal_far h]; rfl
theorem localPath_farBank {m : State} {ea : Nat} (g : Nat → Out) (hf : m.ix.fenced = false) (h : 2 ^ 19 ≤ ea) :
    localPath m (withOp (spaceBank 6 ea) g) = { trap := some { cause := 11, slot := 6, info := ea } } := by
  rw [localPath_ok _ hf, spaceBank_far h]; rfl
theorem localPath_near {m : State} {ea : Nat} (g : Nat → Out) (hf : m.ix.fenced = false) (h : ea < 2 ^ 20) :
    localPath m (withOp (spaceLocal 6 ea) g) = g (ea / 128) := by
  rw [localPath_ok _ hf, spaceLocal_ok h]; rfl

/-- The address of an indexed load (R188). -/
theorem ldIdx_ea (x y : Nat) (o : BitVec 15) :
    wrap 64 ((x : Int) + 128 * (y : Int) + 128 * sval 15 o.toNat) =
      (((x : Int) + 128 * (y : Int) + 128 * o.toInt) % 2 ^ 64).toNat := by
  rw [sval_toInt, wrap]; rfl

/-! A consumer form that does not find its slot (R171, R174 to R176). -/

theorem consume_unbound {m : State} {slot h : Nat} (o : BitVec 20) (hb : (m.ix.ring h).bound = false) :
    consume m slot h o = .error (Out.mkTrap 13 slot 7) := by
  unfold consume boundRing
  rw [if_neg (by simp [hb])]; rfl

theorem sval20_large {o : BitVec 20} (h : 2 ^ 19 ≤ o.toNat) : sval 20 o.toNat < 0 := by
  rw [sval, if_neg (by omega)]; omega

theorem consume_far {m : State} {slot h : Nat} {o : BitVec 20} (hb : (m.ix.ring h).bound = true)
    (ho : 2 ^ 19 ≤ o.toNat ∨ (m.ix.ring h).n ≤ o.toNat) :
    consume m slot h o = .error (Out.mkTrap 11 slot (h + o.toNat * 32)) := by
  have hs : sval 20 o.toNat < 0 ∨ ((m.ix.ring h).n : Int) ≤ sval 20 o.toNat := by
    by_cases hl : 2 ^ 19 ≤ o.toNat
    · exact .inl (sval20_large hl)
    · rw [sval20_small (by omega)]
      omega
  unfold consume
  rw [boundRing_ok hb]
  show (if _ then _ else if _ then _ else _) = _
  rw [if_pos hs, spRangeH, Nat.mod_eq_of_lt o.isLt]

theorem ringSlot_bad {m : State} {slot h : Nat} {r : Ring} {off : Nat} (hb : tget 0 r.bad ((r.con.toNat + off) % r.n) ≠ 0) :
    ringSlot m slot h r off =
      .error (Out.mkTrap 10 slot (h + (r.con.toNat + off) % r.n * 2 ^ 5 + tget 0 r.bad ((r.con.toNat + off) % r.n) * 2 ^ 18)) :=
  if_pos hb
theorem ringSlot_ok {m : State} {slot h : Nat} {r : Ring} {off : Nat} (hb : tget 0 r.bad ((r.con.toNat + off) % r.n) = 0) :
    ringSlot m slot h r off = .ok (m.rdRow slot (r.base + (r.con.toNat + off) % r.n)) :=
  if_neg (not_not.2 hb)

/-- A consumer form whose slot is filled asks for that slot. -/
theorem consume_filled {m : State} {slot h : Nat} {o : BitVec 20} (hb : (m.ix.ring h).bound = true) (h1 : o.toNat < 2 ^ 19)
    (h2 : o.toNat < (m.ix.ring h).n) (h3 : o.toNat < (m.ix.ring h).filled) :
    consume m slot h o = ringSlot m slot h (m.ix.ring h) o.toNat := by
  unfold consume
  rw [boundRing_ok hb]
  show (if _ then _ else if _ then _ else _) = _
  rw [sval20_small h1, if_neg (by omega), if_neg (by rw [Int.toNat_natCast]; omega), Int.toNat_natCast]

theorem consume_bad {m : State} {slot h : Nat} {o : BitVec 20} (hb : (m.ix.ring h).bound = true) (h1 : o.toNat < 2 ^ 19)
    (h2 : o.toNat < (m.ix.ring h).n) (h3 : o.toNat < (m.ix.ring h).filled)
    (h4 : tget 0 (m.ix.ring h).bad (((m.ix.ring h).con.toNat + o.toNat) % (m.ix.ring h).n) ≠ 0) :
    consume m slot h o = .error (Out.mkTrap 10 slot (h + ((m.ix.ring h).con.toNat + o.toNat) % (m.ix.ring h).n * 2 ^ 5 +
      tget 0 (m.ix.ring h).bad (((m.ix.ring h).con.toNat + o.toNat) % (m.ix.ring h).n) * 2 ^ 18)) :=
  (consume_filled hb h1 h2 h3).trans (ringSlot_bad h4)

theorem localPath_error {α : Type} {m : State} {e : Except Out α} {c i : Nat} (g : α → Out) (hf : m.ix.fenced = false)
    (he : e = .error (Out.mkTrap c 6 i)) :
    localPath m (withOp e g) = { trap := some { cause := c, slot := 6, info := i } } := by
  rw [localPath_ok _ hf, he]; rfl

/-- The traps of a handle form that reads its slot through the load slot. -/
theorem traps_of_consume {s : State} {i : Instr} {f : State → Out} {h : Nat} {o : BitVec 20}
    (hi : exec i s = slotOp .ld i f s) (g : Nat → Out)
    (hg : f (s.meets .ld i) = localPath (s.meets .ld i) (withOp (consume (s.meets .ld i) 6 h o) g))
    (hm : s.mayIssue .ld i = true) (hf : (s.meets .ld i).ix.fenced = false) :
    let r := (s.meets .ld i).ix.ring h
    let x := (r.con.toNat + o.toNat) % r.n
    (r.bound = false → Traps s .ld i { cause := 13, slot := 6, info := 7 }) ∧
    (r.bound = true → 2 ^ 19 ≤ o.toNat ∨ r.n ≤ o.toNat → Traps s .ld i { cause := 11, slot := 6, info := h + o.toNat * 32 }) ∧
    (r.bound = true → o.toNat < 2 ^ 19 → o.toNat < r.n → o.toNat < r.filled → tget 0 r.bad x ≠ 0 →
      Traps s .ld i { cause := 10, slot := 6, info := h + x * 2 ^ 5 + tget 0 r.bad x * 2 ^ 18 }) := by
  have trap {c v : Nat} (he : consume (s.meets .ld i) 6 h o = .error (Out.mkTrap c 6 v)) :
      Traps s .ld i { cause := c, slot := 6, info := v } :=
    hi.trans (slotOp_trap hm (hg.trans (localPath_error g hf he)))
  exact ⟨fun hb => trap (consume_unbound o hb), fun hb ho => trap (consume_far hb ho),
    fun hb h1 h2 h3 h4 => trap (consume_bad hb h1 h2 h3 h4)⟩

/-! The check of a `.chk` load (R70, R185). -/

/-- The code of the check: 6 where the payload is out of range and nothing of the colophon itself fails. -/
def chkCode (v ty : Nat) : Option (List Nat) → Nat
  | some l => colCheck v ty (bitsAt v 176 16) l
  | none => let c := colCheck v ty (bitsAt v 176 16) []; if c = 0 ∨ c = 5 then 6 else c

theorem chkCode_ite (c : Prop) [Decidable c] (v ty : Nat) (l : List Nat) :
    chkCode v ty (if c then none else some l) = if c then chkCode v ty none else colCheck v ty (bitsAt v 176 16) l := by
  split <;> rfl

theorem chkLoad_ok {m : State} {d : VReg} {v w place : Nat} {ring : Bool} {p : Option (List Nat)} (h : chkCode v m.fAF p = 0) :
    chkLoad m d v w place ring p =
      { wrs := [wholeWr (.v d.f d.n.toNat) 1024 v 4 .load],
        acts := [.touch w, .wait (.cycle (m.now + bitsAt v 176 16 + 4))] } := by
  cases p <;> exact if_neg (not_not.2 h)
theorem chkLoad_trap {m : State} {d : VReg} {v w place : Nat} {ring : Bool} {p : Option (List Nat)} (h : chkCode v m.fAF p ≠ 0) :
    chkLoad m d v w place ring p = colTrap 6 (chkCode v m.fAF p) place m.fAF ring := by
  cases p <;> exact if_pos h

/-- What a `.chk` load does once it has its colophon and payload. -/
theorem results_of_chkLoad {s : State} {i : Instr} {f : State → Out} {d : VReg} {v w place : Nat} {ring : Bool}
    {p : Option (List Nat)} {mark : Nat} (hk : b2n ring * 2 ^ 17 = mark) (hi : exec i s = slotOp .ld i f s) (hm : s.mayIssue .ld i = true)
    (hg : f (s.meets .ld i) = chkLoad (s.meets .ld i) d v w place ring p) :
    let code := chkCode v (s.meets .ld i).fAF p
    (code = 0 → Completes s .ld i [wholeWr (.v d.f d.n.toNat) 1024 v 4 .load]
      [.touch w, .wait (.cycle ((s.meets .ld i).now + bitsAt v 176 16 + 4))]) ∧
    (code ≠ 0 → Traps s .ld i
      { cause := 8, slot := 6, info := code + place * 2 ^ 4 + mark + (s.meets .ld i).fAF * 2 ^ 18 }) :=
  ⟨fun h => hi.trans (slotOp_out hm (hg.trans (chkLoad_ok h))),
    fun h => hk ▸ hi.trans (slotOp_trap hm (hg.trans (chkLoad_trap h)))⟩

/-- The first read of a list that fails makes the whole fail. -/
theorem mapM_error {α β ε : Type} (f : α → Except ε β) (g : α → β) (l r : List α) (x : α) (e : ε)
    (hl : ∀ y ∈ l, f y = .ok (g y))
    (hx : f x = .error e) : (l ++ x :: r).mapM f = .error e := by
  rw [List.mapM_append, mapM_ok f g l hl, List.mapM_cons, hx]; rfl
theorem range_eq_append_cons {q n : Nat} (h : q < n) : ∃ r, List.range n = List.range q ++ q :: r := by
  obtain ⟨k, rfl⟩ : ∃ k, n = q + (k + 1) := ⟨n - q - 1, by omega⟩
  exact ⟨_, by rw [List.range_add, List.range_succ_eq_map, List.map_cons, Nat.add_zero]⟩

/-- The slot of a ring at an offset from its oldest one (R174), its content, and whether its data is sound (R176). -/
def State.slotIx (m : State) (h o : Nat) : Nat := ((m.ix.ring h).con.toNat + o) % (m.ix.ring h).n
def State.slotRow (m : State) (h o : Nat) : Nat := m.rdRow 6 ((m.ix.ring h).base + m.slotIx h o)
def State.slotSound (m : State) (h o : Nat) : Prop := tget 0 (m.ix.ring h).bad (m.slotIx h o) = 0
/-- A handle form finds its slot filled, and nothing of the context's fences stands before it. -/
def State.finds (m : State) (h o : Nat) : Prop :=
  m.ix.fenced = false ∧ (m.ix.ring h).bound = true ∧ o < 2 ^ 19 ∧ o < (m.ix.ring h).n ∧ o < (m.ix.ring h).filled ∧
    m.slotSound h o

/-- The n rows before the slot at offset o that its colophon covers, if so many stand there; the first faulted one traps
(R176, R185). -/
def State.payload (m : State) (h o n : Nat) : Except Out (Option (List Nat)) :=
  if o < n then .ok none else ((List.range n).mapM fun q => ringSlot m 6 h (m.ix.ring h) (o - n + q)).map some

theorem payload_short {m : State} {h o n : Nat} (hs : o < n) : m.payload h o n = .ok none := if_pos hs
theorem payload_sound {m : State} {h o n : Nat} (hs : n ≤ o) (hq : ∀ q, q < n → m.slotSound h (o - n + q)) :
    m.payload h o n = .ok (some ((List.range n).map fun q => m.slotRow h (o - n + q))) := by
  rw [State.payload, if_neg (by omega),
    mapM_ok _ (fun q => m.slotRow h (o - n + q)) _ fun q hm => ringSlot_ok (hq q (List.mem_range.1 hm))]
  rfl
theorem payload_faulted {m : State} {h o n q : Nat} (hs : n ≤ o) (hq : q < n) (hb : ¬m.slotSound h (o - n + q))
    (hp : ∀ p, p < q → m.slotSound h (o - n + p)) :
    m.payload h o n = .error (Out.mkTrap 10 6 (h + m.slotIx h (o - n + q) * 2 ^ 5 +
      tget 0 (m.ix.ring h).bad (m.slotIx h (o - n + q)) * 2 ^ 18)) := by
  obtain ⟨r, hr⟩ := range_eq_append_cons hq
  rw [State.payload, if_neg (by omega), hr, mapM_error _ (fun p => m.slotRow h (o - n + p)) _ r q _
    (fun p hm => ringSlot_ok (hp p (List.mem_range.1 hm))) (ringSlot_bad hb)]
  rfl

/-- A checked load by handle that finds its slot checks the rows before it (R185). -/
theorem opLdHChk_found {m : State} {d : VReg} {a : Mem} (hf : m.finds a.base.toNat a.off.toNat) :
    let h := a.base.toNat
    let o := a.off.toNat
    let v := m.slotRow h o
    opLdHChk d a m = withOp (m.payload h o (bitsAt v 176 16))
      (chkLoad m d v ((m.ix.ring h).base + m.slotIx h o) (m.slotIx h o) true) := by
  intro h o v
  obtain ⟨hf, hb, h1, h2, h3, h4⟩ := hf
  unfold opLdHChk
  dsimp only
  rw [localPath_ok _ hf, consume_ok hb h1 h2 h3 h4]
  show (if o < bitsAt v 176 16 then _ else withOp ((List.range (bitsAt v 176 16)).mapM fun q =>
    ringSlot m 6 h (m.ix.ring h) (o - bitsAt v 176 16 + q)) _) = _
  unfold State.payload
  split
  · rfl
  · cases (List.range (bitsAt v 176 16)).mapM fun q => ringSlot m 6 h (m.ix.ring h) (o - bitsAt v 176 16 + q) <;> rfl

theorem opLdRowChk_near {m : State} {d : VReg} {a : Mem} (hf : m.ix.fenced = false) (h : eaLd m a < 2 ^ 20) :
    let w := eaLd m a / 128
    let v := m.rdRow 6 w
    let n := bitsAt v 176 16
    opLdRowChk d a m = chkLoad m d v w w false
      (if w < n then none else some ((List.range n).map fun q => m.rdRow 6 (w - n + q))) :=
  localPath_near _ hf h

/-- Settles O25: addresses out of range, handle forms that find no slot, and the check of a colophon by its code. -/
theorem loadTrapsAndChecks : Obligations.LoadTrapsAndChecks := by
  refine ⟨fun s d n a b k o => ?traps, fun s d a => ⟨?row, ?ring⟩⟩
  case traps =>
    refine ⟨?ldRow, ?ldRowChk, ?ldS, ?ldBc, ?ldZ, ?ldSb, ?ldIdx, ?ldH, ?ldHChk, ?packed⟩
    case ldRow => exact fun hm hf he => slotOp_trap (f := opLdRow d a) hm (localPath_far _ hf he)
    case ldRowChk => exact fun hm hf he => slotOp_trap (f := opLdRowChk d a) hm (localPath_far _ hf he)
    case ldS => exact fun hm hf he => slotOp_trap (f := opLdS n a) hm (localPath_far _ hf he)
    case ldBc => exact fun hm hf he => slotOp_trap (f := opLdBc d a) hm (localPath_far _ hf he)
    case ldZ => exact fun hm hf he => slotOp_trap (f := opLdZ d a) hm (localPath_far _ hf he)
    case ldSb => exact fun hm hf he => slotOp_trap (f := opLdSb d a) hm (localPath_farBank _ hf he)
    case ldIdx =>
      intro hm hf he
      refine slotOp_trap (f := opLdIdx d b k o) hm ?_
      unfold opLdIdx
      dsimp only
      rw [ldIdx_ea]
      exact localPath_far _ hf he
    case ldH => exact fun hm hf => traps_of_consume (f := opLdH d a) rfl _ rfl hm hf
    case ldHChk => exact fun hm hf => traps_of_consume (f := opLdHChk d a) rfl _ rfl hm hf
    case packed =>
      intro i m hm hf he hu
      refine slotOp_trap (f := opLdZ d a) hm ((localPath_near _ hf he).trans ?_)
      dsimp only
      rw [hu]; rfl
  case row =>
    intro i m w v rows code hm hf he
    have h := results_of_chkLoad (mark := 0) rfl (f := opLdRowChk d a) rfl hm (opLdRowChk_near hf he)
    have hc : chkCode v m.fAF (if w < rows then none else some _) = code := chkCode_ite ..
    exact hc ▸ h
  case ring =>
    intro i m r o slot v rows sound code hm hf hb h1 h2 h3 h4
    have hfind : m.finds a.base.toNat o := ⟨hf, hb, h1, h2, h3, h4⟩
    refine ⟨fun hs q hq hn hp => ?_, fun hs => ?_⟩
    · exact slotOp_trap (f := opLdHChk d a) hm
        ((opLdHChk_found hfind).trans (congrArg (withOp · _) (payload_faulted hs hq hn hp)))
    · have hp : m.payload a.base.toNat o rows =
          .ok (if o < rows then none else some ((List.range rows).map fun q => m.slotRow a.base.toNat (o - rows + q))) := by
        split
        next hlt => exact payload_short hlt
        next hge =>
          have hall := hs.resolve_right hge
          exact payload_sound (by omega) fun q hq => hall _ (by omega) (by omega)
      have h := results_of_chkLoad (mark := 2 ^ 17) rfl (f := opLdHChk d a) rfl hm
        ((opLdHChk_found hfind).trans (congrArg (withOp · _) hp))
      have hc : chkCode v m.fAF (if o < rows then none else some _) = code := chkCode_ite ..
      exact hc ▸ h

end Sys2Proof.Machine

namespace Sys2Proof.Machine

/-! ### Centroids (R67, R277 to R279) -/

theorem sumBase_ok {m : State} {la : Nat} (h : m.rdLa 5 la < 2 ^ 20) : sumBase m la = .ok (m.rdLa 5 la / 128) := by
  unfold sumBase
  dsimp only
  rw [if_neg]
  omega

/-- The queue entry of a `cupd` whose running best is settled (R277). -/
def State.updEntry (m : State) (p : BitVec 8) (a : ASrc) (rows : BitVec 5) : MxEnt :=
  let r := rows.toNat + 1
  let base := m.rdLa 5 (a.r.toNat + b2n (!a.h))
  let best := (List.range r).map fun n => BitVec.ofNat 64 (m.readBest n)
  let touch := ((updHits p.toNat best).flatMap fun h =>
    ((List.range 4).map fun q => (base / 128 + 4 * h.2 + q) % 8192) ++ [(base / 128 + 512 + h.2 / 32) % 8192]).eraseDups
  { op := .upd, ctx := m.ij, due := m.ix.bcount + r + 16, rows := r, t0 := m.now, rdEnd := m.now + r + 16, reads := touch,
    spoilt := [], entry := r, pl := 2, kind := m.fAF == 11, data := (m.planeRows a r).map fun v => row v.2, best := best,
    sum := base / 128, pass := p.toNat }

theorem any_op_false {l : List MxEnt} {o : MxOp} (h : ∀ e ∈ l, e.op ≠ o) : (l.any fun e => e.op == o) = false :=
  List.any_eq_false.2 fun e he => by simpa using h e he

theorem opCupd_enters {m : State} {p : BitVec 8} {a : ASrc} {rows : BitVec 5} (hf : m.fAF = 0 ∨ m.fAF = 11)
    (hp : m.planeReadable a (rows.toNat + 1)) (hb : m.rdLa 5 (a.r.toNat + b2n (!a.h)) < 2 ^ 20) (hd : m.ix.mbestDue ≤ m.ix.bcount)
    (hq : (m.core m.ik).mqBusy < 8) (he : (m.core m.ik).entryFree ≤ m.now) (hn : ∀ e ∈ (m.core m.ik).mq, e.op ≠ .fin) :
    opCupd p a rows m = { acts := [.mx (m.updEntry p a rows)] } := by
  unfold opCupd
  dsimp only
  rw [if_neg (by omega), mxPlane_ok hp, sumBase_ok hb]
  show mqWait m _ [] _ = _
  rw [mqWait_ok _ _ (by simp [hq, he, any_op_false hn]), if_neg (by omega)]
  rfl

/-- Flags counted one by one, in a list and in a list of lists. -/
theorem foldl_b2n {α : Type} (p : α → Bool) (l : List α) (n : Nat) : l.foldl (fun m y => m + b2n (p y)) n = n + l.countP p := by
  induction l generalizing n with
  | nil => rfl
  | cons y l ih => rw [List.foldl_cons, ih, List.countP_cons, b2n]; omega
theorem foldl_rows_b2n {α : Type} (p : α → Bool) (l : List (List α)) (n : Nat) :
    l.foldl (fun m r => r.foldl (fun m y => m + b2n (p y)) m) n = n + (l.map (List.countP p)).sum := by
  induction l generalizing n with
  | nil => rfl
  | cons r l ih => rw [List.foldl_cons, foldl_b2n, ih, List.map_cons, List.sum_cons]; omega

/-- A table of cells, its rows first: the flags it counts, and its columns. -/
theorem table_flags (f : Nat → Nat → Nat × Bool) :
    ((List.range 128).map fun j => (List.range 128).map (f j)).foldl (fun m l => l.foldl (fun m y => m + b2n y.2) m) 0 =
      ((List.range 128).map fun j => (List.range 128).countP fun k => (f j k).2).sum := by
  rw [foldl_rows_b2n, Nat.zero_add, List.map_map]
  simp only [Function.comp_def, List.countP_map]
theorem table_columns (f : Nat → Nat → Nat × Bool) :
    ((List.range 128).map fun k => ofLanes 8 (((List.range 128).map fun j => (List.range 128).map (f j)).map
      fun l => (l.getD k (0, false)).1)) =
      (List.range 128).map fun k => ofLanes 8 ((List.range 128).map fun j => (f j k).1) := by
  refine List.map_congr_left fun k hk => ?_
  rw [List.map_map]
  simp [Function.comp_def, List.mem_range.1 hk]

/-- The mean that `cfin` puts into a B tile at centroid j and dimension k, and whether it saturated (R67, R279). -/
def State.meanCell (m : State) (ws : BitVec 6) (la : BitVec 5) (j k : Nat) : Nat × Bool :=
  let sb := m.rdLa 5 la.toNat / 128
  let rd (n : Nat) : Nat := (m.unmarked m.ik).rdRow 5 ((sb + n) % 8192)
  let cnt := lane 32 (rd (512 + j / 32)) (j % 32)
  let x := lane 32 (rd (4 * j + k / 32)) (k % 32)
  if cnt = 0 then (bElem m.fBF false ((m.core m.ik).wslot ws.toNat).rows k j, false)
  else meanConv m.fBF (divCount (if m.fBF = 11 then fmtF32.decZ x else ofInt (sval 32 x) 0 false) cnt)

/-- The queue entry of a `cfin` that forms a tile of these rows, with this many saturations. -/
def State.finEntry (m : State) (ws : BitVec 6) (la : BitVec 5) (z : Bool) (tile : List Nat) (sat : Nat) : MxEnt :=
  let sb := m.rdLa 5 la.toNat / 128
  { op := .fin, ctx := m.ij, t0 := m.now, rdEnd := m.now + 524, reads := (List.range 516).map fun n => (sb + n) % 8192,
    slots := [(ws.toNat, { rows := rowTab tile, loaded := true, ty := m.fBF })], rows := sat, sum := sb, zero := z }

theorem opCfin_enters {m : State} {ws : BitVec 6} {la : BitVec 5} {z : Bool} (hp : (m.core m.ik).ldwPending ws.toNat false = false)
    (hl : ((m.core m.ik).wslot ws.toNat).loaded = true) (ht : ((m.core m.ik).wslot ws.toNat).ty = m.fBF) (hf : m.fBF = 0 ∨ m.fBF = 11)
    (hs : ((m.core m.ik).wslot ws.toNat).sp = false) (hn : m.ix.fenced = false) (hb : m.rdLa 5 la.toNat < 2 ^ 20)
    (hq : (m.core m.ik).mqBusy < 8) (hu : ∀ e ∈ (m.core m.ik).mq, e.op ≠ .upd) :
    opCfin ws la z m =
      { acts := [.mx (m.finEntry ws la z
          ((List.range 128).map fun k => ofLanes 8 ((List.range 128).map fun j => (m.meanCell ws la j k).1))
          ((List.range 128).map fun j => (List.range 128).countP fun k => (m.meanCell ws la j k).2).sum)] } := by
  unfold opCfin
  dsimp only
  rw [if_neg (by simp [hp]), if_neg (by simp [hl, ht]), if_neg (by omega), if_neg (by simp [hs]), if_neg (by simp [hn]),
    sumBase_ok hb]
  show mqWait m _ [] _ = _
  rw [mqWait_ok _ _ (by simp [hq, any_op_false hu]), ← table_columns, ← table_flags]
  rfl

/-- Settles O41: both enter the queue, with the entry that the running best, or the sums and counts, give. -/
theorem centroidResults : Obligations.CentroidResults := by
  intro s p a rows la ws z
  refine ⟨?cupd, ?cfin⟩
  case cupd => exact fun hm hf hp hb hd hq he hn => slotOp_out (f := opCupd p a rows) hm (opCupd_enters hf hp hb hd hq he hn)
  case cfin =>
    exact fun hm hp hl ht hf hs hn hb hq hu => slotOp_out (f := opCfin ws la z) hm (opCfin_enters hp hl ht hf hs hn hb hq hu)

end Sys2Proof.Machine

namespace Sys2Proof.Machine

/-! ### A core's issue with nothing beside it (R22 to R24, R93, R459) -/

/-- Outside a rewritten group a bundle just closes. -/
theorem finish_plain (s : State) (k j word : Nat) (ops : List SOp) (first : Bool) :
    (finish s k j word ops none first).s = closeIssue s := by
  unfold finish
  dsimp only
  split <;> rfl

theorem runOps_single {m t : State} {o : SOp} (hg : m.guard o.slot.code o.g = true)
    (ht : exec o.i { m with arg := o.arg } = .next t) : runOps [o] m = .ok t := by
  have h : runOp m o = .ok t := by rw [runOp, if_pos hg, ht]; rfl
  rw [runOps, h]; rfl

theorem rwStage_none {s : State} {k j : Nat} (h : rwWants s k j = false) : rwStage s k j = (s, none) :=
  if_pos (by rw [h]; rfl)

/-- A bundle of one operation whose guard holds, no part of a rewritten group, issues by executing that operation in it. -/
theorem issueBundle_single {b m t : State} {k j w : Nat} {lit : Option Nat} {o : SOp}
    (hm : m = { openIssue b k j w lit false with iss := { (openIssue b k j w lit false).iss with sec := false } })
    (hs : skips m (hdrOf w) = false) (hr : rwWants m k j = false)
    (hp : (((m.ctx k j).plan).filter fun p => (p.todo.map (·.1)).head? == some (m.ctx k j).ctl.pc) = none) (ho : opsOf w = [o])
    (hg : m.guard o.slot.code o.g = true) (ht : exec o.i { m with arg := o.arg } = .next t) :
    issueBundle b k j w lit false = .ok (finish t k j w [o] none false) := by
  unfold issueBundle
  dsimp only
  rw [← hm, if_neg (by simp [hs])]
  simp only [Bool.false_eq_true, if_false, rwStage_none hr, hp, ho, runOps_single hg ht]
  rfl

theorem issueCtx_go {s : State} {k j w : Nat} {lit : Option Nat} (sec : Bool) (h : look (fetched s k j) k j = .go w lit) :
    issueCtx s k j sec = issueBundle (fetched s k j) k j w lit sec := by
  unfold issueCtx
  dsimp only
  rw [h]

/-- The primary's bundle issues alone where no candidate is beside it. -/
theorem issueCore_alone {s : State} {k j : Nat} {d : Did} (hp : (s.core k).prim = some j) (hn : candidate s k = none)
    (hc : canIssue s k j = true) (hb : atBreak s k j = false) (ho : overrun s k j = false) (hd : issueCtx s k j false = .ok d) :
    issueCore s k = .ok d.s := by
  unfold issueCore
  simp only [hp, hn, hc, hb, ho, hd, Bool.not_true, Bool.false_and, Bool.false_eq_true, if_false]

/-- A core's issue as a turn: the steps of the hardware that were due, then the issue; one that meets a unit that is not ready
leaves no trace (R459). -/
theorem takeTurn_issue {s q t : State} {k : Nat} (hq : q = settle (advanceN (nextCycle s k - s.now) s)) (hd : q.down = false)
    (hh : (q.core k).halted = false) (hi : issueCore { q with held := false } k = .ok t) :
    let after (x : State) : State := settle ({ x with iss := {} }.modCore k fun c => { c with lastCyc := x.now })
    takeTurn s (.issue k) = .ok (if t.held then after q else after t) := by
  unfold takeTurn
  dsimp only
  rw [← hq, if_neg (by simp [hd, hh]), hi]
  rfl

theorem step_issue {s u : State} {k : Nat} {r : List Turn} (ht : s.turns = .issue k :: r)
    (hu : takeTurn { s with turns := r } (.issue k) = .ok u) : step s = .next u := by
  have hc : cycle s = .ok u := by
    unfold cycle
    rw [ht]
    exact hu
  rw [step, hc]

/-- Settles O44: the turn is the core's issue, the issue the primary's bundle, and the bundle its one operation. -/
theorem stepRunsDecoded : Obligations.StepRunsDecoded := by
  intro s q a b m k j w o r lit hturns hq ha hb hdown hhalt hprim hcand hcan hbreak hover hlook hops hm hskip hrw hplan hguard after
  obtain ⟨t, ht⟩ := exec_next o.i { m with arg := o.arg }
  refine ⟨t, ht, ?_⟩
  subst ha hb
  have hd := (issueCtx_go false hlook).trans (issueBundle_single hm hskip hrw hplan hops hguard ht)
  have hi := issueCore_alone hprim hcand hcan hbreak hover hd
  rw [finish_plain] at hi
  exact step_issue hturns (takeTurn_issue hq hdown hhalt hi)

end Sys2Proof.Machine

namespace Sys2Proof.Machine

/-! ### Branches, calls, returns and loops (R105 to R112) -/

theorem opBrc_eq {m : State} {e : CqEnt} {r : List CqEnt} (t : Addr) (f : Bool) (hq : m.ix.ctl.cq = e :: r) (ht : e.at_ ≤ m.now) :
    opBrc t f m = Out.act (if e.v = f then [.cqPop] else [.cqPop, .jump t]) := by
  unfold opBrc
  rw [hq]
  dsimp only
  rw [if_neg (Nat.not_lt.2 ht)]
  cases e.v <;> cases f <;> rfl

theorem callOut_room {m : State} (t : Addr) (b : Bool) (h : m.ix.ctl.ret.length < 16) :
    callOut t b m = Out.act [.call t m.nextPc b] := if_neg (Nat.not_le.2 h)
theorem callOut_full {m : State} (t : Addr) (b : Bool) (h : 16 ≤ m.ix.ctl.ret.length) : callOut t b m = ctlErr 3 := if_pos h
theorem opRet_some {m : State} (h : m.ix.ctl.ret ≠ []) : opRet m = Out.act [.ret] := if_neg h
theorem opRet_none {m : State} (h : m.ix.ctl.ret = []) : opRet m = ctlErr 4 := if_pos h
theorem noHandler_task {m : State} (o : Out) (h : m.ix.hand.on = false) : noHandler m o = o := by
  rw [noHandler, h]; rfl

/-- The iterations a `loop` asks for. -/
def State.loopCount (m : State) : LoopCnt → Nat
  | .imm n => n.toNat
  | .lc k => m.rd 1 (.lc k.toNat)

/-- The bundle due lies in the body of a loop. -/
def State.inLoop (m : State) (l : Loop) : Prop := l.first.toNat ≤ m.ix.ctl.pc.toNat ∧ m.ix.ctl.pc.toNat ≤ l.last.toNat

/-- The loop that a `loop` at the bundle due begins. -/
def State.loopNew (m : State) (len : BitVec 10) (lvl set : BitVec 3) (n : LoopCnt) : Loop :=
  { first := BitVec.ofNat 32 (m.ix.ctl.pc.toNat + 1), last := BitVec.ofNat 32 (m.ix.ctl.pc.toNat + len.toNat + 1), left := m.loopCount n,
    total := m.loopCount n, lvl := lvl.toNat, step := BitVec.ofNat 32 (m.rd 1 (.strd set.toNat) / 2 ^ 32) }

section
variable {m : State} {len : BitVec 10} {lvl set : BitVec 3} {n : LoopCnt}

/-- A `loop` outside a handler, by what it finds against itself and by its count (R105, R110). -/
theorem opLoop_eq (hh : m.ix.hand.on = false) :
    opLoop len lvl set n m =
      if m.ix.ctl.loops.head?.any fun l => decide (lvl.toNat ≤ l.lvl) then ctlErr 1
      else if m.ix.ctl.loops.head?.any fun l => decide (l.first.toNat ≤ m.ix.ctl.pc.toNat) && decide (m.ix.ctl.pc.toNat ≤ l.last.toNat) &&
        decide (l.last.toNat < m.ix.ctl.pc.toNat + (len.toNat + 1)) then ctlErr 2
      else if m.loopCount n = 0 then Out.act [.skipTo (BitVec.ofNat 32 (m.ix.ctl.pc.toNat + len.toNat + 1 + 1))]
      else Out.act [.loop (m.loopNew len lvl set n) (BitVec.ofNat 32 (m.rd 1 (.strd set.toNat)))] := by
  unfold opLoop
  rw [noHandler_task _ hh]
  cases n <;> simp only [Nat.shiftRight_eq_div_pow] <;> rfl

/-- A `loop` whose level and body nest in the innermost active loop goes by its count (R105). -/
theorem opLoop_nested (hh : m.ix.hand.on = false)
    (hn : ∀ l ∈ m.ix.ctl.loops.head?, l.lvl < lvl.toNat ∧ (m.inLoop l → m.ix.ctl.pc.toNat + len.toNat + 1 ≤ l.last.toNat)) :
    opLoop len lvl set n m =
      if m.loopCount n = 0 then Out.act [.skipTo (BitVec.ofNat 32 (m.ix.ctl.pc.toNat + len.toNat + 1 + 1))]
      else Out.act [.loop (m.loopNew len lvl set n) (BitVec.ofNat 32 (m.rd 1 (.strd set.toNat)))] := by
  rw [opLoop_eq hh]
  cases hl : m.ix.ctl.loops.head? with
  | none => rfl
  | some l =>
    obtain ⟨h1, h2⟩ := hn l hl
    rw [Option.any_some, Option.any_some, if_neg (by simpa using h1), if_neg]
    intro hc
    simp only [Bool.and_eq_true, decide_eq_true_eq] at hc
    have := h2 hc.1
    omega

theorem opLoop_level {l : Loop} (hh : m.ix.hand.on = false) (hl : m.ix.ctl.loops.head? = some l) (h : lvl.toNat ≤ l.lvl) :
    opLoop len lvl set n m = ctlErr 1 := by
  rw [opLoop_eq hh, hl, Option.any_some, if_pos (by simpa using h)]

theorem opLoop_body {l : Loop} (hh : m.ix.hand.on = false) (hl : m.ix.ctl.loops.head? = some l) (h : l.lvl < lvl.toNat)
    (hi : m.inLoop l) (hb : l.last.toNat < m.ix.ctl.pc.toNat + len.toNat + 1) : opLoop len lvl set n m = ctlErr 2 := by
  obtain ⟨h1, h2⟩ := hi
  rw [opLoop_eq hh, hl, Option.any_some, Option.any_some, if_neg (by simpa using h), if_pos]
  simpa [h1, h2, Nat.add_assoc] using hb

end

/-- Settles O30: each operation decides by its lemma above. -/
theorem flowResults : Obligations.FlowResults := by
  intro s t f k lvl set len n act traps cnt first last lp inside nests
  have hc (m : State) : cnt m = m.loopCount n := by cases n <;> rfl
  refine ⟨fun h _ => slotOp_out h rfl, fun e r h hq => slotOp_out h (opBrc_eq t f hq.1 hq.2) ?brcMix,
    fun h _ => slotOp_out h rfl, fun h hr => slotOp_out h (callOut_room t false hr),
    fun h hr => slotOp_trap h (callOut_full t false hr), fun h hr => slotOp_out h (opRet_some hr),
    fun h hr => slotOp_trap h (opRet_none hr), ?loop, ?skip, ?level, ?body, fun h _ => slotOp_out h rfl⟩
  case brcMix => split <;> rfl
  case loop =>
    rintro h ⟨hh, hn, h0⟩
    rw [hc] at h0
    refine slotOp_out h ((opLoop_nested hh hn).trans ?_)
    rw [if_neg h0, State.loopNew]
    cases n <;> rfl
  case skip =>
    rintro h ⟨hh, hn, h0⟩
    rw [hc] at h0
    exact slotOp_out h ((opLoop_nested hh hn).trans (if_pos h0))
  case level =>
    rintro h ⟨hh, l, hl, hv⟩
    have e := opLoop_level (len := len) (set := set) (n := n) hh hl hv
    exact slotOp_trap h e
  case body =>
    rintro h ⟨hh, l, hl, hv, hi, hb⟩
    have e := opLoop_body (len := len) (set := set) (n := n) hh hl hv hi hb
    exact slotOp_trap h e

end Sys2Proof.Machine

namespace Sys2Proof.Machine

/-! ### Where a bundle leads (R105 to R107, R112) -/

/-- The flow a bundle without an effect on it starts from: the next bundle, past a literal (R28). -/
def Ctl.flow0 (t : Ctl) (lit : Bool) : Flow :=
  { pc := t.pc + (if lit then 2 else 1), loops := t.loops, ret := t.ret, lx := t.lx }

theorem flowOf_nil (t : Ctl) (lit : Bool) : flowOf t lit [] = iterEnd t.pc (t.flow0 lit) t.loops := rfl

/-- A jump ends no iteration (R107). -/
theorem flowOf_jump (t : Ctl) (lit : Bool) (a : Addr) :
    flowOf t lit [.jump a] = { t.flow0 lit with pc := a, loops := leaveLoops t.loops a, taken := true } := rfl

/-- The bundle does not end the innermost loop. -/
theorem iterEnd_inside (e : Addr) (f : Flow) {l : List Loop} (h : ∀ x ∈ l.head?, x.last ≠ e) : iterEnd e f l = { f with loops := l } := by
  cases l with
  | nil => rfl
  | cons x r => exact if_pos (h x rfl)

/-- With iterations left the loop goes back to its first bundle, its index stepped (R106). -/
theorem iterEnd_again {e : Addr} (f : Flow) {l : Loop} (r : List Loop) (he : l.last = e) (h : 1 < l.left) :
    iterEnd e f (l :: r) =
      { f with lx := tput f.lx l.lvl (tget 0 f.lx l.lvl + l.step), loops := { l with left := l.left - 1 } :: r, pc := l.first } := by
  rw [iterEnd, if_neg (not_not_intro he)]
  exact if_pos h

/-- After its last iteration the loop is left, and the one around it is looked at (R106). -/
theorem iterEnd_over {e : Addr} (f : Flow) {l : Loop} (r : List Loop) (he : l.last = e) (h : l.left ≤ 1) :
    iterEnd e f (l :: r) = iterEnd e { f with lx := tput f.lx l.lvl (tget 0 f.lx l.lvl + l.step) } r := by
  rw [iterEnd, if_neg (not_not_intro he)]
  exact if_neg (Nat.not_lt.2 h)

/-- The loops a flow holds before the ends of iterations do not enter into it. -/
theorem iterEnd_loops (e : Addr) (f : Flow) (k l : List Loop) : iterEnd e { f with loops := k } l = iterEnd e f l := by
  induction l generalizing f with
  | nil => rfl
  | cons x r ih =>
    simp only [iterEnd]
    split
    · rfl
    · split
      · rfl
      · exact ih { f with lx := tput f.lx x.lvl (tget 0 f.lx x.lvl + x.step) }

/-- Whether the body of a loop holds a bundle. -/
def Loop.holds (x : Loop) (a : Addr) : Prop := x.first.toNat ≤ a.toNat ∧ a.toNat ≤ x.last.toNat

/-- Whether entry i of a list of loops does not hold a bundle. -/
def leftAt (l : List Loop) (a : Addr) (i : Nat) : Bool :=
  match l[i]? with
  | some p => !(decide (p.first.toNat ≤ a.toNat) && decide (a.toNat ≤ p.last.toNat))
  | none => false

theorem leftAt_some {l : List Loop} {a : Addr} {i : Nat} {x : Loop} (h : l[i]? = some x) : leftAt l a i = true ↔ ¬x.holds a := by
  simp only [leftAt, h, Loop.holds, Bool.not_eq_true', Bool.and_eq_false_iff, decide_eq_false_iff_not]
  omega

theorem leaveLoops_eq (l : List Loop) (a : Addr) :
    leaveLoops l a = match (List.range l.length).reverse.find? (leftAt l a) with
      | some i => l.drop (i + 1)
      | none => l := rfl

/-- Loops that all hold the target stay (R107). -/
theorem leaveLoops_all {l : List Loop} {a : Addr} (h : ∀ x ∈ l, x.holds a) : leaveLoops l a = l := by
  have hn : (List.range l.length).reverse.find? (leftAt l a) = none := by
    rw [List.find?_eq_none]
    intro i hi
    rw [List.mem_reverse, List.mem_range] at hi
    rw [leftAt_some (List.getElem?_eq_getElem hi)]
    exact not_not_intro (h _ (List.getElem_mem hi))
  rw [leaveLoops_eq, hn]

/-- The outermost loop that does not hold the target is left with all inside it, and those around it stay (R107). -/
theorem leaveLoops_outermost {inner outer : List Loop} {l : Loop} {a : Addr} (hl : ¬l.holds a) (ho : ∀ x ∈ outer, x.holds a) :
    leaveLoops (inner ++ l :: outer) a = outer := by
  have hr : (List.range (inner ++ l :: outer).length).reverse =
      ((List.range outer.length).map (inner.length + 1 + ·)).reverse ++ inner.length :: (List.range inner.length).reverse := by
    rw [List.length_append, List.length_cons, show inner.length + (outer.length + 1) = (inner.length + 1) + outer.length by omega,
      List.range_add, List.range_succ]
    simp
  have hn : ((List.range outer.length).map (inner.length + 1 + ·)).reverse.find? (leftAt (inner ++ l :: outer) a) = none := by
    rw [List.find?_eq_none]
    intro i hi
    rw [List.mem_reverse, List.mem_map] at hi
    obtain ⟨n, hn, rfl⟩ := hi
    rw [List.mem_range] at hn
    rw [leftAt_some (x := outer[n]) (by rw [List.getElem?_append_right (by omega)]; simp [show inner.length + 1 + n - inner.length = n + 1 by omega, hn])]
    exact not_not_intro (ho _ (List.getElem_mem hn))
  have hf : (List.range (inner ++ l :: outer).length).reverse.find? (leftAt (inner ++ l :: outer) a) = some inner.length := by
    rw [hr, List.find?_append, hn, Option.none_or, List.find?_cons_of_pos]
    exact (leftAt_some (by simp)).2 hl
  rw [leaveLoops_eq, hf]
  simp

/-- Either all loops hold the target, or there is an outermost one that does not. -/
theorem loops_split (l : List Loop) (a : Addr) :
    (∀ x ∈ l, x.holds a) ∨ ∃ inner x outer, l = inner ++ x :: outer ∧ ¬x.holds a ∧ ∀ y ∈ outer, y.holds a := by
  induction l with
  | nil => exact .inl nofun
  | cons y r ih =>
    rcases ih with h | ⟨inner, x, outer, rfl, hx, ho⟩
    · by_cases hy : y.holds a
      · exact .inl (List.forall_mem_cons.2 ⟨hy, h⟩)
      · exact .inr ⟨[], y, r, rfl, hy, h⟩
    · exact .inr ⟨y :: inner, x, outer, rfl, hx, ho⟩

/-- The loops that stay after a branch were active before it and hold its target (R107). -/
theorem mem_leaveLoops {l : List Loop} {a : Addr} {x : Loop} (h : x ∈ leaveLoops l a) : x ∈ l ∧ x.holds a := by
  rcases loops_split l a with hl | ⟨inner, y, outer, rfl, hy, ho⟩
  · rw [leaveLoops_all hl] at h
    exact ⟨h, hl x h⟩
  · rw [leaveLoops_outermost hy ho] at h
    exact ⟨List.mem_append_right _ (List.mem_cons_of_mem _ h), ho x h⟩

/-- Settles O31: the flow of a bundle, by what its effects do to it and by the iterations that end at it. -/
theorem flowOfBundles : Obligations.FlowOfBundles := by
  intro t lit a b l ra z r next
  have hin (h : ∀ x ∈ t.loops.head?, x.last ≠ t.pc) : flowOf t lit [] = t.flow0 lit := by
    rw [flowOf_nil, iterEnd_inside _ _ h]
    rfl
  have hover (rest : List Loop) (h : t.loops = l :: rest) (hl : l.last = t.pc) (hn : l.left ≤ 1) :
      flowOf t lit [] = flowOf { t with loops := rest, lx := tput t.lx l.lvl (tget 0 t.lx l.lvl + l.step) } lit [] := by
    rw [flowOf_nil, flowOf_nil, h, iterEnd_over _ _ hl hn]
    exact (iterEnd_loops _ _ rest rest).symm
  refine ⟨fun h => ?_, fun h => ?_, ⟨rfl, fun x hx => ?_⟩, ⟨fun h => leaveLoops_all h, fun inner outer h hl ho => ?_⟩, ⟨rfl, rfl, rfl⟩,
    fun h => ?_, fun rest h hl hn => ?_, hover, fun h hl hn => ?_⟩
  · rw [hin (by simp [h])]
    exact ⟨rfl, h⟩
  · rw [hin h]
    exact ⟨rfl, rfl⟩
  · obtain ⟨hm, hh⟩ := mem_leaveLoops hx
    exact ⟨hm, hh⟩
  · rw [flowOf_jump, h]
    exact leaveLoops_outermost hl ho
  · show (t.ret.headD (0, false)).1 = ra ∧ t.ret.drop 1 = r
    rw [h]
    exact ⟨rfl, rfl⟩
  · rw [flowOf_nil, h, iterEnd_again _ _ hl hn]
    exact ⟨rfl, rfl, tget_tput_same ..⟩
  · rw [hover [] h hl hn]
    exact ⟨rfl, rfl, tget_tput_same ..⟩

end Sys2Proof.Machine

namespace Sys2Proof.Machine

/-! ### Tasks (R117, R385 to R397) -/

/-- A task ends at `halt`, but in an inlined child, which returns (R117, R388). -/
theorem opHalt_ends {m : State} (hh : m.ix.hand.on = false) (hr : ∀ x ∈ m.ix.ctl.ret.head?, x.2 = false) :
    opHalt m = Out.act [.halt] := by
  rw [opHalt, noHandler_task _ hh]
  rcases hm : m.ix.ctl.ret with _ | ⟨⟨a, b⟩, q⟩
  · rfl
  · obtain rfl : b = false := hr (a, b) (by rw [hm]; rfl)
    rfl
theorem opHalt_returns {m : State} {a : Addr} {q : List (Addr × Bool)} (hh : m.ix.hand.on = false)
    (hr : m.ix.ctl.ret = (a, true) :: q) : opHalt m = Out.act [.ret] := by
  rw [opHalt, noHandler_task _ hh, hr]

/-- Overflow entries of a kernel in the cluster of the bundle. -/
def State.ovfUsed (m : State) (q : Kernel) : Nat := ((m.cluster (clusterOf m.ik)).ovf.filter fun e => e.kern == q.id).length
/-- A fork finds a free queue entry and a free frame, and, where it may defer, no older entry waits (R387, R388; log entry 117). -/
def State.forkRoom (m : State) (pol : BitVec 2) (q : Kernel) : Bool :=
  ((m.cluster (clusterOf m.ik)).spawnQ.filter fun e => !e.resume).length < 256 &&
    0 < (m.cluster (clusterOf m.ik)).freeFrames q && (pol != 1 || m.ovfUsed q == 0)

/-- A fork of a task without frames (R387). -/
theorem opFork_frameless {m : State} {t : Addr} {pol : BitVec 2} (hh : m.ix.hand.on = false)
    (hk : m.kernelOf m.ix.task.kern = none ∨ ∃ q, m.kernelOf m.ix.task.kern = some q ∧ q.frame = 0) : opFork t pol m = taskErr 1 := by
  rw [opFork, noHandler_task _ hh]
  rcases hk with hk | ⟨q, hk, hf⟩
  · rw [hk]
  · rw [hk]
    exact if_pos hf

section
variable {m : State} {t : Addr} {pol : BitVec 2} {q : Kernel} (hh : m.ix.hand.on = false)
  (hk : m.kernelOf m.ix.task.kern = some q) (hf : q.frame ≠ 0)
include hh hk hf

/-- A fork by the room it finds and by its policy (R387, R388). -/
theorem opFork_eq :
    opFork t pol m =
      if m.forkRoom pol q = true then
        if 65535 ≤ m.children m.ik m.ij then taskErr 2
        else Out.act (.fork t false (BitVec.ofNat 64 (m.rdS 1 1)) (BitVec.ofNat 64 (m.rdS 1 2)) ::
          if pol = 2 then [.cqPush true 1] else [])
      else if pol = 2 then Out.act [.cqPush false 1]
      else if pol = 1 ∧ m.ovfUsed q < q.ovfq then
        if 65535 ≤ m.children m.ik m.ij then taskErr 2
        else Out.act [.fork t true (BitVec.ofNat 64 (m.rdS 1 1)) (BitVec.ofNat 64 (m.rdS 1 2))]
      else callOut t true m := by
  rw [opFork, noHandler_task _ hh, hk]
  exact if_neg hf

theorem opFork_accepts (hr : m.forkRoom pol q = true) (hc : m.children m.ik m.ij < 65535) :
    opFork t pol m = Out.act (.fork t false (BitVec.ofNat 64 (m.rdS 1 1)) (BitVec.ofNat 64 (m.rdS 1 2)) ::
      if pol = 2 then [.cqPush true 1] else []) := by
  rw [opFork_eq hh hk hf, if_pos hr, if_neg (Nat.not_le.2 hc)]
theorem opFork_reports (hr : m.forkRoom pol q = false) (hp : pol = 2) : opFork t pol m = Out.act [.cqPush false 1] := by
  rw [opFork_eq hh hk hf, if_neg (by simp [hr]), if_pos hp]
theorem opFork_defers (hr : m.forkRoom pol q = false) (hp : pol = 1) (hu : m.ovfUsed q < q.ovfq)
    (hc : m.children m.ik m.ij < 65535) :
    opFork t pol m = Out.act [.fork t true (BitVec.ofNat 64 (m.rdS 1 1)) (BitVec.ofNat 64 (m.rdS 1 2))] := by
  rw [opFork_eq hh hk hf, if_neg (by simp [hr]), if_neg (by simp [hp]), if_pos ⟨hp, hu⟩, if_neg (Nat.not_le.2 hc)]
theorem opFork_inlines (hr : m.forkRoom pol q = false) (hp : pol ≠ 2) (hu : pol = 1 → q.ovfq ≤ m.ovfUsed q)
    (hc : m.ix.ctl.ret.length < 16) : opFork t pol m = Out.act [.call t m.nextPc true] := by
  rw [opFork_eq hh hk hf, if_neg (by simp [hr]), if_neg hp, if_neg (fun h => Nat.not_le.2 h.2 (hu h.1)), callOut_room _ _ hc]
theorem opFork_children (hr : m.forkRoom pol q = true) (hc : 65535 ≤ m.children m.ik m.ij) : opFork t pol m = taskErr 2 := by
  rw [opFork_eq hh hk hf, if_pos hr, if_pos hc]
theorem opFork_children_deferred (hr : m.forkRoom pol q = false) (hp : pol = 1) (hu : m.ovfUsed q < q.ovfq)
    (hc : 65535 ≤ m.children m.ik m.ij) : opFork t pol m = taskErr 2 := by
  rw [opFork_eq hh hk hf, if_neg (by simp [hr]), if_neg (by simp [hp]), if_pos ⟨hp, hu⟩, if_pos hc]

end

/-- A `sync` names banks within the demand of its task (R391). -/
theorem opSync_within {m : State} {r : BitVec 6} (hh : m.ix.hand.on = false)
    (h : m.rdS 1 r.toNat &&& (2 ^ 64 - 1 - m.ix.task.demand.toNat) = 0) :
    opSync r m = Out.act [.sync (BitVec.ofNat 56 (m.rdS 1 r.toNat))] := by
  rw [opSync, noHandler_task _ hh]
  exact if_neg (not_not_intro h)
theorem opSync_outside {m : State} {r : BitVec 6} (hh : m.ix.hand.on = false)
    (h : m.rdS 1 r.toNat &&& (2 ^ 64 - 1 - m.ix.task.demand.toNat) ≠ 0) : opSync r m = taskErr 3 := by
  rw [opSync, noHandler_task _ hh]
  exact if_pos h

theorem cluster_setCluster_same (s : State) (q : Nat) (c : Cluster) : (s.setCluster q c).cluster q = c := tget_tput_same ..
theorem cluster_modCluster_same (s : State) (q : Nat) (f : Cluster → Cluster) : (s.modCluster q f).cluster q = f (s.cluster q) :=
  cluster_setCluster_same ..

/-- A deferred fork joins the overflow entries of its cluster, behind those that wait there (R388). -/
theorem forkAct_deferred (s : State) (k j : Nat) (t : Addr) (a b : Word) {q : Kernel}
    (h : s.kernelOf (s.ctx k j).task.kern = some q) :
    ∃ e : Spawn, e.target = t ∧ e.kern = q.id ∧ e.s1 = a ∧ e.s2 = b ∧
      ((forkAct s k j t true a b).cluster (clusterOf k)).ovf = (s.cluster (clusterOf k)).ovf ++ [e] := by
  unfold forkAct
  dsimp only
  rw [h]
  dsimp only
  rw [if_pos rfl, cluster_modCluster_same]
  generalize hu : State.modKernel _ q.id _ = u
  have ho : (u.cluster (clusterOf k)).ovf = (s.cluster (clusterOf k)).ovf := by
    rw [← hu]
    cases (s.ctx k j).task.frame with
    | none => rfl
    | some f =>
      have := cluster_modCluster_same s (clusterOf k) (·.modFrame f fun f => { f with pend := f.pend + 1 })
      exact congrArg (·.ovf) this
  rw [State.cluster, (memStep_lpWrite ..).keeps.2.1]
  exact ⟨_, by rfl, by rfl, by rfl, by rfl, congrArg (· ++ [_]) ho⟩

/-- The word of `spawn.stat` (R397). -/
theorem opSpawnStat_eq (m : State) :
    opSpawnStat m =
      let q := m.cluster (clusterOf m.ik)
      let n := m.kernelOf m.ix.task.kern
      { wrs := [wholeWr (m.ix.sD (m.arg.getD 0 0)) 64
        (((q.spawnQ.filter fun e => !e.resume).length + (q.ovf.filter fun e => e.kern == m.ix.task.kern).length % 2 ^ 16 * 2 ^ 9 +
          (n.elim 0 q.freeFrames) % 2 ^ 16 * 2 ^ 25 + m.children m.ik m.ij % 2 ^ 16 * 2 ^ 41 +
          b2n m.ix.wakeP.isSome * 2 ^ 57 + b2n (n.elim false (·.hinted)) * 2 ^ 58) % 2 ^ 64) 2 .copy] } := by
  unfold opSpawnStat
  cases m.kernelOf m.ix.task.kern <;> rfl

/-- Settles O33: each operation decides by its lemma above, and a fork that defers joins the overflow entries. -/
theorem taskResults : Obligations.TaskResults := by
  intro s t pol c r k act traps free arg used room forks outside
  refine ⟨fun h ⟨hh, hr⟩ => slotOp_out h (opHalt_ends hh hr), fun h ⟨hh, a, q, hr⟩ => slotOp_out h (opHalt_returns hh hr),
    ?accepts, ?reports, ?defers, ?inlines, fun h ⟨hh, hk⟩ => slotOp_trap h (opFork_frameless hh hk), ?children, ?childrenDeferred,
    fun k' j q a b h => forkAct_deferred s k' j t a b h, fun h ⟨hh, ho⟩ => slotOp_out h (opSync_within hh ho),
    fun h ⟨hh, ho⟩ => slotOp_trap h (opSync_outside hh ho), fun h hh => slotOp_out h (noHandler_task _ hh),
    fun h _ => slotOp_out h rfl, fun h _ => slotOp_out h rfl, fun h _ => slotOp_out h rfl,
    fun h => slotOp_out h (opSpawnStat_eq _)⟩
  case accepts =>
    rintro q h ⟨⟨hh, hk, hf⟩, hr, hc⟩
    exact slotOp_out h (opFork_accepts hh hk hf hr hc) (by split <;> rfl)
  case reports =>
    rintro q h ⟨⟨hh, hk, hf⟩, hr, hp⟩
    exact slotOp_out h (opFork_reports hh hk hf hr hp)
  case defers =>
    rintro q h ⟨⟨hh, hk, hf⟩, hr, hp, hu, hc⟩
    exact slotOp_out h (opFork_defers hh hk hf hr hp hu hc)
  case inlines =>
    rintro q h ⟨⟨hh, hk, hf⟩, hr, hp, hu, hc⟩
    exact slotOp_out h (opFork_inlines hh hk hf hr hp hu hc)
  case children =>
    rintro q h ⟨⟨hh, hk, hf⟩, hr, hc⟩
    exact slotOp_trap h (opFork_children hh hk hf hr hc)
  case childrenDeferred =>
    rintro q h ⟨⟨hh, hk, hf⟩, hr, hp, hu, hc⟩
    exact slotOp_trap h (opFork_children_deferred hh hk hf hr hp hu hc)

end Sys2Proof.Machine

namespace Sys2Proof.Machine

/-! ### System instructions (R118, R439 to R444) -/

theorem noHandler_handler {m : State} (o : Out) (h : m.ix.hand.on = true) : noHandler m o = Out.mkTrap 17 1 0 := by
  rw [noHandler, h]; rfl

theorem opTrap_task {m : State} (n : BitVec 16) (h : m.ix.hand.on = false) : opTrap n m = Out.act [.trapAfter 18 n.toNat] := by
  rw [opTrap, h]; rfl
theorem opTrap_handler {m : State} (n : BitVec 16) (h : m.ix.hand.on = true) : opTrap n m = Out.mkTrap 18 1 n.toNat := if_pos h
theorem opRfe_task {m : State} (r : Option (BitVec 6)) (h : m.ix.hand.on = false) : opRfe r m = Out.mkTrap 17 1 1 := by
  unfold opRfe
  rw [h]
  rfl
theorem opRfe_handler {m : State} (r : Option (BitVec 6)) (h : m.ix.hand.on = true) :
    opRfe r m = Out.act [.rfe (match r with
      | some n => addr (m.rdS 1 n.toNat)
      | none => addr (bitsAt (tget 0 m.ix.trec 1).toNat 32 32))] := by
  unfold opRfe
  rw [h]
  rfl

/-- A word names a target: a context of a core that is present (R439). -/
def State.namesTarget (m : State) (v : Nat) : Prop := v < 2 ^ 10 ∧ m.coreOk (v / 8 % 2 ^ 7) = true

theorem target_ok {m : State} {slot v : Nat} (h : m.namesTarget v) : target m slot v = .ok (v / 8 % 2 ^ 7, v % 8) := by
  obtain ⟨hv, hk⟩ := h
  unfold target
  rw [bitsAt_eq, if_neg]
  · rfl
  · rintro (h | h)
    · omega
    · rw [show (2 : Nat) ^ 3 = 8 from rfl, hk] at h
      cases h
theorem target_bad {m : State} {slot v : Nat} (h : ¬m.namesTarget v) : target m slot v = .error (Out.mkTrap 17 slot 2) := by
  unfold target
  rw [bitsAt_eq, if_pos]
  by_cases hv : v < 2 ^ 10
  · right
    have hk : m.coreOk (v / 2 ^ 3 % 2 ^ 7) ≠ true := fun hk => h ⟨hv, hk⟩
    simpa using hk
  · left
    omega

/-- What an operation on a target decides (R439). -/
theorem withTarget_ok {m : State} {v : Nat} (f : Nat × Nat → Out) (h : m.namesTarget v) :
    withOp (target m 1 v) f = f (v / 8 % 2 ^ 7, v % 8) := by
  rw [target_ok h, withOp_ok]
theorem withTarget_bad {m : State} {v : Nat} (f : Nat × Nat → Out) (h : ¬m.namesTarget v) :
    withOp (target m 1 v) f = Out.mkTrap 17 1 2 := by
  rw [target_bad h]; rfl

/-- The reply of an operation, on the copy port two bundles on, with what it does. -/
theorem reply_eq (m : State) (d : BitVec 6) {v : Nat} (acts : List Act) (hv : v < 2 ^ 64) :
    (m.wrS d.toNat v 2 .copy).and (Out.act acts) = { wrs := [wholeWr (m.ix.sD d.toNat) 64 v 2 .copy], acts := acts } := by
  simp only [State.wrS, Out.wr, Out.act, Out.and, wholeWr, Nat.mod_eq_of_lt hv, Option.or_none, Bool.or_self, List.append_nil,
    List.nil_append]

theorem quarReply_lt (m : State) (sl set way : Nat) : m.quarReply sl set way < 2 ^ 64 := by
  unfold State.quarReply
  split_ifs <;> decide

section
variable {m : State} (r d : BitVec 6)

/-- `pgret` by its reply; a page that would be logged waits while the log is held (R436, R443). -/
theorem opPgret_beyond (h : lpddrBytes ≤ va52 (m.rdS 1 r.toNat)) :
    opPgret r d m = { wrs := [wholeWr (m.ix.sD d.toNat) 64 2 2 .copy] } := by
  simp only [opPgret, if_pos h, OfNat.ofNat_ne_zero, false_and, if_false]
  exact reply_eq m d [] (by decide)
theorem opPgret_again (h : va52 (m.rdS 1 r.toNat) < lpddrBytes) (hr : m.retired (va52 (m.rdS 1 r.toNat)) = true) :
    opPgret r d m = { wrs := [wholeWr (m.ix.sD d.toNat) 64 1 2 .copy] } := by
  simp only [opPgret, if_neg (Nat.not_le.2 h), hr, if_true]
  exact reply_eq m d [] (by decide)
theorem opPgret_retires (h : va52 (m.rdS 1 r.toNat) < lpddrBytes) (hr : m.retired (va52 (m.rdS 1 r.toNat)) = false)
    (hl : m.logHeld (dieOf m.ik) = false) :
    opPgret r d m =
      { wrs := [wholeWr (m.ix.sD d.toNat) 64 0 2 .copy],
        acts := [.retire (va52 (m.rdS 1 r.toNat)), .wait (.quiet (va52 (m.rdS 1 r.toNat) / 65536))] } := by
  simp only [opPgret, if_neg (Nat.not_le.2 h), hr, hl, Bool.false_eq_true, if_false, and_false, if_true]
  exact reply_eq m d _ (by decide)

/-- `wayq` by its reply (R436, R443). -/
theorem opWayq_bad (h : wayOperand m (m.rdS 1 r.toNat) = none) :
    opWayq r d m = { wrs := [wholeWr (m.ix.sD d.toNat) 64 3 2 .copy] } := by
  rw [opWayq, h]; rfl
theorem opWayq_takes {sl set way : Nat} (h : wayOperand m (m.rdS 1 r.toNat) = some (sl, set, way))
    (hq : m.quarReply sl set way = 0) (hl : m.logHeld (sl / 32) = false) :
    opWayq r d m = { wrs := [wholeWr (m.ix.sD d.toNat) 64 0 2 .copy], acts := [.wayq sl set way true] } := by
  simp only [opWayq, h, hq, hl, Bool.false_eq_true, and_false, if_false, if_true]
  exact reply_eq m d _ (by decide)
theorem opWayq_refuses {sl set way : Nat} (h : wayOperand m (m.rdS 1 r.toNat) = some (sl, set, way))
    (hq : m.quarReply sl set way ≠ 0) :
    opWayq r d m = { wrs := [wholeWr (m.ix.sD d.toNat) 64 (m.quarReply sl set way) 2 .copy] } := by
  simp only [opWayq, h, hq, false_and, if_false]
  exact reply_eq m d [] (quarReply_lt m sl set way)
theorem opWayqRel_bad (h : wayOperand m (m.rdS 1 r.toNat) = none) :
    opWayqRel r d m = { wrs := [wholeWr (m.ix.sD d.toNat) 64 3 2 .copy] } := by
  rw [opWayqRel, h]; rfl
theorem opWayqRel_returns {sl set way : Nat} (h : wayOperand m (m.rdS 1 r.toNat) = some (sl, set, way))
    (hq : m.quarantined sl set way = true) :
    opWayqRel r d m = { wrs := [wholeWr (m.ix.sD d.toNat) 64 0 2 .copy], acts := [.wayq sl set way false] } := by
  simp only [opWayqRel, h, hq, if_true]
  exact reply_eq m d _ (by decide)
theorem opWayqRel_none {sl set way : Nat} (h : wayOperand m (m.rdS 1 r.toNat) = some (sl, set, way))
    (hq : m.quarantined sl set way = false) :
    opWayqRel r d m = { wrs := [wholeWr (m.ix.sD d.toNat) 64 1 2 .copy] } := by
  simp only [opWayqRel, h, hq, Bool.false_eq_true, if_false]
  exact reply_eq m d [] (by decide)

end

/-- Settles O34: each instruction decides by its lemma above. -/
theorem systemResults : Obligations.SystemResults := by
  intro s n r d f dev act reply traps op core names page none_
  refine ⟨fun h hh => slotOp_out h (opTrap_task n hh), fun h hh => slotOp_trap h (opTrap_handler n hh),
    fun h hh => slotOp_out h (noHandler_task _ hh), fun h hh => slotOp_trap h (noHandler_handler _ hh),
    fun h hh => slotOp_out h (opRfe_handler none hh), fun h hh => slotOp_out h (opRfe_handler (some r) hh),
    fun h hh => slotOp_trap h (opRfe_task (some r) hh), fun h hh => slotOp_trap h (opRfe_task none hh),
    fun h hn => slotOp_out h (withTarget_ok _ hn), fun h hn => slotOp_trap h (withTarget_bad _ hn),
    fun h hn => slotOp_out h (withTarget_ok _ hn), fun h hn => slotOp_trap h (withTarget_bad _ hn),
    fun h hn => slotOp_out h (withTarget_ok _ hn), fun h hn => slotOp_trap h (withTarget_bad _ hn),
    fun h _ => slotOp_out h rfl, fun h _ => slotOp_out h rfl, fun h _ => slotOp_out h rfl,
    ?retires, ?again, ?beyond, ?takes, ?refuses, ?returns, ?empty, ?bad, ?badRel⟩
  case retires => exact fun h ⟨hp, hr, hl⟩ => slotOp_out h (opPgret_retires r d hp hr hl)
  case again => exact fun h ⟨hp, hr⟩ => slotOp_out h (opPgret_again r d hp hr)
  case beyond => exact fun h hp => slotOp_out h (opPgret_beyond r d hp)
  case takes => exact fun sl set way h ⟨hw, hq, hl⟩ => slotOp_out h (opWayq_takes r d hw hq hl)
  case refuses =>
    rintro sl set way v hv h ⟨hw, rfl⟩
    exact slotOp_out h (opWayq_refuses r d hw hv)
  case returns => exact fun sl set way h ⟨hw, hq⟩ => slotOp_out h (opWayqRel_returns r d hw hq)
  case empty => exact fun sl set way h ⟨hw, hq⟩ => slotOp_out h (opWayqRel_none r d hw hq)
  case bad => exact fun h hw => slotOp_out h (opWayq_bad r d hw)
  case badRel => exact fun h hw => slotOp_out h (opWayqRel_bad r d hw)

end Sys2Proof.Machine

namespace Sys2Proof.Machine

/-! ### The arbiter (R96, R97) -/

theorem core_modCtx_same (s : State) (k j : Nat) (f : Ctx → Ctx) : (s.modCtx k j f).core k = (s.core k).setCtx j (f (s.ctx k j)) :=
  core_setCore_same ..

/-- How far a context stands from the rotation pointer. -/
def Core.from_ (c : Core) (j : Nat) : Nat := (j + 8 - c.rptr) % 8

/-- A context comes before another, or is the same: by priority, then in rotation (R96). -/
def Core.ranks (c : Core) (w j : Nat) : Prop :=
  (c.ctx w).ctl.prio.toNat < (c.ctx j).ctl.prio.toNat ∨ ((c.ctx w).ctl.prio = (c.ctx j).ctl.prio ∧ c.from_ w ≤ c.from_ j)

theorem Core.ranks_refl (c : Core) (j : Nat) : c.ranks j j := .inr ⟨rfl, Nat.le_refl _⟩

theorem mem_rankCtx (c : Core) (j i : Nat) (l : List Nat) : i ∈ rankCtx c j l ↔ i = j ∨ i ∈ l := by
  induction l with
  | nil => simp [rankCtx]
  | cons x r ih =>
    unfold rankCtx
    split
    · simp only [List.mem_cons, ih]
      tauto
    · simp only [List.mem_cons]

/-- A context that is later in rotation than all of a ranked list is inserted into it in rank. -/
theorem rankCtx_ranked {c : Core} {j : Nat} {l : List Nat} (h : l.Pairwise c.ranks) (hj : ∀ i ∈ l, c.from_ i < c.from_ j) :
    (rankCtx c j l).Pairwise c.ranks := by
  induction l with
  | nil => simp [rankCtx]
  | cons x r ih =>
    obtain ⟨hx, hr⟩ := List.pairwise_cons.1 h
    unfold rankCtx
    split
    · next hle =>
      refine List.pairwise_cons.2 ⟨fun i hi => ?_, ih hr fun i hi => hj i (List.mem_cons_of_mem _ hi)⟩
      rcases (mem_rankCtx c j i r).1 hi with rfl | hi
      · rcases Nat.lt_or_eq_of_le hle with hlt | heq
        · exact .inl hlt
        · exact .inr ⟨BitVec.eq_of_toNat_eq heq, (hj x List.mem_cons_self).le⟩
      · exact hx i hi
    · next hgt =>
      have hgt : (c.ctx j).ctl.prio.toNat < (c.ctx x).ctl.prio.toNat := Nat.lt_of_not_le hgt
      refine List.pairwise_cons.2 ⟨fun i hi => ?_, h⟩
      rcases List.mem_cons.1 hi with rfl | hi
      · exact .inl hgt
      · rcases hx i hi with hlt | ⟨heq, -⟩
        · exact .inl (hgt.trans hlt)
        · exact .inl (heq ▸ hgt)

/-- Contexts inserted in rotation are ranked. -/
theorem foldl_rankCtx {c : Core} (l : List Nat) : ∀ acc : List Nat, acc.Pairwise c.ranks → l.Pairwise (c.from_ · < c.from_ ·) →
    (∀ i ∈ acc, ∀ j ∈ l, c.from_ i < c.from_ j) →
      (l.foldl (fun l j => rankCtx c j l) acc).Pairwise c.ranks ∧
      ∀ i, i ∈ l.foldl (fun l j => rankCtx c j l) acc ↔ i ∈ acc ∨ i ∈ l := by
  induction l with
  | nil => exact fun acc h _ _ => ⟨h, fun i => by simp⟩
  | cons j r ih =>
    intro acc h hl ha
    obtain ⟨hj, hr⟩ := List.pairwise_cons.1 hl
    obtain ⟨h1, h2⟩ := ih (rankCtx c j acc) (rankCtx_ranked h fun i hi => ha i hi j List.mem_cons_self) hr fun i hi n hn => by
      rcases (mem_rankCtx c j i acc).1 hi with rfl | hi
      · exact hj n hn
      · exact ha i hi n (List.mem_cons_of_mem _ hn)
    refine ⟨h1, fun i => ?_⟩
    rw [List.foldl_cons, h2, mem_rankCtx, List.mem_cons]
    tauto

/-- The arbiter's order holds every context, ranked (R96). -/
theorem order_ranked {c : Core} (h : c.rptr < 8) : c.order.Pairwise c.ranks ∧ ∀ i, i ∈ c.order ↔ i < 8 := by
  have hf (i : Nat) (hi : i < 8) : c.from_ ((c.rptr + i) % 8) = i := by
    unfold Core.from_
    omega
  have hr : ((List.range 8).map fun i => (c.rptr + i) % 8).Pairwise (c.from_ · < c.from_ ·) := by
    rw [List.pairwise_map]
    refine List.pairwise_lt_range.imp_of_mem fun {a b} ha hb hab => ?_
    rw [hf a (List.mem_range.1 ha), hf b (List.mem_range.1 hb)]
    exact hab
  obtain ⟨h1, h2⟩ := foldl_rankCtx _ [] .nil hr nofun
  refine ⟨h1, fun i => (h2 i).trans ?_⟩
  simp only [List.not_mem_nil, false_or, List.mem_map, List.mem_range]
  constructor
  · rintro ⟨n, -, rfl⟩
    exact Nat.mod_lt _ (by decide)
  · exact fun hi => ⟨(i + 8 - c.rptr) % 8, Nat.mod_lt _ (by decide), by omega⟩

/-- The ready contexts in the arbiter's order. -/
def readyOrder (s : State) (k : Nat) : List Nat := (s.core k).order.filter fun j => isReady s k j
/-- The stated run of a context fits what is left of the slice (R97). -/
def Core.runFits (c : Core) (j : Nat) : Bool := (c.ctx j).ctl.run.toNat != 0 && decide ((c.ctx j).ctl.run.toNat ≤ c.slice)

theorem readyOrder_ranked {s : State} {k : Nat} (h : (s.core k).rptr < 8) :
    (readyOrder s k).Pairwise (s.core k).ranks ∧ ∀ i, i ∈ readyOrder s k ↔ i < 8 ∧ isReady s k i = true := by
  obtain ⟨h1, h2⟩ := order_ranked h
  exact ⟨h1.filter _, fun i => by rw [readyOrder, List.mem_filter, h2]⟩

theorem arbSelect_idle {s : State} {k : Nat} (h : readyOrder s k = []) : ((arbSelect s k).core k).prim = none := by
  rw [readyOrder] at h
  rw [arbSelect]
  dsimp only
  rw [h]
  exact congrArg Core.prim (core_setCore_same ..)

/-- What the arbiter does with a context that is ready: the first that fits goes on in the slice, else the first in a new one. -/
theorem arbSelect_picks {s : State} {k first : Nat} {r : List Nat} (h : readyOrder s k = first :: r) :
    let fit := (first :: r).find? (s.core k).runFits
    let d := (arbSelect s k).core k
    d.prim = some (fit.getD first) ∧ d.rptr = (fit.getD first + 1) % 8 ∧
      d.slice = if fit.isNone then s.reg (rSlice k) % 2 ^ 21 else (s.core k).slice := by
  intro fit d
  have hd : d = (arbSelect s k).core k := rfl
  rw [readyOrder] at h
  rw [arbSelect] at hd
  dsimp only at hd
  rw [h] at hd
  dsimp only at hd
  rw [core_modCtx_same, core_setCore_same] at hd
  rw [hd]
  exact ⟨rfl, rfl, rfl⟩

/-- The first entry of a ranked list at which a test holds ranks before every entry at which it holds. -/
theorem find_ranks {c : Core} {l : List Nat} {p : Nat → Bool} {w : Nat} (hl : l.Pairwise c.ranks) (hw : l.find? p = some w) :
    w ∈ l ∧ p w = true ∧ ∀ i ∈ l, p i = true → c.ranks w i := by
  obtain ⟨hp, as, bs, rfl, ha⟩ := List.find?_eq_some_iff_append.1 hw
  refine ⟨by simp, hp, fun i hi hpi => ?_⟩
  rcases List.mem_append.1 hi with hi | hi
  · exact absurd hpi (by simpa using ha i hi)
  · rcases List.mem_cons.1 hi with rfl | hi
    · exact c.ranks_refl _
    · exact (List.pairwise_cons.1 (List.pairwise_append.1 hl).2.1).1 i hi

/-- With some context ready the arbiter selects one, and moves its pointer past it (R96, R97). -/
theorem arbSelect_ready {s : State} {k j : Nat} (h : (s.core k).rptr < 8) (hj : j < 8) (hr : isReady s k j = true) :
    let c := s.core k
    let d := (arbSelect s k).core k
    ∃ w, w < 8 ∧ isReady s k w = true ∧ d.prim = some w ∧ d.rptr = (w + 1) % 8 ∧
      ((∃ i, i < 8 ∧ isReady s k i = true ∧ c.runFits i = true) →
        d.slice = c.slice ∧ c.runFits w = true ∧ ∀ i, i < 8 → isReady s k i = true → c.runFits i = true → c.ranks w i) ∧
      ((∀ i, i < 8 → isReady s k i = true → c.runFits i = false) →
        d.slice = s.reg (rSlice k) % 2 ^ 21 ∧ ∀ i, i < 8 → isReady s k i = true → c.ranks w i) := by
  intro c d
  obtain ⟨hp, hm⟩ := readyOrder_ranked h
  obtain ⟨first, r, hl⟩ : ∃ first r, readyOrder s k = first :: r :=
    List.exists_cons_of_ne_nil (List.ne_nil_of_mem ((hm j).2 ⟨hj, hr⟩))
  obtain ⟨h1, h2, h3⟩ := arbSelect_picks hl
  rw [hl] at hp hm
  rcases hf : (first :: r).find? (s.core k).runFits with _ | w
  · rw [hf] at h1 h2 h3
    have hn := List.find?_eq_none.1 hf
    obtain ⟨hw, hwr⟩ := (hm first).1 List.mem_cons_self
    refine ⟨first, hw, hwr, h1, h2, fun ⟨i, hi, hir, hif⟩ => absurd hif (hn i ((hm i).2 ⟨hi, hir⟩)), fun _ => ⟨h3, fun i hi hir => ?_⟩⟩
    rcases List.mem_cons.1 ((hm i).2 ⟨hi, hir⟩) with rfl | hi
    · exact Core.ranks_refl ..
    · exact (List.pairwise_cons.1 hp).1 i hi
  · rw [hf] at h1 h2 h3
    obtain ⟨hw, hwf, hwr⟩ := find_ranks hp hf
    obtain ⟨hw8, hwready⟩ := (hm w).1 hw
    refine ⟨w, hw8, hwready, h1, h2, fun _ => ⟨h3, hwf, fun i hi hir => hwr i ((hm i).2 ⟨hi, hir⟩)⟩, fun hn => ?_⟩
    exact absurd hwf (by simp [c, hn w hw8 hwready])

theorem runFits_iff (c : Core) (j : Nat) : c.runFits j = true ↔ (c.ctx j).ctl.run.toNat ≠ 0 ∧ (c.ctx j).ctl.run.toNat ≤ c.slice := by
  simp [Core.runFits]

/-- Settles O52: the order of the arbiter is ranked, and it takes the first that fits, or else the first. -/
theorem arbiterSelects : Obligations.ArbiterSelects := by
  intro s k c d from_ ranks fits hc
  have hfit (i : Nat) : fits i ↔ c.runFits i = true := (runFits_iff c i).symm
  refine ⟨fun hn => ?_, fun j hj hr => ?_⟩
  · refine arbSelect_idle (List.eq_nil_iff_forall_not_mem.2 fun i hi => ?_)
    obtain ⟨h8, hi⟩ := ((readyOrder_ranked hc).2 i).1 hi
    exact absurd hi (by simp [hn i h8])
  · obtain ⟨w, hw, hwr, hp, ho, h1, h2⟩ := arbSelect_ready hc hj hr
    refine ⟨w, hw, hwr, hp, ho, fun ⟨i, hi, hir, hif⟩ => ?_, fun hn => h2 fun i hi hir => ?_⟩
    · obtain ⟨g1, g2, g3⟩ := h1 ⟨i, hi, hir, (hfit i).1 hif⟩
      exact ⟨g1, (hfit w).2 g2, fun i hi hir hif => g3 i hi hir ((hfit i).1 hif)⟩
    · exact Bool.eq_false_iff.2 fun h => hn i hi hir ((hfit i).2 h)

end Sys2Proof.Machine

namespace Sys2Proof.Machine

/-! ### Where a result meets work of the engines (R278, R340) -/

theorem updBusy_eq (c : Core) (w : Nat) :
    c.updBusy w = (c.mq.any (fun e => e.op == .upd && e.reads.contains w) || c.ctxs.any fun e => e.2.updMark w) := rfl

theorem tget_default_or_mem {α : Type} (d : α) (t : Tab α) (k : Nat) : tget d t k = d ∨ (k, tget d t k) ∈ t := by
  induction t with
  | nil => exact .inl rfl
  | cons e r ih =>
    unfold tget
    split
    · next h => exact .inr (by rw [← h]; exact List.mem_cons_self)
    · exact ih.imp_right (List.mem_cons_of_mem _)

theorem updMark_default (w : Nat) : (({} : Ctx).updMark w) = false := rfl

/-- No context of a core that is free of `cupd` on a row marks it. -/
theorem updMark_of_updBusy {c : Core} {w : Nat} (h : c.updBusy w = false) (j : Nat) : (c.ctx j).updMark w = false := by
  rw [updBusy_eq, Bool.or_eq_false_iff] at h
  rcases tget_default_or_mem ({} : Ctx) c.ctxs j with hj | hj
  · rw [Core.ctx, hj, updMark_default]
  · exact Bool.eq_false_iff.2 fun hm => List.any_eq_false.1 h.2 _ hj hm

/-- A context that marks no row more than before brings no `cupd` on a row. -/
theorem updBusy_setCtx {c : Core} {j w : Nat} {x : Ctx} (hx : (c.ctx j).updMark w = false → x.updMark w = false)
    (h : c.updBusy w = false) : (c.setCtx j x).updBusy w = false := by
  have hj := updMark_of_updBusy h j
  rw [updBusy_eq, Bool.or_eq_false_iff] at h ⊢
  refine ⟨h.1, List.any_eq_false.2 fun e he => ?_⟩
  rcases mem_tput he with rfl | he
  · simpa using hx hj
  · exact List.any_eq_false.1 h.2 e he

theorem coloPend_congr {s t : State} (h : ∀ q, (t.core q).copies = (s.core q).copies ∧ ∀ j, (t.ctx q j).tls = (s.ctx q j).tls)
    (k w key : Nat) : t.coloPend k w key = s.coloPend k w key := by
  have hx (q j : Nat) : ((t.core q).ctx j).tl 0 = ((s.core q).ctx j).tl 0 := congrArg (tget ({} : Timeline) · 0) ((h q).2 j)
  simp only [State.coloPend, (h _).1, hx]

/-- A core that changes neither its copies nor its timelines, and brings no `cupd` on a row, keeps a register as clear of the
engines' work as it was. -/
theorem landMeets_setCore {s : State} {k : Nat} {c : Core} {d : Dest} (hc : c.copies = (s.core k).copies)
    (ht : ∀ j, (c.ctx j).tls = ((s.core k).ctx j).tls) (hu : ∀ w, (s.core k).updBusy w = false → c.updBusy w = false)
    (h : s.landMeets k d = false) : (s.setCore k c).landMeets k d = false := by
  have hp (w key : Nat) : (s.setCore k c).coloPend k w key = s.coloPend k w key := by
    refine coloPend_congr (fun q => ?_) k w key
    by_cases hq : q = k
    · subst hq
      simp only [State.ctx, core_setCore_same]
      exact ⟨hc, ht⟩
    · simp only [State.ctx, core_setCore_other _ _ hq]
      exact ⟨trivial, fun _ => trivial⟩
  cases d with
  | pad r =>
    simp only [State.landMeets, Bool.or_eq_false_iff, hp, core_setCore_same] at h ⊢
    exact ⟨h.1, hu r h.2⟩
  | _ => rfl

theorem tls_setCtx {c : Core} {j : Nat} {x : Ctx} (h : x.tls = (c.ctx j).tls) (i : Nat) : ((c.setCtx j x).ctx i).tls = (c.ctx i).tls := by
  by_cases hi : i = j
  · rw [hi, ctx_setCtx_same, h]
  · rw [ctx_setCtx_other _ _ hi]

theorem landMeets_modCtx {s : State} {k j : Nat} {f : Ctx → Ctx} {d : Dest} (ht : (f (s.ctx k j)).tls = (s.ctx k j).tls)
    (hu : ∀ w, (s.ctx k j).updMark w = false → (f (s.ctx k j)).updMark w = false) (h : s.landMeets k d = false) :
    (s.modCtx k j f).landMeets k d = false :=
  landMeets_setCore rfl (tls_setCtx ht) (fun w => updBusy_setCtx (hu w)) h

/-- Storing changes a context or a register of the core, and nothing that engines work on. -/
theorem putD_form (s : State) (k j : Nat) (e : Dest) (v : Nat) :
    putD s k j e v = s ∨
    (∃ c : Core, putD s k j e v = s.setCore k c ∧ c.copies = (s.core k).copies ∧ c.mq = (s.core k).mq ∧ c.ctxs = (s.core k).ctxs) ∨
    ∃ x : Ctx, putD s k j e v = s.setCtx k j x ∧ x.tls = (s.ctx k j).tls ∧ x.pend = (s.ctx k j).pend ∧ x.hand = (s.ctx k j).hand ∧
      x.bcount = (s.ctx k j).bcount := by
  rcases e with n | ⟨⟨⟩, n⟩ | ⟨⟨⟩, n⟩ | n | n | n | n | _ | _ | n | n | n | n | n | n | n | n | _ | _ | _ | _ | _ | _ | _ | _ | n <;>
    simp only [putD] <;> (try split)
  all_goals first
    | exact .inl rfl
    | exact .inr (.inl ⟨_, rfl, rfl, rfl, rfl⟩)
    | exact .inr (.inr ⟨_, rfl, rfl, rfl, rfl, rfl⟩)

theorem landMeets_putD {s : State} {k : Nat} {d : Dest} (j : Nat) (e : Dest) (v : Nat) (h : s.landMeets k d = false) :
    (putD s k j e v).landMeets k d = false := by
  rcases putD_form s k j e v with hs | ⟨c, hs, hc, hm, hx⟩ | ⟨x, hs, ht, hp, hh, hb⟩
  · rwa [hs]
  · rw [hs]
    refine landMeets_setCore hc (fun i => ?_) (fun w hw => ?_) h
    · simp only [Core.ctx, hx]
    · rwa [updBusy_eq, hm, hx, ← updBusy_eq]
  · rw [hs]
    refine landMeets_setCore rfl (tls_setCtx ht) (fun w => updBusy_setCtx fun hw => ?_) h
    rw [Ctx.updMark, hp, hh, hb]
    exact hw

theorem landMeets_notePad {s : State} {k : Nat} {d : Dest} (w : Nat) (m : Row) (h : s.landMeets k d = false) :
    (s.notePad k w m).landMeets k d = false := by
  unfold State.notePad
  split <;> exact h

theorem landMeets_land {s : State} {k : Nat} {d : Dest} (j : Nat) (p : Pend) (h : s.landMeets k d = false) :
    (land s k j p).landMeets k d = false := by
  unfold land
  split
  · exact h
  · dsimp only
    generalize hu : (if p.mask = 0 then s else _) = u
    have h1 : u.landMeets k d = false := by
      rw [← hu]
      split
      · exact h
      · split <;> exact landMeets_putD j _ _ h
    have hnote (e : Dest) : State.landMeets (match e with
        | .pad r => u.notePad k r p.mask
        | _ => u) k d = false := by
      cases e with
      | pad r => exact landMeets_notePad _ _ h1
      | _ => exact h1
    cases p.tile with
    | none => exact hnote p.dest
    | some t => exact landMeets_modCtx rfl (fun _ hw => hw) (hnote p.dest)

/-- A result that lands clear of the engines' work is in its register. -/
theorem rawD_land_clear (s : State) (k j : Nat) (p : Pend) (hd : p.dest.plain = true) (hl : p.landed = false)
    (hm : s.landMeets k p.dest = false) :
    rawD (land s k j p) k j p.dest = (blend p.mask (p.value s) (row (rawD s k j p.dest))).toNat % 2 ^ p.dest.bits := by
  by_cases hr : ∀ r, p.dest ≠ .pad r
  · exact rawD_land_same s k j p hd hl hr
  · obtain ⟨r, hr⟩ := Classical.not_forall_not.1 hr
    have hs : p.dest.sums = false := by rw [hr]; rfl
    unfold land
    rw [if_neg (by simp [hl])]
    dsimp only
    generalize hu : (if p.mask = 0 then s else _) = u
    have h1 : rawD u k j p.dest = (blend p.mask (p.value s) (row (rawD s k j p.dest))).toNat % 2 ^ p.dest.bits := by
      rw [← hu]
      split
      · next h0 =>
        have h := rawD_lt s k j hd
        rw [hr] at h ⊢
        rw [h0, blend_zero, row, BitVec.toNat_ofNat, Dest.bits, Nat.mod_mod]
        exact (Nat.mod_eq_of_lt h).symm
      · rw [if_neg (by simp [hm]), if_neg (by simp [hs])]
        exact rawD_putD_same s k j _ hd
    split <;> split <;> simp only [rawD_tile, rawD_notePad, h1]

/-- The one result of a list for a register that is clear of the engines' work is in it after all have landed. -/
theorem rawD_lands_clear (k j : Nat) (p : Pend) (hd : p.dest.plain = true) (hl : p.landed = false) (l : List Pend) (s : State)
    (hm : s.landMeets k p.dest = false) (h : l.filter (fun q => q.dest == p.dest) = [p]) :
    rawD (l.foldl (fun s p => land s k j p) s) k j p.dest =
      (blend p.mask (p.value s) (row (rawD s k j p.dest))).toNat % 2 ^ p.dest.bits := by
  induction l generalizing s with
  | nil => simp at h
  | cons q r ih =>
    rw [List.foldl_cons]
    by_cases hq : q.dest = p.dest
    · rw [List.filter_cons_of_pos (by simp [hq])] at h
      obtain ⟨rfl, h⟩ := List.cons.inj h
      rw [rawD_lands_other k j hd r _ fun e he => ?_, rawD_land_clear s k j q hd hl hm]
      intro hh
      exact List.filter_eq_nil_iff.1 h e he (by simp [hh])
    · rw [List.filter_cons_of_neg (by simp [hq])] at h
      rw [ih _ (landMeets_land j q hm) h, rawD_land_other _ _ _ _ hd fun hh => hq hh.symm]
      have : p.value (land s k j q) = p.value s := by simp only [Pend.value, State.free, freeCtr_land]
      rw [this]

/-! ### Results at their positions (R89) -/

theorem rawD_modCtx_pend (s : State) (k j : Nat) (f : Ctx → List Pend) (d : Dest) :
    rawD (s.modCtx k j fun x => { x with pend := f x }) k j d = rawD s k j d := by
  simp only [rawD, State.modCtx, State.setCtx, core_setCore_same]
  cases d <;> simp only [ctx_setCtx_same] <;> rfl

theorem updMark_filter (x : Ctx) (f : Pend → Bool) {w : Nat} (h : x.updMark w = false) :
    Ctx.updMark { x with pend := x.pend.filter f } w = false := by
  rw [Ctx.updMark, Bool.or_eq_false_iff] at h ⊢
  refine ⟨List.any_eq_false.2 fun p hp => List.any_eq_false.1 h.1 p (List.mem_of_mem_filter hp), h.2⟩

/-- No increment stands for a register that holds a value of its own (R138). -/
theorem dropIncr_filter (l : List Pend) {d : Dest} (hd : d.plain = true) :
    (dropIncr l).filter (fun q => q.dest == d) = l.filter fun q => q.dest == d := by
  rw [dropIncr, List.filter_filter]
  refine List.filter_congr fun q _ => ?_
  by_cases hq : q.dest = d
  · subst hq
    cases h : q.dest <;> simp_all [Dest.plain]
  · simp [hq]

section
variable {s : State} {k j n : Nat} {p : Pend} (hd : p.dest.plain = true)
  (hp : (s.ctx k j).pend.filter (fun q => q.dest == p.dest) = [p])
include hd hp

/-- The one result awaited for a register is in it from its position on. -/
theorem rawD_landDue_due (hm : s.landMeets k p.dest = false) (hl : p.landed = false) (hn : p.due ≤ n) :
    rawD (landDue s k j n) k j p.dest = (blend p.mask (p.value s) (row (rawD s k j p.dest))).toNat % 2 ^ p.dest.bits := by
  have hf : (dropIncr ((s.ctx k j).pend.filter fun p => decide (p.due ≤ n))).filter (fun q => q.dest == p.dest) = [p] := by
    rw [dropIncr_filter _ hd, List.filter_comm, hp]
    simp [hn]
  rw [landDue, rawD_lands_clear k j p hd hl _ _ ?_ hf, rawD_modCtx_pend]
  · rfl
  · exact landMeets_modCtx rfl (fun w hw => updMark_filter _ _ hw) hm

/-- And not before. -/
theorem rawD_landDue_early (hn : n < p.due) : rawD (landDue s k j n) k j p.dest = rawD s k j p.dest := by
  rw [landDue, rawD_lands_other k j hd, rawD_modCtx_pend]
  intro q hq he
  rw [dropIncr] at hq
  obtain ⟨hq, hqn⟩ := List.mem_filter.1 (List.mem_of_mem_filter hq)
  have hqp : q ∈ (s.ctx k j).pend.filter fun q => q.dest == p.dest := List.mem_filter.2 ⟨hq, by simp [he]⟩
  rw [hp, List.mem_singleton] at hqp
  rw [hqp, decide_eq_true_eq] at hqn
  omega

end

/-! ### Reading while a result is awaited (R89) -/

theorem readD_settled {s : State} {k j : Nat} (slot : Nat) {d : Dest} (h : taint (s.ctx k j) d = 0) : readD s k j slot d = rawD s k j d :=
  if_pos h

theorem testBit_readD {s : State} {k j : Nat} (slot : Nat) {d : Dest} (hd : d ≠ .cst) {i : Nat} (hi : i < 1024)
    (h : (taint (s.ctx k j) d).getLsbD i = false) : (readD s k j slot d).testBit i = (rawD s k j d).testBit i := by
  rw [readD]
  dsimp only
  rw [if_neg hd]
  split
  · rfl
  · have hb : (taint (s.ctx k j) d).toNat.testBit i = false := h
    rw [Nat.testBit_or, Nat.testBit_and, Nat.testBit_and, hb, Bool.and_false, Bool.false_or, Nat.sub_sub, Nat.add_comm 1,
      Nat.testBit_two_pow_sub_succ (BitVec.isLt _), hb, decide_eq_true hi, Bool.not_false, Bool.and_true, Bool.and_true]

theorem taint_due {x : Ctx} (d : Dest) (h : ∀ p ∈ x.pend, p.due ≤ x.bcount) : taint x d = 0 := by
  unfold taint
  split
  · rfl
  · suffices ∀ l : List Pend, (∀ p ∈ l, p.due ≤ x.bcount) → ∀ m : Row, l.foldl
        (fun m e => if e.dest.hits d && x.bcount < e.due then
          m ||| (if e.dest = .satcAdd ∨ e.dest = .rsvcAdd then row (2 ^ 32 - 1) else e.mask) else m) m = m from this _ h 0
    intro l
    induction l with
    | nil => exact fun _ _ => rfl
    | cons p r ih =>
      intro hl m
      obtain ⟨hp, hr⟩ := List.forall_mem_cons.1 hl
      rw [List.foldl_cons, if_neg (by simp; omega)]
      exact ih hr m

theorem sD_zero (x : Ctx) : x.sD 0 = .s 0 := if_neg (by simp)

theorem kept_dest {w : Wr} (h : w.kept = true) : w.dest ≠ .s 0 ∧ w.dest ≠ .p 0 := by
  simp only [Wr.kept, Bool.and_eq_true, bne_iff_ne] at h
  exact ⟨h.1.2, h.2⟩

/-- Settles O8: landing by position, reading by what is awaited, and the registers that read as constants. -/
theorem registerReads : Obligations.RegisterReads := by
  refine ⟨fun s k j n d p hd hm hp hl => ?_, fun s k j slot d hd => ?_, fun s k j => ⟨rfl, rfl⟩, fun m slot h => ?_, fun m slot h => ?_,
    fun w hw => kept_dest hw⟩
  · obtain rfl : p.dest = d := by
      have : p ∈ (s.ctx k j).pend.filter fun q => q.dest == d := by rw [hp]; exact List.mem_cons_self
      simpa using (List.mem_filter.1 this).2
    exact ⟨rawD_landDue_due hd hp hm hl, rawD_landDue_early hd hp⟩
  · exact ⟨readD_settled slot, fun i hi h => testBit_readD slot hd hi h, taint_due d⟩
  · rw [State.rdS, sD_zero]
    exact readD_settled slot h
  · rw [State.rdP, State.rd, readD_settled slot h]
    rfl

end Sys2Proof.Machine

namespace Sys2Proof.Machine

/-! ### What reset leaves (R454 to R459) -/

theorem reset_core (k : Nat) : State.reset.core k = {} := rfl
theorem reset_ctx (k j : Nat) : State.reset.ctx k j = {} := rfl

/-- A register at reset holds its value of the tables. -/
theorem reset_reg {n v : Nat} (h : regReset n = v) (hv : v < 2 ^ 64) : State.reset.reg n = v := by
  rw [← h] at hv
  exact (BitVec.toNat_ofNat ..).trans ((Nat.mod_eq_of_lt hv).trans h)

/-- Between the launch queues and the core control blocks no register has a reset value other than 0 (Table 19-7). -/
theorem regReset_install {n : Nat} (h1 : 0x10400 ≤ n) (h2 : n < 0x100000) : regReset n = 0 := by
  unfold regReset rSlcfg rSlm rSlmap rDnTmo rSlcfg
  rw [if_neg (by omega), if_neg (by omega), if_neg (by omega), if_neg (by omega), if_neg (by omega), if_neg (by omega)]

/-- A core control block at reset (Tables 14-6, 18-4). -/
theorem regReset_ccb {k o : Nat} (hk : k < 128) (ho : o < 0x10000) :
    regReset (rCcb k + o) = if o = 0 then 65536 else if o = 8 then 10000 else 0 := by
  have hm : (rCcb k + o) % 0x10000 = o := by
    unfold rCcb
    omega
  have hl : 0x100000 ≤ rCcb k + o ∧ rCcb k + o < 0x900000 := by
    unfold rCcb
    omega
  unfold regReset
  rw [if_neg (by omega), if_pos hl, hm]

/-- Settles O46: every table is empty at reset, and a register that no table lists holds its reset value. -/
theorem resetState : Obligations.ResetState := by
  refine ⟨fun k => ⟨rfl, rfl, rfl, fun _ => rfl⟩, fun _ _ => rfl, fun _ _ => ⟨rfl, fun _ => ⟨rfl, rfl, rfl, rfl⟩⟩, by decide, by decide,
    by decide, by decide, by decide, by decide, by decide, by decide, ?measured, ?keys, by decide, ?ccb, ?circuits, fun _ => ⟨rfl, rfl⟩⟩
  case measured =>
    intro i hi
    exact reset_reg (regReset_install (by unfold rMr; omega) (by unfold rMr; omega)) (by decide)
  case keys =>
    intro k i hk hi
    exact reset_reg (regReset_install (by unfold rKey; omega) (by unfold rKey; omega)) (by decide)
  case ccb =>
    exact fun k hk => ⟨reset_reg (regReset_ccb (o := 0) hk (by decide)) (by decide),
      reset_reg (regReset_ccb (o := 8) hk (by decide)) (by decide)⟩
  case circuits =>
    intro k c hk hc
    have h : regReset (rCirc k c) = 0 := by
      rw [rCirc, Nat.add_assoc, regReset_ccb hk (by omega), if_neg (by omega), if_neg (by omega)]
    exact reset_reg h (by decide)

end Sys2Proof.Machine

namespace Sys2Proof.Machine

/-! ### A write of the pending `kp` in flight (R89, R115) -/

/-- The result that is awaited for the lowest bit of the pending `kp`, four bundles away. -/
def kpAwaited : Pend := { dest := .kpP, mask := 1, val := 0, due := 5 }
/-- A machine whose one task has `kp` = 2 and no pending `kp`, while a write of its lowest bit is on its way. -/
def kpInFlight : State :=
  { State.reset with cores := [(0, { prim := some 0, ctxs := [(0, { life := .live, ctl := { kp := 2 }, pend := [kpAwaited] })] })] }

/-- `kp.set` of the pending `kp` with no bit to set. -/
def kpSetPending : Instr := .kpSet 0 true

theorem kpInFlight_mayIssue : kpInFlight.mayIssue .ct kpSetPending = true := by decide

theorem kpInFlight_pend : (kpInFlight.meets .ct kpSetPending).ix.pend = [kpAwaited] := by decide +kernel
theorem kpInFlight_bcount : (kpInFlight.meets .ct kpSetPending).ix.bcount = 0 := by decide +kernel
theorem kpInFlight_taint : taint (kpInFlight.meets .ct kpSetPending).ix .kpP = 1 := by decide +kernel
theorem kpInFlight_kpP : rawD (kpInFlight.meets .ct kpSetPending) 0 0 .kpP = 0 := by decide +kernel
theorem kpInFlight_kp : (kpInFlight.meets .ct kpSetPending).rd 1 .kp = 2 :=
  (readD_settled 1 (by decide +kernel)).trans (by decide +kernel)
theorem row_one : (1 : Row).toNat = 1 := by decide +kernel
theorem row_one_ne : (1 : Row) ≠ 0 := by decide +kernel

/-- A register whose content is 0 reads as free bits where a result for its lowest bit alone is awaited. -/
theorem readD_low {s : State} {k j n : Nat} {d : Dest} (hd : d ≠ .cst) (ht : taint (s.ctx k j) d = 1) (hr : rawD s k j d = 0) :
    readD s k j n d < 2 := by
  simp only [readD, ht, hr, row_one, if_neg row_one_ne, if_neg hd, Nat.zero_and, Nat.or_zero, Nat.and_one_is_mod]
  exact Nat.mod_lt _ (by decide)

/-- What `kp.set` starts from there is a read of the pending `kp`, whose lowest bit alone is free: never 2. -/
theorem kpInFlight_base : kpBase (kpInFlight.meets .ct kpSetPending) true < 2 := by
  rw [kpBase, if_pos ⟨rfl, .inr (kpInFlight_taint.symm ▸ row_one_ne)⟩]
  exact readD_low nofun kpInFlight_taint kpInFlight_kpP

/-- A result for the whole of the pending `kp`, among those awaited there: its value waits at two positions (R90). -/
theorem kpAwaited_joined : ∀ v < 3,
    ((([wholeWr .kpP 16 v 1].filter Wr.kept).map fun w => w.pend 0).foldl addPend [kpAwaited]).map (·.val) = [row v, row v] := by
  decide +kernel

theorem row_inj_lt_three : ∀ a < 3, ∀ b < 3, row a = row b → a = b := by decide +kernel

/-- The values awaited after a bundle there that writes the pending `kp`. -/
theorem kpInFlight_after {v : Nat} (hv : v < 3) :
    ((kpInFlight.after .ct kpSetPending [wholeWr .kpP 16 v 1] []).ctx kpInFlight.ik kpInFlight.ij).pend.map (·.val) =
      [row v, row v] := by
  have ha : apartDests [wholeWr .kpP 16 v 1] := List.Pairwise.filter _ (List.pairwise_singleton ..)
  have h := (bundleResults.1 kpInFlight .ct kpSetPending _ ha).2
  rw [h, ← kpAwaited_joined v hv, ← kpInFlight_pend, ← kpInFlight_bcount]

/-- Refutes O32: the statement has `kp.set` and `kp.clr` of the pending `kp` start from `kp` while no pending `kp` is valid; while a
write of it is in flight the model reads the pending `kp` all the same (R89, R115).  In `kpInFlight`, where `kp` is 2, `kp.set`
with no bit to set would write 2, and writes 0 or 1. -/
theorem not_controlStateResults : ¬Obligations.ControlStateResults := by
  intro h
  obtain ⟨-, -, -, hset, -⟩ := h.1 kpInFlight 0 0 0 0 0 true false false 0 0 0 0
  have hb := kpInFlight_base
  have hstated : Completes kpInFlight .ct kpSetPending [wholeWr .kpP 16 2 1] [] := by
    have hk : (if true = true ∧ (kpInFlight.meets .ct kpSetPending).ix.ctl.kpP.isSome = true then
        (kpInFlight.meets .ct kpSetPending).rd 1 .kpP else (kpInFlight.meets .ct kpSetPending).rd 1 .kp) = 2 :=
      (if_neg (by decide +kernel)).trans kpInFlight_kp
    have hw := hset kpInFlight_mayIssue
    dsimp only at hw
    rw [show Instr.kpSet 0 true = kpSetPending from rfl, hk] at hw
    exact hw
  have hmodel : Completes kpInFlight .ct kpSetPending [wholeWr .kpP 16 (kpBase (kpInFlight.meets .ct kpSetPending) true) 1] [] := by
    refine slotOp_out (f := opKpSet 0 true) kpInFlight_mayIssue ?_
    change opKpSet 0 true (kpInFlight.meets .ct kpSetPending) = _
    rw [opKpSet, ctWr, show (0 : BitVec 16).toNat = 0 from rfl, Nat.or_zero, Nat.mod_eq_of_lt (by omega)]
    rfl
  have hv := congrArg (fun t : State => (t.ctx kpInFlight.ik kpInFlight.ij).pend.map (·.val))
    (Host.Outcome.next.inj (hstated.symm.trans hmodel))
  rw [kpInFlight_after (by decide), kpInFlight_after (by omega)] at hv
  have := row_inj_lt_three _ (by decide) _ (by omega) (List.head_eq_of_cons_eq hv)
  omega

end Sys2Proof.Machine

namespace Sys2Proof.Machine

/-! ### A row store into a state bank as LPDDR 6 sees it (R89, R365, R371) -/

/-- What a read of LPDDR 6 depends on (R180). -/
def State.lp (s : State) : Tab Word × Tab StackLine × Memory := (s.regs, s.stack, s.dram)

theorem lpRead_of_lp {s t : State} (h : t.lp = s.lp) (p a n : Nat) : t.lpRead p a n = s.lpRead p a n := by
  obtain ⟨hr, hs, hd⟩ : t.regs = s.regs ∧ t.stack = s.stack ∧ t.dram = s.dram := by
    simpa only [State.lp, Prod.mk.injEq] using h
  exact lpReadF_congr hr hs hd p _ a n
theorem lp_modCtx (s : State) (k j : Nat) (f : Ctx → Ctx) : (s.modCtx k j f).lp = s.lp := rfl
theorem lp_modCore (s : State) (k : Nat) (f : Core → Core) : (s.modCore k f).lp = s.lp := rfl
theorem lp_foldl {α : Type} (f : State → α → State) (h : ∀ s a, (f s a).lp = s.lp) (l : List α) (s : State) :
    (l.foldl f s).lp = s.lp := by
  induction l generalizing s with
  | nil => rfl
  | cons a r ih => rw [List.foldl_cons, ih, h]

/-- The lowest byte of a read within one line. -/
theorem lpByte_of_lpRead (s : State) (p a n : Nat) (h : a % 256 + (n + 1) ≤ 256) :
    (s.lpByte p a).toNat = s.lpRead p a (n + 1) % 256 := by
  rw [lpRead_line _ _ _ _ h, lineRead, Nat.add_mul_mod_self_left, Nat.mod_eq_of_lt (BitVec.isLt _)]
  rfl

theorem applyActs_sb (s : State) (k j bc base w : Nat) (v : Row) :
    applyActs s k j bc base [.sb w v] = storeBank { s with nextKey := base } k j w v := rfl
theorem afterAct_sb (s : State) (k j w : Nat) (pc : Addr) (i : Issue) (v : Row) : afterAct s k j pc i (.sb w v) = s := rfl

/-- The state in which the effects of a bundle are performed. -/
def actsFrom (m : State) (i : Issue) : State :=
  { m.modCtx i.core i.ctx fun x => (x.spoilBy i.core i.acts).promise (bitAt (m.free 863000) 0)
    (i.promises m.nextKey ++ loopStarts i.acts) (m.ctx i.core i.ctx).bcount with nextKey := m.nextKey }

/-- A bundle that stores a bank row and nothing else: LPDDR 6 is left as the store leaves it. -/
theorem commit_sb_lp (m : State) {i : Issue} {w : Nat} {v : Row} (h : i.acts = [.sb w v]) (hs : i.skipped = false) :
    (commit m i).lp = (storeBank (actsFrom m i) i.core i.ctx w v).lp := by
  have hc : ∃ n f g e, commit m i =
      ((({ storeBank (actsFrom m i) i.core i.ctx w v with nextKey := n } : State).modCtx i.core i.ctx f).modCore i.core g).modCtx
        i.core i.ctx e := by
    simp -zeta only [commit, actsFrom, h, show spillClash [.sb w v] = false from rfl, applyActs_sb, afterAct_sb, List.foldl, hs,
      Bool.false_eq_true, if_false]
    exact ⟨_, _, _, _, rfl⟩
  obtain ⟨n, f, g, e, hc⟩ := hc
  rw [hc, lp_modCtx, lp_modCore, lp_modCtx, State.lp, State.lp]

/-- The write-outs of the context that still name a row of its active bank (R371). -/
def outsOf (s : State) (k j w : Nat) : List BankCmd :=
  ((s.ctx k j).bankCmds.filter fun m =>
    m.bank == (s.ctx k j).act && (m.fn == 1 || j == j) && m.names w && !(m.fn == 2 && m.done)).filter fun m => m.fn == 2
theorem lp_putBank (s : State) (k w : Nat) (b : Bool) (v : Row) : (s.putBank k b w v).lp = s.lp := rfl
theorem storeBank_lp (s : State) (k j w : Nat) (v : Row) :
    (storeBank s k j w v).lp = ((outsOf s k j w).foldl (fun s m => outAgain s k j m w) s).lp := by
  unfold storeBank
  dsimp only
  refine (lp_putBank ..).trans ((lp_foldl _ (fun _ _ => lp_putBank ..) _ _).trans ((lp_foldl _ (fun s j' => ?_) _ _).trans rfl))
  split <;> rfl

/-! ### A machine in which a write-out runs -/

/-- The write-out that has written frame 0 of row 0, as its context and its cluster hold it. -/
def outPending : BankCmd := { fn := 2, opn := 1, bank := false, rows := [(0, 1)], hit := [8192] }
def outRunning : Cmd := { core := 0, ctx := 0, opn := 1, fn := 2, ca := 1, cb := 0 }
/-- Every slice is ready, session 1 is live, and the first entry of its shelf is folio 1, whose first byte is b. -/
def duringOut (b : Nat) : State :=
  { State.reset with
    cores := [(0, { prim := some 0, ctxs := [(0, { life := .live, bankCmds := [outPending] })] })]
    clusters := [(0, { bindRun := [outRunning] })]
    regs := [(rSysReady 2, 2 ^ 64 - 1)]
    dram := [(0, 1), (18, 1), (4096, BitVec.ofNat 8 b)] }
/-- A store of row 0 there: the state its bundle meets, the bundle, and the state in which the store performs. -/
def storing (b : Nat) : State := (duringOut b).meets .st .stNop
def storeBundle (b : Nat) : Issue := { (storing b).iss with wrs := [], acts := [.sb 0 0] }
def storeFrom (b : Nat) : State := { storing b with iss := { core := (storing b).ik, ctx := (storing b).ij } }
def storingNow (b : Nat) : State := actsFrom (storeFrom b) (storeBundle b)

theorem after_eq_commit (b : Nat) : (duringOut b).after .st .stNop [] [.sb 0 0] = commit (storeFrom b) (storeBundle b) := rfl

theorem storing_byte : ∀ b < 2, (storing b).lpByte 0 4096 = BitVec.ofNat 8 b := by decide +kernel
theorem storeBundle_place : ∀ b < 2, (storeBundle b).core = 0 ∧ (storeBundle b).ctx = 0 ∧ (storeBundle b).skipped = false := by
  decide +kernel
theorem storingNow_state : ∀ b < 2, (storingNow b).freeCtr = 1 ∧ (storingNow b).regs = [(rSysReady 2, 2 ^ 64 - 1)] ∧
    (storingNow b).stack = [] ∧ (storingNow b).quar = [] ∧ (storingNow b).badUnits = [] ∧ (storingNow b).inImage 4096 = false := by
  decide +kernel
theorem storingNow_out : ∀ b < 2, outsOf (storingNow b) 0 0 0 = [outPending] ∧
    ((storingNow b).cluster 0).bindRun = [outRunning] ∧ (storingNow b).ent 1 0 = 1 ∧ (storingNow b).folData 1 = 4096 := by
  decide +kernel

/-- A number put together from n bits. -/
theorem foldl_bits_lt (f : Nat → Bool) (n : Nat) : (List.range n).foldl (fun a j => a + b2n (f j) * 2 ^ j) 0 < 2 ^ n := by
  induction n with
  | zero => exact Nat.one_pos
  | succ n ih =>
    rw [List.range_succ, List.foldl_append, List.foldl_cons, List.foldl_nil, Nat.pow_succ]
    have hb : b2n (f n) * 2 ^ n ≤ 1 * 2 ^ n := Nat.mul_le_mul_right _ (by cases f n <;> decide)
    omega
/-- At reset every entry of a slice map names one of the 64 slices (R181). -/
theorem regReset_rSlmap_lt {p e : Nat} (he : e < 64) : regReset (rSlmap p e) < 64 := by
  unfold regReset rSlm rSlmap rSlcfg rDnTmo
  split_ifs <;> omega

/-- Where the slice-ready bits alone are set, the stacks are empty and no way is in quarantine, every unit is ready: the slice maps
are those of reset, and no channel is fitted (R20, R459). -/
theorem unitsReady_of_regs {s : State} (hr : s.regs = [(rSysReady 2, 2 ^ 64 - 1)]) (hs : s.stack = []) (hq : s.quar = []) :
    s.unitsReady := by
  have hreg (o : Nat) (ho : o ≠ rSysReady 2) : s.reg o = regReset o % 2 ^ 64 := by
    simp only [State.reg, hr, tget, if_neg (Ne.symm ho), BitVec.toNat_ofNat]
  have hready : s.reg (rSysReady 2) = 2 ^ 64 - 1 := by rw [State.reg, hr]; decide +kernel
  refine ⟨fun p a => ?slices, fun a => ?channels, fun sl set => ⟨0, by decide, ?_, ?_⟩⟩
  case slices =>
    have hm := regReset_rSlmap_lt (p := p) (foldl_bits_lt (fun j => parity 52 ((a % 2 ^ 52) &&& s.reg (rSlm p j))) 6)
    rw [State.sliceReady, State.sliceOf, hready, hreg _ (by unfold rSlmap rSlcfg rSysReady; omega)]
    exact (by decide : ∀ x < 64, bitAt (2 ^ 64 - 1) x = true) _ (by omega)
  case channels =>
    have h0 : s.reg (rLayout 0) = 0 := (hreg _ (by decide)).trans (by decide)
    rw [State.chanReady, h0, Nat.zero_mod, Nat.zero_and]
    rfl
  · rw [State.quarantined, hq]; rfl
  · rw [hs]; exact fun e he => absurd he List.not_mem_nil

/-- The store there makes frame 0 of row 0, which is written out, a free one (R371). -/
theorem outAgain_pending {b : Nat} (hb : b < 2) : outAgain (storingNow b) 0 0 outPending 0 =
    (storingNow b).lpWrite 0 4096 64 (Config.freeNat 1 869000) (0, 0) := by
  obtain ⟨hf, -, -, -, -, -⟩ := storingNow_state b hb
  obtain ⟨-, hrun, hent, hfol⟩ := storingNow_out b hb
  have hfind : (((storingNow b).cluster (clusterOf 0)).bindRun.find? fun c => c.core == 0 && c.ctx == 0 && c.opn == outPending.opn && !c.rot) =
      some outRunning := by rw [show clusterOf 0 = 0 from rfl, hrun]; decide +kernel
  have hframes : ([2 * 0, 2 * 0 + 1].filter fun f => outPending.hit.contains (8192 + f)) = [0] := by decide
  have hent' : (storingNow b).ent outRunning.bSid (outRunning.bFi + (0 / 32 - outRunning.bBf)) = 1 := hent
  rw [outAgain, hfind]
  simp only [hent', hframes, List.foldl_cons, List.foldl_nil, hfol, State.free, hf, show outRunning.owner = (0, 0) from rfl,
    Nat.zero_mod, Nat.mul_zero, Nat.add_zero, one_ne_zero, if_false]

/-- The first byte of the folio, once the bundle has issued. -/
theorem storing_after {b : Nat} (hb : b < 2) :
    (((duringOut b).after .st .stNop [] [.sb 0 0]).lpByte 0 4096).toNat = Config.freeNat 1 869000 % 2 ^ (8 * 64) % 256 := by
  obtain ⟨-, hregs, hstack, hquar, hbad, hi⟩ := storingNow_state b hb
  obtain ⟨hk, hj, hs⟩ := storeBundle_place b hb
  have hput : ((duringOut b).after .st .stNop [] [.sb 0 0]).lp = ((storingNow b).lpPut 0 4096 64 (Config.freeNat 1 869000) (0, 0)).lp := by
    rw [after_eq_commit, commit_sb_lp (storeFrom b) (i := storeBundle b) rfl hs, hk, hj, ← storingNow, storeBank_lp, (storingNow_out b hb).1, List.foldl_cons, List.foldl_nil, outAgain_pending hb, lpWrite_line (by decide) (by decide) hi]
  rw [lpByte_of_lpRead _ 0 4096 63 (by decide), lpRead_of_lp hput, lpRead_lpPut (unitsReady_of_regs hregs hstack hquar) _ _ _ _ _
    (by decide) (by decide)]
  · rw [State.poisoned, State.lineAt, hstack]; rfl
  · rw [hbad]; intros; rfl

/-- Refutes O10: the store finds a frame of its row already written out, and so the write-out leaves that frame unpredictable in the
folio it goes to (R365, R371): 64 bytes of LPDDR 6 become free ones.  In `duringOut 0` and `duringOut 1`, which differ in the first
of them alone, the same free byte takes its place, so that it stays as it was in one of the two at most. -/
theorem not_bundleFrame : ¬Obligations.BundleFrame := by
  intro h
  have hstays : ∀ b < 2, Config.freeNat 1 869000 % 2 ^ (8 * 64) % 256 = b := by
    intro b hb
    obtain ⟨hbytes, -⟩ := h (duringOut b) .st .stNop [] [.sb 0 0] (by decide) (by decide)
    have hbyte := congrArg BitVec.toNat ((hbytes 4096).1 0)
    rw [storing_after hb, show (duringOut b).meets .st .stNop = storing b from rfl, storing_byte b hb, BitVec.toNat_ofNat] at hbyte
    omega
  have h0 := hstays 0 (by decide)
  have h1 := hstays 1 (by decide)
  omega
end Sys2Proof.Machine

namespace Sys2Proof.Machine

/-! ### What the end of a task leaves as it is (R427)

What a terminated context's engines still do goes through partitions 0 to 7 alone (R181, R432), so that it waits for nothing while
the units behind those are ready; the record of the termination may fall on registers of partitions beyond them. -/

/-- Every slice behind partitions 0 to 7 is ready, every channel is, and each set has a way that is neither in quarantine nor
poisoned (R20, R436, R459). -/
def State.lowReady (s : State) : Prop :=
  (∀ p, p < 8 → ∀ a, s.sliceReady (s.sliceOf p a) = true) ∧ (∀ a, s.chanReady a = true) ∧
  ∀ sl set, ∃ w, w < 24 ∧ s.quarantined sl set w = false ∧
    ∀ e ∈ s.stack, e.2.slice = sl → e.1 % 1024 = set → e.2.way = w → e.2.poison = false

theorem State.unitsReady.low {s : State} (h : s.unitsReady) : s.lowReady := ⟨fun p _ => h.1 p, h.2⟩

/-- A step that waits for nothing while those units are ready, which they stay, and that leaves the system watchdogs alone (R102). -/
structure Calm (s t : State) : Prop where
  sysw : ∀ k, (t.core k).sysw = (s.core k).sysw
  ready : s.lowReady → t.held = s.held ∧ t.lowReady

theorem Calm.refl (s : State) : Calm s s := ⟨fun _ => rfl, fun h => ⟨rfl, h⟩⟩
theorem Calm.trans {s t u : State} (h : Calm s t) (g : Calm t u) : Calm s u := by
  refine ⟨fun k => (g.sysw k).trans (h.sysw k), fun r => ?_⟩
  obtain ⟨hh, ht⟩ := h.ready r
  exact ⟨(g.ready ht).1.trans hh, (g.ready ht).2⟩
theorem Calm.foldl {α : Type} {f : State → α → State} (hf : ∀ s a, Calm s (f s a)) (l : List α) (s : State) :
    Calm s (l.foldl f s) := by
  induction l generalizing s with
  | nil => exact .refl s
  | cons a r ih => exact (hf s a).trans (ih _)
theorem Calm.ite {s t u : State} {c : Prop} [Decidable c] (h : Calm s t) (g : Calm s u) : Calm s (if c then t else u) := by
  split
  · exact h
  · exact g

/-- The registers below those of partition 8 say which slices and channels are ready (R20, R181, R459). -/
theorem lowReady_of_lines {s t : State} (h : s.lowReady) (hr : ∀ n < 0x928000, t.reg n = s.reg n) (hq : t.quar = s.quar)
    (hl : ∀ e ∈ t.stack, e ∈ s.stack ∨ e.2.poison = false) : t.lowReady := by
  obtain ⟨hs, hc, hw⟩ := h
  refine ⟨fun p hp a => ?slices, fun a => ?channels, fun sl set => ?ways⟩
  case slices =>
    have hm (j : Nat) (hj : j ∈ List.range 6) : t.reg (rSlm p j) = s.reg (rSlm p j) :=
      hr _ (by have := List.mem_range.1 hj; unfold rSlm rSlcfg; omega)
    have he : t.sliceOf p a = s.sliceOf p a := by
      unfold State.sliceOf
      dsimp only
      rw [List.foldl_ext _ _ 0 fun b j hj => by rw [hm j hj], hr]
      have := foldl_bits_lt (fun j => parity 52 ((a % 2 ^ 52) &&& s.reg (rSlm p j))) 6
      unfold rSlmap rSlcfg
      omega
    rw [State.sliceReady, hr _ (by decide), he]
    exact hs p hp a
  case channels =>
    rw [State.chanReady, hr _ (by decide), hr _ (by decide)]
    exact hc a
  case ways =>
    obtain ⟨w, hw, hwq, hwl⟩ := hw sl set
    refine ⟨w, hw, by rwa [State.quarantined, hq], fun e he h1 h2 h3 => ?_⟩
    exact (hl e he).elim (fun g => hwl e g h1 h2 h3) id

/-! ### Accesses to LPDDR 6 (R180) -/

/-- An access through the stacks that puts no poisoned line into them. -/
theorem calm_of_mem {s t : State} (m : MemStep s t) (hh : s.lowReady → t.held = s.held)
    (hl : ∀ e ∈ t.stack, e ∈ s.stack ∨ e.2.poison = false) : Calm s t := by
  obtain ⟨hc, -, -, hr, -, -, hq, -⟩ := m.keeps
  exact ⟨fun k => by rw [State.core, hc]; rfl, fun r => ⟨hh r, lowReady_of_lines r (fun n _ => by rw [State.reg, hr]; rfl) hq hl⟩⟩
/-- A step that waits, where some unit is not ready. -/
theorem calm_hold {s : State} (h : ¬s.lowReady) : Calm s s.hold := ⟨fun _ => rfl, fun r => absurd r h⟩

theorem calm_wbLine (s : State) (key : Nat) (l : StackLine) : Calm s (s.wbLine key l) := by
  refine calm_of_mem (memStep_wbLine ..) (fun r => ?_) fun e he => .inl (wbLine_stack s key l ▸ he)
  unfold State.wbLine
  dsimp only
  rw [if_neg]
  simp [r.2.1]
theorem calm_tdel (s : State) (key : Nat) : Calm s { s with stack := tdel s.stack key } :=
  calm_of_mem (memStep_tdel ..) (fun _ => rfl) fun _ he => .inl (mem_tdel he)
theorem calm_tput (s : State) (key : Nat) {l : StackLine} (h : l.poison = false) : Calm s { s with stack := tput s.stack key l } :=
  calm_of_mem (memStep_tput s key h) (fun _ => rfl) fun _ he => (mem_tput he).elim (fun g => .inr (by rw [g]; exact h)) .inl

theorem calm_dropWay (s : State) (slice set way : Nat) : Calm s (s.dropWay slice set way) := by
  unfold State.dropWay
  split
  · exact ((Calm.refl s).ite (calm_wbLine ..)).trans (calm_tdel ..)
  · exact .refl s

theorem calm_allocWay (s : State) (slice set : Nat) : Calm s (s.allocWay slice set).1 := by
  unfold State.allocWay
  dsimp only
  split
  · exact .refl s
  · split
    · exact calm_dropWay ..
    · next hn =>
      refine calm_hold fun r => ?_
      obtain ⟨w, hw, hq, hl⟩ := r.2.2 slice set
      refine List.find?_eq_none.1 hn w (List.mem_filter.2 ⟨List.mem_range.2 hw, by simp [hq]⟩) ?_
      cases hf : s.stack.find? fun e => e.2.slice == slice && e.1 % 1024 == set && e.2.way == w with
      | none => rfl
      | some e =>
        have h1 := List.find?_some hf
        simp only [Bool.and_eq_true, beq_iff_eq] at h1
        obtain ⟨⟨hs, hset⟩, hway⟩ := h1
        simp [hl e (List.mem_of_find?_eq_some hf) hs hset hway]
theorem calm_lineFor (s : State) (part pa : Nat) : Calm s (s.lineFor part pa).1 := by
  unfold State.lineFor
  split
  · exact .refl s
  · exact calm_allocWay ..

theorem calm_lpPut (s : State) {part : Nat} (hp : part < 8) (pa n v : Nat) (own : Nat × Nat) :
    Calm s (s.lpPut part pa n v own) := by
  unfold State.lpPut
  dsimp only
  split
  · next h => exact calm_hold fun r => by simp [r.1 _ hp] at h
  · split
    · exact .refl s
    · next hpois =>
      split
      · next h => exact calm_hold fun r => by simp [r.2.1] at h
      · refine (Calm.refl s).ite ((calm_lineFor s part pa).trans (calm_tput _ _ ?_))
        rw [foldl_fill_poison]
        exact Bool.eq_false_iff.2 hpois
theorem calm_lpTouchLine (s : State) {part : Nat} (hp : part < 8) (pa n : Nat) : Calm s (s.lpTouchLine part pa n) := by
  unfold State.lpTouchLine
  dsimp only
  split
  · next h => exact calm_hold fun r => by simp [r.1 _ hp] at h
  · split
    · exact .refl s
    · next hpois =>
      split
      · next h => exact calm_hold fun r => by simp [r.2.1] at h
      · refine (Calm.refl s).ite ((calm_lineFor s part pa).trans (calm_tput _ _ ?_))
        rw [foldl_fill_poison]
        exact Bool.eq_false_iff.2 fun h => hpois (.inl h)

theorem calm_lpWrite (s : State) {part : Nat} (hp : part < 8) (pa n v : Nat) (own : Nat × Nat) :
    Calm s (s.lpWrite part pa n v own) := by
  unfold State.lpWrite
  generalize n / 256 + 2 = f
  induction f generalizing s pa n v with
  | zero => exact .refl s
  | succ f ih => exact (Calm.refl s).ite (((Calm.refl s).ite (calm_lpPut s hp ..)).trans (ih ..))
theorem calm_lpTouch (s : State) {part : Nat} (hp : part < 8) (pa n : Nat) : Calm s (s.lpTouch part pa n) := by
  unfold State.lpTouch
  generalize n / 256 + 2 = f
  induction f generalizing s pa n with
  | zero => exact .refl s
  | succ f ih => exact (Calm.refl s).ite ((calm_lpTouchLine s hp ..).trans (ih ..))
theorem calm_lpSoft (s : State) {part : Nat} (hp : part < 8) (pa n v : Nat) (own : Nat × Nat) :
    Calm s (s.lpSoft part pa n v own) :=
  (calm_lpWrite s hp ..).trans ((Calm.refl _).ite (.foldl (fun u _ => calm_lpWrite u hp ..) _ _))

end Sys2Proof.Machine

namespace Sys2Proof.Machine

theorem calm_fst {α : Type} {s u : State} {p : State × α} {a : α} (h : p = (u, a)) (hc : Calm s p.1) : Calm s u := by
  rwa [h] at hc

/-! ### Virtual memory as a killed engine reaches it (R413, R432 to R434) -/

theorem bitsAt_lt (v o n : Nat) : bitsAt v o n < 2 ^ n := Nat.mod_lt _ (Nat.two_pow_pos n)

theorem walkPart_lt (s : State) (fn : Nat) : s.walkPart fn < 8 := by
  unfold State.walkPart
  split
  · decide
  · exact Nat.mod_lt _ (by decide)
theorem walkLeaf_parts (s : State) {part : Nat} (hp : part < 8) (fn va tbl e : Nat) :
    ∀ x ∈ (s.walkLeaf part fn va tbl e).reads, x.1 < 8 := by
  unfold State.walkLeaf
  dsimp only
  split_ifs <;> simp [hp]
/-- A walk reads through the partition of its tables, and the retirement map through partition 0. -/
theorem walkFrom_parts (s : State) {part : Nat} (hp : part < 8) (fn va f level tbl : Nat) :
    ∀ x ∈ (s.walkFrom part fn va f level tbl).reads, x.1 < 8 := by
  induction f generalizing level tbl with
  | zero => simp [State.walkFrom]
  | succ f ih =>
    unfold State.walkFrom
    dsimp only
    split
    · simp [hp]
    · split
      · simp [hp]
      · split
        · exact List.forall_mem_cons.2 ⟨hp, ih _ _⟩
        · split
          · split <;> simp [hp]
          · exact List.forall_mem_cons.2 ⟨hp, walkLeaf_parts s hp _ _ _ _⟩
theorem calm_walkTouch (s : State) (fn va : Nat) : Calm s (s.walkTouch fn va) := by
  have hp := walkFrom_parts s (walkPart_lt s fn) fn va 4 0 (bitsAt (s.reg (rXlRoot fn)) 16 36 * 65536)
  rw [← State.walkAll] at hp
  unfold State.walkTouch
  generalize (s.walkAll fn va).reads = l at hp
  induction l generalizing s with
  | nil => exact .refl s
  | cons x r ih =>
    obtain ⟨hx, hr⟩ := List.forall_mem_cons.1 hp
    exact (calm_lpTouch s hx ..).trans (ih _ hr)

/-- A step that changes none of what `Calm` speaks of. -/
theorem calm_of_same {s t : State} (hc : t.cores = s.cores) (hr : t.regs = s.regs) (hq : t.quar = s.quar) (hs : t.stack = s.stack)
    (hh : t.held = s.held) : Calm s t :=
  ⟨fun k => by rw [State.core, hc]; rfl, fun r => ⟨hh, lowReady_of_lines r (fun n _ => by rw [State.reg, hr]; rfl) hq fun e he => .inl (hs ▸ he)⟩⟩
theorem calm_setCluster (s : State) (q : Nat) (c : Cluster) : Calm s (s.setCluster q c) := calm_of_same rfl rfl rfl rfl rfl

theorem calm_walkEnd (s : State) (q fn page : Nat) : Calm s (s.walkEnd q fn page) := by
  refine (calm_walkTouch s fn (page * 4096)).trans ?_
  unfold State.walkEnd
  dsimp only
  split
  · exact (calm_setCluster ..).trans (calm_setCluster ..)
  · exact calm_setCluster ..
theorem calm_xlNow (s : State) (q fn va : Nat) (write priv atom : Bool) : Calm s (s.xlNow q fn va write priv atom).1 := by
  unfold State.xlNow
  split
  · exact .refl s
  · dsimp only
    have hw : Calm s (if (s.cluster q).walking.contains (fn, va % 2 ^ 52 / 4096) = true ∨ (s.cluster q).walking.length < 16 then s
        else match (s.cluster q).walking with | w :: _ => s.walkEnd q w.1 w.2 | [] => s) := by
      refine (Calm.refl s).ite ?_
      split
      · exact calm_walkEnd ..
      · exact .refl s
    split <;> exact hw.trans (calm_walkEnd ..)

theorem ok_of_ite {c : Prop} [Decidable c] {k l tgt part pa : Nat} {x : Xr}
    (h : (if c then Xr.fault k l else x) = .ok tgt part pa) : x = .ok tgt part pa := by
  split at h
  · cases h
  · exact h
/-- An access goes through one of partitions 0 to 7 (Table 18-7). -/
theorem access_part {s : State} {t : TlbEnt} {va tgt part pa : Nat} {write fetch priv atom : Bool}
    (h : s.access t va write fetch priv atom = .ok tgt part pa) : part < 8 := by
  have h := ok_of_ite (ok_of_ite (ok_of_ite (ok_of_ite (ok_of_ite (ok_of_ite (ok_of_ite (ok_of_ite (ok_of_ite h))))))))
  obtain ⟨-, hp, -⟩ := Xr.ok.inj h
  exact hp ▸ bitsAt_lt ..
theorem xlNow_part {s : State} {q fn va tgt part pa : Nat} {write priv atom : Bool}
    (h : (s.xlNow q fn va write priv atom).2 = .ok tgt part pa) : part < 8 := by
  unfold State.xlNow at h
  split at h
  · exact access_part h
  · dsimp only at h
    split at h
    · exact access_part h
    · cases h

theorem calm_physTouch (s : State) (tgt : Nat) {part : Nat} (hp : part < 8) (pa n : Nat) : Calm s (s.physTouch tgt part pa n) :=
  (calm_lpTouch s hp pa n).ite (.refl s)
theorem calm_physWrite (s : State) (tgt : Nat) {part : Nat} (hp : part < 8) (pa n v : Nat) (own : Nat × Nat) :
    Calm s (s.physWrite tgt part pa n v own) :=
  (calm_lpSoft s hp pa n v own).ite (Calm.ite (calm_of_same rfl rfl rfl rfl rfl) (calm_of_same rfl rfl rfl rfl rfl))

theorem calm_vByte (s : State) (q fn : Nat) (priv : Bool) (part : Option Nat) (va : Int) : Calm s (s.vByte q fn priv part va).1 := by
  unfold State.vByte
  split
  · exact .refl s
  · dsimp only
    have hx := calm_xlNow s q fn va.toNat false priv false
    split
    · next h =>
      split
      · exact hx
      · split
        · exact hx
        · exact hx.trans (calm_physTouch _ _ (xlNow_part h) ..)
    · exact hx
theorem calm_vBytes (s : State) (q fn : Nat) (priv : Bool) (part : Option Nat) (l : List Int) :
    Calm s (s.vBytes q fn priv part l).1 := by
  induction l generalizing s with
  | nil => exact .refl s
  | cons a l ih =>
    have ha := calm_vByte s q fn priv part a
    unfold State.vBytes
    split
    · next h => exact calm_fst h ha
    · next u b h =>
      have hl := (calm_fst h ha).trans (ih u)
      split
      all_goals next hb => exact calm_fst hb hl

theorem calm_vPlace (s : State) (q fn : Nat) (priv : Bool) (part : Option Nat) (x : Int × Nat) :
    Calm s (s.vPlace q fn priv part x).1 := by
  unfold State.vPlace
  split
  · exact .refl s
  · dsimp only
    have hx := calm_xlNow s q fn x.1.toNat true priv false
    split
    · split <;> exact hx
    · exact hx
theorem vPlace_part {s : State} {q fn : Nat} {priv : Bool} {part : Option Nat} {x : Int × Nat} {u : State} {y : Run}
    (h : s.vPlace q fn priv part x = (u, .ok y)) : y.part < 8 := by
  unfold State.vPlace at h
  split at h
  · cases h
  · dsimp only at h
    split at h
    · next hx =>
      split at h
      · cases h
      · cases h
        exact xlNow_part hx
    · cases h
theorem joinRun_parts {l : List Run} {x : Run} (hl : ∀ r ∈ l, r.part < 8) (hx : x.part < 8) : ∀ r ∈ joinRun l x, r.part < 8 := by
  cases l with
  | nil => simpa [joinRun] using hx
  | cons y r =>
    obtain ⟨hy, hr⟩ := List.forall_mem_cons.1 hl
    unfold joinRun
    dsimp only
    split
    · exact (List.forall_mem_cons (p := fun r : Run => r.part < 8)).2 ⟨hy, hr⟩
    · exact (List.forall_mem_cons (p := fun r : Run => r.part < 8)).2 ⟨hx, hl⟩
/-- The runs of a write lie behind partitions 0 to 7. -/
theorem calm_vRuns (s : State) (q fn : Nat) (priv : Bool) (part : Option Nat) (l : List (Int × Nat)) :
    Calm s (s.vRuns q fn priv part l).1 ∧ ∀ r, (s.vRuns q fn priv part l).2 = .ok r → ∀ x ∈ r, x.part < 8 := by
  unfold State.vRuns
  refine List.foldlRecOn (motive := fun (p : State × Except (Nat × Nat) (List Run)) => Calm s p.1 ∧ ∀ r, p.2 = .ok r → ∀ x ∈ r, x.part < 8) l _
    ⟨.refl s, fun r h => by cases h; simp⟩ fun p hp x _ => ?_
  obtain ⟨hc, hr⟩ := hp
  split
  · exact ⟨hc, hr⟩
  · next r h =>
    have hx := hc.trans (calm_vPlace p.1 q fn priv part x)
    split
    · next u y hy =>
      refine ⟨calm_fst hy hx, fun r' h' => ?_⟩
      cases h'
      exact joinRun_parts (hr r h) (vPlace_part hy)
    · next hy => exact ⟨calm_fst hy hx, nofun⟩
theorem calm_physWrites (own : Nat × Nat) (s : State) {l : List Run} (hp : ∀ x ∈ l, x.part < 8) :
    Calm s (l.foldl (fun s x => s.physWrite x.tgt x.part x.pa x.n x.v own) s) := by
  induction l generalizing s with
  | nil => exact .refl s
  | cons x l ih =>
    obtain ⟨hx, hl⟩ := List.forall_mem_cons.1 hp
    exact (calm_physWrite s x.tgt hx ..).trans (ih _ hl)
theorem calm_vWrite (s : State) (q fn : Nat) (priv : Bool) (part : Option Nat) (own : Nat × Nat) (l : List (Int × Nat)) :
    Calm s (s.vWrite q fn priv part own l).1 := by
  obtain ⟨hc, hr⟩ := calm_vRuns s q fn priv part l
  unfold State.vWrite
  split
  · next h => exact calm_fst h hc
  · next u r h =>
    rw [h] at hc hr
    split
    · exact hc
    · refine hc.trans ?_
      exact calm_physWrites own u fun x hx => hr r rfl x (List.mem_reverse.1 hx)

/-! ### The generation engine -/

theorem calm_gRead (c : Cmd) (s : State) (va n : Nat) : Calm s (gRead c s va n).1 := by
  have h := calm_vBytes s (clusterOf c.core) c.vf c.priv none ((List.range n).map fun i => ((va + i : Nat) : Int))
  unfold gRead
  split
  all_goals next hb => exact calm_fst hb h
theorem calm_gWrite (c : Cmd) (s : State) (va n v : Nat) : Calm s (gWrite c s va n v).1 := by
  unfold gWrite
  dsimp only
  refine List.foldlRecOn (motive := fun (p : GRes Unit) => Calm s p.1) _ _ (.refl s) fun p hp i _ => ?_
  split
  · next u _ =>
    have h := hp.trans (calm_vWrite u (clusterOf c.core) c.vf c.priv none (c.core, c.ctx) ((List.range
      (min n ((va / 4096 + i + 1) * 4096 - va) - ((va / 4096 + i) * 4096 - va))).map fun m =>
        (((va + ((va / 4096 + i) * 4096 - va) + m : Nat) : Int), lane 8 v ((va / 4096 + i) * 4096 - va + m))))
    split
    all_goals next hb => exact calm_fst hb h
  · exact hp
theorem calm_gBind {α β : Type} {s : State} {r : GRes α} {f : State → α → GRes β} (hr : Calm s r.1)
    (hf : ∀ u a, Calm u (f u a).1) : Calm s (gBind r f).1 := by
  unfold gBind
  split
  · exact hr.trans (hf ..)
  · exact hr

theorem emitUnit_same (s : State) (c : Cmd) : (emitUnit s c).2.eng = c.eng ∧ (emitUnit s c).2.fn = c.fn := by
  unfold emitUnit
  dsimp only
  split <;> exact ⟨rfl, rfl⟩
theorem calm_emitUnit (s : State) (c : Cmd) : Calm s (emitUnit s c).1 := by
  unfold emitUnit
  dsimp only
  split
  all_goals
    next h =>
    refine (congrArg (fun r : GRes Unit => Calm s r.1) h).mp ?_
    split
    · exact calm_gWrite ..
    · refine calm_gBind (calm_gRead ..) fun u tok => calm_gBind (calm_gRead ..) fun u slot => ?_
      split
      · exact calm_gWrite ..
      · split <;> exact calm_gWrite ..
theorem calm_genRun_emit (n : Nat) (s : State) (c : Cmd) (he : c.eng = 5) (hf : c.fn = 2) : Calm s (genRun n s c).1 := by
  induction n generalizing s c with
  | zero => exact .refl s
  | succ n ih =>
    unfold genRun
    split
    · exact .refl s
    · have hu : genUnit s c = emitUnit s c := by simp [genUnit, he, hf]
      obtain ⟨h1, h2⟩ := emitUnit_same s c
      dsimp only
      rw [hu]
      exact (calm_emitUnit s c).trans (ih _ _ (h1.trans he) (h2.trans hf))

end Sys2Proof.Machine

namespace Sys2Proof.Machine

/-! ### Steps within a core -/

theorem calm_setCore (s : State) {k : Nat} {c : Core} (h : c.sysw = (s.core k).sysw) : Calm s (s.setCore k c) := by
  refine ⟨fun q => ?_, fun r => ⟨rfl, lowReady_of_lines r (fun _ _ => rfl) rfl fun _ he => .inl he⟩⟩
  by_cases hq : q = k
  · rw [hq, core_setCore_same, h]
  · rw [core_setCore_other _ _ hq]
theorem calm_modCore (s : State) (k : Nat) {f : Core → Core} (hf : ∀ c, (f c).sysw = c.sysw) : Calm s (s.modCore k f) :=
  calm_setCore s (hf _)
theorem calm_setCtx (s : State) (k j : Nat) (x : Ctx) : Calm s (s.setCtx k j x) := calm_setCore s rfl
theorem calm_modCtx (s : State) (k j : Nat) (f : Ctx → Ctx) : Calm s (s.modCtx k j f) := calm_setCore s rfl
theorem calm_setReg (s : State) {off : Nat} (h : 0x928000 ≤ off) (v : Nat) : Calm s (s.setReg off v) :=
  ⟨fun _ => rfl, fun r => ⟨rfl, lowReady_of_lines r (fun _ hn => reg_setReg_other _ _ (by omega)) rfl fun _ he => .inl he⟩⟩

theorem calm_notePad (s : State) (k w : Nat) (mask : Row) : Calm s (s.notePad k w mask) :=
  (Calm.refl s).ite (calm_of_same rfl rfl rfl rfl rfl)
theorem calm_putPad (s : State) (k w v : Nat) : Calm s (s.putPad k w v) :=
  (calm_notePad ..).trans (calm_modCore _ k fun _ => by rfl)
theorem calm_mxTouch (s : State) (k w : Nat) (u : RowUse) : Calm s (s.mxTouch k w u) := by
  unfold State.mxTouch
  exact (calm_modCore s k fun _ => by rfl).ite (.refl s)
theorem calm_storeRow (s : State) (k w : Nat) (mask v : Row) (key : Nat) : Calm s (s.storeRow k w mask v key) :=
  (calm_mxTouch ..).trans ((calm_putPad ..).ite ((calm_notePad ..).trans (calm_modCore _ k fun _ => by rfl)))
theorem calm_putBank (s : State) (k : Nat) (b : Bool) (w : Nat) (v : Row) : Calm s (s.putBank k b w v) := by
  unfold State.putBank
  exact calm_modCore s k fun c => by cases b <;> rfl

/-! ### The engines of a killed context (R320, R353, R377, R420) -/

theorem calm_diagChunk (s : State) (c : Cmd) (m : Nat) (rows : List Nat) : Calm s (diagChunk s c m rows).1 := by
  unfold diagChunk
  exact List.foldlRecOn (motive := fun (p : State × List (List Nat)) => Calm s p.1) _ _ (.refl s) fun p hp _ _ =>
    hp.trans (calm_setCtx ..)
theorem calm_diagUnit (s : State) (c : Cmd) : Calm s (diagUnit s c).1 := by
  unfold diagUnit
  extract_lets a g ye per k m o base
  split
  · split
    · exact calm_diagChunk ..
    · exact .refl s
  · exact calm_storeRow ..
theorem calm_modTile (s : State) (k n : Nat) (f : Tile → Tile) : Calm s (s.modTile k n f) := calm_modCore s k fun _ => by rfl
theorem calm_linTile (s : State) (c : Cmd) : Calm s (linTile s c) := by
  unfold linTile
  exact calm_modTile ..
theorem calm_tileSpoilt (s : State) (c : Cmd) (e : Nat) : Calm s (s.tileSpoilt c e) := by
  unfold State.tileSpoilt
  split
  · exact (calm_modTile ..).ite (.refl s)
  · exact .refl s
theorem calm_scanUnit (s : State) (c : Cmd) : Calm s (scanUnit s c).1 := by
  unfold scanUnit
  dsimp only
  split
  case isTrue => exact calm_diagUnit ..
  split
  case isTrue =>
    split
    · exact .refl s
    · exact (calm_linTile ..).trans (calm_tileSpoilt ..)
  split
  case isTrue =>
    split
    · exact .foldl (fun u _ => calm_modCtx u ..) _ _
    · dsimp only
      exact calm_modCtx ..
  split
  case isTrue => exact (calm_storeRow ..).ite (calm_putBank ..)
  · exact ((calm_storeRow ..).ite (.refl s)).trans (.foldl (fun u _ => (calm_modCtx u ..).ite (.refl u)) _ _)
theorem calm_scanRun (n : Nat) (s : State) (c : Cmd) : Calm s (scanRun n s c).1 := by
  induction n generalizing s c with
  | zero => exact .refl s
  | succ n ih =>
    unfold scanRun
    split
    · exact .refl s
    · exact (calm_scanUnit s c).trans (ih ..)
theorem calm_scanKill (s : State) (k j : Nat) : Calm s (scanKill s k j) := by
  unfold scanKill
  split
  · exact .refl s
  · exact (Calm.refl s).ite ((calm_scanRun ..).trans (calm_modCore _ k fun _ => by rfl))

theorem calm_endStreams (s : State) (k : Nat) (f : Stream → Bool) : Calm s (endStreams s k f) := by
  unfold endStreams releaseRing
  exact (calm_modCore s k fun _ => by rfl).trans (.foldl (fun u _ => calm_modCtx u ..) _ _)
/-- Cores changed one by one. -/
theorem calm_mapCores (s : State) {f : Nat × Core → Core} (hf : ∀ e, (f e).sysw = e.2.sysw) :
    Calm s { s with cores := s.cores.map fun e => (e.1, f e) } := by
  refine ⟨fun k => ?_, fun r => ⟨rfl, lowReady_of_lines r (fun _ _ => rfl) rfl fun _ he => .inl he⟩⟩
  show (tget {} (s.cores.map fun e => (e.1, f e)) k).sysw = (tget {} s.cores k).sysw
  induction s.cores with
  | nil => rfl
  | cons e r ih =>
    simp only [List.map_cons, tget]
    split
    · exact hf _
    · exact ih
theorem calm_copyKill (s : State) (k j : Nat) : Calm s (copyKill s k j) := by
  unfold copyKill
  refine Calm.trans ?_ (calm_endStreams ..)
  refine Calm.trans ?_ (calm_mapCores _ ?_)
  · exact (calm_modCtx ..).trans (calm_modCore _ k fun _ => by rfl)
  · exact fun _ => rfl

theorem calm_setFol (s : State) (n v : Nat) : Calm s (s.setFol n v) := calm_lpWrite s (by decide) ..
theorem calm_freeIf (s : State) (n : Nat) : Calm s (s.freeIf n) :=
  (Calm.refl s).ite ((calm_setFol ..).trans (calm_setReg _ (by decide) _))
theorem calm_unref (s : State) (n : Nat) : Calm s (s.unref n) :=
  ((Calm.refl s).ite (calm_setFol ..)).trans (calm_freeIf ..)
theorem calm_forkBack (s : State) (c : Cmd) : Calm s (forkBack s c) := by
  unfold forkBack
  split
  · exact (Calm.foldl (fun u _ => calm_unref u _) _ s).trans (calm_of_same rfl rfl rfl rfl rfl)
  · exact .refl s
theorem calm_rollFree (s : State) (c : Cmd) : Calm s (rollFree s c) := .foldl (fun u _ => calm_freeIf u _) _ s
theorem calm_bndKill (s : State) (k j : Nat) : Calm s (bndKill s k j) :=
  (calm_modCtx ..).trans ((calm_setCluster ..).trans (.foldl (fun u _ =>
    ((Calm.refl u).ite (calm_forkBack ..)).ite ((calm_rollFree ..).ite (.refl u))) _ _))

theorem calm_setDie (s : State) (n : Nat) (d : Die) : Calm s (s.setDie n d) := calm_of_same rfl rfl rfl rfl rfl
theorem calm_genKill (s : State) (k j : Nat) : Calm s (genKill s k j) := by
  unfold genKill
  refine (Calm.foldl (fun u _ => calm_modCtx u ..) _ s).trans (.foldl (fun u n => ?_) _ _)
  refine Calm.trans ?_ (calm_setDie ..)
  have hl : ∀ c ∈ (u.die n).gens.filter (fun c => (c.core == k && c.ctx == j) && c.eng == 5 && c.fn == 2), c.eng = 5 ∧ c.fn = 2 := by
    intro c hc
    have := (List.mem_filter.1 hc).2
    simp only [Bool.and_eq_true, beq_iff_eq] at this
    exact ⟨this.1.2, this.2⟩
  dsimp only
  generalize (u.die n).gens.filter _ = l at hl ⊢
  induction l generalizing u with
  | nil => exact .refl u
  | cons c r ih =>
    obtain ⟨hc, hr⟩ := List.forall_mem_cons.1 hl
    exact (calm_genRun_emit _ u c hc.1 hc.2).trans (ih _ hr)

/-! ### The context becomes free (R390, R427) -/

theorem calm_fneRecord (s : State) (f v : Nat) : Calm s (s.fneRecord f v) := by
  have hr (i : Nat) : 0x928000 ≤ rFne f i := by unfold rFne; omega
  exact (calm_setReg s (hr 4) _).ite ((calm_lpWrite s (by decide) ..).trans (calm_setReg _ (hr 2) _))
theorem calm_taskOver (s : State) (q kern : Nat) (frame : Option Nat) : Calm s (taskOver s q kern frame) := by
  cases frame with
  | none => exact calm_of_same rfl rfl rfl rfl rfl
  | some f => exact calm_setCluster ..
theorem calm_taskGone (s : State) (k j : Nat) : Calm s (taskGone s k j) :=
  (calm_of_same rfl rfl rfl rfl rfl : Calm s (s.modKernel _ _)).trans ((calm_taskOver ..).ite (calm_setCluster ..))
theorem calm_flipTo (s : State) (k j : Nat) : Calm s (flipTo s k j) := by
  unfold flipTo
  dsimp only
  split
  · exact (Calm.refl s).ite ((calm_modCore s k fun _ => by rfl).trans (calm_modCtx ..))
  · exact .refl s
theorem calm_flipIdle (s : State) (k : Nat) : Calm s (flipIdle s k) :=
  .foldl (fun u _ => (calm_flipTo u ..).ite (.refl u)) _ _
theorem calm_freeCtx (s : State) (k j : Nat) : Calm s (freeCtx s k j) :=
  (calm_modCtx ..).trans ((calm_setCluster ..).trans (calm_flipIdle ..))
theorem calm_arbSelect (s : State) (k : Nat) : Calm s (arbSelect s k) := by
  unfold arbSelect
  dsimp only
  split
  · exact calm_setCore s rfl
  · refine Calm.trans ?_ (calm_modCtx ..)
    exact calm_setCore s (by rfl)

/-- Termination waits for nothing while every unit is ready, and restarts no system watchdog. -/
theorem calm_terminate (s : State) (k j cause info : Nat) : Calm s (terminate s k j cause info) := by
  unfold terminate
  refine (Calm.refl s).ite ?_
  refine Calm.trans ?_ (Calm.ite (calm_arbSelect ..) (.refl _))
  refine Calm.trans ?_ ((calm_modCtx _ k j _).trans (calm_freeCtx ..))
  refine Calm.trans ?_ (calm_taskGone ..)
  refine Calm.trans ?_ (.foldl (fun u _ => calm_modCore u _ fun _ => by rfl) _ _)
  refine Calm.trans ?_ (calm_modCore _ k fun _ => by rfl)
  exact (calm_fneRecord ..).trans ((calm_scanKill ..).trans ((calm_copyKill ..).trans ((calm_bndKill ..).trans (calm_genKill ..))))

/-! ### The life of a context -/

theorem life_modCtx (s : State) (k j : Nat) {f : Ctx → Ctx} (hf : ∀ x, (f x).life = x.life) (q i : Nat) :
    ((s.modCtx k j f).ctx q i).life = (s.ctx q i).life := by
  by_cases hq : q = k
  · subst hq
    rw [State.ctx, core_modCtx_same]
    by_cases hi : i = j
    · subst hi
      rw [ctx_setCtx_same, hf]
    · rw [ctx_setCtx_other _ _ hi]
      rfl
  · rw [State.ctx, State.modCtx, State.setCtx, core_setCore_other _ _ hq]
    rfl
theorem life_setCore (s : State) {k : Nat} {c : Core} (h : c.ctxs = (s.core k).ctxs) (q i : Nat) :
    ((s.setCore k c).ctx q i).life = (s.ctx q i).life := by
  by_cases hq : q = k
  · subst hq
    rw [State.ctx, core_setCore_same, Core.ctx, h]
    rfl
  · rw [State.ctx, core_setCore_other _ _ hq]
    rfl
theorem life_flipTo (s : State) (k j q i : Nat) : ((flipTo s k j).ctx q i).life = (s.ctx q i).life := by
  unfold flipTo
  dsimp only
  split
  · split
    · rfl
    · exact (life_modCtx _ k j (by exact fun _ => rfl) q i).trans (life_setCore s (by exact rfl) q i)
  · rfl
theorem life_flipIdle (s : State) (k q i : Nat) : ((flipIdle s k).ctx q i).life = (s.ctx q i).life := by
  unfold flipIdle
  refine List.foldlRecOn (motive := fun t : State => (t.ctx q i).life = (s.ctx q i).life) _ _ rfl fun t ht j _ => ?_
  split
  · exact (life_flipTo ..).trans ht
  · exact ht
theorem life_arbSelect (s : State) (k q i : Nat) : ((arbSelect s k).ctx q i).life = (s.ctx q i).life := by
  unfold arbSelect
  dsimp only
  split
  · exact life_setCore s (by exact rfl) q i
  · exact (life_modCtx _ k _ (by exact fun _ => rfl) q i).trans (life_setCore s (by exact rfl) q i)
theorem life_freeCtx (s : State) (k j : Nat) : ((freeCtx s k j).ctx k j).life = .free := by
  unfold freeCtx
  rw [life_flipIdle]
  show ((s.modCtx k j Ctx.freed).ctx k j).life = .free
  rw [State.ctx, core_modCtx_same, ctx_setCtx_same]
  rfl
theorem life_terminate (s : State) {k j cause info : Nat} (h : (s.ctx k j).life = .live) :
    ((terminate s k j cause info).ctx k j).life = .free := by
  unfold terminate
  dsimp only
  rw [if_neg (by simp [h])]
  split
  · rw [life_arbSelect, life_freeCtx]
  · exact life_freeCtx ..

end Sys2Proof.Machine

namespace Sys2Proof.Machine

/-! ### Results that land (R89) -/

/-- All that landing results change: the cores, and what the pre-emption blocks note of rows. -/
def CoresOnly (s t : State) : Prop := t = { s with cores := t.cores, blocks := t.blocks }
theorem CoresOnly.refl (s : State) : CoresOnly s s := rfl
theorem CoresOnly.trans {s t u : State} (h : CoresOnly s t) (g : CoresOnly t u) : CoresOnly s u := by
  unfold CoresOnly at h g ⊢
  rw [g, h]
theorem CoresOnly.foldl {α : Type} {f : State → α → State} (hf : ∀ s a, CoresOnly s (f s a)) (l : List α) (s : State) :
    CoresOnly s (l.foldl f s) := by
  induction l generalizing s with
  | nil => exact .refl s
  | cons a r ih => exact (hf s a).trans (ih _)
theorem CoresOnly.held {s t : State} (h : CoresOnly s t) : t.held = s.held := by rw [h]
theorem CoresOnly.regs {s t : State} (h : CoresOnly s t) : t.regs = s.regs := by rw [h]

theorem coresOnly_putD (s : State) (k j : Nat) (e : Dest) (v : Nat) : CoresOnly s (putD s k j e v) := by
  rcases putD_form s k j e v with h | ⟨c, h, -⟩ | ⟨x, h, -⟩ <;> rw [h] <;> rfl
theorem coresOnly_notePad (s : State) (k w : Nat) (m : Row) : CoresOnly s (s.notePad k w m) := by
  unfold State.notePad
  split <;> rfl
theorem coresOnly_mxTouch (s : State) (k w : Nat) (u : RowUse) : CoresOnly s (s.mxTouch k w u) := by
  unfold State.mxTouch
  split <;> rfl
theorem coresOnly_land (s : State) (k j : Nat) (p : Pend) : CoresOnly s (land s k j p) := by
  unfold land
  split
  · rfl
  · dsimp only
    generalize hu : (if p.mask = 0 then s else _) = u
    have h1 : CoresOnly s u := by
      rw [← hu]
      split
      · rfl
      · split <;> exact coresOnly_putD ..
    have hn : CoresOnly u (match p.dest with
        | .pad r => u.notePad k r p.mask
        | _ => u) := by
      split
      · exact coresOnly_notePad ..
      · rfl
    refine (h1.trans hn).trans ?_
    cases p.tile with
    | none => rfl
    | some t => rfl

/-- A use of a row changes no entry's operation, nor the rows it reads (R251). -/
theorem any_spoilTile (g : MxEnt → Bool) (hg : ∀ e t, g { e with tile := t } = g e) (s : State) (acc : Nat) (f : Nat → Bool)
    (l : List MxEnt) : (spoilTile s acc f l).any g = l.any g := by
  induction l generalizing f with
  | nil => rfl
  | cons e r ih =>
    unfold spoilTile
    split <;> simp only [List.any_cons, ih, hg]
theorem any_mxHit (w r : Nat) (s : State) (u : RowUse) (l : List MxEnt) :
    ((mxHit s w u l).any fun e => e.op == .upd && e.reads.contains r) = l.any fun e => e.op == .upd && e.reads.contains r := by
  induction l with
  | nil => rfl
  | cons e l ih =>
    unfold mxHit
    dsimp only
    split
    · rw [List.any_cons, List.any_cons, ih]
    · split <;> simp only [List.any_cons, any_spoilTile (fun e => e.op == .upd && e.reads.contains r) (fun _ _ => rfl), ih]

theorem landMeets_mxTouch {s : State} {k : Nat} {d : Dest} (w : Nat) (u : RowUse) (h : s.landMeets k d = false) :
    (s.mxTouch k w u).landMeets k d = false := by
  unfold State.mxTouch
  split
  · refine landMeets_setCore rfl (fun _ => rfl) (fun r hr => ?_) h
    rw [updBusy_eq] at hr ⊢
    rwa [any_mxHit]
  · exact h
theorem rawD_mxTouch (s : State) (k j w : Nat) (u : RowUse) (d : Dest) : rawD (s.mxTouch k w u) k j d = rawD s k j d := by
  unfold State.mxTouch
  split
  · simp only [rawD, State.modCore, core_setCore_same]
    rfl
  · rfl

/-- Marks of `cupd` stand in a list of results, as the rows and positions do. -/
theorem any_setAt {α : Type} (g : α → Bool) {v : α} {l : List α} {n : Nat} {p : α} (hp : l[n]? = some p) (hv : g v = g p) :
    (setAt l n v).any g = l.any g := by
  induction l generalizing n with
  | nil => simp at hp
  | cons x r ih =>
    cases n with
    | zero =>
      obtain rfl := Option.some.inj hp
      simp only [setAt, List.any_cons, hv]
    | succ n => simp only [setAt, List.any_cons, ih hp]

/-- After the only entry of a list for which a test holds there is none. -/
theorem filter_one_drop {α : Type} {f : α → Bool} {l : List α} {n : Nat} {p : α} (hp : l[n]? = some p) (h : l.filter f = [p]) :
    ∀ q ∈ l.drop (n + 1), f q = false := by
  have hf : f p = true := (List.mem_filter.1 (h ▸ List.mem_singleton_self p)).2
  induction l generalizing n with
  | nil => simp at hp
  | cons x r ih =>
    cases n with
    | zero =>
      obtain rfl := Option.some.inj hp
      rw [List.filter_cons_of_pos hf] at h
      exact fun q hq => by simpa using List.filter_eq_nil_iff.1 (List.cons.inj h).2 q hq
    | succ n =>
      have hr : r[n]? = some p := hp
      by_cases hx : f x = true
      · rw [List.filter_cons_of_pos hx] at h
        exact absurd hf (List.filter_eq_nil_iff.1 (List.cons.inj h).2 p (List.mem_of_getElem? hr))
      · rw [List.filter_cons_of_neg hx] at h
        exact ih hr h

/-- A result that lands before its position, where it is the only one awaited for its register (R89). -/
theorem landEarly_only {s : State} {k j n : Nat} {p : Pend} (hp : (s.ctx k j).pend[n]? = some p) (ha : p.acc = none)
    (he : p.early = true) (hl : p.landed = false) (h1 : (s.ctx k j).pend.filter (fun q => q.dest == p.dest) = [p])
    (hm : s.landMeets k p.dest = false) :
    ∃ u : State, landEarly s k j n = land u k j p ∧ CoresOnly s u ∧ u.landMeets k p.dest = false ∧
      ∀ d, rawD u k j d = rawD s k j d := by
  have hafter : ((s.ctx k j).pend.drop (n + 1)).foldl
      (fun m q => if q.dest = p.dest ∧ q.landed then m ||| q.mask else m) (0 : Row) = 0 :=
    List.foldlRecOn (motive := fun m : Row => m = 0) _ _ rfl fun m hm0 q hq => by
      have := filter_one_drop hp h1 q hq
      rw [if_neg fun h => by simp [h.1] at this, hm0]
  have hland : landEarly s k j n = _ := rfl
  conv at hland => rhs; unfold landEarly
  dsimp only at hland
  rw [hp] at hland
  dsimp only at hland
  rw [if_neg (by simp [hl, ha, he]), hafter, show p.mask &&& ~~~(0 : Row) = p.mask from (congrArg (p.mask &&& ·) BitVec.not_zero).trans BitVec.and_allOnes] at hland
  generalize hcut : List.map _ (s.ctx k j).pend.zipIdx = cut at hland
  have hcutn : cut[n]? = some p := by
    rw [← hcut, List.getElem?_map, List.getElem?_zipIdx, hp]
    simp
  have hlm : (s.modCtx k j fun x => { x with pend := setAt cut n { p with landed := true } }).landMeets k p.dest = false := by
    refine landMeets_modCtx rfl (fun w hw => ?_) hm
    rw [Ctx.updMark, Bool.or_eq_false_iff] at hw ⊢
    refine ⟨?_, hw.2⟩
    dsimp only
    rw [any_setAt _ hcutn (by rfl), ← hcut, List.any_map]
    refine List.any_eq_false.2 fun q hq => ?_
    have := List.any_eq_false.1 hw.1 q.1 (List.fst_mem_of_mem_zipIdx hq)
    dsimp only [Function.comp]
    split <;> exact this
  refine ⟨_, hland, ?_⟩
  split
  · exact ⟨coresOnly_mxTouch .., landMeets_mxTouch _ _ hlm, fun d => (rawD_mxTouch ..).trans (rawD_modCtx_pend ..)⟩
  · exact ⟨rfl, hlm, fun d => rawD_modCtx_pend ..⟩

theorem resultLanding_occurs {s : State} {k j n : Nat} {p : Pend} (hd : s.due [k, j, n]) (hp : (s.ctx k j).pend[n]? = some p)
    (ha : p.acc = none) : Occurs s .resultLanding (landEarly s.fresh k j n) := by
  refine occurs_event (f := evResult) rfl hd.1 ?_
  have hp' : (s.fresh.ctx k j).pend[n]? = some p := hp
  simp only [evResult, argN_fresh hd.2, List.getD_cons_zero, List.getD_cons_succ, hp', ha]

/-- A result that lands early, its register clear of the engines' work, is in its register (R89). -/
theorem resultLanding_brings {s : State} {k j n : Nat} {p : Pend} (hd : s.due [k, j, n]) (hp : (s.ctx k j).pend[n]? = some p)
    (ha : p.acc = none) (he : p.early = true) (hl : p.landed = false) (hplain : p.dest.plain = true)
    (hm : s.landMeets k p.dest = false) (h1 : (s.ctx k j).pend.filter (fun q => q.dest == p.dest) = [p]) :
    Brings s .resultLanding fun t =>
      rawD t k j p.dest = (blend p.mask (p.value s.fresh) (row (rawD s k j p.dest))).toNat % 2 ^ p.dest.bits := by
  obtain ⟨u, hland, hu, hum, hraw⟩ := landEarly_only (s := s.fresh) hp ha he hl h1 hm
  refine (resultLanding_occurs hd hp ha).brings ?_ ?_ fun _ _ _ _ h => h
  · rw [hland]
    exact (hu.trans (coresOnly_land ..)).held
  · have hv : p.value u = p.value s.fresh := by
      have hc : u.freeCtr = s.fresh.freeCtr := by rw [hu]
      simp only [Pend.value, State.free, hc]
    rw [hland, rawD_land_clear u k j p hplain hl hum, hv, hraw]
    rfl

/-! ### The watchdogs (R101, R102) -/

theorem runWatchdog_occurs {s : State} {k j : Nat} (hd : s.due [k, j]) (h : overrun s.fresh k j = true)
    (hg : (s.ctx k j).midGroup = false) : Occurs s .runWatchdogExpiry (takeOverrun s.fresh k j) := by
  refine occurs_event (f := evOverrun) rfl hd.1 ?_
  have hg' : (s.fresh.ctx k j).midGroup = false := hg
  simp only [evOverrun, argN_fresh hd.2, List.getD_cons_zero, List.getD_cons_succ, h, hg', Bool.not_false, Bool.and_true, if_true]

/-- The system watchdog of a core has expired, and its count restarts (R102). -/
def State.sysExpired (s : State) (k : Nat) : State := s.fresh.modCore k fun c => { c with sysw := 0 }

theorem systemWatchdog_occurs {s : State} {k : Nat} (hd : s.due [k]) (hw : sysPeriod s k ≤ (s.core k).sysw) :
    Occurs s .systemWatchdogExpiry (match (s.core k).prim with
      | some j => terminate (s.sysExpired k) k j 2 0
      | none => s.sysExpired k) := by
  refine occurs_event (f := evSysWatchdog) rfl hd.1 ?_
  have hw' : ¬(s.fresh.core k).sysw < sysPeriod s.fresh k := Nat.not_lt.2 hw
  simp only [evSysWatchdog, argN_fresh hd.2, List.getD_cons_zero, hw', if_false]
  rfl

/-- It ends the task of its core's primary context, and waits for nothing while every unit is ready. -/
theorem systemWatchdog_brings {s : State} {k j : Nat} (hd : s.due [k]) (hw : sysPeriod s k ≤ (s.core k).sysw)
    (hp : (s.core k).prim = some j) (hr : s.unitsReady) (hl : (s.ctx k j).life = .live) :
    Brings s .systemWatchdogExpiry fun t => (t.ctx k j).life = .free ∧ (t.core k).sysw = 0 := by
  have ho := systemWatchdog_occurs hd hw
  rw [hp] at ho
  have hc := calm_terminate (s.sysExpired k) k j 2 0
  have hr' : (s.sysExpired k).lowReady := hr.low
  refine ho.brings (hc.ready hr').1 ⟨life_terminate _ ?_, ?_⟩ fun _ _ _ _ h => h
  · rw [State.ctx, State.sysExpired, State.modCore, core_setCore_same]
    exact hl
  · rw [hc.sysw, State.sysExpired, State.modCore, core_setCore_same]

/-! ### Trap entry (R425) -/

theorem coresOnly_touchAll (s : State) (k j : Nat) : CoresOnly s (touchAll s k j) := by
  refine .foldl (fun u p => ?_) _ _
  split
  · rfl
  · split
    · exact coresOnly_mxTouch ..
    · rfl
theorem coresOnly_landAll (s : State) (k j : Nat) : CoresOnly s (landAll s k j) :=
  CoresOnly.trans (t := s.modCtx k j _) rfl (.foldl (fun _ _ => coresOnly_land ..) _ _)

theorem trapEntry_occurs {s : State} {k j : Nat} {r : TrapWait} (hd : s.due [k, j]) (hp : (s.ctx k j).trapP = some r)
    (hr : trapReady s.fresh k j r.req.cause = true) : Occurs s .trapEntry (trapEnter s.fresh k j r) := by
  refine occurs_event (f := evTrap) rfl hd.1 ?_
  have hp' : (s.fresh.ctx k j).trapP = some r := hp
  simp only [evTrap, trapTry, argN_fresh hd.2, List.getD_cons_zero, List.getD_cons_succ, hp', hr, if_true]

/-- A context that waits for nothing enters its handler at the vector of its core. -/
theorem trapEntry_brings {s : State} {k j : Nat} {r : TrapWait} (hd : s.due [k, j]) (hp : (s.ctx k j).trapP = some r)
    (hr : trapReady s.fresh k j r.req.cause = true) (hw : (s.ctx k j).waits = []) :
    Brings s .trapEntry fun t => (t.ctx k j).hand.on = true ∧ (t.ctx k j).trapP = none ∧
      (t.ctx k j).ctl.pc = BitVec.ofNat 32 (s.reg (rTvec k)) := by
  have hw' : (s.fresh.ctx k j).waits = [] := hw
  have hc := (coresOnly_touchAll s.fresh k j).trans (coresOnly_landAll (touchAll s.fresh k j) k j)
  refine (trapEntry_occurs hd hp hr).brings ?_ ?_ fun _ _ _ _ h => h
  · unfold trapEnter
    dsimp only
    rw [hw']
    exact hc.held
  · unfold trapEnter
    dsimp only
    rw [hw']
    simp only [List.filter_nil, List.foldl_nil, State.ctx, core_modCtx_same, ctx_setCtx_same]
    refine ⟨trivial, trivial, congrArg (BitVec.ofNat 32) ?_⟩
    exact reg_of_regs hc.regs _

/-! ### The arbiter (R96) -/

theorem contextReady_occurs {s : State} {k j : Nat} (hd : s.due [k]) (hp : (s.core k).prim = none) (hj : j < 8)
    (hr : isReady s.fresh k j = true) : Occurs s .contextBecomesReady (arbSelect s.fresh k) := by
  refine occurs_event (f := evReady) rfl hd.1 ?_
  have hp' : (s.fresh.core k).prim = none := hp
  have ha : (List.range 8).any (fun j => isReady s.fresh k j) = true := List.any_eq_true.2 ⟨j, List.mem_range.2 hj, hr⟩
  simp only [evReady, wakeCore, argN_fresh hd.2, List.getD_cons_zero, hp', ha, Option.isNone_none, and_self, if_true]

theorem mem_foldl_rankCtx (c : Core) (i : Nat) (l acc : List Nat) :
    i ∈ l.foldl (fun l j => rankCtx c j l) acc ↔ i ∈ acc ∨ i ∈ l := by
  induction l generalizing acc with
  | nil => simp
  | cons j r ih =>
    rw [List.foldl_cons, ih, mem_rankCtx, List.mem_cons]
    tauto
/-- The arbiter's order holds every context, wherever its pointer stands. -/
theorem mem_order (c : Core) (i : Nat) : i ∈ c.order ↔ i < 8 := by
  rw [Core.order, mem_foldl_rankCtx]
  simp only [List.not_mem_nil, false_or, List.mem_map, List.mem_range]
  constructor
  · rintro ⟨n, -, rfl⟩
    exact Nat.mod_lt _ (by decide)
  · exact fun hi => ⟨(i + 8 - c.rptr % 8) % 8, Nat.mod_lt _ (by decide), by omega⟩
theorem mem_readyOrder (s : State) (k i : Nat) : i ∈ readyOrder s k ↔ i < 8 ∧ isReady s k i = true := by
  rw [readyOrder, List.mem_filter, mem_order]

theorem arbSelect_held (s : State) (k : Nat) : (arbSelect s k).held = s.held := by
  unfold arbSelect
  dsimp only
  split <;> rfl

theorem contextReady_brings {s : State} {k j : Nat} (hd : s.due [k]) (hp : (s.core k).prim = none) (hj : j < 8)
    (hr : isReady s.fresh k j = true) : Brings s .contextBecomesReady fun t =>
      ∃ w, w < 8 ∧ isReady s.fresh k w = true ∧ (t.core k).prim = some w := by
  refine (contextReady_occurs hd hp hj hr).brings (arbSelect_held ..) ?_ fun _ _ _ _ h => h
  obtain ⟨first, r, hl⟩ := List.exists_cons_of_ne_nil (List.ne_nil_of_mem ((mem_readyOrder s.fresh k j).2 ⟨hj, hr⟩))
  have hw : ((first :: r).find? (s.fresh.core k).runFits).getD first ∈ readyOrder s.fresh k := by
    rw [hl]
    cases hf : (first :: r).find? (s.fresh.core k).runFits with
    | none => exact List.mem_cons_self
    | some w => exact List.mem_of_find?_eq_some hf
  obtain ⟨h8, hready⟩ := (mem_readyOrder ..).1 hw
  exact ⟨_, h8, hready, (arbSelect_picks hl).1⟩

end Sys2Proof.Machine

namespace Sys2Proof.Machine

/-! ### Banks (R382) -/

/-- What scalar registers written at a start leave as it was (R345, R379). -/
structure StartKept (k : Nat) (s t : State) : Prop where
  held : t.held = s.held
  prim : (t.core k).prim = (s.core k).prim
  prep : (t.core k).prep = (s.core k).prep
  tags : (t.core k).tags = (s.core k).tags
  arrivals : (t.core k).arrivals = (s.core k).arrivals
  credits : (t.core k).credits = (s.core k).credits
  ctxs : ∀ i, { t.ctx k i with inS := [] } = { s.ctx k i with inS := [] }

theorem StartKept.refl (k : Nat) (s : State) : StartKept k s s := ⟨rfl, rfl, rfl, rfl, rfl, rfl, fun _ => rfl⟩
theorem StartKept.trans {k : Nat} {s t u : State} (h : StartKept k s t) (g : StartKept k t u) : StartKept k s u :=
  ⟨g.held.trans h.held, g.prim.trans h.prim, g.prep.trans h.prep, g.tags.trans h.tags, g.arrivals.trans h.arrivals,
    g.credits.trans h.credits, fun i => (g.ctxs i).trans (h.ctxs i)⟩

theorem startKept_inS (s : State) (k j : Nat) (g : Ctx → List (Nat × Word)) :
    StartKept k s (s.modCtx k j fun x => { x with inS := g x }) := by
  refine ⟨rfl, ?_, ?_, ?_, ?_, ?_, fun i => ?_⟩
  iterate 5 rw [core_modCtx_same]; rfl
  rw [State.ctx, core_modCtx_same]
  by_cases hi : i = j
  · rw [hi, ctx_setCtx_same]
  · rw [ctx_setCtx_other _ _ hi]
    rfl
theorem startKept_putD (s : State) (k j n v : Nat) : StartKept k s (putD s k j (.s n) v) := by
  unfold putD
  dsimp only
  split
  · exact .refl k s
  · refine ⟨rfl, ?_, ?_, ?_, ?_, ?_, fun i => ?_⟩
    iterate 5 rw [core_setCore_same]
    rw [State.ctx, core_setCore_same]
    rfl
theorem startKept_applyIn (s : State) (k j : Nat) : StartKept k s (applyIn s k j) := by
  unfold applyIn
  dsimp only
  split
  · refine (startKept_inS s k j fun _ => []).trans ?_
    exact List.foldlRecOn (motive := fun t => StartKept k _ t) _ _ (.refl k _) fun t ht p _ => ht.trans (startKept_putD ..)
  · exact .refl k s
theorem startKept_startWrite (s : State) (k j n : Nat) (v : Word) : StartKept k s (startWrite s k j n v) := by
  unfold startWrite
  split
  · exact (startKept_inS s k j fun x => x.inS ++ [(n, v)]).trans (startKept_applyIn ..)
  · exact .refl k s

/-! ### Arrivals (R345) -/

/-- Arrival i of a core has woken a dormant context, whose registers are still to be written. -/
def arrTaken (s : State) (k i j : Nat) (t : Addr) : State :=
  let u := s.modCore k fun c => { c with arrivals := dropAt c.arrivals i, credits := c.credits + 1 }
  (wakeAt u k j t).modCtx k j fun x => { x with wakeP := (u.ctx k j).wakeP }

theorem arrStart_eq {s : State} {k i j : Nat} {a : Nat × Addr × Word × Word} (hf : arrFits s k = some (i, j))
    (ha : (s.core k).arrivals[i]? = some a) :
    arrStart s k = startWrite (startWrite (arrTaken s k i j a.2.1) k j 1 a.2.2.1) k j 2 a.2.2.2 := by
  simp only [arrStart, hf, ha]
  rfl
theorem arrTaken_ctx (s : State) (k i j : Nat) (t : Addr) :
    ((arrTaken s k i j t).ctx k j).life = .live ∧
    ((arrTaken s k i j t).ctx k j).ctl.pc = if t = 0xFFFFFFFF then (s.ctx k j).ctl.pc else t := by
  simp only [arrTaken, wakeAt, ctx_modCtx_same, true_and]
  simp only [State.ctx, State.modCore, core_setCore_same]
  rfl
theorem arrTaken_core (s : State) (k i j : Nat) (t : Addr) :
    ((arrTaken s k i j t).core k).arrivals = dropAt (s.core k).arrivals i ∧
    ((arrTaken s k i j t).core k).credits = (s.core k).credits + 1 := by
  unfold arrTaken wakeAt
  simp only [core_modCtx_same, State.modCore, core_setCore_same]
  exact ⟨rfl, rfl⟩

theorem arrival_occurs {s : State} {k : Nat} (hd : s.due [k]) : Occurs s .arrivalHandlerStart (arrStart s.fresh k) := by
  refine occurs_event (f := evArrival) rfl hd.1 ?_
  simp only [evArrival, argN_fresh hd.2, List.getD_cons_zero]

/-- An arrival starts its dormant context, and its credit returns. -/
theorem arrival_brings {s : State} {k i j : Nat} {a : Nat × Addr × Word × Word} (hd : s.due [k])
    (hf : arrFits s.fresh k = some (i, j)) (ha : (s.core k).arrivals[i]? = some a) :
    Brings s .arrivalHandlerStart fun t => (t.ctx k j).life = .live ∧
      (t.ctx k j).ctl.pc = (if a.2.1 = 0xFFFFFFFF then (s.ctx k j).ctl.pc else a.2.1) ∧
      (t.core k).arrivals = dropAt (s.core k).arrivals i ∧ (t.core k).credits = (s.core k).credits + 1 := by
  have ho := arrival_occurs hd
  rw [arrStart_eq hf ha] at ho
  have hk := (startKept_startWrite (arrTaken s.fresh k i j a.2.1) k j 1 a.2.2.1).trans (startKept_startWrite _ k j 2 a.2.2.2)
  obtain ⟨hlife, hpc⟩ := arrTaken_ctx s.fresh k i j a.2.1
  obtain ⟨harr, hcred⟩ := arrTaken_core s.fresh k i j a.2.1
  refine ho.brings hk.held ⟨?_, ?_, hk.arrivals.trans harr, hk.credits.trans hcred⟩ fun _ _ _ _ h => h
  · exact (congrArg Ctx.life (hk.ctxs j)).trans hlife
  · exact (congrArg (fun x : Ctx => x.ctl.pc) (hk.ctxs j)).trans hpc

/-! ### Preparing a context whose banks hold nothing (R382) -/

/-- A bank of a core becomes a context's. -/
def ownBank (s : State) (k j b : Nat) : State :=
  (s.modCore k fun c => { c with tags := tput c.tags b (j + 1) }).modCtx k j fun x =>
    { x with saved := x.saved &&& ~~~BitVec.ofNat 56 (2 ^ b), unfilled := x.unfilled &&& ~~~BitVec.ofNat 56 (2 ^ b) }

/-- A live context without saved or unfilled banks is the primary that a core prepares, and what it demands is its own or no one's. -/
structure Preparing (d : BitVec 56) (k j : Nat) (s : State) : Prop where
  held : s.held = false
  prim : (s.core k).prim = some j
  prep : (s.core k).prep = true
  life : (s.ctx k j).life = .live
  saved : (s.ctx k j).saved = 0
  unfilled : (s.ctx k j).unfilled = 0
  demand : (s.ctx k j).task.demand = d
  tags : ∀ b, b < 56 → bitAt d.toNat b = true → tget 0 (s.core k).tags b = 0 ∨ tget 0 (s.core k).tags b = j + 1

theorem bitAt_zero (n : Nat) : bitAt 0 n = false := by simp [bitAt]

theorem prepBank_free {d : BitVec 56} {k j : Nat} {s : State} (h : Preparing d k j s) {b : Nat} (hb : b < 56) :
    prepBank s k j b = if bitAt d.toNat b = true ∧ tget 0 (s.core k).tags b ≠ j + 1 then ownBank s k j b else s := by
  unfold prepBank
  dsimp only
  rw [h.life, h.demand]
  by_cases hd : bitAt d.toNat b = true
  · by_cases ht : tget 0 (s.core k).tags b = j + 1
    · rw [if_pos (by simp [ht]), if_neg (by simp [ht])]
    · have h0 := (h.tags b hb hd).resolve_right ht
      simp [hd, h0, h.unfilled, h.saved, bitAt_zero, ownBank]
  · rw [if_pos (by simp [hd]), if_neg (by simp [hd])]

theorem ownBank_core (s : State) (k j b : Nat) :
    ((ownBank s k j b).core k).prim = (s.core k).prim ∧ ((ownBank s k j b).core k).prep = (s.core k).prep ∧
    ((ownBank s k j b).core k).tags = tput (s.core k).tags b (j + 1) := by
  unfold ownBank
  rw [core_modCtx_same, State.modCore, core_setCore_same]
  exact ⟨rfl, rfl, rfl⟩
theorem ownBank_ctx (s : State) (k j b : Nat) :
    (ownBank s k j b).ctx k j = { s.ctx k j with
      saved := (s.ctx k j).saved &&& ~~~BitVec.ofNat 56 (2 ^ b), unfilled := (s.ctx k j).unfilled &&& ~~~BitVec.ofNat 56 (2 ^ b) } := by
  unfold ownBank
  rw [ctx_modCtx_same, State.ctx, State.modCore, core_setCore_same]
  rfl

theorem preparing_ownBank {d : BitVec 56} {k j : Nat} {s : State} (h : Preparing d k j s) (b : Nat) :
    Preparing d k j (ownBank s k j b) := by
  obtain ⟨hprim, hprep, htags⟩ := ownBank_core s k j b
  have hx := ownBank_ctx s k j b
  refine ⟨h.held, hprim.trans h.prim, hprep.trans h.prep, by rw [hx]; exact h.life, ?_, ?_, by rw [hx]; exact h.demand, fun n hn hd => ?_⟩
  · rw [hx]
    show (s.ctx k j).saved &&& _ = 0
    rw [h.saved]
    exact BitVec.zero_and
  · rw [hx]
    show (s.ctx k j).unfilled &&& _ = 0
    rw [h.unfilled]
    exact BitVec.zero_and
  · rw [htags]
    by_cases hnb : n = b
    · exact .inr (by rw [hnb, tget_tput_same])
    · rw [tget_tput_other _ _ _ hnb]
      exact h.tags n hn hd
/-- A bank after its step: the context's, where it demands it; the others stay its own if they were. -/
theorem preparing_prepBank {d : BitVec 56} {k j : Nat} {s : State} (h : Preparing d k j s) {b : Nat} (hb : b < 56) :
    Preparing d k j (prepBank s k j b) ∧
    (bitAt d.toNat b = true → tget 0 ((prepBank s k j b).core k).tags b = j + 1) ∧
    ∀ n, tget 0 (s.core k).tags n = j + 1 → tget 0 ((prepBank s k j b).core k).tags n = j + 1 := by
  rw [prepBank_free h hb]
  split
  · obtain ⟨-, -, htags⟩ := ownBank_core s k j b
    refine ⟨preparing_ownBank h b, fun _ => by rw [htags, tget_tput_same], fun n hn => ?_⟩
    rw [htags]
    by_cases hnb : n = b
    · rw [hnb, tget_tput_same]
    · rwa [tget_tput_other _ _ _ hnb]
  · next hown =>
    exact ⟨h, fun hd => by_contra fun ht => hown ⟨hd, ht⟩, fun _ hn => hn⟩
theorem preparing_prepBanks {d : BitVec 56} {k j n : Nat} (hn : n ≤ 56) {s : State} (h : Preparing d k j s) :
    let t := (List.range n).foldl (fun s b => prepBank s k j b) s
    Preparing d k j t ∧ ∀ b, b < n → bitAt d.toNat b = true → tget 0 (t.core k).tags b = j + 1 := by
  induction n with
  | zero => exact ⟨h, nofun⟩
  | succ n ih =>
    obtain ⟨hp, ht⟩ := ih (by omega)
    obtain ⟨hp', hb, hk⟩ := preparing_prepBank hp (show n < 56 by omega)
    rw [List.range_succ, List.foldl_append, List.foldl_cons, List.foldl_nil]
    refine ⟨hp', fun b hbn hd => ?_⟩
    rcases Nat.lt_succ_iff_lt_or_eq.1 hbn with hlt | rfl
    · exact hk b (ht b hlt hd)
    · exact hb hd

theorem bankPreparation_occurs {s : State} {k : Nat} (hd : s.due [k]) : Occurs s .bankPreparation (bankPrep s.fresh k) := by
  refine occurs_event (f := evBanks) rfl hd.1 ?_
  simp only [evBanks, argN_fresh hd.2, List.getD_cons_zero]

/-- The core goes on with its prepared context, whose run watchdog starts. -/
def prepDone (s : State) (k j : Nat) : State :=
  (s.modCore k fun c => { c with prep := false }).modCtx k j fun x => { x with ctl := { x.ctl with runCnt := 0 } }

theorem prepDone_spec (s : State) (k j : Nat) :
    (prepDone s k j).held = s.held ∧ ((prepDone s k j).core k).prep = false ∧ ((prepDone s k j).ctx k j).ctl.runCnt = 0 ∧
    ((prepDone s k j).core k).tags = (s.core k).tags := by
  unfold prepDone
  rw [ctx_modCtx_same, core_modCtx_same, State.modCore, core_setCore_same]
  exact ⟨rfl, rfl, rfl, rfl⟩

theorem prepBanks_spec {d : BitVec 56} {k j : Nat} {s : State} (h : Preparing d k j s) :
    (prepBanks s k j).held = false ∧ ((prepBanks s k j).core k).prim = some j ∧ ((prepBanks s k j).core k).prep = true ∧
    ∀ b, b < 56 → bitAt d.toNat b = true → tget 0 ((prepBanks s k j).core k).tags b = j + 1 := by
  obtain ⟨hp, ht⟩ := preparing_prepBanks (Nat.le_refl 56) h
  have hk := startKept_applyIn ((List.range 56).foldl (fun s b => prepBank s k j b) s) k j
  exact ⟨hk.held.trans hp.held, hk.prim.trans hp.prim, hk.prep.trans hp.prep,
    fun b hb hd => (congrArg (tget 0 · b) hk.tags).trans (ht b hb hd)⟩

theorem bankPrep_eq {d : BitVec 56} {k j : Nat} {s : State} (h : Preparing d k j s) (hr : prepReady s k j = true) :
    bankPrep s k = prepDone (prepBanks s k j) k j := by
  obtain ⟨-, hprim, hprep, -⟩ := prepBanks_spec h
  unfold bankPrep
  simp only [h.prim]
  rw [if_neg (by simp [h.prep, hr]), if_pos ⟨hprim, hprep⟩]
  rfl

/-- The banks a context demands are its own once it is prepared. -/
theorem bankPreparation_brings {s : State} {k j : Nat} (hd : s.due [k]) (hr : prepReady s.fresh k j = true)
    (h : Preparing (s.ctx k j).task.demand k j s.fresh) : Brings s .bankPreparation fun t =>
      (t.core k).prep = false ∧ (t.ctx k j).ctl.runCnt = 0 ∧
      ∀ b, b < 56 → bitAt (s.ctx k j).task.demand.toNat b = true → tget 0 (t.core k).tags b = j + 1 := by
  have ho := bankPreparation_occurs hd
  rw [bankPrep_eq h hr] at ho
  obtain ⟨hheld, -, -, htags⟩ := prepBanks_spec h
  obtain ⟨hheld', hprep, hrun, htags'⟩ := prepDone_spec (prepBanks s.fresh k j) k j
  exact ho.brings (hheld'.trans hheld)
    ⟨hprep, hrun, fun b hb hdb => (congrArg (tget 0 · b) htags').trans (htags b hb hdb)⟩ fun _ _ _ _ h => h

end Sys2Proof.Machine

namespace Sys2Proof.Machine

/-! ### Barrier updates (R206) -/

/-- A barrier after the arrivals and bytes of one update, without a new count, a remainder or an error (R206). -/
def arrivedAt (b : Barrier) (up : BarUpd) : Barrier :=
  let arr := if b.cnt = 0 then b.arr else min (b.arr + up.a) b.cnt
  let ovr := b.ovr || (if b.cnt = 0 then decide (0 < up.a) else decide (b.cnt < b.arr + up.a))
  let pend := b.pend + BitVec.ofNat 32 up.x - BitVec.ofNat 32 up.y
  let dlv := b.dlv + BitVec.ofNat 32 up.y
  if b.cnt ≠ 0 ∧ arr = b.cnt ∧ pend = 0 then
    { b with ph := !b.ph, arr := 0, pend := 0, ldlv := dlv, lerr := b.err, lovr := ovr, dlv := 0, err := false, ovr := false }
  else { b with arr := arr, ovr := ovr, pend := pend, dlv := dlv }

theorem barrierStep_eq (b : Barrier) (up : BarUpd) : barrierStep b false up.a up.x up.y 0 = arrivedAt b up := by
  obtain ⟨pend, arr, cnt, ph, err, ovr, lerr, lovr, dlv, ldlv⟩ := b
  by_cases hc : cnt = 0
  · simp [barrierStep, arrivedAt, hc]
  · by_cases ho : cnt < arr + up.a
    · by_cases hp : pend + BitVec.ofNat 32 up.x - BitVec.ofNat 32 up.y = 0#32
      · simp [barrierStep, arrivedAt, hc, ho, hp, Nat.min_eq_right (Nat.le_of_lt ho)]
      · simp [barrierStep, arrivedAt, hc, ho, hp, Nat.min_eq_right (Nat.le_of_lt ho)]
    · by_cases hp : pend + BitVec.ofNat 32 up.x - BitVec.ofNat 32 up.y = 0#32
      · simp [barrierStep, arrivedAt, hc, ho, hp, Nat.min_eq_left (Nat.le_of_not_lt ho)]
      · simp [barrierStep, arrivedAt, hc, ho, hp, Nat.min_eq_left (Nat.le_of_not_lt ho)]

/-- A context learns of the phase of a barrier it may await. -/
def phaseStep (k n : Nat) (ph : Bool) (s : State) (i : Nat) : State :=
  if (s.ctx k i).waitsOn n then s.modCtx k i fun x => x.phaseCome n ph else s

/-- The core of a barrier after its one update. -/
def arrivedCore (c : Core) (n now : Nat) (up : BarUpd) : Core :=
  { c with nbIn := [], nbs := tput c.nbs n (arrivedAt (c.nb n) up), nbAt := tput c.nbAt n (now + 1) }

theorem barrierUpdate_single {s : State} {k n : Nat} {up : BarUpd} (hin : (s.core k).nbIn = [(n, up)]) (hr : up.ready ≤ s.now)
    (hi : up.init = none) (hrem : up.rem = 0) (he : up.err = false) (hat : tget 0 (s.core k).nbAt n ≠ s.now + 1) :
    barrierUpdate s k n = (List.range 8).foldl (phaseStep k n (arrivedAt ((s.core k).nb n) up).ph)
      (s.setCore k (arrivedCore (s.core k) n s.now up)) := by
  have hstep := barrierStep_eq ((s.core k).nb n) up
  simp [barrierUpdate, hin, hr, hi, hrem, he, hat, hstep]
  rfl

/-- A context waits for no phase of barrier n but the present one. -/
def Informed (n : Nat) (ph : Bool) (x : Ctx) : Prop := ∀ q, Wait.nb n q ∈ x.waits → ph = q

theorem informed_phaseCome (x : Ctx) (n : Nat) (ph : Bool) : Informed n ph (x.phaseCome n ph) := by
  intro q hq
  obtain ⟨w, -, hw⟩ := List.mem_map.1 hq
  cases w with
  | nb b r =>
    dsimp only at hw
    split at hw
    · cases hw
    · next hn =>
      cases hw
      exact by_contra fun hne => hn ⟨rfl, hne⟩
  | _ => cases hw
theorem informed_of_waitsOn {x : Ctx} {n : Nat} (h : x.waitsOn n = false) (ph : Bool) : Informed n ph x := by
  intro q hq
  have hno := List.any_eq_false.1 h _ (List.mem_append_left _ hq)
  exact absurd (beq_self_eq_true n) hno

/-- What telling the contexts of a phase leaves of their core. -/
structure PhaseKept (k : Nat) (s t : State) : Prop where
  held : t.held = s.held
  nbs : (t.core k).nbs = (s.core k).nbs
  nbIn : (t.core k).nbIn = (s.core k).nbIn

theorem phaseStep_spec (k n : Nat) (ph : Bool) (s : State) (i : Nat) :
    PhaseKept k s (phaseStep k n ph s i) ∧ Informed n ph ((phaseStep k n ph s i).ctx k i) ∧
    ∀ h, h ≠ i → (phaseStep k n ph s i).ctx k h = s.ctx k h := by
  unfold phaseStep
  split
  · refine ⟨⟨rfl, ?_, ?_⟩, ?_, fun h hi => ?_⟩
    · rw [core_modCtx_same]
      rfl
    · rw [core_modCtx_same]
      rfl
    · rw [ctx_modCtx_same]
      exact informed_phaseCome (s.ctx k i) n ph
    · rw [State.ctx, core_modCtx_same, ctx_setCtx_other _ _ hi]
      rfl
  · next hw => exact ⟨⟨rfl, rfl, rfl⟩, informed_of_waitsOn (Bool.not_eq_true _ ▸ hw) ph, fun _ _ => rfl⟩
theorem phaseSteps_spec (k n : Nat) (ph : Bool) (s : State) (m : Nat) :
    let t := (List.range m).foldl (phaseStep k n ph) s
    PhaseKept k s t ∧ ∀ i, i < m → Informed n ph (t.ctx k i) := by
  induction m with
  | zero => exact ⟨⟨rfl, rfl, rfl⟩, nofun⟩
  | succ m ih =>
    obtain ⟨hk, hi⟩ := ih
    rw [List.range_succ, List.foldl_append, List.foldl_cons, List.foldl_nil]
    obtain ⟨hk', hm, ho⟩ := phaseStep_spec k n ph ((List.range m).foldl (phaseStep k n ph) s) m
    refine ⟨⟨hk'.held.trans hk.held, hk'.nbs.trans hk.nbs, hk'.nbIn.trans hk.nbIn⟩, fun i him => ?_⟩
    rcases Nat.lt_succ_iff_lt_or_eq.1 him with hlt | rfl
    · rw [ho i (Nat.ne_of_lt hlt)]
      exact hi i hlt
    · exact hm
/-- Where no context awaits the barrier there is no one to tell. -/
theorem phaseSteps_none {k n : Nat} {s : State} (h : ∀ i, i < 8 → (s.ctx k i).waitsOn n = false) (ph : Bool) :
    (List.range 8).foldl (phaseStep k n ph) s = s :=
  List.foldlRecOn (motive := fun t => t = s) _ _ rfl fun t ht i hi => by
    rw [ht, phaseStep, if_neg (by rw [h i (List.mem_range.1 hi)]; exact Bool.false_ne_true)]

/-- One update has come to barrier n of core k, and none has been applied to it in this cycle. -/
structure OneUpdate (s : State) (k n : Nat) (up : BarUpd) : Prop where
  only : (s.core k).nbIn = [(n, up)]
  ready : up.ready ≤ s.now
  init : up.init = none
  rem : up.rem = 0
  err : up.err = false
  first : tget 0 (s.core k).nbAt n ≠ s.now + 1

theorem barrierUpdate_occurs {s : State} {k n : Nat} {up : BarUpd} (hd : s.due [k, n]) (h : OneUpdate s k n up) :
    Occurs s .barrierUpdate ((List.range 8).foldl (phaseStep k n (arrivedAt ((s.core k).nb n) up).ph)
      (s.fresh.setCore k (arrivedCore (s.core k) n s.now up))) := by
  refine occurs_event (f := evBarrier) rfl hd.1 ?_
  simp only [evBarrier, argN_fresh hd.2, List.getD_cons_zero, List.getD_cons_succ]
  exact barrierUpdate_single (s := s.fresh) h.only h.ready h.init h.rem h.err h.first
theorem barrierUpdate_occurs_alone {s : State} {k n : Nat} {up : BarUpd} (hd : s.due [k, n]) (h : OneUpdate s k n up)
    (hw : ∀ i, i < 8 → (s.ctx k i).waitsOn n = false) :
    Occurs s .barrierUpdate (s.fresh.setCore k (arrivedCore (s.core k) n s.now up)) := by
  have ho := barrierUpdate_occurs hd h
  rwa [phaseSteps_none fun i hi => ?_] at ho
  rw [State.ctx, core_setCore_same]
  exact hw i hi
/-- The barrier is that of the pseudocode, and its waiting contexts know of its phase. -/
theorem barrierUpdate_brings {s : State} {k n : Nat} {up : BarUpd} (hd : s.due [k, n]) (h : OneUpdate s k n up) :
    Brings s .barrierUpdate fun t => (t.core k).nb n = arrivedAt ((s.core k).nb n) up ∧ (t.core k).nbIn = [] ∧
      ∀ i q, i < 8 → Wait.nb n q ∈ (t.ctx k i).waits → (arrivedAt ((s.core k).nb n) up).ph = q := by
  obtain ⟨hk, hi⟩ := phaseSteps_spec k n (arrivedAt ((s.core k).nb n) up).ph
    (s.fresh.setCore k (arrivedCore (s.core k) n s.now up)) 8
  refine (barrierUpdate_occurs hd h).brings hk.held ⟨?_, ?_, fun i q h8 => hi i h8 q⟩ fun _ _ _ _ h => h
  · rw [Core.nb, hk.nbs, core_setCore_same]
    exact tget_tput_same ..
  · rw [hk.nbIn, core_setCore_same]
    rfl

/-! ### The matrix queue and its planes (R248, R249) -/

theorem matrixQueue_occurs {s : State} {k n : Nat} (hd : s.due [k]) (hn : (s.core k).mqNext s.now = some n) :
    Occurs s .matrixQueueComplete (mxDone s.fresh k n) := by
  refine occurs_event (f := evMatrix) rfl hd.1 ?_
  have hn' : (s.fresh.core k).mqNext s.fresh.now = some n := hn
  simp only [evMatrix, argN_fresh hd.2, List.getD_cons_zero, hn']

/-- An entry that computes a tile leaves the queue with its accumulator stored. -/
theorem mxDone_tile {s : State} {k n : Nat} {e : MxEnt} (he : (s.core k).mq[n]? = some e)
    (hop : e.op = .array ∨ e.op = .clear ∨ e.op = .dist) : (mxDone s k n).held = s.held ∧
      ((mxDone s k n).core k).mq = dropAt (s.core k).mq n ∧ tget {} ((mxDone s k n).core k).tiles e.acc = e.tile.getD {} := by
  unfold mxDone mxApply
  rcases hop with hop | hop | hop
  · simp only [he, hop, State.modCore, core_setCore_same]
    exact ⟨rfl, trivial, tget_tput_same ..⟩
  · simp only [he, hop, State.modCore, core_setCore_same]
    exact ⟨rfl, trivial, tget_tput_same ..⟩
  · simp only [he, hop, State.modCore, core_modCtx_same, core_setCore_same]
    exact ⟨rfl, rfl, tget_tput_same ..⟩
/-- A load of one weight slot leaves the queue with the slot stored. -/
theorem mxDone_slot {s : State} {k n w : Nat} {e : MxEnt} {d : WSlot} (he : (s.core k).mq[n]? = some e) (hop : e.op = .ldw)
    (hs : e.slots = [(w, d)]) : (mxDone s k n).held = s.held ∧
      ((mxDone s k n).core k).mq = dropAt (s.core k).mq n ∧ ((mxDone s k n).core k).wslot w = d := by
  unfold mxDone mxApply
  simp only [he, hop, hs, State.modCore, core_setCore_same]
  exact ⟨rfl, rfl, tget_tput_same ..⟩

theorem matrixQueue_brings_tile {s : State} {k n : Nat} {e : MxEnt} (hd : s.due [k]) (hn : (s.core k).mqNext s.now = some n)
    (he : (s.core k).mq[n]? = some e) (hop : e.op = .array ∨ e.op = .clear ∨ e.op = .dist) : Brings s .matrixQueueComplete fun t =>
      (t.core k).mq = dropAt (s.core k).mq n ∧ tget {} (t.core k).tiles e.acc = e.tile.getD {} := by
  obtain ⟨hheld, hp⟩ := mxDone_tile (s := s.fresh) he hop
  exact (matrixQueue_occurs hd hn).brings hheld hp fun _ _ _ _ h => h
theorem matrixQueue_brings_slot {s : State} {k n w : Nat} {e : MxEnt} {d : WSlot} (hd : s.due [k])
    (hn : (s.core k).mqNext s.now = some n) (he : (s.core k).mq[n]? = some e) (hop : e.op = .ldw) (hs : e.slots = [(w, d)]) :
    Brings s .matrixQueueComplete fun t => (t.core k).mq = dropAt (s.core k).mq n ∧ (t.core k).wslot w = d := by
  obtain ⟨hheld, hp⟩ := mxDone_slot (s := s.fresh) he hop hs
  exact (matrixQueue_occurs hd hn).brings hheld hp fun _ _ _ _ h => h

/-- The cell plane of a request takes its slot. -/
theorem cellPlane_occurs {s : State} {k w : Nat} {pair : Bool} (hd : s.due [k]) (hr : (s.core k).planeReq = some (w, pair))
    (hp : (s.core k).plane0.slot = none) (he : (s.core k).entryFree ≤ s.now) :
    Occurs s .cellPlaneLoad (s.fresh.setCore k { s.core k with
      planeReq := none
      plane0 := { slot := some w, pair := pair, rows := planeRows (s.core k) w pair, sp := ((s.core k).wslot w).sp,
                  srsv := ((s.core k).wslot w).srsv, ready := s.now + (if wide16 ((s.core k).wslot w).ty then 32 else 16) } }) := by
  refine occurs_event (f := evPlane) rfl hd.1 ?_
  have hr' : (s.fresh.core k).planeReq = some (w, pair) := hr
  have hp' : (s.fresh.core k).plane0.slot = none := hp
  have he' : ¬s.fresh.now < (s.fresh.core k).entryFree := Nat.not_lt.2 he
  simp [evPlane, argN_fresh hd.2, planeLoad, hr', hp', he']
  rfl

end Sys2Proof.Machine

namespace Sys2Proof.Machine

/-! ### The steps of a core, clause by clause -/

/-- A primary context beyond its stated run, outside handler and trap, is overrun (R101). -/
theorem overrun_fresh {s : State} {k j : Nat} (hp : (s.core k).prim = some j) (hprep : (s.core k).prep = false)
    (hl : (s.ctx k j).life = .live) (ht : (s.ctx k j).trapP = none) (hh : (s.ctx k j).hand.on = false)
    (hx : (s.ctx k j).ctl.run ≠ 0 ∨ (s.ctx k j).task.excl = false)
    (hr : (s.ctx k j).ctl.run.toNat + 256 < (s.ctx k j).ctl.runCnt) : overrun s.fresh k j = true := by
  have h : overrun s k j = true := by
    simp only [overrun, hp, hprep, hl, ht, hh, hr, BEq.rfl, Option.isNone_none, Bool.not_false, Bool.and_true, decide_true]
    rcases hx with h0 | h0
    · rw [beq_eq_false_iff_ne.2 h0, Bool.and_false, Bool.not_false, Bool.and_true]
    · rw [h0, Bool.false_and, Bool.not_false, Bool.and_true]
  exact h
theorem takeOverrun_eq (s : State) (k j : Nat) : takeOverrun s k j = trapTake s k j
    { req := { cause := 5, slot := 0, info := (s.ctx k j).ctl.run.toNat + (s.ctx k j).ctl.runCnt % 2 ^ 32 * 2 ^ 32,
               insn := nextWord s k j % 2 ^ 16 }, bpc := (s.ctx k j).ctl.pc, rpc := (s.ctx k j).ctl.pc } := by
  simp only [takeOverrun, runoverInfo, b2n, Bool.false_eq_true, if_false, Nat.zero_mul, Nat.add_zero]

/-- Settles O53: every event of a core is due with its arguments, and each clause is the event's function applied to them. -/
theorem coreStepsOccur : Obligations.CoreStepsOccur := by
  intro s k j n u c x
  refine ⟨?landing, ?runWatchdog, ?systemWatchdog, ?trap, ?arbiter, ?banks, ?barrier, ?matrix, ?plane, ?arrival⟩
  case landing =>
    exact fun p hd hp ha he => ⟨resultLanding_occurs hd hp ha, fun hl hplain hm h1 => resultLanding_brings hd hp ha he hl hplain hm h1⟩
  case runWatchdog =>
    intro hd hp hprep hl ht hh hg hx hr
    have ho := runWatchdog_occurs hd (overrun_fresh hp hprep hl ht hh hx hr) hg
    rwa [takeOverrun_eq] at ho
  case systemWatchdog =>
    intro hd hw v
    have ho := systemWatchdog_occurs hd hw
    refine ⟨fun hp => ⟨?_, fun hr hl => systemWatchdog_brings hd hw hp hr hl⟩, fun hp => ?_⟩
    · rwa [show (s.core k).prim = some j from hp] at ho
    · rwa [show (s.core k).prim = none from hp] at ho
  case trap => exact fun r hd hp hr => ⟨trapEntry_occurs hd hp hr, fun hw => trapEntry_brings hd hp hr hw⟩
  case arbiter => exact fun hd hp hj hr => ⟨contextReady_occurs hd hp hj hr, contextReady_brings hd hp hj hr⟩
  case banks =>
    intro hd hp hprep hr
    exact ⟨bankPreparation_occurs hd, fun hl hs hu ht => bankPreparation_brings hd hr ⟨rfl, hp, hprep, hl, hs, hu, rfl, ht⟩⟩
  case barrier =>
    intro hd up hin hready hinit hrem herr hat
    have h1 : OneUpdate s k n up := ⟨hin, hready, hinit, hrem, herr, hat⟩
    exact ⟨fun hw => barrierUpdate_occurs_alone hd h1 hw, barrierUpdate_brings hd h1⟩
  case matrix =>
    intro hd hn
    exact ⟨matrixQueue_occurs hd hn, fun e he hop => matrixQueue_brings_tile hd hn he hop,
      fun e w d he hop hs => matrixQueue_brings_slot hd hn he hop hs⟩
  case plane => exact fun w pair hd hr hp he => cellPlane_occurs hd hr hp he
  case arrival => exact fun i a hd hf ha => ⟨arrival_occurs hd, arrival_brings hd hf ha⟩

end Sys2Proof.Machine

namespace Sys2Proof.Machine

/-! ### Integer arithmetic of SC (R124, R127, Table 05-1) -/

/-- A natural number, brought into a width, is a bit vector when it is that vector modulo 2^w. -/
theorem ofInt_natCast_eq {w n : Nat} {x : BitVec w} (h : n % 2 ^ w = x.toNat) : BitVec.ofInt w n = x :=
  BitVec.eq_of_toNat_eq (by rw [BitVec.ofInt_natCast, BitVec.toNat_ofNat, h])

theorem ofInt_toNat_add {w : Nat} (x y : BitVec w) : BitVec.ofInt w (x.toNat + y.toNat) = x + y := by
  rw [← Int.natCast_add]
  exact ofInt_natCast_eq (BitVec.toNat_add x y).symm

theorem ofInt_toNat_sub {w : Nat} (x y : BitVec w) : BitVec.ofInt w (x.toNat - y.toNat) = x - y := by
  rw [Int.sub_eq_add_neg, BitVec.ofInt_add, BitVec.ofInt_neg, BitVec.ofInt_natCast, BitVec.ofInt_natCast,
    BitVec.ofNat_toNat, BitVec.ofNat_toNat, BitVec.setWidth_eq, BitVec.setWidth_eq, BitVec.sub_eq_add_neg]

theorem ofInt_toNat_mul {w : Nat} (x y : BitVec w) : BitVec.ofInt w (x.toNat * y.toNat) = x * y := by
  rw [← Int.natCast_mul]
  exact ofInt_natCast_eq (BitVec.toNat_mul x y).symm

theorem ofInt_toNat_and {w : Nat} (x y : BitVec w) : BitVec.ofInt w (x.toNat &&& y.toNat : Nat) = x &&& y :=
  ofInt_natCast_eq (by rw [← BitVec.toNat_and, Nat.mod_eq_of_lt (BitVec.isLt _)])

theorem ofInt_toNat_or {w : Nat} (x y : BitVec w) : BitVec.ofInt w (x.toNat ||| y.toNat : Nat) = x ||| y :=
  ofInt_natCast_eq (by rw [← BitVec.toNat_or, Nat.mod_eq_of_lt (BitVec.isLt _)])

theorem ofInt_toNat_xor {w : Nat} (x y : BitVec w) : BitVec.ofInt w (x.toNat ^^^ y.toNat : Nat) = x ^^^ y :=
  ofInt_natCast_eq (by rw [← BitVec.toNat_xor, Nat.mod_eq_of_lt (BitVec.isLt _)])

theorem ofInt_toNat_shiftLeft {w : Nat} (x : BitVec w) (n : Nat) : BitVec.ofInt w (x.toNat <<< n : Nat) = x <<< n :=
  ofInt_natCast_eq (BitVec.toNat_shiftLeft).symm

theorem ofInt_toNat_shiftRight {w : Nat} (x : BitVec w) (n : Nat) : BitVec.ofInt w (x.toNat >>> n : Nat) = x >>> n :=
  ofInt_natCast_eq (by rw [← BitVec.toNat_ushiftRight, Nat.mod_eq_of_lt (BitVec.isLt _)])

/-- The arithmetic shift divides the signed number, rounding down. -/
theorem ofInt_toInt_div_pow {w : Nat} (x : BitVec w) (n : Nat) :
    BitVec.ofInt w (x.toInt / (2 ^ n : Nat)) = x.sshiftRight n := by
  rw [← Int.shiftRight_eq_div_pow, BitVec.sshiftRight]

theorem ofInt_toNat_rotate {w : Nat} (x : BitVec w) (n : Nat) :
    BitVec.ofInt w (x.toNat <<< (n % w) ||| x.toNat >>> (w - n % w) : Nat) = x.rotateLeft n := by
  refine ofInt_natCast_eq ?_
  rw [BitVec.rotateLeft, BitVec.rotateLeftAux, BitVec.toNat_or, BitVec.toNat_shiftLeft, BitVec.toNat_ushiftRight,
    Nat.or_mod_two_pow, Nat.mod_eq_of_lt (a := x.toNat >>> _)]
  exact (BitVec.toNat_ushiftRight x _) ▸ BitVec.isLt _

theorem ofInt_min_bvVal {w : Nat} (sg : Bool) (x y : BitVec w) :
    BitVec.ofInt w (min (bvVal sg x) (bvVal sg y)) = if bvVal sg x ≤ bvVal sg y then x else y := by
  rw [min_def, apply_ite (BitVec.ofInt w), ofInt_bvVal, ofInt_bvVal]

theorem ofInt_max_bvVal {w : Nat} (sg : Bool) (x y : BitVec w) :
    BitVec.ofInt w (max (bvVal sg x) (bvVal sg y)) = if bvVal sg x ≤ bvVal sg y then y else x := by
  rw [max_def, apply_ite (BitVec.ofInt w), ofInt_bvVal, ofInt_bvVal]

theorem sval_bv {w : Nat} (hw : 0 < w) (x : BitVec w) : sval w x.toNat = x.toInt := tval_bv .i64 hw x

theorem rotateLeft_mod {w : Nat} (x : BitVec w) (n : Nat) : x.rotateLeft (n % w) = x.rotateLeft n := by
  rw [BitVec.rotateLeft, BitVec.rotateLeft, Nat.mod_mod]

/-- Settles O1: each operation is its function of bit vectors, by the lemma above that says so at every width. -/
theorem scalarIntegerResults : Obligations.ScalarIntegerResults := by
  intro s t d a b
  have hw := scW_pos t
  exact ⟨fun h => slotOp_out h (scInt_put _ t d a b 1 _ _ ofInt_toNat_add),
    fun h => slotOp_out h (scInt_put _ t d a b 1 _ _ ofInt_toNat_sub),
    fun h => slotOp_out h (scInt_put _ t d a b 3 _ _ ofInt_toNat_mul),
    fun h => slotOp_out h (scInt_put _ t d a b 3 _ _ fun x y => by rw [tval_bv t hw, tval_bv t hw]),
    fun h => slotOp_out h (scInt_put _ t d a b 1 _ _ ofInt_toNat_and),
    fun h => slotOp_out h (scInt_put _ t d a b 1 _ _ ofInt_toNat_or),
    fun h => slotOp_out h (scInt_put _ t d a b 1 _ _ ofInt_toNat_xor),
    fun h => slotOp_out h (scInt_put _ t d a b 1 _ _ fun x y => ofInt_toNat_shiftLeft x _),
    fun h => slotOp_out h (scInt_put _ t d a b 1 _ _ fun x y => ofInt_toNat_shiftRight x _),
    fun h => slotOp_out h (scInt_put _ t d a b 1 _ _ fun x y => by rw [sval_bv hw, ofInt_toInt_div_pow]),
    fun h => slotOp_out h (scInt_put _ t d a b 1 _ _ fun x y => by rw [ofInt_toNat_rotate, rotateLeft_mod]),
    fun h => slotOp_out h (scInt_put _ t d a b 1 _ _ fun x y => by rw [tval_bv t hw, tval_bv t hw, ofInt_min_bvVal]),
    fun h => slotOp_out h (scInt_put _ t d a b 1 _ _ fun x y => by rw [tval_bv t hw, tval_bv t hw, ofInt_max_bvVal])⟩

/-! ### Quotients, compares and the nop of SC (R46, R128, R129) -/

/-- An integer compare is its condition on the values of the operands under the type. -/
theorem scCmp_eq (m : State) (t : ITy) (d : CmpDst) (a : BitVec 6) (b : SrcB) (c : Nat) :
    scCmp m t d a b c = cmpOut d (icond c (typedVal t (m.scalar a)) (typedVal t (m.source b))) 1 := by
  rw [scCmp, cmp_one, cmp_src]

theorem cmpOut_pred (p : BitVec 4) (v : Bool) (lat : Nat) :
    cmpOut (.pred p) v lat = { wrs := [wholeWr (.p p.toNat) 1 (b2n v) lat] } := rfl

theorem cmpOut_cq (v : Bool) (lat : Nat) : cmpOut .cq v lat = { acts := [.cqPush v lat] } := rfl

/-- A compare in its two forms, by the condition it decides. -/
theorem cmp_completes {s : State} (mk : CmpDst → Instr) {f : CmpDst → State → Out} (v : State → Bool) {lat : Nat}
    (he : ∀ d, exec (mk d) s = slotOp .sc (mk d) (f d) s) (hf : ∀ d m, f d m = cmpOut d (v m) lat) (p : BitVec 4) :
    (s.mayIssue .sc (mk (.pred p)) = true →
      Completes s .sc (mk (.pred p)) [wholeWr (.p p.toNat) 1 (b2n (v (s.meets .sc (mk (.pred p))))) lat] []) ∧
    (s.mayIssue .sc (mk .cq) = true →
      Completes s .sc (mk .cq) [] [.cqPush (v (s.meets .sc (mk .cq))) lat]) :=
  ⟨fun h => (he _).trans (slotOp_out h ((hf _ _).trans (cmpOut_pred ..))),
    fun h => (he _).trans (slotOp_out h ((hf _ _).trans (cmpOut_cq ..)))⟩

/-- An integer compare in its two forms: condition n of Table 02-13 on the values of the operands. -/
theorem scCmp_completes {s : State} {t : ITy} {a : BitVec 6} {b : SrcB} (mk : CmpDst → Instr) (n : Nat)
    (he : ∀ d, exec (mk d) s = slotOp .sc (mk d) (fun m => scCmp m t d a b n) s) (p : BitVec 4) :
    let v (i : Instr) : Bool := icond n (typedVal t ((s.meets .sc i).scalar a)) (typedVal t ((s.meets .sc i).source b))
    (s.mayIssue .sc (mk (.pred p)) = true →
      Completes s .sc (mk (.pred p)) [wholeWr (.p p.toNat) 1 (b2n (v (mk (.pred p)))) 1] []) ∧
    (s.mayIssue .sc (mk .cq) = true → Completes s .sc (mk .cq) [] [.cqPush (v (mk .cq)) 1]) :=
  cmp_completes mk (fun m => icond n (typedVal t (m.scalar a)) (typedVal t (m.source b))) he
    (fun d m => scCmp_eq m t d a b n) p

/-- The effects of a quotient, with IDZ or without, wait for no load. -/
theorem notMixed_idz (c : Prop) [Decidable c] : notMixed (if c then [.cst cstIDZ] else []) = true := by
  split <;> rfl

/-- Settles O3: a quotient and a remainder by the lemma for both, each compare by its condition, and the nop by nothing
that it decides. -/
theorem scalarDivideAndCompareResults : Obligations.ScalarDivideAndCompareResults := by
  intro s t d a b p
  exact ⟨fun h => slotOp_out h (scDivRem_eq _ t d a b false _ fun _ _ _ => rfl) (notMixed_idz _),
    fun h => slotOp_out h (scDivRem_eq _ t d a b true _ fun _ _ _ => rfl) (notMixed_idz _),
    scCmp_completes (.scCmpEq t · a b) 0 (fun _ => rfl) p,
    scCmp_completes (.scCmpNe t · a b) 1 (fun _ => rfl) p,
    scCmp_completes (.scCmpLt t · a b) 2 (fun _ => rfl) p,
    scCmp_completes (.scCmpLe t · a b) 3 (fun _ => rfl) p,
    scCmp_completes (.scCmpGt t · a b) 4 (fun _ => rfl) p,
    scCmp_completes (.scCmpGe t · a b) 5 (fun _ => rfl) p,
    fun h => slotOp_out h rfl⟩

/-! ### FP32 operations and conversions of SC (R132 to R134) -/

/-- With an enabled condition raised, an FP32 operation decides the trap `FPX` with the conditions. -/
theorem scFp_trap (m : State) (d : BitVec 6) (v : FV × Bool) (rm : BitVec 3)
    (h : fpEnabled m.fmtW v.2 false (fmtF32.round .arith false (rmode rm.toNat m.fmtRm) v.1).ovf = true) :
    scFp m d v rm =
      Out.mkTrap 7 2 (b2n v.2 + 4 * b2n (fmtF32.round .arith false (rmode rm.toNat m.fmtRm) v.1).ovf) :=
  if_pos h

/-- An FP32 operation, by the value it decides: its result with the sticky bits, or the trap. -/
theorem scFp_completes_or_traps {s : State} {i : Instr} {d : BitVec 6} {rm : BitVec 3} (v : State → FV × Bool)
    (he : exec i s = slotOp .sc i (fun m => scFp m d (v m) rm) s) (h : s.mayIssue .sc i = true) :
    let m := s.meets .sc i
    let r := fmtF32.round .arith false (rmode rm.toNat m.fmtRm) (v m).1
    (fpEnabled m.fmtW (v m).2 false r.ovf = false →
      Completes s .sc i (scalarWr m d (BitVec.ofNat 64 r.bits) 4 :: fpSticky (v m).2 r.ovf 4) []) ∧
    (fpEnabled m.fmtW (v m).2 false r.ovf = true →
      Traps s .sc i { cause := 7, slot := 2, info := b2n (v m).2 + 4 * b2n r.ovf }) := by
  refine ⟨fun hf => he.trans (slotOp_out h (scFp_eq _ d _ rm hf)), fun hf => he.trans (slotOp_traps h ?_ ?_)⟩ <;>
    rw [scFp_trap _ d _ rm hf] <;> rfl

/-- A converted number as its type writes it: an i32 sign-extended, any other zero-extended. -/
theorem cvt_written (tt : BitVec 4) (n : Nat) :
    (if tt.toNat = 4 then (sextW 32 n).toNat else n) % 2 ^ 64 =
      (if tt = 4 then (BitVec.ofNat 32 n).signExtend 64 else BitVec.ofNat 64 n).toNat := by
  have htt : tt.toNat = 4 ↔ tt = 4 := BitVec.toNat_inj (y := (4 : BitVec 4))
  by_cases h : tt = 4
  · rw [if_pos h, if_pos (htt.2 h), sextW_setWidth 32 n (by decide) (by decide), Nat.mod_eq_of_lt (BitVec.isLt _)]
  · rw [if_neg h, if_neg (mt htt.1 h), BitVec.toNat_ofNat]

theorem opScCvt_eq (tt src : BitVec 4) (rm : BitVec 3) (d a : BitVec 6) (m : State) :
    opScCvt tt src rm d a m =
      let r := convTo tt.toNat (rmode rm.toNat m.fmtRm) (elemVal src.toNat (m.rdS 2 a.toNat % 2 ^ Ty.bits src.toNat))
      { wrs := scalarWr m d (if tt = 4 then (BitVec.ofNat 32 r.1).signExtend 64 else BitVec.ofNat 64 r.1) 4 ::
          countWr .satcAdd (b2n r.2) 4 } := by
  simp only [opScCvt, wrS_eq m d _ _ 4 _ (cvt_written tt _)]
  rfl

/-- Settles O4: the arithmetic by the lemma for an FP32 result, the compare by its condition, and `cvt` by the number it
writes. -/
theorem scalarFloatResults : Obligations.ScalarFloatResults := by
  simp only [Obligations.ScalarFloatResults, ← scF_eq]
  intro s rm d a b c
  exact ⟨scFp_completes_or_traps (fun m => FV.add (rmode rm.toNat m.fmtRm) (scF m a) (scF m b)) rfl,
    scFp_completes_or_traps (fun m => (scF m a).mul (scF m b)) rfl,
    scFp_completes_or_traps (fun m => FV.fma (rmode rm.toNat m.fmtRm) (scF m a) (scF m b) (scF m c)) rfl,
    fun cond p => cmp_completes (.fcmp cond rm · a b) (fun m => fcond cond.toNat (scF m a) (scF m b)) (fun _ => rfl)
      (fun _ _ => rfl) p,
    fun tt src h => slotOp_out h (opScCvt_eq tt src rm d a _)⟩

/-! ### Transfers of SC (R125, R135 to R138) -/

/-- A `mov` completes with the results it decides for its destination file. -/
theorem scMov_completes {s : State} {a : BitVec 6} {ws : List Wr} (dst : MovDst)
    (hws : opScMov dst a (s.meets .sc (.scMov dst a)) = { wrs := ws }) (h : s.mayIssue .sc (.scMov dst a) = true) :
    Completes s .sc (.scMov dst a) ws [] :=
  slotOp_out h hws

/-- Settles O5: each transfer decides its one result or effect as its definition is written: `mov` destination file by
destination file, then the spill window, then the context registers. -/
theorem scalarTransferResults : Obligations.ScalarTransferResults := by
  intro s d a f n e p k r w c pre
  refine ⟨scMov_completes (.vec f n e true) rfl, scMov_completes (.vec f n e false) rfl, scMov_completes (.pred p) rfl,
    scMov_completes (.lc k pre) rfl, scMov_completes (.lx k) rfl, scMov_completes (.kp pre) rfl,
    scMov_completes (.la r) rfl, scMov_completes (.sa r) rfl, scMov_completes (.c r) rfl, scMov_completes (.x e) rfl,
    ?spill, ?fill, ?read, ?status, ?saturations, ?reserved⟩
  case spill => exact fun h => slotOp_out (f := opScSpl a w) h rfl
  case fill => exact fun h => slotOp_out (f := opScFil d w) h rfl
  case read => exact fun h => slotOp_out (f := opRdc d c) h rfl
  case status => exact fun h => slotOp_out (f := opWrc 0 a) h rfl
  case saturations => exact fun h => slotOp_out (f := opWrc 1 a) h rfl
  case reserved => exact fun h => slotOp_out (f := opWrc 2 a) h rfl

end Sys2Proof.Machine

namespace Sys2Proof.Machine

/-! ### Lanes of a register (R55, R145) -/

theorem testBit_ofLanes {w : Nat} (hw : 0 < w) (l : List Nat) (b : Nat) :
    (ofLanes w l).testBit b = (l.getD (b / w) 0).testBit (b % w) := by
  induction l generalizing b with
  | nil => simp [ofLanes]
  | cons x r ih =>
    rw [ofLanes, Nat.add_comm, Nat.mul_comm, Nat.testBit_two_pow_mul_add _ (Nat.mod_lt _ (Nat.two_pow_pos w))]
    split
    next h => rw [Nat.div_eq_of_lt h, Nat.mod_eq_of_lt h, Nat.testBit_mod_two_pow, decide_eq_true h]; rfl
    next h =>
      obtain ⟨c, rfl⟩ := Nat.exists_eq_add_of_le (Nat.le_of_not_lt h)
      rw [Nat.add_sub_cancel_left, ih, Nat.add_div_left _ hw, Nat.add_mod_left, List.getD_cons_succ]

theorem testBit_laneMask {w : Nat} (hw : 0 < w) (l : List Bool) (b : Nat) :
    (laneMask w l).testBit b = l.getD (b / w) false := by
  rw [laneMask, testBit_ofLanes hw, List.getD_eq_getElem?_getD, List.getElem?_map, List.getD_eq_getElem?_getD]
  rcases l[b / w]? with _ | _ | _ <;> simp [Nat.mod_lt _ hw]

theorem testBit_lane (e x i j : Nat) : (lane e x i).testBit j = (decide (j < e) && x.testBit (e * i + j)) := by
  rw [lane, bitsAt, Nat.testBit_mod_two_pow, Nat.testBit_shiftRight]

theorem testBit_row (x : Nat) {b : Nat} (hb : b < 1024) : (row x).getLsbD b = x.testBit b := by
  rw [row, BitVec.getLsbD_ofNat, decide_eq_true hb, Bool.true_and]

theorem testBit_blend (mask new old : Row) {b : Nat} (hb : b < 1024) :
    (blend mask new old).toNat.testBit b = if mask.getLsbD b then new.getLsbD b else old.getLsbD b := by
  rw [BitVec.testBit_toNat, blend]
  simp only [BitVec.getLsbD_or, BitVec.getLsbD_and, BitVec.getLsbD_not, decide_eq_true hb]
  cases mask.getLsbD b <;> simp

@[simp] theorem length_activeIn (s : State) (slot : Nat) (f : VFile) (m : BitVec 4) (n : Nat) :
    (activeIn s slot f m n).length = n := by
  unfold activeIn
  split <;> simp

theorem laneOn_lt {m : State} {h : VH} {e i : Nat} (ho : m.laneOn h e i = true) : i < h.w.bits / e := by
  by_contra hi
  rw [State.laneOn, List.getD_eq_default _ _ (by simpa [active] using hi)] at ho
  exact Bool.false_ne_true ho

/-- Bit by bit: a lane-wise result gives the bits of the active lanes, and the register keeps the others (R145). -/
theorem testBit_blend_lanesWr (m : State) (h : VH) (d : BitVec 9) {e : Nat} (lat : Nat) (f : Nat → Nat) (old : Row) (he : 0 < e)
    {b : Nat} (hb : b < 1024) :
    (blend (lanesWr m h d e lat f).mask (lanesWr m h d e lat f).val old).toNat.testBit b =
      if m.laneOn h e (b / e) then (f (b / e)).testBit (b % e) else old.toNat.testBit b := by
  have hm : (lanesWr m h d e lat f).mask.getLsbD b = m.laneOn h e (b / e) :=
    (testBit_row _ hb).trans (testBit_laneMask he _ b)
  rw [testBit_blend _ _ _ hb, hm]
  cases ho : m.laneOn h e (b / e) with
  | false => rfl
  | true =>
    have hv : (lanesWr m h d e lat f).val.getLsbD b = (f (b / e)).testBit (b % e) := by
      refine (testBit_row _ hb).trans ((testBit_ofLanes he _ b).trans ?_)
      rw [List.getD_eq_getElem _ _ (by simpa using laneOn_lt ho), List.getElem_map, List.getElem_range]
      rw [State.laneOn] at ho
      rw [ho, if_pos rfl]
    exact hv

/-- Settles O11: lane by lane and bit by bit. -/
theorem vectorLaneWrites : Obligations.VectorLaneWrites := by
  intro m h d e lat f old he hw
  refine ⟨rfl, rfl, fun i hi => Nat.eq_of_testBit_eq fun j => ?_, fun b hb hn => ?_⟩
  · rw [testBit_lane]
    by_cases hj : j < e
    · have hb : e * i + j < 1024 := by
        calc e * i + j < e * (i + 1) := by rw [Nat.mul_succ]; omega
          _ ≤ e * (h.w.bits / e) := Nat.mul_le_mul_left _ hi
          _ ≤ h.w.bits := Nat.mul_div_le _ _
          _ ≤ 1024 := hw
      have hd : (e * i + j) / e = i := by rw [Nat.mul_add_div he, Nat.div_eq_of_lt hj, Nat.add_zero]
      have hr : (e * i + j) % e = j := by rw [Nat.mul_add_mod, Nat.mod_eq_of_lt hj]
      rw [testBit_blend_lanesWr m h d lat f old he hb, hd, hr]
      split <;> simp [testBit_lane, Nat.testBit_mod_two_pow, hj]
    · split <;> simp [testBit_lane, Nat.testBit_mod_two_pow, hj]
  · rw [testBit_blend_lanesWr m h d lat f old he hb, if_neg fun ho => absurd (laneOn_lt ho) (Nat.not_lt.2 hn)]

/-! ### Lane-wise operations of VA and VB that raise nothing (R151, R153, R160 to R164) -/

/-- Only the low bits of what a lane gives are stored. -/
theorem lanesWr_congr (m : State) (h : VH) (d : BitVec 9) {e : Nat} (lat : Nat) {f g : Nat → Nat}
    (hfg : ∀ i, f i % 2 ^ e = g i % 2 ^ e) : lanesWr m h d e lat f = lanesWr m h d e lat g := by
  have hl (l : List Nat) (p : Nat → Bool) :
      ofLanes e (l.map fun i => if p i then f i else 0) = ofLanes e (l.map fun i => if p i then g i else 0) := by
    induction l with
    | nil => rfl
    | cons x r ih =>
      rw [List.map_cons, List.map_cons, ofLanes, ofLanes, ih]
      cases p x
      · rfl
      · rw [if_pos rfl, if_pos rfl, hfg]
  rw [lanesWr, lanesWr, vWr, vWr, hl]

/-- An operation that puts a value into each lane and raises nothing completes with the active lanes. -/
theorem plainLanes_completes {s : State} {i : Instr} {h : VH} {d : BitVec 9} {e lat : Nat} {op : State → Out}
    (v : State → Nat → Nat) (w : State → Nat → Nat) (he : exec i s = slotOp (Sys2Proof.vSlot h.f) i op s)
    (ho : ∀ m, op m = vLanes m h d e lat fun n => ⟨w m n, false, false, false, 0, 0⟩)
    (hw : ∀ m n, w m n % 2 ^ e = v m n % 2 ^ e) (hi : s.mayIssue (Sys2Proof.vSlot h.f) i = true) :
    Completes s (Sys2Proof.vSlot h.f) i [lanesWr (s.meets (Sys2Proof.vSlot h.f) i) h d e lat (v (s.meets (Sys2Proof.vSlot h.f) i))] [] := by
  refine he.trans (slotOp_out hi ?_)
  rw [ho, vLanes_plain, lanesWr_congr _ _ _ _ (hw _)]

/-- The same for an operation that does one thing on integers and another on floats, on integers. -/
theorem intLanes_completes {s : State} {i : Instr} {h : VH} {t : BitVec 4} {d : BitVec 9} {op : State → Out} {o : State → Out}
    (v : State → Nat → Int) (hint : Ty.isInt t.toNat = true) (he : exec i s = slotOp (Sys2Proof.vSlot h.f) i op s)
    (ho : ∀ m, op m = if Ty.isInt t.toNat then vLanes m h d (Ty.bits t.toNat) 2 fun n => iLane t.toNat false (v m n) else o m)
    (hi : s.mayIssue (Sys2Proof.vSlot h.f) i = true) :
    let m := s.meets (Sys2Proof.vSlot h.f) i
    Completes s (Sys2Proof.vSlot h.f) i [lanesWr m h d (Ty.bits t.toNat) 2 fun n => wrap (Ty.bits t.toNat) (v m n)] [] :=
  plainLanes_completes (fun m n => wrap (Ty.bits t.toNat) (v m n)) _ he (fun m => (ho m).trans (if_pos hint))
    (fun _ _ => rfl) hi

/-- A lane-wise operation whose lanes count saturations only. -/
theorem vLanes_counts (m : State) (h : VH) (d : BitVec 9) (e lat : Nat) (f c : Nat → Nat) :
    vLanes m h d e lat (fun i => ⟨f i, false, false, false, c i, 0⟩) =
      { wrs := lanesWr m h d e lat f :: countWr .satcAdd (m.overLanes h e c) lat } := by
  rw [vLanes_eq]
  simp only [someLane_none, overLanes_none, fpEnabled_none, fpSticky_none, countWr_zero, List.append_nil]
  rfl

/-- An integer operation with and without SAT, by the function of integers it computes (R151). -/
theorem vBin_completes {s : State} {h : VH} {t : BitVec 4} {d a b : BitVec 9} {rm : BitVec 3}
    {ff : Nat → FV → FV → FV × Bool} (mk : Bool → Instr) (g : Int → Int → Int) (hint : Ty.isInt t.toNat = true)
    (he : ∀ sat, exec (mk sat) s = slotOp (Sys2Proof.vSlot h.f) (mk sat) (fun m => vBin m h t d a b rm sat g ff) s) :
    let e := Ty.bits t.toNat
    (s.mayIssue (Sys2Proof.vSlot h.f) (mk false) = true →
      let m := s.meets (Sys2Proof.vSlot h.f) (mk false)
      Completes s (Sys2Proof.vSlot h.f) (mk false)
        [lanesWr m h d e 2 fun n => wrap e (g (m.intElem h t a n) (m.intElem h t b n))] []) ∧
    (s.mayIssue (Sys2Proof.vSlot h.f) (mk true) = true →
      let m := s.meets (Sys2Proof.vSlot h.f) (mk true)
      let r (n : Nat) := satTo t (g (m.intElem h t a n) (m.intElem h t b n))
      Completes s (Sys2Proof.vSlot h.f) (mk true)
        (lanesWr m h d e 2 (fun n => wrap e (r n).1) :: countWr .satcAdd (m.overLanes h e fun n => b2n (r n).2) 2) []) :=
  ⟨intLanes_completes (fun m n => g (m.intElem h t a n) (m.intElem h t b n)) hint (he false) fun _ => rfl,
    fun hi => (he true).trans (slotOp_out hi ((if_pos hint).trans (vLanes_counts ..)))⟩

theorem opVAbs_eq (h : VH) (t : BitVec 4) (d a : BitVec 9) (rm : BitVec 3) (m : State) :
    opVAbs h t d a rm m = vSign m h t d a (fun x => |x|) true := by
  have habs : (fun x : Int => if x < 0 then -x else x) = fun x => |x| := by
    funext x
    split
    next hx => exact (abs_of_neg hx).symm
    next hx => exact (abs_of_nonneg (not_lt.1 hx)).symm
  rw [opVAbs, habs]

/-- Settles O12: each operation by the function of integers it computes in its lanes. -/
theorem vectorIntegerResults : Obligations.VectorIntegerResults := by
  intro s h t d a b rm hint
  exact ⟨vBin_completes (.vAdd h t d a b rm) (· + ·) hint fun _ => rfl,
    vBin_completes (.vSub h t d a b rm) (· - ·) hint fun _ => rfl,
    vBin_completes (.vMul h t d a b rm) (· * ·) hint fun _ => rfl,
    intLanes_completes (fun m n => m.intElem h t a n * m.intElem h t b n / (2 ^ Ty.bits t.toNat : Nat)) hint rfl fun _ => rfl,
    intLanes_completes (fun m n => min (m.intElem h t a n) (m.intElem h t b n)) hint rfl fun _ => rfl,
    intLanes_completes (fun m n => max (m.intElem h t a n) (m.intElem h t b n)) hint rfl fun _ => rfl,
    intLanes_completes (fun m n => |m.intElem h t a n|) hint rfl fun m => by rw [opVAbs_eq]; rfl,
    intLanes_completes (fun m n => -(m.intElem h t a n)) hint rfl fun _ => rfl⟩

/-! ### Logic, shifts, and the sign of floats (R147, R151, R153) -/

/-- A logic or shift operation, by the number it gives in a lane. -/
theorem vLogic_completes {s : State} {i : Instr} {h : VH} {t : BitVec 4} {d a b : BitVec 9} {f : Nat → Nat → Nat → Nat}
    (v : State → Nat → Nat) (he : exec i s = slotOp (Sys2Proof.vSlot h.f) i (fun m => vLogic m h t d a b f) s)
    (hv : ∀ m n, f (Ty.bits t.toNat) (m.elem h t a n) (m.elem h t b n) % 2 ^ Ty.bits t.toNat = v m n % 2 ^ Ty.bits t.toNat)
    (hi : s.mayIssue (Sys2Proof.vSlot h.f) i = true) :
    let m := s.meets (Sys2Proof.vSlot h.f) i
    Completes s (Sys2Proof.vSlot h.f) i [lanesWr m h d (Ty.bits t.toNat) 2 (v m)] [] :=
  plainLanes_completes v _ he (fun _ => rfl) (fun m n => (Nat.mod_mod ..).trans (hv m n)) hi

/-- A three-input table gives bit by bit what the table holds (R153). -/
theorem lop3N_eq (w a b c : Nat) (tab : BitVec 8) :
    lop3N w tab.toNat a b c = ofBools ((List.range w).map fun i =>
      tab.getLsbD (4 * b2n (a.testBit i) + 2 * b2n (b.testBit i) + b2n (c.testBit i))) := by
  refine Nat.eq_of_testBit_eq fun i => ?_
  rw [testBit_ofBools]
  by_cases hi : i < w
  · rw [testBit_lop3N w _ a b c i hi, List.getD_eq_getElem _ _ (by simpa using hi), List.getElem_map, List.getElem_range]
    rfl
  · rw [Nat.testBit_lt_two_pow ((lop3N_lt w _ a b c).trans_le (Nat.pow_le_pow_right (by decide) (Nat.le_of_not_lt hi))),
      List.getD_eq_default _ _ (by simpa using hi)]

/-- An operation on floats that raises no condition, by the bits it gives in a lane. -/
theorem fltLanes_completes {s : State} {i : Instr} {h : VH} {t : BitVec 4} {d : BitVec 9} {op : State → Out} {o : State → Out}
    (v : State → Nat → Nat) (hflt : Ty.isInt t.toNat = false) (he : exec i s = slotOp (Sys2Proof.vSlot h.f) i op s)
    (ho : ∀ m, op m = if Ty.isInt t.toNat then o m
      else vLanes m h d (Ty.bits t.toNat) 4 fun n => ⟨v m n, false, false, false, 0, 0⟩)
    (hi : s.mayIssue (Sys2Proof.vSlot h.f) i = true) :
    let m := s.meets (Sys2Proof.vSlot h.f) i
    Completes s (Sys2Proof.vSlot h.f) i [lanesWr m h d (Ty.bits t.toNat) 4 (v m)] [] :=
  plainLanes_completes v _ he (fun m => (ho m).trans (if_neg (Bool.eq_false_iff.1 hflt))) (fun _ _ => rfl) hi

/-- Minimum and maximum: the one operand or the other, by their order (R147). -/
theorem fMinMax_eq (t : Nat) (mx : Bool) (x y : Nat) :
    let f := fmtOf t
    let a := f.dec x
    let b := f.dec y
    fMinMax t mx x y = if a.isNan || b.isNan then f.qnan else if mx = (a.lt b || (a.eq b && a.isNeg && !b.isNeg)) then y else x := by
  intro f a b
  have hne (l : Bool) : (if l != mx then x else y) = if mx = l then y else x := by cases l <;> cases mx <;> rfl
  exact congrArg (fun z => if a.isNan || b.isNan then f.qnan else z) (hne _)

/-- Smaller or larger of two floats in a lane. -/
theorem vMinMax_completes {s : State} {i : Instr} {h : VH} {t : BitVec 4} {d a b : BitVec 9} (mx : Bool)
    (hflt : Ty.isInt t.toNat = false) (he : exec i s = slotOp (Sys2Proof.vSlot h.f) i (fun m => vMinMax m h t d a b mx) s)
    (hi : s.mayIssue (Sys2Proof.vSlot h.f) i = true) :
    let m := s.meets (Sys2Proof.vSlot h.f) i
    let less (x y : FV) : Bool := x.lt y || (x.eq y && x.isNeg && !y.isNeg)
    Completes s (Sys2Proof.vSlot h.f) i [lanesWr m h d (Ty.bits t.toNat) 4 fun n =>
      if (m.fltElem h t a n).isNan || (m.fltElem h t b n).isNan then (fmtOf t.toNat).qnan
      else if mx = less (m.fltElem h t a n) (m.fltElem h t b n) then m.elem h t b n else m.elem h t a n] [] := by
  have := fltLanes_completes (fun m n => fMinMax t.toNat mx (m.elem h t a n) (m.elem h t b n)) hflt he (fun _ => rfl) hi
  simp only [fMinMax_eq] at this
  exact this

/-- Settles O13: logic and shifts by their numbers, which fit their lanes; on floats the bits of an operand, the canonical
NaN, or a changed sign. -/
theorem vectorBitAndSignResults : Obligations.VectorBitAndSignResults := by
  refine ⟨fun s h t d a b c tab => ?_, fun s h t d a b rm hflt => ?_⟩
  · exact ⟨vLogic_completes (fun m n => m.elem h t a n &&& m.elem h t b n) rfl fun _ _ => rfl,
      vLogic_completes (fun m n => m.elem h t a n ||| m.elem h t b n) rfl fun _ _ => rfl,
      vLogic_completes (fun m n => m.elem h t a n ^^^ m.elem h t b n) rfl fun _ _ => rfl,
      vLogic_completes (fun m n => m.elem h t a n * 2 ^ (m.elem h t b n % Ty.bits t.toNat) % 2 ^ Ty.bits t.toNat) rfl
        fun _ _ => by rw [Nat.shiftLeft_eq, Nat.mod_mod],
      vLogic_completes (fun m n => m.elem h t a n / 2 ^ (m.elem h t b n % Ty.bits t.toNat)) rfl
        fun _ _ => by rw [Nat.shiftRight_eq_div_pow],
      vLogic_completes (fun m n => wrap (Ty.bits t.toNat) (sval (Ty.bits t.toNat) (m.elem h t a n) /
        (2 ^ (m.elem h t b n % Ty.bits t.toNat) : Nat))) rfl fun _ _ => rfl,
      plainLanes_completes (fun m n => ofBools ((List.range 32).map fun i => tab.getLsbD (4 * b2n ((m.elem h 4 a n).testBit i) +
          2 * b2n ((m.elem h 4 b n).testBit i) + b2n ((m.elem h 4 c n).testBit i))))
        (fun m n => lop3N 32 tab.toNat (m.elem h 4 a n) (m.elem h 4 b n) (m.elem h 4 c n)) rfl (fun _ => rfl)
        fun _ _ => by rw [lop3N_eq]⟩
  · exact ⟨vMinMax_completes false hflt rfl, vMinMax_completes true hflt rfl,
      fltLanes_completes (fun m n => if (m.fltElem h t a n).isNan then (fmtOf t.toNat).qnan
        else m.elem h t a n % 2 ^ ((fmtOf t.toNat).eb + (fmtOf t.toNat).fb)) hflt rfl fun _ => rfl,
      fltLanes_completes (fun m n => if (m.fltElem h t a n).isNan then (fmtOf t.toNat).qnan
        else m.elem h t a n ^^^ 2 ^ ((fmtOf t.toNat).eb + (fmtOf t.toNat).fb)) hflt rfl fun _ => rfl⟩

/-! ### Conditions over the lanes (R148) -/

/-- With no enabled condition, a lane-wise operation that counts nothing gives its active lanes and the sticky bits. -/
theorem vLanes_quiet {m : State} {h : VH} {d : BitVec 9} {e lat : Nat} {f : Nat → LaneR} (hc : ∀ i, (f i).sat = 0 ∧ (f i).rsv = 0)
    (hf : fpEnabled m.fmtW (m.someLane h e fun i => (f i).inv) (m.someLane h e fun i => (f i).dbz)
      (m.someLane h e fun i => (f i).ovf) = false) :
    vLanes m h d e lat f =
      { wrs := lanesWr m h d e lat (fun i => (f i).v) ::
          fpSticky (m.someLane h e fun i => (f i).inv) (m.someLane h e fun i => (f i).ovf) lat } := by
  rw [vLanes_eq]
  simp only [hf, fun i => (hc i).1, fun i => (hc i).2, overLanes_none, countWr_zero, List.append_nil]
  rfl

theorem someLane_of {m : State} {h : VH} {e l : Nat} {p : Nat → Bool} (hl : l < h.w.bits / e) (hs : m.laneSure h e l = true)
    (hp : p l = true) : m.someLane h e p = true :=
  List.any_eq_true.2 ⟨l, List.mem_range.2 hl, by rw [hs, hp]; rfl⟩

theorem fpEnabled_iff {w : Nat} {a b c : Bool} : fpEnabled w a b c = true ↔
    a = true ∧ bitAt w 19 = true ∨ b = true ∧ bitAt w 20 = true ∨ c = true ∧ bitAt w 21 = true := by
  simp [fpEnabled, or_assoc]

/-- An enabled condition of one lane that is active for certain is one of the operation. -/
theorem fpEnabled_someLane {m : State} {h : VH} {e l : Nat} {p q r : Nat → Bool} (hl : l < h.w.bits / e)
    (hs : m.laneSure h e l = true) (hf : fpEnabled m.fmtW (p l) (q l) (r l) = true) :
    fpEnabled m.fmtW (m.someLane h e p) (m.someLane h e q) (m.someLane h e r) = true := by
  rw [fpEnabled_iff] at hf ⊢
  exact hf.imp (And.imp_left (someLane_of hl hs)) (Or.imp (And.imp_left (someLane_of hl hs)) (And.imp_left (someLane_of hl hs)))

/-- The trap `FPX` of a lane-wise operation names its conditions and the lowest lane with an enabled one. -/
theorem vLanes_traps {m : State} {h : VH} {d : BitVec 9} {e lat l : Nat} {f : Nat → LaneR} (hl : l < h.w.bits / e)
    (hon : (m.laneSure h e l && fpEnabled m.fmtW (f l).inv (f l).dbz (f l).ovf) = true)
    (hlow : ∀ i, i < l → (m.laneSure h e i && fpEnabled m.fmtW (f i).inv (f i).dbz (f i).ovf) = false) :
    vLanes m h d e lat f = Out.mkTrap 7 (vSlot h.f) (b2n (m.someLane h e fun i => (f i).inv) +
      2 * b2n (m.someLane h e fun i => (f i).dbz) + 4 * b2n (m.someLane h e fun i => (f i).ovf) + 2 ^ 8 * l) := by
  obtain ⟨hs, hf⟩ := Bool.and_eq_true_iff.1 hon
  rw [vLanes_eq]
  dsimp only
  rw [if_pos (fpEnabled_someLane hl hs hf), lowest_map _ l _ hl hon hlow]

/-- A float operation, by the value it rounds in each lane: no enabled condition (R147, R148, R151). -/
theorem fLanes_completes {s : State} {i : Instr} {h : VH} {t : BitVec 4} {d : BitVec 9} {rm : BitVec 3} {op : State → Out}
    (v : State → Nat → Nat → FV × Bool) (he : exec i s = slotOp (Sys2Proof.vSlot h.f) i op s)
    (ho : ∀ m, op m = vLanes m h d (Ty.bits t.toNat) 4 fun n =>
      fLane t.toNat (rmode rm.toNat m.fmtRm) (v m (rmode rm.toNat m.fmtRm) n)) :
    let e := Ty.bits t.toNat
    let m := s.meets (Sys2Proof.vSlot h.f) i
    let x (n : Nat) := v m (rmode rm.toNat m.fmtRm) n
    let r (n : Nat) := (fmtOf t.toNat).round .arith false (rmode rm.toNat m.fmtRm) (x n).1
    let inv := m.someLane h e fun n => (x n).2
    let ovf := m.someLane h e fun n => (r n).ovf
    s.mayIssue (Sys2Proof.vSlot h.f) i = true → fpEnabled m.fmtW inv false ovf = false →
      Completes s (Sys2Proof.vSlot h.f) i (lanesWr m h d e 4 (fun n => (r n).bits) :: fpSticky inv ovf 4) [] := by
  intro e m x r inv ovf hi hf
  have hq : fpEnabled m.fmtW inv (m.someLane h e fun _ => false) ovf = false := by rwa [someLane_none]
  exact he.trans (slotOp_out hi ((ho m).trans (vLanes_quiet
    (f := fun n => fLane t.toNat (rmode rm.toNat m.fmtRm) (x n)) (fun _ => ⟨rfl, rfl⟩) hq)))

/-- The same with an enabled condition: the trap. -/
theorem fLanes_traps {s : State} {i : Instr} {h : VH} {t : BitVec 4} {d : BitVec 9} {rm : BitVec 3} {op : State → Out} {l : Nat}
    (v : State → Nat → Nat → FV × Bool) (he : exec i s = slotOp (Sys2Proof.vSlot h.f) i op s)
    (ho : ∀ m, op m = vLanes m h d (Ty.bits t.toNat) 4 fun n =>
      fLane t.toNat (rmode rm.toNat m.fmtRm) (v m (rmode rm.toNat m.fmtRm) n)) :
    let e := Ty.bits t.toNat
    let m := s.meets (Sys2Proof.vSlot h.f) i
    let x (n : Nat) := v m (rmode rm.toNat m.fmtRm) n
    let r (n : Nat) := (fmtOf t.toNat).round .arith false (rmode rm.toNat m.fmtRm) (x n).1
    let on (n : Nat) : Bool := m.laneSure h e n && fpEnabled m.fmtW (x n).2 false (r n).ovf
    s.mayIssue (Sys2Proof.vSlot h.f) i = true → l < h.w.bits / e → on l = true → (∀ n, n < l → on n = false) →
      Traps s (Sys2Proof.vSlot h.f) i
        { cause := 7, slot := Machine.vSlot h.f,
          info := b2n (m.someLane h e fun n => (x n).2) + 4 * b2n (m.someLane h e fun n => (r n).ovf) + 2 ^ 8 * l } := by
  intro e m x r on hi hl hon hlow
  have hv := (ho m).trans (vLanes_traps hl hon hlow)
  have hz : m.someLane h e (fun n => (fLane t.toNat (rmode rm.toNat m.fmtRm) (x n)).dbz) = false := someLane_none ..
  rw [hz] at hv
  exact he.trans (slotOp_traps hi (congrArg Out.trap hv) (congrArg Out.stall hv))

/-- `add`, `sub` and `mul` on floats are lane-wise. -/
theorem vBin_flt {m : State} {h : VH} {t : BitVec 4} {d a b : BitVec 9} {rm : BitVec 3} {sat : Bool} {fi : Int → Int → Int}
    {ff : Nat → FV → FV → FV × Bool} (hflt : Ty.isInt t.toNat = false) :
    vBin m h t d a b rm sat fi ff = vLanes m h d (Ty.bits t.toNat) 4 fun n =>
      fLane t.toNat (rmode rm.toNat m.fmtRm) (ff (rmode rm.toNat m.fmtRm) (m.fltElem h t a n) (m.fltElem h t b n)) :=
  if_neg (Bool.eq_false_iff.1 hflt)

/-- Settles O14: each operation by the exact value it rounds in a lane. -/
theorem vectorFloatResultsAndTraps : Obligations.VectorFloatResultsAndTraps := by
  refine ⟨fun s h t d a b c rm hflt => ?_, fun s h t d a b rm l hflt => ?_⟩
  · exact ⟨fLanes_completes (fun m q n => FV.add q (m.fltElem h t a n) (m.fltElem h t b n)) rfl fun _ => vBin_flt hflt,
      fLanes_completes (fun m q n => FV.add q (m.fltElem h t a n) (m.fltElem h t b n).neg) rfl fun _ => vBin_flt hflt,
      fLanes_completes (fun m _ n => (m.fltElem h t a n).mul (m.fltElem h t b n)) rfl fun _ => vBin_flt hflt,
      fLanes_completes (fun m q n => FV.fmaV q (m.fltElem h t a n) (m.fltElem h t b n) (m.fltElem h t c n)) rfl fun _ => rfl,
      fLanes_completes (fun m q n => FV.fmaV q (m.fltElem h t a n) (m.fltElem h t b n) (m.fltElem h t c n).neg) rfl fun _ => rfl,
      fLanes_completes (fun m q n => FV.fmaV q (m.fltElem h t a n).neg (m.fltElem h t b n) (m.fltElem h t c n)) rfl fun _ => rfl⟩
  · exact ⟨fLanes_traps (fun m q n => FV.add q (m.fltElem h t a n) (m.fltElem h t b n)) rfl fun _ => vBin_flt hflt,
      fLanes_traps (fun m q n => FV.add q (m.fltElem h t a n) (m.fltElem h t b n).neg) rfl fun _ => vBin_flt hflt,
      fLanes_traps (fun m _ n => (m.fltElem h t a n).mul (m.fltElem h t b n)) rfl fun _ => vBin_flt hflt⟩

/-! ### The special functions, function by function (Table 06-3) -/

section
variable {n : Bool} {m : Nat} (hm : m ≠ 0) (e : Int) (t : Nat) (pick : Int)
include hm

/-! An operand that is not zero. -/

theorem special_rcp : special 0 t (.fin n m e) pick =
    (if m = 2 ^ Nat.log2 m then .fin n 1 (-((Nat.log2 m : Int) + e))
      else pickNear (fmtOf t) (if t = 10 then 1 else 1) none
        (.fin n (2 ^ (fxP + Nat.log2 m) / m) (-((fxP : Int) + Nat.log2 m) - e)) pick, false, false) :=
  if_neg hm

/-- The operand of `rsq` with an even exponent. -/
def evenMant (m : Nat) (e : Int) : Nat := if e % 2 = 0 then m else 2 * m
def evenExp (e : Int) : Int := if e % 2 = 0 then e else e - 1

theorem special_rsq : special 1 t (.fin n m e) pick =
    if n then (.nan, true, false) else
      (if evenMant m e = 2 ^ Nat.log2 (evenMant m e) ∧ Nat.log2 (evenMant m e) % 2 = 0 then
        .fin false 1 (-((Nat.log2 (evenMant m e) : Int) + evenExp e) / 2)
      else pickNear (fmtOf t) (if t = 10 then 1 else 1) none
        (.fin false (isqrt 120 (2 ^ 220 / evenMant m e) 0) (-110 - evenExp e / 2)) pick, false, false) :=
  if_neg hm

/-- The operand of `exp2` in fixed point, cut where the result is out of every range. -/
def exp2Arg (n : Bool) (m : Nat) (e : Int) : Int :=
  if 2 ^ 12 ≤ m ∧ (0 : Int) ≤ e ∨ 12 < (Nat.log2 m : Int) + e then (if n then -(2 ^ 12 * fxOne : Int) else 2 ^ 12 * fxOne)
  else toFx (.fin n m e)

theorem special_exp2 : special 2 t (.fin n m e) pick =
    (if 0 ≤ e ∨ m % 2 ^ (-e).toNat = 0 then .fin false 1 (exp2Arg n m e / (fxOne : Int))
      else pickNear (fmtOf t) (if t = 10 then 2 else 1) none
        (.fin false (expFrac ((exp2Arg n m e - exp2Arg n m e / (fxOne : Int) * fxOne).toNat * fxLn2 / fxOne))
          (exp2Arg n m e / (fxOne : Int) - fxP)) pick, false, false) :=
  if_neg hm

theorem special_log2 : special 3 t (.fin n m e) pick =
    if n then (.nan, true, false)
    else if m = 2 ^ Nat.log2 m then (ofInt ((Nat.log2 m : Int) + e) 0 false, false, false)
    else (pickNear (fmtOf t) (if t = 10 then 2 else 1)
      (if (decide (-1 ≤ (Nat.log2 m : Int) + e) && decide ((Nat.log2 m : Int) + e < 1)) ∧ t = 10 then some (-22) else none)
      (ofInt (log2Fx m e) (-(logN : Int)) false) pick, false, false) :=
  if_neg hm

/-- The value around which `tanh` is chosen: just below the operand where that is small, else from e^2x. -/
def tanhNear (n : Bool) (m : Nat) (e : Int) : FV :=
  if (Nat.log2 m : Int) + e < -13 then .fin n (m * 2 ^ 40 - 1) (e - 40)
  else
    let ex := (expFx (if 6 ≤ (Nat.log2 m : Int) + e then 2 ^ 7 * (fxOne : Int) else 2 * toFx (FV.fin n m e).abs)).at (-(fxP : Int))
    .fin n ((ex - fxOne).toNat * fxOne / (ex + fxOne).toNat) (-(fxP : Int))

theorem special_tanh : special 4 t (.fin n m e) pick =
    (pickNear (fmtOf t) (if t = 10 then 2 else 1) none (tanhNear n m e) pick, false, false) := by
  unfold tanhNear
  by_cases hv : (Nat.log2 m : Int) + e < -13
  · rw [if_pos hv]
    exact (if_neg hm).trans <| (if_neg nofun).trans <| (if_neg nofun).trans <| (if_neg nofun).trans <| (if_neg nofun).trans <|
      (if_pos rfl).trans (if_pos hv)
  · rw [if_neg hv]
    exact (if_neg hm).trans <| (if_neg nofun).trans <| (if_neg nofun).trans <| (if_neg nofun).trans <| (if_neg nofun).trans <|
      (if_pos rfl).trans (if_neg hv)

/-- The denominator of `silu` in fixed point, 600 fraction bits, without its 1. -/
def siluExp (n : Bool) (m : Nat) (e : Int) : Nat :=
  ((expFx (let y := if 8 ≤ (Nat.log2 m : Int) + e then 2 ^ 8 * (fxOne : Int) else toFx (.fin false m e)
    if n then y else -y)).at (-600)).toNat

theorem special_silu : special 5 t (.fin n m e) pick =
    (pickNear (fmtOf t) (if t = 10 then 3 else 1) none
      (.fin n (m * 2 ^ 1200 / (2 ^ 600 + siluExp n m e)) (e - 600)) pick, false, false) :=
  if_neg hm

/-- The value around which `softplus` is chosen. -/
def softplusNear (n : Bool) (m : Nat) (e : Int) : FV :=
  if 6 ≤ (Nat.log2 m : Int) + e then
    if n then expFx (if 9 ≤ (Nat.log2 m : Int) + e then -(2 ^ 9 * (fxOne : Int)) else toFx (.fin n m e)) else .fin n m e
  else if n ∧ 5 ≤ (Nat.log2 m : Int) + e then expFx (toFx (.fin n m e))
  else ofInt (log2Fx (((expFx (toFx (.fin n m e))).at (-400)).toNat + 2 ^ 400) (-400) * (fxLn2 : Int)) (-(logN : Int) - fxP) false

theorem special_softplus (k : Nat) : special (k + 6) t (.fin n m e) pick =
    (pickNear (fmtOf t) (if t = 10 then 3 else 1) none (softplusNear n m e) pick, false, false) := by
  unfold softplusNear
  by_cases hv : 6 ≤ (Nat.log2 m : Int) + e
  · rw [if_pos hv]
    refine (if_neg hm).trans <| (if_neg nofun).trans <| (if_neg nofun).trans <| (if_neg nofun).trans <| (if_neg nofun).trans <|
      (if_neg nofun).trans <| (if_neg nofun).trans <| (if_pos hv).trans ?_
    cases n <;> rfl
  · rw [if_neg hv]
    exact (if_neg hm).trans <| (if_neg nofun).trans <| (if_neg nofun).trans <| (if_neg nofun).trans <| (if_neg nofun).trans <|
      (if_neg nofun).trans <| (if_neg nofun).trans (if_neg hv)

end

/-- Which operands of a special function are invalid, and which divide by zero (R148). -/
theorem special_conditions (op t : Nat) (v : FV) (pick : Int) :
    (special op t v pick).2.1 = ((op == 1 || op == 3) && v.isNeg && !v.isZero) ∧
    (special op t v pick).2.2 = ((op == 0 || op == 1 || op == 3) && v.isZero) := by
  rcases v with _ | n | ⟨n, m, e⟩
  · simp [special, FV.isNeg, FV.isZero]
  · rcases op with _|_|_|_|_|_|op <;> cases n <;> exact ⟨rfl, rfl⟩
  · by_cases hm : m = 0
    · subst hm
      rcases op with _|_|_|_|_|_|op <;> cases n <;> exact ⟨rfl, rfl⟩
    · have hz : (FV.fin n m e).isZero = false := by simp [FV.isZero, hm]
      rw [hz]
      rcases op with _|_|_|_|_|_|op
      · rw [special_rcp hm]; exact ⟨rfl, rfl⟩
      · rw [special_rsq hm]; cases n <;> exact ⟨rfl, rfl⟩
      · rw [special_exp2 hm]; exact ⟨rfl, rfl⟩
      · rw [special_log2 hm]; cases n
        · by_cases hl : m = 2 ^ Nat.log2 m
          · rw [if_neg Bool.false_ne_true, if_pos hl]; exact ⟨rfl, rfl⟩
          · rw [if_neg Bool.false_ne_true, if_neg hl]; exact ⟨rfl, rfl⟩
        · exact ⟨rfl, rfl⟩
      · rw [special_tanh hm]; exact ⟨rfl, rfl⟩
      · rw [special_silu hm]; exact ⟨rfl, rfl⟩
      · rw [special_softplus hm]; exact ⟨rfl, rfl⟩

/-! ### Special functions and conversions (R148, R152, R156) -/

/-- A special function completes, by the values of its lanes. -/
theorem vSpecial_completes {s : State} {i : Instr} {h : VH} {t : BitVec 4} {d a : BitVec 9} (op : Nat)
    (he : exec i s = slotOp (Sys2Proof.vSlot h.f) i (fun m => vSpecial m h t d a op) s) :
    let e := Ty.bits t.toNat
    let m := s.meets (Sys2Proof.vSlot h.f) i
    let x (n : Nat) := (special op t.toNat (m.fltElem h t a n) (Config.specialPick op t.toNat (m.elem h t a n))).1
    let r (n : Nat) := (fmtOf t.toNat).round .arith false 0 (x n)
    let inv := m.someLane h e fun n =>
      (op == 1 || op == 3) && (m.fltElem h t a n).isNeg && !(m.fltElem h t a n).isZero
    let dbz := m.someLane h e fun n => (op == 0 || op == 1 || op == 3) && (m.fltElem h t a n).isZero
    let ovf := m.someLane h e fun n => (r n).ovf
    s.mayIssue (Sys2Proof.vSlot h.f) i = true →
      (bitAt m.fmtW 21 = false ∨ ovf = false) → fpEnabled m.fmtW inv dbz false = false →
      Completes s (Sys2Proof.vSlot h.f) i (lanesWr m h d e 8 (fun n => (r n).bits) :: fpSticky inv ovf 8) [] := by
  intro e m x r inv dbz ovf hi ho hf
  let p (n : Nat) : FV × Bool × Bool := special op t.toNat (m.fltElem h t a n) (Config.specialPick op t.toNat (m.elem h t a n))
  have hinv : inv = m.someLane h e fun n => (p n).2.1 := by simp only [p, special_conditions, inv]
  have hdbz : dbz = m.someLane h e fun n => (p n).2.2 := by simp only [p, special_conditions, dbz]
  have hall : fpEnabled m.fmtW inv dbz ovf = false := by
    simp only [fpEnabled, Bool.or_eq_false_iff, Bool.and_eq_false_iff] at hf ⊢
    exact ⟨hf.1, ho.symm⟩
  rw [hinv, hdbz] at hall
  rw [hinv]
  exact he.trans (slotOp_out hi (vLanes_quiet (f := fun n => ⟨(r n).bits, (p n).2.1, (p n).2.2, (r n).ovf, 0, 0⟩)
    (fun _ => ⟨rfl, rfl⟩) hall))

theorem toNat_beq_13 (x : BitVec 4) : (x.toNat == 13) = (x == 13) := by
  rw [Bool.eq_iff_iff, beq_iff_eq, beq_iff_eq, ← BitVec.toNat_inj]; rfl

/-- A conversion decides its lanes, its saturations and its reserved codes. -/
theorem opVCvt_eq (h : VH) (src tt : BitVec 4) (d a : BitVec 9) (q : BitVec 5) (rm : BitVec 3) (m : State) :
    let es := Ty.bits src.toNat
    let et := Ty.bits tt.toNat
    let wide := max es et
    let n := h.w.bits / wide
    let from_ (l : Nat) : Nat := m.elem h src a (if es < et then q.toNat * n + l else l)
    let r (l : Nat) := convTo tt.toNat (rmode rm.toNat m.fmtRm) (elemVal src.toNat (from_ l))
    let sh := if et < es then q.toNat * n * et else 0
    opVCvt h src tt d a q rm m =
      { wrs :=
          { dest := .v h.f d.toNat, mask := row (laneMask et (active m h n) <<< sh),
            val := row (ofLanes et ((List.range n).map fun l => if m.laneOn h wide l then (r l).1 else 0) <<< sh), lat := 4,
            port := .owner } ::
          countWr .satcAdd (m.overLanes h wide fun l => b2n (r l).2) 4 ++
          countWr .rsvcAdd (m.overLanes h wide fun l => b2n (src == 13 && from_ l == 2)) 4 } := by
  intro es et wide n from_ r sh
  let f (l : Nat) : LaneR := cvtLane src.toNat tt.toNat (rmode rm.toNat m.fmtRm) (from_ l)
  have hv : (lanesIn (active m h n) n f).map (·.v) = (List.range n).map fun l => if m.laneOn h wide l then (r l).1 else 0 := by
    rw [lanesIn, List.map_map]
    refine List.map_congr_left fun l _ => ?_
    exact apply_ite LaneR.v _ _ _
  have hs := sum_lanes m h wide f (·.sat) rfl
  have hr := sum_lanes m h wide f (·.rsv) rfl
  simp only [← toNat_beq_13]
  rw [← hv, show (m.overLanes h wide fun l => b2n (r l).2) = _ from hs.symm,
    show (m.overLanes h wide fun l => b2n (src.toNat == 13 && from_ l == 2)) = _ from hr.symm]
  rfl

/-- Settles O16: the special functions by the values of their lanes, `cvt` by what it decides. -/
theorem vectorSpecialAndConvertResults : Obligations.VectorSpecialAndConvertResults := by
  refine ⟨fun s h t d a rm => ?_, fun s h src tt d a q rm hi => ?_⟩
  · exact ⟨vSpecial_completes 0 rfl, vSpecial_completes 1 rfl, vSpecial_completes 2 rfl, vSpecial_completes 3 rfl,
      vSpecial_completes 4 rfl, vSpecial_completes 5 rfl, vSpecial_completes 6 rfl⟩
  · exact slotOp_out (f := opVCvt h src tt d a q rm) hi (opVCvt_eq ..)

/-! ### Compares, `any` and `all` (R146, R157 to R159) -/

/-- The condition of a compare in lane n, on integers or on floats. -/
def State.laneCond (m : State) (h : VH) (t : BitVec 4) (a b : BitVec 9) (c n : Nat) : Bool :=
  if Ty.isInt t.toNat then icond c (m.intElem h t a n) (m.intElem h t b n) else fcond c (m.fltElem h t a n) (m.fltElem h t b n)

theorem vConds_eq (m : State) (h : VH) (t : BitVec 4) (a b : BitVec 9) (c : Nat) :
    vConds m h t a b c = (List.range (h.w.bits / Ty.bits t.toNat)).map (m.laneCond h t a b c) := by
  unfold vConds State.laneCond
  cases Ty.isInt t.toNat <;> rfl

theorem length_active (m : State) (h : VH) (n : Nat) : (active m h n).length = n := length_activeIn ..

/-- A list over lanes beside one of their flags, put together lane by lane. -/
theorem map_zip_range {α : Type} (n : Nat) (p : Nat → Bool) (l : List Bool) (hl : l.length = n) (g : Bool → Bool → α) :
    ((((List.range n).map p).zip l).map fun x => g x.1 x.2) = (List.range n).map fun i => g (p i) (l.getD i false) := by
  refine List.ext_getElem (by simp [hl]) fun i h1 h2 => ?_
  have hi : i < l.length := by simp at h1; omega
  simp [List.getElem?_eq_getElem hi]

/-- A compare writes the mask of its lanes. -/
theorem vCmpMask_eq (m : State) (h : VH) (t k : BitVec 4) (a b : BitVec 9) (c : Nat) :
    vCmpMask m h t k a b c = { wrs := [wholeWr (.mask h.f k.toNat) 128
      (m.maskOf h (Ty.bits t.toNat) (m.laneCond h t a b c)) (if Ty.isInt t.toNat then 2 else 4)] } := by
  simp only [vCmpMask, vConds_eq, List.length_map, List.length_range]
  rw [map_zip_range _ _ _ (length_active ..) (· && ·)]
  rfl

theorem vCmpMask_completes {s : State} {i : Instr} {h : VH} {t k : BitVec 4} {a b : BitVec 9} {c : Nat}
    (he : exec i s = slotOp (Sys2Proof.vSlot h.f) i (fun m => vCmpMask m h t k a b c) s)
    (hi : s.mayIssue (Sys2Proof.vSlot h.f) i = true) :
    let m := s.meets (Sys2Proof.vSlot h.f) i
    Completes s (Sys2Proof.vSlot h.f) i [wholeWr (.mask h.f k.toNat) 128
      (m.maskOf h (Ty.bits t.toNat) (m.laneCond h t a b c)) (if Ty.isInt t.toNat then 2 else 4)] [] :=
  he.trans (slotOp_out hi (vCmpMask_eq ..))

/-- The active lanes: those below the lane count whose mask bit is set. -/
theorem any_active (m : State) (h : VH) (e : Nat) (p : Nat → Bool) :
    ((List.range (h.w.bits / e)).filter fun i => (active m h (h.w.bits / e)).getD i false).any p = m.anyLane h e p :=
  List.any_filter ..

theorem all_active (m : State) (h : VH) (e : Nat) (p : Nat → Bool) :
    ((List.range (h.w.bits / e)).filter fun i => (active m h (h.w.bits / e)).getD i false).all p =
      !m.anyLane h e fun n => !p n := by
  rw [← any_active, List.all_eq_not_any_not]

theorem opVAny_eq (h : VH) (t k : BitVec 4) (m : State) : opVAny h t k m =
    { acts := [.cqPush (m.anyLane h (Ty.bits t.toNat) fun n => bitAt (m.rd (vSlot h.f) (.mask h.f k.toNat)) n) 2] } := by
  rw [← any_active]
  rfl

theorem opVAll_eq (h : VH) (t k : BitVec 4) (m : State) : opVAll h t k m =
    { acts := [.cqPush (!m.anyLane h (Ty.bits t.toNat) fun n => !bitAt (m.rd (vSlot h.f) (.mask h.f k.toNat)) n) 2] } := by
  rw [← all_active]
  rfl

/-! A uniform compare, by its lanes. -/

theorem length_sure (m : State) (h : VH) (n : Nat) : (sure m h n).length = n := by
  unfold sure
  split <;> simp

/-- A lane that is active for certain is active. -/
theorem laneOn_of_laneSure {m : State} {h : VH} {e n : Nat} (hs : m.laneSure h e n = true) : m.laneOn h e n = true := by
  have hn : n < h.w.bits / e := by
    by_contra hn
    rw [State.laneSure, List.getD_eq_default _ _ (by rw [length_sure]; omega)] at hs
    exact Bool.false_ne_true hs
  rw [State.laneSure, sure] at hs
  rw [State.laneOn, active, activeIn]
  by_cases hm : h.m = 0
  · rw [if_pos hm] at hs ⊢
    exact hs
  · rw [if_neg hm] at hs ⊢
    rw [List.getD_eq_getElem _ _ (by simpa using hn)] at hs ⊢
    simp only [List.getElem_map, List.getElem_range, Bool.and_eq_true] at hs ⊢
    exact hs.1

/-- What a uniform compare decides: the trap when lanes active for certain disagree, else the value for `cq` (R158). -/
theorem vCmpU_eq (m : State) (h : VH) (t : BitVec 4) (a b : BitVec 9) (c : Nat) :
    let e := Ty.bits t.toNat
    let p := m.laneCond h t a b c
    vCmpU m h t a b c =
      if m.someLane h e p && m.someLane h e (fun n => !p n) then
        Out.mkTrap 6 (vSlot h.f) (lowest ((List.range (h.w.bits / e)).map fun n => !p n && m.laneSure h e n) +
          2 ^ 8 * lowest ((List.range (h.w.bits / e)).map fun n => p n && m.laneSure h e n))
      else Out.act [.cqPush (m.anyLane h e p) (if Ty.isInt t.toNat then 2 else 4)] := by
  intro e p
  have hany (l : List Bool) (hl : l.length = h.w.bits / e) :
      ((((List.range (h.w.bits / e)).map p).zip l).any fun x => x.1 && x.2) =
        (List.range (h.w.bits / e)).any fun n => l.getD n false && p n := by
    have hz := congrArg (List.any · id) (map_zip_range _ p l hl (· && ·))
    rw [List.any_map, List.any_map] at hz
    refine hz.trans ?_
    simp only [Function.comp_def, id, Bool.and_comm]
  have hsome (q : Nat → Bool) :
      m.someLane h e q = (List.range (h.w.bits / e)).any fun n => q n && m.laneSure h e n := by
    simp only [State.someLane, Bool.and_comm]
  rw [hsome, hsome]
  simp only [vCmpU, vConds_eq, List.length_map, List.length_range]
  rw [map_zip_range _ _ _ (length_sure ..) (· && ·), map_zip_range _ _ _ (length_sure ..) (!· && ·),
    hany _ (length_active ..), List.any_map, List.any_map]
  rfl

/-- Lanes that agree give their value. -/
theorem vCmpU_agree {m : State} {h : VH} {t : BitVec 4} {a b : BitVec 9} {c : Nat} {v : Bool}
    (hv : ∀ n, n < h.w.bits / Ty.bits t.toNat → m.laneOn h (Ty.bits t.toNat) n = true → m.laneCond h t a b c n = v)
    (ht : v = true → m.anyLane h (Ty.bits t.toNat) (fun _ => true) = true) :
    vCmpU m h t a b c = Out.act [.cqPush v (if Ty.isInt t.toNat then 2 else 4)] := by
  have hsure {q : Nat → Bool} (hs : m.someLane h (Ty.bits t.toNat) q = true) :
      ∃ n, q n = true ∧ m.laneCond h t a b c n = v := by
    obtain ⟨n, hn, hq⟩ := List.any_eq_true.1 hs
    obtain ⟨hs, hq⟩ := Bool.and_eq_true_iff.1 hq
    exact ⟨n, hq, hv n (List.mem_range.1 hn) (laneOn_of_laneSure hs)⟩
  have hagree : ¬(m.someLane h (Ty.bits t.toNat) (m.laneCond h t a b c) &&
      m.someLane h (Ty.bits t.toNat) (fun n => !m.laneCond h t a b c n)) = true := by
    intro hb
    obtain ⟨h1, h0⟩ := Bool.and_eq_true_iff.1 hb
    obtain ⟨i, hi, hiv⟩ := hsure h1
    obtain ⟨j, hj, hjv⟩ := hsure h0
    rw [hiv] at hi
    rw [hjv, hi] at hj
    exact Bool.false_ne_true hj
  have hval : m.anyLane h (Ty.bits t.toNat) (m.laneCond h t a b c) = v := by
    rw [Bool.eq_iff_iff]
    refine ⟨fun ha => ?_, fun hvt => ?_⟩
    · obtain ⟨n, hn, hc⟩ := List.any_eq_true.1 ha
      obtain ⟨ho, hc⟩ := Bool.and_eq_true_iff.1 hc
      rw [← hv n (List.mem_range.1 hn) ho, hc]
    · obtain ⟨n, hn, ho⟩ := List.any_eq_true.1 (ht hvt)
      rw [Bool.and_true] at ho
      exact List.any_eq_true.2 ⟨n, hn, by rw [ho, hv n (List.mem_range.1 hn) ho, hvt]; rfl⟩
  rw [vCmpU_eq, if_neg hagree, hval]

/-- Lanes active for certain that disagree give the trap, with the lowest lane of either value. -/
theorem vCmpU_traps {m : State} {h : VH} {t : BitVec 4} {a b : BitVec 9} {c l0 l1 : Nat} (hl0 : l0 < h.w.bits / Ty.bits t.toNat)
    (hl1 : l1 < h.w.bits / Ty.bits t.toNat) (hs0 : m.laneSure h (Ty.bits t.toNat) l0 = true)
    (hs1 : m.laneSure h (Ty.bits t.toNat) l1 = true) (h0 : m.laneCond h t a b c l0 = false) (h1 : m.laneCond h t a b c l1 = true)
    (hlow0 : ∀ n, n < l0 → m.laneSure h (Ty.bits t.toNat) n = true → m.laneCond h t a b c n = true)
    (hlow1 : ∀ n, n < l1 → m.laneSure h (Ty.bits t.toNat) n = true → m.laneCond h t a b c n = false) :
    vCmpU m h t a b c = Out.mkTrap 6 (vSlot h.f) (l0 + 2 ^ 8 * l1) := by
  have hd : (m.someLane h (Ty.bits t.toNat) (m.laneCond h t a b c) &&
      m.someLane h (Ty.bits t.toNat) (fun n => !m.laneCond h t a b c n)) = true := by
    rw [someLane_of hl1 hs1 h1, someLane_of hl0 hs0 (by rw [h0]; rfl)]
    rfl
  rw [vCmpU_eq, if_pos hd, lowest_map _ l0 _ hl0 (by rw [h0, hs0]; rfl), lowest_map _ l1 _ hl1 (by rw [h1, hs1]; rfl)]
  · intro n hn
    cases hs : m.laneSure h (Ty.bits t.toNat) n
    · exact Bool.and_false _
    · rw [hlow1 n hn hs]; rfl
  · intro n hn
    cases hs : m.laneSure h (Ty.bits t.toNat) n
    · exact Bool.and_false _
    · rw [hlow0 n hn hs]; rfl

/-- A uniform compare in both its outcomes. -/
theorem vCmpU_completes_or_traps {s : State} {i : Instr} {h : VH} {t : BitVec 4} {a b : BitVec 9} (c : Nat)
    (he : exec i s = slotOp (Sys2Proof.vSlot h.f) i (fun m => vCmpU m h t a b c) s)
    (hi : s.mayIssue (Sys2Proof.vSlot h.f) i = true) :
    let e := Ty.bits t.toNat
    let m := s.meets (Sys2Proof.vSlot h.f) i
    let p := m.laneCond h t a b c
    (∀ v, (∀ n, n < h.w.bits / e → m.laneOn h e n = true → p n = v) → (v = true → m.anyLane h e fun _ => true) →
      Completes s (Sys2Proof.vSlot h.f) i [] [.cqPush v (if Ty.isInt t.toNat then 2 else 4)]) ∧
    (∀ l0 l1, l0 < h.w.bits / e → l1 < h.w.bits / e → m.laneSure h e l0 = true → m.laneSure h e l1 = true →
      p l0 = false → p l1 = true → (∀ n, n < l0 → m.laneSure h e n = true → p n = true) →
      (∀ n, n < l1 → m.laneSure h e n = true → p n = false) →
      Traps s (Sys2Proof.vSlot h.f) i { cause := 6, slot := Machine.vSlot h.f, info := l0 + 2 ^ 8 * l1 }) := by
  refine ⟨fun v hv ht => he.trans (slotOp_out hi (vCmpU_agree hv ht)), fun l0 l1 hl0 hl1 hs0 hs1 h0 h1 hlow0 hlow1 => ?_⟩
  have ho := vCmpU_traps hl0 hl1 hs0 hs1 h0 h1 hlow0 hlow1
  exact he.trans (slotOp_traps hi (congrArg Out.trap ho) (congrArg Out.stall ho))

/-- Settles O17: each compare by the condition of its lanes. -/
theorem vectorCompareResults : Obligations.VectorCompareResults := by
  refine ⟨fun s h t k a b rm => ?_, fun s h t a b rm => ?_⟩
  · exact ⟨vCmpMask_completes rfl, vCmpMask_completes rfl, vCmpMask_completes rfl, vCmpMask_completes rfl,
      vCmpMask_completes rfl, vCmpMask_completes rfl, vCmpMask_completes rfl,
      fun hi => slotOp_out (f := opVAny h t k) hi (opVAny_eq ..), fun hi => slotOp_out (f := opVAll h t k) hi (opVAll_eq ..)⟩
  · exact ⟨vCmpU_completes_or_traps 0 rfl, vCmpU_completes_or_traps 1 rfl, vCmpU_completes_or_traps 2 rfl,
      vCmpU_completes_or_traps 3 rfl, vCmpU_completes_or_traps 4 rfl, vCmpU_completes_or_traps 5 rfl,
      vCmpU_completes_or_traps 6 rfl⟩

/-! ### Selections, moves and the spill window (R160 to R168) -/

/-- An operation that moves lanes unchanged, by where each comes from. -/
theorem vMoveLanes_completes {s : State} {i : Instr} {h : VH} {t : BitVec 4} {d : BitVec 9} {lat : Nat} {op : State → Out}
    (v : State → Nat → Nat) (he : exec i s = slotOp (Sys2Proof.vSlot h.f) i op s)
    (ho : ∀ m, op m = vMoveLanes m h t d lat fun _ => v m) (hi : s.mayIssue (Sys2Proof.vSlot h.f) i = true) :
    let m := s.meets (Sys2Proof.vSlot h.f) i
    Completes s (Sys2Proof.vSlot h.f) i [lanesWr m h d (Ty.bits t.toNat) lat (v m)] [] :=
  plainLanes_completes v _ he ho (fun _ _ => rfl) hi

/-- Settles O18: each operation by the element it moves into a lane. -/
theorem vectorMoveResults : Obligations.VectorMoveResults := by
  intro s h t d a b c k ms e n put pair
  exact ⟨vMoveLanes_completes (fun m i =>
      if bitAt (m.rd (Machine.vSlot h.f) (.mask h.f ms.toNat)) i then m.elem h t a i else m.elem h t b i) rfl fun _ => rfl,
    vMoveLanes_completes (fun m i => pair m (m.elem h t c i % (2 * n))) rfl fun _ => rfl,
    vMoveLanes_completes (fun m i => m.elem h t a (n - 1 - i)) rfl fun _ => rfl,
    vMoveLanes_completes (fun m i => if i % 2 = 0 then m.elem h t a (i / 2) else m.elem h t b (i / 2)) rfl fun _ => rfl,
    vMoveLanes_completes (fun m i => if i % 2 = 0 then m.elem h t a (n / 2 + i / 2) else m.elem h t b (n / 2 + i / 2)) rfl
      fun _ => rfl,
    vMoveLanes_completes (fun m i => pair m (2 * i)) rfl fun _ => rfl,
    vMoveLanes_completes (fun m i => pair m (2 * i + 1)) rfl fun _ => rfl,
    vMoveLanes_completes (fun m i => m.elem h t a ((i + k.toNat) % n)) rfl fun _ => rfl,
    vMoveLanes_completes (fun m i => m.elem h t a (i ^^^ 1)) rfl fun _ => rfl,
    vMoveLanes_completes (fun m _ => m.elem h t a k.toNat) rfl fun _ => rfl,
    fun hint => vMoveLanes_completes (fun _ i => i) rfl fun m => by simp only [opVIota, if_pos hint],
    fun hflt => vMoveLanes_completes (fun _ i => ((fmtOf t.toNat).round .arith false 0 (ofInt i 0 false)).bits) rfl
      fun m => by simp only [opVIota, if_neg (Bool.eq_false_iff.1 hflt)]⟩

/-! ### A fill of masked lanes (R145, R168) -/

/-- A context with lane 0 alone set in `ma1`, and a spill window whose lane 1 alone holds something. -/
def maskedCtx : Ctx :=
  { life := .live, task := { demand := BitVec.ofNat 56 (2 ^ 56 - 1) }, ma := [(1, 1)], spill := [(0, row (2 ^ 32))] }
/-- A machine whose one task runs there. -/
def fillMasked : State := { State.reset with cores := [(0, { prim := some 0, ctxs := [(0, maskedCtx)] })] }

/-- The fill of `va0` there. -/
def maskedFill : Instr := .vFil ⟨.va, .w256, 1⟩ 0 0

theorem fillMasked_mayIssue : fillMasked.mayIssue .va maskedFill = true := by decide +kernel

/-- The result of that fill, with a value for every lane or for the active lanes alone. -/
def filled (v : Nat) : Wr :=
  { dest := .v .va 0, mask := row (2 ^ 32 - 1), val := row v, lat := 1, port := .load }

theorem opVFil_fillMasked :
    opVFil ⟨.va, .w256, 1⟩ 0 0 (fillMasked.meets .va maskedFill) = { wrs := [filled (2 ^ 32)] } := by decide +kernel

theorem lanesWr_fillMasked :
    lanesWr (fillMasked.meets .va maskedFill) ⟨.va, .w256, 1⟩ 0 32 1
      (lane 32 (spillRead (fillMasked.meets .va maskedFill).ix 0 32)) .load = filled 0 := by decide +kernel

theorem filled_joined : ∀ v ∈ [0, 2 ^ 32],
    ((([filled v].filter Wr.kept).map fun w => w.pend (fillMasked.meets .va maskedFill).ix.bcount).foldl addPend
      (fillMasked.meets .va maskedFill).ix.pend).map (·.val) = [row v] := by decide +kernel

/-- The value awaited for `va0` after the bundle. -/
theorem fillMasked_after {v : Nat} (hv : v ∈ [0, 2 ^ 32]) :
    ((fillMasked.after .va maskedFill [filled v] []).ctx fillMasked.ik fillMasked.ij).pend.map (·.val) = [row v] := by
  have ha : apartDests [filled v] := List.Pairwise.filter _ (List.pairwise_singleton ..)
  have h := (bundleResults.1 fillMasked .va maskedFill _ ha).2
  rw [h, filled_joined v hv]

/-- Refutes O19: `vfil` stores its active lanes alone, but the result that it has waiting carries the words of the other lanes
too, where the statement has zeros for them.  In `fillMasked` lane 1, which is not active, is filled from a word that is not
zero, so that the two states after the bundle differ in the value awaited. -/
theorem not_vectorTransferResults : ¬Obligations.VectorTransferResults := by
  intro h
  obtain ⟨-, -, -, -, -, -, -, -, hfil, -⟩ := h fillMasked ⟨.va, .w256, 1⟩ 0 0 0 0 0 0
  have hstated : Completes fillMasked .va maskedFill [filled 0] [] := by
    rw [← lanesWr_fillMasked]
    exact hfil fillMasked_mayIssue
  have hmodel : Completes fillMasked .va maskedFill [filled (2 ^ 32)] [] :=
    slotOp_out (f := opVFil ⟨.va, .w256, 1⟩ 0 0) fillMasked_mayIssue opVFil_fillMasked
  have hv := congrArg (fun t : State => (t.ctx fillMasked.ik fillMasked.ij).pend.map (·.val))
    (Host.Outcome.next.inj (hstated.symm.trans hmodel))
  rw [fillMasked_after (by simp), fillMasked_after (by simp)] at hv
  exact absurd hv (by decide +kernel)

/-! ### Binary formats: decoding what was rounded (R59, R64) -/

/-- The number (-1)^n x m x 2^e. -/
noncomputable def dyadic (n : Bool) (m : Nat) (e : Int) : ℝ := (if n then -1 else 1) * (m : ℝ) * (2 : ℝ) ^ e

/-- A format laid out as IEEE 754 does: the bias is the middle of the exponents, the last exponent is for infinities and NaNs,
and the largest finite value comes before it. -/
structure FFmt.Ieee (f : FFmt) : Prop where
  fb_pos : 7 ≤ f.fb
  fb_le : f.fb ≤ 23
  bias_pos : 15 ≤ f.bias
  bias_le : f.bias ≤ 127
  exps : 2 ^ f.eb = 2 * f.bias + 2
  spec : f.spec = 2 * f.bias + 1
  top : f.top + 1 = (2 * f.bias + 1) * 2 ^ f.fb

/-- The largest finite value. -/
noncomputable def FFmt.topVal (f : FFmt) : ℝ := ((2 : ℝ) ^ (f.fb + 1) - 1) * (2 : ℝ) ^ ((f.bias : Int) - f.fb)
/-- The unit in the last place of a real number. -/
noncomputable def FFmt.ulp (f : FFmt) (y : ℝ) : ℝ := (2 : ℝ) ^ (max (Int.log 2 |y|) (1 - (f.bias : Int)) - f.fb)
/-- The exponent of the last place of m x 2^e. -/
def FFmt.quant (f : FFmt) (m : Nat) (e : Int) : Int := max ((Nat.log2 m : Int) + e) (1 - (f.bias : Int)) - f.fb
/-- The bits of the sign. -/
def FFmt.sg (f : FFmt) (n : Bool) : Nat := if n then f.signBit else 0

theorem ieee_fmtOf {t : Nat} (ht : t = 8 ∨ t = 9 ∨ t = 10) : (fmtOf t).Ieee := by
  rcases ht with rfl | rfl | rfl <;> exact ⟨by decide, by decide, by decide, by decide, by decide, by decide, by decide⟩

/-- The magnitude m x 2^e. -/
noncomputable def size (m : Nat) (e : Int) : ℝ := (m : ℝ) * (2 : ℝ) ^ e

theorem size_nonneg (m : Nat) (e : Int) : 0 ≤ size m e := by unfold size; positivity
theorem size_pos {m : Nat} (hm : m ≠ 0) (e : Int) : 0 < size m e := by
  have := Nat.pos_of_ne_zero hm
  unfold size; positivity
theorem dyadic_size (n : Bool) (m : Nat) (e : Int) : dyadic n m e = (if n then -1 else 1) * size m e := mul_assoc ..
theorem abs_dyadic (n : Bool) (m : Nat) (e : Int) : |dyadic n m e| = size m e := by
  rw [dyadic_size, abs_mul, abs_of_nonneg (size_nonneg m e)]
  cases n <;> simp

/-- The leading bit of a magnitude. -/
theorem zpow_le_size {m : Nat} (hm : m ≠ 0) (e : Int) : (2 : ℝ) ^ ((Nat.log2 m : Int) + e) ≤ size m e := by
  rw [zpow_add₀ two_ne_zero, zpow_natCast, size]
  exact mul_le_mul_of_nonneg_right (by exact_mod_cast Nat.log2_self_le hm) (by positivity)
theorem size_lt_zpow (m : Nat) (e : Int) : size m e < (2 : ℝ) ^ ((Nat.log2 m : Int) + e + 1) := by
  rw [add_right_comm, zpow_add₀ two_ne_zero, size]
  exact mul_lt_mul_of_pos_right (by exact_mod_cast Nat.lt_log2_self) (by positivity)

/-- The same magnitude with another exponent. -/
theorem size_shift (m : Nat) (e q : Int) : size m e = size m (e - q) * (2 : ℝ) ^ q := by
  rw [size, size, mul_assoc, ← zpow_add₀ two_ne_zero, sub_add_cancel]
theorem size_shiftLeft (m : Nat) {e q : Int} (h : q ≤ e) : size (m <<< (e - q).toNat) q = size m e := by
  obtain ⟨k, hk⟩ := Int.eq_ofNat_of_zero_le (sub_nonneg.2 h)
  rw [hk, Int.toNat_natCast, Nat.shiftLeft_eq, size_shift m e q, hk, size, size]
  push_cast
  rw [zpow_natCast]

theorem FFmt.topVal_lt (f : FFmt) : f.topVal < (2 : ℝ) ^ ((f.bias : Int) + 1) := by
  have h : ((f.bias : Int) + 1) = ((f.fb + 1 : Nat) : Int) + ((f.bias : Int) - f.fb) := by push_cast; ring
  rw [h, zpow_add₀ two_ne_zero, zpow_natCast, FFmt.topVal]
  exact mul_lt_mul_of_pos_right (by linarith) (by positivity)

/-- A magnitude of at least 2^fb units is in range only if its unit is. -/
theorem FFmt.quantum_le (f : FFmt) {q : Nat} {qe : Int} (hq : 2 ^ f.fb ≤ q) (htop : size q qe ≤ f.topVal) :
    qe ≤ (f.bias : Int) - f.fb := by
  have h1 : (2 : ℝ) ^ ((f.fb : Int) + qe) ≤ size q qe := by
    rw [zpow_add₀ two_ne_zero, zpow_natCast, size]
    exact mul_le_mul_of_nonneg_right (by exact_mod_cast hq) (by positivity)
  have h2 := (zpow_lt_zpow_iff_right₀ (one_lt_two : (1 : ℝ) < 2)).1 ((h1.trans htop).trans_lt f.topVal_lt)
  omega

section
variable {f : FFmt} (hf : f.Ieee)

/-- The fields of an encoding: sign, exponent and fraction. -/
theorem fields_of_parts {n : Bool} {E Q : Nat} (hE : E < 2 ^ f.eb) (hQ : Q < 2 ^ f.fb) :
    bitAt (E * 2 ^ f.fb + Q + f.sg n) (f.eb + f.fb) = n ∧ bitsAt (E * 2 ^ f.fb + Q + f.sg n) f.fb f.eb = E ∧
      (E * 2 ^ f.fb + Q + f.sg n) % 2 ^ f.fb = Q := by
  have hs : E * 2 ^ f.fb + Q + f.sg n = 2 ^ f.fb * (2 ^ f.eb * b2n n + E) + Q := by
    cases n <;> simp only [FFmt.sg, FFmt.signBit, b2n, if_true, if_false, Bool.false_eq_true, pow_add] <;> ring
  rw [hs]
  have hd : (2 ^ f.fb * (2 ^ f.eb * b2n n + E) + Q) / 2 ^ f.fb = 2 ^ f.eb * b2n n + E := by
    rw [Nat.mul_add_div (Nat.two_pow_pos _), Nat.div_eq_of_lt hQ, Nat.add_zero]
  refine ⟨?_, ?_, ?_⟩
  · rw [bitAt, Nat.shiftRight_eq_div_pow, Nat.add_comm f.eb, Nat.pow_add, ← Nat.div_div_eq_div_mul, hd,
      Nat.mul_add_div (Nat.two_pow_pos _), Nat.div_eq_of_lt hE]
    cases n <;> rfl
  · rw [bitsAt_eq, hd, Nat.mul_add_mod, Nat.mod_eq_of_lt hE]
  · rw [Nat.mul_add_mod, Nat.mod_eq_of_lt hQ]

include hf

/-- Decoding a subnormal. -/
theorem FFmt.Ieee.dec_subnormal (n : Bool) {Q : Nat} (hQ : Q < 2 ^ f.fb) :
    f.dec (Q + f.sg n) = .fin n Q (1 - (f.bias : Int) - f.fb) := by
  have h := fields_of_parts (f := f) (n := n) (E := 0) (Nat.two_pow_pos _) hQ
  rw [Nat.zero_mul, Nat.zero_add] at h
  obtain ⟨hn, hE, hm⟩ := h
  have h1 := hf.spec
  have h2 := hf.bias_pos
  rw [FFmt.dec, hn, hE, hm, if_neg (by omega), if_neg (by omega), if_pos rfl]

/-- Decoding a normal number. -/
theorem FFmt.Ieee.dec_normal (n : Bool) {E Q : Nat} (hE0 : 1 ≤ E) (hE : E ≤ 2 * f.bias) (hQ : Q < 2 ^ f.fb) :
    f.dec (E * 2 ^ f.fb + Q + f.sg n) = .fin n (2 ^ f.fb + Q) ((E : Int) - f.bias - f.fb) := by
  have h1 := hf.spec
  have h2 := hf.bias_pos
  have h3 := hf.exps
  obtain ⟨hn, hE', hm⟩ := fields_of_parts (f := f) (n := n) (by omega : E < 2 ^ f.eb) hQ
  rw [FFmt.dec, hn, hE', hm, if_neg (by omega), if_neg (by omega), if_neg (by omega)]

/-- What a finite encoding stands for. -/
theorem FFmt.Ieee.dec_fin {x : Nat} {n : Bool} {m : Nat} {e : Int} (h : f.dec x = .fin n m e) :
    m < 2 ^ (f.fb + 1) ∧ 1 - (f.bias : Int) - f.fb ≤ e ∧ e ≤ (f.bias : Int) - f.fb := by
  have h1 := hf.spec
  have h2 := hf.bias_pos
  have h3 := hf.exps
  have hE : bitsAt x f.fb f.eb < 2 ^ f.eb := Nat.mod_lt _ (Nat.two_pow_pos _)
  have hm : x % 2 ^ f.fb < 2 ^ f.fb := Nat.mod_lt _ (Nat.two_pow_pos _)
  rw [pow_succ]
  rw [FFmt.dec, if_neg (by omega)] at h
  split at h
  next => split at h <;> exact absurd h (by simp)
  next hne =>
    split at h
    next => cases h; omega
    next => cases h; omega

/-- The bits of a magnitude of q units. -/
def FFmt.packed (f : FFmt) (q : Nat) (qe : Int) : Nat :=
  if q < 2 ^ f.fb then q else (qe + f.fb + f.bias).toNat * 2 ^ f.fb + (q - 2 ^ f.fb)

/-- Decoding them gives the magnitude again. -/
theorem FFmt.Ieee.dec_packed (n : Bool) {q : Nat} {qe : Int} (hq : q < 2 ^ (f.fb + 1)) (hqe : 1 - (f.bias : Int) - f.fb ≤ qe)
    (hsub : q < 2 ^ f.fb → qe = 1 - (f.bias : Int) - f.fb) (htop : size q qe ≤ f.topVal) :
    f.packed q qe ≤ f.top ∧ f.dec (f.packed q qe + f.sg n) = .fin n q qe := by
  have ht := hf.top
  rw [pow_succ] at hq
  by_cases hs : q < 2 ^ f.fb
  · rw [FFmt.packed, if_pos hs, hf.dec_subnormal n hs, hsub hs]
    refine ⟨?_, rfl⟩
    nlinarith [hf.bias_pos]
  · have hle := f.quantum_le (not_lt.1 hs) htop
    obtain ⟨Q, rfl⟩ := Nat.exists_eq_add_of_le (not_lt.1 hs)
    obtain ⟨E, hE⟩ := Int.eq_ofNat_of_zero_le (by omega : 0 ≤ qe + f.fb + f.bias)
    have hE2 : E ≤ 2 * f.bias := by omega
    rw [FFmt.packed, if_neg hs, hE, Int.toNat_natCast, Nat.add_sub_cancel_left,
      hf.dec_normal n (by omega) hE2 (by omega), ← hE]
    refine ⟨?_, by congr 1; ring⟩
    have := Nat.mul_le_mul_right (2 ^ f.fb) hE2
    rw [Nat.add_mul, Nat.one_mul] at ht
    omega

end

/-! Rounding to nearest (R64). -/

theorem roundShift_near (n : Bool) (m k : Nat) :
    |(roundShift 0 n m k : ℝ) * 2 ^ k - m| ≤ 2 ^ k / 2 ∧ (m % 2 ^ k = 0 → roundShift 0 n m k = m / 2 ^ k) := by
  have hm : 2 ^ k * (m / 2 ^ k) + m % 2 ^ k = m := Nat.div_add_mod ..
  have hr : m % 2 ^ k < 2 ^ k := Nat.mod_lt _ (Nat.two_pow_pos k)
  have hmR : (2 : ℝ) ^ k * (m / 2 ^ k : Nat) + (m % 2 ^ k : Nat) = m := by exact_mod_cast hm
  unfold roundShift
  simp only [Nat.shiftRight_eq_div_pow, if_true]
  split
  next hup =>
    have h2 : 2 ^ k ≤ 2 * (m % 2 ^ k) := by
      simp only [Bool.or_eq_true, Bool.and_eq_true, decide_eq_true_eq] at hup
      omega
    have h2R : (2 : ℝ) ^ k ≤ 2 * (m % 2 ^ k : Nat) := by exact_mod_cast h2
    have hrR : ((m % 2 ^ k : Nat) : ℝ) < 2 ^ k := by exact_mod_cast hr
    refine ⟨?_, fun h0 => ?_⟩
    · push_cast at *
      rw [abs_le]
      constructor <;> nlinarith
    · have := Nat.two_pow_pos k; omega
  next hup =>
    have h2 : 2 * (m % 2 ^ k) ≤ 2 ^ k := by
      simp only [Bool.or_eq_true, decide_eq_true_eq, not_or, not_lt] at hup
      exact hup.1
    have h2R : 2 * ((m % 2 ^ k : Nat) : ℝ) ≤ 2 ^ k := by exact_mod_cast h2
    have h0R : (0 : ℝ) ≤ (m % 2 ^ k : Nat) := Nat.cast_nonneg _
    refine ⟨?_, fun _ => rfl⟩
    rw [abs_le]
    constructor <;> nlinarith

/-- The number of units in the last place after rounding to nearest. -/
def FFmt.units (f : FFmt) (n : Bool) (m : Nat) (e : Int) : Nat :=
  if f.quant m e ≤ e then m <<< (e - f.quant m e).toNat else roundShift 0 n m (f.quant m e - e).toNat

theorem FFmt.units_near (f : FFmt) (n : Bool) (m : Nat) (e : Int) :
    |(f.units n m e : ℝ) - size m (e - f.quant m e)| ≤ 1 / 2 ∧
      ∀ N : Nat, size m (e - f.quant m e) = N → f.units n m e = N := by
  unfold FFmt.units
  split
  next h =>
    obtain ⟨k, hk⟩ := Int.eq_ofNat_of_zero_le (sub_nonneg.2 h)
    have hs : size m (e - f.quant m e) = ((m <<< k : Nat) : ℝ) := by
      rw [hk, size, Nat.shiftLeft_eq, zpow_natCast]; push_cast; rfl
    rw [hs, hk, Int.toNat_natCast, sub_self, abs_zero]
    exact ⟨by norm_num, fun N hN => by exact_mod_cast hN⟩
  next h =>
    obtain ⟨k, hk⟩ := Int.eq_ofNat_of_zero_le (by omega : 0 ≤ f.quant m e - e)
    have hs : size m (e - f.quant m e) = (m : ℝ) / 2 ^ k := by
      rw [show e - f.quant m e = -(k : Int) by omega, size, zpow_neg, zpow_natCast, div_eq_mul_inv]
    have hp : (0 : ℝ) < 2 ^ k := by positivity
    obtain ⟨h1, h2⟩ := roundShift_near n m k
    rw [hs, hk, Int.toNat_natCast]
    refine ⟨?_, fun N hN => ?_⟩
    · rw [← mul_le_mul_iff_left₀ hp, ← abs_of_pos hp, ← abs_mul, abs_of_pos hp, sub_mul, div_mul_cancel₀ _ hp.ne']
      linarith
    · rw [div_eq_iff hp.ne'] at hN
      have hN' : m = N * 2 ^ k := by exact_mod_cast hN
      rw [h2 (by rw [hN', Nat.mul_mod_left]), hN', Nat.mul_div_cancel _ (Nat.two_pow_pos k)]

/-- The last place of a magnitude is at or above that of the subnormals, and above them the magnitude has a leading bit. -/
theorem FFmt.quant_spec (f : FFmt) {m : Nat} (hm : m ≠ 0) (e : Int) :
    1 - (f.bias : Int) - f.fb ≤ f.quant m e ∧ size m (e - f.quant m e) < 2 ^ (f.fb + 1) ∧
      (f.quant m e ≠ 1 - (f.bias : Int) - f.fb → 2 ^ f.fb ≤ size m (e - f.quant m e)) := by
  have hq : f.quant m e = max ((Nat.log2 m : Int) + e) (1 - (f.bias : Int)) - f.fb := rfl
  have h2 : (1 : ℝ) ≤ 2 := one_le_two
  refine ⟨by omega, ?_, fun hne => ?_⟩
  · refine (size_lt_zpow m _).trans_le ?_
    rw [← zpow_natCast]
    exact zpow_le_zpow_right₀ h2 (by push_cast; omega)
  · refine le_trans ?_ (zpow_le_size hm _)
    rw [← zpow_natCast]
    exact zpow_le_zpow_right₀ h2 (by omega)

/-- A finite magnitude rounded to nearest, when it stays in range, decodes to its number of units. -/
theorem FFmt.Ieee.dec_round {f : FFmt} (hf : f.Ieee) (n : Bool) {m : Nat} (hm : m ≠ 0) (e : Int)
    (htop : size (f.units n m e) (f.quant m e) ≤ f.topVal) :
    ∃ m' e', f.dec (f.round .arith false 0 (.fin n m e)).bits = .fin n m' e' ∧
      size m' e' = size (f.units n m e) (f.quant m e) := by
  obtain ⟨hqe, hlt, hge⟩ := f.quant_spec hm e
  obtain ⟨hnear, -⟩ := f.units_near n m e
  rw [abs_le] at hnear
  have hq : f.units n m e ≤ 2 ^ (f.fb + 1) := by
    have : (f.units n m e : ℝ) < (2 ^ (f.fb + 1) : Nat) + 1 := by push_cast; linarith
    exact Nat.lt_succ_iff.1 (by exact_mod_cast this)
  have hsub : f.units n m e < 2 ^ f.fb → f.quant m e = 1 - (f.bias : Int) - f.fb := by
    intro hs
    by_contra hne
    have : (f.units n m e : ℝ) + 1 ≤ (2 : ℝ) ^ f.fb := by exact_mod_cast hs
    linarith [hge hne]
  have hmag : f.mag 0 n m e = f.packed (if f.units n m e = 2 ^ (f.fb + 1) then 2 ^ f.fb else f.units n m e)
      (if f.units n m e = 2 ^ (f.fb + 1) then f.quant m e + 1 else f.quant m e) := by
    have hqq : (if (Nat.log2 m : Int) + e < 1 - (f.bias : Int) then 1 - (f.bias : Int) else (Nat.log2 m : Int) + e) - f.fb =
        f.quant m e := by unfold FFmt.quant; split <;> omega
    rw [FFmt.mag]
    rw [hqq]
    rfl
  have hround {b : Nat} (hb : f.mag 0 n m e = b) (hle : b ≤ f.top) :
      (f.round .arith false 0 (.fin n m e)).bits = b + f.sg n := by
    rw [FFmt.round, if_neg hm, hb, if_neg (by simp), if_pos hle]
    rfl
  by_cases hc : f.units n m e = 2 ^ (f.fb + 1)
  · rw [if_pos hc, if_pos hc] at hmag
    have hs : size (2 ^ f.fb) (f.quant m e + 1) = size (f.units n m e) (f.quant m e) := by
      rw [hc, size, size, zpow_add₀ two_ne_zero]; push_cast; ring
    obtain ⟨hle, hd⟩ := hf.dec_packed n (q := 2 ^ f.fb) (qe := f.quant m e + 1) (Nat.pow_lt_pow_succ (by decide)) (by omega)
      (fun h => absurd h (lt_irrefl _)) (hs.trans_le htop)
    exact ⟨_, _, (congrArg f.dec (hround hmag hle)).trans hd, hs⟩
  · rw [if_neg hc, if_neg hc] at hmag
    obtain ⟨hle, hd⟩ := hf.dec_packed n (lt_of_le_of_ne hq hc) hqe hsub htop
    exact ⟨_, _, (congrArg f.dec (hround hmag hle)).trans hd, rfl⟩

/-! ### Rounded results near a real number -/

/-- The value, rounded, is a finite number within tol of y. -/
def FFmt.Gives (f : FFmt) (w : FV) (y tol : ℝ) : Prop :=
  ∃ n m e, f.dec (f.round .arith false 0 w).bits = .fin n m e ∧ |dyadic n m e - y| ≤ tol

theorem FFmt.Gives.mono {f : FFmt} {w : FV} {y y' tol tol' : ℝ} (h : f.Gives w y tol) (hd : tol + |y - y'| ≤ tol') :
    f.Gives w y' tol' := by
  obtain ⟨n, m, e, hw, hy⟩ := h
  exact ⟨n, m, e, hw, (abs_sub_le _ y _).trans ((add_le_add_left hy _).trans hd)⟩

theorem size_nat (m : Nat) {e : Int} (he : 0 ≤ e) : size m e = (m * 2 ^ e.toNat : Nat) := by
  obtain ⟨k, rfl⟩ := Int.eq_ofNat_of_zero_le he
  rw [size, zpow_natCast, Int.toNat_natCast]
  push_cast
  rfl

/-- The unit in the last place of a dyadic number is its last place. -/
theorem FFmt.ulp_dyadic (f : FFmt) (n : Bool) {m : Nat} (hm : m ≠ 0) (e : Int) : f.ulp (dyadic n m e) = (2 : ℝ) ^ f.quant m e := by
  have hl : Int.log 2 (size m e) = (Nat.log2 m : Int) + e := by
    refine le_antisymm ?_ ?_
    · exact Int.lt_add_one_iff.1 ((Int.lt_zpow_iff_log_lt one_lt_two (size_pos hm e)).1 (by exact_mod_cast size_lt_zpow m e))
    · exact (Int.zpow_le_iff_le_log one_lt_two (size_pos hm e)).1 (by exact_mod_cast zpow_le_size hm e)
  rw [FFmt.ulp, abs_dyadic, hl, FFmt.quant]

/-- The last place of a magnitude in range is in range. -/
theorem FFmt.quant_le (f : FFmt) (hb : 1 ≤ f.bias) {m : Nat} (hm : m ≠ 0) {e : Int} (h : size m e ≤ f.topVal) :
    f.quant m e ≤ (f.bias : Int) - f.fb := by
  have h2 := (zpow_lt_zpow_iff_right₀ (one_lt_two : (1 : ℝ) < 2)).1 (((zpow_le_size hm e).trans h).trans_lt f.topVal_lt)
  unfold FFmt.quant
  omega

theorem FFmt.two_zpow_le_topVal (f : FFmt) : (2 : ℝ) ^ (f.bias : Int) ≤ f.topVal := by
  have h : (f.bias : Int) = (f.fb : Nat) + ((f.bias : Int) - f.fb) := by ring
  rw [h, zpow_add₀ two_ne_zero, zpow_natCast, FFmt.topVal]
  have : (1 : ℝ) ≤ 2 ^ f.fb := one_le_pow₀ one_le_two
  exact mul_le_mul_of_nonneg_right (by rw [pow_succ]; linarith) (by positivity)

/-- Rounding to nearest does not leave the range. -/
theorem FFmt.units_in_range (f : FFmt) (hb : 1 ≤ f.bias) (n : Bool) {m : Nat} (hm : m ≠ 0) {e : Int} (h : size m e ≤ f.topVal) :
    size (f.units n m e) (f.quant m e) ≤ f.topVal := by
  obtain ⟨-, hlt, -⟩ := f.quant_spec hm e
  obtain ⟨hnear, -⟩ := f.units_near n m e
  rw [abs_le] at hnear
  have hp : (0 : ℝ) < 2 ^ ((f.bias : Int) - f.fb) := by positivity
  rcases (f.quant_le hb hm h).lt_or_eq with hq | hq
  · have hu : (f.units n m e : ℝ) ≤ (2 ^ (f.fb + 1) : Nat) := by
      have : (f.units n m e : ℝ) < (2 ^ (f.fb + 1) : Nat) + 1 := by push_cast; linarith
      exact_mod_cast Nat.lt_succ_iff.1 (by exact_mod_cast this)
    refine le_trans ?_ f.two_zpow_le_topVal
    calc size (f.units n m e) (f.quant m e) ≤ (2 ^ (f.fb + 1) : Nat) * (2 : ℝ) ^ f.quant m e :=
          mul_le_mul_of_nonneg_right hu (by positivity)
      _ = (2 : ℝ) ^ (((f.fb + 1 : Nat) : Int) + f.quant m e) := by rw [zpow_add₀ two_ne_zero, zpow_natCast]; push_cast; rfl
      _ ≤ (2 : ℝ) ^ (f.bias : Int) := zpow_le_zpow_right₀ one_le_two (by push_cast; omega)
  · rw [size_shift m e (f.quant m e), hq, FFmt.topVal, mul_le_mul_iff_left₀ hp, ← hq] at h
    rw [size, hq, FFmt.topVal, mul_le_mul_iff_left₀ hp]
    have : (f.units n m e : ℝ) < (2 ^ (f.fb + 1) : Nat) := by push_cast; linarith
    have : (f.units n m e : ℝ) + 1 ≤ (2 ^ (f.fb + 1) : Nat) := by exact_mod_cast this
    push_cast at this
    linarith

/-- A finite number in range is rounded within half a unit, and exactly if it is a number of units. -/
theorem FFmt.Ieee.gives_fin {f : FFmt} (hf : f.Ieee) (n : Bool) {m : Nat} (hm : m ≠ 0) {e : Int} (h : size m e ≤ f.topVal) :
    f.Gives (.fin n m e) (dyadic n m e) ((2 : ℝ) ^ f.quant m e / 2) ∧
      ((∃ N : Nat, size m (e - f.quant m e) = N) → f.Gives (.fin n m e) (dyadic n m e) 0) := by
  have hb : 1 ≤ f.bias := le_trans (by decide) hf.bias_pos
  obtain ⟨m', e', hd, hs⟩ := hf.dec_round n hm e (f.units_in_range hb n hm h)
  obtain ⟨hnear, hexact⟩ := f.units_near n m e
  have hdiff : |dyadic n m' e' - dyadic n m e| =
      |(f.units n m e : ℝ) - size m (e - f.quant m e)| * (2 : ℝ) ^ f.quant m e := by
    rw [dyadic_size, dyadic_size, hs, size_shift m e (f.quant m e), ← mul_sub, abs_mul, size, ← sub_mul, abs_mul,
      abs_of_pos (by positivity : (0 : ℝ) < 2 ^ f.quant m e)]
    cases n <;> simp
  refine ⟨⟨n, m', e', hd, ?_⟩, fun ⟨N, hN⟩ => ⟨n, m', e', hd, ?_⟩⟩
  · rw [hdiff]
    have : (0 : ℝ) < 2 ^ f.quant m e := by positivity
    nlinarith
  · rw [hdiff, hexact N hN, hN, sub_self, abs_zero, zero_mul]

/-- A signed number of units that fits the fraction, or an even one of twice the size, is not changed by rounding. -/
theorem FFmt.Ieee.gives_ofInt {f : FFmt} (hf : f.Ieee) {c q : Int} (z : Bool) (hq : 1 - (f.bias : Int) - f.fb ≤ q)
    (hc : c.natAbs < 2 ^ (f.fb + 1) ∨ 2 ∣ c.natAbs ∧ c.natAbs < 2 ^ (f.fb + 2))
    (htop : |(c : ℝ)| * (2 : ℝ) ^ q ≤ f.topVal) : f.Gives (ofInt c q z) (c * (2 : ℝ) ^ q) 0 := by
  unfold ofInt
  split
  next h0 =>
    subst h0
    have hd : f.dec (f.round .arith false 0 (.fin z 0 0)).bits = .fin z 0 (1 - (f.bias : Int) - f.fb) := by
      have := hf.dec_subnormal z (Q := 0) (Nat.two_pow_pos _)
      rw [Nat.zero_add] at this
      exact this
    exact ⟨_, _, _, hd, by simp [dyadic]⟩
  next h0 =>
    have hm : c.natAbs ≠ 0 := Int.natAbs_ne_zero.2 h0
    have habs : (c.natAbs : ℝ) = |(c : ℝ)| := by rw [Nat.cast_natAbs, Int.cast_abs]
    have hval : dyadic (decide (c < 0)) c.natAbs q = c * (2 : ℝ) ^ q := by
      rw [dyadic, habs]
      by_cases hn : c < 0
      · rw [abs_of_neg (by exact_mod_cast hn), decide_eq_true hn, if_pos rfl]; ring
      · rw [abs_of_nonneg (by exact_mod_cast not_lt.1 hn), decide_eq_false hn, if_neg Bool.false_ne_true]; ring
    have hunits : ∃ N : Nat, size c.natAbs (q - f.quant c.natAbs q) = N := by
      by_cases hs : f.quant c.natAbs q ≤ q
      · exact ⟨_, size_nat _ (sub_nonneg.2 hs)⟩
      · have hlog : f.fb < Nat.log2 c.natAbs := by unfold FFmt.quant at hs; omega
        have hbig : 2 ^ (f.fb + 1) ≤ c.natAbs := (Nat.pow_le_pow_right (by decide) hlog).trans (Nat.log2_self_le hm)
        obtain ⟨⟨N, hN⟩, hlt⟩ := hc.resolve_left (not_lt.2 hbig)
        have hlog2 : Nat.log2 c.natAbs < f.fb + 2 := (Nat.log2_lt hm).2 hlt
        have hqq : q - f.quant c.natAbs q = -1 := by unfold FFmt.quant; omega
        refine ⟨N, ?_⟩
        rw [hqq, size, hN, zpow_neg_one]
        push_cast
        ring
    have h := (hf.gives_fin (decide (c < 0)) hm (e := q) (by rw [size, habs]; exact htop)).2 hunits
    rwa [hval] at h

/-! ### A choice within a bound (Table 06-3) -/

/-- The last place in which a choice is made. -/
def FFmt.place (f : FFmt) (ab : Option Int) (m : Nat) (e : Int) : Int :=
  match ab with
  | some a => max (f.quant m e) (a - f.fb + 1)
  | none => f.quant m e
/-- How far a choice may lie, in 2^-20 of that place. -/
def pickTol (ulps : Nat) (ab : Option Int) (q : Int) : Int :=
  match ab with
  | some a => max ((ulps : Int) * 2 ^ 20 - 2 ^ 17) (((2 ^ (a - q + 20).toNat : Nat) : Int) - 2 ^ 17)
  | none => (ulps : Int) * 2 ^ 20 - 2 ^ 17
/-- A number of units as it is kept: an even one beyond the fraction. -/
def FFmt.keep (f : FFmt) (c : Int) : Int :=
  let p : Int := 2 ^ (f.fb + 1)
  if p < c then p + (c - p) / 2 * 2 else if c < -p then -(p + (-c - p) / 2 * 2) else c

/-- The fixed-point reading of a dyadic number, from a place below it. -/
theorem at_spec (n : Bool) (m : Nat) {e q : Int} (h : q ≤ e) : ((FV.fin n m e).at q : ℝ) * (2 : ℝ) ^ q = dyadic n m e := by
  have hs := size_shiftLeft m h
  rw [dyadic_size, ← hs, size, FV.at]
  cases n <;>
    simp only [Bool.false_eq_true, if_false, if_true, one_mul, neg_mul, Int.cast_neg, Int.cast_natCast]

/-- Dividing by a power of two, rounded down. -/
theorem ediv_two_pow_spec (x : Int) (k : Nat) :
    ((x / (2 ^ k : Nat) : Int) : ℝ) * 2 ^ k ≤ x ∧ (x : ℝ) < ((x / (2 ^ k : Nat) : Int) + 1) * 2 ^ k := by
  have hp : (0 : Int) < (2 ^ k : Nat) := by positivity
  have h1 := Int.ediv_mul_le x hp.ne'
  have h2 := Int.lt_ediv_add_one_mul_self x hp
  constructor
  · exact_mod_cast h1
  · exact_mod_cast h2

theorem pick_between {lo hi : Int} (h : lo ≤ hi) (pick : Int) :
    lo ≤ lo + pick % (hi - lo + 1) ∧ lo + pick % (hi - lo + 1) ≤ hi := by
  have h1 := Int.emod_nonneg pick (by omega : hi - lo + 1 ≠ 0)
  have h2 := Int.emod_lt_of_pos pick (by omega : 0 < hi - lo + 1)
  omega

/-- The fixed-point reading of a value in 2^-20 of place q. -/
def reading (n : Bool) (m : Nat) (e q : Int) : Int :=
  (FV.fin n m e).at (min e (q - 20)) / (2 ^ (q - 20 - min e (q - 20)).toNat : Nat)

theorem reading_spec (n : Bool) (m : Nat) (e q : Int) :
    (reading n m e q : ℝ) ≤ dyadic n m e / (2 : ℝ) ^ q * 2 ^ 20 ∧ dyadic n m e / (2 : ℝ) ^ q * 2 ^ 20 < reading n m e q + 1 := by
  obtain ⟨k, hk⟩ := Int.eq_ofNat_of_zero_le (by omega : 0 ≤ q - 20 - min e (q - 20))
  have hat := at_spec n m (min_le_left e (q - 20))
  obtain ⟨h1, h2⟩ := ediv_two_pow_spec ((FV.fin n m e).at (min e (q - 20))) k
  have hx : dyadic n m e / (2 : ℝ) ^ q * 2 ^ 20 = ((FV.fin n m e).at (min e (q - 20)) : ℝ) / 2 ^ k := by
    have hq : (2 : ℝ) ^ q = (2 : ℝ) ^ min e (q - 20) * 2 ^ k * 2 ^ 20 := by
      rw [← zpow_natCast, ← zpow_natCast, ← zpow_add₀ two_ne_zero, ← zpow_add₀ two_ne_zero]
      congr 1
      push_cast
      omega
    rw [← hat, hq]
    field_simp
  have hp : (0 : ℝ) < 2 ^ k := by positivity
  rw [hx, reading, hk, Int.toNat_natCast, le_div_iff₀ hp, div_lt_iff₀ hp]
  exact ⟨h1, h2⟩

/-- The least and the largest number of units that may be picked. -/
def leastPick (t tol : Int) : Int := (t - tol + 2 ^ 20 - 1) / 2 ^ 20
def FFmt.most (f : FFmt) (t tol q : Int) : Int :=
  if q = (f.bias : Int) - f.fb ∧ t ≤ (2 ^ (f.fb + 1) - 1) * 2 ^ 20 then min ((t + tol) / 2 ^ 20) (2 ^ (f.fb + 1) - 1)
  else (t + tol) / 2 ^ 20

theorem FFmt.Ieee.pickNear_eq {f : FFmt} (hf : f.Ieee) (ulps : Nat) (ab : Option Int) (n : Bool) {m : Nat} (hm : m ≠ 0)
    (e pick : Int) :
    let q := f.place ab m e
    let t := reading n m e q
    let tol := pickTol ulps ab q
    pickNear f ulps ab (.fin n m e) pick =
      ofInt (f.keep (leastPick t tol + pick % (f.most t tol q - leastPick t tol + 1))) q n := by
  have htop := hf.top
  have hp : 0 < 2 ^ f.fb := Nat.two_pow_pos _
  have hdiv : f.top >>> f.fb = 2 * f.bias ∧ f.top % 2 ^ f.fb = 2 ^ f.fb - 1 := by
    have h : f.top = 2 ^ f.fb * (2 * f.bias) + (2 ^ f.fb - 1) := by
      have : 2 ^ f.fb * (2 * f.bias) = (2 * f.bias) * 2 ^ f.fb := Nat.mul_comm ..
      rw [Nat.add_mul, Nat.one_mul] at htop
      omega
    rw [Nat.shiftRight_eq_div_pow, h, Nat.mul_add_div hp, Nat.div_eq_of_lt (by omega), Nat.mul_add_mod, Nat.mod_eq_of_lt (by omega)]
    exact ⟨rfl, rfl⟩
  have htopI : ((2 ^ f.fb + f.top % 2 ^ f.fb : Nat) : Int) = 2 ^ (f.fb + 1) - 1 := by
    rw [hdiv.2, Nat.cast_add, Nat.cast_sub hp]
    push_cast
    ring
  have hlast : ((f.top >>> f.fb : Nat) : Int) - f.bias - f.fb = (f.bias : Int) - f.fb := by rw [hdiv.1]; push_cast; ring
  intro q t tol
  unfold pickNear
  simp only [if_neg hm, htopI, hlast, Bool.and_eq_true, decide_eq_true_eq, ← max_def_lt]
  cases ab <;> rfl

/-- What `pickNear` picks: a number of units within its tolerance, and no larger than the largest finite value where the value
itself is not. -/
theorem FFmt.Ieee.pickNear_picks {f : FFmt} (hf : f.Ieee) {ulps : Nat} (hu : 1 ≤ ulps) (ab : Option Int) (n : Bool) {m : Nat}
    (hm : m ≠ 0) (e pick : Int) :
    let q := f.place ab m e
    let tol : ℝ := (pickTol ulps ab q : ℝ) / 2 ^ 20
    let x := dyadic n m e / (2 : ℝ) ^ q
    ∃ c : Int, pickNear f ulps ab (.fin n m e) pick = ofInt (f.keep c) q n ∧
      x - 1 / 2 ^ 20 - tol < c ∧ c ≤ x + tol ∧
      (q = (f.bias : Int) - f.fb → x ≤ 2 ^ (f.fb + 1) - 1 → (c : ℝ) ≤ 2 ^ (f.fb + 1) - 1) := by
  intro q tol x
  obtain ⟨hr1, hr2⟩ : (reading n m e q : ℝ) ≤ x * 2 ^ 20 ∧ x * 2 ^ 20 < reading n m e q + 1 := reading_spec n m e q
  have htolx : tol * 2 ^ 20 = pickTol ulps ab q := div_mul_cancel₀ _ (by norm_num)
  have htol : (2 : Int) ^ 20 - 2 ^ 17 ≤ pickTol ulps ab q := by
    unfold pickTol
    cases ab <;> dsimp only <;> omega
  have hmost : f.most (reading n m e q) (pickTol ulps ab q) q ≤ (reading n m e q + pickTol ulps ab q) / 2 ^ 20 := by
    unfold FFmt.most
    split
    · exact min_le_left ..
    · exact le_rfl
  have hle : leastPick (reading n m e q) (pickTol ulps ab q) ≤ f.most (reading n m e q) (pickTol ulps ab q) q := by
    unfold leastPick FFmt.most
    split
    next h => exact le_min (by omega) (by omega)
    next => omega
  obtain ⟨c, heq, hc1, hc2⟩ : ∃ c, pickNear f ulps ab (.fin n m e) pick = ofInt (f.keep c) q n ∧
      leastPick (reading n m e q) (pickTol ulps ab q) ≤ c ∧ c ≤ f.most (reading n m e q) (pickTol ulps ab q) q :=
    ⟨_, hf.pickNear_eq ulps ab n hm e pick, pick_between hle pick⟩
  refine ⟨c, heq, ?_, ?_, fun hq hx => ?_⟩
  · have : reading n m e q - pickTol ulps ab q ≤ c * 2 ^ 20 := by
      refine le_trans ?_ (mul_le_mul_of_nonneg_right hc1 (by decide))
      unfold leastPick
      omega
    have h := (Int.cast_le (R := ℝ)).2 this
    push_cast at h ⊢
    linarith
  · have : c * 2 ^ 20 ≤ reading n m e q + pickTol ulps ab q := by
      refine (mul_le_mul_of_nonneg_right (hc2.trans hmost) (by decide)).trans ?_
      omega
    have h := (Int.cast_le (R := ℝ)).2 this
    push_cast at h ⊢
    linarith
  · have hrange : reading n m e q ≤ (2 ^ (f.fb + 1) - 1) * 2 ^ 20 := by
      have : (reading n m e q : ℝ) ≤ ((2 ^ (f.fb + 1) - 1) * 2 ^ 20 : Int) := by push_cast; linarith
      exact_mod_cast this
    have hmost' : f.most (reading n m e q) (pickTol ulps ab q) q ≤ 2 ^ (f.fb + 1) - 1 := by
      rw [FFmt.most, if_pos ⟨hq, hrange⟩]
      exact min_le_right ..
    have h := (Int.cast_le (R := ℝ)).2 (hc2.trans hmost')
    push_cast at h ⊢
    exact h

/-- What is kept of a number of units. -/
theorem FFmt.keep_spec (f : FFmt) (c : Int) :
    (|c| ≤ 2 ^ (f.fb + 1) ∧ f.keep c = c) ∨
    (2 ^ (f.fb + 1) < c ∧ 2 ^ (f.fb + 1) ≤ f.keep c ∧ f.keep c ≤ c ∧ 2 ∣ f.keep c) ∨
    (c < -2 ^ (f.fb + 1) ∧ c ≤ f.keep c ∧ f.keep c ≤ -2 ^ (f.fb + 1) ∧ 2 ∣ f.keep c) := by
  have hp : (2 : Int) ^ (f.fb + 1) = 2 ^ f.fb * 2 := pow_succ ..
  unfold FFmt.keep
  rw [abs_le]
  dsimp only
  split
  · right; left; omega
  · split
    · right; right; omega
    · left; omega

/-- Such a number of units is not changed by rounding. -/
theorem FFmt.keep_fits (f : FFmt) {c : Int} (hc : |c| < 2 ^ (f.fb + 2)) :
    (f.keep c).natAbs < 2 ^ (f.fb + 1) ∨ 2 ∣ (f.keep c).natAbs ∧ (f.keep c).natAbs < 2 ^ (f.fb + 2) := by
  have hp : (2 : Nat) ^ (f.fb + 1) = 2 ^ f.fb * 2 := pow_succ ..
  have hp2 : (2 : Nat) ^ (f.fb + 2) = 2 ^ f.fb * 4 := pow_add ..
  have hpI : ((2 ^ f.fb : Nat) : Int) = 2 ^ f.fb := by push_cast; rfl
  have h := f.keep_spec c
  rw [pow_succ, ← hpI] at h
  rw [pow_add, ← hpI] at hc
  rw [abs_le] at h
  rw [abs_lt] at hc
  have h0 := Nat.two_pow_pos f.fb
  omega

/-- The sign of a result, as a factor. -/
def sgn (n : Bool) : ℝ := if n then -1 else 1

theorem abs_sgn_mul (n : Bool) (y : ℝ) : |sgn n * y| = |y| := by cases n <;> simp [sgn]
theorem abs_sgn_sub (n : Bool) (x y : ℝ) : |sgn n * x - sgn n * y| = |x - y| := by rw [← mul_sub, abs_sgn_mul]
theorem dyadic_sgn (n : Bool) (m : Nat) (e : Int) : dyadic n m e = sgn n * size m e := dyadic_size ..

theorem FFmt.ulp_sgn (f : FFmt) (n : Bool) (y : ℝ) : f.ulp (sgn n * y) = f.ulp y := by rw [FFmt.ulp, FFmt.ulp, abs_sgn_mul]

/-- A power of two that a magnitude reaches bounds its last place from below, and so does that of the subnormals. -/
theorem FFmt.le_ulp (f : FFmt) {y : ℝ} (hy : 0 ≤ y) {q : Int}
    (h : (2 : ℝ) ^ (q + f.fb) ≤ y ∨ q ≤ 1 - (f.bias : Int) - f.fb) : (2 : ℝ) ^ q ≤ f.ulp y := by
  refine zpow_le_zpow_right₀ one_le_two ?_
  rcases h with h | h
  · have hpos : 0 < y := lt_of_lt_of_le (by positivity) h
    have hl := (Int.zpow_le_iff_le_log (b := 2) one_lt_two hpos).1 (by exact_mod_cast h)
    rw [abs_of_nonneg hy]
    omega
  · omega

theorem FFmt.place_ge (f : FFmt) (ab : Option Int) (m : Nat) (e : Int) : f.quant m e ≤ f.place ab m e := by
  unfold FFmt.place
  cases ab
  · exact le_rfl
  · exact le_max_left ..

/-- In units of its place, a value has at most the digits of the fraction and one. -/
theorem FFmt.abs_dyadic_div_lt (f : FFmt) (n : Bool) {m : Nat} (hm : m ≠ 0) (e : Int) {q : Int} (hq : f.quant m e ≤ q) :
    |dyadic n m e / (2 : ℝ) ^ q| < 2 ^ (f.fb + 1) := by
  have hp : (0 : ℝ) < 2 ^ q := by positivity
  rw [abs_div, abs_dyadic, abs_of_pos hp, div_lt_iff₀ hp, size_shift m e (f.quant m e)]
  obtain ⟨-, h, -⟩ := f.quant_spec hm e
  exact mul_lt_mul h (zpow_le_zpow_right₀ one_le_two hq) (by positivity) (by positivity)

theorem FFmt.abs_keep_le (f : FFmt) (c : Int) : |f.keep c| ≤ max |c| (2 ^ (f.fb + 1)) := by
  have h0 : (0 : Int) < 2 ^ (f.fb + 1) := by positivity
  rcases f.keep_spec c with ⟨-, he⟩ | ⟨hc, hlo, hhi, -⟩ | ⟨hc, hlo, hhi, -⟩
  · rw [he]; exact le_max_left ..
  · rw [abs_of_pos (by omega), abs_of_pos (by omega)]; exact hhi.trans (le_max_left ..)
  · rw [abs_of_neg (by omega), abs_of_neg (by omega)]; exact (neg_le_neg hlo).trans (le_max_left ..)

/-- The units kept of a pick lie no farther from a real number near the value than the pick may. -/
theorem FFmt.keep_near (f : FFmt) {c : Int} {x y tol : ℝ} (hx : |x| < 2 ^ (f.fb + 1)) (hy : |x - y| ≤ 3 / 32) (_ht : 0 ≤ tol)
    (h1 : x - 1 / 2 ^ 20 - tol < c) (h2 : c ≤ x + tol) : |(f.keep c : ℝ) - y| ≤ tol + 1 / 8 := by
  rw [abs_lt] at hx
  rw [abs_le] at hy
  have hc : |(c : ℝ) - y| ≤ tol + 1 / 8 := by
    rw [abs_le]
    norm_num at h1 ⊢
    constructor <;> linarith
  rcases f.keep_spec c with ⟨-, he⟩ | ⟨-, hlo, hhi, -⟩ | ⟨-, hlo, hhi, -⟩
  · rw [he]; exact hc
  · have hlo' := (Int.cast_le (R := ℝ)).2 hlo
    have hhi' := (Int.cast_le (R := ℝ)).2 hhi
    push_cast at hlo'
    rw [abs_le] at hc ⊢
    constructor <;> linarith
  · have hlo' := (Int.cast_le (R := ℝ)).2 hlo
    have hhi' := (Int.cast_le (R := ℝ)).2 hhi
    push_cast at hhi'
    rw [abs_le] at hc ⊢
    constructor <;> linarith

theorem FFmt.keep_of_abs_le (f : FFmt) {c : Int} (h : |(c : ℝ)| ≤ 2 ^ (f.fb + 1)) : f.keep c = c := by
  have hc : |c| ≤ 2 ^ (f.fb + 1) := by exact_mod_cast h
  rcases f.keep_spec c with ⟨-, he⟩ | ⟨h, -⟩ | ⟨h, -⟩
  · exact he
  · exact absurd (le_abs_self c) (by omega)
  · exact absurd (neg_le_abs c) (by omega)

/-- How many units a choice may have. -/
theorem FFmt.pick_bound (f : FFmt) {c : Int} {x tol : ℝ} (hx : |x| < 2 ^ (f.fb + 1)) (ht : tol ≤ 2 ^ f.fb)
    (h1 : x - 1 / 2 ^ 20 - tol < c) (h2 : c ≤ x + tol) : |(c : ℝ)| < 2 ^ (f.fb + 1) + 2 ^ f.fb + 1 := by
  rw [abs_lt] at hx ⊢
  norm_num at h1
  constructor <;> linarith

/-- Below the last binade such a number of units is in range. -/
theorem FFmt.Ieee.units_below_range {f : FFmt} (hf : f.Ieee) {u : ℝ} {q : Int} (hq : q < (f.bias : Int) - f.fb)
    (hu : u < 2 ^ (f.fb + 1) + 2 ^ f.fb + 1) : u * (2 : ℝ) ^ q ≤ f.topVal := by
  have hp : (0 : ℝ) < 2 ^ q := by positivity
  have h7 : (2 : ℝ) ^ 7 ≤ 2 ^ f.fb := pow_le_pow_right₀ one_le_two hf.fb_pos
  have hq1 : (2 : ℝ) ^ q * 2 ≤ 2 ^ ((f.bias : Int) - f.fb) := by
    rw [← zpow_add_one₀ two_ne_zero]
    exact zpow_le_zpow_right₀ one_le_two (by omega)
  rw [pow_succ] at hu
  rw [FFmt.topVal, pow_succ]
  nlinarith

/-- A number of units near a real number is no larger than that by more than the distance. -/
theorem units_le_of_near {u y d : ℝ} {q : Int} (h : |u - y / (2 : ℝ) ^ q| ≤ d) : |u| * (2 : ℝ) ^ q ≤ |y| + d * (2 : ℝ) ^ q := by
  have hp : (0 : ℝ) < 2 ^ q := by positivity
  have hu : |u| ≤ |y / (2 : ℝ) ^ q| + d := by
    have := abs_sub_abs_le_abs_sub u (y / (2 : ℝ) ^ q)
    linarith
  rw [abs_div, abs_of_pos hp] at hu
  have := mul_le_mul_of_nonneg_right hu hp.le
  rwa [add_mul, div_mul_cancel₀ _ hp.ne'] at this

/-- What is kept of a pick stays in range. -/
theorem FFmt.Ieee.keep_in_range {f : FFmt} (hf : f.Ieee) {n : Bool} {m : Nat} {e q c : Int} {y tol : ℝ}
    (hx : |dyadic n m e / (2 : ℝ) ^ q| < 2 ^ (f.fb + 1)) (ht : tol ≤ 2 ^ f.fb)
    (hc1 : dyadic n m e / (2 : ℝ) ^ q - 1 / 2 ^ 20 - tol < c) (hc2 : c ≤ dyadic n m e / (2 : ℝ) ^ q + tol)
    (hc3 : q = (f.bias : Int) - f.fb → dyadic n m e / (2 : ℝ) ^ q ≤ 2 ^ (f.fb + 1) - 1 → (c : ℝ) ≤ 2 ^ (f.fb + 1) - 1)
    (hk : |(f.keep c : ℝ) - y / (2 : ℝ) ^ q| ≤ tol + 1 / 8)
    (hr : q < (f.bias : Int) - f.fb ∨ q = (f.bias : Int) - f.fb ∧
      (n = false ∧ size m e ≤ f.topVal ∨ |y| + (tol + 1 / 8) * (2 : ℝ) ^ q ≤ f.topVal)) :
    |(f.keep c : ℝ)| * (2 : ℝ) ^ q ≤ f.topVal := by
  have hp : (0 : ℝ) < 2 ^ q := by positivity
  have hcabs := f.pick_bound hx ht hc1 hc2
  have h0 : (0 : ℝ) < 2 ^ f.fb := by positivity
  rcases hr with hlt | ⟨hqe, ⟨rfl, hs⟩ | hy⟩
  · refine hf.units_below_range hlt ?_
    have h := (Int.cast_le (R := ℝ)).2 (f.abs_keep_le c)
    push_cast at h
    exact h.trans_lt (max_lt hcabs (by linarith))
  · have htop : f.topVal = (2 ^ (f.fb + 1) - 1) * (2 : ℝ) ^ q := by rw [FFmt.topVal, hqe]
    have hxs : dyadic false m e = size m e := by rw [dyadic_sgn, sgn, if_neg Bool.false_ne_true, one_mul]
    have hxs0 : 0 ≤ size m e / (2 : ℝ) ^ q := div_nonneg (size_nonneg m e) hp.le
    rw [hxs] at hc1 hc3
    have hc4 := hc3 hqe (by rw [div_le_iff₀ hp, ← htop]; exact hs)
    have hc5 : |(c : ℝ)| ≤ 2 ^ (f.fb + 1) - 1 := by
      have h1 : (1 : ℝ) ≤ 2 ^ f.fb := one_le_pow₀ one_le_two
      have h7 : (2 : ℝ) ^ 7 ≤ 2 ^ f.fb := pow_le_pow_right₀ one_le_two hf.fb_pos
      rw [abs_le, pow_succ] at *
      norm_num at hc1
      constructor <;> linarith
    rw [htop, f.keep_of_abs_le (by linarith)]
    exact mul_le_mul_of_nonneg_right hc5 hp.le
  · exact (units_le_of_near hk).trans hy

/-- A pick near a real number, rounded, lies within its tolerance of that number. -/
theorem FFmt.Ieee.pickNear_gives {f : FFmt} (hf : f.Ieee) {ulps : Nat} (hu : 1 ≤ ulps) (ab : Option Int) (n : Bool) {m : Nat}
    (hm : m ≠ 0) (e pick : Int) {y tol : ℝ} {q : Int} (hq : q = f.place ab m e)
    (htol : (pickTol ulps ab q : ℝ) / 2 ^ 20 = tol) (ht0 : 0 ≤ tol) (ht : tol ≤ 2 ^ f.fb)
    (hy : |dyadic n m e - y| ≤ 3 / 32 * (2 : ℝ) ^ q)
    (hr : q < (f.bias : Int) - f.fb ∨ q = (f.bias : Int) - f.fb ∧
      (n = false ∧ size m e ≤ f.topVal ∨ |y| + (tol + 1 / 8) * (2 : ℝ) ^ q ≤ f.topVal)) :
    f.Gives (pickNear f ulps ab (.fin n m e) pick) y ((tol + 1 / 8) * (2 : ℝ) ^ q) := by
  have hp : (0 : ℝ) < 2 ^ q := by positivity
  obtain ⟨c, heq, hc1, hc2, hc3⟩ := hf.pickNear_picks hu ab n hm e pick
  rw [← hq] at heq hc1 hc2 hc3
  rw [htol] at hc1 hc2
  have hx := f.abs_dyadic_div_lt n hm e ((f.place_ge ab m e).trans_eq hq.symm)
  have hxy : |dyadic n m e / (2 : ℝ) ^ q - y / (2 : ℝ) ^ q| ≤ 3 / 32 := by
    rwa [← sub_div, abs_div, abs_of_pos hp, div_le_iff₀ hp]
  have hk := f.keep_near hx hxy ht0 hc1 hc2
  have hcabs : |c| < 2 ^ (f.fb + 2) := by
    have h7 : (2 : ℝ) ^ 7 ≤ 2 ^ f.fb := pow_le_pow_right₀ one_le_two hf.fb_pos
    have : |(c : ℝ)| < 2 ^ (f.fb + 2) := by
      refine (f.pick_bound hx ht hc1 hc2).trans_le ?_
      rw [pow_add, pow_add]
      linarith
    exact_mod_cast this
  have hqe : 1 - (f.bias : Int) - f.fb ≤ q := (f.quant_spec hm e).1.trans ((f.place_ge ab m e).trans_eq hq.symm)
  have hg := hf.gives_ofInt n hqe (f.keep_fits hcabs) (hf.keep_in_range hx ht hc1 hc2 hc3 hk hr)
  rw [heq]
  refine hg.mono ?_
  rw [zero_add, ← div_le_iff₀ hp, ← abs_of_pos hp, ← abs_div, abs_of_pos hp, sub_div, mul_div_cancel_right₀ _ hp.ne']
  exact hk

/-! The bound of a special function: a number of units in the last place of the exact value. -/

/-- A value close enough to a magnitude Y for a choice around it. -/
def FFmt.Close (f : FFmt) (m : Nat) (e : Int) (Y : ℝ) : Prop := |size m e - Y| ≤ 3 / 32 * (2 : ℝ) ^ f.quant m e

/-- A value no larger than the largest finite one, or a magnitude that stays clear of it. -/
def FFmt.Room (f : FFmt) (k : Nat) (n : Bool) (m : Nat) (e : Int) (Y : ℝ) : Prop :=
  n = false ∧ size m e ≤ f.topVal ∨ Y + k * (2 : ℝ) ^ ((f.bias : Int) - f.fb) ≤ f.topVal

theorem FFmt.Ieee.quant_le_of_room {f : FFmt} (hf : f.Ieee) {k : Nat} {n : Bool} {m : Nat} (hm : m ≠ 0) {e : Int} {Y : ℝ}
    (hk : 1 ≤ k) (hc : f.Close m e Y) (hr : f.Room k n m e Y) : f.quant m e ≤ (f.bias : Int) - f.fb := by
  have hb : 1 ≤ f.bias := le_trans (by decide) hf.bias_pos
  rcases hr with ⟨-, hs⟩ | hY
  · exact f.quant_le hb hm hs
  · by_contra hlt
    rw [not_le] at hlt
    obtain ⟨-, -, hge⟩ := f.quant_spec hm e
    have hq2 : 2 * (2 : ℝ) ^ ((f.bias : Int) - f.fb) ≤ 2 ^ f.quant m e := by
      rw [← zpow_one_add₀ two_ne_zero]
      exact zpow_le_zpow_right₀ one_le_two (by omega)
    have hp : (0 : ℝ) < 2 ^ ((f.bias : Int) - f.fb) := by positivity
    have hs : 2 ^ f.fb * (2 : ℝ) ^ f.quant m e ≤ size m e := by
      rw [size_shift m e (f.quant m e)]
      exact mul_le_mul_of_nonneg_right (hge (by omega)) (by positivity)
    have hfb : (1 : ℝ) ≤ 2 ^ f.fb := one_le_pow₀ one_le_two
    have hk' : (1 : ℝ) ≤ k := by exact_mod_cast hk
    rw [FFmt.Close, abs_le] at hc
    rw [FFmt.topVal, pow_succ] at hY
    nlinarith

/-- Around a value whose leading bit the magnitude has too, or which is subnormal, a choice within k units stays within k units
in the last place. -/
theorem FFmt.Ieee.pickNear_within {f : FFmt} (hf : f.Ieee) {k : Nat} (hk : 1 ≤ k) (hk3 : k ≤ 3) (n : Bool) {m : Nat}
    (hm : m ≠ 0) (e pick : Int) {Y : ℝ} (hY : 0 ≤ Y) (hc : f.Close m e Y) (hr : f.Room k n m e Y)
    (hl : (2 : ℝ) ^ ((Nat.log2 m : Int) + e) ≤ Y ∨ (Nat.log2 m : Int) + e ≤ 1 - f.bias) :
    f.Gives (pickNear f k none (.fin n m e) pick) (sgn n * Y) (k * f.ulp (sgn n * Y)) := by
  have hq := hf.quant_le_of_room hm hk hc hr
  have htol : (pickTol k none (f.quant m e) : ℝ) / 2 ^ 20 = k - 1 / 8 := by
    unfold pickTol
    push_cast
    ring
  have hk1 : (1 : ℝ) ≤ k := by exact_mod_cast hk
  have hk3' : (k : ℝ) ≤ 3 := by exact_mod_cast hk3
  have h7 : (2 : ℝ) ^ 7 ≤ 2 ^ f.fb := pow_le_pow_right₀ one_le_two hf.fb_pos
  have hg := hf.pickNear_gives hk none n hm e pick (y := sgn n * Y) rfl htol (by linarith) (by linarith)
    (by rw [dyadic_sgn, abs_sgn_sub]; exact hc)
    (by
      rcases hq.lt_or_eq with h | h
      · exact .inl h
      · refine .inr ⟨h, hr.imp_right fun hY' => ?_⟩
        rw [abs_sgn_mul, abs_of_nonneg hY, FFmt.place, h]
        linarith)
  refine hg.mono ?_
  rw [sub_self, abs_zero, add_zero, sub_add_cancel, f.ulp_sgn]
  refine mul_le_mul_of_nonneg_left (f.le_ulp hY (q := f.quant m e) ?_) (by linarith)
  have hquant : f.quant m e = max ((Nat.log2 m : Int) + e) (1 - (f.bias : Int)) - f.fb := rfl
  by_cases hs : (Nat.log2 m : Int) + e ≤ 1 - f.bias
  · exact .inr (by omega)
  · exact .inl ((congrArg _ (by omega)).trans_le (hl.resolve_right hs))

/-- Within one unit of a value just above 2^fb units, that is all there is to choose. -/
theorem pick_eq_two_pow {n : Bool} {F : Nat} {s : ℝ} {c : Int} (h1 : 2 ^ F ≤ s) (h2 : s < 2 ^ F + 3 / 32)
    (hc1 : sgn n * s - 1 / 2 ^ 20 - 7 / 8 < c) (hc2 : c ≤ sgn n * s + 7 / 8) : (c : ℝ) = sgn n * 2 ^ F := by
  have hcI : c = if n then -2 ^ F else 2 ^ F := by
    cases n <;> simp only [sgn, Bool.false_eq_true, if_false, if_true] at hc1 hc2 ⊢
    · have h1 : ((2 ^ F - 1 : Int) : ℝ) < c := by push_cast; norm_num at hc1; linarith
      have h2 : (c : ℝ) < (2 ^ F + 1 : Int) := by push_cast; linarith
      have := Int.cast_lt.1 h1
      have := Int.cast_lt.1 h2
      omega
    · have h1 : ((-2 ^ F - 1 : Int) : ℝ) < c := by push_cast; norm_num at hc1; linarith
      have h2 : (c : ℝ) < (-2 ^ F + 1 : Int) := by push_cast; linarith
      have := Int.cast_lt.1 h1
      have := Int.cast_lt.1 h2
      omega
  rw [hcI]
  cases n <;> simp [sgn]

/-- A power of two, chosen around a value that has just reached it, when Y has not: within half a unit of Y. -/
theorem FFmt.Ieee.pickNear_at_power {f : FFmt} (hf : f.Ieee) (n : Bool) {m : Nat} (hm : m ≠ 0) (e pick : Int) {Y : ℝ}
    (hc : f.Close m e Y) (hq : f.quant m e ≤ (f.bias : Int) - f.fb)
    (hYlt : Y < 2 ^ f.fb * (2 : ℝ) ^ f.quant m e) (hlead : 2 ^ f.fb * (2 : ℝ) ^ f.quant m e ≤ size m e) :
    f.Gives (pickNear f 1 none (.fin n m e) pick) (sgn n * Y) (3 / 32 * (2 : ℝ) ^ f.quant m e) := by
  obtain ⟨c, heq, hc1, hc2, -⟩ := hf.pickNear_picks le_rfl none n hm e pick
  rw [show f.place none m e = f.quant m e from rfl] at heq hc1 hc2
  rw [FFmt.Close, abs_le] at hc
  have hqe := (f.quant_spec hm e).1
  generalize f.quant m e = q at *
  have hp : (0 : ℝ) < 2 ^ q := by positivity
  have htol : (pickTol 1 none q : ℝ) / 2 ^ 20 = 7 / 8 := by
    unfold pickTol
    norm_num
  rw [htol, dyadic_sgn, mul_div_assoc] at hc1 hc2
  have hcv := pick_eq_two_pow (F := f.fb) (by rwa [le_div_iff₀ hp]) (by rw [div_lt_iff₀ hp]; linarith) hc1 hc2
  have hcabs : |(c : ℝ)| = 2 ^ f.fb := by rw [hcv, abs_sgn_mul, abs_of_pos (by positivity)]
  have hlt : (2 : ℝ) ^ f.fb < 2 ^ (f.fb + 1) := pow_lt_pow_right₀ one_lt_two (Nat.lt_succ_self _)
  have hfits : c.natAbs < 2 ^ (f.fb + 1) := by
    have : (c.natAbs : ℝ) < (2 ^ (f.fb + 1) : Nat) := by rw [Nat.cast_natAbs, Int.cast_abs, hcabs]; push_cast; exact hlt
    exact_mod_cast this
  have hg := hf.gives_ofInt (c := c) (q := q) n hqe (.inl hfits) (by
    rw [hcabs, ← zpow_natCast, ← zpow_add₀ two_ne_zero]
    exact (zpow_le_zpow_right₀ one_le_two (by omega)).trans f.two_zpow_le_topVal)
  rw [heq, f.keep_of_abs_le (hcabs.trans_le hlt.le)]
  refine hg.mono ?_
  rw [hcv, mul_assoc, abs_sgn_sub, zero_add, abs_of_pos (by linarith)]
  linarith

/-- A choice within one unit needs no such care: where the value has just reached a power of two, nothing else can be chosen. -/
theorem FFmt.Ieee.pickNear_within_one {f : FFmt} (hf : f.Ieee) (n : Bool) {m : Nat} (hm : m ≠ 0) (e pick : Int) {Y : ℝ}
    (hY : 0 ≤ Y) (hc : f.Close m e Y) (hr : f.Room 1 n m e Y) :
    f.Gives (pickNear f 1 none (.fin n m e) pick) (sgn n * Y) (f.ulp (sgn n * Y)) := by
  by_cases hl : (2 : ℝ) ^ ((Nat.log2 m : Int) + e) ≤ Y ∨ (Nat.log2 m : Int) + e ≤ 1 - f.bias
  · simpa using hf.pickNear_within le_rfl (by decide) n hm e pick hY hc hr hl
  rw [not_or, not_le, not_le] at hl
  obtain ⟨hYlt, hev⟩ := hl
  have hquant : (f.fb : Int) + f.quant m e = (Nat.log2 m : Int) + e := by unfold FFmt.quant; omega
  have hlead := zpow_le_size hm e
  rw [← hquant, zpow_add₀ two_ne_zero, zpow_natCast] at hYlt hlead
  refine (hf.pickNear_at_power n hm e pick hc (hf.quant_le_of_room hm le_rfl hc hr) hYlt hlead).mono ?_
  have hp : (0 : ℝ) < 2 ^ f.quant m e := by positivity
  have hulp : (2 : ℝ) ^ (f.quant m e - 1) ≤ f.ulp Y := by
    refine f.le_ulp hY (.inl ?_)
    rw [FFmt.Close, abs_le] at hc
    have h1 : (1 : ℝ) ≤ 2 ^ f.fb := one_le_pow₀ one_le_two
    rw [show f.quant m e - 1 + (f.fb : Int) = (f.fb : Int) + f.quant m e - 1 by ring, zpow_sub_one₀ two_ne_zero,
      zpow_add₀ two_ne_zero, zpow_natCast]
    nlinarith
  rw [zpow_sub_one₀ two_ne_zero] at hulp
  rw [f.ulp_sgn, sub_self, abs_zero, add_zero]
  linarith

theorem FFmt.Ieee.close_of_rel {f : FFmt} (hf : f.Ieee) {m : Nat} {e : Int} {Y : ℝ}
    (h : |size m e - Y| ≤ 3 / 2 ^ 29 * size m e) : f.Close m e Y := by
  refine h.trans ?_
  have hs : size m e ≤ (2 : ℝ) ^ (f.quant m e + 24) := by
    refine (size_lt_zpow m e).le.trans (zpow_le_zpow_right₀ one_le_two ?_)
    have := hf.fb_le
    unfold FFmt.quant
    omega
  rw [zpow_add₀ two_ne_zero] at hs
  norm_num at hs ⊢
  linarith

theorem FFmt.Ieee.close_of_abs {f : FFmt} (hf : f.Ieee) {m : Nat} {e : Int} {Y : ℝ}
    (h : |size m e - Y| ≤ (2 : ℝ) ^ (-153 : Int)) : f.Close m e Y := by
  refine h.trans ?_
  have hs : (2 : ℝ) ^ (-149 : Int) ≤ 2 ^ f.quant m e := by
    refine zpow_le_zpow_right₀ one_le_two ?_
    have := hf.fb_le
    have := hf.bias_le
    unfold FFmt.quant
    omega
  have : (2 : ℝ) ^ (-149 : Int) = 2 ^ (-153 : Int) * 16 := by norm_num
  have hpos : (0 : ℝ) < 2 ^ (-153 : Int) := by positivity
  rw [this] at hs
  generalize (2 : ℝ) ^ (-153 : Int) = a at hs hpos
  linarith

/-- A choice around a value close to Y, for each of the three formats: of b units for f32, of one for the others. -/
theorem pickNear_ulps {t : Nat} (ht : t = 8 ∨ t = 9 ∨ t = 10) {b : Nat} (hb : 1 ≤ b) (hb3 : b ≤ 3) {n : Bool} {m : Nat}
    (hm : m ≠ 0) {e pick : Int} {Y : ℝ} (hY : 0 ≤ Y) (hc : (fmtOf t).Close m e Y)
    (hr : (fmtOf t).Room (if t = 10 then b else 1) n m e Y)
    (hl : t = 10 → (2 : ℝ) ^ ((Nat.log2 m : Int) + e) ≤ Y ∨ (Nat.log2 m : Int) + e ≤ -126) :
    (fmtOf t).Gives (pickNear (fmtOf t) (if t = 10 then b else 1) none (.fin n m e) pick) (sgn n * Y)
      ((if t = 10 then (b : ℝ) else 1) * (fmtOf t).ulp (sgn n * Y)) := by
  by_cases h10 : t = 10
  · subst h10
    exact (ieee_fmtOf ht).pickNear_within hb hb3 n hm e pick hY hc hr (hl rfl)
  · rw [if_neg h10] at hr ⊢
    rw [if_neg h10, one_mul]
    exact (ieee_fmtOf ht).pickNear_within_one n hm e pick hY hc hr

/-- A value at most Y and close to it. -/
theorem pickNear_ulps_below {t : Nat} (ht : t = 8 ∨ t = 9 ∨ t = 10) {b : Nat} (hb : 1 ≤ b) (hb3 : b ≤ 3) {n : Bool} {m : Nat}
    (hm : m ≠ 0) {e pick : Int} {Y : ℝ} (h1 : size m e ≤ Y) (h2 : Y ≤ (1 + 3 / 2 ^ 29) * size m e)
    (hr : (fmtOf t).Room (if t = 10 then b else 1) n m e Y) :
    (fmtOf t).Gives (pickNear (fmtOf t) (if t = 10 then b else 1) none (.fin n m e) pick) (sgn n * Y)
      ((if t = 10 then (b : ℝ) else 1) * (fmtOf t).ulp (sgn n * Y)) := by
  refine pickNear_ulps ht hb hb3 hm ((size_nonneg m e).trans h1) ((ieee_fmtOf ht).close_of_rel ?_) hr
    fun _ => .inl ((zpow_le_size hm e).trans h1)
  rw [abs_sub_comm, abs_of_nonneg (sub_nonneg.2 h1)]
  linarith

/-- A magnitude of at most 2^9 leaves room. -/
theorem room_of_le {t : Nat} (ht : t = 8 ∨ t = 9 ∨ t = 10) {b : Nat} (hb3 : b ≤ 3) (n : Bool) (m : Nat) (e : Int) {Y : ℝ}
    (hY : Y ≤ 2 ^ 9) : (fmtOf t).Room (if t = 10 then b else 1) n m e Y := by
  right
  have hk : ((if t = 10 then b else 1 : Nat) : ℝ) ≤ 3 := by
    split
    · exact_mod_cast hb3
    · norm_num
  have h : (2 : ℝ) ^ 9 + 3 * 2 ^ (((fmtOf t).bias : Int) - (fmtOf t).fb) ≤ (fmtOf t).topVal := by
    rw [FFmt.topVal]
    rcases ht with rfl | rfl | rfl
    · rw [show (fmtOf 8).fb = 10 from rfl, show (fmtOf 8).bias = 15 from rfl]; norm_num
    · rw [show (fmtOf 9).fb = 7 from rfl, show (fmtOf 9).bias = 127 from rfl]; norm_num
    · rw [show (fmtOf 10).fb = 23 from rfl, show (fmtOf 10).bias = 127 from rfl]; norm_num
  refine le_trans (add_le_add hY (mul_le_mul_of_nonneg_right hk (by positivity))) h

/-! ### ln 2 in fixed point -/

/-- The sum of s / (i 2^i) for i from 1 to n, each term rounded down. -/
def ln2Sum (s : Nat) : Nat → Nat
  | 0 => 0
  | n + 1 => ln2Sum s n + s / ((n + 1) * 2 ^ (n + 1))

theorem div_floor_spec (a : Nat) {b : Nat} (hb : b ≠ 0) : ((a / b : Nat) : ℝ) * b ≤ a ∧ (a : ℝ) < ((a / b : Nat) + 1) * b := by
  have h := Nat.lt_div_mul_add (a := a) (Nat.pos_of_ne_zero hb)
  constructor
  · exact_mod_cast Nat.div_mul_le_self a b
  · have : a < (a / b + 1) * b := by rwa [Nat.succ_mul]
    exact_mod_cast this

theorem ln2Sum_spec (s n : Nat) :
    (ln2Sum s n : ℝ) ≤ s * ∑ i ∈ Finset.range n, (1 / 2 : ℝ) ^ (i + 1) / (i + 1) ∧
      s * ∑ i ∈ Finset.range n, (1 / 2 : ℝ) ^ (i + 1) / (i + 1) ≤ ln2Sum s n + n := by
  induction n with
  | zero => simp [ln2Sum]
  | succ n ih =>
    obtain ⟨h1, h2⟩ := div_floor_spec s (b := (n + 1) * 2 ^ (n + 1)) (by positivity)
    have hp : (0 : ℝ) < ((n + 1) * 2 ^ (n + 1) : Nat) := by positivity
    have hterm : (s : ℝ) * ((1 / 2 : ℝ) ^ (n + 1) / (n + 1)) = s / ((n + 1) * 2 ^ (n + 1) : Nat) := by
      push_cast
      rw [one_div, inv_pow]
      field_simp
    rw [← le_div_iff₀ hp] at h1
    rw [← div_lt_iff₀ hp] at h2
    rw [Finset.sum_range_succ, mul_add, hterm, ln2Sum, Nat.cast_add, Nat.cast_add, Nat.cast_one]
    constructor <;> linarith

/-- `fxLn2` is ln 2 with 160 fraction bits, rounded down. -/
theorem fxLn2_spec : (fxLn2 : ℝ) ≤ 2 ^ 160 * Real.log 2 ∧ 2 ^ 160 * Real.log 2 ≤ fxLn2 + 1 := by
  have hseries := Real.abs_log_sub_add_sum_range_le (x := 1 / 2) (by rw [abs_of_pos] <;> norm_num) 190
  have hlog : Real.log (1 - 1 / 2) = -Real.log 2 := by
    rw [show (1 : ℝ) - 1 / 2 = 2⁻¹ by norm_num, Real.log_inv]
  obtain ⟨h1, h2⟩ := ln2Sum_spec (2 ^ 180) 190
  have hlo : fxLn2 * 2 ^ 20 + 1 ≤ ln2Sum (2 ^ 180) 190 := by decide +kernel
  have hhi : ln2Sum (2 ^ 180) 190 + 191 ≤ (fxLn2 + 1) * 2 ^ 20 := by decide +kernel
  have hlo' : (fxLn2 : ℝ) * 2 ^ 20 + 1 ≤ ln2Sum (2 ^ 180) 190 := by exact_mod_cast hlo
  have hhi' : (ln2Sum (2 ^ 180) 190 : ℝ) + 191 ≤ (fxLn2 + 1) * 2 ^ 20 := by exact_mod_cast hhi
  rw [hlog, abs_of_pos (by norm_num : (0 : ℝ) < 1 / 2)] at hseries
  generalize ∑ i ∈ Finset.range 190, (1 / 2 : ℝ) ^ (i + 1) / (i + 1) = S at hseries h1 h2
  have herr : |(2 ^ 180 : Nat) * S - 2 ^ 160 * Real.log 2 * 2 ^ 20| ≤ 1 := by
    have hfac : ((2 ^ 180 : Nat) : ℝ) * S - 2 ^ 160 * Real.log 2 * 2 ^ 20 = 2 ^ 180 * (S + -Real.log 2) := by
      rw [Nat.cast_pow, Nat.cast_two]
      ring
    rw [hfac, abs_mul, abs_of_pos (by positivity : (0 : ℝ) < 2 ^ 180)]
    refine (mul_le_mul_of_nonneg_left hseries (by positivity)).trans ?_
    norm_num
  rw [abs_le] at herr
  generalize (2 : ℝ) ^ 160 * Real.log 2 = L at herr ⊢
  generalize ((2 ^ 180 : Nat) : ℝ) * S = T at h1 h2 herr
  rw [Nat.cast_ofNat] at h2
  constructor <;> linarith

/-! ### The exponential in fixed point -/

theorem fxOne_cast : (fxOne : ℝ) = 2 ^ 160 := by rw [fxOne, Nat.cast_pow, Nat.cast_two]; rfl
theorem fxOne_pos : (0 : ℝ) < fxOne := by rw [fxOne_cast]; positivity
theorem fxOne_ne_zero : fxOne ≠ 0 := by decide

/-- Term j of the exponential series. -/
noncomputable def expTerm (x : ℝ) (j : Nat) : ℝ := x ^ j / j.factorial

theorem expTerm_succ (x : ℝ) (j : Nat) : expTerm x (j + 1) = expTerm x j * x / (j + 1) := by
  rw [expTerm, expTerm, pow_succ, Nat.factorial_succ]
  push_cast
  field_simp
theorem expTerm_zero (x : ℝ) : expTerm x 0 = 1 := by simp [expTerm]
theorem expTerm_one (x : ℝ) : expTerm x 1 = x := by simp [expTerm]

theorem sum_expTerm_shift (x : ℝ) (n k : Nat) :
    ∑ j ∈ Finset.range (n + 1), expTerm x (k + j) = expTerm x k + ∑ j ∈ Finset.range n, expTerm x (k + 1 + j) := by
  rw [Finset.sum_range_succ', Nat.add_zero, add_comm]
  exact congrArg _ (Finset.sum_congr rfl fun j _ => congrArg _ (by rw [Nat.add_comm j, Nat.add_assoc]))

/-- The terms of the exponential series after term k, each rounded down. -/
theorem expTerms_spec {r : Nat} (hr : r ≤ fxOne) (n : Nat) {k t : Nat} (hk : 1 ≤ k)
    (h1 : (t : ℝ) ≤ fxOne * expTerm (r / fxOne) k) (h2 : fxOne * expTerm (r / fxOne) k ≤ t + 2) :
    (expTerms r n (k + 1) t : ℝ) ≤ fxOne * ∑ j ∈ Finset.range n, expTerm (r / fxOne) (k + 1 + j) ∧
      fxOne * ∑ j ∈ Finset.range n, expTerm (r / fxOne) (k + 1 + j) ≤ expTerms r n (k + 1) t + 2 * n := by
  induction n generalizing k t with
  | zero => simp [expTerms]
  | succ n ih =>
    have hone := fxOne_pos
    obtain ⟨hd1, hd2⟩ := div_floor_spec (t * r) (b := fxOne * (k + 1)) (Nat.mul_ne_zero fxOne_ne_zero k.succ_ne_zero)
    have hp : (0 : ℝ) < (fxOne * (k + 1) : Nat) := by push_cast; positivity
    rw [← le_div_iff₀ hp] at hd1
    rw [← div_lt_iff₀ hp] at hd2
    have hq : ((t * r : Nat) : ℝ) / (fxOne * (k + 1) : Nat) = t * (r / fxOne) / (k + 1) := by
      push_cast
      field_simp
    rw [hq] at hd1 hd2
    have hrho : (r / fxOne : ℝ) ≤ 1 := by rw [div_le_one hone]; exact_mod_cast hr
    have hrho0 : (0 : ℝ) ≤ r / fxOne := by positivity
    rw [sum_expTerm_shift, mul_add, expTerms, Nat.div_div_eq_div_mul, Nat.cast_add, Nat.cast_add, Nat.cast_one]
    have hk1 : (2 : ℝ) ≤ k + 1 := by
      have : (1 : ℝ) ≤ k := by exact_mod_cast hk
      linarith
    have hterm : (fxOne : ℝ) * expTerm (r / fxOne) (k + 1) = fxOne * expTerm (r / fxOne) k * (r / fxOne) / (k + 1) := by
      rw [expTerm_succ]; ring
    generalize (r / fxOne : ℝ) = x at *
    have h1' : ((t * r / (fxOne * (k + 1)) : Nat) : ℝ) ≤ fxOne * expTerm x (k + 1) := by
      rw [hterm]
      refine hd1.trans ?_
      gcongr
    have h2' : fxOne * expTerm x (k + 1) ≤ (t * r / (fxOne * (k + 1)) : Nat) + 2 := by
      have hstep : fxOne * expTerm x k * x / (k + 1) ≤ (t + 2) * x / (k + 1) := by gcongr
      have hsmall : 2 * x / (k + 1 : ℝ) ≤ 1 := by
        rw [div_le_one (by linarith)]
        linarith
      rw [add_mul, add_div] at hstep
      rw [hterm]
      linarith
    obtain ⟨ih1, ih2⟩ := ih (by omega) h1' h2'
    constructor <;> linarith

/-- The fixed-point exponential lies below the exponential, by less than 80 units. -/
theorem expFrac_spec {r : Nat} (hr : r ≤ fxOne) :
    (expFrac r : ℝ) ≤ fxOne * Real.exp (r / fxOne) ∧ fxOne * Real.exp (r / fxOne) ≤ expFrac r + 80 := by
  have hone := fxOne_pos
  have hrho : (r / fxOne : ℝ) ≤ 1 := by rw [div_le_one hone]; exact_mod_cast hr
  have hrho0 : (0 : ℝ) ≤ r / fxOne := by positivity
  have hfirst : (fxOne : ℝ) * (r / fxOne) = r := mul_div_cancel₀ _ hone.ne'
  obtain ⟨h1, h2⟩ := expTerms_spec hr 39 (k := 1) (t := r) le_rfl (by rw [expTerm_one, hfirst])
    (by rw [expTerm_one, hfirst]; linarith)
  have hsplit : expFrac r = fxOne + (r + expTerms r 39 2 r) := by
    rw [expFrac, expTerms, Nat.div_one, Nat.mul_div_cancel_left _ (Nat.pos_of_ne_zero fxOne_ne_zero)]
  have hcast : (expFrac r : ℝ) = fxOne + (r + expTerms r 39 2 r) := by exact_mod_cast hsplit
  have hlow := Real.sum_le_exp_of_nonneg hrho0 41
  have hupp := Real.exp_bound' hrho0 hrho (n := 41) (by decide)
  have hpow : (r / fxOne : ℝ) ^ 41 ≤ 1 := pow_le_one₀ hrho0 hrho
  have hsum : ∑ j ∈ Finset.range 41, (r / fxOne : ℝ) ^ j / j.factorial =
      1 + (r / fxOne + ∑ j ∈ Finset.range 39, expTerm (r / fxOne) (1 + 1 + j)) := by
    have h0 := sum_expTerm_shift (r / fxOne : ℝ) 40 0
    rw [sum_expTerm_shift (r / fxOne : ℝ) 39 (0 + 1), expTerm_zero, Nat.zero_add, expTerm_one] at h0
    rw [← h0]
    exact Finset.sum_congr rfl fun j _ => by rw [Nat.zero_add]; rfl
  rw [hsum] at hlow hupp
  have hfac : fxOne * (41 + 1) ≤ Nat.factorial 41 * 41 := by decide +kernel
  generalize Nat.factorial 41 = F at hupp hfac
  have hrest : (fxOne : ℝ) * ((r / fxOne : ℝ) ^ 41 * ((41 : Nat) + 1) / (F * (41 : Nat))) ≤ 1 := by
    have hfac' : (fxOne : ℝ) * ((41 : Nat) + 1) ≤ F * (41 : Nat) := by exact_mod_cast hfac
    have hp : (0 : ℝ) < F * (41 : Nat) := lt_of_lt_of_le (mul_pos hone (by norm_num)) hfac'
    rw [← mul_div_assoc, div_le_one hp, mul_left_comm]
    exact (mul_le_of_le_one_left (mul_nonneg hone.le (by norm_num)) hpow).trans hfac'
  rw [hcast]
  generalize (r / fxOne : ℝ) = x at *
  have hlow' := mul_le_mul_of_nonneg_left hlow hone.le
  have hupp' := mul_le_mul_of_nonneg_left hupp hone.le
  rw [mul_add, mul_add, hfirst, mul_one] at hlow'
  rw [mul_add, mul_add, mul_add, hfirst, mul_one] at hupp'
  rw [Nat.cast_ofNat] at h2
  exact ⟨by linarith, by linarith⟩

/-- Close in proportion: x lies within a factor of 1 ± d of y. -/
def Rel (d x y : ℝ) : Prop := |x - y| ≤ d * y

theorem Rel.mono {d d' x y : ℝ} (h : Rel d x y) (hy : 0 ≤ y) (hd : d ≤ d') : Rel d' x y :=
  le_trans h (mul_le_mul_of_nonneg_right hd hy)
theorem Rel.bounds {d x y : ℝ} (h : Rel d x y) : (1 - d) * y ≤ x ∧ x ≤ (1 + d) * y := by
  rw [Rel, abs_le] at h
  constructor <;> linarith
theorem Rel.mul {d d' x x' y y' : ℝ} (h : Rel d x y) (h' : Rel d' x' y') (hy : 0 ≤ y) (hy' : 0 ≤ y') :
    Rel (d + d' + d * d') (x * x') (y * y') := by
  rw [Rel] at *
  have hx' : |x'| ≤ (1 + d') * y' := by
    have := abs_sub_abs_le_abs_sub x' y'
    rw [abs_of_nonneg hy'] at this
    linarith
  calc |x * x' - y * y'| = |(x - y) * x' + y * (x' - y')| := by ring_nf
    _ ≤ |x - y| * |x'| + y * |x' - y'| := by
      refine (abs_add_le ..).trans_eq ?_
      rw [abs_mul, abs_mul, abs_of_nonneg hy]
    _ ≤ (d * y) * ((1 + d') * y') + y * (d' * y') := by
      have := abs_nonneg (x - y)
      gcongr
      linarith
    _ = (d + d' + d * d') * (y * y') := by ring
theorem Rel.swap {d x y : ℝ} (h : Rel d x y) (hd0 : 0 ≤ d) (hd : d ≤ 1 / 2) (hy : 0 ≤ y) : Rel (2 * d) y x := by
  have hx : y ≤ 2 * x := by linarith [h.bounds.1, mul_le_mul_of_nonneg_right hd hy]
  calc |y - x| = |x - y| := abs_sub_comm ..
    _ ≤ d * y := h
    _ ≤ d * (2 * x) := mul_le_mul_of_nonneg_left hx hd0
    _ = 2 * d * x := by ring

theorem expFx_eq (y : Int) :
    ∃ k : Int, ∃ r : Nat, expFx y = .fin false (expFrac r) (k - 160) ∧ y = k * fxLn2 + r ∧ r < fxLn2 ∧ k = y / fxLn2 := by
  have hp : (0 : Int) < fxLn2 := by decide
  have h0 := Int.emod_nonneg y hp.ne'
  have h1 := Int.emod_lt_of_pos y hp
  have h2 := Int.ediv_mul_add_emod y fxLn2
  refine ⟨y / fxLn2, (y - y / fxLn2 * fxLn2).toNat, rfl, ?_, ?_, rfl⟩ <;> omega

/-- Multiples of `fxLn2` count powers of two. -/
theorem exp_mul_fxLn2 {k : Int} (hk : |k| ≤ 2 ^ 11) :
    Rel (1 / 2 ^ 148) (Real.exp (k * (fxLn2 / fxOne))) (2 ^ k) := by
  obtain ⟨h1, h2⟩ := fxLn2_spec
  rw [← fxOne_cast] at h1 h2
  have hone := fxOne_pos
  have hk' : |(k : ℝ)| ≤ 2 ^ 11 := by exact_mod_cast hk
  obtain ⟨z, hz⟩ : ∃ z : ℝ, z = k * (fxLn2 / fxOne - Real.log 2) := ⟨_, rfl⟩
  have hd : |(fxLn2 / fxOne : ℝ) - Real.log 2| ≤ 1 / 2 ^ 160 := by
    have hlo : (fxLn2 / fxOne : ℝ) ≤ Real.log 2 := by rw [div_le_iff₀ hone]; linarith
    have hhi : Real.log 2 ≤ fxLn2 / fxOne + 1 / fxOne := by rw [← add_div, le_div_iff₀ hone]; linarith
    rw [← fxOne_cast, abs_of_nonpos (by linarith)]
    linarith
  have hz1 : |z| ≤ 1 / 2 ^ 149 := by
    rw [hz, abs_mul]
    calc |(k : ℝ)| * |(fxLn2 / fxOne : ℝ) - Real.log 2| ≤ 2 ^ 11 * (1 / 2 ^ 160) := by gcongr
      _ = 1 / 2 ^ 149 := by norm_num
  have hsplit : Real.exp (k * (fxLn2 / fxOne)) = Real.exp z * 2 ^ k := by
    rw [← Real.rpow_intCast, Real.rpow_def_of_pos two_pos, ← Real.exp_add, hz]
    ring_nf
  have he := Real.abs_exp_sub_one_le (x := z) (hz1.trans (by norm_num))
  have hp : (0 : ℝ) < 2 ^ k := by positivity
  rw [Rel, hsplit, ← sub_one_mul, abs_mul, abs_of_pos hp]
  refine mul_le_mul_of_nonneg_right (he.trans ?_) hp.le
  calc 2 * |z| ≤ 2 * (1 / 2 ^ 149) := by gcongr
    _ = 1 / 2 ^ 148 := by norm_num

theorem fxLn2_lt : fxLn2 ≤ fxOne := by decide +kernel

/-- The exponential of a fixed-point number, as a value. -/
theorem expFx_spec {y : Int} (hy : |y| ≤ 2 ^ 10 * fxOne) :
    ∃ m : Nat, m ≠ 0 ∧ expFx y = .fin false m (y / fxLn2 - 160) ∧
      Rel (1 / 2 ^ 140) (size m (y / fxLn2 - 160)) (Real.exp (y / fxOne)) := by
  obtain ⟨k, r, heq, hy', hr, hk⟩ := expFx_eq y
  have hone := fxOne_pos
  obtain ⟨hf1, hf2⟩ := expFrac_spec (hr.le.trans fxLn2_lt)
  have hk11 : |k| ≤ 2 ^ 11 := by
    have hbig : (fxOne : Int) ≤ 2 * fxLn2 := by decide +kernel
    have hpos : (0 : Int) < fxLn2 := by decide +kernel
    rw [abs_le] at hy ⊢
    have : (r : Int) < fxLn2 := by exact_mod_cast hr
    constructor <;> nlinarith
  have hpow := exp_mul_fxLn2 hk11
  have hE : (1 : ℝ) ≤ Real.exp (r / fxOne) := Real.one_le_exp (by positivity)
  refine ⟨expFrac r, ?_, by rw [heq, hk], ?_⟩
  · unfold expFrac
    have := fxOne_ne_zero
    omega
  have hsize : size (expFrac r) (k - 160) = expFrac r / fxOne * 2 ^ k := by
    rw [size, zpow_sub₀ two_ne_zero, fxOne_cast]
    norm_cast
    ring
  have hexp : Real.exp (y / fxOne) = Real.exp (r / fxOne) * Real.exp (k * (fxLn2 / fxOne)) := by
    rw [← Real.exp_add, hy']
    push_cast
    congr 1
    ring
  have hm : |expFrac r / fxOne - Real.exp (r / fxOne)| ≤ 1 / 2 ^ 150 := by
    rw [abs_of_nonpos (by rw [sub_nonpos, div_le_iff₀ hone]; linarith), neg_sub]
    have : Real.exp (r / fxOne) ≤ expFrac r / fxOne + 80 / fxOne := by rw [← add_div, le_div_iff₀ hone]; linarith
    have h80 : (80 : ℝ) / fxOne ≤ 1 / 2 ^ 150 := by rw [fxOne_cast]; norm_num
    linarith
  have hrel : Rel (1 / 2 ^ 150) (expFrac r / fxOne : ℝ) (Real.exp (r / fxOne)) :=
    hm.trans (le_mul_of_one_le_right (by positivity) hE)
  have hprod := hrel.mul (hpow.swap (by norm_num) (by norm_num) (by positivity)) (Real.exp_pos _).le (Real.exp_pos _).le
  rw [← hk, hsize, hexp]
  exact hprod.mono (by positivity) (by norm_num)

/-! ### The binary logarithm in fixed point -/

/-- Rounding a number of at least 160 bits down costs its logarithm next to nothing. -/
theorem logb_floor {a b : ℝ} (hb : (fxOne : ℝ) ≤ b) (h1 : b ≤ a) (h2 : a < b + 1) :
    Real.logb 2 (b / fxOne) ≤ Real.logb 2 (a / fxOne) ∧ Real.logb 2 (a / fxOne) ≤ Real.logb 2 (b / fxOne) + 1 / 2 ^ 159 := by
  have hone := fxOne_pos
  have hb0 : 0 < b := hone.trans_le hb
  have ha0 : 0 < a := hb0.trans_le h1
  have hln : (1 : ℝ) / 2 ≤ Real.log 2 := by linarith [Real.log_two_gt_d9]
  refine ⟨Real.logb_le_logb_of_le one_lt_two (by positivity) (by gcongr), ?_⟩
  have hdiff : Real.log (a / b) ≤ 1 / 2 ^ 160 := by
    refine (Real.log_le_sub_one_of_pos (by positivity)).trans ?_
    rw [div_sub_one hb0.ne', ← fxOne_cast]
    exact div_le_div₀ zero_le_one (by linarith) hone hb
  rw [Real.log_div ha0.ne' hb0.ne'] at hdiff
  rw [Real.logb, Real.logb, Real.log_div ha0.ne' hone.ne', Real.log_div hb0.ne' hone.ne', ← sub_le_iff_le_add', ← sub_div,
    div_le_iff₀ (by linarith)]
  calc Real.log a - Real.log fxOne - (Real.log b - Real.log fxOne) ≤ 1 / 2 ^ 160 := by linarith
    _ = 1 / 2 ^ 159 * (1 / 2) := by norm_num
    _ ≤ 1 / 2 ^ 159 * Real.log 2 := by gcongr

theorem logb_fx_nonneg {u : Nat} (h : fxOne ≤ u) : 0 ≤ Real.logb 2 (u / fxOne) :=
  Real.logb_nonneg one_lt_two (by rw [le_div_iff₀ fxOne_pos, one_mul]; exact_mod_cast h)
theorem logb_fx_lt_one {u : Nat} (h0 : fxOne ≤ u) (h : u < 2 * fxOne) : Real.logb 2 (u / fxOne) < 1 := by
  have hu : (0 : ℝ) < u := fxOne_pos.trans_le (by exact_mod_cast h0)
  rw [Real.logb_lt_iff_lt_rpow one_lt_two (div_pos hu fxOne_pos), Real.rpow_one, div_lt_iff₀ fxOne_pos]
  exact_mod_cast h

/-- Squaring, rounded down, doubles the logarithm. -/
theorem logb_square {u : Nat} (h0 : fxOne ≤ u) :
    fxOne ≤ u * u / fxOne ∧ Real.logb 2 ((u * u / fxOne : Nat) / fxOne) ≤ 2 * Real.logb 2 (u / fxOne) ∧
      2 * Real.logb 2 (u / fxOne) ≤ Real.logb 2 ((u * u / fxOne : Nat) / fxOne) + 1 / 2 ^ 159 := by
  have hone := fxOne_pos
  have hu : (0 : ℝ) < u := hone.trans_le (by exact_mod_cast h0)
  obtain ⟨hq1, hq2⟩ := div_floor_spec (u * u) fxOne_ne_zero
  rw [← le_div_iff₀ hone] at hq1
  rw [← div_lt_iff₀ hone] at hq2
  have hsq : Real.logb 2 (((u * u : Nat) : ℝ) / fxOne / fxOne) = 2 * Real.logb 2 (u / fxOne) := by
    rw [show ((u * u : Nat) : ℝ) / fxOne / fxOne = (u / fxOne) * (u / fxOne) by push_cast; field_simp,
      Real.logb_mul (by positivity) (by positivity)]
    ring
  have hq0 : fxOne ≤ u * u / fxOne := by
    rw [Nat.le_div_iff_mul_le (Nat.pos_of_ne_zero fxOne_ne_zero)]
    exact Nat.mul_le_mul h0 h0
  rw [← hsq]
  exact ⟨hq0, logb_floor (by exact_mod_cast hq0) hq1 hq2⟩

/-- Halving, rounded down, takes 1 from it. -/
theorem logb_half {q : Nat} (h2 : 2 * fxOne ≤ q) :
    Real.logb 2 ((q / 2 : Nat) / fxOne) ≤ Real.logb 2 (q / fxOne) - 1 ∧
      Real.logb 2 (q / fxOne) - 1 ≤ Real.logb 2 ((q / 2 : Nat) / fxOne) + 1 / 2 ^ 159 := by
  have hone := fxOne_pos
  have hq : (0 : ℝ) < q := (mul_pos two_pos hone).trans_le (by exact_mod_cast h2)
  have hhalf : Real.logb 2 ((q : ℝ) / 2 / fxOne) = Real.logb 2 (q / fxOne) - 1 := by
    rw [div_right_comm, Real.logb_div (by positivity) two_ne_zero, Real.logb_self_eq_one one_lt_two]
  obtain ⟨hr1, hr2⟩ := div_floor_spec q two_ne_zero
  rw [Nat.cast_two, ← le_div_iff₀ two_pos] at hr1
  rw [Nat.cast_two, ← div_lt_iff₀ two_pos] at hr2
  rw [← hhalf]
  exact logb_floor (by exact_mod_cast (by omega : fxOne ≤ q / 2)) hr1 hr2

theorem square_lt {u : Nat} (h1 : u < 2 * fxOne) : u * u / fxOne < 4 * fxOne := by
  rw [Nat.div_lt_iff_lt_mul (Nat.pos_of_ne_zero fxOne_ne_zero)]
  nlinarith

/-- The digits of a logarithm: squaring doubles it, and a value of 2 or more gives a digit 1. -/
theorem logDigits_spec (n : Nat) {u : Nat} (h0 : fxOne ≤ u) (h1 : u < 2 * fxOne) (acc : Nat) :
    ∃ D : Nat, logDigits n u acc = acc * 2 ^ n + D ∧ (D : ℝ) ≤ 2 ^ n * Real.logb 2 (u / fxOne) ∧
      2 ^ n * Real.logb 2 (u / fxOne) ≤ D + 1 + 2 ^ n / 2 ^ 157 := by
  induction n generalizing u acc with
  | zero =>
    have h2 := logb_fx_nonneg h0
    have h3 := logb_fx_lt_one h0 h1
    have h4 : (0 : ℝ) ≤ 2 ^ 0 / 2 ^ 157 := by positivity
    refine ⟨0, by simp [logDigits], ?_, ?_⟩ <;> rw [pow_zero, one_mul, Nat.cast_zero]
    · exact h2
    · linarith
  | succ n ih =>
    obtain ⟨hq0, hl1, hl2⟩ := logb_square h0
    have hq4 := square_lt h1
    have hp : (0 : ℝ) < 2 ^ n := by positivity
    have heps : (2 : ℝ) ^ n * (1 / 2 ^ 158) + 2 ^ n / 2 ^ 157 ≤ 2 ^ n * 2 / 2 ^ 157 := by
      have : (2 : ℝ) ^ n * (1 / 2 ^ 158) ≤ 2 ^ n * (1 / 2 ^ 157) := mul_le_mul_of_nonneg_left (by norm_num) hp.le
      linarith
    have h159 : (1 : ℝ) / 2 ^ 159 + 1 / 2 ^ 159 = 1 / 2 ^ 158 := by norm_num
    have h159' : (0 : ℝ) ≤ 1 / 2 ^ 159 := by positivity
    rw [logDigits]
    generalize u * u / fxOne = q at *
    split
    next h2 =>
      obtain ⟨D, hD, hD1, hD2⟩ := ih (u := q / 2) (by omega) (by omega) (2 * acc + 1)
      obtain ⟨hm1, hm2⟩ := logb_half h2
      refine ⟨2 ^ n + D, by rw [hD]; ring, ?_, ?_⟩ <;> push_cast <;> rw [pow_succ] <;> nlinarith
    next h2 =>
      obtain ⟨D, hD, hD1, hD2⟩ := ih hq0 (not_le.1 h2) (2 * acc)
      refine ⟨D, by rw [hD]; ring, ?_, ?_⟩ <;> rw [pow_succ] <;> nlinarith

/-- The fraction of a number, between 1 and 2, with 160 fraction bits. -/
theorem mantissa_spec {m : Nat} (hm : m ≠ 0) :
    let l := Nat.log2 m
    let u := if l ≤ fxP then m <<< (fxP - l) else m >>> (l - fxP)
    (fxOne ≤ u ∧ u < 2 * fxOne) ∧ Real.logb 2 (u / fxOne) ≤ Real.logb 2 (m / 2 ^ l) ∧
      Real.logb 2 (m / 2 ^ l) ≤ Real.logb 2 (u / fxOne) + 1 / 2 ^ 159 := by
  intro l u
  have hone := fxOne_pos
  have hl1 : 2 ^ l ≤ m := Nat.log2_self_le hm
  have hl2 : m < 2 ^ (l + 1) := Nat.lt_log2_self
  by_cases hl : l ≤ fxP
  · have hu : u = m * 2 ^ (fxP - l) := by rw [← Nat.shiftLeft_eq]; exact if_pos hl
    have hp : fxOne = 2 ^ l * 2 ^ (fxP - l) := by rw [← Nat.pow_add, Nat.add_sub_cancel' hl, fxOne]
    have hq : (u / fxOne : ℝ) = m / 2 ^ l := by
      rw [hu, hp]
      push_cast
      rw [mul_div_mul_right _ _ (by positivity)]
    refine ⟨⟨?_, ?_⟩, by rw [hq], by rw [hq]; linarith [show (0 : ℝ) ≤ 1 / 2 ^ 159 by positivity]⟩
    · rw [hu, hp]
      exact Nat.mul_le_mul_right _ hl1
    · rw [hu, hp, ← Nat.mul_assoc, ← Nat.pow_succ']
      exact Nat.mul_lt_mul_of_pos_right hl2 (Nat.two_pow_pos _)
  · have hu : u = m / 2 ^ (l - fxP) := by rw [← Nat.shiftRight_eq_div_pow]; exact if_neg hl
    have hp : 2 ^ l = fxOne * 2 ^ (l - fxP) := by rw [fxOne, ← Nat.pow_add, Nat.add_sub_cancel' (not_le.1 hl).le]
    have hpR : (2 : ℝ) ^ l = fxOne * 2 ^ (l - fxP) := by exact_mod_cast hp
    obtain ⟨h1, h2⟩ := div_floor_spec m (b := 2 ^ (l - fxP)) (by positivity)
    have hpos : (0 : ℝ) < (2 ^ (l - fxP) : Nat) := by positivity
    rw [← le_div_iff₀ hpos, ← hu] at h1
    rw [← div_lt_iff₀ hpos, ← hu] at h2
    have hq : ((m : ℝ) / (2 ^ (l - fxP) : Nat)) / fxOne = m / 2 ^ l := by
      rw [hpR, div_div, mul_comm]
      push_cast
      rfl
    have hu1 : fxOne ≤ u := by
      rw [hu, Nat.le_div_iff_mul_le (Nat.two_pow_pos _), ← hp]
      exact hl1
    have hlog := logb_floor (by exact_mod_cast hu1) h1 h2
    rw [hq] at hlog
    refine ⟨⟨hu1, ?_⟩, hlog⟩
    rw [hu, Nat.div_lt_iff_lt_mul (Nat.two_pow_pos _), Nat.mul_assoc, ← hp, ← Nat.pow_succ']
    exact hl2

/-- The fixed-point logarithm: the exponent, and 120 digits of the logarithm of the fraction. -/
theorem log2Fx_spec {m : Nat} (hm : m ≠ 0) (e : Int) :
    ∃ D : Nat, log2Fx m e = ((Nat.log2 m : Int) + e) * 2 ^ 120 + D ∧
      (D : ℝ) ≤ 2 ^ 120 * Real.logb 2 (m / 2 ^ Nat.log2 m) ∧ 2 ^ 120 * Real.logb 2 (m / 2 ^ Nat.log2 m) ≤ D + 2 := by
  obtain ⟨⟨hu1, hu2⟩, hl1, hl2⟩ := mantissa_spec hm
  obtain ⟨D, hD, hD1, hD2⟩ := logDigits_spec logN hu1 hu2 0
  rw [Nat.zero_mul, Nat.zero_add] at hD
  refine ⟨D, ?_, hD1.trans (mul_le_mul_of_nonneg_left hl1 (by positivity)), ?_⟩
  · rw [log2Fx]
    rw [hD]
    rfl
  · have h := mul_le_mul_of_nonneg_left hl2 (by positivity : (0 : ℝ) ≤ 2 ^ 120)
    have h1 : (2 : ℝ) ^ logN / 2 ^ 157 + 2 ^ 120 * (1 / 2 ^ 159) ≤ 1 := by
      rw [logN]
      norm_num
    rw [mul_add] at h
    rw [show (2 : ℝ) ^ 120 = 2 ^ logN from rfl] at *
    linarith

theorem logb_size {m : Nat} (hm : m ≠ 0) (e : Int) :
    Real.logb 2 (size m e) = (Nat.log2 m : Int) + e + Real.logb 2 (m / 2 ^ Nat.log2 m) := by
  have h : (0 : ℝ) < m := by exact_mod_cast Nat.pos_of_ne_zero hm
  rw [size, Real.logb_mul h.ne' (by positivity), Real.logb_div h.ne' (by positivity), ← Real.rpow_intCast, Real.logb_rpow two_pos (by norm_num),
    Real.logb_pow, Real.logb_self_eq_one one_lt_two]
  push_cast
  ring

/-! ### Reciprocals and square roots -/

/-- A result within the bound of a function: of b units in the last place for f32, of one for the others (Table 06-3). -/
def Within (t b : Nat) (w : FV) (y : ℝ) : Prop := (fmtOf t).Gives w y ((if t = 10 then (b : ℝ) else 1) * (fmtOf t).ulp y)

theorem one_le_bound (t : Nat) {b : Nat} (hb : 1 ≤ b) : (1 : ℝ) ≤ if t = 10 then (b : ℝ) else 1 := by
  split
  · exact_mod_cast hb
  · exact le_rfl

/-- An exact value in range is within every bound. -/
theorem within_exact {t : Nat} (ht : t = 8 ∨ t = 9 ∨ t = 10) {b : Nat} (hb : 1 ≤ b) (n : Bool) {m : Nat} (hm : m ≠ 0) {e : Int}
    (hr : size m e ≤ (fmtOf t).topVal) : Within t b (.fin n m e) (dyadic n m e) := by
  refine ((ieee_fmtOf ht).gives_fin n hm hr).1.mono ?_
  have hp : (0 : ℝ) < 2 ^ (fmtOf t).quant m e := by positivity
  rw [sub_self, abs_zero, add_zero, FFmt.ulp_dyadic _ n hm]
  nlinarith [one_le_bound t hb]

/-- A quotient rounded down, of at least 29 bits, is close below. -/
theorem size_div_below {a b : Nat} (hb : b ≠ 0) (h : 2 ^ 29 * b ≤ a) (e : Int) :
    size (a / b) e ≤ a / b * (2 : ℝ) ^ e ∧ a / b * (2 : ℝ) ^ e ≤ (1 + 3 / 2 ^ 29) * size (a / b) e := by
  obtain ⟨h1, h2⟩ := div_floor_spec a hb
  have hbR : (0 : ℝ) < b := by exact_mod_cast Nat.pos_of_ne_zero hb
  have hq : (2 : ℝ) ^ 29 ≤ (a / b : Nat) := by
    have : 2 ^ 29 ≤ a / b := (Nat.le_div_iff_mul_le (Nat.pos_of_ne_zero hb)).2 h
    exact_mod_cast this
  rw [← le_div_iff₀ hbR] at h1
  rw [← div_lt_iff₀ hbR] at h2
  have hp : (0 : ℝ) < 2 ^ e := by positivity
  refine ⟨mul_le_mul_of_nonneg_right h1 hp.le, ?_⟩
  rw [size, ← mul_assoc]
  refine mul_le_mul_of_nonneg_right ?_ hp.le
  linarith

theorem one_div_dyadic (n : Bool) (m : Nat) (e : Int) : 1 / dyadic n m e = sgn n * (1 / size m e) := by
  rw [dyadic_sgn]
  cases n <;> simp only [sgn, Bool.false_eq_true, if_false, if_true, one_mul, neg_mul, one_div, inv_neg]

theorem size_one (e : Int) : size 1 e = (2 : ℝ) ^ e := by rw [size, Nat.cast_one, one_mul]

theorem size_two_pow (l : Nat) (e : Int) : size (2 ^ l) e = (2 : ℝ) ^ ((l : Int) + e) := by
  rw [size, zpow_add₀ two_ne_zero, zpow_natCast]
  push_cast
  rfl

/-- A value at most Y, close to it and positive, when Y is in range. -/
theorem within_below {t : Nat} (ht : t = 8 ∨ t = 9 ∨ t = 10) {b : Nat} (hb : 1 ≤ b) (hb3 : b ≤ 3) {m : Nat}
    (hm : m ≠ 0) {e pick : Int} {Y : ℝ} (h1 : size m e ≤ Y) (h2 : Y ≤ (1 + 3 / 2 ^ 29) * size m e) (hr : Y ≤ (fmtOf t).topVal) :
    Within t b (pickNear (fmtOf t) (if t = 10 then b else 1) none (.fin false m e) pick) Y := by
  have h := pickNear_ulps_below ht hb hb3 (n := false) (pick := pick) hm h1 h2 (.inl ⟨rfl, h1.trans hr⟩)
  rwa [sgn, if_neg Bool.false_ne_true, one_mul] at h

/-- With 8 G^2 U = 1: k units U whose reciprocal is at most 8 G - 1 are more than G, -/
theorem lt_of_units {G U k : ℝ} (hU : 0 < U) (hG : 1 ≤ G) (hu : U * (8 * G) * G = 1) (h : 1 ≤ (8 * G - 1) * (k * U)) : G < k := by
  by_contra hle
  rw [not_lt] at hle
  have h1 : (0 : ℝ) ≤ 8 * G - 1 := by linarith
  have : (8 * G - 1) * (k * U) ≤ (8 * G - 1) * (G * U) := by gcongr
  nlinarith

/-- and those of G + 1 units is at most 8 G - 2. -/
theorem units_to_spare {G U k : ℝ} (hU : 0 < U) (hG : 1 ≤ G) (hu : U * (8 * G) * G = 1) (h : G + 1 ≤ k) :
    1 ≤ (8 * G - 2) * (k * U) := by
  have h2 : (0 : ℝ) ≤ 8 * G - 2 := by linarith
  have : (8 * G - 2) * ((G + 1) * U) ≤ (8 * G - 2) * (k * U) := by gcongr
  nlinarith

/-- The reciprocal of an operand is in range only with a unit to spare: operands are multiples of the least one. -/
theorem rcp_room {f : FFmt} (hf : f.Ieee) {m : Nat} (hm : m ≠ 0) {e : Int} (he : 1 - (f.bias : Int) - f.fb ≤ e)
    (hr : 1 / size m e ≤ f.topVal) : 1 / size m e + (1 : Nat) * (2 : ℝ) ^ ((f.bias : Int) - f.fb) ≤ f.topVal := by
  have hs := size_pos hm e
  obtain ⟨F, hF⟩ : ∃ F, f.fb = F + 2 := Nat.exists_eq_add_of_le' (le_trans (by decide) hf.fb_pos)
  obtain ⟨k, hk⟩ : ∃ k : Nat, size m e = k * (2 : ℝ) ^ (1 - (f.bias : Int) - f.fb) := ⟨_, (size_shiftLeft m he).symm⟩
  have hu : (2 : ℝ) ^ (1 - (f.bias : Int) - f.fb) * 2 ^ ((f.bias : Int) - f.fb) * 2 ^ (f.fb + 1) * 2 ^ F = 1 := by
    rw [← zpow_natCast, ← zpow_natCast, ← zpow_add₀ two_ne_zero, ← zpow_add₀ two_ne_zero, ← zpow_add₀ two_ne_zero,
      ← zpow_zero (2 : ℝ)]
    congr 1
    push_cast
    omega
  have hFp : (2 : ℝ) ^ (f.fb + 1) = 8 * 2 ^ F := by rw [hF, pow_add, pow_add]; ring
  rw [Nat.cast_one, one_mul]
  rw [div_le_iff₀ hs] at hr
  rw [← le_sub_iff_add_le, div_le_iff₀ hs]
  rw [FFmt.topVal, hFp] at hr ⊢
  rw [hk] at hr ⊢
  have hu0 : (0 : ℝ) < 2 ^ (1 - (f.bias : Int) - f.fb) * 2 ^ ((f.bias : Int) - f.fb) := by positivity
  have hF0 : (1 : ℝ) ≤ 2 ^ F := one_le_pow₀ one_le_two
  have hkF : (2 : ℝ) ^ F + 1 ≤ k := by
    have : (2 : ℝ) ^ F < k := lt_of_units hu0 hF0 (by rw [← hFp]; exact hu) (by linarith)
    exact_mod_cast this
  have := units_to_spare hu0 hF0 (by rw [← hFp]; exact hu) hkF
  linarith

/-- `rcp` keeps its bound. -/
theorem within_rcp {t : Nat} (ht : t = 8 ∨ t = 9 ∨ t = 10) {n : Bool} {m : Nat} (hm : m ≠ 0) {e pick : Int}
    (he : 1 - ((fmtOf t).bias : Int) - (fmtOf t).fb ≤ e) (hr : |1 / dyadic n m e| ≤ (fmtOf t).topVal) :
    Within t 1 (special 0 t (.fin n m e) pick).1 (1 / dyadic n m e) := by
  have hs := size_pos hm e
  rw [one_div_dyadic, abs_sgn_mul, abs_of_pos (by positivity)] at hr
  rw [one_div_dyadic, special_rcp hm]
  dsimp only
  by_cases hl : m = 2 ^ Nat.log2 m
  · have hpow : 1 / size m e = size 1 (-((Nat.log2 m : Int) + e)) := by
      rw [hl, size_two_pow, ← hl, size_one, zpow_neg, one_div]
    rw [if_pos hl, hpow, ← dyadic_sgn]
    rw [hpow] at hr
    exact within_exact ht le_rfl n one_ne_zero hr
  · have hlog : m < 2 ^ (Nat.log2 m + 1) := Nat.lt_log2_self
    have hY : 1 / size m e = (2 ^ (160 + Nat.log2 m) : Nat) / m * (2 : ℝ) ^ (-(((160 : Nat) : Int) + Nat.log2 m) - e) := by
      rw [← neg_add', zpow_neg, zpow_add₀ two_ne_zero, ← Nat.cast_add, zpow_natCast, size]
      have : (m : ℝ) ≠ 0 := by exact_mod_cast hm
      push_cast
      field_simp
    obtain ⟨h1, h2⟩ := size_div_below (a := 2 ^ (160 + Nat.log2 m)) hm
      (by rw [Nat.pow_succ] at hlog; rw [Nat.pow_add]; omega) (-(((160 : Nat) : Int) + Nat.log2 m) - e)
    rw [← hY] at h1 h2
    have hM : 2 ^ (160 + Nat.log2 m) / m ≠ 0 := by
      intro h0
      have h0' : size (2 ^ (160 + Nat.log2 m) / m) (-(((160 : Nat) : Int) + Nat.log2 m) - e) = 0 := by rw [h0, size]; simp
      rw [h0', mul_zero] at h2
      exact absurd h2 (not_le.2 (by positivity))
    have hroom := rcp_room (ieee_fmtOf ht) hm he hr
    rw [if_neg hl]
    exact pickNear_ulps_below ht le_rfl (by decide) hM h1 h2 (.inr (by rwa [ite_self]))

/-- The integer square root: bit by bit, between the bits decided and the next power of two. -/
theorem isqrt_spec (n x : Nat) {r : Nat} (h1 : r * r ≤ x) (h2 : x < (r + 2 ^ n) * (r + 2 ^ n)) :
    isqrt n x r * isqrt n x r ≤ x ∧ x < (isqrt n x r + 1) * (isqrt n x r + 1) := by
  induction n generalizing r with
  | zero => exact ⟨h1, h2⟩
  | succ n ih =>
    rw [Nat.pow_succ'] at h2
    rw [isqrt]
    split
    next hc => exact ih hc (by rwa [Nat.add_assoc, ← Nat.two_mul])
    next hc => exact ih h1 (not_le.1 hc)

/-- The operand with an even exponent is the same number, of at least the same size. -/
theorem size_even (m : Nat) (e : Int) : size (evenMant m e) (evenExp e) = size m e := by
  unfold evenMant evenExp
  split
  · rfl
  · rw [size, size, zpow_sub_one₀ two_ne_zero]
    push_cast
    ring

theorem evenMant_ne_zero {m : Nat} (hm : m ≠ 0) (e : Int) : evenMant m e ≠ 0 := by
  unfold evenMant
  split <;> omega
theorem evenMant_le (m : Nat) (e : Int) : evenMant m e ≤ 2 * m := by
  unfold evenMant
  split <;> omega
theorem evenExp_dvd (e : Int) : 2 ∣ evenExp e := by
  unfold evenExp
  split <;> omega

/-- 1 / sqrt (m x 2^2k). -/
theorem one_div_sqrt_size (m : Nat) (k : Int) : 1 / Real.sqrt (size m (2 * k)) = 1 / Real.sqrt m * (2 : ℝ) ^ (-k) := by
  rw [size, Real.sqrt_mul (Nat.cast_nonneg m), zpow_mul, zpow_ofNat, ← zpow_natCast, zpow_comm, zpow_natCast,
    Real.sqrt_sq (by positivity), zpow_neg]
  field_simp

/-- `rsq` of an even power of two. -/
theorem special_rsq_pow {l : Nat} {e : Int} (h : ((l : Int) + e) % 2 = 0) (t : Nat) (pick : Int) :
    (special 1 t (.fin false (2 ^ l) e) pick).1 = .fin false 1 (-(((l : Int) + e) / 2)) := by
  rw [special_rsq (Nat.two_pow_pos l).ne', if_neg Bool.false_ne_true]
  dsimp only
  unfold evenMant evenExp
  by_cases he : e % 2 = 0
  · rw [if_pos he, if_pos he, Nat.log2_two_pow, if_pos ⟨rfl, by omega⟩]
    congr 1
    omega
  · rw [if_neg he, if_neg he, ← Nat.pow_succ', Nat.log2_two_pow, if_pos ⟨rfl, by omega⟩]
    congr 1
    omega

/-- The square root of 2^220 / M, rounded down, has more than 90 bits. -/
theorem isqrt_quotient_spec {M : Nat} (hM : M ≠ 0) (hM25 : M < 2 ^ 25) :
    2 ^ 90 ≤ isqrt 120 (2 ^ 220 / M) 0 ∧ (isqrt 120 (2 ^ 220 / M) 0 : ℝ) ≤ Real.sqrt ((2 ^ 220 : Nat) / M) ∧
      Real.sqrt ((2 ^ 220 : Nat) / M) ≤ isqrt 120 (2 ^ 220 / M) 0 + 1 := by
  obtain ⟨hd1, hd2⟩ := div_floor_spec (2 ^ 220) hM
  have hMpos : (0 : ℝ) < M := by exact_mod_cast Nat.pos_of_ne_zero hM
  rw [← le_div_iff₀ hMpos] at hd1
  rw [← div_lt_iff₀ hMpos] at hd2
  have hx1 : 2 ^ 195 ≤ 2 ^ 220 / M := by
    rw [Nat.le_div_iff_mul_le (Nat.pos_of_ne_zero hM)]
    omega
  have hx2 : 2 ^ 220 / M ≤ 2 ^ 220 := Nat.div_le_self ..
  obtain ⟨hs1, hs2⟩ := isqrt_spec 120 (2 ^ 220 / M) (r := 0) (by omega) (by omega)
  generalize isqrt 120 (2 ^ 220 / M) 0 = S at *
  generalize 2 ^ 220 / M = x at *
  refine ⟨?_, ?_, ?_⟩
  · by_contra hlt
    have : (S + 1) * (S + 1) ≤ 2 ^ 90 * 2 ^ 90 := Nat.mul_le_mul (by omega) (by omega)
    omega
  · refine Real.le_sqrt_of_sq_le (le_trans ?_ hd1)
    rw [sq]
    exact_mod_cast hs1
  · rw [Real.sqrt_le_left (by positivity), sq]
    refine hd2.le.trans ?_
    exact_mod_cast hs2

/-- 1 / sqrt (M x 2^2k) in the fixed point of `rsq`. -/
theorem one_div_sqrt_eq (M : Nat) (k : Int) :
    1 / Real.sqrt (size M (2 * k)) = Real.sqrt ((2 ^ 220 : Nat) / M) * (2 : ℝ) ^ (-110 - k) := by
  rw [one_div_sqrt_size, Real.sqrt_div (Nat.cast_nonneg _), Nat.cast_pow, Nat.cast_two, show 220 = 110 * 2 from rfl,
    pow_mul, Real.sqrt_sq (by positivity), sub_eq_add_neg, zpow_add₀ two_ne_zero, zpow_neg (2 : ℝ) 110]
  have : (2 : ℝ) ^ (110 : Int) = 2 ^ 110 := by norm_cast
  rw [this]
  field_simp

/-- 1 / sqrt of an even power of two. -/
theorem one_div_sqrt_pow {l : Nat} (hl : l % 2 = 0) (k : Int) :
    1 / Real.sqrt (size (2 ^ l) (2 * k)) = dyadic false 1 (-((l : Int) + 2 * k) / 2) := by
  obtain ⟨j, rfl⟩ := Nat.dvd_of_mod_eq_zero hl
  rw [size_two_pow, dyadic_sgn, size_one, sgn, if_neg Bool.false_ne_true, one_mul,
    show (((2 * j : Nat) : Int) + 2 * k) = (j + k) * 2 by push_cast; ring, zpow_mul, zpow_ofNat,
    Real.sqrt_sq (by positivity), ← neg_mul, Int.mul_ediv_cancel _ two_ne_zero, zpow_neg, one_div]

/-- `rsq` keeps its bound. -/
theorem within_rsq {t : Nat} (ht : t = 8 ∨ t = 9 ∨ t = 10) {m : Nat} (hm : m ≠ 0) (hm24 : m < 2 ^ 24) {e pick : Int}
    (hr : 1 / Real.sqrt (size m e) ≤ (fmtOf t).topVal) :
    Within t 1 (special 1 t (.fin false m e) pick).1 (1 / Real.sqrt (size m e)) := by
  obtain ⟨k, hk⟩ := evenExp_dvd e
  have hM0 := evenMant_ne_zero hm e
  have hM25 : evenMant m e < 2 ^ 25 := (evenMant_le m e).trans_lt (by omega)
  rw [← size_even, hk] at hr ⊢
  rw [special_rsq hm, if_neg Bool.false_ne_true, hk]
  dsimp only
  generalize evenMant m e = M at *
  by_cases hl : M = 2 ^ Nat.log2 M ∧ Nat.log2 M % 2 = 0
  · have hpow := one_div_sqrt_pow hl.2 k
    rw [← hl.1] at hpow
    rw [if_pos hl, hpow]
    rw [hpow, ← abs_of_nonneg (by rw [← hpow]; positivity : 0 ≤ dyadic false 1 _), abs_dyadic] at hr
    exact within_exact ht le_rfl false one_ne_zero hr
  · obtain ⟨hS, hr1, hr2⟩ := isqrt_quotient_spec hM0 hM25
    have hp : (0 : ℝ) < 2 ^ (-110 - k) := by positivity
    rw [if_neg hl, show 2 * k / 2 = k by omega]
    rw [one_div_sqrt_eq] at hr ⊢
    generalize isqrt 120 (2 ^ 220 / M) 0 = S at *
    generalize Real.sqrt ((2 ^ 220 : Nat) / M) = R at *
    refine within_below ht le_rfl (by decide) (by omega) (mul_le_mul_of_nonneg_right hr1 hp.le) ?_ hr
    rw [size, ← mul_assoc]
    refine mul_le_mul_of_nonneg_right ?_ hp.le
    have hSR : (2 : ℝ) ^ 90 ≤ S := by exact_mod_cast hS
    have h29 : (2 : ℝ) ^ 29 ≤ S := le_trans (pow_le_pow_right₀ one_le_two (by decide)) hSR
    linarith

/-! ### Powers of two -/

theorem toFx_spec (n : Bool) (m : Nat) {e : Int} (he : -160 ≤ e) : (toFx (.fin n m e) : ℝ) = dyadic n m e * fxOne := by
  have h0 : (0 : Int) ≤ e + fxP := by have : (fxP : Int) = 160 := rfl; omega
  have hs := size_shiftLeft m (e := e) (q := -160) he
  rw [sub_neg_eq_add] at hs
  have hm : ((m <<< (e + fxP).toNat : Nat) : ℝ) = size m e * fxOne := by
    rw [← hs, size, mul_assoc, fxOne_cast, ← zpow_natCast, ← zpow_add₀ two_ne_zero]
    simp [fxP]
  rw [toFx, dyadic_size, mul_assoc, ← hm]
  rw [if_pos h0]
  cases n <;> simp only [Bool.false_eq_true, if_false, if_true, one_mul, neg_mul, Int.cast_neg, Int.cast_natCast]

theorem fxOne_intPos : (0 : Int) < fxOne := by decide

/-- The fixed-point argument of the exponential: close below r ln 2. -/
theorem exp_arg_spec {r : Nat} (hr : r < fxOne) :
    (((r * fxLn2 / fxOne : Nat) : ℝ) / fxOne ≤ r / fxOne * Real.log 2) ∧
      r / fxOne * Real.log 2 ≤ ((r * fxLn2 / fxOne : Nat) : ℝ) / fxOne + 2 / fxOne := by
  have hone := fxOne_pos
  obtain ⟨h1, h2⟩ := fxLn2_spec
  rw [← fxOne_cast] at h1 h2
  obtain ⟨hd1, hd2⟩ := div_floor_spec (r * fxLn2) fxOne_ne_zero
  have hr' : (r : ℝ) ≤ fxOne := by exact_mod_cast hr.le
  have hr0 : (0 : ℝ) ≤ r := Nat.cast_nonneg r
  push_cast at hd1 hd2
  rw [← add_div, div_mul_eq_mul_div]
  generalize ((r * fxLn2 / fxOne : Nat) : ℝ) = w at *
  constructor
  · refine div_le_div_of_nonneg_right ?_ hone.le
    rw [← mul_le_mul_iff_left₀ hone]
    nlinarith
  · refine div_le_div_of_nonneg_right ?_ hone.le
    rw [← mul_le_mul_iff_left₀ hone]
    nlinarith

theorem fxOne_le_expFrac (r : Nat) : fxOne ≤ expFrac r := Nat.le_add_right ..

/-- Two units of the argument and 80 of the result are little of a number with 160 fraction bits. -/
theorem exp_units_le {M w E : ℝ} (hM : (fxOne : ℝ) ≤ M) (hw : Real.exp w ≤ (M + 80) / fxOne)
    (hE : E ≤ Real.exp (w + 2 / fxOne)) : E ≤ (1 + 1 / 2 ^ 150) * (M / fxOne) := by
  have hone := fxOne_pos
  have hsmall : Real.exp (2 / fxOne : ℝ) ≤ 1 + 4 / fxOne := by
    have h2o : |(2 : ℝ) / fxOne| = 2 / fxOne := abs_of_pos (by positivity)
    have := Real.abs_exp_sub_one_le (x := (2 : ℝ) / fxOne) (by rw [h2o, fxOne_cast]; norm_num)
    rw [h2o] at this
    have h4 : (2 : ℝ) * (2 / fxOne) = 4 / fxOne := by ring
    linarith [(abs_le.1 this).2]
  rw [Real.exp_add] at hE
  refine (hE.trans (mul_le_mul hw hsmall (Real.exp_pos _).le ((Real.exp_pos _).le.trans hw))).trans ?_
  rw [← mul_div_assoc, div_mul_eq_mul_div]
  refine div_le_div_of_nonneg_right ?_ hone.le
  have h150 : (1 : ℝ) / 2 ^ 150 = 1024 / fxOne := by rw [fxOne_cast]; norm_num
  rw [h150]
  have hq : (1 : ℝ) ≤ M / fxOne := by rwa [le_div_iff₀ hone, one_mul]
  have hb : (fxOne : ℝ)⁻¹ ≤ 1 := inv_le_one_of_one_le₀ (by rw [fxOne_cast]; exact one_le_pow₀ one_le_two)
  have hexp : (M + 80) * (1 + 4 / fxOne) = M + 80 + 4 * (M / fxOne) + 320 * (fxOne : ℝ)⁻¹ := by field_simp; ring
  have hexp2 : (1 + 1024 / fxOne) * M = M + 1024 * (M / fxOne) := by field_simp
  rw [hexp, hexp2]
  linarith

/-- 2^x for x in fixed point, from below. -/
theorem exp2Fx_spec (x : Int) :
    let v := size (expFrac ((x - x / (fxOne : Int) * fxOne).toNat * fxLn2 / fxOne)) (x / (fxOne : Int) - 160)
    v ≤ (2 : ℝ) ^ (x / fxOne : ℝ) ∧ (2 : ℝ) ^ (x / fxOne : ℝ) ≤ (1 + 1 / 2 ^ 150) * v := by
  have hone := fxOne_pos
  have h0 := Int.emod_nonneg x fxOne_intPos.ne'
  have h1 := Int.emod_lt_of_pos x fxOne_intPos
  have h2 := Int.ediv_mul_add_emod x fxOne
  obtain ⟨r, hr⟩ := Int.eq_ofNat_of_zero_le h0
  rw [hr] at h1 h2
  generalize x / (fxOne : Int) = k at *
  have hr2 : r < fxOne := by exact_mod_cast h1
  rw [show (x - k * fxOne).toNat = r by omega]
  intro v
  obtain ⟨ha1, ha2⟩ := exp_arg_spec hr2
  obtain ⟨hf1, hf2⟩ := expFrac_spec (Nat.div_le_of_le_mul (Nat.mul_le_mul hr2.le fxLn2_lt))
  have hM1 : (fxOne : ℝ) ≤ expFrac (r * fxLn2 / fxOne) := by exact_mod_cast fxOne_le_expFrac _
  have hv : v = expFrac (r * fxLn2 / fxOne) / fxOne * 2 ^ k := by
    change size _ _ = _
    rw [size, zpow_sub₀ two_ne_zero, zpow_ofNat, fxOne_cast, mul_div_assoc', div_mul_eq_mul_div]
  have hpow : (2 : ℝ) ^ (x / fxOne : ℝ) = Real.exp (r / fxOne * Real.log 2) * 2 ^ k := by
    rw [← Real.rpow_intCast, Real.rpow_def_of_pos two_pos, Real.rpow_def_of_pos two_pos, ← Real.exp_add, ← h2]
    push_cast
    congr 1
    field_simp
    ring
  have hp : (0 : ℝ) < 2 ^ k := by positivity
  rw [hpow, hv, ← mul_assoc]
  generalize ((r * fxLn2 / fxOne : Nat) : ℝ) / fxOne = w at *
  generalize (expFrac (r * fxLn2 / fxOne) : ℝ) = M at *
  constructor
  · refine mul_le_mul_of_nonneg_right ?_ hp.le
    rw [div_le_iff₀ hone, mul_comm]
    exact hf1.trans (mul_le_mul_of_nonneg_left (Real.exp_le_exp.2 ha1) hone.le)
  · refine mul_le_mul_of_nonneg_right (exp_units_le hM1 ?_ (Real.exp_le_exp.2 ha2)) hp.le
    rw [le_div_iff₀ hone]
    linarith

theorem FFmt.Ieee.topVal_lt {f : FFmt} (hf : f.Ieee) : f.topVal < (2 : ℝ) ^ (128 : Int) :=
  f.topVal_lt.trans_le (zpow_le_zpow_right₀ one_le_two (by have := hf.bias_le; omega))

theorem toFx_real (n : Bool) (m : Nat) {e : Int} (he : -160 ≤ e) : (toFx (.fin n m e) : ℝ) / fxOne = dyadic n m e := by
  rw [toFx_spec n m he, mul_div_cancel_right₀ _ fxOne_pos.ne']

/-- The operand of `exp2` in fixed point is exact, or cut to 2^12 in magnitude. -/
theorem exp2Arg_cases (n : Bool) {m : Nat} (hm : m ≠ 0) {e : Int} (he : -160 ≤ e) :
    (exp2Arg n m e / fxOne : ℝ) = dyadic n m e ∨
      (2 : ℝ) ^ 12 ≤ size m e ∧ exp2Arg n m e = if n then -(2 ^ 12 * fxOne : Int) else 2 ^ 12 * fxOne := by
  unfold exp2Arg
  split
  next h =>
    refine .inr ⟨?_, rfl⟩
    rcases h with ⟨h1, h2⟩ | h
    · have h1' : (2 : ℝ) ^ 12 ≤ m := by exact_mod_cast h1
      exact h1'.trans (le_mul_of_one_le_right (Nat.cast_nonneg m) (one_le_zpow₀ one_le_two h2))
    · refine le_trans ?_ (zpow_le_size hm e)
      rw [← zpow_natCast]
      exact zpow_le_zpow_right₀ one_le_two (by push_cast; omega)
  next => exact .inl (toFx_real n m he)

/-- The integers among the operands. -/
theorem dyadic_int {n : Bool} {m : Nat} {e : Int} : (∃ k : Int, dyadic n m e = k) ↔ 0 ≤ e ∨ m % 2 ^ (-e).toNat = 0 := by
  have hsgn (N : Nat) : sgn n * N = ((if n then -(N : Int) else N : Int) : ℝ) := by cases n <;> simp [sgn]
  constructor
  · rintro ⟨k, hk⟩
    by_cases he : 0 ≤ e
    · exact .inl he
    obtain ⟨j, hj⟩ := Int.eq_ofNat_of_zero_le (by omega : 0 ≤ -e)
    obtain rfl : e = -(j : Int) := by omega
    right
    have h := congrArg abs hk
    rw [abs_dyadic, size, zpow_neg, zpow_natCast, ← div_eq_mul_inv, div_eq_iff (by positivity), ← Int.cast_abs] at h
    have h' : (m : Int) = |k| * 2 ^ j := by exact_mod_cast h
    rw [hj, Int.toNat_natCast]
    refine Nat.mod_eq_zero_of_dvd (Int.natCast_dvd_natCast.1 ?_)
    rw [h']
    push_cast
    exact dvd_mul_left ..
  · rintro (he | he)
    · rw [dyadic_sgn, size_nat m he, hsgn]
      exact ⟨_, rfl⟩
    · by_cases h0 : 0 ≤ e
      · rw [dyadic_sgn, size_nat m h0, hsgn]
        exact ⟨_, rfl⟩
      obtain ⟨j, hj⟩ := Int.eq_ofNat_of_zero_le (by omega : 0 ≤ -e)
      obtain rfl : e = -(j : Int) := by omega
      rw [hj, Int.toNat_natCast] at he
      obtain ⟨N, rfl⟩ := Nat.dvd_of_mod_eq_zero he
      have : size (2 ^ j * N) (-(j : Int)) = N := by
        rw [size, zpow_neg, zpow_natCast]
        push_cast
        field_simp
      rw [dyadic_sgn, this, hsgn]
      exact ⟨_, rfl⟩

theorem fx_ediv {x k : Int} (h : (x / fxOne : ℝ) = k) : x / (fxOne : Int) = k := by
  rw [div_eq_iff fxOne_pos.ne'] at h
  have h' : x = k * fxOne := by exact_mod_cast h
  rw [h', Int.mul_ediv_cancel _ fxOne_intPos.ne']

/-- `exp2` of an integer is exact. -/
theorem special_exp2_int {n : Bool} {m : Nat} (hm : m ≠ 0) {e : Int} (he : -160 ≤ e) (t : Nat) (pick : Int) {k : Int}
    (h1 : -4096 < k) (h2 : k < 4096) (hk : dyadic n m e = k) : (special 2 t (.fin n m e) pick).1 = .fin false 1 k := by
  have hs : size m e < 4096 := by
    rw [← abs_dyadic n, hk, abs_lt]
    constructor
    · exact_mod_cast h1
    · exact_mod_cast h2
  have hx := (exp2Arg_cases n hm he).resolve_right fun h => absurd h.1 (not_le.2 (hs.trans_le (by norm_num)))
  rw [special_exp2 hm, if_pos (dyadic_int.1 ⟨k, hk⟩), fx_ediv (hx.trans hk)]

/-- A value tiny beside every format, for a number as tiny. -/
theorem within_tiny {t : Nat} (ht : t = 8 ∨ t = 9 ∨ t = 10) {b : Nat} (hb : 1 ≤ b) (hb3 : b ≤ 3) (n : Bool) {m : Nat}
    (hm : m ≠ 0) {e pick : Int} {Y : ℝ} (hY : 0 ≤ Y) (h1 : size m e ≤ (2 : ℝ) ^ (-153 : Int)) (h2 : Y ≤ (2 : ℝ) ^ (-153 : Int)) :
    Within t b (pickNear (fmtOf t) (if t = 10 then b else 1) none (.fin n m e) pick) (sgn n * Y) := by
  have hs := size_nonneg m e
  refine pickNear_ulps ht hb hb3 hm hY ((ieee_fmtOf ht).close_of_abs ?_) (room_of_le ht hb3 n m e (h2.trans ?_)) fun _ => .inr ?_
  · rw [abs_le]
    constructor <;> linarith
  · exact (zpow_le_one_of_nonpos₀ one_le_two (by decide)).trans (one_le_pow₀ one_le_two)
  · have := (zpow_le_zpow_iff_right₀ (one_lt_two : (1 : ℝ) < 2)).1 ((zpow_le_size hm e).trans h1)
    omega

/-- 2^-4096, for a number no larger: the result is within a subnormal unit. -/
theorem within_pow_tiny {t : Nat} (ht : t = 8 ∨ t = 9 ∨ t = 10) {y : ℝ} (hy0 : 0 < y) (hy1 : y ≤ 2 ^ (-4096 : Int)) :
    Within t 2 (.fin false 1 (-4096)) y := by
  have hf := ieee_fmtOf ht
  have hfb := hf.fb_le
  have hbias := hf.bias_le
  have hr : size 1 (-4096) ≤ (fmtOf t).topVal := by
    rw [size_one]
    exact (zpow_le_zpow_right₀ one_le_two (by omega)).trans (fmtOf t).two_zpow_le_topVal
  have hq : (fmtOf t).quant 1 (-4096) = 1 - ((fmtOf t).bias : Int) - (fmtOf t).fb := by
    rw [FFmt.quant, max_eq_right (by rw [show Nat.log2 1 = 0 from rfl]; omega)]
  have hu := (fmtOf t).le_ulp hy0.le (q := (fmtOf t).quant 1 (-4096)) (.inr hq.le)
  have hQ : (2 : ℝ) ^ (-4096 : Int) ≤ 2 ^ ((fmtOf t).quant 1 (-4096) - 1) := zpow_le_zpow_right₀ one_le_two (by omega)
  rw [zpow_sub_one₀ two_ne_zero] at hQ
  have hd : dyadic false 1 (-4096) = 2 ^ (-4096 : Int) := by
    rw [dyadic_sgn, size_one, sgn, if_neg Bool.false_ne_true, one_mul]
  refine (hf.gives_fin false one_ne_zero hr).1.mono ?_
  rw [hd, abs_of_nonneg (sub_nonneg.2 hy1)]
  refine le_trans ?_ (le_mul_of_one_le_left (le_trans (by positivity) hu) (one_le_bound t (by decide)))
  generalize (2 : ℝ) ^ (fmtOf t).quant 1 (-4096) = Q at hu hQ ⊢
  generalize (2 : ℝ) ^ (-4096 : Int) = A at hy1 hQ ⊢
  linarith

theorem expFrac_ne_zero (r : Nat) : expFrac r ≠ 0 := by
  have := fxOne_le_expFrac r
  have := fxOne_ne_zero
  omega

/-- `exp2` of an operand that is not cut. -/
theorem within_exp2_exact {t : Nat} (ht : t = 8 ∨ t = 9 ∨ t = 10) {n : Bool} {m : Nat} (hm : m ≠ 0) {e pick : Int}
    (hx : (exp2Arg n m e / fxOne : ℝ) = dyadic n m e) (hr : (2 : ℝ) ^ dyadic n m e ≤ (fmtOf t).topVal) :
    Within t 2 (special 2 t (.fin n m e) pick).1 ((2 : ℝ) ^ dyadic n m e) := by
  obtain ⟨hv1, hv2⟩ := exp2Fx_spec (exp2Arg n m e)
  rw [hx] at hv1 hv2
  rw [special_exp2 hm]
  dsimp only
  split
  next hint =>
    obtain ⟨k, hk⟩ := dyadic_int.2 hint
    have hy : (2 : ℝ) ^ dyadic n m e = dyadic false 1 k := by
      rw [hk, Real.rpow_intCast, dyadic_sgn, size_one, sgn, if_neg Bool.false_ne_true, one_mul]
    rw [fx_ediv (hx.trans hk), hy]
    rw [hy, ← abs_of_nonneg (by rw [← hy]; positivity : 0 ≤ dyadic false 1 k), abs_dyadic] at hr
    exact within_exact ht (by decide) false one_ne_zero hr
  next =>
    refine within_below ht (by decide) (by decide) (expFrac_ne_zero _) hv1 (hv2.trans ?_) hr
    exact mul_le_mul_of_nonneg_right (by norm_num) (size_nonneg ..)

/-- `exp2` of a negative operand that is cut. -/
theorem within_exp2_cut {t : Nat} (ht : t = 8 ∨ t = 9 ∨ t = 10) {m : Nat} (hm : m ≠ 0) {e pick : Int}
    (hs : (2 : ℝ) ^ 12 ≤ size m e) (hx : exp2Arg true m e = -(2 ^ 12 * fxOne : Int)) :
    Within t 2 (special 2 t (.fin true m e) pick).1 ((2 : ℝ) ^ dyadic true m e) := by
  obtain ⟨hv, -⟩ := exp2Fx_spec (exp2Arg true m e)
  have hxq : (exp2Arg true m e / fxOne : ℝ) = ((-4096 : Int) : ℝ) := by
    rw [hx, div_eq_iff fxOne_pos.ne']
    push_cast
    ring
  have hy0 : (0 : ℝ) < 2 ^ dyadic true m e := by positivity
  have hy1 : (2 : ℝ) ^ dyadic true m e ≤ 2 ^ (-4096 : Int) := by
    rw [dyadic_sgn, sgn, if_pos rfl, ← Real.rpow_intCast]
    exact Real.rpow_le_rpow_of_exponent_le one_le_two (by norm_num at hs ⊢; linarith)
  rw [hxq, Real.rpow_intCast] at hv
  rw [special_exp2 hm]
  dsimp only
  split
  next =>
    rw [fx_ediv hxq]
    exact within_pow_tiny ht hy0 hy1
  next =>
    have htiny : (2 : ℝ) ^ (-4096 : Int) ≤ 2 ^ (-153 : Int) := zpow_le_zpow_right₀ one_le_two (by decide)
    have h := within_tiny ht (b := 2) (by decide) (by decide) false (pick := pick) (expFrac_ne_zero _) hy0.le (hv.trans htiny)
      (hy1.trans htiny)
    rwa [sgn, if_neg Bool.false_ne_true, one_mul] at h

/-- `exp2` keeps its bound. -/
theorem within_exp2 {t : Nat} (ht : t = 8 ∨ t = 9 ∨ t = 10) {n : Bool} {m : Nat} (hm : m ≠ 0) {e pick : Int}
    (he : -160 ≤ e) (hr : (2 : ℝ) ^ dyadic n m e ≤ (fmtOf t).topVal) :
    Within t 2 (special 2 t (.fin n m e) pick).1 ((2 : ℝ) ^ dyadic n m e) := by
  rcases exp2Arg_cases n hm he with hx | ⟨hs, hx⟩
  · exact within_exp2_exact ht hm hx hr
  cases n
  · have hbig : (2 : ℝ) ^ (128 : Int) ≤ 2 ^ dyadic false m e := by
      rw [dyadic_sgn, sgn, if_neg Bool.false_ne_true, one_mul, ← Real.rpow_intCast]
      exact Real.rpow_le_rpow_of_exponent_le one_le_two (le_trans (by norm_num) hs)
    exact absurd (hbig.trans hr) (not_le.2 (ieee_fmtOf ht).topVal_lt)
  · exact within_exp2_cut ht hm hs hx

/-! ### The binary logarithm -/

/-- The fraction of an operand that is not a power of two stays clear of 1 and 2. -/
theorem logb_fraction_clear {m : Nat} (hm : m ≠ 0) (hm24 : m < 2 ^ 24) (hp : m ≠ 2 ^ Nat.log2 m) :
    1 / 2 ^ 25 ≤ Real.logb 2 (m / 2 ^ Nat.log2 m) ∧ Real.logb 2 (m / 2 ^ Nat.log2 m) ≤ 1 - 1 / 2 ^ 25 := by
  have hl1 : 2 ^ Nat.log2 m ≤ m := Nat.log2_self_le hm
  have hl2 : m < 2 ^ (Nat.log2 m + 1) := Nat.lt_log2_self
  have h1 : 2 ^ Nat.log2 m + 1 ≤ m := by omega
  have h2 : m + 1 ≤ 2 ^ Nat.log2 m * 2 := by rw [← Nat.pow_succ]; exact hl2
  have h3 : 2 ^ Nat.log2 m ≤ 2 ^ 24 := by omega
  have h1R : (2 : ℝ) ^ Nat.log2 m + 1 ≤ m := by exact_mod_cast h1
  have h2R : (m : ℝ) + 1 ≤ 2 ^ Nat.log2 m * 2 := by exact_mod_cast h2
  have h3R : (2 : ℝ) ^ Nat.log2 m ≤ 2 ^ 24 := by exact_mod_cast h3
  have hP : (0 : ℝ) < 2 ^ Nat.log2 m := by positivity
  generalize (2 : ℝ) ^ Nat.log2 m = P at *
  have hmP : (0 : ℝ) < m := by linarith
  have hln0 : (0 : ℝ) < Real.log 2 := Real.log_pos one_lt_two
  have hln1 : Real.log 2 ≤ 1 := by linarith [Real.log_two_lt_d9]
  constructor
  · have h := Real.one_sub_inv_le_log_of_pos (div_pos hmP hP)
    rw [inv_div] at h
    have hx : 1 / 2 ^ 25 ≤ 1 - P / m := by
      rw [le_sub_iff_add_le, ← le_sub_iff_add_le', div_le_iff₀ hmP]
      norm_num at h3R ⊢
      linarith
    rw [Real.logb, le_div_iff₀ hln0]
    exact (mul_le_of_le_one_right (by positivity) hln1).trans (hx.trans h)
  · have h := Real.log_le_sub_one_of_pos (div_pos hmP (by linarith : 0 < P * 2))
    have hx : (m : ℝ) / (P * 2) - 1 ≤ -(1 / 2 ^ 25) := by
      rw [sub_le_iff_le_add, div_le_iff₀ (by linarith)]
      norm_num at h3R ⊢
      linarith
    have hsplit : Real.logb 2 (m / P) = 1 + Real.log (m / (P * 2)) / Real.log 2 := by
      rw [← div_div, Real.log_div (by positivity) two_ne_zero, Real.logb]
      field_simp
      ring
    have hneg : Real.log (m / (P * 2)) / Real.log 2 ≤ -(1 / 2 ^ 25) := by
      rw [div_le_iff₀ hln0]
      have : -(1 / 2 ^ 25 : ℝ) ≤ -(1 / 2 ^ 25) * Real.log 2 := by
        have := mul_le_of_le_one_right (by positivity : (0 : ℝ) ≤ 1 / 2 ^ 25) hln1
        linarith
      linarith
    linarith

/-- The fixed-point logarithm of an operand that is not a power of two: N + D / 2^120 for a logarithm N + x. -/
theorem log2Fx_operand {m : Nat} (hm : m ≠ 0) (hm24 : m < 2 ^ 24) (hp : m ≠ 2 ^ Nat.log2 m) (e : Int) :
    ∃ D : Nat, ∃ x : ℝ, log2Fx m e = ((Nat.log2 m : Int) + e) * 2 ^ 120 + D ∧
      Real.logb 2 (size m e) = (Nat.log2 m : Int) + e + x ∧ 1 / 2 ^ 25 ≤ x ∧ x ≤ 1 - 1 / 2 ^ 25 ∧
      (D : ℝ) / 2 ^ 120 ≤ x ∧ x ≤ D / 2 ^ 120 + 1 / 2 ^ 119 := by
  obtain ⟨D, hD, h1, h2⟩ := log2Fx_spec hm e
  obtain ⟨hx1, hx2⟩ := logb_fraction_clear hm hm24 hp
  refine ⟨D, _, hD, logb_size hm e, hx1, hx2, ?_, ?_⟩
  · rwa [div_le_iff₀' (by positivity)]
  · have : (1 : ℝ) / 2 ^ 119 = 2 / 2 ^ 120 := by norm_num
    rwa [this, ← add_div, le_div_iff₀' (by positivity)]

/-- The value of a signed fixed-point number. -/
theorem ofInt_fin {L : Int} (hL : L ≠ 0) (q : Int) (z : Bool) : ofInt L q z = .fin (decide (L < 0)) L.natAbs q := if_neg hL

theorem size_natAbs (L : Int) (q : Int) : size L.natAbs q = |(L : ℝ) * 2 ^ q| := by
  have hp : (0 : ℝ) < 2 ^ q := by positivity
  rw [size, abs_mul, abs_of_pos hp, Nat.cast_natAbs, Int.cast_abs]

theorem dyadic_natAbs (L : Int) (q : Int) : dyadic (decide (L < 0)) L.natAbs q = L * 2 ^ q := by
  rw [dyadic, Nat.cast_natAbs, Int.cast_abs]
  by_cases hn : L < 0
  · rw [abs_of_neg (by exact_mod_cast hn), decide_eq_true hn, if_pos rfl]; ring
  · rw [abs_of_nonneg (by exact_mod_cast not_lt.1 hn), decide_eq_false hn, if_neg Bool.false_ne_true]; ring

/-- Near 1 `log2` of f32 has an absolute bound. -/
theorem pickNear_log2_near_one {L : Int} (hL : L ≠ 0) {y : ℝ} (hy : |(L : ℝ) * 2 ^ (-120 : Int) - y| ≤ 1 / 2 ^ 119)
    (hlt : |(L : ℝ) * 2 ^ (-120 : Int)| < 1) (z : Bool) (pick : Int) :
    (fmtOf 10).Gives (pickNear (fmtOf 10) 2 (some (-22)) (ofInt L (-120) z) pick) y ((2 : ℝ) ^ (-22 : Int)) := by
  have hm : L.natAbs ≠ 0 := Int.natAbs_ne_zero.2 hL
  have hf := ieee_fmtOf (t := 10) (.inr (.inr rfl))
  rw [← size_natAbs] at hlt
  have hev : (Nat.log2 L.natAbs : Int) + -120 < 0 :=
    (zpow_lt_zpow_iff_right₀ (one_lt_two : (1 : ℝ) < 2)).1 (by simpa using (zpow_le_size hm (-120)).trans_lt hlt)
  obtain ⟨q, hq⟩ : ∃ q, q = (fmtOf 10).place (some (-22)) L.natAbs (-120) := ⟨_, rfl⟩
  have hq' : q = max (max ((Nat.log2 L.natAbs : Int) + -120) (-126) - 23) (-44) := hq
  obtain ⟨j, hj⟩ := Int.eq_ofNat_of_zero_le (by omega : 0 ≤ -22 - q - 2)
  have htol : (pickTol 2 (some (-22)) q : ℝ) / 2 ^ 20 = 2 ^ (j + 2) - 1 / 8 := by
    have h1 : pickTol 2 (some (-22)) q = 2 ^ (j + 22) - 2 ^ 17 := by
      have h2 : (-22 - q + 20).toNat = j + 22 := by omega
      rw [pickTol]
      rw [h2, max_eq_right]
      · push_cast; rfl
      · have : (2 : Int) ^ 22 ≤ 2 ^ (j + 22) := pow_le_pow_right₀ (by decide) (by omega)
        push_cast
        omega
    rw [h1]
    push_cast
    rw [pow_add, pow_add]
    ring
  have hp1 : (1 : ℝ) ≤ 2 ^ j := one_le_pow₀ one_le_two
  have hp2 : (2 : ℝ) ^ (j + 2) ≤ 2 ^ 22 := pow_le_pow_right₀ one_le_two (by omega)
  have hfb : (2 : ℝ) ^ 22 ≤ 2 ^ (fmtOf 10).fb := pow_le_pow_right₀ one_le_two (by decide)
  have hg := hf.pickNear_gives (ulps := 2) (by decide) (some (-22)) (decide (L < 0)) hm (-120) pick (y := y) hq htol
    (by rw [pow_add]; linarith) (by linarith)
    (by
      rw [dyadic_natAbs]
      refine hy.trans ?_
      have : (2 : ℝ) ^ (-44 : Int) ≤ 2 ^ q := zpow_le_zpow_right₀ one_le_two (by omega)
      norm_num at this ⊢
      linarith)
    (.inl (by rw [show (fmtOf 10).bias = 127 from rfl, show (fmtOf 10).fb = 23 from rfl]; omega))
  rw [ofInt_fin hL]
  refine hg.mono ?_
  rw [sub_self, abs_zero, add_zero, sub_add_cancel, ← zpow_natCast, ← zpow_add₀ two_ne_zero]
  exact (congrArg _ (by push_cast; omega)).le

/-- `log2` of a power of two is exact. -/
theorem special_log2_pow (l : Nat) (e : Int) (t : Nat) (pick : Int) :
    (special 3 t (.fin false (2 ^ l) e) pick).1 = ofInt ((l : Int) + e) 0 false := by
  rw [special_log2 (Nat.two_pow_pos l).ne', if_neg Bool.false_ne_true, Nat.log2_two_pow, if_pos rfl]

/-- A small integer is in every format. -/
theorem gives_small_int {t : Nat} (ht : t = 8 ∨ t = 9 ∨ t = 10) {c : Int} (hc : |c| < 2 ^ 8) (z : Bool) :
    (fmtOf t).Gives (ofInt c 0 z) c 0 := by
  have hf := ieee_fmtOf ht
  have h8 : 2 ^ 8 ≤ 2 ^ ((fmtOf t).fb + 1) := Nat.pow_le_pow_right (by decide) (by have := hf.fb_pos; omega)
  have hcR : |(c : ℝ)| ≤ 2 ^ 8 := by exact_mod_cast hc.le
  have h := hf.gives_ofInt (c := c) (q := 0) z (by have := hf.bias_pos; have := hf.fb_pos; omega)
    (.inl (by rw [abs_lt] at hc; omega)) (by
      rw [zpow_zero, mul_one]
      refine hcR.trans (le_trans ?_ (fmtOf t).two_zpow_le_topVal)
      rw [zpow_natCast]
      exact pow_le_pow_right₀ one_le_two (by have := hf.bias_pos; omega))
  rwa [zpow_zero, mul_one] at h

theorem fixed_log (N : Int) (D : Nat) : ((N * 2 ^ 120 + D : Int) : ℝ) * (2 : ℝ) ^ (-120 : Int) = N + (D : ℝ) / 2 ^ 120 := by
  rw [zpow_neg, zpow_ofNat, Int.cast_add, Int.cast_mul, Int.cast_natCast, Int.cast_pow, Int.cast_ofNat, add_mul,
    mul_inv_cancel_right₀ (by positivity), div_eq_mul_inv]

theorem FFmt.Ieee.le_topVal {f : FFmt} (hf : f.Ieee) {y : ℝ} (hy : y ≤ 2 ^ 15) : y ≤ f.topVal := by
  refine hy.trans (le_trans ?_ f.two_zpow_le_topVal)
  rw [zpow_natCast]
  exact pow_le_pow_right₀ one_le_two hf.bias_pos

/-- The magnitude of a logarithm and of its fixed-point value, when it is negative, leave the powers of two on one side. -/
theorem two_zpow_le_neg_log {N : Int} {a x : ℝ} (hN : N ≤ -2) (ha : 0 < a) (hx : x ≤ 1) {k : Int}
    (h : (2 : ℝ) ^ k ≤ -N - a) : (2 : ℝ) ^ k ≤ -N - x := by
  have hN' : (N : ℝ) ≤ -2 := by exact_mod_cast hN
  rcases lt_or_ge k 0 with hk | hk
  · have : (2 : ℝ) ^ k ≤ 1 := zpow_le_one_of_nonpos₀ one_le_two hk.le
    linarith
  · obtain ⟨j, rfl⟩ := Int.eq_ofNat_of_zero_le hk
    rw [zpow_natCast] at h ⊢
    have h2 : (2 : Int) ^ j < -N := by
      have : ((2 ^ j : Int) : ℝ) < ((-N : Int) : ℝ) := by push_cast; linarith
      exact_mod_cast this
    have h3 : ((2 ^ j : Int) : ℝ) ≤ ((-N - 1 : Int) : ℝ) := by exact_mod_cast (by omega : (2 : Int) ^ j ≤ -N - 1)
    push_cast at h3
    linarith

section
variable {t : Nat} (ht : t = 8 ∨ t = 9 ∨ t = 10) {N L : Int} {a x : ℝ} (hN : |(N : ℝ)| ≤ 2 ^ 8)
  (hfix : (L : ℝ) * 2 ^ (-120 : Int) = N + a) (ha : 1 / 2 ^ 26 ≤ a) (h1 : x ≤ 1 - 1 / 2 ^ 25) (hax : a ≤ x)
  (hxa : x ≤ a + 1 / 2 ^ 119) (pick : Int)
include ht hN hfix ha h1 hax hxa

/-- The logarithm of a number above 1 lies just above the fixed-point one. -/
theorem within_log2_nonneg (hN0 : 0 ≤ N) :
    Within t 2 (pickNear (fmtOf t) (if t = 10 then 2 else 1) none (ofInt L (-120) false) pick) (N + x) := by
  have hNR0 : (0 : ℝ) ≤ N := by exact_mod_cast hN0
  have hpos : 0 < (N : ℝ) + a := by norm_num at ha; linarith
  have hL : 0 < L := by
    have : (0 : ℝ) < L := pos_of_mul_pos_left (hfix ▸ hpos) (by positivity)
    exact_mod_cast this
  have hsize : size L.natAbs (-120) = N + a := by rw [size_natAbs, hfix, abs_of_pos hpos]
  rw [abs_le] at hN
  rw [ofInt_fin hL.ne', decide_eq_false hL.le.not_gt]
  refine within_below ht (by decide) (by decide) (Int.natAbs_ne_zero.2 hL.ne') (hsize.trans_le (by linarith)) ?_
    ((ieee_fmtOf ht).le_topVal ?_)
  · rw [hsize]
    norm_num at ha hxa ⊢
    linarith
  · norm_num at hN h1 ⊢
    linarith

/-- The logarithm of a number below 1 lies just above the fixed-point one too, so that its magnitude lies below. -/
theorem within_log2_neg (hN0 : N < 0) (hfar : t = 10 → N ≠ -1) :
    Within t 2 (pickNear (fmtOf t) (if t = 10 then 2 else 1) none (ofInt L (-120) false) pick) (N + x) := by
  have hNR0 : (N : ℝ) ≤ -1 := by exact_mod_cast (by omega : N ≤ -1)
  have ha1 : a ≤ 1 - 1 / 2 ^ 25 := hax.trans h1
  have hneg : (N : ℝ) + a < 0 := by norm_num at ha1; linarith
  have hL : L < 0 := by
    have : (L : ℝ) < 0 := by
      by_contra hn
      have := mul_nonneg (not_lt.1 hn) (by positivity : (0 : ℝ) ≤ 2 ^ (-120 : Int))
      linarith
    exact_mod_cast this
  have hsize : size L.natAbs (-120) = -(N + a) := by rw [size_natAbs, hfix, abs_of_neg hneg]
  have hm : L.natAbs ≠ 0 := Int.natAbs_ne_zero.2 hL.ne
  have hy : (N : ℝ) + x = sgn true * (-N - x) := by rw [sgn, if_pos rfl]; ring
  rw [abs_le] at hN
  rw [ofInt_fin hL.ne, decide_eq_true hL, hy]
  refine pickNear_ulps ht (by decide) (by decide) hm ?_ ((ieee_fmtOf ht).close_of_rel ?_) (room_of_le ht (by decide) _ _ _ ?_) ?_
  · norm_num at h1; linarith
  · rw [hsize, abs_of_nonneg (by linarith)]
    norm_num at ha1 hxa ⊢
    linarith
  · norm_num at hN ha ⊢
    linarith
  · intro h10
    have h2 : N ≤ -2 := by have := hfar h10; omega
    refine .inl (two_zpow_le_neg_log (a := a) h2 ?_ ?_ ?_)
    · norm_num at ha; linarith
    · norm_num at h1; linarith
    · refine (zpow_le_size hm (-120)).trans_eq ?_
      rw [hsize]
      ring

end

/-- A logarithm that is not near 1, or of a format without the absolute bound, is close to the fixed-point one. -/
theorem within_log2_far {t : Nat} (ht : t = 8 ∨ t = 9 ∨ t = 10) {N : Int} {D : Nat} {x : ℝ} (hN : |N| ≤ 2 ^ 8)
    (h0 : 1 / 2 ^ 25 ≤ x) (h1 : x ≤ 1 - 1 / 2 ^ 25) (hD1 : (D : ℝ) / 2 ^ 120 ≤ x) (hD2 : x ≤ D / 2 ^ 120 + 1 / 2 ^ 119)
    (hfar : t = 10 → N ≠ -1) (pick : Int) :
    Within t 2 (pickNear (fmtOf t) (if t = 10 then 2 else 1) none (ofInt (N * 2 ^ 120 + D) (-120) false) pick) (N + x) := by
  have hNR : |(N : ℝ)| ≤ 2 ^ 8 := by exact_mod_cast hN
  have ha : 1 / 2 ^ 26 ≤ (D : ℝ) / 2 ^ 120 := by
    generalize (D : ℝ) / 2 ^ 120 = a at hD2 ⊢
    norm_num at h0 hD2 ⊢
    linarith
  rcases le_or_gt 0 N with hN0 | hN0
  · exact within_log2_nonneg ht hNR (fixed_log N D) ha h1 hD1 hD2 pick hN0
  · exact within_log2_neg ht hNR (fixed_log N D) ha h1 hD1 hD2 pick hN0 hfar

/-- A logarithm near 1 keeps the absolute bound. -/
theorem gives_log2_near {N : Int} {D : Nat} {x : ℝ} (hN : N = -1 ∨ N = 0)
    (h0 : 1 / 2 ^ 25 ≤ x) (h1 : x ≤ 1 - 1 / 2 ^ 25) (hD1 : (D : ℝ) / 2 ^ 120 ≤ x) (hD2 : x ≤ D / 2 ^ 120 + 1 / 2 ^ 119) (pick : Int) :
    (fmtOf 10).Gives (pickNear (fmtOf 10) 2 (some (-22)) (ofInt (N * 2 ^ 120 + D) (-120) false) pick) (N + x)
      ((2 : ℝ) ^ (-22 : Int)) := by
  have hfix := fixed_log N D
  generalize N * 2 ^ 120 + (D : Int) = L at hfix ⊢
  generalize (D : ℝ) / 2 ^ 120 = a at hD1 hD2 hfix
  have ha : 1 / 2 ^ 26 ≤ a := by norm_num at h0 hD2 ⊢; linarith
  have ha1 : a ≤ 1 - 1 / 2 ^ 25 := hD1.trans h1
  have hw0 : (N : ℝ) + a ≠ 0 := by
    rcases hN with rfl | rfl <;> intro hz <;> norm_num at ha ha1 hz <;> linarith
  have hL : L ≠ 0 := by
    rintro rfl
    rw [Int.cast_zero, zero_mul] at hfix
    exact hw0 hfix.symm
  refine pickNear_log2_near_one hL ?_ ?_ false pick
  · rw [hfix, abs_le]
    constructor <;> linarith
  · rw [hfix, abs_lt]
    rcases hN with rfl | rfl <;> norm_num at ha ha1 ⊢ <;> constructor <;> linarith

/-- The bound of `log2`: units in the last place, and near 1 an absolute one for f32 (Table 06-3). -/
noncomputable def log2Tol (t m : Nat) (e : Int) : ℝ :=
  max ((if t = 10 then (2 : Nat) else 1 : ℝ) * (fmtOf t).ulp (Real.logb 2 (size m e)))
    (if t = 10 ∧ 1 / 2 ≤ size m e ∧ size m e ≤ 2 then (2 : ℝ) ^ (-22 : Int) else 0)

/-- `log2` of a power of two keeps it. -/
theorem gives_log2_pow {t : Nat} (ht : t = 8 ∨ t = 9 ∨ t = 10) {l : Nat} {e pick : Int} (he : |(l : Int) + e| < 2 ^ 8) :
    (fmtOf t).Gives (special 3 t (.fin false (2 ^ l) e) pick).1 (Real.logb 2 (size (2 ^ l) e)) (log2Tol t (2 ^ l) e) := by
  have hy : Real.logb 2 (size (2 ^ l) e) = (((l : Int) + e : Int) : ℝ) := by
    rw [size_two_pow, ← Real.rpow_intCast, Real.logb_rpow two_pos (by norm_num)]
  rw [special_log2_pow, log2Tol, hy]
  refine (gives_small_int ht he false).mono ?_
  rw [sub_self, abs_zero, add_zero]
  refine le_max_of_le_left (mul_nonneg (by split <;> norm_num) ?_)
  unfold FFmt.ulp
  positivity

/-- `log2` keeps its bound. -/
theorem gives_log2 {t : Nat} (ht : t = 8 ∨ t = 9 ∨ t = 10) {m : Nat} (hm : m ≠ 0) (hm24 : m < 2 ^ 24) {e pick : Int}
    (he : -149 ≤ e) (he' : e ≤ 127) :
    (fmtOf t).Gives (special 3 t (.fin false m e) pick).1 (Real.logb 2 (size m e)) (log2Tol t m e) := by
  have hl24 : Nat.log2 m < 24 := (Nat.log2_lt hm).2 hm24
  have hN : |(Nat.log2 m : Int) + e| < 2 ^ 8 := by rw [abs_lt]; omega
  by_cases hp : m = 2 ^ Nat.log2 m
  · have h := gives_log2_pow ht hN (pick := pick)
    rwa [← hp] at h
  obtain ⟨D, x, hL, hy, hx1, hx2, hD1, hD2⟩ := log2Fx_operand hm hm24 hp e
  rw [special_log2 hm, if_neg Bool.false_ne_true, if_neg hp, hL, log2Tol, hy]
  dsimp only
  by_cases hin : (decide (-1 ≤ (Nat.log2 m : Int) + e) && decide ((Nat.log2 m : Int) + e < 1)) ∧ t = 10
  · rw [if_pos hin]
    obtain ⟨hin', rfl⟩ := hin
    rw [Bool.and_eq_true, decide_eq_true_eq, decide_eq_true_eq] at hin'
    obtain ⟨hin1, hin2⟩ := hin'
    have hs1 : 1 / 2 ≤ size m e := by
      refine le_trans ?_ ((zpow_le_zpow_right₀ one_le_two hin1).trans (zpow_le_size hm e))
      norm_num
    have hs2 : size m e ≤ 2 := by
      refine (size_lt_zpow m e).le.trans ((zpow_le_zpow_right₀ one_le_two hin2).trans ?_)
      norm_num
    refine (gives_log2_near (N := (Nat.log2 m : Int) + e) (by omega) hx1 hx2 hD1 hD2 pick).mono ?_
    rw [Int.cast_add, sub_self, abs_zero, add_zero]
    exact le_max_of_le_right (if_pos (c := 10 = 10 ∧ 1 / 2 ≤ size m e ∧ size m e ≤ 2) ⟨rfl, hs1, hs2⟩).ge
  · rw [if_neg hin, ← Int.cast_add]
    refine (within_log2_far ht hN.le hx1 hx2 hD1 hD2 (fun h10 hN1 => hin ⟨by rw [hN1]; rfl, h10⟩) pick).mono ?_
    rw [sub_self, abs_zero, add_zero]
    exact le_max_left ..

/-! ### Values around the powers of two

A choice of several units in the last place is safe unless the value has reached a power of two that the exact result has not.
Between the two operands next to such a point a monotone function leaves room, which a fixed-point evaluation at both shows. -/

/-- A value is close to y in proportion. -/
def Tracks (s : Nat) (v : FV) (y : ℝ) : Prop := ∃ n m e, v = .fin n m e ∧ m ≠ 0 ∧ Rel (1 / 2 ^ s) (size m e) y

/-- A value below a power of two, or above, by more than four times the error. -/
def FV.clearBelow (s : Nat) (j : Int) : FV → Bool
  | .fin _ m e => decide (e ≤ j) && decide (m * (2 ^ s + 4) ≤ 2 ^ (s + (j - e).toNat))
  | _ => false
def FV.clearAbove (s : Nat) (j : Int) : FV → Bool
  | .fin _ m e => decide (e ≤ j) && decide (2 ^ (j - e).toNat * (2 ^ s + 4) ≤ m * 2 ^ s)
  | _ => false

theorem two_zpow_split {e j : Int} (h : e ≤ j) : (2 : ℝ) ^ j = 2 ^ (j - e).toNat * 2 ^ e := by
  rw [← zpow_natCast, ← zpow_add₀ two_ne_zero]
  congr 1
  omega

theorem lt_of_clearBelow {s : Nat} (hs : 3 ≤ s) {j : Int} {v : FV} {y : ℝ} (hc : v.clearBelow s j = true) (h : Tracks s v y)
    (hy : 0 < y) : y * (1 + 1 / 2 ^ s) < 2 ^ j := by
  obtain ⟨n, m, e, rfl, -, hr⟩ := h
  rw [FV.clearBelow, Bool.and_eq_true, decide_eq_true_eq, decide_eq_true_eq] at hc
  obtain ⟨he, hm⟩ := hc
  have hP : (8 : ℝ) ≤ 2 ^ s := le_trans (by norm_num) (pow_le_pow_right₀ one_le_two hs)
  have hmR : (m : ℝ) * (2 ^ s + 4) ≤ 2 ^ s * 2 ^ (j - e).toNat := by rw [← pow_add]; exact_mod_cast hm
  have hp : (0 : ℝ) < 2 ^ e := by positivity
  have hsz : size m e * (2 ^ s + 4) ≤ 2 ^ s * 2 ^ j := by
    rw [two_zpow_split he, size, mul_right_comm, ← mul_assoc]
    exact mul_le_mul_of_nonneg_right hmR hp.le
  have hlow := hr.bounds.1
  generalize (2 : ℝ) ^ s = P at *
  have hP0 : (0 : ℝ) < P := by linarith
  have h1 : (P - 1) * y ≤ P * size m e := by
    have := mul_le_mul_of_nonneg_left hlow hP0.le
    rwa [← mul_assoc, mul_sub, mul_one, mul_one_div_cancel hP0.ne'] at this
  have h2 : y * (P + 1) < P * 2 ^ j := by
    have h3 : (P - 1) * y * (P + 4) ≤ P * (P * 2 ^ j) := by
      calc (P - 1) * y * (P + 4) ≤ P * size m e * (P + 4) := mul_le_mul_of_nonneg_right h1 (by linarith)
        _ = P * (size m e * (P + 4)) := by ring
        _ ≤ P * (P * 2 ^ j) := mul_le_mul_of_nonneg_left hsz hP0.le
    nlinarith
  rw [mul_add, mul_one, mul_one_div, ← lt_sub_iff_add_lt, lt_sub_iff_add_lt]
  rw [← mul_lt_mul_iff_right₀ hP0, mul_add, mul_div_cancel₀ _ hP0.ne']
  linarith

theorem le_of_clearAbove {s : Nat} {j : Int} {v : FV} {y : ℝ} (hc : v.clearAbove s j = true) (h : Tracks s v y) :
    2 ^ j ≤ y := by
  obtain ⟨n, m, e, rfl, -, hr⟩ := h
  rw [FV.clearAbove, Bool.and_eq_true, decide_eq_true_eq, decide_eq_true_eq] at hc
  obtain ⟨he, hm⟩ := hc
  have hmR : (2 : ℝ) ^ (j - e).toNat * (2 ^ s + 4) ≤ m * 2 ^ s := by exact_mod_cast hm
  have hsz : 2 ^ j * ((2 : ℝ) ^ s + 4) ≤ size m e * 2 ^ s := by
    rw [two_zpow_split he, size, mul_right_comm, mul_right_comm (m : ℝ)]
    exact mul_le_mul_of_nonneg_right hmR (by positivity)
  have hup := hr.bounds.2
  have hP0 : (0 : ℝ) < 2 ^ s := by positivity
  generalize (2 : ℝ) ^ s = P at *
  have h1 : size m e * P ≤ (P + 1) * y := by
    have := mul_le_mul_of_nonneg_right hup hP0.le
    rwa [mul_right_comm, add_mul, one_mul, one_div_mul_cancel hP0.ne'] at this
  have h2 : 2 ^ j * (P + 1) ≤ y * (P + 1) := by
    have : (0 : ℝ) < 2 ^ j := by positivity
    linarith
  exact le_of_mul_le_mul_right h2 (by linarith)

/-- Between an operand of 24 bits and the next there is no other. -/
theorem operand_gap {m m0 : Nat} (hm : m < 2 ^ 24) (h0 : 2 ^ 23 ≤ m0) (e e0 : Int) :
    size m e ≤ size m0 e0 ∨ size (m0 + 1) e0 ≤ size m e := by
  rcases lt_or_ge e e0 with he | he
  · left
    obtain ⟨k, hk⟩ := Int.eq_ofNat_of_zero_le (by omega : 0 ≤ e0 - e - 1)
    obtain rfl : e0 = e + (k + 1 : Nat) := by push_cast; omega
    have hn : m ≤ m0 * 2 ^ (k + 1) := by
      rw [Nat.pow_succ]
      nlinarith [Nat.two_pow_pos k]
    have hnR : (m : ℝ) ≤ m0 * 2 ^ (k + 1) := by exact_mod_cast hn
    rw [size, size, zpow_add₀ two_ne_zero, zpow_natCast, mul_comm ((2 : ℝ) ^ e), ← mul_assoc]
    exact mul_le_mul_of_nonneg_right hnR (by positivity)
  · rw [← size_shiftLeft m he]
    generalize m <<< (e - e0).toNat = N
    rcases le_or_gt N m0 with h | h
    · exact .inl (mul_le_mul_of_nonneg_right (by exact_mod_cast h) (by positivity))
    · exact .inr (mul_le_mul_of_nonneg_right (by exact_mod_cast h) (by positivity))

/-- No operand in S has a result just below a power of two. -/
def Parts (s : Nat) (g : ℝ → ℝ) (S : Set ℝ) (j : Int) : Prop :=
  ∀ m e, m < 2 ^ 24 → size m e ∈ S → (2 : ℝ) ^ j ≤ g (size m e) ∨ g (size m e) * (1 + 1 / 2 ^ s) < 2 ^ j

/-- So a value that has reached the power of two shows that the result has. -/
theorem Parts.reach {s : Nat} {g : ℝ → ℝ} {S : Set ℝ} {j : Int} (h : Parts s g S j) {m : Nat} {e : Int} (hm : m < 2 ^ 24)
    (hS : size m e ∈ S) {M : Nat} {E : Int} (hr : Rel (1 / 2 ^ s) (size M E) (g (size m e))) (hj : (2 : ℝ) ^ j ≤ size M E) :
    (2 : ℝ) ^ j ≤ g (size m e) := by
  refine (h m e hm hS).resolve_right fun hlt => ?_
  have := hr.bounds.2
  rw [mul_comm] at this
  linarith

/-- The operands between lo / 20 and hi / 20, and how to tell that one is among them, and its exponent not too low. -/
def band (lo hi : Nat) : Set ℝ := Set.Icc (lo / 20 : ℝ) (hi / 20 : ℝ)
def inBand (emin : Int) (lo hi m : Nat) (e : Int) : Bool :=
  decide (emin ≤ e) && decide (e ≤ 0) && decide (lo * 2 ^ (-e).toNat ≤ 20 * m) && decide (20 * m ≤ hi * 2 ^ (-e).toNat)

theorem mem_band {emin : Int} {lo hi m : Nat} {e : Int} (h : inBand emin lo hi m e = true) : emin ≤ e ∧ size m e ∈ band lo hi := by
  simp only [inBand, Bool.and_eq_true, decide_eq_true_eq] at h
  obtain ⟨⟨⟨h0, h1⟩, h2⟩, h3⟩ := h
  obtain ⟨k, hk⟩ := Int.eq_ofNat_of_zero_le (by omega : 0 ≤ -e)
  obtain rfl : e = -(k : Int) := by omega
  rw [neg_neg, Int.toNat_natCast] at h2 h3
  have h2R : (lo : ℝ) * 2 ^ k ≤ 20 * m := by exact_mod_cast h2
  have h3R : (20 * m : ℝ) ≤ hi * 2 ^ k := by exact_mod_cast h3
  have hp : (0 : ℝ) < 2 ^ k := by positivity
  refine ⟨h0, ?_⟩
  rw [band, Set.mem_Icc, size, zpow_neg, zpow_natCast, ← div_eq_mul_inv, div_le_div_iff₀ (by norm_num) hp,
    div_le_div_iff₀ hp (by norm_num)]
  constructor <;> linarith

/-- The numbers of f32, by their bits. -/
def mant (b : Nat) : Nat := 2 ^ 23 + b % 2 ^ 23
def expo (b : Nat) : Int := (b / 2 ^ 23 : Nat) - 150
/-- A point where a property ceases to hold. -/
def bisect (p : Nat → Bool) : Nat → Nat → Nat → Nat
  | 0, lo, _ => lo
  | n + 1, lo, hi => if p ((lo + hi) / 2) then bisect p n ((lo + hi) / 2) hi else bisect p n lo ((lo + hi) / 2)

/-- Two neighbours on the two sides of a power of two, the smaller below it when the function increases. -/
def splits (s : Nat) (f : Nat → Int → FV) (up : Bool) (emin : Int) (lo hi : Nat) (j : Int) (b : Nat) : Bool :=
  inBand emin lo hi (mant b) (expo b) && inBand emin lo hi (mant b + 1) (expo b) &&
    (if up then (f (mant b) (expo b)).clearBelow s j && (f (mant b + 1) (expo b)).clearAbove s j
    else (f (mant b) (expo b)).clearAbove s j && (f (mant b + 1) (expo b)).clearBelow s j)
/-- The search for them, in n steps between the numbers from and to. -/
def findSplit (s : Nat) (f : Nat → Int → FV) (up : Bool) (j : Int) (n from_ to_ : Nat) : Nat :=
  bisect (fun b => (f (mant b) (expo b)).clearBelow s j == up) n from_ to_

theorem mant_ge (b : Nat) : 2 ^ 23 ≤ mant b := Nat.le_add_right ..

section
variable {s : Nat} {f : Nat → Int → FV} {g : ℝ → ℝ} {emin : Int} {lo hi : Nat} {j : Int} {b : Nat} (hs : 3 ≤ s)
  (ht : ∀ m e, 2 ^ 23 ≤ m → emin ≤ e → size m e ∈ band lo hi → Tracks s (f m e) (g (size m e)) ∧ 0 < g (size m e))
include hs ht

/-- Such neighbours part the results of an increasing function. -/
theorem parts_of_increasing (hg : MonotoneOn g (band lo hi)) (h : splits s f true emin lo hi j b = true) : Parts s g (band lo hi) j := by
  simp only [splits, Bool.and_eq_true, if_true] at h
  obtain ⟨⟨h0, h1⟩, hb, ha⟩ := h
  obtain ⟨he, hS0⟩ := mem_band h0
  obtain ⟨-, hS1⟩ := mem_band h1
  have hm := mant_ge b
  obtain ⟨ht0, hy0⟩ := ht _ _ hm he hS0
  obtain ⟨ht1, hy1⟩ := ht _ _ (Nat.le_succ_of_le hm) he hS1
  intro m e hm24 hS
  rcases operand_gap hm24 hm e (expo b) with hle | hge
  · right
    refine lt_of_le_of_lt ?_ (lt_of_clearBelow hs hb ht0 hy0)
    exact mul_le_mul_of_nonneg_right (hg hS hS0 hle) (by positivity)
  · exact .inl ((le_of_clearAbove ha ht1).trans (hg hS1 hS hge))

/-- And those of a decreasing one. -/
theorem parts_of_decreasing (hg : AntitoneOn g (band lo hi)) (h : splits s f false emin lo hi j b = true) : Parts s g (band lo hi) j := by
  simp only [splits, Bool.and_eq_true, Bool.false_eq_true, if_false] at h
  obtain ⟨⟨h0, h1⟩, ha, hb⟩ := h
  obtain ⟨he, hS0⟩ := mem_band h0
  obtain ⟨-, hS1⟩ := mem_band h1
  have hm := mant_ge b
  obtain ⟨ht0, hy0⟩ := ht _ _ hm he hS0
  obtain ⟨ht1, hy1⟩ := ht _ _ (Nat.le_succ_of_le hm) he hS1
  intro m e hm24 hS
  rcases operand_gap hm24 hm e (expo b) with hle | hge
  · exact .inl ((le_of_clearAbove ha ht0).trans (hg hS hS0 hle))
  · right
    refine lt_of_le_of_lt ?_ (lt_of_clearBelow hs hb ht1 hy1)
    exact mul_le_mul_of_nonneg_right (hg hS1 hS hge) (by positivity)

end

/-! ### Quotients and exponentials in fixed point -/

theorem Rel.trans {d d' x y z : ℝ} (h : Rel d x y) (h' : Rel d' y z) (hd : 0 ≤ d) : Rel (d + d' + d * d') x z := by
  have hy := mul_le_mul_of_nonneg_left h'.bounds.2 hd
  rw [Rel] at *
  calc |x - z| ≤ |x - y| + |y - z| := abs_sub_le ..
    _ ≤ d * y + d' * z := add_le_add h h'
    _ ≤ (d + d' + d * d') * z := by linarith

/-- A quotient of at least k + 1 bits, rounded down. -/
theorem size_div_rel {a b : Nat} (hb : b ≠ 0) {k : Nat} (h : 2 ^ k * b ≤ a) (e : Int) :
    Rel (1 / 2 ^ k) (size (a / b) e) (a / b * (2 : ℝ) ^ e) := by
  obtain ⟨h1, h2⟩ := div_floor_spec a hb
  have hbR : (0 : ℝ) < b := by exact_mod_cast Nat.pos_of_ne_zero hb
  have hkR : (2 : ℝ) ^ k ≤ a / b := by
    rw [le_div_iff₀ hbR]
    exact_mod_cast h
  rw [← le_div_iff₀ hbR] at h1
  rw [← div_lt_iff₀ hbR] at h2
  have hp : (0 : ℝ) < 2 ^ e := by positivity
  have hk : (0 : ℝ) < 2 ^ k := by positivity
  rw [Rel, size, ← sub_mul, abs_mul, abs_of_pos hp, ← mul_assoc]
  refine mul_le_mul_of_nonneg_right ?_ hp.le
  have h3 : 1 ≤ 1 / 2 ^ k * (a / b : ℝ) := by
    rw [one_div, inv_mul_eq_div, le_div_iff₀ hk]
    linarith
  rw [abs_le]
  constructor <;> linarith

theorem size_div_ne_zero {a b : Nat} (hb : b ≠ 0) (h : b ≤ a) : a / b ≠ 0 :=
  (Nat.div_pos h (Nat.pos_of_ne_zero hb)).ne'

/-- Where a is close to E, x / (1 + a) is close to x / (1 + E). -/
theorem rel_div_one_add {x a E d : ℝ} (hx : 0 ≤ x) (hd0 : 0 ≤ d) (hd : d ≤ 1 / 2) (hE : 0 ≤ E) (h : Rel d a E) :
    Rel (2 * d) (x / (1 + a)) (x / (1 + E)) := by
  have ha : 1 / 2 * E ≤ a := by
    have := mul_le_mul_of_nonneg_right hd hE
    linarith [h.bounds.1]
  have ha0 : 0 < 1 + a := by linarith
  have hE0 : 0 < 1 + E := by linarith
  have hq : x / (1 + a) - x / (1 + E) = (E - a) / (1 + a) * (x / (1 + E)) := by
    field_simp
    ring
  rw [Rel, hq, abs_mul, abs_of_nonneg (div_nonneg hx hE0.le)]
  refine mul_le_mul_of_nonneg_right ?_ (div_nonneg hx hE0.le)
  rw [abs_div, abs_of_pos ha0, div_le_iff₀ ha0, abs_sub_comm]
  refine le_trans (show |a - E| ≤ d * E from h) ?_
  have : d * E ≤ d * (2 * (1 + a)) := mul_le_mul_of_nonneg_left (by linarith) hd0
  linarith

/-- The fixed-point exponential read from a place below its own. -/
theorem expFx_at {y q : Int} (hy : |y| ≤ 2 ^ 10 * fxOne) (hq : q ≤ y / fxLn2 - 160) :
    ∃ A : Nat, A ≠ 0 ∧ (expFx y).at q = A ∧ Rel (1 / 2 ^ 140) (size A q) (Real.exp (y / fxOne)) := by
  obtain ⟨m, hm, he, hr⟩ := expFx_spec hy
  rw [← size_shiftLeft m hq] at hr
  refine ⟨m <<< (y / fxLn2 - 160 - q).toNat, ?_, by rw [he]; rfl, hr⟩
  rw [Nat.shiftLeft_eq]
  exact Nat.mul_ne_zero hm (Nat.two_pow_pos _).ne'

/-- The exponent of the fixed-point exponential. -/
theorem le_ediv_fxLn2 {y k : Int} (h : k * fxLn2 ≤ y) : k ≤ y / fxLn2 :=
  (Int.le_ediv_iff_mul_le (by decide +kernel)).2 h

theorem toFx_abs_lt {n : Bool} {m : Nat} {e : Int} (he : -160 ≤ e) {k : Nat} (h : size m e < k) :
    |toFx (.fin n m e)| < k * fxOne := by
  have hR : |(toFx (.fin n m e) : ℝ)| < k * fxOne := by
    rw [toFx_spec n m he, abs_mul, abs_dyadic, abs_of_pos fxOne_pos]
    exact mul_lt_mul_of_pos_right h fxOne_pos
  exact_mod_cast hR

theorem toFx_nonneg (m : Nat) {e : Int} (he : -160 ≤ e) : 0 ≤ toFx (.fin false m e) := by
  have hR : (0 : ℝ) ≤ toFx (.fin false m e) := by
    rw [toFx_spec false m he, dyadic_sgn, sgn, if_neg Bool.false_ne_true, one_mul]
    exact mul_nonneg (size_nonneg m e) fxOne_pos.le
  exact_mod_cast hR

/-- The leading bit tells how a magnitude compares with a power of two. -/
theorem log2_lt_iff {m : Nat} (hm : m ≠ 0) (e : Int) (k : Nat) : (Nat.log2 m : Int) + e < k ↔ size m e < 2 ^ k := by
  rw [← zpow_natCast]
  constructor
  · intro h
    exact (size_lt_zpow m e).trans_le (zpow_le_zpow_right₀ one_le_two (by omega))
  · intro h
    exact (zpow_lt_zpow_iff_right₀ (one_lt_two : (1 : ℝ) < 2)).1 ((zpow_le_size hm e).trans_lt h)

/-! ### silu -/

/-- The value around which `silu` is chosen. -/
def siluNear (n : Bool) (m : Nat) (e : Int) : FV := .fin n (m * 2 ^ 1200 / (2 ^ 600 + siluExp n m e)) (e - 600)
/-- The magnitude of silu at x or -x. -/
noncomputable def siluMag (n : Bool) (x : ℝ) : ℝ := x / (1 + Real.exp (if n then x else -x))
/-- The exponent of the denominator, in fixed point. -/
def siluArg (n : Bool) (m : Nat) (e : Int) : Int :=
  if n then (if 8 ≤ (Nat.log2 m : Int) + e then 2 ^ 8 * (fxOne : Int) else toFx (.fin false m e))
  else -(if 8 ≤ (Nat.log2 m : Int) + e then 2 ^ 8 * (fxOne : Int) else toFx (.fin false m e))

theorem siluExp_eq (n : Bool) (m : Nat) (e : Int) : siluExp n m e = ((expFx (siluArg n m e)).at (-600)).toNat := rfl

theorem siluMag_pos (n : Bool) {x : ℝ} (hx : 0 < x) : 0 < siluMag n x := by
  unfold siluMag
  positivity

theorem silu_eq (n : Bool) (m : Nat) (e : Int) :
    dyadic n m e / (1 + Real.exp (-dyadic n m e)) = sgn n * siluMag n (size m e) := by
  rw [dyadic_sgn, siluMag, mul_div_assoc]
  cases n <;> simp [sgn]

theorem abs_siluArg_le (n : Bool) {m : Nat} (hm : m ≠ 0) {e : Int} (he : -149 ≤ e) : |siluArg n m e| ≤ 2 ^ 8 * fxOne := by
  have h (y : Int) (h0 : 0 ≤ y) (hy : y ≤ 2 ^ 8 * fxOne) : |if n then y else -y| ≤ 2 ^ 8 * (fxOne : Int) := by
    cases n
    · rwa [if_neg Bool.false_ne_true, abs_neg, abs_of_nonneg h0]
    · rwa [if_pos rfl, abs_of_nonneg h0]
  refine h _ ?_ ?_
  · split
    · exact mul_nonneg (by decide) fxOne_intPos.le
    · exact toFx_nonneg m (by omega)
  · split
    · exact le_rfl
    · next hv =>
      have hs := (log2_lt_iff hm e 8).1 (by push_cast; omega)
      have h := (toFx_abs_lt (n := false) (by omega) (k := 256) (hs.trans_eq (by norm_num))).le
      exact (le_abs_self _).trans (h.trans_eq (by norm_num))

theorem exp_256_lt : Real.exp 256 < 2 ^ 384 := by
  have h1 := Real.exp_one_lt_d9
  have h2 : Real.exp 256 = (Real.exp 1 ^ 2) ^ 128 := by rw [← pow_mul, ← Real.exp_nat_mul]; norm_num
  rw [h2, show (2 : ℝ) ^ 384 = (2 ^ 3) ^ 128 by rw [← pow_mul]]
  refine pow_lt_pow_left₀ ?_ (by positivity) (by decide)
  nlinarith [Real.exp_pos 1]

/-- The exponential in the denominator of `silu`, 600 fraction bits. -/
theorem siluExp_spec (n : Bool) {m : Nat} (hm : m ≠ 0) {e : Int} (he : -149 ≤ e) :
    siluExp n m e ≠ 0 ∧ siluExp n m e ≤ 2 ^ 985 ∧
      Rel (1 / 2 ^ 140) (size (siluExp n m e) (-600)) (Real.exp (siluArg n m e / fxOne)) := by
  have harg := abs_siluArg_le n hm he
  have hk : -600 ≤ siluArg n m e / fxLn2 - 160 := by
    have h := le_ediv_fxLn2 (y := siluArg n m e) (k := -440) (by
      have h1 : (2 : Int) ^ 8 * fxOne ≤ 440 * fxLn2 := by decide +kernel
      rw [abs_le] at harg
      linarith [harg.1])
    omega
  obtain ⟨A, hA, hat, hr⟩ := expFx_at (q := -600) (harg.trans (mul_le_mul_of_nonneg_right (by decide) fxOne_intPos.le)) hk
  have hargR : (siluArg n m e / fxOne : ℝ) ≤ 256 := by
    rw [div_le_iff₀ fxOne_pos]
    have : ((siluArg n m e : Int) : ℝ) ≤ ((2 ^ 8 * fxOne : Int) : ℝ) := by exact_mod_cast (le_abs_self _).trans harg
    push_cast at this
    linarith
  rw [siluExp_eq, hat, Int.toNat_natCast]
  refine ⟨hA, ?_, hr⟩
  have h1 : size A (-600) ≤ 2 * 2 ^ 384 :=
    hr.bounds.2.trans (mul_le_mul (by norm_num) ((Real.exp_le_exp.2 hargR).trans exp_256_lt.le) (Real.exp_pos _).le (by norm_num))
  have h2 : (A : ℝ) ≤ 2 ^ 985 := by
    rw [size, zpow_neg, zpow_ofNat, mul_inv_le_iff₀ (by positivity)] at h1
    refine h1.trans_eq ?_
    rw [← pow_succ', ← pow_add]
  exact_mod_cast h2

/-- The value of `silu`: the operand divided by 1 + a, where a is close to the exponential. -/
theorem siluNear_spec (n : Bool) {m : Nat} (hm : m ≠ 0) {e : Int} (he : -149 ≤ e) :
    ∃ M : Nat, ∃ a : ℝ, siluNear n m e = .fin n M (e - 600) ∧ M ≠ 0 ∧ 0 < a ∧
      Rel (1 / 2 ^ 140) a (Real.exp (siluArg n m e / fxOne)) ∧
      Rel (1 / 2 ^ 200) (size M (e - 600)) (size m e / (1 + a)) ∧ size M (e - 600) ≤ size m e / (1 + a) := by
  obtain ⟨hA, hAle, hr⟩ := siluExp_spec n hm he
  rw [siluNear]
  generalize siluExp n m e = A at *
  have hden : 2 ^ 600 + A ≠ 0 := by positivity
  have hbig : 2 ^ 200 * (2 ^ 600 + A) ≤ m * 2 ^ 1200 := by
    calc 2 ^ 200 * (2 ^ 600 + A) ≤ 2 ^ 200 * (2 ^ 600 + 2 ^ 985) := Nat.mul_le_mul_left _ (Nat.add_le_add_left hAle _)
      _ ≤ 1 * 2 ^ 1200 := by decide +kernel
      _ ≤ m * 2 ^ 1200 := Nat.mul_le_mul_right _ (Nat.pos_of_ne_zero hm)
  have hquot : ((m * 2 ^ 1200 : Nat) : ℝ) / (2 ^ 600 + A : Nat) * (2 : ℝ) ^ (e - 600) = size m e / (1 + size A (-600)) := by
    rw [size, size, zpow_sub₀ two_ne_zero, zpow_neg, zpow_ofNat]
    have h1200 : (2 : ℝ) ^ 1200 = 2 ^ 600 * 2 ^ 600 := by rw [← pow_add]
    have hP : (0 : ℝ) < 2 ^ 600 := by positivity
    rw [Nat.cast_mul, Nat.cast_add, Nat.cast_pow, Nat.cast_pow, Nat.cast_two, h1200]
    generalize (2 : ℝ) ^ 600 = P at *
    field_simp
  have hrel := size_div_rel hden hbig (e - 600)
  obtain ⟨hfl, -⟩ := div_floor_spec (m * 2 ^ 1200) hden
  rw [← le_div_iff₀ (by exact_mod_cast Nat.pos_of_ne_zero hden)] at hfl
  have hfl' := mul_le_mul_of_nonneg_right hfl (by positivity : (0 : ℝ) ≤ (2 : ℝ) ^ (e - 600))
  rw [hquot] at hrel hfl'
  exact ⟨_, _, rfl, size_div_ne_zero hden ((Nat.le_mul_of_pos_left _ (Nat.two_pow_pos 200)).trans hbig), size_pos hA _, hr, hrel,
    hfl'⟩

theorem siluArg_real (n : Bool) {m : Nat} (hm : m ≠ 0) {e : Int} (he : -149 ≤ e) (hx : size m e ≤ 256) :
    (siluArg n m e / fxOne : ℝ) = if n then size m e else -size m e := by
  have h : (((if 8 ≤ (Nat.log2 m : Int) + e then 2 ^ 8 * (fxOne : Int) else toFx (.fin false m e) : Int) : ℝ) / fxOne) = size m e := by
    split
    next hv =>
      have h8 : (2 : ℝ) ^ (8 : Int) ≤ size m e := (zpow_le_zpow_right₀ one_le_two hv).trans (zpow_le_size hm e)
      rw [Int.cast_mul, Int.cast_natCast, mul_div_cancel_right₀ _ fxOne_pos.ne']
      norm_num at h8 ⊢
      linarith
    next =>
      rw [toFx_real false m (by omega), dyadic_sgn, sgn, if_neg Bool.false_ne_true, one_mul]
  rw [siluArg]
  cases n
  · rw [if_neg Bool.false_ne_true, if_neg Bool.false_ne_true, Int.cast_neg, neg_div, h]
  · rw [if_pos rfl, if_pos rfl, h]

/-- Up to 256 the value is close to silu in proportion. -/
theorem silu_tracks (n : Bool) {m : Nat} (hm : m ≠ 0) {e : Int} (he : -149 ≤ e) (hx : size m e ≤ 256) :
    Tracks 130 (siluNear n m e) (siluMag n (size m e)) := by
  obtain ⟨M, a, hv, hM, ha, hr, hq, -⟩ := siluNear_spec n hm he
  rw [siluArg_real n hm he hx] at hr
  have hs := size_nonneg m e
  have h := hq.trans (rel_div_one_add hs (by positivity) (by norm_num) (Real.exp_pos _).le hr) (by positivity)
  exact ⟨_, _, _, hv, hM, h.mono (siluMag_pos n (size_pos hm e)).le (by norm_num)⟩

/-- silu increases on the positive numbers. -/
theorem siluMag_pos_mono : MonotoneOn (siluMag false) (Set.Ici 0) := by
  intro x hx y _ hxy
  have hx0 : (0 : ℝ) ≤ x := hx
  have hexp : Real.exp (-y) ≤ Real.exp (-x) := Real.exp_le_exp.2 (by linarith)
  simp only [siluMag, Bool.false_eq_true, if_false]
  exact div_le_div₀ (hx0.trans hxy) hxy (by positivity) (by linarith)

theorem exp_five_quarters_lt : Real.exp (5 / 4) < 4 := by
  have h1 := Real.exp_one_lt_d9
  refine lt_of_pow_lt_pow_left₀ 4 (by norm_num) ?_
  rw [← Real.exp_nat_mul, show ((4 : Nat) : ℝ) * (5 / 4) = (5 : Nat) * 1 by norm_num, Real.exp_nat_mul]
  calc Real.exp 1 ^ 5 < 3 ^ 5 := pow_lt_pow_left₀ (by linarith) (Real.exp_pos 1).le (by decide)
    _ < 4 ^ 4 := by norm_num

theorem exp_thirteen_tenths_lt : Real.exp (13 / 10) < 4 := by
  have h1 := Real.exp_one_lt_d9
  refine lt_of_pow_lt_pow_left₀ 10 (by norm_num) ?_
  rw [← Real.exp_nat_mul, show ((10 : Nat) : ℝ) * (13 / 10) = (13 : Nat) * 1 by norm_num, Real.exp_nat_mul]
  calc Real.exp 1 ^ 13 < 2.75 ^ 13 := pow_lt_pow_left₀ (by linarith) (Real.exp_pos 1).le (by decide)
    _ < 4 ^ 10 := by norm_num

theorem lt_exp_thirteen_tenths : 10 / 3 < Real.exp (13 / 10) := by
  have h1 := Real.exp_one_gt_d9
  refine lt_of_pow_lt_pow_left₀ 10 (Real.exp_pos _).le ?_
  rw [← Real.exp_nat_mul, show ((10 : Nat) : ℝ) * (13 / 10) = (13 : Nat) * 1 by norm_num, Real.exp_nat_mul]
  calc (10 / 3 : ℝ) ^ 10 < 2.7 ^ 13 := by norm_num
    _ < Real.exp 1 ^ 13 := pow_lt_pow_left₀ (by linarith) (by norm_num) (by decide)

/-- How x / (1 + e^x) changes from x to y. -/
theorem siluMag_true_le_iff {x y : ℝ} :
    siluMag true x ≤ siluMag true y ↔ x * Real.exp y - y * Real.exp x ≤ y - x := by
  have hx := Real.exp_pos x
  have hy := Real.exp_pos y
  simp only [siluMag, if_true]
  rw [div_le_div_iff₀ (by linarith) (by linarith)]
  constructor <;> intro h <;> linarith

/-- The magnitude of silu at -x increases to its maximum near 1.28 and decreases from there on. -/
theorem siluMag_neg_mono : MonotoneOn (siluMag true) (band 0 25) := by
  intro x hx y hy hxy
  have hy1 : y ≤ 5 / 4 := hy.2.trans (by norm_num)
  have hx0 : 0 ≤ x := le_trans (by norm_num) hx.1
  rw [siluMag_true_le_iff]
  have hsplit : Real.exp x = Real.exp y * Real.exp (x - y) := by rw [← Real.exp_add]; congr 1; ring
  have hlow := Real.add_one_le_exp (x - y)
  have hey := Real.exp_pos y
  have hstep : y * (Real.exp y * (x - y + 1)) ≤ y * Real.exp x := by
    rw [hsplit]
    gcongr
    exact hx0.trans hxy
  have hbound : (y - 1) * Real.exp y ≤ 1 := by
    rcases le_or_gt y 1 with h | h
    · nlinarith
    · have : Real.exp y ≤ 4 := (Real.exp_le_exp.2 hy1).trans exp_five_quarters_lt.le
      nlinarith
  nlinarith [mul_le_mul_of_nonneg_left hbound (sub_nonneg.2 hxy)]

theorem siluMag_neg_anti : AntitoneOn (siluMag true) (Set.Ici (13 / 10)) := by
  intro x hx y _ hxy
  have hx1 : (13 / 10 : ℝ) ≤ x := hx
  have hsplit : Real.exp y = Real.exp x * Real.exp (y - x) := by rw [← Real.exp_add]; congr 1; ring
  have hlow := Real.add_one_le_exp (y - x)
  have hex := Real.exp_pos x
  have hstep : x * (Real.exp x * (y - x + 1)) ≤ x * Real.exp y := by
    rw [hsplit]
    gcongr
  have hbound : 1 ≤ (x - 1) * Real.exp x := by
    have : 10 / 3 ≤ Real.exp x := lt_exp_thirteen_tenths.le.trans (Real.exp_le_exp.2 hx1)
    nlinarith
  rw [siluMag_true_le_iff]
  nlinarith [mul_le_mul_of_nonneg_left hbound (sub_nonneg.2 hxy)]

/-- It is at most 1/3, and at least 1/4 near the maximum. -/
theorem siluMag_neg_le {x : ℝ} (hx : 0 ≤ x) : siluMag true x ≤ 1 / 3 := by
  have h := Real.quadratic_le_exp_of_nonneg hx
  simp only [siluMag, if_true]
  rw [div_le_div_iff₀ (by positivity) (by norm_num)]
  nlinarith [sq_nonneg (x - 2)]

theorem le_siluMag_neg {x : ℝ} (h1 : 5 / 4 ≤ x) (h2 : x ≤ 13 / 10) : 1 / 4 ≤ siluMag true x := by
  have h := (Real.exp_le_exp.2 h2).trans exp_thirteen_tenths_lt.le
  have hpos := Real.exp_pos x
  simp only [siluMag, if_true]
  rw [div_le_div_iff₀ (by norm_num) (by positivity)]
  linarith

/-! The operands of f32 whose silu lies next to a power of two. -/

/-- The search around 2^k, closer the smaller it is. -/
def nearPower (s : Nat) (f : Nat → Int → FV) (j k : Int) : Nat :=
  let w := min (k + 25).toNat 22 + 1
  findSplit s f true j (w + 1) ((k + 127).toNat * 2 ^ 23 - 2 ^ w) ((k + 127).toNat * 2 ^ 23 + 2 ^ w)

/-- The operands, by their bits, at which the falling part of silu at -x reaches 2^-2, 2^-3 and so on down to 2^-125. -/
def siluFalls : List Nat :=
  [1072623213, 1078792054, 1082529612, 1084408107, 1086193755, 1087923240, 1089614496, 1090898372, 1091719155, 1092531282,
   1093336299, 1094135354, 1094929331, 1095718923, 1096504688, 1097287082, 1098066479, 1098843198, 1099262576, 1099648638,
   1100033706, 1100417867, 1100801196, 1101183757, 1101565610, 1101946806, 1102327391, 1102707406, 1103086889, 1103465875,
   1103844392, 1104222469, 1104600131, 1104977402, 1105354303, 1105730853, 1106107071, 1106482973, 1106858574, 1107233889,
   1107452594, 1107639985, 1107827251, 1108014399, 1108201433, 1108388357, 1108575177, 1108761896, 1108948519, 1109135048,
   1109321488, 1109507842, 1109694113, 1109880304, 1110066417, 1110252456, 1110438423, 1110624320, 1110810149, 1110995913,
   1111181614, 1111367254, 1111552834, 1111738356, 1111923823, 1112109235, 1112294594, 1112479903, 1112665161, 1112850371,
   1113035534, 1113220651, 1113405723, 1113590752, 1113775738, 1113960683, 1114145588, 1114330454, 1114515281, 1114700071,
   1114884824, 1115069542, 1115254225, 1115438874, 1115623489, 1115746468, 1115838744, 1115931004, 1116023249, 1116115479,
   1116207695, 1116299896, 1116392083, 1116484257, 1116576417, 1116668565, 1116760699, 1116852821, 1116944930, 1117037028,
   1117129113, 1117221187, 1117313249, 1117405301, 1117497341, 1117589370, 1117681389, 1117773397, 1117865395, 1117957383,
   1118049361, 1118141330, 1118233289, 1118325238, 1118417179, 1118509110, 1118601032, 1118692946, 1118784851, 1118876747,
   1118968635, 1119060515, 1119152387, 1119244251]

theorem silu_pos_splits : ((List.range 131).all fun i =>
    splits 130 (siluNear false) true (-149) 0 1280 (5 - (i : Int)) (nearPower 130 (siluNear false) (5 - (i : Int)) (6 - (i : Int)))) =
      true := by
  decide +kernel

theorem silu_rise_splits : ((List.range 124).all fun i =>
    splits 130 (siluNear true) true (-149) 0 25 (-2 - (i : Int)) (nearPower 130 (siluNear true) (-2 - (i : Int)) (-1 - (i : Int)))) =
      true := by
  decide +kernel

theorem silu_fall_splits : ((List.range 124).all fun i =>
    splits 130 (siluNear true) false (-149) 26 5120 (-2 - (i : Int)) (siluFalls.getD i 0)) = true := by
  decide +kernel

/-- A positive operand below 64. -/
theorem silu_pos_parts {j : Int} (h1 : -125 ≤ j) (h2 : j ≤ 5) : Parts 130 (siluMag false) (band 0 1280) j := by
  obtain ⟨i, hi⟩ := Int.eq_ofNat_of_zero_le (by omega : 0 ≤ 5 - j)
  obtain rfl : j = 5 - (i : Int) := by omega
  refine parts_of_increasing (by decide) (fun m e hm he hS => ⟨silu_tracks false (by omega) he ?_, siluMag_pos _ (size_pos (by omega) e)⟩)
    (siluMag_pos_mono.mono fun x hx => ?_) (List.all_eq_true.1 silu_pos_splits i (List.mem_range.2 (by omega)))
  · exact hS.2.trans (by norm_num)
  · exact le_trans (by norm_num) hx.1

theorem silu_rise_parts {j : Int} (h1 : -125 ≤ j) (h2 : j ≤ -2) : Parts 130 (siluMag true) (band 0 25) j := by
  obtain ⟨i, hi⟩ := Int.eq_ofNat_of_zero_le (by omega : 0 ≤ -2 - j)
  obtain rfl : j = -2 - (i : Int) := by omega
  refine parts_of_increasing (by decide) (fun m e hm he hS => ⟨silu_tracks true (by omega) he ?_, siluMag_pos _ (size_pos (by omega) e)⟩)
    siluMag_neg_mono (List.all_eq_true.1 silu_rise_splits i (List.mem_range.2 (by omega)))
  exact hS.2.trans (by norm_num)

theorem silu_fall_parts {j : Int} (h1 : -125 ≤ j) (h2 : j ≤ -2) : Parts 130 (siluMag true) (band 26 5120) j := by
  obtain ⟨i, hi⟩ := Int.eq_ofNat_of_zero_le (by omega : 0 ≤ -2 - j)
  obtain rfl : j = -2 - (i : Int) := by omega
  refine parts_of_decreasing (by decide) (fun m e hm he hS => ⟨silu_tracks true (by omega) he ?_, siluMag_pos _ (size_pos (by omega) e)⟩)
    (siluMag_neg_anti.mono fun x hx => ?_) (List.all_eq_true.1 silu_fall_splits i (List.mem_range.2 (by omega)))
  · exact hS.2.trans (by norm_num)
  · exact le_trans (by norm_num) hx.1

theorem exp_neg_64_le : Real.exp (-64) ≤ 1 / 2 ^ 64 := by
  have h1 : (2 : ℝ) ≤ Real.exp 1 := by linarith [Real.exp_one_gt_d9]
  rw [Real.exp_neg, one_div]
  refine inv_anti₀ (by positivity) ?_
  rw [show (64 : ℝ) = (64 : Nat) * 1 by norm_num, Real.exp_nat_mul]
  exact pow_le_pow_left₀ (by norm_num) h1 64

theorem le_exp_256 : (2 : ℝ) ^ 320 ≤ Real.exp 256 := by
  have h1 := Real.exp_one_gt_d9
  rw [show (256 : ℝ) = (4 : Nat) * 1 * (64 : Nat) by norm_num, mul_comm _ ((64 : Nat) : ℝ), Real.exp_nat_mul, Real.exp_nat_mul,
    show 320 = 5 * 64 from rfl, pow_mul]
  refine pow_le_pow_left₀ (by norm_num) ?_ 64
  calc (2 : ℝ) ^ 5 ≤ 2.7 ^ 4 := by norm_num
    _ ≤ Real.exp 1 ^ 4 := pow_le_pow_left₀ (by norm_num) (by linarith) 4

/-- An operand above a power of two is so by a unit of its last place. -/
theorem operand_above {m : Nat} (hm : m < 2 ^ 24) {e k : Int} (h : (2 : ℝ) ^ k < size m e) :
    (1 + 1 / 2 ^ 23) * (2 : ℝ) ^ k ≤ size m e := by
  have hp : (2 : ℝ) ^ k = 2 ^ 23 * 2 ^ (k - 23) := by
    rw [← zpow_ofNat, ← zpow_add₀ two_ne_zero, add_sub_cancel]
  rcases operand_gap hm le_rfl e (k - 23) with hle | hge
  · rw [size_two_pow] at hle
    rw [show ((23 : Nat) : Int) + (k - 23) = k by push_cast; ring] at hle
    exact absurd h (not_lt.2 hle)
  · refine le_trans (le_of_eq ?_) hge
    rw [hp, size]
    push_cast
    ring

/-- The exponent of `silu` at an operand of 64 or more. -/
theorem siluArg_le {m : Nat} {e : Int} (he : -149 ≤ e) (hx : 64 ≤ size m e) :
    (siluArg false m e / fxOne : ℝ) ≤ -64 := by
  rw [siluArg, if_neg Bool.false_ne_true, Int.cast_neg, neg_div, neg_le_neg_iff]
  split
  · rw [Int.cast_mul, Int.cast_natCast, mul_div_cancel_right₀ _ fxOne_pos.ne']
    norm_num
  · rwa [toFx_real false m (by omega), dyadic_sgn, sgn, if_neg Bool.false_ne_true, one_mul]

/-- Close in proportion to the result is close in proportion to the value. -/
theorem close_of_tracks {s : Nat} {x y : ℝ} (h : Rel (1 / 2 ^ s) x y) (hy : 0 ≤ y) (hs : 40 ≤ s) : |x - y| ≤ 3 / 2 ^ 29 * x := by
  have h40 : Rel (1 / 2 ^ 40) x y := h.mono hy (one_div_le_one_div_of_le (by positivity) (pow_le_pow_right₀ one_le_two hs))
  have hlow := h40.bounds.1
  refine le_trans (show |x - y| ≤ 1 / 2 ^ 40 * y from h40) ?_
  norm_num at hlow ⊢
  linarith

section
variable {t : Nat} (ht : t = 8 ∨ t = 9 ∨ t = 10) {m : Nat} (hm : m ≠ 0) {e : Int} (he : -149 ≤ e) (pick : Int)
include ht hm he

/-- A large positive operand: silu lies just below it, and so does the value. -/
theorem within_silu_large (hm24 : m < 2 ^ 24) (htop : size m e ≤ (fmtOf t).topVal) (hx : 64 ≤ size m e) :
    Within t 3 (pickNear (fmtOf t) (if t = 10 then 3 else 1) none (siluNear false m e) pick) (siluMag false (size m e)) := by
  obtain ⟨M, a, hv, hM, ha, hr, hq, hle⟩ := siluNear_spec false hm he
  have ha2 : a ≤ 1 / 2 ^ 63 := by
    have h1 := (Real.exp_le_exp.2 (siluArg_le he hx)).trans exp_neg_64_le
    have h2 := hr.bounds.2
    have h3 : (1 + 1 / 2 ^ 140) * Real.exp (siluArg false m e / fxOne) ≤ 2 * (1 / 2 ^ 64) :=
      mul_le_mul (by norm_num) h1 (Real.exp_pos _).le (by norm_num)
    refine (h2.trans h3).trans (by norm_num)
  have hE : Real.exp (-size m e) ≤ 1 / 2 ^ 64 := (Real.exp_le_exp.2 (by linarith)).trans exp_neg_64_le
  have hE0 := Real.exp_pos (-size m e)
  have hx0 : 0 < size m e := by linarith
  have hY : siluMag false (size m e) = size m e / (1 + Real.exp (-size m e)) := by
    rw [siluMag, if_neg Bool.false_ne_true]
  have hY2 : siluMag false (size m e) ≤ size m e := by
    rw [hY]
    exact div_le_self hx0.le (by linarith)
  have hY1 : (1 - 1 / 2 ^ 64) * size m e ≤ siluMag false (size m e) := by
    rw [hY, le_div_iff₀ (by linarith), mul_right_comm]
    refine mul_le_of_le_one_left hx0.le ?_
    nlinarith
  have hlt : size M (e - 600) < size m e := hle.trans_lt (div_lt_self hx0 (by linarith))
  have hlow : (1 - 1 / 2 ^ 62) * size m e ≤ size M (e - 600) := by
    have h1 : (1 - 1 / 2 ^ 63) * size m e ≤ size m e / (1 + a) := by
      rw [le_div_iff₀ (by linarith), mul_right_comm]
      refine mul_le_of_le_one_left hx0.le ?_
      nlinarith
    have h2 := mul_le_mul_of_nonneg_left h1 (by norm_num : (0 : ℝ) ≤ 1 - 1 / 2 ^ 200)
    refine le_trans ?_ (h2.trans hq.bounds.1)
    rw [← mul_assoc]
    exact mul_le_mul_of_nonneg_right (by norm_num) hx0.le
  rw [hv]
  have h := pickNear_ulps ht (b := 3) (by decide) le_rfl (n := false) (pick := pick) hM (siluMag_pos false hx0).le
    ((ieee_fmtOf ht).close_of_rel (by
      rw [abs_le]
      constructor <;> nlinarith)) (.inl ⟨rfl, hlt.le.trans htop⟩) (fun _ => .inl (by
      have h1 := operand_above hm24 ((zpow_le_size hM _).trans_lt hlt)
      refine le_trans ?_ hY1
      have hp : (0 : ℝ) < 2 ^ ((Nat.log2 M : Int) + (e - 600)) := by positivity
      nlinarith))
  rwa [sgn, if_neg Bool.false_ne_true, one_mul] at h

/-- A positive operand below 64. -/
theorem within_silu_small (hm24 : m < 2 ^ 24) (hx : size m e < 64) :
    Within t 3 (pickNear (fmtOf t) (if t = 10 then 3 else 1) none (siluNear false m e) pick) (siluMag false (size m e)) := by
  obtain ⟨n, M, E, hv, hM, hr⟩ := silu_tracks false hm he (by linarith)
  obtain ⟨M', a, hv', -, ha, -, -, hle⟩ := siluNear_spec false hm he
  obtain ⟨rfl, rfl, rfl⟩ : n = false ∧ M = M' ∧ E = e - 600 := by
    rw [hv] at hv'
    cases hv'
    exact ⟨rfl, rfl, rfl⟩
  have hx0 := size_pos hm e
  have hY0 := siluMag_pos false hx0
  have hlt : size M (e - 600) < 2 ^ (6 : Int) := by
    refine (hle.trans (div_le_self hx0.le (by linarith))).trans_lt (hx.trans_eq ?_)
    norm_num
  rw [hv]
  have h := pickNear_ulps ht (b := 3) (by decide) le_rfl (n := false) (pick := pick) hM hY0.le
    ((ieee_fmtOf ht).close_of_rel (close_of_tracks hr hY0.le (by decide))) (room_of_le ht le_rfl _ _ _ ?_) (fun _ => ?_)
  · rwa [sgn, if_neg Bool.false_ne_true, one_mul] at h
  · rw [siluMag, if_neg Bool.false_ne_true]
    refine (div_le_self hx0.le ?_).trans (hx.le.trans (by norm_num))
    linarith [Real.exp_pos (-size m e)]
  · rw [or_iff_not_imp_right, not_le]
    intro hj
    have hlead := zpow_le_size hM (e - 600)
    have hj5 := (zpow_lt_zpow_iff_right₀ (one_lt_two : (1 : ℝ) < 2)).1 (hlead.trans_lt hlt)
    refine (silu_pos_parts (by omega) (by omega)).reach hm24 ⟨?_, ?_⟩ hr hlead
    · exact le_trans (by norm_num) hx0.le
    · exact hx.le.trans (by norm_num)

/-- A negative operand of magnitude up to 256. -/
theorem within_silu_neg (hm24 : m < 2 ^ 24) (hx : size m e ≤ 256) :
    Within t 3 (pickNear (fmtOf t) (if t = 10 then 3 else 1) none (siluNear true m e) pick)
      (sgn true * siluMag true (size m e)) := by
  obtain ⟨n, M, E, hv, hM, hr⟩ := silu_tracks true hm he hx
  obtain ⟨M', a, hv', -⟩ := siluNear_spec true hm he
  obtain ⟨rfl, rfl⟩ : n = true ∧ E = e - 600 := by
    rw [hv] at hv'
    cases hv'
    exact ⟨rfl, rfl⟩
  have hx0 := size_pos hm e
  have hY0 := siluMag_pos true hx0
  have hY1 := siluMag_neg_le hx0.le
  rw [hv]
  refine pickNear_ulps ht (b := 3) (by decide) le_rfl (n := true) (pick := pick) hM hY0.le
    ((ieee_fmtOf ht).close_of_rel (close_of_tracks hr hY0.le (by decide))) (room_of_le ht le_rfl _ _ _ ?_) (fun _ => ?_)
  · exact hY1.trans (by norm_num)
  · rw [or_iff_not_imp_right, not_le]
    intro hj
    have hlead := zpow_le_size hM (e - 600)
    have hlt : size M (e - 600) < 2 ^ (-1 : Int) := by
      refine hr.bounds.2.trans_lt ?_
      have := mul_le_mul_of_nonneg_left hY1 (by norm_num : (0 : ℝ) ≤ 1 + 1 / 2 ^ 130)
      refine this.trans_lt (by norm_num)
    have hj2 := (zpow_lt_zpow_iff_right₀ (one_lt_two : (1 : ℝ) < 2)).1 (hlead.trans_lt hlt)
    rcases le_or_gt (size m e) (5 / 4) with h1 | h1
    · refine (silu_rise_parts (by omega) (by omega)).reach hm24 ⟨?_, ?_⟩ hr hlead
      · exact le_trans (by norm_num) hx0.le
      · exact h1.trans (by norm_num)
    rcases le_or_gt (size m e) (13 / 10) with h2 | h2
    · refine le_trans ?_ (le_siluMag_neg h1.le h2)
      refine (zpow_le_zpow_right₀ one_le_two (by omega : _ ≤ (-2 : Int))).trans ?_
      norm_num
    · refine (silu_fall_parts (by omega) (by omega)).reach hm24 ⟨?_, ?_⟩ hr hlead
      · exact le_trans (by norm_num) h2.le
      · exact hx.trans (by norm_num)

/-- A negative operand beyond: both are far below every format. -/
theorem within_silu_tiny (htop : size m e < 2 ^ (128 : Int)) (hx : 256 < size m e) :
    Within t 3 (pickNear (fmtOf t) (if t = 10 then 3 else 1) none (siluNear true m e) pick)
      (sgn true * siluMag true (size m e)) := by
  obtain ⟨M, a, hv, hM, ha, hr, -, hle⟩ := siluNear_spec true hm he
  have hx0 := size_pos hm e
  have harg : (siluArg true m e / fxOne : ℝ) = 256 ∨ (siluArg true m e / fxOne : ℝ) = size m e := by
    rw [siluArg, if_pos rfl]
    split
    · left
      rw [Int.cast_mul, Int.cast_natCast, mul_div_cancel_right₀ _ fxOne_pos.ne']
      norm_num
    · right
      rw [toFx_real false m (by omega), dyadic_sgn, sgn, if_neg Bool.false_ne_true, one_mul]
  have hE : (2 : ℝ) ^ 320 ≤ Real.exp (siluArg true m e / fxOne) := by
    refine le_exp_256.trans (Real.exp_le_exp.2 ?_)
    rcases harg with h | h <;> rw [h]
    exact hx.le
  have ha1 : (2 : ℝ) ^ 300 ≤ a := by
    refine le_trans ?_ hr.bounds.1
    refine le_trans ?_ (mul_le_mul (by norm_num : (1 : ℝ) / 2 ≤ 1 - 1 / 2 ^ 140) hE (by positivity) (by norm_num))
    rw [show (2 : ℝ) ^ 320 = 2 * 2 ^ 319 from pow_succ' 2 319, ← mul_assoc, one_div_mul_cancel two_ne_zero, one_mul]
    exact pow_le_pow_right₀ one_le_two (by decide)
  have hdiv {E : ℝ} (hE : (2 : ℝ) ^ 300 ≤ E) : size m e / (1 + E) ≤ 2 ^ (-153 : Int) := by
    have hp : (0 : ℝ) < 2 ^ 300 := by positivity
    have hE1 : (2 : ℝ) ^ 300 ≤ 1 + E := hE.trans (le_add_of_nonneg_left zero_le_one)
    rw [div_le_iff₀ (hp.trans_le hE1)]
    refine htop.le.trans ?_
    calc (2 : ℝ) ^ (128 : Int) ≤ 2 ^ (-153 : Int) * 2 ^ 300 := by
          rw [← zpow_natCast, ← zpow_add₀ two_ne_zero]
          exact zpow_le_zpow_right₀ one_le_two (by norm_num)
      _ ≤ 2 ^ (-153 : Int) * (1 + E) := mul_le_mul_of_nonneg_left hE1 (by positivity)
  rw [hv]
  refine within_tiny ht (by decide) le_rfl true hM (siluMag_pos true hx0).le (hle.trans (hdiv ha1)) ?_
  rw [siluMag, if_pos rfl]
  refine hdiv (le_trans (pow_le_pow_right₀ one_le_two (by decide)) (le_exp_256.trans (Real.exp_le_exp.2 hx.le)))

/-- `silu` keeps its bound. -/
theorem within_silu (hm24 : m < 2 ^ 24) (htop : size m e ≤ (fmtOf t).topVal) (n : Bool) :
    Within t 3 (special 5 t (.fin n m e) pick).1 (dyadic n m e / (1 + Real.exp (-dyadic n m e))) := by
  have hnear : (special 5 t (.fin n m e) pick).1 = pickNear (fmtOf t) (if t = 10 then 3 else 1) none (siluNear n m e) pick := by
    rw [special_silu hm]
    rfl
  rw [hnear, silu_eq]
  cases n
  · rw [sgn, if_neg Bool.false_ne_true, one_mul]
    rcases le_or_gt 64 (size m e) with hx | hx
    · exact within_silu_large ht hm he pick hm24 htop hx
    · exact within_silu_small ht hm he pick hm24 hx
  · rcases le_or_gt (size m e) 256 with hx | hx
    · exact within_silu_neg ht hm he pick hm24 hx
    · exact within_silu_tiny ht hm he pick (htop.trans_lt (ieee_fmtOf ht).topVal_lt) hx

end

/-! ### tanh -/

/-- tanh from the exponential of twice the operand. -/
theorem tanh_eq_exp (x : ℝ) : Real.tanh x = (Real.exp (2 * x) - 1) / (Real.exp (2 * x) + 1) := by
  have hx := Real.exp_pos x
  have h2 : Real.exp (2 * x) = Real.exp x * Real.exp x := by rw [← Real.exp_add]; congr 1; ring
  have hn : Real.exp (-x) = (Real.exp x)⁻¹ := Real.exp_neg x
  rw [Real.tanh_eq_sinh_div_cosh, Real.sinh_eq, Real.cosh_eq, h2, hn]
  field_simp

theorem tanh_dyadic (n : Bool) (m : Nat) (e : Int) : Real.tanh (dyadic n m e) = sgn n * Real.tanh (size m e) := by
  rw [dyadic_sgn]
  cases n
  · rw [sgn, if_neg Bool.false_ne_true, one_mul, one_mul]
  · rw [sgn, if_pos rfl, neg_one_mul, neg_one_mul, Real.tanh_neg]

theorem quotient_mono {a b : ℝ} (ha : 0 < a) (h : a ≤ b) : (a - 1) / (a + 1) ≤ (b - 1) / (b + 1) := by
  rw [div_le_div_iff₀ (by linarith) (by linarith)]
  nlinarith

theorem tanh_mono : Monotone Real.tanh := by
  intro x y h
  rw [tanh_eq_exp, tanh_eq_exp]
  exact quotient_mono (Real.exp_pos _) (Real.exp_le_exp.2 (by linarith))

/-- tanh x is at least x / (1 + x). -/
theorem div_one_add_le_tanh {x : ℝ} (hx : 0 ≤ x) : x / (1 + x) ≤ Real.tanh x := by
  have h := Real.add_one_le_exp (2 * x)
  rw [tanh_eq_exp]
  refine le_trans (le_of_eq ?_) (quotient_mono (by linarith : (0 : ℝ) < 1 + 2 * x) (by linarith))
  field_simp
  ring

theorem tanh_pos {x : ℝ} (hx : 0 < x) : 0 < Real.tanh x := (div_pos hx (by linarith)).trans_le (div_one_add_le_tanh hx.le)

/-- For a small operand tanh x lies just below x. -/
theorem tanh_small {x : ℝ} (hx : 0 ≤ x) (h : x ≤ 1 / 2 ^ 13) : x - 9 / 25 * x ^ 3 ≤ Real.tanh x ∧ Real.tanh x ≤ x := by
  have hb := Real.exp_bound (x := 2 * x) (by rw [abs_of_nonneg (by linarith)]; norm_num at h; linarith) (n := 4) (by decide)
  rw [abs_of_nonneg (by linarith : 0 ≤ 2 * x)] at hb
  have hsum : ∑ i ∈ Finset.range 4, (2 * x) ^ i / (i.factorial : ℝ) = 1 + 2 * x + 2 * x ^ 2 + 4 / 3 * x ^ 3 := by
    simp only [Finset.sum_range_succ, Finset.sum_range_zero, Nat.factorial]
    push_cast
    ring
  have hrest : (2 * x) ^ 4 * (((4 : Nat).succ : ℝ) / (((4 : Nat).factorial : Nat) * (4 : Nat))) = 5 / 6 * x ^ 4 := by
    simp only [Nat.factorial]
    push_cast
    ring
  rw [hsum, hrest, abs_le] at hb
  obtain ⟨h1, h2⟩ := hb
  have hp := Real.exp_pos (2 * x)
  have h3 : 0 ≤ x ^ 3 := by positivity
  have h4 : 0 ≤ x ^ 4 := by positivity
  rw [tanh_eq_exp]
  generalize Real.exp (2 * x) = E at *
  norm_num at h
  have hx4 : x ^ 4 ≤ x := by
    calc x ^ 4 ≤ x ^ 1 := pow_le_pow_of_le_one hx (by linarith) (by decide)
      _ = x := pow_one x
  constructor
  · rw [le_div_iff₀ (by linarith)]
    have hc : 0 ≤ 1 - x + 9 / 25 * x ^ 3 := by linarith
    have hE := mul_le_mul_of_nonneg_right h1 hc
    have hpoly : 0 ≤ x ^ 3 * (4 / 75 - 217 / 150 * x + (5 / 6 + 18 / 25) * x ^ 2 + 12 / 25 * x ^ 3 - 3 / 10 * x ^ 4) :=
      mul_nonneg h3 (by nlinarith [sq_nonneg x])
    nlinarith
  · rw [div_le_iff₀ (by linarith)]
    have hE := mul_le_mul_of_nonneg_right h2 (by linarith : 0 ≤ 1 - x)
    have hpoly : 0 ≤ x ^ 3 * (2 / 3 + 1 / 2 * x + 5 / 6 * x ^ 2) := by positivity
    nlinarith

section
variable {t : Nat} (ht : t = 8 ∨ t = 9 ∨ t = 10) {m : Nat} (hm : m ≠ 0) {e : Int} (n : Bool) (pick : Int)
include hm

/-- A small operand. -/
theorem within_tanh_small (ht : t = 8 ∨ t = 9 ∨ t = 10) (hm24 : m < 2 ^ 24) (hev : (Nat.log2 m : Int) + e < -13) :
    Within t 2 (pickNear (fmtOf t) (if t = 10 then 2 else 1) none (tanhNear n m e) pick) (sgn n * Real.tanh (size m e)) := by
  have hx0 := size_pos hm e
  have hx : size m e ≤ 1 / 2 ^ 13 := by
    refine (size_lt_zpow m e).le.trans ((zpow_le_zpow_right₀ one_le_two (by omega : _ ≤ (-13 : Int))).trans ?_)
    norm_num
  obtain ⟨hy1, hy2⟩ := tanh_small hx0.le hx
  have hcube : 9 / 25 * size m e ^ 3 ≤ 2.9 / 2 ^ 29 * size m e := by
    have hsq : size m e ^ 2 ≤ (1 / 2 ^ 13) ^ 2 := pow_le_pow_left₀ hx0.le hx 2
    rw [pow_succ, ← mul_assoc]
    refine mul_le_mul_of_nonneg_right ?_ hx0.le
    norm_num at hsq ⊢
    linarith
  have hM : m * 2 ^ 40 - 1 ≠ 0 := by omega
  have hV : size (m * 2 ^ 40 - 1) (e - 40) = size m e - 2 ^ (e - 40) := by
    rw [size, Nat.cast_sub (by omega), sub_mul, Nat.cast_one, one_mul, size_shift m e (e - 40), size]
    congr 1
    rw [sub_sub_cancel]
    norm_cast
  have hu : (2 : ℝ) ^ (e - 40) ≤ 1 / 2 ^ 40 * size m e := by
    have h1 : (1 : ℝ) ≤ m := by exact_mod_cast Nat.pos_of_ne_zero hm
    have h2 : (2 : ℝ) ^ (e - 40) = 1 / 2 ^ 40 * 2 ^ e := by
      rw [zpow_sub₀ two_ne_zero, div_eq_mul_one_div, mul_comm]
      norm_cast
    rw [h2, size]
    exact mul_le_mul_of_nonneg_left (le_mul_of_one_le_left (by positivity) h1) (by positivity)
  have hu0 : (0 : ℝ) < 2 ^ (e - 40) := by positivity
  have hlt : size (m * 2 ^ 40 - 1) (e - 40) < size m e := by linarith
  rw [tanhNear, if_pos hev]
  refine pickNear_ulps ht (by decide) (by decide) hM (tanh_pos hx0).le ((ieee_fmtOf ht).close_of_rel ?_)
    (room_of_le ht (by decide) _ _ _ ?_) fun _ => .inl ?_
  · rw [hV, abs_le]
    norm_num at hcube hu ⊢
    constructor <;> linarith
  · exact hy2.trans (hx.trans (by norm_num))
  · have h1 := operand_above hm24 ((zpow_le_size hM _).trans_lt hlt)
    have hp : (0 : ℝ) < 2 ^ ((Nat.log2 (m * 2 ^ 40 - 1) : Int) + (e - 40)) := by positivity
    generalize (2 : ℝ) ^ ((Nat.log2 (m * 2 ^ 40 - 1) : Int) + (e - 40)) = p at h1 hp ⊢
    norm_num at hcube h1
    linarith

/-- The exponent of `tanh`, in fixed point. -/
def tanhArg (m : Nat) (e : Int) : Int :=
  if 6 ≤ (Nat.log2 m : Int) + e then 2 ^ 7 * (fxOne : Int) else 2 * toFx (.fin false m e)

theorem tanhArg_cases (he : -149 ≤ e) :
    (tanhArg m e / fxOne : ℝ) = 2 * size m e ∧ size m e < 64 ∨ (tanhArg m e / fxOne : ℝ) = 2 * 64 ∧ 64 ≤ size m e := by
  unfold tanhArg
  split
  next h =>
    refine .inr ⟨?_, ?_⟩
    · rw [Int.cast_mul, Int.cast_natCast, mul_div_cancel_right₀ _ fxOne_pos.ne']
      norm_num
    · refine le_trans ?_ ((zpow_le_zpow_right₀ one_le_two h).trans (zpow_le_size hm e))
      norm_num
  next h =>
    refine .inl ⟨?_, ?_⟩
    · rw [Int.cast_mul, mul_div_assoc, toFx_real false m (by omega), dyadic_sgn, sgn, if_neg Bool.false_ne_true, one_mul]
      norm_num
    · have := (log2_lt_iff hm e 6).1 (by push_cast; omega)
      exact this.trans_eq (by norm_num)

end

/-- Where a is close to E > 1, so is (a - 1) / (a + 1) to (E - 1) / (E + 1). -/
theorem rel_quotient {a E d c : ℝ} (hd0 : 0 ≤ d) (hd : d ≤ 1 / 2) (h : Rel d a E) (hc : 4 * d ≤ c * (E - 1)) (hE : 1 ≤ E) :
    Rel c ((a - 1) / (a + 1)) ((E - 1) / (E + 1)) := by
  have ha : 1 / 2 * E ≤ a := by
    have := mul_le_mul_of_nonneg_right hd (zero_le_one.trans hE)
    linarith [h.bounds.1]
  have ha0 : 0 < a + 1 := by linarith
  have hE0 : 0 < E + 1 := by linarith
  have hq : (a - 1) / (a + 1) - (E - 1) / (E + 1) = 2 * (a - E) / (a + 1) / (E + 1) := by
    field_simp
    ring
  rw [Rel, hq, abs_div, abs_of_pos hE0, ← mul_div_assoc]
  refine div_le_div_of_nonneg_right ?_ hE0.le
  refine le_trans ?_ hc
  rw [abs_div, abs_of_pos ha0, div_le_iff₀ ha0, abs_mul, abs_of_pos two_pos]
  have h1 : |a - E| ≤ d * E := h
  have h2 : d * E ≤ d * (2 * (a + 1)) := mul_le_mul_of_nonneg_left (by linarith) hd0
  linarith

/-- Beyond 64 tanh does not change to speak of. -/
theorem rel_tanh_64 {x : ℝ} (hx : 64 ≤ x) : Rel (1 / 2 ^ 50) (Real.tanh 64) (Real.tanh x) := by
  have h1 : (2 : ℝ) ≤ Real.exp 1 := by linarith [Real.exp_one_gt_d9]
  have hE : (2 : ℝ) ^ 128 ≤ Real.exp (2 * 64) := by
    rw [show (2 : ℝ) * 64 = (128 : Nat) * 1 by norm_num, Real.exp_nat_mul]
    exact pow_le_pow_left₀ (by norm_num) h1 128
  have h64 : 1 - 1 / 2 ^ 100 ≤ Real.tanh 64 := by
    rw [tanh_eq_exp, le_div_iff₀ (by linarith [Real.exp_pos (2 * 64)])]
    norm_num at hE ⊢
    linarith
  have hle := tanh_mono hx
  have hlt := Real.tanh_lt_one x
  rw [Rel, abs_le]
  norm_num at h64 ⊢
  constructor <;> linarith

/-- The fixed-point quotient (a - 1) / (a + 1). -/
theorem size_quotient {A : Nat} (hA : fxOne ≤ A) :
    (((A - fxOne) * fxOne : Nat) : ℝ) / (A + fxOne : Nat) * (2 : ℝ) ^ (-160 : Int) = (size A (-160) - 1) / (size A (-160) + 1) := by
  have hone := fxOne_pos
  have hp : (2 : ℝ) ^ (-160 : Int) = (fxOne : ℝ)⁻¹ := by rw [zpow_neg, fxOne_cast]; norm_cast
  rw [size, hp, Nat.cast_mul, Nat.cast_add, Nat.cast_sub hA]
  generalize (fxOne : ℝ) = o at *
  have : (0 : ℝ) ≤ A := Nat.cast_nonneg A
  field_simp

theorem tanhNear_eq {n : Bool} {m : Nat} {e : Int} (hev : -13 ≤ (Nat.log2 m : Int) + e) {A : Nat}
    (hA : (expFx (tanhArg m e)).at (-160) = A) :
    tanhNear n m e = .fin n ((A - fxOne) * fxOne / (A + fxOne)) (-160) := by
  have hA' : (expFx (if 6 ≤ (Nat.log2 m : Int) + e then 2 ^ 7 * (fxOne : Int) else 2 * toFx (FV.fin n m e).abs)).at
      (-(fxP : Int)) = A := hA
  rw [tanhNear, if_neg (by omega)]
  dsimp only
  rw [hA', ← Nat.cast_add, Int.toNat_natCast, Int.toNat_sub]
  rfl

/-- The exponent of `tanh` is twice a number of which tanh is that of the operand, nearly. -/
theorem tanhArg_spec {m : Nat} (hm : m ≠ 0) {e : Int} (he : -149 ≤ e) (hx : 1 / 2 ^ 13 ≤ size m e) :
    ∃ s, (tanhArg m e / fxOne : ℝ) = 2 * s ∧ 1 / 2 ^ 13 ≤ s ∧ s ≤ 64 ∧ Rel (1 / 2 ^ 50) (Real.tanh s) (Real.tanh (size m e)) := by
  rcases tanhArg_cases hm he with ⟨h1, h2⟩ | ⟨h1, h2⟩
  · refine ⟨_, h1, hx, h2.le, ?_⟩
    rw [Rel, sub_self, abs_zero]
    exact mul_nonneg (by positivity) (tanh_pos (size_pos hm e)).le
  · exact ⟨_, h1, by norm_num, le_rfl, rel_tanh_64 h2⟩

theorem fx_bounds {y : Int} {s : ℝ} (hw : (y / fxOne : ℝ) = 2 * s) (h0 : 0 ≤ s) (h1 : s ≤ 64) :
    0 ≤ y ∧ |y| ≤ 2 ^ 10 * fxOne := by
  rw [div_eq_iff fxOne_pos.ne'] at hw
  have hy0 : 0 ≤ y := by
    have : (0 : ℝ) ≤ y := by
      rw [hw]
      exact mul_nonneg (mul_nonneg two_pos.le h0) fxOne_pos.le
    exact_mod_cast this
  have hy1 : (y : ℝ) ≤ ((2 ^ 10 * fxOne : Int) : ℝ) := by
    rw [hw, Int.cast_mul, Int.cast_natCast]
    exact mul_le_mul_of_nonneg_right (by norm_num; linarith) fxOne_pos.le
  refine ⟨hy0, ?_⟩
  rw [abs_of_nonneg hy0]
  exact_mod_cast hy1

theorem size_mul_fxOne (A : Nat) : size A (-160) * fxOne = A := by
  rw [size, fxOne_cast, mul_assoc, zpow_neg, zpow_ofNat, inv_mul_cancel₀ (by positivity), mul_one]

/-- The fixed-point quotient (a - 1) / (a + 1), rounded down. -/
theorem quotient_spec {A : Nat} (ha : 1 + 1 / 2 ^ 13 ≤ size A (-160)) :
    (A - fxOne) * fxOne / (A + fxOne) ≠ 0 ∧
      Rel (1 / 2 ^ 140) (size ((A - fxOne) * fxOne / (A + fxOne)) (-160)) ((size A (-160) - 1) / (size A (-160) + 1)) ∧
      size ((A - fxOne) * fxOne / (A + fxOne)) (-160) ≤ (size A (-160) - 1) / (size A (-160) + 1) := by
  have hone := fxOne_pos
  have hA : fxOne ≤ A := by
    have : (fxOne : ℝ) ≤ A := by
      rw [← size_mul_fxOne A]
      exact le_mul_of_one_le_left hone.le (le_trans (by norm_num) ha)
    exact_mod_cast this
  have hbig : 2 ^ 140 * (A + fxOne) ≤ (A - fxOne) * fxOne := by
    have : ((2 ^ 140 * (A + fxOne) : Nat) : ℝ) ≤ (((A - fxOne) * fxOne : Nat) : ℝ) := by
      rw [Nat.cast_mul, Nat.cast_mul, Nat.cast_add, Nat.cast_sub hA, ← size_mul_fxOne A]
      have h160 : (fxOne : ℝ) = 2 ^ 20 * (2 ^ 140 : Nat) := by rw [fxOne_cast]; norm_num
      calc ((2 ^ 140 : Nat) : ℝ) * (size A (-160) * fxOne + fxOne)
          = (size A (-160) + 1) * ((2 ^ 140 : Nat) * fxOne) := by ring
        _ ≤ ((size A (-160) - 1) * 2 ^ 20) * ((2 ^ 140 : Nat) * fxOne) := by
          refine mul_le_mul_of_nonneg_right ?_ (by positivity)
          norm_num at ha ⊢
          linarith
        _ = (size A (-160) * fxOne - fxOne) * (2 ^ 20 * (2 ^ 140 : Nat)) := by ring
        _ = (size A (-160) * fxOne - fxOne) * fxOne := by rw [← h160]
    exact_mod_cast this
  have hden : A + fxOne ≠ 0 := by have := fxOne_ne_zero; omega
  have hrel := size_div_rel hden hbig (-160)
  obtain ⟨hfl, -⟩ := div_floor_spec ((A - fxOne) * fxOne) hden
  rw [← le_div_iff₀ (by exact_mod_cast Nat.pos_of_ne_zero hden)] at hfl
  have hfl' := mul_le_mul_of_nonneg_right hfl (by positivity : (0 : ℝ) ≤ (2 : ℝ) ^ (-160 : Int))
  rw [size_quotient hA] at hrel hfl'
  exact ⟨size_div_ne_zero hden ((Nat.le_mul_of_pos_left _ (Nat.two_pow_pos 140)).trans hbig), hrel, hfl'⟩

/-- The value of `tanh`: close to it in proportion, and below 1. -/
theorem tanhNear_spec {m : Nat} (hm : m ≠ 0) {e : Int} (he : -149 ≤ e) (n : Bool) (hev : -13 ≤ (Nat.log2 m : Int) + e) :
    ∃ M : Nat, tanhNear n m e = .fin n M (-160) ∧ M ≠ 0 ∧ Rel (1 / 2 ^ 40) (size M (-160)) (Real.tanh (size m e)) ∧
      size M (-160) < 1 := by
  have hx : 1 / 2 ^ 13 ≤ size m e := by
    refine le_trans ?_ ((zpow_le_zpow_right₀ one_le_two hev).trans (zpow_le_size hm e))
    norm_num
  obtain ⟨s, hw, hs0, hs1, hT⟩ := tanhArg_spec hm he hx
  obtain ⟨harg0, harg1⟩ := fx_bounds hw (le_trans (by positivity) hs0) hs1
  have hk : -160 ≤ tanhArg m e / fxLn2 - 160 := by
    have := le_ediv_fxLn2 (y := tanhArg m e) (k := 0) (by rwa [zero_mul])
    omega
  obtain ⟨A, -, hat, hr⟩ := expFx_at harg1 hk
  rw [hw] at hr
  have hE : 1 + 1 / 2 ^ 12 ≤ Real.exp (2 * s) := by
    have := Real.add_one_le_exp (2 * s)
    norm_num at hs0 ⊢
    linarith
  have ha : 1 + 1 / 2 ^ 13 ≤ size A (-160) := by
    refine le_trans ?_ hr.bounds.1
    refine le_trans ?_ (mul_le_mul_of_nonneg_left hE (by norm_num))
    norm_num
  obtain ⟨hM, hrel, hle⟩ := quotient_spec ha
  have hq := rel_quotient (c := 1 / 2 ^ 100) (by positivity) (by norm_num) hr (by norm_num at hE ⊢; linarith)
    (le_trans (by norm_num) hE)
  rw [← tanh_eq_exp] at hq
  refine ⟨_, tanhNear_eq hev hat, hM, ?_, hle.trans_lt ?_⟩
  · exact ((hrel.trans hq (by positivity)).trans hT (by positivity)).mono (tanh_pos (size_pos hm e)).le (by norm_num)
  · rw [div_lt_one (by linarith [size_nonneg A (-160)])]
    linarith

theorem tanh_splits : ((List.range 13).all fun i =>
    splits 40 (tanhNear false) true (-36) 0 1280 (-1 - (i : Int)) (nearPower 40 (tanhNear false) (-1 - (i : Int)) (-1 - (i : Int)))) =
      true := by
  decide +kernel

theorem tanh_parts {j : Int} (h1 : -13 ≤ j) (h2 : j ≤ -1) : Parts 40 Real.tanh (band 0 1280) j := by
  obtain ⟨i, hi⟩ := Int.eq_ofNat_of_zero_le (by omega : 0 ≤ -1 - j)
  obtain rfl : j = -1 - (i : Int) := by omega
  refine parts_of_increasing (by decide) (fun m e hm he _ => ?_) (tanh_mono.monotoneOn _)
    (List.all_eq_true.1 tanh_splits i (List.mem_range.2 (by omega)))
  have hm0 : m ≠ 0 := by omega
  have hlog : 23 ≤ Nat.log2 m := (Nat.le_log2 hm0).2 hm
  obtain ⟨M, hv, hM, hr, -⟩ := tanhNear_spec hm0 (by omega : -149 ≤ e) false (by omega)
  exact ⟨⟨_, _, _, hv, hM, hr⟩, tanh_pos (size_pos hm0 e)⟩

section
variable {t : Nat} (ht : t = 8 ∨ t = 9 ∨ t = 10) {m : Nat} (hm : m ≠ 0) (hm24 : m < 2 ^ 24) {e : Int} (he : -149 ≤ e) (n : Bool)
  (pick : Int)
include ht hm hm24 he

/-- An operand that is not small. -/
theorem within_tanh_large (hev : -13 ≤ (Nat.log2 m : Int) + e) :
    Within t 2 (pickNear (fmtOf t) (if t = 10 then 2 else 1) none (tanhNear n m e) pick) (sgn n * Real.tanh (size m e)) := by
  obtain ⟨M, hv, hM, hr, hlt⟩ := tanhNear_spec hm he n hev
  have hx0 := size_pos hm e
  have hY0 := tanh_pos hx0
  rw [hv]
  refine pickNear_ulps ht (b := 2) (by decide) (by decide) hM hY0.le ((ieee_fmtOf ht).close_of_rel (close_of_tracks hr hY0.le le_rfl))
    (room_of_le ht (by decide) _ _ _ ((Real.tanh_lt_one _).le.trans (by norm_num))) (fun _ => .inl ?_)
  have hlead := zpow_le_size hM (-160)
  have hj := (zpow_lt_zpow_iff_right₀ (one_lt_two : (1 : ℝ) < 2)).1 ((hlead.trans_lt hlt).trans_eq (zpow_zero 2).symm)
  rcases le_or_gt ((Nat.log2 M : Int) + -160) (-14) with h14 | h14
  · have hx13 : (2 : ℝ) ^ (-13 : Int) ≤ size m e := (zpow_le_zpow_right₀ one_le_two hev).trans (zpow_le_size hm e)
    refine (zpow_le_zpow_right₀ one_le_two h14).trans (le_trans ?_ (tanh_mono hx13))
    exact le_trans (by norm_num) (div_one_add_le_tanh (by positivity))
  rcases le_or_gt (size m e) 64 with h64 | h64
  · exact (tanh_parts (by omega) (by omega)).reach hm24 ⟨le_trans (by norm_num) hx0.le, h64.trans (by norm_num)⟩ hr hlead
  · refine (zpow_le_zpow_right₀ one_le_two (by omega : _ ≤ (-1 : Int))).trans (le_trans ?_ (tanh_mono h64.le))
    exact le_trans (by norm_num) (div_one_add_le_tanh (by norm_num))

/-- `tanh` keeps its bound. -/
theorem within_tanh : Within t 2 (special 4 t (.fin n m e) pick).1 (Real.tanh (dyadic n m e)) := by
  rw [special_tanh hm, tanh_dyadic]
  rcases lt_or_ge ((Nat.log2 m : Int) + e) (-13) with hev | hev
  · exact within_tanh_small hm n pick ht hm24 hev
  · exact within_tanh_large ht hm hm24 he n pick hev

end

/-! ### softplus -/

/-- softplus. -/
noncomputable def softplus (x : ℝ) : ℝ := Real.log (1 + Real.exp x)

theorem softplus_mono : Monotone softplus := by
  intro x y h
  have := Real.exp_pos x
  exact Real.log_le_log (by positivity) (by linarith [Real.exp_le_exp.2 h])

theorem softplus_pos (x : ℝ) : 0 < softplus x := Real.log_pos (by linarith [Real.exp_pos x])

theorem softplus_le_exp (x : ℝ) : softplus x ≤ Real.exp x := by
  have := Real.log_le_sub_one_of_pos (by linarith [Real.exp_pos x] : 0 < 1 + Real.exp x)
  rw [softplus]
  linarith

theorem le_softplus_of_exp_le {x u : ℝ} (hx : Real.exp x ≤ u) : (1 - u) * Real.exp x ≤ softplus x := by
  have hp := Real.exp_pos x
  have h := Real.one_sub_inv_le_log_of_pos (by linarith : 0 < 1 + Real.exp x)
  refine le_trans ?_ h
  rw [le_sub_iff_add_le, ← le_sub_iff_add_le', inv_le_iff_one_le_mul₀ (by linarith)]
  have h1 : Real.exp x * Real.exp x ≤ u * Real.exp x := mul_le_mul_of_nonneg_right hx hp.le
  have h2 : 0 ≤ u * (Real.exp x * Real.exp x) := mul_nonneg (hp.le.trans hx) (mul_nonneg hp.le hp.le)
  linarith

theorem softplus_eq_add (x : ℝ) : softplus x = x + softplus (-x) := by
  have hp := Real.exp_pos x
  rw [softplus, softplus, Real.exp_neg, ← Real.log_exp x, ← Real.log_mul (by positivity) (by positivity), Real.log_exp]
  congr 1
  field_simp
  ring

theorem le_softplus (x : ℝ) : x ≤ softplus x := by
  rw [softplus_eq_add]
  linarith [softplus_pos (-x)]

theorem softplus_zero : softplus 0 = Real.log 2 := by
  rw [softplus, Real.exp_zero]
  norm_num

/-- The logarithm of 1 + e^y in fixed point. -/
def logForm (y : Int) : FV :=
  ofInt (log2Fx (((expFx y).at (-400)).toNat + 2 ^ 400) (-400) * (fxLn2 : Int)) (-(logN : Int) - fxP) false

theorem size_add_one (A : Nat) : size (A + 2 ^ 400) (-400) = 1 + size A (-400) := by
  rw [size, size, Nat.cast_add, Nat.cast_pow, Nat.cast_two, add_mul, zpow_neg, zpow_ofNat, mul_inv_cancel₀ (by positivity), add_comm]

/-- The binary logarithm of 1 + a in fixed point, 120 fraction bits. -/
theorem log2Fx_one_add (A : Nat) :
    ∃ L : Nat, log2Fx (A + 2 ^ 400) (-400) = L ∧ (L : ℝ) ≤ 2 ^ 120 * Real.logb 2 (1 + size A (-400)) ∧
      2 ^ 120 * Real.logb 2 (1 + size A (-400)) ≤ L + 2 := by
  have hM : A + 2 ^ 400 ≠ 0 := by positivity
  have hlog : 400 ≤ Nat.log2 (A + 2 ^ 400) := (Nat.le_log2 hM).2 (Nat.le_add_left ..)
  obtain ⟨D, hD, h1, h2⟩ := log2Fx_spec hM (-400)
  obtain ⟨N, hN⟩ := Int.eq_ofNat_of_zero_le (by omega : (0 : Int) ≤ (Nat.log2 (A + 2 ^ 400) : Int) + -400)
  have hb := logb_size hM (-400)
  rw [size_add_one, ← Int.cast_add, hN, Int.cast_natCast] at hb
  generalize Real.logb 2 (((A + 2 ^ 400 : Nat) : ℝ) / 2 ^ Nat.log2 (A + 2 ^ 400)) = x at *
  refine ⟨N * 2 ^ 120 + D, by rw [hD, hN]; push_cast; rfl, ?_, ?_⟩
  · rw [hb, Nat.cast_add, Nat.cast_mul, Nat.cast_pow, Nat.cast_two]
    linarith
  · rw [hb, Nat.cast_add, Nat.cast_mul, Nat.cast_pow, Nat.cast_two]
    linarith

/-- The natural logarithm in fixed point. -/
theorem lnFx_spec {A : Nat} (hA : size A (-400) ≤ 2 ^ 100) :
    ∃ L : Nat, log2Fx (A + 2 ^ 400) (-400) = L ∧ size (L * fxLn2) (-280) ≤ Real.log (1 + size A (-400)) ∧
      Real.log (1 + size A (-400)) ≤ size (L * fxLn2) (-280) + 1 / 2 ^ 118 := by
  obtain ⟨L, hL, h1, h2⟩ := log2Fx_one_add A
  obtain ⟨hf1, hf2⟩ := fxLn2_spec
  have ha := size_nonneg A (-400)
  have hfx : (fxLn2 : ℝ) ≤ 2 ^ 160 := by
    rw [← fxOne_cast]
    exact_mod_cast fxLn2_lt
  have hlog : Real.log (1 + size A (-400)) = Real.logb 2 (1 + size A (-400)) * Real.log 2 := by
    rw [Real.logb, div_mul_cancel₀ _ (Real.log_pos one_lt_two).ne']
  have hb0 : 0 ≤ Real.logb 2 (1 + size A (-400)) := Real.logb_nonneg one_lt_two (by linarith)
  have hb1 : Real.logb 2 (1 + size A (-400)) ≤ 2 ^ 7 := by
    rw [Real.logb_le_iff_le_rpow one_lt_two (by linarith)]
    have h : (1 : ℝ) + 2 ^ 100 ≤ 2 ^ ((2 : ℝ) ^ 7) := by
      rw [show ((2 : ℝ) ^ 7) = (128 : Nat) by norm_num, Real.rpow_natCast]
      norm_num
    linarith
  refine ⟨L, hL, ?_⟩
  have hs : size (L * fxLn2) (-280) = (L : ℝ) * fxLn2 / (2 ^ 120 * 2 ^ 160) := by
    rw [size, zpow_neg, zpow_ofNat, ← pow_add, Nat.cast_mul, div_eq_mul_inv]
  have hln0 := Real.log_pos one_lt_two
  have h118 : (1 : ℝ) / 2 ^ 118 = 2 ^ 162 / (2 ^ 120 * 2 ^ 160) := by norm_num
  rw [hs, hlog, h118, ← add_div, le_div_iff₀ (by positivity), div_le_iff₀ (by positivity)]
  generalize Real.logb 2 (1 + size A (-400)) = b at *
  generalize Real.log 2 = l at *
  have hL0 : (0 : ℝ) ≤ L := Nat.cast_nonneg L
  have hf0 : (0 : ℝ) ≤ fxLn2 := Nat.cast_nonneg _
  have hprod : b * l * (2 ^ 120 * 2 ^ 160) = (2 ^ 120 * b) * (2 ^ 160 * l) := by ring
  rw [hprod]
  constructor
  · exact mul_le_mul h1 hf1 hf0 (mul_nonneg (by norm_num) hb0)
  · refine (mul_le_mul h2 hf2 (mul_nonneg (by norm_num) hln0.le) (add_nonneg hL0 two_pos.le)).trans ?_
    have hLle : (L : ℝ) ≤ 2 ^ 160 := by
      refine h1.trans ((mul_le_mul_of_nonneg_left hb1 (by norm_num)).trans ?_)
      norm_num
    have h2le : (2 : ℝ) ≤ 2 ^ 160 := by norm_num
    have h162 : (2 : ℝ) ^ 162 = 4 * 2 ^ 160 := by norm_num
    rw [h162]
    generalize (2 : ℝ) ^ 160 = Q at *
    linarith

/-- A close exponential gives a close softplus. -/
theorem log_one_add_close {a E d : ℝ} (hd0 : 0 ≤ d) (hd : d ≤ 1 / 2) (hE : 0 ≤ E) (h : Rel d a E) :
    |Real.log (1 + a) - Real.log (1 + E)| ≤ 2 * d := by
  have hlow := h.bounds.1
  have hup := h.bounds.2
  have hdE : d * E ≤ 1 / 2 * E := mul_le_mul_of_nonneg_right hd hE
  have ha0 : 0 < 1 + a := by nlinarith
  have hE0 : 0 < 1 + E := by linarith
  have h1 := Real.log_le_sub_one_of_pos (div_pos ha0 hE0)
  have h2 := Real.log_le_sub_one_of_pos (div_pos hE0 ha0)
  rw [Real.log_div ha0.ne' hE0.ne'] at h1
  rw [Real.log_div hE0.ne' ha0.ne'] at h2
  have h3 : (1 + a) / (1 + E) - 1 ≤ d := by
    rw [sub_le_iff_le_add, div_le_iff₀ hE0]
    nlinarith
  have h4 : (1 + E) / (1 + a) - 1 ≤ 2 * d := by
    rw [sub_le_iff_le_add, div_le_iff₀ ha0]
    nlinarith
  rw [abs_le]
  constructor <;> linarith

theorem exp_neg_32_ge : 1 / 2 ^ 48 ≤ Real.exp (-32) := by
  have h1 := Real.exp_one_lt_d9
  rw [Real.exp_neg, one_div]
  refine inv_anti₀ (Real.exp_pos _) ?_
  rw [show (32 : ℝ) = (2 : Nat) * 1 * (16 : Nat) by norm_num, mul_comm _ ((16 : Nat) : ℝ), Real.exp_nat_mul, Real.exp_nat_mul,
    show 48 = 3 * 16 from rfl, pow_mul]
  refine pow_le_pow_left₀ (by positivity) ?_ 16
  nlinarith [Real.exp_pos 1]

theorem exp_neg_32_le : Real.exp (-32) ≤ 1 / 2 ^ 44 := by
  have h1 := Real.exp_one_gt_d9
  rw [Real.exp_neg, one_div]
  refine inv_anti₀ (by positivity) ?_
  rw [show (32 : ℝ) = (4 : Nat) * 1 * (8 : Nat) by norm_num, mul_comm _ ((8 : Nat) : ℝ), Real.exp_nat_mul, Real.exp_nat_mul]
  calc (2 : ℝ) ^ 44 ≤ 50 ^ 8 := by norm_num
    _ ≤ (2.7 ^ 4) ^ 8 := by norm_num
    _ ≤ (Real.exp 1 ^ 4) ^ 8 := pow_le_pow_left₀ (by norm_num) (pow_le_pow_left₀ (by norm_num) (by linarith) 4) 8

theorem exp_64_le : Real.exp 64 ≤ 2 ^ 96 := by
  have h1 := Real.exp_one_lt_d9
  rw [show (64 : ℝ) = (2 : Nat) * 1 * (32 : Nat) by norm_num, mul_comm _ ((32 : Nat) : ℝ), Real.exp_nat_mul, Real.exp_nat_mul,
    show 96 = 3 * 32 from rfl, pow_mul]
  refine pow_le_pow_left₀ (by positivity) ?_ 32
  nlinarith [Real.exp_pos 1]

theorem abs_fx_le {y : Int} {k : Nat} (h1 : (-k : ℝ) ≤ y / fxOne) (h2 : (y / fxOne : ℝ) ≤ k) : |y| ≤ k * fxOne := by
  rw [le_div_iff₀ fxOne_pos] at h1
  rw [div_le_iff₀ fxOne_pos] at h2
  have h : |(y : ℝ)| ≤ k * fxOne := by
    rw [abs_le]
    constructor <;> linarith
  exact_mod_cast h

/-- Where y lies between -32 and 64, the logarithm is close to softplus. -/
theorem logForm_spec {y : Int} (h1 : (-32 : ℝ) ≤ y / fxOne) (h2 : (y / fxOne : ℝ) ≤ 64) :
    ∃ M : Nat, logForm y = .fin false M (-280) ∧ M ≠ 0 ∧ Rel (1 / 2 ^ 60) (size M (-280)) (softplus (y / fxOne)) := by
  have habs : |y| ≤ 64 * fxOne := abs_fx_le (k := 64) (by norm_num; linarith) (by norm_num; exact h2)
  have hk : -400 ≤ y / fxLn2 - 160 := by
    have h := le_ediv_fxLn2 (y := y) (k := -100) (by
      have h1 : (64 : Int) * fxOne ≤ 100 * fxLn2 := by decide +kernel
      rw [abs_le] at habs
      linarith [habs.1])
    omega
  obtain ⟨A, -, hat, hr⟩ := expFx_at (habs.trans (mul_le_mul_of_nonneg_right (by decide) fxOne_intPos.le)) hk
  have hE0 := Real.exp_pos (y / fxOne : ℝ)
  have hA : size A (-400) ≤ 2 ^ 100 := by
    refine hr.bounds.2.trans ?_
    refine (mul_le_mul_of_nonneg_left ((Real.exp_le_exp.2 h2).trans exp_64_le) (by norm_num)).trans ?_
    norm_num
  obtain ⟨L, hL, hl1, hl2⟩ := lnFx_spec hA
  have hclose := log_one_add_close (by norm_num) (by norm_num) hE0.le hr
  have hlow : 1 / 2 ^ 49 ≤ softplus (y / fxOne) := by
    refine le_trans ?_ (softplus_mono h1)
    refine le_trans ?_ (le_softplus_of_exp_le exp_neg_32_le)
    refine le_trans ?_ (mul_le_mul_of_nonneg_left exp_neg_32_ge (by norm_num))
    norm_num
  have hrel : |size (L * fxLn2) (-280) - softplus (y / fxOne)| ≤ 1 / 2 ^ 117 := by
    rw [abs_le] at hclose ⊢
    rw [softplus]
    norm_num at hclose hl2 ⊢
    constructor <;> linarith
  have hM : L * fxLn2 ≠ 0 := by
    intro h0
    rw [h0, size, Nat.cast_zero, zero_mul, zero_sub, abs_neg, abs_of_pos (softplus_pos _)] at hrel
    have := hlow.trans hrel
    norm_num at this
  refine ⟨L * fxLn2, ?_, hM, hrel.trans ?_⟩
  · rw [logForm, hat, Int.toNat_natCast, hL, ← Nat.cast_mul]
    exact (ofInt_fin (by exact_mod_cast hM) _ _).trans (by rw [decide_eq_false (by omega)]; rfl)
  · refine le_trans ?_ (mul_le_mul_of_nonneg_left hlow (by norm_num))
    norm_num

/-- Where y lies between -512 and -32, the exponential is. -/
theorem expForm_spec {y : Int} (h1 : (-512 : ℝ) ≤ y / fxOne) (h2 : (y / fxOne : ℝ) ≤ -32) :
    ∃ M E, expFx y = .fin false M E ∧ M ≠ 0 ∧ Rel (1 / 2 ^ 40) (size M E) (softplus (y / fxOne)) := by
  have habs : |y| ≤ 512 * fxOne := abs_fx_le (k := 512) (by norm_num; exact h1) (by norm_num; linarith)
  obtain ⟨M, hM, hv, hr⟩ := expFx_spec (habs.trans (mul_le_mul_of_nonneg_right (by decide) fxOne_intPos.le))
  refine ⟨M, _, hv, hM, ?_⟩
  have hE0 := Real.exp_pos (y / fxOne : ℝ)
  have hlow := le_softplus_of_exp_le ((Real.exp_le_exp.2 h2).trans exp_neg_32_le)
  have hup := softplus_le_exp (y / fxOne : ℝ)
  have hsp : Rel (1 / 2 ^ 43) (Real.exp (y / fxOne)) (softplus (y / fxOne)) := by
    rw [Rel, abs_of_nonneg (by linarith)]
    norm_num at hlow ⊢
    linarith
  exact (hr.trans hsp (by positivity)).mono (softplus_pos _).le (by norm_num)

theorem softplusNear_pos {m : Nat} {e : Int} (hev : (Nat.log2 m : Int) + e < 6) :
    softplusNear false m e = logForm (toFx (.fin false m e)) := by
  rw [softplusNear, if_neg (by omega), if_neg (by simp)]
  rfl

/-- The exponent of `softplus` at a negative operand, in fixed point. -/
def softplusArg (m : Nat) (e : Int) : Int :=
  if 9 ≤ (Nat.log2 m : Int) + e then -(2 ^ 9 * (fxOne : Int)) else toFx (.fin true m e)

theorem softplusNear_neg (m : Nat) (e : Int) :
    softplusNear true m e = if 5 ≤ (Nat.log2 m : Int) + e then expFx (softplusArg m e) else logForm (softplusArg m e) := by
  rw [softplusNear, softplusArg]
  by_cases h6 : 6 ≤ (Nat.log2 m : Int) + e
  · rw [if_pos h6, if_pos rfl, if_pos (by omega : 5 ≤ (Nat.log2 m : Int) + e)]
  · rw [if_neg h6, if_neg (by omega : ¬9 ≤ (Nat.log2 m : Int) + e)]
    by_cases h5 : 5 ≤ (Nat.log2 m : Int) + e
    · rw [if_pos ⟨rfl, h5⟩, if_pos h5]
    · rw [if_neg (fun h => h5 h.2), if_neg h5]
      rfl

theorem softplusArg_real {m : Nat} {e : Int} (hm : m ≠ 0) (he : -149 ≤ e) (hx : size m e ≤ 512) :
    (softplusArg m e / fxOne : ℝ) = -size m e := by
  unfold softplusArg
  split
  next hv =>
    have h9 : (2 : ℝ) ^ (9 : Int) ≤ size m e := (zpow_le_zpow_right₀ one_le_two hv).trans (zpow_le_size hm e)
    rw [Int.cast_neg, neg_div, Int.cast_mul, Int.cast_natCast, mul_div_cancel_right₀ _ fxOne_pos.ne']
    norm_num at h9 ⊢
    linarith
  next =>
    rw [toFx_real true m (by omega), dyadic_sgn, sgn, if_pos rfl, neg_one_mul]

/-- The value of `softplus` at a positive operand below 64. -/
theorem softplusNear_pos_spec {m : Nat} {e : Int} (hm : m ≠ 0) (he : -149 ≤ e) (hx : size m e < 64) :
    ∃ M, softplusNear false m e = .fin false M (-280) ∧ M ≠ 0 ∧ Rel (1 / 2 ^ 60) (size M (-280)) (softplus (size m e)) := by
  have hx0 := size_nonneg m e
  have harg := toFx_real false m (e := e) (by omega)
  rw [dyadic_sgn, sgn, if_neg Bool.false_ne_true, one_mul] at harg
  have h := logForm_spec (y := toFx (.fin false m e)) (by rw [harg]; linarith) (by rw [harg]; exact hx.le)
  rw [harg] at h
  rw [softplusNear_pos ((log2_lt_iff hm e 6).2 (hx.trans_eq (by norm_num)))]
  exact h

/-- And at a negative one. -/
theorem softplusNear_neg_spec {m : Nat} {e : Int} (hm : m ≠ 0) (he : -149 ≤ e) (hx : size m e ≤ 512) :
    ∃ M E, softplusNear true m e = .fin false M E ∧ M ≠ 0 ∧ Rel (1 / 2 ^ 40) (size M E) (softplus (-size m e)) := by
  have hx0 := size_nonneg m e
  have harg := softplusArg_real hm he hx
  rw [softplusNear_neg, ← harg]
  split
  next h5 =>
    have h32 : (2 : ℝ) ^ (5 : Int) ≤ size m e := (zpow_le_zpow_right₀ one_le_two h5).trans (zpow_le_size hm e)
    norm_num at h32
    exact expForm_spec (by rw [harg]; linarith) (by rw [harg]; linarith)
  next h5 =>
    have h32 := (log2_lt_iff hm e 5).1 (by push_cast; omega)
    norm_num at h32
    obtain ⟨M, hv, hM, hr⟩ := logForm_spec (y := softplusArg m e) (by rw [harg]; linarith) (by rw [harg]; linarith)
    exact ⟨M, _, hv, hM, hr.mono (softplus_pos _).le (by norm_num)⟩

/-! The operands of f32 whose softplus lies next to a power of two. -/

/-- The positive ones, by their bits, for 1, 2 and so on up to 2^5. -/
def softplusRises : List Nat := [1057657924, 1072522007, 1082052898, 1090518336, 1098907647, 1107296255]
/-- The negative ones for 2^-1, 2^-2 and so on down to 2^-19. -/
def softplusFalls : List Nat :=
  [1054708143, 1067523278, 1073810151, 1076850541, 1079823859, 1082447228, 1083909071, 1085366806, 1086822490, 1088277149,
   1089731296, 1090852113, 1091578995, 1092305844, 1093032678, 1093759503, 1094486325, 1095213144, 1095939963]
/-- The multiple k of ln 2, rounded down to 24 bits. -/
def ln2Multiple (k : Nat) : Nat := (Nat.log2 (k * fxLn2) - 34) * 2 ^ 23 + (k * fxLn2) >>> (Nat.log2 (k * fxLn2) - 23)

theorem softplus_rise_splits : ((List.range 6).all fun i =>
    splits 60 (softplusNear false) true (-149) 0 1270 i (softplusRises.getD i 0)) = true := by
  decide +kernel

theorem softplus_fall_splits : ((List.range 125).all fun i =>
    splits 40 (softplusNear true) false (-149) 0 10240 (-1 - (i : Int)) (softplusFalls.getD i (ln2Multiple (i + 1)))) = true := by
  decide +kernel

theorem softplus_rise_parts {j : Int} (h1 : 0 ≤ j) (h2 : j ≤ 5) : Parts 60 softplus (band 0 1270) j := by
  obtain ⟨i, rfl⟩ := Int.eq_ofNat_of_zero_le h1
  refine parts_of_increasing (by decide) (fun m e hm he hS => ?_) (softplus_mono.monotoneOn _)
    (List.all_eq_true.1 softplus_rise_splits i (List.mem_range.2 (by omega)))
  obtain ⟨M, hv, hM, hr⟩ := softplusNear_pos_spec (by omega) he (hS.2.trans_lt (by norm_num))
  exact ⟨⟨_, _, _, hv, hM, hr⟩, softplus_pos _⟩

theorem softplus_fall_parts {j : Int} (h1 : -125 ≤ j) (h2 : j ≤ -1) : Parts 40 (fun x => softplus (-x)) (band 0 10240) j := by
  obtain ⟨i, hi⟩ := Int.eq_ofNat_of_zero_le (by omega : 0 ≤ -1 - j)
  obtain rfl : j = -1 - (i : Int) := by omega
  refine parts_of_decreasing (by decide) (fun m e hm he hS => ?_) (fun x _ y _ h => softplus_mono (neg_le_neg h))
    (List.all_eq_true.1 softplus_fall_splits i (List.mem_range.2 (by omega)))
  obtain ⟨M, E, hv, hM, hr⟩ := softplusNear_neg_spec (by omega) he (hS.2.trans (by norm_num))
  exact ⟨⟨_, _, _, hv, hM, hr⟩, softplus_pos _⟩

theorem half_le_softplus {x : ℝ} (hx : 0 ≤ x) : 1 / 2 ≤ softplus x := by
  refine le_trans ?_ (softplus_mono hx)
  rw [softplus_zero]
  linarith [Real.log_two_gt_d9]

theorem softplus_neg_le {x : ℝ} (hx : 0 ≤ x) : softplus (-x) ≤ 7 / 10 := by
  refine (softplus_mono (neg_nonpos.2 hx)).trans ?_
  rw [softplus_zero]
  linarith [Real.log_two_lt_d9]

/-- An operand below 64 leaves room for softplus below it. -/
theorem softplus_lt_64 {m : Nat} (hm24 : m < 2 ^ 24) {e : Int} (hx : size m e < 64) :
    (1 + 1 / 2 ^ 60) * softplus (size m e) < 64 := by
  have hle : size m e ≤ 64 - 1 / 2 ^ 18 := by
    rcases operand_gap hm24 (m0 := 2 ^ 24 - 1) (by decide) e (-18) with h | h
    · refine h.trans ?_
      rw [size]
      norm_num
    · rw [size] at h
      norm_num at h
      linarith
  have h1 := softplus_mono hle
  have h2 := (softplus_le_exp (-(64 - 1 / 2 ^ 18))).trans ((Real.exp_le_exp.2 (by norm_num)).trans exp_neg_32_le)
  rw [softplus_eq_add (64 - 1 / 2 ^ 18)] at h1
  norm_num at h1 h2 ⊢
  linarith

section
variable {t : Nat} (ht : t = 8 ∨ t = 9 ∨ t = 10) {m : Nat} (hm : m ≠ 0) (hm24 : m < 2 ^ 24) {e : Int} (he : -149 ≤ e)
  (pick : Int)
include ht hm

/-- A positive operand of 64 or more: softplus lies just above it. -/
theorem within_softplus_large (hx : 64 ≤ size m e) (hr : size m e ≤ (fmtOf t).topVal) :
    Within t 3 (pickNear (fmtOf t) (if t = 10 then 3 else 1) none (softplusNear false m e) pick) (softplus (size m e)) := by
  have hev : 6 ≤ (Nat.log2 m : Int) + e := by
    by_contra h
    have := (log2_lt_iff hm e 6).1 (by push_cast; omega)
    norm_num at this
    linarith
  rw [softplusNear, if_pos hev, if_neg Bool.false_ne_true]
  have h := pickNear_ulps_below ht (b := 3) (by decide) le_rfl (n := false) (pick := pick) hm (le_softplus (size m e)) ?_ (.inl ⟨rfl, hr⟩)
  · rwa [sgn, if_neg Bool.false_ne_true, one_mul] at h
  · have h1 := (softplus_le_exp (-size m e)).trans ((Real.exp_le_exp.2 (by linarith)).trans exp_neg_64_le)
    rw [softplus_eq_add]
    norm_num at h1 ⊢
    linarith

include hm24 he

/-- A positive operand below. -/
theorem within_softplus_small (hx : size m e < 64) :
    Within t 3 (pickNear (fmtOf t) (if t = 10 then 3 else 1) none (softplusNear false m e) pick) (softplus (size m e)) := by
  obtain ⟨M, hv, hM, hr⟩ := softplusNear_pos_spec hm he hx
  have hx0 := size_nonneg m e
  have hY0 := softplus_pos (size m e)
  have hY64 := softplus_lt_64 hm24 hx
  rw [hv]
  have h := pickNear_ulps ht (b := 3) (by decide) le_rfl (n := false) (pick := pick) hM hY0.le
    ((ieee_fmtOf ht).close_of_rel (close_of_tracks hr hY0.le (by decide))) (room_of_le ht le_rfl _ _ _ ?_) (fun _ => .inl ?_)
  · rwa [sgn, if_neg Bool.false_ne_true, one_mul] at h
  · norm_num at hY64 ⊢
    linarith
  · have hlead := zpow_le_size hM (-280)
    have hlt : size M (-280) < 2 ^ (6 : Int) := (hr.bounds.2.trans_lt hY64).trans_eq (by norm_num)
    have hj := (zpow_lt_zpow_iff_right₀ (one_lt_two : (1 : ℝ) < 2)).1 (hlead.trans_lt hlt)
    rcases lt_or_ge ((Nat.log2 M : Int) + -280) 0 with hneg | hj0
    · refine (zpow_le_zpow_right₀ one_le_two (by omega : _ ≤ (-1 : Int))).trans (le_trans ?_ (half_le_softplus hx0))
      norm_num
    rcases le_or_gt (size m e) (127 / 2) with h1 | h1
    · exact (softplus_rise_parts hj0 (by omega)).reach hm24 ⟨le_trans (by norm_num) hx0, h1.trans (by norm_num)⟩ hr hlead
    · refine (zpow_le_zpow_right₀ one_le_two (by omega : _ ≤ (5 : Int))).trans (le_trans ?_ (le_softplus _))
      norm_num
      linarith

/-- A negative operand of magnitude up to 512. -/
theorem within_softplus_neg (hx : size m e ≤ 512) :
    Within t 3 (pickNear (fmtOf t) (if t = 10 then 3 else 1) none (softplusNear true m e) pick) (softplus (-size m e)) := by
  obtain ⟨M, E, hv, hM, hr⟩ := softplusNear_neg_spec hm he hx
  have hx0 := size_nonneg m e
  have hY0 := softplus_pos (-size m e)
  have hY1 := softplus_neg_le hx0
  rw [hv]
  have h := pickNear_ulps ht (b := 3) (by decide) le_rfl (n := false) (pick := pick) hM hY0.le
    ((ieee_fmtOf ht).close_of_rel (close_of_tracks hr hY0.le le_rfl)) (room_of_le ht le_rfl _ _ _ ?_) (fun _ => ?_)
  · rwa [sgn, if_neg Bool.false_ne_true, one_mul] at h
  · exact hY1.trans (by norm_num)
  · rw [or_iff_not_imp_right, not_le]
    intro hj
    have hlead := zpow_le_size hM E
    have hlt : size M E < 2 ^ (0 : Int) := by
      refine (hr.bounds.2.trans (mul_le_mul_of_nonneg_left hY1 (by norm_num))).trans_lt ?_
      norm_num
    have hj2 := (zpow_lt_zpow_iff_right₀ (one_lt_two : (1 : ℝ) < 2)).1 (hlead.trans_lt hlt)
    exact (softplus_fall_parts (by omega) (by omega)).reach hm24 ⟨le_trans (by norm_num) hx0, hx.trans (by norm_num)⟩ hr hlead

omit hm24 he in
/-- A negative operand beyond: both are far below every format. -/
theorem within_softplus_tiny (hx : 512 < size m e) :
    Within t 3 (pickNear (fmtOf t) (if t = 10 then 3 else 1) none (softplusNear true m e) pick) (softplus (-size m e)) := by
  have hev : 9 ≤ (Nat.log2 m : Int) + e := by
    by_contra h
    have := (log2_lt_iff hm e 9).1 (by push_cast; omega)
    norm_num at this
    linarith
  obtain ⟨M, hM, hv, hr⟩ := expFx_spec (y := -(2 ^ 9 * (fxOne : Int))) (by
    rw [abs_neg, abs_of_nonneg (mul_nonneg (by decide) fxOne_intPos.le)]
    exact mul_le_mul_of_nonneg_right (by decide) fxOne_intPos.le)
  have harg : ((-(2 ^ 9 * (fxOne : Int)) : Int) : ℝ) / fxOne = -512 := by
    rw [Int.cast_neg, neg_div, Int.cast_mul, Int.cast_natCast, mul_div_cancel_right₀ _ fxOne_pos.ne']
    norm_num
  rw [harg] at hr
  have hexp {x : ℝ} (hx : 512 ≤ x) : Real.exp (-x) ≤ 2 ^ (-154 : Int) := by
    refine (Real.exp_le_exp.2 (by linarith : -x ≤ -256)).trans ?_
    rw [Real.exp_neg, zpow_neg]
    refine inv_anti₀ (by positivity) (le_trans ?_ le_exp_256)
    rw [zpow_ofNat]
    exact pow_le_pow_right₀ one_le_two (by decide)
  have h153 : (2 : ℝ) ^ (-153 : Int) = 2 * 2 ^ (-154 : Int) := by rw [← zpow_one_add₀ two_ne_zero]; norm_num
  rw [softplusNear_neg, if_pos (by omega : 5 ≤ (Nat.log2 m : Int) + e), softplusArg, if_pos hev, hv]
  have h := within_tiny ht (b := 3) (by decide) le_rfl false (pick := pick) hM (softplus_pos (-size m e)).le
    (hr.bounds.2.trans ?_) (((softplus_le_exp _).trans (hexp hx.le)).trans (zpow_le_zpow_right₀ one_le_two (by decide)))
  · rwa [sgn, if_neg Bool.false_ne_true, one_mul] at h
  · rw [h153]
    exact mul_le_mul (by norm_num) (hexp le_rfl) (Real.exp_pos _).le (by norm_num)

/-- `softplus` keeps its bound. -/
theorem within_softplus (n : Bool) (hr : size m e ≤ (fmtOf t).topVal) :
    Within t 3 (special 6 t (.fin n m e) pick).1 (softplus (dyadic n m e)) := by
  rw [show (special 6 t (.fin n m e) pick).1 = _ from congrArg Prod.fst (special_softplus hm e t pick 0), dyadic_sgn]
  cases n
  · rw [sgn, if_neg Bool.false_ne_true, one_mul]
    rcases le_or_gt 64 (size m e) with hx | hx
    · exact within_softplus_large ht hm pick hx hr
    · exact within_softplus_small ht hm hm24 he pick hx
  · rw [sgn, if_pos rfl, neg_one_mul]
    rcases le_or_gt (size m e) 512 with hx | hx
    · exact within_softplus_neg ht hm hm24 he pick hx
    · exact within_softplus_tiny ht hm pick hx

end

/-! ### The special functions together (R152, Table 06-3) -/

theorem special_inf (t : Nat) (n : Bool) (pick : Int) :
    (special 0 t (.inf n) pick).1 = .fin n 0 0 ∧ (special 1 t (.inf n) pick).1 = (if n then .nan else .fin false 0 0) ∧
      (special 2 t (.inf n) pick).1 = (if n then .fin false 0 0 else .inf false) ∧
      (special 3 t (.inf n) pick).1 = (if n then .nan else .inf false) ∧ (special 4 t (.inf n) pick).1 = .fin n 1 0 ∧
      (special 5 t (.inf n) pick).1 = (if n then .fin true 0 0 else .inf false) ∧
      (special 6 t (.inf n) pick).1 = (if n then .fin false 0 0 else .inf false) := by
  cases n <;> exact ⟨rfl, rfl, rfl, rfl, rfl, rfl, rfl⟩

theorem special_conditions_iff (op t : Nat) (v : FV) (pick : Int) :
    ((special op t v pick).2.1 = true ↔ (op = 1 ∨ op = 3) ∧ v.isNeg = true ∧ v.isZero = false) ∧
      ((special op t v pick).2.2 = true ↔ (op = 0 ∨ op = 1 ∨ op = 3) ∧ v.isZero = true) := by
  obtain ⟨h1, h2⟩ := special_conditions op t v pick
  rw [h1, h2]
  simp [and_assoc, or_assoc]

/-- `softplus` of a zero. -/
theorem within_softplus_zero {t : Nat} (ht : t = 8 ∨ t = 9 ∨ t = 10) (n : Bool) (e : Int) (pick : Int) :
    Within t 3 (special 6 t (.fin n 0 e) pick).1 (Real.log 2) := by
  obtain ⟨h1, h2⟩ := fxLn2_spec
  have hs : size fxLn2 (-160) * 2 ^ 160 = fxLn2 := by
    rw [size, zpow_neg, zpow_ofNat, inv_mul_cancel_right₀ (by positivity)]
  have hbig : (2 : ℝ) ^ 159 ≤ fxLn2 := by
    have : 2 ^ 159 ≤ fxLn2 := by decide +kernel
    exact_mod_cast this
  refine within_below ht (b := 3) (m := fxLn2) (e := -160) (by decide) le_rfl (by decide +kernel) ?_ ?_
    ((ieee_fmtOf ht).le_topVal ?_)
  · rw [← mul_le_mul_iff_left₀ (by positivity : (0 : ℝ) < 2 ^ 160), hs]
    linarith
  · rw [← mul_le_mul_iff_left₀ (by positivity : (0 : ℝ) < 2 ^ 160), mul_assoc, hs]
    generalize (fxLn2 : ℝ) = F at *
    norm_num at hbig h2 ⊢
    linarith
  · linarith [Real.log_two_lt_d9]

/-- What every operand satisfies. -/
theorem operand_bounds {t : Nat} (ht : t = 8 ∨ t = 9 ∨ t = 10) {x : Nat} {n : Bool} {m : Nat} {e : Int}
    (h : (fmtOf t).dec x = .fin n m e) :
    m < 2 ^ 24 ∧ -149 ≤ e ∧ e ≤ 127 ∧ 1 - ((fmtOf t).bias : Int) - (fmtOf t).fb ≤ e ∧ size m e ≤ (fmtOf t).topVal := by
  have hf := ieee_fmtOf ht
  obtain ⟨hm, h1, h2⟩ := hf.dec_fin h
  have hfb := hf.fb_le
  have hbias := hf.bias_le
  refine ⟨hm.trans_le (Nat.pow_le_pow_right (by decide) (by omega)), by omega, by omega, h1, ?_⟩
  have hmR : (m : ℝ) ≤ 2 ^ ((fmtOf t).fb + 1) - 1 := by
    rw [le_sub_iff_add_le]
    exact_mod_cast hm
  exact mul_le_mul hmR (zpow_le_zpow_right₀ one_le_two h2) (by positivity) ((Nat.cast_nonneg m).trans hmR)

/-- The exact cases of the reciprocal and of the negative operands. -/
theorem special_rcp_pow (n : Bool) (l : Nat) (e : Int) (t : Nat) (pick : Int) :
    (special 0 t (.fin n (2 ^ l) e) pick).1 = .fin n 1 (-((l : Int) + e)) := by
  rw [special_rcp (Nat.two_pow_pos l).ne', Nat.log2_two_pow, if_pos rfl]

theorem special_negative {m : Nat} (hm : m ≠ 0) (e : Int) (t : Nat) (pick : Int) :
    (special 1 t (.fin true m e) pick).1 = .nan ∧ (special 3 t (.fin true m e) pick).1 = .nan := by
  rw [special_rsq hm, special_log2 hm]
  exact ⟨rfl, rfl⟩

theorem dyadic_false (m : Nat) (e : Int) : dyadic false m e = size m e := by
  rw [dyadic_sgn, sgn, if_neg Bool.false_ne_true, one_mul]

/-- Settles O15: function by function. -/
theorem specialFunctionValues : Obligations.SpecialFunctionValues := by
  intro t x pick ht
  have hop {n m e} := operand_bounds ht (x := x) (n := n) (m := m) (e := e)
  dsimp only
  generalize (fmtOf t).dec x = v at hop ⊢
  refine ⟨fun op _ => ⟨(special_conditions_iff op t v pick).1, (special_conditions_iff op t v pick).2, ?_⟩, ?_, ?_, ?_⟩
  · rintro rfl
    rfl
  · rintro n rfl
    exact special_inf t n pick
  · rintro n e rfl
    exact ⟨rfl, rfl, rfl, rfl, rfl, rfl, fun _ => within_softplus_zero ht n e pick⟩
  · rintro n m e rfl hm
    obtain ⟨hm24, he, he', hef, htop⟩ := hop rfl
    refine ⟨?_, ?_, ?_, ?_, ?_, ?_, ?_, ?_, ?_, ?_⟩
    · rintro l rfl
      refine ⟨special_rcp_pow n l e t pick, ?_, ?_⟩
      · rintro rfl
        exact special_log2_pow l e t pick
      · rintro rfl hl
        exact special_rsq_pow hl t pick
    · intro k h1 h2 hk
      exact special_exp2_int hm (by omega) t pick h1 h2 hk
    · exact within_rcp ht hm hef
    · rintro rfl hr
      have h := within_rsq ht hm hm24 (e := e) (pick := pick)
      rw [← dyadic_false] at h
      exact h ((le_abs_self _).trans hr)
    · exact fun hr => within_exp2 ht hm (by omega) ((le_abs_self _).trans hr)
    · rintro rfl -
      have h := gives_log2 ht hm hm24 (pick := pick) he he'
      rw [log2Tol, ← dyadic_false] at h
      exact h
    · exact fun _ => within_tanh ht hm hm24 he n pick
    · exact fun _ => within_silu ht hm he pick hm24 htop n
    · exact fun _ => within_softplus ht hm hm24 he pick n htop
    · rintro rfl
      exact special_negative hm e t pick

end Sys2Proof.Machine

namespace Sys2Proof.Machine

set_option Elab.async false

/-! ### The canonical form of the byte memories (R180, R453): what can write them

Every write of LPDDR 6, host and peer memory goes through `Memory.writeN`; every other step leaves the three as they are. One
lemma for each function of the model follows its definition: a state in the form gives a state in the form. -/

/-- The three byte memories of a state stand in their canonical form. -/
def Formed (s : State) : Prop := s.memWf = true

theorem formed_iff {s : State} : Formed s ↔ s.dram.wf = true ∧ s.host.wf = true ∧ s.peer.wf = true := by
  rw [Formed, State.memWf, Bool.and_eq_true, Bool.and_eq_true, and_assoc]

theorem Formed.same {s t : State} (h : Formed s) (hd : t.dram = s.dram) (hh : t.host = s.host) (hp : t.peer = s.peer) :
    Formed t := by
  rw [formed_iff, hd, hh, hp]
  exact formed_iff.1 h
theorem Formed.ite {s t : State} {c : Prop} [Decidable c] (h : Formed s) (g : Formed t) : Formed (if c then s else t) := by
  split
  · exact h
  · exact g
theorem Formed.foldl {α : Type} {f : State → α → State} {s : State} (h : Formed s)
    (hf : ∀ s a, Formed s → Formed (f s a)) {l : List α} : Formed (l.foldl f s) := by
  induction l generalizing s with
  | nil => exact h
  | cons a r ih => exact ih (hf s a h)
theorem Formed.ite_fst {α : Type} {p r : State × α} {c : Prop} [Decidable c] (h : Formed p.1) (g : Formed r.1) :
    Formed (if c then p else r).1 := by
  split
  · exact h
  · exact g
/-- A fold over a state and something else. -/
theorem Formed.foldl_fst {α β : Type} {f : State × β → α → State × β} {p : State × β} (h : Formed p.1)
    (hf : ∀ p a, Formed p.1 → Formed (f p a).1) {l : List α} : Formed (l.foldl f p).1 := by
  induction l generalizing p with
  | nil => exact h
  | cons a r ih => exact ih (hf p a h)
theorem Formed.withDram {s : State} (h : Formed s) {m : Memory} (hm : m.wf = true) : Formed { s with dram := m } :=
  formed_iff.2 ⟨hm, (formed_iff.1 h).2⟩
theorem Formed.withStack {s : State} {l : Tab StackLine} (h : Formed s) : Formed { s with stack := l } := h
theorem Formed.foldl_pair {α β : Type} {f : State × β → α → State × β} {s : State} {b : β} (h : Formed s)
    (hf : ∀ p a, Formed p.1 → Formed (f p a).1) {l : List α} : Formed (l.foldl f (s, b)).1 := Formed.foldl_fst h hf
theorem Formed.withNextKey {s : State} {n : Nat} (h : Formed s) : Formed { s with nextKey := n } := h
theorem Formed.withShelf {s : State} {l : List Nat} (h : Formed s) : Formed { s with shelfUsed := l } := h

theorem Formed.setReg {s : State} {n v : Nat} (h : Formed s) : Formed (s.setReg n v) := h
theorem Formed.modCore {s : State} {k : Nat} {f : Core → Core} (h : Formed s) : Formed (s.modCore k f) := h
theorem Formed.modCtx {s : State} {k j : Nat} {f : Ctx → Ctx} (h : Formed s) : Formed (s.modCtx k j f) := h

section
variable {s : State} {k j q i n m w v key ln part pa va tgt fn slice sets way page : Nat} {own : Nat × Nat}
  {dev : Bool}

theorem Formed.setCtx {s : State} {k j : Nat} {x : Ctx} (h : Formed s) : Formed (s.setCtx k j x) := h
theorem Formed.setCluster {s : State} {q : Nat} {c : Cluster} (h : Formed s) : Formed (s.setCluster q c) := h

/-! #### The stacks and the memories behind them (R177 to R180, R453) -/

theorem Memory.foldl_wf {α : Type} {f : Memory → α → Memory} {m : Memory} (h : m.wf = true)
    (hf : ∀ m a, m.wf = true → (f m a).wf = true) (l : List α) : (l.foldl f m).wf = true := by
  induction l generalizing m with
  | nil => exact h
  | cons a r ih => exact ih (hf m a h)

theorem formed_wbLine {l : StackLine} (h : Formed s) : Formed (s.wbLine key l) := by
  unfold State.wbLine
  extract_lets ln waits s'
  have h' : Formed s' := Formed.ite (h : Formed s.hold) h
  refine h'.withDram (Memory.foldl_wf (formed_iff.1 h').1 (fun m w hm => ?_) _)
  split
  · exact Memory.writeN_wf _ _ _ hm
  · exact hm

theorem formed_dropWay (h : Formed s) : Formed (s.dropWay slice sets way) := by
  unfold State.dropWay
  split
  · exact h.ite (formed_wbLine h)
  · exact h

theorem formed_allocWay (h : Formed s) : Formed (s.allocWay slice sets).1 := by
  unfold State.allocWay
  dsimp only
  split
  · exact h
  · split
    · exact formed_dropWay h
    · exact h

theorem formed_lineFor (h : Formed s) : Formed (s.lineFor part pa).1 := by
  unfold State.lineFor
  split
  · exact h
  · exact formed_allocWay h

theorem formed_lpTouchLine (h : Formed s) : Formed (s.lpTouchLine part pa n) :=
  Formed.ite h (.ite h (.ite h (.ite h (formed_lineFor h))))

theorem formed_lpTouchF (h : Formed s) : Formed (s.lpTouchF part m pa n) := by
  induction m generalizing s pa n with
  | zero => exact h
  | succ m ih => exact .ite h (ih (formed_lpTouchLine h) ..)
theorem formed_lpTouch (h : Formed s) : Formed (s.lpTouch part pa n) := formed_lpTouchF h

theorem formed_lpPut (h : Formed s) : Formed (s.lpPut part pa n v own) :=
  Formed.ite h (.ite h (.ite h (.ite h (formed_lineFor h))))

theorem formed_lpWriteF (h : Formed s) :
    Formed (s.lpWriteF part own dev m pa n v) := by
  induction m generalizing s pa n v with
  | zero => exact h
  | succ m ih => exact .ite h (ih (h.ite (formed_lpPut h)))
theorem formed_lpWrite (h : Formed s) : Formed (s.lpWrite part pa n v own) :=
  formed_lpWriteF h
theorem formed_lpInstall (h : Formed s) : Formed (s.lpInstall pa n v) := formed_lpWriteF h

theorem formed_tableSoft (h : Formed s) : Formed (s.tableSoft part pa n own) :=
  h.ite (h.foldl (fun _ _ h => formed_lpWrite h))
theorem formed_lpSoft (h : Formed s) : Formed (s.lpSoft part pa n v own) :=
  formed_tableSoft (formed_lpWrite h)

theorem formed_lpClean (h : Formed s) : Formed (s.lpClean part pa) := by
  unfold State.lpClean
  dsimp only
  split
  · exact h.ite (formed_wbLine h)
  · exact h

theorem formed_physTouch (h : Formed s) : Formed (s.physTouch tgt part pa n) :=
  .ite (formed_lpTouch h) h

theorem formed_physWrite (h : Formed s) :
    Formed (s.physWrite tgt part pa n v own) := by
  obtain ⟨hd, hh, hp⟩ := formed_iff.1 h
  exact .ite (formed_lpSoft h) (.ite (formed_iff.2 ⟨hd, Memory.writeN_wf _ _ _ hh, hp⟩)
    (formed_iff.2 ⟨hd, hh, Memory.writeN_wf _ _ _ hp⟩))

/-! #### The L1 data caches and translation (R178, R432) -/

theorem formed_l1Flush (h : Formed s) : Formed (s.l1Flush k ln) := by
  unfold State.l1Flush
  split
  · exact h
  · dsimp only
    exact h.ite (.modCore (.ite h (h.foldl (fun _ _ h => .ite (formed_lpSoft h) h))))
theorem formed_l1Evict (h : Formed s) : Formed (s.l1Evict k ln) := formed_l1Flush h
theorem formed_l1Room (h : Formed s) : Formed (s.l1Room k ln) := by
  refine h.ite ?_
  split
  · exact formed_l1Evict h
  · exact h
theorem formed_l1Read (h : Formed s) : Formed (s.l1Read k j part pa va).1 :=
  .modCore (.ite (formed_l1Room h) (formed_lpTouch (formed_l1Room h)))
theorem formed_l1Write (h : Formed s) :
    Formed (s.l1Write k j fn part pa n v va) := formed_l1Room h
theorem formed_l1FlushIf {f : L1Line → Bool} (h : Formed s) : Formed (s.l1FlushIf k f) :=
  h.foldl (fun _ _ h => formed_l1Flush h)
theorem formed_l1Release (h : Formed s) : Formed (s.l1Release k j) := formed_l1FlushIf h

theorem formed_walkTouch (h : Formed s) : Formed (s.walkTouch fn va) :=
  h.foldl (fun _ _ h => formed_lpTouch h)
theorem formed_walkEnd (h : Formed s) : Formed (s.walkEnd q fn page) := by
  unfold State.walkEnd
  dsimp only
  split
  · exact formed_walkTouch h
  · exact formed_walkTouch h
theorem formed_walkDone (h : Formed s) : Formed (s.walkDone q i) := by
  unfold State.walkDone
  split
  · exact h
  · exact h.ite (formed_walkEnd h)
end

section
variable {s : State} {k j q i n m w v e u key pa va fn page : Nat} {own : Nat × Nat} {clash : Bool} {x mask : Row}
  {r : OpRec} {c : Cmd} {priv write atom faulted halts : Bool} {op : Option Nat}

theorem formed_xlNow (h : Formed s) : Formed (s.xlNow q fn va write priv atom).1 := by
  unfold State.xlNow
  split
  · exact h
  · extract_lets l page s' r t
    have h' : Formed s' := by
      refine h.ite ?_
      cases l
      · exact h
      · exact formed_walkEnd h
    have ht : Formed t := formed_walkEnd h'
    cases r
    · exact ht
    · exact ht

/-! #### Records, retirement and quarantine (R428, R437, R438) -/

theorem formed_ringRecord {base rp rc rd : Nat} (h : Formed s) : Formed (s.ringRecord base n rp rc rd v) :=
  .ite h (formed_lpWrite h)
theorem formed_errRecord (h : Formed s) : Formed (s.errRecord k j v) := formed_ringRecord h
theorem formed_fneRecord (h : Formed s) : Formed (s.fneRecord k v) := formed_ringRecord h
theorem formed_tlbDropAll {f : TlbEnt → Bool} (h : Formed s) : Formed (s.tlbDropAll f) := h.foldl fun _ _ h => .setCluster h
theorem formed_retirePage (h : Formed s) : Formed (s.retirePage pa) := formed_tlbDropAll (formed_lpWrite h)
theorem formed_quarantine {sl set : Nat} (h : Formed s) : Formed (s.quarantine sl set w) := formed_dropWay h

/-! #### Results that land, and rows of the scratchpads (R172, R250, R251) -/

theorem formed_putD {d : Dest} (h : Formed s) : Formed (putD s k j d v) := by
  unfold putD
  split
  case h_1 => exact h.ite h
  case h_6 => exact h.ite h
  case h_12 => exact h.ite h
  all_goals exact h
theorem formed_notePad (h : Formed s) : Formed (s.notePad k w mask) := h.ite h
theorem formed_land {p : Pend} (h : Formed s) : Formed (land s k j p) := by
  refine h.ite ?_
  extract_lets v t u
  have ht : Formed t := h.ite (.ite (formed_putD h) (formed_putD h))
  have hu : Formed u := by
    unfold u
    split
    · exact formed_notePad ht
    · exact ht
  split
  · exact hu
  · exact hu
theorem formed_landDue (h : Formed s) : Formed (landDue s k j n) := Formed.foldl (.modCtx h) fun _ _ h => formed_land h
theorem formed_landAll (h : Formed s) : Formed (landAll s k j) := Formed.foldl (.modCtx h) fun _ _ h => formed_land h

theorem formed_mxTouch {y : RowUse} (h : Formed s) : Formed (s.mxTouch k w y) := .ite (.modCore h) h
theorem formed_touchDue (h : Formed s) : Formed (touchDue s k j n) := by
  refine h.foldl fun s p h => h.ite ?_
  split
  · exact formed_mxTouch h
  · exact h
theorem formed_touchAll (h : Formed s) : Formed (touchAll s k j) := by
  refine h.foldl fun s p h => h.ite ?_
  split
  · exact formed_mxTouch h
  · exact h
theorem formed_putPad (h : Formed s) : Formed (s.putPad k w v) := .modCore (formed_notePad h)
theorem formed_storeRow (h : Formed s) : Formed (s.storeRow k w mask x key) :=
  .ite (formed_putPad (formed_mxTouch h)) (.modCore (formed_notePad (formed_mxTouch h)))

/-! #### The matrix unit (R248, R250) -/

theorem formed_updApply {d : MxEnt} (h : Formed s) : Formed (updApply s k d) := by
  refine .foldl (.foldl h fun s e h => ?_) fun _ _ h => formed_putPad h
  exact formed_putPad (.foldl h fun _ _ h => .modCtx (formed_putPad h))
theorem formed_landEarly (h : Formed s) : Formed (landEarly s k j i) := by
  unfold landEarly
  dsimp only
  split
  · exact h
  · refine h.ite (formed_land ?_)
    split
    · exact formed_mxTouch (.modCtx h)
    · exact .modCtx h
theorem formed_landRows {l : List Nat} (h : Formed s) : Formed (landRows s k j l) := by
  refine h.foldl fun s i h => ?_
  split
  · exact .ite (formed_landEarly h) h
  · exact h
theorem formed_mxApply {d : MxEnt} (h : Formed s) : Formed (mxApply s k d) := by
  unfold mxApply
  split
  case h_1 => exact formed_landRows h
  case h_2 => exact formed_updApply h
  case h_4 => exact .ite (.foldl (.modCtx (.modCore h)) fun _ _ h => formed_putPad h) (.modCtx (.modCore h))
  all_goals exact h
theorem formed_mxDone (h : Formed s) : Formed (mxDone s k i) := by
  unfold mxDone
  split
  · exact formed_mxApply (.modCore h)
  · exact h
theorem formed_mxForce (h : Formed s) : Formed (mxForce s k j n) := by
  unfold mxForce
  split
  · exact h
  · exact Formed.foldl_fst h fun _ _ h => formed_mxDone h

/-! #### Rings, operations of the engines, tiles and banks (R176, R208, R340) -/

theorem formed_ringProduced {r : Nat} (h : Formed s) : Formed (ringProduced s k j r clash) :=
  h.ite (.modCtx (h.foldl fun _ _ h => formed_storeRow h))
theorem formed_opDone (h : Formed s) : Formed (s.opDone k j e r faulted halts) := .modCtx h
theorem formed_modTile {f : Tile → Tile} (h : Formed s) : Formed (s.modTile k n f) := .modCore h
theorem formed_clearVal (h : Formed s) : Formed (s.clearVal k n) := .modCore (formed_modTile h)
theorem formed_nbAdd {y : BarUpd} (h : Formed s) : Formed (s.nbAdd k n y) := .modCore h
theorem formed_tileSpoilt (h : Formed s) : Formed (s.tileSpoilt c e) := by
  unfold State.tileSpoilt
  split
  · exact .ite (.modCore h) h
  · exact h

theorem formed_vByte {a : Int} (h : Formed s) : Formed (s.vByte q fn priv op a).1 := by
  unfold State.vByte
  split
  · exact h
  · dsimp only
    have hr : Formed (s.xlNow q fn a.toNat false priv).1 := formed_xlNow h
    split
    · split
      · exact hr
      · split
        · exact hr
        · exact formed_physTouch hr
    · exact hr
theorem formed_vBytes {l : List Int} (h : Formed s) : Formed (s.vBytes q fn priv op l).1 := by
  induction l generalizing s with
  | nil => exact h
  | cons a l ih =>
    have hb : Formed (s.vByte q fn priv op a).1 := formed_vByte h
    have hl : Formed ((s.vByte q fn priv op a).1.vBytes q fn priv op l).1 := ih hb
    unfold State.vBytes
    split
    case h_1 hx => rw [hx] at hb; exact hb
    case h_2 hx =>
      rw [hx] at hl
      split
      case h_1 hy => rw [hy] at hl; exact hl
      case h_2 hy => rw [hy] at hl; exact hl
theorem formed_vPlace {y : Int × Nat} (h : Formed s) : Formed (s.vPlace q fn priv op y).1 := by
  unfold State.vPlace
  split
  · exact h
  · dsimp only
    have hr : Formed (s.xlNow q fn y.1.toNat true priv).1 := formed_xlNow h
    split
    · split
      · exact hr
      · exact hr
    · exact hr
theorem formed_vRuns {l : List (Int × Nat)} (h : Formed s) : Formed (s.vRuns q fn priv op l).1 := by
  refine Formed.foldl_fst h fun p y hp => ?_
  split
  · exact hp
  · have hy : Formed (p.1.vPlace q fn priv op y).1 := formed_vPlace hp
    split
    case h_1 hx => rw [hx] at hy; exact hy
    case h_2 hx => rw [hx] at hy; exact hy
theorem formed_vWrite {l : List (Int × Nat)} (h : Formed s) : Formed (s.vWrite q fn priv op own l).1 := by
  have hr : Formed (s.vRuns q fn priv op l).1 := formed_vRuns h
  unfold State.vWrite
  split
  case h_1 hx => rw [hx] at hr; exact hr
  case h_2 hx =>
    rw [hx] at hr
    split
    · exact hr
    · exact hr.foldl fun _ _ h => formed_physWrite h

/-! #### The scan engine (Chapter 13) -/

theorem formed_diagChunk {l : List Nat} (h : Formed s) : Formed (diagChunk s c m l).1 := by
  refine Formed.foldl_pair h fun p i hp => ?_
  exact .setCtx hp
theorem formed_diagUnit (h : Formed s) : Formed (diagUnit s c).1 :=
  .ite_fst (.ite_fst (formed_diagChunk h) h) (formed_storeRow h)
theorem formed_scanUnit (h : Formed s) : Formed (scanUnit s c).1 := by
  unfold scanUnit
  extract_lets a c1 slot w mod v x v' t
  refine .ite_fst (formed_diagUnit h) (.ite_fst (.ite_fst h (formed_tileSpoilt (.modCore h))) (.ite_fst (.ite_fst ?clear ?carry)
    (.ite_fst (.ite (formed_storeRow h) (.modCore h)) ?fade)))
  case clear => exact h.foldl fun _ _ h => .modCtx h
  case carry => exact .modCtx h
  case fade => exact .foldl (.ite (formed_storeRow h) h) fun _ _ h => .ite (.modCtx h) h
theorem formed_scanRun (h : Formed s) : Formed (scanRun n s c).1 := by
  induction n generalizing s c with
  | zero => exact h
  | succ n ih =>
    unfold scanRun
    split
    · exact h
    · exact ih (formed_scanUnit h)
theorem formed_scanStart (h : Formed s) : Formed (scanStart s k) := by
  unfold scanStart
  dsimp only
  refine h.ite ?_
  split
  · exact h
  · split
    · exact h
    · exact h
theorem formed_scanFault (h : Formed s) : Formed (scanFault s c) :=
  .modCtx (.ite (.modCore (.modCore (formed_errRecord h))) (formed_errRecord h))
theorem formed_scanAdvance (h : Formed s) : Formed (scanAdvance s k op) := by
  unfold scanAdvance
  split
  · exact h
  · have hr {n : Nat} {c : Cmd} : Formed (scanRun n s c).1 := formed_scanRun h
    exact .ite (.modCore hr) (.ite (formed_scanFault (.modCore hr)) (.modCtx (.modCore hr)))
theorem formed_scanKill (h : Formed s) : Formed (scanKill s k j) := by
  unfold scanKill
  split
  · exact h
  · exact h.ite (.modCore (formed_scanRun h))
theorem formed_discard (h : Formed s) : Formed (s.discard k j e v) :=
  Formed.foldl (.modCtx h) fun _ _ h => .modCtx h
theorem formed_scanCfg (h : Formed s) : Formed (scanCfg s k j c) := by
  unfold scanCfg
  extract_lets a t n s1 c1 s2 s3
  have h2 : Formed s2 := .ite (formed_discard (.modCtx h)) (.modCtx h)
  exact .ite (formed_scanFault (.modCtx h)) (.ite (.modCtx (.modCtx h2)) (.modCtx (.modCtx h2)))

end

section
variable {s : State} {k j q i n m w v e pa fn bf sid slot : Nat} {own : Nat × Nat} {b : Bool} {x : Row} {r : OpRec}
  {c : Cmd} {op : Option Nat}

/-! #### The bindery (Chapter 15) -/

theorem formed_touches {l : List (Nat × Nat)} (h : Formed s) : Formed (s.touches l) := h.foldl fun _ _ h => formed_lpTouch h
theorem formed_setSh (h : Formed s) : Formed (s.setSh slot i v) := formed_lpWrite h
theorem formed_setSes (h : Formed s) : Formed (s.setSes sid v) := formed_lpWrite h
theorem formed_setFol (h : Formed s) : Formed (s.setFol n v) := formed_lpWrite h
theorem formed_addFree {z : Int} (h : Formed s) : Formed (s.addFree z) := h
theorem formed_addLive {z : Int} (h : Formed s) : Formed (s.addLive z) := h
theorem formed_deref (h : Formed s) : Formed (s.deref n) := h.ite (formed_setFol h)
theorem formed_addRef (h : Formed s) : Formed (s.addRef n) := h.ite (formed_setFol h)
theorem formed_freeIf (h : Formed s) : Formed (s.freeIf n) := h.ite (formed_addFree (formed_setFol h))
theorem formed_unref (h : Formed s) : Formed (s.unref n) := formed_freeIf (formed_deref h)
theorem formed_bankHit {l : List Nat} (h : Formed s) : Formed (s.bankHit c l) := h.ite (.modCtx h)
theorem formed_putBank (h : Formed s) : Formed (s.putBank k b w x) := .modCore h

/-- A list of a table without some of its entries stays in the canonical form. -/
theorem Memory.filter_wf {m : Memory} (h : m.wf = true) (p : Host.Cell → Bool) : Memory.wf (m.filter p) = true := by
  simp only [Memory.wf, tcanon, Bool.and_eq_true, List.all_eq_true] at h ⊢
  refine ⟨?_, fun e he => h.2 e (List.mem_filter.1 he).1⟩
  have hs := h.1
  clear h
  induction m with
  | nil => rfl
  | cons e r ih =>
    obtain ⟨ha, hr⟩ := (tsorted_cons e r).1 hs
    rw [List.filter_cons]
    split
    · exact (tsorted_cons _ _).2 ⟨fun f hf => ha f (List.mem_filter.1 hf).1, ih hr⟩
    · exact ih hr

theorem formed_bndInit (h : Formed s) : Formed (bndInit s) := by
  unfold bndInit
  extract_lets n st ft inTab on s1 s2 s3
  have h1 : Formed s1 := h.foldl fun _ _ h => .withStack (formed_wbLine h)
  have h2 : Formed s2 := h1.withDram (Memory.filter_wf (formed_iff.1 h1).1 _)
  have h3 : Formed s3 := h2.foldl fun s i h => h.ite (h.withDram (Memory.writeN_wf _ _ _ (formed_iff.1 h).1))
  exact h3

theorem formed_fillFolio (h : Formed s) : Formed (fillFolio s c b sid i bf).1 := by
  unfold fillFolio
  extract_lets ent s1 fn units
  have h1 : Formed s1 := formed_touches h
  split
  · exact h1
  · exact formed_bankHit (.foldl (h1.ite (formed_lpTouch h1)) fun _ _ h => .modCore h)

theorem formed_outFolio (h : Formed s) : Formed (outFolio s c b i bf).1 := by
  unfold outFolio
  extract_lets k w slot a s1 fn at_ put clean s2 rest s3
  have h1 : Formed s1 := formed_touches h
  have hput {t : State} {n : Nat} (h : Formed t) : Formed (put t n) := h.foldl fun _ _ h => formed_lpWrite h
  have hclean {t : State} (h : Formed t) : Formed (clean t) := formed_bankHit (.modCore h)
  refine .ite_fst h (.ite_fst h ?_)
  clear_value s1 put clean
  split
  · exact h1
  · have h2 : Formed s2 := formed_touches h1
    clear_value s2
    split
    · split
      · exact h2
      · exact hclean (hput h2)
    · split
      · exact h2
      · split
        · exact h2
        · refine hclean (formed_unref (formed_setSh (.foldl (hput (formed_addFree (formed_setFol (formed_touches h2)))) ?_)))
          exact fun _ _ h => formed_lpWrite h

theorem formed_forkBack (h : Formed s) : Formed (forkBack s c) := by
  unfold forkBack
  split
  · exact h.foldl fun _ _ h => formed_unref h
  · exact h
theorem formed_bndFork (h : Formed s) : Formed (bndFork s c).1 := by
  unfold bndFork
  extract_lets n back slot s1 src s2 f s3
  have h1 : Formed s1 := h.ite (formed_lpTouch h)
  have hback {t : State} {c : Cmd} (h : Formed t) : Formed (back t c).1 := formed_forkBack h
  clear_value s1 back
  split
  · split
    · exact h
    · exact h
  · split
    · split
      · exact hback h1
      · have h2 : Formed s2 := formed_touches h1
        clear_value s2
        split
        · exact hback h2
        · exact .ite_fst (hback h2) (formed_setSh (formed_addRef h2))
    · refine .ite_fst (hback h1) ?_
      split
      · exact hback h1
      · exact formed_addLive (formed_setSes h1)

theorem formed_setNf (h : Formed s) : Formed (s.setNf sid n) := formed_setSes h
theorem formed_rollFree (h : Formed s) : Formed (rollFree s c) := h.foldl fun _ _ h => formed_freeIf h
theorem formed_rollBack (h : Formed s) : Formed (rollBack s c) := by
  unfold rollBack
  extract_lets slot t
  have ht : Formed t := h.foldl fun _ _ h => h.ite (formed_unref (formed_setSh (formed_addRef h)))
  split
  · exact ht.ite (formed_setNf ht)
  · exact ht
theorem formed_bndRoll (h : Formed s) : Formed (bndRoll s c).1 := by
  unfold bndRoll
  extract_lets i s1 e p c1 back own sa ea pa rd s2 o n s3
  have h1 : Formed s1 := formed_touches h
  have hback {t : State} {c : Cmd} (h : Formed t) : Formed (back t c).1 := formed_rollBack h
  clear_value s1 back c1 e p
  refine .ite_fst (formed_rollFree h1) ?_
  split
  · split
    · exact hback h1
    · have h2 : Formed s2 := formed_touches h1
      clear_value s2
      refine .ite_fst h2 ?_
      split
      · exact hback h2
      · refine .ite_fst (hback h2) ?_
        have h3 : Formed s3 := formed_deref (formed_setSh (formed_addRef h2))
        exact .ite h3 (formed_setNf h3)
  · split
    · exact hback h1
    · exact formed_rollFree (formed_setNf h1)

theorem formed_relRest (h : Formed s) : Formed (relRest s slot n) :=
  h.foldl fun _ _ h => h.ite (formed_unref (formed_setSh h))
theorem formed_bndRel (h : Formed s) : Formed (bndRel s c).1 := by
  unfold bndRel
  extract_lets i s1 e a stop s2 f s3
  have h1 : Formed s1 := formed_touches h
  clear_value s1
  refine .ite_fst h1 ?_
  split
  · split
    · exact h1
    · have h2 : Formed s2 := formed_touches h1
      split
      · exact h2
      · exact formed_unref (formed_setSh h2)
  · split
    · exact h1
    · exact .withShelf (formed_addLive (formed_setSes (formed_relRest h1)))

theorem formed_bndPin (h : Formed s) : Formed (bndPin s c).1 := formed_setSes (formed_touches h)
theorem formed_chkRow (h : Formed s) : Formed (chkRow s c).1 :=
  formed_bankHit (formed_putBank (.ite (formed_putBank h) h))
theorem formed_bndUnit (h : Formed s) : Formed (bndUnit s c).1 :=
  .ite_fst (formed_fillFolio h) (.ite_fst (formed_outFolio h)
    (.ite_fst (.ite_fst (formed_outFolio h) (formed_fillFolio h)) (.ite_fst (formed_bndFork h) (.ite_fst (formed_bndRoll h)
      (.ite_fst (formed_bndRel h) (.ite_fst (formed_bndPin h) (formed_chkRow h)))))))
theorem formed_bndRun (h : Formed s) : Formed (bndRun n s c).1 := by
  induction n generalizing s c with
  | zero => exact h
  | succ n ih =>
    unfold bndRun
    split
    · exact h
    · exact ih (formed_bndUnit h)

theorem formed_flipTo (h : Formed s) : Formed (flipTo s k j) := by
  unfold flipTo
  dsimp only
  split
  · exact h.ite (.modCtx (.modCore h))
  · exact h
theorem formed_flipIdle (h : Formed s) : Formed (flipIdle s k) := h.foldl fun _ _ h => .ite (formed_flipTo h) h
theorem formed_flipPend (h : Formed s) : Formed (flipPend s k b sid) := formed_flipIdle (.modCore h)

theorem formed_bndStart (h : Formed s) : Formed (bndStart s q) := by
  unfold bndStart
  extract_lets cl ok
  refine h.ite ?_
  split
  · exact h
  · split
    · exact h
    · extract_lets sub st c1 s1 s2 cl'
      have h1 : Formed s1 := h.ite (formed_touches h)
      have h2 : Formed s2 := h1.ite (.modCtx h1)
      exact .setCluster h2
theorem formed_bndEnd (h : Formed s) : Formed (bndEnd s c) := by
  unfold bndEnd
  extract_lets st s1 s2 r s3
  have h1 : Formed s1 := .ite (.modCtx h) (.ite (formed_flipPend h) (.ite (formed_flipPend h) h))
  have h2 : Formed s2 := formed_flipIdle h1
  have h3 : Formed s3 := .modCtx h2
  clear_value s2 s3
  split
  · exact h2.ite h2
  · exact .ite (formed_opDone h3) (formed_opDone (formed_errRecord h3))
theorem formed_bndAdvance (h : Formed s) : Formed (bndAdvance s q i op).1 := by
  unfold bndAdvance
  split
  · exact h
  · next c _ =>
    have hr : Formed (bndRun (op.getD (bndUnits s c - c.prog)) s c).1 := formed_bndRun h
    exact .ite_fst h (.ite_fst (formed_bndEnd (.setCluster hr)) (.setCluster hr))
theorem formed_bndKill (h : Formed s) : Formed (bndKill s k j) := by
  refine .foldl (.setCluster (.modCtx h)) fun s c h => .ite (h.ite (formed_forkBack h)) (.ite (formed_rollFree h) h)
theorem formed_outAgain {y : BankCmd} (h : Formed s) : Formed (outAgain s k j y w) := by
  unfold outAgain
  split
  · exact h
  · exact h.ite (h.foldl fun _ _ h => formed_lpWrite h)
theorem formed_storeBank (h : Formed s) : Formed (storeBank s k j w x) := by
  refine formed_putBank (.foldl (.foldl (h.foldl ?again) ?mark) ?more)
  case again => exact fun _ _ h => formed_outAgain h
  case mark => exact fun _ _ h => h.ite (.modCtx h)
  case more => exact fun _ _ h => formed_putBank h
theorem formed_bndClear (h : Formed s) : Formed (bndClear s k j) := .modCtx (formed_discard h)

end

section
variable {s : State} {k j q i n m w v e d : Nat} {b : Bool} {x : Row} {r : OpRec} {c : Cmd} {op : Option Nat}
  {os : List Int}

/-! #### The copy engine (Chapter 14) -/

theorem formed_shelfTouch (h : Formed s) : Formed (s.shelfTouch n m) := by
  unfold State.shelfTouch
  split
  · exact formed_lpTouch h
  · exact h
theorem formed_tieRest (h : Formed s) : Formed (tieRest s c) := h.foldl fun _ _ h => formed_nbAdd h
theorem formed_coloClear (h : Formed s) : Formed (coloClear s c) := h.ite (h.foldl fun _ _ h => formed_storeRow h)
theorem formed_cpyEnd (h : Formed s) : Formed (cpyEnd s c) := by
  unfold cpyEnd
  extract_lets st has n s1 s2 r s3 s4
  have h1 : Formed s1 := .ite h (.ite (.ite (formed_modTile h) h) (.ite (formed_clearVal h) h))
  have h2 : Formed s2 := h1.ite (formed_tileSpoilt h1)
  have h4 : Formed s4 := formed_errRecord (formed_tieRest (formed_coloClear h2))
  clear_value s2 s4
  exact .ite (formed_opDone h2) (.ite (formed_opDone (formed_tieRest h2)) (formed_opDone h4))
theorem formed_cpyIssue (h : Formed s) : Formed (cpyIssue s k j c) := by
  unfold cpyIssue
  extract_lets x p s1 s2 t sk dk cmds x' s3
  have h1 : Formed s1 := .ite (formed_shelfTouch h) h
  have h2 : Formed s2 := .ite (formed_shelfTouch h1) h1
  have h3 : Formed s3 := .setCtx h2
  exact h3.ite (formed_cpyEnd (.modCtx h3))
theorem formed_cpyRecheck {l : List Int} (h : Formed s) : Formed (cpyRecheck s c os l).1 := by
  unfold cpyRecheck
  extract_lets rs ra rb a b s1 s2
  have h1 : Formed s1 := .ite (formed_shelfTouch h) h
  exact .ite (formed_shelfTouch h1) h1
theorem formed_endRead {y : CEnd} (h : Formed s) : Formed (s.endRead c y os).1 := .ite_fst (formed_vBytes h) (.ite_fst h h)
theorem formed_endWrite {y : CEnd} {l : List (Int × Nat)} (h : Formed s) : Formed (s.endWrite c y l).1 :=
  .ite_fst h (.ite_fst (formed_vWrite h) (.ite_fst (formed_storeRow h) (formed_modTile h)))
theorem formed_tieCount (h : Formed s) : Formed (tieCount s c n) := h.ite (h.foldl fun _ _ h => formed_nbAdd h)
theorem formed_cpyPut {o : Int} {l : List Nat} {f : Nat → Bool} (h : Formed s) : Formed (cpyPut s c o l f n).1 := by
  unfold cpyPut
  extract_lets e vs r
  have hr : Formed r.1 := by
    refine .ite_fst ?_ (formed_endWrite h)
    exact Formed.foldl_pair h fun _ _ h => formed_endWrite h
  clear_value r
  split
  · exact formed_tieCount hr
  · exact hr
theorem formed_affineBeat (h : Formed s) : Formed (affineBeat s c n).1 := by
  unfold affineBeat
  extract_lets offs pc so dof ds q s1 c1 r dd e fr
  have h1 : Formed s1 := formed_cpyRecheck h
  have hr : Formed r.1 := .ite_fst h1 (formed_endRead h1)
  clear_value s1 r
  refine .ite_fst h (.ite_fst h1 ?_)
  split
  · exact hr
  · exact formed_cpyPut hr
theorem formed_zNext {z : ZDec} (h : Formed s) : Formed (zNext c n s z).1 := by
  induction n generalizing s z with
  | zero => exact h
  | succ n ih =>
    unfold zNext
    extract_lets clen
    refine .ite_fst h (.ite_fst h (.ite_fst (.ite_fst h ?lit) (.ite_fst h ?head)))
    case lit =>
      have hr : Formed (s.endRead c c.srcEnd [(z.pos : Int)]).1 := formed_endRead h
      split
      case h_1 hx => rw [hx] at hr; exact hr
      case h_2 hx =>
        rw [hx] at hr
        exact .ite_fst hr (.ite_fst hr (ih hr))
    case head =>
      have hr : Formed (s.endRead c c.srcEnd [(z.pos : Int), (z.pos + 1 : Nat)]).1 := formed_endRead h
      split
      case h_1 hx => rw [hx] at hr; exact hr
      case h_2 hx =>
        rw [hx] at hr
        exact .ite_fst (ih hr) (.ite_fst hr hr)
theorem formed_zTake {z : ZDec} (h : Formed s) : Formed (zTake c n s z).1 := by
  induction n generalizing s z with
  | zero => exact h
  | succ n ih =>
    have hz : Formed (zNext c 4 s z).1 := formed_zNext h
    unfold zTake
    split
    case h_1 hx => rw [hx] at hz; exact hz
    case h_2 hx => rw [hx] at hz; exact ih hz
theorem formed_codedBeat (h : Formed s) : Formed (codedBeat s c n).1 := by
  unfold codedBeat
  extract_lets last pc ds e twice t r q s1 c1
  have hr : Formed r.1 := by
    refine .ite_fst (formed_zTake h) ?_
    have he : Formed (s.endRead c c.srcEnd ds).1 := formed_endRead h
    split
    case h_1 hx => rw [hx] at he; exact he
    case h_2 hx => rw [hx] at he; exact he
  have h1 : Formed s1 := formed_cpyRecheck hr
  clear_value s1 r
  refine .ite_fst h (.ite_fst h1 ?_)
  split
  · exact h1
  · refine .ite_fst h1 (.ite_fst (formed_cpyPut h1) ?_)
    split
    · exact formed_cpyPut h1
    · exact formed_cpyPut h1
theorem formed_copyBeat (h : Formed s) : Formed (copyBeat s k i op) := by
  unfold copyBeat
  split
  · exact h
  · exact .ite (h.ite (.modCore h)) (.ite h (.ite (.modCore (formed_codedBeat h)) (h.ite (.modCore (formed_affineBeat h)))))
theorem formed_releaseRing (h : Formed s) : Formed (releaseRing s k j n) := .modCtx h
theorem formed_endStreams {f : Stream → Bool} (h : Formed s) : Formed (endStreams s k f) :=
  .foldl (.modCore h) fun _ _ h => formed_releaseRing h
theorem formed_cpyBegin (h : Formed s) : Formed (cpyBegin s k c) := by
  refine h.ite (.ite (h.ite (.modCore h)) (.ite (h.ite (.modCore ?ring)) (.ite (formed_endStreams h) h)))
  exact .ite (.modCtx h) (formed_ringProduced (.modCtx h))
theorem formed_copyStart (h : Formed s) : Formed (copyStart s k) := by
  unfold copyStart
  extract_lets c hd first
  refine h.ite ?_
  split
  · exact h
  · split
    · exact h
    · exact .modCore (formed_cpyBegin (.modCtx h))
theorem formed_copyComplete (h : Formed s) : Formed (copyComplete s k i) := by
  unfold copyComplete
  split
  · exact h
  · exact h.ite (formed_cpyEnd (.modCore h))
theorem formed_copyKill (h : Formed s) : Formed (copyKill s k j) := by
  unfold copyKill
  extract_lets s1 dead s2 untie s3
  have h3 : Formed s3 := h
  exact formed_endStreams h3
theorem formed_copyClear (h : Formed s) : Formed (copyClear s k j) := .foldl (.modCtx h) fun _ _ h => formed_cpyEnd h
theorem formed_circuitSend (h : Formed s) : Formed (circuitSend s k n) := by
  unfold circuitSend
  dsimp only
  split
  · exact h
  · split
    · exact h
    · exact h.ite (.modCore (.modCore h))
theorem formed_landRow (h : Formed s) : Formed (landRow s k i) := by
  unfold landRow
  split
  · exact h
  · refine h.ite ?_
    extract_lets s1 s2 s3 s4
    have h2 : Formed s2 := formed_storeRow (.modCore h)
    have h3 : Formed s3 := by
      unfold s3
      split
      · exact formed_nbAdd h2
      · exact h2
    have h4 : Formed s4 := .modCore h3
    clear_value s4
    split
    · exact .modCore h4
    · exact h4
theorem formed_circuitLand (h : Formed s) : Formed (circuitLand s k) := by
  unfold circuitLand
  split
  · exact formed_landRow h
  · exact h

theorem formed_streamFault {t : Stream} (h : Formed s) : Formed (streamFault s t n m) := .modCtx (formed_errRecord h)
theorem formed_streamCheck {t : Stream} {o : Int} (h : Formed s) : Formed (streamCheck s t o).1 := formed_cpyRecheck h
theorem formed_streamRow (h : Formed s) : Formed (streamRow s k i) := by
  unfold streamRow
  split
  · exact h
  · extract_lets c x r n offs row' more i w r' fillAt s1 q e fill d _ i' w' v v' bad drainAt s2 q' s3 e' l first d'
    have hmore {s : State} {c : Cmd} {b : Bool} (h : Formed s) : Formed (more s c b) :=
      .ite (formed_releaseRing (.modCore (.modCore h))) (.modCore h)
    have hfill {s : State} {v m : Nat} (h : Formed s) : Formed (fill s v m) :=
      formed_ringProduced (.modCtx (formed_storeRow h))
    have h1 : Formed s1 := formed_streamCheck h
    have hd : Formed d.1 := formed_endRead h1
    have h3 : Formed s3 := .modCtx (formed_mxTouch (formed_streamCheck h))
    have hd' : Formed d'.1 := by
      have he : Formed (s3.endWrite c e' (l.filter first)).1 := formed_endWrite h3
      unfold d'
      split
      case h_1 hx => rw [hx] at he; exact formed_endWrite he
      case h_2 => exact he
    clear_value more fill s1 d s3 d'
    split
    · refine h.ite (.ite (hmore (formed_streamFault (hfill h1))) ?_)
      split
      · exact hmore (hfill hd)
      · exact hmore (formed_streamFault (hfill hd))
    · refine h.ite (.ite (hmore (formed_streamFault h3)) (.ite (hmore (formed_streamFault h3)) ?_))
      split
      · exact hmore hd'
      · exact hmore (formed_streamFault hd')
end

section
variable {s : State} {k j q i n m w v e u d va fn slot die goff nv : Nat} {clash b : Bool} {x mask : Row} {r : OpRec}
  {c : Cmd} {op : Option Nat} {chain : List Nat}

/-! #### The generation engines (Chapters 16 and 17) -/

theorem formed_gBind {α β : Type} {r : GRes α} {f : State → α → GRes β} (h : Formed r.1)
    (hf : ∀ s a, Formed s → Formed (f s a).1) : Formed (gBind r f).1 := by
  unfold gBind
  split
  · exact hf _ _ h
  · exact h
theorem formed_gRead (h : Formed s) : Formed (gRead c s va n).1 := by
  have hb : Formed (s.vBytes (clusterOf c.core) c.vf c.priv none ((List.range n).map fun i => ((va + i : Nat) : Int))).1 :=
    formed_vBytes h
  unfold gRead
  split
  case h_1 hx => rw [hx] at hb; exact hb
  case h_2 hx => rw [hx] at hb; exact hb
theorem formed_gReads {l : List (Nat × Nat)} (h : Formed s) : Formed (gReads c s l).1 := by
  induction l generalizing s with
  | nil => exact h
  | cons p l ih =>
    have hr : Formed (gRead c s p.1 p.2).1 := formed_gRead h
    unfold gReads
    split
    case h_1 hx => rw [hx] at hr; exact hr
    case h_2 hx => rw [hx] at hr; exact ih hr
theorem formed_gWords (h : Formed s) : Formed (gWords c s va n m).1 := by
  have hr : Formed (gReads c s (wordsAt va n m)).1 := formed_gReads h
  unfold gWords
  split
  case h_1 hx => rw [hx] at hr; exact hr
  case h_2 hx => rw [hx] at hr; exact hr
theorem formed_gWrite (h : Formed s) : Formed (gWrite c s va n v).1 := by
  refine Formed.foldl_pair h fun p i hp => ?_
  dsimp only
  split
  · next s' _ =>
    split
    case h_1 hx => exact congrArg Prod.fst hx ▸ formed_vWrite (s := s') hp
    case h_2 hx => exact congrArg Prod.fst hx ▸ formed_vWrite (s := s') hp
  · exact hp
theorem formed_chainOut (h : Formed s) : Formed (chainOut s c).1 := by
  refine .ite_fst h (Formed.foldl_pair h fun p i hp => ?_)
  split
  · exact hp
  · have hx : Formed (p.1.xlNow (clusterOf c.core) c.vf (va52 (c.bf 24 8 + 64 * i)) false c.priv).1 := formed_xlNow hp
    dsimp only
    split
    case h_1 he => rw [he] at hx; exact hx
    case h_2 he => rw [he] at hx; exact hx
theorem formed_gLists (h : Formed s) : Formed (gLists s c).1 := by
  have ho : Formed (if c.eng = 3 then chainOut s c else (s, none)).1 := .ite_fst (formed_chainOut h) h
  unfold gLists
  split
  case h_1 hx => rw [hx] at ho; exact ho
  case h_2 hx => rw [hx] at ho; exact formed_gReads ho
theorem formed_entryOf (h : Formed s) : Formed (entryOf c s k).1 := formed_gRead h
theorem formed_stages (h : Formed s) : Formed (stages c s chain e k goff nv).1 := by
  unfold stages
  extract_lets f
  refine formed_gBind (formed_gWords h) fun s ls h => ?_
  extract_lets q q'
  refine formed_gBind ?bias fun s q h => formed_gBind ?mask fun s q h => .ite_fst h ?repetition
  case bias =>
    split
    · exact formed_gBind (formed_gWords h) fun _ _ h => h
    · exact h
  case mask =>
    split
    · exact .ite_fst h (formed_gBind (formed_gWords h) fun _ _ h => h)
    · exact h
  case repetition =>
    split
    · exact h
    · refine formed_gBind (Formed.foldl_pair h fun p i hp => ?_) fun s hist h => ?_
      · exact formed_gBind hp fun s l h => formed_gBind (formed_gRead h) fun _ _ h => h
      · exact formed_gBind (.ite_fst (formed_gBind (formed_gWords h) fun _ _ h => h) h) fun _ _ h => h
theorem formed_runReq (h : Formed s) : Formed (runReq c s chain k).1 :=
  formed_gBind (formed_entryOf h) fun _ _ h => .ite_fst h (formed_gBind (formed_stages h) fun _ _ h => .ite_fst h (.ite_fst h h))
theorem formed_shardReq (h : Formed s) : Formed (shardReq c s chain k).1 :=
  formed_gBind (formed_entryOf h) fun _ _ h => .ite_fst h (formed_gBind (formed_stages h) fun _ _ h => .ite_fst h (.ite_fst h h))
theorem formed_mergeReq (h : Formed s) : Formed (mergeReq c s chain k).1 := by
  refine formed_gBind (formed_entryOf h) fun s e h => .ite_fst h (formed_gBind (formed_gWords h) fun s bases h => ?_)
  refine formed_gBind (Formed.foldl_pair h fun p b hp => ?_) fun s rs h => .ite_fst h (.ite_fst h h)
  exact formed_gBind hp fun s l h => formed_gBind (formed_gRead h) fun _ _ h => h
theorem formed_smpUnit (h : Formed s) : Formed (smpUnit s c).1 := by
  unfold smpUnit
  extract_lets k sz r
  have hr : Formed r.1 := formed_gBind (.ite_fst (formed_runReq h) (.ite_fst (formed_shardReq h) (formed_mergeReq h)))
    fun _ _ h => formed_gWrite h
  clear_value r
  split
  · exact hr
  · exact hr

theorem formed_readNode (h : Formed s) : Formed (readNode s c n b m d clash).1 := by
  have hr : Formed (gRead c s (c.bf 0 8 + 32 * n) 32).1 := formed_gRead h
  unfold readNode
  split
  case h_1 hx => rw [hx] at hr; exact hr
  case h_2 hx => rw [hx] at hr; exact hr
theorem formed_addKids {y : Walker} (h : Formed s) : Formed (addKids c v m d u s n y).1 := by
  induction u generalizing s n y with
  | zero => exact h
  | succ f ih =>
    have hr : Formed (readNode s c n false v d (y.seen.contains n)).1 := formed_readNode h
    refine .ite_fst h ?_
    split
    case h_1 hx => rw [hx] at hr; exact hr
    case h_2 hx => rw [hx] at hr; exact ih hr
theorem formed_walkSome {y : Walker} (h : Formed s) : Formed (walkSome c u s y).1 := by
  induction u generalizing s y with
  | zero => exact h
  | succ f ih =>
    unfold walkSome
    split
    · exact h
    · extract_lets en w1 k
      have hk : Formed k.1 := .ite_fst (formed_addKids h) h
      clear_value k
      refine .ite_fst h (.ite_fst h ?_)
      split
      · exact hk
      · next s' y' =>
        have hs : Formed (walkSome c f s' y').1 := ih hk
        split
        case h_1 hx => rw [hx] at hs; exact hs
        case h_2 hx => rw [hx] at hs; exact hs
theorem formed_nwUnit (h : Formed s) : Formed (nwUnit s c).1 := by
  unfold nwUnit
  extract_lets hnd r q emit fill w start res
  have hfill {s : State} {v m : Nat} (h : Formed s) : Formed (fill s v m) := formed_ringProduced (.modCtx (formed_storeRow h))
  have hstart : Formed start.1 := by
    refine .ite_fst ?_ h
    have hr : Formed (readNode s c 0 true 0 0 false).1 := formed_readNode h
    split
    case h_1 hx => rw [hx] at hr; exact hr
    case h_2 hx => rw [hx] at hr; exact hr
  clear_value start fill
  have hres : Formed res.1 := by
    unfold res
    split
    · exact hstart
    · exact formed_walkSome hstart
  clear_value res
  refine .ite_fst h ?_
  split
  · exact .ite hres (hfill hres)
  · exact .ite_fst hres (.ite_fst (hfill hres) hres)
theorem formed_accUnit (h : Formed s) : Formed (accUnit s c).1 := by
  have hes : Formed (gWords c s (c.bf 0 8) 32 (c.bf 24 4)).1 := formed_gWords h
  have hw : Formed (gWrite c s (c.bf 16 8) (64 + 8 * c.idx) (c.de + (if c.sub = 1 then 2 ^ 101 else 0))).1 := formed_gWrite h
  unfold accUnit
  dsimp only
  refine .ite_fst ?first (.ite_fst h ?last)
  case first =>
    split
    case h_1 hx => rw [hx] at hes; exact hes
    case h_2 s' _ hx =>
      rw [hx] at hes
      have hrs : Formed (gWords c s' (c.bf 8 8) 256 (c.bf 24 4)).1 := formed_gWords hes
      split
      case h_1 hx => rw [hx] at hrs; exact hrs
      case h_2 hx =>
        rw [hx] at hrs
        exact hrs.foldl fun _ _ h => .withNextKey (.setCluster h)
  case last =>
    split
    case h_1 hx => rw [hx] at hw; exact hw
    case h_2 hx =>
      rw [hx] at hw
      exact .ite (hw.foldl fun _ _ h => formed_nbAdd h) hw
theorem formed_emitUnit (h : Formed s) : Formed (emitUnit s c).1 := by
  unfold emitUnit
  extract_lets f r0 pc n i j last res
  have hr : Formed res.1 := by
    refine .ite_fst (formed_gWrite h) (formed_gBind (formed_gRead h) fun s tok h => formed_gBind (formed_gRead h) fun s slot h => ?_)
    exact .ite_fst (formed_gWrite h) (.ite_fst (formed_gWrite h) (formed_gWrite h))
  clear_value res
  split
  · exact hr
  · exact hr
theorem formed_trimUnit (h : Formed s) : Formed (trimUnit s c).1 := h
theorem formed_trimLand (h : Formed s) : Formed (trimLand s i) := by
  unfold trimLand
  split
  · exact h
  · next t _ =>
    have h1 : Formed { s with trims := dropAt s.trims i } := h
    exact h.ite (Formed.ite h1 (.setCtx h1) : Formed (ite _ _ _))
theorem formed_nwStep (h : Formed s) : Formed (nwStep s c).1 :=
  .ite_fst (formed_releaseRing (formed_nwUnit h)) (formed_nwUnit h)
theorem formed_genUnit (h : Formed s) : Formed (genUnit s c).1 :=
  .ite_fst (formed_smpUnit h) (.ite_fst (formed_nwStep h) (.ite_fst (formed_accUnit h) (.ite_fst (formed_emitUnit h)
    (formed_trimUnit h))))
theorem formed_genRun (h : Formed s) : Formed (genRun n s c).1 := by
  induction n generalizing s c with
  | zero => exact h
  | succ n ih => exact .ite_fst h (ih (formed_genUnit h))
theorem formed_genBegin (h : Formed s) : Formed (genBegin s die c).1 := by
  unfold genBegin
  extract_lets c'
  have hl : Formed (gLists s c').1 := formed_gLists h
  split
  case h_1 hx => rw [hx] at hl; exact hl
  case h_2 hx =>
    rw [hx] at hl
    exact .ite_fst hl (.ite_fst hl (.ite_fst (formed_ringProduced (.modCtx hl)) hl))
theorem formed_setDie {y : Die} (h : Formed s) : Formed (s.setDie die y) := h
theorem formed_genStart (h : Formed s) : Formed (genStart s die e) := by
  unfold genStart
  extract_lets d hd from_
  refine h.ite ?_
  split
  · exact h
  · split
    · exact h
    · exact formed_setDie (formed_genBegin (.modCtx h))
theorem formed_genEnd (h : Formed s) : Formed (genEnd s c) := by
  unfold genEnd
  extract_lets st a s1 r' v
  have h1 : Formed s1 := .ite (h.foldl fun _ _ h => formed_nbAdd h) h
  exact .ite (formed_opDone (formed_errRecord h1)) (formed_opDone h1)
theorem formed_genAdvance (h : Formed s) : Formed (genAdvance s die i op) := by
  unfold genAdvance
  split
  · exact h
  · exact .ite (formed_genEnd (formed_setDie (formed_genRun h))) (formed_setDie (formed_genRun h))
theorem formed_restoreDone (h : Formed s) : Formed (restoreDone s c) := h.ite (h.foldl fun _ _ h => formed_setDie h)
theorem formed_genKill (h : Formed s) : Formed (genKill s k j) := by
  refine .foldl (h.foldl fun _ _ h => .modCtx h) fun s n h => ?_
  exact formed_setDie (h.foldl fun _ _ h => formed_genRun h)

theorem formed_engineIssue {a z : Word} (h : Formed s) : Formed (engineIssue s k j e fn a z x) :=
  .ite (formed_cpyIssue h) (.ite (.modCtx h) (.ite (.modCtx h) (.modCtx h)))
theorem formed_engineClear (h : Formed s) : Formed (engineClear s k j e) :=
  .ite (formed_copyClear h) (.ite (formed_bndClear h) (.modCtx (formed_discard h)))
end

section
variable {s : State} {k j q i n m w v key pa va fn slot kern cause info : Nat} {own : Nat × Nat} {b : Bool}
  {r : OpRec} {op : Option Nat} {t : Addr}

/-! #### Waits, the arbiter and what a context's end leaves (R94 to R112, R385 to R397) -/

theorem formed_l1Discard {f : L1Line → Bool} (h : Formed s) : Formed (s.l1Discard k f) := .modCore h
theorem formed_l1Fresh (h : Formed s) : Formed (l1Fresh s k) := formed_l1Discard h
theorem formed_l1Observe (h : Formed s) : Formed (s.l1Observe k j) := .modCore h
theorem formed_acquire (h : Formed s) : Formed (acquire s k j) := formed_l1Fresh (formed_l1Observe h)
theorem formed_flushPages {f : Nat → Bool} {y : Nat × L1Line → Bool} (h : Formed s) : Formed (flushPages s f y) :=
  h.foldl fun _ _ h => .ite (h.foldl fun _ _ h => formed_l1Flush h) h
theorem formed_waitFinish {y : Wait} (h : Formed s) : Formed (waitFinish s k j y) := by
  unfold waitFinish
  split
  case h_1 => exact .ite (formed_l1Release h) h
  case h_2 => exact formed_acquire h
  case h_3 => exact formed_acquire h
  case h_4 => exact formed_acquire h
  case h_5 => exact formed_flushPages h
  case h_6 => exact formed_flushPages h
  case h_7 => exact formed_l1Fresh (.modCtx h)
  all_goals exact h
theorem formed_waitEnd (h : Formed s) : Formed (waitEnd s k j) :=
  h.ite (.foldl (.modCtx h) fun _ _ h => formed_waitFinish h)
theorem formed_setCore {y : Core} (h : Formed s) : Formed (s.setCore k y) := h
theorem formed_arbSelect (h : Formed s) : Formed (arbSelect s k) := by
  unfold arbSelect
  dsimp only
  split
  · exact formed_setCore h
  · exact .modCtx (formed_setCore h)
theorem formed_wakeCore (h : Formed s) : Formed (wakeCore s k) := .ite (formed_arbSelect h) h
theorem formed_yieldApply (h : Formed s) : Formed (yieldApply s k j) := formed_flipTo (.modCtx h)

/-! #### Banks, tasks and their ends (R381 to R397, R427) -/

theorem formed_bankSave (h : Formed s) : Formed (bankSave s k j n).1 := by
  unfold bankSave
  extract_lets pa
  split
  · exact h
  · exact h.foldl fun _ _ h => formed_lpWrite h
theorem formed_applyIn (h : Formed s) : Formed (applyIn s k j) := .ite (.foldl (.modCtx h) fun _ _ h => formed_putD h) h
theorem formed_startWrite {y : Word} (h : Formed s) : Formed (startWrite s k j n y) := .ite (formed_applyIn (.modCtx h)) h
theorem formed_landBank (h : Formed s) : Formed (landBank s k w n) := by
  refine h.foldl fun s i h => ?_
  split
  · exact .ite (formed_landEarly h) h
  · exact h
theorem formed_modKernel {f : Kernel → Kernel} (h : Formed s) : Formed (s.modKernel n f) := h
theorem formed_modCluster {f : Cluster → Cluster} (h : Formed s) : Formed (s.modCluster q f) := h
theorem formed_taskOver (h : Formed s) : Formed (taskOver s q kern op) := by
  unfold taskOver
  split
  · exact formed_modCluster h
  · exact formed_modKernel h
theorem formed_dropWalks (h : Formed s) : Formed (s.dropWalks k j) := h
theorem formed_freeCtx (h : Formed s) : Formed (freeCtx s k j) := formed_flipIdle (formed_dropWalks (.modCtx h))
theorem formed_taskGone (h : Formed s) : Formed (taskGone s k j) :=
  .ite (formed_taskOver (formed_modKernel h)) (formed_modCluster (formed_modKernel h))
theorem formed_terminate (h : Formed s) : Formed (terminate s k j cause info) := by
  unfold terminate
  extract_lets y fn s1 s2 s3 s4 s5 s6
  have h1 : Formed s1 := formed_fneRecord h
  have h2 : Formed s2 := formed_genKill (formed_bndKill (formed_copyKill (formed_scanKill h1)))
  clear_value s2
  have h3 : Formed s3 := .modCore h2
  have h4 : Formed s4 := h3.foldl fun _ _ h => .modCore h
  clear_value s4
  have h6 : Formed s6 := formed_freeCtx (.modCtx (formed_taskGone h4))
  exact h.ite (.ite (formed_arbSelect h6) h6)
theorem formed_beginEnd (h : Formed s) : Formed (beginEnd s k j n) := by
  unfold beginEnd
  extract_lets s1 s2
  have h2 : Formed s2 := formed_flipIdle (formed_endStreams (.modCtx h))
  exact .ite (formed_arbSelect h2) h2
theorem formed_pushResume {y : Frame} (h : Formed s) : Formed (pushResume s q y t) := formed_modCluster h
theorem formed_suspend (h : Formed s) : Formed (suspend s k j) := by
  unfold suspend
  extract_lets y q rows
  split
  · exact h
  · extract_lets banks f now_
    split
    · exact formed_terminate h
    · extract_lets s1 s2 s3 s4
      have h2 : Formed s2 := formed_storeRow (h.foldl fun _ _ h => h.foldl fun _ _ h => formed_storeRow h)
      have h3 : Formed s3 := formed_modCluster h2
      exact formed_freeCtx (.ite (formed_pushResume h3) h3)
theorem formed_endTry (h : Formed s) : Formed (endTry s k j) := by
  unfold endTry
  extract_lets y open_ s1 s2
  have h2 : Formed s2 := .modCtx (formed_taskOver (formed_l1Release (formed_landAll (formed_touchAll h))))
  exact h.ite (.ite (h.ite (formed_freeCtx h)) (h.ite (.ite (h2.ite (formed_freeCtx h2))
    (h.ite (formed_suspend (formed_landAll (formed_touchAll (formed_waitEnd h))))))))
theorem formed_takeFrame {y : Kernel} {p : BitVec 6} {z : BitVec 48} {a : State × Nat} (h : Formed s)
    (ha : takeFrame s q y op p z = some a) : Formed a.1 := by
  obtain ⟨r, -, rfl⟩ := Option.map_eq_some_iff.1 ha
  exact formed_storeRow (.setCluster h)
theorem formed_startTask {y : Kernel} {p : BitVec 6} {z : BitVec 48} {s1 s2 : Option Word} {f : BitVec 56} (h : Formed s) :
    Formed (startTask s k j y t p z op s1 s2 f) := by
  unfold startTask
  extract_lets task ctl rings sa sb sc sd
  have hb : Formed sb := .setReg (.modCtx h)
  have hc : Formed sc := by
    unfold sc
    split
    · exact hb
    · exact hb.foldl fun _ _ h => .ite (.modCtx (.modCore h)) h
  have hd : Formed sd := by
    unfold sd
    split
    · exact formed_startWrite hc
    · exact hc
  split
  · exact formed_startWrite hd
  · exact hd

theorem formed_prepBank (h : Formed s) : Formed (prepBank s k j n) := by
  unfold prepBank
  extract_lets tag y z s0 s1 own
  have h1 : Formed s1 := by
    refine h.ite ?_
    have hb : Formed (bankSave s0 k z n).1 := formed_bankSave (formed_landBank h)
    split
    case h_1 hx => rw [hx] at hb; exact formed_terminate hb
    case h_2 hx => rw [hx] at hb; exact .modCtx hb
  have hown {t : State} (h : Formed t) : Formed (own t) := .modCtx (.modCore h)
  clear_value s1 own
  refine h.ite (.ite ?_ (.ite ?_ (hown h1)))
  · split
    · exact hown (.modCore h1)
    · exact hown h1
  · split
    · exact formed_terminate h1
    · exact hown (.modCore h1)
theorem formed_prepBanks (h : Formed s) : Formed (prepBanks s k j) := formed_applyIn (h.foldl fun _ _ h => formed_prepBank h)
theorem formed_bankPrep (h : Formed s) : Formed (bankPrep s k) := by
  unfold bankPrep
  dsimp only
  split
  · exact h.ite (.ite (.modCtx (.modCore (formed_prepBanks h))) (formed_prepBanks h))
  · exact h

/-! #### Wakes, holds and traps (R387, R396, R423, R440) -/

theorem formed_wakeAt (h : Formed s) : Formed (wakeAt s k j t) := .modCtx h
theorem formed_arrStart (h : Formed s) : Formed (arrStart s k) := by
  unfold arrStart
  split
  · exact h
  · split
    · exact h
    · exact formed_startWrite (formed_startWrite (.modCtx (formed_wakeAt (.modCore h))))
theorem formed_arrAll (h : Formed s) : Formed (arrAll s k) := h.foldl fun _ _ h => formed_arrStart h
theorem formed_wakeCtx (h : Formed s) : Formed (wakeCtx s k j t) := by
  unfold wakeCtx
  extract_lets s1 y
  have h1 : Formed s1 := .ite (formed_arrAll h) h
  refine h1.ite ?_
  split
  · exact .ite (.modCtx h1) (formed_acquire (formed_wakeAt h1))
  · exact .modCtx h1
  · exact h1
theorem formed_sleepCtx (h : Formed s) : Formed (sleepCtx s k j) := by
  unfold sleepCtx
  extract_lets s1 s2 s3 s4
  have h1 : Formed s1 := formed_yieldApply h
  split
  · exact formed_acquire (formed_wakeAt h1)
  · have h3 : Formed s3 := formed_flipIdle (.modCtx h1)
    exact formed_arrStart (.ite (formed_arbSelect h3) h3)
theorem formed_holdCtx (h : Formed s) : Formed (holdCtx s k j b) := by
  unfold holdCtx
  extract_lets y s1
  refine h.ite (.ite (.modCtx h) ?_)
  split
  · exact formed_acquire (formed_wakeAt (.modCtx h))
  · exact .modCtx h
theorem formed_trapEnter {y : TrapWait} (h : Formed s) : Formed (trapEnter s k j y) :=
  .modCtx (formed_dropWalks (.foldl (formed_landAll (formed_touchAll h)) fun _ _ h => formed_waitFinish h))
theorem formed_trapTry (h : Formed s) : Formed (trapTry s k j) := by
  unfold trapTry
  split
  · exact .ite (formed_trapEnter h) h
  · exact h
theorem formed_trapTake {y : TrapWait} (h : Formed s) : Formed (trapTake s k j y) :=
  .ite (formed_terminate (.modCtx h)) (formed_trapTry (.modCtx h))
theorem formed_rfe (h : Formed s) : Formed (rfe s k j t) := .modCtx h
theorem formed_barrierUpdate (h : Formed s) : Formed (barrierUpdate s k n) :=
  h.ite (.foldl (formed_setCore h) fun _ _ h => .ite (.modCtx h) h)

/-! #### Posted accesses (R177 to R191) -/

theorem formed_accDone {a : Acc} (h : Formed s) : Formed (accDone s k j i a) := by
  unfold accDone
  extract_lets s1
  have h1 : Formed s1 := .modCtx h
  split
  · exact h1
  · exact h1.ite h1
theorem formed_accReturn (h : Formed s) : Formed (accReturn s k j key v) := .modCtx h
/-- A store past the stacks writes LPDDR 6 itself (R180). -/
theorem Formed.withUnits {y : Tab Bool} (h : Formed s) : Formed { s with dram := s.dram.writeN pa v n, badUnits := y } :=
  formed_iff.2 ⟨Memory.writeN_wf _ _ _ (formed_iff.1 h).1, (formed_iff.1 h).2⟩
theorem formed_accWrite {a : Acc} (h : Formed s) : Formed (accWrite s k j a v) := by
  unfold accWrite
  split
  · exact formed_storeRow h
  · extract_lets p s1 s2 whole
    have h1 : Formed s1 := .ite (formed_l1Evict h) h
    have h2 : Formed s2 := formed_lpClean h1
    clear_value s1 s2
    exact .ite (formed_l1Write h) (.ite h1 (.ite (.ite h2 (.ite h2 (formed_tableSoft (.withUnits h2)))) (formed_physWrite h1)))
  · exact h
theorem formed_accRead {a : Acc} (h : Formed s) : Formed (accRead s k a).1 := by
  unfold accRead
  split
  · exact h
  · extract_lets p s1
    have h1 : Formed s1 := .ite (formed_l1Evict h) h
    exact .ite_fst h1 (formed_physTouch h1)
  · exact h
theorem formed_accTouch {a : Acc} (h : Formed s) : Formed (accTouch s a) := by
  unfold accTouch
  split
  · exact formed_mxTouch h
  · exact h
theorem formed_ldgRow {a : Acc} (h : Formed s) : Formed (ldgRow s k j n slot a va) := by
  have hx : Formed (if va / 2 ^ 52 ≠ 0 then (s, Xr.fault 7 0) else s.xlNow (clusterOf k) a.fn va false a.priv).1 :=
    .ite_fst h (formed_xlNow h)
  unfold ldgRow
  extract_lets r fin bad
  have hfin {s : State} {m v : Nat} (h : Formed s) : Formed (fin s m v) := formed_ringProduced (.modCtx (formed_storeRow h))
  have hbad {s : State} {m v : Nat} (h : Formed s) : Formed (bad s m v) := hfin (formed_errRecord h)
  clear_value fin bad
  split
  case h_1 he =>
    rw [he] at hx
    exact .ite (.ite (hbad hx) (hfin (formed_l1Read hx))) (.ite (hbad hx) (hfin hx))
  case h_2 he => rw [he] at hx; exact hbad hx
theorem formed_accPerform {a : Acc} (h : Formed s) : Formed (accPerform s k j a) := by
  have hr : Formed (accRead (accTouch s a) k a).1 := formed_accRead (formed_accTouch h)
  unfold accPerform
  extract_lets rel
  have hrel : Formed (rel s) := .ite (formed_l1Release h) h
  clear_value rel
  split
  case h_1 => exact formed_accWrite h
  case h_2 => exact formed_accWrite h
  case h_3 => exact formed_accWrite hrel
  case h_4 => exact .ite (formed_l1Fresh hrel) h
  case h_5 => exact formed_l1FlushIf h
  case h_6 => exact formed_nbAdd hrel
  case h_7 => exact formed_wakeCtx hrel
  case h_8 =>
    split
    case h_1 he => rw [he] at hr; exact formed_accReturn hr
    case h_2 he => rw [he] at hr; exact hr
  case h_9 =>
    split
    case h_1 he => rw [he] at hr; exact formed_accReturn (.ite (formed_acquire hr) (.ite (formed_l1Observe hr) hr))
    case h_2 he => rw [he] at hr; exact hr
  case h_10 =>
    refine .ite h ?_
    split
    case h_1 he =>
      rw [he] at hr
      exact .ite (formed_accReturn (formed_accWrite hr)) (formed_accWrite hr)
    case h_2 he => rw [he] at hr; exact hr
  case h_11 =>
    split
    · exact formed_ldgRow h
    · exact h
theorem formed_accGo {f : Acc → Bool} (h : Formed s) : Formed (accGo s k j i f) := by
  unfold accGo
  split
  · exact h
  · exact .ite (formed_accPerform (formed_accDone h)) h
end

section
variable {s : State} {k j q i n m w v e d key pa fn page slot bc base word : Nat} {b : Bool} {x mask : Row} {c : Cmd}
  {op lit : Option Nat} {t : Addr}

/-! #### Issue and commit (R88 to R93, R288 to R304) -/

theorem formed_fetchTouch (h : Formed s) : Formed (s.fetchTouch k j n) := by
  unfold State.fetchTouch
  split
  · exact formed_lpTouch h
  · exact h
theorem formed_rwLoad (h : Formed s) : Formed (rwLoad s k n) := by
  unfold rwLoad
  extract_lets s1
  have h1 : Formed s1 := .modCore h
  split
  · exact .modCore h1
  · exact .modCore h1
theorem formed_rwInval (h : Formed s) : Formed (rwInval s k op) := .modCore (.modCore h)
theorem formed_withRegs {l : List (Dest × Word)} (h : Formed s) : Formed (s.withRegs k j l) :=
  .foldl (.modCtx h) fun _ _ h => formed_putD h
theorem formed_rwStage (h : Formed s) : Formed (rwStage s k j).1 := by
  refine .ite_fst h ?_
  split
  · exact .modCtx h
  · exact .modCtx h
theorem formed_checked {p : Plan} (h : Formed s) : Formed (p.checked s k j) := .modCtx (.modCore h)
theorem formed_landNow (h : Formed s) : Formed (landNow s k j) := by
  unfold landNow
  extract_lets n s1 new s2
  have h1 : Formed s1 := formed_mxForce h
  have h2 : Formed s2 := .ite h1 (.modCtx h1)
  exact formed_landDue (formed_touchDue h2)
theorem Formed.tick (h : Formed s) : Formed s.tick := h
theorem Formed.withIss {y : Issue} (h : Formed s) : Formed { s with iss := y } := h
theorem formed_openIssue (h : Formed s) : Formed (openIssue s k j word lit b) :=
  .withIss (formed_landNow (formed_waitEnd (.tick h)))
theorem formed_padStore (h : Formed s) : Formed (padStore s k j w mask x) := formed_storeRow h
theorem formed_ringAdvance (h : Formed s) : Formed (ringAdvance s k j n m v w) := by
  unfold ringAdvance
  extract_lets r gone s1 r' s2
  have h2 : Formed s2 := .modCtx (h.foldl fun _ _ h => formed_mxTouch h)
  exact .ite h2 (formed_ringProduced h2)
theorem formed_ringStored (h : Formed s) : Formed (ringStored s k j n m) := formed_ringProduced (.modCtx h)
theorem formed_forkAct {y z : Word} (h : Formed s) : Formed (forkAct s k j t b y z) := by
  unfold forkAct
  extract_lets x q s1
  split
  · exact h
  · extract_lets e s2 slot v
    have h2 : Formed s2 := by
      refine formed_modKernel ?_
      unfold s1
      split
      · exact formed_modCluster h
      · exact h
    clear_value s2
    refine .ite (formed_modCluster (formed_lpWrite h2)) ?_
    split
    · next hf => exact formed_modCluster (formed_takeFrame h2 hf)
    · exact h2
theorem formed_mxAccept {y : MxEnt} (h : Formed s) : Formed (mxAccept s k j y) := .modCtx (.modCore h)
theorem formed_logErr (h : Formed s) : Formed (s.logErr n m v w pa d) := formed_setDie h
theorem formed_startWalk (h : Formed s) : Formed (s.startWalk k j page) := .ite h (.setCluster h)
theorem formed_applyAct {a : Act} (h : Formed s) : Formed (applyAct s k j bc base a) := by
  cases a
  case pad => exact formed_padStore h
  case sb => exact formed_storeBank h
  case wdog => exact .ite (.modCore h) h
  case adv => exact formed_ringAdvance h
  case made => exact formed_ringStored h
  case engine => exact formed_engineIssue h
  case clear => exact formed_engineClear h
  case scnCfg => exact formed_scanCfg h
  case mx => exact formed_mxAccept h
  case touch => exact formed_mxTouch h
  case fork => exact formed_forkAct h
  case rwLd => exact formed_rwLoad h
  case tlb =>
    refine .foldl (.ite (formed_tlbDropAll h) (.setCluster h)) fun _ _ h => .ite (formed_modCluster h) h
  case retire => exact formed_logErr (formed_retirePage h)
  case wayq => exact .ite (formed_logErr (formed_quarantine h)) h
  case lpw => exact formed_lpWrite h
  case walk => exact formed_startWalk h
  all_goals exact h
theorem formed_applyActs {l : List Act} (h : Formed s) : Formed (applyActs s k j bc base l) := by
  refine h.foldl fun s q h => ?_
  have ha : Formed (applyAct { s with nextKey := base + q.2 } k j bc base q.1) := formed_applyAct h
  exact .ite (formed_accGo ha) ha
theorem formed_afterAct {y : Issue} {a : Act} (h : Formed s) : Formed (afterAct s k j t y a) := by
  unfold afterAct
  cases a
  case yield => exact formed_arbSelect (.modCore (.modCtx (formed_yieldApply h)))
  case halt => exact formed_beginEnd h
  case sleep => exact formed_sleepCtx h
  case sync =>
    refine .ite (formed_acquire h) (formed_beginEnd ?_)
    split
    · exact formed_modCluster h
    · exact h
  case trapAfter => exact formed_trapTake h
  case rfe => exact formed_rfe h
  case kill => exact formed_terminate h
  case hold => exact formed_holdCtx h
  all_goals exact h
theorem formed_commit {y : Issue} (h : Formed s) : Formed (commit s y) := by
  unfold commit
  extract_lets k j x0 bc base f free s1 s2 s3 s4 s5 s6 s7
  have h1 : Formed s1 := .modCtx h
  have h2 : Formed s2 := .ite (.modCtx h1) h1
  have h3 : Formed s3 := formed_applyActs h2
  have h6 : Formed s6 := .modCore (.modCtx (.withNextKey h3))
  have h7 : Formed s7 := h6.foldl fun _ _ h => formed_afterAct h
  exact .ite h7 (.modCtx h7)
theorem formed_closeIssue (h : Formed s) : Formed (closeIssue s) := by
  unfold closeIssue
  extract_lets y s1 pc
  have h1 : Formed s1 := h
  refine .ite (h1.foldl fun _ _ h => formed_applyAct h) ?_
  split
  · exact formed_trapTake h1
  · exact formed_commit h1
theorem formed_soloIssue {o : SOp} {f : State → Out} (h : Formed s) : Formed (soloIssue o f s) :=
  .ite h (formed_closeIssue (.withIss (formed_openIssue h)))

/-! #### The steps that no bundle encodes (Appendix A) -/

theorem formed_takeOverrun (h : Formed s) : Formed (takeOverrun s k j) := formed_trapTake h
theorem formed_evOverrun (h : Formed s) : Formed (evOverrun s) := .ite (formed_takeOverrun h) h
theorem formed_evSysWatchdog (h : Formed s) : Formed (evSysWatchdog s) := by
  unfold evSysWatchdog
  extract_lets k c s1
  refine .ite h ?_
  split
  · exact formed_terminate (.modCore h)
  · exact .modCore h
theorem formed_evTrap (h : Formed s) : Formed (evTrap s) := formed_trapTry h
theorem formed_evReady (h : Formed s) : Formed (evReady s) := formed_wakeCore h
theorem formed_evBanks (h : Formed s) : Formed (evBanks s) := formed_bankPrep h
theorem formed_evPosted (h : Formed s) : Formed (evPosted s) := formed_accGo h
theorem formed_evReturn (h : Formed s) : Formed (evReturn s) := formed_accGo h
theorem formed_evResult (h : Formed s) : Formed (evResult s) := by
  unfold evResult
  dsimp only
  split
  · exact h
  · split
    · split
      · exact formed_accGo h
      · exact h
    · exact formed_landEarly h
theorem formed_evLdg (h : Formed s) : Formed (evLdg s) := formed_accGo h
theorem formed_evWalk (h : Formed s) : Formed (evWalk s) := formed_walkDone h
theorem formed_evEvict (h : Formed s) : Formed (evEvict s) := .ite (formed_l1Evict h) h
theorem formed_evFetch (h : Formed s) : Formed (evFetch s) := by
  unfold evFetch
  dsimp only
  split
  · exact .ite h (.ite h (.withStack h))
  · exact h
theorem formed_evEscape (h : Formed s) : Formed (evEscape s) := by
  unfold evEscape
  dsimp only
  split
  · exact h
  · exact h
theorem formed_evBarrier (h : Formed s) : Formed (evBarrier s) := formed_barrierUpdate h
theorem formed_evMatrix (h : Formed s) : Formed (evMatrix s) := by
  unfold evMatrix
  dsimp only
  split
  · exact formed_mxDone h
  · exact h
theorem formed_planeLoad (h : Formed s) : Formed (planeLoad s k) := by
  unfold planeLoad
  dsimp only
  split
  · exact h
  · exact .ite h (formed_setCore h)
theorem formed_evPlane (h : Formed s) : Formed (evPlane s) := formed_planeLoad h
theorem formed_evCopyStart (h : Formed s) : Formed (evCopyStart s) := formed_copyStart h
theorem formed_evCopyBeat (h : Formed s) : Formed (evCopyBeat s) := formed_copyBeat h
theorem formed_evCopyEnd (h : Formed s) : Formed (evCopyEnd s) := formed_copyComplete h
theorem formed_evStream (h : Formed s) : Formed (evStream s) := formed_streamRow h
theorem formed_evSend (h : Formed s) : Formed (evSend s) := formed_circuitSend h
theorem formed_evLand (h : Formed s) : Formed (evLand s) := formed_circuitLand h
theorem formed_evArrival (h : Formed s) : Formed (evArrival s) := formed_arrStart h
theorem formed_evBndStart (h : Formed s) : Formed (evBndStart s) := formed_bndStart h
theorem formed_evBndEnd (h : Formed s) : Formed (evBndEnd s) := by
  have hb : Formed (bndAdvance s (s.argN 0) (s.argN 1) s.arg[2]?).1 := formed_bndAdvance h
  unfold evBndEnd
  split
  case h_1 hx => rw [hx] at hb; exact formed_restoreDone hb
  case h_2 hx => rw [hx] at hb; exact hb
theorem Formed.withCircTl {y : Tab Timeline} (h : Formed s) : Formed { s with circTl := y } := h
theorem formed_evRotation (h : Formed s) : Formed (evRotation s) := by
  unfold evRotation
  extract_lets k q fn n t c pinned tag own gone t' drop t''
  refine .ite h (.ite (.withCircTl (h.foldl fun _ _ h => formed_modCluster h)) (.ite h (formed_modCluster ?_)))
  exact h
theorem formed_evScanStart (h : Formed s) : Formed (evScanStart s) := formed_scanStart h
theorem formed_evScanEnd (h : Formed s) : Formed (evScanEnd s) := formed_flipIdle (formed_scanAdvance h)
theorem formed_evGenStart (h : Formed s) : Formed (evGenStart s) := formed_genStart h
theorem formed_evGenEnd (h : Formed s) : Formed (evGenEnd s) := formed_genAdvance h
theorem formed_evTrim (h : Formed s) : Formed (evTrim s) := formed_trimLand h
theorem formed_evSpawn (h : Formed s) : Formed (evSpawn s) := by
  unfold evSpawn
  dsimp only
  split
  · refine .ite h ?_
    split
    · exact formed_modCluster h
    · exact .ite (formed_acquire (formed_startTask (formed_modCluster h))) (formed_startTask (formed_modCluster h))
  · exact h
theorem formed_leaveTry (h : Formed s) : Formed (leaveTry s q i) := by
  unfold leaveTry
  split
  · exact h
  · exact .ite h (formed_taskOver (formed_l1Release (formed_modCluster h)))
theorem formed_evChild (h : Formed s) : Formed (evChild s) := by
  unfold evChild
  extract_lets q
  split
  · exact formed_leaveTry h
  · refine .ite h ?_
    extract_lets s1 s2
    have h2 : Formed s2 := formed_modKernel (formed_modCluster h)
    clear_value s2
    split
    · exact h2
    · split
      · exact .ite (formed_modCluster (formed_pushResume (formed_modCluster h2))) (formed_modCluster h2)
      · exact formed_modCluster h2
theorem formed_evOverflow (h : Formed s) : Formed (evOverflow s) := by
  unfold evOverflow
  dsimp only
  refine .ite h ?_
  split
  · exact h
  · split
    · exact formed_modCluster h
    · split
      · next hf => exact formed_modCluster (formed_takeFrame h hf)
      · exact h
theorem Formed.withBlocks {y : List Block} (h : Formed s) : Formed { s with blocks := y } := h
theorem formed_evPreempt (h : Formed s) : Formed (evPreempt s) := by
  unfold evPreempt
  extract_lets k j pa s1 x rows
  have h1 : Formed s1 := formed_landAll (formed_touchAll h)
  clear_value s1
  refine .ite h ?_
  split
  · exact formed_terminate h1
  · extract_lets n img b s2 s3 s4
    split
    · exact formed_terminate h1
    · have h2 : Formed s2 := h1.foldl fun _ _ h => formed_lpWrite h
      have h4 : Formed s4 := formed_freeCtx (.withBlocks (.modCore h2))
      exact .ite (formed_arbSelect h4) h4
theorem formed_restoreDiscard {y : Block} (h : Formed s) : Formed (restoreDiscard s k y) := by
  refine .foldl (h.foldl fun _ _ h => .ite h (formed_storeRow h)) fun _ _ h => .ite h ?_
  exact h.foldl fun _ _ h => formed_storeRow h
theorem formed_evRestore (h : Formed s) : Formed (evRestore s) := by
  unfold evRestore
  extract_lets pa k j
  split
  · exact h
  · extract_lets s1 old here _ x t0 t1 lost t2 t3 t4 st t5
    have h1 : Formed s1 := formed_lpTouch h
    have h0 : Formed t0 := .setReg (.setCtx (.withBlocks h1))
    have h3 : Formed t3 := .modCore (.modCore (formed_prepBanks h0))
    have h4 : Formed t4 := h3.foldl fun _ _ h => formed_storeRow h
    exact .ite h1 (.ite h1 (formed_restoreDiscard (.modCore h4)))
theorem formed_evCorrected (h : Formed s) : Formed (evCorrected s) := .ite h (formed_logErr h)
theorem formed_evCleanLine (h : Formed s) : Formed (evCleanLine s) := by
  unfold evCleanLine
  dsimp only
  split
  · exact .ite h (formed_logErr (.withStack h))
  · exact h
theorem formed_pageQuiet (h : Formed s) : Formed (pageQuiet s page) := formed_flushPages h
theorem Formed.withRetiring {y : List (Nat × Nat)} (h : Formed s) : Formed { s with retiring := y } := h
theorem formed_evLpddr (h : Formed s) : Formed (evLpddr s) := by
  unfold evLpddr
  dsimp only
  refine .ite h ?_
  split
  · exact .ite h (formed_logErr (formed_pageQuiet (.withRetiring h)))
  · refine .ite h (formed_retirePage (formed_logErr ?_))
    exact h
theorem formed_evSram (h : Formed s) : Formed (evSram s) := by
  unfold evSram
  extract_lets k what x pa
  split
  · exact h
  · extract_lets s1 s2
    have h1 : Formed s1 := formed_logErr h
    exact .ite h (formed_terminate (.ite (.modCore h1) h1))
theorem formed_ueMsg (h : Formed s) : Formed (s.ueMsg k j pa) := h
theorem formed_evDirtyLine (h : Formed s) : Formed (evDirtyLine s) := by
  unfold evDirtyLine
  extract_lets key ln pa ch
  split
  · exact h
  · extract_lets d s1 s2 s3 s4
    have h2 : Formed s2 := formed_logErr (.withStack h)
    have h4 : Formed s4 := .withStack (formed_logErr (formed_pageQuiet h))
    refine .ite (.ite h (.ite (formed_ueMsg h2) h2)) (.ite h (.ite (formed_retirePage (.withStack h)) (.ite h ?_)))
    exact .ite (formed_logErr (formed_quarantine h4)) h4
theorem Formed.withMessages {y : List (Nat × Nat × Nat)} (h : Formed s) : Formed { s with messages := y } := h
theorem formed_evOwner (h : Formed s) : Formed (evOwner s) := by
  unfold evOwner
  split
  · exact h
  · exact formed_terminate (.withMessages h)
end

section
variable {s : State} {k j q i n m w v pa va fn off st slot need code : Nat} {b priv sec : Bool}

/-! #### Registers, power, debug and attestation (Chapters 18 and 19) -/

theorem formed_circWrite (h : Formed s) : Formed (circWrite s off v) := by
  unfold circWrite
  dsimp only
  refine .ite (.setReg h) ?_
  split
  · exact .setReg h
  · exact .setReg h
theorem formed_mrExtend {d : BitVec 384} (h : Formed s) : Formed (mrExtend s d) := by
  refine Formed.foldl ?_ fun _ _ h => .setReg h
  exact h
theorem formed_setDbg {r : Bool} (h : Formed s) : Formed (setDbg s st r b) := .setReg h
theorem Formed.withCores {y : Tab Core} (h : Formed s) : Formed { s with cores := y } := h
theorem formed_dbgRequest (h : Formed s) : Formed (dbgRequest s v) := by
  unfold dbgRequest
  extract_lets n cur sec s1 s2 ok s3 old new s4
  have h1 : Formed s1 := .setReg h
  have h3 : Formed s3 := .ite (formed_lpTouch h1) h1
  have h4 : Formed s4 := .setReg h3
  exact .ite (formed_setDbg (.ite (.withCores h1) h1)) (.ite (formed_setDbg h4) (formed_setDbg (.ite h4 (formed_mrExtend h4))))
theorem formed_setPwr {r : Bool} (h : Formed s) : Formed (setPwr s st r) := .setReg h
theorem formed_hostWake (h : Formed s) : Formed (hostWake s) := .ite (formed_setPwr h) h
/-- Power off leaves LPDDR 6 with nothing listed, and the host's and the peers' memories as they are. -/
theorem formed_coldState (h : Formed s) : Formed (coldState s b) := formed_iff.2 ⟨rfl, (formed_iff.1 h).2⟩
theorem formed_leavePark (h : Formed s) : Formed (leavePark s) := .ite (formed_setPwr h) (.setReg (formed_coldState h))
theorem formed_enterPark (h : Formed s) : Formed (enterPark s) := .foldl (formed_setPwr h) fun _ _ h => .setReg h
theorem formed_pwrEnter (h : Formed s) : Formed (pwrEnter s v) :=
  .ite (formed_setPwr h) (.ite (formed_setPwr h) (.ite (formed_setPwr h) (formed_enterPark h)))
theorem formed_pwrRequest (h : Formed s) : Formed (pwrRequest s v) :=
  .ite (.ite h (.ite (formed_leavePark h) (formed_pwrEnter (formed_leavePark h)))) (formed_pwrEnter h)
theorem formed_sliceVal (h : Formed s) : Formed (sliceVal s n) := .setReg h
theorem formed_keyWrite (h : Formed s) : Formed (keyWrite s k i) := h
theorem formed_regDiscard (h : Formed s) : Formed (regDiscard s off) := .setReg h
theorem Formed.withInstall {y : Option (Nat × Nat × Nat × Nat)} (h : Formed s) : Formed { s with install := y } := h
theorem formed_regEffect (h : Formed s) : Formed (regEffect s off v w) := by
  unfold regEffect
  extract_lets old put
  have hp : Formed put := .setReg h
  clear_value put
  exact .ite (.setReg h) (.ite (.setReg h) (.ite (formed_dbgRequest h) (.ite (formed_pwrRequest h)
    (.ite (.ite (.withInstall (.setReg h)) h) (.ite (.ite (.setReg h) (.setReg h)) (.ite (formed_keyWrite hp)
      (.ite (formed_circWrite h) (.ite (formed_sliceVal hp) hp))))))))
theorem formed_regWrite (h : Formed s) : Formed (regWrite s fn off v) := by
  unfold regWrite
  extract_lets s1 o sysVf
  have h1 : Formed s1 := formed_hostWake h
  refine .ite (formed_regDiscard h1) ?_
  split
  · exact formed_regDiscard h1
  · exact .ite (formed_regDiscard h1) (.ite h1 (.ite (formed_regDiscard h1) (.ite h1 (formed_regEffect h1))))
theorem formed_evBndInit (h : Formed s) : Formed (evBndInit s) := .ite h (.ite h (formed_bndInit h))
theorem formed_dbgPut (h : Formed s) : Formed (dbgPut s k j i n v) := by
  unfold dbgPut
  iterate 23 refine .ite h ?_
  exact h
theorem formed_dbgAct (h : Formed s) : Formed (dbgAct s k) := by
  unfold dbgAct
  extract_lets o j'
  refine .ite (formed_setDbg (.modCore h)) (.ite (.modCore h) (.ite ?_ (.ite (formed_lpSoft h) h)))
  split
  · exact formed_putD h
  · exact formed_dbgPut h
theorem formed_evHalt (h : Formed s) : Formed (evHalt s) := .ite h (formed_dbgAct (formed_hostWake h))
theorem formed_evIdle (h : Formed s) : Formed (evIdle s) := .ite (formed_setPwr h) h
theorem formed_evUnit (h : Formed s) : Formed (evUnit s) := .ite h (.setReg h)
theorem Formed.withBar2 {y : Tab Nat} (h : Formed s) : Formed { s with bar2 := y } := h
theorem formed_evBar2 (h : Formed s) : Formed (evBar2 s) :=
  .ite h (.ite (.ite (.withBar2 h) h) (.ite h (formed_lpSoft (formed_hostWake h))))
/-- A write of host memory, and of a peer's (R453). -/
theorem Formed.writeHost (h : Formed s) : Formed { s with host := s.host.writeN pa v n } := by
  obtain ⟨hd, hh, hp⟩ := formed_iff.1 h
  exact formed_iff.2 ⟨hd, Memory.writeN_wf _ _ _ hh, hp⟩
theorem Formed.writePeer (h : Formed s) : Formed { s with peer := s.peer.writeN pa v n } := by
  obtain ⟨hd, hh, hp⟩ := formed_iff.1 h
  exact formed_iff.2 ⟨hd, hh, Memory.writeN_wf _ _ _ hp⟩
theorem formed_evPeer (h : Formed s) : Formed (evPeer s) :=
  .ite (.writePeer h) (.ite (.writeHost h) (.ite h (.ite (formed_lpSoft (formed_hostWake h)) (formed_hostWake h))))
theorem formed_powerLoss (h : Formed s) : Formed (powerLoss s) := .ite h (formed_coldState h)
theorem formed_fixLayout (h : Formed s) : Formed s.fixLayout := .ite h (.setReg (.setReg (.setReg (.setReg h))))
theorem Formed.withCode (h : Formed s) : Formed { s with codeBase := n, codeSize := m } := h
theorem formed_powerOn (h : Formed s) : Formed (powerOn s) := by
  unfold powerOn
  extract_lets bad up
  have hup {s : State} (h : Formed s) : Formed (up s) :=
    .ite (.setReg (formed_coldState h)) (.withCode (.setReg (formed_fixLayout h)))
  exact .ite (hup (formed_coldState h)) (.ite h (hup h))
theorem Formed.withSpdm {y : Spdm} (h : Formed s) : Formed { s with spdm := y } := h
theorem formed_spdmStep {f : Spdm → Spdm} (h : Formed s) : Formed (spdmStep s need code f) := by
  have h1 : Formed (hostWake s) := formed_hostWake h
  exact .ite h1 (.ite (.withSpdm h1) (.withSpdm h1))
theorem formed_evIdeKm (h : Formed s) : Formed (evIdeKm s) := .ite (.withSpdm (formed_hostWake h)) (formed_hostWake h)

/-! #### Images and kernels (Chapters 17 and 20) -/

theorem formed_setImgSts (h : Formed s) : Formed (setImgSts s st slot) := .setReg h
theorem formed_logImage {d : BitVec 384} (h : Formed s) : Formed (logImage s k i slot d) :=
  .setReg (.foldl (.setReg h) fun _ _ h => .setReg h)
theorem Formed.withImages {y : List Image} (h : Formed s) : Formed { s with images := y } := h
theorem formed_evInstall (h : Formed s) : Formed (evInstall s) := by
  unfold evInstall
  split
  · exact h
  · extract_lets -underBinder s0 s1
    have h1 : Formed s1 := .withInstall (formed_lpTouch h)
    clear_value s1
    refine .ite (formed_setImgSts h1) ?_
    split
    · exact formed_setImgSts h1
    · extract_lets -underBinder strs l d slot lay
      refine .ite (formed_setImgSts h1) (.ite (formed_setImgSts h1) (.ite (formed_setImgSts h1) ?_))
      split
      · exact formed_setImgSts h1
      · extract_lets -underBinder old bytes rules nb s2 m s3 s4
        have h2 : Formed s2 := .foldl (.withImages h1) fun _ _ h => formed_lpInstall h
        clear_value s2
        have h3 : Formed s3 := .withImages h2
        clear_value s3
        have h4 : Formed s4 := .ite (.setReg (.setReg h3)) h3
        exact formed_setImgSts (formed_mrExtend (formed_logImage h4))
theorem formed_fnTouch (h : Formed s) : Formed (fnTouch s fn va priv n) := by
  refine h.foldl fun s a h => ?_
  have h1 : Formed (if a / 2 ^ 52 = 0 then s.walkTouch fn a else s) := .ite (formed_walkTouch h) h
  dsimp only
  split
  · exact formed_physTouch h1
  · exact h1
theorem formed_fnWrite (h : Formed s) : Formed (fnWrite s fn va priv n v) := by
  refine h.foldl fun s i h => ?_
  split
  · exact .ite h (formed_physWrite h)
  · exact h
theorem Formed.withCompletions {y : Tab Nat} (h : Formed s) : Formed { s with completions := y } := h
theorem Formed.withEnded {y : List (Nat × Nat)} (h : Formed s) : Formed { s with ended := y } := h
theorem formed_report {y : Kernel} (h : Formed s) : Formed (report s y st) := by
  unfold report
  extract_lets runs s1 s2 seq s3
  have h1 : Formed s1 := .withEnded h
  have h2 : Formed s2 := by
    refine .ite h1 ?_
    split
    · exact formed_fnWrite h1
    · exact h1
  have h3 : Formed s3 := .withCompletions h2
  exact .ite h3 (.writeHost h3)
theorem Formed.withLaunchRot {y : Tab Nat} (h : Formed s) : Formed { s with launchRot := y } := h
theorem Formed.withKernels {y : List Kernel} {z : List (Nat × Nat)} (h : Formed s) :
    Formed { s with kernels := y, nextKernel := n, ended := z } := h
theorem formed_evLaunch (h : Formed s) : Formed (evLaunch s) := by
  unfold evLaunch
  split
  · exact h
  · refine .ite h ?_
    extract_lets ctl base s1 head slot fn priv s2 r bad _ s3 s4
    have h2 : Formed s2 := formed_lpTouch (formed_lpTouch h)
    have h3 : Formed s3 := .withLaunchRot (formed_lpWrite h2)
    have h4 : Formed s4 := .ite h3 (formed_fnTouch (formed_fnTouch h3))
    exact .ite (.withKernels h4) (formed_report (formed_fneRecord h4))
theorem formed_evPlace (h : Formed s) : Formed (evPlace s) := by
  unfold evPlace
  split
  · exact h
  · split
    · exact h
    · extract_lets k j q tc prio start
      have hs {s : State} {f : Option Nat} (h : Formed s) : Formed (start s f) := formed_startTask (formed_modKernel h)
      clear_value start
      refine .ite h (.ite (hs h) ?_)
      split
      · next hf => exact hs (formed_takeFrame h hf)
      · exact h
theorem Formed.withKernelList {y : List Kernel} (h : Formed s) : Formed { s with kernels := y } := h
theorem formed_evComplete (h : Formed s) : Formed (evComplete s) := by
  unfold evComplete
  split
  · exact h
  · exact .ite h (formed_report (.withKernelList h))
end

section
variable {s : State} {k j i n word : Nat} {b sec : Bool} {lit : Option Nat}

/-! #### Every instruction keeps the form -/

/-- Every state that an outcome goes on with is in the form. -/
def Forms {α : Type} (g : α → State) (x : Ran α) : Prop := ∀ a, x = .ok a → Formed (g a)

theorem forms_ok {α : Type} {g : α → State} {a : α} (h : Formed (g a)) : Forms g (.ok a) := by
  rintro _ ⟨⟩
  exact h
theorem forms_did {w : Option Nat} {l : Option (List SOp)} (h : Formed s) : Forms Did.s (.ok { s := s, word := w, ops := l }) :=
  forms_ok h
theorem forms_error {α : Type} {g : α → State} {r : Refusal} : Forms g (.error r) := nofun
theorem forms_ite {α : Type} {g : α → State} {c : Prop} [Decidable c] {x y : Ran α} (hx : Forms g x) (hy : Forms g y) :
    Forms g (if c then x else y) := by
  split
  · exact hx
  · exact hy
theorem Forms.map {α β : Type} {g : α → State} {g' : β → State} {f : α → β} {x : Ran α} (h : Forms g x)
    (hf : ∀ a, Formed (g a) → Formed (g' (f a))) : Forms g' (x.map f) := by
  cases x with
  | error r => exact forms_error
  | ok a => exact forms_ok (hf a (h a rfl))

theorem forms_slotOp {sl : Slot} {o : Instr} {f : State → Out} (h : Formed s) : Forms id (ran (slotOp sl o f s)) :=
  forms_ok (.ite (.withIss h) (formed_soloIssue h))
theorem forms_skipOp (h : Formed s) : Forms id (ran (skipOp s)) := by
  unfold skipOp
  split
  · exact forms_ok (.withIss h)
  · split
    · exact forms_ok h
    · exact forms_ok (formed_closeIssue (formed_openIssue h))
theorem forms_event {f : State → State} (hf : ∀ {s : State}, Formed s → Formed (f s)) (h : Formed s) :
    Forms id (ran (event f s)) := by
  have ht : Formed (f { s.tick with held := false }) := hf h
  exact forms_ok (.ite h ht)

theorem forms_exec (o : Instr) (h : Formed s) : Forms id (ran (exec o s)) := by
  unfold exec
  cases o
  case skippedBundle => exact forms_skipOp h
  case powerOn => exact forms_ok (formed_powerOn h)
  case powerLoss => exact forms_ok (formed_powerLoss h)
  case imgGo => exact forms_event formed_regWrite h
  case secRaiseMeasured => exact forms_event formed_regWrite h
  case secRaiseSealed => exact forms_event formed_regWrite h
  case dbgReqNone => exact forms_event formed_regWrite h
  case dbgReqObserve => exact forms_event formed_regWrite h
  case dbgReqInvasive => exact forms_event formed_regWrite h
  case pwrReqRun => exact forms_event formed_regWrite h
  case pwrReqSlow => exact forms_event formed_regWrite h
  case pwrReqIdle => exact forms_event formed_regWrite h
  case pwrReqPark => exact forms_event formed_regWrite h
  case bndCtlEnWrite => exact forms_event formed_regWrite h
  case circEnWrite => exact forms_event formed_regWrite h
  case errstsClear => exact forms_event formed_regWrite h
  case registerWrite => exact forms_event formed_regWrite h
  case binderyInitDone => exact forms_event formed_evBndInit h
  case imageInstallDone => exact forms_event formed_evInstall h
  case idleEntry => exact forms_event formed_evIdle h
  case idleWakeAccess => exact forms_event formed_hostWake h
  case spdmGetVersion => exact forms_event formed_spdmStep h
  case spdmGetCapabilities => exact forms_event formed_spdmStep h
  case spdmNegotiateAlgorithms => exact forms_event formed_spdmStep h
  case spdmGetDigests => exact forms_event formed_spdmStep h
  case spdmGetCertificate => exact forms_event formed_spdmStep h
  case spdmChallenge => exact forms_event formed_spdmStep h
  case spdmGetMeasurements => exact forms_event formed_spdmStep h
  case spdmKeyExchange => exact forms_event formed_spdmStep h
  case spdmFinish => exact forms_event formed_spdmStep h
  case spdmEndSession => exact forms_event formed_spdmStep h
  case resultLanding => exact forms_event formed_evResult h
  case runWatchdogExpiry => exact forms_event formed_evOverrun h
  case systemWatchdogExpiry => exact forms_event formed_evSysWatchdog h
  case trapEntry => exact forms_event formed_evTrap h
  case contextBecomesReady => exact forms_event formed_evReady h
  case bankPreparation => exact forms_event formed_evBanks h
  case ldgRowArrival => exact forms_event formed_evLdg h
  case postedWritePerform => exact forms_event formed_evPosted h
  case atomicReturn => exact forms_event formed_evReturn h
  case translationWalkComplete => exact forms_event formed_evWalk h
  case l1Eviction => exact forms_event formed_evEvict h
  case sectorFetch => exact forms_event formed_evFetch h
  case dnEscapeTimeout => exact forms_event formed_evEscape h
  case barrierUpdate => exact forms_event formed_evBarrier h
  case cellPlaneLoad => exact forms_event formed_evPlane h
  case matrixQueueComplete => exact forms_event formed_evMatrix h
  case copyCommandStart => exact forms_event formed_evCopyStart h
  case copyBeat => exact forms_event formed_evCopyBeat h
  case copyCommandComplete => exact forms_event formed_evCopyEnd h
  case streamRow => exact forms_event formed_evStream h
  case circuitRowSend => exact forms_event formed_evSend h
  case circuitRowLanding => exact forms_event formed_evLand h
  case arrivalHandlerStart => exact forms_event formed_evArrival h
  case binderyCommandStart => exact forms_event formed_evBndStart h
  case binderyCommandComplete => exact forms_event formed_evBndEnd h
  case rotationCommand => exact forms_event formed_evRotation h
  case scanCommandStart => exact forms_event formed_evScanStart h
  case scanCommandComplete => exact forms_event formed_evScanEnd h
  case generationCommandStart => exact forms_event formed_evGenStart h
  case generationCommandComplete => exact forms_event formed_evGenEnd h
  case trimMessageLanding => exact forms_event formed_evTrim h
  case spawnStart => exact forms_event formed_evSpawn h
  case childCompletion => exact forms_event formed_evChild h
  case overflowEntryMove => exact forms_event formed_evOverflow h
  case preemption => exact forms_event formed_evPreempt h
  case preemptionRestore => exact forms_event formed_evRestore h
  case softErrorCorrected => exact forms_event formed_evCorrected h
  case ueCleanStackLine => exact forms_event formed_evCleanLine h
  case ueLpddr6 => exact forms_event formed_evLpddr h
  case ueCoreSram => exact forms_event formed_evSram h
  case ueDirtyStackLine => exact forms_event formed_evDirtyLine h
  case ueOwnerMessage => exact forms_event formed_evOwner h
  case launchRecord => exact forms_event formed_evLaunch h
  case taskPlacement => exact forms_event formed_evPlace h
  case kernelCompletion => exact forms_event formed_evComplete h
  case hostBar2Write => exact forms_event formed_evBar2 h
  case peerAccess => exact forms_event formed_evPeer h
  case unitReady => exact forms_event formed_evUnit h
  case debugHaltRequest => exact forms_event formed_evHalt h
  case ideKmRequest => exact forms_event formed_evIdeKm h
  all_goals exact forms_slotOp h

/-! #### The operations of a bundle, a context's issue and a turn (R88 to R98) -/

theorem Formed.withArg {l : List Nat} {y : Issue} (h : Formed s) : Formed { s with arg := l, iss := y } := h
theorem forms_runOp {o : SOp} (h : Formed s) : Forms id (runOp s o) := forms_ite (forms_exec o.i (.withArg h)) (forms_ok h)
theorem forms_runOps (l : List SOp) (h : Formed s) : Forms id (runOps l s) := by
  induction l generalizing s with
  | nil => exact forms_ok h
  | cons o l ih =>
    have ho : Forms id (runOp s o) := forms_runOp h
    unfold runOps
    split
    next t ht => exact ih (ho t ht)
    next => exact ho
/-- Rewritten operations run against a view of the core; only what they decide is taken over (R296). -/
theorem forms_runRep {p : Plan} {o : RwOp} (h : Formed s) : Forms id (runRep s k j p o word) := by
  unfold runRep
  dsimp only
  split
  · exact forms_error
  · exact forms_ok (.withIss h)
theorem forms_runReps {p : Plan} (l : List RwOp) (h : Formed s) : Forms id (runReps k j p l n s) := by
  induction l generalizing s n with
  | nil => exact forms_ok h
  | cons o l ih =>
    have ho : Forms id (runRep s k j p o (p.word + n * 2 ^ 9)) := forms_runRep h
    unfold runReps
    split
    next t ht => exact ih (ho t ht)
    next => exact ho

theorem formed_planNext {p : Plan} (h : Formed s) : Formed (planNext s k j p) := .modCtx h
theorem formed_touchDest {d : Nat × Nat} (h : Formed s) : Formed (touchDest s k d) := .ite (formed_mxTouch h) h
theorem formed_spoilDest {d : Nat × Nat} (h : Formed s) : Formed (spoilDest s k j d) := by
  unfold spoilDest
  extract_lets x key reg
  have hreg {r : Dest} {w : Nat} : Formed (reg r w) := .modCtx (formed_putD h)
  clear_value reg
  exact .ite hreg (.ite (.ite (.modCore h) (.modCore h)) (.ite (.modCore h) (.ite (.setCtx h)
    (.ite hreg (.ite hreg (.ite hreg (.ite hreg (.setCtx h))))))))
theorem formed_finish {l : List SOp} {p : Option Plan} (h : Formed s) : Formed (finish s k j word l p b).s := by
  unfold finish
  extract_lets y s1 s2 s3 s4
  split
  · exact formed_closeIssue h
  · cases p with
    | none => exact formed_closeIssue h
    | some p =>
      have h1 : Formed s1 := formed_planNext h
      have h2 : Formed s2 := .ite (h1.foldl fun _ _ h => formed_touchDest h) h1
      have h3 : Formed s3 := formed_closeIssue h2
      exact .ite (h3.foldl fun _ _ h => formed_spoilDest h) h3

theorem forms_issueBundle (h : Formed s) : Forms Did.s (issueBundle s k j word lit sec) := by
  unfold issueBundle
  extract_lets s1 _ s2
  have h2 : Formed s2 := .withIss (formed_openIssue h)
  clear_value s2
  refine forms_ite ((forms_exec .skippedBundle h2).map fun _ h => formed_finish h) ?_
  have hr : Formed (if sec then (s2, (none : Option Nat)) else rwStage s2 k j).1 := .ite_fst h2 (formed_rwStage h2)
  split
  next s3 page he =>
    rw [he] at hr
    change Formed s3 at hr
    split
    · exact forms_ok (.withIss (formed_startWalk hr))
    · extract_lets plan
      clear_value plan
      split
      · exact (forms_runOps _ hr).map fun _ h => formed_finish h
      · refine forms_ite ((forms_runOps _ hr).map fun _ h => formed_finish h) ?_
        dsimp only
        split
        · exact forms_error
        · exact forms_ite (forms_ok (formed_closeIssue (.withIss hr))) ((forms_runReps _ hr).map fun _ h => formed_finish h)
theorem formed_fetched (h : Formed s) : Formed (fetched s k j) := by
  unfold fetched
  dsimp only
  split
  · exact formed_fetchTouch (formed_fetchTouch h)
  · exact formed_fetchTouch h
theorem forms_issueCtx (h : Formed s) : Forms Did.s (issueCtx s k j sec) := by
  have hf : Formed (fetched s k j) := formed_fetched h
  unfold issueCtx
  dsimp only
  split
  · exact forms_did (formed_startWalk hf)
  · exact forms_did (formed_terminate hf)
  · exact forms_did (formed_trapTake (formed_landNow (formed_waitEnd (.tick hf))))
  · exact forms_issueBundle hf
theorem formed_breakStop (h : Formed s) : Formed (breakStop s k) := formed_setDbg (.modCore h)
theorem forms_issueSecond {w : Option Nat} {l : List SOp} (h : Formed s) : Forms id (issueSecond s k j w l) := by
  refine forms_ite (forms_ok h) (forms_ite (forms_ok (formed_breakStop h)) ?_)
  split
  · extract_lets s1 skip
    have h1 : Formed s1 := formed_fetched h
    clear_value s1
    exact forms_ite (.map (forms_issueBundle (.modCtx h1)) fun _ h => h) (forms_ok h1)
  · exact forms_ok (formed_startWalk h)
  · exact forms_ok (formed_terminate h)
  · exact forms_ite ((forms_issueCtx h).map fun _ h => h) (forms_ok h)
theorem forms_issueCore (h : Formed s) : Forms id (issueCore s k) := by
  unfold issueCore
  extract_lets cand first
  have hfirst : Forms Did.s first := by
    unfold first
    split
    · exact forms_ok h
    · exact forms_ite (forms_ok h) (forms_ite (forms_ok (formed_breakStop h)) (forms_ite (forms_ok (formed_takeOverrun h))
        (forms_issueCtx h)))
  clear_value cand first
  split
  · exact forms_error
  next d =>
    have hd : Formed d.s := hfirst d rfl
    split
    · exact forms_ok hd
    · exact forms_ite (forms_ok hd) (forms_ite (forms_issueSecond h) ((forms_issueSecond hd).map fun t ht => .ite hd ht))

/-! #### The clock and the choice of what the machine does next -/

theorem formed_atCycle (h : Formed s) : Formed (atCycle s k) := by
  refine .foldl (.foldl (.foldl (formed_planeLoad (formed_wakeCore h)) ?send) ?land) ?update
  case send => exact fun _ _ h => .ite (formed_circuitSend h) h
  case land => exact fun _ _ h => formed_circuitLand h
  case update => exact fun _ _ h => formed_barrierUpdate h
theorem Formed.withClock {c : Tab Core} (h : Formed s) : Formed { s with now := n, cores := c } := h
theorem formed_advance (h : Formed s) : Formed (advance s) := .foldl (.withClock (.tick h)) fun _ _ h => formed_atCycle h
theorem formed_advanceN (h : Formed s) : Formed (advanceN n s) := by
  induction n generalizing s with
  | zero => exact h
  | succ n ih => exact ih (formed_advance h)
theorem Formed.withHeld (h : Formed s) : Formed { s with held := b } := h
theorem formed_settle (h : Formed s) : Formed (settle s) := by
  refine h.foldl fun s c h => h.foldl fun s x h => .ite ?_ h
  exact .ite h (formed_endTry (.withHeld h))

theorem forms_takeTurn {t : Turn} (h : Formed s) : Forms id (takeTurn s t) := by
  cases t with
  | idle => exact forms_ok (formed_settle (formed_advance h))
  | event i a =>
    have ha : Formed { s with arg := a } := h
    exact (forms_exec i ha).map fun _ h => formed_settle h
  | issue k =>
    unfold takeTurn
    dsimp only
    have hs : Formed (settle (advanceN (nextCycle s k - s.now) s)) := formed_settle (formed_advanceN h)
    have hnext {t : State} (h : Formed t) : Formed (settle ({ t with iss := {} }.modCore k fun c => { c with lastCyc := t.now })) :=
      formed_settle (.modCore (.withIss h))
    exact forms_ite (forms_ok hs) ((forms_issueCore (.withHeld hs)).map fun t ht => .ite (hnext hs) (hnext ht))
theorem Formed.withTurns {l : List Turn} {n : Nat} (h : Formed s) : Formed { s with turns := l, rr := n } := h
theorem forms_cycle (h : Formed s) : Forms id (cycle s) := by
  unfold cycle
  split
  · exact forms_takeTurn (.withTurns h)
  · exact forms_takeTurn (.withTurns h)
end

/-- Settles O47: each turn takes a state in the form to one in the form. -/
theorem memoryFormKept : Obligations.MemoryFormKept := by
  intro s t h ht
  have hc : Forms id (cycle s) := forms_cycle h
  unfold step at ht
  split at ht
  next u hu =>
    obtain rfl := Host.Outcome.next.inj ht
    exact hc _ hu
  next => exact absurd ht nofun

/-- Settles O48: at reset no memory lists a byte. -/
theorem memoryFormAtReset : Obligations.MemoryFormAtReset := rfl

/-! ### Local loads (R171 to R173, R184, R187, R188) -/

theorem localPath_nearBank {m : State} {ea : Nat} (g : Nat → Out) (hf : m.ix.fenced = false) (h : ea < 2 ^ 19) :
    localPath m (withOp (spaceBank 6 ea) g) = g (ea / 128) := by
  rw [localPath_ok _ hf, spaceBank_ok h]; rfl

theorem eaLd_eq (m : State) (a : Mem) :
    (((m.rdLa 6 a.base.toNat : Int) + 128 * a.off.toInt) % 2 ^ 64).toNat = eaLd m a := (eaOf_eq ..).symm

section
variable {m : State} {d : VReg} {a : Mem}

theorem opLdRow_near (hf : m.ix.fenced = false) (h : eaLd m a < 2 ^ 20) :
    opLdRow d a m = ldWr d (m.rdRow 6 (eaLd m a / 128)) 4 (eaLd m a / 128) := localPath_near _ hf h
theorem opLdS_near {n : BitVec 6} (hf : m.ix.fenced = false) (h : eaLd m a < 2 ^ 20) :
    opLdS n a m = { wrs := [wholeWr (m.ix.sD n.toNat) 64 (lane 64 (m.rdRow 6 (eaLd m a / 128)) (eaLd m a / 8 % 16) % 2 ^ 64) 4 .load],
                    acts := [.touch (eaLd m a / 128)] } := by
  refine (localPath_near _ hf h).trans ?_
  rw [bitsAt_eq]
  rfl
theorem opLdBc_near (hf : m.ix.fenced = false) (h : eaLd m a < 2 ^ 20) :
    opLdBc d a m =
      ldWr d (ofLanes 32 (List.replicate 32 (lane 32 (m.rdRow 6 (eaLd m a / 128)) (eaLd m a / 4 % 32)))) 4 (eaLd m a / 128) := by
  refine (localPath_near _ hf h).trans ?_
  rw [bitsAt_eq]
  rfl
theorem opLdIdx_near {b k : BitVec 5} {o : BitVec 15} {ea : Nat} (hf : m.ix.fenced = false) (h : ea < 2 ^ 20)
    (he : (((m.rdLa 6 b.toNat : Int) + 128 * (m.rdLa 6 k.toNat : Int) + 128 * o.toInt) % 2 ^ 64).toNat = ea) :
    opLdIdx d b k o m = ldWr d (m.rdRow 6 (ea / 128)) 4 (ea / 128) := by
  unfold opLdIdx
  dsimp only
  rw [ldIdx_ea, he]
  exact localPath_near _ hf h
theorem opLdZ_near {v : Nat} (hf : m.ix.fenced = false) (h : eaLd m a < 2 ^ 20)
    (hu : unpack (m.rdRow 6 (eaLd m a / 128)) = some v) : opLdZ d a m = ldWr d v 6 (eaLd m a / 128) := by
  refine (localPath_near _ hf h).trans ?_
  rw [hu]
theorem opLdSb_near (hf : m.ix.fenced = false) (h : eaLd m a < 2 ^ 19) :
    opLdSb d a m = { wrs := [wholeWr (.v d.f d.n.toNat) 1024 (m.bankRow m.ik m.ij (eaLd m a / 128)) 4 .load] } :=
  localPath_nearBank _ hf h
theorem opLdH_found (hf : m.finds a.base.toNat a.off.toNat) :
    opLdH d a m = ldWr d (m.slotRow a.base.toNat a.off.toNat) 4 ((m.ix.ring a.base.toNat).base + m.slotIx a.base.toNat a.off.toNat) := by
  obtain ⟨hf, hb, h1, h2, h3, h4⟩ := hf
  unfold opLdH
  dsimp only
  rw [localPath_ok _ hf, consume_ok hb h1 h2 h3 h4]
  rfl
end

/-- Settles O24: an address in range names its row, whose content the load port brings. -/
theorem localLoadResults : Obligations.LocalLoadResults := by
  intro s d n a b k o load vec base
  have hb : base = fun m => eaLd m a := funext fun m => eaLd_eq m a
  clear_value base
  subst hb
  dsimp only [load, vec]
  refine ⟨?ldRow, ?ldS, ?ldBc, ?ldIdx, ?ldZ, ?ldSb, ?ldH, ?ldNop⟩
  case ldRow =>
    intro hm hf he x hx
    obtain rfl := Option.some.inj hx
    exact slotOp_out (f := opLdRow d a) hm (opLdRow_near hf he)
  case ldS =>
    intro hm hf he x hx
    obtain rfl := Option.some.inj hx
    exact slotOp_out (f := opLdS n a) hm (opLdS_near hf he)
  case ldBc =>
    intro hm hf he x hx
    obtain rfl := Option.some.inj hx
    exact slotOp_out (f := opLdBc d a) hm (opLdBc_near hf he)
  case ldIdx =>
    intro hm hf he x hx
    obtain rfl := Option.some.inj hx
    exact slotOp_out (f := opLdIdx d b k o) hm (opLdIdx_near hf he rfl)
  case ldZ =>
    intro hm hf he x hx
    exact slotOp_out (f := opLdZ d a) hm (opLdZ_near hf he hx)
  case ldSb =>
    intro hm hf he x hx
    obtain rfl := Option.some.inj hx
    exact slotOp_out (f := opLdSb d a) hm (opLdSb_near hf he)
  case ldH =>
    intro hm hf hb h1 h2 h3 h4
    exact slotOp_out (f := opLdH d a) hm (opLdH_found ⟨hf, hb, h1, h2, h3, h4⟩)
  case ldNop => exact fun hm => slotOp_out (f := fun _ => {}) hm rfl

/-! ### Addresses of posted accesses that name no place (R171, R177, R433) -/

section
variable {α : Type} {e : Except Out α} {g : α → Out} {m : State} {slot ea : Nat} {w at_ : Bool}

theorem withOp_found {a : α} (h : e = .ok a) : withOp e g = g a := by rw [h]; rfl
theorem withOp_failed {o : Out} (h : e = .error o) : withOp e g = o := by rw [h]; rfl

theorem spaceWindow_bad (h : 2 ^ 22 ≤ ea ∨ m.coreOk (clusterOf m.ik * 4 + ea / 2 ^ 20 % 4) = false) :
    spaceWindow m slot ea = .error (Out.mkTrap 11 slot ea) := by
  unfold spaceWindow
  rw [bitsAt_eq]
  refine if_pos (h.imp (fun h => ?_) fun h => ?_)
  · have := Nat.div_pos h (by decide)
    omega
  · rw [show (2 : Nat) ^ 2 = 4 from rfl, h]; rfl
theorem spaceGlobal_far (h : 2 ^ 52 ≤ ea) :
    spaceGlobal m slot ea w at_ = .error (Out.mkTrap 9 slot (7 + b2n w * 16) (ea % 2 ^ 52)) := by
  unfold spaceGlobal
  have := Nat.div_pos h (by decide)
  rw [if_pos (by omega)]; rfl
theorem spaceGlobal_fault {kd lv : Nat} (h : ea < 2 ^ 52) (hx : m.xlate m.ik m.ij ea w false at_ = .fault kd lv) :
    spaceGlobal m slot ea w at_ = .error (Out.mkTrap 9 slot (kd + b2n w * 16 + lv * 64) (ea % 2 ^ 52)) := by
  unfold spaceGlobal
  rw [if_neg (by simp; omega), hx]; rfl

theorem spaceSel_local (h : ea < 2 ^ 63) :
    spaceSel m slot ea w = (spaceWindow m slot ea).map fun p => .win p.1 p.2 := by
  unfold spaceSel
  rw [if_neg]
  · cases spaceWindow m slot ea <;> rfl
  · rw [bitAt, Nat.shiftRight_eq_div_pow, show ea / 2 ^ 63 = 0 by omega]; decide
theorem spaceSel_remote (h : 2 ^ 63 ≤ ea) (h' : ea < 2 ^ 64) :
    spaceSel m slot ea w = (spaceGlobal m slot (ea - 2 ^ 63) w).map fun p => .phys p.1 p.2.1 p.2.2 := by
  unfold spaceSel
  rw [if_pos, show ea % 2 ^ 63 = ea - 2 ^ 63 by omega]
  · cases spaceGlobal m slot (ea - 2 ^ 63) w <;> rfl
  · rw [bitAt, Nat.shiftRight_eq_div_pow, show ea / 2 ^ 63 = 1 by omega]; decide
theorem spaceSel_badWindow (h : ea < 2 ^ 63) (hb : 2 ^ 22 ≤ ea ∨ m.coreOk (clusterOf m.ik * 4 + ea / 2 ^ 20 % 4) = false) :
    spaceSel m slot ea w = .error (Out.mkTrap 11 slot ea) := by
  rw [spaceSel_local h, spaceWindow_bad hb]; rfl
theorem spaceSel_far (h : 2 ^ 63 + 2 ^ 52 ≤ ea) (h' : ea < 2 ^ 64) :
    spaceSel m slot ea w = .error (Out.mkTrap 9 slot (7 + b2n w * 16) (ea % 2 ^ 52)) := by
  rw [spaceSel_remote (by omega) h', spaceGlobal_far (by omega), show (ea - 2 ^ 63) % 2 ^ 52 = ea % 2 ^ 52 by omega]; rfl
theorem spaceSel_fault {kd lv : Nat} (h : 2 ^ 63 ≤ ea) (h' : ea < 2 ^ 63 + 2 ^ 52)
    (hx : m.xlate m.ik m.ij (ea - 2 ^ 63) w false false = .fault kd lv) :
    spaceSel m slot ea w = .error (Out.mkTrap 9 slot (kd + b2n w * 16 + lv * 64) (ea % 2 ^ 52)) := by
  rw [spaceSel_remote h (by omega), spaceGlobal_fault (by omega) hx, show (ea - 2 ^ 63) % 2 ^ 52 = ea % 2 ^ 52 by omega]; rfl
end

theorem boundRing_unbound {m : State} {slot h : Nat} (hb : (m.ix.ring h).bound = false) :
    boundRing m slot h = .error (Out.mkTrap 13 slot 7) := by
  unfold boundRing
  rw [if_neg (by simp [hb])]

/-! ### Loads of other cores, `ldg` and acquires (R177, R186, R189, R229) -/

section
variable {m : State} {h : BitVec 5} {cnt : BitVec 4} {a : Mem}

theorem opLdg_posted (hb : (m.ix.ring h.toNat).bound = true) (hn : cnt.toNat + 1 ≤ (m.ix.ring h.toNat).n)
    (hf : cnt.toNat + 1 ≤ (m.ix.ring h.toNat).freeSlots) :
    opLdg h cnt a m = Out.act (.adv h.toNat 0 0 (cnt.toNat + 1) :: (List.range (cnt.toNat + 1)).map fun q =>
      .post { kind := .ldg h.toNat (((m.ix.ring h.toNat).res.toNat + q) % (m.ix.ring h.toNat).n),
              loc := .virt ((eaLd m a / 128 * 128 + 128 * q) % 2 ^ 64), va := (eaLd m a / 128 * 128 + 128 * q) % 2 ^ 64,
              fn := m.fnOf m.ik m.ij, priv := m.privOf m.ik m.ij } none 0 0) := by
  unfold opLdg
  dsimp only
  rw [withOp_found (boundRing_ok hb), if_neg (by omega), if_neg (by omega)]
  rfl
theorem opLdg_unbound (hb : (m.ix.ring h.toNat).bound = false) : opLdg h cnt a m = Out.mkTrap 13 6 7 := by
  unfold opLdg
  rw [withOp_failed (boundRing_unbound hb)]
theorem opLdg_many (hb : (m.ix.ring h.toNat).bound = true) (hn : (m.ix.ring h.toNat).n < cnt.toNat + 1) :
    opLdg h cnt a m = Out.mkTrap 11 6 (h.toNat + (cnt.toNat + 1) * 32) := by
  have := cnt.isLt
  unfold opLdg
  dsimp only
  rw [withOp_found (boundRing_ok hb), if_pos hn, spRangeH, Nat.mod_eq_of_lt (by omega)]
theorem completes_ldg {s : State} {acts : List Act} (hm : s.mayIssue .ld (.ldg h cnt a) = true)
    (ho : opLdg h cnt a (s.meets .ld (.ldg h cnt a)) = .act acts) (hn : notMixed acts = true) :
    Completes s .ld (.ldg h cnt a) [] acts :=
  slotOp_out (f := opLdg h cnt a) hm ho hn
/-- Fetches of rows write no local row. -/
theorem notMixed_ldg (n : Nat) (f : Nat → Acc) :
    notMixed (.adv h.toNat 0 0 n :: (List.range n).map fun q => .post (f q) none 0 0) = true := by
  have hl : ((List.range n).map fun q => Act.post (f q) none 0 0).any Act.local = false := by
    rw [List.any_map, List.any_eq_false]
    exact fun q _ => by simp [Act.local]
  have ha : (Act.adv h.toNat 0 0 n :: (List.range n).map fun q => Act.post (f q) none 0 0).any Act.local = false := hl
  rw [notMixed, ha, Bool.false_and]
  rfl

theorem locBits_phys (m : State) (g p pa : Nat) : (m.locBits (.phys g p pa) != 0) = false := by
  simp [State.locBits]
theorem opLdAcq_phys {sc : BitVec 3} {x : DReg} {g p pa : Nat} (h : 2 ^ 63 ≤ eaLd m a) (h' : eaLd m a < 2 ^ 63 + 2 ^ 52)
    (hx : m.xlate m.ik m.ij (eaLd m a - 2 ^ 63) false false false = .ok g p pa) :
    opLdAcq sc x a m = .act [.post { kind := .acq, loc := .phys g p pa, lo := dregLo x (eaLd m a), len := dregLen x,
                                     scope := sc.toNat, ret := true, va := va52 (eaLd m a) }
      (some (dregDest m x)) (match x with | .v _ => rowMask | .s _ => row (2 ^ 64 - 1)) 1] := by
  refine (withOp_found (spaceSel_global h h' hx)).trans ?_
  rw [locBits_phys] <;> rfl
end

/-- Settles O26: an address that names a place posts its access with the place, and any other traps. -/
theorem postedLoadResults : Obligations.PostedLoadResults := by
  intro s d h cnt sc x a
  refine ⟨?ldPr, ?ldg, ?ldAcq⟩
  case ldPr =>
    intro i m ea k hm
    refine ⟨fun he hk => ?_, fun hb => ?_⟩
    · exact slotOp_out (f := opLdPr d a) hm (withOp_found (spaceWindow_ok he hk))
    · exact slotOp_trap (f := opLdPr d a) hm (withOp_failed (spaceWindow_bad hb))
  case ldg =>
    dsimp only
    intro hm
    refine ⟨fun hb => ?_, fun hb => ⟨fun hn hf => ?_, fun hn => ?_⟩⟩
    · exact slotOp_trap (f := opLdg h cnt a) hm (opLdg_unbound hb)
    · exact completes_ldg hm (opLdg_posted hb hn hf) (notMixed_ldg _ _)
    · exact slotOp_trap (f := opLdg h cnt a) hm (opLdg_many hb hn)
  case ldAcq =>
    intro i m ea k post hm
    have hlt : ea < 2 ^ 64 := eaOf_lt ..
    refine ⟨fun he hk => ?_, fun g p pa h1 h2 hx => ?_, fun h1 hb => ?_, fun h1 => ?_, fun kd lv h1 h2 hx => ?_⟩
    · exact slotOp_out (f := opLdAcq sc x a) hm (withOp_found (spaceSel_win he hk))
    · exact slotOp_out (f := opLdAcq sc x a) hm (opLdAcq_phys h1 h2 hx)
    · exact slotOp_trap (f := opLdAcq sc x a) hm (withOp_failed (spaceSel_badWindow h1 hb))
    · exact slotOp_trap (f := opLdAcq sc x a) hm (withOp_failed (spaceSel_far h1 hlt))
    · exact slotOp_trap (f := opLdAcq sc x a) hm (withOp_failed (spaceSel_fault h1 h2 hx))

/-! ### Stores (R171 to R177, R190, R229) -/

/-- An offset that R210 admits in no ring of its size. -/
theorem sval20_outside {o : BitVec 20} {n : Nat} (h : 2 ^ 19 ≤ o.toNat ∨ n ≤ o.toNat) :
    sval 20 o.toNat < 0 ∨ (n : Int) ≤ sval 20 o.toNat := by
  by_cases hl : 2 ^ 19 ≤ o.toNat
  · exact .inl (sval20_large hl)
  · rw [sval20_small (by omega)]
    omega

section
variable {m : State} {v : VReg} {n : BitVec 6} {x : DReg} {sc : BitVec 3} {a : Mem}

theorem opStRow_near (hf : m.ix.fenced = false) (h : eaSt m a < 2 ^ 20) :
    opStRow v a m = .act [.pad (eaSt m a / 128) rowMask (row (m.rdV 7 v.f v.n.toNat))] := by
  unfold opStRow
  rw [localPath_ok _ hf, withOp_found (spaceLocal_ok h)]
theorem opStRow_far (hf : m.ix.fenced = false) (h : 2 ^ 20 ≤ eaSt m a) : opStRow v a m = Out.mkTrap 11 7 (eaSt m a) :=
  (localPath_ok _ hf).trans (withOp_failed (spaceLocal_far h))
theorem opStS_near (hf : m.ix.fenced = false) (h : eaSt m a < 2 ^ 20) :
    opStS n a m = .act [.pad (eaSt m a / 128) (row (onesAt (64 * (eaSt m a / 8 % 16)) 64))
      (row (m.rdS 7 n.toNat <<< (64 * (eaSt m a / 8 % 16))))] := by
  unfold opStS
  dsimp only
  rw [localPath_ok _ hf, withOp_found (spaceLocal_ok h), bitsAt_eq]
  rfl
theorem opStS_far (hf : m.ix.fenced = false) (h : 2 ^ 20 ≤ eaSt m a) : opStS n a m = Out.mkTrap 11 7 (eaSt m a) :=
  (localPath_ok _ hf).trans (withOp_failed (spaceLocal_far h))
theorem opStSb_near (hf : m.ix.fenced = false) (h : eaSt m a < 2 ^ 19) :
    opStSb v a m = .act [.sb (eaSt m a / 128) (row (m.rdV 7 v.f v.n.toNat))] := by
  unfold opStSb
  rw [localPath_ok _ hf, withOp_found (spaceBank_ok h)]
theorem opStSb_far (hf : m.ix.fenced = false) (h : 2 ^ 19 ≤ eaSt m a) : opStSb v a m = Out.mkTrap 11 7 (eaSt m a) :=
  (localPath_ok _ hf).trans (withOp_failed (spaceBank_far h))

theorem opStH_free (hf : m.ix.fenced = false) (hb : (m.ix.ring a.base.toNat).bound = true) (h1 : a.off.toNat < 2 ^ 19)
    (h2 : a.off.toNat < (m.ix.ring a.base.toNat).n) (h3 : a.off.toNat < (m.ix.ring a.base.toNat).freeSlots) :
    opStH v a m = .act [.pad ((m.ix.ring a.base.toNat).base +
        ((m.ix.ring a.base.toNat).res.toNat + a.off.toNat) % (m.ix.ring a.base.toNat).n) rowMask (row (m.rdV 7 v.f v.n.toNat)),
      .made a.base.toNat a.off.toNat] := by
  unfold opStH
  dsimp only
  rw [localPath_ok _ hf, withOp_found (boundRing_ok hb), sval20_small h1, if_neg (by omega), Int.toNat_natCast, if_neg (by omega)]
  rfl
theorem opStH_unbound (hf : m.ix.fenced = false) (hb : (m.ix.ring a.base.toNat).bound = false) :
    opStH v a m = Out.mkTrap 13 7 7 := by
  unfold opStH
  rw [localPath_ok _ hf, withOp_failed (boundRing_unbound hb)]
theorem opStH_outside (hf : m.ix.fenced = false) (hb : (m.ix.ring a.base.toNat).bound = true)
    (h : 2 ^ 19 ≤ a.off.toNat ∨ (m.ix.ring a.base.toNat).n ≤ a.off.toNat) :
    opStH v a m = Out.mkTrap 11 7 (a.base.toNat + a.off.toNat * 32) := by
  unfold opStH
  dsimp only
  rw [localPath_ok _ hf, withOp_found (boundRing_ok hb), if_pos (sval20_outside h), spRangeH, Nat.mod_eq_of_lt a.off.isLt]

theorem postGlobal_posted {q : AccKind} {g p pa : Nat} (h : eaSt m a < 2 ^ 52)
    (hx : m.xlate m.ik m.ij (eaSt m a) true false false = .ok g p pa) :
    postGlobal m q x a = .act [.post { kind := q, loc := .phys g p pa, lo := dregLo x (eaSt m a), len := dregLen x,
                                       data := row (dregVal m 7 x), va := va52 (eaSt m a) } none 0 0] :=
  withOp_found (spaceGlobal_ok h hx)
theorem postGlobal_far {q : AccKind} (h : 2 ^ 52 ≤ eaSt m a) :
    postGlobal m q x a = Out.mkTrap 9 7 (7 + 16) (eaSt m a % 2 ^ 52) :=
  withOp_failed (spaceGlobal_far h)
theorem postGlobal_fault {q : AccKind} {kd lv : Nat} (h : eaSt m a < 2 ^ 52)
    (hx : m.xlate m.ik m.ij (eaSt m a) true false false = .fault kd lv) :
    postGlobal m q x a = Out.mkTrap 9 7 (kd + 16 + lv * 64) (eaSt m a % 2 ^ 52) :=
  withOp_failed (spaceGlobal_fault h hx)

theorem opStRel_phys {g p pa : Nat} (h : 2 ^ 63 ≤ eaSt m a) (h' : eaSt m a < 2 ^ 63 + 2 ^ 52)
    (hx : m.xlate m.ik m.ij (eaSt m a - 2 ^ 63) true false false = .ok g p pa) :
    opStRel sc x a m = .act [.post { kind := .rel, loc := .phys g p pa, lo := dregLo x (eaSt m a), len := dregLen x,
                                     data := row (dregVal m 7 x), scope := sc.toNat, va := va52 (eaSt m a) } none 0 0] :=
  withOp_found (spaceSel_global h h' hx)
end

/-- Settles O27: an address that names a place stores there or posts the bytes with the place, and any other traps. -/
theorem storeResults : Obligations.StoreResults := by
  intro s v n x sc a
  dsimp only
  refine ⟨?stRow, ?stS, ?stSb, ?stH, ?stg, ?stNt, ?stPr, ?relPeer, ?relGlobal, ?stNop, ?rowFar, ?sFar, ?sbFar, ?hUnbound, ?hOutside,
    ?prBad, ?relBad, ?stgFar, ?ntFar, ?relFar, fun kd lv => ⟨?stgFault, ?ntFault, ?relFault⟩⟩
  case stRow => exact fun hm ⟨hf, he⟩ => slotOp_out (f := opStRow v a) hm (opStRow_near hf he)
  case stS => exact fun hm ⟨hf, he⟩ => slotOp_out (f := opStS n a) hm (opStS_near hf he)
  case stSb => exact fun hm ⟨hf, he⟩ => slotOp_out (f := opStSb v a) hm (opStSb_near hf he)
  case stH => exact fun hm ⟨hf, hb, h1, h2, h3⟩ => slotOp_out (f := opStH v a) hm (opStH_free hf hb h1 h2 h3)
  case stg =>
    rintro l hm ⟨g, p, pa, he, hx, rfl⟩
    exact slotOp_out (f := opStg x a) hm (postGlobal_posted he hx)
  case stNt =>
    rintro l hm ⟨g, p, pa, he, hx, rfl⟩
    exact slotOp_out (f := opStNt x a) hm (postGlobal_posted he hx)
  case stPr => exact fun hm ⟨he, hk⟩ => slotOp_out (f := opStPr v a) hm (withOp_found (spaceWindow_ok he hk))
  case relPeer => exact fun hm ⟨he, hk⟩ => slotOp_out (f := opStRel sc x a) hm (withOp_found (spaceSel_win he hk))
  case relGlobal => exact fun g p pa hm ⟨h, h', hx⟩ => slotOp_out (f := opStRel sc x a) hm (opStRel_phys h h' hx)
  case stNop => exact fun hm => slotOp_out (f := fun _ => {}) hm rfl
  case rowFar => exact fun hm ⟨hf, he⟩ => slotOp_trap (f := opStRow v a) hm (opStRow_far hf he)
  case sFar => exact fun hm ⟨hf, he⟩ => slotOp_trap (f := opStS n a) hm (opStS_far hf he)
  case sbFar => exact fun hm ⟨hf, he⟩ => slotOp_trap (f := opStSb v a) hm (opStSb_far hf he)
  case hUnbound => exact fun hm ⟨hf, hb⟩ => slotOp_trap (f := opStH v a) hm (opStH_unbound hf hb)
  case hOutside => exact fun hm ⟨hf, hb, ho⟩ => slotOp_trap (f := opStH v a) hm (opStH_outside hf hb ho)
  case prBad => exact fun hm hb => slotOp_trap (f := opStPr v a) hm (withOp_failed (spaceWindow_bad hb))
  case relBad => exact fun hm ⟨he, hb⟩ => slotOp_trap (f := opStRel sc x a) hm (withOp_failed (spaceSel_badWindow he hb))
  case stgFar => exact fun hm he => slotOp_trap (f := opStg x a) hm (postGlobal_far he)
  case ntFar => exact fun hm he => slotOp_trap (f := opStNt x a) hm (postGlobal_far he)
  case relFar => exact fun hm he => slotOp_trap (f := opStRel sc x a) hm (withOp_failed (spaceSel_far he (eaOf_lt ..)))
  case stgFault => exact fun hm ⟨_, he, hx⟩ => slotOp_trap (f := opStg x a) hm (postGlobal_fault (by omega) hx)
  case ntFault => exact fun hm ⟨_, he, hx⟩ => slotOp_trap (f := opStNt x a) hm (postGlobal_fault (by omega) hx)
  case relFault => exact fun hm ⟨h, h', hx⟩ => slotOp_trap (f := opStRel sc x a) hm (withOp_failed (spaceSel_fault h h' hx))

/-! ### Atomics (R191, R229) -/

/-- The access that an atomic posts at a place. -/
def atomicPost (m : State) (op : Nat) (gl w64 : Bool) (r : BitVec 6) (a : Mem) (l : Loc) : Act :=
  let len := if w64 then 8 else 4
  .post { kind := .atom op w64 (BitVec.ofNat 64 (m.rdS 7 r.toNat)) (BitVec.ofNat 64 (if op = 4 then m.rdS 7 (r.toNat + 1) else 0)),
          loc := l, lo := eaSt m a % 128 / len * len, len := len, ret := r.toNat ≠ 0, va := eaSt m a % 2 ^ 52,
          open_ := m.locBits l != 0, spoil := m.locBits l }
    (if r.toNat = 0 then none else some (m.ix.sD r.toNat)) (row (2 ^ 64 - 1)) (if gl then 1 else 6)

section
variable {m : State} {op : Nat} {w64 : Bool} {r : BitVec 6} {a : Mem}

theorem atomic_win (h : eaSt m a < 2 ^ 22) (hk : m.coreOk (clusterOf m.ik * 4 + eaSt m a / 2 ^ 20 % 4) = true) :
    atomic m op false w64 r a =
      .act [atomicPost m op false w64 r a (.win (clusterOf m.ik * 4 + eaSt m a / 2 ^ 20 % 4) (eaSt m a / 128 % 2 ^ 13))] :=
  withOp_found (spaceWindow_ok h hk)
theorem atomic_badWindow (h : 2 ^ 22 ≤ eaSt m a ∨ m.coreOk (clusterOf m.ik * 4 + eaSt m a / 2 ^ 20 % 4) = false) :
    atomic m op false w64 r a = Out.mkTrap 11 7 (eaSt m a) :=
  withOp_failed (spaceWindow_bad h)
theorem atomic_phys {g p pa : Nat} (h : eaSt m a < 2 ^ 52)
    (hx : m.xlate m.ik m.ij (eaSt m a) true false (op == 1 || op == 2 || 5 ≤ op) = .ok g p pa) :
    atomic m op true w64 r a = .act [atomicPost m op true w64 r a (.phys g p pa)] :=
  withOp_found (spaceGlobal_ok h hx)
theorem atomic_far (h : 2 ^ 52 ≤ eaSt m a) : atomic m op true w64 r a = Out.mkTrap 9 7 (7 + 16) (eaSt m a % 2 ^ 52) :=
  withOp_failed (spaceGlobal_far h)
theorem atomic_fault {kd lv : Nat} (h : eaSt m a < 2 ^ 52)
    (hx : m.xlate m.ik m.ij (eaSt m a) true false (op == 1 || op == 2 || 5 ≤ op) = .fault kd lv) :
    atomic m op true w64 r a = Out.mkTrap 9 7 (kd + 16 + lv * 64) (eaSt m a % 2 ^ 52) :=
  withOp_failed (spaceGlobal_fault h hx)
end

section
variable {s : State} {mk : Bool → Instr} {op : Nat} {w64 : Bool} {r : BitVec 6} {a : Mem}
  (hexec : ∀ gl, exec (mk gl) s = slotOp .st (mk gl) (fun m => atomic m op gl w64 r a) s)
include hexec

theorem completes_atomic {gl : Bool} {acts : List Act} (hm : s.mayIssue .st (mk gl) = true)
    (ho : atomic (s.meets .st (mk gl)) op gl w64 r a = .act acts) (hl : notMixed acts = true) :
    Completes s .st (mk gl) [] acts :=
  (hexec gl).trans (slotOp_out (f := fun m => atomic m op gl w64 r a) hm ho hl)
theorem traps_atomic {gl : Bool} {t : TrapReq} (hm : s.mayIssue .st (mk gl) = true)
    (ho : atomic (s.meets .st (mk gl)) op gl w64 r a = { trap := some t }) : Traps s .st (mk gl) t :=
  (hexec gl).trans (slotOp_trap (f := fun m => atomic m op gl w64 r a) hm ho)
end

/-! ### The word an atomic leaves (R191) -/

section
variable {w : Nat} (old v v2 : BitVec w)

theorem atomNew_add : BitVec.ofNat w (atomNew 0 w old.toNat v.toNat v2.toNat) = old + v := by
  apply BitVec.eq_of_toNat_eq
  simp [atomNew]
theorem atomNew_min :
    BitVec.ofNat w (atomNew 1 w old.toNat v.toNat v2.toNat) = if old.slt v then old else v := by
  show BitVec.ofNat w (wrap w (min (sval w old.toNat) (sval w (v.toNat % 2 ^ w)))) = _
  rw [Nat.mod_eq_of_lt v.isLt, sval_toInt, sval_toInt, wrap_ofInt, BitVec.ofNat_toNat, BitVec.setWidth_eq]
  by_cases h : old.toInt < v.toInt
  · rw [min_eq_left h.le, BitVec.ofInt_toInt, if_pos (BitVec.slt_iff_toInt_lt.2 h)]
  · rw [min_eq_right (by omega), BitVec.ofInt_toInt, if_neg (mt BitVec.slt_iff_toInt_lt.1 h)]
theorem atomNew_max :
    BitVec.ofNat w (atomNew 2 w old.toNat v.toNat v2.toNat) = if old.slt v then v else old := by
  show BitVec.ofNat w (wrap w (max (sval w old.toNat) (sval w (v.toNat % 2 ^ w)))) = _
  rw [Nat.mod_eq_of_lt v.isLt, sval_toInt, sval_toInt, wrap_ofInt, BitVec.ofNat_toNat, BitVec.setWidth_eq]
  by_cases h : old.toInt < v.toInt
  · rw [max_eq_right h.le, BitVec.ofInt_toInt, if_pos (BitVec.slt_iff_toInt_lt.2 h)]
  · rw [max_eq_left (by omega), BitVec.ofInt_toInt, if_neg (mt BitVec.slt_iff_toInt_lt.1 h)]
theorem atomNew_exchange : BitVec.ofNat w (atomNew 3 w old.toNat v.toNat v2.toNat) = v := by
  show BitVec.ofNat w (v.toNat % 2 ^ w) = v
  rw [Nat.mod_eq_of_lt v.isLt, BitVec.ofNat_toNat, BitVec.setWidth_eq]
theorem atomNew_compare : BitVec.ofNat w (atomNew 4 w old.toNat v.toNat v2.toNat) = if old = v then v2 else old := by
  show BitVec.ofNat w (if old.toNat = v.toNat % 2 ^ w then v2.toNat % 2 ^ w else old.toNat) = _
  rw [Nat.mod_eq_of_lt v.isLt, Nat.mod_eq_of_lt v2.isLt]
  by_cases h : old = v
  · rw [if_pos (congrArg _ h), if_pos h, BitVec.ofNat_toNat, BitVec.setWidth_eq]
  · rw [if_neg (mt BitVec.eq_of_toNat_eq h), if_neg h, BitVec.ofNat_toNat, BitVec.setWidth_eq]
theorem atomNew_and : BitVec.ofNat w (atomNew 5 w old.toNat v.toNat v2.toNat) = old &&& v := by
  show BitVec.ofNat w (old.toNat &&& v.toNat % 2 ^ w) = _
  rw [Nat.mod_eq_of_lt v.isLt, ← BitVec.toNat_and, BitVec.ofNat_toNat, BitVec.setWidth_eq]
theorem atomNew_or : BitVec.ofNat w (atomNew 6 w old.toNat v.toNat v2.toNat) = old ||| v := by
  show BitVec.ofNat w (old.toNat ||| v.toNat % 2 ^ w) = _
  rw [Nat.mod_eq_of_lt v.isLt, ← BitVec.toNat_or, BitVec.ofNat_toNat, BitVec.setWidth_eq]
theorem atomNew_xor : BitVec.ofNat w (atomNew 7 w old.toNat v.toNat v2.toNat) = old ^^^ v := by
  show BitVec.ofNat w (old.toNat ^^^ v.toNat % 2 ^ w) = _
  rw [Nat.mod_eq_of_lt v.isLt, ← BitVec.toNat_xor, BitVec.ofNat_toNat, BitVec.setWidth_eq]
end

/-- Settles O28: an atomic posts its operation at its place or traps, and each operation leaves the word of R191. -/
theorem atomicResults : Obligations.AtomicResults := by
  refine ⟨fun s w64 r a => ?posted, fun w old v v2 _ _ => ?words⟩
  case posted =>
    intro atom
    have key (mk : Bool → Instr) (op : Nat)
        (hexec : ∀ gl, exec (mk gl) s = slotOp .st (mk gl) (fun m => atomic m op gl w64 r a) s) : atom mk op := by
      refine ⟨fun hm => ⟨fun h hk => ?_, fun hb => ?_⟩, fun hm => ⟨fun g p pa h hx => ?_, fun h => ?_, fun kd lv h hx => ?_⟩⟩
      · exact completes_atomic hexec hm (atomic_win h hk) rfl
      · exact traps_atomic hexec hm (atomic_badWindow hb)
      · exact completes_atomic hexec hm (atomic_phys h hx) rfl
      · exact traps_atomic hexec hm (atomic_far h)
      · exact traps_atomic hexec hm (atomic_fault h hx)
    exact ⟨key (.aadd · w64 r a) 0 fun _ => rfl, key (.amin · w64 r a) 1 fun _ => rfl, key (.amax · w64 r a) 2 fun _ => rfl,
      key (.axch · w64 r a) 3 fun _ => rfl, key (.acas · w64 r a) 4 fun _ => rfl, key (.aand · w64 r a) 5 fun _ => rfl,
      key (.aor · w64 r a) 6 fun _ => rfl, key (.axor · w64 r a) 7 fun _ => rfl⟩
  case words =>
    exact ⟨atomNew_add .., atomNew_min .., atomNew_max .., atomNew_exchange .., atomNew_compare .., atomNew_and ..,
      atomNew_or .., atomNew_xor ..⟩


/-! ### What a write to a scratchpad row changes (R172, R251, R278, R340) -/

theorem landMeets_setCore_any {s : State} {k q : Nat} {c : Core} {d : Dest} (hc : c.copies = (s.core k).copies)
    (ht : ∀ j, (c.ctx j).tls = ((s.core k).ctx j).tls) (hu : ∀ w, (s.core k).updBusy w = false → c.updBusy w = false)
    (h : s.landMeets q d = false) : (s.setCore k c).landMeets q d = false := by
  by_cases hq : q = k
  · subst hq
    exact landMeets_setCore hc ht hu h
  · cases d with
    | pad r =>
      have hp : (s.setCore k c).coloPend q r (2 ^ 64) = s.coloPend q r (2 ^ 64) := by
        refine coloPend_congr (fun n => ?_) q r _
        by_cases hn : n = k
        · subst hn
          simp only [State.ctx, core_setCore_same]
          exact ⟨hc, ht⟩
        · simp only [State.ctx, core_setCore_other _ _ hn]
          exact ⟨trivial, fun _ => trivial⟩
      simpa only [State.landMeets, hp, core_setCore_other _ _ hq] using h
    | _ => rfl
theorem landMeets_modCore_plain {s : State} {k q : Nat} {f : Core → Core} {d : Dest} (hc : ∀ c, (f c).copies = c.copies)
    (hx : ∀ c, (f c).ctxs = c.ctxs) (hm : ∀ c, (f c).mq = c.mq) (h : s.landMeets q d = false) :
    (s.modCore k f).landMeets q d = false := by
  refine landMeets_setCore_any (hc _) (fun j => ?_) (fun w hw => ?_) h
  · rw [Core.ctx, hx]; rfl
  · rwa [updBusy_eq, hx, hm, ← updBusy_eq]
theorem landMeets_mxTouch_any {s : State} {k q : Nat} {d : Dest} (w : Nat) (u : RowUse) (h : s.landMeets q d = false) :
    (s.mxTouch k w u).landMeets q d = false := by
  unfold State.mxTouch
  split
  · refine landMeets_setCore_any rfl (fun _ => rfl) (fun r hr => ?_) h
    rw [updBusy_eq] at hr ⊢
    rwa [any_mxHit]
  · exact h
theorem landMeets_notePad_any {s : State} {k q : Nat} {d : Dest} (w : Nat) (m : Row) (h : s.landMeets q d = false) :
    (s.notePad k w m).landMeets q d = false := by
  unfold State.notePad
  split <;> exact h

theorem ctx_modCore (s : State) (k : Nat) {f : Core → Core} (hf : ∀ c, (f c).ctxs = c.ctxs) (q i : Nat) :
    (s.modCore k f).ctx q i = s.ctx q i := by
  by_cases hq : q = k
  · rw [hq, State.ctx, State.modCore, core_setCore_same, Core.ctx, hf]; rfl
  · rw [State.ctx, State.modCore, core_setCore_other _ _ hq]; rfl
theorem padRow_modCore (s : State) (k : Nat) {f : Core → Core} (hf : ∀ c, (f c).pad = c.pad) (q w : Nat) :
    (s.modCore k f).padRow q w = s.padRow q w := by
  by_cases hq : q = k
  · rw [hq, State.padRow, State.modCore, core_setCore_same, hf]; rfl
  · rw [State.padRow, State.modCore, core_setCore_other _ _ hq]; rfl
theorem padRow_modCtx (s : State) (k j : Nat) (f : Ctx → Ctx) (q w : Nat) : (s.modCtx k j f).padRow q w = s.padRow q w :=
  padRow_modCore s k (f := fun c => c.setCtx j (f (c.ctx j))) (fun _ => rfl) q w
theorem ctx_notePad (s : State) (k w : Nat) (m : Row) (q i : Nat) : (s.notePad k w m).ctx q i = s.ctx q i := by
  rw [State.ctx, core_notePad]; rfl
theorem padRow_notePad (s : State) (k w : Nat) (m : Row) (q r : Nat) : (s.notePad k w m).padRow q r = s.padRow q r := by
  rw [State.padRow, core_notePad]; rfl
theorem ctx_mxTouch (s : State) (k w : Nat) (u : RowUse) (q i : Nat) : (s.mxTouch k w u).ctx q i = s.ctx q i := by
  unfold State.mxTouch
  split
  · exact ctx_modCore s k (by exact fun _ => rfl) q i
  · rfl
theorem padRow_mxTouch (s : State) (k w : Nat) (u : RowUse) (q r : Nat) : (s.mxTouch k w u).padRow q r = s.padRow q r := by
  unfold State.mxTouch
  split
  · exact padRow_modCore s k (by exact fun _ => rfl) q r
  · rfl

/-- A row of a core's scratchpad set. -/
def State.setPad (s : State) (k w : Nat) (v : Row) : State := s.modCore k fun c => { c with pad := tset 0 c.pad w v }

theorem ctx_setPad (s : State) (k w : Nat) (v : Row) (q i : Nat) : (s.setPad k w v).ctx q i = s.ctx q i :=
  ctx_modCore s k (by exact fun _ => rfl) q i
theorem padRow_setPad_same (s : State) (k : Nat) {w : Nat} (v : Row) : (s.setPad k (w % 8192) v).padRow k w = v.toNat := by
  rw [State.padRow, State.setPad, State.modCore, core_setCore_same, tget_tset, if_pos rfl]
theorem padRow_setPad_other (s : State) {k w q r : Nat} (v : Row) (h : q ≠ k ∨ r % 8192 ≠ w) :
    (s.setPad k w v).padRow q r = s.padRow q r := by
  by_cases hq : q = k
  · rw [hq, State.padRow, State.setPad, State.modCore, core_setCore_same, tget_tset, if_neg (h.resolve_left (by simp [hq]))]; rfl
  · rw [State.padRow, State.setPad, State.modCore, core_setCore_other _ _ hq]; rfl
theorem landMeets_setPad {s : State} {k w q : Nat} {v : Row} {d : Dest} (h : s.landMeets q d = false) :
    (s.setPad k w v).landMeets q d = false :=
  landMeets_modCore_plain (fun _ => by rfl) (fun _ => by rfl) (fun _ => by rfl) h

section
variable (s : State) (k w : Nat) (mask v : Row) (key : Nat)

/-- A row write disturbs the entries that read the row, is noted, and sets the row. -/
theorem storeRow_eq : ∃ m x, s.storeRow k w mask v key = ((s.mxTouch k (w % 8192)).notePad k (w % 8192) m).setPad k (w % 8192) x := by
  unfold State.storeRow
  dsimp only
  split
  · exact ⟨rowMask, _, by rw [State.putPad, Nat.mod_mod]; rfl⟩
  · exact ⟨mask, _, rfl⟩
theorem coresOnly_storeRow : CoresOnly s (s.storeRow k w mask v key) := by
  obtain ⟨m, x, h⟩ := storeRow_eq s k w mask v key
  rw [h]
  exact ((coresOnly_mxTouch ..).trans (coresOnly_notePad ..)).trans rfl
theorem ctx_storeRow (q i : Nat) : (s.storeRow k w mask v key).ctx q i = s.ctx q i := by
  obtain ⟨m, x, h⟩ := storeRow_eq s k w mask v key
  rw [h, ctx_setPad, ctx_notePad, ctx_mxTouch]
theorem padRow_storeRow_other {q r : Nat} (hr : q ≠ k ∨ r % 8192 ≠ w % 8192) :
    (s.storeRow k w mask v key).padRow q r = s.padRow q r := by
  obtain ⟨m, x, h⟩ := storeRow_eq s k w mask v key
  rw [h, padRow_setPad_other _ _ hr, padRow_notePad, padRow_mxTouch]
theorem landMeets_storeRow {q : Nat} {d : Dest} (hd : s.landMeets q d = false) :
    (s.storeRow k w mask v key).landMeets q d = false := by
  obtain ⟨m, x, h⟩ := storeRow_eq s k w mask v key
  rw [h]
  exact landMeets_setPad (landMeets_notePad_any _ _ (landMeets_mxTouch_any _ _ hd))
/-- A row that no engine is at work on holds what is stored. -/
theorem padRow_storeRow_clear (h : s.landMeets k (.pad (w % 8192)) = false) :
    (s.storeRow k w mask v).padRow k w = (blend mask v (row (s.padRow k w))).toNat := by
  have hl : ((s.mxTouch k (w % 8192)).coloPend k (w % 8192) (2 ^ 64) || ((s.mxTouch k (w % 8192)).core k).updBusy (w % 8192)) = false :=
    landMeets_mxTouch_any _ _ h
  unfold State.storeRow
  dsimp only
  rw [hl, if_neg Bool.false_ne_true, padRow_mxTouch]
  refine (padRow_setPad_same ..).trans ?_
  rw [State.padRow, State.padRow, Nat.mod_mod]
end

/-- Bytes put into a row are read there. -/
theorem bitsAt_blend_bytes (old : Row) {lo len v : Nat} (h : lo + len ≤ 128) :
    bitsAt (blend (row (onesAt (8 * lo) (8 * len))) (row (v <<< (8 * lo))) old).toNat (8 * lo) (8 * len) = v % 2 ^ (8 * len) := by
  apply Nat.eq_of_testBit_eq
  intro i
  rw [bitsAt, Nat.testBit_mod_two_pow, Nat.testBit_mod_two_pow, Nat.testBit_shiftRight]
  by_cases hi : i < 8 * len
  · rw [testBit_blend _ _ _ (by omega), testBit_row _ (by omega), testBit_row _ (by omega), onesAt]
    simp [Nat.testBit_shiftLeft, hi]
  · simp [hi]

/-! ### What an access leaves to the contexts (R176 to R180) -/

/-- A step that leaves every context as it is and engages no further row, and that waits for nothing while every unit is ready. -/
structure Served (s t : State) : Prop where
  ctx : ∀ k j, t.ctx k j = s.ctx k j
  clear : ∀ k w, s.landMeets k (.pad w) = false → t.landMeets k (.pad w) = false
  ready : s.unitsReady → t.held = s.held ∧ t.unitsReady

theorem Served.refl (s : State) : Served s s := ⟨fun _ _ => rfl, fun _ _ h => h, fun h => ⟨rfl, h⟩⟩
theorem Served.trans {s t u : State} (h : Served s t) (g : Served t u) : Served s u := by
  refine ⟨fun k j => (g.ctx k j).trans (h.ctx k j), fun k w hw => g.clear k w (h.clear k w hw), fun r => ?_⟩
  obtain ⟨hh, hr⟩ := h.ready r
  exact ⟨(g.ready hr).1.trans hh, (g.ready hr).2⟩
theorem Served.ite {s t u : State} {c : Prop} [Decidable c] (h : Served s t) (g : Served s u) : Served s (if c then t else u) := by
  split
  · exact h
  · exact g
theorem served_fst {α : Type} {s u : State} {p : State × α} {a : α} (h : p = (u, a)) (hp : Served s p.1) : Served s u := by
  rwa [h] at hp
/-- An access through L1 changes its lines alone of the cores. -/
theorem L1Step.served {s t : State} (h : L1Step s t) : Served s t := by
  have hc (q : Nat) : (t.core q).copies = (s.core q).copies ∧ (∀ j, (t.core q).ctx j = (s.core q).ctx j) ∧
      ∀ w, (t.core q).updBusy w = (s.core q).updBusy w := by
    obtain ⟨l, hl⟩ := h.lines q
    rw [hl]
    exact ⟨rfl, fun _ => rfl, fun _ => rfl⟩
  have hp (k w key : Nat) : t.coloPend k w key = s.coloPend k w key :=
    coloPend_congr (fun q => ⟨(hc q).1, fun j => congrArg Ctx.tls ((hc q).2.1 j)⟩) k w key
  exact ⟨fun k => (hc k).2.1, fun k w hw => by rwa [State.landMeets, hp, (hc k).2.2], h.ready⟩
theorem MemStep.served {s t : State} (h : MemStep s t) : Served s t := h.l1.served
/-- A step that changes none of what `Served` speaks of. -/
theorem served_of_same {s t : State} (hc : t.cores = s.cores) (hr : t.regs = s.regs) (hq : t.quar = s.quar) (hs : t.stack = s.stack)
    (hh : t.held = s.held) : Served s t := by
  have hcore (q : Nat) : t.core q = s.core q := by rw [State.core, hc]; rfl
  have hctx (q j : Nat) : t.ctx q j = s.ctx q j := by rw [State.ctx, hcore]; rfl
  have hp (k w key : Nat) : t.coloPend k w key = s.coloPend k w key :=
    coloPend_congr (fun q => ⟨congrArg Core.copies (hcore q), fun j => congrArg Ctx.tls (hctx q j)⟩) k w key
  exact ⟨hctx, fun k w hw => by rwa [State.landMeets, hp, hcore],
    fun r => ⟨hh, unitsReady_of_lines r hr hq fun e he => .inl (hs ▸ he)⟩⟩
/-- Bytes put into LPDDR 6 past the stacks. -/
theorem memStep_dram (s : State) (m : Memory) (b : Tab Bool) : MemStep s { s with dram := m, badUnits := b } :=
  memStep_of_lines rfl (fun _ => rfl) fun _ he => .inl he
theorem served_storeRow (s : State) (k w : Nat) (mask v : Row) (key : Nat) : Served s (s.storeRow k w mask v key) := by
  have ho := coresOnly_storeRow s k w mask v key
  refine ⟨ctx_storeRow s k w mask v key, fun _ _ => landMeets_storeRow s k w mask v key, fun r => ⟨ho.held, ?_⟩⟩
  exact unitsReady_of_lines r ho.regs (by rw [ho]) fun e he => .inl (by rw [ho] at he; exact he)

theorem served_physWrite (s : State) (t part pa n v : Nat) (own : Nat × Nat) : Served s (s.physWrite t part pa n v own) :=
  (memStep_lpSoft s part pa n v own).served.ite (Served.ite (served_of_same rfl rfl rfl rfl rfl) (served_of_same rfl rfl rfl rfl rfl))
theorem served_ueMsg (s : State) (k j pa : Nat) : Served s (s.ueMsg k j pa) := (l1Step_ueMsg ..).served

theorem served_accWrite (s : State) (k j : Nat) (a : Acc) (v : Nat) : Served s (accWrite s k j a v) := by
  unfold accWrite
  split
  · exact served_storeRow ..
  · next t part pa _ =>
    dsimp only
    refine (l1Step_l1Write ..).served.ite (Served.trans (t := if t = 0 then s.l1Evict k (a.pa pa / 128) else s) ?_ ?_)
    · exact (l1Step_l1Evict ..).served.ite (.refl s)
    · refine (served_ueMsg ..).ite (Served.ite ((memStep_lpClean _ part (a.pa pa)).served.trans ?_) (served_physWrite ..))
      generalize State.lpClean _ part (a.pa pa) = u
      split
      · next h => exact (memStep_hold fun r => by simp [sliceReady_of r, chanReady_of r] at h).served
      · exact (Served.refl u).ite ((memStep_dram u _ _).trans (memStep_tableSoft ..)).served
  · exact .refl s

/-! ### An access leaves the list (R177, R183) -/

/-- A context without access n of its list. -/
def Ctx.without (x : Ctx) (n : Nat) : Ctx := { x with posted := dropAt x.posted n }

section
variable (s : State) (k j n : Nat) (a : Acc)

/-- Beside the list of its context, an access that leaves changes the escape channel alone. -/
theorem accDone_only : ∃ e, accDone s k j n a =
    { s.modCtx k j (·.without n) with escaped := e } := by
  unfold accDone
  dsimp only
  split
  · exact ⟨_, rfl⟩
  · split
    · exact ⟨_, rfl⟩
    · exact ⟨_, rfl⟩
theorem ctx_accDone : (accDone s k j n a).ctx k j = (s.ctx k j).without n := by
  obtain ⟨e, h⟩ := accDone_only s k j n a
  rw [h]
  exact ctx_modCtx_same s k j (·.without n)
theorem padRow_accDone (q w : Nat) : (accDone s k j n a).padRow q w = s.padRow q w := by
  obtain ⟨e, h⟩ := accDone_only s k j n a
  rw [h]
  exact padRow_modCtx s k j (·.without n) q w
theorem landMeets_accDone {q : Nat} {d : Dest} (hd : s.landMeets q d = false) : (accDone s k j n a).landMeets q d = false := by
  obtain ⟨e, h⟩ := accDone_only s k j n a
  rw [h]
  exact landMeets_setCore_any (d := d) rfl (tls_setCtx rfl) (fun w => updBusy_setCtx fun hw => hw) hd
theorem held_accDone : (accDone s k j n a).held = s.held := by
  obtain ⟨e, h⟩ := accDone_only s k j n a
  rw [h]
  rfl
theorem unitsReady_accDone (hr : s.unitsReady) : (accDone s k j n a).unitsReady := by
  obtain ⟨e, h⟩ := accDone_only s k j n a
  rw [h]
  exact hr
end

/-- The memories of a device as R179 and R453 tell them apart. -/
def SameMemory (s t : State) : Prop :=
  ∀ b, (∀ p, t.lpByte p b = s.lpByte p b) ∧ t.host.read b = s.host.read b ∧ t.peer.read b = s.peer.read b
theorem SameMemory.trans {s t u : State} (h : SameMemory s t) (g : SameMemory t u) : SameMemory s u := by
  intro b
  obtain ⟨h1, h2, h3⟩ := h b
  obtain ⟨g1, g2, g3⟩ := g b
  exact ⟨fun p => (g1 p).trans (h1 p), g2.trans h2, g3.trans h3⟩
theorem CoresOnly.sameMemory {s t : State} (h : CoresOnly s t) : SameMemory s t := by
  rw [h]
  exact fun _ => ⟨fun _ => rfl, rfl, rfl⟩
theorem sameMemory_accDone (s : State) (k j n : Nat) (a : Acc) : SameMemory s (accDone s k j n a) := by
  obtain ⟨e, h⟩ := accDone_only s k j n a
  rw [h]
  exact fun _ => ⟨fun _ => rfl, rfl, rfl⟩

/-! ### A posted access performs (R177 to R180, R453) -/

theorem accGo_ready {s : State} {k j n : Nat} {a : Acc} {f : Acc → Bool} (hp : (s.ctx k j).posted[n]? = some a)
    (hr : accReady s k j n = true) (hf : f a = true) : accGo s k j n f = accPerform (accDone s k j n a) k j a := by
  simp only [accGo, hp, hf, hr, Bool.and_self, if_true]

/-- An access that returns nothing any more, and no row of `ldg`. -/
theorem plain_of {x : Ctx} {a : Acc} (hw : a.ret = true → ∀ p ∈ x.pend, p.acc ≠ some a.key) (hl : ∀ h w, a.kind ≠ .ldg h w) :
    Acc.plain x a = true := by
  have hrow : a.kind.rows = false := by
    cases hk : a.kind with
    | ldg h w => exact absurd hk (hl h w)
    | _ => rfl
  rw [Acc.plain, hrow, Bool.not_false, Bool.and_true, Bool.or_eq_true, Bool.not_eq_true']
  by_cases hret : a.ret = true
  · exact .inr (by simpa [List.any_eq_false] using hw hret)
  · exact .inl (Bool.eq_false_iff.2 hret)

section
variable {s : State} {k j n : Nat} {a : Acc} (hd : s.due [k, j, n]) (hp : (s.ctx k j).posted[n]? = some a)
  (hr : accReady s.fresh k j n = true)
include hd hp hr

theorem postedWritePerform_occurs (hw : a.ret = true → ∀ p ∈ (s.ctx k j).pend, p.acc ≠ some a.key)
    (hl : ∀ h w, a.kind ≠ .ldg h w) : Occurs s .postedWritePerform (accPerform (accDone s.fresh k j n a) k j a) := by
  refine occurs_event (f := evPosted) rfl hd.1 ?_
  simp only [evPosted, argN_fresh hd.2, List.getD_cons_zero, List.getD_cons_succ]
  exact accGo_ready hp hr (plain_of hw hl)
theorem ldgRowArrival_occurs {h w : Nat} (hk : a.kind = .ldg h w) :
    Occurs s .ldgRowArrival (accPerform (accDone s.fresh k j n a) k j a) := by
  refine occurs_event (f := evLdg) rfl hd.1 ?_
  simp only [evLdg, argN_fresh hd.2, List.getD_cons_zero, List.getD_cons_succ]
  exact accGo_ready hp hr (by rw [hk]; rfl)
end
theorem atomicReturn_occurs {s : State} {k j n : Nat} {l : List Nat} {a : Acc} (hd : s.due (k :: j :: n :: l))
    (hp : (s.ctx k j).posted[n]? = some a) (hr : accReady s.fresh k j n = true) (hret : a.ret = true) (ha : a.isAtom = true) :
    Occurs s .atomicReturn (accPerform (accDone s.fresh k j n a) k j a) := by
  refine occurs_event (f := evReturn) rfl hd.1 ?_
  simp only [evReturn, argN_fresh hd.2, List.getD_cons_zero, List.getD_cons_succ]
  exact accGo_ready hp hr (by rw [hret, ha]; rfl)

theorem accPerform_store {s : State} {k j : Nat} {a : Acc} (h : a.kind = .store ∨ a.kind = .nt) :
    accPerform s k j a = accWrite s k j a a.data.toNat := by
  unfold accPerform
  rcases h with h | h <;> simp only [h]
theorem accWrite_win {s : State} {k j : Nat} {a : Acc} {q w v : Nat} (h : a.loc = .win q w) : ∃ x,
    accWrite s k j a v = s.storeRow q w (row (onesAt (8 * a.lo) (8 * a.len))) x ∧ (a.spoil = 0 → x = row (v <<< (8 * a.lo))) := by
  refine ⟨_, by unfold accWrite; rw [h], fun h0 => if_pos h0⟩

/-- A store into a row that no engine is at work on puts its bytes there. -/
theorem bytes_accWrite_win {s : State} {k j : Nat} {a : Acc} {q w v : Nat} (h : a.loc = .win q w) (h0 : a.spoil = 0) (hw : w < 8192)
    (hl : a.lo + a.len ≤ 128) (hm : s.landMeets q (.pad w) = false) :
    bitsAt ((accWrite s k j a v).padRow q w) (8 * a.lo) (8 * a.len) = v % 2 ^ (8 * a.len) := by
  obtain ⟨x, hx, hv⟩ := accWrite_win (s := s) (k := k) (j := j) (v := v) h
  rw [hx, hv h0, padRow_storeRow_clear _ _ _ _ _ (by rwa [Nat.mod_eq_of_lt hw]), bitsAt_blend_bytes _ hl]

/-- What performs without an answer leaves the contexts as they are, and waits for nothing while every unit is ready. -/
theorem served_accPerform {s : State} {k j : Nat} {a : Acc}
    (h : a.kind = .store ∨ a.kind = .nt ∨ a.kind = .rel ∨ a.kind = .fence ∨ ∃ g, a.kind = .wb g) : Served s (accPerform s k j a) := by
  have hrel : Served s (if 2 ≤ a.scope then s.l1Release k j else s) := (l1Step_l1Release ..).served.ite (.refl s)
  unfold accPerform
  rcases h with h | h | h | h | ⟨g, h⟩ <;> simp only [h]
  · exact served_accWrite ..
  · exact served_accWrite ..
  · exact hrel.trans (served_accWrite ..)
  · exact (hrel.trans (l1Step_l1Discard ..).served).ite (.refl s)
  · exact (l1Step_l1FlushIf ..).served

/-- A store to host memory, while the host can be reached, changes its bytes alone (R453). -/
theorem accWrite_host {s : State} {k j : Nat} {a : Acc} {p pa v : Nat} (h : a.loc = .phys 1 p pa) (hh : s.hostOk = true) :
    accWrite s k j a v = { s with host := s.host.writeN (pa / 128 * 128 + a.lo) v a.len } := by
  unfold accWrite
  simp [h, State.physWBad, hh, State.physWrite, Acc.pa]

/-! ### An atomic performs and answers (R191) -/

theorem accRead_win {s : State} {k : Nat} {a : Acc} {q w : Nat} (h : a.loc = .win q w) (ho : a.open_ = false)
    (hm : s.landMeets q (.pad w) = false) : accRead s k a = (s, .ok (bitsAt (s.padRow q w) (8 * a.lo) (8 * a.len))) := by
  obtain ⟨h1, h2⟩ := Bool.or_eq_false_iff.1 hm
  unfold accRead
  simp only [h, ho, h1, h2, Bool.or_self, Bool.false_eq_true, if_false]

theorem ctx_accReturn (s : State) (k j key v : Nat) :
    ((accReturn s k j key v).ctx k j).posted = (s.ctx k j).posted ∧ ∀ p ∈ ((accReturn s k j key v).ctx k j).pend, p.acc ≠ some key := by
  unfold accReturn
  rw [ctx_modCtx_same]
  refine ⟨rfl, fun p hp => ?_⟩
  obtain ⟨q, -, rfl⟩ := List.mem_map.1 hp
  split
  · exact nofun
  · next h => exact h

/-- An atomic that returns its old word, on a row that no engine is at work on. -/
theorem accPerform_atom_win {s : State} {k j op q w : Nat} {w64 : Bool} {v v2 : Word} {a : Acc} (hk : a.kind = .atom op w64 v v2)
    (hl : a.loc = .win q w) (hret : a.ret = true) (ho : a.open_ = false) (hm : s.landMeets q (.pad w) = false)
    (hh : s.hostRefuses a = false) : ∃ x, accPerform s k j a = accReturn (accWrite (s.mxTouch q w .load) k j a
      (atomNew op (8 * a.len) (bitsAt (s.padRow q w) (8 * a.lo) (8 * a.len)) v.toNat v2.toNat)) k j a.key x := by
  have hr := accRead_win (k := k) hl ho (landMeets_mxTouch_any w .load hm (k := q))
  have ht : accTouch s a = s.mxTouch q w .load := by unfold accTouch; rw [hl]
  refine ⟨(sextW (if w64 then 64 else 32) (bitsAt (s.padRow q w) (8 * a.lo) (8 * a.len))).toNat, ?_⟩
  unfold accPerform
  simp only [hk, hh, ht, hr, hret, if_true, Bool.false_eq_true, if_false, padRow_mxTouch]

theorem accPerform_refused {s : State} {k j op p pa : Nat} {w64 : Bool} {v v2 : Word} {a : Acc} (hk : a.kind = .atom op w64 v v2)
    (hl : a.loc = .phys 1 p pa) (h : s.arg.getD 3 0 = 1) : accPerform s k j a = s.ueMsg k j (pa / 128 * 128 + a.lo) := by
  have hh : s.hostRefuses a = true := by rw [State.hostRefuses, hl, h]; rfl
  unfold accPerform
  simp only [hk, hh, if_true, hl, Acc.pa]

theorem arg_accDone (s : State) (k j n : Nat) (a : Acc) : (accDone s k j n a).arg = s.arg := by
  obtain ⟨e, h⟩ := accDone_only s k j n a
  rw [h]
  rfl
theorem messages_accDone (s : State) (k j n : Nat) (a : Acc) : (accDone s k j n a).messages = s.messages := by
  obtain ⟨e, h⟩ := accDone_only s k j n a
  rw [h]
  rfl
theorem host_accDone (s : State) (k j n : Nat) (a : Acc) : (accDone s k j n a).host = s.host := by
  obtain ⟨e, h⟩ := accDone_only s k j n a
  rw [h]
  rfl
theorem isAtom_iff {a : Acc} : a.isAtom = true ↔ ∃ op w64 v v2, a.kind = .atom op w64 v v2 := by
  unfold Acc.isAtom
  cases a.kind <;> simp

/-! ### A row of `ldg` arrives (R176, R178) -/

/-- A row set in its slot, and the slot landed with a fault kind or none. -/
def State.ldgLands (y : State) (k j h slot base kind d : Nat) : State :=
  ringProduced ((y.storeRow k (base + slot) rowMask (row d)).modCtx k j fun x => x.setRing h ((x.ring h).land slot kind)) k j h false
/-- The same of a row that could not be read: a record of it, and zero in the slot. -/
def State.ldgFaults (y : State) (k j h slot base kind addr : Nat) : State :=
  (y.errRecord k j (ringRecordWord k j h slot kind addr)).ldgLands k j h slot base kind 0

section
variable {s : State} {k j h slot va : Nat} {a : Acc}

theorem ldgRow_far (hv : 2 ^ 52 ≤ va) : ldgRow s k j h slot a va = s.ldgFaults k j h slot ((s.ctx k j).ring h).base 1 va := by
  unfold ldgRow
  dsimp only
  rw [if_pos (by have := Nat.div_pos hv (by decide); omega)]
  rfl
theorem ldgRow_fault {e l : Nat} (hv : va < 2 ^ 52) (hx : (s.xlNow (clusterOf k) a.fn va false a.priv).2 = .fault e l) :
    ldgRow s k j h slot a va =
      (s.xlNow (clusterOf k) a.fn va false a.priv).1.ldgFaults k j h slot ((s.ctx k j).ring h).base 1 va := by
  unfold ldgRow
  dsimp only
  rw [if_neg (by simp; omega)]
  generalize s.xlNow (clusterOf k) a.fn va false a.priv = r at *
  obtain ⟨y, x⟩ := r
  subst hx
  rfl
/-- A row whose address translates comes from where the translation leads. -/
theorem ldgRow_ok {t part pa : Nat} (hv : va < 2 ^ 52) (hx : (s.xlNow (clusterOf k) a.fn va false a.priv).2 = .ok t part pa) :
    ldgRow s k j h slot a va =
      let y := (s.xlNow (clusterOf k) a.fn va false a.priv).1
      let p := pa / 128 * 128
      if t = 0 then
        if y.l1Bad k part p then y.ldgFaults k j h slot ((s.ctx k j).ring h).base 2 p
        else (y.l1Read k j part p va).1.ldgLands k j h slot ((s.ctx k j).ring h).base 0 (y.l1Read k j part p va).2
      else if y.physBad t part p 128 then y.ldgFaults k j h slot ((s.ctx k j).ring h).base 2 p
      else y.ldgLands k j h slot ((s.ctx k j).ring h).base 0 (y.physRead t part p 128) := by
  unfold ldgRow
  dsimp only
  rw [if_neg (by simp; omega)]
  generalize s.xlNow (clusterOf k) a.fn va false a.priv = r at *
  obtain ⟨y, x⟩ := r
  subst hx
  rfl
end

theorem served_setCluster (s : State) (q : Nat) (c : Cluster) : Served s (s.setCluster q c) := served_of_same rfl rfl rfl rfl rfl
theorem served_walkEnd (s : State) (q fn page : Nat) : Served s (s.walkEnd q fn page) := by
  refine (memStep_walkTouch s fn (page * 4096)).served.trans ?_
  unfold State.walkEnd
  dsimp only
  split
  · exact (served_setCluster ..).trans (served_setCluster ..)
  · exact served_setCluster ..
theorem served_xlNow (s : State) (q fn va : Nat) (write priv atom : Bool) : Served s (s.xlNow q fn va write priv atom).1 := by
  unfold State.xlNow
  split
  · exact .refl s
  · dsimp only
    have hw : Served s (if (s.cluster q).walking.contains (fn, va % 2 ^ 52 / 4096) = true ∨ (s.cluster q).walking.length < 16 then s
        else match (s.cluster q).walking with | w :: _ => s.walkEnd q w.1 w.2 | [] => s) := by
      refine (Served.refl s).ite ?_
      split
      · exact served_walkEnd ..
      · exact .refl s
    split <;> exact hw.trans (served_walkEnd ..)

theorem mixed_land (r : Ring) (i kind : Nat) : (r.land i kind).mixed = r.mixed := by
  have hs (n : Nat) (r : Ring) : (Ring.settle n r).mixed = r.mixed := by
    induction n generalizing r with
    | zero => rfl
    | succ n ih =>
      unfold Ring.settle
      split
      · rfl
      · dsimp only
        split
        · exact ih _
        · rfl
  exact hs ..
theorem ring_setRing_same (x : Ctx) (h : Nat) (r : Ring) : (x.setRing h r).ring h = r := tget_tput_same ..

/-- A whole row stored. -/
theorem blend_rowMask (v old : Row) : blend rowMask v old = v := by
  apply BitVec.eq_of_getLsbD_eq
  intro i hi
  rw [← BitVec.testBit_toNat, testBit_blend _ _ _ hi, rowMask, testBit_row _ hi, Nat.testBit_two_pow_sub_one, decide_eq_true hi, if_pos rfl]

/-- A row of a ring that one producer fills stands in its slot's row. -/
theorem ldgLands_clear {y : State} {k j h slot base : Nat} (d : Nat) (hmix : ((y.ctx k j).ring h).mixed = false)
    (hm : y.landMeets k (.pad ((base + slot) % 8192)) = false) :
    (y.ldgLands k j h slot base 0 d).padRow k (base + slot) = d % 2 ^ 1024 ∧
      ((y.ldgLands k j h slot base 0 d).ctx k j).posted = (y.ctx k j).posted ∧ (y.ldgLands k j h slot base 0 d).held = y.held := by
  have hl : y.ldgLands k j h slot base 0 d =
      (y.storeRow k (base + slot) rowMask (row d)).modCtx k j fun x => x.setRing h ((x.ring h).land slot 0) := by
    unfold State.ldgLands ringProduced
    dsimp only
    rw [ctx_modCtx_same, ring_setRing_same, mixed_land, ctx_storeRow, hmix]
    rfl
  rw [hl]
  refine ⟨?_, ?_, (coresOnly_storeRow y k (base + slot) rowMask (row d) _).held⟩
  · rw [padRow_modCtx, padRow_storeRow_clear _ _ _ _ _ hm, blend_rowMask]
    exact BitVec.toNat_ofNat d 1024
  · rw [ctx_modCtx_same, Ctx.setRing_posted, ctx_storeRow]

/-! ### Translations, L1 and the stacks (R178, R180, R434) -/

section
variable {s : State} {k n : Nat}

/-- The walk that an entry of a cluster waits for ends. -/
theorem walkComplete_occurs {w : Walk} (hd : s.due [k, n]) (hw : (s.cluster k).walks[n]? = some w) (hf : w.fault = none) :
    Occurs s .translationWalkComplete (s.fresh.walkEnd k w.fn w.page) := by
  refine occurs_event (f := evWalk) rfl hd.1 ?_
  have hw' : (s.fresh.cluster k).walks[n]? = some w := hw
  simp only [evWalk, State.walkDone, argN_fresh hd.2, List.getD_cons_zero, List.getD_cons_succ, hw', hf, Option.isSome_none,
    Bool.false_eq_true, if_false]

theorem walks_tlbFill (s : State) (q : Nat) (t : TlbEnt) : ((s.tlbFill q t).cluster q).walks = (s.cluster q).walks := by
  unfold State.tlbFill
  rw [cluster_setCluster_same]
theorem tlb_head_tlbFill (s : State) (q : Nat) (t : TlbEnt) : ((s.tlbFill q t).cluster q).tlb.head? = some t := by
  unfold State.tlbFill
  rw [cluster_setCluster_same]
  rfl

theorem l1Eviction_occurs {l : L1Line} (hd : s.due [k, n]) (hl : tfind (s.core k).l1 n = some l) :
    Occurs s .l1Eviction (s.fresh.l1Evict k n) := by
  refine occurs_event (f := evEvict) rfl hd.1 ?_
  have hl' : tfind (s.fresh.core k).l1 n = some l := hl
  simp only [evEvict, argN_fresh hd.2, List.getD_cons_zero, List.getD_cons_succ, hl', Option.isSome_some, if_true]

theorem tfind_tdel_same {α : Type} (t : Tab α) (n : Nat) : tfind (tdel t n) n = none := by
  induction t with
  | nil => rfl
  | cons e r ih =>
    unfold tdel
    split
    · exact ih
    · next h => simpa only [tfind, if_neg h] using ih
theorem tfind_l1Evict (s : State) (k n : Nat) : tfind ((s.l1Evict k n).core k).l1 n = none := by
  rw [State.l1Evict, State.modCore, core_setCore_same]
  exact tfind_tdel_same ..
/-- An eviction that writes nothing back waits for nothing. -/
theorem held_l1Evict {l : L1Line} (hl : tfind (s.core k).l1 n = some l) (h : l.wrote = 0 ∨ s.unitsReady) :
    (s.l1Evict k n).held = s.held := by
  rcases h with h | h
  · have hs : s.l1Flush k n = s := by
      unfold State.l1Flush
      simp only [hl, h, if_true]
    rw [State.l1Evict, hs]
    rfl
  · exact ((l1Step_l1Evict s k n).ready h).1
end

/-- The bits a list of positions names, summed up. -/
theorem testBit_foldl_bits (f : Nat → Bool) (n i : Nat) :
    (((List.range n).filter f).foldl (fun a i => a + 2 ^ i) 0).testBit i = (decide (i < n) && f i) := by
  have hlt (n : Nat) : ((List.range n).filter f).foldl (fun a i => a + 2 ^ i) 0 < 2 ^ n := by
    induction n with
    | zero => exact Nat.one_pos
    | succ n ih =>
      rw [List.range_succ, List.filter_append, List.foldl_append, Nat.pow_succ]
      cases hn : f n <;> simp only [List.filter_cons, List.filter_nil, hn, if_true, Bool.false_eq_true, if_false, List.foldl_cons,
        List.foldl_nil] <;> omega
  induction n with
  | zero => simp
  | succ n ih =>
    have hb := hlt n
    rw [List.range_succ, List.filter_append, List.foldl_append]
    generalize ((List.range n).filter f).foldl (fun a i => a + 2 ^ i) 0 = x at hb ih ⊢
    cases hn : f n
    · rw [List.filter_cons_of_neg (by simp [hn]), List.filter_nil, List.foldl_nil, ih]
      rcases Nat.lt_trichotomy i n with h | rfl | h
      · rw [decide_eq_true h, decide_eq_true (by omega)]
      · rw [hn, Bool.and_false, Bool.and_false]
      · rw [decide_eq_false (by omega), decide_eq_false (by omega)]
    · rw [List.filter_cons_of_pos hn, List.filter_nil, List.foldl_cons, List.foldl_nil, Nat.add_comm, ← Nat.mul_one (2 ^ n),
        Nat.two_pow_add_eq_or_of_lt hb, Nat.mul_one, Nat.testBit_or, Nat.testBit_two_pow, ih]
      rcases Nat.lt_trichotomy i n with h | rfl | h
      · rw [decide_eq_false (by omega), decide_eq_true h, decide_eq_true (by omega), Bool.false_or]
      · simp [hn]
      · rw [decide_eq_false (by omega), decide_eq_false (by omega), decide_eq_false (by omega)]
        rfl

/-- A fetch brings every word of its sector (R180). -/
theorem has_fill (l : StackLine) (m : Memory) (ln q : Nat) {w : Nat} (hw : w < 64) :
    (l.fill m ln q).has w = (l.has w || decide (w / 16 = q)) := by
  have hgot : bitAt (l.fill m ln q).got.toNat w =
      (bitAt l.got.toNat w || (decide (16 * q ≤ w) && (decide (w - 16 * q < 16) && !l.has (16 * q + (w - 16 * q))))) := by
    unfold StackLine.fill
    dsimp only
    rw [bitAt_testBit, bitAt_testBit, BitVec.toNat_or, Nat.testBit_or, BitVec.toNat_ofNat, Nat.testBit_mod_two_pow, decide_eq_true hw,
      Bool.true_and, Nat.testBit_shiftLeft, testBit_foldl_bits]
  have hwrote : (l.fill m ln q).wrote = l.wrote := rfl
  rw [StackLine.has, hgot, hwrote, ← Bool.or_assoc]
  show (l.has w || _) = _
  by_cases hs : w / 16 = q
  · rw [decide_eq_true hs, decide_eq_true (by omega), decide_eq_true (by omega), show 16 * q + (w - 16 * q) = w by omega]
    cases l.has w <;> rfl
  · rw [decide_eq_false hs]
    by_cases hle : 16 * q ≤ w
    · rw [decide_eq_false (p := w - 16 * q < 16) (by omega), Bool.false_and, Bool.and_false]
    · rw [decide_eq_false hle, Bool.false_and]

theorem sectorFetch_occurs {s : State} {n j : Nat} {l : StackLine} (hd : s.due [n, j]) (hl : tfind s.stack n = some l)
    (hv : l.valid.getLsbD (j % 4) = true) (hp : l.poison = false) (hb : tget false s.badUnits (4 * keyLine n + j % 4) = false)
    (hs : s.sliceReady l.slice = true) (hc : s.chanReady (256 * keyLine n) = true) :
    Occurs s .sectorFetch { s.fresh with stack := tput s.stack n (l.fill s.dram (keyLine n) (j % 4)) } := by
  refine occurs_event (f := evFetch) rfl hd.1 ?_
  have hl' : tfind s.fresh.stack n = some l := hl
  have hb' : tget false s.fresh.badUnits (4 * keyLine n + j % 4) = false := hb
  have hs' : s.fresh.sliceReady l.slice = true := hs
  have hc' : s.fresh.chanReady (256 * keyLine n) = true := hc
  have hv' : bitAt l.valid.toNat (j % 4) = true := by rwa [bitAt_testBit, BitVec.testBit_toNat]
  simp only [evFetch, argN_fresh hd.2, List.getD_cons_zero, List.getD_cons_succ, hl', hb', hs', hc', hv', hp, Bool.not_true,
    Bool.false_eq_true, or_self, if_false]
  rfl

theorem escape_occurs {s : State} {k j n d : Nat} {a : Acc} (hd : s.due [k, j, n]) (hp : (s.ctx k j).posted[n]? = some a)
    (hto : packetTo s.fresh a = some d) :
    Occurs s .dnEscapeTimeout { s.fresh with escaped := tset false s.escaped (128 * k + d) true } := by
  refine occurs_event (f := evEscape) rfl hd.1 ?_
  have hp' : (s.fresh.ctx k j).posted[n]? = some a := hp
  simp only [evEscape, argN_fresh hd.2, List.getD_cons_zero, List.getD_cons_succ, hp', Option.bind_some, hto]
  rfl

theorem cluster_walkTouch (s : State) (fn va q : Nat) : (s.walkTouch fn va).cluster q = s.cluster q := by
  obtain ⟨-, hc, -⟩ := (memStep_walkTouch s fn va).keeps
  rw [State.cluster, hc]
  rfl
theorem walkEnd_ok {s : State} {q fn page : Nat} {t : TlbEnt} (h : s.walk fn (page * 4096) = .ok t) :
    s.walkEnd q fn page = ((s.walkTouch fn (page * 4096)).setCluster q { s.cluster q with
      walks := (s.cluster q).walks.filter fun w => !w.busy fn page }).tlbFill q t := by
  unfold State.walkEnd
  simp only [h, cluster_walkTouch]
theorem walkEnd_error {s : State} {q fn page : Nat} {e : Nat × Nat} (h : s.walk fn (page * 4096) = .error e) :
    s.walkEnd q fn page = (s.walkTouch fn (page * 4096)).setCluster q { s.cluster q with
      walks := (s.cluster q).walks.map fun w => if w.busy fn page then { w with fault := some e } else w } := by
  unfold State.walkEnd
  simp only [h, cluster_walkTouch]

theorem hostOk_accDone (s : State) (k j n : Nat) (a : Acc) : (accDone s k j n a).hostOk = s.hostOk := by
  obtain ⟨e, h⟩ := accDone_only s k j n a
  rw [h]
  rfl
theorem coresOnly_accWrite_win {s : State} {k j q w v : Nat} {a : Acc} (h : a.loc = .win q w) : CoresOnly s (accWrite s k j a v) := by
  obtain ⟨y, hy, -⟩ := accWrite_win (s := s) (k := k) (j := j) (v := v) h
  rw [hy]
  exact coresOnly_storeRow ..
theorem padRow_accReturn (s : State) (k j key v q w : Nat) : (accReturn s k j key v).padRow q w = s.padRow q w := padRow_modCtx ..
theorem accDone_virt {s : State} {k j n va : Nat} {a : Acc} (h : a.loc = .virt va) :
    accDone s k j n a = s.modCtx k j (·.without n) := by
  unfold accDone packetTo
  rw [h]
  rfl
theorem accPerform_ldg {s : State} {k j h slot va : Nat} {a : Acc} (hk : a.kind = .ldg h slot) (hl : a.loc = .virt va) :
    accPerform s k j a = ldgRow s k j h slot a va := by
  unfold accPerform
  simp only [hk, hl]
theorem landMeets_pad {s : State} {q w : Nat} (hc : s.coloPend q w (2 ^ 64) = false) (hb : (s.core q).updBusy w = false) :
    s.landMeets q (.pad w) = false := Bool.or_eq_false_iff.2 ⟨hc, hb⟩

/-- Settles O54: each step takes place with its effect, of which a wait alone could leave nothing. -/
theorem accessStepsOccur : Obligations.AccessStepsOccur := by
  intro s k j n a u x alone bytes
  refine ⟨?write, ?atomic, ?refused, ?ldg, ?walk, ?evict, ?fetch, fun d hd hp hto => escape_occurs hd hp hto⟩
  case write =>
    intro hd hp hr hw hl t
    have hocc : Occurs s .postedWritePerform t := postedWritePerform_occurs hd hp hr hw hl
    refine ⟨hocc, fun q w hk hloc => ?win, fun hu hk => ?leaves, fun p pa hk hloc hrdy => ?host⟩
    case win =>
      have ht : t = accWrite (accDone u k j n a) k j a a.data.toNat := accPerform_store hk
      have hc : CoresOnly (accDone u k j n a) t := ht ▸ coresOnly_accWrite_win hloc
      refine ⟨(sameMemory_accDone u k j n a).trans hc.sameMemory, fun q' r hq => ?_, fun h0 ⟨hw8, hlen, hcol, hbusy⟩ => ?_⟩
      · obtain ⟨y, hy, -⟩ := accWrite_win (s := accDone u k j n a) (k := k) (j := j) (v := a.data.toNat) hloc
        rw [ht, hy, padRow_storeRow_other _ _ _ _ _ _ hq, padRow_accDone]
        rfl
      · have hb : bytes (t.padRow q w) = a.data.toNat % 2 ^ (8 * a.len) := by
          rw [ht]
          exact bytes_accWrite_win hloc h0 hw8 hlen (landMeets_accDone u k j n a (landMeets_pad hcol hbusy))
        exact ⟨hb, hocc.brings (hc.held.trans (held_accDone u k j n a)) hb fun _ _ _ _ h => h⟩
    case leaves =>
      have hs := served_accPerform (s := accDone u k j n a) (k := k) (j := j) hk
      obtain ⟨hh, -⟩ := hs.ready (unitsReady_accDone u k j n a hu)
      refine hocc.brings (hh.trans (held_accDone u k j n a)) ?_ fun _ _ _ _ h => h
      exact (congrArg Ctx.posted (hs.ctx k j)).trans (congrArg Ctx.posted (ctx_accDone u k j n a))
    case host =>
      have hok : (accDone u k j n a).hostOk = true := by
        rw [hostOk_accDone, State.hostOk, bitAt, Nat.shiftRight_eq_div_pow]
        exact beq_iff_eq.2 hrdy
      have ht : t = _ := (accPerform_store (.inr hk)).trans (accWrite_host hloc hok)
      have hm := sameMemory_accDone u k j n a
      rw [ht]
      refine ⟨fun b => ⟨(hm b).1, (hm b).2.2⟩, fun b hb => ?_⟩
      exact (Memory.read_writeN_other _ _ (by omega)).trans (hm b).2.1
  case atomic =>
    intro hd hp hr hret ha
    have hocc := atomicReturn_occurs hd hp hr hret ha
    refine ⟨hocc, fun op w64 v v2 q w hk hloc ho h0 ⟨hw8, hlen, hcol, hbusy⟩ => ?_⟩
    have hm : (accDone u k j n a).landMeets q (.pad w) = false := landMeets_accDone u k j n a (landMeets_pad hcol hbusy)
    have hh : (accDone u k j n a).hostRefuses a = false := by rw [State.hostRefuses, hloc, Bool.and_false]
    obtain ⟨y, hy⟩ := accPerform_atom_win (k := k) (j := j) hk hloc hret ho hm hh
    refine hocc.brings ?_ ?_ fun _ _ _ _ h => h
    · rw [hy]
      exact ((coresOnly_mxTouch ..).trans (coresOnly_accWrite_win hloc)).held.trans (held_accDone u k j n a)
    · rw [hy]
      obtain ⟨hpost, hpend⟩ := ctx_accReturn (accWrite ((accDone u k j n a).mxTouch q w .load) k j a
        (atomNew op (8 * a.len) (bitsAt ((accDone u k j n a).padRow q w) (8 * a.lo) (8 * a.len)) v.toNat v2.toNat)) k j a.key y
      refine ⟨?_, hpost.trans ?_, hpend⟩
      · rw [padRow_accReturn, padRow_accDone]
        exact bytes_accWrite_win hloc h0 hw8 hlen (landMeets_mxTouch_any w .load hm)
      · rw [(served_accWrite ..).ctx, ctx_mxTouch, ctx_accDone]
        rfl
  case refused =>
    intro p pa hd hp hr hret ha hloc at_
    obtain ⟨op, w64, v, v2, hk⟩ := isAtom_iff.1 ha
    have ht : accPerform (accDone u k j n a) k j a = (accDone u k j n a).ueMsg k j at_ :=
      accPerform_refused hk hloc (by rw [arg_accDone, show u.arg = s.arg from rfl, hd.2]; rfl)
    have hocc := ht ▸ atomicReturn_occurs hd hp hr hret ha
    refine ⟨hocc, hocc.brings (held_accDone u k j n a) ⟨?_, host_accDone u k j n a⟩ fun _ _ _ _ h => h⟩
    exact congrArg (· ++ [(k, j, at_)]) (messages_accDone u k j n a)
  case ldg =>
    intro h slot va hd hp hr hk hloc v r w lands faulted filled
    have hocc : Occurs s .ldgRowArrival (ldgRow v k j h slot a va) := by
      have := ldgRowArrival_occurs hd hp hr hk
      rwa [accDone_virt hloc, accPerform_ldg hk hloc] at this
    have hv : v.ctx k j = x.without n := ctx_modCtx_same u k j (·.without n)
    have hbase : ((v.ctx k j).ring h).base = (x.ring h).base := by rw [hv]; rfl
    have hfill (y : State) (d : Nat) (hs : Served v y) (ho : Occurs s .ldgRowArrival (lands y 0 d)) : filled y d := by
      refine ⟨ho, fun hu hmix hcol hbusy => ?_⟩
      have hy := (hs.ctx k j).trans hv
      have hm : v.landMeets k (.pad (w % 8192)) = false :=
        landMeets_setCore_any rfl (tls_setCtx rfl) (fun w => updBusy_setCtx fun hw => hw) (landMeets_pad hcol hbusy)
      obtain ⟨hpad, hpost, hheld⟩ := ldgLands_clear (h := h) d (by rw [hy]; exact hmix) (hs.clear k _ hm)
      refine ho.brings (hheld.trans (hs.ready hu).1) ⟨hpad, hpost.trans ?_⟩ fun _ _ _ _ h => h
      rw [hy]
      rfl
    refine ⟨fun hva => ?far, fun e l hva hx => ?fault, fun t part pa hva hx => ?found⟩
    case far => rwa [ldgRow_far hva, hbase] at hocc
    case fault => rwa [ldgRow_fault hva hx, hbase] at hocc
    case found =>
      have hx1 := served_xlNow v (clusterOf k) a.fn va false a.priv false
      rw [ldgRow_ok hva hx, hbase] at hocc
      dsimp only at hocc
      refine ⟨fun ht hb => ?_, fun ht hb => ?_, fun ht hb => hfill _ _ hx1 ?_,
        fun ht hb => hfill _ _ (hx1.trans (l1Step_l1Read ..).served) ?_⟩
      · rwa [if_neg ht, if_pos hb] at hocc
      · rwa [if_pos ht, if_pos hb] at hocc
      · rwa [if_neg ht, if_neg (Bool.eq_false_iff.1 hb)] at hocc
      · rwa [if_pos ht, if_neg (Bool.eq_false_iff.1 hb)] at hocc
  case walk =>
    intro w hd hw hf v q left failed
    have hocc := walkComplete_occurs hd hw hf
    have hv : v.cluster k = s.cluster k := cluster_walkTouch ..
    have hready (hu : s.unitsReady) : v.held = false := ((memStep_walkTouch u w.fn (w.page * 4096)).ready hu).1
    refine ⟨fun t hwalk => ?entry, fun e hwalk => ?fault⟩
    case entry =>
      rw [walkEnd_ok hwalk] at hocc
      show Occurs s .translationWalkComplete ((v.setCluster k { v.cluster k with walks := left }).tlbFill k t) ∧ _
      rw [hv]
      refine ⟨hocc, fun hu => hocc.brings (hready hu) ⟨?_, tlb_head_tlbFill ..⟩ fun _ _ _ _ h => h⟩
      rw [walks_tlbFill, cluster_setCluster_same]
      rfl
    case fault =>
      rw [walkEnd_error hwalk] at hocc
      show Occurs s .translationWalkComplete (v.setCluster k { v.cluster k with walks := failed e }) ∧ _
      rw [hv]
      refine ⟨hocc, fun hu => hocc.brings (hready hu) ?_ fun _ _ _ _ h => h⟩
      rw [cluster_setCluster_same]
      rfl
  case evict =>
    intro l hd hl
    have hocc := l1Eviction_occurs hd hl
    exact ⟨hocc, fun h => hocc.brings (held_l1Evict hl h) (tfind_l1Evict ..) fun _ _ _ _ h => h⟩
  case fetch =>
    intro l hd hl hv hp hb hs hc
    exact ⟨_, _, sectorFetch_occurs hd hl hv hp hb hs hc, rfl, fun w hw => has_fill _ _ _ _ hw⟩

end Sys2Proof.Machine
